-- ==== Sys2Proof/Word.lean ====
section
/-! DEFINITION. The word types of the block: 32-bit registers and successor words (Table 2.4),
64-bit timestamps and counters, 8-bit status codes (Table 10.1). -/

namespace Sys2Proof

/-- A 32-bit register or successor word (R50, R397). -/
abbrev Word32 := BitVec 32

/-- A 64-bit timestamp or operand word (R126, R303). -/
abbrev Word64 := BitVec 64

/-- A status code of Table 10.1 (R277). -/
abbrev Status := BitVec 8

end Sys2Proof
end

