-- ==== Sys2Proof/Syntax.lean ====
section
/-! DEFINITION. The commands of the Auhiorn block: one constructor of `Instr` per row of
spec/opcode_table.json, and the operand types they use. The table gives no row any bits, so the
operands are what the spec's rules say the event carries (log entry 1). -/

namespace Sys2Proof

/-- A unit with tables of its own, as SRCK and SRCI name it (R288, Table 10.6). -/
inductive UnitId where
  | keeper
  | ward (w : Nat)
  | hinge (h : Nat)
deriving DecidableEq, Repr

/-- A clock and reset domain of Table 13.14 (R10, R376). -/
inductive Domain where
  | timestamp
  | management
  | meter
  | keeper
  | ward (w : Nat)
  | hinge (h : Nat)
deriving DecidableEq, Repr

/-- The two register ports (R368). -/
inductive RegPort where
  | mgt
  | mtp
deriving DecidableEq, Repr

/-- The Wards a write to a Ward page acts on: a Ward's own window, the broadcast window or a
group window (R402). -/
inductive WTarget where
  | ward (w : Nat)
  | bcast
  | group (g : Nat)
deriving DecidableEq, Repr

/-- The unit whose CNT_CTRL.CLR is written (R302). -/
inductive CTarget where
  | keeper
  | wards (t : WTarget)
  | hinge (h : Nat)
deriving DecidableEq, Repr

/-- A meter configuration register and the word written to it (R342). -/
inductive MtCfg where
  | period (v : BitVec 32)
  | key (v : BitVec 32)
  | unitId (hi : Bool) (v : BitVec 32)
deriving DecidableEq, Repr

/-- What SECDED finds in a tally line on its way to the meter (R333, R336). -/
inductive LineHealth where
  | ok
  | badTenantKnown
  | badTenantLost
deriving DecidableEq, Repr

/-- The response of a memory port (R365, R287). -/
inductive Resp where
  | okay
  | fault
  | poison
deriving DecidableEq, Repr

/-- Which leg of a settlement a notice ends (R57, R60 condition 5). -/
inductive NoticeKind where
  | fromPort
  | toRing
deriving DecidableEq, Repr

/-- The notices of an issue proxy (R57). -/
inductive ProxyKind where
  | placed
  | preloaded
  | running
deriving DecidableEq, Repr

/-- What a ring fetcher reads (R121). -/
inductive FetchKind where
  | record
  | image
deriving DecidableEq, Repr

/-- A channel: its ID and the instance that opened it, none for this instance (Table 9.1). -/
structure ChKey where
  inst : Option Nat
  ch : Nat
deriving DecidableEq, Repr

/-- Where a close is applied (R159). -/
inductive CloseAt where
  | directory
  | tx
  | rx
deriving DecidableEq, Repr

/-- Where an item of another instance comes from: the Hinge that hands it over, its origin and its tenant (Table 9.4). -/
structure Via where
  hinge : Nat
  inst : Nat
  tenant : Nat
deriving DecidableEq, Repr

/-- The Hinge that hands an item over and the item's origin. -/
structure Origin where
  hinge : Nat
  inst : Nat
deriving DecidableEq, Repr

/-- An origin with the tenant of the item's header. -/
abbrev Origin.via (o : Origin) (tenant : Nat) : Via := ⟨o.hinge, o.inst, tenant⟩

/-- An item's origin without its tenant. -/
abbrev Via.origin (v : Via) : Origin := ⟨v.hinge, v.inst⟩

/-- The word that a SCRUB_READ corrects or finds clean (R283): the patrol's next word, which may be the table's last, or a
word that an ordinary read has reached. -/
inductive ScrubWord where
  | patrol (last : Bool)
  | ordinary (idx : Nat)
deriving DecidableEq, Repr

/-- The source of a SIGNAL (R207, R209). -/
inductive SigSrc where
  | settle (ring : Nat) (subid : BitVec 32) (word : BitVec 32) (tenant : Nat)
  | hsig (port : Nat) (tag : BitVec 16) (tenant : Option Nat)
  | remote (via : Via) (tag : BitVec 32)
deriving DecidableEq, Repr

/-- The operation of a HOP item (Table 9.5). -/
inductive HopOp where
  | signal
  | reset
  | wait
  | waitRemove
deriving DecidableEq, Repr

/-- The operation of a CHC item (Table 9.5). -/
inductive ChcOp where
  | openCh
  | close
  | tear
deriving DecidableEq, Repr

/-- An item of a Hinge: the header slot of Table 9.4 and its data slots (R258). -/
structure Item where
  kind : BitVec 8
  sinst : Nat
  dinst : Nat
  tenant : Nat
  hops : Nat
  args : BitVec 80
  data : List (BitVec 128)
deriving DecidableEq, Repr

/-- The REC and IMP items of one remote reservation, ended by RESERVE_END (R253). -/
structure ReserveReq where
  inst : Nat
  ring : Nat
  bank : Nat
  tenant : Nat
  cls : Bool
  recs : List (Nat × BitVec 512)
  imps : List (Nat × Nat × Nat)
deriving DecidableEq, Repr

/-- The answer of a remote Keeper to RESERVE_END (R253, R254). -/
inductive ReserveAns where
  | ok (hnds : List (Nat × BitVec 32))
  | refused (status : BitVec 8)
  | retry
deriving DecidableEq, Repr

/-- The commands: one constructor per row of the operation table. -/
inductive Instr where
  /-- PORST_N_ASSERT (R379): Power-on reset is asserted and every domain, including the meter and
      the timestamp, is held in reset and its state discarded. -/
  | porstNAssert
  /-- PORST_N_RELEASE (R376): Synchronised release of PORST_N starts the dividers and the
      staggered domain release sequence with ATTEMPTS cleared. -/
  | porstNRelease
  /-- SRST_N_ASSERT (R379): Soft reset clears Keeper, Ward and Hinge state and the lock while
      keeping the meter, the timestamp and the boot counters. -/
  | srstNAssert
  /-- SRST_N_RELEASE (R386): Release of SRST_N begins a new boot attempt, updating ATTEMPTS and
      choosing full or minimal mode. -/
  | srstNRelease
  /-- MTR_RST_N (R330): Meter reset discards the accumulators and unpopped records and leaves the
      meter STOPPED. -/
  | mtrRstN
  /-- DOMAIN_RESET_RELEASE (R376): A domain (timestamp, management, meter, Keeper, Ward w or Hinge
      h) leaves reset at its scheduled fclk and begins its scrub or link-up. -/
  | domainResetRelease (d : Domain)
  /-- BOOT_SCRUB_DONE (R380): A unit's scrub of every table word to valid-zero ends and its self-
      test begins. -/
  | bootScrubDone (u : UnitId)
  /-- SELF_TEST_DONE (R381): Pattern self-test of a unit ends, grading words as fatal or corrected
      and starting the rescrub. -/
  | selfTestDone (u : UnitId) (fatal : List (Nat × Nat)) (corrected : List (Nat × Nat))
  /-- RESCRUB_DONE (R380): A unit's rescrub ends, releasing held table-window accesses. -/
  | rescrubDone (u : UnitId)
  /-- TMR_CHECK (R383): The Keeper lane check ends, recording a hard lane or failing the start
      with REASON TMR. -/
  | tmrCheck (bad : BitVec 3)
  /-- LINK_UP (R384): A Hinge's adapter reports the active state during boot. -/
  | linkUp (h : Nat)
  /-- LINK_UP_TIMEOUT (R384): A Hinge that has not reached link-up within 1.28 ms sets its HFAIL
      bit and raises its interrupt. -/
  | linkUpTimeout (h : Nat)
  /-- LOCK (R389): A write of KP_CTRL.LOCK in READY ends the boot attempt, freezes RWL fields and
      lets the Hinges exchange HELLO. -/
  | lock
  /-- FWFAIL (R388): A write of KP_BOOT.FWFAIL before the lock fails the attempt with REASON
      FIRMWARE. -/
  | fwfail
  /-- REGISTER_WRITE (R390): A management write to a register with no row of its own applies under
      its access class as a rank-10 event, directly or through a broadcast or group window. -/
  | registerWrite (port : RegPort) (addr : BitVec 24) (data : BitVec 32) (strb : BitVec 4)
  /-- RWQ_SHADOW_WRITE (R391): A write to an RWQ field updates only its shadow copy and marks a
      commit pending. -/
  | rwqShadowWrite (addr : BitVec 24) (data : BitVec 32)
  /-- COMMIT_POINT (R392): A Ward reaches a commit point and pending RWQ shadows are copied to the
      working copies after the cycle's events. -/
  | commitPoint (w : Nat)
  /-- COMMIT_FORCE (R392): A write of KP_CMT_CTRL.FORCE makes every Ward reach a commit point. -/
  | commitForce
  /-- WINDOW_READ (R402): A read through a broadcast or group window samples all members and
      returns the lowest member's value, updating BCAST_DIFF. -/
  | windowRead (addr : BitVec 24)
  /-- MULTIWORD_READ_LATCH (R400): A read of W0 or LO of a multi-word register or counter latches
      its higher words for the next read. -/
  | multiwordReadLatch (addr : RegPort × BitVec 24)
  /-- EVENT_RING_READ (R320): A read of WD_EV_DATA0 or WD_EV_TSNEW_LO latches the rest of the
      selected event-ring entry. -/
  | eventRingRead (addr : BitVec 24)
  /-- RING_DESCRIPTOR_WRITE (R110): A write to a ring descriptor word is applied, or refused with
      PG_ERR.RING_CFG while the ring is enabled or outstanding. -/
  | ringDescriptorWrite (k : Nat) (data : BitVec 32)
  /-- RING_ENABLE (R110): Setting ENABLE checks tenant, slot and home, resets the ring pointers
      and initialises TN_RING_DONE. -/
  | ringEnable
  /-- RING_DISABLE (R111): Clearing ENABLE stops fetch at the next record boundary while accepted
      submissions complete. -/
  | ringDisable
  /-- TENANT_CFG_WRITE (R230): A write of KP_TEN_CFG is applied field by field, refusing EN := 0
      while rings are live and GUARD_MODE 0b11. -/
  | tenantCfgWrite (data : BitVec 32)
  /-- HASP_ASSIGN (R206): A write of a hasp's V and TENANT assigns it and zeroes COUNT, or is
      refused while waits are registered. -/
  | haspAssign (data : BitVec 32)
  /-- HASP_FORCE (R216): A write of KP_HASP_FORCE.GO sets the selected hasp's COUNT to
      KP_HASP_FVAL as a rank-6 event and logs a HASP_FORCE record. -/
  | haspForce
  /-- PREEMPT_REQUEST (R237): A write of KP_PRE_CTRL.GO with OP 1 requests pre-emption of a RUN
      ring, choosing the earliest valid point or the next one reached. -/
  | preemptRequest (ring : Nat) (queue : Bool)
  /-- PREEMPT_RESUME (R242): A write of KP_PRE_CTRL.GO with OP 2 returns a HELD ring to RUN, or
      records a resume for a PENDING ring. -/
  | preemptResume (ring : Nat)
  /-- KEY_POOL_CFG_WRITE (R217): A write of a key pool's base, size, tenant or EN is applied, or
      refused with PG_ERR.KEY_CFG. -/
  | keyPoolCfgWrite (tgt : WTarget) (k : Nat) (data : BitVec 32)
  /-- KEY_POOL_RESET (R223): A write of WD_KEY_CTRL.RESET voids every grant of the pool, refuses
      waiters and notifies the destination port. -/
  | keyPoolReset (tgt : WTarget)
  /-- MQ_CFG_WRITE (R170): A write of WD_MQ_CFG configures a queue, refusing an enable with
      overlapping slots or a bad reader. -/
  | mqCfgWrite (tgt : WTarget) (k : Nat) (data : BitVec 32)
  /-- MQ_FLUSH (R174): A write of WD_MQ_CTRL.FLUSH discards the queue's items at its next packet
      boundary. -/
  | mqFlush (tgt : WTarget)
  /-- FLUSH_DISCARD (R174): A pending flush discards every item in the cycle after the landing
      item's last flit lands. -/
  | flushDiscard (w : Nat) (q : Nat)
  /-- MQ_PUSH (R175): A write of WD_MQ_WPUSH.GO pushes WD_MQ_WDATA as one item, or sets OVERRUN
      when the queue is full. -/
  | mqPush (tgt : WTarget) (be : Bool)
  /-- MQ_POP (R175): A write of WD_MQ_RPOP.GO moves the next item in read order into WD_MQ_RDATA,
      or sets EMPTY. -/
  | mqPop (tgt : WTarget)
  /-- MQ_RDATA_ADVANCE (R413): A read of WD_MQ_RDATA15 moves RDATA to the popped item's next flit. -/
  | mqRdataAdvance (w : Nat)
  /-- LOG_POP (R288): A write of KP_LOG_CTRL.POP removes the oldest error-log record. -/
  | logPop
  /-- LOG_REINIT (R292): A write of KP_LOG_CTRL.REINIT scrubs the log SRAM, clears FAILED and
      empties the log into DROPPED. -/
  | logReinit
  /-- LR_CLEAR (R292): A write of KP_LR_CTRL.CLEAR clears the last-resort registers and OVF. -/
  | lrClear
  /-- COUNTER_CLEAR (R302): A write of a unit's CNT_CTRL.CLR zeroes every counter of that unit
      after the cycle's events. -/
  | counterClear (tgt : CTarget)
  /-- COUNTER_SNAPSHOT_ORDER (R304): A write of KP_CNT_CTRL.SNAP sends a snapshot order to every
      unit. -/
  | counterSnapshotOrder
  /-- COUNTER_SNAPSHOT (R304): Exactly 40 fclk after the order, every unit copies its counters
      into its shadow bank and SNAP_TS is recorded. -/
  | counterSnapshot
  /-- BLOCKED_ON_SNAP_ORDER (R322): A write of KP_BLK_CTRL.SNAP orders every Ward to build its
      WD_BLOCKED_ON records. -/
  | blockedOnSnapOrder
  /-- BLOCKED_ON_SNAPSHOT (R322): At the delivery cycle each Ward builds its blocked-on record set
      from that cycle's state. -/
  | blockedOnSnapshot
  /-- BLOCKED_ON_DONE (R322): KP_BLK_STAT.DONE is set once every Ward has finished building its
      records. -/
  | blockedOnDone
  /-- DUMP_GO (R299): A write of KP_DUMP_CTRL.GO while hung, quiesced or faulted freezes the
      instance, resets its links and starts a dump, or sets DUMP_DENIED. -/
  | dumpGo
  /-- DUMP_SNAPSHOT_TIMEOUT (R299): A port that has not returned its snapshot within SNAP_TMO is
      marked absent. -/
  | dumpSnapshotTimeout (port : Nat)
  /-- DUMP_DONE (R299): The last dump section is written, KP_DUMP_STAT.DONE is set and IRQ3 is
      raised. -/
  | dumpDone
  /-- TRACE_ENABLE (R314): A write of TR_CTRL.EN := 1 in OFF arms the trace with the pre-trigger
      ring at page 0. -/
  | traceEnable
  /-- TRACE_DISABLE (R314): A write of TR_CTRL.EN := 0 returns the trace to OFF after staged
      entries are written. -/
  | traceDisable
  /-- TRACE_TRIG_WRITE (R316): A write of TR_CTRL.TRIG triggers an armed trace. -/
  | traceTrigWrite
  /-- HINGE_DOWN_WRITE (R272): A write of HG_CTRL.DOWN takes the Hinge to DOWN. -/
  | hingeDownWrite (h : Nat)
  /-- HINGE_REARM (R276): A write of HG_CTRL.REARM to a DOWN Hinge asks the adapter to retrain and
      passes through TRAIN. -/
  | hingeRearm (h : Nat)
  /-- TS_UNLOCK (R271): A firmware write of 0 to HG_TS_STAT.LOCKED allows the next accepted sample
      to step or hold the timestamp. -/
  | tsUnlock (h : Nat)
  /-- DISC_FAULT_CLEAR (R297): A W1C write to DISC_FAULT clears the latch only when both
      synchronised deadbolt samples are deasserted. -/
  | discFaultClear
  /-- CAPTURE_CLEAR (R147): Writing 1 to KP_CAP_STAT.VALID clears the capture so the next halt or
      command fault refills it. -/
  | captureClear
  /-- TN_DOORBELL (R115): A doorbell write in a tenant window is a rank-9 event at the ring's home
      Ward that replaces the write pointer when valid. -/
  | tnDoorbell (t : Nat) (tslot : Nat) (wptr : BitVec 16)
  /-- RING_CANCEL_OLDEST (R145): TN_RING_CTRL.CANCEL 0b01 cancels the ring's oldest outstanding
      submission as a rank-7 event. -/
  | ringCancelOldest (t : Nat) (tslot : Nat)
  /-- RING_CANCEL_ALL (R145): TN_RING_CTRL.CANCEL 0b10 cancels every accepted submission and every
      record up to the write pointer. -/
  | ringCancelAll (t : Nat) (tslot : Nat)
  /-- RING_RESUME (R146): TN_RING_CTRL.RESUME restarts a halted walk by repeating the faulting
      item. -/
  | ringResume (t : Nat) (tslot : Nat)
  /-- METER_RUN (R341): Writing RUN := 1 in STOPPED forms a START record and opens a period. -/
  | meterRun
  /-- METER_STOP (R341): Writing RUN := 0 closes the current period and then stops the meter. -/
  | meterStop
  /-- METER_CONFIG_WRITE (R342): A write of MT_PERIOD, MT_KEY or MT_UNIT_ID while running is
      shadowed and forces a period close followed by a CONFIG record. -/
  | meterConfigWrite (c : MtCfg)
  /-- METER_REC_POP (R340): A write of MT_REC_POP removes the oldest signed record from the
      buffer. -/
  | meterRecPop
  /-- TALLY_SLOT_SAMPLE (R331): In each sclk the meter samples one source's dirty tally line by
      time division and adds it to the open bank. -/
  | tallySlotSample (health : LineHealth)
  /-- PERIOD_DUE (R334): The period's sclk count reaches MT_PERIOD and the period becomes due to
      close. -/
  | periodDue
  /-- PERIOD_CLOSE (R335): A due period closes once the previous bank is drained and 258 buffer
      entries are free, swapping banks and marking STRETCHED if delayed. -/
  | periodClose
  /-- RECORD_FORM (R337): The record former forms the next USAGE, CLOSE or CONFIG record with the
      next sequence number and requests its signature. -/
  | recordForm (bad : List Nat)
  /-- KEY_STORE_ACK (R369): The key store's acknowledgement returns the MAC, and the signed record
      enters the buffer or an error starts a retry. -/
  | keyStoreAck (mac : BitVec 256) (err : Bool)
  /-- KEY_STORE_TIMEOUT (R339): The key store has not answered within MT_KEY.TMO, so the meter
      sets KEY_ERR and abandons the request. -/
  | keyStoreTimeout
  /-- SIGN_RETRY (R339): 1,024 sclk after a signing failure the meter sends the same message to
      the key store again. -/
  | signRetry
  /-- ISSUE_COMMIT (R101): The Ward commits the head task's descriptor to the port's ISS pipeline
      and the task enters RUNNING. -/
  | issueCommit (port : Nat) (issok : Bool)
  /-- ISS_DESCRIPTOR_ACCEPTED (R348): The engine takes the descriptor's last beat, binding and
      freeing the shadow buffer. -/
  | issDescriptorAccepted (port : Nat)
  /-- PRELOAD_START (R99): The Ward starts reading the queue head's argument block once the port's
      shadow buffer is free. -/
  | preloadStart (port : Nat)
  /-- ARGUMENT_READ_RESPONSE (R99): Argument read data returns through MP and is sent on PRE,
      zeroed and marked faulted on a fault or poison. -/
  | argumentReadResponse (port : Nat) (resp : Resp) (beats : List (BitVec 256))
  /-- PRELOAD_COMPLETE (R99): The last PRE beat is accepted and the task becomes PRELOADED in the
      next cycle. -/
  | preloadComplete (port : Nat)
  /-- CAN_ACK (R350): The engine's CAN acknowledgement releases the named task at the port, HELD
      or not held. -/
  | canAck (port : Nat) (hdl : BitVec 25) (held : Bool)
  /-- CMP_RECORD (R351): The Ward samples a completion record as a rank-4 event and settles the
      RUNNING task or discards a stale record. -/
  | cmpRecord (port : Nat) (rec : BitVec 256) (stats : Option (BitVec 256)) (eoc : Bool)
  /-- OPD_DELIVERY (R357): Each fclk the Ward delivers one OPD beat to the slot owner or round
      robin against landing credit. -/
  | opdDelivery (w : Nat)
  /-- LANDING_CREDIT_RETURN (R356): The engine returns landing-buffer credits on CTL. -/
  | landingCreditReturn (port : Nat) (n : Nat)
  /-- STATUS_BEAT_ACCEPTED (R167): The engine accepts a message's status beat and the Ward returns
      the ACK to the sender. -/
  | statusBeatAccepted (port : Nat)
  /-- SEND (R160): An engine's SEND request is checked against its sending endpoint, stamped with
      NSEQ and its flits forwarded, or NACKed at the sending Ward. -/
  | send (port : Nat) (hdr : BitVec 512) (flits : List (BitVec 512))
  /-- CONTRIB (R186): An engine's CONTRIB part is tagged with its tenant and forwarded to the
      queue's holder, or refused at the sending Ward. -/
  | contrib (port : Nat) (hdr : BitVec 512) (flits : List (BitVec 512))
  /-- OPEN (R153): An engine's OPEN request starts opening a channel at the directory Ward. -/
  | openReq (port : Nat) (hdr : BitVec 512)
  /-- CLOSE (R158): An engine's CLOSE request closes a channel whose endpoint it holds. -/
  | closeReq (port : Nat) (hdr : BitVec 512)
  /-- HSIG (R207): An engine's HSIG request is forwarded to the holding Keeper as a SIGNAL. -/
  | hsig (port : Nat) (hdr : BitVec 512)
  /-- KEYREQ (R218): An engine's KEYREQ is tagged with its tenant and forwarded to the pool's
      Ward, or refused when no task runs. -/
  | keyreq (port : Nat) (hdr : BitVec 512)
  /-- RETURN_UNUSED (R221): An engine returns a grant it will not write, which is forwarded to the
      pool's holder. -/
  | returnUnused (port : Nat) (hdr : BitVec 512)
  /-- DOORBELL (R116): An engine's DOORBELL request is checked for ENG_DB and tenant and forwarded
      as a rank-9 doorbell. -/
  | doorbell (port : Nat) (hdr : BitVec 512)
  /-- SLOTWR (R354): An engine's slot write is applied at the slot's Ward at rank 5, setting VALUE
      and V or clearing V. -/
  | slotwr (port : Nat) (hdr : BitVec 512)
  /-- BAD_MSG_REQUEST (R354): A MSG request with an undefined OP, reserved bits or a wrong beat
      count is discarded and answered BAD_COMMAND. -/
  | badMsgRequest (port : Nat) (hdr : BitVec 512) (beats : Nat)
  /-- RETURN (R221): A destination engine's RETURN on KRET reaches the pool's holder as a rank-5
      event. -/
  | returnKret (port : Nat) (data : BitVec 32)
  /-- CTL_ONLINE_CHANGE (R360): A rise or fall of EPn_CTL_ONLINE gives or removes room at the port
      and sets its landing credit on rising. -/
  | ctlOnlineChange (port : Nat) (on : Bool) (lbflits : Nat) (tdm : Nat)
  /-- CTL_SNAPSHOT_RECEIVED (R361): The engine's last snapshot beat arrives and the Ward writes
      the 512-byte snapshot slot. -/
  | ctlSnapshotReceived (port : Nat) (beats : List (BitVec 128))
  /-- SNAPSHOT_TIMEOUT (R361): A port that has not sent SNAP_LAST within SNAP_TMO is absent and
      its slot is written as zeros. -/
  | snapshotTimeout (port : Nat)
  /-- PORT_RESET (R362): EPn_RST_N = 0 fails the RUNNING task with NACK_BROKEN, cancels queued
      tasks, removes stages and releases every entry of the port. -/
  | portReset (port : Nat)
  /-- DECREMENT (R51): A tumbler decrement reaches its entry's holder and lowers the tumbler after
      the generation check. -/
  | decrement (word : BitVec 32) (src : Option Via) (eoc : Bool)
  /-- FAILURE_NOTICE (R63): A failure notice reaches a successor, settling it FAILED with the root
      or only lowering its tumbler. -/
  | failureNotice (word : BitVec 32) (root : BitVec 32) (src : Option Via) (eoc : Bool)
  /-- CANCEL_NOTICE (R64): A cancel notice reaches a successor, settling it CANCELLED or only
      lowering its tumbler. -/
  | cancelNotice (word : BitVec 32) (src : Option Via) (eoc : Bool)
  /-- SEAL (R48): A Ward samples a segment's seal at rank 9 and examines the segment's entries for
      readiness. -/
  | seal (w : Nat) (ring : Nat) (seg : Nat) (src : Option Via) (eoc : Bool)
  /-- GUARD_WAIT_PASS (R71): An entry in guard wait finds its ENFORCE guards satisfied, claims its
      slots and becomes READY. -/
  | guardWaitPass (w : Nat)
  /-- SETTLEMENT_NOTICE (R57): The home Ward samples a forwarded settlement and decides slots,
      hazards, successor delivery and ring accounting. -/
  | settlementNotice (kind : NoticeKind) (word : BitVec 32) (eoc : Bool)
  /-- ISSUE_PROXY_NOTICE (R57): A PLACED, PRELOADED or RUNNING notice from an issue proxy reaches
      the home Ward and updates the entry. -/
  | issueProxyNotice (kind : ProxyKind) (word : BitVec 32)
  /-- SUCCESSOR_DELIVERY (R59): A settled entry sends its decrements, failure or cancel notices to
      its successors, after relay results when RELAY is set. -/
  | successorDelivery (handle : Nat)
  /-- ENTRY_FREE (R60): A settled entry with zero tumbler, released port, sampled items and
      settlement notice returns to FREE and enters quarantine. -/
  | entryFree (handle : Nat)
  /-- QUARANTINE_END (R52): 256 fclk after being freed an entry becomes allocatable again. -/
  | quarantineEnd (handle : Nat)
  /-- EDGE_REFETCH_DONE (R61): Spilled successor words of an entry that became READY return from
      device memory into the edge cache. -/
  | edgeRefetchDone (handle : Nat)
  /-- TASK_CLASS_TIMEOUT (R67): A task RUNNING longer than its KP_TMO_CLASS limit is logged with
      TIMEOUT and the overrun flag and stays RUNNING. -/
  | taskClassTimeout (handle : Nat)
  /-- ARBITER_FORWARD (R105): Once per fclk a Ward's arbiter forwards one READY task to the
      placement engine by DWRR over tenants, class and ring. -/
  | arbiterForward (w : Nat)
  /-- PLACEMENT_REQUEST (R82): A placement request reaches the placement engine's lane of its Ward
      and its walk begins. -/
  | placementRequest (handle : Nat)
  /-- PLACEMENT_DECISION (R82): The placement walk ends with the first free port in the first rank
      that has one, or enters the waiting list. -/
  | placementDecision (handle : Nat)
  /-- WAITING_LIST_OFFER (R84): A port with room is offered to waiting requests by tier, age and
      home Ward, and the first matching request takes it. -/
  | waitingListOffer
  /-- STAGING_REQUEST (R86): A sealed PENDING entry whose tumbler is 1 is walked for a port with
      OCC zero to stage it. -/
  | stagingRequest (handle : Nat)
  /-- STAGING_NO_PORT (R89): The home Ward learns that a staging walk found no port and forwards
      the entry normally if it is READY. -/
  | stagingNoPort (handle : Nat)
  /-- PLACEMENT_DECISION_ARRIVAL (R57): A placement or staging decision reaches the Ward owning
      the chosen port and enters its issue queue or stage. -/
  | placementDecisionArrival (handle : Nat)
  /-- STAGED_TASK_PLACED (R89): A staged entry that became READY is PLACED at its staged port,
      consuming its reservation or after a permit. -/
  | stagedTaskPlaced (handle : Nat)
  /-- GOVERNOR_REQUEST (R94): A permit request reaches the governor of its supply domain and is
      granted or queued. -/
  | governorRequest (handle : Nat)
  /-- GOVERNOR_QUEUE_GRANT (R96): The governor grants up to 4 queued requests from the head of a
      domain's queue and counts the delay. -/
  | governorQueueGrant (dom : Nat)
  /-- GOVERNOR_WINDOW_START (R91): A new 80-tick window begins, reading budgets, throttles and
      trims, resetting counts and dropping excess reservations. -/
  | governorWindowStart (throttle : BitVec 16)
  /-- PORT_RELEASE (R81): The Keeper samples a port's issue or CAN release of a task and OCC(p)
      falls. -/
  | portRelease (port : Nat) (handle : Nat)
  /-- TASK_CANCEL (R103): A cancel applied to a task moves it to CANCELLED and unloads, withdraws
      or removes it depending on where it is. -/
  | taskCancel (handle : Nat)
  /-- WITHDRAWAL (R103): A withdrawal reaches the Keeper and removes a request from placement or a
      governor queue. -/
  | withdrawal (handle : Nat)
  /-- UNLOAD_DIRECTIVE (R103): An unload directive reaches the Ward owning a staged port, which
      sends CAN. -/
  | unloadDirective (handle : Nat)
  /-- EPOCH_MINT (R106): At each epoch the Keeper mints share tokens for LC then BE in proportion
      to shares and ready work. -/
  | epochMint
  /-- TOKEN_ARRIVAL (R106): An epoch's tokens reach a Ward and the previous epoch's unspent tokens
      lapse. -/
  | tokenArrival (w : Nat)
  /-- RING_FETCH (R122): In a cycle in which the MP accepts a read, the ring fetcher with the
      nearest deadline issues a 256-byte block read. -/
  | ringFetch (w : Nat)
  /-- RING_FETCH_RESPONSE (R121): A ring, record or image block returns to the fetcher, or a fault
      response halts the walk. -/
  | ringFetchResponse (ring : Nat) (kind : FetchKind) (resp : Resp) (rec : BitVec 512)
  /-- RING_REPOLL (R113): REPOLL fclk after a phase miss the fetcher reads the empty record again. -/
  | ringRepoll (ring : Nat)
  /-- RECORD_ACCEPT (R118): The fetcher accepts the next submission record within the write
      pointer and outstanding limits, completing bad ones with BAD_COMMAND. -/
  | recordAccept (ring : Nat) (rec : BitVec 512)
  /-- WAITSUB_RELEASE (R120): The awaited slot's TN_RING_DONE reaches WAIT_SUBID and the walk of
      the waiting submission begins. -/
  | waitsubRelease (ring : Nat)
  /-- SEGMENT_HEADER (R124): The walk reaches a segment header and checks it, refusing a bad
      header with BAD_COMMAND. -/
  | segmentHeader (ring : Nat) (hdr : BitVec 512) (body : List (BitVec 256))
  /-- GRAPH_PASS1 (R46): The check pass of a GRAPH segment ends, having validated records, read
      fan lists and counted edges and demand. -/
  | graphPass1 (ring : Nat)
  /-- FAN_LIST_READ_RESPONSE (R43): A fan-list block read through the home Ward's MP returns, or
      faults and halts the ring. -/
  | fanListReadResponse (ring : Nat) (addr : BitVec 48) (resp : Resp) (idx : List Nat)
  /-- OPERAND_READ_RESPONSE (R126): A MEMV operand read returns its value and valid bit to the
      walk, or faults. -/
  | operandReadResponse (ring : Nat) (addr : BitVec 48) (resp : Resp) (value : BitVec 64)
  /-- GRAPH_PASS2 (R46): The allocate pass reserves entries and objects at all home Wards in one
      step, allocates entries and applies OPEN_CH, COMBINE, SET_SLOT and WATCH. -/
  | graphPass2 (ring : Nat)
  /-- ENTRY_QUEUE_ADMIT (R75): A segment waiting in the entry queue or on its tenant quota is
      admitted when its demand fits. -/
  | entryQueueAdmit (ring : Nat)
  /-- GRAPH_PASS3 (R46): The link pass writes resolved successor words, then the seal is sent and
      the map bank released. -/
  | graphPass3 (ring : Nat)
  /-- AHEAD_RELEASE (R134): OPEN_STEPS falls below AHEAD and the walk waiting before pass 1
      proceeds. -/
  | aheadRelease (ring : Nat)
  /-- COND (R132): The walk compares two operands and continues with the next record or at TARGET. -/
  | cond (ring : Nat) (rec : BitVec 256)
  /-- LOOP (R133): The walk opens a loop level, evaluating COUNT once. -/
  | loop (ring : Nat) (rec : BitVec 256)
  /-- ENDLOOP (R133): The walk increments ITER and returns to the loop body or closes the level. -/
  | endloop (ring : Nat) (rec : BitVec 256)
  /-- STEP_END (R134): The walk closes a step, records a pre-emption point and marks a commit
      point of the home Ward. -/
  | stepEnd (ring : Nat) (rec : BitVec 256)
  /-- YIELD (R135): The walk passes a yield point, which becomes a pre-emption point. -/
  | yield (ring : Nat) (rec : BitVec 256)
  /-- FENCE (R136): The walk reaches a FENCE and holds until every entry in its scope has settled. -/
  | fence (ring : Nat) (rec : BitVec 256)
  /-- FENCE_RELEASE (R136): Every awaited entry has settled and the walk continues, or ends with
      DEP_FAILED under FAILSTOP. -/
  | fenceRelease (ring : Nat)
  /-- INDIRECT (R137): The walk computes a value from an operand and iteration and patches the
      fetched target record. -/
  | indirect (ring : Nat) (rec : BitVec 256)
  /-- SET_SLOT (R138): A SET_SLOT record writes or clears a slot at rank 5 when the walk reaches
      it. -/
  | setSlot (ring : Nat) (rec : BitVec 256)
  /-- NOTE (R138): A NOTE record posts up to 16 bytes to device memory without waiting. -/
  | note (ring : Nat) (rec : BitVec 256)
  /-- MARK (R309): A MARK record sets the ring's current LAYER and OPID and forms a MARK trace
      entry. -/
  | mark (ring : Nat) (rec : BitVec 256)
  /-- NOP (R125): A NOP record is passed by the walk. -/
  | nop (ring : Nat) (rec : BitVec 256)
  /-- HASP_SIGNAL (R207): An immediate HASP_SIGNAL adds its increment to a hasp when the walk
      reaches it. -/
  | haspSignal (ring : Nat) (rec : BitVec 256)
  /-- HASP_RESET (R207): A HASP_RESET record sets the hasp's COUNT to 0 when the walk reaches it. -/
  | haspReset (ring : Nat) (rec : BitVec 256)
  /-- HASP_WAIT (R211): A ring-form HASP_WAIT registers a wait that holds the walk until COUNT
      reaches TARGET. -/
  | haspWait (ring : Nat) (rec : BitVec 256)
  /-- OPEN_CH (R157): A CONTROL-segment OPEN_CH opens a channel between port or queue endpoints
      when the walk reaches it. -/
  | openCh (ring : Nat) (rec : BitVec 256)
  /-- CLOSE_CH (R158): A CLOSE_CH record closes the channel named by its operand. -/
  | closeCh (ring : Nat) (rec : BitVec 256)
  /-- COMMAND_FAULT_NOTICE (R140): The home Ward samples a command fault at rank 3 and ends the
      submission, cancelling its non-running entries. -/
  | commandFaultNotice (ring : Nat)
  /-- RING_TIMEOUT (R144): A submission's RTMO expires at its home Ward and ends it with TIMEOUT. -/
  | ringTimeout (ring : Nat)
  /-- STEP_TIMEOUT (R144): A step's STMO expires at the home Ward and ends the submission with
      TIMEOUT. -/
  | stepTimeout (ring : Nat)
  /-- STATUS_BLOCK_WRITE_RESPONSE (R143): The status block's write response returns and
      TN_RING_DONE advances in order, followed by the note. -/
  | statusBlockWriteResponse (ring : Nat) (subid : BitVec 32) (resp : Resp)
  /-- DIGEST_WRITE_RESPONSE (R328): A WATCH digest's write response returns, allowing TN_RING_DONE
      to advance. -/
  | digestWriteResponse (ring : Nat) (subid : BitVec 32) (resp : Resp)
  /-- MESSAGE_ARRIVAL (R165): A message's first flit reaches the receiving holder, which accepts
      it whole or NACKs it. -/
  | messageArrival (key : ChKey) (seq : BitVec 16) (it : Option (Nat × Item))
  /-- NACK_RETURN (R166): The sending Ward samples a NACK, rewinds NSEQ and counts the retry
      toward storm detection. -/
  | nackReturn (key : ChKey) (seq : BitVec 16) (it : Option (Nat × Item))
  /-- ANSWER_RETURN (R355): An ACK or answer returns to the sending Ward and is delivered on OPD
      to the requesting engine. -/
  | answerReturn (port : Nat) (it : Option (Nat × Item))
  /-- CHANNEL_ALLOCATE (R154): The Keeper's channel allocator grants the lowest free channel ID to
      a directory Ward. -/
  | channelAllocate
  /-- BIND_NOTICE (R151): A bind or unbind notice reaches the directory Ward, which passes the new
      location to the other endpoint. -/
  | bindNotice (key : ChKey)
  /-- CHANNEL_CLOSE_APPLY (R159): A close is applied at rank 7 at the directory Ward or an
      endpoint holder, emitting the CLOSED status beat. -/
  | channelCloseApply (key : ChKey) (place : CloseAt)
  /-- CHANNEL_ID_FREE (R154): The reuse interval after a channel's close expires and its ID
      becomes free. -/
  | channelIdFree (ch : Nat)
  /-- STORM_NOTICE (R180): A storm notice reaches the Keeper, which detects a retry cycle, logs
      STORM, raises IRQ0 and marks the channels. -/
  | stormNotice (ch : Nat)
  /-- PART_ARRIVAL (R188): A contribution part's first flit reaches the queue's holder and is
      classified by Table 6.4. -/
  | partArrival (qid : BitVec 16) (inst : Nat) (port : Nat) (it : Option (Nat × Item))
  /-- PART_APPLY (R202): A fully buffered part is added to the accumulators within the combining
      budget and answered. -/
  | partApply (w : Nat)
  /-- DRAIN_CONVERT (R195): The draining queue converts elements in order and writes each
      completed 256-byte block of output. -/
  | drainConvert (w : Nat) (q : Nat)
  /-- DRAIN_WRITE_RESPONSE (R195): An output write response returns, and the last one settles the
      queue entry DONE or FAILED. -/
  | drainWriteResponse (w : Nat) (q : Nat) (resp : Resp)
  /-- TEAR_NOTICE (R190): A tear notice reaches the queue's holder at rank 4 and fails the queue
      with NACK_BROKEN. -/
  | tearNotice (qid : BitVec 16) (inst : Nat) (port : Nat)
  /-- QUEUE_NUMBER_FREE (R183): 4,096 fclk after a queue number is freed it may be allocated
      again. -/
  | queueNumberFree (w : Nat) (q : Nat)
  /-- SIGNAL (R207): A settle-form, HSIG or remote SIGNAL reaches the holding Keeper at rank 6 and
      adds INC after ownership and overflow checks. -/
  | signal (hasp : Nat) (inc : BitVec 32) (src : SigSrc)
  /-- WAIT_REGISTRATION (R211): A task-form wait registration reaches the Keeper and is released
      at once or held. -/
  | waitRegistration (port : Nat)
  /-- WAIT_RELEASE (R213): The Keeper releases up to 4 met waits per fclk in TARGET order. -/
  | waitRelease
  /-- TASK_FORM_RELEASE (R213): A task-form release reaches the port's Ward at rank 6 and lifts
      the hold on the issue-queue head. -/
  | taskFormRelease (port : Nat)
  /-- KEY_REQUEST_ARRIVAL (R218): A key request reaches the pool's holder at rank 5 and is
      granted, refused or queued. -/
  | keyRequestArrival (dport : Nat) (reqport : Nat)
  /-- KEY_RETURN (R221): A return reaches the pool's holder, advancing TAIL and granting waiting
      requests in order. -/
  | keyReturn (dport : Nat) (pool : Nat) (gseq : BitVec 16)
  /-- KEY_TIMEOUT (R222): A key request waits past WD_KEY_TMO and is removed with a KEY_TIMEOUT
      record. -/
  | keyTimeout (dport : Nat) (pool : Nat) (idx : Nat)
  /-- AUTO_PREEMPT_TRIGGER (R244): A token-backed LC request has waited LC_WAIT fclk and the
      Keeper pre-empts the qualifying BE ring with most assignments. -/
  | autoPreemptTrigger
  /-- DISCARD_NOTICE (R238): A discard notice reaches a Ward, which cancels every entry of the
      ring's intervals after the point without counting them. -/
  | discardNotice (w : Nat) (ring : Nat)
  /-- AUTO_RESUME (R244): After LC_IDLE fclk with no waiting LC request, the head of the resume
      queue returns to RUN. -/
  | autoResume
  /-- HELLO_RECEIVED (R260): A HELLO arrives and the Hinge enters ACTIVE when HINST matches PEER,
      or stays in TRAIN with PG_ERR.PEER. -/
  | helloReceived (h : Nat) (hinst : Nat)
  /-- ITEM_FORWARD (R251): A Keeper forwards an item not addressed to it on its route, or strands
      it as misrouted. -/
  | itemForward (h : Nat) (slots : List (BitVec 128))
  /-- REMOTE_RESERVE (R253): A remote Keeper receives REC, IMP and RESERVE_END items and reserves
      them at once or answers TABLE_FULL or RETRY. -/
  | remoteReserve (h : Nat) (req : ReserveReq)
  /-- HND_ANSWER (R253): The origin Keeper receives the remote reservation outcome and handles of
      the new entries. -/
  | hndAnswer (ring : Nat) (via : Via) (ans : ReserveAns)
  /-- REMOTE_RETRY_EXPIRY (R253): KP_FED.RETRY after a RETRY answer, the segment returns to the
      tail of the entry queue. -/
  | remoteRetryExpiry (ring : Nat)
  /-- LINK_ITEM (R253): A LINK item appends a resolved successor word to a remote entry's list. -/
  | linkItem (via : Via) (bank : Nat) (idx : Nat) (word : BitVec 32)
  /-- XCTL_ABANDON (R253): An ABANDON item releases a remote segment's reservations. -/
  | xctlAbandon (via : Via) (bank : Nat)
  /-- SETL_ITEM (R255): A SETL item reaches the ring's home Ward, counting the remote entry
      settled and freeing its roster record. -/
  | setlItem (via : Via) (ring : Nat) (word : BitVec 32) (status : BitVec 8)
  /-- HOP_ITEM (R264): A remote hasp operation arrives as a HOP item and is applied by the holding
      Keeper, answered by ANS. -/
  | hopItem (src : Origin) (tenant : Nat) (hasp : Nat) (op : HopOp) (value : BitVec 32) (tag : BitVec 32)
  /-- HREL_ITEM (R264): A remote release arrives as an HREL item and releases the waiter, or is
      discarded if the waiter is gone. -/
  | hrelItem (it : Nat × BitVec 32)
  /-- CHC_ITEM (R265): A CHC OPEN, CLOSE or TEAR item reaches the holder of a remote channel
      endpoint. -/
  | chcItem (src : Origin) (tenant : Nat) (op : ChcOp) (ch : Nat) (endp : BitVec 32) (port : Nat)
  /-- CONF_RECEIVED (R259): A CONF answer confirms ordered items, freeing held headers and meeting
      condition 5 for confirmed SETL items. -/
  | confReceived (h : Nat) (iseq : Nat)
  /-- CONF_SEND (R259): After 64 ordered items or 128 fclk the receiver sends a CONF. -/
  | confSend (h : Nat)
  /-- RETRAIN_NOTIFICATION (R272): A retraining notification moves an ACTIVE Hinge into HOLD. -/
  | retrainNotification (h : Nat)
  /-- LINK_ACTIVE_AGAIN (R272): The adapter becomes active within HOLD_MAX and the Hinge resumes
      ACTIVE with nothing lost. -/
  | linkActiveAgain (h : Nat)
  /-- HOLD_MAX_EXPIRY (R272): A hold lasting longer than HOLD_MAX takes the Hinge to DOWN. -/
  | holdMaxExpiry (h : Nat)
  /-- LINK_ERROR (R272): A link error or reset notification takes the Hinge to DOWN after handing
      over whole buffered items. -/
  | linkError (h : Nat)
  /-- HINGE_DOWN_EVENT (R273): The Keeper applies a Hinge's DOWN event at rank 3, logs it, marks
      instances unreachable and sends UNRCH and unreachable notices. -/
  | hingeDownEvent (h : Nat)
  /-- UNRCH_ITEM (R273): A Keeper receiving UNRCH marks the named instances reachable or
      unreachable and forwards the notice once. -/
  | unrchItem (h : Nat) (mask : BitVec 64) (reach : Bool)
  /-- UNREACHABLE_NOTICE (R275): A Ward applies an unreachable notice at rank 3, failing imports
      and roster entries, cancelling entries and tearing contributions. -/
  | unreachableNotice (w : Nat) (mask : BitVec 64)
  /-- TS_FLIT_SEND (R266): Once per PERIOD an ACTIVE Hinge sets TS in a flit carrying its
      timestamp. -/
  | tsFlitSend (h : Nat)
  /-- TS_SAMPLE (R267): A Hinge with UP = 1 receives a TS flit and locks, steps, holds or slews
      its timestamp, or discards an outlier. -/
  | tsSample (h : Nat) (tsval : BitVec 64)
  /-- TS_SLEW_STEP (R268): On one tclk in 16 a pending correction advances the timestamp by 2 or
      0. -/
  | tsSlewStep
  /-- TS_HOLD_END (R269): A negative lock correction's hold ends and the timestamp advances again. -/
  | tsHoldEnd
  /-- TS_LOST (R271): After 8 discarded samples or loss of the UP Hinge, LOST is set and IRQ52 + h
      raised. -/
  | tsLost (h : Nat)
  /-- SCRUB_READ (R283): The patrol scrubber reads the next word of an idle table, correcting and
      writing back single-bit errors. -/
  | scrubRead (u : UnitId) (table : Nat) (word : ScrubWord) (corrected : Bool)
  /-- UNCORRECTABLE_WORD (R285): An uncorrectable word is a rank-3 event at its holder, logged and
      applied with the effect of Table 10.4. -/
  | uncorrectableWord (u : UnitId) (table : Nat) (idx : Nat) (obj : Nat)
  /-- TMR_DISAGREEMENT (R281): A Keeper lane disagrees in the per-cycle vote and is outvoted and
      counted. -/
  | tmrDisagreement (lanes : BitVec 3)
  /-- REPLAY (R280): A duplicated next-state mismatch replays the cycle from protected state,
      delaying it by 2 fclk. -/
  | replay (u : UnitId)
  /-- CROSSBAR_RETRANSMIT (R280): An uncorrectable crossbar word is sent again, costing 4 fclk. -/
  | crossbarRetransmit (u : UnitId) (again : Bool)
  /-- LOG_RECORD_ARRIVAL (R288): An error-log record reaches the Keeper and is stored, diverted or
      dropped, raising its unit's interrupt if enabled. -/
  | logRecordArrival (u : UnitId)
  /-- DEADBOLT_SAMPLE (R293): Once per tclk the Keeper samples both deadbolt channels, counting
      disagreements. -/
  | deadboltSample (a : Bool) (b : Bool)
  /-- DEADBOLT_ASSERT (R295): The asserted deadbolt input reaches every holder at rank 2 and the
      instance enters DRAIN with IRQ1. -/
  | deadboltAssert
  /-- DRAIN_END (R296): 40 fclk after no task runs or DRAIN expires, unfinished submissions end
      with DEADBOLT and STATE becomes QUIESCED. -/
  | drainEnd
  /-- DEADBOLT_RELEASE (R297): The deadbolt input deasserts and the instance returns to RUN,
      resuming issue or fetch. -/
  | deadboltRelease
  /-- HANG_DETECT (R298): A ring makes no progress for TICKS × 1,024 tclk and is reported hung
      with a HANG record and IRQ0. -/
  | hangDetect (ring : Nat)
  /-- TRACE_ENTRY_STAGE (R312): The Keeper places up to 4 trace entries per fclk into the staging
      buffer, fixing their page and slot. -/
  | traceEntryStage
  /-- TRACE_FIFO_DROP (R313): A trace entry meets a full FIFO or staging buffer and is counted for
      a later DROP entry. -/
  | traceFifoDrop (u : UnitId)
  /-- TRACE_BLOCK_WRITE (R312): A full block, or one whose oldest entry has waited 1,024 fclk
      padded with PAD, is written through the Keeper's MP. -/
  | traceBlockWrite
  /-- TRACE_WRITE_RESPONSE (R318): A trace write returns, a fault response counting in
      TR_STAT.WERR and losing the block. -/
  | traceWriteResponse (resp : Resp)
  /-- SAMPLE_PERIOD (R317): Every 2^SAMPLE_LOG2 tclk each Ward in the mask forms a SAMPLE entry
      for its next port. -/
  | samplePeriod (w : Nat)
  /-- NOTE_WRITE_RESPONSE (R143): The response to a submission's NOTE write returns after
      TN_RING_DONE has advanced, and a fault response writes one XLATE_FAULT log record naming the
      ring and SUBID. -/
  | noteWriteResponse (ring : Nat) (subid : BitVec 32) (resp : Resp)
  /-- PORT_RESET_RELEASE (R360): EPn_RST_N returns to 1 and the Ward again samples the port's
      inputs and drives its outputs, so room can return. -/
  | portResetRelease (port : Nat)
  /-- ISSUE_COPY_REREAD (R285): The reply to a reread of an issue-queue or issue-proxy copy
      returns from the home Ward through the Keeper crossbar and restores the copy. -/
  | issueCopyReread (port : Nat) (handle : Nat)
  /-- HINGE_CREDIT_RETURN (R259): A received hinge header returns ordered-lane or answer-lane
      credits in CRED_O or CRED_A, letting the sender place held slots. -/
  | hingeCreditReturn (h : Nat) (credO : Nat) (credA : Nat)
  /-- STALL_REQUEST (R370): The adapter raises HGh_PL_STALLREQ and the Hinge stops transmitting at
      a flit boundary and answers with HGh_LP_STALLACK. -/
  | stallRequest (h : Nat)
deriving DecidableEq, Repr

end Sys2Proof
end

