-- ==== Sys2Proof/Machine/Bits.lean ====
section
/-! DEFINITION. Bit fields, serial-number comparison and sign extension, as the spec's tables use
them. -/

namespace Sys2Proof

/-- The field of `len` bits of `x` that begins at bit `lo`, as a number. -/
def fld {n : Nat} (x : BitVec n) (lo len : Nat) : Nat := x.toNat / 2 ^ lo % 2 ^ len

/-- Bit `i` of `x`. -/
def bitAt {n : Nat} (x : BitVec n) (i : Nat) : Bool := x.getLsbD i

/-- A Bool as 0 or 1. -/
def b2n (b : Bool) : Nat := if b then 1 else 0

/-- Serial-number comparison over n bits: a ≥ b when (a − b) mod 2^n is below 2^(n−1)
(R120, R166, R173). -/
def serialGe {n : Nat} (a b : BitVec n) : Bool := (a - b).toNat < 2 ^ (n - 1)

/-- The value of an n-bit two's-complement field held in a number. -/
def signedOf (n v : Nat) : Int := if v % 2 ^ n < 2 ^ (n - 1) then (v % 2 ^ n : Nat) else (v % 2 ^ n : Nat) - 2 ^ n

/-- `x` with its field of `len` bits at `lo` replaced by `v`. -/
def setFld {n : Nat} (x : BitVec n) (lo len v : Nat) : BitVec n :=
  let m : BitVec n := BitVec.ofNat n ((2 ^ len - 1) * 2 ^ lo)
  (x &&& ~~~m) ||| (BitVec.ofNat n (v % 2 ^ len * 2 ^ lo))

/-- Ceiling division. -/
def cdiv (a b : Nat) : Nat := (a + b - 1) / b

/-- The larger bound applied first: a value outside `lo` to `hi` is taken as the nearer bound. -/
def clampNat (lo hi v : Nat) : Nat := max lo (min hi v)

/-- Addition that saturates at `top` (R303). -/
def satAdd (top a b : Nat) : Nat := min top (a + b)

/-- The bits of `m` set below `n`, ascending. -/
def bitsOf {k : Nat} (m : BitVec k) (n : Nat) : List Nat := (List.range n).filter (fun i => m.getLsbD i)

end Sys2Proof
end

