-- ==== Sys2Proof/Machine/Arith.lean ====
section
/-! DEFINITION. Arithmetic of the combining queues and digests: input formats and their exact alignment
(R192), rounding (R196), FP32 order and addition (R194, R203), CRC-32C (R327). -/

namespace Sys2Proof.Machine

/-! ## Input formats (Table 6.6) -/

/-- A contribution element: NaN, an infinity (negative or not), a finite float as sign and magnitude in units
of 2^-149, or an integer. -/
inductive Elem where
  | nan
  | inf (neg : Bool)
  | fin (neg : Bool) (m : Nat)
  | int (v : Int)
deriving DecidableEq, Repr

/-- Exponent bits, fraction bits and the offset of k in Table 6.6 for a float IFMT. -/
def fmtOf (ifmt : Nat) : Nat × Nat × Nat :=
  if ifmt = 0 then (8, 23, 0) else if ifmt = 1 then (5, 10, 125) else if ifmt = 2 then (8, 7, 16)
  else if ifmt = 3 then (4, 3, 140) else (5, 2, 133)

/-- An element decoded from its encoding. E4M3 has no infinity and one NaN pattern (R184). -/
def decodeElem (ifmt : Nat) (v : Nat) : Elem :=
  if ifmt = 5 then .int (signedOf 8 v) else if ifmt = 6 then .int (signedOf 32 v)
  else
    let f := fmtOf ifmt
    let e := v / 2 ^ f.2.1 % 2 ^ f.1
    let fr := v % 2 ^ f.2.1
    let neg := decide (v / 2 ^ (f.1 + f.2.1) % 2 = 1)
    let top := 2 ^ f.1 - 1
    if ifmt = 3 ∧ e = top ∧ fr = 7 then .nan
    else if ifmt ≠ 3 ∧ e = top then (if fr = 0 then .inf neg else .nan)
    else .fin neg ((fr + (if e = 0 then 0 else 2 ^ f.2.1)) * 2 ^ (max e 1 + f.2.2 - 1))

/-- What an element adds to the 320-bit accumulator (R192): integers stand at bit 149. -/
def elemAdd : Elem → Int
  | .fin neg m => if neg then -(m : Int) else m
  | .int v => v * 2 ^ 149
  | _ => 0

/-- The element is −0 (R193). -/
def isNegZero : Elem → Bool
  | .fin true 0 => true
  | _ => false

/-! ## Rounding (R196) -/

/-- An encoding with 8 exponent bits and P − 1 fraction bits. -/
def encodeF (P : Nat) (neg : Bool) (e f : Nat) : Nat := b2n neg * 2 ^ (P + 7) + e * 2 ^ (P - 1) + f

/-- The infinity of a sign (Table 6.7). -/
def infF (P : Nat) (neg : Bool) : Nat := encodeF P neg 255 0

/-- The canonical NaN (Table 6.7). -/
def nanF (P : Nat) : Nat := encodeF P false 255 (2 ^ (P - 2))

/-- The procedure of R196 from the computation of h on, for a magnitude `m` > 0 in units of 2^-149: the
encoding and whether it overflowed. P is 24 for FP32 and 8 for BF16. -/
def roundF (P : Nat) (neg : Bool) (m : Nat) : Nat × Bool :=
  let q := max (Nat.log2 m) 23 - (P - 1)
  let r := m / 2 ^ q
  let g := decide (0 < q) && decide (m / 2 ^ (q - 1) % 2 = 1)
  let t := decide (0 < q) && decide (m % 2 ^ (q - 1) ≠ 0)
  let r := if g && (t || decide (r % 2 = 1)) then r + 1 else r
  let rq := if r = 2 ^ P then (2 ^ (P - 1), q + 1) else (r, q)
  if rq.1 < 2 ^ (P - 1) then (encodeF P neg 0 rq.1, false)
  else
    let e := rq.2 + P - 23
    if 254 < e then (infF P neg, true) else (encodeF P neg e (rq.1 - 2 ^ (P - 1)), false)

/-- An accumulator value rounded; a zero sum is −0 only when every element was −0. -/
def roundSum (P : Nat) (a : Int) (nz : Bool) : Nat × Bool :=
  if a = 0 then (encodeF P nz 0 0, false) else roundF P (decide (a < 0)) a.natAbs

/-- An FP32 encoding rounded to the output format: BF16 again, FP32 as it stands (R197, R203). -/
def reround (P : Nat) (v : Nat) : Nat × Bool :=
  if P = 24 then (v, false)
  else match decodeElem 0 v with
    | .fin neg m => if m = 0 then (encodeF P neg 0 0, false) else roundF P neg m
    | .inf neg => (infF P neg, false)
    | _ => (nanF P, false)

/-! ## FP32 (R194, R203) -/

/-- An element as FP32, exactly. -/
def toF32 : Elem → Nat
  | .nan => nanF 24
  | .inf neg => infF 24 neg
  | .fin neg m => if m = 0 then encodeF 24 neg 0 0 else (roundF 24 neg m).1
  | .int _ => 0

/-- A number that orders FP32 encodings as R194 does: −0 below +0. -/
def f32Key (v : Nat) : Int := if v < 2 ^ 31 then v else -(v - 2 ^ 31 : Int) - 1

/-- IEEE 754 binary32 addition, round to nearest even. -/
def f32Add (x y : Nat) : Nat :=
  match decodeElem 0 x, decodeElem 0 y with
  | .nan, _ => nanF 24
  | _, .nan => nanF 24
  | .inf a, .inf c => if a = c then infF 24 a else nanF 24
  | .inf a, _ => infF 24 a
  | _, .inf c => infF 24 c
  | a, c =>
    let s := elemAdd a + elemAdd c
    (roundSum 24 s (isNegZero a && isNegZero c)).1

/-- An FP32 encoding is a NaN. -/
def f32Nan (v : Nat) : Bool := match decodeElem 0 v with | .nan => true | _ => false
/-- An FP32 encoding is an infinity. -/
def f32Inf (v : Nat) : Bool := match decodeElem 0 v with | .inf _ => true | _ => false

/-- The magnitude of a finite FP32 encoding, 0 otherwise. -/
def f32Mag (v : Nat) : Nat := match decodeElem 0 v with | .fin _ _ => v % 2 ^ 31 | _ => 0

/-! ## CRC-32C -/

/-- One bit of the reflected CRC. -/
def crcBit (c : Nat) : Nat := if c % 2 = 1 then Nat.xor (c / 2) 0x82F63B78 else c / 2

/-- One byte. -/
def crcByte (c x : Nat) : Nat := Nat.repeat crcBit 8 (Nat.xor c (x % 256))

/-- The bytes of a value of `n` bytes, byte 0 first. -/
def bytesOf (n v : Nat) : List Nat := (List.range n).map (fun i => v / 2 ^ (8 * i) % 256)

/-- A running CRC over bytes (initial value and final XOR are the caller's). -/
def crcRun (c : Nat) (l : List Nat) : Nat := l.foldl crcByte c

/-- CRC-32C of bytes. -/
def crc32c (l : List Nat) : Nat := Nat.xor (crcRun 0xFFFFFFFF l) 0xFFFFFFFF

/-! ## Digest statistics (R326, R327) -/

/-- Running statistics over FP32 words: CRC, NaN words, infinite words, largest finite magnitude. -/
def statWords (s : Nat × Nat × Nat × Nat) (l : List Nat) : Nat × Nat × Nat × Nat :=
  l.foldl (fun s v => (crcRun s.1 (bytesOf 4 v), s.2.1 + b2n (f32Nan v), s.2.2.1 + b2n (f32Inf v), max s.2.2.2 (f32Mag v))) s

end Sys2Proof.Machine
end

