-- ==== Sys2Proof/Config.lean ====
section
/-! DEFINITION. What the integrator fixes: the synthesis parameters of R4 and R5, fused values
(R403), crossbar latencies (R108), patch levels (R12). They are data of the state, so that a claim
holds for every configuration; the values below are those of the reset state (log entry 3). -/

namespace Sys2Proof

/-- The parameters of an instance: NW, NE, NH (Table 0.1), PATCH of the block and of the meter,
KP_ECL_FACT, HG_LDLY_FACT and WD_XBAR.LAT. -/
structure Params where
  nw : Nat := 48
  ne : Nat := 64
  nh : Nat := 8
  patch : Nat := 0
  mtPatch : Nat := 0
  eclFact : List Nat := []
  ldlyFact : List Nat := []
  lat : List Nat := []
deriving DecidableEq, Repr

/-- The ranges of Table 0.1, of KP_ECL_FACT (Table 15.5), HG_LDLY_FACT (Table 15.12) and
WD_XBAR.LAT (R108). -/
def Params.wf (p : Params) : Bool :=
  decide (1 ≤ p.nw ∧ p.nw ≤ 48) && decide (p.ne = 8 ∨ p.ne = 16 ∨ p.ne = 32 ∨ p.ne = 64)
  && decide (p.nh ≤ 8) && decide (p.patch < 65536) && decide (p.mtPatch < 65536)
  && p.eclFact.all (fun e => decide (e < 65536)) && p.ldlyFact.all (fun e => decide (e < 1048576))
  && p.lat.all (fun l => decide (4 ≤ l ∧ l ≤ 16))

/-- A free value: whether word `i` of section `id` of unit `u` is uncorrectable when a dump that ends at fclk `t` reads it
(R300, log entry 39). -/
opaque Config.dumpBad (t id u i : Nat) : Bool

/-- A free value: how many writes of a dump that ends at fclk `t` meet a fault response (R299, log entry 39). -/
opaque Config.dumpFaults (t : Nat) : Nat

end Sys2Proof
end

