-- ==== Sys2Proof/Machine/State.lean ====
section
/-! DEFINITION. The state of one Auhiorn instance as plain data: every register, table, queue,
counter, mode and pin the spec names, the items on their way inside the block, and the queue of
commands. Each field cites the rule of spec/ that gives it. -/

namespace Sys2Proof.Machine

/-- The machine never stops with a fault: every error of the manual is an effect on State
(a status, a log record, an interrupt bit), so there is no constructor. -/
inductive Fault : Type
deriving DecidableEq, Repr

/-- Why a command has no meaning. -/
inductive Refusal where
  /-- Raised only by Dispatch for a command without a meaning yet; safe, since the machine stops. -/
  | notModelled (mnemonic : String)
deriving DecidableEq, Repr

/-! ## Clock, boot and management -/

/-- A slot update of a settling task (Table 2.10), applied at rank 5 of the cycle (R73): at slot `n` of Ward `w`, an IN
or OUT slot of a DONE task under ENFORCE, a claim given up, an IN or OUT slot of a completion under CHECK. -/
inductive SlotFx where
  | inDone (w n : Nat)
  | outDone (w n : Nat)
  | unclaim (w n : Nat)
  | inCheck (w n : Nat)
  | outCheck (w n : Nat)
deriving DecidableEq, Repr

/-- The clock domains' counts (R25, R376) and the timestamp (R267 to R269). `fclk` counts from the
divider release; `exam` holds the entries to be examined at the end of the cycle (R55); `slotDue` the slot updates of
the cycle's settlements, not yet applied (R73); `cmpNow` the entries whose CMP the cycle has sampled (R245); `clrDue` the
pages whose counters the cycle has cleared (R302); `seqNo`
numbers arrivals so that "in order of arrival" is plain data; `hold` is the fclk at which a hold ends, `lastSlew` the
fclk after the last slew step. -/
structure Clk where
  fclk : Nat := 0
  ts : Word64 := 0
  hold : Nat := 0
  pend : Int := 0
  lastSlew : Nat := 0
  exam : List Nat := []
  slotDue : List SlotFx := []
  cmpNow : List Nat := []
  clrDue : List Nat := []
  seqNo : Nat := 0
deriving DecidableEq, Repr

/-- The boot stage of a unit (Table 14.2) or the release of a plain domain (Table 13.14). -/
inductive Stage where
  | held
  | scrub
  | selftest
  | rescrub
  | tmrCheck
  | linkup
  | ready
  | timedOut
  | fenced
deriving DecidableEq, Repr

/-- KP_BOOT.STATE (Table 14.3). -/
inductive BootState where
  | scrub
  | selftest
  | linkup
  | ready
  | failed
deriving DecidableEq, Repr

/-- Start state, lock, fence mask and voted lanes (R376 to R389, R281). Unit numbers: Keeper 0,
Ward w 1 + w, Hinge h 64 + h, timestamp 80, management 81, meter 82. `since` holds the fclk in
which the unit's stage began; `laneAt` each disagreement of the last 1,024 fclk as (lane, fclk). -/
structure Boot where
  porst : Bool := true
  srst : Bool := false
  t0 : Nat := 0
  state : BootState := .scrub
  minimal : Bool := false
  reason : Nat := 0
  attempts : Nat := 0
  hfail : BitVec 8 := 0
  fence : BitVec 48 := 0
  lock : Bool := false
  stage : Tbl Stage := []
  since : Tbl Nat := []
  lane : List Nat := [0, 0, 0]
  laneAt : List (Nat × Nat) := []
  hard : Option Nat := none
deriving DecidableEq, Repr

/-- An event-ring entry (Table 11.5) with its full timestamp. -/
structure EvEntry where
  ts : Word64
  kind : Nat
  status : Status
  old : Bool
  aux : Nat
  gen : Nat
  handle : Nat
deriving DecidableEq, Repr

/-- The response of a register port (R368). -/
inductive AxiResp where
  | okay
  | slverr
  | decerr
  | waiting
deriving DecidableEq, Repr

/-- The management port: the value and response of the latest access, latched higher words of
reads and held writes of higher words (R400), BCAST_DIFF of the window pages (R402), the read and the
write held until a unit has finished its rescrub (R368), the event rings latched by port (R320). -/
structure Mgt where
  rdata : Word32 := 0
  resp : AxiResp := .okay
  latch : Tbl Word32 := []
  held : Tbl Word32 := []
  bdiff : Tbl Bool := []
  waitR : Option (BitVec 24) := none
  waitW : Option (BitVec 24 × Word32) := none
  evLatch : Tbl (Option (List EvEntry)) := []
deriving DecidableEq, Repr

/-! ## Tasks -/

/-- The nine task states (Table 2.6). -/
inductive TState where
  | free
  | pending
  | ready
  | placed
  | preloaded
  | running
  | done
  | failed
  | cancelled
deriving DecidableEq, Repr

/-- A settle-form HASP_SIGNAL attached to a task (R131, R207). -/
structure SettleSig where
  hasp : Nat
  inst : Option Nat
  inc : Word32
  any : Bool
deriving DecidableEq, Repr

/-- A task-form HASP_WAIT attached to a task (R131, R211). -/
structure TaskWait where
  hasp : Nat
  inst : Option Nat
  target : Word32
deriving DecidableEq, Repr

/-- What pass 2 writes into an entry: the fields of its TASK or JOIN record (Tables 2.1, 2.2), the
ring, submission, step and interval it was instantiated in (R234), its tenant (R229), effective
class (R233) and guard mode (R393). -/
structure TaskDesc where
  isJoin : Bool := false
  cq : Option Nat := none
  be : Bool := false
  relay : Bool := false
  watch : Bool := false
  yield : Bool := false
  func : Nat := 0
  tmo : Nat := 0
  energy : Nat := 0
  pclass : Nat := 0
  layer : Nat := 0
  opid : Nat := 0
  arglen : Nat := 0
  argptr : Nat := 0
  guards : List (BitVec 16) := []
  ring : Nat := 0
  subid : Word32 := 0
  tenant : Nat := 0
  seg : Nat := 0
  step : Option Nat := none
  interval : Nat := 0
  mode : Nat := 0
  rinst : Option Nat := none
  sig : List SettleSig := []
  wait : Option TaskWait := none
deriving DecidableEq, Repr

/-- Where a READY task stands on its way to a port (R103, Table of R103). -/
inductive PlaceSt where
  | none
  | forwarded
  | atEngine
  | atGov
  | inFlight
deriving DecidableEq, Repr

/-- A task-table entry (R50 to R75). `owed` counts the successor items sent and not yet sampled,
`released`, `noticed` and `owed` are conditions 3 to 5 of R60; `resvHeld` says that its stage was given a reservation
(R88, R95); `cut` names the instances into which it sends nothing more (R275); `freedAt` is the quarantine of R52. -/
structure Entry where
  st : TState := .free
  tumbler : Nat := 0
  gen : Nat := 0
  isSealed : Bool := false
  d : TaskDesc := {}
  succ : List Word32 := []
  spilled : Bool := false
  status : Status := 0
  root : Option Word32 := none
  guardWait : Option Nat := none
  claimed : Bool := false
  saved : List (Bool × BitVec 16) := []
  idx : List Word32 := []
  pendSince : Word64 := 0
  readyAt : Nat := 0
  runAt : Nat := 0
  tmoLimit : Nat := 0
  overrun : Bool := false
  place : PlaceSt := .none
  port : Option Nat := none
  rank : Nat := 0
  staged : Option Nat := none
  stageReq : Bool := false
  stageOut : Bool := false
  stageTried : Bool := false
  resvHeld : Bool := false
  sent : Bool := false
  owed : Nat := 0
  released : Bool := false
  noticed : Bool := false
  ran : Bool := false
  faulted : Bool := false
  retire : Bool := false
  discard : Bool := false
  cut : BitVec 64 := 0
  freedAt : Option Nat := none
deriving DecidableEq, Repr

/-- The free queue of a Ward: entries from `fresh` up have never been allocated since the scrub,
the freed ones follow in order (R52); retired entries are counted in the counter bank (R286). -/
structure FreeQ where
  fresh : Nat := 0
  freed : List Nat := []
deriving DecidableEq, Repr

/-- A buffer slot (R68). -/
structure Slot where
  f : Bool := false
  c : Bool := false
  fillgen : BitVec 16 := 0
  v : Bool := false
  value : Word32 := 0
  tenant : Nat := 0
deriving DecidableEq, Repr

/-! ## Engine ports -/

/-- A task in an issue queue: its copy of handle, generation and class (R98, R57), whether the copy
holds an uncorrectable word (Table 10.4). -/
structure IqEnt where
  handle : Nat
  gen : Nat
  be : Bool
  at_ : Nat
  preloaded : Bool := false
  copyBad : Bool := false
deriving DecidableEq, Repr

/-- The shadow argument buffer of a port (R99, R100). -/
inductive Shadow where
  | free
  | loading (handle gen : Nat) (left : Nat) (err : Status)
  | full (handle gen : Nat) (err : Status)
deriving DecidableEq, Repr

/-- A beat ready for OPD: kind 0 DATA, 1 STATUS, 2 ANSWER (Table 13.1), the channel of a message
beat, its flit index, length and class, the poison mask; of a STATUS beat the message's sequence
number and relay hop, whether its sender awaits an ACK (R167), the message queue it came from. -/
structure OpdBeat where
  kind : Nat
  ch : ChKey
  flit : Nat := 0
  nflit : Nat := 0
  be : Bool := false
  data : BitVec 512 := 0
  poison : BitVec 8 := 0
  last : Bool := true
  seqNo : BitVec 16 := 0
  hop : Option Nat := none
  ack : Bool := false
  queue : Option Nat := none
deriving DecidableEq, Repr

/-- The port's hold on the head of its issue queue by a task-form wait (R211, R212). -/
structure PortWait where
  handle : Nat
  gen : Nat
  hasp : Nat
  inst : Option Nat
  target : Word32
  since : Word64
  released : Bool := false
deriving DecidableEq, Repr

/-- The RUNNING task of a port: the fclk and the timestamp of its commit. -/
structure RunInfo where
  handle : Nat
  gen : Nat
  commit : Nat
  since : Word64 := 0
deriving DecidableEq, Repr

/-- A contribution this port has open: queue, holding instance, whether a part of it has been accepted (R187, R190). -/
structure OpenContrib where
  qid : BitVec 16
  inst : Option Nat
  word : Word32
  acc : Bool := false
deriving DecidableEq, Repr

/-- A part sent and not yet answered (R187): its queue and instance, tag, whether it opens or ends its
contribution, its offset. -/
structure PartOut where
  qid : BitVec 16
  inst : Option Nat
  tag : BitVec 16
  first : Bool
  final : Bool
  off : Nat := 0
deriving DecidableEq, Repr

/-- A snapshot asked of a port: the address of its slot, the timestamp and the fclk of the request, whether the
dump asked (R361). -/
structure SnapReq where
  addr : Nat
  ts : Word64
  since : Nat
  dump : Bool
deriving DecidableEq, Repr

/-- An engine port (R80, R98 to R101, R151, R187, R346 to R362). -/
structure Port where
  online : Bool := false
  inReset : Bool := false
  credit : Nat := 0
  tdm : Nat := 0
  iq : List IqEnt := []
  run : Option RunInfo := none
  shadow : Shadow := .free
  iss : Option Nat := none
  issBinds : Bool := false
  cans : List (BitVec 25) := []
  stage : Option (Nat × Nat) := none
  wait : Option PortWait := none
  bindTx : List ChKey := []
  bindRx : List ChKey := []
  contribs : List OpenContrib := []
  opd : List OpdBeat := []
  statusOut : Option OpdBeat := none
  cretry : Nat := 0
  parts : List PartOut := []
  hsigs : List (Nat × BitVec 16) := []
  keyRecs : List (BitVec 128) := []
  snapReq : Option SnapReq := none
  sampleBusy : Nat := 0
deriving DecidableEq, Repr

/-! ## Placement, governor, arbiter -/

/-- A request at the placement engine (R83, R84, R86): tier 0 token-backed LC, 1 token-backed BE,
2 spare LC, 3 spare BE; a staging request has no tier; `waitAt` is set in the waiting list. -/
structure PReq where
  handle : Nat
  gen : Nat
  tier : Nat
  staging : Bool
  seqNo : Nat
  waitAt : Option Nat := none
  lcAt : Nat := 0
deriving DecidableEq, Repr

/-- The placement engine's requests and the assignments on their way to the governor (R82). -/
structure Place where
  reqs : List PReq := []
  toGov : List (Nat × Nat × Nat) := []
deriving DecidableEq, Repr

/-- A request waiting in a governor queue (R96). -/
structure GReq where
  handle : Nat
  gen : Nat
  port : Nat
  be : Bool
  arrived : Nat
  seqNo : Nat
deriving DecidableEq, Repr

/-- A reservation: the staged task and the estimate recorded with it (R95). -/
structure Resv where
  handle : Nat
  est : Nat
deriving DecidableEq, Repr

/-- A supply domain (R93 to R97): the fields of KP_GOV_BUDGET, KP_GOV_STEP and KP_GOV_THR, the
limits in force in this window (none: removed), the window's charges, the reservations newest
first, the queue, the delay counters. `bad` marks an uncorrectable governor word (Table 10.4). -/
structure Dom where
  starts : Nat := 0
  limit : Nat := 0
  shift : Nat := 1
  beff : Option Nat := none
  leff : Option Nat := none
  n : Nat := 0
  i : Nat := 0
  resv : List Resv := []
  q : List GReq := []
  dlyStarts : Nat := 0
  dlyCyc : Nat := 0
  bad : Bool := false
deriving DecidableEq, Repr

/-- The governor: domains, energy trims in force (R92), the fclk and timestamp at which the window
began, whether the timestamp has stepped or held since (R91, R269), and the grants made in this fclk per domain
(R96). -/
structure Gov where
  doms : Tbl Dom := []
  trim : Tbl (BitVec 8) := []
  winStart : Nat := 0
  winTs : Option Word64 := none
  stepped : Bool := false
  granted : Tbl Nat := []
  grantedAt : Nat := 0
deriving DecidableEq, Repr

/-- The arbiters: tokens and the last ring served per Ward, tenant and class (key
(w · 256 + t) · 2 + c), pointer and deficits (R105), the epoch's start and length (R390) and the ready
counts reported 32 fclk before the next one (R106). -/
structure Arb where
  tok : Tbl Nat := []
  last : Tbl Nat := []
  ptr : Tbl Nat := []
  deficit : Tbl Nat := []
  epochStart : Nat := 0
  epoch : Nat := 256
  rep : Tbl Nat := []
deriving DecidableEq, Repr

/-! ## Rings and walks -/

/-- The header of the segment being walked (Table 4.3), and of a CONTROL segment its records. -/
structure SegHdr where
  off : Nat
  graph : Bool
  len : Nat
  next : Word32
  ntask : Nat
  body : List (BitVec 256) := []
deriving DecidableEq, Repr

/-- An open loop level (R133): image offset of the record after LOOP, EXIT, ITER, COUNT, FOREVER, the segment
that holds the LOOP. -/
structure LoopLvl where
  body : Nat
  exit : Nat
  iter : Word32
  count : Word32
  forever : Bool
  seg : SegHdr
deriving DecidableEq, Repr

/-- What a ring's walk is doing (R129 to R136, R146, R238). -/
inductive WalkMode where
  | idle
  | waitSub
  | header
  | records
  | pass1
  | waitAhead
  | pass2
  | entq
  | retry (at_ : Nat)
  | remote
  | pass3
  | waitHasp
  | waitFence (scope : Bool) (failstop : Bool)
  | stopped
deriving DecidableEq, Repr

/-- A patch that INDIRECT puts into the next record (R137). -/
structure Patch where
  foff : Nat
  bytes : Nat
  value : Nat
deriving DecidableEq, Repr

/-- A jump sought through the NEXT chain: its target, whether a target at a segment's end leaves the segment, the
record that jumps and its image offset (R132, R133). -/
structure Seek where
  tgt : Nat
  leave : Bool
  off : Nat
  rec1 : BitVec 512
deriving DecidableEq, Repr

/-- The graph cursor of a ring (R109, R129): mode, CUR_OFF, the submission walked, the segment, the
open loops outermost first, the patches of a run of INDIRECT, the target sought through the NEXT
chain (R132), the records of the segment, values and fan lists read, the fan-list blocks that pass 3 has reread (R46), the
read that the walk waits for and the reads not yet issued (R122), the record that waits (R147), the ring-form wait that
holds it (R211). -/
structure Walk where
  mode : WalkMode := .idle
  off : Nat := 0
  subid : Word32 := 0
  seg : Option SegHdr := none
  loops : List LoopLvl := []
  patches : List Patch := []
  seek : Option Seek := none
  body : List (BitVec 256) := []
  memv : Tbl Word64 := []
  fans : Tbl (List Nat) := []
  fanWait : Option Nat := none
  reread : List Nat := []
  opWait : Option Nat := none
  want : List Nat := []
  atRec : BitVec 512 := 0
  hold : Option TaskWait := none
  since : Word64 := 0
deriving DecidableEq, Repr

/-- The response awaited for a submission's posted write (R143, R328). -/
inductive WrSt where
  | none
  | pending
  | done
deriving DecidableEq, Repr

/-- An accepted submission (R117 to R120, R141 to R144): its record number and fields, its entries
unsettled and settled, the status of the event that ended it early, and what it still waits for: `digests` counts its
WATCHes not yet answered, `digestQ` the digests written, with the combining queue of each. -/
structure Sub where
  subid : Word32
  recNo : Nat
  image : Nat := 0
  entry : Nat := 0
  imglen : Nat := 0
  statusPtr : Nat := 0
  note : Option (Nat × Word32) := none
  waitOn : Option (Nat × Word32) := none
  param : Word64 := 0
  acceptedAt : Nat := 0
  unsettled : Nat := 0
  nfail : Nat := 0
  ncanc : Nat := 0
  firstFail : Option Status := none
  early : Option Status := none
  walkEnded : Bool := false
  complete : Bool := false
  statusWr : WrSt := .none
  digests : Nat := 0
  digestQ : List (Option Nat) := []
deriving DecidableEq, Repr

/-- A step of a ring (R134): its number since enable, the submission it belongs to, its unsettled
entries, whether STEP_END has closed it, whether a segment of it has been sealed, the fclk from which STMO runs
(R144, R240). -/
structure StepRec where
  no : Nat
  subid : Word32
  unsettled : Nat := 0
  closed : Bool := false
  opened : Bool := false
  timer : Option Nat := none
deriving DecidableEq, Repr

/-- A pre-emption point (R234, R236): `before` and `interval` number the intervals before and after it, `was` those that followed
it before it was taken; `clean`
says that no record that a re-walk would repeat with effect has been executed since. -/
structure Point where
  off : Nat
  subid : Word32
  iters : List LoopLvl
  seg : Option SegHdr
  step : Word32
  before : Nat
  interval : Nat
  was : List Nat := []
  isStep : Bool
  hasYield : Bool
  stepNo : Option Nat
  started : Bool := false
  clean : Bool := true
deriving DecidableEq, Repr

/-- The pre-emption state of a ring (R237 to R242). -/
inductive PreSt where
  | run
  | pending
  | held
deriving DecidableEq, Repr

/-- A ring: descriptor words D0 to D4, ENABLE, the position and cursor of Table 4.1, its walk,
submissions and steps oldest first, fetch state (R112, R113, R121), cancel bound (R145), pre-emption
(R234 to R243), whether a submission passed since enable had a FAILED entry (R136), the submissions and steps that
ended, with what their timers started from and the fclk of the end (R31, R144), hang count (R298), the LAYER and OPID of the latest MARK (R309), the working copy of
the guard mode (R391). -/
structure Ring where
  d0 : Word32 := 0
  d1 : Word32 := 0
  d2 : Word32 := 0
  d3 : Word32 := 0
  d4 : Word32 := 0
  enable : Bool := false
  rptr : BitVec 16 := 0
  fptr : BitVec 16 := 0
  wptr : BitVec 16 := 0
  haltKind : Nat := 0
  halt : Status := 0
  step : Word32 := 0
  walk : Walk := {}
  subs : List Sub := []
  steps : List StepRec := []
  stepNo : Nat := 0
  stepTop : Nat := 0
  segNo : Nat := 0
  expSub : Word32 := 0
  recNo : Nat := 0
  cancelTo : Option Nat := none
  repollAt : Option Nat := none
  fetchOff : Nat := 0
  gotOff : Nat := 0
  recRead : Bool := false
  points : List Point := []
  interval : Nat := 0
  ivYield : Bool := false
  pre : PreSt := .run
  prePoint : Option Point := none
  preQueue : Bool := false
  preResume : Bool := false
  hangTicks : Nat := 0
  hung : Bool := false
  layer : Nat := 0
  opid : Nat := 0
  gmode : Nat := 0
  fenceFail : Bool := false
  overSubs : List (Nat × Nat) := []
  overSteps : List (Nat × Nat) := []
deriving DecidableEq, Repr

/-- A tenant (Table 8.2). -/
structure Tenant where
  en : Bool := false
  lcOk : Bool := false
  preemptible : Bool := false
  gmode : Nat := 0
  chmask : BitVec 16 := 0xFFFF
  waymask : BitVec 16 := 0xFFFF
  weight : Nat := 1
  ttq : Nat := 2048
deriving DecidableEq, Repr

/-- A record of a GRAPH segment after the check pass (Table 4.4), with its operands evaluated. -/
inductive SRec where
  | task (rec : BitVec 512)
  | join (rec : BitVec 256)
  | edge (src : Nat) (succ : List Nat)
  | fan (src ptr count : Nat)
  | openCh (rec : BitVec 256)
  | combine (rec : BitVec 512)
  | setSlot (rec : BitVec 256) (value : Word32)
  | watch (rec : BitVec 256) (id : Word32)
  | waitTask (task : Nat) (w : TaskWait)
  | sigTask (task : Nat) (g : SettleSig)
  | mark (rec : BitVec 256)
deriving DecidableEq, Repr

/-- A GRAPH segment between its passes (R46, R253): checked records, the home of each index (the
instance when remote), demand per Ward in entries, lines, queues, blocks, federation records and
channel records, the handles of the map bank, the remote instances not yet answered. -/
structure Seg where
  no : Nat
  bank : Nat
  recs : List SRec
  homes : List (Option Nat × Nat)
  demand : Tbl Nat
  lines : Tbl Nat
  queues : Tbl Nat
  blocks : Tbl Nat
  fedrec : Tbl Nat
  chrec : Tbl Nat
  imps : List (Nat × Nat × Nat)
  handles : List Word32 := []
  qents : List Nat := []
  awaiting : List Nat := []
  since : Word64 := 0
  quota : Bool := false
deriving DecidableEq, Repr

/-- A rank of a placement class (R76). -/
structure Rank where
  v : Bool := false
  ward : Nat := 0
  mask : BitVec 64 := 0
deriving DecidableEq, Repr

/-- One copy of a placement class: ranks by number, owner (R76 to R79, R252). -/
structure PClassCopy where
  ranks : Tbl Rank := []
  tenant : Nat := 0
  remote : Bool := false
  rinst : Nat := 0
deriving DecidableEq, Repr

/-- A placement class: shadow and working copy (R391), ranks without room after an uncorrectable
word, ranks written since the latest commit (Table 10.4). -/
structure PClass where
  shadow : PClassCopy := {}
  work : PClassCopy := {}
  bad : List Nat := []
  written : List Nat := []
deriving DecidableEq, Repr

/-! ## Hasps and keys -/

/-- A hasp (Table 7.1). -/
structure Hasp where
  count : Word32 := 0
  v : Bool := false
  tenant : Nat := 0
  ovf : Nat := 0
deriving DecidableEq, Repr

/-- Who waits on a hasp (R211, R264). -/
inductive Waiter where
  | ring (r : Nat)
  | port (p : Nat)
  | remote (inst : Nat) (tag : Word32)
deriving DecidableEq, Repr

/-- A registered wait (R211 to R213); `sel` says that it has been selected for release. -/
structure HWait where
  who : Waiter
  hasp : Nat
  target : Word32
  seqNo : Nat
  sel : Bool := false
deriving DecidableEq, Repr

/-- A grant of keys not yet passed by TAIL (R219, R221). -/
structure Grant where
  gseq : BitVec 16
  off : Nat
  count : Nat
  reqport : Nat
  returned : Bool := false
deriving DecidableEq, Repr

/-- A key request waiting at its pool (R218, R222). -/
structure KReq where
  reqport : Nat
  count : Nat
  since : Nat
  sinceTs : Word64
deriving DecidableEq, Repr

/-- A key pool (Table 7.4); `late` requests were granted from its queue at fclk `lateAt` although their limit had passed
(R222). -/
structure KPool where
  base : Nat := 0
  tenant : Nat := 0
  en : Bool := false
  size : Nat := 0
  head : Nat := 0
  tail : Nat := 0
  nextGseq : BitVec 16 := 0
  free : Nat := 0
  grants : List Grant := []
  waiting : List KReq := []
  lateAt : Nat := 0
  late : Nat := 0
deriving DecidableEq, Repr

/-! ## Channels, message queues, combining -/

/-- An endpoint of a channel (Table 5.1). -/
inductive EndP where
  | port (p : Nat)
  | queue (w q : Nat)
  | task (word : Word32)
  | relay (hops : List Nat)
  | remote (inst : Nat) (endp : Word32)
deriving DecidableEq, Repr

/-- The opening owner of a channel (R158). -/
inductive ChOwner where
  | step (ring no interval : Nat)
  | sub (ring : Nat) (subid : Word32)
  | task (word : Word32)
  | remote (inst : Nat)
deriving DecidableEq, Repr

/-- A relay message in the relay buffer (R178, R179); its first flit was accepted at fclk `sentAt`. -/
structure RelayMsg where
  flits : List (BitVec 512)
  poison : List (BitVec 8)
  be : Bool
  hop : Nat
  task : Word32
  seqNo : BitVec 16
  sentAt : Nat := 0
deriving DecidableEq, Repr

/-- A channel: directory record, both endpoints' state, the messages not yet answered and those whose answer a port reset
discards (R169), the close at each holder, storm mark, status-word fields, with the messages landed on each hop of a relay
(Table 5.6), the freeing of its ID (R148 to R181, R265). -/
structure Chan where
  tenant : Nat
  dir : Nat
  tx : EndP
  rx : EndP
  owner : ChOwner
  nseq : BitVec 16 := 0
  eseq : BitVec 16 := 0
  sent : List (BitVec 16 × BitVec 16) := []
  noAns : List (BitVec 16) := []
  retry : Nat := 0
  noticed : Bool := false
  marked : Bool := false
  txPort : Option Nat := none
  rxPort : Option Nat := none
  rxUnbound : Bool := false
  txUnbound : Bool := false
  brokenHops : List Nat := []
  rxLoc : Option Nat := none
  rxGone : Bool := false
  closing : Bool := false
  txClosed : Bool := false
  rxClosed : Bool := false
  txBroken : Bool := false
  rxBroken : Bool := false
  landed : Word32 := 0
  hopLanded : Tbl Word32 := []
  lastLen : Nat := 0
  lastPoison : Bool := false
  closedBeat : Bool := false
  freeAt : Option Nat := none
  relay : Option RelayMsg := none
  retrySince : Word64 := 0
deriving DecidableEq, Repr

/-- An item of a message queue (R172 to R176): landed from fclk `landedAt` on; channel, sequence
number and sender for the ACK, none for a register push. -/
structure MqItem where
  be : Bool
  deadline : Word32
  flits : List (BitVec 512)
  poison : List (BitVec 8)
  ch : Option ChKey
  seqNo : BitVec 16
  landedAt : Nat
  delivering : Bool := false
deriving DecidableEq, Repr

/-- A message queue (R170 to R177, Table 15.11). -/
structure MQ where
  en : Bool := false
  tenant : Nat := 0
  size : Nat := 0
  base : Nat := 0
  reader : Nat := 0xFFFF
  fcEn : Bool := false
  fcPin : Nat := 0
  hiWm : Nat := 0
  loWm : Nat := 0
  items : List MqItem := []
  flushPend : Bool := false
  overrun : Bool := false
  xoff : Bool := false
  flushed : Nat := 0
  ceCnt : Nat := 0
deriving DecidableEq, Repr

/-- The item last popped at a Ward: WD_MQ_RDATA and WD_MQ_RSTAT (R175, Table 15.11). -/
structure MqPop where
  flits : List (BitVec 512) := []
  poison : Bool := false
  ch : Nat := 0
  flit : Nat := 0
  len : Nat := 0
  empty : Bool := false
deriving DecidableEq, Repr

/-- A storm notice held by the Keeper (R180). -/
structure Storm where
  ch : Nat
  sport : Nat
  rport : Nat
deriving DecidableEq, Repr

/-- The cell of one element (R191 to R194, R203): the 320-bit accumulator as an integer, flags, the
FP32 value of MAX, MIN and FAST, the INT64 value of integer MAX and MIN. -/
structure Cell where
  acc : Int := 0
  nan : Bool := false
  pinf : Bool := false
  ninf : Bool := false
  nz : Bool := true
  fp : Word32 := 0
  int : Int := 0
  bad : Bool := false
deriving DecidableEq, Repr

/-- A contribution open at a queue (R188): its sender, expected offset, contributor's successor
word. -/
structure QContrib where
  inst : Option Nat
  port : Nat
  exp : Nat
  word : Word32
deriving DecidableEq, Repr

/-- The state of a combining queue (Table 6.8). -/
inductive CqSt where
  | free
  | opened
  | draining
  | quarantine
deriving DecidableEq, Repr

/-- A combining queue (R182 to R204); `drainOver` says that the drain of an unsealed entry has ended (R48, R195). -/
structure CQ where
  st : CqSt := .free
  gen : Nat := 0
  oper : Nat := 0
  ofmt : Nat := 0
  ifmt : Nat := 0
  fast : Bool := false
  failed : Bool := false
  len : Nat := 0
  tenant : Nat := 0
  status : Status := 0
  openC : List QContrib := []
  blocks : Nat := 0
  n : Nat := 0
  admits : Nat := 0
  doneCnt : Nat := 0
  surplus : Nat := 0
  nanIn : Nat := 0
  nanOut : Nat := 0
  ovf : Nat := 0
  cells : Tbl Cell := []
  entry : Nat := 0
  outptr : Nat := 0
  ring : Nat := 0
  subid : Word32 := 0
  drained : Nat := 0
  outBuf : List (BitVec 64) := []
  wrOut : Nat := 0
  wrErr : Bool := false
  eccErr : Bool := false
  digestOut : Bool := false
  drainOver : Bool := false
  cancelLate : Bool := false
  freedAt : Option Nat := none
  since : Word64 := 0
deriving DecidableEq, Repr

/-- A contribution part accepted into, or on its way to, a Ward's combining input buffer
(R186, R188, R202). -/
structure Part where
  qid : BitVec 16
  inst : Option Nat
  port : Nat
  tag : BitVec 16
  tenant : Nat
  word : Word32
  off : Nat
  nelem : Nat
  final : Bool
  flits : List (BitVec 512)
  pflit : Nat := 0
deriving DecidableEq, Repr

/-! ## Federation -/

/-- HG_STAT.STATE (R260). -/
inductive HgState where
  | train
  | active
  | hold
  | down
deriving DecidableEq, Repr

/-- A Hinge (R256 to R276): credits held for each lane, slots to be returned, slots the peer may still send, held headers, item
counts, items waiting for credit, HELLO exchange, the state left and a DOWN event not yet applied, timestamp
attachment; `badRun` counts samples discarded in a row and is 8 after the Hinge has left ACTIVE (R271). -/
structure Hinge where
  state : HgState := .train
  leftState : HgState := .train
  linkUp : Bool := false
  helloRx : Bool := false
  helloTx : Bool := false
  credO : Nat := 0
  credA : Nat := 0
  retO : Nat := 0
  retA : Nat := 0
  rxO : Nat := 0
  rxA : Nat := 0
  txq : List (Item × Option Nat) := []
  heldItems : List (Nat × Item × Option Nat) := []
  txSeq : Nat := 0
  rxSeq : Nat := 0
  rxSince : Nat := 0
  lastConf : Nat := 0
  holdAt : Nat := 0
  downPend : Bool := false
  rearmed : Bool := false
  stall : Bool := false
  locked : Bool := false
  lost : Bool := false
  outlier : Nat := 0
  badRun : Nat := 0
  corr : Int := 0
  lastTs : Nat := 0
  badFlits : List Nat := []
deriving DecidableEq, Repr

/-- A route (R250). -/
structure Route where
  v : Bool := false
  hinge : Nat := 0
deriving DecidableEq, Repr

/-- A roster record (R255): the remote entry's successor word, its ring, submission, step and interval, its YIELD
bit; `discard` marks an entry of a discarded interval (R238). -/
structure Roster where
  word : Word32
  ring : Nat
  subid : Word32
  step : Option Nat
  interval : Nat
  isYield : Bool
  discard : Bool := false
deriving DecidableEq, Repr

/-- The federation table of a Ward (R255): import records (entry, source instance, count) and roster records. -/
structure FedTab where
  imports : List (Nat × Nat × Nat) := []
  roster : List Roster := []
deriving DecidableEq, Repr

/-- A segment reserved here for another instance (R253): origin, ring, map bank, the entries by index, whether its XCTL SEAL
has been handed over. -/
structure RemSeg where
  inst : Nat
  bank : Nat
  ring : Nat
  tenant : Nat
  handles : List (Nat × Nat)
  sealRx : Bool := false
deriving DecidableEq, Repr

/-! ## Faults, observation, meter -/

/-- An error-log record (Table 10.6); `cyc` lists channel, sending and receiving port of the cycle of a STORM record (R180),
`dmg` marks an uncorrectable word in it (R291). -/
structure LogRec where
  ts : Word64 := 0
  status : Status := 0
  kind : Nat := 0
  handleV : Bool := false
  ringV : Bool := false
  rootV : Bool := false
  overrun : Bool := false
  src : UnitId := .keeper
  tenant : Nat := 0
  ring : Nat := 0
  layer : Nat := 0
  subid : Word32 := 0
  handle : Word32 := 0
  aux : Word32 := 0
  opid : Nat := 0
  objk : Nat := 0
  cyc : List (Nat × Nat × Nat) := []
  dmg : Bool := false
deriving DecidableEq, Repr

/-- The error log (R288 to R292): records oldest first, dropped count, FAILED, the last-resort
registers, records formed per status, buffers of Wards and Hinges by unit number, records lost
there, records on their way to the Keeper with the lost ones they report; records stored in this cycle and those of it that
found the log full (R409). -/
structure Log where
  recs : List LogRec := []
  dropped : Nat := 0
  failed : Bool := false
  lr : List Word32 := []
  lrOvf : Nat := 0
  cnt : Tbl Nat := []
  buf : Tbl (List LogRec) := []
  lost : Tbl Nat := []
  air : Tbl (List (LogRec × Nat)) := []
  fresh : Nat := 0
  late : List LogRec := []
deriving DecidableEq, Repr

/-- KP_DBOLT_STAT.STATE (R294). -/
inductive DbState where
  | run
  | drain
  | quiesced
  | fault
deriving DecidableEq, Repr

/-- The deadbolt (R293 to R297): samples, disagreement count, latch, SHORT, the input, the fclk at
which DRAIN began and the trigger cycle; `instFault` says the drain reports ECC_UNCORR and `quiesceDue` that its quiesce
comes with the next fclk (R282). -/
structure Dbolt where
  state : DbState := .run
  a : Bool := false
  b : Bool := false
  disagree : Nat := 0
  discFault : Bool := false
  short : Nat := 0
  input : Bool := false
  asserted : Bool := false
  drainAt : Nat := 0
  trigAt : Option Nat := none
  drained : Bool := false
  instFault : Bool := false
  quiesceDue : Bool := false
deriving DecidableEq, Repr

/-- KP_HANG_STAT (R298). -/
structure Hang where
  hung : Bool := false
  ring : Nat := 0
  count : Nat := 0
deriving DecidableEq, Repr

/-- The dump (R299): `going` from GO to the end of its cycle, frozen from the cycle after; ports whose snapshot is awaited or
absent. -/
structure Dump where
  going : Bool := false
  frozen : Bool := false
  done : Bool := false
  reason : Nat := 0
  at_ : Word64 := 0
  await : List Nat := []
  absent : List Nat := []
  werr : Nat := 0
deriving DecidableEq, Repr

/-- The capture registers (R147). -/
structure Capture where
  valid : Bool := false
  missed : Nat := 0
  capRec : BitVec 512 := 0
  va : Nat := 0
  status : Status := 0
  haltKind : Nat := 0
  ring : Nat := 0
  off : Nat := 0
deriving DecidableEq, Repr

/-- Corrected-word counts of a scrub pass per word (key unit · 2^32 + table · 2^24 + index), words
already reported CE_HARD, the fclk after each unit's latest patrol read, the next word of each table's patrol (key
unit · 256 + table), the failures in a row of the transfer under way at each unit (R280, R283, R284). -/
structure Ecc where
  ce : Tbl Nat := []
  hard : List Nat := []
  lastScrub : Tbl Nat := []
  next : Tbl Nat := []
  retry : Tbl Nat := []
deriving DecidableEq, Repr

/-- A blocked-on record (R322, Table 11.7). -/
structure BlkRec where
  kind : Nat
  tenant : Nat
  ring : Nat
  waiter : Word32
  object : Word32
  value : Word32
  since : Word64
deriving DecidableEq, Repr

/-- Blocked-on snapshots (R322 to R324): `orderAt` holds the delivery cycles of orders on their way. -/
structure Blk where
  recs : Tbl (List BlkRec) := []
  ovf : Tbl Nat := []
  ts : Tbl Word64 := []
  orderAt : List Nat := []
  builtAt : Option Nat := none
  done : Bool := false
deriving DecidableEq, Repr

/-- A trace entry (Table 11.3) before its DELTA is fixed: it carries its timestamp (R310). -/
structure TrEnt where
  ts : Word64
  kind : Nat
  src : UnitId
  layer : Nat
  opid : Nat
  tenant : Nat
  aux : Nat
  arg : Word32
deriving DecidableEq, Repr

/-- A staged entry: its address in the buffer, whether it is written, when it was staged, DELTA. -/
structure TrSlot where
  post : Bool
  page : Nat
  slot : Nat
  at_ : Nat
  delta : Int
  ent : TrEnt
deriving DecidableEq, Repr

/-- TR_STAT.STATE (R314). -/
inductive TrState where
  | off
  | armed
  | post
  | stopped
deriving DecidableEq, Repr

/-- The trace (R307 to R318): FIFOs by unit number (the Keeper's own entries under 0), entries lost
since the last DROP with the timestamp of the first, staged entries, place of the next entry, the
page's current FULL value, entries placed in the post region. -/
structure Trace where
  state : TrState := .off
  preWrap : Bool := false
  prePage : Nat := 0
  preSlot : Nat := 0
  postCount : Nat := 0
  trigSrc : BitVec 5 := 0
  trigAt : Nat := 0
  retrig : Nat := 0
  werr : Nat := 0
  fifo : Tbl (List TrEnt) := []
  lost : Tbl (Nat × Word64) := []
  staged : List TrSlot := []
  full : Option Word64 := none
  sampNext : Tbl Nat := []
  sampAt : Tbl Nat := []
deriving DecidableEq, Repr

/-- A WATCH and its running digest (R326 to R328): kind 0 channel, 1 queue, 2 task. -/
structure Watch where
  kind : Nat
  obj : Nat
  ring : Nat
  subid : Word32
  dptr : Nat
  crc : Word32 := 0xFFFFFFFF
  nan : Nat := 0
  inf : Nat := 0
  maxabs : Word32 := 0
  count : Nat := 0
  aux : Nat := 0
  bytes : Nat := 0
deriving DecidableEq, Repr

/-- A tally line (R332); `dirtyAt` is the sequence at which it became dirty (R331). -/
structure Tally where
  busy : Nat := 0
  qwait : Nat := 0
  bytes : List Nat := [0, 0, 0, 0]
  waste : Nat := 0
  done : Nat := 0
  failed : Nat := 0
  preempt : Nat := 0
  sat : Bool := false
  dirtyAt : Option Nat := none
deriving DecidableEq, Repr

/-- A tenant's accumulators in a bank of the meter (R334, R336). -/
structure Acc where
  busy : Nat := 0
  qwait : Nat := 0
  bytes : List Nat := [0, 0, 0, 0]
  waste : Nat := 0
  done : Nat := 0
  failed : Nat := 0
  preempt : Nat := 0
  sat : Bool := false
  damaged : Bool := false
deriving DecidableEq, Repr

/-- A meter record without its MAC (Table 12.2). -/
structure MRec where
  seqNo : Word64
  startTs : Word64
  endTs : Word64
  kind : Nat
  flags : Nat
  tenant : Nat
  preempt : Nat
  cfggen : Word32
  busy : Word64
  qwait : Word64
  bytes : List Word64
  waste : Word64
  done : Word32
  failed : Word32
deriving DecidableEq, Repr

/-- What the record former still has to form for the closing period (R337, R342). -/
structure Closing where
  startTs : Word64
  endTs : Word64
  sclk : Nat
  lines : Nat
  bad : Nat
  stretched : Bool
  cfggen : Word32
  next : Nat
  usage : Nat
  closeDone : Bool
  cfg : Option MtCfg
deriving DecidableEq, Repr

/-- A record formed and not yet signed, with the key handle and the unit identity in force at its formation
(R339, R342). -/
structure Unsigned where
  mrec : MRec
  handle : Nat
  unitId : Word64
deriving DecidableEq, Repr

/-- The signature under way (R339, R369): since which sclk REQ is 1, or when it is retried. -/
structure Signing where
  item : Unsigned
  since : Nat
  waitAck : Bool
  retryAt : Option Nat
deriving DecidableEq, Repr

/-- The Sealed Meter (R329 to R344, Table 12.4): `running` is STATE, `run` the bit MT_CTRL.RUN, `stopReq` a RUN := 0
whose close is still to come; `ts` the timestamp sampled at the latest sclk edge (R333); `lastSlot` and `lastForm` the
sclk of the latest tally slot and of the latest record formed; the header words of the meter port's page, the response and
the value of its latest access, the higher words its reads have latched (R400, R416). -/
structure Meter where
  running : Bool := false
  run : Bool := false
  stopReq : Bool := false
  period : Nat := 1000000
  tmo : Nat := 100
  handle : Nat := 0
  unitId : Word64 := 0
  seqBase : Word64 := 0
  seqNo : Word64 := 0
  cfggen : Word32 := 0
  irq : BitVec 4 := 1
  thr : Nat := 256
  cntStretch : Nat := 0
  cntBad : Nat := 0
  cntKeyerr : Nat := 0
  bank : Tbl Acc := []
  closing : Option Closing := none
  closeBank : Tbl Acc := []
  startTs : Word64 := 0
  startSclk : Nat := 0
  due : Bool := false
  delayed : Bool := false
  lines : Nat := 0
  badLines : Nat := 0
  stopLines : Nat := 0
  cfgPend : Option MtCfg := none
  toSign : List Unsigned := []
  signing : Option Signing := none
  buf : List (MRec × BitVec 256) := []
  lastSlot : Option Nat := none
  lastForm : Option Nat := none
  ts : Word64 := 0
  errmask : Word32 := 0x1FFF
  scratch : Word32 := 0
  resp : AxiResp := .okay
  rdata : Word32 := 0
  latch : Tbl Word32 := []
deriving DecidableEq, Repr

/-! ## Items inside the block and what it drives -/

/-- A message on its way to its receiving holder (R160 to R165); its first flit was accepted at fclk `sentAt`. -/
structure Msg where
  key : ChKey
  seqNo : BitVec 16
  be : Bool
  deadline : Word32
  flits : List (BitVec 512)
  poison : List (BitVec 8)
  hop : Option Nat := none
  sentAt : Nat := 0
deriving DecidableEq, Repr

/-- Items that have left their sender inside the instance and that their holder has not yet sampled
(R21, R27, R53). -/
inductive XItem where
  /-- A successor item: 0 decrement, 1 failure notice, 2 cancel notice; the entry it is owed for. -/
  | succ (owner : Nat) (word : Word32) (kind : Nat) (root : Word32) (status : Status)
  /-- A settlement of a port's Ward forwarded to the entry's home Ward (R57). -/
  | settle (word : Word32) (status : Status) (aux : Word32) (busy qwait : Nat) (stats : Option (BitVec 256))
  /-- A settlement forwarded to the ring's home Ward (R60, R141). -/
  | toRing (word : Word32) (ring : Nat) (subid : Word32) (step : Option Nat) (st : TState) (status : Status) (discard : Bool)
  /-- A PLACED, PRELOADED or RUNNING notice of an issue proxy (R57). -/
  | proxy (word : Word32) (kind : ProxyKind)
  /-- A placement request on its way to the placement engine (R105). -/
  | preq (handle gen tier : Nat)
  /-- A staging request (R86). -/
  | sreq (handle gen : Nat)
  /-- A placement or staging decision on its way to the port's Ward (R57). -/
  | pdec (handle gen port rank : Nat) (staging : Bool)
  /-- The report that a staging walk found no port (R89). -/
  | sNone (handle gen : Nat)
  /-- An issue or CAN release on its way to the Keeper (R81). -/
  | release (port handle : Nat) (issue : Bool)
  /-- The release of every entry of a reset port (R362). -/
  | portFree (port : Nat)
  /-- A withdrawal on its way to the Keeper (R103). -/
  | withdraw (handle gen : Nat)
  /-- An unload directive or a forwarded cancel on its way to the port's Ward (R103). -/
  | unload (handle gen port : Nat)
  /-- Share tokens on their way to a Ward (R106). -/
  | tokens (w : Nat) (toks : List (Nat × Nat))
  /-- A seal on its way to a home Ward (R46, R48). -/
  | segSeal (w ring seg : Nat)
  /-- A command fault on its way to the ring's home Ward (R140, R145). -/
  | cmdFault (ring : Nat) (subid : Word32) (status : Status)
  /-- A message (R160). -/
  | msg (m : Msg)
  /-- A NACK or ACK on its way back to the sending Ward from a Ward or the Keeper (R165 to R167). -/
  | nack (key : ChKey) (seqNo : BitVec 16) (status : Status) (src : Option Nat)
  | ack (key : ChKey) (seqNo : BitVec 16) (src : Option Nat)
  /-- An answer on its way to a requesting port (R355). -/
  | answer (port : Nat) (beat : BitVec 512)
  /-- A request to the channel allocator with the channel it opens (R154); slot for IDSLOT. -/
  | chAlloc (ch : Chan) (port : Nat) (tag : BitVec 16) (hops : List Nat)
  /-- A bind or unbind notice of Ward `src` (R151). -/
  | bind (key : ChKey) (tx : Bool) (port : Option Nat) (src : Nat)
  /-- A close on its way from a Ward or the Keeper (R159). -/
  | close (key : ChKey) (at_ : CloseAt) (src : Option Nat)
  /-- A storm notice (R180). -/
  | storm (s : Storm)
  /-- A contribution part (R186). -/
  | part (p : Part)
  /-- A tear notice (R190). -/
  | tear (qid : BitVec 16) (inst : Option Nat) (port : Nat) (word : Word32)
  /-- A SIGNAL on its way to the Keeper (R207). -/
  | sig (hasp : Nat) (inc : Word32) (src : SigSrc)
  /-- A task-form release on its way to the port's Ward (R213). -/
  | rel (port handle gen : Nat)
  /-- A key request (R218). -/
  | keyReq (dport reqport pool count tenant : Nat) (tag : BitVec 16)
  /-- A RETURN_UNUSED on its way to the pool (R221). -/
  | keyRet (dport pool : Nat) (gseq : BitVec 16) (port : Nat) (tag : BitVec 16)
  /-- A discard notice (R238). -/
  | discard (w ring lo hi : Nat)
  /-- An unreachable notice (R273). -/
  | unreach (w : Nat) (mask : BitVec 64)
  /-- A reread of an issue-queue copy (Table 10.4). -/
  | reread (port handle : Nat)
  /-- A cancel of a task on its way to its home Ward (R140, R103). -/
  | cancelTask (handle gen : Nat)
  /-- An engine's doorbell on its way to Ward `w`, which samples it at fclk `due` (R108, R116). -/
  | bell (due w t slot : Nat) (wptr : BitVec 16)
  /-- An engine's slot write on its way to Ward `w`, which samples it at fclk `due` (R108, R354): slot, CLEAR, VALUE, the
  port, its TAG and the tenant of its task. -/
  | slotW (due w n : Nat) (clear : Bool) (value : Word32) (port : Nat) (tag : BitVec 16) (tenant : Option Nat)
deriving DecidableEq, Repr

/-- The attributes of a memory transaction (R364): AxUSER's partition tag, AxQOS, AxPROT and AxCACHE. -/
structure Ax where
  tag : BitVec 41
  qos : BitVec 4
  prot : BitVec 3
  cache : BitVec 4
deriving DecidableEq, Repr

/-- The data of a dump section (Table 10.8): register words in address order, and the tables as they are stored. -/
inductive DumpImg where
  /-- 0x01, 0x10: register pages. -/
  | words (l : List Word32)
  /-- 0x02: the ring table. -/
  | rings (t : Tbl Ring)
  /-- 0x03: hasps and wait records. -/
  | hasps (t : Tbl Hasp) (w : List HWait)
  /-- 0x04: placement classes. -/
  | classes (t : Tbl PClass)
  /-- 0x05: governor, arbiter and route state. -/
  | govern (g : Gov) (a : Arb) (r : Tbl Route)
  /-- 0x06: the error log, the last-resort registers, KP_LOG_CNT. -/
  | errlog (l : Log)
  /-- 0x07: capture registers and storm notices. -/
  | capture (c : Capture) (s : List Storm)
  /-- 0x11: the task table. -/
  | tasks (t : Tbl Entry)
  /-- 0x12: the edge cache, the successor lists held by entry. -/
  | edges (l : List (Nat × List Word32))
  /-- 0x13: the channel table, channels opened by other instances as (instance, ID, record). -/
  | chans (t : Tbl (Option Chan)) (r : List (Nat × Nat × Chan))
  /-- 0x14: message queues. -/
  | queues (t : Tbl MQ)
  /-- 0x15: the combining store. -/
  | combine (t : Tbl CQ)
  /-- 0x16: slots, key pools, federation table, event rings, counters, blocked-on records. -/
  | others (s : Tbl Slot) (k : Tbl KPool) (f : FedTab) (e : Tbl (List EvEntry)) (c : Tbl Nat) (r : List BlkRec)
  /-- 0x20: a Hinge's page, credits and held headers. -/
  | hinge (l : List Word32) (g : Hinge)
  /-- 0x30: the ports whose slot is all zeros; the other slots were written as their snapshots came. -/
  | slots (absent : List Nat)
deriving DecidableEq, Repr

/-- A transaction on a memory port or a record driven on another port: what the block puts out. -/
inductive Out where
  /-- A read of a memory port: unit, address, attributes (R121, R231, R364). -/
  | mpRead (u : UnitId) (addr : Nat) (ax : Ax)
  /-- A write of a memory port: unit, through NP or MP, address, bytes as (length, value), attributes. -/
  | memWrite (u : UnitId) (np : Bool) (addr len : Nat) (data : Nat) (ax : Ax)
  /-- An ISS descriptor (Table 13.2). -/
  | iss (port : Nat) (desc : BitVec 512)
  /-- A PRE beat with its handle (R349). -/
  | pre (port : Nat) (hdl : BitVec 25) (data : BitVec 256) (last : Bool)
  /-- A CAN (R350). -/
  | can (port : Nat) (hdl : BitVec 25)
  /-- An OPD beat (Table 13.1). -/
  | opd (port : Nat) (beat : OpdBeat)
  /-- A KEY record (Table 13.7). -/
  | key (port : Nat) (rec : BitVec 128)
  /-- An XOFF pulse on CTL (R360). -/
  | xoff (port : Nat) (ch : ChKey) (on : Bool)
  /-- A snapshot request on CTL (R361). -/
  | snapReq (port : Nat)
  /-- A snapshot slot of 512 bytes written (Table 13.8). -/
  | snapSlot (port : Nat) (addr : Nat) (data : BitVec 4096) (ax : Ax)
  /-- The payload of a flit (R257), a link request, a stall acknowledgement. -/
  | flit (h : Nat) (payload : BitVec 1920)
  | linkReq (h : Nat) (active : Bool)
  | stallAck (h : Nat)
  /-- The header of a dump (R300): MAGIC, KP_VERSION, KP_CONFIG, reason, section count, total length, timestamp. -/
  | dumpHdr (addr : Nat) (magic version config : Word32) (reason sections total : Nat) (ts : Word64) (ax : Ax)
  /-- A section through the MP of its unit: ID, unit number, data length in bytes, NBAD, the indices of bad words,
  those written with AXI5 write poison (R287), the data. -/
  | dumpSec (u : UnitId) (addr : Nat) (id unitNo len nbad : Nat) (bad poison : List Nat) (img : DumpImg) (ax : Ax)
  /-- A trace block of 16 entries (Table 11.3, R312). -/
  | traceBlock (addr : Nat) (ents : List (BitVec 128)) (ax : Ax)
  /-- A signing request to the key store (R369). -/
  | ksReq (handle : Nat) (msg : BitVec 832)
  /-- An interrupt write through a unit's NP (R367). -/
  | msi (u : UnitId) (addr : Nat) (data : Word32) (ax : Ax)
deriving DecidableEq, Repr

/-- The block. Units with several instances are flat tables; the keys are: entries by local handle,
slots Ward · 4,096 + slot, ports by global number, queues Ward · 64 + queue, key pools
port · 16 + pool, registers and counters by byte address in the management aperture. -/
structure Block where
  clk : Clk := {}
  boot : Boot := {}
  mgt : Mgt := {}
  regs : Tbl Word32 := []
  cnt : Tbl Nat := []
  cntSh : Tbl Nat := []
  snapAt : List Nat := []
  snapTs : Word64 := 0
  cmtTs : Word64 := 0
  cmtDue : List Nat := []
  iqWork : Tbl Word32 := []
  ents : Tbl Entry := []
  wq : Tbl FreeQ := []
  slots : Tbl Slot := []
  ports : Tbl Port := []
  occ : Tbl (List Nat) := []
  place : Place := {}
  gov : Gov := {}
  arb : Arb := {}
  rings : Tbl Ring := []
  tdone : Tbl Word32 := []
  tens : Tbl Tenant := []
  segs : Tbl (Option Seg) := []
  entq : List Nat := []
  pcls : Tbl PClass := []
  hasps : Tbl Hasp := []
  waits : List HWait := []
  kpool : Tbl KPool := []
  mq : Tbl MQ := []
  mqPop : Tbl MqPop := []
  chans : Tbl (Option Chan) := []
  rchans : List (Nat × Nat × Chan) := []
  storms : List Storm := []
  cq : Tbl CQ := []
  cbParts : Tbl (List Part) := []
  opdLast : Tbl Nat := []
  preIgnored : Nat := 0
  resumeQ : List Nat := []
  lcIdleAt : Nat := 0
  hg : Tbl Hinge := []
  routes : Tbl Route := []
  unreach : BitVec 64 := 0
  fedt : Tbl FedTab := []
  remSegs : List RemSeg := []
  log : Log := {}
  dbolt : Dbolt := {}
  hang : Hang := {}
  dump : Dump := {}
  cap : Capture := {}
  ecc : Ecc := {}
  evr : Tbl (List EvEntry) := []
  blk : Blk := {}
  trace : Trace := {}
  watch : List Watch := []
  tally : Tbl Tally := []
  meter : Meter := {}
  xbar : List XItem := []
  out : List Out := []
deriving DecidableEq, Repr

/-- What has been sampled in the fclk cycle under way (R27, R29, R30, R419): by unit number the place in the order of
Table 1.4 and R30 of the latest event sampled (0: none), the tumbler items a Ward's input stage has accepted, whether
a command has acted, whether each register port has taken its access of this edge (R23, R368), whether the sender has
ended the cycle (log entry 7). -/
structure Cycle where
  last : Tbl Nat := []
  items : Tbl Nat := []
  began : Bool := false
  wrote : Bool := false
  read : Bool := false
  meter : Bool := false
  ended : Bool := false
deriving DecidableEq, Repr

/-- The whole machine: the synthesis parameters, the commands waiting first in first out, the
block, and what its cycle under way has sampled. -/
structure State where
  params : Params := {}
  pending : List Instr := []
  block : Block := {}
  cycle : Cycle := {}
deriving DecidableEq, Repr

/-- The machine as PORST_N leaves it (R376, R379): every field at its reset value, the pin still
asserted and no boot attempt counted yet, an empty queue. -/
def State.reset : State := {}

end Sys2Proof.Machine
end

