-- ==== Sys2Proof/Machine/Regs.lean ====
section
/-! DEFINITION. The management aperture (Table 15.1), the fields of every register that is held in
register storage (Tables 15.2 to 15.15), and reads and writes of that storage by the block. -/

namespace Sys2Proof.Machine

/-- A page of the aperture (Table 15.1). -/
inductive Page where
  | keeper (q : Nat)
  | ward (w q : Nat)
  | bcast (q : Nat)
  | group (g q : Nat)
  | hinge (h : Nat)
  | mirror
  | trace
  | dump
  | tenant (t : Nat)
deriving DecidableEq, Repr

/-- The page an aperture address lies in; none where Table 15.1 assigns nothing (R397, R368). -/
def pageOf (p : Params) (a : Nat) : Option Page :=
  let q := a / 0x1000 % 16
  if a < 0x10000 then if q < 11 then some (.keeper q) else none
  else if a < 0x100000 then none
  else if a < 0x400000 then
    if (a - 0x100000) / 0x10000 < p.nw ∧ q < 7 then some (.ward ((a - 0x100000) / 0x10000) q) else none
  else if a < 0x410000 then if q < 7 then some (.bcast q) else none
  else if a < 0x490000 then if q < 7 then some (.group ((a - 0x410000) / 0x10000) q) else none
  else if a < 0x500000 then none
  else if a < 0x580000 then
    if (a - 0x500000) / 0x10000 < p.nh ∧ q = 0 then some (.hinge ((a - 0x500000) / 0x10000)) else none
  else if a < 0x600000 then none
  else if a < 0x601000 then some .mirror
  else if a < 0x700000 then none
  else if a < 0x701000 then some .trace
  else if a < 0x702000 then some .dump
  else if a < 0x800000 then none
  else if a < 0x900000 then some (.tenant ((a - 0x800000) / 0x1000))
  else none

/-- Keeper page q. -/
def kA (q o : Nat) : Nat := q * 0x1000 + o
/-- Ward w, page q. -/
def wA (w q o : Nat) : Nat := 0x100000 + w * 0x10000 + q * 0x1000 + o
/-- Hinge h. -/
def hA (h o : Nat) : Nat := 0x500000 + h * 0x10000 + o
/-- The trace page. -/
def trA (o : Nat) : Nat := 0x700000 + o
/-- The dump page. -/
def duA (o : Nat) : Nat := 0x701000 + o
/-- Tenant window t. -/
def tnA (t o : Nat) : Nat := 0x800000 + t * 0x1000 + o

/-- The access classes of Table 0.8 (RWS fields are the meter's own, R396). -/
inductive Acc8 where
  | ro
  | rw
  | rwl
  | rwq
  | w1c
  | w1s
deriving DecidableEq, Repr

/-- A field: lowest bit, length, class, reset value. -/
structure Fld where
  lo : Nat
  len : Nat
  acc : Acc8
  reset : Nat := 0
deriving DecidableEq, Repr

/-- A register word in register storage: its offset and fields. -/
abbrev RegRow := Nat × List Fld

/-- One field filling the word. -/
def whole (a : Acc8) (r : Nat := 0) : List Fld := [⟨0, 32, a, r⟩]

/-- `n` consecutive words of one layout from offset `o`. -/
def words (o n : Nat) (f : List Fld) : List RegRow := (List.range n).map (fun i => (o + 4 * i, f))

/-- Tables 15.3 to 15.9 and 14.3: the Keeper pages. Words that are views of other state (select/data
windows, status words, counters) are listed as RO or under their own class; `readReg` computes them. -/
def keeperRows (p : Params) (q : Nat) : List RegRow :=
  match q with
  | 0 => [(0x040, whole .ro), (0x044, whole .ro), (0x048, [⟨0, 1, .w1s, 0⟩]), (0x04C, [⟨21, 1, .w1s, 0⟩]),
      (0x050, whole .ro), (0x054, [⟨0, 16, .ro, 0⟩]), (0x058, [⟨0, 9, .w1c, 0⟩, ⟨16, 2, .w1c, 0⟩]),
      (0x05C, whole .ro), (0x060, [⟨0, 16, .rw, 16⟩]), (0x064, [⟨0, 8, .rw, 4⟩]), (0x068, whole .rwl 0xFFFFFFFF),
      (0x06C, [⟨0, 4, .rw, 3⟩, ⟨4, 4, .rw, 12⟩, ⟨8, 4, .rw, 4⟩, ⟨12, 4, .rw, 8⟩]), (0x070, whole .rw),
      (0x074, whole .rw), (0x078, [⟨2, 30, .rw, 0⟩]), (0x07C, [⟨0, 16, .rw, 0⟩]), (0x080, whole .rw),
      (0x084, [⟨0, 1, .rw, 0⟩, ⟨1, 1, .w1s, 0⟩, ⟨2, 1, .rw, 0⟩]), (0x088, whole .ro), (0x08C, whole .ro),
      (0x090, whole .ro)]
  | 1 => (0x040, [⟨16, 1, .rw, 0⟩, ⟨0, 13, .rw, 0⟩]) :: words 0x044 8 (whole .rw)
  | 2 => [(0x040, [⟨0, 8, .rw, 0⟩]), (0x044, [⟨29, 3, .rw, 0⟩, ⟨0, 2, .rwq, 0⟩]), (0x048, whole .rw),
      (0x04C, [⟨0, 16, .rw, 0⟩]), (0x050, [⟨0, 12, .rw, 0⟩]), (0x054, [⟨0, 7, .ro, 0⟩])]
  | 3 => [(0x040, [⟨16, 3, .rw, 0⟩, ⟨0, 12, .rw, 0⟩]), (0x044, [⟨31, 1, .rwq, 0⟩, ⟨0, 6, .rwq, 0⟩]),
      (0x048, whole .rwq), (0x04C, whole .rwq), (0x050, [⟨31, 1, .rwq, 0⟩, ⟨16, 6, .rwq, 0⟩, ⟨0, 8, .rwq, 0⟩])]
  | 4 => [(0x040, [⟨0, 4, .rw, 0⟩]), (0x044, [⟨0, 10, .rw, 0⟩]), (0x048, [⟨0, 24, .rw, 0⟩]),
      (0x04C, [⟨0, 3, .rw, 1⟩]), (0x050, whole .ro), (0x054, whole .ro), (0x058, whole .ro),
      (0x060, [⟨16, 8, .rw, 16⟩, ⟨0, 13, .rw, 256⟩]), (0x064, [⟨0, 17, .rw, p.nw * 128⟩])]
      ++ (List.range 16).flatMap (fun e => [(0x080 + 8 * e, [⟨0, 16, .ro, 0⟩]), (0x084 + 8 * e, [⟨0, 8, .rw, 0⟩])])
      ++ ((0x100, [⟨0, 24, .ro, 0⟩]) :: words 0x104 15 [⟨0, 24, .rw, 0⟩])
  | 5 => [(0x040, [⟨0, 12, .rw, 0⟩]), (0x044, whole .ro), (0x048, [⟨31, 1, .rw, 0⟩, ⟨0, 8, .rw, 0⟩]),
      (0x04C, whole .ro), (0x050, whole .ro), (0x054, whole .rw), (0x058, [⟨0, 1, .w1s, 0⟩]),
      (0x060, [⟨31, 1, .w1s, 0⟩, ⟨30, 1, .rw, 0⟩, ⟨16, 2, .rw, 0⟩, ⟨0, 13, .rw, 0⟩]), (0x064, whole .ro),
      (0x068, [⟨0, 2, .rw, 0⟩]), (0x06C, [⟨16, 16, .rw, 16384⟩, ⟨0, 16, .rw, 4096⟩])]
  | 6 => [(0x040, [⟨16, 16, .rw, 1024⟩, ⟨14, 2, .rwl, 0⟩, ⟨0, 6, .rwl, 0⟩]), (0x044, [⟨0, 6, .rw, 0⟩]),
      (0x048, [⟨31, 1, .rwl, 0⟩, ⟨0, 3, .rwl, 0⟩])]
      ++ (List.range 8).flatMap (fun g => [(0x080 + 8 * g, whole .rw), (0x084 + 8 * g, [⟨0, 16, .rw, 0⟩])])
  | 7 => words 0x040 8 (whole .ro) ++ [(0x060, [⟨0, 2, .w1s, 0⟩]), (0x064, whole .ro), (0x068, whole .ro),
      (0x070, [⟨0, 8, .rw, 0⟩]), (0x074, whole .ro), (0x078, [⟨0, 22, .rw, 0x3FFFFF⟩])]
      ++ words 0x080 4 (whole .ro) ++ [(0x090, [⟨0, 16, .ro, 0⟩]), (0x094, [⟨0, 1, .w1s, 0⟩])]
  | 8 => [(0x040, [⟨20, 12, .rw, 80⟩, ⟨0, 20, .rw, 16000⟩]), (0x044, [⟨2, 1, .w1c, 0⟩]), (0x048, whole .ro),
      (0x050, [⟨0, 16, .rw, 1000⟩]), (0x054, [⟨31, 1, .w1c, 0⟩]), (0x058, whole .ro),
      (0x060, [⟨1, 1, .rw, 1⟩, ⟨0, 1, .w1s, 0⟩]), (0x064, [⟨0, 1, .ro, 0⟩])]
  | 9 => [(0x040, [⟨31, 1, .w1c, 0⟩]), (0x044, [⟨0, 1, .rw, 0⟩]), (0x048, whole .ro), (0x04C, whole .ro),
      (0x050, whole .ro), (0x054, [⟨0, 16, .ro, 0⟩]), (0x058, [⟨8, 24, .rw, 0⟩]), (0x05C, [⟨0, 16, .rw, 0⟩])]
      ++ words 0x080 16 (whole .ro)
  | _ => [(0x040, [⟨2, 1, .rw, 0⟩, ⟨0, 2, .w1s, 0⟩]), (0x044, whole .ro), (0x048, whole .ro)]
      ++ words 0x100 2 (whole .ro) ++ words 0x200 7 (whole .ro)

/-- WD_PORT_EN0 and WD_PORT_EN1: bits for ports below NE reset to 1, the others are RO 0 (R412). -/
def portBits (p : Params) (i reset : Nat) : List Fld :=
  if p.ne ≤ 32 * i then [] else
    let n := min 32 (p.ne - 32 * i)
    [⟨0, n, .rw, (2 ^ n - 1) * reset⟩]

/-- A word of an array of `k` bits a port (R412): bits of ports at or above NE are RO and read 0. -/
def portArray (p : Params) (k i : Nat) (a : Acc8) : List Fld :=
  let m := 32 / k
  if p.ne ≤ m * i then [] else [⟨0, k * min m (p.ne - m * i), a, 0⟩]

/-- Tables 15.10 and 15.11 and R414: the Ward pages. -/
def wardRows (p : Params) (q : Nat) : List RegRow :=
  match q with
  | 0 => [(0x040, portBits p 0 1), (0x044, portBits p 1 1), (0x048, portBits p 0 0), (0x04C, portBits p 1 0)]
      ++ (List.range 16).map (fun i => (0x050 + 4 * i, portArray p 8 i .rw))
      ++ (List.range 8).map (fun i => (0x090 + 4 * i, portArray p 4 i .rwl))
      ++ [(0x0B0, [⟨0, 1, .ro, 0⟩]), (0x0B4, [⟨8, 1, .rwq, 1⟩, ⟨0, 4, .rwq, 2⟩]), (0x0B8, [⟨0, 5, .ro, 0⟩]),
      (0x0BC, [⟨0, 16, .rw, 256⟩]),
      (0x0C0, [⟨17, 1, .rw, 0⟩, ⟨16, 1, .rw, 1⟩, ⟨12, 4, .rw, 8⟩, ⟨8, 4, .rw, 4⟩, ⟨4, 4, .rw, 12⟩, ⟨0, 4, .rw, 3⟩]),
      (0x0C4, [⟨12, 20, .rw, 0⟩]), (0x0C8, [⟨0, 16, .rw, 0⟩]), (0x0CC, [⟨0, 7, .rw, p.ne⟩]),
      (0x0D0, [⟨0, 16, .rw, 16⟩]), (0x0D4, [⟨0, 16, .rw, 256⟩]), (0x0D8, [⟨0, 16, .rw, 1250⟩]),
      (0x0DC, [⟨0, 16, .rw, 16⟩]), (0x0E0, whole .ro), (0x0E4, [⟨0, 3, .w1c, 0⟩])]
  | 1 => [(0x040, [⟨0, 12, .rw, 0⟩]), (0x044, [⟨29, 3, .rw, 0⟩, ⟨16, 8, .rw, 0⟩, ⟨0, 16, .rw, 0⟩]), (0x048, whole .rw)]
  | 2 => [(0x040, [⟨0, 6, .rw, 0⟩]), (0x044, [⟨31, 1, .rw, 0⟩, ⟨16, 8, .rw, 0⟩, ⟨0, 15, .rw, 0⟩]),
      (0x048, [⟨16, 16, .rw, 0xFFFF⟩, ⟨0, 5, .rw, 0⟩]), (0x04C, [⟨16, 11, .rw, 0⟩, ⟨0, 11, .rw, 0⟩]),
      (0x050, [⟨29, 1, .w1c, 0⟩]), (0x054, whole .ro), (0x058, whole .ro), (0x05C, [⟨0, 1, .w1s, 0⟩]),
      (0x060, [⟨31, 1, .w1s, 0⟩, ⟨0, 1, .rw, 0⟩]), (0x064, [⟨0, 1, .w1s, 0⟩]), (0x068, whole .ro)]
      ++ words 0x080 16 (whole .rw) ++ words 0x0C0 16 (whole .ro)
  | 3 => [(0x040, [⟨8, 4, .rw, 0⟩, ⟨0, 6, .rw, 0⟩]), (0x044, whole .rw), (0x048, whole .rw), (0x04C, whole .ro),
      (0x050, whole .ro), (0x054, [⟨0, 1, .w1s, 0⟩])]
  | 4 => (0x040, [⟨0, 6, .rw, 0⟩]) :: words 0x044 8 (whole .ro)
  | 5 => [(0x040, [⟨16, 6, .rw, 0⟩, ⟨0, 6, .rw, 0⟩]), (0x044, whole .ro), (0x048, whole .ro), (0x04C, whole .ro),
      (0x050, whole .ro), (0x054, [⟨0, 1, .rw, 0⟩]), (0x060, [⟨0, 8, .rw, 0⟩])] ++ words 0x064 5 (whole .ro)
      ++ words 0x078 3 (whole .ro)
  | _ => [(0x040, [⟨1, 1, .rw, 0⟩, ⟨0, 1, .w1s, 0⟩])] ++ words 0x100 26 (whole .ro) ++ words 0x200 25 (whole .ro)

/-- Table 15.12: a Hinge page. -/
def hingeRows : List RegRow :=
  [(0x040, [⟨16, 12, .rw, 2048⟩, ⟨0, 6, .rwl, 0⟩]), (0x044, [⟨0, 2, .ro, 0⟩]), (0x048, [⟨0, 2, .w1s, 0⟩]),
    (0x04C, [⟨31, 1, .rwl, 0⟩, ⟨16, 5, .rw, 14⟩, ⟨0, 8, .rw, 8⟩]), (0x050, [⟨31, 1, .rw, 0⟩, ⟨30, 1, .w1c, 0⟩]),
    (0x054, whole .ro), (0x058, [⟨0, 20, .ro, 0⟩]), (0x05C, [⟨0, 16, .rw, 0⟩]), (0x060, [⟨0, 6, .w1c, 0⟩]),
    (0x064, [⟨1, 1, .rw, 0⟩, ⟨0, 1, .w1s, 0⟩])] ++ words 0x100 8 (whole .ro) ++ words 0x200 5 (whole .ro)

/-- Table 15.14: the trace page. -/
def traceRows : List RegRow :=
  [(0x040, [⟨1, 1, .w1s, 0⟩, ⟨0, 1, .rw, 0⟩]), (0x044, whole .ro), (0x048, whole .ro), (0x04C, whole .ro),
    (0x050, [⟨12, 20, .rw, 0⟩]), (0x054, [⟨0, 16, .rw, 0⟩]), (0x058, [⟨0, 16, .rw, 0⟩]), (0x05C, [⟨0, 16, .rw, 0⟩]),
    (0x060, [⟨16, 5, .rw, 16⟩, ⟨0, 8, .rw, 0⟩]), (0x064, whole .rw), (0x068, [⟨0, 16, .rw, 0⟩]),
    (0x06C, [⟨31, 1, .rw, 0⟩, ⟨0, 8, .rw, 0⟩]), (0x070, [⟨28, 4, .rw, 0⟩, ⟨0, 8, .rw, 0⟩]), (0x074, whole .rw),
    (0x078, whole .rw), (0x07C, [⟨0, 2, .w1c, 0⟩])]

/-- Table 15.14: the dump page. -/
def dumpRows : List RegRow :=
  [(0x040, [⟨0, 1, .w1s, 0⟩]), (0x044, [⟨8, 24, .rw, 0⟩]), (0x048, [⟨0, 16, .rw, 0⟩]), (0x04C, [⟨0, 16, .rw, 1250⟩]),
    (0x050, whole .ro), (0x054, whole .ro)]

/-- Tables 15.15 and 8.6: a tenant window. -/
def tenantRows : List RegRow :=
  [(0x040, [⟨16, 6, .rw, 0⟩, ⟨0, 16, .rw, 0⟩]), (0x044, [⟨24, 1, .w1s, 0⟩, ⟨16, 2, .rw, 0⟩, ⟨0, 6, .rw, 0⟩]),
    (0x048, [⟨0, 2, .w1c, 0⟩]), (0x04C, whole .ro), (0x050, whole .ro), (0x054, [⟨0, 16, .rw, 0⟩])]
    ++ words 0x080 64 (whole .ro) ++ words 0x200 8 (whole .ro) ++ words 0x300 15 (whole .ro)

/-- The rows of a page beyond its header (the meter's are Table 15.13, read by `meterReg`). -/
def pageRows (p : Params) : Page → List RegRow
  | .keeper q => keeperRows p q
  | .ward _ q => wardRows p q
  | .bcast q => wardRows p q
  | .group _ q => wardRows p q
  | .hinge _ => hingeRows
  | .mirror => []
  | .trace => traceRows
  | .dump => dumpRows
  | .tenant _ => tenantRows

/-- The header words that are written (Table 15.2). -/
def headerRows : List RegRow :=
  [(0x010, [⟨0, 13, .w1c, 0⟩]), (0x014, [⟨0, 13, .rw, 0x1FFF⟩]), (0x01C, whole .rw)]

/-- The fields listed at an offset. -/
def rowAt (l : List RegRow) (o : Nat) : Option (List Fld) :=
  match l with
  | [] => none
  | (k, f) :: r => if k = o then some f else rowAt r o

/-- The fields of the register at an aperture address; none for an address with no register (R397).
Offsets 0x000 to 0x03F of an assigned page are its header (R398). -/
def regFields (p : Params) (a : Nat) : Option (List Fld) :=
  match pageOf p a with
  | none => none
  | some g =>
    if a % 0x1000 < 0x40 then some ((rowAt headerRows (a % 0x1000)).getD []) else rowAt (pageRows p g) (a % 0x1000)

/-- The reset value of a register word (the Reset columns of chapter 15). -/
def regReset (p : Params) (a : Nat) : Word32 :=
  match regFields p a with
  | none => 0
  | some f => f.foldl (fun v x => v ||| BitVec.ofNat 32 (x.reset * 2 ^ x.lo)) 0

/-- What register storage holds at an address. -/
def rd (p : Params) (b : Block) (a : Nat) : Word32 := Tbl.get (regReset p a) b.regs a

/-- Register storage with `v` at an address. -/
def wr (p : Params) (a : Nat) (v : Word32) (b : Block) : Block :=
  { b with regs := Tbl.set (regReset p a) b.regs a v }

/-- A field of a stored register. -/
def rdf (p : Params) (b : Block) (a lo len : Nat) : Nat := fld (rd p b a) lo len

/-- A field that reads 0 as 1. -/
def rd1 (p : Params) (b : Block) (a lo len : Nat) : Nat := max 1 (rdf p b a lo len)

/-- Bits of a stored register set by the block. -/
def setBits (p : Params) (a : Nat) (m : Word32) (b : Block) : Block := wr p a (rd p b a ||| m) b

/-- The unfenced Wards of the instance (R381, R382). -/
def fenced (b : Block) (w : Nat) : Bool := b.boot.fence.getLsbD w

/-- The Wards a window write acts on: one Ward's own window, or the unfenced members (R402). -/
def members (p : Params) (b : Block) : WTarget → List Nat
  | .ward w => if w < p.nw ∧ !fenced b w then [w] else []
  | .bcast => (List.range p.nw).filter (fun w => !fenced b w)
  | .group g =>
    (List.range p.nw).filter (fun w => !fenced b w &&
      (if w < 32 then (rd p b (kA 6 (0x080 + 8 * g))).getLsbD w
       else (rd p b (kA 6 (0x084 + 8 * g))).getLsbD (w - 32)))

end Sys2Proof.Machine
end

