-- ==== Sys2Proof/Machine/Ops.lean ====
section
/-! DEFINITION. How a command acts on the state, the clock, the keys of the flat tables, and the
getters and setters of every table of the block. -/

namespace Sys2Proof.Machine

/-- The outcomes of this machine. -/
abbrev Outcome := Host.Outcome State Fault Refusal

/-! ## Units and gating -/

/-- A unit's number: Keeper 0, Ward w 1 + w, Hinge h 64 + h (as `Boot` uses it). -/
def unitNo : UnitId → Nat
  | .keeper => 0
  | .ward w => 1 + w
  | .hinge h => 64 + h

/-- A unit's boot stage. -/
def stageOf (b : Block) (u : Nat) : Stage := Tbl.get .held b.boot.stage u

/-- The Keeper takes events: no reset pin is asserted, its domain is released (R376, Table 1.5) and no
dump holds the event inputs (R299). -/
def keeperUp (b : Block) : Bool :=
  !b.boot.porst && !b.boot.srst && !b.dump.frozen && decide (stageOf b 0 ≠ .held)

/-- Ward w takes events: it is released and not fenced (R381, R382). -/
def wardUp (p : Params) (b : Block) (w : Nat) : Bool :=
  keeperUp b && decide (w < p.nw) && !fenced b w && decide (stageOf b (1 + w) ≠ .held)

/-- Hinge h takes events (R26, R387). -/
def hingeUp (p : Params) (b : Block) (h : Nat) : Bool :=
  keeperUp b && decide (h < p.nh) && decide (stageOf b (64 + h) ≠ .held)

/-- The meter takes events (R330). -/
def meterUp (b : Block) : Bool := !b.boot.porst && decide (stageOf b 82 ≠ .held)

/-- The state with its block changed by `f`; parameters and waiting commands stay. -/
def State.onBlock (f : Params → Block → Block) (s : State) : State :=
  { s with block := f s.params s.block }

/-- A command that acts when `g` holds of the block, and has no effect otherwise (log entry 2). -/
def State.run (g : Params → Block → Bool) (f : Params → Block → Block) (s : State) : Outcome :=
  .next (if g s.params s.block then s.onBlock f else s)

/-- An event of the Keeper. -/
def State.runK (f : Params → Block → Block) (s : State) : Outcome := s.run (fun _ b => keeperUp b) f

/-- An event of Ward `w`. -/
def State.runW (w : Nat) (f : Params → Block → Block) (s : State) : Outcome := s.run (fun p b => wardUp p b w) f

/-- An event of Hinge `h`. -/
def State.runH (h : Nat) (f : Params → Block → Block) (s : State) : Outcome := s.run (fun p b => hingeUp p b h) f

/-- An event of the meter. -/
def State.runM (f : Params → Block → Block) (s : State) : Outcome := s.run (fun _ b => meterUp b) f

/-! ## Clock, keys -/

/-- The block in an order, `f` where `c` holds. -/
def when (c : Bool) (f : Block → Block) (b : Block) : Block := if c then f b else b

/-- The Ward of a global port (R19). -/
def portWard (p : Params) (n : Nat) : Nat := n / p.ne
/-- The port within its Ward. -/
def portIn (p : Params) (n : Nat) : Nat := n % p.ne
/-- The number of engine ports. -/
def nPorts (p : Params) : Nat := p.nw * p.ne
/-- The home Ward of a local handle (Table 2.4). -/
def homeOf (h : Nat) : Nat := h / 2048
/-- EVDEPTH (Table 0.1). -/
def evDepth (p : Params) : Nat := if p.nw ≤ 16 then 64 else 16
/-- Lower 17 bits of a successor word: the local handle (Table 2.4). -/
def wHandle (w : Word32) : Nat := fld w 0 17
/-- A number for the next arrival (R27: order of arrival as plain data). -/
def nextSeq (b : Block) : Nat := b.clk.seqNo
/-- The block with the arrival number taken. -/
def tookSeq (b : Block) : Block := { b with clk := { b.clk with seqNo := b.clk.seqNo + 1 } }

/-! ## Table access -/

/-- Entry by local handle. -/
def ent (b : Block) (h : Nat) : Entry := Tbl.get {} b.ents h
/-- The block with an entry changed. -/
def updEnt (h : Nat) (f : Entry → Entry) (b : Block) : Block := { b with ents := Tbl.upd {} b.ents h f }
/-- Port by global number. -/
def prt (b : Block) (n : Nat) : Port := Tbl.get {} b.ports n
/-- The block with a port changed. -/
def updPort (n : Nat) (f : Port → Port) (b : Block) : Block := { b with ports := Tbl.upd {} b.ports n f }
/-- Ring by number. -/
def rng (b : Block) (r : Nat) : Ring := Tbl.get {} b.rings r
/-- The block with a ring changed. -/
def updRing (r : Nat) (f : Ring → Ring) (b : Block) : Block := { b with rings := Tbl.upd {} b.rings r f }
/-- The block with a ring's walk changed. -/
def updWalk (r : Nat) (f : Walk → Walk) (b : Block) : Block := updRing r (fun g => { g with walk := f g.walk }) b
/-- Tenant by number. -/
def ten (b : Block) (t : Nat) : Tenant := Tbl.get {} b.tens t
/-- The block with a tenant changed. -/
def updTen (t : Nat) (f : Tenant → Tenant) (b : Block) : Block := { b with tens := Tbl.upd {} b.tens t f }
/-- Slot of a Ward. -/
def slt (b : Block) (w n : Nat) : Slot := Tbl.get {} b.slots (w * 4096 + n)
/-- The block with a slot changed. -/
def updSlot (w n : Nat) (f : Slot → Slot) (b : Block) : Block := { b with slots := Tbl.upd {} b.slots (w * 4096 + n) f }
/-- Message queue of a Ward. -/
def mqu (b : Block) (w q : Nat) : MQ := Tbl.get {} b.mq (w * 64 + q)
/-- The block with a message queue changed. -/
def updMQ (w q : Nat) (f : MQ → MQ) (b : Block) : Block := { b with mq := Tbl.upd {} b.mq (w * 64 + q) f }
/-- Combining queue of a Ward. -/
def cqu (b : Block) (w q : Nat) : CQ := Tbl.get {} b.cq (w * 64 + q)
/-- The block with a combining queue changed. -/
def updCQ (w q : Nat) (f : CQ → CQ) (b : Block) : Block := { b with cq := Tbl.upd {} b.cq (w * 64 + q) f }
/-- Hasp by number. -/
def hsp (b : Block) (h : Nat) : Hasp := Tbl.get {} b.hasps h
/-- The block with a hasp changed. -/
def updHasp (h : Nat) (f : Hasp → Hasp) (b : Block) : Block := { b with hasps := Tbl.upd {} b.hasps h f }
/-- Key pool of a port. -/
def kpl (b : Block) (n k : Nat) : KPool := Tbl.get {} b.kpool (n * 16 + k)
/-- The block with a key pool changed. -/
def updKPool (n k : Nat) (f : KPool → KPool) (b : Block) : Block := { b with kpool := Tbl.upd {} b.kpool (n * 16 + k) f }
/-- Channel opened here, by ID. -/
def chn (b : Block) (c : Nat) : Option Chan := Tbl.get none b.chans c
/-- The block with a channel set. -/
def setChan (c : Nat) (v : Option Chan) (b : Block) : Block := { b with chans := Tbl.set none b.chans c v }
/-- Hinge by number. -/
def hng (b : Block) (h : Nat) : Hinge := Tbl.get {} b.hg h
/-- The block with a Hinge changed. -/
def updHinge (h : Nat) (f : Hinge → Hinge) (b : Block) : Block := { b with hg := Tbl.upd {} b.hg h f }
/-- Placement class by number. -/
def pcl (b : Block) (c : Nat) : PClass := Tbl.get {} b.pcls c
/-- The block with a placement class changed. -/
def updPcl (c : Nat) (f : PClass → PClass) (b : Block) : Block := { b with pcls := Tbl.upd {} b.pcls c f }
/-- Supply domain by number. -/
def dmn (b : Block) (d : Nat) : Dom := Tbl.get {} b.gov.doms d
/-- The block with a supply domain changed. -/
def updDom (d : Nat) (f : Dom → Dom) (b : Block) : Block :=
  { b with gov := { b.gov with doms := Tbl.upd {} b.gov.doms d f } }
/-- Route by destination instance. -/
def rte (b : Block) (i : Nat) : Route := Tbl.get {} b.routes i
/-- Federation table of a Ward. -/
def fedOf (b : Block) (w : Nat) : FedTab := Tbl.get {} b.fedt w
/-- The block with a Ward's federation table changed. -/
def updFed (w : Nat) (f : FedTab → FedTab) (b : Block) : Block := { b with fedt := Tbl.upd {} b.fedt w f }
/-- The block with its deadbolt changed. -/
def updDb (f : Dbolt → Dbolt) (b : Block) : Block := { b with dbolt := f b.dbolt }
/-- The block with its boot state changed. -/
def updBoot (f : Boot → Boot) (b : Block) : Block := { b with boot := f b.boot }
/-- The block with its clock changed. -/
def updClk (f : Clk → Clk) (b : Block) : Block := { b with clk := f b.clk }
/-- The block with its management port changed. -/
def updMgt (f : Mgt → Mgt) (b : Block) : Block := { b with mgt := f b.mgt }
/-- The block with its trace changed. -/
def updTr (f : Trace → Trace) (b : Block) : Block := { b with trace := f b.trace }
/-- The block with its log changed. -/
def updLog (f : Log → Log) (b : Block) : Block := { b with log := f b.log }
/-- The block with its meter changed. -/
def updMeter (f : Meter → Meter) (b : Block) : Block := { b with meter := f b.meter }

/-- A list of block operations in order. -/
def forEach {α : Type} (l : List α) (f : α → Block → Block) (b : Block) : Block := l.foldl (fun c x => f x c) b

/-- Something driven on a port. -/
def emit (o : Out) (b : Block) : Block := { b with out := b.out ++ [o] }

/-! ## Memory-port tags (Table 8.3) -/

/-- The tag of system traffic (R231). -/
def sysTag (p : Params) (b : Block) : BitVec 41 :=
  BitVec.ofNat 41 (2 ^ 40 + (rd p b (kA 0 0x068)).toNat)

/-- The tag of a tenant (R231). -/
def tenTag (b : Block) (t : Nat) : BitVec 41 :=
  BitVec.ofNat 41 (t % 256 * 2 ^ 32 + (ten b t).chmask.toNat * 2 ^ 16 + (ten b t).waymask.toNat)

/-- WD_MEM_CFG of a Ward, KP_MEM_CFG elsewhere (R364). -/
def memCfg (p : Params) (b : Block) (u : UnitId) : Word32 :=
  match u with
  | .ward w => rd p b (wA w 0 0x0C0)
  | _ => rd p b (kA 0 0x06C)

/-- The attributes of system traffic (Table 13.10). -/
def sysAx (p : Params) (b : Block) (u : UnitId) : Ax :=
  let c := memCfg p b u
  ⟨sysTag p b, c.extractLsb' 12 4, 3, c.extractLsb' 0 4⟩

/-- The attributes of a tenant's traffic of a class: `be` for BE (Table 13.10). -/
def tenAx (p : Params) (b : Block) (u : UnitId) (t : Nat) (be : Bool) : Ax :=
  let c := memCfg p b u
  ⟨tenTag b t, if be then c.extractLsb' 8 4 else c.extractLsb' 4 4, 2, c.extractLsb' 0 4⟩

/-- A posted write of 16 bytes or less by Ward `w`: through NP or MP as WD_MEM_CFG.NOTE_NP says
(R123, R366). -/
def postW (p : Params) (w addr len data t : Nat) (be : Bool) (b : Block) : Block :=
  emit (.memWrite (.ward w) (bitAt (rd p b (wA w 0 0x0C0)) 16) addr len data (tenAx p b (.ward w) t be)) b

/-- A write through a Ward's MP for a tenant. -/
def mpW (p : Params) (w addr len data t : Nat) (be : Bool) (b : Block) : Block :=
  emit (.memWrite (.ward w) false addr len data (tenAx p b (.ward w) t be)) b

/-- A read through a Ward's MP for a tenant. -/
def mpR (p : Params) (w addr t : Nat) (be : Bool) (b : Block) : Block :=
  emit (.mpRead (.ward w) addr (tenAx p b (.ward w) t be)) b

end Sys2Proof.Machine
end

