-- ==== Sys2Proof/Machine/Flags.lean ====
section
/-! DEFINITION. Counters (Tables 11.1, 11.2), interrupt lines and their posted writes (R290, R367,
R371), and the PG_ERR flags of a page (R398, R399). -/

namespace Sys2Proof.Machine

/-! ## Counters (R302, R303, R411) -/

/-- A 64-bit counter of a Ward's bank. -/
def wc64 (w i : Nat) : Nat := wA w 6 (0x100 + 8 * i)
/-- A 32-bit counter of a Ward's bank. -/
def wc32 (w i : Nat) : Nat := wA w 6 (0x200 + 4 * i)
/-- A 32-bit counter of the Keeper's bank. -/
def kc32 (i : Nat) : Nat := kA 10 (0x200 + 4 * i)
/-- A 64-bit counter of a Hinge's bank. -/
def hc64 (h i : Nat) : Nat := hA h (0x100 + 8 * i)
/-- A 32-bit counter of a Hinge's bank. -/
def hc32 (h i : Nat) : Nat := hA h (0x200 + 4 * i)
/-- KP_CNT.PLACED. -/
def kcPlaced : Nat := kA 10 0x100

/-- A counter's value. -/
def cnt (b : Block) (a : Nat) : Nat := Tbl.get 0 b.cnt a

/-- `n` more on a counter: 64-bit counters wrap and 32-bit counters saturate (R303); the 32-bit
tenant counters wrap (Table 8.6). -/
def bump (a n : Nat) (b : Block) : Block :=
  let o := a % 0x1000
  let v := cnt b a + n
  let r := if o < 0x200 then v % 2 ^ 64 else if o < 0x300 then min v (2 ^ 32 - 1)
    else if o < 0x330 then v % 2 ^ 64 else v % 2 ^ 32
  { b with cnt := Tbl.set 0 b.cnt a r }

/-- An event made void at a holder (R31). -/
def voidW (w : Nat) (b : Block) : Block := bump (wc32 w 0) 1 b
/-- An event made void at the Keeper (R31). -/
def voidK (b : Block) : Block := bump (kc32 0) 1 b

/-! ## Interrupt lines -/

/-- KP_IRQ_STAT, WD_IRQ_STAT, HG_IRQ_STAT and TR_IRQ_STAT. -/
def kIrq : Nat := kA 0 0x058
/-- WD_IRQ_STAT of a Ward. -/
def wIrq (w : Nat) : Nat := wA w 0 0x0E4
/-- HG_IRQ_STAT of a Hinge. -/
def hIrq (h : Nat) : Nat := hA h 0x060
/-- TR_IRQ_STAT. -/
def tIrq : Nat := trA 0x07C

/-- The level of IRQ[k] (R371); lines of absent or fenced units are 0 (R382). -/
def irqLine (p : Params) (b : Block) (k : Nat) : Bool :=
  if k = 0 then decide (rdf p b kIrq 0 9 ≠ 0)
  else if k = 1 then bitAt (rd p b kIrq) 16
  else if k = 2 then decide (rd p b tIrq ≠ 0)
  else if k = 3 then bitAt (rd p b kIrq) 17
  else if k < 52 then decide (k - 4 < p.nw) && !fenced b (k - 4) && decide (rd p b (wIrq (k - 4)) ≠ 0)
  else if k < 60 then decide (k - 52 < p.nh) && decide (rd p b (hIrq (k - 52)) ≠ 0)
  else false

/-- The lines a status register drives. -/
def linesOf (a : Nat) : List Nat :=
  if a = kIrq then [0, 1, 3] else if a = tIrq then [2]
  else if a < 0x400000 then [4 + (a - 0x100000) / 0x10000] else [52 + (a - 0x500000) / 0x10000]

/-- KP_MSI_ENx bit of line k. -/
def msiEn (p : Params) (b : Block) (k : Nat) : Bool :=
  if k < 32 then bitAt (rd p b (kA 0 0x070)) k else bitAt (rd p b (kA 0 0x074)) (k - 32)

/-- The interrupt write of line k, through the NP of the unit that raised it (R367). -/
def msiWrite (p : Params) (k : Nat) (b : Block) : Block :=
  emit (.msi (if 4 ≤ k ∧ k < 52 then .ward (k - 4) else .keeper)
    ((rd p b (kA 0 0x07C)).toNat * 2 ^ 32 + (rd p b (kA 0 0x078)).toNat + 4 * k)
    (rd p b (kA 0 0x080) + BitVec.ofNat 32 k) (sysAx p b (if 4 ≤ k ∧ k < 52 then .ward (k - 4) else .keeper))) b

/-- Status bits set in an interrupt register; a line that rises posts its write when enabled. -/
def raise (p : Params) (a : Nat) (m : Word32) (b : Block) : Block :=
  let c := setBits p a m b
  forEach (linesOf a) (fun k d => when (irqLine p c k && !irqLine p b k && msiEn p b k) (msiWrite p k) d) c

/-- A bit of KP_IRQ_STAT raised. -/
def raiseK (p : Params) (i : Nat) (b : Block) : Block := raise p kIrq (BitVec.ofNat 32 (2 ^ i)) b
/-- A bit of WD_IRQ_STAT raised. -/
def raiseW (p : Params) (w i : Nat) (b : Block) : Block := raise p (wIrq w) (BitVec.ofNat 32 (2 ^ i)) b
/-- A bit of HG_IRQ_STAT raised. -/
def raiseH (p : Params) (h i : Nat) (b : Block) : Block := raise p (hIrq h) (BitVec.ofNat 32 (2 ^ i)) b

/-! ## PG_ERR (R398, R399) -/

/-- The PGERR bit of the unit that owns a page; the window pages' is the Keeper's (log entry 12). -/
def pgErrLine (p : Params) (base : Nat) (b : Block) : Block :=
  match pageOf p base with
  | some (.ward w _) => raiseW p w 2 b
  | some (.hinge h) => raiseH p h 5 b
  | some .mirror => b
  | _ => raiseK p 7 b

/-- A PG_ERR bit of the page at `base` becomes 1; unmasked it sets PGERR when it was 0 (R399). -/
def pgErr (p : Params) (base i : Nat) (b : Block) : Block :=
  let was := bitAt (rd p b (base + 0x010)) i
  let masked := bitAt (rd p b (base + 0x014)) i
  when (!was && !masked) (pgErrLine p base) (setBits p (base + 0x010) (BitVec.ofNat 32 (2 ^ i)) b)

/-! ## Crossbar accounting (R306) -/

/-- An item of `n` bytes sent into the crossbar by a Ward; the Keeper's own are counted at no Ward. -/
def xtx (w : Option Nat) (n : Nat) (b : Block) : Block :=
  match w with
  | none => b
  | some w => bump (wc64 w 11) 1 (bump (wc64 w 9) n b)

/-- An item of `n` bytes received from the crossbar by a Ward. -/
def xrx (w : Nat) (n : Nat) (b : Block) : Block := bump (wc64 w 12) 1 (bump (wc64 w 10) n b)

/-- An item put on its way. -/
def xput (it : XItem) (b : Block) : Block := { b with xbar := b.xbar ++ [it] }

/-- An item put on its way by a Ward (`none`: the Keeper), with its bytes counted when it crosses. -/
def xsend (w : Option Nat) (n : Nat) (it : XItem) (b : Block) : Block := xput it (xtx w n b)

/-- As `xsend`, to Ward `v`: an item for the sender's own Ward does not cross. -/
def xto (from_ : Option Nat) (v n : Nat) (it : XItem) (b : Block) : Block :=
  if from_ = some v then xput it b else xsend from_ n it b

/-- An item of `n` bytes from `from_` sampled at Ward `v`, received when it crossed. -/
def xfrom (from_ : Option Nat) (v n : Nat) (b : Block) : Block := when (decide (from_ ≠ some v)) (xrx v n) b

/-- A channel as the numbers of a lane. -/
def keyLane (n : Nat) (k : ChKey) : List Nat := [n, (k.inst.map (· + 1)).getD 0, k.ch]

/-- The lane an item travels in: its class, its source and its holder (R27). Items with no lane are told apart by name
alone. -/
def laneOf : XItem → List Nat
  | .succ o w _ _ _ => [0, homeOf o, homeOf (wHandle w)]
  | .toRing w r _ _ _ _ _ => [2, homeOf (wHandle w), r]
  | .proxy w _ => [3, w.toNat]
  | .preq h _ _ => [4, homeOf h]
  | .sreq h _ => [5, homeOf h]
  | .withdraw h _ => [6, homeOf h]
  | .pdec _ _ n _ _ => [7, n]
  | .sNone h _ => [8, homeOf h]
  | .release n _ _ => [9, n]
  | .unload _ _ n => [10, n]
  | .tokens w _ => [11, w]
  | .segSeal w r _ => [12, w, r]
  | .cmdFault r _ _ => [13, r]
  | .msg m => keyLane 14 m.key
  | .nack k _ _ _ => keyLane 15 k
  | .ack k _ _ => keyLane 16 k
  | .answer n _ => [17, n]
  | .bind k _ _ _ => keyLane 18 k
  | .storm s => [20, s.sport]
  | .part p => [21, p.qid.toNat, p.port]
  | .tear q _ n _ => [22, q.toNat, n]
  | .rel n _ _ => [24, n]
  | .keyReq d r k _ _ _ => [25, d, k, r]
  | .keyRet d k _ n _ => [26, d, k, n]
  | .discard w r _ _ => [27, w, r]
  | .unreach w _ => [28, w]
  | .reread n _ => [29, n]
  | .cancelTask h _ => [30, h]
  | .close k .directory _ => keyLane 31 k
  | .close k .tx _ => keyLane 32 k
  | .close k .rx _ => keyLane 33 k
  | .settle _ _ _ _ _ _ => []
  | .portFree _ => []
  | .chAlloc _ _ _ _ => []
  | .sig _ _ _ => []
  | .bell _ _ _ _ _ => []
  | .slotW _ _ _ _ _ _ _ _ => []

/-- The first item on its way that satisfies `f`, whether or not its holder may sample it yet. -/
def xany (b : Block) (f : XItem → Bool) : Option XItem := b.xbar.find? f

/-- The item that its holder samples: the first that satisfies `f`, which overtakes no earlier item of its lane (R27). -/
def xfind (b : Block) (f : XItem → Bool) : Option XItem :=
  (xany b f).filter (fun x => decide (laneOf x = []) || (b.xbar.takeWhile (fun y => !f y)).all (fun y => decide (laneOf y ≠ laneOf x)))

/-- The block without the first item that satisfies `f`. -/
def xdrop (f : XItem → Bool) (b : Block) : Block := { b with xbar := b.xbar.eraseP f }

end Sys2Proof.Machine
end

