-- ==== Sys2Proof/Machine/Access.lean ====
section
/-! DEFINITION. What every register write goes through: the management domain, table windows that wait for
a unit's rescrub (R368), the words of multi-word registers that are held (R400), members of window writes
(R402). -/

namespace Sys2Proof.Machine

/-- The management port answers: its domain is released and no reset pin is asserted (Table 13.14). -/
def mgtUp (b : Block) : Bool := !b.boot.porst && !b.boot.srst && decide (stageOf b 81 ≠ .held)

/-- A unit has finished scrub, self-test and rescrub (R368, R380). -/
def tabReady (b : Block) (u : Nat) : Bool :=
  match stageOf b u with
  | .tmrCheck | .linkup | .ready | .timedOut => true
  | _ => false

/-- The base address of a window. -/
def tgtA (t : WTarget) (q o : Nat) : Nat :=
  match t with
  | .ward w => wA w q o
  | .bcast => 0x400000 + q * 0x1000 + o
  | .group g => 0x410000 + g * 0x10000 + q * 0x1000 + o

/-- Held words of the pages written are dropped: the write used them or named another register (R400). -/
def dropHeld (pages : List Nat) (b : Block) : Block :=
  updMgt (fun m => { m with held := m.held.filter (fun x => !decide (x.1 / 0x1000 ∈ pages)) }) b

/-- A register write: it waits while a unit of `need` has not finished its rescrub (R368), and takes its
effect `f` otherwise; the held words of the pages written are then gone (R400). -/
def regWrite (a : Nat) (data : Word32) (need : List Nat) (pages : List Nat) (f : Block → Block) (b : Block) : Block :=
  if need.all (tabReady b) then dropHeld pages (f (updMgt (fun m => { m with resp := .okay }) b))
  else updMgt (fun m => { m with resp := .waiting, waitW := some (BitVec.ofNat 24 a, data) }) b

/-- The management port accepts a write: its domain is released, the write before has completed (R368), and no dump
holds the holders' inputs (R299). -/
def mgtFree (b : Block) : Bool := mgtUp b && !b.dump.frozen && b.mgt.waitW.isNone

/-- A register row's command. -/
def State.runReg (f : Params → Block → Block) (s : State) : Outcome := s.run (fun _ b => mgtFree b) f

/-- A write of a Keeper-page register: `tab` says that it reaches a table SRAM of the Keeper. -/
def State.keeperReg (a : Nat) (data : Word32) (tab : Bool) (f : Params → Block → Block) (s : State) : Outcome :=
  s.runReg (fun p b => regWrite a data (if tab then [0] else []) [a / 0x1000] (f p) b)

/-- A write to Ward page `q`, offset `o`, through a window: every member applies it; a window with no member
sets EMPTY_GROUP (R402). -/
def wardWrite (p : Params) (t : WTarget) (q o : Nat) (data : Word32) (tab : Bool) (f : Nat → Block → Block) (b : Block) : Block :=
  let ws := members p b t
  let b1 := regWrite (tgtA t q o) data (if tab then ws.map (· + 1) else []) (ws.map (fun w => wA w q 0 / 0x1000))
    (forEach ws f) b
  match t, ws with
  | .ward _, _ => b1
  | _, [] => pgErr p (tgtA t q 0) 12 b1
  | _, _ => b1

/-- A Ward-page register row. -/
def State.wardReg (t : WTarget) (q o : Nat) (data : Word32) (tab : Bool) (f : Params → Nat → Block → Block) (s : State) : Outcome :=
  s.runReg (fun p b => wardWrite p t q o data tab (f p) b)

/-- A word of a multi-word register held until its W0 is written (R400). -/
def holdWord (a : Nat) (v : Word32) (b : Block) : Block :=
  updMgt (fun m => { m with held := Tbl.ins (Tbl.del m.held a) a v }) b

/-- The held word at an address. -/
def heldAt (b : Block) (a : Nat) : Option Word32 := (b.mgt.held.find? (fun x => x.1 = a)).map Prod.snd

/-- A write to a higher word of a register at Ward pages: held at every member, beside the words already held
for the same register (R400). -/
def wardHold (p : Params) (t : WTarget) (q o : Nat) (data : Word32) (b : Block) : Block :=
  let ws := members p b t
  let b := forEach ws (fun w => holdWord (wA w q o) data) (updMgt (fun m => { m with resp := .okay }) b)
  match t, ws with
  | .ward _, _ => b
  | _, [] => pgErr p (tgtA t q 0) 12 b
  | _, _ => b

end Sys2Proof.Machine
end

