-- ==== Sys2Proof/Machine/Report.lean ====
section
/-! DEFINITION. What the block reports: trace entries and the trigger (R307 to R318), error-log
records (R288 to R292), event rings (R319 to R321). -/

namespace Sys2Proof.Machine

/-! ## Trace -/

/-- TR_PRE.PAGES. -/
def trPre (p : Params) (b : Block) : Nat := rdf p b (trA 0x058) 0 16
/-- TR_POST.PAGES. -/
def trPost (p : Params) (b : Block) : Nat := rdf p b (trA 0x05C) 0 16

/-- TR_IRQ_STAT.STOP set (R315). -/
def trStop (p : Params) (b : Block) : Block :=
  raise p tIrq 2 (updTr (fun t => { t with state := .stopped }) b)

/-- One entry written to the next slot of the ring (ARMED) or of the post region (POST), with its
DELTA; the pointers move and the quota of R315 stops the trace. -/
def trSlotPut (p : Params) (e : TrEnt) (delta : Int) (b : Block) : Block :=
  let t := b.trace
  match t.state with
  | .armed =>
    let rec1 : TrSlot := ⟨false, t.prePage, t.preSlot, b.clk.fclk, delta, e⟩
    let last := t.preSlot = 255
    let pg := if last then (if t.prePage + 1 = trPre p b then 0 else t.prePage + 1) else t.prePage
    updTr (fun t => { t with
      staged := t.staged ++ [rec1], preSlot := if last then 0 else t.preSlot + 1, prePage := pg,
      preWrap := t.preWrap || (decide last && decide (pg = 0)), full := if last then none else t.full }) b
  | .post =>
    let rec1 : TrSlot := ⟨true, t.postCount / 256, t.postCount % 256, b.clk.fclk, delta, e⟩
    let n := t.postCount + 1
    when (decide (n = trPost p b * 256)) (trStop p)
      (updTr (fun t => { t with
        staged := t.staged ++ [rec1], postCount := n, full := if n % 256 = 0 then none else t.full }) b)
  | _ => b

/-- A FULL entry with value `ts` (R308, R311). -/
def trFull (p : Params) (ts : Word64) (b : Block) : Block :=
  let c := trSlotPut p ⟨ts, 0x00, .keeper, 0, 0, 0, 0, 0⟩ 0 b
  updTr (fun t => { t with full := if t.state = .armed ∧ t.preSlot = 0 then none
    else if t.state = .post ∧ t.postCount % 256 = 0 then none else some ts }) c

/-- The current DELTA of a timestamp, none when a FULL entry is needed first (R311). -/
def trDelta (b : Block) (ts : Word64) : Option Int :=
  match b.trace.full with
  | none => none
  | some f =>
    let d : Int := (ts - f).toInt
    if -(2 ^ 24) ≤ d ∧ d < 2 ^ 24 then some d else none

/-- An entry placed by the Keeper, after a FULL entry where the page or the DELTA needs one (R311);
nothing is placed outside ARMED and POST, nor in ARMED with TR_PRE.PAGES = 0 (R314, R315). -/
def trPlace (p : Params) (e : TrEnt) (b : Block) : Block :=
  if (b.trace.state = .armed ∧ trPre p b ≠ 0) ∨ b.trace.state = .post then
    let c := if (trDelta b e.ts).isNone then trFull p e.ts b else b
    let d := if (trDelta c e.ts).isNone then trFull p e.ts c else c
    trSlotPut p e ((trDelta d e.ts).getD 0) d
  else b

/-- A trigger source (R316): in ARMED the trace goes to POST with FULL and TRIGGER in slots 0 and 1;
a source of the same Keeper cycle joins them; in POST or STOPPED it counts in RETRIG. -/
def trTrigger (p : Params) (src : Nat) (status : Status) (b : Block) : Block :=
  let t := b.trace
  let e : TrEnt := ⟨b.clk.ts, 0x02, .keeper, 0xFFFF, 0xFFFF, 0, status.toNat, BitVec.ofNat 32 (2 ^ src)⟩
  match t.state with
  | .off => b
  | .armed =>
    let c := raise p tIrq 1 (updTr (fun t => { t with trigSrc := BitVec.ofNat 5 (2 ^ src), trigAt := b.clk.fclk }) b)
    if trPost p b = 0 then trStop p (trPlace p e c)
    else trPlace p e (trFull p b.clk.ts (updTr (fun t => { t with state := .post, postCount := 0, full := none }) c))
  | _ =>
    if t.trigAt = b.clk.fclk then
      updTr (fun t => { t with
        trigSrc := t.trigSrc ||| BitVec.ofNat 5 (2 ^ src)
        staged := t.staged.map (fun s => if s.ent.kind = 0x02 then
          { s with ent := { s.ent with arg := s.ent.arg ||| BitVec.ofNat 32 (2 ^ src), aux := if src = 1 then status.toNat else s.ent.aux } }
          else s) }) b
    else updTr (fun t => { t with retrig := min 0xFFFF (t.retrig + 1) }) b

/-- The group of an entry kind (Table 11.4), none for the kinds that bypass the checks of R307. -/
def trGroup (kind : Nat) : Option Nat :=
  if kind = 0x03 then some 1 else if kind < 0x10 then none
  else if kind / 16 = 1 then some 0 else if kind / 16 = 2 then some 1 else if kind / 16 = 3 then some 2
  else if kind / 16 = 4 then some 3 else if kind / 16 = 5 then some 4 else if kind / 16 = 6 then some 5
  else if kind / 16 = 7 then some 6 else some 7

/-- TR_WMASK bit of a source; the Keeper is always in (R307). -/
def trMask (p : Params) (b : Block) : UnitId → Bool
  | .keeper => true
  | .ward w => if w < 32 then bitAt (rd p b (trA 0x064)) w else bitAt (rd p b (trA 0x068)) (w - 32)
  | .hinge _ => true

/-- An entry is formed (R307). -/
def trWanted (p : Params) (b : Block) (src : UnitId) (e : TrEnt) : Bool :=
  match trGroup e.kind with
  | none => true
  | some g => bitAt (rd p b (trA 0x060)) g && trMask p b src
    && (!bitAt (rd p b (trA 0x06C)) 31 || decide (rdf p b (trA 0x06C) 0 8 = e.tenant))

/-- The capacity of a unit's trace FIFO: 32 at a Ward; the Keeper's entries wait for staging (R312). -/
def trCap (u : Nat) : Nat := if u = 0 then 4096 else 32

/-- The counter of lost entries (R313). -/
def trDropCnt (u : Nat) : Nat := if u = 0 then kc32 6 else wc32 (u - 1) 23

/-- An entry at a unit's FIFO: behind a DROP entry when entries were lost and there is room; lost and
counted when there is none (R313). -/
def trPush (u : Nat) (e : TrEnt) (b : Block) : Block :=
  let q := Tbl.get [] b.trace.fifo u
  let l := Tbl.get (0, (0 : Word64)) b.trace.lost u
  let src : UnitId := if u = 0 then .keeper else .ward (u - 1)
  let q1 := if l.1 ≠ 0 ∧ q.length < trCap u then
    q ++ [⟨l.2, 0x01, src, 0xFFFF, 0xFFFF, 0, 0, BitVec.ofNat 32 (min l.1 (2 ^ 32 - 1))⟩] else q
  let l1 := if l.1 ≠ 0 ∧ q.length < trCap u then (0, (0 : Word64)) else l
  if q1.length < trCap u then
    updTr (fun t => { t with fifo := Tbl.set [] t.fifo u (q1 ++ [e]), lost := Tbl.set (0, 0) t.lost u l1 }) b
  else
    bump (trDropCnt u) 1 (updTr (fun t => { t with
      fifo := Tbl.set [] t.fifo u q1, lost := Tbl.set (0, 0) t.lost u (l1.1 + 1, if l1.1 = 0 then e.ts else l1.2) }) b)

/-- A trace entry formed at a unit, in ARMED or POST (R307, R314, R315). -/
def trForm (p : Params) (at_ : UnitId) (e : TrEnt) (b : Block) : Block :=
  if (b.trace.state = .armed ∨ b.trace.state = .post) ∧ trWanted p b at_ e then
    trPush (match at_ with | .ward w => 1 + w | _ => 0) e b
  else b

/-- A trace entry of a task (R309). -/
def trTask (p : Params) (src : UnitId) (kind : Nat) (d : TaskDesc) (aux : Nat) (arg : Word32) (b : Block) : Block :=
  trForm p src ⟨b.clk.ts, kind, src, d.layer, d.opid, d.tenant, aux, arg⟩ b

/-- A trace entry of a ring (R309). -/
def trRing (p : Params) (src : UnitId) (kind r aux : Nat) (arg : Word32) (b : Block) : Block :=
  let g := rng b r
  trForm p src ⟨b.clk.ts, kind, src, g.layer, g.opid, fld g.d1 24 8, aux, arg⟩ b

/-- The task word of Table 11.4: port valid, port within its Ward, generation, local handle. -/
def taskWord (p : Params) (port : Option Nat) (gen h : Nat) : Word32 :=
  BitVec.ofNat 32 ((match port with | some n => 2 ^ 31 + portIn p n * 2 ^ 25 | none => 0) + gen % 256 * 2 ^ 17 + h)

/-! ## Error log -/

/-- IRQ0, IRQ4 + w or IRQ52 + h of the unit that formed a record (R290). -/
def logIrq (p : Params) (u : UnitId) (b : Block) : Block :=
  match u with
  | .keeper => raiseK p 0 b
  | .ward w => raiseW p w 0 b
  | .hinge h => raiseH p h 0 b

/-- The last-resort word of a record (Table 10.7). -/
def lrWord (r : LogRec) : Word32 :=
  let k := match r.src with | .keeper => 0 | .ward w => 2 ^ 22 + w * 2 ^ 16 | .hinge h => 2 ^ 23 + h * 2 ^ 16
  BitVec.ofNat 32 (r.status.toNat * 2 ^ 24 + k + r.tenant % 256 * 2 ^ 8 + r.kind % 16 * 2 ^ 4 + 1)

/-- An event written to the first free last-resort register, counted in OVF when none is (R291, R292). -/
def lastResort (r : LogRec) (b : Block) : Block :=
  updLog (fun l => if l.lr.length < 4 then { l with lr := l.lr ++ [lrWord r] } else { l with lrOvf := min 0xFFFF (l.lrOvf + 1) }) b

/-- A record reaches the Keeper: stored, or diverted while FAILED (R288, R291); one that finds the log full is kept to the
end of the cycle, as a POP of that cycle still makes room for it (R289, R409); its unit's interrupt is raised when enabled (R290); a status trigger looks at it (R316). -/
def storeLog (p : Params) (r : LogRec) (b : Block) : Block :=
  let c := if b.log.failed then lastResort r b
    else if b.log.recs.length < 1024 then updLog (fun l => { l with recs := l.recs ++ [r], fresh := l.fresh + 1 }) b
    else updLog (fun l => { l with late := l.late ++ [r] }) b
  let d := when (bitAt (rd p b (kA 7 0x078)) r.status.toNat && decide (r.kind ≠ 1) && decide (r.status ≠ 0x14))
    (logIrq p r.src) c
  when (bitAt (rd p b (trA 0x070)) 31 && decide (rdf p b (trA 0x070) 0 8 = r.status.toNat)) (trTrigger p 1 r.status) d

/-- A record formed: counted by status (R289), traced by an ERR entry (R310), stored at the Keeper at
once or put into its unit's buffer of 16, or counted there as lost (R289). -/
def logRec (p : Params) (r0 : LogRec) (b : Block) : Block :=
  let r := { r0 with ts := b.clk.ts }
  let c := updLog (fun l => { l with cnt := Tbl.upd 0 l.cnt r.status.toNat (fun n => satAdd (2 ^ 32 - 1) n 1) }) b
  let c := trForm p .keeper ⟨b.clk.ts, 0x70, r.src, r.layer, r.opid, r.tenant, r.status.toNat, r.handle⟩ c
  match r.src with
  | .keeper => storeLog p r c
  | u =>
    let n := unitNo u
    let q := Tbl.get [] c.log.buf n
    if q.length < 16 then updLog (fun l => { l with buf := Tbl.set [] l.buf n (q ++ [r]) }) c
    else updLog (fun l => { l with lost := Tbl.upd 0 l.lost n (· + 1) }) c

/-- A unit sends its oldest record, with the count of those lost since, into the Keeper crossbar (R289, R306). -/
def sendLog (n : Nat) (b : Block) : Block :=
  match Tbl.get [] b.log.buf n with
  | [] => b
  | x :: l =>
    let k := Tbl.get 0 b.log.lost n
    let b := updLog (fun g => { g with
      buf := Tbl.set [] g.buf n l, lost := Tbl.set 0 g.lost n 0, air := Tbl.upd [] g.air n (· ++ [(x, k)]) }) b
    if 1 ≤ n ∧ n < 64 then xtx (some (n - 1)) 16 b else b

/-- The log at the end of a cycle: records that found it full are stored where a POP has made room, and dropped otherwise
(R289, R409); every unit sends one record on (R289). -/
def logCycle (b : Block) : Block :=
  let b := updLog (fun l =>
    let k := 1024 - l.recs.length
    { l with recs := l.recs ++ l.late.take k, dropped := satAdd (2 ^ 32 - 1) l.dropped (l.late.length - k), late := [], fresh := 0 }) b
  forEach (b.log.buf.map Prod.fst) sendLog b

/-- A record of a ring: RING and SUBID valid, LAYER and OPID of its latest MARK (Table 10.6). -/
def ringLog (b : Block) (src : UnitId) (status : Status) (r : Nat) (subid : Word32) : LogRec :=
  { status := status, src := src, ringV := true, ring := r, subid := subid, tenant := fld (rng b r).d1 24 8,
    layer := (rng b r).layer, opid := (rng b r).opid }

/-! ## Event rings -/

/-- An event of Table 11.6 recorded in a port's event ring, or counted while frozen (R319, R321). -/
def evRec (p : Params) (n kind : Nat) (status : Status) (aux gen h : Nat) (b : Block) : Block :=
  let w := portWard p n
  if bitAt (rd p b (wA w 5 0x054)) 0 || b.dump.frozen then bump (wc32 w 24) 1 b
  else
    let l := Tbl.get [] b.evr n
    let old := match l with | [] => true | e :: _ => decide (2 ^ 20 ≤ (b.clk.ts - e.ts).toNat)
    { b with evr := Tbl.set [] b.evr n ((⟨b.clk.ts, kind, status, old, aux, gen, h⟩ :: l).take (evDepth p)) }

end Sys2Proof.Machine
end

