-- ==== Sys2Proof/Machine/Link.lean ====
section
/-! DEFINITION. Reachability of other instances (R249, R250), items handed to a Hinge and the credits
that pace them (R258, R259), tallies to the meter and tenant counters (R246, R247, R331, R332). -/

namespace Sys2Proof.Machine

/-- KP_FED.INST. -/
def ownInst (p : Params) (b : Block) : Nat := rdf p b (kA 6 0x040) 0 6

/-- The instance has Hinges that take part in a federation (R249, R387). -/
def fedOn (p : Params) (b : Block) : Bool :=
  bitAt (rd p b (kA 6 0x040)) 15 && decide (p.nh ≠ 0) && !b.boot.minimal

/-- Instance `i` is reachable (R250, R273). -/
def reachable (p : Params) (b : Block) (i : Nat) : Bool :=
  let g := hng b (rte b i).hinge
  fedOn p b && (rte b i).v && !b.unreach.getLsbD i && decide (g.state ≠ .down) && !g.downPend

/-- The other instance that an operation names: none for a local one (R249). -/
def otherInst (p : Params) (b : Block) (remote : Bool) (i : Nat) : Option Nat :=
  if remote && decide (i ≠ ownInst p b) then some i else none

/-- Item kinds below 0x20 travel on the ordered lane (Table 9.5). -/
def orderedItem (it : Item) : Bool := decide (it.kind.toNat < 0x20)

/-- Slots of an item: its header and its data (R258). -/
def itemSlots (it : Item) : Nat := 1 + it.data.length

/-- The header slot of an item (Table 9.4). -/
def itemHdr (it : Item) : BitVec 128 :=
  BitVec.ofNat 128 (it.kind.toNat + it.sinst % 2 ^ 6 * 2 ^ 8 + it.dinst % 2 ^ 6 * 2 ^ 16 + it.data.length % 2 ^ 7 * 2 ^ 24
    + it.tenant % 2 ^ 8 * 2 ^ 32 + it.hops % 2 ^ 3 * 2 ^ 40 + it.args.toNat * 2 ^ 48)

/-- The slots of an item: its header, then its data (R258). -/
def slotsOf (it : Item) : List (BitVec 128) := itemHdr it :: it.data

/-- The kind is one of Table 9.5. -/
def knownKind (k : Nat) : Bool := decide (1 ≤ k ∧ k ≤ 0x0C) || decide (0x20 ≤ k ∧ k ≤ 0x22)

/-- The item that slots spell (Table 9.4); none for a reserved KIND, a reserved bit that is not 0, NDATA above 64 or another
number of data slots, which are protocol errors (R260). -/
def spellItem : List (BitVec 128) → Option Item
  | [] => none
  | h :: l =>
    if knownKind (fld h 0 8) && decide (fld h 14 2 = 0) && decide (fld h 22 2 = 0) && decide (fld h 31 1 = 0) && decide (fld h 43 5 = 0)
        && decide (fld h 24 7 = l.length) && decide (l.length ≤ 64) then
      some { kind := BitVec.ofNat 8 (fld h 0 8), sinst := fld h 8 6, dinst := fld h 16 6, tenant := fld h 32 8, hops := fld h 40 3,
             args := BitVec.ofNat 80 (fld h 48 80), data := l }
    else none

/-- The 240-byte payload of a flit (R257): slot 0 is the hinge header of Table 9.3, whose SVALID marks the slots given. -/
def hingePayload (o a : Nat) (hello : Option Nat) (ts : Option Word64) (slots : List (BitVec 128)) : BitVec 1920 :=
  let hdr := 2 ^ slots.length - 1 + o * 2 ^ 16 + a * 2 ^ 24 + b2n ts.isSome * 2 ^ 32 + b2n hello.isSome * 2 ^ 33
    + hello.getD 0 % 2 ^ 6 * 2 ^ 40 + (ts.getD 0).toNat * 2 ^ 64
  BitVec.ofNat 1920 (hdr + ((slots.zipIdx).map (fun x => x.1.toNat * 2 ^ (128 * (x.2 + 1)))).sum)

/-- A flit sent by a Hinge: its header returns at most 255 credits of a lane (Table 9.3, R259). -/
def flitOut (h : Nat) (hello : Option Nat) (ts : Option Word64) (slots : List (BitVec 128)) (b : Block) : Block :=
  let g := hng b h
  let o := min 255 g.retO
  let a := min 255 g.retA
  emit (.flit h (hingePayload o a hello ts slots))
    (updHinge h (fun g => { g with retO := g.retO - o, retA := g.retA - a, rxO := g.rxO + o, rxA := g.rxA + a }) b)

/-- An item's slots in as many flits as they take, 14 in each (R257, R258). -/
def itemFlits (h : Nat) (it : Item) (b : Block) : Block :=
  let l := slotsOf it
  forEach (List.range (cdiv l.length 14)) (fun i => flitOut h none none ((l.drop (14 * i)).take 14)) b

/-- An item sent by a Hinge against credit (R259): counted, and its header kept when it is ordered; the
second component is the local entry the item reports for, none for the others. -/
def itemOut (h : Nat) (it : Item × Option Nat) (b : Block) : Block :=
  let n := itemSlots it.1
  let b := updHinge h (fun g => if orderedItem it.1 then
      { g with credO := g.credO - n, heldItems := g.heldItems ++ [(g.txSeq, it)], txSeq := g.txSeq + 1 }
    else { g with credA := g.credA - n }) b
  itemFlits h it.1 (bump (hc64 h 2) 1 (bump (hc64 h 0) (16 * n) b))

/-- A Hinge may place the item now: ACTIVE, not stalled, credit for every slot, room for its header (R259). -/
def mayPlace (g : Hinge) (it : Item) : Bool :=
  decide (g.state = .active) && !g.stall && (if orderedItem it then decide (itemSlots it ≤ g.credO ∧ g.heldItems.length < 1024)
    else decide (itemSlots it ≤ g.credA))

/-- The next item that may be placed: the first of the ordered lane, else the first of the answer lane. -/
def nextItem (g : Hinge) : Option (Item × Option Nat) :=
  match g.txq.find? (fun i => orderedItem i.1) with
  | some it => if mayPlace g it.1 then some it else (g.txq.find? (fun i => !orderedItem i.1)).filter (fun a => mayPlace g a.1)
  | none => (g.txq.find? (fun i => !orderedItem i.1)).filter (fun a => mayPlace g a.1)

/-- Items placed while credits allow; the first argument bounds the items sent. -/
def hingeFlush (h : Nat) : Nat → Block → Block
  | 0, b => b
  | k + 1, b =>
    match nextItem (hng b h) with
    | some it => hingeFlush h k (itemOut h it (updHinge h (fun g => { g with txq := g.txq.erase it }) b))
    | none => b

/-- An item handed to a Hinge: sent behind those that wait on its lane. -/
def hingePut (h : Nat) (it : Item) (owner : Option Nat) (b : Block) : Block :=
  let b := updHinge h (fun g => { g with txq := g.txq ++ [(it, owner)] }) b
  hingeFlush h (hng b h).txq.length b

/-- The Hinge goes DOWN: the DOWN event follows once the items in its buffers are sampled (R272, R273); the loss of
the Hinge with UP = 1 is a loss of the timestamp (R271). -/
def goDown (p : Params) (h : Nat) (b : Block) : Block :=
  let g := hng b h
  if g.state = .down then b
  else
    let up := bitAt (rd p b (hA h 0x04C)) 31 && (decide (g.state = .active) || decide (g.state = .hold))
    updHinge h (fun g => { g with
      state := .down, leftState := g.state, downPend := true, linkUp := false, helloRx := false, helloTx := false, stall := false
      badRun := if up then 8 else g.badRun }) b

/-- An item handed over by Hinge `h`: counted, its slots owed to the sender as credits (R259, R302). -/
def hingeIn (h slots : Nat) (ordered : Bool) (b : Block) : Block :=
  let b := updHinge h (fun g => if ordered then
      { g with retO := g.retO + slots, rxO := g.rxO - slots, rxSeq := g.rxSeq + 1,
               rxSince := if g.rxSeq = g.lastConf then b.clk.fclk else g.rxSince }
    else { g with retA := g.retA + slots, rxA := g.rxA - slots }) b
  bump (hc64 h 3) 1 (bump (hc64 h 1) (16 * slots) b)

/-- Slots sent beyond credit on an ACTIVE Hinge (R260). -/
def beyondCredit (g : Hinge) (slots : Nat) (ordered : Bool) : Bool :=
  decide (g.state = .active) && decide ((if ordered then g.rxO else g.rxA) < slots)

/-- An item of another instance that Hinge `h` hands over, and what it does: an absent Hinge hands over nothing, slots beyond
credit are a protocol error that takes the Hinge to DOWN (R258 to R260). -/
def rxItem (p : Params) (h slots : Nat) (ordered : Bool) (f : Block → Block) (b : Block) : Block :=
  if p.nh ≤ h then b
  else if beyondCredit (hng b h) slots ordered then goDown p h b
  else f (hingeIn h slots ordered b)

/-- The bits of PFLIT of the flits that a Hinge has found bad. -/
def flitMask (l : List Nat) : Nat := (l.eraseDups.map (fun i => if i < 16 then 2 ^ i else 0)).sum

/-- A MSG or PART item with the bits of PFLIT set for the flits found bad in the Hinge (Table 10.4). -/
def markBad (l : List Nat) (it : Item) : Item :=
  if it.kind = 0x05 then { it with args := it.args ||| BitVec.ofNat 80 (flitMask l * 2 ^ 64) }
  else if it.kind = 0x06 then { it with args := it.args ||| BitVec.ofNat 80 (flitMask l * 2 ^ 54) }
  else it

/-- As `rxItem`, for an item with data: `f` gets it with its bad flits marked (Table 10.4). -/
def rxData (p : Params) (h : Nat) (it : Item) (f : Item → Block → Block) (b : Block) : Block :=
  rxItem p h (itemSlots it) true (fun b => f (markBad (hng b h).badFlits it) (updHinge h (fun g => { g with badFlits := [] }) b)) b

/-- Several items one after the other, the first of which is held against credit: the sender paces the others by the credits
that come back meanwhile. -/
def rxItems (p : Params) (h : Nat) (l : List Nat) (ordered : Bool) (f : Block → Block) (b : Block) : Block :=
  rxItem p h (l.headD 0) ordered (fun b => f (forEach l.tail (fun n => hingeIn h n ordered) b)) b

/-- An item from this instance; ARGS as log entry 13 lays them out. -/
def mkItem (p : Params) (b : Block) (kind dinst tenant : Nat) (args : Nat) (data : List (BitVec 128)) : Item :=
  { kind := BitVec.ofNat 8 kind, sinst := ownInst p b, dinst := dinst, tenant := tenant, hops := 0,
    args := BitVec.ofNat 80 args, data := data }

/-- An item sent towards a reachable instance by a Ward (`some w`) or the Keeper. -/
def sendItem (w : Option Nat) (it : Item) (b : Block) : Block :=
  hingePut (rte b it.dinst).hinge it none (xtx w 16 b)

/-- As `sendItem`, for an item that reports for a local entry (R60 conditions 4 and 5). -/
def sendFor (h : Nat) (it : Item) (b : Block) : Block :=
  hingePut (rte b it.dinst).hinge it (some h) (xtx (some (homeOf h)) 16 b)

/-- ARGS of a DEC item: successor word, NKIND, root handle, status. -/
def decArgs (word : Word32) (nk : Nat) (root : Word32) (st : Status) : Nat :=
  word.toNat + nk * 2 ^ 32 + (root.toNat % 2 ^ 23) * 2 ^ 34 + st.toNat * 2 ^ 57

/-- ARGS of a SETL item: successor word, status, ring. -/
def setlArgs (word : Word32) (st : Status) (ring : Nat) : Nat := word.toNat + st.toNat * 2 ^ 32 + ring * 2 ^ 40

/-- ARGS of a HOP item: hasp, OP, value, tag. -/
def hopArgs (hasp op : Nat) (value tag : Word32) : Nat :=
  hasp + op * 2 ^ 12 + value.toNat * 2 ^ 14 + tag.toNat * 2 ^ 46

/-- Tags of requests that cross a Hinge (log entry 13): of an engine request of a port. -/
def tagReq (n : Nat) (tag : BitVec 16) : Word32 := BitVec.ofNat 32 (n * 2 ^ 16 + tag.toNat)
/-- Of a task-form wait of a port: `k` tells the port's successive waits apart. -/
def tagPort (n k : Nat) : Word32 := BitVec.ofNat 32 (2 ^ 30 + k % 2 ^ 16 * 2 ^ 12 + n)
/-- Of the opening of a channel. -/
def tagOpen (c : Nat) : Word32 := BitVec.ofNat 32 (2 ^ 30 + 2 ^ 28 + c)
/-- Of a contribution part: its port, its OFF and the low four bits of its queue ID. -/
def tagPart (n : Nat) (qid : BitVec 16) (off : Nat) : Word32 :=
  BitVec.ofNat 32 (2 ^ 30 + 2 ^ 29 + n * 2 ^ 16 + qid.toNat % 16 * 2 ^ 12 + off % 2 ^ 12)
/-- Of a hasp operation of a ring's submission; `wait` for a ring-form wait. -/
def tagRing (r : Nat) (subid : Word32) (wait : Bool) : Word32 :=
  BitVec.ofNat 32 (2 ^ 31 + (if wait then 2 ^ 29 else 0) + subid.toNat % 2 ^ 16 * 2 ^ 13 + r)
/-- Of a message: channel and sequence number. -/
def tagMsg (c : Nat) (seq : BitVec 16) : Word32 := BitVec.ofNat 32 (2 ^ 31 + 2 ^ 30 + c * 2 ^ 16 + seq.toNat)

/-- Of the reservation of a segment: map bank and ring. -/
def tagSeg (bank ring : Nat) : Word32 := BitVec.ofNat 32 (2 ^ 30 + 2 ^ 29 + 2 ^ 28 + bank * 2 ^ 13 + ring)

/-- ARGS of a MSG item: CHID with CLASS, SEQ, deadline, PFLIT. -/
def msgArgs (c : Nat) (be : Bool) (seq : BitVec 16) (dl : Word32) (pflit : Nat) : Nat :=
  c + (if be then 2 ^ 15 else 0) + seq.toNat * 2 ^ 16 + dl.toNat * 2 ^ 32 + pflit * 2 ^ 64

/-- ARGS of a CHC item: OP, CHID or QID, endpoint or successor word, port. -/
def chcArgs (op c : Nat) (endp : Word32) (port : Nat) : Nat := op + c * 2 ^ 2 + endp.toNat * 2 ^ 18 + port * 2 ^ 50

/-- ARGS of a PART item: QID, OFF, NELEM, FINAL, sending port, PFLIT. -/
def partArgs (qid : BitVec 16) (off nelem : Nat) (final : Bool) (port pflit : Nat) : Nat :=
  qid.toNat + off * 2 ^ 16 + nelem * 2 ^ 28 + (if final then 2 ^ 41 else 0) + port * 2 ^ 42 + pflit * 2 ^ 54

/-- ARGS of an XCTL item: OP, ring, map bank, low bits of the SUBID. -/
def xctlArgs (op ring bank : Nat) (subid : Word32) : Nat := op + ring * 2 ^ 8 + bank * 2 ^ 24 + subid.toNat % 2 ^ 15 * 2 ^ 28

/-- ARGS of an ANS item: tag, status, result. -/
def ansArgs (tag : Word32) (st : Status) (res : Word32) : Nat := tag.toNat + st.toNat * 2 ^ 32 + res.toNat * 2 ^ 40

/-- ARGS of the ANS item of a part: bits 79:72 hold bits 11:4 of the queue ID (log entry 13). -/
def partAns (n : Nat) (qid : BitVec 16) (off : Nat) (st : Status) (res : Word32) : Nat :=
  ansArgs (tagPart n qid off) st res + qid.toNat / 16 % 2 ^ 8 * 2 ^ 72

/-! ## Tallies -/

/-- A saturating addition to a field of a tally line: the value and whether it saturated (R332). -/
def satField (bits a n : Nat) : Nat × Bool := (min (2 ^ bits - 1) (a + n), decide (2 ^ bits ≤ a + n))

/-- The tally source of a unit: Ward w is w, the Keeper NW (R331). -/
def tallySrc (p : Params) : Option Nat → Nat
  | some w => w
  | none => p.nw

/-- A tally line changed; it becomes dirty when it was clean (R331). -/
def tally (p : Params) (src : Option Nat) (t : Nat) (f : Tally → Tally) (b : Block) : Block :=
  let k := tallySrc p src * 256 + t
  let g := fun (l : Tally) => let m := f l; { m with dirtyAt := some (l.dirtyAt.getD (nextSeq b)) }
  tookSeq { b with tally := Tbl.upd {} b.tally k g }

/-- The quantities of a settled task that ran (Table 12.1): busy and queue-wait time, waste of an
escaped entry, DONE or FAILED. -/
def tallyRun (busy qwait : Nat) (escaped done : Bool) (l : Tally) : Tally :=
  let x := satField 40 l.busy busy
  let q := satField 40 l.qwait qwait
  let s := satField 40 l.waste (if escaped then busy else 0)
  let d := satField 24 l.done (b2n done)
  let f := satField 24 l.failed (b2n (!done))
  { l with busy := x.1, qwait := q.1, waste := s.1, done := d.1, failed := f.1,
           sat := l.sat || x.2 || q.2 || s.2 || d.2 || f.2 }

/-- Bytes at the four levels (R305, Table 12.1). -/
def tallyBytes (n : List Nat) (l : Tally) : Tally :=
  let r := (List.range 4).map (fun i => satField 48 (l.bytes.getD i 0) (n.getD i 0))
  { l with bytes := r.map Prod.fst, sat := l.sat || r.any Prod.snd }

/-- A pre-emption suffered (R240). -/
def tallyPre (l : Tally) : Tally :=
  let x := satField 24 l.preempt 1
  { l with preempt := x.1, sat := l.sat || x.2 }

end Sys2Proof.Machine
end

