-- ==== Sys2Proof/Machine/Settle.lean ====
section
/-! DEFINITION. Settlement of entries and what follows from it: slots, signals, tallies, digests, the
ring's accounting, completion of submissions, pre-emption gates (R55 to R73, R134, R141 to R143, R240),
cancels (R103) and the readiness examination (R55, R70 to R72). -/

namespace Sys2Proof.Machine

/-- The successor word of a local entry (Table 2.4). -/
def wordOf (p : Params) (b : Block) (h : Nat) : Word32 :=
  BitVec.ofNat 32 (2 ^ 31 + (ent b h).gen % 256 * 2 ^ 23 + ownInst p b * 2 ^ 17 + h)

/-- The live entry a successor word names: own instance, an existing Ward, not FREE, same generation
(R50, R51). -/
def findEntry (p : Params) (b : Block) (w : Word32) : Option Nat :=
  let h := wHandle w
  if w.getLsbD 31 ∧ fld w 17 6 = ownInst p b ∧ homeOf h < p.nw ∧ (ent b h).st ≠ .free ∧ (ent b h).gen % 256 = fld w 23 8
  then some h else none

/-- The state is one of the five before settlement. -/
def live : TState → Bool
  | .pending | .ready | .placed | .preloaded | .running => true
  | _ => false

/-! ## Ring fields (Table 4.1) -/

/-- D1.TENANT. -/
def rTenant (g : Ring) : Nat := fld g.d1 24 8
/-- D1.HOME. -/
def rHome (g : Ring) : Nat := fld g.d1 18 6
/-- D1.AHEAD, 0 read as 1. -/
def rAhead (g : Ring) : Nat := max 1 (fld g.d1 15 3)
/-- D1.CLASS: 1 is BE. -/
def rBe (g : Ring) : Bool := bitAt g.d1 13
/-- D1.LOG2SIZE. -/
def rLog (g : Ring) : Nat := fld g.d1 8 4
/-- Ring base address. -/
def rBase (g : Ring) : Nat := fld g.d1 0 8 * 2 ^ 40 + g.d0.toNat * 2 ^ 8
/-- D2.RTMO. -/
def rRtmo (g : Ring) : Nat := fld g.d2 8 24
/-- D2.TSLOT. -/
def rSlot (g : Ring) : Nat := fld g.d2 0 6
/-- D3.STMO. -/
def rStmo (g : Ring) : Nat := fld g.d3 0 24
/-- D3.PREFETCH, 0 read as 1. -/
def rPrefetch (g : Ring) : Nat := max 1 (fld g.d3 24 4)
/-- D10.OPEN_STEPS: steps sealed at least once and not complete (R134). -/
def openSteps (g : Ring) : Nat := g.steps.countP (fun s => s.opened)
/-- Submissions accepted and not yet passed (R118). -/
def outstanding (g : Ring) : Nat := g.subs.length

/-! ## Answers to engines (R355, R357) -/

/-- An ANSWER beat: TAG, STATUS, OP, RESULT, CHID, sequence number (R355). -/
def ansBeat (tag : BitVec 16) (st : Status) (op : Nat) (result : Word32) (chid : Nat) (seq : BitVec 16) : BitVec 512 :=
  BitVec.ofNat 512 (tag.toNat + st.toNat * 2 ^ 16 + op * 2 ^ 24 + result.toNat * 2 ^ 32 + chid * 2 ^ 64 + seq.toNat * 2 ^ 80)

/-- An answer decided at a unit for a port: at the port's own Ward it becomes ready for OPD, elsewhere
it crosses the Keeper crossbar (R357). -/
def answerTo (p : Params) (from_ : Option Nat) (n : Nat) (beat : BitVec 512) (b : Block) : Block :=
  if from_ = some (portWard p n) then
    updPort n (fun q => { q with opd := q.opd ++ [{ kind := 2, ch := ⟨none, 0⟩, data := beat }] }) b
  else xsend from_ 16 (.answer n beat) b

/-! ## Channels that close with their owner (R158) -/

/-- Every channel opened here whose owner satisfies `f` begins to close. -/
def closeOwned (f : ChOwner → Bool) (b : Block) : Block :=
  forEach b.chans (fun x c =>
    match x.2 with
    | some k => when (f k.owner && !k.closing)
        (fun c => xsend none 16 (.close ⟨none, x.1⟩ .directory none) (setChan x.1 (some { k with closing := true }) c)) c
    | none => c) b

/-! ## Ring accounting -/

/-- Ward `w` reaches a commit point in this cycle (R392). -/
def markCommit (w : Nat) (b : Block) : Block :=
  if w ∈ b.cmtDue then b else { b with cmtDue := b.cmtDue ++ [w] }

/-- A ring's record of a submission changed. -/
def updSub (r : Nat) (subid : Word32) (f : Sub → Sub) (b : Block) : Block :=
  updRing r (fun g => { g with subs := g.subs.map (fun s => if s.subid = subid then f s else s) }) b

/-- A ring's submission by SUBID. -/
def subOf (b : Block) (r : Nat) (subid : Word32) : Option Sub := (rng b r).subs.find? (fun s => s.subid = subid)

/-- Progress of a ring (R298). -/
def progress (r : Nat) (b : Block) : Block := updRing r (fun g => { g with hangTicks := 0, hung := false }) b

/-- A submission of a ring ends, whose RTMO started at fclk `at_`. -/
def overSub (r at_ : Nat) (b : Block) : Block :=
  updRing r (fun g => { g with overSubs := g.overSubs.filter (fun x => x.2 = b.clk.fclk) ++ [(at_, b.clk.fclk)] }) b

/-- Steps of a ring end, whose STMO ran from the fclks of `l`. -/
def overSteps (r : Nat) (l : List (Option Nat)) (b : Block) : Block :=
  updRing r (fun g => { g with
    overSteps := g.overSteps.filter (fun x => x.2 = b.clk.fclk) ++ (l.filterMap id).map (fun t => (t, b.clk.fclk)) }) b

/-- The channel was opened in a step. -/
def stepOwner (r no : Nat) : ChOwner → Bool
  | .step q n _ => decide (q = r) && decide (n = no)
  | _ => false

/-- Steps complete in order: STEP rises, the STEP trace entry, the step's channels close (R134, R158). -/
def stepAdvance (p : Params) (r : Nat) : Nat → Block → Block
  | 0, b => b
  | k + 1, b =>
    let g := rng b r
    match g.steps with
    | [] => b
    | s :: rest =>
      if s.closed ∧ s.unsettled = 0 then
        let b := updRing r (fun g => { g with steps := rest, step := g.step + 1 }) b
        let b := trRing p (.ward (rHome g)) 0x21 r 0 (BitVec.ofNat 32 ((g.step + 1).toNat % 2 ^ 19 * 2 ^ 13 + r)) b
        stepAdvance p r k (closeOwned (stepOwner r s.no) (overSteps r [s.timer] b))
      else b

/-- TN_RING_DONE passes the oldest submissions that are complete with their status block and digests
answered (R143, R328); RPTR follows and the note is posted. -/
def doneAdvance (p : Params) (r : Nat) : Nat → Block → Block
  | 0, b => b
  | k + 1, b =>
    let g := rng b r
    match g.subs with
    | [] => b
    | s :: rest =>
      if s.complete ∧ s.statusWr ≠ .pending ∧ s.digests = 0 then
        let b := updRing r (fun g => { g with subs := rest, rptr := g.rptr + 1, fenceFail := g.fenceFail || decide (s.nfail ≠ 0) }) b
        let b := { b with tdone := Tbl.set 0 b.tdone (rTenant g * 64 + rSlot g) s.subid }
        let b := match s.note with
          | some n => postW p (rHome g) n.1 4 n.2.toNat (rTenant g) (rBe g) b
          | none => b
        doneAdvance p r k b
      else b

/-- R141: the status of a complete submission. -/
def subStatus (s : Sub) : Status := s.early.getD (s.firstFail.getD 0)

/-- The status block of Table 4.7 as a number, byte 0 lowest. -/
def statusBlock (s : Sub) : Nat :=
  s.subid.toNat + (subStatus s).toNat * 2 ^ 32 + min (2 ^ 32 - 1) s.nfail * 2 ^ 64 + min (2 ^ 32 - 1) s.ncanc * 2 ^ 96

/-- A submission whose walk has ended and whose entries have settled completes (R141, R142): status
block, channels, commit point, done counter. -/
def subCheck (p : Params) (r : Nat) (subid : Word32) (b : Block) : Block :=
  match subOf b r subid with
  | none => b
  | some s =>
    if s.walkEnded ∧ s.unsettled = 0 ∧ ¬ s.complete then
      let g := rng b r
      let b := updSub r subid (fun s => { s with complete := true, statusWr := if s.statusPtr = 0 then .none else .pending }) (overSub r s.acceptedAt b)
      let b := when (decide (s.statusPtr ≠ 0)) (postW p (rHome g) s.statusPtr 16 (statusBlock s) (rTenant g) (rBe g)) b
      let open_ := fun (n : Nat) => g.steps.any (fun x => decide (x.no = n) && !x.closed && decide (x.subid = subid))
      let b := closeOwned (fun o => match o with
        | .sub q i => decide (q = r) && decide (i = subid)
        | .step q n _ => decide (q = r) && open_ n
        | _ => false) b
      doneAdvance p r g.subs.length (markCommit (rHome g) b)
    else b

/-! ## The walk goes on (R129, R212) -/

/-- TN_RING_DONE of the awaited slot has reached WAIT_SUBID (R120). -/
def waitOver (b : Block) (t : Nat) (w : Option (Nat × Word32)) : Bool :=
  match w with
  | none => true
  | some x => serialGe (Tbl.get 0 b.tdone (t * 64 + x.1)) x.2

/-- The walk of the first submission whose walk has not ended begins, or there is none (R129): the cursor then keeps what
D12 to D15 show (R147). -/
def startNext (r : Nat) (b : Block) : Block :=
  let g := rng b r
  match g.subs.find? (fun s => !s.walkEnded) with
  | none => updWalk r (fun k => { off := k.off, subid := k.subid, loops := k.loops }) b
  | some s => updWalk r (fun _ => {
      mode := if waitOver b (rTenant g) s.waitOn then .header else .waitSub
      off := s.entry, subid := s.subid, since := b.clk.ts }) b

/-- A walk reaches its end (R129). -/
def walkEnd (p : Params) (r : Nat) (b : Block) : Block :=
  let subid := (rng b r).walk.subid
  subCheck p r subid (startNext r (updSub r subid (fun s => { s with walkEnded := true }) b))

/-- The walk leaves a segment for its NEXT, or ends. -/
def leaveSeg (p : Params) (r : Nat) (b : Block) : Block :=
  match (rng b r).walk.seg with
  | none => b
  | some g =>
    if g.next = 0xFFFFFFFF then walkEnd p r b
    else updWalk r (fun k => { k with mode := .header, off := g.next.toNat, body := [], memv := [], fans := [], reread := [], want := [], patches := [], hold := none }) b

/-- The walk passes the record at CUR_OFF, 32 bytes long in a CONTROL segment. -/
def passRec (p : Params) (r : Nat) (b : Block) : Block :=
  let k := (rng b r).walk
  match k.seg with
  | none => b
  | some g =>
    if k.off + 32 < g.off + 64 + g.len then
      updWalk r (fun k => { k with mode := .records, off := k.off + 32, memv := [], hold := none }) b
    else leaveSeg p r (updWalk r (fun k => { k with off := k.off + 32 }) b)

/-! ## Pre-emption gates (R234, R240) -/

/-- An entry of the gate set of a point: of the closed step, or the YIELD entries of the interval before
it, or all of that interval when it had none (R234). -/
def inGate (pt : Point) (step : Option Nat) (interval : Nat) (yield_ : Bool) : Bool :=
  if pt.isStep then decide (step = pt.stepNo) else decide (interval = pt.before) && (!pt.hasYield || yield_)

/-- The gate set has settled: no entry of it whose settlement the ring has not sampled, and no roster record,
remains. -/
def gateSettled (b : Block) (r : Nat) (pt : Point) : Bool :=
  b.ents.all (fun x => !(decide (x.2.d.ring = r) && x.2.d.rinst.isNone && decide (x.2.st ≠ .free) && !x.2.noticed && inGate pt x.2.d.step x.2.d.interval x.2.d.yield))
  && b.fedt.all (fun x => x.2.roster.all (fun o => !(decide (o.ring = r) && inGate pt o.step o.interval o.isYield)))

/-- A walk restored to the end of its segment leaves it (R238, R242). -/
def walkOn (p : Params) (r : Nat) (b : Block) : Block :=
  let k := (rng b r).walk
  match k.mode, k.seg with
  | .records, some g => if g.off + 64 + g.len ≤ k.off then leaveSeg p r b else b
  | _, _ => b

/-- A ring returns to RUN (R242, R243): it leaves the resume queue, PREEMPT 2 is traced, and the walk restarts. -/
def toRun (p : Params) (r : Nat) (b : Block) : Block :=
  let b := updRing r (fun g => { g with pre := .run, prePoint := none, preResume := false, preQueue := false }) b
  walkOn p r (trRing p .keeper 0x60 r 2 (BitVec.ofNat 32 r) { b with resumeQ := b.resumeQ.filter (· ≠ r) })

/-- A PENDING ring whose gate set has settled becomes HELD (R240), or RUN when a resume is recorded
(R242). The record's HANDLE holds c and its AUX the kind of point (log entry 14). -/
def gateCheck (p : Params) (r : Nat) (b : Block) : Block :=
  let g := rng b r
  match g.pre, g.prePoint with
  | .pending, some pt =>
    if gateSettled b r pt then
      if g.preResume then toRun p r b
      else
        let b := updRing r (fun g => { g with pre := .held }) b
        let b := logRec p { ringLog b .keeper 0x14 r pt.subid with handle := BitVec.ofNat 32 pt.off, aux := BitVec.ofNat 32 (b2n (!pt.isStep)) } b
        let b := bump (tnA (rTenant g) 0x338) 1 (tally p none (rTenant g) tallyPre b)
        let b := when g.preQueue (fun b => { b with resumeQ := b.resumeQ ++ [r] }) b
        trRing p .keeper 0x60 r 1 (BitVec.ofNat 32 r) b
    else b
  | _, _ => b

/-- A settlement sampled at the ring's home Ward (R60 condition 5, R134, R141): counted in its
submission and step; a discarded entry decides nothing of the status (R238, R239). -/
def ringSettle (p : Params) (r : Nat) (subid : Word32) (step : Option Nat) (st : TState) (status : Status)
    (discard : Bool) (b : Block) : Block :=
  let b := updSub r subid (fun s =>
    let s := { s with unsettled := s.unsettled - 1 }
    if discard then s
    else match st with
      | .failed => { s with nfail := s.nfail + 1, firstFail := some (s.firstFail.getD status) }
      | .cancelled => { s with ncanc := s.ncanc + 1 }
      | _ => s) b
  let b := updRing r (fun g => { g with
    steps := g.steps.map (fun s => if some s.no = step then { s with unsettled := s.unsettled - 1 } else s) }) b
  let b := stepAdvance p r (rng b r).steps.length (progress r b)
  gateCheck p r (subCheck p r subid b)

/-! ## Settlement of an entry -/

/-- The guards of an entry that are not NONE: kind (1 IN, 2 OUT, 3 IDX) and slot (Table 2.8). -/
def guardsOf (d : TaskDesc) : List (Nat × Nat) := (d.guards.map (fun g => (fld g 14 2, fld g 0 12))).filter (fun x => x.1 ≠ 0)

/-- The guards with what was saved for each when the entry became READY (R70). -/
def savedGuards (e : Entry) : List ((Nat × Nat) × (Bool × BitVec 16)) := (guardsOf e.d).zip e.saved

/-- A slot hazard under CHECK (Table 2.10). -/
def hazard (b : Block) (w : Nat) (e : Entry) : Bool :=
  decide (e.d.mode = 1) && (savedGuards e).any (fun x =>
    if x.1.1 = 1 then !x.2.1 || decide ((slt b w x.1.2).fillgen ≠ x.2.2)
    else if x.1.1 = 2 then x.2.1 else false)

/-- The slot updates of a settlement (Table 2.10): `ran` says that the entry entered RUNNING. -/
def slotFx (w : Nat) (e : Entry) (done : Bool) : List SlotFx :=
  (guardsOf e.d).filterMap (fun g =>
    if e.d.mode = 2 ∧ e.claimed then
      if g.1 = 3 then none
      else if done then some (if g.1 = 1 then .inDone w g.2 else .outDone w g.2)
      else some (.unclaim w g.2)
    else if e.d.mode = 1 ∧ e.ran then
      if g.1 = 1 then some (.inCheck w g.2) else if g.1 = 2 then some (.outCheck w g.2) else none
    else none)

/-- The slot updates of a settlement wait for rank 5 of the cycle (R73). -/
def settleSlots (w : Nat) (e : Entry) (done : Bool) (b : Block) : Block :=
  updClk (fun c => { c with slotDue := c.slotDue ++ slotFx w e done }) b

/-- One slot update (Table 2.10). -/
def slotApply (x : SlotFx) (b : Block) : Block :=
  match x with
  | .inDone w n => updSlot w n (fun s => { s with f := false, c := false }) b
  | .outDone w n => updSlot w n (fun s => { s with f := true, c := false, fillgen := s.fillgen + 1 }) b
  | .unclaim w n => updSlot w n (fun s => { s with c := false }) b
  | .inCheck w n => updSlot w n (fun s => { s with f := false }) b
  | .outCheck w n => updSlot w n (fun s => { s with f := true, fillgen := s.fillgen + 1 }) b

/-- Rank 5: the slot updates of the cycle's settlements, in the order of the settlements (R73). -/
def slotRank (b : Block) : Block :=
  forEach b.clk.slotDue slotApply (updClk (fun c => { c with slotDue := [] }) b)

/-- A command fault found away from the walk, on its way to the ring's home Ward (R140, R145). -/
def faultTo (w : Option Nat) (r : Nat) (subid : Word32) (st : Status) (b : Block) : Block :=
  xsend w 16 (.cmdFault r subid st) b

/-- The settle-form signals of an entry leave for their Keepers (R131, R207, R264); a signal to an
unreachable instance is a command fault (R250). -/
def settleSignals (p : Params) (h : Nat) (e : Entry) (done : Bool) (b : Block) : Block :=
  forEach e.d.sig (fun s c =>
    if done || s.any then
      match otherInst p c s.inst.isSome (s.inst.getD 0) with
      | none => xsend (some (homeOf h)) 16 (.sig s.hasp s.inc (.settle e.d.ring e.d.subid (wordOf p c h) e.d.tenant)) c
      | some i =>
        if reachable p c i then
          sendItem (some (homeOf h)) (mkItem p c 0x03 i e.d.tenant (hopArgs s.hasp 0 s.inc (tagRing e.d.ring e.d.subid false)) []) c
        else faultTo (some (homeOf h)) e.d.ring e.d.subid 0x10 c
    else c) b

/-- The error-log record of a FAILED entry (R65, Table 10.6). -/
def entryLog (p : Params) (b : Block) (h : Nat) (status : Status) (aux : Word32) : LogRec :=
  let e := ent b h
  { status := status, src := .ward (homeOf h), handleV := true, ringV := e.d.rinst.isNone, rootV := decide (status = 0x02),
    overrun := e.overrun, tenant := e.d.tenant, ring := e.d.ring, layer := e.d.layer, subid := e.d.subid,
    handle := wordOf p b h, aux := if status = 0x02 then e.root.getD 0 else aux, opid := e.d.opid }

/-- CAN of a task at a port: named by handle and generation (R104, R350). -/
def canSend (p : Params) (n h gen : Nat) (b : Block) : Block :=
  let hdl : BitVec 25 := BitVec.ofNat 25 (gen % 256 * 2 ^ 17 + h)
  evRec p n 6 0 0 gen h (emit (.can n hdl) (updPort n (fun q => { q with cans := q.cans ++ [hdl] }) b))

/-- A preload of a task that CAN ends: no further beat is sent and the buffer stays taken until the
acknowledgement (R350). -/
def stopPreload (n h gen : Nat) (b : Block) : Block :=
  updPort n (fun q => match q.shadow with
    | .loading a g _ e => if a = h ∧ g = gen then { q with shadow := .full a g e } else q
    | _ => q) b

/-- A stage removed at its port's Ward: CAN is sent and WD_CNT.UNLOAD counts it (R88). -/
def unloadStage (p : Params) (n h gen : Nat) (b : Block) : Block :=
  if (prt b n).stage = some (h, gen) then
    let w := portWard p n
    let b := updEnt h (fun e => { e with staged := none }) (updPort n (fun q => { q with stage := none }) b)
    let b := bump (wc32 w 3) 1 (stopPreload n h gen b)
    canSend p n h gen (trTask p (.ward w) 0x15 (ent b h).d 0 (taskWord p (some n) gen h) b)
  else b

/-- What tells a port's wait apart in the tag of a remote wait (log entry 13). -/
def waitKey (k : PortWait) : Nat := k.handle % 256 + k.gen % 256 * 256

/-- A registered wait is removed at its Keeper: here, or by WAIT_REMOVE at another instance (R215, R264). -/
def removeWait (p : Params) (w : Option Nat) (who : Waiter) (inst : Option Nat) (hasp tenant : Nat) (tag : Word32) (b : Block) : Block :=
  match inst with
  | none => { b with waits := b.waits.filter (fun x => x.who ≠ who) }
  | some i => when (reachable p b i) (sendItem w (mkItem p b 0x03 i tenant (hopArgs hasp 3 0 tag) [])) b

/-- The task-form wait of a port goes, unless it has been released (R215). -/
def dropPortWait (p : Params) (n : Nat) (b : Block) : Block :=
  match (prt b n).wait with
  | none => b
  | some k =>
    let b := updPort n (fun q => { q with wait := none }) b
    if k.released then b
    else
      let b := removeWait p (some (portWard p n)) (.port n) k.inst k.hasp (ent b k.handle).d.tenant (tagPort n (waitKey k)) b
      evRec p n 9 0 1 k.gen k.handle b

/-- A task removed from a port's issue queue with CAN (R103); a task-form wait of it goes (R215). -/
def unqueue (p : Params) (n h gen : Nat) (b : Block) : Block :=
  let mine := match (prt b n).wait with | some k => decide (k.handle = h) && decide (k.gen = gen) | none => false
  let b := updPort n (fun q => { q with iq := q.iq.filter (fun x => !(decide (x.handle = h) && decide (x.gen = gen))) }) b
  canSend p n h gen (stopPreload n h gen (when mine (dropPortWait p n) b))

/-- No port or staging walk holds the entry: a settlement releases it at once (R54). -/
def portless (e : Entry) : Bool := e.staged.isNone && !e.stageOut

/-- The stage of an entry that settles is unloaded: at once at its own Ward, by a directive elsewhere; a
staging request still at the Keeper is withdrawn (R88, R103). -/
def unstage (p : Params) (h : Nat) (b : Block) : Block :=
  let e := ent b h
  match e.staged with
  | none => when e.stageOut (xsend (some (homeOf h)) 16 (.withdraw h e.gen)) b
  | some n => if portWard p n = homeOf h then unloadStage p n h e.gen b else xsend (some (homeOf h)) 16 (.unload h e.gen n) b

/-- The digest of Table 11.8 as a number, byte 0 lowest. -/
def digest (crc nan inf maxabs count aux : Nat) (ovf status kind bytes : Nat) : Nat :=
  crc + nan * 2 ^ 32 + inf * 2 ^ 64 + maxabs * 2 ^ 96 + count * 2 ^ 128 + aux * 2 ^ 160
  + (kind + status * 2 ^ 8 + ovf * 2 ^ 16) * 2 ^ 192 + bytes * 2 ^ 224

/-- A digest written through the MP of its holder, for combining queue `q` when one is given; its WATCH is
spent and its submission awaits the response (R328). -/
def digestWrite (p : Params) (w : Nat) (x : Watch) (d : Nat) (q : Option Nat) (b : Block) : Block :=
  mpW p w x.dptr 32 d (rTenant (rng b x.ring)) (rBe (rng b x.ring))
    (updSub x.ring x.subid (fun s => { s with digestQ := s.digestQ ++ [q] }) { b with watch := b.watch.erase x })

/-- The WATCH of an object that gives no digest is dropped, and its submission awaits none (R328). -/
def watchDrop (p : Params) (kind obj : Nat) (b : Block) : Block :=
  match b.watch.find? (fun x => x.kind = kind ∧ x.obj = obj) with
  | none => b
  | some x =>
    let b := updSub x.ring x.subid (fun s => { s with digests := s.digests - 1 }) { b with watch := b.watch.erase x }
    doneAdvance p x.ring (rng b x.ring).subs.length b

/-- The WATCH digest of a task (kind 2), from the statistics of its completion record (R326, R327). -/
def settleWatch (p : Params) (h : Nat) (status : Status) (stats : Option (BitVec 256)) (b : Block) : Block :=
  match b.watch.find? (fun x => x.kind = 2 ∧ x.obj = h) with
  | none => b
  | some x =>
    let f := fun (i : Nat) => match stats with | some s => fld s (32 * i) 32 | none => 0
    digestWrite p (homeOf h) x (digest (f 0) (f 1) (f 2) (f 3) 1 (f 4) 0 status.toNat 2 0) none b

/-- Counters and tallies of an entry that entered RUNNING (R246, Tables 8.6 and 12.1). -/
def settleTally (p : Params) (h : Nat) (e : Entry) (busy qwait : Nat) (done : Bool) (b : Block) : Block :=
  let t := e.d.tenant
  let b := tally p (some (homeOf h)) t (tallyRun busy qwait e.discard done) b
  bump (tnA t 0x300) busy (bump (tnA t 0x308) qwait (bump (tnA t (if done then 0x330 else 0x334)) 1 b))

/-- The ring's side of a settlement: applied when the ring's home Ward is the entry's own, sent there
otherwise; an entry of another instance's ring sends a SETL item (R255), unless that instance has been lost (R275). -/
def settleRing (p : Params) (h : Nat) (e : Entry) (st : TState) (status : Status) (b : Block) : Block :=
  match e.d.rinst with
  | some i =>
    if reachable p b i ∧ e.cut = 0 then
      sendFor h (mkItem p b 0x02 i e.d.tenant (setlArgs (wordOf p b h) status e.d.ring) []) b
    else updEnt h (fun e => { e with noticed := true }) b
  | none =>
    if rHome (rng b e.d.ring) = homeOf h then
      ringSettle p e.d.ring e.d.subid e.d.step st status e.discard (updEnt h (fun e => { e with noticed := true }) b)
    else xsend (some (homeOf h)) 16 (.toRing (wordOf p b h) e.d.ring e.d.subid e.d.step st status e.discard) b

/-- WD_EDGE_SPILL_BASE. -/
def spillBase (p : Params) (b : Block) (w : Nat) : Nat := (rd p b (wA w 0 0x0C8)).toNat * 2 ^ 32 + (rd p b (wA w 0 0x0C4)).toNat

/-- The spilled words of an entry are asked for, in the 256-byte blocks of the Ward's MP (R61, R62). -/
def refetch (p : Params) (h : Nat) (b : Block) : Block :=
  let e := ent b h
  forEach (List.range (cdiv (4 * e.succ.length) 256)) (fun i c =>
    mpR p (homeOf h) (spillBase p c (homeOf h) + h % 2048 * 16384 + 256 * i) e.d.tenant e.d.be c) b

/-- An entry settles (Table 2.7): state and status; `rel` says that no port holds it (R54); `run` gives
busy and queue-wait time of an entry that ran; `lg` is its error-log record, for FAILED (R65). -/
def settle (p : Params) (h : Nat) (st : TState) (status : Status) (root : Option Word32) (rel : Bool)
    (run : Option (Nat × Nat)) (stats : Option (BitVec 256)) (aux : Word32) (b : Block) : Block :=
  let e := ent b h
  let w := homeOf h
  let done := decide (st = .done)
  let b := updEnt h (fun e => { e with
    st := st, status := status, root := root, guardWait := none, released := e.released || rel, place := .none }) b
  let b := when e.retire (bump (wc32 w 14) 1) (bump (wc64 w 1) 1 b)
  let b := when (e.spilled && decide (e.st = .pending)) (refetch p h) b
  let b := settleSlots w e done b
  let b := trTask p (.ward w) 0x14 e.d status.toNat (taskWord p none e.gen h) b
  let b := when (decide (st = .failed) && e.d.cq.isNone) (fun c => logRec p (entryLog p c h status aux) c) b
  let b := when (!e.discard) (settleSignals p h e done) b
  let b := unstage p h b
  let b := match run with
    | some x => settleTally p h e x.1 x.2 done (updClk (fun c => { c with cmpNow := c.cmpNow ++ [h] }) b)
    | none => b
  let b := when e.d.watch (settleWatch p h status stats) b
  let b := closeOwned (fun o => o = .task (wordOf p b h)) b
  settleRing p h e st status b

/-! ## Cancel (R103) -/

/-- The statuses that are NACKs: NACK_FULL, NACK_CLOSED, NACK_BROKEN and STORM, the NACK_FULL of a storm (Tables 5.5,
6.4; DEDUCED, log entry 22). -/
def isNack (st : Status) : Bool := decide (st = 0x07) || decide (st = 0x08) || decide (st = 0x09) || decide (st = 0x15)

/-- A NACK returned to a sender of the port's Ward adds to WD_CNT.NACKED (Table 11.1). -/
def bumpNack (p : Params) (n : Nat) (st : Status) (b : Block) : Block :=
  when (isNack st) (bump (wc32 (portWard p n) 6) 1) b

/-- A part answered at its sending port. The contribution ends with the ACK of its last part, with the refusal of a first
part before any part of it was accepted, and with an answer that says that the queue is closed or has failed (R188). NACK_FULL answers are counted towards RETRY_HI, since a combining queue has no receiving port that
could close a cycle (R180, R187, R188). -/
def partDone (p : Params) (n : Nat) (tag : BitVec 16) (st : Status) (b : Block) : Block :=
  let q0 := prt b n
  match q0.parts.find? (fun x => x.tag = tag) with
  | none => b
  | some x =>
    let w := portWard p n
    let mine := fun (c : OpenContrib) => decide (c.qid = x.qid) && decide (c.inst = x.inst)
    let again := (q0.parts.erase x).any (fun y => y.first && decide (y.qid = x.qid) && decide (y.inst = x.inst))
    let opened := q0.contribs.any (fun c => mine c && c.acc)
    let ended := decide (st = 0) && x.final || decide (st = 0x08 ∨ st = 0x09 ∨ st = 0x10)
      || decide (st ≠ 0) && x.first && !opened && !again
    let r := if st = 0x07 then (prt b n).cretry + 1 else if st = 0 then 0 else (prt b n).cretry
    let b := updPort n (fun q => { q with
      parts := q.parts.erase x, cretry := r,
      contribs := if ended then q.contribs.filter (fun c => !mine c)
        else q.contribs.map (fun c => if mine c then { c with acc := c.acc || decide (st = 0) } else c) }) b
    when (decide (st = 0x07) && decide (r = rd1 p b (wA w 0 0x0D4) 0 16)) (bump (wc32 w 7) 1) (bumpNack p n st b)

/-- The answer to a part, from its holder's Ward (R188, R357). -/
def answerPart (p : Params) (w n : Nat) (tag : BitVec 16) (st : Status) (result : Nat) (b : Block) : Block :=
  let b := if w = portWard p n then partDone p n tag st b else b
  answerTo p (some w) n (ansBeat tag st 2 (BitVec.ofNat 32 result) 0 0) b

/-- Parts of a queue that wait in the input buffer are answered and dropped (R200, R201). -/
def dropParts (p : Params) (w q : Nat) (st : Status) (b : Block) : Block :=
  let l := Tbl.get [] b.cbParts w
  let mine := fun (x : Part) => decide (fld x.qid 0 6 = q)
  let b := { b with cbParts := Tbl.set [] b.cbParts w (l.filter (fun x => !mine x)) }
  forEach (l.filter mine) (fun x c => match x.inst with
    | none => answerPart p w x.port x.tag st 0 c
    | some i => if reachable p c i then
        sendItem (some w) (mkItem p c 0x20 i x.tenant (partAns x.port x.qid x.off st 0) []) c else c) b

/-- A combining queue leaves the store with its entry's settlement; FAILED keeps its number until the entry
is freed, and D1 to D7 keep their values (R199, R200, R204). -/
def cqSettle (p : Params) (w q : Nat) (failed : Bool) (status : Status) (b : Block) : Block :=
  let b := updCQ w q (fun c => { c with failed := failed, status := status, cells := [], outBuf := [] }) b
  dropParts p w q (if failed then 0x09 else 0x08) (watchDrop p 1 (w * 64 + q) b)

/-- A queue's ID (R183). -/
def qidOf (w q : Nat) (c : CQ) : Nat := c.gen % 16 * 2 ^ 12 + w * 2 ^ 6 + q

/-- The record of a failed queue entry (R199). -/
def cqLog (p : Params) (b : Block) (w q : Nat) (st : Status) (aux : Word32) : LogRec :=
  let c := cqu b w q
  { entryLog p b c.entry st aux with opid := qidOf w q c, aux := aux }

/-- The status with which the drain ends: an uncorrectable cell before a write fault (R199). -/
def drainStatus (c : CQ) : Status := if c.eccErr then 0x05 else if c.wrErr then 0x06 else 0

/-- The queue's entry settles after the last response (R195, R199, R201); an unsealed entry stays PENDING until its seal
(R41, R48, R182). -/
def drainSettle (p : Params) (w q : Nat) (b : Block) : Block :=
  let c := cqu b w q
  let h := c.entry
  let st := drainStatus c
  let b0 := updEnt h (fun e => { e with tumbler := 0 }) b
  if !(ent b h).isSealed then updCQ w q (fun c => { c with drainOver := true }) b
  else if c.cancelLate then cqSettle p w q false 0x04 (settle p h .cancelled 0x04 none true none none 0 b0)
  else if st = 0 then cqSettle p w q false 0 (settle p h .done 0 none true none none 0 b0)
  else
    let b0 := logRec p (cqLog p b0 w q st 0) b0
    cqSettle p w q true st (settle p h .failed st (some (wordOf p b0 h)) true none none 0 b0)

/-- A cancel applied to a task at its home Ward (R103). A queue entry is discarded with its queue
(R201), unless its release has been committed: then it settles CANCELLED when the drain ends. -/
def cancelEntry (p : Params) (h : Nat) (b : Block) : Block :=
  let e := ent b h
  let w := homeOf h
  match e.st with
  | .pending =>
    match e.d.cq with
    | some q =>
      if (cqu b w q).st = .draining ∧ ¬ (cqu b w q).drainOver then updCQ w q (fun c => { c with cancelLate := true }) b
      else
        let b := settle p h .cancelled 0x04 none true none none 0 (updEnt h (fun e => { e with tumbler := 0 }) b)
        cqSettle p w q false 0x04 b
    | none => settle p h .cancelled 0x04 none (portless e) none none 0 b
  | .ready =>
    match e.place with
    | .none => settle p h .cancelled 0x04 none (portless e) none none 0 b
    | _ => settle p h .cancelled 0x04 none false none none 0 (xsend (some w) 16 (.withdraw h e.gen) b)
  | .placed | .preloaded =>
    match e.port with
    | some n =>
      if portWard p n = w then settle p h .cancelled 0x04 none false none none 0 (unqueue p n h e.gen b)
      else xsend (some w) 16 (.unload h e.gen n) b
    | none => b
  | _ => voidW w b

/-! ## Readiness (R55, R70 to R72) -/

/-- An IN or OUT guard passes (Table 2.9). -/
def guardPass (b : Block) (w : Nat) (g : Nat × Nat) : Bool :=
  let s := slt b w g.2
  if g.1 = 1 then s.f && !s.c else if g.1 = 2 then !s.f && !s.c else true

/-- The entry becomes READY: its READY trace entry; spilled successor words are fetched back (R61). -/
def makeReady (p : Params) (h : Nat) (b : Block) : Block :=
  let e := ent b h
  let w := homeOf h
  let b := updEnt h (fun e => { e with st := .ready, readyAt := b.clk.fclk, guardWait := none }) b
  let b := trTask p (.ward w) 0x10 e.d 0 (taskWord p none e.gen h) b
  when e.spilled (refetch p h) b

/-- Every guarded slot is claimed (Table 2.9, ENFORCE). -/
def claimSlots (w : Nat) (e : Entry) (b : Block) : Block :=
  forEach (guardsOf e.d) (fun g c => if g.1 = 3 then c else updSlot w g.2 (fun s => { s with c := true }) c) b

/-- The guards of an entry whose tumbler is zero, under the mode recorded in it (Table 2.9). -/
def guardStep (p : Params) (h : Nat) (b : Block) : Block :=
  let e := ent b h
  let w := homeOf h
  if e.d.mode = 2 then
    if (guardsOf e.d).all (guardPass b w) then
      makeReady p h (updEnt h (fun e => { e with claimed := true }) (claimSlots w e b))
    else updEnt h (fun e => { e with guardWait := some (e.guardWait.getD (nextSeq b)) }) (tookSeq b)
  else if e.d.mode = 1 then
    makeReady p h (updEnt h (fun e => { e with saved := (guardsOf e.d).map (fun g => ((slt b w g.2).f, (slt b w g.2).fillgen)) }) b)
  else makeReady p h b

/-- The examination of R55: a sealed PENDING entry whose tumbler is zero becomes READY, DONE when it is
a JOIN, or FAILED when an IDX guard finds V = 0 (R72). -/
def examine (p : Params) (h : Nat) (b : Block) : Block :=
  let e := ent b h
  let w := homeOf h
  if e.st = .pending ∧ e.isSealed ∧ e.tumbler = 0 ∧ e.guardWait = none ∧ e.d.cq = none then
    if e.d.isJoin then settle p h .done 0 none true none none 0 b
    else if (guardsOf e.d).any (fun g => g.1 = 3 ∧ !(slt b w g.2).v) then
      settle p h .failed 0x0C (some (wordOf p b h)) (portless e) none none 0 b
    else
      guardStep p h (updEnt h (fun e => { e with
        idx := e.d.guards.map (fun g => if fld g 14 2 = 3 then (slt b w (fld g 0 12)).value else 0) }) b)
  else b

/-- A handle put in ascending order into a list without repeats. -/
def insHandle (h : Nat) : List Nat → List Nat
  | [] => [h]
  | x :: l => if h < x then h :: x :: l else if h = x then x :: l else x :: insHandle h l

/-- The entry is to be examined at the end of the cycle. -/
def touch (h : Nat) (b : Block) : Block := updClk (fun c => { c with exam := insHandle h c.exam }) b

/-- Entries in guard wait at a Ward, in the order in which they began to wait (R71). -/
def guardWaiters (b : Block) (w : Nat) : List Nat :=
  let l := b.ents.filter (fun x => homeOf x.1 = w ∧ x.2.guardWait.isSome)
  (l.foldl (fun (acc : Tbl Nat) x => Tbl.ins acc (x.2.guardWait.getD 0 * 2 ^ 17 + x.1) x.1) []).map Prod.snd

/-- Entries in guard wait at a Ward, examined in order; each that passes claims its slots before the next
is looked at (R71). -/
def guardPassAll (p : Params) (w : Nat) (b : Block) : Block :=
  forEach (guardWaiters b w) (fun h c => when ((guardsOf (ent c h).d).all (guardPass c w)) (guardStep p h) c) b

/-- The end-of-cycle examination of every entry touched in the cycle (R55), after the slot updates of the cycle (R73)
and behind the entries that already wait on guards at those Wards (R71). -/
def drainExam (p : Params) (b : Block) : Block :=
  let b := slotRank b
  let l := b.clk.exam
  let ws := (l.map homeOf).eraseDups
  forEach l (examine p) (forEach ws (guardPassAll p) (updClk (fun c => { c with exam := [], cmpNow := [] }) b))

/-- The command is the last event of its cycle: the examination follows; otherwise it waits. -/
def endCycle (p : Params) (eoc : Bool) (b : Block) : Block := when eoc (drainExam p) b

end Sys2Proof.Machine
end

