-- ==== Sys2Proof/Machine/Tasks.lean ====
section
/-! DEFINITION. Task-table events: decrements and notices, seals, guard wait, forwarded settlements,
successor delivery, freeing, quarantine, class limit, cancel (R48 to R73, R103). -/

namespace Sys2Proof.Machine

/-- Working copy of WD_IQ_CFG.STAGE (R86, R387). -/
def stageOn (b : Block) (w : Nat) : Bool := bitAt (Tbl.get 0x102 b.iqWork w) 8 && !b.boot.minimal

/-- Working copy of WD_IQ_CFG.DEPTH, 0 read as 1 and above 8 as 8. -/
def iqDepth (b : Block) (w : Nat) : Nat := clampNat 1 8 (fld (Tbl.get 0x102 b.iqWork w) 0 4)

/-- The entry asks for staging when it is eligible (R86); it asks once. -/
def wantStage (h : Nat) (b : Block) : Block :=
  let e := ent b h
  when (decide (e.st = .pending) && e.isSealed && !e.d.isJoin && e.d.cq.isNone && decide (e.tumbler = 1)
      && stageOn b (homeOf h) && !e.stageTried) (updEnt h (fun e => { e with stageReq := true })) b

/-- A discarded item: counted in WD_CNT.STALE of the Ward it names; V = 0 is skipped (R51). -/
def staleItem (p : Params) (word : Word32) (b : Block) : Block :=
  when (word.getLsbD 31 && decide (homeOf (wHandle word) < p.nw)) (bump (wc32 (homeOf (wHandle word)) 1) 1) b

/-- An excess decrement (R56): counted, one BAD_COMMAND record naming the entry. -/
def excess (p : Params) (h : Nat) (b : Block) : Block :=
  logRec p (entryLog p b h 0x13 0) (bump (wc32 (homeOf h) 2) 1 b)

/-- One tumbler item at its holder (R51, R56, R63, R64): kind 0 decrement, 1 failure, 2 cancel. A notice that reaches an
unsealed PENDING entry settles it before its seal (DESIGN CHOICE, log entry 46). -/
def tumblerItem (p : Params) (kind : Nat) (word root : Word32) (st : Status) (b : Block) : Block :=
  match findEntry p b word with
  | none => staleItem p word b
  | some h =>
    let e := ent b h
    if e.tumbler = 0 ∨ ¬ (e.st = .pending ∨ e.st = .failed ∨ e.st = .cancelled) then excess p h b
    else
      let b := updEnt h (fun e => { e with tumbler := e.tumbler - 1 }) b
      if e.st = .pending then
        if kind = 0 then touch h (wantStage h b)
        else if kind = 1 then settle p h .failed st (some root) (portless e) none none 0 b
        else settle p h .cancelled 0x04 none (portless e) none none 0 b
      else b

/-- The item on its way from a local sender. -/
def isSucc (kind : Nat) (word root : Word32) : XItem → Bool
  | .succ _ w k r _ => decide (w = word) && decide (k = kind) && (decide (kind ≠ 1) || decide (r = root))
  | _ => false

/-- A tumbler item sampled: from inside the instance it is the one on its way, and its sender learns that
it was sampled (R60 condition 4); from a Hinge it lowers the entry's import count (R255), and an item whose TENANT is not
enabled here is discarded (R263). -/
def sampleItem (p : Params) (kind : Nat) (word root : Word32) (src : Option Via) (b : Block) : Block :=
  let w := homeOf (wHandle word)
  match src with
  | none =>
    match xfind b (isSucc kind word root) with
    | some (.succ o _ _ _ _) =>
      let b := updEnt o (fun e => { e with owed := e.owed - 1 }) (xdrop (isSucc kind word root) b)
      tumblerItem p kind word root 0x02 (when (decide (homeOf o ≠ w)) (xrx w 16) b)
    | _ => b
  | some v =>
    rxItem p v.hinge 1 true (fun b =>
      let b := xrx w 16 b
      if !(ten b v.tenant).en then bump (wc32 w 1) 1 b
      else match findEntry p b word with
        | none => staleItem p word b
        | some h => tumblerItem p kind word root 0x02 (updFed w (fun t => { t with imports := t.imports.map (fun x =>
            if x.1 = h ∧ x.2.1 = v.inst then (x.1, x.2.1, x.2.2 - 1) else x) }) b)) b

/-- DECREMENT (R51, R55, R56). -/
def actDecrement (word : BitVec 32) (src : Option Via) (eoc : Bool) (s : State) : Outcome :=
  s.runW (homeOf (wHandle word)) (fun p b => endCycle p eoc (sampleItem p 0 word 0 src b))

/-- FAILURE_NOTICE (R63). -/
def actFailureNotice (word root : BitVec 32) (src : Option Via) (eoc : Bool) (s : State) : Outcome :=
  s.runW (homeOf (wHandle word)) (fun p b => endCycle p eoc (sampleItem p 1 word root src b))

/-- CANCEL_NOTICE (R64). -/
def actCancelNotice (word : BitVec 32) (src : Option Via) (eoc : Bool) (s : State) : Outcome :=
  s.runW (homeOf (wHandle word)) (fun p b => endCycle p eoc (sampleItem p 2 word 0 src b))

/-- The submission of an entry has been ended early (R140). -/
def subEnded (b : Block) (d : TaskDesc) : Bool :=
  match subOf b d.ring d.subid with
  | some s => s.early.isSome
  | none => false

/-- An entry is sealed: cancelled when its submission has ended (R140), examined otherwise (R48). One that has settled
before its seal sends its items from now on (R59); a queue entry whose drain has ended settles (R182, R195). -/
def sealEntry (p : Params) (h : Nat) (b : Block) : Block :=
  let b := updEnt h (fun e => { e with isSealed := true }) b
  if (ent b h).st ≠ .pending then b
  else if (ent b h).d.rinst.isNone && subEnded b (ent b h).d then cancelEntry p h b
  else match (ent b h).d.cq with
    | some q => when (cqu b (homeOf h) q).drainOver (drainSettle p (homeOf h) q) b
    | none => touch h (wantStage h b)

/-- The unsealed entries of a segment at a Ward, settled ones too. -/
def unsealedOf (b : Block) (w ring seg : Nat) (inst : Option Nat) : List Nat :=
  (b.ents.filter (fun x => homeOf x.1 = w ∧ x.2.d.ring = ring ∧ x.2.d.seg = seg ∧ x.2.d.rinst = inst
    ∧ x.2.st ≠ .free ∧ !x.2.isSealed)).map Prod.fst

/-- A seal on its way to Ward `w`. -/
def isSeal (w ring seg : Nat) : XItem → Bool
  | .segSeal v r g => decide (v = w) && decide (r = ring) && decide (g = seg)
  | _ => false

/-- A segment reserved here for another instance is forgotten when none of its entries awaits its seal (R253). -/
def dropRemSeg (inst bank : Nat) (b : Block) : Block :=
  { b with remSegs := b.remSegs.filter (fun g => !(decide (g.inst = inst) && decide (g.bank = bank)
      && g.handles.all (fun x => (ent b x.2).isSealed || decide ((ent b x.2).st = .free)))) }

/-- The XCTL SEAL of a segment has been handed over. -/
def sealHanded (inst bank : Nat) (b : Block) : Block :=
  { b with remSegs := b.remSegs.map (fun g => if g.inst = inst ∧ g.bank = bank then { g with sealRx := true } else g) }

/-- SEAL (R48): a seal of this instance's Keeper is the item on its way; one of another instance names its map bank as `seg`
(R253): the one XCTL SEAL item goes to every Ward that holds entries of the segment, and is counted once. -/
def actSeal (w ring seg : Nat) (src : Option Via) (eoc : Bool) (s : State) : Outcome :=
  s.runW w (fun p b =>
    match src with
    | some v =>
      let act := fun (b : Block) =>
        let b := trForm p (.ward w) ⟨b.clk.ts, 0x20, .ward w, 0xFFFF, 0xFFFF, v.tenant, 0, BitVec.ofNat 32 ring⟩ (xrx w 16 b)
        dropRemSeg v.inst seg (forEach (unsealedOf b w ring seg (some v.inst)) (sealEntry p) b)
      endCycle p eoc (match b.remSegs.find? (fun g => g.inst = v.inst ∧ g.bank = seg) with
        | some g => if g.sealRx then act b else rxItem p v.hinge 1 true (fun b => act (sealHanded v.inst seg b)) b
        | none => rxItem p v.hinge 1 true act b)
    | none =>
      match xfind b (isSeal w ring seg) with
      | none => b
      | some _ =>
        let b := xrx w 16 (xdrop (isSeal w ring seg) b)
        let b := trRing p (.ward w) 0x20 ring 0 (BitVec.ofNat 32 ring) b
        endCycle p eoc (forEach (unsealedOf b w ring seg none) (sealEntry p) b))

/-- GUARD_WAIT_PASS (R71). -/
def actGuardWaitPass (w : Nat) (s : State) : Outcome := s.runW w (fun p b => guardPassAll p w b)

/-- The home Ward applies a completion: the status of R277, an uncorrectable word in the entry, the hazard
of Table 2.10, or the CANCELLED that a port's Ward reports (R57, R103). The completion of an entry that has settled is
void (R31) and releases it (R54). -/
def homeCmp (p : Params) (h : Nat) (status : Status) (aux : Word32) (busy qwait : Nat) (stats : Option (BitVec 256))
    (b : Block) : Block :=
  let e := ent b h
  if ¬ live e.st then when (decide (status ≠ 0x04)) (fun b => updEnt h (fun e => { e with released := true }) (voidW (homeOf h) b)) b
  else if status = 0x04 then settle p h .cancelled 0x04 none false none none 0 b
  else
    let b := updEnt h (fun e => { e with ran := true, st := .running }) b
    let fin : Status := if e.faulted then 0x05 else if status = 0 then (if hazard b (homeOf h) e then 0x0D else 0) else status
    if fin = 0 then settle p h .done 0 none true (some (busy, qwait)) stats 0 b
    else settle p h .failed fin (some (wordOf p b h)) true (some (busy, qwait)) stats (if fin = status then aux else 0) b

/-- A forwarded settlement of the port's Ward. -/
def isSettle (word : Word32) : XItem → Bool
  | .settle w _ _ _ _ _ => decide (w = word)
  | _ => false

/-- A settlement on its way to the ring's home Ward. -/
def isToRing (word : Word32) : XItem → Bool
  | .toRing w _ _ _ _ _ _ => decide (w = word)
  | _ => false

/-- SETTLEMENT_NOTICE (R57, R60 condition 5). -/
def actSettlementNotice (kind : NoticeKind) (word : BitVec 32) (eoc : Bool) (s : State) : Outcome :=
  s.runK (fun p b =>
    match kind with
    | .fromPort =>
      match xfind b (isSettle word) with
      | some (.settle _ st aux busy qwait stats) =>
        let b := xrx (homeOf (wHandle word)) 16 (xdrop (isSettle word) b)
        match findEntry p b word with
        | some h => endCycle p eoc (homeCmp p h st aux busy qwait stats b)
        | none => staleItem p word b
      | _ => b
    | .toRing =>
      match xfind b (isToRing word) with
      | some (.toRing _ r subid step st status disc) =>
        let b := xrx (rHome (rng b r)) 16 (xdrop (isToRing word) b)
        let b := match findEntry p b word with
          | some h => updEnt h (fun e => { e with noticed := true }) b
          | none => b
        endCycle p eoc (ringSettle p r subid step st status disc b)
      | _ => b)

/-- A notice of the issue proxy of an entry. -/
def isProxy (word : Word32) : XItem → Bool
  | .proxy w _ => decide (w = word)
  | _ => false

/-- The entry takes the state its proxy reports (R57), in the order of Table 1.6 (R33). -/
def proxyState (kind : ProxyKind) (h : Nat) (b : Block) : Block :=
  updEnt h (fun e =>
    match kind, e.st with
    | .placed, .ready => { e with st := .placed, place := .none }
    | .preloaded, .placed => { e with st := .preloaded }
    | .running, .placed => { e with st := .running, ran := true }
    | .running, .preloaded => { e with st := .running, ran := true }
    | _, _ => e) b

/-- ISSUE_PROXY_NOTICE (R57): the notices of a proxy arrive in the order in which they were sent (R33). -/
def actIssueProxyNotice (kind : ProxyKind) (word : BitVec 32) (s : State) : Outcome :=
  s.runW (homeOf (wHandle word)) (fun p b =>
    match xfind b (isProxy word) with
    | some (.proxy _ k) =>
      if k = kind then
        let b := xrx (homeOf (wHandle word)) 16 (xdrop (isProxy word) b)
        match findEntry p b word with
        | some h => proxyState kind h b
        | none => b
      else b
    | _ => b)

/-- A task's relay messages are still in a relay buffer (R59, R179). -/
def relayBusy (b : Block) (word : Word32) : Bool :=
  b.chans.any (fun x => match x.2 with
    | some k => match k.relay with
      | some m => decide (m.task = word)
      | none => false
    | none => false)

/-- One item to one successor (R59, R66): local ones directly or through the crossbar, others through a
Hinge; an item into an unreachable instance is stranded at once, and an entry that lost its ring's instance sends nothing
into it (R275). -/
def deliverOne (p : Params) (h : Nat) (word : Word32) (b : Block) : Block :=
  let e := ent b h
  let kind := match e.st with | .done => 0 | .failed => 1 | _ => 2
  let root := e.root.getD (wordOf p b h)
  let i := fld word 17 6
  if ¬ word.getLsbD 31 ∨ e.cut.getLsbD i then b
  else if i = ownInst p b then
    let b := updEnt h (fun e => { e with owed := e.owed + 1 }) b
    let it := XItem.succ h word kind root e.status
    if homeOf (wHandle word) = homeOf h then xput it b else xsend (some (homeOf h)) 16 it b
  else if reachable p b i then
    let b := updEnt h (fun e => { e with owed := e.owed + 1 }) b
    sendFor h (mkItem p b 0x01 i e.d.tenant (decArgs word kind root e.status) []) b
  else bump (hc32 (rte b i).hinge 3) 1 b

/-- SUCCESSOR_DELIVERY (R59): waits for the links of its segment (R46), for relay results of a DONE task with RELAY, and
for a refetch of spilled words (R62). -/
def actSuccessorDelivery (handle : Nat) (s : State) : Outcome :=
  s.runW (homeOf handle) (fun p b =>
    let e := ent b handle
    if (e.st = .done ∨ e.st = .failed ∨ e.st = .cancelled) ∧ ¬ e.sent ∧ e.isSealed ∧ ¬ e.spilled
        ∧ ¬ (e.st = .done ∧ e.d.relay ∧ relayBusy b (wordOf p b handle)) then
      forEach e.succ (deliverOne p handle) (updEnt handle (fun e => { e with sent := true }) b)
    else b)

/-- The conditions of R60 (`sent`: an entry without successors has nothing to send once its segment is linked). -/
def mayFree (e : Entry) : Bool :=
  (decide (e.st = .done) || decide (e.st = .failed) || decide (e.st = .cancelled)) && decide (e.tumbler = 0)
    && e.released && e.isSealed && (e.sent || e.succ.isEmpty) && decide (e.owed = 0) && e.noticed

/-- A queue number enters quarantine with its entry's freeing (R200). -/
def freeQueue (h : Nat) (e : Entry) (b : Block) : Block :=
  match e.d.cq with
  | some q => updCQ (homeOf h) q (fun c => { c with st := .quarantine, failed := false, freedAt := some b.clk.fclk }) b
  | none => b

/-- No CAN of the entry is outstanding at a port (R54). -/
def noCan (b : Block) (h gen : Nat) : Bool :=
  b.ports.all (fun x => x.2.cans.all (fun c => !(decide (fld c 0 17 = h) && decide (fld c 17 8 = gen % 256))))

/-- ENTRY_FREE (R60, R52): the entry joins the tail of the free queue in quarantine; a retired one stays
as it settled (R286); its federation records are freed (R255). -/
def actEntryFree (handle : Nat) (s : State) : Outcome :=
  s.runW (homeOf handle) (fun _ b =>
    let e := ent b handle
    let w := homeOf handle
    if mayFree e ∧ ¬ e.retire ∧ noCan b handle e.gen then
      let b := freeQueue handle e b
      let b := updFed w (fun t => { t with imports := t.imports.filter (fun x => x.1 ≠ handle) }) b
      let b := updEnt handle (fun e => { gen := e.gen, freedAt := some b.clk.fclk }) b
      { b with wq := Tbl.upd {} b.wq w (fun q => { q with freed := q.freed ++ [handle % 2048] }) }
    else b)

/-- QUARANTINE_END (R52). -/
def actQuarantineEnd (handle : Nat) (s : State) : Outcome :=
  s.runW (homeOf handle) (fun _ b =>
    match (ent b handle).freedAt with
    | some f => if f + 256 ≤ b.clk.fclk then updEnt handle (fun e => { e with freedAt := none }) b else b
    | none => b)

/-! ## The edge cache (R61, R62) -/

/-- Lines of a list of successors (R61). -/
def linesFor (n : Nat) : Nat := cdiv n 15

/-- Lines in use at a Ward: of entries that have still to send their items, and of segments before their links. -/
def linesUsed (b : Block) (w : Nat) : Nat :=
  (b.ents.map (fun x => if homeOf x.1 = w ∧ !x.2.sent ∧ !x.2.spilled then linesFor x.2.succ.length else 0)).sum
  + (b.segs.map (fun x => match x.2 with
    | some g => if (rng b x.1).walk.mode = .remote ∨ (rng b x.1).walk.mode = .pass3 then Tbl.get 0 g.lines w else 0
    | none => 0)).sum

/-- Words spilled as a plain array. -/
def spillWords (l : List Word32) : Nat := ((l.zipIdx).map (fun x => x.1.toNat * 2 ^ (32 * x.2))).sum

/-- The PENDING entry whose lines go first: the highest tumbler, the lowest number (R61). -/
def evictee (b : Block) (w : Nat) : Option (Nat × Entry) :=
  (b.ents.filter (fun x => homeOf x.1 = w ∧ x.2.st = .pending ∧ x.2.succ ≠ [] ∧ !x.2.spilled)).foldl (fun a x => match a with
    | none => some x
    | some y => if y.2.tumbler < x.2.tumbler then some x else some y) none

/-- The words of an entry written to its spill area. -/
def spillOut (p : Params) (h : Nat) (b : Block) : Block :=
  let e := ent b h
  mpW p (homeOf h) (spillBase p b (homeOf h) + h % 2048 * 16384) (4 * e.succ.length) (spillWords e.succ) e.d.tenant e.d.be
    (updEnt h (fun e => { e with spilled := true }) b)

/-- Lines evicted until `need` more fit into the 2,048; no list is evicted where WD_EDGE_SPILL_BASE is 0. -/
def evict (p : Params) (w need : Nat) : Nat → Block → Block
  | 0, b => b
  | k + 1, b =>
    if linesUsed b w + need ≤ 2048 ∨ spillBase p b w = 0 then b
    else match evictee b w with
      | none => b
      | some x => evict p w need k (spillOut p x.1 b)

/-- A successor list written to its entry's edge cache, room being made for it; where none can be made it goes to the
spill area at once (DESIGN CHOICE, log entry 46). -/
def putLinks (p : Params) (h : Nat) (ws : List Word32) (b : Block) : Block :=
  let w := homeOf h
  let b := evict p w (linesFor ws.length) b.ents.length (updEnt h (fun e => { e with succ := [], spilled := false }) b)
  let b := updEnt h (fun e => { e with succ := ws }) b
  when (decide (spillBase p b w ≠ 0) && decide (2048 < linesUsed b w) && decide (ws ≠ [])) (spillOut p h) b

/-- EDGE_REFETCH_DONE (R61): the words take free lines, evicting others where there are too few; while no room can be
made they are not yet in the cache. -/
def actEdgeRefetchDone (handle : Nat) (s : State) : Outcome :=
  s.runW (homeOf handle) (fun p b =>
    let e := ent b handle
    let n := linesFor e.succ.length
    if e.spilled ∧ e.st ≠ .pending ∧ e.st ≠ .free then
      let b := evict p (homeOf handle) n b.ents.length b
      when (decide (linesUsed b (homeOf handle) + n ≤ 2048)) (updEnt handle (fun e => { e with spilled := false })) b
    else b)

/-- TASK_CLASS_TIMEOUT (R67): one record with the overrun flag; the task stays RUNNING. -/
def actTaskClassTimeout (handle : Nat) (s : State) : Outcome :=
  s.runW (homeOf handle) (fun p b =>
    let e := ent b handle
    if e.tmoLimit ≠ 0 ∧ e.tmoLimit ≤ b.clk.fclk ∧ ¬ e.overrun then
      if e.st = .running then
        let b := updEnt handle (fun e => { e with overrun := true }) b
        logRec p (entryLog p b handle 0x03 0) b
      else when (decide (e.tmoLimit = b.clk.fclk)) (voidW (homeOf handle)) b
    else b)

/-- A cancel of a task on its way to its home Ward. -/
def isCancel (h : Nat) : XItem → Bool
  | .cancelTask k _ => decide (k = h)
  | _ => false

/-- TASK_CANCEL (R103): one on its way names the task's generation too. -/
def actTaskCancel (handle : Nat) (s : State) : Outcome :=
  s.runW (homeOf handle) (fun p b =>
    match xfind b (isCancel handle) with
    | some (.cancelTask _ g) =>
      let b := xrx (homeOf handle) 16 (xdrop (isCancel handle) b)
      if (ent b handle).st = .free ∨ (ent b handle).gen ≠ g then bump (wc32 (homeOf handle) 1) 1 b else cancelEntry p handle b
    | _ => if (ent b handle).st = .free then b else cancelEntry p handle b)

end Sys2Proof.Machine
end

