-- ==== Sys2Proof/Machine/Place.lean ====
section
/-! DEFINITION. Arbitration, placement, staging and the power governor (R76 to R97, R103 to R107). -/

namespace Sys2Proof.Machine

/-- The deadbolt lets new work start (R295). -/
def runState (b : Block) : Bool := decide (b.dbolt.state = .run) || b.dbolt.quiesceDue

/-! ## Room and the walk -/

/-- The port's bit in WD_PORT_EN0 or WD_PORT_EN1. -/
def portEn (p : Params) (b : Block) (n : Nat) : Bool :=
  bitAt (rd p b (wA (portWard p n) 0 (0x040 + 4 * (portIn p n / 32)))) (portIn p n % 32)

/-- OCC(p) (R81). -/
def occ (b : Block) (n : Nat) : Nat := (Tbl.get [] b.occ n).length
/-- OCC(p) one higher. -/
def occUp (n h : Nat) (b : Block) : Block := { b with occ := Tbl.upd [] b.occ n (· ++ [h]) }
/-- OCC(p) one lower. -/
def occDown (n h : Nat) (b : Block) : Block := { b with occ := Tbl.upd [] b.occ n (·.erase h) }

/-- Room at a port (Table 3.1). -/
def room (p : Params) (b : Block) (n : Nat) : Bool :=
  let w := portWard p n
  let q := prt b n
  decide (w < p.nw) && !fenced b w && portEn p b n && q.online && !q.inReset && decide (occ b n < iqDepth b w)

/-- The ranks of a class copy: rank 0 up to the last before the first with V = 0 (R76). -/
def ranksOf (c : PClassCopy) : List (Nat × Rank) :=
  ((List.range 8).map (fun i => (i, Tbl.get {} c.ranks i))).takeWhile (fun x => x.2.v)

/-- The ports of a rank in ascending order (R76, R82). -/
def rankPorts (p : Params) (k : Rank) : List Nat := (bitsOf k.mask p.ne).map (fun n => k.ward * p.ne + n)

/-- The placement walk of R82 over the working copy: the first qualifying port in the first rank that has
one, with its rank. A rank that holds an uncorrectable word has no room (Table 10.4). -/
def walkClass (p : Params) (b : Block) (c : Nat) (ok : Nat → Bool) : Option (Nat × Nat) :=
  (ranksOf (pcl b c).work).findSome? (fun x =>
    if x.1 ∈ (pcl b c).bad then none else ((rankPorts p x.2).find? ok).map (fun n => (n, x.1)))

/-- A class is defined (R77). -/
def classDefined (p : Params) (c : PClassCopy) : Bool :=
  let k := Tbl.get ({} : Rank) c.ranks 0
  k.v && decide (k.ward < p.nw) && decide (bitsOf k.mask p.ne ≠ [])

/-- The home Ward of a class: the Ward of the lowest rank on an unfenced Ward (R34, R58). -/
def classHome (p : Params) (b : Block) (c : PClassCopy) : Option Nat :=
  if classDefined p c then ((ranksOf c).find? (fun x => x.2.ward < p.nw ∧ !fenced b x.2.ward)).map (fun x => x.2.ward) else none

/-! ## Governor (R90 to R97) -/

/-- The supply domain of a port: WD_PDOM_MAP, 4 bits per port (R90). -/
def domOf (p : Params) (b : Block) (n : Nat) : Nat :=
  rdf p b (wA (portWard p n) 0 (0x090 + 4 * (portIn p n / 8))) (4 * (portIn p n % 8)) 4

/-- E(e) of R92, with the trim in force in this window. -/
def energyEst (p : Params) (b : Block) (e : Nat) : Nat :=
  let t : Int := max (-100) (min 100 (Tbl.get (0 : BitVec 8) b.gov.trim e).toInt)
  cdiv (p.eclFact.getD e 0 * (100 + t).toNat) 100

/-- A number within a limit; a removed limit is satisfied (R94). -/
def within (lim : Option Nat) (v : Nat) : Bool := match lim with | none => true | some l => decide (v ≤ l)

/-- Summed estimate of the reservations. -/
def resvSum (d : Dom) : Nat := (d.resv.map Resv.est).sum

/-- The first condition of R94, and the condition of R95 for a reservation. -/
def fits (d : Dom) (e : Nat) : Bool := within d.beff (d.n + d.resv.length + 1) && within d.leff (d.i + resvSum d + e)

/-- The solo condition of R94. -/
def solo (d : Dom) (e : Nat) : Bool :=
  decide (d.n = 0) && d.resv.isEmpty && decide (d.beff ≠ some 0) && (match d.leff with | some l => decide (l < e) | none => false)

/-- A permit (R94). -/
def permits (d : Dom) (e : Nat) : Bool := fits d e || solo d e

/-- Grants made in this fclk in a domain (R96). -/
def grantsNow (b : Block) (d : Nat) : Nat := if b.gov.grantedAt = b.clk.fclk then Tbl.get 0 b.gov.granted d else 0

/-- A grant counted against the 4 of its fclk. -/
def countGrant (d : Nat) (b : Block) : Block :=
  let base := if b.gov.grantedAt = b.clk.fclk then b.gov.granted else []
  { b with gov := { b.gov with granted := Tbl.upd 0 base d (· + 1), grantedAt := b.clk.fclk } }

/-- The permit of a request: charged, its delay counted (R94, R97), its decision sent to the port's Ward. -/
def grant (p : Params) (d : Nat) (g : GReq) (b : Block) : Block :=
  let e := energyEst p b (ent b g.handle).d.energy
  let late := b.clk.fclk - g.arrived
  let b := updDom d (fun x => { x with
    n := x.n + 1, i := x.i + e, q := x.q.erase g,
    dlyStarts := if late = 0 then x.dlyStarts else satAdd (2 ^ 32 - 1) x.dlyStarts 1,
    dlyCyc := (x.dlyCyc + late) % 2 ^ 64 }) b
  let b := updEnt g.handle (fun e => { e with place := .inFlight }) (countGrant d b)
  xsend none 16 (.pdec g.handle g.gen g.port (ent b g.handle).rank false) b

/-- The queue examined from its head: grants until a refusal or 4 in this fclk (R96). -/
def govExamine (p : Params) (d : Nat) : Nat → Block → Block
  | 0, b => b
  | k + 1, b =>
    match (dmn b d).q with
    | [] => b
    | g :: _ =>
      if grantsNow b d < 4 ∧ permits (dmn b d) (energyEst p b (ent b g.handle).d.energy) then govExamine p d k (grant p d g b)
      else b

/-- The order of a governor queue: LC first, then arrival, then home Ward (R96). -/
def govBefore (x y : GReq) : Bool :=
  if x.be ≠ y.be then !x.be
  else if x.arrived ≠ y.arrived then decide (x.arrived < y.arrived)
  else decide (homeOf x.handle < homeOf y.handle)

/-- A request put in its place. -/
def govIns (g : GReq) : List GReq → List GReq
  | [] => [g]
  | x :: l => if govBefore g x then g :: x :: l else x :: govIns g l

/-- A request joins its domain's queue, in the queue's order (R96). -/
def govArrive (p : Params) (h gen n : Nat) (b : Block) : Block :=
  let g : GReq := ⟨h, gen, n, (ent b h).d.be, b.clk.fclk, nextSeq b⟩
  updDom (domOf p b n) (fun x => { x with q := govIns g x.q }) (tookSeq b)

/-- A request that its domain did not grant in the cycle of its arrival is traced (R97, Table 11.4). -/
def govDelayed (p : Params) (d : Nat) (b : Block) : Block :=
  forEach ((dmn b d).q.filter (fun g => g.arrived = b.clk.fclk))
    (fun g c => trTask p .keeper 0x50 (ent c g.handle).d d (taskWord p (some g.port) g.gen g.handle) c) b

/-- The end of a cycle: the queues are examined after the requests of the cycle have joined them (R96). -/
def govCycle (p : Params) (b : Block) : Block :=
  forEach (b.gov.doms.map Prod.fst) (fun d c => govDelayed p d (when (runState c) (govExamine p d 4) c)) b

/-- GOVERNOR_REQUEST (R94, R96): the request joins its domain's queue. -/
def actGovernorRequest (handle : Nat) (s : State) : Outcome :=
  s.runK (fun p b =>
    match b.place.toGov.find? (fun x => x.1 = handle) with
    | none => b
    | some x => govArrive p x.1 x.2.1 x.2.2 { b with place := { b.place with toGov := b.place.toGov.erase x } })

/-- GOVERNOR_QUEUE_GRANT (R96). -/
def actGovernorQueueGrant (dom : Nat) (s : State) : Outcome :=
  s.runK (fun p b => when (runState b) (govExamine p dom 4) b)

/-- Effective limits of a window (R93): `t` is the throttle input; the shift value 7 permits no start. -/
def effLimits (d : Dom) (t : Bool) : Option Nat × Option Nat :=
  if d.bad then (some 1, none)
  else
    let sh := fun (v : Nat) => if v = 0 then none else some (if t then v / 2 ^ d.shift else v)
    if t ∧ d.shift = 7 then (some 0, sh d.limit) else (sh d.starts, sh d.limit)

/-- Reservations dropped newest first until both limits hold (R95). -/
def dropResv (d : Dom) : Nat → List Resv → List Resv
  | 0, l => l
  | k + 1, l =>
    if within d.beff l.length && within d.leff (l.map Resv.est).sum then l
    else match l with | [] => [] | _ :: r => dropResv d k r

/-- A domain at the start of a window. -/
def winDom (t : Bool) (d : Dom) : Dom :=
  let l := effLimits d t
  let d := { d with beff := l.1, leff := l.2, n := 0, i := 0 }
  { d with resv := dropResv d d.resv.length d.resv }

/-- A window may begin: at every timestamp that is a multiple of 80 (R91); every 80 tclk in a hold, and after a step or a
hold not before 80 tclk of the last (R269). -/
def windowDue (b : Block) : Bool :=
  let long := decide (b.gov.winStart + 160 ≤ b.clk.fclk)
  if b.clk.hold ≠ 0 then long
  else decide (b.clk.ts.toNat % 80 = 0) && (if b.gov.stepped then long else decide (b.gov.winTs ≠ some b.clk.ts))

/-- GOVERNOR_WINDOW_START (R91, R93, R95): `throttle` is the sampled PDOM_THROTTLE (R374). -/
def actGovernorWindowStart (throttle : BitVec 16) (s : State) : Outcome :=
  s.runK (fun p b =>
    if windowDue b then
      let b := { b with gov := { b.gov with
        winStart := b.clk.fclk
        winTs := some b.clk.ts
        stepped := decide (b.clk.hold ≠ 0)
        trim := (List.range 16).foldl (fun t e => Tbl.set 0 t e (BitVec.ofNat 8 (rdf p b (kA 4 (0x084 + 8 * e)) 0 8))) [] } }
      forEach (List.range 16) (fun d => updDom d (winDom (throttle.getLsbD d))) b
    else b)

/-! ## Arbiter (R105) -/

/-- READY tasks of a Ward that are not yet forwarded and not staged; a task whose staging request is outstanding or that
is staged is not among those that the arbiter forwards (R89), and is not counted in rdy(t, c) (DESIGN CHOICE, log
entry 46). -/
def rdyList (b : Block) (w : Nat) : List (Nat × Entry) :=
  b.ents.filter (fun x => homeOf x.1 = w ∧ x.2.st = .ready ∧ x.2.place = .none ∧ portless x.2)

/-- Requests of a Ward outstanding at the placement engine: on their way to it or held by it (R83). -/
def outReqs (b : Block) (w : Nat) : Nat :=
  b.xbar.countP (fun x => match x with
    | .preq h _ _ => homeOf h = w
    | .sreq h _ => homeOf h = w
    | _ => false)
  + b.place.reqs.countP (fun r => homeOf r.handle = w)

/-- Key of a Ward, tenant and class. -/
def tokKey (w t c : Nat) : Nat := (w * 256 + t) * 2 + c

/-- Share tokens held. -/
def tokens (b : Block) (w t c : Nat) : Nat := Tbl.get 0 b.arb.tok (tokKey w t c)

/-- The deficit round robin of R105 over the tenants `T`. -/
def dwrr (w : Nat) (T : List Nat) : Nat → Block → Nat × Block
  | 0, b => (0, b)
  | k + 1, b =>
    let t := Tbl.get 0 b.arb.ptr w
    let dk := w * 256 + t
    let next := fun (a : Arb) => { a with ptr := Tbl.set 0 a.ptr w ((t + 1) % 256) }
    if t ∈ T then
      let d0 := Tbl.get 0 b.arb.deficit dk
      let d := (if d0 = 0 then max (ten b t).weight 1 else d0) - 1
      let a := { b.arb with deficit := Tbl.set 0 b.arb.deficit dk d }
      (t, { b with arb := if d = 0 then next a else a })
    else dwrr w T k { b with arb := next { b.arb with deficit := Tbl.set 0 b.arb.deficit dk 0 } }

/-- The earliest READY task, lower entry number on a tie. -/
def earliest (l : List (Nat × Entry)) : Option (Nat × Entry) :=
  l.foldl (fun a x => match a with
    | none => some x
    | some y => if x.2.readyAt < y.2.readyAt ∨ (x.2.readyAt = y.2.readyAt ∧ x.1 < y.1) then some x else some y) none

/-- The first ring after `last` in ascending order, wrapping. -/
def nextRing (l : List Nat) (last : Nat) : Nat :=
  let mn := fun (m : List Nat) => m.foldl (fun a r => match a with | none => some r | some q => some (min q r)) (none : Option Nat)
  match mn (l.filter (fun r => last < r)) with
  | some r => r
  | none => (mn l).getD 0

/-- A placement request sent to the Keeper. -/
def forwardTask (w h tier : Nat) (b : Block) : Block :=
  let g := (ent b h).gen
  xsend (some w) 16 (.preq h g tier) (updEnt h (fun e => { e with place := .forwarded }) b)

/-- A staging request sent, where the arbiter forwards nothing else and STAGE is 1 (R86). -/
def forwardStage (w : Nat) (b : Block) : Block :=
  match (if stageOn b w then b.ents.find? (fun x => homeOf x.1 = w ∧ x.2.stageReq ∧ x.2.st = .pending ∧ x.2.tumbler = 1)
    else none) with
  | none => b
  | some x =>
    xsend (some w) 16 (.sreq x.1 x.2.gen)
      (updEnt x.1 (fun e => { e with stageReq := false, stageTried := true, stageOut := true }) b)

/-- The class of an entry as a number: LC 0, BE 1. -/
def clsOf (e : Entry) : Nat := b2n e.d.be

/-- ARBITER_FORWARD (R105). -/
def actArbiterForward (w : Nat) (s : State) : Outcome :=
  s.runW w (fun _ b =>
    if 8 ≤ outReqs b w then b
    else
      let rdy := rdyList b w
      let tokd := rdy.filter (fun x => tokens b w x.2.d.tenant (clsOf x.2) ≠ 0)
      let spare := tokd.isEmpty
      let elig := if spare then rdy else tokd
      if elig.isEmpty then forwardStage w b
      else
        let r := dwrr w (elig.map (fun x => x.2.d.tenant)) 257 b
        let t := r.1
        let b := r.2
        let c := if elig.any (fun x => x.2.d.tenant = t ∧ !x.2.d.be) then 0 else 1
        let mine := rdy.filter (fun x => x.2.d.tenant = t ∧ clsOf x.2 = c)
        let g := nextRing (mine.map (fun x => x.2.d.ring)) (Tbl.get 0 b.arb.last (tokKey w t c))
        match earliest (mine.filter (fun x => x.2.d.ring = g)) with
        | none => b
        | some k =>
          let tok := if spare then b.arb.tok else Tbl.upd 0 b.arb.tok (tokKey w t c) (· - 1)
          let b := { b with arb := { b.arb with last := Tbl.set 0 b.arb.last (tokKey w t c) g, tok := tok } }
          forwardTask w k.1 (c + 2 * b2n spare) b)

/-! ## Placement -/

/-- PLACEMENT_REQUEST (R82). -/
def actPlacementRequest (handle : Nat) (s : State) : Outcome :=
  s.runK (fun _ b =>
    let f := fun (x : XItem) => match x with | .preq h _ _ => decide (h = handle) | _ => false
    match xfind b f with
    | some (.preq h g t) =>
      let b := updEnt h (fun e => { e with place := .atEngine }) (xdrop f b)
      tookSeq { b with place := { b.place with reqs := b.place.reqs ++ [⟨h, g, t, false, nextSeq b, none, 0⟩] } }
    | _ => b)

/-- A token-backed LC request leaves the waiting list: the idle count starts anew (R244). -/
def lcGone (r : PReq) (b : Block) : Block :=
  if r.waitAt.isSome ∧ r.tier = 0 then { b with lcIdleAt := b.clk.fclk } else b

/-- A port assigned to a placement request: OCC, PLACED, on to the governor (R81, R82). -/
def assignPort (r : PReq) (n rank : Nat) (b : Block) : Block :=
  let b := lcGone r (bump kcPlaced 1 (occUp n r.handle b))
  let b := updEnt r.handle (fun e => { e with place := .atGov, port := some n, rank := rank }) b
  { b with place := { reqs := b.place.reqs.erase r, toGov := b.place.toGov ++ [(r.handle, r.gen, n)] } }

/-- The waiting list in the order of R84: tier, cycle of entry, home Ward. -/
def waitingOrder (b : Block) : List PReq :=
  let l := b.place.reqs.filter (fun r => r.waitAt.isSome)
  (l.foldl (fun (acc : Tbl PReq) r =>
    Tbl.ins acc (((r.tier * 2 ^ 64 + r.waitAt.getD 0) * 64 + homeOf r.handle) * 2 ^ 64 + r.seqNo) r) []).map Prod.snd

/-- The ports with room offered to the waiting requests of tiers up to `t`, each taking the first port of its walk (R84). -/
def offerWaiting (p : Params) (t : Nat) (b : Block) : Block :=
  forEach ((waitingOrder b).filter (fun r => r.tier ≤ t)) (fun r c =>
    match walkClass p c (ent c r.handle).d.pclass (room p c) with
    | some x => assignPort r x.1 x.2 c
    | none => c) b

/-- The walk of a new request, which comes after the waiting list within its tier (R82, R84). -/
def decideReq (p : Params) (r : PReq) (b : Block) : Block :=
  let b := offerWaiting p r.tier b
  match walkClass p b (ent b r.handle).d.pclass (room p b) with
  | some x => assignPort r x.1 x.2 b
  | none =>
    { b with place := { b.place with reqs := b.place.reqs.map (fun q =>
      if q = r then { q with waitAt := some b.clk.fclk, lcAt := b.clk.fclk } else q) } }

/-- PLACEMENT_DECISION (R82, R84). -/
def actPlacementDecision (handle : Nat) (s : State) : Outcome :=
  s.runK (fun p b =>
    match b.place.reqs.find? (fun r => r.handle = handle ∧ r.waitAt = none) with
    | none => b
    | some r => when (runState b) (decideReq p r) b)

/-- The new requests by tier and home Ward. -/
def newOrder (b : Block) : List PReq :=
  let l := b.place.reqs.filter (fun r => r.waitAt.isNone)
  (l.foldl (fun (acc : Tbl PReq) r => Tbl.ins acc ((r.tier * 64 + homeOf r.handle) * 2 ^ 64 + r.seqNo) r) []).map Prod.snd

/-- Every placement request of the cycle, new and waiting, takes its port (R84). -/
def decideAll (p : Params) (b : Block) : Block := offerWaiting p 3 (forEach (newOrder b) (decideReq p) b)

/-- WAITING_LIST_OFFER (R84). -/
def actWaitingListOffer (s : State) : Outcome :=
  s.runK (fun p b => when (runState b) (offerWaiting p 3) b)

/-- A reservation for a staged task where the limits allow it (R95). -/
def reserve (p : Params) (h n : Nat) (b : Block) : Block :=
  let d := domOf p b n
  let e := energyEst p b (ent b h).d.energy
  when (fits (dmn b d) e) (fun b => updEnt h (fun e => { e with resvHeld := true })
    (updDom d (fun x => { x with resv := ⟨h, e⟩ :: x.resv }) b)) b

/-- STAGING_REQUEST (R86, R87, R95), after every placement request (R84). -/
def actStagingRequest (handle : Nat) (s : State) : Outcome :=
  s.runK (fun p b =>
    let f := fun (x : XItem) => match x with | .sreq h _ => decide (h = handle) | _ => false
    match xfind b f with
    | some (.sreq h g) =>
      let b := when (runState b) (decideAll p) (xdrop f b)
      match if runState b then walkClass p b (ent b h).d.pclass (fun n => room p b n && decide (occ b n = 0)) else none with
      | some x =>
        let b := reserve p h x.1 (bump kcPlaced 1 (occUp x.1 h b))
        xput (.pdec h g x.1 x.2 true) (updEnt h (fun e => { e with rank := x.2 }) b)
      | none => xput (.sNone h g) b
    | _ => b)

/-- STAGING_NO_PORT (R89). -/
def actStagingNoPort (handle : Nat) (s : State) : Outcome :=
  s.runW (homeOf handle) (fun _ b =>
    let f := fun (x : XItem) => match x with | .sNone h _ => decide (h = handle) | _ => false
    match xfind b f with
    | some _ => updEnt handle (fun e => { e with stageOut := false }) (xrx (homeOf handle) 16 (xdrop f b))
    | none => b)

/-- A task enters a port's issue queue (R98): a stage of another task there is unloaded (R88), its own
becomes the queued task (R89); the home Ward learns PLACED (R57). -/
def enqueue (p : Params) (h gen n : Nat) (b : Block) : Block :=
  let b := match (prt b n).stage with
    | some x => if x = (h, gen) then updPort n (fun q => { q with stage := none }) b else unloadStage p n x.1 x.2 b
    | none => b
  let e := ent b h
  let w := portWard p n
  let b := updPort n (fun q => { q with iq := q.iq ++ [{ handle := h, gen := gen, be := e.d.be, at_ := b.clk.fclk }] }) b
  let b := evRec p n 2 0 e.rank gen h (trTask p (.ward w) 0x11 e.d e.rank (taskWord p (some n) gen h) b)
  let b := updEnt h (fun e => { e with port := some n, staged := none }) b
  if w = homeOf h then proxyState .placed h b else xsend (some w) 16 (.proxy (wordOf p b h) .placed) b

/-- The permit of a staged READY task finds its stage unloaded: the task goes on as if it had never been staged (R88). -/
def stageLost (h : Nat) (b : Block) : Block :=
  updEnt h (fun e => if e.place = .inFlight then { e with place := .none } else e) b

/-- PLACEMENT_DECISION_ARRIVAL (R57, R87): a staged task, which the walk has given no port of its own, is PLACED where its
stage still is (R88, R89). -/
def actPlacementDecisionArrival (handle : Nat) (s : State) : Outcome :=
  s.runK (fun p b =>
    let f := fun (x : XItem) => match x with | .pdec h _ _ _ _ => decide (h = handle) | _ => false
    match xfind b f with
    | some (.pdec h g n rank st) =>
      let b := xrx (portWard p n) 16 (xdrop f b)
      if st then
        let b := updPort n (fun q => { q with stage := some (h, g) }) b
        let b := updEnt h (fun e => if live e.st then { e with staged := some n, stageOut := false } else { e with stageOut := false }) b
        evRec p n 1 0 rank g h b
      else if (ent b h).port = none ∧ (prt b n).stage ≠ some (h, g) then stageLost h b
      else enqueue p h g n b
    | _ => b)

/-- A share token spent by a staged READY task, if one is held (R89). -/
def spendToken (h : Nat) (b : Block) : Block :=
  let e := ent b h
  { b with arb := { b.arb with tok := Tbl.upd 0 b.arb.tok (tokKey (homeOf h) e.d.tenant (clsOf e)) (· - 1) } }

/-- STAGED_TASK_PLACED (R89, R95): with a reservation the task is PLACED at its staged port; without one it
asks the governor, or loses its stage when its reservation was dropped and the port has been disabled (R88). -/
def actStagedTaskPlaced (handle : Nat) (s : State) : Outcome :=
  s.runW (homeOf handle) (fun p b =>
    let e := ent b handle
    match e.staged with
    | none => b
    | some n =>
      if e.st = .ready ∧ e.place = .none ∧ runState b then
        let d := domOf p b n
        match (dmn b d).resv.find? (fun r => r.handle = handle) with
        | some r =>
          let b := updDom d (fun x => { x with resv := x.resv.erase r, n := x.n + 1, i := x.i + r.est }) (spendToken handle b)
          enqueue p handle e.gen n b
        | none =>
          if portEn p b n ∨ ¬ e.resvHeld then
            let b := updEnt handle (fun e => { e with place := .atGov }) (spendToken handle b)
            { b with place := { b.place with toGov := b.place.toGov ++ [(handle, e.gen, n)] } }
          else unstage p handle b
      else b)

/-- A release of every entry of a reset port: OCC(p) becomes 0 and reservations without a stage go (R95, R362). -/
def freePort (p : Params) (port : Nat) (b : Block) : Block :=
  let staging := fun (h : Nat) => b.xbar.any (fun x => match x with | .pdec k _ _ _ s => s && decide (k = h) | _ => false)
  updDom (domOf p b port) (fun x => { x with resv := x.resv.filter (fun r => (ent b r.handle).staged.isSome || staging r.handle) })
    { b with occ := Tbl.set [] b.occ port [] }

/-- A handle's request leaves the governor (R103). -/
def dropGov (h : Nat) (b : Block) : Block :=
  forEach (List.range 16) (fun d => updDom d (fun x => { x with q := x.q.filter (fun g => g.handle ≠ h) }))
    { b with place := { b.place with toGov := b.place.toGov.filter (fun x => x.1 ≠ h) } }

/-- The CAN release of a stage: its reservation goes (R95), and a READY task that waits for a permit at that port goes on
as if it had never been staged (R88). -/
def stageGone (p : Params) (port h : Nat) (b : Block) : Block :=
  let e := ent b h
  let b := updDom (domOf p b port) (fun x => { x with resv := x.resv.filter (fun r => r.handle ≠ h) }) b
  when (decide (e.st = .ready) && decide (e.place = .atGov) && e.port.isNone && e.staged.isNone)
    (fun b => updEnt h (fun e => { e with place := .none }) (dropGov h b)) b

/-- PORT_RELEASE (R81): OCC falls; an issue release sets STARTED of its interval (R236); a CAN release gives
up a stage (R88, R95); behind them comes the release of a port reset (R362). -/
def actPortRelease (port handle : Nat) (s : State) : Outcome :=
  s.runK (fun p b =>
    let f := fun (i : Bool) (x : XItem) => match x with
      | .release n h k => decide (n = port) && decide (h = handle) && decide (k = i)
      | _ => false
    let any := fun (x : XItem) => match x with | .release n _ _ => decide (n = port) | _ => false
    let all := fun (x : XItem) => match x with | .portFree n => decide (n = port) | _ => false
    let d := (ent b handle).d
    if (xfind b (f true)).isSome then
      when d.rinst.isNone (updRing d.ring (fun g => { g with
        points := g.points.map (fun q => if q.interval = d.interval ∨ d.interval ∈ q.was then { q with started := true } else q) }))
        (occDown port handle (xdrop (f true) b))
    else if (xfind b (f false)).isSome then
      stageGone p port handle (occDown port handle (xdrop (f false) b))
    else if (xany b any).isNone ∧ (xfind b all).isSome then freePort p port (xdrop all b)
    else b)

/-- No stage of the task, no unload directive and no CAN is outstanding: its withdrawal releases it (R54). -/
def noStage (b : Block) (h gen : Nat) : Bool :=
  (ent b h).staged.isNone && noCan b h gen
    && !b.xbar.any (fun x => match x with | .unload k _ _ => decide (k = h) | _ => false)

/-- The Keeper takes a withdrawn request out of the engine or a governor queue and the entry is released; a port held
there is given back, where it is not the port of a stage, which its CAN release gives back (R88, R103). A decision on its
way is followed to the port's Ward. -/
def withdrawn (h gen : Nat) (b : Block) : Block :=
  let rel := updEnt h (fun e => { e with released := true, stageOut := false })
  let relGov := fun (n : Nat) (c : Block) => if (ent c h).port.isSome then rel (occDown n h c) else when (noStage c h gen) rel c
  let isReq := fun (x : XItem) => match x with
    | .preq k _ _ => decide (k = h)
    | .sreq k _ => decide (k = h)
    | _ => false
  let isDec := fun (x : XItem) => match x with | .pdec k _ _ _ _ => decide (k = h) | _ => false
  match b.place.reqs.find? (fun r => r.handle = h), b.place.toGov.find? (fun x => x.1 = h) with
  | some r, _ => rel (lcGone r { b with place := { b.place with reqs := b.place.reqs.erase r } })
  | none, some x => relGov x.2.2 { b with place := { b.place with toGov := b.place.toGov.erase x } }
  | none, none =>
    match (List.range 16).find? (fun d => (dmn b d).q.any (fun g => g.handle = h)) with
    | some d =>
      match (dmn b d).q.find? (fun g => g.handle = h) with
      | some g => relGov g.port (updDom d (fun x => { x with q := x.q.erase g }) b)
      | none => b
    | none =>
      if (xany b isReq).isSome then rel (xdrop isReq b)
      else match xany b isDec, b.ports.find? (fun x => x.2.stage = some (h, gen)), (ent b h).port with
        | some (.pdec _ _ n _ _), _, _ => xput (.unload h gen n) b
        | _, some x, _ => xput (.unload h gen x.1) b
        | _, _, some n => xput (.unload h gen n) b
        | _, _, none => rel b

/-- WITHDRAWAL (R103). -/
def actWithdrawal (handle : Nat) (s : State) : Outcome :=
  s.runK (fun _ b =>
    let f := fun (x : XItem) => match x with | .withdraw h _ => decide (h = handle) | _ => false
    match xfind b f with
    | some (.withdraw h g) => withdrawn h g (xdrop f b)
    | _ => b)

/-- UNLOAD_DIRECTIVE (R103): the port's Ward unloads the stage or removes the queued task with CAN, and a
task still PLACED or PRELOADED settles CANCELLED at its home Ward; a RUNNING task is not reached (R104). Where nothing of the
task is left at the port, it is released (R54). -/
def actUnloadDirective (handle : Nat) (s : State) : Outcome :=
  s.runK (fun p b =>
    let f := fun (x : XItem) => match x with | .unload h _ _ => decide (h = handle) | _ => false
    match xfind b f with
    | some (.unload h g n) =>
      let w := portWard p n
      let b := xrx w 16 (xdrop f b)
      if (prt b n).stage = some (h, g) then unloadStage p n h g b
      else if (prt b n).iq.any (fun x => x.handle = h ∧ x.gen = g) then
        let b := unqueue p n h g b
        if live (ent b h).st then
          if w = homeOf h then homeCmp p h 0x04 0 0 0 none b
          else xsend (some w) 16 (.settle (wordOf p b h) 0x04 0 0 0 none) b
        else b
      else
        let gone := (prt b n).run.all (fun r => decide (r.handle ≠ h)) && !live (ent b h).st && noCan b h g
        voidW w (when gone (updEnt h (fun e => { e with released := true })) b)
    | _ => b)

/-! ## Epochs (R106) -/

/-- One share of a tenant's tokens per Ward: floors, then one more to the largest remainders, equal
remainders to the lower Ward (R106). -/
def splitTokens (alloc : Nat) (ws : List (Nat × Nat)) : List (Nat × Nat) :=
  let tot := (ws.map Prod.snd).sum
  let base := ws.map (fun x => (x.1, alloc * x.2 / tot, alloc * x.2 % tot))
  let left := alloc - (base.map (fun x => x.2.1)).sum
  let order := (base.foldl (fun (acc : Tbl Nat) x => Tbl.ins acc ((tot - x.2.2) * 64 + x.1) x.1) []).map Prod.snd
  let more := order.take left
  base.map (fun x => (x.1, x.2.1 + b2n (decide (x.1 ∈ more))))

/-- The reported ready counts of a tenant and class: Ward and count. -/
def repOf (p : Params) (b : Block) (t c : Nat) : List (Nat × Nat) :=
  ((List.range p.nw).map (fun w => (w, Tbl.get 0 b.arb.rep (tokKey w t c)))).filter (fun x => x.2 ≠ 0)

/-- One pass of the mint: the pool left and the tokens as (Ward, tenant · 2 + class, count). -/
def mintPass (p : Params) (b : Block) (slack c pool : Nat) : Nat × List (Nat × Nat × Nat) :=
  let act := (List.range 256).filter (fun t => (ten b t).weight ≠ 0 ∧ repOf p b t c ≠ [])
  let sw := (act.map (fun t => (ten b t).weight)).sum
  let al := act.map (fun t =>
    let ws := (repOf p b t c).map (fun x => (x.1, x.2 + slack))
    let a := min (ws.map Prod.snd).sum (pool * (ten b t).weight / sw)
    (t, a, ws))
  (pool - (al.map (fun x => x.2.1)).sum,
    al.flatMap (fun x => (splitTokens x.2.1 x.2.2).map (fun y => (y.1, x.1 * 2 + c, y.2))))

/-- KP_ARB_CFG.EPOCH, 64 to 4,096. -/
def epochLen (p : Params) (b : Block) : Nat := clampNat 64 4096 (rdf p b (kA 4 0x060) 0 13)

/-- The Wards' report of READY tasks not yet forwarded, as they stand at the end of the fclk cycle 32 fclk before
the next epoch (R106). The length of the epoch under way is the one read at its start (R390). -/
def reportReady (p : Params) (b : Block) : Block :=
  when (decide (b.arb.epochStart + b.arb.epoch = b.clk.fclk + 32)) (fun b =>
    let rdy := (List.range p.nw).flatMap (fun w => (rdyList b w).map (fun x => tokKey w x.2.d.tenant (clsOf x.2)))
    { b with arb := { b.arb with rep := rdy.foldl (fun t k => Tbl.upd 0 t k (· + 1)) [] } }) b

/-- EPOCH_MINT (R106): epochs are counted from fclk 0, and the first tokens are minted one EPOCH later (DESIGN CHOICE, log
entry 46). -/
def actEpochMint (s : State) : Outcome :=
  s.runK (fun p b =>
    if b.arb.epochStart + b.arb.epoch ≤ b.clk.fclk then
      let slack := rdf p b (kA 4 0x060) 16 8
      let lc := mintPass p b slack 0 (rdf p b (kA 4 0x064) 0 17)
      let be := mintPass p b slack 1 lc.1
      let all := lc.2 ++ be.2
      let b := { b with arb := { b.arb with epochStart := b.clk.fclk, epoch := epochLen p b } }
      forEach (List.range p.nw) (fun w => xput (.tokens w ((all.filter (fun x => x.1 = w)).map Prod.snd))) b
    else b)

/-- TOKEN_ARRIVAL (R106): the previous epoch's unspent tokens lapse. -/
def actTokenArrival (w : Nat) (s : State) : Outcome :=
  s.runW w (fun _ b =>
    let f := fun (x : XItem) => match x with | .tokens v _ => decide (v = w) | _ => false
    match xfind b f with
    | some (.tokens _ l) =>
      let b := xrx w 16 (xdrop f b)
      let kept := b.arb.tok.filter (fun x => x.1 / 512 ≠ w)
      { b with arb := { b.arb with tok := l.foldl (fun t x => Tbl.set 0 t (w * 512 + x.1) x.2) kept } }
    | _ => b)

end Sys2Proof.Machine
end

