-- ==== Sys2Proof/Machine/Channel.lean ====
section
/-! DEFINITION. Channels: records, requests and answers of an engine, sending, arrival, answers, opening
and closing, relay chains, retry storms (R148 to R169, R178 to R181, R265, R346 to R357). -/

namespace Sys2Proof.Machine

/-! ## Looking channels up -/

/-- The channel a key names (Table 9.1). -/
def getChan (b : Block) (k : ChKey) : Option Chan :=
  match k.inst with
  | none => chn b k.ch
  | some i => (b.rchans.find? (fun x => x.1 = i ∧ x.2.1 = k.ch)).map (fun x => x.2.2)

/-- A channel changed. -/
def updChan (k : ChKey) (f : Chan → Chan) (b : Block) : Block :=
  match k.inst with
  | none => match chn b k.ch with
    | some c => setChan k.ch (some (f c)) b
    | none => b
  | some i => { b with rchans := b.rchans.map (fun x => if x.1 = i ∧ x.2.1 = k.ch then (x.1, x.2.1, f x.2.2) else x) }

/-- Every channel of the block with its key. -/
def allChans (b : Block) : List (ChKey × Chan) :=
  b.chans.filterMap (fun x => x.2.map (fun c => (⟨none, x.1⟩, c))) ++ b.rchans.map (fun x => (⟨some x.1, x.2.1⟩, x.2.2))

/-- The sending port: an endpoint that is a port, or the port of a bound task (R151). -/
def txPortOf (c : Chan) : Option Nat :=
  match c.tx with
  | .port n => some n
  | .task _ => c.txPort
  | _ => none

/-- The receiving port. -/
def rxPortOf (c : Chan) : Option Nat :=
  match c.rx with
  | .port n => some n
  | .task _ => c.rxPort
  | _ => none

/-- The hops of a relay channel (R178). -/
def hopsOf (c : Chan) : List Nat := match c.rx with | .relay l => l | _ => []

/-- A relay channel. -/
def isRelay (c : Chan) : Bool := match c.rx with | .relay _ => true | _ => false

/-- Channel-table records of a channel at a Ward (Table 5.1, R150). -/
def recsAt (p : Params) (w : Nat) (c : Chan) : Nat :=
  (if c.dir = w then (if isRelay c then 2 else 1) else 0)
  + (match c.tx with | .port n => b2n (decide (portWard p n = w)) | _ => 0)
  + (match c.rx with
    | .port n => b2n (decide (portWard p n = w))
    | .queue v _ => b2n (decide (v = w))
    | _ => 0)

/-- The channels of OPEN requests on their way to the allocator: their records and bind slots are taken (R156). -/
def openingChans (b : Block) : List Chan := b.xbar.filterMap (fun x => match x with | .chAlloc c _ _ _ => some c | _ => none)

/-- Channel-table records in use at a Ward (R150). -/
def recsUsed (p : Params) (b : Block) (w : Nat) : Nat :=
  (((allChans b).map Prod.snd ++ openingChans b).map (recsAt p w)).sum

/-- Segments whose local reservation stands while they await other instances (R253). -/
def reservedSegs (b : Block) : List (Nat × Seg) :=
  b.segs.filterMap (fun x => match x.2 with
    | some g => if (rng b x.1).walk.mode = .remote then some (x.1, g) else none
    | none => none)

/-- What those segments hold of a demand at a Ward. -/
def heldOf (b : Block) (f : Seg → Tbl Nat) (w : Nat) : Nat := ((reservedSegs b).map (fun x => Tbl.get 0 (f x.2) w)).sum

/-- The OPEN_CH records of a segment. -/
def opensOf (recs : List SRec) : List (BitVec 256) := recs.filterMap (fun x => match x with | .openCh y => some y | _ => none)

/-- Channel IDs promised to segments that await other instances (R157). -/
def idsHeld (b : Block) : Nat := ((reservedSegs b).map (fun x => (opensOf x.2.recs).length)).sum

/-- Relay messages in a Ward's relay buffer (R178). -/
def relayCount (p : Params) (b : Block) (w : Nat) : Nat :=
  b.chans.countP (fun x => match x.2 with
    | some c => c.relay.isSome && decide ((txPortOf c).map (portWard p) = some w)
    | none => false)

/-- Layer and operator of a ring's or task's object (R309). -/
def ownerMark (p : Params) (b : Block) : ChOwner → Nat × Nat
  | .step r _ _ => ((rng b r).layer, (rng b r).opid)
  | .sub r _ => ((rng b r).layer, (rng b r).opid)
  | .task w => match findEntry p b w with
    | some h => ((ent b h).d.layer, (ent b h).d.opid)
    | none => (0xFFFF, 0xFFFF)
  | .remote _ => (0xFFFF, 0xFFFF)

/-- A trace entry of a channel's message at its receiving holder (Table 11.4). -/
def trMsg (p : Params) (w kind : Nat) (c : Chan) (ch : Nat) (seq : BitVec 16) (aux : Nat) (b : Block) : Block :=
  let m := ownerMark p b c.owner
  trForm p (.ward w) ⟨b.clk.ts, kind, .ward w, m.1, m.2, c.tenant, aux,
    BitVec.ofNat 32 (seq.toNat % 2 ^ 14 * 2 ^ 18 + ch)⟩ b

/-! ## The task running on a port -/

/-- The entry of the task RUNNING on a port. -/
def runEnt (b : Block) (n : Nat) : Option Entry := (prt b n).run.map (fun r => ent b r.handle)
/-- Its tenant. -/
def runTen (b : Block) (n : Nat) : Option Nat := (runEnt b n).map (fun e => e.d.tenant)
/-- Its successor word, 0 when none runs. -/
def runWord (p : Params) (b : Block) (n : Nat) : Word32 :=
  match (prt b n).run with
  | some r => wordOf p b r.handle
  | none => 0
/-- The class of what a port sends: that of its RUNNING task, BE when none runs (R162). -/
def runBe (b : Block) (n : Nat) : Bool := match runEnt b n with | some e => e.d.be | none => true

/-- WD_PORT_OWN of a port, none when its OWNV bit is 0 (Table 5.1). -/
def portOwn (p : Params) (b : Block) (n : Nat) : Option Nat :=
  let w := portWard p n
  let i := portIn p n
  if bitAt (rd p b (wA w 0 (0x048 + 4 * (i / 32)))) (i % 32) then some (rdf p b (wA w 0 (0x050 + 4 * (i / 4))) (8 * (i % 4)) 8)
  else none

/-! ## MSG requests (Table 13.5) -/

/-- The listed fields of a request's header beat, as a mask; 0 for an undefined OP. -/
def msgMask (op : Nat) : Nat :=
  let f := fun (lo len : Nat) => (2 ^ len - 1) * 2 ^ lo
  let head := f 0 8 + f 16 16
  if op = 1 then head + f 32 14 + f 48 4 + f 56 4 + f 64 16
  else if op = 2 then head + f 32 16 + f 48 7 + f 64 12 + f 80 13 + f 96 1
  else if op = 3 then head + f 32 4 + f 40 4 + f 64 32 + ((List.range 16).map (fun i => f (96 + 16 * i) 12)).sum
  else if op = 4 then head + f 32 14 + f 48 7
  else if op = 5 then head + f 32 12 + f 48 7 + f 64 32
  else if op = 6 then head + f 32 12 + f 48 4 + f 64 13
  else if op = 7 then head + f 32 12 + f 48 4 + f 64 16
  else if op = 8 then head + f 32 6 + f 48 16
  else if op = 9 then head + f 32 18 + f 56 1 + f 64 32
  else 0

/-- Element size in bytes of IFMT (R186): 0 FP32, 1 FP16, 2 BF16, 3 and 4 FP8, 5 INT8, 6 INT32. -/
def elemSize (ifmt : Nat) : Nat := if ifmt = 0 ∨ ifmt = 6 then 4 else if ifmt = 1 ∨ ifmt = 2 then 2 else 1

/-- The beats after the header that a request must have; none: any 1 to 16 (a part's count depends on the
queue's format, which its holder knows). -/
def msgBeats (hdr : BitVec 512) : Option Nat :=
  let op := fld hdr 0 8
  if op = 1 then some (fld hdr 48 4 + 1) else if op = 2 then none else some 0

/-- A request that R354 rejects: undefined OP, a non-zero reserved bit, a wrong beat count. -/
def msgBad (hdr : BitVec 512) (beats : Nat) : Bool :=
  let m := BitVec.ofNat 512 (msgMask (fld hdr 0 8))
  decide (m = 0) || decide (hdr &&& ~~~m ≠ 0)
    || (match msgBeats hdr with | some k => decide (beats ≠ k) | none => decide (beats = 0 ∨ 16 < beats))

/-- TAG of a request. -/
def msgTag (hdr : BitVec 512) : BitVec 16 := BitVec.ofNat 16 (fld hdr 16 16)

/-- An answer decided at the sending Ward (R355, R357). -/
def answerHere (p : Params) (n : Nat) (hdr : BitVec 512) (st : Status) (result : Word32) (chid : Nat) (seq : BitVec 16)
    (b : Block) : Block :=
  answerTo p (some (portWard p n)) n (ansBeat (msgTag hdr) st (fld hdr 0 8) result chid seq) b

/-- A port takes requests: its Ward is up and it is not in reset (R362). -/
def portUp (p : Params) (b : Block) (n : Nat) : Bool := wardUp p b (portWard p n) && !(prt b n).inReset


end Sys2Proof.Machine
end

