-- ==== Sys2Proof/Machine/Queue.lean ====
section
/-! DEFINITION. Landing on operand ports (R165 to R168, R356, R357) and message queues (R170 to R177):
configuration, occupancy, read order, delivery to a reader, register pushes and pops, flushes, XOFF. -/

namespace Sys2Proof.Machine

/-! ## Landing on a port -/

/-- The status word of Table 5.6, as the status beat carries it. -/
def statusWord (count : Word32) (len : Nat) (poison closed : Bool) (chid : Nat) : BitVec 512 :=
  BitVec.ofNat 512 (count.toNat * 2 ^ 32 + len % 16 * 2 ^ 28 + b2n poison * 2 ^ 27 + b2n closed * 2 ^ 26 + chid % 2 ^ 14)

/-- The data beats of a message (Table 13.1). -/
def dataBeats (key : ChKey) (be : Bool) (flits : List (BitVec 512)) (poison : List (BitVec 8)) : List OpdBeat :=
  let n := flits.length
  (List.range n).map (fun i =>
    { kind := 0, ch := key, flit := i, nflit := n - 1, be := be, data := flits.getD i 0, poison := poison.getD i 0,
      last := decide (i + 1 = n) })

/-- A message put on a port's operand path: its room is taken from the landing credit, its data beats are
followed by its status beat (R165, R167, R356). -/
def landOn (n : Nat) (key : ChKey) (be : Bool) (flits : List (BitVec 512)) (poison : List (BitVec 8)) (st : OpdBeat)
    (b : Block) : Block :=
  updPort n (fun q => { q with credit := q.credit - flits.length, opd := q.opd ++ dataBeats key be flits poison ++ [st] }) b

/-- A poisoned word lies in the flits. -/
def anyPoison (poison : List (BitVec 8)) : Bool := poison.any (fun x => decide (x ≠ 0))

/-- Messages landed on a channel's endpoint, or on a hop of a relay (Table 5.6). -/
def landedOn (c : Chan) (hop : Option Nat) : Word32 := match hop with | none => c.landed | some i => Tbl.get 0 c.hopLanded i

/-- The status beat of a message that counts as the latest landed on its endpoint. -/
def statusBeat (c : Chan) (key : ChKey) (be : Bool) (n : Nat) (poison : Bool) (seq : BitVec 16) (hop : Option Nat)
    (ack : Bool) (queue : Option Nat) : OpdBeat :=
  { kind := 1, ch := key, flit := 0, nflit := n - 1, be := be, data := statusWord (landedOn c hop) (n - 1) poison false key.ch,
    seqNo := seq, hop := hop, ack := ack, queue := queue }

/-- The endpoint, or the hop of a relay, has one more message landed (Table 5.6). -/
def countLanded (key : ChKey) (n : Nat) (poison : Bool) (hop : Option Nat) (b : Block) : Block :=
  updChan key (fun c =>
    let c := { c with lastLen := n - 1, lastPoison := poison }
    match hop with
    | none => { c with landed := c.landed + 1 }
    | some i => { c with hopLanded := Tbl.upd 0 c.hopLanded i (· + 1) }) b

/-- The status beat with CLOSED = 1 of a port or task endpoint, once (R168). -/
def closedBeat (key : ChKey) (b : Block) : Block :=
  match getChan b key with
  | none => b
  | some c =>
    match rxPortOf c with
    | none => b
    | some n =>
      if c.closedBeat ∨ (prt b n).inReset then b
      else
        let st : OpdBeat := { kind := 1, ch := key, data := statusWord c.landed c.lastLen c.lastPoison true key.ch }
        updPort n (fun q => { q with opd := q.opd ++ [st] }) (updChan key (fun c => { c with closedBeat := true }) b)

/-! ## Message queues -/

/-- Flit slots held (R172). -/
def mqOcc (q : MQ) : Nat := (q.items.map (fun i => i.flits.length)).sum

/-- SIZE in flit slots. -/
def mqSlots (q : MQ) : Nat := q.size * 16

/-- The reader's global port, none for the register window (R171). -/
def mqReader (p : Params) (w : Nat) (q : MQ) : Option Nat := if q.reader = 0xFFFF then none else some (w * p.ne + q.reader)

/-- The XOFF state after the events of a cycle (R177). -/
def xoffNext (q : MQ) : Bool :=
  let o := mqOcc q
  if q.hiWm = 0 then false
  else if q.hiWm ≤ o then true
  else if q.hiWm ≤ q.loWm then false
  else if o ≤ q.loWm then false
  else q.xoff

/-- FC_XOFF of pin k: the OR of the XOFF states mapped to it (R177, R373). -/
def fcXoff (b : Block) (k : Nat) : Bool := b.mq.any (fun x => x.2.fcEn && decide (x.2.fcPin = k) && x.2.xoff)

/-- The XOFF state brought up to date, after the events of a cycle; a change is pulsed to every sending port, once a
channel (R177, R360). -/
def mqXoff (p : Params) (w q : Nat) (b : Block) : Block :=
  let m := mqu b w q
  let x := xoffNext m
  if x = m.xoff then b
  else forEach (allChans b) (fun k c =>
    if k.2.rx = .queue w q then
      match txPortOf k.2 with
      | some n => evRec p n 13 0 (b2n x) 0 k.1.ch (emit (.xoff n k.1 x) c)
      | none => c
    else c) (updMQ w q (fun m => { m with xoff := x }) b)

/-- Read order: LC first, then the earlier deadline by serial comparison (R173). -/
def mqBefore (x y : MqItem) : Bool :=
  if x.be ≠ y.be then !x.be else decide (x.deadline ≠ y.deadline) && serialGe y.deadline x.deadline

/-- The item at the front of the read order among those that have landed, earliest accepted on a tie. -/
def mqFront (now : Nat) (q : MQ) : Option MqItem :=
  (q.items.filter (fun i => decide (i.landedAt ≤ now))).foldl (fun a x => match a with
    | none => some x
    | some y => if mqBefore x y then some x else some y) none

/-- The front item delivered to the reader port when the landing buffer has room for it whole and no
other item is partway (R171). An item of no channel carries CHID 0. -/
def mqDeliver (p : Params) (w q : Nat) (b : Block) : Block :=
  let m := mqu b w q
  match mqReader p w m, mqFront b.clk.fclk m with
  | some n, some i =>
    if m.items.any (fun x => x.delivering) ∨ (prt b n).credit < i.flits.length ∨ (prt b n).inReset then b
    else
      let key := i.ch.getD ⟨none, 0⟩
      let c := i.ch.bind (getChan b)
      let count := match c with | some c => c.landed | none => 0
      let st : OpdBeat := {
        kind := 1, ch := key, nflit := i.flits.length - 1, be := i.be,
        data := statusWord count (i.flits.length - 1) (anyPoison i.poison) false key.ch, queue := some q }
      landOn n key i.be i.flits i.poison st
        (updMQ w q (fun m => { m with items := m.items.map (fun x => if x = i then { x with delivering := true } else x) }) b)
  | _, _ => b

/-- Every queue of a Ward that a port reads. -/
def mqServe (p : Params) (n : Nat) (b : Block) : Block :=
  let w := portWard p n
  forEach (b.mq.filter (fun x => x.1 / 64 = w ∧ x.2.reader = portIn p n)) (fun x => mqDeliver p w (x.1 % 64)) b

/-- The queues at the end of a cycle: an item that has landed is delivered (R171), XOFF follows (R177). -/
def mqCycle (p : Params) (b : Block) : Block :=
  forEach (b.mq.map Prod.fst) (fun k c => mqXoff p (k / 64) (k % 64) (mqDeliver p (k / 64) (k % 64) c)) b

/-- The pending flush takes effect in the cycle after the last flit has landed: everything not partway through delivery is
discarded (R174). -/
def mqFlushNow (w q : Nat) (b : Block) : Block :=
  let m := mqu b w q
  if m.flushPend ∧ m.items.all (fun i => i.landedAt < b.clk.fclk) then
    let gone := m.items.countP (fun i => !i.delivering)
    updMQ w q (fun m => { m with
      items := m.items.filter (fun i => i.delivering), flushPend := false, flushed := satAdd (2 ^ 32 - 1) m.flushed gone }) b
  else b

/-- FLUSH_DISCARD (R174). -/
def actFlushDiscard (w q : Nat) (s : State) : Outcome := s.runW w (fun _ b => mqFlushNow w q b)

/-- WD_MQ_SEL.QUEUE of a Ward. -/
def mqSel (p : Params) (b : Block) (w : Nat) : Nat := rdf p b (wA w 2 0x040) 0 6

/-- The queue's slots overlap another enabled queue or leave the 1,792 assignable slots (R170). -/
def mqOverlap (b : Block) (w q : Nat) (m : MQ) : Bool :=
  decide (m.size ≠ 0) && (decide (112 < m.base + m.size) ||
  b.mq.any (fun x => decide (x.1 / 64 = w) && decide (x.1 % 64 ≠ q) && x.2.en && decide (x.2.size ≠ 0)
    && decide (m.base < x.2.base + x.2.size) && decide (x.2.base < m.base + m.size)))

/-- WD_MQ_CFG at a Ward: a write of W0 with the words W1 and W2 held for it (R170, R400, R413). While EN is 1,
BASE, SIZE, TENANT and READER stay, and a change of one of them sets MQ_CFG; an enable that R170 refuses
leaves EN at 0. -/
def mqCfgAt (p : Params) (w : Nat) (v : Word32) (b : Block) : Block :=
  let q := mqSel p b w
  let m := mqu b w q
  let m1 : MQ := { m with tenant := fld v 16 8, size := fld v 8 7, base := fld v 0 7 }
  let m1 : MQ := match heldAt b (wA w 2 0x048) with
    | some x => { m1 with reader := fld x 16 16, fcEn := bitAt x 4, fcPin := fld x 0 4 }
    | none => m1
  let m1 : MQ := match heldAt b (wA w 2 0x04C) with
    | some x => { m1 with hiWm := fld x 16 11, loWm := fld x 0 11 }
    | none => m1
  let en := bitAt v 31
  let free : MQ := { m with fcEn := m1.fcEn, fcPin := m1.fcPin, hiWm := m1.hiWm, loWm := m1.loWm }
  let b := if m.en then
      let touched := decide (m1.tenant ≠ m.tenant) || decide (m1.size ≠ m.size) || decide (m1.base ≠ m.base)
        || decide (m1.reader ≠ m.reader)
      updMQ w q (fun _ => { free with en := en }) (when touched (pgErr p (wA w 2 0) 4) b)
    else
      let bad := en && (mqOverlap b w q m1 || !(decide (m1.reader = 0xFFFF) || decide (m1.reader < p.ne)))
      when bad (pgErr p (wA w 2 0) 4) (updMQ w q (fun _ => { m1 with en := en && !bad }) b)
  b

/-- A push of WD_MQ_WDATA as one item (R175). -/
def mqPushAt (p : Params) (w : Nat) (be : Bool) (b : Block) : Block :=
  let q := mqSel p b w
  let m := mqu b w q
  let flit : BitVec 512 := BitVec.ofNat 512
    ((List.range 16).map (fun i => (rd p b (wA w 2 (0x080 + 4 * i))).toNat * 2 ^ (32 * i))).sum
  if mqOcc m + 1 ≤ mqSlots m then
    let it : MqItem := {
      be := be, deadline := BitVec.ofNat 32 (b.clk.ts.toNat + 2 ^ 31 - 1), flits := [flit],
      poison := [0], ch := none, seqNo := 0, landedAt := b.clk.fclk }
    mqDeliver p w q (updMQ w q (fun m => { m with items := m.items ++ [it] }) b)
  else updMQ w q (fun m => { m with overrun := true }) b

/-- A pop of the front item into WD_MQ_RDATA; ignored with EMPTY set under a reader port (R175, R413). -/
def mqPopAt (p : Params) (w : Nat) (b : Block) : Block :=
  let q := mqSel p b w
  let m := mqu b w q
  match (if m.reader = 0xFFFF then mqFront b.clk.fclk m else none) with
  | none => { b with mqPop := Tbl.upd {} b.mqPop w (fun x => { x with empty := true }) }
  | some i =>
    let x : MqPop := ⟨i.flits, anyPoison i.poison, (i.ch.map ChKey.ch).getD 0, 0, i.flits.length - 1, false⟩
    updMQ w q (fun m => { m with items := m.items.erase i }) { b with mqPop := Tbl.set {} b.mqPop w x }

/-- WD_MQ_CTRL.FLUSH (R174). -/
def mqFlushAt (p : Params) (w : Nat) (b : Block) : Block :=
  let q := mqSel p b w
  mqFlushNow w q (updMQ w q (fun m => { m with flushPend := true }) b)

/-- RDATA moves to the popped item's next flit after a read of WD_MQ_RDATA15; past the last it reads 0
(R413). -/
def mqAdvanceAt (w : Nat) (b : Block) : Block :=
  { b with mqPop := Tbl.upd {} b.mqPop w (fun x => { x with flit := if x.flit < x.flits.length then x.flit + 1 else x.flit }) }

/-- MQ_CFG_WRITE (R170): words 1 and 2 wait for word 0 (R400). -/
def actMqCfgWrite (tgt : WTarget) (k : Nat) (data : BitVec 32) (s : State) : Outcome :=
  if k = 0 then s.wardReg tgt 2 0x044 data true (fun p w b => mqCfgAt p w data b)
  else s.runReg (fun p b => wardHold p tgt 2 (0x044 + 4 * k) data b)

/-- MQ_FLUSH (R174). -/
def actMqFlush (tgt : WTarget) (s : State) : Outcome :=
  s.wardReg tgt 2 0x05C 1 true mqFlushAt

/-- MQ_PUSH (R175). -/
def actMqPush (tgt : WTarget) (be : Bool) (s : State) : Outcome :=
  s.wardReg tgt 2 0x060 (BitVec.ofNat 32 (2 ^ 31 + b2n be)) true (fun p w b =>
    mqPushAt p w be (wr p (wA w 2 0x060) (BitVec.ofNat 32 (b2n be)) b))

/-- MQ_POP (R175). -/
def actMqPop (tgt : WTarget) (s : State) : Outcome :=
  s.wardReg tgt 2 0x064 1 true mqPopAt

end Sys2Proof.Machine
end

