-- ==== Sys2Proof/Machine/Message.lean ====
section
/-! DEFINITION. Messages on their way (R155 to R169), relay chains (R178, R179), opening and closing of
channels (R150 to R159, R265), retry storms (R180), and the commands of the operand path. -/

namespace Sys2Proof.Machine

/-! ## WATCH digests of a channel (R326 to R328) -/

/-- A message covered by the WATCH of its channel. -/
def watchMsg (key : ChKey) (flits : List (BitVec 512)) (poison : List (BitVec 8)) (b : Block) : Block :=
  { b with watch := b.watch.map (fun x =>
    if x.kind = 0 ∧ x.obj = key.ch ∧ key.inst = none then
      let ws := flits.flatMap (fun f => (List.range 16).map (fun i => fld f (32 * i) 32))
      let s := statWords (x.crc.toNat, x.nan, x.inf, x.maxabs.toNat) ws
      { x with crc := BitVec.ofNat 32 s.1, nan := s.2.1, inf := s.2.2.1, maxabs := BitVec.ofNat 32 s.2.2.2, count := x.count + 1,
               aux := x.aux + (poison.map (fun m => (bitsOf m 8).length)).sum, bytes := x.bytes + 64 * flits.length }
    else x) }

/-- The digest of a channel, written when its receiving endpoint applies the close (R328). -/
def chanDigest (p : Params) (key : ChKey) (c : Chan) (b : Block) : Block :=
  match b.watch.find? (fun x => x.kind = 0 ∧ x.obj = key.ch ∧ key.inst = none) with
  | none => b
  | some x =>
    let top := 2 ^ 32 - 1
    let w := match c.rx with
      | .port n => portWard p n
      | .queue v _ => v
      | .task _ => ((c.rxPort.orElse (fun _ => c.rxLoc)).map (portWard p)).getD c.dir
      | _ => c.dir
    digestWrite p w x (digest (Nat.xor x.crc.toNat top) (min top x.nan) (min top x.inf) x.maxabs.toNat (x.count % 2 ^ 32)
      (min top x.aux) 0 (if c.rxBroken then 0x09 else 0) 0 (x.bytes % 2 ^ 32)) none b

/-! ## At the sending Ward -/

/-- WD_CH_CFG.STORM_THR. -/
def stormThr (p : Params) (b : Block) (w : Nat) : Nat := rd1 p b (wA w 0 0x0D4) 0 16

/-- The receiving port a storm notice names; 4,096, no port, where there is none (R180). -/
def stormRecv (p : Params) (b : Block) (c : Chan) : Nat :=
  (match c.rx with
    | .port n => some n
    | .task _ => c.rxLoc
    | .queue w q => mqReader p w (mqu b w q)
    | .relay l => c.relay.bind (fun m => l[m.hop]?)
    | .remote _ _ => none).getD 4096

/-- A NACK returned to a sender: counted and put in its event ring (Tables 11.1, 11.6). -/
def countNack (p : Params) (n ch : Nat) (st : Status) (b : Block) : Block :=
  when (isNack st) (evRec p n 11 st 0 0 ch) (bumpNack p n st b)

/-- One more consecutive NACK_FULL of a sending endpoint; at the threshold the Keeper gets a storm
notice (R180). -/
def retryUp (p : Params) (n : Nat) (key : ChKey) (st : Status) (b : Block) : Block :=
  if st = 0x07 ∨ st = 0x15 then
    match getChan b key with
    | none => b
    | some c =>
      let r := c.retry + 1
      let hit := decide (stormThr p b (portWard p n) ≤ r) && !c.noticed
      let b := updChan key (fun c => { c with
        retry := r, noticed := c.noticed || hit, retrySince := if c.retry = 0 then b.clk.ts else c.retrySince }) b
      when hit (xsend (some (portWard p n)) 16 (.storm ⟨key.ch, n, stormRecv p b c⟩)) b
  else b

/-- A SEND refused at the sending Ward (R161, R163, R178). -/
def refuseSend (p : Params) (n : Nat) (hdr : BitVec 512) (st : Status) (result : Nat) (seq : BitVec 16) (b : Block) : Block :=
  let ch := fld hdr 32 14
  retryUp p n ⟨none, ch⟩ st (countNack p n ch st (answerHere p n hdr st (BitVec.ofNat 32 result) ch seq b))

/-- The absolute deadline of a SEND (R162); DL = 0 is the value furthest ahead in serial order. -/
def deadlineOf (b : Block) (dl : Nat) : Word32 :=
  if dl = 0 then BitVec.ofNat 32 (b.clk.ts.toNat + 2 ^ 31 - 1) else BitVec.ofNat 32 (b.clk.ts.toNat + dl * 64)

/-- The Ward of a message's destination as its sender knows it. -/
def destWard (p : Params) (c : Chan) (hop : Option Nat) : Option Nat :=
  match c.rx with
  | .port n => some (portWard p n)
  | .queue w _ => some w
  | .task _ => c.rxLoc.map (portWard p)
  | .relay l => (hop.bind (fun i => l[i]?)).map (portWard p)
  | .remote _ _ => none

/-- A message leaves its Ward: 64 B a flit when it crosses (R160, R306), a MSG item to another instance. -/
def launch (p : Params) (w : Nat) (c : Chan) (m : Msg) (b : Block) : Block :=
  match c.rx with
  | .remote i _ =>
    let pf := ((List.range m.poison.length).map (fun j => if m.poison.getD j 0 = 0 then 0 else 2 ^ j)).sum
    let data := m.flits.flatMap (fun f => (List.range 4).map (fun j => BitVec.ofNat 128 (fld f (128 * j) 128)))
    let it := mkItem p b 0x05 i c.tenant (msgArgs m.key.ch m.be m.seqNo m.deadline pf) data
    hingePut (rte b i).hinge it none (xtx (some w) (64 * m.flits.length) b)
  | _ => if destWard p c m.hop = some w then xput (.msg m) b else xsend (some w) (64 * m.flits.length) (.msg m) b

/-- NACK_FULL, or STORM on a marked channel (Table 5.5, R180). -/
def nackFull (c : Chan) : Status := if c.marked then 0x15 else 0x07

/-- Why a SEND is refused at the sending Ward, 0 when it is accepted (R161, R163, R169, R178, R250). -/
def sendCheck (p : Params) (b : Block) (n : Nat) (c : Chan) (hop : Nat) : Status :=
  let mine := match c.tx with
    | .port m => decide (m = n)
    | .task _ => decide (c.txPort = some n) && !c.txUnbound
    | _ => false
  if !mine || c.txClosed then 0x08
  else if c.txBroken then 0x09
  else
    let task := match c.rx with | .task _ => true | _ => false
    if task && c.rxGone then 0x08
    else if task && c.rxLoc.isNone then nackFull c
    else if (match c.rx with | .remote i _ => !reachable p b i | _ => false) then 0x10
    else if isRelay c && decide ((hopsOf c).length ≤ hop) then 0x13
    else if 64 ≤ c.sent.length then nackFull c
    else if isRelay c && (c.relay.isSome || decide (16 ≤ relayCount p b (portWard p n))) then nackFull c
    else 0

/-- SEND (R160 to R163). -/
def actSend (port : Nat) (hdr : BitVec 512) (flits : List (BitVec 512)) (s : State) : Outcome :=
  s.run (fun p b => portUp p b port) (fun p b =>
    if fld hdr 0 8 ≠ 1 ∨ msgBad hdr flits.length then answerHere p port hdr 0x13 0 0 0 b
    else
      let key : ChKey := ⟨none, fld hdr 32 14⟩
      match getChan b key with
      | none => refuseSend p port hdr 0x08 0 0 b
      | some c =>
        let hop := fld hdr 56 4
        let st := sendCheck p b port c hop
        if st ≠ 0 then refuseSend p port hdr st (if isRelay c then hop else 0) c.nseq b
        else
          let h := if isRelay c then some hop else none
          let m : Msg := ⟨key, c.nseq, runBe b port, deadlineOf b (fld hdr 64 16), flits, flits.map (fun _ => 0), h, b.clk.fclk⟩
          let rm : Option RelayMsg := h.map (fun i => ⟨flits, m.poison, m.be, i, runWord p b port, c.nseq, b.clk.fclk⟩)
          let b := updChan key (fun c => { c with nseq := c.nseq + 1, sent := c.sent ++ [(c.nseq, msgTag hdr)], relay := rm }) b
          launch p (portWard p port) c m (when (isRelay c) (watchMsg key flits m.poison) b))

/-! ## At the receiving holder -/

/-- An outcome goes back to the sender: through the crossbar, or as an ANS item to another instance (R165,
R167, R264). -/
def outcomeBack (p : Params) (w : Nat) (key : ChKey) (c : Chan) (seq : BitVec 16) (st : Status) (b : Block) : Block :=
  match key.inst with
  | some i => when (reachable p b i)
      (sendItem (some w) (mkItem p b 0x20 i c.tenant (ansArgs (tagMsg key.ch seq) st 0) [])) b
  | none =>
    let it := if st = 0 then XItem.ack key seq (some w) else XItem.nack key seq st (some w)
    if (txPortOf c).map (portWard p) = some w then xput it b else xsend (some w) 16 it b

/-- The outcome of Table 5.5 for a message at a port; `sq` says whether the sequence number is checked. -/
def portOutcome (b : Block) (n : Nat) (c : Chan) (closed broken sq : Bool) (m : Msg) : Status :=
  if closed then 0x08
  else if broken then 0x09
  else if sq && decide (m.seqNo ≠ c.eseq) then nackFull c
  else if (prt b n).credit < m.flits.length then nackFull c
  else 0

/-- The outcome of Table 5.5 for a message at a queue. -/
def queueOutcome (q : MQ) (c : Chan) (m : Msg) : Status :=
  if c.rxClosed || !q.en then 0x08
  else if q.flushPend then nackFull c
  else if m.seqNo ≠ c.eseq then nackFull c
  else if mqSlots q < mqOcc q + m.flits.length then nackFull c
  else 0

/-- A message accepted at a port: landed behind what waits there, its sequence number passed (R165). -/
def acceptPort (n : Nat) (key : ChKey) (m : Msg) (b : Block) : Block :=
  let k := m.flits.length
  let b := countLanded key k (anyPoison m.poison) m.hop b
  let b := when m.hop.isNone (fun b => watchMsg key m.flits m.poison (updChan key (fun c => { c with eseq := c.eseq + 1 }) b)) b
  match getChan b key with
  | none => b
  | some c => landOn n key m.be m.flits m.poison (statusBeat c key m.be k (anyPoison m.poison) m.seqNo m.hop true none) b

/-- A message accepted at a queue (R172): its ACK follows its landing, and its reader may take it. -/
def acceptQueue (p : Params) (w q : Nat) (key : ChKey) (c : Chan) (m : Msg) (b : Block) : Block :=
  let k := m.flits.length
  let it : MqItem := ⟨m.be, m.deadline, m.flits, m.poison, some key, m.seqNo, b.clk.fclk + k - 1, false⟩
  let b := updChan key (fun c => { c with eseq := c.eseq + 1 }) (countLanded key k (anyPoison m.poison) none b)
  let b := watchMsg key m.flits m.poison b
  let b := updMQ w q (fun x => { x with items := x.items ++ [it] }) b
  mqDeliver p w q (outcomeBack p w key c m.seqNo 0 b)

/-- A message examined at its receiving holder (R165, Table 5.5); a relay message in the relay buffer finishes its hops after
a close (R159). -/
def arriveMsg (p : Params) (key : ChKey) (c : Chan) (m : Msg) (b : Block) : Block :=
  let refuse := fun (w : Nat) (st : Status) (b : Block) =>
    trMsg p w 0x41 c key.ch m.seqNo st.toNat (outcomeBack p w key c m.seqNo st b)
  let accept := fun (w : Nat) (b : Block) => trMsg p w 0x40 c key.ch m.seqNo (m.flits.length - 1) b
  let atPort := fun (n : Nat) (closed broken sq : Bool) =>
    let st := portOutcome b n c closed (broken || (prt b n).inReset) sq m
    let w := portWard p n
    if st = 0 then acceptPort n key m (accept w b) else refuse w st b
  match c.rx with
  | .port n => atPort n c.rxClosed c.rxBroken true
  | .task _ => match c.rxPort with
    | some n => atPort n (c.rxClosed || c.rxUnbound) c.rxBroken true
    | none => refuse (((c.rxLoc.map (portWard p))).getD c.dir) 0x08 b
  | .relay l => match m.hop.bind (fun i => l[i]?) with
    | some n => atPort n false (decide (n ∈ c.brokenHops)) false
    | none => b
  | .queue w q =>
    let st := queueOutcome (mqu b w q) c m
    if st = 0 then acceptQueue p w q key c m (accept w b) else refuse w st b
  | .remote _ _ => b

/-- The Ward at which a message is received. -/
def rxWard (p : Params) (c : Chan) (hop : Option Nat) : Nat :=
  match c.rx with
  | .task _ => ((c.rxPort.orElse (fun _ => c.rxLoc)).map (portWard p)).getD c.dir
  | _ => (destWard p c hop).getD c.dir

/-- A message as a MSG item carries it; a marked flit is poisoned in every word (R265). -/
def msgOfItem (it : Item) : Msg :=
  let n := it.data.length / 4
  let pf := fld it.args 64 16
  { key := ⟨some it.sinst, fld it.args 0 14⟩, seqNo := BitVec.ofNat 16 (fld it.args 16 16), be := bitAt it.args 15,
    deadline := BitVec.ofNat 32 (fld it.args 32 32),
    flits := (List.range n).map (fun i => BitVec.ofNat 512
      ((List.range 4).map (fun j => (it.data.getD (4 * i + j) 0).toNat * 2 ^ (128 * j))).sum),
    poison := (List.range n).map (fun i => if pf / 2 ^ i % 2 = 1 then 0xFF else 0) }

/-- A message of this instance on its way. -/
def isMsg (key : ChKey) (seq : BitVec 16) : XItem → Bool
  | .msg m => decide (m.key = key) && decide (m.seqNo = seq)
  | _ => false

/-- MESSAGE_ARRIVAL (R165): a message of this instance, or one that a Hinge hands over; a tenant not enabled
here is refused (R263). A channel unknown here answers NACK_CLOSED. -/
def actMessageArrival (key : ChKey) (seq : BitVec 16) (it : Option (Nat × Item)) (s : State) : Outcome :=
  s.runK (fun p b =>
    match it with
    | none =>
      match xfind b (isMsg key seq), getChan b key with
      | some (.msg m), some c =>
        let b := xdrop (isMsg key seq) b
        let w := rxWard p c m.hop
        arriveMsg p key c m (when (decide ((txPortOf c).map (portWard p) ≠ some w)) (xrx w (64 * m.flits.length)) b)
      | _, _ => b
    | some (h, x) => rxData p h x (fun x b =>
        let m := msgOfItem x
        let deny := fun (st : Status) => when (reachable p b x.sinst)
          (sendItem none (mkItem p b 0x20 x.sinst x.tenant (ansArgs (tagMsg m.key.ch m.seqNo) st 0) [])) b
        if x.kind ≠ 0x05 then b
        else if !(ten b x.tenant).en then deny 0x0F
        else match getChan b m.key with
          | some c => arriveMsg p m.key c m (xrx (rxWard p c none) (64 * m.flits.length) b)
          | none => deny 0x08) b)

/-! ## Back at the sender -/

/-- The answer of a SEND on OPD; one whose port has been reset since is discarded (R169, R355). -/
def answerSend (key : ChKey) (c : Chan) (seq : BitVec 16) (st : Status) (result : Nat) (b : Block) : Block :=
  match txPortOf c with
  | none => b
  | some n =>
    if (prt b n).inReset ∨ seq ∈ c.noAns then b
    else
      let tag := ((c.sent.find? (fun x => x.1 = seq)).map Prod.snd).getD 0
      updPort n (fun q => { q with opd := q.opd ++ [{
        kind := 2, ch := ⟨none, 0⟩, data := ansBeat tag st 1 (BitVec.ofNat 32 result) key.ch seq }] }) b

/-- A message answered: forgotten by its sending endpoint, its relay buffer freed. -/
def forget (key : ChKey) (seq : BitVec 16) (b : Block) : Block :=
  updChan key (fun c => { c with sent := c.sent.eraseP (fun x => x.1 = seq), noAns := c.noAns.erase seq, relay := none }) b

/-- A NACK sampled by the sending Ward (R166, R180): NSEQ goes back when it is later; a relay stops with
HOPS_DONE (R179). -/
def nackAt (p : Params) (key : ChKey) (seq : BitVec 16) (st : Status) (b : Block) : Block :=
  match getChan b key with
  | none => b
  | some c =>
    let n := (txPortOf c).getD 0
    let done := match c.relay with | some m => m.hop | none => 0
    let b := retryUp p n key st (countNack p n key.ch st (answerSend key c seq st done b))
    updChan key (fun c => { c with
      nseq := if !isRelay c && decide (c.nseq ≠ seq) && serialGe c.nseq seq then seq else c.nseq }) (forget key seq b)

/-- An ACK sampled by the sending Ward: the message is accepted, so the retry count, the storm notice and
its mark are cleared (R180). -/
def ackAt (key : ChKey) (seq : BitVec 16) (b : Block) : Block :=
  match getChan b key with
  | none => b
  | some c =>
    let b := forget key seq (answerSend key c seq 0 (hopsOf c).length b)
    let b := updChan key (fun c => { c with retry := 0, noticed := false, marked := false }) b
    { b with storms := b.storms.filter (fun x => x.ch ≠ key.ch) }

/-- A NACK or ACK from `src` reaches the sending Ward (R306). -/
def backAt (p : Params) (key : ChKey) (src : Option Nat) (b : Block) : Block :=
  match (getChan b key).bind txPortOf with
  | some n => xfrom src (portWard p n) 16 b
  | none => b

/-- NACK_RETURN (R166): through the crossbar, or an ANS item of another instance, whose NACK_BROKEN breaks the remote endpoint
until the channel closes (Table 9.7). -/
def actNackReturn (key : ChKey) (seq : BitVec 16) (it : Option (Nat × Item)) (s : State) : Outcome :=
  s.runK (fun p b =>
    let f := fun (x : XItem) => match x with
      | .nack k q _ _ => decide (k = key) && decide (q = seq)
      | _ => false
    match it with
    | none => match xfind b f with
      | some (.nack _ _ st src) => nackAt p key seq st (backAt p key src (xdrop f b))
      | _ => b
    | some (h, x) => rxItem p h 1 false (fun b =>
        let st := BitVec.ofNat 8 (fld x.args 32 8)
        if x.kind = 0x20 ∧ key.inst = none ∧ fld x.args 0 32 = (tagMsg key.ch seq).toNat ∧ st ≠ 0 then
          when (decide (st = 0x09)) (updChan key (fun c => { c with txBroken := true })) (nackAt p key seq st b)
        else b) b)

/-! ## Operand delivery -/

/-- The port has a beat ready: none of its status beats waits for acceptance (R356, R357). -/
def opdReady (q : Port) : Bool := !q.opd.isEmpty && q.statusOut.isNone && !q.inReset

/-- The owner slot of this fclk at a Ward (R357): the Ward was released at t0 + 32 + 8w. -/
def ownerSlot (p : Params) (b : Block) (w : Nat) : Nat :=
  (b.clk.fclk - (b.boot.t0 + 32 + 8 * w)) % min 64 (rd1 p b (wA w 0 0x0CC) 0 7)

/-- One beat of a port delivered; a status beat waits for the engine's acceptance. -/
def opdSend (n : Nat) (b : Block) : Block :=
  match (prt b n).opd with
  | [] => b
  | x :: l => emit (.opd n x) (updPort n (fun q => { q with opd := l, statusOut := if x.kind = 1 then some x else none }) b)

/-- OPD_DELIVERY (R357): the slot owner, else round robin from the port after the one served last. -/
def actOpdDelivery (w : Nat) (s : State) : Outcome :=
  s.runW w (fun p b =>
    let ready := (List.range p.ne).filter (fun i => opdReady (prt b (w * p.ne + i)))
    let last := Tbl.get 0 b.opdLast w
    match ready.find? (fun i => (prt b (w * p.ne + i)).tdm = ownerSlot p b w) with
    | some i => opdSend (w * p.ne + i) b
    | none =>
      match (ready.find? (fun i => last < i + 1)).orElse (fun _ => ready.head?) with
      | some i => opdSend (w * p.ne + i) { b with opdLast := Tbl.set 0 b.opdLast w (i + 1) }
      | none => b)

/-- LANDING_CREDIT_RETURN (R356): at most 16 a cycle (Table 13.1). -/
def actLandingCreditReturn (port n : Nat) (s : State) : Outcome :=
  s.run (fun p b => portUp p b port && decide (n ≤ 16)) (fun p b =>
    mqServe p port (updPort port (fun q => { q with credit := q.credit + n }) b))

/-- The next hop of a relay message, or its ACK after the last (R179). -/
def relayNext (p : Params) (w : Nat) (key : ChKey) (c : Chan) (x : OpdBeat) (hop : Nat) (b : Block) : Block :=
  match c.relay with
  | none => b
  | some m =>
    if hop + 1 < (hopsOf c).length then
      let b := updChan key (fun c => { c with relay := some { m with hop := hop + 1 } }) b
      launch p (((txPortOf c).map (portWard p)).getD w) c ⟨key, x.seqNo, m.be, 0, m.flits, m.poison, some (hop + 1), m.sentAt⟩ b
    else outcomeBack p w key c x.seqNo 0 b

/-- STATUS_BEAT_ACCEPTED (R167, R179). -/
def actStatusBeatAccepted (port : Nat) (s : State) : Outcome :=
  s.run (fun p b => portUp p b port) (fun p b =>
    match (prt b port).statusOut with
    | none => b
    | some x =>
      let w := portWard p port
      let b := evRec p port 10 0 x.nflit 0 x.ch.ch (updPort port (fun q => { q with statusOut := none }) b)
      match x.queue, x.ack, getChan b x.ch with
      | some q, _, _ =>
        let b := updMQ w q (fun m => { m with items := m.items.eraseP (fun i => i.delivering) }) b
        mqServe p port (mqFlushNow w q b)
      | none, true, some c => match x.hop with
        | some h => relayNext p w x.ch c x h b
        | none => outcomeBack p w x.ch c x.seqNo 0 b
      | _, _, _ => b)

/-- BAD_MSG_REQUEST (R354). -/
def actBadMsgRequest (port : Nat) (hdr : BitVec 512) (beats : Nat) (s : State) : Outcome :=
  s.run (fun p b => portUp p b port) (fun p b => when (msgBad hdr beats) (answerHere p port hdr 0x13 0 0 0) b)

/-! ## Binding (R151) -/

/-- A task that enters RUNNING takes a bind slot for each of its endpoints; the directory learns where. -/
def bindTask (p : Params) (n : Nat) (word : Word32) (b : Block) : Block :=
  let w := portWard p n
  forEach (allChans b) (fun k c =>
    let tx := decide (k.2.tx = .task word) && !(k.1 ∈ (prt c n).bindTx)
    let rx := decide (k.2.rx = .task word) && !(k.1 ∈ (prt c n).bindRx)
    let c := when tx (fun c => xto (some w) k.2.dir 16 (.bind k.1 true (some n) w)
      (updPort n (fun q => { q with bindTx := q.bindTx ++ [k.1] }) (updChan k.1 (fun x => { x with txPort := some n }) c))) c
    when rx (fun c => xto (some w) k.2.dir 16 (.bind k.1 false (some n) w)
      (updPort n (fun q => { q with bindRx := q.bindRx ++ [k.1] }) (updChan k.1 (fun x => { x with rxPort := some n }) c))) c) b

/-- The bind slots of a port's task are freed with its settlement. -/
def unbindTask (p : Params) (n : Nat) (b : Block) : Block :=
  let w := portWard p n
  let q := prt b n
  let dir := fun (c : Block) (k : ChKey) => ((getChan c k).map Chan.dir).getD w
  let b := forEach q.bindTx (fun k c => xto (some w) (dir c k) 16 (.bind k true none w) (updChan k (fun x => { x with txUnbound := true }) c)) b
  let b := forEach q.bindRx (fun k c => xto (some w) (dir c k) 16 (.bind k false none w) (updChan k (fun x => { x with rxUnbound := true }) c)) b
  updPort n (fun q => { q with bindTx := [], bindRx := [] }) b

/-- The notice crosses to the directory Ward, and from there to the holder of the other endpoint (R151, R306). -/
def bindHops (p : Params) (c : Chan) (tx : Bool) (src : Nat) (b : Block) : Block :=
  let b := xfrom (some src) c.dir 16 b
  match (if tx then rxPortOf c else txPortOf c).map (portWard p) with
  | some v => if v = c.dir then b else xrx v 16 (xtx (some c.dir) 16 b)
  | none => b

/-- BIND_NOTICE (R151): the sending side learns where the receiving task is, or that it is gone. -/
def actBindNotice (key : ChKey) (s : State) : Outcome :=
  s.runK (fun p b =>
    let f := fun (x : XItem) => match x with | .bind k _ _ _ => decide (k = key) | _ => false
    match xfind b f with
    | some (.bind _ tx loc src) =>
      let b := xdrop f b
      let b := match getChan b key with | some c => bindHops p c tx src b | none => b
      if tx then b else updChan key (fun c => match loc with
        | some n => { c with rxLoc := some n }
        | none => { c with rxGone := true }) b
    | _ => b)

/-! ## Opening (R153 to R156, R178, R265) -/

/-- The tenant of an endpoint (Table 5.1); none for an endpoint without one. -/
def endTenant (p : Params) (b : Block) : EndP → Option Nat
  | .port n => portOwn p b n
  | .queue w q => some (mqu b w q).tenant
  | .task w => (findEntry p b w).map (fun h => (ent b h).d.tenant)
  | .relay _ => none
  | .remote _ _ => none

/-- Every endpoint belongs to tenant `t` (R156); a remote endpoint is checked by its holder. -/
def endOwned (p : Params) (b : Block) (t : Nat) : EndP → Bool
  | .relay l => l.all (fun n => decide (portOwn p b n = some t))
  | .remote _ _ => true
  | e => decide (endTenant p b e = some t)

/-- A task has all 8 bind slots of a direction taken (R151). -/
def bindFull (b : Block) (tx : Bool) : EndP → Bool
  | .task w => decide (8 ≤ ((allChans b).map Prod.snd ++ openingChans b).countP (fun c =>
      if tx then decide (c.tx = .task w) else decide (c.rx = .task w)))
  | _ => false

/-- A task that has settled or whose generation has passed (R156). -/
def taskGone (p : Params) (b : Block) : EndP → Bool
  | .task w => match findEntry p b w with
    | some h => !live (ent b h).st
    | none => true
  | _ => false

/-- Channel-table records are free at every Ward a channel needs (R156). -/
def recsFree (p : Params) (b : Block) (c : Chan) : Bool :=
  (List.range p.nw).all (fun w => decide (recsAt p w c = 0)
    || decide (recsUsed p b w + heldOf b Seg.chrec w + recsAt p w c ≤ 2048))

/-- `n` more channel IDs may be promised: beside the IDs in use and those promised already (R154, R157). -/
def idsFree (b : Block) (n : Nat) : Bool := decide (b.chans.length + (openingChans b).length + idsHeld b + n ≤ 16384)

/-- The lowest free channel ID (R154). -/
def freeCh (b : Block) : Option Nat := (List.range 16384).find? (fun c => (chn b c).isNone)

/-- A channel that its directory may open: 0, or the refusal of R156 in its order. -/
def openCheck (p : Params) (b : Block) (t : Nat) (c : Chan) : Status :=
  if !taskGone p b c.tx && !endOwned p b t c.tx || !taskGone p b c.rx && !endOwned p b t c.rx then 0x0F
  else if bindFull b true c.tx || bindFull b false c.rx || !recsFree p b c || !idsFree b 1 then 0x0E
  else if taskGone p b c.tx || taskGone p b c.rx then 0x08
  else 0

/-- The peer endpoint of an OPEN request; none where it is BAD_COMMAND (Tables 5.2, 5.3, 9.1). -/
def peerOf (p : Params) (b : Block) (hdr : BitVec 512) : Option EndP :=
  let k := fld hdr 34 2
  let v := BitVec.ofNat 32 (fld hdr 64 32)
  let far := bitAt v 24 && decide (fld v 16 6 ≠ ownInst p b)
  if k = 0 then
    if far then some (.remote (fld v 16 6) (BitVec.ofNat 32 (fld v 0 16)))
    else if fld v 0 16 < nPorts p then some (.port (fld v 0 16)) else none
  else if k = 1 then
    if far then some (.remote (fld v 16 6) (BitVec.ofNat 32 (fld v 0 16)))
    else if fld v 14 2 = 2 ∧ fld v 12 2 = 0 ∧ fld v 6 6 < p.nw ∧ !fenced b (fld v 6 6) then some (.queue (fld v 6 6) (fld v 0 6)) else none
  else if k = 2 then some (.task v)
  else
    let l := (List.range (fld hdr 40 4 + 1)).map (fun i => fld hdr (96 + 16 * i) 12)
    if l.all (fun n => n < nPorts p) ∧ l.Nodup then some (.relay l) else none

/-- An OPEN request whose endpoints are malformed: a queue or relay list that would send, an endpoint in
another instance that would send, one port at both ends, the requester among its own hops. -/
def openBad (n : Nat) (tx rx : EndP) : Bool :=
  (match tx with | .queue _ _ => true | .relay _ => true | .remote _ _ => true | _ => false)
  || (match tx, rx with | .port a, .port c => decide (a = c) | _, _ => false)
  || (match rx with | .relay l => decide (n ∈ l) | _ => false)

/-- OPEN (R153, R156). -/
def actOpenReq (port : Nat) (hdr : BitVec 512) (s : State) : Outcome :=
  s.run (fun p b => portUp p b port) (fun p b =>
    let no := fun (st : Status) => answerHere p port hdr st 0 0 0 b
    if fld hdr 0 8 ≠ 3 ∨ msgBad hdr 0 then no 0x13
    else match runTen b port, peerOf p b hdr with
      | none, _ => no 0x0F
      | _, none => no 0x13
      | some t, some peer =>
        let me : EndP := if bitAt hdr 32 then .task (runWord p b port) else .port port
        let tx := if bitAt hdr 33 then peer else me
        let rx := if bitAt hdr 33 then me else peer
        let c : Chan := { tenant := t, dir := portWard p port, tx := tx, rx := rx, owner := .task (runWord p b port) }
        let gone := match rx with | .remote i _ => !reachable p b i | _ => false
        if openBad port tx rx then no 0x13
        else if gone then no 0x10
        else
          let st := openCheck p b t c
          if st ≠ 0 then no st
          else xsend (some (portWard p port)) 16 (.chAlloc c port (msgTag hdr) []) b)

/-- The answer to an OPEN, from the Keeper's side (R153). -/
def answerOpen (p : Params) (n : Nat) (tag : BitVec 16) (st : Status) (id : Nat) (b : Block) : Block :=
  answerTo p none n (ansBeat tag st 3 (BitVec.ofNat 32 id) 0 0) b

/-- A task endpoint of a new channel: one that runs already is bound at once by its port's Ward (R151); one that has settled
meanwhile is unbound. -/
def bindRunning (p : Params) (key : ChKey) (e : EndP) (b : Block) : Block :=
  match e with
  | .task w =>
    match b.ports.find? (fun x => match x.2.run with | some r => decide (wordOf p b r.handle = w) | none => false) with
    | some x => bindTask p x.1 w b
    | none => when (taskGone p b e) (updChan key (fun c => { c with
        txUnbound := c.txUnbound || decide (c.tx = e), rxUnbound := c.rxUnbound || decide (c.rx = e), rxGone := c.rxGone || decide (c.rx = e) })) b
  | _ => b

/-- A channel begins to close: its directory Ward is told (R158). -/
def beginClose (w : Option Nat) (key : ChKey) (b : Block) : Block :=
  let dir := (getChan b key).map Chan.dir
  (if w.isSome && decide (w = dir) then xput else xsend w 16) (.close key .directory w) (updChan key (fun c => { c with closing := true }) b)

/-- The task that opened a channel on MSG has settled before the channel was opened: the channel closes (R158). -/
def ownerGone (p : Params) (key : ChKey) (b : Block) : Block :=
  match (getChan b key).map Chan.owner with
  | some (.task w) => when (taskGone p b (.task w)) (beginClose none key) b
  | _ => b

/-- A request to the channel allocator. -/
def isAlloc : XItem → Bool
  | .chAlloc _ _ _ _ => true
  | _ => false

/-- CHANNEL_ALLOCATE (R154): the lowest free ID; an endpoint in another instance is asked for first, under
the ID (R265). -/
def actChannelAllocate (s : State) : Outcome :=
  s.runK (fun p b =>
    match xfind b isAlloc with
    | some (.chAlloc c n tag _) =>
      let b := xdrop isAlloc b
      match (if idsFree b 1 then freeCh b else none) with
      | none => answerOpen p n tag 0x0E 0 b
      | some id =>
        match c.rx with
        | .remote i e =>
          if reachable p b i then
            let b := setChan id (some { c with sent := [(0, tag)], txPort := some n, txClosed := true }) b
            sendItem none (mkItem p b 0x07 i c.tenant (chcArgs 0 id e n) []) b
          else answerOpen p n tag 0x10 0 b
        | _ =>
          let b := bindRunning p ⟨none, id⟩ c.rx (bindRunning p ⟨none, id⟩ c.tx (setChan id (some c) b))
          answerOpen p n tag 0 id (ownerGone p ⟨none, id⟩ b)
    | _ => b)

/-! ## Closing (R158, R159) -/

/-- A close on its way. -/
def isClose (key : ChKey) (place : CloseAt) : XItem → Bool
  | .close k a _ => decide (k = key) && decide (a = place)
  | _ => false

/-- The endpoint of a channel in another instance is told of a close (R265). -/
def closeFar (p : Params) (key : ChKey) (c : Chan) (b : Block) : Block :=
  match key.inst, c.rx with
  | none, .remote i _ => when (reachable p b i) (sendItem (some c.dir) (mkItem p b 0x07 i c.tenant (chcArgs 1 key.ch 0 0) [])) b
  | _, _ => b

/-- The interval after which the ID is free again: longer with an endpoint in another instance (R154). -/
def reuseDelay (c : Chan) : Nat := match c.rx, c.owner with | .remote _ _, _ => 65536 | _, .remote _ => 65536 | _, _ => 8192

/-- The last holder's close starts the interval of R154. -/
def closeEnd (key : ChKey) (b : Block) : Block :=
  updChan key (fun c =>
    let far := match c.rx with | .remote _ _ => true | _ => false
    if c.txClosed && (c.rxClosed || far) && c.freeAt.isNone then { c with freeAt := some (b.clk.fclk + reuseDelay c) } else c) b

/-- The Ward that applies a close: the directory's, or the holder of an endpoint (R159). -/
def closeWard (p : Params) (c : Chan) : CloseAt → Nat
  | .directory => c.dir
  | .tx => ((txPortOf c).map (portWard p)).getD c.dir
  | .rx => rxWard p c none

/-- CHANNEL_CLOSE_APPLY (R159): at the directory, then at each endpoint holder. -/
def actChannelCloseApply (key : ChKey) (place : CloseAt) (s : State) : Outcome :=
  s.runK (fun p b =>
    match xfind b (isClose key place), getChan b key with
    | some it, some c =>
      let b := xdrop (isClose key place) b
      let src := match it with | .close _ _ s => s | _ => none
      let b := xfrom src (closeWard p c place) 16 b
      match place with
      | .directory =>
        let b := updChan key (fun c => { c with closing := true }) b
        let put := fun (a : CloseAt) => xto (some c.dir) (closeWard p c a) 16 (.close key a (some c.dir))
        closeFar p key c (put .rx (put .tx b))
      | .tx => closeEnd key (updChan key (fun c => { c with txClosed := true }) b)
      | .rx => closeEnd key (chanDigest p key c (closedBeat key (updChan key (fun c => { c with rxClosed := true }) b)))
    | _, _ => b)

/-- A port holds an endpoint of a channel, itself or by its RUNNING task (R158). -/
def holdsEnd (n : Nat) (c : Chan) : Bool :=
  decide (txPortOf c = some n) && !c.txUnbound || decide (rxPortOf c = some n) && !c.rxUnbound || decide (n ∈ hopsOf c)

/-- CLOSE (R158): of a channel opened here, or by another instance that is then asked (R265); an unreachable instance is
HINGE_DOWN before anything else (R249, R250; DESIGN CHOICE, log entry 46). -/
def actCloseReq (port : Nat) (hdr : BitVec 512) (s : State) : Outcome :=
  s.run (fun p b => portUp p b port) (fun p b =>
    let ans := fun (st : Status) (b : Block) => answerHere p port hdr st 0 (fld hdr 32 14) 0 b
    if fld hdr 0 8 ≠ 4 ∨ msgBad hdr 0 then ans 0x13 b
    else
      let key : ChKey := ⟨otherInst p b (bitAt hdr 54) (fld hdr 48 6), fld hdr 32 14⟩
      if (match key.inst with | some i => !reachable p b i | none => false) then ans 0x10 b
      else match getChan b key with
      | none => ans 0x08 b
      | some c =>
        if holdsEnd port c ∧ ¬ (c.txClosed ∧ c.rxClosed) then
          match key.inst with
          | none => ans 0 (if c.closing then b else beginClose (some (portWard p port)) key b)
          | some i => ans 0 (sendItem (some (portWard p port)) (mkItem p b 0x07 i c.tenant (chcArgs 1 key.ch 1 0) []) b)
        else ans 0x08 b)

/-- CHANNEL_ID_FREE (R154). -/
def actChannelIdFree (ch : Nat) (s : State) : Outcome :=
  s.runK (fun _ b =>
    let past := fun (c : Chan) => match c.freeAt with | some f => decide (f ≤ b.clk.fclk) | none => false
    let b := { b with rchans := b.rchans.filter (fun x => !(decide (x.2.1 = ch) && past x.2.2)) }
    match chn b ch with
    | some c => if past c then setChan ch none b else b
    | none => b)

/-! ## Storms (R180) -/

/-- The channels of a cycle of notices from port `x` back to `goal`, within the number of steps given. -/
def stormPath (l : List Storm) (goal : Nat) : Nat → Nat → Option (List Nat)
  | 0, _ => none
  | k + 1, x => if x = goal then some []
    else (l.filter (fun n => n.sport = x)).findSome? (fun n => (stormPath l goal k n.rport).map (fun r => n.ch :: r))

/-- STORM_NOTICE (R180): up to 64 notices are held; a closed cycle is logged once, raises IRQ0 and marks its
channels. The record names the closing channel and lists the ports and channels of the cycle. -/
def actStormNotice (ch : Nat) (s : State) : Outcome :=
  s.runK (fun p b =>
    let f := fun (x : XItem) => match x with | .storm n => decide (n.ch = ch) | _ => false
    match xfind b f with
    | some (.storm n) =>
      let b := xdrop f b
      let b := match b.storms with
        | o :: l => if 64 ≤ b.storms.length then bump (wc32 (portWard p o.sport) 8) 1 { b with storms := l } else b
        | [] => b
      match stormPath b.storms n.sport 17 n.rport with
      | some l =>
        let b := { b with storms := b.storms ++ [n] }
        let t := match chn b ch with | some c => c.tenant | none => 0
        let cyc := (b.storms.filter (fun x => x.ch ∈ ch :: l)).map (fun x => (x.ch, x.sport, x.rport))
        let b := logRec p { status := 0x15, tenant := t, handle := BitVec.ofNat 32 ch, objk := 2, cyc := cyc } b
        forEach (ch :: l) (fun k => updChan ⟨none, k⟩ (fun c => { c with marked := true })) (raiseK p 5 b)
      | none => bump (wc32 (portWard p n.sport) 7) 1 { b with storms := b.storms ++ [n] }
    | _ => b)

/-! ## Port reset (R169) -/

/-- The flits of a message that its sending port had still to give at the reset: zero, and poisoned (R169). -/
def cutFlits (now sentAt : Nat) (flits : List (BitVec 512)) (poison : List (BitVec 8)) : List (BitVec 512) × List (BitVec 8) :=
  let k := now - sentAt
  (flits.take k ++ (flits.drop k).map (fun _ => 0), poison.take k ++ (poison.drop k).map (fun _ => 0xFF))

/-- The SENDs of a reset port: what is still being received is completed with poison, and no answer reaches the port
(R169). -/
def cutSends (n : Nat) (b : Block) : Block :=
  let now := b.clk.fclk
  let mine := fun (k : ChKey) => ((getChan b k).bind txPortOf) = some n
  let b := { b with xbar := b.xbar.map (fun x => match x with
    | .msg m =>
      let z := cutFlits now m.sentAt m.flits m.poison
      if mine m.key then .msg { m with flits := z.1, poison := z.2 } else x
    | _ => x) }
  forEach ((allChans b).filter (fun k => mine k.1)) (fun k => updChan k.1 (fun c => { c with
    noAns := c.sent.map Prod.fst
    relay := c.relay.map (fun m =>
      let z := cutFlits now m.sentAt m.flits m.poison
      { m with flits := z.1, poison := z.2 }) })) b

/-- Messages on their way to a port's engine end with NACK_BROKEN, and its endpoints break until their
channels close (R169). -/
def resetChans (p : Params) (n : Nat) (b : Block) : Block :=
  let w := portWard p n
  let q := prt b n
  let beats := (q.statusOut.toList ++ q.opd).filter (fun x => x.kind = 1)
  let b := updPort n (fun q => { q with opd := [], statusOut := none }) (cutSends n b)
  let b := forEach beats (fun x c =>
    match x.queue, getChan c x.ch with
    | some k, _ => updMQ w k (fun m => { m with items := m.items.filter (fun i => !i.delivering) }) c
    | none, some k => when x.ack (outcomeBack p w x.ch k x.seqNo 0x09) c
    | none, none => c) b
  forEach (allChans b) (fun k c =>
    let c := when (decide (rxPortOf k.2 = some n)) (updChan k.1 (fun x => { x with rxBroken := true })) c
    when (decide (n ∈ hopsOf k.2)) (updChan k.1 (fun x => { x with brokenHops := n :: x.brokenHops })) c) b

end Sys2Proof.Machine
end

