-- ==== Sys2Proof/Machine/Combine.lean ====
section
/-! DEFINITION. Combining queues (R182 to R204): contributions, application, release and drain. -/

namespace Sys2Proof.Machine

/-! ## Contributions at the sending Ward (R186, R187) -/

/-- A part refused at the sending Ward with its own OFF in RESULT (R187, R355). -/
def refusePart (p : Params) (n : Nat) (hdr : BitVec 512) (st : Status) (b : Block) : Block :=
  let w := portWard p n
  let r := (prt b n).cretry + 1
  let b := when (decide (st = 0x07)) (fun b =>
    when (decide (r = stormThr p b w)) (bump (wc32 w 7) 1) (updPort n (fun q => { q with cretry := r }) b)) b
  answerHere p n hdr st (if st = 0x07 then BitVec.ofNat 32 (fld hdr 64 12) else 0) 0 0 (bumpNack p n st b)

/-- CONTRIB (R186, R187). HINGE_DOWN of an unreachable instance stands before the other refusals (R249, R250; DESIGN CHOICE,
log entry 46). -/
def actContrib (port : Nat) (hdr : BitVec 512) (flits : List (BitVec 512)) (s : State) : Outcome :=
  s.run (fun p b => portUp p b port) (fun p b =>
    let q := prt b port
    let w := portWard p port
    let qid := BitVec.ofNat 16 (fld hdr 32 16)
    let off := fld hdr 64 12
    let dst := otherInst p b (bitAt hdr 54) (fld hdr 48 6)
    if fld hdr 0 8 ≠ 2 ∨ msgBad hdr flits.length then answerHere p port hdr 0x13 0 0 0 b
    else if (match dst with | some i => !reachable p b i | none => false) then refusePart p port hdr 0x10 b
    else match runTen b port with
      | none => refusePart p port hdr 0x0F b
      | some t =>
        if 4 ≤ q.parts.length ∨ (off = 0 ∧ 4 ≤ q.contribs.length) then refusePart p port hdr 0x07 b
        else if dst = none ∧ (p.nw ≤ fld qid 6 6 ∨ fenced b (fld qid 6 6)) then refusePart p port hdr 0x08 b
        else
          let x : Part := {
            qid := qid, inst := none, port := port, tag := msgTag hdr, tenant := t, word := runWord p b port, off := off,
            nelem := fld hdr 80 13, final := bitAt hdr 96, flits := flits }
          let b := updPort port (fun q => { q with
            parts := q.parts ++ [⟨qid, dst, x.tag, decide (off = 0), x.final, off⟩],
            contribs := if off = 0 ∧ !q.contribs.any (fun c => c.qid = qid ∧ c.inst = dst) then q.contribs ++ [⟨qid, dst, x.word, false⟩]
              else q.contribs }) b
          match dst with
          | none => if fld qid 6 6 = w then xput (.part x) b else xsend (some w) (64 * flits.length) (.part x) b
          | some i =>
            let data := flits.flatMap (fun f => (List.range 4).map (fun j => BitVec.ofNat 128 (fld f (128 * j) 128)))
            hingePut (rte b i).hinge (mkItem p b 0x06 i t (partArgs qid off x.nelem x.final port 0) data) none
              (xtx (some w) (64 * flits.length) b))

/-! ## At the holder (R188 to R190) -/

/-- An answer to a part's sender, in this instance or another (R188). -/
def partBack (p : Params) (w : Nat) (x : Part) (st : Status) (result : Nat) (b : Block) : Block :=
  match x.inst with
  | none => answerPart p w x.port x.tag st result b
  | some i => when (reachable p b i) (sendItem (some w)
      (mkItem p b 0x20 i x.tenant (partAns x.port x.qid x.off st (BitVec.ofNat 32 result)) [])) b

/-- A queue fails: its entry settles FAILED at once as the root of its notices (R190, R199, R200). -/
def cqFail (p : Params) (w q : Nat) (st : Status) (aux : Word32) (b : Block) : Block :=
  let h := (cqu b w q).entry
  let b := logRec p (cqLog p b w q st aux) b
  let b := updEnt h (fun e => { e with tumbler := 0 }) b
  cqSettle p w q true st (settle p h .failed st (some (wordOf p b h)) true none none 0 b)

/-- The queue's entry is still unsettled. -/
def cqLive (b : Block) (c : CQ) : Bool :=
  (decide (c.st = .opened) || decide (c.st = .draining)) && live (ent b c.entry).st

/-- The decision of Table 6.4: status and RESULT for the sender, 0 when the part is accepted. -/
def partCheck (b : Block) (w : Nat) (c : CQ) (x : Part) : Status × Nat :=
  let mine := c.openC.find? (fun o => o.inst = x.inst ∧ o.port = x.port)
  let exp := match mine with | some o => o.exp | none => 0
  let held := ((Tbl.get [] b.cbParts w).map (fun y => y.flits.length)).sum
  if c.st = .free ∨ c.st = .quarantine ∨ c.gen % 16 ≠ fld x.qid 12 4 ∨ (ent b c.entry).st = .cancelled then (0x08, 0)
  else if x.tenant ≠ c.tenant then (0x0F, 0)
  else if c.failed then (0x09, 0)
  else if x.flits.length ≠ cdiv (x.nelem * elemSize c.ifmt) 64 then (0x13, 0)
  else if mine.isNone ∧ c.admits = c.n then (0x0B, 0)
  else if x.off ≠ exp then (0x07, exp)
  else if c.len < x.off + x.nelem ∨ (x.final ∧ x.off + x.nelem ≠ c.len) ∨ (¬ x.final ∧ x.off + x.nelem = c.len) then (0x13, 1)
  else if mine.isNone ∧ 16 ≤ c.openC.length then (0x07, x.off)
  else if 32 < held + x.flits.length then (0x07, x.off)
  else (0, 0)

/-- The record of a queue's first surplus contribution: it names the queue and the sending port (R189). -/
def surplusLog (w q : Nat) (c : CQ) (x : Part) : LogRec :=
  { status := 0x0B, src := .ward w, tenant := c.tenant, handle := BitVec.ofNat 32 (qidOf w q c + x.port * 2 ^ 16), objk := 3 }

/-- A part sampled by its holder (R188, R189); a part outside the vector also fails the queue, whose earlier parts are
answered first. -/
def arrivePart (p : Params) (w : Nat) (x : Part) (b : Block) : Block :=
  let q := fld x.qid 0 6
  let c := cqu b w q
  let r := partCheck b w c x
  let m := ((rng b c.ring).layer, (rng b c.ring).opid)
  let b := trForm p (.ward w) ⟨b.clk.ts, 0x42, .ward w, m.1, m.2, x.tenant, r.1.toNat,
    BitVec.ofNat 32 (x.off * 2 ^ 16 + x.qid.toNat)⟩ b
  if r.1 = 0 then
    let b := updCQ w q (fun c => { c with
      admits := if x.off = 0 then c.admits + 1 else c.admits,
      openC := if x.off = 0 then c.openC ++ [⟨x.inst, x.port, x.nelem, x.word⟩]
        else c.openC.map (fun o => if o.inst = x.inst ∧ o.port = x.port then { o with exp := x.off + x.nelem } else o) }) b
    { b with cbParts := Tbl.set [] b.cbParts w (Tbl.get [] b.cbParts w ++ [x]) }
  else if r.1 = 0x0B then
    let b := when (decide (c.surplus = 0 ∧ x.off = 0)) (logRec p (surplusLog w q c x)) b
    partBack p w x 0x0B 0 (when (decide (x.off = 0))
      (updCQ w q (fun c => { c with surplus := satAdd (2 ^ 32 - 1) c.surplus 1 })) b)
  else if r.1 = 0x13 then
    partBack p w x 0x13 0 (when (decide (r.2 = 1)) (cqFail p w q 0x13 0) b)
  else partBack p w x r.1 r.2 b

/-- A part as a PART item carries it. -/
def partOfItem (it : Item) : Part :=
  let n := it.data.length / 4
  { qid := BitVec.ofNat 16 (fld it.args 0 16), inst := some it.sinst, port := fld it.args 42 12, tag := 0, tenant := it.tenant,
    word := 0, off := fld it.args 16 12, nelem := fld it.args 28 13, final := bitAt it.args 41,
    flits := (List.range n).map (fun i => BitVec.ofNat 512
      ((List.range 4).map (fun j => (it.data.getD (4 * i + j) 0).toNat * 2 ^ (128 * j))).sum),
    pflit := fld it.args 54 16 }

/-- PART_ARRIVAL (R188): a part of this instance, or one a Hinge hands over (R263). -/
def actPartArrival (qid : BitVec 16) (inst port : Nat) (it : Option (Nat × Item)) (s : State) : Outcome :=
  s.runW (fld qid 6 6) (fun p b =>
    let w := fld qid 6 6
    let f := fun (x : XItem) => match x with
      | .part y => decide (y.qid = qid) && decide (y.port = port) && decide (inst = ownInst p b)
      | _ => false
    match it with
    | none => match xfind b f with
      | some (.part x) =>
        let b := xdrop f b
        arrivePart p w x (when (decide (portWard p port ≠ w)) (xrx w (64 * x.flits.length)) b)
      | _ => b
    | some (h, i) =>
      rxData p h i (fun i b =>
        let x := partOfItem i
        if i.kind ≠ 0x06 ∨ x.qid ≠ qid then b
        else if !(ten b i.tenant).en then partBack p w x 0x0F 0 b
        else arrivePart p w x (xrx w (64 * x.flits.length) b)) b)

/-- A tear notice applied at the queue's holder (R190): void for a contribution already counted, or one that never opened. -/
def tearAt (p : Params) (qid : BitVec 16) (i : Option Nat) (n : Nat) (word : Word32) (b : Block) : Block :=
  let w := fld qid 6 6
  let q := fld qid 0 6
  let c := cqu b w q
  if cqLive b c ∧ c.gen % 16 = fld qid 12 4 ∧ !c.failed ∧ c.openC.any (fun o => o.inst = i ∧ o.port = n) then
    cqFail p w q 0x09 word b
  else voidW w b

/-- TEAR_NOTICE (R190): of a port of this instance; one of another instance is a CHC TEAR item. -/
def actTearNotice (qid : BitVec 16) (inst port : Nat) (s : State) : Outcome :=
  s.runW (fld qid 6 6) (fun p b =>
    let w := fld qid 6 6
    let f := fun (x : XItem) => match x with
      | .tear k i n _ => decide (k = qid) && decide (n = port) && decide (i = if inst = ownInst p b then none else some inst)
      | _ => false
    match xfind b f with
    | some (.tear _ i n word) =>
      let b := xdrop f b
      tearAt p qid i n word (when (i.isSome || decide (portWard p port ≠ w)) (xrx w 16) b)
    | _ => b)

/-- The contributions open at a port are torn (R190): a notice to each holder, through a Hinge as CHC TEAR. -/
def tearAll (p : Params) (n : Nat) (b : Block) : Block :=
  let w := portWard p n
  let l := (prt b n).contribs
  let b := updPort n (fun q => { q with contribs := [] }) b
  forEach l (fun x c => match x.inst with
    | none => if fld x.qid 6 6 = w then xput (.tear x.qid none n x.word) c else xsend (some w) 16 (.tear x.qid none n x.word) c
    | some i => when (reachable p c i)
        (sendItem (some w) (mkItem p c 0x07 i ((runTen c n).getD 0) (chcArgs 2 x.qid.toNat x.word n) [])) c) b

/-! ## Application (R191 to R194, R202, R203) -/

/-- The cell of an element at allocation. -/
def initCell (c : CQ) : Cell :=
  if c.oper = 1 then { fp := BitVec.ofNat 32 (infF 24 true), int := -(2 ^ 63) }
  else if c.oper = 2 then { fp := BitVec.ofNat 32 (infF 24 false), int := 2 ^ 63 - 1 }
  else if c.fast then { fp := 0x80000000 }
  else {}

/-- Element `i` of a part, of `s` bytes (R186). -/
def elemAt (flits : List (BitVec 512)) (s i : Nat) : Nat := fld (flits.getD (i * s / 64) 0) (i * s % 64 * 8) (8 * s)

/-- The better of two keys under OPER. -/
def better (oper : Nat) (x y : Int) : Bool := if oper = 1 then decide (y < x) else decide (x < y)

/-- A cell with one contribution element applied. -/
def applyElem (c : CQ) (x : Elem) (cell : Cell) : Cell :=
  let nan := decide (x = .nan)
  if c.oper = 0 ∧ !c.fast then
    { cell with
      acc := cell.acc + elemAdd x, nan := cell.nan || nan, pinf := cell.pinf || decide (x = .inf false),
      ninf := cell.ninf || decide (x = .inf true), nz := cell.nz && isNegZero x }
  else if c.oper = 0 then { cell with fp := BitVec.ofNat 32 (f32Add cell.fp.toNat (toF32 x)) }
  else match x with
    | .nan => { cell with nan := true }
    | .int v => if better c.oper v cell.int then { cell with int := v } else cell
    | y => if better c.oper (f32Key (toF32 y)) (f32Key cell.fp.toNat) then { cell with fp := BitVec.ofNat 32 (toF32 y) } else cell

/-- A part's elements applied in ascending order; a poisoned flit spoils the cells it reaches (R287). -/
def applyPart (x : Part) (c : CQ) : CQ :=
  let s := elemSize c.ifmt
  (List.range x.nelem).foldl (fun c i =>
    let e := decodeElem c.ifmt (elemAt x.flits s i)
    let spoil := x.pflit / 2 ^ (i * s / 64) % 2 = 1
    { c with
      nanIn := if e = .nan then satAdd (2 ^ 32 - 1) c.nanIn 1 else c.nanIn,
      cells := Tbl.upd (initCell c) c.cells (x.off + i) (fun k => let k := applyElem c e k
        { k with bad := k.bad || decide spoil }) }) c

/-- PART_APPLY (R202, R189): the oldest part of the input buffer is applied whole and answered; the last
part of the last contribution releases the queue. -/
def actPartApply (w : Nat) (s : State) : Outcome :=
  s.runW w (fun p b =>
    match Tbl.get [] b.cbParts w with
    | [] => b
    | x :: l =>
      let q := fld x.qid 0 6
      let b := { b with cbParts := Tbl.set [] b.cbParts w l }
      let b := updCQ w q (fun c =>
        let c := applyPart x c
        if x.final then
          let d := c.doneCnt + 1
          { c with doneCnt := d, st := if d = c.n then .draining else c.st,
                   openC := c.openC.filter (fun o => !(decide (o.inst = x.inst) && decide (o.port = x.port))) }
        else c) b
      partBack p w x 0 0 b)

/-- The elements that share a 64-bit word of the store with element `i`: two FP32 cells lie in one word, every other cell has
words of its own (Table 6.2). -/
def wordMates (c : CQ) (i : Nat) : List Nat :=
  if c.fast ∨ c.oper ≠ 0 ∧ c.ifmt < 5 then [i / 2 * 2, i / 2 * 2 + 1] else [i]

/-- An uncorrectable word of an element cell (R199). -/
def spoilWord (i : Nat) (c : CQ) : CQ :=
  { c with cells := (wordMates c i).foldl (fun l j => if j < c.len then Tbl.upd (initCell c) l j (fun k => { k with bad := true }) else l) c.cells }

/-! ## Drain (R195 to R199) -/

/-- Bytes of an output element: FP32 and INT32 4, BF16 2, INT64 8. -/
def outSize (ofmt : Nat) : Nat := if ofmt = 2 then 2 else if ofmt = 7 then 8 else 4

/-- P of Table 6.7 for a float OFMT. -/
def outP (ofmt : Nat) : Nat := if ofmt = 2 then 8 else 24

/-- An output element, whether it is a NaN result and whether it overflowed or saturated (R196 to R199,
R203). -/
def drainElem (c : CQ) (k : Cell) : Nat × Bool × Bool :=
  let P := outP c.ofmt
  if c.ofmt = 6 ∨ c.ofmt = 7 then
    let n := if c.ofmt = 6 then 32 else 64
    if k.bad then (2 ^ (n - 1), false, false)
    else
      let v := if c.oper = 0 then k.acc / 2 ^ 149 else k.int
      let lo : Int := -(2 ^ (n - 1))
      let hi : Int := 2 ^ (n - 1) - 1
      let sat := decide (v < lo) || decide (hi < v)
      ((max lo (min hi v) % 2 ^ n).toNat, false, sat && decide (n = 32))
  else if k.bad then (nanF P, true, false)
  else if c.oper = 0 ∧ !c.fast then
    if k.nan || (k.pinf && k.ninf) then (nanF P, true, false)
    else if k.pinf then (infF P false, false, false)
    else if k.ninf then (infF P true, false, false)
    else let r := roundSum P k.acc k.nz; (r.1, false, r.2)
  else if k.nan || f32Nan k.fp.toNat then (nanF P, true, false)
  else let r := reround P k.fp.toNat; (r.1, false, r.2)

/-- One element converted into the output buffer. -/
def drainOne (c : CQ) : CQ :=
  let k := Tbl.get (initCell c) c.cells c.drained
  let r := drainElem c k
  { c with drained := c.drained + 1, outBuf := c.outBuf ++ [BitVec.ofNat 64 r.1], nanOut := c.nanOut + b2n r.2.1,
           ovf := c.ovf + b2n r.2.2, eccErr := c.eccErr || k.bad }

/-- The magnitude of an output element as FP32, for MAXABS (R327). -/
def outMag (ofmt v : Nat) : Nat :=
  if ofmt = 0 then f32Mag v
  else if ofmt = 2 then f32Mag (v * 2 ^ 16)
  else
    let a := (signedOf (8 * outSize ofmt) v).natAbs
    if a = 0 then 0 else (roundF 24 false (a * 2 ^ 149)).1

/-- The WATCH of a queue covers an output element as it is written (R326). -/
def watchOut (w q : Nat) (c : CQ) (v : Nat) (b : Block) : Block :=
  { b with watch := b.watch.map (fun x =>
    if x.kind = 1 ∧ x.obj = w * 64 + q then
      let f := if c.ofmt = 0 then v else v * 2 ^ 16
      let flt := decide (c.ofmt = 0) || decide (c.ofmt = 2)
      { x with crc := BitVec.ofNat 32 (crcRun x.crc.toNat (bytesOf (outSize c.ofmt) v)), nan := x.nan + b2n (flt && f32Nan f),
               inf := x.inf + b2n (flt && f32Inf f), maxabs := BitVec.ofNat 32 (max x.maxabs.toNat (outMag c.ofmt v)),
               bytes := x.bytes + outSize c.ofmt }
    else x) }

/-- A completed block of output written through the home Ward's MP (R195). -/
def drainBlock (p : Params) (w q : Nat) (b : Block) : Block :=
  let c := cqu b w q
  let z := outSize c.ofmt
  let n := c.outBuf.length
  if n * z = 256 ∨ (c.drained = c.len ∧ n ≠ 0) then
    let d := ((List.range n).map (fun i => (c.outBuf.getD i 0).toNat * 2 ^ (8 * z * i))).sum
    mpW p w (c.outptr + (c.drained - n) * z) (n * z) d c.tenant (ent b c.entry).d.be
      (updCQ w q (fun c => { c with outBuf := [], wrOut := c.wrOut + 1 }) b)
  else b

/-- Elements converted one by one. -/
def drainSome (p : Params) (w q : Nat) : Nat → Block → Block
  | 0, b => b
  | k + 1, b =>
    if (cqu b w q).drained < (cqu b w q).len then
      let b := updCQ w q drainOne b
      let c := cqu b w q
      drainSome p w q k (drainBlock p w q (watchOut w q c (c.outBuf.getLastD 0).toNat b))
    else b

/-- DRAIN_CONVERT (R195, R202): 8 elements of an EXACT queue, 32 of a FAST one. -/
def actDrainConvert (w q : Nat) (s : State) : Outcome :=
  s.runW w (fun p b =>
    let c := cqu b w q
    if c.st = .draining ∧ cqLive b c then drainSome p w q (if c.fast then 32 else 8) b else b)

/-- The drain has all its responses: the digest of a WATCH goes out first, then the entry settles (R328). -/
def drainFinish (p : Params) (w q : Nat) (b : Block) : Block :=
  let c := cqu b w q
  if c.st = .draining ∧ cqLive b c ∧ c.drained = c.len ∧ c.wrOut = 0 ∧ c.outBuf = [] ∧ ¬ c.digestOut then
    match b.watch.find? (fun x => x.kind = 1 ∧ x.obj = w * 64 + q) with
    | some x =>
      let top := 2 ^ 32 - 1
      let st : Status := if c.cancelLate then 0x04 else drainStatus c
      digestWrite p w x (digest (Nat.xor x.crc.toNat top) (min top x.nan) (min top x.inf) x.maxabs.toNat c.doneCnt c.nanIn
        (min 0xFFFF c.ovf) st.toNat 1 (x.bytes % 2 ^ 32)) (some (w * 64 + q)) (updCQ w q (fun c => { c with digestOut := true }) b)
    | none => drainSettle p w q b
  else b

/-- DRAIN_WRITE_RESPONSE (R195, R199). -/
def actDrainWriteResponse (w q : Nat) (resp : Resp) (s : State) : Outcome :=
  s.runW w (fun p b =>
    if (cqu b w q).wrOut = 0 then b
    else drainFinish p w q (updCQ w q (fun c => { c with wrOut := c.wrOut - 1, wrErr := c.wrErr || decide (resp ≠ .okay) }) b))

/-- QUEUE_NUMBER_FREE (R183). -/
def actQueueNumberFree (w q : Nat) (s : State) : Outcome :=
  s.runW w (fun _ b =>
    match (cqu b w q).st, (cqu b w q).freedAt with
    | .quarantine, some f => if f + 4096 ≤ b.clk.fclk then updCQ w q (fun c => { c with st := .free, freedAt := none }) b else b
    | _, _ => b)

/-! ## Answers back at a port (R355) -/

/-- The submission of a ring that a hasp tag names. -/
def tagSub (b : Block) (tag : Nat) : Option (Nat × Word32) :=
  let r := tag % 2 ^ 13
  ((rng b r).subs.find? (fun s => fld s.subid 0 15 = tag / 2 ^ 13 % 2 ^ 15)).map (fun s => (r, s.subid))

/-- The answer to a hasp operation of a ring: a refusal is a command fault of its submission (R264). -/
def ringAnswer (tag : Nat) (st : Status) (b : Block) : Block :=
  match tagSub b tag with
  | some x => when (decide (st ≠ 0)) (faultTo none x.1 x.2 st) b
  | none => b

/-- The unanswered part that an ANS item names by instance, OFF and queue ID bits 11:0. A NACK_FULL with another expected
offset answers a repeated part, so it names the last of those; every other answer names the first. -/
def farPart (l : List PartOut) (inst off q : Nat) (st : Status) (res : Nat) : Option PartOut :=
  let l := l.filter (fun x => decide (x.inst = some inst) && decide (x.off = off) && decide (x.qid.toNat % 2 ^ 12 = q))
  if st = 0x07 ∧ res ≠ off then l.getLast? else l.head?

/-- An answer of another instance (ANS, Table 9.5) at a port, by the request its tag names. -/
def farAnswer (p : Params) (n : Nat) (it : Item) (b : Block) : Block :=
  let tag := fld it.args 0 32
  let st : Status := BitVec.ofNat 8 (fld it.args 32 8)
  let res := BitVec.ofNat 32 (fld it.args 40 32)
  let push := fun (beat : BitVec 512) => updPort n (fun q => if q.inReset then q else
    { q with opd := q.opd ++ [{ kind := 2, ch := ⟨none, 0⟩, data := beat }] })
  if tag / 2 ^ 30 = 3 then
    (if st = 0 then ackAt ⟨none, tag / 2 ^ 16 % 2 ^ 14⟩ (BitVec.ofNat 16 tag) b else b)
  else if tag / 2 ^ 30 = 0 then
    push (ansBeat (BitVec.ofNat 16 tag) st 5 res 0 0) (updPort n (fun q => { q with hsigs := q.hsigs.erase (it.sinst, BitVec.ofNat 16 tag) }) b)
  else if tag / 2 ^ 28 = 6 then
    match farPart (prt b n).parts it.sinst (tag % 2 ^ 12) (tag / 2 ^ 12 % 16 + fld it.args 72 8 * 16) st res.toNat with
    | some x => push (ansBeat x.tag st 2 res 0 0) (partDone p n x.tag st b)
    | none => b
  else if tag / 2 ^ 28 = 5 then
    let id := tag % 2 ^ 16
    match chn b id with
    | some c =>
      let t := ((c.sent.head?).map Prod.snd).getD 0
      let b := if st = 0 then setChan id (some { c with sent := [], txPort := match c.tx with | .task _ => c.txPort | _ => none, txClosed := false }) b
        else setChan id none b
      push (ansBeat t st 3 (if st = 0 then BitVec.ofNat 32 id else 0) 0 0) b
    | none => b
  else match (prt b n).wait with
    | some k =>
      let d := (ent b k.handle).d
      when (decide (st ≠ 0) && decide ((tagPort n (waitKey k)).toNat = tag)) (faultTo (some (portWard p n)) d.ring d.subid st) b
    | none => b

/-- The port an ANS item concerns; none for a ring's hasp operation. -/
def farPort (b : Block) (it : Item) : Option Nat :=
  let tag := fld it.args 0 32
  if tag / 2 ^ 30 = 3 then (chn b (tag / 2 ^ 16 % 2 ^ 14)).bind txPortOf
  else if tag / 2 ^ 30 = 2 ∨ tag / 2 ^ 28 = 7 then none
  else if tag / 2 ^ 30 = 0 ∨ tag / 2 ^ 28 = 6 then some (tag / 2 ^ 16 % 2 ^ 12)
  else if tag / 2 ^ 28 = 4 then some (tag % 2 ^ 12)
  else (chn b (tag % 2 ^ 16)).bind (fun c => c.txPort)

/-- The item the port's Ward samples next: an answer, or the ACK of a message that has landed (R167). -/
def isAnswer (b : Block) (port : Nat) : XItem → Bool
  | .answer n _ => decide (n = port)
  | .ack k q _ => match getChan b k with
    | some c => decide (txPortOf c = some port) && (match c.rx with
      | .queue w m => (mqu b w m).items.all (fun i => decide (i.ch ≠ some k) || decide (i.seqNo ≠ q) || decide (i.landedAt ≤ b.clk.fclk))
      | _ => true)
    | none => false
  | _ => false

/-- An ANS item applied to the request its tag names; the answer to a ring's hasp operation concerns no port. -/
def applyAnswer (p : Params) (it : Item) (b : Block) : Block :=
  match farPort b it with
  | none => if fld it.args 30 2 = 2 then ringAnswer (fld it.args 0 32) (BitVec.ofNat 8 (fld it.args 32 8)) b else b
  | some n => farAnswer p n it b

/-- ANSWER_RETURN (R355, R167): the oldest answer for the port, or one that a Hinge hands over; the answer to a
ring's hasp operation concerns no port. -/
def actAnswerReturn (port : Nat) (it : Option (Nat × Item)) (s : State) : Outcome :=
  s.runK (fun p b =>
    let w := portWard p port
    match it with
    | some (h, x) => rxItem p h 1 false (fun b =>
        if x.kind ≠ 0x20 then b
        else match farPort b x with
          | none => applyAnswer p x b
          | some n => if n = port ∧ wardUp p b w then applyAnswer p x (xrx w 16 b) else b) b
    | none =>
      match (if wardUp p b w then xfind b (isAnswer b port) else none) with
      | some (.answer _ beat) =>
        let b := xrx w 16 (xdrop (isAnswer b port) b)
        let b := when (decide (fld beat 24 8 = 2)) (partDone p port (BitVec.ofNat 16 (fld beat 0 16)) (BitVec.ofNat 8 (fld beat 16 8))) b
        updPort port (fun q => if q.inReset then q else { q with opd := q.opd ++ [{ kind := 2, ch := ⟨none, 0⟩, data := beat }] }) b
      | some (.ack k q src) => ackAt k q (xfrom src w 16 (xdrop (isAnswer b port) b))
      | _ => b)

end Sys2Proof.Machine
end

