-- ==== Sys2Proof/Machine/Hasp.lean ====
section
/-! DEFINITION. Hasps (R205 to R216, R226, R264) and keys (R217 to R223). -/

namespace Sys2Proof.Machine

/-! ## Hasp operations -/

/-- The holding Keeper's check of an operation by tenant `t` (R208). -/
def haspCheck (b : Block) (h t : Nat) : Status :=
  if !(hsp b h).v then 0x0E else if (hsp b h).tenant ≠ t then 0x0F else 0

/-- A hasp of this instance as a global hasp ID (Table 9.1). -/
def haspId (p : Params) (b : Block) (h : Nat) : Word32 := BitVec.ofNat 32 (ownInst p b * 2 ^ 12 + h)

/-- SIGNAL(INC) at its Keeper (R207 to R209): the status of a refusal; a sum past 2^32 - 1 leaves COUNT, counts
in OVF_CNT and writes the record `lg`. `m` is the layer and operator of the HSIG trace entry. -/
def haspSignal (p : Params) (h : Nat) (inc : Word32) (t : Nat) (m : Nat × Nat) (lg : LogRec) (b : Block) : Status × Block :=
  let st := haspCheck b h t
  if st ≠ 0 then (st, b)
  else
    let v := (hsp b h).count.toNat + inc.toNat
    if 2 ^ 32 ≤ v then
      (0x12, logRec p { lg with status := 0x12, objk := 1, handle := haspId p b h, tenant := t }
        (updHasp h (fun x => { x with ovf := satAdd 0xFFFF x.ovf 1 }) b))
    else
      (0, trForm p .keeper ⟨b.clk.ts, 0x30, .keeper, m.1, m.2, t, 0, BitVec.ofNat 32 (v % 2 ^ 20 * 2 ^ 12 + h)⟩
        (updHasp h (fun x => { x with count := BitVec.ofNat 32 v }) b))

/-- RESET at its Keeper. -/
def haspReset (h t : Nat) (b : Block) : Status × Block :=
  let st := haspCheck b h t
  (st, when (decide (st = 0)) (updHasp h (fun x => { x with count := 0 })) b)

/-- The record of a refused SIGNAL names its source (R209). -/
def sigLog (p : Params) (b : Block) : SigSrc → LogRec
  | .settle r subid word _ => { ringLog b .keeper 0x12 r subid with aux := word }
  | .hsig n _ _ => { status := 0x12, aux := BitVec.ofNat 32 (ownInst p b * 2 ^ 12 + n) }
  | .remote v tag =>
    if tag.getLsbD 31 then { status := 0x12, ringV := true, ring := fld tag 0 13, subid := BitVec.ofNat 32 (fld tag 13 16) }
    else { status := 0x12, aux := BitVec.ofNat 32 (v.inst * 2 ^ 12 + fld tag 16 12) }

/-- Layer and operator of a signal's source (R309). -/
def sigMark (p : Params) (b : Block) : SigSrc → Nat × Nat
  | .settle r _ word _ => match findEntry p b word with
    | some h => ((ent b h).d.layer, (ent b h).d.opid)
    | none => ((rng b r).layer, (rng b r).opid)
  | .hsig n _ _ => match runEnt b n with
    | some e => (e.d.layer, e.d.opid)
    | none => (0xFFFF, 0xFFFF)
  | .remote _ _ => (0xFFFF, 0xFFFF)

/-- The tenant a signal acts for, none for an HSIG of a port without a RUNNING task. -/
def sigTenant : SigSrc → Option Nat
  | .settle _ _ _ t => some t
  | .hsig _ _ t => t
  | .remote v _ => some v.tenant

/-- What follows a signal: a refused settle form is a command fault of its submission, an HSIG is answered on
OPD, a remote one by an ANS item (R208, R209, R264). -/
def sigOutcome (p : Params) (src : SigSrc) (st : Status) (b : Block) : Block :=
  match src with
  | .settle r subid _ _ => when (decide (st ≠ 0)) (faultTo none r subid st) b
  | .hsig n tag _ => answerTo p none n (ansBeat tag st 5 0 0 0) b
  | .remote v tag => when (reachable p b v.inst) (sendItem none (mkItem p b 0x20 v.inst v.tenant (ansArgs tag st 0) [])) b

/-- A signal from outside the walk, checked and applied. -/
def sigApply (p : Params) (h : Nat) (inc : Word32) (src : SigSrc) (b : Block) : Block :=
  let r := match sigTenant src with
    | some t => haspSignal p h inc t (sigMark p b src) (sigLog p b src) b
    | none => (0x0F, b)
  sigOutcome p src r.1 r.2

/-- SIGNAL (R207): a settle form or an HSIG is the item on its way; a remote one comes from a Hinge. -/
def actSignal (hasp : Nat) (inc : BitVec 32) (src : SigSrc) (s : State) : Outcome :=
  s.runK (fun p b =>
    let f := fun (x : XItem) => match x with
      | .sig h i c => decide (h = hasp) && decide (i = inc) && decide (c = src)
      | _ => false
    match src with
    | .remote v _ => rxItem p v.hinge 1 true (fun b =>
        if (ten b v.tenant).en then sigApply p hasp inc src b else sigOutcome p src 0x0F b) b
    | _ => if (xfind b f).isSome then sigApply p hasp inc src (xdrop f b) else b)

/-! ## Waits (R211 to R215, R226) -/

/-- Waits registered on a hasp. -/
def waitersOn (b : Block) (h : Nat) : List HWait := b.waits.filter (fun x => x.hasp = h)

/-- A wait registered at this Keeper. -/
def registerWait (who : Waiter) (h : Nat) (target : Word32) (b : Block) : Block :=
  tookSeq { b with waits := b.waits ++ [⟨who, h, target, nextSeq b, false⟩] }

/-- Waits whose targets are met after the events of a cycle are selected; a later RESET or FORCE does not hold
them again (R213). -/
def selectWaits (b : Block) : Block :=
  { b with waits := b.waits.map (fun x => if x.target ≤ (hsp b x.hasp).count then { x with sel := true } else x) }

/-- Selected waits in ascending TARGET, then in order of registration. -/
def releaseOrder (b : Block) : List HWait :=
  let l := b.waits.filter (fun x => x.sel)
  (l.foldl (fun (acc : Tbl HWait) x => Tbl.ins acc (x.target.toNat * 2 ^ 64 + x.seqNo) x) []).map Prod.snd

/-- The walk held by a ring-form wait goes on. -/
def freeRing (p : Params) (r : Nat) (b : Block) : Block :=
  if (rng b r).walk.mode = .waitHasp then passRec p r (progress r b) else b

/-- The HREL trace entry (Table 11.4): AUX 0 for a ring form, 1 for a task form. -/
def trRel (p : Params) (x : HWait) (form : Nat) (m : Nat × Nat) (b : Block) : Block :=
  trForm p .keeper ⟨b.clk.ts, 0x31, .keeper, m.1, m.2, (hsp b x.hasp).tenant, form,
    BitVec.ofNat 32 (fld x.target 0 20 * 2 ^ 12 + x.hasp)⟩ b

/-- One release formed (R213): a ring goes on at once, a port is told through the crossbar, another instance
by an HREL item. A released wait is progress of its ring (R298). -/
def releaseOne (p : Params) (x : HWait) (b : Block) : Block :=
  let b := { b with waits := b.waits.erase x }
  match x.who with
  | .ring r => freeRing p r (trRel p x 0 ((rng b r).layer, (rng b r).opid) b)
  | .port n => match (prt b n).wait with
    | some k =>
      let d := (ent b k.handle).d
      xsend none 16 (.rel n k.handle k.gen) (trRel p x 1 (d.layer, d.opid) (when d.rinst.isNone (progress d.ring) b))
    | none => b
  | .remote i tag =>
    let b := trRel p x (if tag.getLsbD 31 then 0 else 1) (0xFFFF, 0xFFFF) b
    when (reachable p b i) (sendItem none (mkItem p b 0x04 i (hsp b x.hasp).tenant tag.toNat [])) b

/-- WAIT_RELEASE (R213): the releases of one fclk, at most 4. -/
def actWaitRelease (s : State) : Outcome :=
  s.runK (fun p b => let b := selectWaits b; forEach ((releaseOrder b).take 4) (releaseOne p) b)

/-- TASK_FORM_RELEASE (R213): the hold on the head is lifted; a release for a task that has gone is discarded. -/
def actTaskFormRelease (port : Nat) (s : State) : Outcome :=
  s.runW (portWard s.params port) (fun p b =>
    let f := fun (x : XItem) => match x with | .rel n _ _ => decide (n = port) | _ => false
    match xfind b f with
    | some (.rel _ h g) =>
      let b := xrx (portWard p port) 16 (xdrop f b)
      match (prt b port).wait with
      | some k =>
        if k.handle = h ∧ k.gen = g ∧ ¬ k.released then
          evRec p port 9 0 0 g h (updPort port (fun q => { q with wait := some { k with released := true } }) b)
        else voidW (portWard p port) b
      | none => voidW (portWard p port) b
    | _ => b)

/-- The task the read side of an issue queue takes first (R98): the PRELOADED one or the one whose wait is
registered, then LC before BE, by cycle of placement, by global handle. -/
def iqBefore (x y : IqEnt) : Bool :=
  if x.be ≠ y.be then !x.be else if x.at_ ≠ y.at_ then decide (x.at_ < y.at_) else decide (x.handle < y.handle)

/-- The head of a port's issue queue. -/
def iqHead (q : Port) : Option IqEnt :=
  let waits := fun (x : IqEnt) => match q.wait with | some k => decide (k.handle = x.handle) && decide (k.gen = x.gen) | none => false
  match q.iq.find? (fun x => x.preloaded || waits x) with
  | some x => some x
  | none => q.iq.foldl (fun a x => match a with
    | none => some x
    | some y => if iqBefore x y then some x else some y) none

/-- The head may be issued as far as its arguments go: PRELOADED, or ARGLEN = 0 (R101). -/
def headReady (b : Block) (q : Port) : Option IqEnt :=
  (iqHead q).filter (fun x => x.preloaded || decide ((ent b x.handle).d.arglen = 0))

/-- A queued task behind the head signals the hasp the head waits on (R226). -/
def selfBlock (b : Block) (q : Port) (x : IqEnt) (w : TaskWait) : Option Nat :=
  ((q.iq.filter (fun y => y.handle ≠ x.handle)).find? (fun y =>
    (ent b y.handle).d.sig.any (fun g => decide (g.hasp = w.hasp) && decide (g.inst = w.inst)))).map IqEnt.handle

/-- The wait of a port's head that nothing registered yet. -/
def waitDue (b : Block) (q : Port) : Option (IqEnt × TaskWait) :=
  match headReady b q with
  | some x => if q.wait.isNone then ((ent b x.handle).d.wait).map (fun w => (x, w)) else none
  | none => none

/-- WAIT_REGISTRATION (R211, R226, R264). -/
def actWaitRegistration (port : Nat) (s : State) : Outcome :=
  s.run (fun p b => portUp p b port) (fun p b =>
    match waitDue b (prt b port) with
    | none => b
    | some x =>
      let h := x.1.handle
      let d := (ent b h).d
      let w := portWard p port
      let inst := otherInst p b x.2.inst.isSome (x.2.inst.getD 0)
      let k : PortWait := ⟨h, x.1.gen, x.2.hasp, inst, x.2.target, b.clk.ts, false⟩
      let b := evRec p port 8 0 0 x.1.gen h (updPort port (fun q => { q with wait := some k }) b)
      let b := match selfBlock b (prt b port) x.1 x.2 with
        | some g =>
          logRec p { status := 0x13, src := .ward w, handleV := true, tenant := d.tenant, layer := d.layer, opid := d.opid,
                     subid := BitVec.ofNat 32 (x.2.hasp * 2 ^ 12 + port), handle := wordOf p b h, aux := wordOf p b g }
            (bump (wc32 w 9) 1 b)
        | none => b
      match inst with
      | none => registerWait (.port port) x.2.hasp x.2.target (xtx (some w) 16 b)
      | some i =>
        if reachable p b i then
          sendItem (some w) (mkItem p b 0x03 i d.tenant (hopArgs x.2.hasp 2 x.2.target (tagPort port (waitKey k))) []) b
        else faultTo (some w) d.ring d.subid 0x10 b)

/-! ## Hasp operations from other instances (R263, R264) -/

/-- HOP_ITEM (R264). -/
def actHopItem (via : Via) (hasp : Nat) (op : HopOp) (value tag : BitVec 32) (s : State) : Outcome :=
  s.runK (fun p => rxItem p via.hinge 1 true (fun b =>
    let inst := via.inst
    let tenant := via.tenant
    let ans := fun (st : Status) (b : Block) =>
      when (reachable p b inst) (sendItem none (mkItem p b 0x20 inst tenant (ansArgs tag st 0) [])) b
    if !(ten b tenant).en then ans 0x0F b
    else match op with
      | .signal => sigApply p hasp value (.remote via tag) b
      | .reset => let r := haspReset hasp tenant b; ans r.1 r.2
      | .wait =>
        let st := haspCheck b hasp tenant
        if st ≠ 0 then ans st b
        else if 1024 ≤ b.waits.countP (fun x => match x.who with | .remote _ _ => true | _ => false) then ans 0x0E b
        else registerWait (.remote inst tag) hasp value b
      | .waitRemove => { b with waits := b.waits.filter (fun x => !(decide (x.who = .remote inst tag) && decide (x.hasp = hasp))) }))

/-- HREL_ITEM (R264): the waiter named by the tag goes on; a release whose waiter has gone is discarded. -/
def actHrelItem (h : Nat) (tag : BitVec 32) (s : State) : Outcome :=
  s.runK (fun p => rxItem p h 1 true (fun b =>
    if tag.getLsbD 31 then
      let r := fld tag 0 13
      let k := (rng b r).walk
      let far := match k.hold with | some w => w.inst.isSome | none => false
      when (decide (k.mode = .waitHasp) && far && decide (fld k.subid 0 16 = fld tag 13 16)) (freeRing p r) b
    else
      let n := fld tag 0 12
      match (prt b n).wait with
      | some k => when (k.inst.isSome && decide (tagPort n (waitKey k) = tag)) (xsend none 16 (.rel n k.handle k.gen)) b
      | none => b))

/-! ## Hasp registers (R206, R216) -/

/-- KP_HASP_SEL.HASP. -/
def haspSel (p : Params) (b : Block) : Nat := rdf p b (kA 5 0x040) 0 12

/-- A write of D1 of the selected hasp: refused while waits are registered; it zeroes COUNT (R206). -/
def haspAssignAt (p : Params) (data : Word32) (b : Block) : Block :=
  let h := haspSel p b
  if (waitersOn b h).isEmpty then updHasp h (fun x => { x with count := 0, v := bitAt data 31, tenant := fld data 0 8 }) b
  else pgErr p (kA 5 0) 3 b

/-- HASP_ASSIGN (R206). -/
def actHaspAssign (data : BitVec 32) (s : State) : Outcome :=
  s.keeperReg (kA 5 0x048) data true (haspAssignAt · data)

/-- KP_HASP_FORCE.GO (R216): the record holds the old COUNT in SUBID and the new one in AUX (Table 10.6). -/
def haspForceAt (p : Params) (b : Block) : Block :=
  let h := haspSel p b
  let v := rd p b (kA 5 0x054)
  logRec p { status := 0, kind := 1, objk := 1, handle := haspId p b h, subid := (hsp b h).count, aux := v, tenant := (hsp b h).tenant }
    (updHasp h (fun x => { x with count := v }) b)

/-- HASP_FORCE (R216). -/
def actHaspForce (s : State) : Outcome := s.keeperReg (kA 5 0x058) 1 true haspForceAt

/-! ## Keys (R217 to R223) -/

/-- A key record (Table 13.7). -/
def keyRec (kind : Nat) (st : Status) (gseq : BitVec 16) (dport pool off count tenant reqport : Nat) : BitVec 128 :=
  BitVec.ofNat 128 (kind + st.toNat * 2 ^ 4 + gseq.toNat * 2 ^ 12 + dport * 2 ^ 28 + pool * 2 ^ 40 + off * 2 ^ 44
    + count * 2 ^ 56 + tenant * 2 ^ 69 + reqport * 2 ^ 77)

/-- A key record for a port: taken at once by an engine that is ONLINE, buffered otherwise (R358). -/
def keySend (n : Nat) (r : BitVec 128) (b : Block) : Block :=
  if (prt b n).online ∧ ¬ (prt b n).inReset then emit (.key n r) b
  else updPort n (fun q => { q with keyRecs := q.keyRecs ++ [r] }) b

/-- Buffered key records leave when the engine is ONLINE again. -/
def keyDrain (n : Nat) (b : Block) : Block :=
  if (prt b n).online ∧ ¬ (prt b n).inReset then
    forEach (prt b n).keyRecs (fun r => emit (.key n r)) (updPort n (fun q => { q with keyRecs := [] }) b)
  else b

/-- The event-ring entry of a key record at a port, under its RUNNING task (Table 11.6). -/
def keyEvent (p : Params) (n pool : Nat) (st : Status) (b : Block) : Block :=
  match (prt b n).run with
  | some r => evRec p n 12 st pool r.gen r.handle b
  | none => evRec p n 12 st pool 0 0 b

/-- A record that goes from a pool's Ward to a requester (R220). -/
def keyToReq (p : Params) (dport reqport : Nat) (r : BitVec 128) (b : Block) : Block :=
  let w := portWard p dport
  let v := portWard p reqport
  keySend reqport r (if v = w then b else xrx v 16 (xtx (some w) 16 b))

/-- A refusal or timeout to a requester: KIND 2, COUNT 0 (R220). -/
def keyRefuse (p : Params) (dport pool reqport : Nat) (st : Status) (b : Block) : Block :=
  keyToReq p dport reqport (keyRec 2 st 0 dport pool 0 0 (kpl b dport pool).tenant reqport) b

/-- The layer and operator of a requester's RUNNING task (R309). -/
def portMark (b : Block) (n : Nat) : Nat × Nat :=
  match runEnt b n with
  | some e => (e.d.layer, e.d.opid)
  | none => (0xFFFF, 0xFFFF)

/-- A KGRANT or KTMO trace entry (Table 11.4). -/
def trKey (p : Params) (kind dport pool reqport count : Nat) (b : Block) : Block :=
  let m := portMark b reqport
  trForm p (.ward (portWard p dport)) ⟨b.clk.ts, kind, .ward (portWard p dport), m.1, m.2, (kpl b dport pool).tenant, portIn p dport,
    BitVec.ofNat 32 (pool * 2 ^ 28 + reqport * 2 ^ 16 + count)⟩ b

/-- A grant (R219, R220). -/
def keyGrant (p : Params) (dport pool reqport count : Nat) (b : Block) : Block :=
  let k := kpl b dport pool
  let rec1 := fun (kind : Nat) => keyRec kind 0 k.nextGseq dport pool k.head count k.tenant reqport
  let b := updKPool dport pool (fun k => { k with
    head := (k.head + count) % max 1 k.size, free := k.free - count, nextGseq := k.nextGseq + 1,
    grants := k.grants ++ [⟨k.nextGseq, k.head, count, reqport, false⟩] }) b
  let b := trKey p 0x32 dport pool reqport count b
  let b := keyEvent p reqport pool 0 (keyToReq p dport reqport (rec1 0) b)
  keyEvent p dport pool 0 (keySend dport (rec1 1) b)

/-- A waiting request has reached the limit of WD_KEY_TMO: TICKS × 64 tclk are TICKS × 128 fclk (R222). -/
def keyDue (p : Params) (b : Block) (w : Nat) (x : KReq) : Bool :=
  let t := rdf p b (wA w 0 0x0D8) 0 16
  decide (t ≠ 0) && decide (x.since + t * 128 ≤ b.clk.fclk)

/-- A request granted in the cycle in which its limit is reached: its timeout is void (R222). -/
def keyLate (dport pool : Nat) (b : Block) : Block :=
  updKPool dport pool (fun k => { k with lateAt := b.clk.fclk, late := if k.lateAt = b.clk.fclk then k.late + 1 else 1 }) b

/-- The waiting queue examined from its head until a request does not fit (R221 step 3); no grants while EN
is 0 (R217). -/
def keyExamine (p : Params) (dport pool : Nat) : Nat → Block → Block
  | 0, b => b
  | n + 1, b =>
    let k := kpl b dport pool
    match k.waiting with
    | [] => b
    | x :: l =>
      if k.en ∧ x.count ≤ k.free then
        let b := when (keyDue p b (portWard p dport) x) (keyLate dport pool) (updKPool dport pool (fun k => { k with waiting := l }) b)
        keyExamine p dport pool n (keyGrant p dport pool x.reqport x.count b)
      else b

/-- Requests of a port that wait in any pool. -/
def keyWaits (b : Block) (n : Nat) : Nat := (b.kpool.map (fun x => x.2.waiting.countP (fun y => y.reqport = n))).sum

/-- KEYREQ at the requesting Ward (R218); a malformed request is answered BAD_COMMAND, as every KEYREQ on KEY (R354, Table
13.5). -/
def actKeyreq (port : Nat) (hdr : BitVec 512) (s : State) : Outcome :=
  s.run (fun p b => portUp p b port) (fun p b =>
    let dport := fld hdr 32 12
    let pool := fld hdr 48 4
    if fld hdr 0 8 ≠ 6 then answerHere p port hdr 0x13 0 0 0 b
    else if msgBad hdr 0 then keySend port (keyRec 2 0x13 0 dport pool 0 0 0 port) b
    else match runTen b port with
      | none => keySend port (keyRec 2 0x0F 0 dport pool 0 0 0 port) b
      | some t =>
        if nPorts p ≤ dport ∨ fenced b (portWard p dport) then keySend port (keyRec 2 0x08 0 dport pool 0 0 0 port) b
        else
          let it := XItem.keyReq dport port pool (fld hdr 64 13) t (msgTag hdr)
          if portWard p dport = portWard p port then xput it b else xsend (some (portWard p port)) 16 it b)

/-- KEY_REQUEST_ARRIVAL (R218, Table 7.5). -/
def actKeyRequestArrival (dport reqport : Nat) (s : State) : Outcome :=
  s.runW (portWard s.params dport) (fun p b =>
    let f := fun (x : XItem) => match x with | .keyReq d r _ _ _ _ => decide (d = dport) && decide (r = reqport) | _ => false
    match xfind b f with
    | some (.keyReq _ _ pool count t _) =>
      let b := xdrop f b
      let b := when (decide (portWard p dport ≠ portWard p reqport)) (xrx (portWard p dport) 16) b
      let k := kpl b dport pool
      if !k.en then keyRefuse p dport pool reqport 0x08 b
      else if t ≠ k.tenant then keyRefuse p dport pool reqport 0x0F b
      else if count = 0 ∨ k.size < count then keyRefuse p dport pool reqport 0x13 b
      else if k.waiting.length = 16 ∨ 4 ≤ keyWaits b reqport then keyRefuse p dport pool reqport 0x07 b
      else if k.waiting = [] ∧ count ≤ k.free then keyGrant p dport pool reqport count b
      else updKPool dport pool (fun k => { k with waiting := k.waiting ++ [⟨reqport, count, b.clk.fclk, b.clk.ts⟩] }) b
    | _ => b)

/-- TAIL passes the grants returned (R221 step 2). -/
def keyTail (k : KPool) : Nat → KPool
  | 0 => k
  | n + 1 => match k.grants with
    | [] => k
    | g :: l => if g.returned then
        keyTail { k with grants := l, tail := (g.off + g.count) % max 1 k.size, free := k.free + g.count } n
      else k

/-- A return at the pool's holder (R221). -/
def keyReturnAt (p : Params) (dport pool : Nat) (gseq : BitVec 16) (b : Block) : Block :=
  let k := kpl b dport pool
  if k.grants.any (fun g => decide (g.gseq = gseq) && !g.returned) then
    let k := { k with grants := k.grants.map (fun g => if g.gseq = gseq then { g with returned := true } else g) }
    keyExamine p dport pool k.waiting.length (updKPool dport pool (fun _ => keyTail k k.grants.length) b)
  else bump (wc32 (portWard p dport) 11) 1 b

/-- RETURN_UNUSED at the requester's Ward (R221); a DPORT with no holder is answered NACK_CLOSED. -/
def actReturnUnused (port : Nat) (hdr : BitVec 512) (s : State) : Outcome :=
  s.run (fun p b => portUp p b port) (fun p b =>
    let dport := fld hdr 32 12
    if fld hdr 0 8 ≠ 7 ∨ msgBad hdr 0 then answerHere p port hdr 0x13 0 0 0 b
    else if nPorts p ≤ dport ∨ fenced b (portWard p dport) then answerHere p port hdr 0x08 0 0 0 b
    else
      let it := XItem.keyRet dport (fld hdr 48 4) (BitVec.ofNat 16 (fld hdr 64 16)) port (msgTag hdr)
      if portWard p dport = portWard p port then xput it b else xsend (some (portWard p port)) 16 it b)

/-- RETURN (R221): a destination's return on KRET, POOL in bits 3:0 and GSEQ in bits 19:4 (Table 13.1). -/
def actReturnKret (port : Nat) (data : BitVec 32) (s : State) : Outcome :=
  s.run (fun p b => portUp p b port) (fun p b => keyReturnAt p port (fld data 0 4) (BitVec.ofNat 16 (fld data 4 16)) b)

/-- A RETURN_UNUSED on its way. -/
def isKeyRet (dport pool : Nat) (gseq : BitVec 16) : XItem → Bool
  | .keyRet d k g _ _ => decide (d = dport) && decide (k = pool) && decide (g = gseq)
  | _ => false

/-- KEY_RETURN (R221): a RETURN_UNUSED at the pool's holder, answered OK once applied (R354). -/
def actKeyReturn (dport pool : Nat) (gseq : BitVec 16) (s : State) : Outcome :=
  s.runW (portWard s.params dport) (fun p b =>
    let f := isKeyRet dport pool gseq
    match xfind b f with
    | some (.keyRet _ _ _ n tag) =>
      let w := portWard p dport
      let b := when (decide (w ≠ portWard p n)) (xrx w 16) (xdrop f b)
      answerTo p (some w) n (ansBeat tag 0 7 0 0 0) (keyReturnAt p dport pool gseq b)
    | _ => b)

/-- KEY_TIMEOUT (R222) of the request at a place of the queue; the record names the requester in [27:16], DPORT in [15:4] and
POOL in [3:0] of HANDLE. The timeout of a request that a return of the same cycle has granted is void (R31). -/
def actKeyTimeout (dport pool idx : Nat) (s : State) : Outcome :=
  s.runW (portWard s.params dport) (fun p b =>
    let w := portWard p dport
    let k := kpl b dport pool
    let late := fun (b : Block) => if k.late ≠ 0 ∧ k.lateAt = b.clk.fclk then
        voidW w (updKPool dport pool (fun k => { k with late := k.late - 1 }) b) else b
    match k.waiting[idx]? with
    | none => late b
    | some x =>
      if keyDue p b w x then
        let b := updKPool dport pool (fun k => { k with waiting := k.waiting.eraseIdx idx }) b
        let b := keyEvent p x.reqport pool 0x0A (keyRefuse p dport pool x.reqport 0x0A b)
        let b := trKey p 0x33 dport pool x.reqport 0 (bump (wc32 w 10) 1 b)
        let b := logRec p {
          status := 0x0A, src := .ward w, tenant := k.tenant, objk := 4,
          handle := BitVec.ofNat 32 (x.reqport * 2 ^ 16 + dport * 2 ^ 4 + pool) } b
        keyExamine p dport pool 16 b
      else late b)

/-- A pool reset (R223): grants void, waiters answered with `st`, a KIND 3 record to the destination. -/
def keyPoolReset (p : Params) (n pool : Nat) (st : Status) (b : Block) : Block :=
  let k := kpl b n pool
  let b := updKPool n pool (fun k => { k with grants := [], waiting := [], head := 0, tail := 0, free := k.size }) b
  let b := forEach k.waiting (fun x => keyRefuse p n pool x.reqport st) b
  keySend n (keyRec 3 0 0 n pool 0 0 k.tenant 0) b

/-- The port and pool of WD_KEY_SEL; none for a port at or above NE, which sets SEL_RANGE (R401). -/
def keySel (p : Params) (b : Block) (w : Nat) : Option (Nat × Nat) :=
  let i := rdf p b (wA w 3 0x040) 0 6
  if i < p.ne then some (w * p.ne + i, rdf p b (wA w 3 0x040) 8 4) else none

/-- An enable that R217 refuses. -/
def keyEnBad (p : Params) (b : Block) (n : Nat) (k : KPool) (size : Nat) : Bool :=
  decide (portOwn p b n ≠ some k.tenant) || decide (size = 0) || decide (4096 < size) || decide (2 ^ 32 < (k.base + size) * 256)

/-- WD_KEY_DATA0 (0) or WD_KEY_DATA1 (1) at a Ward (R217, Table 7.4); D2 and D3 are RO. -/
def keyCfgAt (p : Params) (k : Nat) (v : Word32) (w : Nat) (b : Block) : Block :=
  match keySel p b w with
  | none => pgErr p (wA w 3 0) 11 b
  | some x =>
    let q := kpl b x.1 x.2
    if k = 0 then
      if q.en then pgErr p (wA w 3 0) 5 b
      else updKPool x.1 x.2 (fun q => { q with base := fld v 8 24, tenant := fld v 0 8 }) b
    else if k = 1 then
      let en := bitAt v 31
      if q.en then (if en then pgErr p (wA w 3 0) 5 b else updKPool x.1 x.2 (fun q => { q with en := false }) b)
      else
        let size := fld v 0 13
        let bad := en && keyEnBad p b x.1 q size
        when bad (pgErr p (wA w 3 0) 5) (updKPool x.1 x.2 (fun q => { q with
          size := size, free := size - (q.grants.map Grant.count).sum, en := en && !bad }) b)
    else b

/-- KEY_POOL_CFG_WRITE (R217). -/
def actKeyPoolCfgWrite (tgt : WTarget) (k : Nat) (data : BitVec 32) (s : State) : Outcome :=
  s.wardReg tgt 3 (0x044 + 4 * k) data true (fun p w b => keyCfgAt p k data w b)

/-- WD_KEY_CTRL.RESET at a Ward. -/
def keyResetAt (p : Params) (w : Nat) (b : Block) : Block :=
  match keySel p b w with
  | none => pgErr p (wA w 3 0) 11 b
  | some x => keyPoolReset p x.1 x.2 0x08 b

/-- KEY_POOL_RESET (R223). -/
def actKeyPoolReset (tgt : WTarget) (s : State) : Outcome := s.wardReg tgt 3 0x054 1 true keyResetAt

end Sys2Proof.Machine
end

