-- ==== Sys2Proof/Machine/Issue.lean ====
section
/-! DEFINITION. The engine ports (R98 to R102, R104, R346 to R362): preload, issue, cancel acknowledgement,
completion, the small requests of Table 13.5, CTL, snapshots and port reset. -/

namespace Sys2Proof.Machine

/-! ## Preload (R99, R100, R349) -/

/-- The task to be preloaded: the head of the issue queue, or the stage of a port whose queue is empty (R87). -/
def preloadNext (b : Block) (q : Port) : Option (Nat × Nat) :=
  match iqHead q with
  | some x => if (ent b x.handle).d.arglen ≠ 0 ∧ ¬ x.preloaded ∧ ¬ x.copyBad then some (x.handle, x.gen) else none
  | none => q.stage.filter (fun x => decide ((ent b x.1).d.arglen ≠ 0))

/-- The 256-byte blocks that a range of device memory touches. -/
def blocksOf (addr len : Nat) : List Nat := (List.range ((addr + len - 1) / 256 + 1 - addr / 256)).map (fun i => (addr / 256 + i) * 256)

/-- PRELOAD_START (R99): ARGLEN × 64 B from ARGPTR through the Ward's MP; none in DRAIN (R295), none behind a RUNNING
task in minimal mode (R387). -/
def actPreloadStart (port : Nat) (s : State) : Outcome :=
  s.run (fun p b => portUp p b port) (fun p b =>
    let may := runState b && decide ((prt b port).shadow = .free) && (!b.boot.minimal || (prt b port).run.isNone)
    match (if may then preloadNext b (prt b port) else none) with
    | none => b
    | some x =>
      let d := (ent b x.1).d
      let b := updPort port (fun q => { q with shadow := .loading x.1 x.2 (2 * d.arglen) 0 }) b
      forEach (blocksOf d.argptr (64 * d.arglen)) (fun a => mpR p (portWard p port) a d.tenant d.be) b)

/-- A task as CAN, PRE and CMP name it: handle and generation (Tables 13.1, 13.4). -/
def hdlOf (h gen : Nat) : BitVec 25 := BitVec.ofNat 25 (gen % 256 * 2 ^ 17 + h)

/-- The error of a preload after a response (R100): the first one stands. -/
def preErr (err : Status) (r : Resp) : Status :=
  if err ≠ 0 then err else match r with | .okay => 0 | .fault => 0x06 | .poison => 0x05

/-- ARGUMENT_READ_RESPONSE (R99, R349): the beats go out on PRE, with zero data from the faulting one on. -/
def actArgumentReadResponse (port : Nat) (resp : Resp) (beats : List (BitVec 256)) (s : State) : Outcome :=
  s.run (fun p b => portUp p b port) (fun _ b =>
    match (prt b port).shadow with
    | .loading h g left err =>
      if beats.length ≤ left then
        let e := preErr err resp
        let b := updPort port (fun q => { q with shadow := .loading h g (left - beats.length) e }) b
        forEach beats.zipIdx (fun x => emit (.pre port (hdlOf h g) (if e = 0 then x.1 else 0) (decide (x.2 + 1 = left)))) b
      else b
    | _ => b)

/-- The queued task whose arguments the shadow buffer holds becomes PRELOADED (R99). -/
def markPreloaded (p : Params) (n h gen : Nat) (b : Block) : Block :=
  match (prt b n).iq.find? (fun x => x.handle = h ∧ x.gen = gen ∧ !x.preloaded) with
  | none => b
  | some x =>
    let w := portWard p n
    let b := updPort n (fun q => { q with iq := q.iq.map (fun y => if y = x then { y with preloaded := true } else y) }) b
    let b := evRec p n 3 0 ((ent b h).d.arglen % 64) gen h b
    if w = homeOf h then proxyState .preloaded h b else xsend (some w) 16 (.proxy (wordOf p b h) .preloaded) b

/-- PRELOAD_COMPLETE (R99): also for a staged task that became PLACED with its arguments already there. -/
def actPreloadComplete (port : Nat) (s : State) : Outcome :=
  s.run (fun p b => portUp p b port) (fun p b =>
    match (prt b port).shadow with
    | .loading h g 0 e => markPreloaded p port h g (updPort port (fun q => { q with shadow := .full h g e }) b)
    | .full h g _ => markPreloaded p port h g b
    | _ => b)

/-! ## Issue (R101, R102, R347, R348) -/

/-- The ISS descriptor (Table 13.2). -/
def issDesc (b : Block) (h gen : Nat) (argfault : Status) : BitVec 512 :=
  let e := ent b h
  let d := e.d
  let g := fun (i : Nat) =>
    let x := d.guards.getD i 0
    ((e.idx.getD i 0).toNat + fld x 0 12 * 2 ^ 32 + fld x 14 2 * 2 ^ 44) * 2 ^ (256 + 64 * i)
  BitVec.ofNat 512 (h + gen % 256 * 2 ^ 17 + d.func * 2 ^ 32 + argfault.toNat * 2 ^ 56 + d.layer * 2 ^ 64 + d.opid * 2 ^ 80
    + d.arglen * 2 ^ 96 + (b2n d.be + 2 * b2n d.watch + 4 * b2n d.relay) * 2 ^ 104 + (tenTag b d.tenant).toNat * 2 ^ 128
    + d.argptr * 2 ^ 192 + g 0 + g 1 + g 2 + g 3)

/-- ARGFAULT of a task: the error of the buffer that holds its arguments (R100). -/
def argFault (q : Port) (h gen arglen : Nat) : Status :=
  match q.shadow with
  | .full a g e => if a = h ∧ g = gen ∧ arglen ≠ 0 then e else 0
  | _ => 0

/-- The head that may be issued now (R101, R211, R295): no task RUNNING, its wait released, its copy readable, and its
entry not settled where the port's Ward `w` holds it; of a proxy the Ward learns by its directive (R57). -/
def issueHead (b : Block) (w : Nat) (q : Port) : Option IqEnt :=
  if q.run.isNone ∧ q.iss.isNone ∧ runState b then
    (headReady b q).filter (fun x => !x.copyBad && (live (ent b x.handle).st || decide (homeOf x.handle ≠ w)) &&
      ((ent b x.handle).d.wait.isNone || (match q.wait with | some k => k.released && decide (k.handle = x.handle) | none => false)))
  else none

/-- The task enters RUNNING: counters, release to the Keeper, descriptor, notices (R57, R81, R101, R102). -/
def commitIssue (p : Params) (n : Nat) (x : IqEnt) (b : Block) : Block :=
  let h := x.handle
  let e := ent b h
  let w := portWard p n
  let desc := issDesc b h x.gen (argFault (prt b n) h x.gen e.d.arglen)
  let b := updPort n (fun q => { q with
    iq := q.iq.filter (fun y => !(decide (y.handle = h) && decide (y.gen = x.gen))), wait := none,
    run := some ⟨h, x.gen, b.clk.fclk, b.clk.ts⟩, iss := some h, issBinds := decide (e.d.arglen ≠ 0) }) b
  let b := bump (wc64 w 0) 1 (bump (wc64 w 4) (b.clk.fclk - e.readyAt) b)
  let b := emit (.iss n desc) (updEnt h (fun e => { e with runAt := b.clk.fclk }) b)
  let b := evRec p n 4 0 0 x.gen h (trTask p (.ward w) 0x12 e.d 0 (taskWord p (some n) x.gen h) b)
  let b := xsend (some w) 16 (.release n h true) b
  let b := bindTask p n (wordOf p b h) b
  if w = homeOf h then proxyState .running h b else xsend (some w) 16 (.proxy (wordOf p b h) .running) b

/-- ISSUE_COMMIT (R101): `issok` is EPn_CTL_ISSOK. -/
def actIssueCommit (port : Nat) (issok : Bool) (s : State) : Outcome :=
  s.run (fun p b => portUp p b port) (fun p b =>
    match (if issok then issueHead b (portWard p port) (prt b port) else none) with
    | some x => commitIssue p port x b
    | none => b)

/-- LIMIT of a timeout class, in units of 1,024 tclk (R67, Table 15.5). -/
def tmoLimit (p : Params) (b : Block) (c : Nat) : Nat := if c = 0 then 0 else rdf p b (kA 4 (0x100 + 4 * c)) 0 24

/-- ISS_DESCRIPTOR_ACCEPTED (R67, R99, R348): the class limit is read; the shadow buffer is free. -/
def actIssDescriptorAccepted (port : Nat) (s : State) : Outcome :=
  s.run (fun p b => portUp p b port) (fun p b =>
    match (prt b port).iss with
    | none => b
    | some h =>
      let q := prt b port
      let l := tmoLimit p b (ent b h).d.tmo
      let b := updPort port (fun x => { x with iss := none, issBinds := false, shadow := if q.issBinds then .free else x.shadow }) b
      when (decide (l ≠ 0)) (updEnt h (fun e => { e with tmoLimit := b.clk.fclk + l * 2048 })) b)

/-- The shadow buffer holds the arguments of a task, whole or in part. -/
def shadowHolds (s : Shadow) (h gen : Nat) : Bool :=
  match s with
  | .free => false
  | .loading a g _ _ => decide (a = h) && decide (g = gen)
  | .full a g _ => decide (a = h) && decide (g = gen)

/-- A settlement of the entry is on its way to its home Ward. -/
def settleOut (p : Params) (b : Block) (h : Nat) : Bool := (xany b (isSettle (wordOf p b h))).isSome

/-- CAN_ACK (R54, R81, R104, R350): the task is released; an acknowledgement of no outstanding CAN counts as
stale. -/
def actCanAck (port : Nat) (hdl : BitVec 25) (held : Bool) (s : State) : Outcome :=
  s.run (fun p b => portUp p b port) (fun p b =>
    let w := portWard p port
    let h := fld hdl 0 17
    let g := fld hdl 17 8
    if hdl ∈ (prt b port).cans then
      let b := updPort port (fun q => { q with
        cans := q.cans.erase hdl, shadow := if shadowHolds q.shadow h g then .free else q.shadow }) b
      let b := evRec p port 7 0 (b2n (!held)) g h (xsend (some w) 16 (.release port h false) b)
      let e := ent b h
      when (decide (e.gen = g) && (!live e.st || settleOut p b h)) (updEnt h (fun e => { e with released := true })) b
    else bump (wc32 w 1) 1 b)

/-- ISSUE_COPY_REREAD (Table 10.4). -/
def actIssueCopyReread (port handle : Nat) (s : State) : Outcome :=
  s.run (fun p b => portUp p b port) (fun p b =>
    let f := fun (x : XItem) => match x with | .reread n h => decide (n = port) && decide (h = handle) | _ => false
    if (xfind b f).isSome then
      let b := when (decide (portWard p port ≠ homeOf handle)) (xrx (portWard p port) 16) (xdrop f b)
      updPort port (fun q => { q with iq := q.iq.map (fun x => if x.handle = handle then { x with copyBad := false } else x) }) b
    else b)

/-! ## Completion (R277, R351, R352) -/

/-- A returned status as it is recorded: codes an engine may not return become TASK_FAILED, with the code in AUX
(R277). -/
def cmpStatus (raw : Nat) : Status × Word32 :=
  if raw = 2 ∨ raw = 3 ∨ raw = 4 ∨ raw = 0x11 ∨ raw = 0x14 ∨ 0x16 ≤ raw then (0x01, BitVec.ofNat 32 raw) else (BitVec.ofNat 8 raw, 0)

/-- The RUNNING task of a port completes: its contributions are torn, its bind slots freed, its settlement is
applied here or forwarded to the home Ward (R57, R151, R190). -/
def finishTask (p : Params) (n : Nat) (r : RunInfo) (raw : Nat) (bytes : List Nat) (stats : Option (BitVec 256)) (b : Block) : Block :=
  let w := portWard p n
  let h := r.handle
  let e := ent b h
  let st := cmpStatus raw
  let b := evRec p n 5 (BitVec.ofNat 8 raw) 0 r.gen h b
  let b := trTask p (.ward w) 0x13 e.d (raw % 256) (taskWord p (some n) r.gen h) b
  let b := forEach bytes.zipIdx (fun x c => bump (wc64 w (5 + x.2)) x.1 (bump (tnA e.d.tenant (0x310 + 8 * x.2)) x.1 c)) b
  let b := tally p (some w) e.d.tenant (tallyBytes bytes) b
  let b := unbindTask p n (tearAll p n b)
  let b := updPort n (fun q => { q with run := none }) b
  let busy := b.clk.fclk - r.commit
  let qwait := e.runAt - e.readyAt
  if w = homeOf h then homeCmp p h st.1 st.2 busy qwait stats b
  else xsend (some w) 16 (.settle (wordOf p b h) st.1 st.2 busy qwait stats) b

/-- BYTES_L0 to BYTES_L3 of a completion record (Table 13.4). -/
def cmpBytes (rec1 : BitVec 256) : List Nat := [fld rec1 64 48, fld rec1 112 48, fld rec1 160 48, fld rec1 208 48]

/-- CMP_RECORD (R351, R352): one that does not name the RUNNING task is discarded (R51). -/
def actCmpRecord (port : Nat) (rec1 : BitVec 256) (stats : Option (BitVec 256)) (eoc : Bool) (s : State) : Outcome :=
  s.run (fun p b => portUp p b port) (fun p b =>
    match (prt b port).run with
    | some r =>
      if r.handle = fld rec1 0 17 ∧ r.gen % 256 = fld rec1 17 8 then
        endCycle p eoc (finishTask p port r (fld rec1 32 8) (cmpBytes rec1) (if bitAt rec1 25 then stats else none) b)
      else bump (wc32 (portWard p port) 1) 1 b
    | none => bump (wc32 (portWard p port) 1) 1 b)

/-! ## HSIG, DOORBELL, SLOTWR (Table 13.5) -/

/-- HSIG (R207, R208, R249, R250): forwarded to the holding Keeper, here or in another instance. HINGE_DOWN stands before the
other refusals (DESIGN CHOICE, log entry 46). -/
def actHsig (port : Nat) (hdr : BitVec 512) (s : State) : Outcome :=
  s.run (fun p b => portUp p b port) (fun p b =>
    let w := portWard p port
    let h := fld hdr 32 12
    let inc := BitVec.ofNat 32 (fld hdr 64 32)
    if fld hdr 0 8 ≠ 5 ∨ msgBad hdr 0 then answerHere p port hdr 0x13 0 0 0 b
    else match otherInst p b (bitAt hdr 54) (fld hdr 48 6) with
      | none => xsend (some w) 16 (.sig h inc (.hsig port (msgTag hdr) (runTen b port))) b
      | some i =>
        if !reachable p b i then answerHere p port hdr 0x10 0 0 0 b
        else match runTen b port with
          | none => answerHere p port hdr 0x0F 0 0 0 b
          | some t =>
            sendItem (some w) (mkItem p b 0x03 i t (hopArgs h 0 inc (tagReq port (msgTag hdr))) [])
              (updPort port (fun q => { q with hsigs := q.hsigs ++ [(i, msgTag hdr)] }) b))

/-- The enabled ring in a slot of a tenant's window. -/
def ringOf (b : Block) (t slot : Nat) : Option Nat :=
  (b.rings.find? (fun x => x.2.enable ∧ rTenant x.2 = t ∧ rSlot x.2 = slot)).map Prod.fst

/-- The ring that a slot of a tenant's window names: the enabled one, or the first whose descriptor holds the slot. -/
def ringNamed (b : Block) (t slot : Nat) : Option Nat :=
  (ringOf b t slot).orElse (fun _ => (b.rings.find? (fun x => rTenant x.2 = t ∧ rSlot x.2 = slot)).map Prod.fst)

/-- The home Ward of the ring that a slot names; Ward 0 for a slot that names none (DESIGN CHOICE, log entry 46). -/
def bellWard (b : Block) (t slot : Nat) : Nat := ((ringNamed b t slot).map (fun r => rHome (rng b r))).getD 0

/-- A doorbell that is ignored: TN_STAT.DB_ERR, and WD_CNT.DB_ERR (R115). -/
def badBell (p : Params) (t slot : Nat) (b : Block) : Block :=
  bump (wc32 (bellWard b t slot) 5) 1 (setBits p (tnA t 0x048) 1 b)

/-- A doorbell at the ring's home Ward (R115). -/
def ringBell (p : Params) (t slot : Nat) (wptr : BitVec 16) (b : Block) : Block :=
  match ringOf b t slot with
  | none => badBell p t slot b
  | some r =>
    let g := rng b r
    let s := 2 ^ rLog g
    if (wptr - g.rptr).toNat ≤ s ∧ (wptr - g.wptr).toNat ≤ s then updRing r (fun g => { g with wptr := wptr }) b
    else badBell p t slot b

/-- The fclk at which an item that leaves Ward `v` now is sampled at Ward `w` (R108). -/
def dueAt (p : Params) (v w : Nat) (b : Block) : Nat := b.clk.fclk + p.lat.getD v 4 + 3 + p.lat.getD w 4

/-- DOORBELL (R116): refused without a RUNNING task or for a ring that does not let engines ring; another one travels to
the ring's home Ward, which applies it under R115. -/
def actDoorbell (port : Nat) (hdr : BitVec 512) (s : State) : Outcome :=
  s.run (fun p b => portUp p b port) (fun p b =>
    let slot := fld hdr 32 6
    if fld hdr 0 8 ≠ 8 ∨ msgBad hdr 0 then answerHere p port hdr 0x13 0 0 0 b
    else match runTen b port with
      | none => answerHere p port hdr 0x0F 0 0 0 b
      | some t =>
        if ((ringNamed b t slot).map (fun r => bitAt (rng b r).d1 14)).getD true then
          let w := portWard p port
          let v := bellWard b t slot
          xsend (some w) 16 (.bell (dueAt p w v b) v t slot (BitVec.ofNat 16 (fld hdr 48 16))) (answerHere p port hdr 0 0 0 0 b)
        else answerHere p port hdr 0x0F 0 0 0 b)

/-- A slot's VALUE written with V := 1, or V cleared (R73). -/
def writeSlot (w n : Nat) (clear : Bool) (v : Word32) (b : Block) : Block :=
  updSlot w n (fun s => if clear then { s with v := false } else { s with v := true, value := v }) b

/-- A slot write applied at the slot's Ward, where it is also answered: a slot of another tenant is refused (R354). -/
def slotWrite (p : Params) (v n : Nat) (clear : Bool) (value : Word32) (port : Nat) (tag : BitVec 16) (t : Option Nat) (b : Block) : Block :=
  let st : Status := if t = some (slt b v n).tenant then 0 else 0x0F
  answerTo p (some v) port (ansBeat tag st 9 0 0 0) (when (decide (st = 0)) (writeSlot v n clear value) b)

/-- SLOTWR (R354): to the port's own Ward at once, to another through the crossbar. -/
def actSlotwr (port : Nat) (hdr : BitVec 512) (s : State) : Outcome :=
  s.run (fun p b => portUp p b port) (fun p b =>
    let w := portWard p port
    let v := fld hdr 44 6
    let n := fld hdr 32 12
    if fld hdr 0 8 ≠ 9 ∨ msgBad hdr 0 ∨ p.nw ≤ v ∨ fenced b v then answerHere p port hdr 0x13 0 0 0 b
    else
      let value := BitVec.ofNat 32 (fld hdr 64 32)
      if v = w then slotWrite p v n (bitAt hdr 56) value port (msgTag hdr) (runTen b port) b
      else xsend (some w) 16 (.slotW (dueAt p w v b) v n (bitAt hdr 56) value port (msgTag hdr) (runTen b port)) b)

/-! ## Items that no command samples -/

/-- The rank and the Ward of a doorbell or slot write that is due (Table 1.4). -/
def dueItem (b : Block) : XItem → Option (Nat × Nat)
  | .bell due w _ _ _ => if due ≤ b.clk.fclk then some (9, w) else none
  | .slotW due w _ _ _ _ _ _ => if due ≤ b.clk.fclk then some (5, w) else none
  | _ => none

/-- A doorbell or slot write sampled at its Ward. -/
def deliver (p : Params) (x : XItem) (b : Block) : Block :=
  match x with
  | .bell _ w t slot wptr => ringBell p t slot wptr (xrx w 16 b)
  | .slotW _ w n clear v port tag t => slotWrite p w n clear v port tag t (xrx w 16 b)
  | _ => b

/-- The item is due, and its rank and Ward satisfy `f`. -/
def isDue (b : Block) (f : Nat → Nat → Bool) (x : XItem) : Bool := (dueItem b x).any (fun d => f d.1 d.2)

/-- The doorbells and slot writes due whose rank and Ward satisfy `f`, in the order in which they were sent. -/
def deliverDue (p : Params) (f : Nat → Nat → Bool) (b : Block) : Block :=
  forEach (b.xbar.filter (isDue b f)) (deliver p) { b with xbar := b.xbar.filter (fun x => !isDue b f x) }

/-! ## CTL (R356, R360) -/

/-- CTL_ONLINE_CHANGE: a port whose LBFLITS is below 16 is not ONLINE (R356); a rise sets the landing credit. -/
def actCtlOnlineChange (port : Nat) (on : Bool) (lbflits tdm : Nat) (s : State) : Outcome :=
  s.run (fun p b => portUp p b port) (fun p b =>
    let up := on && decide (16 ≤ lbflits)
    let was := (prt b port).online
    let b := updPort port (fun q => { q with online := up, tdm := tdm, credit := if up && !was then lbflits else q.credit }) b
    let b := when (decide (up ≠ was)) (evRec p port 14 0 (b2n up) 0 0) b
    when (up && !was) (fun b => mqServe p port (keyDrain port b)) b)

/-! ## Snapshots (R361) -/

/-- Snapshot traffic goes on in a frozen instance (R299). -/
def snapUp (p : Params) (b : Block) (n : Nat) : Bool :=
  !b.boot.porst && !b.boot.srst && decide (portWard p n < p.nw) && !fenced b (portWard p n)
    && decide (stageOf b (1 + portWard p n) ≠ .held)

/-- The head of a snapshot slot (Table 13.8). -/
def snapHead (p : Params) (b : Block) (n : Nat) (short : Bool) (req : SnapReq) : Nat :=
  let q := prt b n
  let st := if q.inReset then 3 else if !q.online then 2 else if q.run.isSome then 1 else 0
  let base := n + st * 2 ^ 12 + b2n short * 2 ^ 16 + req.ts.toNat * 2 ^ 128 + b.clk.ts.toNat * 2 ^ 192
  match q.run with
  | some r => base + (wordOf p b r.handle).toNat * 2 ^ 32 + (ent b r.handle).d.func * 2 ^ 64
      + (ent b r.handle).d.layer * 2 ^ 96 + (ent b r.handle).d.opid * 2 ^ 112
  | none => base

/-- The request of a port is over; a dump awaits it no more. -/
def snapEnd (n : Nat) (b : Block) : Block :=
  updPort n (fun q => { q with snapReq := none })
    { b with dump := { b.dump with await := b.dump.await.filter (· ≠ n) } }

/-- CTL_SNAPSHOT_RECEIVED (R361): beats after the thirtieth are discarded. -/
def actCtlSnapshotReceived (port : Nat) (beats : List (BitVec 128)) (s : State) : Outcome :=
  s.run (fun p b => snapUp p b port) (fun p b =>
    match (prt b port).snapReq with
    | none => b
    | some q =>
      let l := beats.take 30
      let body := (l.zipIdx.map (fun x => x.1.toNat * 2 ^ (256 + 128 * x.2))).sum
      let d := BitVec.ofNat 4096 (snapHead p b port (decide (l.length < 30)) q + body)
      let g := match (prt b port).run with | some r => (r.gen, r.handle) | none => (0, 0)
      evRec p port 15 0 0 g.1 g.2 (snapEnd port (emit (.snapSlot port q.addr d (sysAx p b (.ward (portWard p port)))) b)))

/-- A port that has not answered in SNAP_TMO × 64 tclk: its slot is 512 zero bytes (R361). -/
def snapAbsent (p : Params) (port : Nat) (dump : Bool) (b : Block) : Block :=
  match (prt b port).snapReq with
  | none => b
  | some q =>
    if q.dump = dump ∧ q.since + rdf p b (duA 0x04C) 0 16 * 128 ≤ b.clk.fclk then
      let b := snapEnd port (emit (.snapSlot port q.addr 0 (sysAx p b (.ward (portWard p port)))) b)
      if dump then { b with dump := { b.dump with absent := b.dump.absent ++ [port] } } else b
    else b

/-- SNAPSHOT_TIMEOUT (R361). -/
def actSnapshotTimeout (port : Nat) (s : State) : Outcome :=
  s.run (fun p b => snapUp p b port) (fun p b => snapAbsent p port false b)

/-- DUMP_SNAPSHOT_TIMEOUT (R299). -/
def actDumpSnapshotTimeout (port : Nat) (s : State) : Outcome :=
  s.run (fun p b => snapUp p b port) (fun p b => snapAbsent p port true b)

/-- A snapshot asked of a port; a port has no more than one outstanding. -/
def snapAsk (n addr : Nat) (dump : Bool) (b : Block) : Block :=
  if (prt b n).snapReq.isSome then b
  else emit (.snapReq n) (updPort n (fun q => { q with snapReq := some ⟨addr, b.clk.ts, b.clk.fclk, dump⟩ }) b)

/-! ## Port reset (R362) -/

/-- A task in the issue queue of a reset port is cancelled; the reset stands in place of the CAN
acknowledgement (R103, R362 step 2). -/
def resetQueued (p : Params) (n : Nat) (x : IqEnt) (b : Block) : Block :=
  let w := portWard p n
  let h := x.handle
  let b := updEnt h (fun e => { e with released := true }) b
  if w = homeOf h then (if live (ent b h).st then settle p h .cancelled 0x04 none true none none 0 b else b)
  else xsend (some w) 16 (.settle (wordOf p b h) 0x04 0 0 0 none) b

/-- The stage of a reset port is removed and counted; its entry goes on unstaged (R88, R362 step 3). -/
def resetStage (p : Params) (n : Nat) (b : Block) : Block :=
  match (prt b n).stage with
  | none => b
  | some x =>
    let w := portWard p n
    let b := updEnt x.1 (fun e => { e with staged := none }) (updPort n (fun q => { q with stage := none }) b)
    trTask p (.ward w) 0x15 (ent b x.1).d 0 (taskWord p (some n) x.2 x.1) (bump (wc32 w 3) 1 b)

/-- Entries whose CAN was outstanding are released. -/
def resetCans (n : Nat) (b : Block) : Block :=
  let l := (prt b n).cans
  let b := updPort n (fun q => { q with cans := [] }) b
  forEach l (fun x => updEnt (fld x 0 17) (fun e => if e.gen % 256 = fld x 17 8 ∧ ¬ live e.st ∧ e.st ≠ .free then
    { e with released := true } else e)) b

/-- PORT_RESET (R362, with R169, R190, R215 and R223). -/
def actPortReset (port : Nat) (s : State) : Outcome :=
  s.run (fun p b => portUp p b port) (fun p b =>
    let w := portWard p port
    let b := updPort port (fun q => { q with inReset := true, online := false }) b
    let b := match (prt b port).run with
      | some r => finishTask p port r 0x09 [0, 0, 0, 0] none b
      | none => tearAll p port b
    let b := dropPortWait p port b
    let l := (prt b port).iq
    let b := forEach l (resetQueued p port) (updPort port (fun q => { q with iq := [] }) b)
    let b := resetCans port (resetStage p port b)
    let b := xsend (some w) 16 (.portFree port) b
    let b := updPort port (fun q => { q with shadow := .free, iss := none, issBinds := false, credit := 0 }) b
    let b := logRec p { status := 0x09, src := .ward w, objk := 5, handle := BitVec.ofNat 32 port, aux := BitVec.ofNat 32 l.length } b
    let b := forEach (List.range 16) (fun k => keyPoolReset p port k 0x09) (resetChans p port b)
    evRec p port 14 0 0 0 0 b)

/-- PORT_RESET_RELEASE (R360, R362). -/
def actPortResetRelease (port : Nat) (s : State) : Outcome :=
  s.run (fun p b => wardUp p b (portWard p port) && (prt b port).inReset) (fun p b =>
    evRec p port 14 0 0 0 0 (updPort port (fun q => { q with inReset := false }) b))

end Sys2Proof.Machine
end

