-- ==== Sys2Proof/Machine/Operands.lean ====
section
/-! DEFINITION. Operand forms of command records (R126, Table 4.5), the layouts and checks of the records of
Tables 2.1 to 2.3 and 4.6 (R37 to R44, R125, R127, R128, R152, R184), and the patches of INDIRECT (R137). -/

namespace Sys2Proof.Machine

/-! ## Fields -/

/-- A field of `len` bits at bit `lo` of the field that starts at byte `off`. -/
def bf {n : Nat} (r : BitVec n) (off lo len : Nat) : Nat := fld r (8 * off + lo) len

/-- OPCODE. -/
def opc {n : Nat} (r : BitVec n) : Nat := bf r 0 0 8

/-- A 32-byte record as the low half of a 64-byte one. -/
def wide (r : BitVec 256) : BitVec 512 := r.setWidth 512

/-- The 64-byte record in two 32-byte halves. -/
def pair (lo hi : BitVec 256) : BitVec 512 := wide lo ||| (wide hi <<< 256)

/-- The operand at a byte offset. -/
def opdAt (r : BitVec 512) (off : Nat) : Word64 := BitVec.ofNat 64 (bf r off 0 64)

/-! ## Opcodes (Table 4.4) -/

/-- Size of a record in 32-byte units; an opcode outside Table 4.4 counts as one (R125). -/
def recUnits (o : Nat) : Nat := if o = 0x01 ∨ o = 0x12 then 2 else 1

/-- The opcode may stand in a GRAPH segment. -/
def graphOp (r : BitVec 512) : Bool :=
  let o := opc r
  o ∈ [0x01, 0x02, 0x03, 0x10, 0x12, 0x40, 0x41, 0x50, 0x51, 0x7F]
    || (decide (o = 0x20 ∨ o = 0x21) && decide (bf r 1 0 1 = 1))

/-- The opcode may stand in a CONTROL segment. -/
def controlOp (r : BitVec 512) : Bool :=
  let o := opc r
  o ∈ [0x10, 0x11, 0x22, 0x30, 0x31, 0x32, 0x33, 0x34, 0x40, 0x41, 0x51, 0x60, 0x61, 0x7F]
    || (decide (o = 0x20 ∨ o = 0x21) && decide (bf r 1 0 1 = 0))

/-- The listed fields of a record as (lowest bit, length), OPCODE apart. -/
def recFields (r : BitVec 512) : List (Nat × Nat) :=
  match opc r with
  | 0x01 => [(8, 5), (16, 8), (24, 4), (32, 24), (56, 8), (64, 12), (80, 16), (96, 16), (112, 7), (128, 48), (192, 128)]
      ++ (List.range 4).flatMap (fun i => [(320 + 16 * i, 12), (334 + 16 * i, 2)])
  | 0x02 => [(8, 1), (16, 16), (32, 16)] ++ (if bf r 1 0 1 = 0 then [(64, 192)] else [(64, 48)])
  | 0x03 => [(16, 8), (24, 4), (32, 12), (48, 16), (64, 128), (192, 16)]
  | 0x10 => [(8, 2), (16, 16), (32, 16), (64, 18)]
  | 0x11 => [(64, 64)]
  | 0x12 => [(8, 1), (16, 8), (24, 2), (32, 32), (64, 13), (80, 12), (96, 18), (128, 48), (176, 4), (192, 128)]
  | 0x20 => [(8, 1), (16, 16), (32, 12), (48, 7), (64, 64)]
  | 0x21 => [(8, 2), (16, 16), (32, 12), (48, 7), (64, 64)]
  | 0x22 => [(32, 12), (48, 7)]
  | 0x30 => [(8, 4), (32, 32), (64, 64), (128, 64)]
  | 0x31 => [(8, 1), (32, 32), (64, 64)]
  | 0x40 => [(8, 8), (16, 1), (32, 32), (64, 64)]
  | 0x41 => [(8, 1), (32, 18), (64, 64)]
  | 0x50 => [(8, 2), (16, 16), (64, 64), (128, 48)]
  | 0x51 => [(16, 16), (32, 16), (64, 32)]
  | 0x60 => [(8, 2)]
  | 0x61 => [(8, 5), (64, 48), (128, 128)]
  | _ => []

/-- The mask of a list of fields. -/
def fieldMask (l : List (Nat × Nat)) : BitVec 512 :=
  l.foldl (fun m x => m ||| BitVec.ofNat 512 ((2 ^ x.2 - 1) * 2 ^ x.1)) 0xFF

/-- Every bit that no table lists is 0 (R37, R127). -/
def reservedZero (r : BitVec 512) : Bool := decide (r &&& ~~~(fieldMask (recFields r)) = 0)

/-! ## Operands -/

/-- A Ward a slot field may name: below NW and not fenced (R128). -/
def slotWardOk (p : Params) (b : Block) (w : Nat) : Bool := decide (w < p.nw) && !fenced b w

/-- A slot field [17:12] Ward, [11:0] slot names an existing Ward. -/
def slotOk (p : Params) (b : Block) (v : Nat) : Bool := slotWardOk p b (v / 4096 % 64)

/-- The form of an operand (Table 4.5): a listed KIND, reserved bits 0, an ARG the kind defines. -/
def opdForm (p : Params) (b : Block) (w : Word64) : Bool :=
  let a := fld w 0 48
  decide (fld w 48 12 = 0) && (match fld w 60 4 with
    | 0 => true
    | 1 => decide (a % 8 = 0)
    | 2 => decide (a < 2 ^ 18) && slotOk p b a
    | 3 => decide (a = 0)
    | 4 => decide (a < 2)
    | 5 => decide (a = 0)
    | 6 => decide (a < 64)
    | _ => false)

/-- What an operand evaluates to: its value, the fault it raises, or the address to be read first. -/
inductive OpdVal where
  | val (v : Nat)
  | bad (st : Status)
  | need (addr : Nat)
deriving DecidableEq, Repr

/-- The iteration number of a loop level, none when it is not open (R133). -/
def iterOf (k : Walk) (lvl : Nat) : Option Word32 := (k.loops[lvl]?).map (fun l => l.iter)

/-- The value of a MEMV word: V in bit 63, the value in bits 47 to 0. -/
def memvVal (v : Word64) : OpdVal := if bitAt v 63 then .val (fld v 0 48) else .bad 0x0C

/-- R126: the value of an operand in the walk of ring `r`. -/
def evalOpd (p : Params) (b : Block) (r : Nat) (w : Word64) : OpdVal :=
  let g := rng b r
  let a := fld w 0 48
  if !opdForm p b w then .bad 0x13
  else match fld w 60 4 with
    | 0 => .val a
    | 1 => match g.walk.memv.find? (fun x => x.1 = a) with
      | some x => memvVal x.2
      | none => .need a
    | 2 =>
      let t := slt b (a / 4096) (a % 4096)
      if t.tenant ≠ rTenant g then .bad 0x0F else if t.v then .val t.value.toNat else .bad 0x0C
    | 3 => .val (fld ((subOf b r g.walk.subid).getD { subid := 0, recNo := 0 }).param 0 48)
    | 4 => match iterOf g.walk a with
      | some i => .val i.toNat
      | none => .bad 0x13
    | 5 => .val g.step.toNat
    | _ => .val (Tbl.get 0 b.tdone (rTenant g * 64 + a)).toNat

/-- An operand of which value bits [31:0] are used. -/
def evalLow (p : Params) (b : Block) (r : Nat) (w : Word64) : OpdVal :=
  match evalOpd p b r w with
  | .val v => .val (v % 2 ^ 32)
  | x => x

/-! ## INDIRECT (R137) -/

/-- WIDTH in bytes. -/
def indBytes (r : BitVec 512) : Nat := 2 + 2 * bf r 1 6 2

/-- The patch that an INDIRECT computes: SRC + STRIDE × ITER(LEVEL) modulo 2^48, ITER 0 where the level is not
open. -/
def indirectPatch (p : Params) (b : Block) (r : Nat) (rec1 : BitVec 512) : OpdVal :=
  match evalOpd p b r (opdAt rec1 8) with
  | .val v =>
    let it := ((iterOf (rng b r).walk (bf rec1 2 0 1)).getD 0).toNat
    .val (((v : Int) + signedOf 32 (bf rec1 4 0 32) * it) % 2 ^ 48).toNat
  | x => x

/-- A patch written into a record: its low `bytes` bytes at byte `foff`. -/
def applyPatch (r : BitVec 512) (x : Patch) : BitVec 512 := setFld r (8 * x.foff) (8 * x.bytes) x.value

/-- The patches of a run of INDIRECT applied to their target, which may not be an INDIRECT and must hold them. -/
def patched (ps : List Patch) (r : BitVec 512) : Option (BitVec 512) :=
  if ps = [] then some r
  else if opc r = 0x40 ∨ ps.any (fun x => 32 * recUnits (opc r) < x.foff + x.bytes) then none
  else some (ps.foldl applyPatch r)

/-! ## Checks of a record on its own (R39 to R42, R128, R152, R184) -/

/-- The successor indices of a TASK, JOIN or COMBINE record at byte `off`, `n` of them. -/
def succList (r : BitVec 512) (off n : Nat) : List Nat := (List.range n).map (fun i => bf r (off + 2 * i) 0 16)

/-- The inline successors of a TASK or JOIN record. -/
def inlineSucc (r : BitVec 512) : List Nat := succList r (if opc r = 0x01 then 0x18 else 0x08) (bf r 3 0 4)

/-- GUARDi as a 16-bit word. -/
def guardAt (r : BitVec 512) (i : Nat) : BitVec 16 := BitVec.ofNat 16 (bf r (0x28 + 2 * i) 0 16)

/-- R39: a TASK record's own fields. -/
def taskOk (r : BitVec 512) : Bool :=
  let arglen := bf r 0x0E 0 7
  let ptr := bf r 0x10 0 48
  let nsucc := bf r 3 0 4
  let gs := (List.range 4).map (guardAt r)
  decide (arglen ≤ 64) && (if arglen = 0 then decide (ptr = 0) else decide (ptr % 64 = 0)) && decide (nsucc ≤ 8)
    && (List.range 8).all (fun i => decide (i < nsucc) || decide (bf r (0x18 + 2 * i) 0 16 = 0))
    && gs.all (fun g => decide (fld g 14 2 ≠ 0) || decide (g = 0))
    && (!bitAt r 10 || (decide (bf r 4 0 24 = 0) && decide (arglen = 0) && decide (bf r 7 0 8 = 0) && !bitAt r 11 && !bitAt r 9
        && gs.all (fun g => decide (g = 0))))

/-- R40: a JOIN record's own fields. -/
def joinOk (r : BitVec 512) : Bool := decide (1 ≤ bf r 2 0 8) && decide (1 ≤ bf r 3 0 4) && decide (bf r 3 0 4 ≤ 8)

/-- R42: an EDGE record's own fields. -/
def edgeOk (r : BitVec 512) : Bool :=
  let c := bf r 4 0 16
  if bf r 1 0 1 = 0 then decide (1 ≤ c ∧ c ≤ 12) && (List.range 12).all (fun i => decide (i < c) || decide (bf r (8 + 2 * i) 0 16 = 0))
  else decide (1 ≤ c ∧ c ≤ 4096) && decide (bf r 8 0 48 % 64 = 0)

/-- An endpoint field of OPEN_CH whose K bit is 0 (Table 5.2). -/
def endForm (p : Params) (b : Block) (tx : Bool) (v : Nat) : Option EndP :=
  if v / 4096 = 0 ∧ v < nPorts p then some (.port v)
  else if v / 4096 = 8 ∧ slotWardOk p b (v / 64 % 64) ∧ tx = false then some (.queue (v / 64 % 64) (v % 64))
  else none

/-- R152: OPEN_CH's own fields; `ctl` in a CONTROL segment, `n` the segment's index space. -/
def openChOk (p : Params) (b : Block) (ctl : Bool) (n : Nat) (r : BitVec 512) : Bool :=
  let one := fun (k tx : Bool) (v : Nat) => if k then !ctl && decide (v < n) else (endForm p b tx v).isSome
  let txk := bitAt r 8
  let rxk := bitAt r 9
  one txk true (bf r 2 0 16) && one rxk false (bf r 4 0 16)
    && (txk || rxk || decide (bf r 2 0 16 ≠ bf r 4 0 16)) && slotOk p b (bf r 8 0 18)

/-- MODE, IFMT, OPER and OFMT form a row of Table 6.1. -/
def combineRow (mode ifmt oper ofmt : Nat) : Bool :=
  decide (oper ≤ 2) && (if ifmt ≤ 4 then decide (ofmt = 0 ∨ ofmt = 2) else decide (ifmt ≤ 6 ∧ mode = 0 ∧ (ofmt = 6 ∨ ofmt = 7)))

/-- R184: COMBINE's own fields. -/
def combineOk (p : Params) (b : Block) (n : Nat) (r : BitVec 512) : Bool :=
  let len := bf r 8 0 13
  let ns := bf r 0x16 0 4
  combineRow (bf r 1 0 1) (bf r 2 0 4) (bf r 3 0 2) (bf r 2 4 4) && decide (1 ≤ bf r 4 0 32) && decide (1 ≤ len ∧ len ≤ 4096)
    && decide (ns ≤ 8) && (succList r 0x18 ns).all (fun i => decide (i < n)) && slotOk p b (bf r 0x0C 0 18)
    && !(b.boot.minimal && decide (bf r 1 0 1 = 0))

/-- NOTE's own fields. -/
def noteOk (r : BitVec 512) : Bool :=
  let len := bf r 1 0 5
  decide (1 ≤ len ∧ len ≤ 16) && decide (bf r 8 0 48 % 16 + len ≤ 16)

/-- A record's own fields hold values that its table defines (R37, R128). -/
def fieldsOk (p : Params) (b : Block) (ctl : Bool) (n : Nat) (r : BitVec 512) : Bool :=
  reservedZero r && (match opc r with
    | 0x01 => taskOk r
    | 0x02 => edgeOk r
    | 0x03 => joinOk r
    | 0x10 => openChOk p b ctl n r
    | 0x11 => opdForm p b (opdAt r 8)
    | 0x12 => combineOk p b n r
    | 0x20 => opdForm p b (opdAt r 8)
    | 0x21 => opdForm p b (opdAt r 8)
    | 0x30 => decide (bf r 1 0 4 < 8) && opdForm p b (opdAt r 8) && opdForm p b (opdAt r 16)
    | 0x31 => bitAt r 8 || opdForm p b (opdAt r 8)
    | 0x40 => decide (bf r 1 6 2 ≠ 3) && decide (2 ≤ bf r 1 0 6) && decide (bf r 1 0 6 % 2 = 0) && opdForm p b (opdAt r 8)
    | 0x41 => slotOk p b (bf r 4 0 18) && (bitAt r 8 || opdForm p b (opdAt r 8))
    | 0x50 => decide (bf r 1 0 2 ≠ 3) && decide (bf r 0x10 0 48 % 32 = 0) && (decide (bf r 1 0 2 = 2) || opdForm p b (opdAt r 8))
    | 0x61 => noteOk r
    | _ => true)

/-- The hasp a record names: its Keeper, none here, and its number (Table 4.6, R249). -/
def haspOf (p : Params) (b : Block) (r : BitVec 512) : Option Nat × Nat :=
  (otherInst p b (bitAt r 54) (bf r 6 0 6), bf r 4 0 12)

/-- A hasp operation's check before it is carried out: here R208, elsewhere reachability (R250). -/
def haspRefusal (p : Params) (b : Block) (t : Nat) (k : Option Nat × Nat) : Status :=
  match k.1 with
  | none => haspCheck b k.2 t
  | some i => if reachable p b i then 0 else 0x10

end Sys2Proof.Machine
end

