-- ==== Sys2Proof/Machine/Rings.lean ====
section
/-! DEFINITION. Rings and submissions: descriptors, doorbells, fetching, acceptance, halts, capture, the ends of
submissions, timeouts, cancels and the responses to posted writes (R109 to R123, R140 to R147, R328). -/

namespace Sys2Proof.Machine

/-! ## Capture (R147) -/

/-- Ports that run tasks of a ring, ascending. -/
def ringPorts (b : Block) (r : Nat) : List Nat :=
  (b.ports.filter (fun x => match x.2.run with
    | some k => decide ((ent b k.handle).d.ring = r) && (ent b k.handle).d.rinst.isNone
    | none => false)).map Prod.fst

/-- The first halt or command fault since VALID was cleared fills the capture; later ones are counted. With
KP_CAP_CTRL.SNAP up to 16 ports of the ring are asked for snapshots. -/
def capture (p : Params) (r kind : Nat) (st : Status) (off va : Nat) (rec1 : BitVec 512) (b : Block) : Block :=
  if b.cap.valid then { b with cap := { b.cap with missed := satAdd 0xFFFF b.cap.missed 1 } }
  else
    let b := { b with cap :=
      { valid := true, missed := b.cap.missed, capRec := rec1, va := va % 2 ^ 48, status := st, haltKind := kind, ring := r, off := off } }
    let base := rdf p b (kA 9 0x05C) 0 16 * 2 ^ 32 + rdf p b (kA 9 0x058) 8 24 * 2 ^ 8
    when (bitAt (rd p b (kA 9 0x044)) 0)
      (forEach ((ringPorts b r).take 16).zipIdx (fun x => snapAsk x.1 (base + 512 * x.2) false)) b

/-! ## The walk's place -/

/-- The submission a ring's walk is in. -/
def walkSub (b : Block) (r : Nat) : Option Sub := subOf b r (rng b r).walk.subid

/-- The device address of an image offset. -/
def imgAddr (b : Block) (r off : Nat) : Nat := (((walkSub b r).map (fun s => s.image)).getD 0 + off) % 2 ^ 48

/-- The walk may act: the instance is in RUN, the ring is not halted, and it is not stopped by a pre-emption
(R146, R238, R240, R295). -/
def walking (b : Block) (r : Nat) : Bool :=
  let g := rng b r
  runState b && decide (g.haltKind = 0) && (match g.pre with
    | .run => true
    | .pending => g.prePoint.isNone
    | .held => false)

/-- The other instances that hold entries of a segment, ascending. -/
def segInsts (g : Seg) : List Nat := (List.range 64).filter (fun i => g.homes.any (fun h => decide (h.1 = some i)))

/-- Remote reservations of a segment are given back (R253). -/
def abandonFar (p : Params) (r : Nat) (g : Seg) (b : Block) : Block :=
  forEach (segInsts g) (fun i c => when (reachable p c i)
    (sendItem none (mkItem p c 0x0B i (rTenant (rng c r)) (xctlArgs 2 r g.bank (rng c r).walk.subid) [])) c) b

/-- A segment before pass 3 is given up: nothing of it stays reserved (R140, R238, R253, R295). -/
def abandonSeg (p : Params) (r : Nat) (b : Block) : Block :=
  let b := updWalk r (fun k => { k with body := [], patches := [], memv := [], fans := [], reread := [], fanWait := none, opWait := none, want := [] }) b
  match Tbl.get none b.segs r with
  | none => b
  | some g =>
    let b := when (decide ((rng b r).walk.mode = .remote)) (abandonFar p r g) b
    { b with segs := Tbl.set none b.segs r none, entq := b.entq.filter (· ≠ r) }

/-- The ring-form wait that holds a walk is removed without release (R215). -/
def dropRingWait (p : Params) (r : Nat) (b : Block) : Block :=
  let k := (rng b r).walk
  match k.mode, k.hold with
  | .waitHasp, some w => removeWait p none (.ring r) w.inst w.hasp (rTenant (rng b r)) (tagRing r k.subid true)
      (updWalk r (fun k => { k with hold := none }) b)
  | _, _ => b

/-- A halt of the walk is cleared (R144 to R146). -/
def clearHalt (r : Nat) (b : Block) : Block := updRing r (fun g => { g with haltKind := 0, halt := 0 }) b

/-- The walk in progress is given up with what it holds; a halt of it is cleared (R140, R144 to R146). -/
def dropWalk (p : Params) (r : Nat) (b : Block) : Block := clearHalt r (abandonSeg p r (dropRingWait p r b))

/-! ## A submission ended early (R140) -/

/-- Entries of a submission that are not RUNNING and whose segment is sealed. -/
def stoppable (b : Block) (r : Nat) (subid : Word32) : List Nat :=
  (b.ents.filter (fun x => x.2.d.ring = r ∧ x.2.d.subid = subid ∧ x.2.d.rinst.isNone ∧ live x.2.st ∧ x.2.st ≠ .running
    ∧ x.2.isSealed)).map Prod.fst

/-- R243: the pre-emption is void when the submission that holds its point has ended. -/
def voidPre (p : Params) (r : Nat) (subid : Word32) (b : Block) : Block :=
  match (rng b r).prePoint with
  | some pt => when (decide (pt.subid = subid)) (toRun p r) b
  | none => b

/-- A task's cancel is applied at its home Ward: at once where that is Ward `w`, elsewhere when it samples it (R28, R103). -/
def cancelAt (p : Params) (w h : Nat) (b : Block) : Block :=
  if homeOf h = w then cancelEntry p h b else xsend (some w) 16 (.cancelTask h (ent b h).gen) b

/-- The first early end of a submission decides its status; a later one is void (R31, R141). Its pre-emption points leave the
history, since R243 voids a pre-emption there (DEDUCED, log entry 46). The walk of the next submission begins unless a segment
in pass 3 must first be completed. -/
def endSub (p : Params) (r : Nat) (subid : Word32) (st : Status) (b : Block) : Block :=
  match subOf b r subid with
  | none => voidW (rHome (rng b r)) b
  | some s =>
    if s.complete ∨ s.early.isSome then voidW (rHome (rng b r)) b
    else
      let k := (rng b r).walk
      let b := updSub r subid (fun s => { s with early := some st, walkEnded := true }) (overSub r s.acceptedAt b)
      let b := overSteps r (((rng b r).steps.filter (fun x => x.subid = subid)).map (fun x => x.timer)) b
      let b := updRing r (fun g => { g with
        points := g.points.filter (fun x => x.subid ≠ subid),
        steps := g.steps.map (fun x => if x.subid = subid then { x with timer := none } else x) }) b
      let b := if k.subid ≠ subid ∨ k.mode = .idle then b
        else if k.mode = .pass3 then clearHalt r (updWalk r (fun k => { k with fanWait := none }) b)
        else startNext r (dropWalk p r b)
      let b := forEach (stoppable b r subid) (cancelAt p (rHome (rng b r))) b
      subCheck p r subid (voidPre p r subid b)

/-- A walk halts at the faulting item (R146). -/
def haltRing (p : Params) (r kind : Nat) (rec1 : BitVec 512) (va : Nat) (b : Block) : Block :=
  let g := rng b r
  let b := updRing r (fun g => { g with haltKind := kind, halt := 0x06, recRead := false, walk := { g.walk with since := b.clk.ts } }) b
  let b := raiseW p (rHome g) 1 b
  let b := logRec p (ringLog b (.ward (rHome g)) 0x06 r g.walk.subid) b
  capture p r kind 0x06 g.walk.off va rec1 (trRing p (.ward (rHome g)) 0x22 r 0x06 (BitVec.ofNat 32 r) b)

/-- The walk finds a command fault: capture, and the notice to the ring's home Ward (R140, R145, R147). -/
def walkFault (p : Params) (r : Nat) (st : Status) (off : Nat) (rec1 : BitVec 512) (b : Block) : Block :=
  let subid := (rng b r).walk.subid
  let b := capture p r 0 st off (imgAddr b r off) rec1 b
  faultTo none r subid st (updWalk r (fun k => { k with mode := .stopped }) (abandonSeg p r b))

/-- A command fault on its way. -/
def isFault (r : Nat) : XItem → Bool
  | .cmdFault q _ _ => decide (q = r)
  | _ => false

/-- COMMAND_FAULT_NOTICE (R140, R145): one log record, but for HASP_OVF, which the Keeper has recorded (R209). -/
def actCommandFaultNotice (ring : Nat) (s : State) : Outcome :=
  s.run (fun p b => wardUp p b (rHome (rng b ring))) (fun p b =>
    match xfind b (isFault ring) with
    | some (.cmdFault _ subid st) =>
      let w := rHome (rng b ring)
      let b := xrx w 16 (xdrop (isFault ring) b)
      let open_ := match subOf b ring subid with | some s => !s.complete && s.early.isNone | none => false
      endSub p ring subid st (when (open_ && decide (st ≠ 0x12)) (logRec p (ringLog b (.ward w) st ring subid)) b)
    | _ => b)

/-! ## Timeouts (R144) -/

/-- The RTMO of a submission has expired. -/
def rtmoOver (b : Block) (g : Ring) (s : Sub) : Bool :=
  decide (rRtmo g ≠ 0) && decide (s.acceptedAt + rRtmo g * 2048 ≤ b.clk.fclk)

/-- The STMO of a step of a submission has expired (R144, R240). -/
def stmoOver (b : Block) (g : Ring) (subid : Word32) : Bool :=
  decide (rStmo g ≠ 0) && decide (g.pre = .run) && g.steps.any (fun x => decide (x.subid = subid) &&
    (match x.timer with | some t => decide (t + rStmo g * 2048 ≤ b.clk.fclk) | none => false))

/-- The submission ends with TIMEOUT; the record's AUX names the limits, bit 0 RTMO and bit 1 STMO. -/
def timeOut (p : Params) (r : Nat) (s : Sub) (b : Block) : Block :=
  let g := rng b r
  let aux := BitVec.ofNat 32 (b2n (rtmoOver b g s) + 2 * b2n (stmoOver b g s.subid))
  endSub p r s.subid 0x03 (logRec p { ringLog b (.ward (rHome g)) 0x03 r s.subid with aux := aux } b)

/-- A timer of `limit` fclk that started as `l` lists expires in this cycle, in which what it watched has ended: the timeout
is void (R31, Table 1.5). -/
def timerVoid (b : Block) (limit : Nat) (l : List (Nat × Nat)) : Bool :=
  decide (limit ≠ 0) && l.any (fun x => decide (x.2 = b.clk.fclk) && decide (x.1 + limit = b.clk.fclk))

/-- RING_TIMEOUT (R144). -/
def actRingTimeout (ring : Nat) (s : State) : Outcome :=
  s.run (fun p b => wardUp p b (rHome (rng b ring))) (fun p b =>
    match (rng b ring).subs.find? (fun s => !s.complete && s.early.isNone && rtmoOver b (rng b ring) s) with
    | some s => timeOut p ring s b
    | none => when (timerVoid b (rRtmo (rng b ring) * 2048) (rng b ring).overSubs) (voidW (rHome (rng b ring))) b)

/-- STEP_TIMEOUT (R144). -/
def actStepTimeout (ring : Nat) (s : State) : Outcome :=
  s.run (fun p b => wardUp p b (rHome (rng b ring))) (fun p b =>
    match (rng b ring).subs.find? (fun s => !s.complete && s.early.isNone && stmoOver b (rng b ring) s.subid) with
    | some s => timeOut p ring s b
    | none => when (timerVoid b (rStmo (rng b ring) * 2048) (rng b ring).overSteps) (voidW (rHome (rng b ring))) b)

/-! ## Responses to posted writes (R143, R328) -/

/-- A fault response to a submission's write: one record names the ring and the SUBID. -/
def writeFault (p : Params) (r : Nat) (subid : Word32) (resp : Resp) (b : Block) : Block :=
  when (decide (resp = .fault)) (logRec p (ringLog b (.ward (rHome (rng b r))) 0x06 r subid)) b

/-- STATUS_BLOCK_WRITE_RESPONSE (R143). -/
def actStatusBlockWriteResponse (ring : Nat) (subid : BitVec 32) (resp : Resp) (s : State) : Outcome :=
  s.run (fun p b => wardUp p b (rHome (rng b ring))) (fun p b =>
    match subOf b ring subid with
    | some s =>
      if s.statusWr = .pending then
        doneAdvance p ring (rng b ring).subs.length
          (updSub ring subid (fun s => { s with statusWr := .done }) (writeFault p ring subid resp b))
      else b
    | none => b)

/-- NOTE_WRITE_RESPONSE (R143). -/
def actNoteWriteResponse (ring : Nat) (subid : BitVec 32) (resp : Resp) (s : State) : Outcome :=
  s.run (fun p b => wardUp p b (rHome (rng b ring))) (fun p b => writeFault p ring subid resp b)

/-- DIGEST_WRITE_RESPONSE (R328): the digest of a combining queue also ends its drain (R195). -/
def actDigestWriteResponse (ring : Nat) (subid : BitVec 32) (resp : Resp) (s : State) : Outcome :=
  s.run (fun p b => wardUp p b (rHome (rng b ring))) (fun p b =>
    match (subOf b ring subid).bind (fun s => s.digestQ.head?) with
    | none => b
    | some q =>
      let b := updSub ring subid (fun s => { s with digestQ := s.digestQ.tail, digests := s.digests - 1 }) (writeFault p ring subid resp b)
      let b := doneAdvance p ring (rng b ring).subs.length b
      match q with
      | some k => drainFinish p (k / 64) (k % 64) (updCQ (k / 64) (k % 64) (fun c => { c with digestOut := false }) b)
      | none => b)

/-! ## Acceptance (R112 to R114, R117 to R120) -/

/-- The ring bound to a slot of a tenant's window: the enabled one, or one with outstanding submissions. A slot whose only
ring is disabled and drained counts as unbound (DESIGN CHOICE, log entry 46). -/
def ringInSlot (b : Block) (t slot : Nat) : Option Nat :=
  (ringOf b t slot).orElse (fun _ =>
    (b.rings.find? (fun x => x.2.subs ≠ [] ∧ rTenant x.2 = t ∧ rSlot x.2 = slot)).map Prod.fst)

/-- Another record may be accepted (R118). -/
def mayAccept (g : Ring) : Bool :=
  decide ((g.fptr - g.rptr).toNat < (g.wptr - g.rptr).toNat) && decide (outstanding g < 256)

/-- The cancel that covers records not yet fetched reaches the next record (R145). -/
def cancelNext (g : Ring) : Bool := match g.cancelTo with | some n => decide (g.recNo < n) | none => false

/-- PHASE expected in record `n` (R113). -/
def phaseOf (g : Ring) : Nat := 1 - g.recNo / 2 ^ rLog g % 2

/-- The device address of the next record (R112). -/
def recAddr (g : Ring) : Nat := rBase g + g.recNo % 2 ^ rLog g * 64

/-- The listed fields of a submission record (Table 4.2). -/
def subMask : BitVec 512 :=
  [(0, 3), (32, 32), (64, 48), (128, 32), (160, 32), (192, 48), (256, 48), (320, 32), (352, 6), (384, 32), (448, 64)].foldl
    (fun m x => m ||| BitVec.ofNat 512 ((2 ^ x.2 - 1) * 2 ^ x.1)) 0

/-- WAITSUB, WAIT_TSLOT and WAIT_SUBID of a record. -/
def recWait (x : BitVec 512) : Option (Nat × Word32) :=
  if bitAt x 2 then some (bf x 0x2C 0 6, BitVec.ofNat 32 (bf x 0x30 0 32)) else none

/-- A record that R119 completes with BAD_COMMAND. -/
def recBad (b : Block) (r : Nat) (x : BitVec 512) : Bool :=
  let g := rng b r
  let subid := BitVec.ofNat 32 (bf x 4 0 32)
  decide (subid ≠ g.expSub) || decide (x &&& ~~~subMask ≠ 0) || decide (bf x 8 0 48 % 64 ≠ 0)
    || decide (bf x 0x14 0 32 ≤ bf x 0x10 0 32)
    || (match recWait x with
      | none => false
      | some w => match ringInSlot b (rTenant g) w.1 with
        | none => true
        | some q => decide (q = r) && decide ((w.2 - subid).toNat < 2 ^ 31))

/-- The submission of a record; one whose fields nobody wrote yet (`blank`) has neither status block nor note. Its status
block carries the SUBID that the ring expects, also where the record holds another (DESIGN CHOICE, log entry 46). -/
def subOfRec (b : Block) (r : Nat) (x : BitVec 512) (blank : Bool) : Sub :=
  let g := rng b r
  { subid := g.expSub, recNo := g.recNo, image := bf x 8 0 48, entry := bf x 0x10 0 32, imglen := bf x 0x14 0 32,
    statusPtr := if blank then 0 else bf x 0x18 0 48,
    note := if bitAt x 1 && !blank then some (bf x 0x20 0 48, BitVec.ofNat 32 (bf x 0x28 0 32)) else none,
    waitOn := recWait x, param := BitVec.ofNat 64 (bf x 0x38 0 64), acceptedAt := b.clk.fclk }

/-- A record is accepted: pointers and the expected SUBID move on, and its walk waits for its turn; one that ends
at once (`st`) is never walked (R118, R119, R145). -/
def takeRec (p : Params) (r : Nat) (x : BitVec 512) (blank : Bool) (st : Option Status) (b : Block) : Block :=
  let s := subOfRec b r x blank
  let b := updRing r (fun g => { g with
    subs := g.subs ++ [{ s with early := st, walkEnded := st.isSome }], fptr := g.fptr + 1, recNo := g.recNo + 1,
    expSub := g.expSub + 1, recRead := false, repollAt := none,
    cancelTo := g.cancelTo.filter (fun n => g.recNo + 1 < n) }) b
  let b := progress r b
  let b := when (decide ((rng b r).walk.mode = .idle)) (startNext r) b
  subCheck p r s.subid b

/-- A record is accepted and at once completed with a command fault: it is logged and captured (R119, R147). -/
def badRec (p : Params) (r : Nat) (x : BitVec 512) (st : Status) (b : Block) : Block :=
  let g := rng b r
  let b := logRec p (ringLog b (.ward (rHome g)) st r g.expSub) b
  takeRec p r x false (some st) (capture p r 0 st 0 (recAddr g) x b)

/-- RECORD_ACCEPT (R118, R119, R145): none while the ring is halted (DESIGN CHOICE, log entry 46). -/
def actRecordAccept (ring : Nat) (rec1 : BitVec 512) (s : State) : Outcome :=
  s.run (fun p b => wardUp p b (rHome (rng b ring))) (fun p b =>
    let g := rng b ring
    if g.enable ∧ runState b ∧ g.haltKind = 0 ∧ mayAccept g then
      let miss := decide (fld rec1 0 1 ≠ phaseOf g)
      if cancelNext g then takeRec p ring rec1 miss (some 0x04) b
      else if miss then b
      else if recBad b ring rec1 then badRec p ring rec1 0x13 b
      else takeRec p ring rec1 false none b
    else b)

/-- WAITSUB_RELEASE (R120). -/
def actWaitsubRelease (ring : Nat) (s : State) : Outcome :=
  s.run (fun p b => wardUp p b (rHome (rng b ring))) (fun _ b =>
    let k := (rng b ring).walk
    if k.mode = .waitSub ∧ walking b ring ∧ waitOver b (rTenant (rng b ring)) ((walkSub b ring).bind (fun s => s.waitOn)) then
      progress ring (updWalk ring (fun k => { k with mode := .header }) b)
    else b)

/-! ## Fetching (R121, R122) -/

/-- The 256-byte block at the walk's place. -/
def curBlock (b : Block) (r : Nat) : Nat := imgAddr b r (rng b r).walk.off / 256 * 256

/-- The walk has taken in the whole of a GRAPH segment, whose passes then follow its blocks. -/
def inGraph (k : Walk) : Bool := match k.seg with
  | some g => g.graph && (decide (k.mode = .pass1) || decide (k.mode = .waitAhead) || decide (k.mode = .pass2) || decide (k.mode = .entq)
      || decide (k.mode = .pass3))
  | none => false

/-- The end of what the fetcher may read ahead: PREFETCH blocks from the block at the walk's place, and in a GRAPH segment
from the last block read (R121). -/
def windowEnd (b : Block) (r : Nat) : Nat :=
  let g := rng b r
  let base := if inGraph g.walk ∧ curBlock b r ≤ g.gotOff ∧ g.gotOff = g.fetchOff then g.gotOff else curBlock b r
  base + 256 * rPrefetch g

/-- An address lies in the prefetch window. -/
def inWindow (b : Block) (r a : Nat) : Bool := decide (curBlock b r ≤ a) && decide (a ≤ windowEnd b r)

/-- The next image block to be read, when there is room in the prefetch window. -/
def imgWant (b : Block) (r : Nat) : Option Nat :=
  let g := rng b r
  let base := if inWindow b r g.fetchOff then g.fetchOff else curBlock b r
  match walkSub b r with
  | none => none
  | some s =>
    if g.walk.mode ≠ .idle ∧ g.walk.mode ≠ .stopped ∧ walking b r ∧ base < windowEnd b r ∧ base < s.image + s.imglen
    then some base else none

/-- The block that holds the next record, when it is to be read. -/
def recWant (g : Ring) : Option Nat :=
  if g.enable && mayAccept g && !g.recRead && g.repollAt.isNone then some (recAddr g / 256 * 256) else none

/-- The walk waits, as R122 lists it. -/
def walkWaits (g : Ring) : Bool :=
  decide (g.walk.mode = .waitHasp) || decide (g.walk.mode = .waitAhead) || decide (g.walk.mode = .waitSub) || decide (256 ≤ outstanding g)

/-- Fetched 32-byte slots that the walk has not consumed. -/
def buffered (b : Block) (r : Nat) : Nat :=
  let g := rng b r
  if inWindow b r g.gotOff then (g.gotOff - imgAddr b r g.walk.off) / 32 else 0

/-- A block that a ring's fetcher reads. -/
inductive Fetch where
  | image (a : Nat)
  | record (a : Nat)
  | demand (a : Nat)
deriving DecidableEq, Repr

/-- What a ring reads next: the block that its walk waits for, an image block, or a record. No image block and no record is
read in DRAIN (R295). -/
def fetchWant (b : Block) (r : Nat) : Option Fetch :=
  let g := rng b r
  if g.haltKind ≠ 0 ∨ b.boot.state = .failed then none
  else match g.walk.want, imgWant b r, recWant g with
    | a :: _, _, _ => some (.demand a)
    | [], some a, none => if runState b then some (.image a) else none
    | [], some a, some c => if runState b then (if walkWaits g then some (.record c) else some (.image a)) else none
    | [], none, some c => if runState b then some (.record c) else none
    | [], none, none => none

/-- The order of R122 among candidates. -/
def fetchBefore (b : Block) (x y : Nat) : Bool :=
  let k := fun (r : Nat) => (b2n (walkWaits (rng b r)), buffered b r)
  if (k x).1 ≠ (k y).1 then decide ((k x).1 < (k y).1)
  else if (k x).2 ≠ (k y).2 then decide ((k x).2 < (k y).2) else decide (x < y)

/-- The ring whose fetch the MP of Ward `w` serves next (R35, R122). -/
def fetchNext (b : Block) (w : Nat) : Option Nat :=
  let cs := (b.rings.map Prod.fst).filter (fun r => rHome (rng b r) = w ∧ (fetchWant b r).isSome)
  cs.foldl (fun a r => match a with
    | none => some r
    | some q => if fetchBefore b r q then some r else some q) none

/-- The read of a ring's next block. -/
def fetchOne (p : Params) (r : Nat) (b : Block) : Block :=
  let g := rng b r
  let read := fun (a : Nat) => mpR p (rHome g) a (rTenant g) (rBe g)
  match fetchWant b r with
  | some (.image a) => read a (updRing r (fun g => { g with gotOff := if g.fetchOff = a then g.gotOff else a, fetchOff := a + 256 }) b)
  | some (.record a) => read a (updRing r (fun g => { g with recRead := true }) b)
  | some (.demand a) => read a (updWalk r (fun k => { k with want := k.want.tail }) b)
  | none => b

/-- RING_FETCH (R121, R122). -/
def actRingFetch (w : Nat) (s : State) : Outcome :=
  s.runW w (fun p b => match fetchNext b w with | some r => fetchOne p r b | none => b)

/-- WD_RING_CFG.REPOLL. -/
def repoll (p : Params) (b : Block) (w : Nat) : Nat := rdf p b (wA w 0 0x0BC) 0 16

/-- RING_FETCH_RESPONSE (R113, R121, R146, R287). -/
def actRingFetchResponse (ring : Nat) (kind : FetchKind) (resp : Resp) (rec1 : BitVec 512) (s : State) : Outcome :=
  s.run (fun p b => wardUp p b (rHome (rng b ring))) (fun p b =>
    let g := rng b ring
    let w := rHome g
    match kind with
    | .record =>
      if g.recRead then
        match resp with
        | .fault => haltRing p ring 1 0 (recAddr g) b
        | .poison => badRec p ring rec1 0x05 b
        | .okay =>
          if fld rec1 0 1 ≠ phaseOf g ∧ ¬ cancelNext g then
            updRing ring (fun g => { g with recRead := false, repollAt := some (b.clk.fclk + repoll p b w) }) (bump (wc32 w 4) 1 b)
          else b
      else b
    | .image =>
      if g.gotOff < g.fetchOff ∧ g.haltKind = 0 then
        match resp with
        | .fault => haltRing p ring 2 0 g.gotOff (updRing ring (fun g => { g with fetchOff := g.gotOff }) b)
        | .poison => walkFault p ring 0x05 g.walk.off 0 b
        | .okay => updRing ring (fun g => { g with gotOff := g.gotOff + 256 }) b
      else b)

/-- RING_REPOLL (R113): the record is to be read again; the MP serves it now when it comes first (R35). -/
def actRingRepoll (ring : Nat) (s : State) : Outcome :=
  s.run (fun p b => wardUp p b (rHome (rng b ring))) (fun p b =>
    match (rng b ring).repollAt with
    | some t =>
      if t ≤ b.clk.fclk ∧ (rng b ring).enable ∧ (rng b ring).haltKind = 0 then
        let b := updRing ring (fun g => { g with repollAt := none }) b
        when (decide (fetchNext b (rHome (rng b ring)) = some ring)) (fetchOne p ring) b
      else b
    | none => b)

/-! ## Descriptor registers (R109 to R111, R230) -/

/-- KP_RING_SEL.RING. -/
def ringSel (p : Params) (b : Block) : Nat := rdf p b (kA 1 0x040) 0 13

/-- PG_ERR.RING_CFG. -/
def ringRefuse (p : Params) (b : Block) : Block := pgErr p (kA 1 0) 1 b

/-- Setting ENABLE is refused (R110, R230). -/
def enableBad (p : Params) (b : Block) (r : Nat) : Bool :=
  let g := rng b r
  let t := ten b (rTenant g)
  b.rings.any (fun x => decide (x.1 ≠ r) && x.2.enable && decide (rTenant x.2 = rTenant g) && decide (rSlot x.2 = rSlot g))
    || decide (p.nw ≤ rHome g) || fenced b (rHome g) || !t.en || (!rBe g && !t.lcOk)

/-- ENABLE becomes 1: the pointers, STEP and loops are cleared, TN_RING_DONE becomes FIRST_SUBID − 1, the guard
mode is taken over (R110, R391). -/
def enableRing (r : Nat) (b : Block) : Block :=
  let g := rng b r
  let b := updRing r (fun g => { g with
    enable := true, fptr := 0, rptr := 0, wptr := 0, step := 0, walk := { g.walk with loops := [] }, expSub := g.d4, recNo := 0,
    cancelTo := none, repollAt := none, recRead := false, points := [], hangTicks := 0, hung := false, fenceFail := false,
    steps := if g.subs = [] then [] else g.steps, gmode := (ten b (rTenant g)).gmode }) b
  { b with tdone := Tbl.set 0 b.tdone (rTenant g * 64 + rSlot g) (g.d4 - 1) }

/-- A write of D5. -/
def writeEnable (p : Params) (r : Nat) (on : Bool) (b : Block) : Block :=
  let g := rng b r
  if on then (if g.enable then b else if enableBad p b r then ringRefuse p b else enableRing r b)
  else updRing r (fun g => { g with enable := false, recRead := false, repollAt := none }) b

/-- A write of a descriptor word in the selected half: D0 to D4 are protected while the ring is enabled or has
outstanding submissions; D6 to D15 are read only. -/
def ringWrite (p : Params) (k : Nat) (data : Word32) (b : Block) : Block :=
  let r := ringSel p b
  let g := rng b r
  if bitAt (rd p b (kA 1 0x040)) 16 ∨ 6 ≤ k then b
  else if k = 5 then writeEnable p r (bitAt data 0) b
  else if g.enable ∨ g.subs ≠ [] then ringRefuse p b
  else updRing r (fun g => match k with
    | 0 => { g with d0 := data }
    | 1 => { g with d1 := data &&& 0xFFFFEFFF }
    | 2 => { g with d2 := data &&& 0xFFFFFF3F }
    | 3 => { g with d3 := data &&& 0x0FFFFFFF }
    | _ => { g with d4 := data }) b

/-- RING_DESCRIPTOR_WRITE (R110). -/
def actRingDescriptorWrite (k : Nat) (data : BitVec 32) (s : State) : Outcome :=
  s.keeperReg (kA 1 (0x044 + 4 * k)) data true (fun p b => ringWrite p k data b)

/-- RING_ENABLE (R110, R230). -/
def actRingEnable (s : State) : Outcome := s.keeperReg (kA 1 0x058) 1 true (fun p b => ringWrite p 5 1 b)

/-- RING_DISABLE (R111). -/
def actRingDisable (s : State) : Outcome := s.keeperReg (kA 1 0x058) 0 true (fun p b => ringWrite p 5 0 b)

/-! ## Tenant window commands (R115, R145, R146) -/

/-- TN_DOORBELL (R115). -/
def actTnDoorbell (t tslot : Nat) (wptr : BitVec 16) (s : State) : Outcome :=
  s.runReg (fun p b =>
    let data := BitVec.ofNat 32 (tslot % 64 * 2 ^ 16 + wptr.toNat)
    regWrite (tnA t 0x040) data [] [tnA t 0 / 0x1000] (fun b => ringBell p t (tslot % 64) wptr (wr p (tnA t 0x040) data b)) b)

/-- CANCEL 0b01: the oldest outstanding submission ends with CANCELLED. -/
def cancelOldest (p : Params) (r : Nat) (b : Block) : Block :=
  match (rng b r).subs with
  | s :: _ => endSub p r s.subid 0x04 b
  | [] => voidW (rHome (rng b r)) b

/-- CANCEL 0b10: every accepted submission, and every record up to the write pointer; the halt of a record that it reaches
is cleared. -/
def cancelAll (p : Params) (r : Nat) (b : Block) : Block :=
  let g := rng b r
  let n := g.recNo + (g.wptr - g.fptr).toNat
  let b := updRing r (fun g => { g with cancelTo := if g.recNo < n then some n else g.cancelTo, repollAt := none }) b
  let b := when (decide (g.recNo < n) && decide (g.haltKind = 1)) (clearHalt r) b
  forEach ((g.subs.filter (fun s => !s.complete && s.early.isNone)).map (fun s => s.subid)) (fun i c => endSub p r i 0x04 c) b

/-- RESUME (R49, R146): the halted item is repeated from its beginning; a ring that is not halted is left alone. -/
def resumeRing (r : Nat) (b : Block) : Block :=
  updRing r (fun g => if g.haltKind = 0 ∨ g.halt ≠ 0x06 then g else { g with
    haltKind := 0, halt := 0, recRead := false, fetchOff := 0, gotOff := 0
    walk := { g.walk with
      opWait := none, fanWait := none
      want := [], memv := []
      fans := if g.walk.mode = .pass1 then [] else g.walk.fans } }) b

/-- A write of TN_RING_CTRL: a cancel stands before a resume of the same write (R146). -/
def ringCtrl (p : Params) (t slot cancel : Nat) (resume : Bool) (b : Block) : Block :=
  let b := wr p (tnA t 0x044) (BitVec.ofNat 32 (cancel % 4 * 2 ^ 16 + slot % 64)) b
  match ringInSlot b t (slot % 64) with
  | none => b
  | some r =>
    let b := if cancel = 1 then cancelOldest p r b else if cancel = 2 then cancelAll p r b else b
    when resume (resumeRing r) b

/-- The command of a write of TN_RING_CTRL. -/
def State.ringCtrlReg (t slot cancel : Nat) (resume : Bool) (s : State) : Outcome :=
  s.runReg (fun p b => regWrite (tnA t 0x044) 0 [] [tnA t 0 / 0x1000] (ringCtrl p t slot cancel resume) b)

/-- RING_CANCEL_OLDEST (R145). -/
def actRingCancelOldest (t tslot : Nat) (s : State) : Outcome := s.ringCtrlReg t tslot 1 false

/-- RING_CANCEL_ALL (R145). -/
def actRingCancelAll (t tslot : Nat) (s : State) : Outcome := s.ringCtrlReg t tslot 2 false

/-- RING_RESUME (R146). -/
def actRingResume (t tslot : Nat) (s : State) : Outcome := s.ringCtrlReg t tslot 0 true

end Sys2Proof.Machine
end

