-- ==== Sys2Proof/Machine/Passes.lean ====
section
/-! DEFINITION. The three passes of a GRAPH segment (R37 to R49, R58, R69, R74, R75, R78, R131, R137, R157,
R182 to R185, R252 to R255, R326). -/

namespace Sys2Proof.Machine

/-! ## Reading a segment (R125, R137) -/

/-- What keeps pass 1 from its end: a fault at a record, a value to be read, a fan-list block to be read. -/
inductive Stop where
  | bad (st : Status) (off : Nat) (rec1 : BitVec 512)
  | opd (addr off : Nat) (rec1 : BitVec 512)
  | fan (addr off : Nat) (rec1 : BitVec 512)
deriving DecidableEq, Repr

/-- The records of a segment with their image offsets, INDIRECTs applied; the first argument bounds the records. -/
def parseRecs (p : Params) (b : Block) (r : Nat) : Nat → List (BitVec 256) → Nat → List Patch → List (Nat × BitVec 512) × Option Stop
  | 0, _, _, _ => ([], none)
  | _ + 1, [], off, ps => ([], if ps = [] then none else some (.bad 0x13 off 0))
  | k + 1, x :: l, off, ps =>
    if recUnits (opc x) = 2 then
      match l with
      | [] => ([], some (.bad 0x13 off (wide x)))
      | y :: l2 =>
        match patched ps (pair x y) with
        | none => ([], some (.bad 0x13 off (pair x y)))
        | some q => let z := parseRecs p b r k l2 (off + 64) []; ((off, q) :: z.1, z.2)
    else if opc x = 0x40 then
      if 4 ≤ ps.length ∨ !fieldsOk p b false 0 (wide x) then ([], some (.bad 0x13 off (wide x)))
      else match indirectPatch p b r (wide x) with
        | .bad st => ([], some (.bad st off (wide x)))
        | .need a => ([], some (.opd a off (wide x)))
        | .val v => parseRecs p b r k l (off + 32) (ps ++ [⟨bf x 1 0 6, indBytes (wide x), v % 2 ^ (8 * indBytes (wide x))⟩])
    else
      match patched ps (wide x) with
      | none => ([], some (.bad 0x13 off (wide x)))
      | some q => let z := parseRecs p b r k l (off + 32) []; ((off, q) :: z.1, z.2)

/-- A record that takes an index. -/
def isNode (x : BitVec 512) : Bool := decide (opc x = 0x01) || decide (opc x = 0x03)

/-- PCLASS of a TASK, JOIN or COMBINE record. -/
def recClass (x : BitVec 512) : Nat :=
  if opc x = 0x01 then bf x 8 0 12 else if opc x = 0x03 then bf x 4 0 12 else bf x 0x0A 0 12

/-- The home of a class: its instance when it is remote, and the home Ward (R34, R58, R252). -/
def homeAt (p : Params) (b : Block) (c : Nat) : Option Nat × Nat :=
  let k := (pcl b c).work
  match otherInst p b k.remote k.rinst with
  | some i => (some i, 0)
  | none => (none, (classHome p b k).getD 0)

/-- What R58, R77, R78, R250 and R252 say of a class named by a ring of tenant `t`. -/
def classStatus (p : Params) (b : Block) (t c : Nat) : Status :=
  let k := (pcl b c).work
  match otherInst p b k.remote k.rinst with
  | some i => if k.tenant ≠ t then 0x0F else if reachable p b i then 0 else 0x10
  | none => if !classDefined p k then 0x13 else if k.tenant ≠ t then 0x0F else if (classHome p b k).isNone then 0x0E else 0

/-! ## Successors (R43, R44) -/

/-- The 256-byte blocks of a fan list. -/
def fanBlocks (ptr count : Nat) : List Nat := (List.range (cdiv (ptr % 256 + 2 * count) 256)).map (fun i => ptr / 256 * 256 + 256 * i)

/-- A fan list from the blocks read. -/
def fanList (k : Walk) (ptr count : Nat) : List Nat :=
  (((fanBlocks ptr count).flatMap (fun a => Tbl.get [] k.fans a)).drop (ptr % 256 / 2)).take count

/-- The first block of a fan list that has not been read. A block that two fan lists of a segment share is read once in a
pass (DESIGN CHOICE, log entry 46). -/
def fanNeed (k : Walk) (ptr count : Nat) : Option Nat := (fanBlocks ptr count).find? (fun a => !k.fans.any (fun x => decide (x.1 = a)))

/-- The inline successors of every index. -/
def inlineOf (recs : List SRec) : List (List Nat) :=
  recs.filterMap (fun x => match x with
    | .task y => some (inlineSucc y)
    | .join y => some (inlineSucc (wide y))
    | _ => none)

/-- The successors that EDGE records add to an index. -/
def extraOf (k : Walk) (recs : List SRec) (i : Nat) : List Nat :=
  recs.flatMap (fun x => match x with
    | .edge s l => if s = i then l else []
    | .fan s ptr c => if s = i then fanList k ptr c else []
    | _ => [])

/-- R44: the successors of an index. -/
def succOf (k : Walk) (recs : List SRec) (i : Nat) : List Nat := (inlineOf recs).getD i [] ++ extraOf k recs i

/-- The intra-segment edges. -/
def edgesOf (k : Walk) (recs : List SRec) (n : Nat) : List (Nat × Nat) :=
  (List.range n).flatMap (fun i => (succOf k recs i).map (fun j => (i, j)))

/-- TUMBLER or COUNT. -/
def tumblerOf (x : BitVec 512) : Nat := bf x 2 0 8

/-! ## Pass 1: one record -/

/-- What pass 1 makes of a record. -/
inductive Chk where
  | ok (x : Option SRec)
  | bad (st : Status)
  | opd (addr : Nat)
  | fan (addr : Nat)
deriving DecidableEq, Repr

/-- A check that needs an operand's low word. -/
def withOpd (v : OpdVal) (f : Nat → Chk) : Chk :=
  match v with
  | .val x => f x
  | .bad st => .bad st
  | .need a => .opd a

/-- A refusal, or a record. -/
def orBad (st : Status) (x : Chk) : Chk := if st = 0 then x else .bad st

/-- An index of the segment that is not a remote record (R45, R254). -/
def localIdx (homes : List (Option Nat × Nat)) (n i : Nat) : Bool := decide (i < n) && (homes.getD i (none, 0)).1.isNone

/-- A slot field names a slot of the ring's tenant. -/
def slotMine (b : Block) (t v : Nat) : Bool := decide ((slt b (v / 4096 % 64) (v % 4096)).tenant = t)

/-- OPEN_CH records of the segment that name index `i` in a direction (R152). -/
def openUses (recs : List SRec) (tx : Bool) (i : Nat) : Nat :=
  recs.countP (fun x => match x with
    | .openCh y => if tx then bitAt y 8 && decide (bf y 2 0 16 = i) else bitAt y 9 && decide (bf y 4 0 16 = i)
    | _ => false)

/-- The object of a WATCH by channel or queue ID: its key, or the refusal (R326). -/
def watchObj (b : Block) (t kind id : Nat) : Nat × Status :=
  if kind = 0 then
    match chn b id with
    | some c => (id, if c.closing then 0x13 else if c.tenant ≠ t then 0x0F else 0)
    | none => (id, 0x13)
  else
    let w := fld (BitVec.ofNat 32 id) 6 6
    let q := id % 64
    let c := cqu b w q
    (w * 64 + q, if 2 ^ 16 ≤ id ∨ !cqLive b c ∨ c.gen % 16 ≠ id / 4096 then 0x13 else if c.tenant ≠ t then 0x0F else 0)

/-- The object is watched already, in the block or by an earlier record of the segment. -/
def watched (b : Block) (recs : List SRec) (kind obj : Nat) : Bool :=
  (decide (kind ≠ 2) && b.watch.any (fun x => decide (x.kind = kind) && decide (x.obj = obj)))
  || recs.any (fun x => match x with
    | .watch y id => decide (bf y 1 0 2 = kind) &&
        (if kind = 2 then decide (bf y 2 0 16 = obj) else decide ((watchObj b 0 kind id.toNat).1 = obj))
    | _ => false)

/-- Pass 1 on one record; of WATCH's ID value bits [31:0] are used (DESIGN CHOICE, log entry 46) (R37, R45, R69, R78, R125, R128, R152, R208, R254, R326): `n` is the index space, `homes` the
homes of the indices read, `recs` the records before it, `i` the index it takes. -/
def checkRec (p : Params) (b : Block) (r n : Nat) (homes : List (Option Nat × Nat)) (recs : List SRec) (i : Nat) (x : BitVec 512) : Chk :=
  let t := rTenant (rng b r)
  let k := (rng b r).walk
  let edges := fun (src : Nat) (l : List Nat) (y : SRec) =>
    if l.all (fun j => decide (j < n) && decide (j ≠ src)) ∧ ((inlineOf recs).getD src []).length + (extraOf k recs src).length + l.length ≤ 4096
    then Chk.ok (some y) else .bad 0x13
  let low := x.setWidth 256
  if !graphOp x || !fieldsOk p b false n x then .bad 0x13
  else match opc x with
  | 0x01 =>
    if !(inlineSucc x).all (fun j => decide (j < n) && decide (j ≠ i)) then .bad 0x13
    else orBad (classStatus p b t (recClass x))
      (match homeAt p b (recClass x) with
      | (none, w) =>
        if ((List.range 4).map (guardAt x)).any (fun g => decide (fld g 14 2 ≠ 0) && decide ((slt b w (fld g 0 12)).tenant ≠ t)) then .bad 0x0F
        else .ok (some (.task x))
      | _ => .ok (some (.task x)))
  | 0x03 =>
    if !(inlineSucc x).all (fun j => decide (j < n) && decide (j ≠ i)) then .bad 0x13
    else orBad (classStatus p b t (recClass x)) (.ok (some (.join low)))
  | 0x02 =>
    let src := bf x 2 0 16
    if n ≤ src then .bad 0x13
    else if bf x 1 0 1 = 0 then edges src (succList x 8 (bf x 4 0 16)) (.edge src (succList x 8 (bf x 4 0 16)))
    else match fanNeed k (bf x 8 0 48) (bf x 4 0 16) with
      | some a => .fan a
      | none => edges src (fanList k (bf x 8 0 48) (bf x 4 0 16)) (.fan src (bf x 8 0 48) (bf x 4 0 16))
  | 0x10 =>
    let tx := bf x 2 0 16
    let rx := bf x 4 0 16
    if bitAt x 8 && (!localIdx homes n tx || decide (8 ≤ openUses recs true tx))
        || bitAt x 9 && (!localIdx homes n rx || decide (8 ≤ openUses recs false rx)) then .bad 0x13
    else if slotMine b t (bf x 8 0 18) then .ok (some (.openCh low)) else .bad 0x0F
  | 0x12 =>
    if (homeAt p b (recClass x)).1.isSome || !(succList x 0x18 (bf x 0x16 0 4)).all (localIdx homes n) then .bad 0x13
    else orBad (classStatus p b t (recClass x)) (if slotMine b t (bf x 0x0C 0 18) then .ok (some (.combine x)) else .bad 0x0F)
  | 0x20 =>
    if !localIdx homes n (bf x 2 0 16) then .bad 0x13
    else withOpd (evalLow p b r (opdAt x 8)) (fun v => orBad (haspRefusal p b t (haspOf p b x))
      (.ok (some (.waitTask (bf x 2 0 16) ⟨(haspOf p b x).2, (haspOf p b x).1, BitVec.ofNat 32 v⟩))))
  | 0x21 =>
    if !localIdx homes n (bf x 2 0 16) then .bad 0x13
    else withOpd (evalLow p b r (opdAt x 8)) (fun v => orBad (haspRefusal p b t (haspOf p b x))
      (.ok (some (.sigTask (bf x 2 0 16) ⟨(haspOf p b x).2, (haspOf p b x).1, BitVec.ofNat 32 v, bitAt x 9⟩))))
  | 0x41 =>
    if !slotMine b t (bf x 4 0 18) then .bad 0x0F
    else if bitAt x 8 then .ok (some (.setSlot low 0))
    else withOpd (evalLow p b r (opdAt x 8)) (fun v => .ok (some (.setSlot low (BitVec.ofNat 32 v))))
  | 0x50 =>
    let kind := bf x 1 0 2
    if kind = 2 then
      if !localIdx homes n (bf x 2 0 16) || watched b recs 2 (bf x 2 0 16) then .bad 0x13 else .ok (some (.watch low 0))
    else withOpd (evalLow p b r (opdAt x 8)) (fun v =>
      let o := watchObj b t kind v
      if o.2 ≠ 0 then .bad o.2 else if watched b recs kind o.1 then .bad 0x13 else .ok (some (.watch low (BitVec.ofNat 32 v))))
  | 0x51 => .ok (some (.mark low))
  | _ => .ok none

/-- The records in order: the checked ones, or the first that stops the pass. -/
def checkAll (p : Params) (b : Block) (r n : Nat) (homes : List (Option Nat × Nat)) : List (Nat × BitVec 512) → List SRec → Nat → List SRec × Option Stop
  | [], recs, _ => (recs, none)
  | x :: l, recs, i =>
    match checkRec p b r n homes recs i x.2 with
    | .ok y => checkAll p b r n homes l (recs ++ y.toList) (if isNode x.2 then i + 1 else i)
    | .bad st => (recs, some (.bad st x.1 x.2))
    | .opd a => (recs, some (.opd a x.1 x.2))
    | .fan a => (recs, some (.fan a x.1 x.2))

/-! ## Pass 1: the segment -/

/-- The faults that show at the end of the segment: the count against NTASK (R125), more than 4,096 successors (R44),
edges above a tumbler (R47). They are charged to the last record, or to the record whose count is exceeded. -/
def segFault (k : Walk) (n off : Nat) (l : List (Nat × BitVec 512)) (recs : List SRec) : Option Stop :=
  let nodes := l.filter (fun x => isNode x.2)
  let last := l.getLastD (off, 0)
  let es := edgesOf k recs n
  if nodes.length ≠ n ∨ (List.range n).any (fun i => 4096 < (succOf k recs i).length) then some (.bad 0x13 last.1 last.2)
  else (nodes.zipIdx.find? (fun x => tumblerOf x.1.2 < es.countP (fun e => e.2 = x.2))).map (fun x => .bad 0x13 x.1.1 x.1.2)

/-- A table filled for every Ward. -/
def perWard (p : Params) (f : Nat → Nat) : Tbl Nat := (List.range p.nw).foldl (fun t w => Tbl.set 0 t w (f w)) []

/-- The COMBINE records of a segment that queue at a Ward. -/
def combAt (p : Params) (b : Block) (recs : List SRec) (w : Nat) : List (BitVec 512) :=
  recs.filterMap (fun x => match x with
    | .combine y => if (homeAt p b (recClass y)).2 = w then some y else none
    | _ => none)

/-- Blocks of the combining store (R185, Table 6.2). -/
def combBlocks (y : BitVec 512) : Nat :=
  let len := bf y 8 0 13
  if bf y 1 0 1 = 0 ∧ bf y 3 0 2 = 0 then cdiv (len * 5) 64 else if 5 ≤ bf y 2 0 4 then cdiv len 64 else cdiv len 128

/-- The channel an OPEN_CH record opens, its task indices resolved through `hs` (R150, R152, R158). -/
def openChan (p : Params) (b : Block) (r : Nat) (owner : ChOwner) (hs : List Word32) (y : BitVec 256) : Chan :=
  let one := fun (k tx : Bool) (v : Nat) => if k then EndP.task (hs.getD v 0) else (endForm p b tx v).getD (.port 0)
  { tenant := rTenant (rng b r), dir := rHome (rng b r), tx := one (bitAt y 8) true (bf y 2 0 16),
    rx := one (bitAt y 9) false (bf y 4 0 16), owner := owner }

/-- The imports of a segment: index, source instance, count, for every index with inputs from an instance other than its
own (R253, R255). -/
def importsOf (own : Nat) (homes : List (Option Nat × Nat)) (es : List (Nat × Nat)) : List (Nat × Nat × Nat) :=
  let inst := fun (i : Nat) => ((homes.getD i (none, 0)).1).getD own
  (List.range homes.length).flatMap (fun j =>
    ((List.range 64).map (fun i => (j, i, es.countP (fun e => e.2 = j ∧ inst e.1 = i)))).filter (fun x => x.2.2 ≠ 0 ∧ x.2.1 ≠ inst j))

/-- The segment that passes 2 and 3 work on (R46, R62, R131, R185, R255). -/
def mkSeg (p : Params) (b : Block) (r bank : Nat) (homes : List (Option Nat × Nat)) (recs : List SRec) : Seg :=
  let k := (rng b r).walk
  let n := homes.length
  let imps := importsOf (ownInst p b) homes (edgesOf k recs n)
  let here := fun (w : Nat) => (List.range n).filter (fun i => homes.getD i (none, 0) = (none, w))
  { no := (rng b r).segNo, bank := bank, recs := recs, homes := homes
    demand := perWard p (fun w => (here w).length + (combAt p b recs w).length)
    lines := perWard p (fun w => if spillBase p b w ≠ 0 then 0 else
      ((here w).map (fun i => linesFor (succOf k recs i).length)).sum + ((combAt p b recs w).map (fun y => linesFor (bf y 0x16 0 4))).sum)
    queues := perWard p (fun w => (combAt p b recs w).length)
    blocks := perWard p (fun w => ((combAt p b recs w).map combBlocks).sum)
    fedrec := perWard p (fun w => imps.countP (fun x => homes.getD x.1 (none, 0) = (none, w))
      + (if w = rHome (rng b r) then homes.countP (fun h => h.1.isSome) else 0))
    chrec := perWard p (fun w => ((opensOf recs).map (fun y => recsAt p w (openChan p b r (.sub r 0) [] y))).sum)
    imps := imps, handles := List.replicate n 0 }

/-- The lowest of the 16 map banks that no segment uses (R46). A bank is taken at the end of pass 1, by the segment whose
GRAPH_PASS1 comes first (DESIGN CHOICE, log entry 46). -/
def freeBank (b : Block) : Option Nat :=
  (List.range 16).find? (fun k => !b.segs.any (fun x => match x.2 with | some g => decide (g.bank = k) | none => false))

/-- A block that the walk waits for is asked of the ring's fetcher, which reads it in the deadline order (R43, R122,
R126); `x` is the record that waits. -/
def walkRead (r addr : Nat) (x : BitVec 512) (b : Block) : Block :=
  updWalk r (fun k => { k with want := k.want ++ [addr], atRec := x }) b

/-- What stops pass 1 is acted on: a fault ends the submission, a value or block is asked for once. -/
def actStop (p : Params) (r : Nat) (x : Stop) (b : Block) : Block :=
  match x with
  | .bad st off y => walkFault p r st off y b
  | .opd a off y => walkRead r (a / 256 * 256) y (updWalk r (fun k => { k with opWait := some a, off := off }) b)
  | .fan a off y => walkRead r a y (updWalk r (fun k => { k with fanWait := some a, off := off }) b)

/-- Pass 1 over the whole segment (R37, R46). -/
def pass1 (p : Params) (r : Nat) (b : Block) : Block :=
  let k := (rng b r).walk
  match k.seg, freeBank b with
  | some h, some bank =>
    let z := parseRecs p b r k.body.length k.body (h.off + 64) []
    let homes := (z.1.filter (fun x => isNode x.2)).map (fun x => homeAt p b (recClass x.2))
    let c := checkAll p b r h.ntask homes z.1 [] 0
    match c.2.orElse (fun _ => z.2.orElse (fun _ => segFault k h.ntask h.off z.1 c.1)) with
    | some x => actStop p r x b
    | none =>
      let g := mkSeg p b r bank homes c.1
      let b := { b with segs := Tbl.set none b.segs r (some { g with since := b.clk.ts }) }
      updRing r (fun q => { q with segNo := q.segNo + 1, walk := { q.walk with mode := .pass2, off := h.off } }) b
  | _, _ => b

/-- A walk in pass 1 waits for a read. -/
def passReads (k : Walk) : Bool := k.opWait.isSome || k.fanWait.isSome

/-- GRAPH_PASS1 (R37, R46). -/
def actGraphPass1 (ring : Nat) (s : State) : Outcome :=
  s.runK (fun p b =>
    let k := (rng b ring).walk
    if k.mode = .pass1 ∧ walking b ring ∧ ¬ passReads k then pass1 p ring (progress ring b) else b)

/-! ## Reads of a walk (R43, R49, R126, R146, R287) -/

/-- The submission that the walk is in has ended. -/
def walkOver (b : Block) (r : Nat) : Bool := match walkSub b r with | some s => s.walkEnded | none => true

/-- The submission takes its segment in pass 3: a fault is sent to its home Ward, and the segment is completed first
(R140). -/
def passFault (p : Params) (r : Nat) (st : Status) (b : Block) : Block :=
  let k := (rng b r).walk
  if k.mode = .pass3 then faultTo none r k.subid st (capture p r 0 st k.off (imgAddr b r k.off) k.atRec b)
  else walkFault p r st k.off k.atRec b

/-- FAN_LIST_READ_RESPONSE (R43, R49, R146): a 256-byte block of 128 indices. A fault in pass 3 of a submission that has
ended halts nothing: its entries settle CANCELLED with the seal, and the links follow what pass 1 read. -/
def actFanListReadResponse (ring : Nat) (addr : BitVec 48) (resp : Resp) (idx : List Nat) (s : State) : Outcome :=
  s.run (fun p b => wardUp p b (rHome (rng b ring))) (fun p b =>
    let k := (rng b ring).walk
    if k.fanWait ≠ some addr.toNat ∨ k.want ≠ [] then b
    else
      let b := updWalk ring (fun k => { k with fanWait := none }) b
      let put := fun (l : List Nat) => updWalk ring (fun k => { k with fans := Tbl.ins (Tbl.del k.fans addr.toNat) addr.toNat l })
      let seen := updWalk ring (fun k => { k with reread := k.reread ++ [addr.toNat] })
      match resp with
      | .okay => seen (put ((List.range 128).map (fun i => idx.getD i 0)) b)
      | .fault =>
        if k.mode = .pass3 ∧ walkOver b ring then seen b
        else haltRing p ring 3 k.atRec (imgAddr b ring k.off) b
      | .poison => if k.mode = .pass3 then seen (passFault p ring 0x05 b) else passFault p ring 0x05 b)

/-- OPERAND_READ_RESPONSE (R126, R146). -/
def actOperandReadResponse (ring : Nat) (addr : BitVec 48) (resp : Resp) (value : BitVec 64) (s : State) : Outcome :=
  s.run (fun p b => wardUp p b (rHome (rng b ring))) (fun p b =>
    let k := (rng b ring).walk
    if k.opWait ≠ some addr.toNat ∨ k.want ≠ [] then b
    else
      let b := updWalk ring (fun k => { k with opWait := none }) b
      match resp with
      | .okay => updWalk ring (fun k => { k with memv := Tbl.ins (Tbl.del k.memv addr.toNat) addr.toNat value }) b
      | .fault => haltRing p ring 4 k.atRec (imgAddr b ring k.off) b
      | .poison => passFault p ring 0x05 b)

/-! ## AHEAD (R134) -/

/-- The step that the walk's next segment belongs to is open already. -/
def stepOpen (g : Ring) : Bool := g.steps.any (fun s => decide (s.no = g.stepNo) && s.opened)

/-- The walk waits before pass 1: the segment would open a step and OPEN_STEPS equals AHEAD. A further segment of a step that
is open does not wait (DESIGN CHOICE, log entry 46). -/
def aheadHolds (g : Ring) : Bool := !stepOpen g && decide (rAhead g ≤ openSteps g)

/-- AHEAD_RELEASE (R134). -/
def actAheadRelease (ring : Nat) (s : State) : Outcome :=
  s.runK (fun _ b =>
    let g := rng b ring
    if g.walk.mode = .waitAhead ∧ walking b ring ∧ !aheadHolds g then
      progress ring (updWalk ring (fun k => { k with mode := .pass1 }) b)
    else b)

/-! ## Pass 2: reservation (R74, R75, R62, R185, R255) -/

/-- U: entries of a tenant at a Ward. -/
def entriesHeld (b : Block) (w t : Nat) : Nat :=
  b.ents.countP (fun x => decide (homeOf x.1 = w) && decide (x.2.st ≠ .free) && decide (x.2.d.tenant = t) && !(x.2.retire && !live x.2.st))
  + ((reservedSegs b).map (fun x => if rTenant (rng b x.1) = t then Tbl.get 0 x.2.demand w else 0)).sum

/-- A freed entry is past its quarantine and not retired (R52, R286). -/
def pastQuarantine (b : Block) (w n : Nat) : Bool :=
  let e := ent b (w * 2048 + n)
  !e.retire && (match e.freedAt with | some f => decide (f + 256 ≤ b.clk.fclk) | none => true)

/-- A: allocatable entries of a Ward. -/
def allocatable (b : Block) (w : Nat) : Nat :=
  let q := Tbl.get {} b.wq w
  let lost := b.ents.countP (fun x => decide (homeOf x.1 = w) && x.2.retire && decide (x.2.st = .free) && decide (q.fresh ≤ x.1 % 2048))
  (2048 - q.fresh) - lost + q.freed.countP (pastQuarantine b w) - heldOf b Seg.demand w

/-- A queue number of a Ward may be allocated (R183). -/
def queueFree (b : Block) (w q : Nat) : Bool :=
  let c := cqu b w q
  decide (c.st = .free) || (decide (c.st = .quarantine) && (match c.freedAt with | some f => decide (f + 4096 ≤ b.clk.fclk) | none => true))

/-- Blocks of the combining store in use at a Ward (R185). -/
def blocksUsed (b : Block) (w : Nat) : Nat :=
  (b.cq.map (fun x => if x.1 / 64 = w ∧ cqLive b x.2 then x.2.blocks else 0)).sum + heldOf b Seg.blocks w

/-- Federation records in use at a Ward (R255). -/
def fedUsed (b : Block) (w : Nat) : Nat := (fedOf b w).imports.length + (fedOf b w).roster.length + heldOf b Seg.fedrec w

/-- The Wards a segment needs. -/
def segWards (g : Seg) : List Nat := (g.demand.keys ++ g.fedrec.keys ++ g.chrec.keys).eraseDups

/-- Q: KP_TEN_TTQ of a tenant, at most 2,048 (R75, Table 8.2). -/
def quotaOf (b : Block) (t : Nat) : Nat := min 2048 (ten b t).ttq

/-- A demand that no wait can meet: TABLE_FULL (R74, R185). -/
def neverFits (b : Block) (t : Nat) (g : Seg) : Bool :=
  (segWards g).any (fun w => decide (quotaOf b t < Tbl.get 0 g.demand w) || decide (2048 < Tbl.get 0 g.lines w)
    || decide (64 < Tbl.get 0 g.queues w) || decide (480 < Tbl.get 0 g.blocks w) || decide (1024 < Tbl.get 0 g.fedrec w))

/-- The tenant's quota holds at every Ward. -/
def quotaOk (b : Block) (t : Nat) (g : Seg) : Bool :=
  (segWards g).all (fun w => decide (Tbl.get 0 g.demand w = 0) || decide (entriesHeld b w t + Tbl.get 0 g.demand w ≤ quotaOf b t))

/-- Everything that a segment may wait for is there. -/
def fitsNow (b : Block) (g : Seg) : Bool :=
  (segWards g).all (fun w =>
    decide (Tbl.get 0 g.demand w ≤ allocatable b w)
    && (decide (Tbl.get 0 g.lines w = 0) || decide (linesUsed b w + Tbl.get 0 g.lines w ≤ 2048))
    && decide (Tbl.get 0 g.queues w + heldOf b Seg.queues w ≤ (List.range 64).countP (queueFree b w))
    && (decide (Tbl.get 0 g.blocks w = 0) || decide (blocksUsed b w + Tbl.get 0 g.blocks w ≤ 480))
    && (decide (Tbl.get 0 g.fedrec w = 0) || decide (fedUsed b w + Tbl.get 0 g.fedrec w ≤ 1024)))

/-- The channels of a segment: refused with TENANT_DENIED, or with TABLE_FULL for want of records or IDs (R156, R157). -/
def opensStatus (p : Params) (b : Block) (r : Nat) (g : Seg) : Status :=
  let t := rTenant (rng b r)
  let l := opensOf g.recs
  let mine := fun (y : BitVec 256) =>
    let c := openChan p b r (.sub r 0) [] y
    (bitAt y 8 || endOwned p b t c.tx) && (bitAt y 9 || endOwned p b t c.rx)
  if !l.all mine then 0x0F
  else if (segWards g).any (fun w => decide (Tbl.get 0 g.chrec w ≠ 0) && decide (2048 < recsUsed p b w + heldOf b Seg.chrec w + Tbl.get 0 g.chrec w))
      ∨ !idsFree b l.length ∧ l ≠ [] then 0x0E
  else 0

/-- An earlier segment in the entry queue that needs one of the same Wards holds this one back (R75). -/
def heldBack (b : Block) (before : List Nat) (g : Seg) : Bool :=
  before.any (fun q => match Tbl.get none b.segs q with
    | some x => (segWards x).any (fun w => decide (w ∈ segWards g))
    | none => false)

/-! ## Pass 2: allocation (R46, R52, R131, R182, R183) -/

/-- The first entry number from `n` on that is not retired. -/
def freshFrom (b : Block) (w : Nat) : Nat → Nat → Option Nat
  | 0, _ => none
  | k + 1, n => if 2048 ≤ n then none else if (ent b (w * 2048 + n)).retire then freshFrom b w k (n + 1) else some n

/-- The head of a Ward's free queue, taken. -/
def takeEntry (w : Nat) (b : Block) : Nat × Block :=
  let q := Tbl.get {} b.wq w
  match freshFrom b w 2048 q.fresh with
  | some n => (w * 2048 + n, { b with wq := Tbl.set {} b.wq w { q with fresh := n + 1 } })
  | none => match q.freed.find? (pastQuarantine b w) with
    | some n => (w * 2048 + n, { b with wq := Tbl.set {} b.wq w { q with freed := q.freed.erase n } })
    | none => (w * 2048, b)

/-- The fields every entry of a ring's segment takes from its ring and submission (R229, R233, R234, R393). -/
def ringDesc (b : Block) (r : Nat) (g : Seg) : TaskDesc :=
  let q := rng b r
  { be := rBe q, ring := r, subid := q.walk.subid, tenant := rTenant q, seg := g.no, step := some q.stepNo, interval := q.interval, mode := q.gmode }

/-- The descriptor of a TASK or JOIN record (Tables 2.1, 2.2). -/
def recDesc (d : TaskDesc) (x : BitVec 512) : TaskDesc :=
  if opc x = 0x01 then { d with
    isJoin := bitAt x 10, be := d.be || bitAt x 12, relay := bitAt x 11, watch := bitAt x 9, yield := bitAt x 8, func := bf x 4 0 24,
    tmo := bf x 7 4 4, energy := bf x 7 0 4, pclass := recClass x, layer := bf x 0x0A 0 16, opid := bf x 0x0C 0 16, arglen := bf x 0x0E 0 7,
    argptr := bf x 0x10 0 48, guards := (List.range 4).map (guardAt x) }
  else { d with isJoin := true, pclass := recClass x, layer := bf x 6 0 16, opid := bf x 0x18 0 16 }

/-- An entry allocated: generation one higher, PENDING, unsealed (R50, R52). -/
def putEntry (h tum : Nat) (d : TaskDesc) (b : Block) : Block :=
  updEnt h (fun e => { gen := (e.gen + 1) % 256, st := .pending, tumbler := tum, d := d, pendSince := b.clk.ts }) b

/-- The segment of a ring changed. -/
def updSeg (r : Nat) (f : Seg → Seg) (b : Block) : Block :=
  match Tbl.get none b.segs r with
  | some g => { b with segs := Tbl.set none b.segs r (some (f g)) }
  | none => b

/-- The TASK and JOIN records of a segment in index order. -/
def nodesOf (recs : List SRec) : List (BitVec 512) :=
  recs.filterMap (fun x => match x with | .task y => some y | .join y => some (wide y) | _ => none)

/-- The entry of index `i`: allocated at its local home, or put on the roster when it is remote (R46, R255). -/
def allocIdx (p : Params) (r : Nat) (g : Seg) (i : Nat) (x : BitVec 512) (b : Block) : Block :=
  let q := rng b r
  let d := recDesc (ringDesc b r g) x
  let b := when d.yield (updRing r (fun q => { q with ivYield := true })) b
  match g.homes.getD i (none, 0) with
  | (some _, _) => updFed (rHome q) (fun t => { t with roster :=
      t.roster ++ [⟨((Tbl.get none b.segs r).getD g).handles.getD i 0, r, q.walk.subid, some q.stepNo, q.interval, d.yield, false⟩] }) b
  | (none, w) =>
    let z := takeEntry w b
    let b := putEntry z.1 (tumblerOf x) d z.2
    let b := updSeg r (fun s => { s with handles := s.handles.set i (wordOf p b z.1) }) b
    updFed w (fun t => { t with imports := t.imports ++ (g.imps.filter (fun y => y.1 = i)).map (fun y => (z.1, y.2.1, y.2.2)) }) b

/-- A COMBINE record applied: the queue and its entry (R182, R183). -/
def applyCombine (p : Params) (r : Nat) (g : Seg) (x : BitVec 512) (b : Block) : Block :=
  let w := (homeAt p b (recClass x)).2
  let z := takeEntry w b
  let n := ((List.range 64).find? (queueFree b w)).getD 0
  let d := { ringDesc b r g with isJoin := true, pclass := recClass x, layer := (rng b r).layer, opid := (rng b r).opid, cq := some n }
  let b := putEntry z.1 1 d z.2
  let old := cqu b w n
  let c : CQ := {
    st := .opened, gen := (old.gen + 1) % 16, oper := bf x 3 0 2, ofmt := bf x 2 4 4, ifmt := bf x 2 0 4, fast := bitAt x 8,
    len := bf x 8 0 13, tenant := rTenant (rng b r), blocks := combBlocks x, n := bf x 4 0 32, entry := z.1, outptr := bf x 0x10 0 48,
    ring := r, subid := (rng b r).walk.subid, since := b.clk.ts }
  let b := updSeg r (fun s => { s with qents := s.qents ++ [z.1] }) (updCQ w n (fun _ => c) b)
  let v := bf x 0x0C 0 18
  writeSlot (v / 4096) (v % 4096) false (BitVec.ofNat 32 (qidOf w n c)) b

/-- An OPEN_CH record applied: the lowest free ID, written into IDSLOT (R154, R157). -/
def applyOpen (p : Params) (r : Nat) (owner : ChOwner) (hs : List Word32) (y : BitVec 256) (b : Block) : Block :=
  match freeCh b with
  | none => b
  | some id =>
    let v := bf y 8 0 18
    writeSlot (v / 4096) (v % 4096) false (BitVec.ofNat 32 id) (setChan id (some (openChan p b r owner hs y)) b)

/-- A WATCH applied: its submission awaits one more digest (R326, R328). -/
def applyWatch (r : Nat) (hs : List Word32) (y : BitVec 256) (id : Word32) (b : Block) : Block :=
  let kind := bf y 1 0 2
  let obj := if kind = 2 then wHandle (hs.getD (bf y 2 0 16) 0) else (watchObj b 0 kind id.toNat).1
  let subid := (rng b r).walk.subid
  updSub r subid (fun s => { s with digests := s.digests + 1 })
    { b with watch := b.watch ++ [{ kind := kind, obj := obj, ring := r, subid := subid, dptr := bf y 0x10 0 48 }] }

/-- A MARK: the ring's LAYER and OPID, and the MARK trace entry (R309). -/
def applyMark (p : Params) (r : Nat) (y : BitVec 256) (b : Block) : Block :=
  let b := updRing r (fun g => { g with layer := bf y 2 0 16, opid := bf y 4 0 16 }) b
  trRing p .keeper 0x03 r 0 (BitVec.ofNat 32 (bf y 8 0 32)) b

/-- A SET_SLOT's write (R73). -/
def applySet (y : BitVec 256) (v : Word32) (b : Block) : Block :=
  let n := bf y 4 0 18
  writeSlot (n / 4096) (n % 4096) (bitAt y 8) v b

/-- The records that act in pass 2, in record order (R131). -/
def applyRec (p : Params) (r : Nat) (g : Seg) (x : SRec) (b : Block) : Block :=
  let hs := ((Tbl.get none b.segs r).getD g).handles
  match x with
  | .openCh y => applyOpen p r (.step r (rng b r).stepNo (rng b r).interval) hs y b
  | .combine y => applyCombine p r g y b
  | .setSlot y v => applySet y v b
  | .watch y id => applyWatch r hs y id b
  | .mark y => applyMark p r y b
  | _ => b

/-- The step that the ring is in, recorded when it has no record yet (R134). -/
def ensureStep (r : Nat) (b : Block) : Block :=
  updRing r (fun g => if g.steps.any (fun s => s.no = g.stepNo) then g else { g with
    steps := g.steps ++ [{ no := g.stepNo, subid := g.walk.subid }], stepTop := max g.stepTop g.stepNo }) b

/-- The entries a segment adds to its submission and step. -/
def segCount (g : Seg) : Nat := g.homes.length + (g.recs.countP (fun x => match x with | .combine _ => true | _ => false))

/-- The allocate pass (R46, R131). -/
def allocSeg (p : Params) (r : Nat) (g : Seg) (b : Block) : Block :=
  let b := updWalk r (fun k => { k with mode := .pass3, reread := [] }) { b with entq := b.entq.filter (· ≠ r) }
  let b := forEach (nodesOf g.recs).zipIdx (fun x => allocIdx p r g x.2 x.1) (ensureStep r b)
  let b := forEach g.recs (applyRec p r g) b
  let n := segCount g
  let b := updSub r (rng b r).walk.subid (fun s => { s with unsettled := s.unsettled + n }) b
  updRing r (fun q => { q with steps := q.steps.map (fun s => if s.no = q.stepNo then { s with unsettled := s.unsettled + n } else s) }) b

/-! ## Pass 2: other instances (R253) -/

/-- A record in 128-bit data slots: 4, or 2 of a JOIN. -/
def recSlots (x : BitVec 512) : List (BitVec 128) :=
  (List.range (2 * recUnits (opc x))).map (fun i => BitVec.ofNat 128 (fld x (128 * i) 128))

/-- What the items of a segment carry beside Table 9.5: map bank, ring, low bits of the SUBID (log entry 13). -/
def segArgs (ring bank : Nat) (subid : Word32) : Nat := (bank + ring * 2 ^ 4 + subid.toNat % 2 ^ 15 * 2 ^ 17) * 2 ^ 48

/-- ARGS of a REC item: index. -/
def recArgs (i ring bank : Nat) (subid : Word32) : Nat := i + segArgs ring bank subid

/-- ARGS of an IMP item: index, source instance, count. -/
def impArgs (i src count ring bank : Nat) (subid : Word32) : Nat := i + src * 2 ^ 16 + count * 2 ^ 24 + segArgs ring bank subid

/-- ARGS of a LINK item: index, word. -/
def linkArgs (i : Nat) (word : Word32) (ring bank : Nat) (subid : Word32) : Nat := i + word.toNat * 2 ^ 16 + segArgs ring bank subid

/-- The records of one remote instance: REC items in index order, IMP items, RESERVE_END. -/
def reserveFar (p : Params) (r : Nat) (g : Seg) (i : Nat) (b : Block) : Block :=
  let t := rTenant (rng b r)
  let mine := fun (j : Nat) => decide ((g.homes.getD j (none, 0)).1 = some i)
  let b := forEach (nodesOf g.recs).zipIdx (fun x c => when (mine x.2)
    (sendItem none (mkItem p c 0x08 i t (recArgs x.2 r g.bank (rng c r).walk.subid) (recSlots x.1))) c) b
  let b := forEach (g.imps.filter (fun x => mine x.1)) (fun x c =>
    sendItem none (mkItem p c 0x09 i t (impArgs x.1 x.2.1 x.2.2 r g.bank (rng c r).walk.subid) []) c) b
  sendItem none (mkItem p b 0x0B i t (xctlArgs 0 r g.bank (rng b r).walk.subid) []) b

/-- The reservation is granted here: entries are allocated at once, or the remote instances are asked first; one that
cannot be reached refuses the segment (R250, R253). -/
def grantSeg (p : Params) (r : Nat) (g : Seg) (b : Block) : Block :=
  let l := segInsts g
  if l = [] then allocSeg p r g b
  else if l.any (fun i => !reachable p b i) then walkFault p r 0x10 (rng b r).walk.off 0 b
  else
    let b := updSeg r (fun s => { s with awaiting := l }) { b with entq := b.entq.filter (· ≠ r) }
    forEach l (reserveFar p r g) (updWalk r (fun k => { k with mode := .remote }) b)

/-- R74, R75: the segment of ring `r`, behind the rings `before` of the entry queue, is refused, waits on its quota,
waits in the entry queue, or is granted. A segment of the entry queue whose quota no longer holds leaves it and loses its
place (DESIGN CHOICE, log entry 46). -/
def admitSeg (p : Params) (r : Nat) (before : List Nat) (g : Seg) (b : Block) : Block :=
  let t := rTenant (rng b r)
  let off := (rng b r).walk.off
  let stay := fun (quota : Bool) (b : Block) =>
    let b := updSeg r (fun s => { s with quota := quota, since := if (rng b r).walk.mode = .pass2 then b.clk.ts else s.since }) b
    let q := if quota then b.entq.filter (· ≠ r) else if r ∈ b.entq then b.entq else b.entq ++ [r]
    updWalk r (fun k => { k with mode := .entq }) { b with entq := q }
  if neverFits b t g then walkFault p r 0x0E off 0 b
  else if !quotaOk b t g then stay true b
  else if heldBack b before g || !fitsNow b g then stay false b
  else
    let st := opensStatus p b r g
    if st ≠ 0 then walkFault p r st off 0 b else grantSeg p r g (progress r b)

/-- GRAPH_PASS2 (R46, R74). -/
def actGraphPass2 (ring : Nat) (s : State) : Outcome :=
  s.runK (fun p b =>
    match (rng b ring).walk.mode, Tbl.get none b.segs ring with
    | .pass2, some g => if walking b ring then admitSeg p ring b.entq g b else b
    | _, _ => b)

/-- ENTRY_QUEUE_ADMIT (R74, R75). -/
def actEntryQueueAdmit (ring : Nat) (s : State) : Outcome :=
  s.runK (fun p b =>
    match (rng b ring).walk.mode, Tbl.get none b.segs ring with
    | .entq, some g => if walking b ring then admitSeg p ring (b.entq.takeWhile (· ≠ ring)) g b else b
    | _, _ => b)

/-- REMOTE_RETRY_EXPIRY (R253). -/
def actRemoteRetryExpiry (ring : Nat) (s : State) : Outcome :=
  s.runK (fun _ b =>
    match (rng b ring).walk.mode with
    | .retry t => if t ≤ b.clk.fclk ∧ walking b ring then
        updWalk ring (fun k => { k with mode := .entq }) { b with entq := b.entq ++ [ring] } else b
    | _ => b)

/-- HND_ANSWER (R253, R254): the handles of the new entries, or the refusal or retry of the segment. -/
def actHndAnswer (ring : Nat) (via : Via) (ans : ReserveAns) (s : State) : Outcome :=
  s.runK (fun p => rxItems p via.hinge (List.replicate (match ans with | .ok l => 1 + l.length | _ => 1) 1) false (fun b =>
    let inst := via.inst
    match (rng b ring).walk.mode, Tbl.get none b.segs ring with
    | .remote, some g =>
      if inst ∈ g.awaiting then
        match ans with
        | .ok l =>
          let b := updSeg ring (fun s => { s with
            awaiting := s.awaiting.erase inst, handles := l.foldl (fun hs x => hs.set x.1 x.2) s.handles }) b
          match Tbl.get none b.segs ring with
          | some g => if g.awaiting = [] then allocSeg p ring g b else b
          | none => b
        | .refused st => walkFault p ring st (rng b ring).walk.off 0 b
        | .retry =>
          let b := abandonFar p ring g b
          let t := b.clk.fclk + rdf p b (kA 6 0x040) 16 16
          updWalk ring (fun k => { k with mode := .retry t })
            (updSeg ring (fun s => { s with awaiting := [], handles := List.replicate s.homes.length 0 }) b)
      else b
    | _, _ => b))

/-! ## Pass 3 (R46, R49, R61, R131) -/

/-- The resolved words of indices; one that has no entry links nothing. -/
def resolve (hs : List Word32) (l : List Nat) : List Word32 := (l.map (fun j => hs.getD j 0)).filter (fun x => x ≠ 0)

/-- The links of index `i`: written to its entry, or sent to its instance. -/
def linkIdx (p : Params) (r : Nat) (g : Seg) (k : Walk) (i : Nat) (b : Block) : Block :=
  let ws := resolve g.handles (succOf k g.recs i)
  match g.homes.getD i (none, 0) with
  | (none, _) => putLinks p (wHandle (g.handles.getD i 0)) ws b
  | (some q, _) => when (reachable p b q) (forEach ws (fun x c =>
      sendItem none (mkItem p c 0x0A q (rTenant (rng c r)) (linkArgs i x r g.bank k.subid) []) c)) b

/-- The COMBINE records of a segment. -/
def combsOf (recs : List SRec) : List (BitVec 512) := recs.filterMap (fun x => match x with | .combine y => some y | _ => none)

/-- Task-form waits and settle-form signals attached to their tasks; of two waits on one task the later stands. -/
def attachRec (g : Seg) (x : SRec) (b : Block) : Block :=
  match x with
  | .waitTask i w => updEnt (wHandle (g.handles.getD i 0)) (fun e => { e with d := { e.d with wait := some w } }) b
  | .sigTask i s => updEnt (wHandle (g.handles.getD i 0)) (fun e => { e with d := { e.d with sig := e.d.sig ++ [s] } }) b
  | _ => b

/-- The home Wards of a segment in this instance. -/
def sealWards (g : Seg) : List Nat := g.demand.keys

/-- The seal leaves for every home Ward; the step counts as open from its first seal (R46, R134, R144). -/
def sealSeg (p : Params) (r : Nat) (g : Seg) (b : Block) : Block :=
  let b := forEach (sealWards g) (fun w => xsend none 16 (.segSeal w r g.no)) b
  let b := forEach (segInsts g) (fun i c => when (reachable p c i)
    (sendItem none (mkItem p c 0x0B i (rTenant (rng c r)) (xctlArgs 1 r g.bank (rng c r).walk.subid) [])) c) b
  let b := updRing r (fun q => { q with
    steps := q.steps.map (fun s => if s.no = q.stepNo then { s with opened := true, timer := some (s.timer.getD b.clk.fclk) } else s) }) b
  { b with segs := Tbl.set none b.segs r none }

/-- The link pass and the seal; the map bank is released. -/
def linkSeg (p : Params) (r : Nat) (g : Seg) (b : Block) : Block :=
  let k := (rng b r).walk
  let b := forEach (List.range g.homes.length) (linkIdx p r g k) b
  let b := forEach ((combsOf g.recs).zip g.qents) (fun x => putLinks p x.2 (resolve g.handles (succList x.1 0x18 (bf x.1 0x16 0 4)))) b
  let b := forEach g.recs (attachRec g) b
  sealSeg p r g (updSeg r (fun s => { s with lines := [] }) b)

/-- The first block of a fan list that pass 3 has still to read again. -/
def linkNeed (k : Walk) (recs : List SRec) : Option Nat :=
  recs.findSome? (fun x => match x with | .fan _ ptr c => (fanBlocks ptr c).find? (fun a => decide (a ∉ k.reread)) | _ => none)

/-- The walk after the seal: on to NEXT, or to the next submission when this one has ended (R140). -/
def afterSeal (p : Params) (r : Nat) (b : Block) : Block :=
  if walkOver b r then startNext r b else leaveSeg p r b

/-- The EDGE record in FAN form whose list takes a block, with its image offset. -/
def fanRec (p : Params) (b : Block) (r a : Nat) : Option (Nat × BitVec 512) :=
  let k := (rng b r).walk
  (parseRecs p b r k.body.length k.body ((k.seg.map (fun h => h.off)).getD 0 + 64) []).1.find?
    (fun x => opc x.2 = 0x02 ∧ bitAt x.2 8 ∧ a ∈ fanBlocks (bf x.2 8 0 48) (bf x.2 4 0 16))

/-- Pass 3 rereads the fan lists block by block (R46). -/
def pass3 (p : Params) (r : Nat) (g : Seg) (b : Block) : Block :=
  match linkNeed (rng b r).walk g.recs with
  | some a =>
    let x := (fanRec p b r a).getD ((rng b r).walk.off, 0)
    walkRead r a x.2 (updWalk r (fun k => { k with fanWait := some a, off := x.1 }) b)
  | none => afterSeal p r (linkSeg p r g b)

/-- GRAPH_PASS3 (R46, R49): it is completed in DRAIN, and when its submission has ended (R140, R295). -/
def actGraphPass3 (ring : Nat) (s : State) : Outcome :=
  s.runK (fun p b =>
    match (rng b ring).walk.mode, Tbl.get none b.segs ring with
    | .pass3, some g =>
      if (rng b ring).haltKind = 0 ∧ ¬ passReads (rng b ring).walk then pass3 p ring g (progress ring b) else b
    | _, _ => b)

end Sys2Proof.Machine
end

