-- ==== Sys2Proof/Machine/Preempt.lean ====
section
/-! DEFINITION. Pre-emption and resume of rings (R234 to R245). -/

namespace Sys2Proof.Machine

/-! ## Points (R236, R237) -/

/-- The earliest valid point of a history, oldest first: clean, and no interval after it STARTED. -/
def validPoint : List Point → Option Point
  | [] => none
  | q :: l => if q.clean && !q.started && l.all (fun x => !x.started) then some q else validPoint l

/-- The history up to a point, which the fresh interval follows now. -/
def historyTo (l : List Point) (pt : Point) (fresh : Nat) : List Point :=
  l.takeWhile (fun x => x ≠ pt) ++ [{ pt with interval := fresh, was := pt.was ++ [pt.interval] }]

/-- Steps that still hold entries up to a point (R238): a YIELD lies in an open step, which is opened again. -/
def stepsTo (l : List StepRec) (pt : Point) : List StepRec :=
  (l.filter (fun s => match pt.stepNo with | some n => decide (s.no ≤ n) | none => true)).map (fun s =>
    { s with opened := s.opened && decide (s.unsettled ≠ 0), timer := none,
             closed := if some s.no = pt.stepNo && !pt.isStep then false else s.closed })

/-- A segment in pass 3 is completed and sealed (R238). -/
def finishSeg (p : Params) (r : Nat) (b : Block) : Block :=
  match (rng b r).walk.mode, Tbl.get none b.segs r with
  | .pass3, some g => clearHalt r (linkSeg p r g b)
  | _, _ => dropWalk p r b

/-- The place that a point saved. -/
def pointWalk (pt : Point) : Walk :=
  { mode := .records, off := pt.off + 32, subid := pt.subid, seg := pt.seg, loops := pt.iters }

/-- R238 at a chosen point. -/
def takePoint (p : Params) (r : Nat) (pt : Point) (b : Block) : Block :=
  let b := finishSeg p r b
  let hi := (rng b r).interval
  let fresh := hi + 1
  let b := updRing r (fun g => { g with
    pre := .pending, prePoint := some { pt with interval := fresh }, walk := pointWalk pt, step := pt.step, interval := fresh
    ivYield := false, points := historyTo g.points pt fresh, steps := stepsTo g.steps pt
    stepNo := if pt.isStep then g.stepTop + 1 else pt.stepNo.getD g.stepNo
    stepTop := if pt.isStep then g.stepTop + 1 else g.stepTop
    subs := g.subs.map (fun s => if s.early.isNone && !s.complete && serialGe s.subid pt.subid then { s with walkEnded := false } else s) }) b
  let b := forEach ((List.range p.nw).filter (fun w => !fenced b w)) (fun w => xsend none 16 (.discard w r pt.interval hi)) b
  let b := closeOwned (fun o => match o with
    | .step q _ iv => decide (q = r) && decide (pt.interval ≤ iv) && decide (iv ≤ hi)
    | _ => false) b
  gateCheck p r b

/-- A request that is ignored (R237, R242). -/
def preIgnore (b : Block) : Block := { b with preIgnored := satAdd (2 ^ 32 - 1) b.preIgnored 1 }

/-- R237: the ring becomes PENDING, with its earliest valid point or the next one its walk reaches. -/
def preRequest (p : Params) (r : Nat) (queue : Bool) (b : Block) : Block :=
  let g := rng b r
  if g.enable ∧ g.pre = .run then
    let b := updRing r (fun g => { g with pre := .pending, prePoint := none, preQueue := queue, preResume := false }) b
    let b := trRing p .keeper 0x60 r 0 (BitVec.ofNat 32 r) b
    match validPoint g.points with
    | some pt => takePoint p r pt b
    | none => b
  else preIgnore b

/-- R242: a resume. -/
def preResumeAt (p : Params) (r : Nat) (b : Block) : Block :=
  match (rng b r).pre with
  | .held => toRun p r b
  | .pending => updRing r (fun g => { g with preResume := true }) b
  | .run => preIgnore b

/-- A write of KP_PRE_CTRL: GO acts with the OP, RING and QUEUE of the same write. -/
def preCtrl (p : Params) (v : Word32) (b : Block) : Block :=
  let b := wr p (kA 5 0x060) (v &&& 0x40031FFF) b
  if bitAt v 31 ∧ fld v 16 2 = 1 then preRequest p (fld v 0 13) (bitAt v 30) b
  else if bitAt v 31 ∧ fld v 16 2 = 2 then preResumeAt p (fld v 0 13) b
  else b

/-- The word of KP_PRE_CTRL that carries a request. -/
def preWord (op ring : Nat) (queue : Bool) : Word32 := BitVec.ofNat 32 (2 ^ 31 + b2n queue * 2 ^ 30 + op * 2 ^ 16 + ring % 2 ^ 13)

/-- PREEMPT_REQUEST (R237, R238). -/
def actPreemptRequest (ring : Nat) (queue : Bool) (s : State) : Outcome :=
  s.keeperReg (kA 5 0x060) (preWord 1 ring queue) false (fun p b => preCtrl p (preWord 1 ring queue) b)

/-- PREEMPT_RESUME (R242). -/
def actPreemptResume (ring : Nat) (s : State) : Outcome :=
  s.keeperReg (kA 5 0x060) (preWord 2 ring false) false (fun p b => preCtrl p (preWord 2 ring false) b)

/-! ## Discard (R238, R239) -/

/-- Entries of a ring's discarded intervals at a Ward. -/
def discardSet (b : Block) (w r lo hi : Nat) : List Nat :=
  (b.ents.filter (fun x => homeOf x.1 = w ∧ x.2.d.ring = r ∧ x.2.d.rinst.isNone ∧ live x.2.st ∧ !x.2.discard
    ∧ lo ≤ x.2.d.interval ∧ x.2.d.interval ≤ hi)).map Prod.fst

/-- One entry: marked and cancelled; a RUNNING one keeps the mark and goes on. -/
def discardOne (p : Params) (h : Nat) (b : Block) : Block :=
  let b := updEnt h (fun e => { e with discard := true }) b
  if (ent b h).st = .running then voidW (homeOf h) b else cancelEntry p h b

/-- An entry whose completion was sampled in the cycle of the discard: the completion stands and the discard is void, but its
submission does not count it (R239, R245, Table 8.4). -/
def uncount (h : Nat) (b : Block) : Block :=
  let e := ent b h
  let b := voidW (homeOf h) (updEnt h (fun e => { e with discard := true }) b)
  let b := { b with xbar := b.xbar.map (fun x => match x with
    | .toRing word r i st s status d => .toRing word r i st s status (d || decide (wHandle word = h))
    | y => y) }
  when (decide (rHome (rng b e.d.ring) = homeOf h)) (updSub e.d.ring e.d.subid (fun s => match e.st with
    | .failed => { s with nfail := s.nfail - 1, firstFail := if s.nfail ≤ 1 then none else s.firstFail }
    | .cancelled => { s with ncanc := s.ncanc - 1 }
    | _ => s)) b

/-- The entries of a ring's discarded intervals at a Ward whose completion was sampled in this cycle. -/
def uncountSet (b : Block) (w r lo hi : Nat) : List Nat :=
  b.clk.cmpNow.filter (fun h => homeOf h = w ∧ (ent b h).d.ring = r ∧ (ent b h).d.rinst.isNone ∧ !(ent b h).discard
    ∧ (ent b h).st ≠ .free ∧ !live (ent b h).st ∧ lo ≤ (ent b h).d.interval ∧ (ent b h).d.interval ≤ hi)

/-- A discard notice on its way. -/
def isDiscard (w r : Nat) : XItem → Bool
  | .discard v q _ _ => decide (v = w) && decide (q = r)
  | _ => false

/-- DISCARD_NOTICE (R238, R239). -/
def actDiscardNotice (w ring : Nat) (s : State) : Outcome :=
  s.runW w (fun p b =>
    match xfind b (isDiscard w ring) with
    | some (.discard _ _ lo hi) =>
      let b := updFed w (fun t => { t with roster := t.roster.map (fun o =>
        if o.ring = ring ∧ lo ≤ o.interval ∧ o.interval ≤ hi then { o with discard := true } else o) }) b
      let b := xrx w 16 (xdrop (isDiscard w ring) b)
      forEach (discardSet b w ring lo hi) (discardOne p) (forEach (uncountSet b w ring lo hi) uncount b)
    | _ => b)

/-! ## Automatic pre-emption and resume (R244) -/

/-- KP_PRE_CFG.LC_WAIT, below 64 taken as 64. -/
def lcWait (p : Params) (b : Block) : Nat := max 64 (rdf p b (kA 5 0x06C) 0 16)

/-- A token-backed LC request of the waiting list. -/
def lcWaiting (q : PReq) : Bool := q.waitAt.isSome && decide (q.tier = 0) && !q.staging

/-- Assignments that a ring holds at the ports of a list (R81). -/
def assignments (b : Block) (r : Nat) (ports : List Nat) : Nat :=
  ((ports.eraseDups).map (fun n => (Tbl.get [] b.occ n).countP (fun h => decide ((ent b h).d.ring = r) && (ent b h).d.rinst.isNone))).sum

/-- The rings a request of tenant `t` may pre-empt. -/
def mayVictim (b : Block) (t : Nat) (g : Ring) : Bool :=
  g.enable && decide (g.pre = .run) && rBe g && (ten b (rTenant g)).preemptible && decide (rTenant g ≠ t)

/-- The victim of a request: most assignments at the ports of its class, lowest number among equals. -/
def victim (p : Params) (b : Block) (q : PReq) : Option Nat :=
  let d := (ent b q.handle).d
  let ports := (ranksOf (pcl b d.pclass).work).flatMap (fun x => rankPorts p x.2)
  let cand := ((b.rings.filter (fun x => mayVictim b d.tenant x.2)).map (fun x => (x.1, assignments b x.1 ports)))
  (cand.foldl (fun a x => match a with
    | none => some x
    | some y => if y.2 < x.2 then some x else some y) (none : Option (Nat × Nat))).map Prod.fst

/-- A request whose wait is over fires: its count restarts, and its victim is pre-empted. -/
def lcFire (p : Params) (q : PReq) (b : Block) : Block :=
  let b := { b with place := { b.place with reqs := b.place.reqs.map (fun x => if x = q then { x with lcAt := b.clk.fclk } else x) } }
  match victim p b q with
  | some r => preRequest p r true b
  | none => b

/-- AUTO_PREEMPT_TRIGGER (R244). -/
def actAutoPreemptTrigger (s : State) : Outcome :=
  s.runK (fun p b =>
    if bitAt (rd p b (kA 5 0x068)) 0 then
      forEach ((waitingOrder b).filter (fun q => lcWaiting q && decide (q.lcAt + lcWait p b ≤ b.clk.fclk))) (lcFire p) b
    else b)

/-- AUTO_RESUME (R244). -/
def actAutoResume (s : State) : Outcome :=
  s.runK (fun p b =>
    match b.resumeQ with
    | r :: _ =>
      if bitAt (rd p b (kA 5 0x068)) 1 ∧ ¬ b.place.reqs.any lcWaiting ∧ b.lcIdleAt + rdf p b (kA 5 0x06C) 16 16 ≤ b.clk.fclk then
        preResumeAt p r { b with lcIdleAt := b.clk.fclk }
      else b
    | [] => b)

end Sys2Proof.Machine
end

