-- ==== Sys2Proof/Machine/Walk.lean ====
section
/-! DEFINITION. The walk of a submission: segment headers and the records of CONTROL segments (R124 to R139, R157,
R158, R207, R211, R234, R309). -/

namespace Sys2Proof.Machine

/-! ## Segment headers (R124) -/

/-- The fields of a header as (lowest bit, length). -/
def hdrMask : BitVec 512 :=
  [(0, 32), (32, 8), (40, 8), (48, 2), (64, 32), (96, 16), (128, 32), (160, 32)].foldl
    (fun m x => m ||| BitVec.ofNat 512 ((2 ^ x.2 - 1) * 2 ^ x.1)) 0

/-- The bytes of a segment's records in order. -/
def bodyBytes (body : List (BitVec 256)) : List Nat := body.flatMap (fun x => bytesOf 32 x.toNat)

/-- MAGIC. -/
def hdrMagic (x : BitVec 512) : Bool := decide (bf x 0 0 32 = 0x4C4D5243)

/-- A good header (R124); NTASK counts at most 4,096 indices and is 0 in CONTROL (R45, Table 4.3). -/
def hdrOk (imglen off : Nat) (x : BitVec 512) (body : List (BitVec 256)) : Bool :=
  hdrMagic x && decide (bf x 5 0 8 = 1) && decide (x &&& ~~~hdrMask = 0) && decide (bf x 8 0 32 % 32 = 0)
    && decide (off % 64 = 0) && decide (off + 64 + bf x 8 0 32 ≤ imglen)
    && (if bf x 6 0 1 = 1 then decide (bf x 0x0C 0 16 = 0) else decide (bf x 0x0C 0 16 ≤ 4096))
    && (bf x 6 1 1 = 0 || decide (crc32c (bodyBytes body) = bf x 0x14 0 32))

/-- The segment that a header begins. -/
def segOf (off : Nat) (x : BitVec 512) (body : List (BitVec 256)) : SegHdr :=
  ⟨off, decide (bf x 6 0 1 = 0), bf x 8 0 32, BitVec.ofNat 32 (bf x 0x10 0 32), bf x 0x0C 0 16,
    if bf x 6 0 1 = 0 then [] else body⟩

/-- The walk enters a segment: pass 1 of a GRAPH segment unless AHEAD holds it (R134), the records of a CONTROL one. -/
def enterSeg (p : Params) (r : Nat) (h : SegHdr) (body : List (BitVec 256)) (b : Block) : Block :=
  let b := updWalk r (fun k => { k with
    seg := some h, seek := none, off := if h.graph then h.off else h.off + 64, body := if h.graph then body else [],
    mode := if h.graph then (if aheadHolds (rng b r) then .waitAhead else .pass1) else .records, since := b.clk.ts }) b
  if h.graph then b else walkOn p r b

/-- A target that no segment header and no CONTROL record meets is BAD_COMMAND of the record that jumps (R132). -/
def badSeek (p : Params) (r : Nat) (x : Seek) (b : Block) : Block := walkFault p r 0x13 x.off x.rec1 b

/-- A header reached while a target is sought (R132, R133). -/
def seekSeg (p : Params) (r : Nat) (x : Seek) (h : SegHdr) (body : List (BitVec 256)) (b : Block) : Block :=
  let fin := h.off + 64 + h.len
  if x.tgt = h.off then enterSeg p r h body b
  else if h.off < x.tgt ∧ x.tgt < h.off + 64 then badSeek p r x b
  else if h.off < x.tgt ∧ x.tgt < fin then
    if h.graph ∨ x.tgt % 32 ≠ 0 then badSeek p r x b
    else updWalk r (fun k => { k with seg := some h, seek := none, off := x.tgt, mode := .records }) b
  else if x.tgt = fin ∧ x.leave ∧ ¬ h.graph then
    leaveSeg p r (updWalk r (fun k => { k with seg := some h, seek := none, off := x.tgt }) b)
  else if h.next = 0xFFFFFFFF then badSeek p r x b
  else updWalk r (fun k => { k with off := h.next.toNat }) b

/-- SEGMENT_HEADER (R124). The walk looks for a target at the target itself and, where no header stands there, along
the NEXT chain. -/
def actSegmentHeader (ring : Nat) (hdr : BitVec 512) (body : List (BitVec 256)) (s : State) : Outcome :=
  s.runK (fun p b =>
    let k := (rng b ring).walk
    let imglen := ((walkSub b ring).map (fun s => s.imglen)).getD 0
    if k.mode ≠ .header ∨ !walking b ring then b
    else
      let b := progress ring b
      match k.seek with
      | some x =>
        if x.tgt = k.off ∧ !hdrMagic hdr then
          match k.seg with
          | some g => if g.next = 0xFFFFFFFF then badSeek p ring x b else updWalk ring (fun k => { k with off := g.next.toNat }) b
          | none => badSeek p ring x b
        else if body.length * 32 ≠ bf hdr 8 0 32 ∧ hdrOk imglen k.off (hdr &&& ~~~(BitVec.ofNat 512 (2 ^ 49))) [] then b
        else if hdrOk imglen k.off hdr body then seekSeg p ring x (segOf k.off hdr body) body b
        else walkFault p ring 0x13 k.off hdr b
      | none =>
        if body.length * 32 ≠ bf hdr 8 0 32 ∧ hdrOk imglen k.off (hdr &&& ~~~(BitVec.ofNat 512 (2 ^ 49))) [] then b
        else if hdrOk imglen k.off hdr body then enterSeg p ring (segOf k.off hdr body) body b
        else walkFault p ring 0x13 k.off hdr b)

/-! ## Records of a CONTROL segment -/

/-- The walk can take a record. -/
def mayTake (b : Block) (r : Nat) : Bool :=
  let k := (rng b r).walk
  decide (k.mode = .records) && walking b r && k.opWait.isNone

/-- A record as it is captured (R147): one of 64 bytes with the 32 bytes that follow it in its segment. -/
def asFetched (k : Walk) (x : BitVec 512) : BitVec 512 :=
  if recUnits (opc x) = 2 then
    match k.seg with
    | some g => x ||| (wide (g.body.getD ((k.off - g.off - 64) / 32 + 1) 0) <<< 256)
    | none => x
  else x

/-- A record reached by the walk, patched: BAD_COMMAND where no CONTROL segment may hold it or a field is bad
(R125, R127, R128, R137). A record of another opcode than `o` is some other command's. -/
def walkRec (p : Params) (r o : Nat) (rec1 : BitVec 256) (f : BitVec 512 → Block → Block) (b : Block) : Block :=
  let k := (rng b r).walk
  if !mayTake b r then b
  else match patched k.patches (wide rec1) with
    | none => walkFault p r 0x13 k.off (asFetched k (wide rec1)) b
    | some x =>
      if !controlOp x then walkFault p r 0x13 k.off (asFetched k x) b
      else if opc x ≠ o then b
      else if !fieldsOk p b true 0 x then walkFault p r 0x13 k.off x b
      else f x (progress r b)

/-- The record at hand is executed: its patches are spent. -/
def spent (r : Nat) (b : Block) : Block := updWalk r (fun k => { k with patches := [] }) b

/-- A command fault of the record at hand. -/
def recFault (p : Params) (r : Nat) (st : Status) (x : BitVec 512) (b : Block) : Block :=
  walkFault p r st (rng b r).walk.off x b

/-- An operand used by the record at hand: its value, its fault, or a read first (R126). -/
def useOpd (p : Params) (r : Nat) (x : BitVec 512) (v : OpdVal) (f : Nat → Block → Block) (b : Block) : Block :=
  match v with
  | .val n => f n b
  | .bad st => recFault p r st x b
  | .need a => walkRead r (a / 256 * 256) x (updWalk r (fun k => { k with opWait := some a }) b)

/-- A row whose record is passed after its effect. -/
def State.runRec (ring o : Nat) (rec1 : BitVec 256) (f : Params → BitVec 512 → Block → Block) (s : State) : Outcome :=
  s.runK (fun p b => walkRec p ring o rec1 (f p) b)

/-- The record is done and the walk goes on. -/
def pass (p : Params) (r : Nat) (b : Block) : Block := passRec p r (spent r b)

/-- The records that a re-walk would repeat with effect make no earlier point valid again (R236). -/
def dirty (r : Nat) (b : Block) : Block := updRing r (fun g => { g with points := g.points.map (fun q => { q with clean := false }) }) b

/-! ## Jumps (R132, R133) -/

/-- The walk continues at an image offset after the record at hand. -/
def jump (p : Params) (r tgt : Nat) (leave : Bool) (x : BitVec 512) (b : Block) : Block :=
  let k := (rng b r).walk
  match k.seg with
  | none => b
  | some g =>
    let fin := g.off + 64 + g.len
    if tgt ≤ k.off then recFault p r 0x13 x b
    else
      let b := updWalk r (fun k => { k with memv := [] }) (spent r b)
      if tgt < fin then
        if tgt % 32 = 0 then updWalk r (fun k => { k with off := tgt }) b else recFault p r 0x13 x b
      else if tgt = fin ∧ leave then leaveSeg p r (updWalk r (fun k => { k with off := tgt }) b)
      else if tgt % 64 = 0 then updWalk r (fun k => { k with mode := .header, off := tgt, seek := some ⟨tgt, leave, k.off, x⟩ }) b
      else if g.next = 0xFFFFFFFF then recFault p r 0x13 x b
      else updWalk r (fun k => { k with mode := .header, off := g.next.toNat, seek := some ⟨tgt, leave, k.off, x⟩ }) b

/-- The comparison of COND (Table 4.6). -/
def condHolds (op : Nat) (x y : Word32) : Bool :=
  match op with
  | 0 => decide (x = y)
  | 1 => decide (x ≠ y)
  | 2 => decide (x.toNat < y.toNat)
  | 3 => decide (y.toNat ≤ x.toNat)
  | 4 => decide (x.toInt < y.toInt)
  | 5 => decide (y.toInt ≤ x.toInt)
  | 6 => decide (x &&& y ≠ 0)
  | _ => decide (x &&& y = 0)

/-- COND (R132, R133): a target at or beyond the EXIT of an open level closes that level. -/
def actCond (ring : Nat) (rec1 : BitVec 256) (s : State) : Outcome :=
  s.runRec ring 0x30 rec1 (fun p x b =>
    useOpd p ring x (evalLow p b ring (opdAt x 8)) (fun u b =>
      useOpd p ring x (evalLow p b ring (opdAt x 16)) (fun v b =>
        if condHolds (bf x 1 0 4) (BitVec.ofNat 32 u) (BitVec.ofNat 32 v) then pass p ring b
        else
          let t := bf x 4 0 32
          let b := if t ≤ (rng b ring).walk.off then b
            else updWalk ring (fun k => { k with loops := k.loops.filter (fun l => decide (t < l.exit)) }) b
          jump p ring t false x b) b) b)

/-- LOOP (R133). -/
def actLoop (ring : Nat) (rec1 : BitVec 256) (s : State) : Outcome :=
  s.runRec ring 0x31 rec1 (fun p x b =>
    let fe := bitAt x 8
    let go := fun (n : Nat) (b : Block) =>
      let k := (rng b ring).walk
      if 2 ≤ k.loops.length then recFault p ring 0x13 x b
      else if n = 0 ∧ ¬ fe then jump p ring (bf x 4 0 32) true x b
      else match k.seg with
        | none => b
        | some g => pass p ring (updWalk ring (fun k => { k with
            loops := k.loops ++ [⟨k.off + 32, bf x 4 0 32, 0, BitVec.ofNat 32 n, fe, g⟩] }) b)
    if fe then go 0 b else useOpd p ring x (evalLow p b ring (opdAt x 8)) go b)

/-- ENDLOOP (R133): back to the record after the LOOP, or past the level. -/
def actEndloop (ring : Nat) (rec1 : BitVec 256) (s : State) : Outcome :=
  s.runRec ring 0x32 rec1 (fun p x b =>
    let k := (rng b ring).walk
    match k.loops.getLast? with
    | none => recFault p ring 0x13 x b
    | some l =>
      if l.exit ≠ k.off + 32 then recFault p ring 0x13 x b
      else
        let it := l.iter + 1
        if l.forever ∨ it < l.count then
          walkOn p ring (updWalk ring (fun k => { k with
            loops := k.loops.dropLast ++ [{ l with iter := it }], seg := some l.seg, off := l.body, memv := [] }) (spent ring b))
        else pass p ring (updWalk ring (fun k => { k with loops := k.loops.dropLast }) b))

/-! ## Steps, yields, fences (R134 to R136, R234) -/

/-- A point at the record at hand joins the history of the last 8; a PENDING ring without a point takes it
(R236, R237). -/
def reachPoint (p : Params) (r : Nat) (isStep : Bool) (stepNo : Nat) (b : Block) : Block :=
  let g := rng b r
  let pt : Point := {
    off := g.walk.off, subid := g.walk.subid, iters := g.walk.loops, seg := g.walk.seg, step := g.step, before := g.interval,
    interval := g.interval + 1, isStep := isStep, hasYield := g.ivYield, stepNo := some stepNo }
  let l := g.points ++ [pt]
  let b := updRing r (fun g => { g with points := l.drop (l.length - 8), interval := g.interval + 1, ivYield := false }) (spent r b)
  if g.pre = .pending ∧ g.prePoint = none then takePoint p r pt b else passRec p r b

/-- STEP_END (R134): the step is closed, steps complete in order, the home Ward reaches a commit point. -/
def actStepEnd (ring : Nat) (rec1 : BitVec 256) (s : State) : Outcome :=
  s.runRec ring 0x33 rec1 (fun p _ b =>
    let b := ensureStep ring b
    let n := (rng b ring).stepNo
    let b := updRing ring (fun g => { g with
      steps := g.steps.map (fun s => if s.no = n then { s with closed := true } else s), stepNo := g.stepTop + 1 }) b
    let b := markCommit (rHome (rng b ring)) (stepAdvance p ring (rng b ring).steps.length b)
    reachPoint p ring true n b)

/-- YIELD (R135). -/
def actYield (ring : Nat) (rec1 : BitVec 256) (s : State) : Outcome :=
  s.runRec ring 0x34 rec1 (fun p _ b => reachPoint p ring false (rng b ring).stepNo b)

/-- Every entry in a FENCE's scope has settled, and with SCOPE 1 every earlier submission has completed (R136). -/
def fenceOver (b : Block) (r : Nat) (scope : Bool) : Bool :=
  let g := rng b r
  (match walkSub b r with | some s => decide (s.unsettled = 0) | none => true)
    && (!scope || (g.subs.takeWhile (fun s => s.subid ≠ g.walk.subid)).all (fun s => s.complete))

/-- An entry in the scope has settled FAILED. -/
def fenceFailed (b : Block) (r : Nat) (scope : Bool) : Bool :=
  let g := rng b r
  (match walkSub b r with | some s => decide (s.nfail ≠ 0) | none => false)
    || (scope && (g.fenceFail || (g.subs.takeWhile (fun s => s.subid ≠ g.walk.subid)).any (fun s => decide (s.nfail ≠ 0))))

/-- The FENCE record of a scope and FAILSTOP. -/
def fenceRec (scope failstop : Bool) : BitVec 512 := BitVec.ofNat 512 (0x60 + b2n scope * 2 ^ 8 + b2n failstop * 2 ^ 9)

/-- A FENCE whose scope has settled: DEP_FAILED under FAILSTOP, or on to the next record. -/
def fencePass (p : Params) (r : Nat) (scope failstop : Bool) (b : Block) : Block :=
  if failstop && fenceFailed b r scope then recFault p r 0x02 (fenceRec scope failstop) b else pass p r b

/-- FENCE (R136). -/
def actFence (ring : Nat) (rec1 : BitVec 256) (s : State) : Outcome :=
  s.runRec ring 0x60 rec1 (fun p x b =>
    if fenceOver b ring (bitAt x 8) then fencePass p ring (bitAt x 8) (bitAt x 9) b
    else updWalk ring (fun k => { k with mode := .waitFence (bitAt x 8) (bitAt x 9), since := b.clk.ts }) (spent ring b))

/-- FENCE_RELEASE (R136). -/
def actFenceRelease (ring : Nat) (s : State) : Outcome :=
  s.runK (fun p b =>
    match (rng b ring).walk.mode with
    | .waitFence scope failstop =>
      if walking b ring && fenceOver b ring scope then fencePass p ring scope failstop (progress ring b) else b
    | _ => b)

/-! ## INDIRECT, SET_SLOT, NOTE, MARK, NOP (R137, R138, R309) -/

/-- The record at hand is the last of its segment. -/
def lastRec (k : Walk) : Bool := match k.seg with | some g => decide (g.off + 64 + g.len ≤ k.off + 32) | none => true

/-- INDIRECT (R137): at most 4 form a run, and a record of the segment follows them. -/
def actIndirect (ring : Nat) (rec1 : BitVec 256) (s : State) : Outcome :=
  s.runK (fun p b =>
    let k := (rng b ring).walk
    let x := wide rec1
    if !mayTake b ring ∨ opc x ≠ 0x40 then b
    else if 4 ≤ k.patches.length ∨ !fieldsOk p b true 0 x ∨ lastRec k then
      recFault p ring 0x13 x b
    else useOpd p ring x (indirectPatch p b ring x) (fun v b =>
      passRec p ring (updWalk ring (fun k => { k with
        patches := k.patches ++ [⟨bf x 1 0 6, indBytes x, v % 2 ^ (8 * indBytes x)⟩] }) b)) (progress ring b))

/-- SET_SLOT (R73, R138): a slot of another tenant is TENANT_DENIED. -/
def actSetSlot (ring : Nat) (rec1 : BitVec 256) (s : State) : Outcome :=
  s.runRec ring 0x41 rec1 (fun p x b =>
    let go := fun (v : Nat) (b : Block) =>
      if slotMine b (rTenant (rng b ring)) (bf x 4 0 18) then
        pass p ring (dirty ring (applySet (x.setWidth 256) (BitVec.ofNat 32 v) b))
      else recFault p ring 0x0F x b
    if bitAt x 8 then go 0 b else useOpd p ring x (evalLow p b ring (opdAt x 8)) go b)

/-- NOTE (R123, R138). -/
def actNote (ring : Nat) (rec1 : BitVec 256) (s : State) : Outcome :=
  s.runRec ring 0x61 rec1 (fun p x b =>
    let n := bf x 1 0 5
    pass p ring (dirty ring (postW p (rHome (rng b ring)) (bf x 8 0 48) n (bf x 0x10 0 (8 * n)) (rTenant (rng b ring)) (rBe (rng b ring)) b)))

/-- MARK (R309). -/
def actMark (ring : Nat) (rec1 : BitVec 256) (s : State) : Outcome :=
  s.runRec ring 0x51 rec1 (fun p x b => pass p ring (applyMark p ring (x.setWidth 256) b))

/-- NOP (R125). -/
def actNop (ring : Nat) (rec1 : BitVec 256) (s : State) : Outcome :=
  s.runRec ring 0x7F rec1 (fun p _ b => pass p ring b)

/-! ## Hasps (R207, R208, R211, R264) -/

/-- A hasp operation of the walk: here `f`, in another instance a HOP item; a refusal is a command fault. -/
def walkHasp (p : Params) (r : Nat) (x : BitVec 512) (op : Nat) (value : Word32) (wait : Bool) (f : Nat → Block → Block) (b : Block) : Block :=
  let t := rTenant (rng b r)
  let k := haspOf p b x
  let st := haspRefusal p b t k
  if st ≠ 0 then recFault p r st x b
  else match k.1 with
    | none => f k.2 b
    | some i => sendItem none (mkItem p b 0x03 i t (hopArgs k.2 op value (tagRing r (rng b r).walk.subid wait)) []) b

/-- HASP_SIGNAL, immediate form (R207, R209). -/
def actHaspSignal (ring : Nat) (rec1 : BitVec 256) (s : State) : Outcome :=
  s.runRec ring 0x21 rec1 (fun p x b =>
    useOpd p ring x (evalLow p b ring (opdAt x 8)) (fun v b =>
      let g := rng b ring
      let inc := BitVec.ofNat 32 v
      match haspOf p b x with
      | (none, h) =>
        let z := haspSignal p h inc (rTenant g) (g.layer, g.opid) (ringLog b .keeper 0x12 ring g.walk.subid) b
        if z.1 ≠ 0 then recFault p ring z.1 x z.2 else pass p ring (dirty ring z.2)
      | (some i, _) =>
        if reachable p b i then pass p ring (dirty ring (walkHasp p ring x 0 inc false (fun _ c => c) b)) else recFault p ring 0x10 x b) b)

/-- HASP_RESET (R207). -/
def actHaspReset (ring : Nat) (rec1 : BitVec 256) (s : State) : Outcome :=
  s.runRec ring 0x22 rec1 (fun p x b =>
    let t := rTenant (rng b ring)
    let st := haspRefusal p b t (haspOf p b x)
    if st ≠ 0 then recFault p ring st x b
    else pass p ring (dirty ring (walkHasp p ring x 1 0 false (fun h c => (haspReset h t c).2) b)))

/-- HASP_WAIT, ring form (R211): the walk is held until the release. -/
def actHaspWait (ring : Nat) (rec1 : BitVec 256) (s : State) : Outcome :=
  s.runRec ring 0x20 rec1 (fun p x b =>
    useOpd p ring x (evalLow p b ring (opdAt x 8)) (fun v b =>
      let k := haspOf p b x
      let st := haspRefusal p b (rTenant (rng b ring)) k
      if st ≠ 0 then recFault p ring st x b
      else
        let tgt := BitVec.ofNat 32 v
        let b := walkHasp p ring x 2 tgt true (fun h c => registerWait (.ring ring) h tgt c) b
        updWalk ring (fun w => { w with mode := .waitHasp, hold := some ⟨k.2, k.1, tgt⟩, since := b.clk.ts }) (spent ring b)) b)

/-! ## Channels (R157, R158) -/

/-- OPEN_CH in a CONTROL segment (R157). -/
def actOpenCh (ring : Nat) (rec1 : BitVec 256) (s : State) : Outcome :=
  s.runRec ring 0x10 rec1 (fun p x b =>
    let g := rng b ring
    let t := rTenant g
    let y := x.setWidth 256
    let own := ChOwner.sub ring g.walk.subid
    let st := if slotMine b t (bf x 8 0 18) then openCheck p b t (openChan p b ring own [] y) else 0x0F
    if st ≠ 0 then recFault p ring st x b
    else pass p ring (dirty ring (applyOpen p ring own [] y b)))

/-- CLOSE_CH (R158): a channel that is not open, or closes already, is left alone. -/
def actCloseCh (ring : Nat) (rec1 : BitVec 256) (s : State) : Outcome :=
  s.runRec ring 0x11 rec1 (fun p x b =>
    useOpd p ring x (evalLow p b ring (opdAt x 8)) (fun id b =>
      match chn b id with
      | none => pass p ring (dirty ring b)
      | some c =>
        if c.tenant ≠ rTenant (rng b ring) then recFault p ring 0x0F x b
        else pass p ring (dirty ring (if c.closing then b else beginClose none ⟨none, id⟩ b))) b)

end Sys2Proof.Machine
end

