-- ==== Sys2Proof/Machine/Fed.lean ====
section
/-! DEFINITION. Hinges and federation: link states, forwarding, remote reservations, stranded items, the loss of a
Hinge (R249 to R265, R272 to R276) and the timestamp (R266 to R271). -/

namespace Sys2Proof.Machine

/-! ## Link states (R260, R272, R276) -/

/-- HG_CFG.PEER. -/
def peerInst (p : Params) (b : Block) (h : Nat) : Nat := rdf p b (hA h 0x040) 0 6

/-- HG_CFG.HOLD_MAX within 64 to 2,048. -/
def holdMax (p : Params) (b : Block) (h : Nat) : Nat := clampNat 64 2048 (rdf p b (hA h 0x040) 16 12)

/-- Instances whose route uses Hinge `h`, as a mask (R250). -/
def viaHinge (b : Block) (h : Nat) : BitVec 64 :=
  BitVec.ofNat 64 (((List.range 64).filter (fun i => (rte b i).v && decide ((rte b i).hinge = h))).map (fun i => 2 ^ i)).sum

/-- An item of this Keeper to the peer of a Hinge. -/
def toPeer (p : Params) (h kind args : Nat) (b : Block) : Block :=
  hingePut h (mkItem p b kind (peerInst p b h) 0 args []) none b

/-- An UNRCH item on every ACTIVE Hinge but `h` (R273, R276). -/
def sendUnrch (p : Params) (h : Nat) (mask : BitVec 64) (reach : Bool) (b : Block) : Block :=
  forEach ((List.range p.nh).filter (fun k => k ≠ h ∧ (hng b k).state = .active))
    (fun k => toPeer p k 0x0C (mask.toNat + b2n reach * 2 ^ 64)) b

/-- A HELLO is sent (R260). -/
def sendHello (p : Params) (h : Nat) (b : Block) : Block :=
  flitOut h (some (ownInst p b)) none [] (updHinge h (fun g => { g with helloTx := true }) b)

/-- A HELLO is due: the link is up, the Hinge trains with no DOWN event outstanding, the lock is set, and the instance has joined a federation
(R249, R260, R389). -/
def helloDue (p : Params) (b : Block) (h : Nat) : Bool :=
  decide ((hng b h).state = .train) && (hng b h).linkUp && !(hng b h).downPend && b.boot.lock && fedOn p b && !(hng b h).helloTx

/-- The Hinge enters ACTIVE once HELLOs are exchanged: initial credits, numbering from 0; a rearmed one makes its
instances reachable again (R259, R260, R276). -/
def tryActive (p : Params) (h : Nat) (b : Block) : Block :=
  let g := hng b h
  if g.state = .train ∧ g.helloTx ∧ g.helloRx ∧ ¬ g.downPend then
    let b := updHinge h (fun g => { g with
      state := .active, credO := 1024, credA := 256, retO := 0, retA := 0, rxO := 1024, rxA := 256, txSeq := 0, rxSeq := 0, lastConf := 0, stall := false
      rearmed := false, lastTs := b.clk.fclk }) b
    let b := when g.rearmed (fun b =>
      let m := viaHinge b h
      sendUnrch p h m true { b with unreach := b.unreach &&& ~~~m }) b
    hingeFlush h (hng b h).txq.length b
  else b

/-- The link of a training Hinge is up. -/
def linkTrained (p : Params) (h : Nat) (b : Block) : Block :=
  let b := updHinge h (fun g => { g with linkUp := true }) b
  when (helloDue p b h) (fun b => tryActive p h (sendHello p h b)) b

/-- HELLO_RECEIVED (R260). -/
def actHelloReceived (h hinst : Nat) (s : State) : Outcome :=
  s.runH h (fun p b =>
    if (hng b h).state = .train ∧ (hng b h).linkUp ∧ b.boot.lock ∧ fedOn p b then
      if hinst = peerInst p b h then
        tryActive p h (when (helloDue p b h) (sendHello p h) (updHinge h (fun g => { g with helloRx := true }) b))
      else raiseH p h 1 (pgErr p (hA h 0) 9 b)
    else b)

/-- RETRAIN_NOTIFICATION (R272). The Hinge with UP = 1 has left ACTIVE (R271). -/
def actRetrainNotification (h : Nat) (s : State) : Outcome :=
  s.runH h (fun p b =>
    if (hng b h).state = .active then
      bump (hc32 h 4) 1 (updHinge h (fun g => { g with
        state := .hold, holdAt := b.clk.fclk, badRun := if bitAt (rd p b (hA h 0x04C)) 31 then 8 else g.badRun }) b)
    else b)

/-- LINK_ACTIVE_AGAIN (R272): nothing is lost. -/
def actLinkActiveAgain (h : Nat) (s : State) : Outcome :=
  s.runH h (fun p b =>
    let g := hng b h
    if g.state = .hold ∧ b.clk.fclk ≤ g.holdAt + holdMax p b h then
      let b := updHinge h (fun g => { g with state := .active, stall := false }) b
      hingeFlush h (hng b h).txq.length b
    else b)

/-- HOLD_MAX_EXPIRY (R272). -/
def actHoldMaxExpiry (h : Nat) (s : State) : Outcome :=
  s.runH h (fun p b => if (hng b h).state = .hold ∧ (hng b h).holdAt + holdMax p b h < b.clk.fclk then goDown p h b else b)

/-- LINK_ERROR (R272). -/
def actLinkError (h : Nat) (s : State) : Outcome := s.runH h (fun p b => goDown p h b)

/-- STALL_REQUEST (R370): the Hinge stops at a flit boundary until its link is active again. -/
def actStallRequest (h : Nat) (s : State) : Outcome :=
  s.runH h (fun _ b => if (hng b h).state = .active then emit (.stallAck h) (updHinge h (fun g => { g with stall := true }) b) else b)

/-- A write of HG_CTRL: DOWN stands before REARM, which acts on a Hinge that is DOWN (R272, R276); its DOWN event, when still
outstanding, comes all the same. -/
def hgCtrl (p : Params) (h : Nat) (v : Word32) (b : Block) : Block :=
  if bitAt v 0 then goDown p h b
  else if bitAt v 1 ∧ (hng b h).state = .down then
    emit (.linkReq h true) (updHinge h (fun g => { g with state := .train, rearmed := true, linkUp := false }) b)
  else b

/-- HINGE_DOWN_WRITE (R272). -/
def actHingeDownWrite (h : Nat) (s : State) : Outcome :=
  if h < s.params.nh then s.keeperReg (hA h 0x048) 1 false (fun p b => hgCtrl p h 1 b) else .next s

/-- HINGE_REARM (R276). -/
def actHingeRearm (h : Nat) (s : State) : Outcome :=
  if h < s.params.nh then s.keeperReg (hA h 0x048) 2 false (fun p b => hgCtrl p h 2 b) else .next s

/-! ## Credits and confirmations (R259, R302) -/

/-- HINGE_CREDIT_RETURN (R259): a lane never holds more credits than its receiver has slots. -/
def actHingeCreditReturn (h credO credA : Nat) (s : State) : Outcome :=
  s.runH h (fun _ b =>
    if (hng b h).state = .active then
      let b := updHinge h (fun g => { g with credO := min 1024 (g.credO + credO), credA := min 256 (g.credA + credA) }) b
      hingeFlush h (hng b h).txq.length b
    else b)

/-- A confirmed or stranded DEC counts as sampled, a SETL meets condition 5 (R60, R255, Table 9.7). -/
def ownerDone (it : Item) (o : Nat) (b : Block) : Block :=
  updEnt o (fun e => if it.kind = 0x01 then { e with owed := e.owed - 1 } else if it.kind = 0x02 then { e with noticed := true } else e) b

/-- CONF_RECEIVED (R255, R259): the headers below ISEQ are freed. -/
def actConfReceived (h iseq : Nat) (s : State) : Outcome :=
  s.runH h (fun p => rxItem p h 1 false (fun b =>
    let l := (hng b h).heldItems.filter (fun x => x.1 < iseq)
    let b := updHinge h (fun g => { g with heldItems := g.heldItems.filter (fun x => iseq ≤ x.1) }) b
    let b := forEach l (fun x => match x.2.2 with | some o => ownerDone x.2.1 o | none => id) b
    hingeFlush h (hng b h).txq.length b))

/-- CONF_SEND (R259): after 64 ordered items, or 128 fclk after the first unconfirmed one. -/
def actConfSend (h : Nat) (s : State) : Outcome :=
  s.runH h (fun p b =>
    let g := hng b h
    if g.state = .active ∧ g.rxSeq ≠ g.lastConf ∧ (g.lastConf + 64 ≤ g.rxSeq ∨ g.rxSince + 128 ≤ b.clk.fclk) then
      toPeer p h 0x22 (g.rxSeq % 2 ^ 32) (updHinge h (fun g => { g with lastConf := g.rxSeq }) b)
    else b)

/-! ## Stranded items (R274, Table 9.7) -/

/-- The ARGS of the answer with which a stranded request ends, as its origin's tag names it. -/
def strandAns (it : Item) : Option Nat :=
  let ans := fun (tag : Word32) (st : Status) => some (ansArgs tag st 0)
  match it.kind.toNat with
  | 0x03 => if fld it.args 12 2 = 3 then none else ans (BitVec.ofNat 32 (fld it.args 46 32)) 0x10
  | 0x05 => ans (tagMsg (fld it.args 0 14) (BitVec.ofNat 16 (fld it.args 16 16))) 0x09
  | 0x06 => some (partAns (fld it.args 42 12) (BitVec.ofNat 16 (fld it.args 0 16)) (fld it.args 16 12) 0x09 0)
  | 0x07 => if fld it.args 0 2 = 0 then ans (tagOpen (fld it.args 2 14)) 0x10 else none
  | 0x08 | 0x09 | 0x0A => ans (tagRing (fld it.args 52 13) (BitVec.ofNat 32 (fld it.args 65 15)) false) 0x10
  | 0x0B => ans (tagRing (fld it.args 8 13) (BitVec.ofNat 32 (fld it.args 28 15)) false) 0x10
  | _ => none

/-- A command fault of a submission is on its way. -/
def faultSent (b : Block) (r : Nat) (subid : Word32) : Bool :=
  b.xbar.any (fun x => match x with | .cmdFault q i _ => decide (q = r) && decide (i = subid) | _ => false)

/-- One command fault of a submission that has not ended, with HINGE_DOWN; a walk that awaits other instances stops
(R140, R253). -/
def hingeFault (p : Params) (r : Nat) (subid : Word32) (b : Block) : Block :=
  let open_ := match subOf b r subid with | some s => !s.complete && s.early.isNone | none => false
  let k := (rng b r).walk
  if !open_ || faultSent b r subid then b
  else if k.mode = .remote ∧ k.subid = subid then walkFault p r 0x10 k.off 0 b
  else faultTo none r subid 0x10 b

/-- An item of this instance that is stranded. A message breaks its channel's remote endpoint until it closes. -/
def strandOwn (p : Params) (it : Item) (o : Option Nat) (b : Block) : Block :=
  let b := match o with | some h => ownerDone it h b | none => b
  match strandAns it with
  | none => b
  | some a =>
    if it.kind = 0x05 then
      let key : ChKey := ⟨none, fld it.args 0 14⟩
      xsend none 16 (.nack key (BitVec.ofNat 16 (fld it.args 16 16)) 0x09 none) (updChan key (fun c => { c with txBroken := true }) b)
    else if it.kind.toNat = 0x03 ∧ a / 2 ^ 30 % 4 = 2 ∨ 0x08 ≤ it.kind.toNat then
      match tagSub b (a % 2 ^ 32) with
      | some x => hingeFault p x.1 x.2 b
      | none => b
    else applyAnswer p { it with sinst := it.dinst, args := BitVec.ofNat 80 a } b

/-- An item stranded at this Keeper, for Hinge `h`: one of another instance is answered to its origin. -/
def strandOne (p : Params) (h : Nat) (x : Item × Option Nat) (b : Block) : Block :=
  let b := bump (hc32 h 3) 1 b
  let it := x.1
  if it.sinst = ownInst p b then strandOwn p it x.2 b
  else match strandAns it with
    | none => b
    | some a => when (reachable p b it.sinst) (sendItem none (mkItem p b 0x20 it.sinst it.tenant a [])) b

/-- ITEM_FORWARD (R251, R260, R274): the slots of an item as they arrive. An item for another instance goes on along this
Keeper's route; a misrouted one, or one whose Hinge is DOWN, is stranded; slots that spell no item are a protocol error. One
for this instance has a command of its own and nothing happens here. -/
def actItemForward (h : Nat) (slots : List (BitVec 128)) (s : State) : Outcome :=
  s.runH h (fun p b =>
    match spellItem slots with
    | none => goDown p h b
    | some it =>
      if it.dinst = ownInst p b then b
      else rxItem p h (itemSlots it) (orderedItem it) (fun b =>
        let r := rte b it.dinst
        if 6 ≤ it.hops ∨ !r.v then strandOne p h (it, none) (bump (hc32 h 2) 1 b)
        else if (hng b r.hinge).state = .down then strandOne p r.hinge (it, none) b
        else hingePut r.hinge { it with hops := it.hops + 1 } none b) b)

/-! ## Reservations for other instances (R253 to R255) -/

/-- The reservation a request needs, as a segment of this instance. -/
def farSeg (p : Params) (b : Block) (req : ReserveReq) : Seg :=
  let home := fun (x : BitVec 512) => (homeAt p b (recClass x)).2
  { no := req.bank, bank := req.bank, recs := [], homes := req.recs.map (fun x => (none, home x.2))
    demand := perWard p (fun w => req.recs.countP (fun x => home x.2 = w))
    lines := perWard p (fun w => if spillBase p b w ≠ 0 then 0 else
      ((req.recs.map (fun x => if home x.2 = w then linesFor (inlineSucc x.2).length else 0)).sum))
    queues := [], blocks := [], chrec := []
    fedrec := perWard p (fun w => req.imps.countP (fun y => req.recs.any (fun x => decide (x.1 = y.1) && decide (home x.2 = w))))
    imps := req.imps }

/-- R58, R69, R78, R252, R254 for one record here, where its class must be local. -/
def farCheck (p : Params) (b : Block) (t : Nat) (x : BitVec 512) : Status :=
  let k := homeAt p b (recClass x)
  let st := classStatus p b t (recClass x)
  if k.1.isSome then 0x13
  else if st ≠ 0 then st
  else if opc x = 0x01 ∧ ((List.range 4).map (guardAt x)).any (fun g => decide (fld g 14 2 ≠ 0) && decide ((slt b k.2 (fld g 0 12)).tenant ≠ t))
    then 0x0F
  else 0

/-- The first refusal among the records, 0 when there is none. -/
def farStatus (p : Params) (b : Block) (req : ReserveReq) : Status :=
  if !(ten b req.tenant).en then 0x0F
  else ((req.recs.map (fun x => farCheck p b req.tenant x.2)).find? (fun st => st ≠ 0)).getD 0

/-- One entry for another instance. Its guard mode is the tenant's GUARD_MODE as last written, since REC items carry none and
the working copies belong to rings of this instance (R17; DESIGN CHOICE, log entry 46). -/
def farEntry (p : Params) (req : ReserveReq) (x : Nat × BitVec 512) (b : Block) : Block :=
  let w := (homeAt p b (recClass x.2)).2
  let z := takeEntry w b
  let d := recDesc { be := req.cls, ring := req.ring, tenant := req.tenant, seg := req.bank, mode := (ten b req.tenant).gmode,
                     rinst := some req.inst } x.2
  let b := putEntry z.1 (tumblerOf x.2) d z.2
  let b := { b with remSegs := b.remSegs.map (fun g =>
    if g.inst = req.inst ∧ g.bank = req.bank then { g with handles := g.handles ++ [(x.1, z.1)] } else g) }
  updFed w (fun t => { t with imports := t.imports ++ (req.imps.filter (fun y => y.1 = x.1)).map (fun y => (z.1, y.2.1, y.2.2)) }) b

/-- The answer to RESERVE_END; a RETRY is the status STATUS of RETRY in the ANS item (log entry 13). -/
def farReply (p : Params) (req : ReserveReq) (st : Status) (b : Block) : Block :=
  when (reachable p b req.inst) (sendItem none (mkItem p b 0x20 req.inst req.tenant (ansArgs (tagSeg req.bank req.ring) st 0) [])) b

/-- The status that stands for RETRY in the answer to RESERVE_END (log entry 13). -/
def retryCode : Status := 0xFF

/-- The reservation granted: entries, import records, OK and one HND per record. -/
def farGrant (p : Params) (req : ReserveReq) (b : Block) : Block :=
  let b := { b with remSegs := b.remSegs.filter (fun g => !(decide (g.inst = req.inst) && decide (g.bank = req.bank)))
              ++ [⟨req.inst, req.bank, req.ring, req.tenant, [], false⟩] }
  let b := farReply p req 0 (forEach req.recs (farEntry p req) b)
  let hs := ((b.remSegs.find? (fun g => g.inst = req.inst ∧ g.bank = req.bank)).map (fun g => g.handles)).getD []
  when (reachable p b req.inst) (forEach hs (fun x c => sendItem none
    (mkItem p c 0x21 req.inst req.tenant (linkArgs x.1 (wordOf p c x.2) req.ring req.bank 0) []) c)) b

/-- The slots of the items of a reservation: one for each record, each import, and the seal (R253, R258). -/
def reserveSizes (req : ReserveReq) : List Nat :=
  req.recs.map (fun x => 1 + 2 * recUnits (opc x.2)) ++ List.replicate (req.imps.length + 1) 1

/-- REMOTE_RESERVE (R253, R254): at once or not at all. -/
def actRemoteReserve (h : Nat) (req : ReserveReq) (s : State) : Outcome :=
  s.runH h (fun p b =>
    rxItems p h (reserveSizes req) true (fun b =>
      let g := farSeg p b req
      let st := farStatus p b req
      if st ≠ 0 then farReply p req st b
      else if neverFits b req.tenant g then farReply p req 0x0E b
      else if quotaOk b req.tenant g && fitsNow b g then farGrant p req b
      else farReply p req retryCode b) b)

/-- LINK_ITEM (R61, R253). -/
def actLinkItem (via : Via) (bank idx : Nat) (word : BitVec 32) (s : State) : Outcome :=
  s.runK (fun p => rxItem p via.hinge 1 true (fun b =>
    match (b.remSegs.find? (fun g => g.inst = via.inst ∧ g.bank = bank)).bind (fun g => g.handles.find? (fun x => x.1 = idx)) with
    | some x => putLinks p x.2 ((ent b x.2).succ ++ [word]) b
    | none => b))

/-- A reserved entry given back before its seal. -/
def giveBack (h : Nat) (b : Block) : Block :=
  let w := homeOf h
  if (ent b h).st = .pending ∧ ¬ (ent b h).isSealed then
    let b := updFed w (fun t => { t with imports := t.imports.filter (fun x => x.1 ≠ h) }) b
    let b := updEnt h (fun e => { gen := e.gen, freedAt := some b.clk.fclk }) b
    { b with wq := Tbl.upd {} b.wq w (fun q => { q with freed := q.freed ++ [h % 2048] }) }
  else b

/-- XCTL_ABANDON (R253). -/
def actXctlAbandon (via : Via) (bank : Nat) (s : State) : Outcome :=
  s.runK (fun p => rxItem p via.hinge 1 true (fun b =>
    match b.remSegs.find? (fun g => g.inst = via.inst ∧ g.bank = bank) with
    | some g => forEach (g.handles.map Prod.snd) giveBack { b with remSegs := b.remSegs.erase g }
    | none => b))

/-- SETL_ITEM (R36, R255). -/
def actSetlItem (via : Via) (ring : Nat) (word : BitVec 32) (status : BitVec 8) (s : State) : Outcome :=
  s.runK (fun p => rxItem p via.hinge 1 true (fun b =>
    let w := rHome (rng b ring)
    match (fedOf b w).roster.find? (fun o => o.word = word ∧ o.ring = ring) with
    | some o =>
      let b := updFed w (fun t => { t with roster := t.roster.erase o }) (xrx w 16 b)
      let st : TState := if status = 0 then .done else if status = 0x04 then .cancelled else .failed
      ringSettle p ring o.subid o.step st status o.discard b
    | none => b))

/-! ## Channels across a Hinge (R265) -/

/-- The endpoint that a CHC OPEN names (Table 5.3). -/
def farEnd (p : Params) (b : Block) (e : Word32) : Option EndP :=
  let v := fld e 0 16
  if v / 4096 = 8 ∧ v / 64 % 64 < p.nw ∧ !fenced b (v / 64 % 64) then some (.queue (v / 64 % 64) (v % 64))
  else if v < nPorts p then some (.port v) else none

/-- A channel of another instance whose receiving endpoint is here. -/
def farChan (p : Params) (inst tenant : Nat) (e : EndP) : Chan :=
  { tenant := tenant, dir := p.nw, tx := .remote inst 0, rx := e, owner := .remote inst }

/-- CHC OPEN at the holder of the endpoint: tenant and record are checked (R156, R263). -/
def chcOpen (p : Params) (inst tenant ch : Nat) (endp : Word32) (b : Block) : Block :=
  let ans := fun (st : Status) (b : Block) =>
    when (reachable p b inst) (sendItem none (mkItem p b 0x20 inst tenant (ansArgs (tagOpen ch) st (BitVec.ofNat 32 ch)) [])) b
  if !(ten b tenant).en then ans 0x0F b
  else match farEnd p b endp with
  | none => ans 0x13 b
  | some e =>
    let c := farChan p inst tenant e
    if !endOwned p b tenant e then ans 0x0F b
    else if !recsFree p b c then ans 0x0E b
    else ans 0 { b with rchans := b.rchans.filter (fun x => !(decide (x.1 = inst) && decide (x.2.1 = ch))) ++ [(inst, ch, c)] }

/-- CHC_ITEM (R190, R265): an OPEN or a CLOSE at the holder of an endpoint, the holder's wish to close at the opener,
a TEAR at its queue's Ward in the order of the items of its source (R261; ARGS as log entry 13 lays them out). -/
def actChcItem (via : Via) (op : ChcOp) (ch : Nat) (endp : BitVec 32) (port : Nat) (s : State) : Outcome :=
  s.runK (fun p => rxItem p via.hinge 1 true (fun b =>
    let inst := via.inst
    let tenant := via.tenant
    match op with
    | .openCh => chcOpen p inst tenant ch endp b
    | .close =>
      if !(ten b tenant).en then b
      else if endp = 1 then
        match chn b ch with
        | some c => match c.rx with
          | .remote i _ => when (decide (i = inst) && !c.closing) (beginClose none ⟨none, ch⟩) b
          | _ => b
        | none => b
      else
        let key : ChKey := ⟨some inst, ch⟩
        closedBeat key (updChan key (fun c => { c with rxClosed := true, txClosed := true, freeAt := some (b.clk.fclk + 65536) }) b)
    | .tear =>
      let w := fld (BitVec.ofNat 16 ch) 6 6
      if !(ten b tenant).en ∨ !wardUp p b w then b else tearAt p (BitVec.ofNat 16 ch) (some inst) port endp (xrx w 16 b)))

/-! ## The loss of a Hinge (R273 to R275) -/

/-- The unreachable notices to every Ward. -/
def noticeWards (p : Params) (mask : BitVec 64) (b : Block) : Block :=
  forEach ((List.range p.nw).filter (fun w => !fenced b w)) (fun w => xput (.unreach w mask)) b

/-- A walk that awaits the answer of an unreachable instance is settled here (R253, Table 9.7). -/
def dropAwaiting (p : Params) (mask : BitVec 64) (b : Block) : Block :=
  forEach (reservedSegs b) (fun x => when (x.2.awaiting.any (fun i => mask.getLsbD i))
    (fun c => hingeFault p x.1 (rng c x.1).walk.subid c)) b

/-- The number of a Hinge state (Table 15.12). -/
def hgCode : HgState → Nat
  | .train => 0
  | .active => 1
  | .hold => 2
  | .down => 3

/-- HINGE_DOWN_EVENT (R273, R274). -/
def actHingeDownEvent (h : Nat) (s : State) : Outcome :=
  s.runH h (fun p b =>
    let g := hng b h
    if g.downPend then
      let b := updHinge h (fun g => { g with downPend := false, heldItems := [], txq := [], credO := 0, credA := 0, retO := 0, retA := 0 }) b
      let b := raiseH p h 2 b
      let b := logRec p { status := 0x10, handle := BitVec.ofNat 32 h, objk := 6, aux := BitVec.ofNat 32 (hgCode g.leftState) } b
      let m := viaHinge b h
      let b := sendUnrch p h m false { b with unreach := b.unreach ||| m }
      let b := forEach (g.heldItems.map Prod.snd ++ g.txq) (strandOne p h) b
      let b := noticeWards p m (dropAwaiting p m b)
      when (helloDue p b h) (fun b => tryActive p h (sendHello p h b)) b
    else b)

/-- UNRCH_ITEM (R273, R276): only what changes is marked and forwarded. -/
def actUnrchItem (h : Nat) (mask : BitVec 64) (reach : Bool) (s : State) : Outcome :=
  s.runH h (fun p b =>
    rxItem p h 1 true (fun b =>
    let hit := mask &&& viaHinge b h
    let new := if reach then hit &&& b.unreach else hit &&& ~~~b.unreach
    if new = 0 then b
    else if reach then sendUnrch p h new true { b with unreach := b.unreach &&& ~~~new }
    else noticeWards p new (dropAwaiting p new (sendUnrch p h new false { b with unreach := b.unreach ||| new }))) b)

/-- Step 1 of R275: failure notices for what an entry still expects from U. -/
def failImports (p : Params) (w : Nat) (u : BitVec 64) (b : Block) : Block :=
  let l := (fedOf b w).imports.filter (fun x => u.getLsbD x.2.1 ∧ x.2.2 ≠ 0)
  let b := updFed w (fun t => { t with imports := t.imports.map (fun x => if u.getLsbD x.2.1 then (x.1, x.2.1, 0) else x) }) b
  forEach l (fun x c => forEach (List.range x.2.2) (fun _ c => tumblerItem p 1 (wordOf p c x.1) (wordOf p c x.1) 0x10 c) c) b

/-- Step 2: roster records of entries in U are reported FAILED. -/
def failRoster (p : Params) (w : Nat) (u : BitVec 64) (b : Block) : Block :=
  let l := (fedOf b w).roster.filter (fun o => u.getLsbD (fld o.word 17 6))
  let b := updFed w (fun t => { t with roster := t.roster.filter (fun o => !u.getLsbD (fld o.word 17 6)) }) b
  forEach l (fun o c =>
    let c := logRec p { ringLog c (.ward w) 0x10 o.ring o.subid with handleV := true, handle := o.word } c
    ringSettle p o.ring o.subid o.step .failed 0x10 o.discard c) b

/-- The rings of U with entries here, as (instance, ring). -/
def farRings (l : List (Nat × Entry)) : List (Nat × Nat) :=
  (l.filterMap (fun x => x.2.d.rinst.map (fun i => (i, x.2.d.ring)))).eraseDups

/-- Entries that rings in U instantiated here: none sends a SETL item or an item into U any more, and one that has settled needs
no confirmation (R255, R275). -/
def cutFar (w : Nat) (u : BitVec 64) (b : Block) : Block :=
  let l := b.ents.filter (fun x => decide (homeOf x.1 = w) && decide (x.2.st ≠ .free) &&
    (match x.2.d.rinst with | some i => u.getLsbD i | none => false))
  forEach (l.map Prod.fst) (fun h => updEnt h (fun e => { e with cut := e.cut ||| u, noticed := e.noticed || !live e.st })) b

/-- Step 3: entries that rings in U instantiated here are cancelled, with one record for each ring that had any. -/
def cancelFar (p : Params) (w : Nat) (u : BitVec 64) (b : Block) : Block :=
  let l := b.ents.filter (fun x => decide (homeOf x.1 = w) && live x.2.st && decide (x.2.st ≠ .running) &&
    (match x.2.d.rinst with | some i => u.getLsbD i | none => false))
  let b := forEach (l.map Prod.fst) (cancelEntry p) (cutFar w u b)
  forEach (farRings l) (fun k c =>
    let n := l.countP (fun x => decide (x.2.d.rinst = some k.1) && decide (x.2.d.ring = k.2))
    logRec p { status := 0x10, src := .ward w, ring := k.2, aux := BitVec.ofNat 32 n, handle := BitVec.ofNat 32 k.1,
               tenant := ((l.find? (fun x => x.2.d.rinst = some k.1 ∧ x.2.d.ring = k.2)).map (fun x => x.2.d.tenant)).getD 0 } c)
    { b with remSegs := b.remSegs.filter (fun g => !u.getLsbD g.inst) }

/-- Step 4: contributions open here from U are torn, remote waits of U are removed. -/
def tearFar (p : Params) (w : Nat) (u : BitVec 64) (b : Block) : Block :=
  let hit := fun (o : QContrib) => match o.inst with | some i => u.getLsbD i | none => false
  let b := forEach (b.cq.filter (fun x => x.1 / 64 = w)) (fun x c =>
    let q := cqu c w (x.1 % 64)
    match q.openC.find? hit with
    | some o => when (cqLive c q && !q.failed) (cqFail p w (x.1 % 64) 0x09 o.word) c
    | none => c) b
  { b with waits := b.waits.filter (fun x => match x.who with | .remote i _ => !u.getLsbD i | _ => true) }

/-- The answer of a message is on its way back. -/
def nackSent (b : Block) (key : ChKey) (seq : BitVec 16) : Bool :=
  b.xbar.any (fun x => match x with | .nack k q _ _ => decide (k = key) && decide (q = seq) | _ => false)

/-- Step 5 at one channel: a receiving endpoint closes, a sending one breaks, and what it awaits is answered. -/
def breakChan (p : Params) (w : Nat) (u : BitVec 64) (key : ChKey) (c : Chan) (b : Block) : Block :=
  match c.tx, c.rx with
  | .remote i _, _ =>
    if u.getLsbD i ∧ rxWard p c none = w ∧ ¬ c.rxClosed then
      closedBeat key (updChan key (fun c => { c with rxClosed := true, txClosed := true, freeAt := some (b.clk.fclk + 65536) }) b)
    else b
  | _, .remote i _ =>
    if u.getLsbD i ∧ c.dir = w then
      if c.txClosed ∧ ¬ c.closing then
        applyAnswer p (mkItem p b 0x20 i c.tenant (ansArgs (tagOpen key.ch) 0x10 0) []) b
      else
        forEach c.sent (fun x d => if nackSent d key x.1 then d else xput (.nack key x.1 0x09 none) d)
          (updChan key (fun c => { c with txBroken := true }) b)
    else b
  | _, _ => b

/-- Requests of the ports of a Ward that U has not answered: parts with NACK_BROKEN, HSIGs with HINGE_DOWN, task-form waits as
command faults of their submissions (Table 9.7, R278). -/
def settleAsked (p : Params) (w : Nat) (u : BitVec 64) (b : Block) : Block :=
  let far := fun (o : Option Nat) => match o with | some i => u.getLsbD i | none => false
  forEach (b.ports.filter (fun x => portWard p x.1 = w)) (fun x c =>
    let c := forEach (x.2.parts.filter (fun y => far y.inst)) (fun y d =>
      applyAnswer p { mkItem p d 0x20 0 0 (partAns x.1 y.qid y.off 0x09 0) [] with sinst := y.inst.getD 0 } d) c
    let c := forEach (x.2.hsigs.filter (fun y => u.getLsbD y.1)) (fun y d =>
      applyAnswer p { mkItem p d 0x20 0 0 (ansArgs (tagReq x.1 y.2) 0x10 0) [] with sinst := y.1 } d) c
    match x.2.wait with
    | some k => when (far k.inst && !k.released) (hingeFault p (ent c k.handle).d.ring (ent c k.handle).d.subid) c
    | none => c) b

/-- Ring-form waits on hasps of U, of rings homed at a Ward. -/
def settleWaits (p : Params) (w : Nat) (u : BitVec 64) (b : Block) : Block :=
  forEach b.rings (fun x c =>
    let far := match x.2.walk.hold with | some k => (match k.inst with | some i => u.getLsbD i | none => false) | none => false
    when (decide (rHome x.2 = w) && decide (x.2.walk.mode = .waitHasp) && far) (hingeFault p x.1 x.2.walk.subid) c) b

/-- A notice on its way to a Ward. -/
def isUnreach (w : Nat) (u : BitVec 64) : XItem → Bool
  | .unreach v m => decide (v = w) && decide (m = u)
  | _ => false

/-- UNREACHABLE_NOTICE (R275): its five steps in order. -/
def actUnreachableNotice (w : Nat) (mask : BitVec 64) (s : State) : Outcome :=
  s.runW w (fun p b =>
    match xfind b (isUnreach w mask) with
    | none => b
    | some _ =>
      let b := xrx w 16 (xdrop (isUnreach w mask) b)
      let b := tearFar p w mask (cancelFar p w mask (failRoster p w mask (failImports p w mask b)))
      let b := forEach (allChans b) (fun k => breakChan p w mask k.1 k.2) b
      settleWaits p w mask (settleAsked p w mask b))

/-! ## Timestamp (R266 to R271) -/

/-- HG_TS_CFG.PERIOD in fclk: 2^10 to 2^20 ticks. -/
def tsPeriod (p : Params) (b : Block) (h : Nat) : Nat := 2 * 2 ^ clampNat 10 20 (rdf p b (hA h 0x04C) 16 5)

/-- TS_FLIT_SEND (R266). -/
def actTsFlitSend (h : Nat) (s : State) : Outcome :=
  s.runH h (fun p b =>
    let g := hng b h
    if g.state = .active ∧ ¬ g.stall ∧ g.lastTs + tsPeriod p b h ≤ b.clk.fclk then
      flitOut h none (some b.clk.ts) [] (updHinge h (fun g => { g with lastTs := b.clk.fclk }) b)
    else b)

/-- A number of sixteenths rounded half to even. -/
def roundHalfEven16 (x : Int) : Int :=
  let q := x / 16
  let r := x % 16
  if r < 8 then q else if 8 < r then q + 1 else if q % 2 = 0 then q else q + 1

/-- The correction c of R267. -/
def tsCorr (p : Params) (b : Block) (h : Nat) (tsval : Word64) : Int :=
  let dly : Int := (p.ldlyFact.getD h 0 : Nat) + signedOf 16 (rdf p b (hA h 0x05C) 0 16)
  roundHalfEven16 (16 * (tsval - b.clk.ts).toInt + dly)

/-- The forward step or the hold of a lock (R267, R269). -/
def tsLock (c : Int) (k : Clk) : Clk :=
  if 0 ≤ c then { k with ts := k.ts + BitVec.ofInt 64 c } else { k with hold := k.fclk + 2 * c.natAbs }

/-- The window in progress learns of the step or hold (R269). -/
def govStepped (c : Int) (b : Block) : Block := when (decide (c ≠ 0)) (fun b => { b with gov := { b.gov with stepped := true } }) b

/-- TS_SAMPLE (R267): while LOST is set and LOCKED with it, the timestamp runs free (R271). -/
def actTsSample (h : Nat) (tsval : BitVec 64) (s : State) : Outcome :=
  s.runH h (fun p b =>
    let g := hng b h
    if bitAt (rd p b (hA h 0x04C)) 31 ∧ g.state = .active ∧ ¬ bitAt (rd p b (kA 6 0x040)) 14 then
      let c := tsCorr p b h tsval
      let b := updHinge h (fun g => { g with corr := c }) b
      if ¬ g.locked then updHinge h (fun g => { g with locked := true, badRun := 0 }) (govStepped c (updClk (tsLock c) b))
      else if (rdf p b (hA h 0x04C) 0 8 : Nat) < c.natAbs then
        updHinge h (fun g => { g with outlier := satAdd 0xFFFF g.outlier 1, badRun := min 8 (g.badRun + 1) }) b
      else if g.lost then updHinge h (fun g => { g with badRun := 0 }) b
      else updHinge h (fun g => { g with badRun := 0 }) (updClk (fun k => { k with pend := c }) b)
    else b)

/-- A hold is in force (R269). -/
def tsHeld (k : Clk) : Bool := decide (k.fclk < k.hold)

/-- The timestamp runs free while its Hinge with UP = 1 is LOST (R271). -/
def tsFree (p : Params) (b : Block) : Bool := (List.range p.nh).any (fun h => bitAt (rd p b (hA h 0x04C)) 31 && (hng b h).lost)

/-- TS_SLEW_STEP (R268): one tclk in 16 with a pending correction advances the timestamp by 2 or by 0; a double advance
past a multiple of 80 waits for the next tclk. The step is this tclk's advance. -/
def actTsSlewStep (s : State) : Outcome :=
  s.runK (fun p b =>
    let k := b.clk
    if ¬ tsFree p b ∧ k.fclk % 2 = 0 ∧ k.pend ≠ 0 ∧ k.hold = 0 ∧ (k.lastSlew = 0 ∨ k.lastSlew + 31 ≤ k.fclk) then
      if 0 < k.pend then
        if (k.ts.toNat + 1) % 80 = 0 then b
        else updClk (fun k => { k with ts := k.ts + 2, pend := k.pend - 1, lastSlew := k.fclk + 1 }) b
      else updClk (fun k => { k with pend := k.pend + 1, lastSlew := k.fclk + 1 }) b
    else b)

/-- TS_HOLD_END (R269). -/
def actTsHoldEnd (s : State) : Outcome :=
  s.runK (fun _ b => if b.clk.hold ≠ 0 ∧ b.clk.hold ≤ b.clk.fclk then updClk (fun k => { k with hold := 0 }) b else b)

/-- TS_LOST (R271). -/
def actTsLost (h : Nat) (s : State) : Outcome :=
  s.runH h (fun p b =>
    if 8 ≤ (hng b h).badRun ∧ ¬ (hng b h).lost then
      raiseH p h 3 (updHinge h (fun g => { g with lost := true, badRun := 0 }) b)
    else b)

/-- A write of HG_TS_STAT W0: LOCKED is RW, LOST is W1C. -/
def tsStatWrite (h : Nat) (v : Word32) (b : Block) : Block :=
  updHinge h (fun g => { g with locked := bitAt v 31, lost := g.lost && !bitAt v 30 }) b

/-- TS_UNLOCK (R271). -/
def actTsUnlock (h : Nat) (s : State) : Outcome :=
  if h < s.params.nh then s.keeperReg (hA h 0x050) 0 false (fun _ b => tsStatWrite h 0 b) else .next s

end Sys2Proof.Machine
end

