-- ==== Sys2Proof/Machine/Faults.lean ====
section
/-! DEFINITION. Faults and their containment: scrubbing and uncorrectable words (R283 to R287, R420), voting and
retransmission (R280 to R282), the error log's commands (R288 to R292), the deadbolt (R293 to R297) and hangs (R298). -/

namespace Sys2Proof.Machine

/-! ## Records of table words (R420) -/

/-- HANDLE of a record that names a table word. -/
def tabWord (table idx : Nat) : Word32 := BitVec.ofNat 32 (table % 256 * 2 ^ 24 + idx % 2 ^ 24)

/-- The ECC_UNCORR record of a table word (R285). -/
def eccLog (u : UnitId) (table idx : Nat) : LogRec := { status := 0x05, src := u, objk := 7, handle := tabWord table idx }

/-! ## Correction (R283, R284) -/

/-- The queue of a Ward whose slots hold a word of the message-queue SRAM. -/
def mqOfWord (b : Block) (w idx : Nat) : Option Nat :=
  (b.mq.find? (fun x => x.1 / 64 = w ∧ x.2.base * 16 ≤ idx / 8 ∧ idx / 8 < (x.2.base + x.2.size) * 16)).map (fun x => x.1 % 64)

/-- The corrected-error count of a word's table, one higher (Table 10.10). -/
def ceCount (u : UnitId) (table idx : Nat) (b : Block) : Block :=
  match u with
  | .keeper => if 1 ≤ table ∧ table ≤ 5 then bump (kc32 table) 1 b else b
  | .hinge h => bump (hc32 h 0) 1 b
  | .ward w =>
    match table with
    | 0x10 | 0x11 => bump (wc32 w 16) 1 b
    | 0x12 => bump (wc32 w 17) 1 b
    | 0x13 => bump (wc32 w 18) 1 b
    | 0x14 => match mqOfWord b w idx with
      | some q => updMQ w q (fun m => { m with ceCnt := satAdd (2 ^ 32 - 1) m.ceCnt 1 }) b
      | none => bump (wc32 w 18) 1 b
    | 0x15 => bump (wc32 w 15) 1 b
    | 0x16 => bump (wc32 w 19) 1 b
    | 0x17 => bump (wc32 w 20) 1 b
    | 0x18 => bump (wc32 w 21) 1 b
    | 0x19 | 0x1A => bump (wc32 w 22) 1 b
    | _ => b

/-- The key of a word among the counts of a scrub pass. -/
def eccKey (u : UnitId) (table idx : Nat) : Nat := unitNo u * 2 ^ 32 + table % 256 * 2 ^ 24 + idx % 2 ^ 24

/-- A corrected word: counted, and reported once when it has been corrected HARD_THR times in one pass (R284). -/
def corrected (p : Params) (u : UnitId) (table idx : Nat) (b : Block) : Block :=
  let k := eccKey u table idx
  let n := Tbl.get 0 b.ecc.ce k + 1
  let b := ceCount u table idx { b with ecc := { b.ecc with ce := Tbl.set 0 b.ecc.ce k n } }
  if rd1 p b (kA 0 0x064) 0 8 ≤ n ∧ k ∉ b.ecc.hard then
    logRec p { status := 0, kind := 3, src := u, objk := 7, handle := tabWord table idx }
      { b with ecc := { b.ecc with hard := b.ecc.hard ++ [k] } }
  else b

/-- The scrub interval of a unit in fclk; a Hinge's words have the Keeper's (R283). -/
def scrubGap (p : Params) (b : Block) : UnitId → Nat
  | .ward w => rd1 p b (wA w 0 0x0D0) 0 16
  | _ => rd1 p b (kA 0 0x060) 0 16

/-- A unit takes events. -/
def unitUp (p : Params) (b : Block) : UnitId → Bool
  | .keeper => keeperUp b
  | .ward w => wardUp p b w
  | .hinge h => hingeUp p b h

/-- A unit has a patrol scrubber (R283). -/
def patrols : UnitId → Bool
  | .hinge _ => false
  | _ => true

/-- The patrol read of the next word of a table, within the unit's interval; word 0 begins a pass, and the table's last word
ends it (R283). -/
def patrol (p : Params) (u : UnitId) (table : Nat) (last bad : Bool) (b : Block) : Block :=
  let since := Tbl.get 0 b.ecc.lastScrub (unitNo u)
  if !patrols u ∨ since ≠ 0 ∧ b.clk.fclk + 1 < since + scrubGap p b u then b
  else
    let n := unitNo u * 256 + table % 256
    let idx := Tbl.get 0 b.ecc.next n
    let pass := eccKey u table 0 / 2 ^ 24
    let ce := if idx = 0 then b.ecc.ce.filter (fun x => x.1 / 2 ^ 24 ≠ pass) else b.ecc.ce
    let b := { b with ecc := { b.ecc with
      ce := ce, lastScrub := Tbl.set 0 b.ecc.lastScrub (unitNo u) (b.clk.fclk + 1)
      next := Tbl.set 0 b.ecc.next n (if last then 0 else idx + 1) } }
    when bad (corrected p u table idx) b

/-- SCRUB_READ (R283, R284): the patrol's next word, or a word that an ordinary read has corrected. -/
def actScrubRead (u : UnitId) (table : Nat) (word : ScrubWord) (bad : Bool) (s : State) : Outcome :=
  s.run (fun p b => unitUp p b u) (fun p b =>
    match word with
    | .ordinary i => when bad (corrected p u table i) b
    | .patrol last => patrol p u table last bad b)

/-! ## Uncorrectable words (R285, R286, Table 10.4) -/

/-- An entry that has held an uncorrectable word is to be retired; one that is settled or FREE is retired at once. -/
def retireEntry (h : Nat) (b : Block) : Block :=
  let e := ent b h
  if e.retire then b
  else when (!live e.st) (bump (wc32 (homeOf h) 14) 1) (updEnt h (fun e => { e with retire := true }) b)

/-- An uncorrectable word of the task table. -/
def badEntry (p : Params) (h : Nat) (b : Block) : Block :=
  let e := ent b h
  let w := homeOf h
  let b := retireEntry h b
  let root := some (wordOf p b h)
  match e.st with
  | .pending => match e.d.cq with
    | some q => cqFail p w q 0x05 0 b
    | none => settle p h .failed 0x05 root (portless e) none none 0 b
  | .ready => match e.place with
    | .none => settle p h .failed 0x05 root (portless e) none none 0 b
    | _ => settle p h .failed 0x05 root false none none 0 (xsend (some w) 16 (.withdraw h e.gen) b)
  | .placed | .preloaded | .running => updEnt h (fun e => { e with faulted := true }) b
  | _ => b

/-- An issue-queue copy is read again from the entry: at once at its home Ward, through the crossbar elsewhere. -/
def badCopy (p : Params) (w h : Nat) (b : Block) : Block :=
  match (b.ports.filter (fun x => portWard p x.1 = w)).find? (fun x => x.2.iq.any (fun i => i.handle = h)) with
  | some x =>
    if homeOf h = w then b
    else xsend (some w) 16 (.reread x.1 h)
      (updPort x.1 (fun q => { q with iq := q.iq.map (fun i => if i.handle = h then { i with copyBad := true } else i) }) b)
  | none => b

/-- An edge-cache line or spill refetch: the submission of its entry ends. An entry of another instance's ring fails. -/
def badEdge (p : Params) (h : Nat) (b : Block) : Block :=
  let e := ent b h
  if e.st = .free then b
  else if e.d.rinst.isSome then (if live e.st then badEntry p h b else b)
  else endSub p e.d.ring e.d.subid 0x05 b

/-- A channel-table record: both endpoints here are broken, a receiving one emits its CLOSED beat. -/
def badChan (key : ChKey) (b : Block) : Block :=
  closedBeat key (updChan key (fun c => { c with txBroken := true, rxBroken := true }) b)

/-- The poison bit of word `i` put on the `k`-th flit held in a queue. -/
def poisonAt : List MqItem → Nat → Nat → List MqItem
  | [], _, _ => []
  | x :: l, k, i =>
    if k < x.flits.length then { x with poison := x.poison.set k (x.poison.getD k 0 ||| BitVec.ofNat 8 (2 ^ i)) } :: l
    else x :: poisonAt l (k - x.flits.length) i

/-- The item of a queue that holds its `k`-th flit, and which flit of it that is. -/
def flitOf : List MqItem → Nat → Option (MqItem × Nat)
  | [], _ => none
  | x :: l, k => if k < x.flits.length then some (x, k) else flitOf l (k - x.flits.length)

/-- The item of a queue that holds its `k`-th flit. -/
def itemOf (l : List MqItem) (k : Nat) : Option MqItem := (flitOf l k).map Prod.fst

/-- The record of a message-queue word also names its queue and channel, in SUBID (R176, log entry 13). -/
def mqLog (b : Block) (w q k idx : Nat) : LogRec :=
  let it := itemOf (mqu b w q).items k
  let ch := ((it.bind (fun x => x.ch)).map (fun x => x.ch)).getD 0
  { eccLog (.ward w) 0x14 idx with tenant := (mqu b w q).tenant, subid := BitVec.ofNat 32 (q * 2 ^ 16 + ch) }

/-- The beats of an item partway through delivery: the word is poisoned in its data beat, and POISON is set in its status
word, when they are still to be sent (R176). -/
def poisonBeats (key : ChKey) (i word q : Nat) (l : List OpdBeat) : List OpdBeat :=
  l.map (fun x =>
    if x.kind = 0 ∧ x.ch = key ∧ x.flit = i then { x with poison := x.poison ||| BitVec.ofNat 8 (2 ^ word) }
    else if x.kind = 1 ∧ x.ch = key ∧ x.queue = some q then { x with data := x.data ||| BitVec.ofNat 512 (2 ^ 27) }
    else x)

/-- A message-queue word: its item, and the beats under way when the item is being delivered (R176). -/
def badQueue (p : Params) (w q k idx : Nat) (b : Block) : Block :=
  let m := mqu b w q
  let b := updMQ w q (fun m => { m with items := poisonAt m.items k (idx % 8) }) b
  match flitOf m.items k, mqReader p w m with
  | some (x, i), some n =>
    when x.delivering (updPort n (fun t => { t with
      opd := poisonBeats (x.ch.getD ⟨none, 0⟩) i (idx % 8) q t.opd })) b
  | _, _ => b

/-- An uncorrectable word of a relay message is delivered poisoned. -/
def badRelay (ch idx : Nat) (b : Block) : Block :=
  updChan ⟨none, ch⟩ (fun c => { c with relay := c.relay.map (fun m => { m with
    poison := m.poison.set (idx / 8 % 16) (m.poison.getD (idx / 8 % 16) 0 ||| BitVec.ofNat 8 (2 ^ (idx % 8))) }) }) b

/-- An import record: failure notices for what its entry still expects, with ECC_UNCORR. -/
def badImport (p : Params) (h inst : Nat) (b : Block) : Block :=
  let w := homeOf h
  match (fedOf b w).imports.find? (fun x => x.1 = h ∧ x.2.1 = inst) with
  | some x =>
    let b := updFed w (fun t => { t with imports := t.imports.map (fun y => if y = x then (h, inst, 0) else y) }) b
    forEach (List.range x.2.2) (fun _ c => tumblerItem p 1 (wordOf p c h) (wordOf p c h) 0x05 c) b
  | none => b

/-- A roster record: its entry is reported FAILED with ECC_UNCORR. -/
def badRoster (p : Params) (w k : Nat) (b : Block) : Block :=
  match (fedOf b w).roster[k]? with
  | some o =>
    let b := updFed w (fun t => { t with roster := t.roster.eraseIdx k }) b
    let b := logRec p { ringLog b (.ward w) 0x05 o.ring o.subid with handleV := true, handle := o.word } b
    ringSettle p o.ring o.subid o.step .failed 0x05 o.discard b
  | none => b

/-- An event-ring entry or a counter reads 0. -/
def badEvent (p : Params) (w obj : Nat) (b : Block) : Block :=
  if obj < 2 ^ 24 then { b with cnt := Tbl.set 0 b.cnt obj 0 }
  else
    let n := w * p.ne + obj / 64 % 64
    { b with evr := Tbl.set [] b.evr n ((Tbl.get [] b.evr n).set (obj % 64) ⟨0, 0, 0, false, 0, 0, 0⟩) }

/-- The effect at a Ward; `obj` names the object that the word belongs to (log entry 13): an entry's handle, a channel
(remote ones from 2^14 on, by instance), queue + 64 · flit, at a Hinge 0 for an item header and 1 + flit for a data slot of
the item that the Hinge hands over next, queue · 4,096 + element, slot, port · 16 + pool, entry · 64 +
instance or 2^24 + roster place, counter address or 2^24 + port · 64 + place. -/
def badWard (p : Params) (w table idx obj : Nat) (b : Block) : Block :=
  match table with
  | 0x10 => badEntry p obj b
  | 0x11 => badCopy p w obj b
  | 0x12 => badEdge p obj b
  | 0x13 => badChan ⟨if obj < 2 ^ 14 then none else some (obj / 2 ^ 14 - 1), obj % 2 ^ 14⟩ b
  | 0x14 => if 2 ^ 16 ≤ obj then badRelay (obj % 2 ^ 14) idx b
    else badQueue p w (obj % 64) (obj / 64) idx b
  | 0x15 => updCQ w (obj / 4096) (spoilWord (obj % 4096)) b
  | 0x16 => updSlot w obj (fun s => { s with f := false, c := true, v := false }) b
  | 0x17 => keyPoolReset p (w * p.ne + obj / 16) (obj % 16) 0x09 b
  | 0x18 => if obj < 2 ^ 24 then badImport p (obj / 64) (obj % 64) b else badRoster p w (obj - 2 ^ 24) b
  | 0x19 => badEvent p w obj b
  | _ => b

/-- The submissions of a ring that a fault ends. -/
def openSubs (b : Block) (r : Nat) : List Word32 :=
  ((rng b r).subs.filter (fun s => !s.complete && s.early.isNone)).map (fun s => s.subid)

/-- A ring descriptor word: the ring is disabled and every accepted submission ends. -/
def badRing (p : Params) (r : Nat) (b : Block) : Block :=
  let b := forEach (openSubs b r) (fun i c => endSub p r i 0x05 c) (writeEnable p r false b)
  updRing r (fun g => { g with halt := 0x05 }) b

/-- The submission that a registered wait belongs to ends; one of another instance is refused there. -/
def failWait (p : Params) (x : HWait) (b : Block) : Block :=
  let b := { b with waits := b.waits.erase x }
  match x.who with
  | .ring r => faultTo none r (rng b r).walk.subid 0x05 b
  | .port n => match (prt b n).wait with
    | some k => faultTo none (ent b k.handle).d.ring (ent b k.handle).d.subid 0x05 b
    | none => b
  | .remote i tag => when (reachable p b i)
      (sendItem none (mkItem p b 0x20 i (hsp b x.hasp).tenant (ansArgs tag 0x05 0) [])) b

/-- A hasp word: V := 0, and its waits end. -/
def badHasp (p : Params) (h : Nat) (b : Block) : Block :=
  forEach (waitersOn b h) (failWait p) (updHasp h (fun x => { x with v := false }) b)

/-- The log SRAM has failed: FAILED, IRQ0, and the record that holds the word is damaged (R291). -/
def badLog (p : Params) (k : Nat) (b : Block) : Block :=
  raiseK p 3 (updLog (fun l => { l with failed := true, recs := l.recs.mapIdx (fun i r => if i = k then { r with dmg := true } else r) }) b)

/-- The effect at the Keeper; `obj` is a ring, a hasp, class · 8 + rank, a domain, or a record of the log. -/
def badKeeper (p : Params) (table obj : Nat) (b : Block) : Block :=
  match table with
  | 0x01 => badRing p obj b
  | 0x02 => badHasp p obj b
  | 0x03 => updPcl (obj / 8) (fun c => { c with bad := if obj % 8 ∈ c.bad then c.bad else c.bad ++ [obj % 8] }) b
  | 0x04 => if obj < 16 then updDom obj (fun d => { d with bad := true }) b else b
  | 0x05 => badLog p obj b
  | _ => b

/-- UNCORRECTABLE_WORD (R285, Table 10.4); a bad data slot of a Hinge marks its flit in PFLIT when the item is handed over. -/
def actUncorrectableWord (u : UnitId) (table idx obj : Nat) (s : State) : Outcome :=
  s.run (fun p b => unitUp p b u) (fun p b =>
    match u with
    | .keeper => if table = 0x05 then logRec p (eccLog u table idx) (badKeeper p table obj b)
      else badKeeper p table obj (logRec p (eccLog u table idx) b)
    | .ward w =>
      let lg := if table = 0x14 ∧ obj < 2 ^ 16 then mqLog b w (obj % 64) (obj / 64) idx else eccLog u table idx
      badWard p w table idx obj (logRec p lg b)
    | .hinge h =>
      let b := logRec p (eccLog u table idx) b
      if obj = 0 then goDown p h b else updHinge h (fun g => { g with badFlits := g.badFlits ++ [obj - 1] }) b)

/-! ## Instance faults (R280 to R282) -/

/-- A failed attempt records its REASON in the cycle of the finding; after the lock there is no attempt to fail
(R386, R388). -/
def failAttempt (reason : Nat) (b : Block) : Block :=
  if b.boot.lock ∨ b.boot.state = .failed then b
  else updBoot (fun t => { t with state := .failed, reason := reason }) b

/-- Segments before pass 3 are abandoned, and their walks begin them again after the release (R295). -/
def quiesceRing (p : Params) (r : Nat) (b : Block) : Block :=
  let k := (rng b r).walk
  let back := match k.mode with
    | .pass1 | .waitAhead | .pass2 | .entq | .retry _ | .remote => true
    | _ => false
  match back, k.seg with
  | true, some g => updWalk r (fun k => { k with mode := .header, off := g.off }) (abandonSeg p r b)
  | _, _ => b

/-- The quiesce reaches every holder (R295). -/
def quiesceAll (p : Params) (b : Block) : Block := forEach (b.rings.map Prod.fst) (quiesceRing p) b

/-- An instance fault (R282): from RUN the quiesce and the drain come with the next fclk. A fault in FAULT adds nothing. -/
def instFault (p : Params) (b : Block) : Block :=
  if b.dbolt.state = .fault then b
  else
    let b := updDb (fun d => { d with
      state := .fault, instFault := true, drainAt := b.clk.fclk + 1, trigAt := none, drained := false,
      quiesceDue := decide (d.state = .run) }) b
    failAttempt 4 (raiseK p 8 (logRec p { status := 0x05 } b))

/-- The quiesce of an instance fault reaches every holder with the next fclk (R282). -/
def faultEdge (p : Params) (b : Block) : Block :=
  when b.dbolt.quiesceDue (fun b => quiesceAll p (updDb (fun d => { d with quiesceDue := false }) b)) b

/-- KP_TMR_STAT counts one more disagreement of a lane. -/
def laneUp (n : Nat) (b : Block) : Block :=
  updBoot (fun t => { t with
    lane := t.lane.set n (satAdd 1023 (t.lane.getD n 0) 1)
    laneAt := t.laneAt.filter (fun x => b.clk.fclk < x.2 + 1024) ++ [(n, b.clk.fclk)] }) b

/-- A lane that differed in more than 16 cycles of the last 1,024 has a hard fault (R281). -/
def laneHard (p : Params) (n : Nat) (b : Block) : Block :=
  if b.boot.hard = none ∧ 16 < b.boot.laneAt.countP (fun x => x.1 = n) then
    raiseK p 6 (logRec p { status := 0, kind := 2 } (updBoot (fun t => { t with hard := some n }) b))
  else b

/-- TMR_DISAGREEMENT (R281, R282): bit i says that lane i differs from the vote; with no two lanes in agreement, or
with the two good lanes apart, there is none. -/
def actTmrDisagreement (lanes : BitVec 3) (s : State) : Outcome :=
  s.runK (fun p b =>
    let l := (bitsOf lanes 3).filter (fun i => b.boot.hard ≠ some i)
    let fatal := decide (2 ≤ l.length) || (b.boot.hard.isSome && l ≠ [])
    let b := forEach (bitsOf lanes 3) (fun i c => laneHard p i (laneUp i c)) b
    when fatal (instFault p) b)

/-- REPLAY (R280). -/
def actReplay (u : UnitId) (s : State) : Outcome :=
  s.run (fun p b => unitUp p b u) (fun _ b =>
    match u with
    | .ward w => bump (wc32 w 12) 1 b
    | .hinge h => bump (hc32 h 1) 1 b
    | .keeper => b)

/-- CROSSBAR_RETRANSMIT (R280): a word of a transfer is found uncorrectable, `again` after a retransmission of the same
transfer; the third time in a row it is not sent again, which is an instance fault. -/
def actCrossbarRetransmit (u : UnitId) (again : Bool) (s : State) : Outcome :=
  s.run (fun p b => unitUp p b u) (fun p b =>
    let n := if again then Tbl.get 0 b.ecc.retry (unitNo u) + 1 else 1
    let b := { b with ecc := { b.ecc with retry := Tbl.set 0 b.ecc.retry (unitNo u) (if 3 ≤ n then 0 else n) } }
    if 3 ≤ n then instFault p b
    else match u with
      | .ward w => bump (wc32 w 13) 1 b
      | _ => b)

/-! ## Error log (R288 to R292) -/

/-- LOG_RECORD_ARRIVAL (R288, R289): the oldest record that a unit has sent, with the count of records lost there. -/
def actLogRecordArrival (u : UnitId) (s : State) : Outcome :=
  s.runK (fun p b =>
    let n := unitNo u
    match Tbl.get [] b.log.air n with
    | [] => b
    | x :: l => storeLog p x.1 (updLog (fun g => { g with
        air := Tbl.set [] g.air n l, dropped := satAdd (2 ^ 32 - 1) g.dropped x.2 }) b))

/-- A write of KP_LOG_CTRL: POP removes the oldest record, but one that came to an empty log in this cycle; REINIT scrubs
the log (R288, R292, R409). -/
def logCtrl (v : Word32) (b : Block) : Block :=
  let b := when (bitAt v 0) (updLog (fun l => if l.fresh < l.recs.length then { l with recs := l.recs.tail } else l)) b
  when (bitAt v 1) (updLog (fun l => { l with
    failed := false, dropped := satAdd (2 ^ 32 - 1) l.dropped (l.recs.length + l.late.length), recs := [], late := [], fresh := 0 })) b

/-- LOG_POP (R288). -/
def actLogPop (s : State) : Outcome := s.keeperReg (kA 7 0x060) 1 true (fun _ b => logCtrl 1 b)

/-- LOG_REINIT (R292). -/
def actLogReinit (s : State) : Outcome := s.keeperReg (kA 7 0x060) 2 true (fun _ b => logCtrl 2 b)

/-- KP_LR_CTRL.CLEAR (R292). -/
def lrCtrl (v : Word32) (b : Block) : Block := when (bitAt v 0) (updLog (fun l => { l with lr := [], lrOvf := 0 })) b

/-- LR_CLEAR (R292). -/
def actLrClear (s : State) : Outcome := s.keeperReg (kA 7 0x094) 1 false (fun _ b => lrCtrl 1 b)

/-! ## Deadbolt (R293 to R297) -/

/-- KP_DBOLT_CTRL.DISC within 800 to 800,000. -/
def discLimit (p : Params) (b : Block) : Nat := clampNat 800 800000 (rdf p b (kA 8 0x040) 0 20)

/-- The channels disagree: D rises; in the tick in which it reaches DISC, or finds DISC lowered to it or below, the
discrepancy is latched and reported. -/
def disagreeTick (p : Params) (a : Bool) (b : Block) : Block :=
  let d := b.dbolt.disagree + 1
  let b := updDb (fun x => { x with disagree := d }) b
  if discLimit p b ≤ d ∧ (b.dbolt.disagree < discLimit p b ∨ !b.dbolt.discFault) then
    logRec p { status := 0x11, aux := if a then 1 else 2 } (updDb (fun x => { x with discFault := true, input := true }) b)
  else b

/-- The channels agree: a disagreement shorter than DISC is counted. -/
def agreeTick (p : Params) (on : Bool) (b : Block) : Block :=
  let d := b.dbolt.disagree
  let short := decide (d ≠ 0) && decide (d < discLimit p b)
  updDb (fun x => { x with
    disagree := 0, short := if short then satAdd (2 ^ 32 - 1) x.short 1 else x.short, input := on || x.discFault }) b

/-- DEADBOLT_SAMPLE (R293); while the channels disagree below DISC the input keeps its value. -/
def actDeadboltSample (a b1 : Bool) (s : State) : Outcome :=
  s.runK (fun p b =>
    let b := updDb (fun x => { x with a := a, b := b1 }) b
    if a = b1 then agreeTick p a b else disagreeTick p a b)

/-- DEADBOLT_ASSERT (R294, R295). In FAULT the instance is quiesced already (R282). -/
def actDeadboltAssert (s : State) : Outcome :=
  s.runK (fun p b =>
    if b.dbolt.input ∧ ¬ b.dbolt.asserted then
      let b := updDb (fun d => { d with asserted := true }) b
      if b.dbolt.state = .run then
        let b := updDb (fun d => { d with state := .drain, drainAt := b.clk.fclk, trigAt := none, drained := false }) b
        let b := raiseK p 16 b
        quiesceAll p (when (bitAt (rd p b (trA 0x070)) 28) (trTrigger p 4 0) b)
      else b
    else b)

/-- A task of the instance is RUNNING on a port. -/
def anyRunning (b : Block) : Bool := b.ports.any (fun x => x.2.run.isSome)

/-- KP_DBOLT_CTRL.DRAIN in fclk; 0 read as 1. -/
def drainLimit (p : Params) (b : Block) : Nat := rd1 p b (kA 8 0x040) 20 12 * 2048

/-- The instance drains (R282, R295). -/
def draining (b : Block) : Bool := decide (b.dbolt.state = .drain) || (decide (b.dbolt.state = .fault) && !b.dbolt.drained)

/-- The trigger cycle of R296, looked for at the end of a cycle. -/
def drainWatch (p : Params) (b : Block) : Block :=
  if draining b ∧ b.dbolt.trigAt = none ∧ b.dbolt.drainAt ≤ b.clk.fclk
      ∧ (¬ anyRunning b ∨ b.dbolt.drainAt + drainLimit p b ≤ b.clk.fclk) then
    updDb (fun d => { d with trigAt := some b.clk.fclk }) b
  else b

/-- The record of a task that still runs at drain end. -/
def overrunLog (p : Params) (b : Block) (h : Nat) : LogRec := { entryLog p b h 0x11 0 with overrun := true }

/-- Every accepted submission that is not complete ends (R296). -/
def endAll (p : Params) (st : Status) (b : Block) : Block :=
  forEach (b.rings.map Prod.fst) (fun r c => forEach (openSubs c r) (fun i c => endSub p r i st c) c) b

/-- DRAIN_END (R282, R296): the 40th fclk after the trigger cycle. -/
def actDrainEnd (s : State) : Outcome :=
  s.runK (fun p b =>
    match b.dbolt.trigAt with
    | some t =>
      if draining b ∧ t + 40 ≤ b.clk.fclk then
        let b := endAll p (if b.dbolt.instFault then 0x05 else 0x11) b
        let b := forEach b.ports (fun x c => match x.2.run with
          | some r => logRec p (overrunLog p c r.handle) c
          | none => c) b
        let fault := decide (b.dbolt.state = .fault)
        let b := updDb (fun d => { d with state := if fault then .fault else .quiesced, drained := true, trigAt := none }) b
        when fault (forEach (List.range p.nh) (goDown p)) b
      else b
    | none => b)

/-- DEADBOLT_RELEASE (R297): only reset leaves FAULT. -/
def actDeadboltRelease (s : State) : Outcome :=
  s.runK (fun _ b =>
    if b.dbolt.asserted ∧ ¬ b.dbolt.input then
      updDb (fun d => { d with
        asserted := false, state := if d.state = .fault then .fault else .run, trigAt := if d.state = .fault then d.trigAt else none }) b
    else b)

/-- A write of KP_DBOLT_STAT (R297). -/
def dbStatWrite (v : Word32) (b : Block) : Block :=
  when (bitAt v 2 && !b.dbolt.a && !b.dbolt.b) (updDb (fun d => { d with discFault := false })) b

/-- DISC_FAULT_CLEAR (R297). -/
def actDiscFaultClear (s : State) : Outcome := s.keeperReg (kA 8 0x044) 4 false (fun _ b => dbStatWrite 4 b)

/-! ## Hangs (R298) -/

/-- KP_HANG_CFG.TICKS. -/
def hangLimit (p : Params) (b : Block) : Nat := rdf p b (kA 8 0x050) 0 16 * 1024

/-- The ring's ticks are counted (R298). -/
def hangCounts (b : Block) (r : Nat) : Bool :=
  let g := rng b r
  decide (g.subs ≠ []) && runState b && decide (g.haltKind = 0) && decide (g.pre = .run)

/-- A snapshot order (R304, R322): delivered 40 fclk later. -/
def blkOrder (b : Block) : Block :=
  { b with blk := { b.blk with orderAt := b.blk.orderAt ++ [b.clk.fclk + 40], builtAt := none, done := false } }

/-- HANG_DETECT (R298, R316, R322). -/
def actHangDetect (ring : Nat) (s : State) : Outcome :=
  s.run (fun p b => wardUp p b (rHome (rng b ring))) (fun p b =>
    let g := rng b ring
    if hangLimit p b ≠ 0 ∧ hangLimit p b ≤ g.hangTicks ∧ ¬ g.hung then
      let b := updRing ring (fun g => { g with hung := true }) b
      let first := !b.hang.hung
      let subid := ((g.subs.head?).map (fun s => s.subid)).getD 0
      let b := logRec p { ringLog b (.ward (rHome g)) 0 ring subid with kind := 4 } b
      let b := raiseK p 4 b
      let b := { b with hang := ⟨true, if first then ring else b.hang.ring, satAdd (2 ^ 32 - 1) b.hang.count 1⟩ }
      let b := when (first && bitAt (rd p b (trA 0x070)) 29) (trTrigger p 3 0) b
      when (first && bitAt (rd p b (kA 8 0x060)) 1) blkOrder b
    else b)

/-! ## Dump (R299, R300) -/

/-- Sections of a dump in the order of Table 10.8: ID, unit, length in bytes. -/
def dumpSections (p : Params) : List (Nat × Nat × Nat) :=
  [(0x01, 0, 65536), (0x02, 0, 524288), (0x03, 0, 65536), (0x04, 0, 524288), (0x05, 0, 16384), (0x06, 0, 32768), (0x07, 0, 4096)]
  ++ (List.range p.nw).flatMap (fun w =>
    [(0x10, w, 65536), (0x11, w, 131072), (0x12, w, 131072), (0x13, w, 32768), (0x14, w, 131072), (0x15, w, 262144), (0x16, w, 65536)])
  ++ (List.range p.nh).map (fun h => (0x20, h, 4096))
  ++ [(0x30, 0, 512 * nPorts p)]

/-- Bytes of a dump: its header, and each section with its header. -/
def dumpBytes (p : Params) : Nat := 64 + ((dumpSections p).map (fun x => 64 + x.2.2)).sum

/-- KP_DUMP_STAT.NEED in KiB. -/
def dumpNeed (p : Params) : Nat := cdiv (dumpBytes p) 1024

/-- KP_DUMP_BASE. -/
def dumpBase (p : Params) (b : Block) : Nat := rdf p b (duA 0x048) 0 16 * 2 ^ 32 + rdf p b (duA 0x044) 8 24 * 2 ^ 8

/-- The sections with their addresses. -/
def dumpPlaces (base : Nat) : List (Nat × Nat × Nat) → List (Nat × Nat × Nat × Nat)
  | [] => []
  | x :: l => (base, x) :: dumpPlaces (base + 64 + x.2.2) l

end Sys2Proof.Machine
end

