-- ==== Sys2Proof/Machine/Boot.lean ====
section
/-! DEFINITION. Resets, the release of the domains, the boot stages, minimal mode and the lock (R330, R376 to R389,
R403). -/

namespace Sys2Proof.Machine

/-! ## Unit numbers of the plain domains -/

/-- The timestamp domain. -/
def tsDom : Nat := 80
/-- The management domain. -/
def mgtDom : Nat := 81
/-- The meter domain. -/
def mtDom : Nat := 82

/-- The block with a unit at a boot stage from this fclk on. -/
def setStage (u : Nat) (x : Stage) (b : Block) : Block :=
  updBoot (fun t => { t with stage := Tbl.set .held t.stage u x, since := Tbl.set 0 t.since u b.clk.fclk }) b

/-- The Wards that start: every one, or Ward 0 in minimal mode (R387). -/
def startWards (p : Params) (b : Block) : List Nat := if b.boot.minimal then [0] else List.range p.nw

/-- The Hinges that start: every one, none in minimal mode (R387). -/
def startHinges (p : Params) (b : Block) : List Nat := if b.boot.minimal then [] else List.range p.nh

/-! ## KP_BOOT.STATE (R380) -/

/-- Every unit has scrubbed; a fenced Ward takes no part any more. -/
def allScrubbed (p : Params) (b : Block) : Bool :=
  let past := fun (u : Nat) => decide (stageOf b u ≠ .held) && decide (stageOf b u ≠ .scrub)
  past 0 && (startWards p b).all (fun w => past (1 + w))

/-- Every unit has rescrubbed, and the TMR check has ended. -/
def allTested (p : Params) (b : Block) : Bool :=
  decide (stageOf b 0 = .ready)
    && (startWards p b).all (fun w => decide (stageOf b (1 + w) = .ready) || decide (stageOf b (1 + w) = .fenced))

/-- Every Hinge has reached link-up or timed out. -/
def allLinked (p : Params) (b : Block) : Bool :=
  (startHinges p b).all (fun h => decide (stageOf b (64 + h) = .ready) || decide (stageOf b (64 + h) = .timedOut))

/-- STATE becomes READY: IRQ0, with KP_IRQ_STAT.MINIMAL in minimal mode (R380, R387). -/
def becomeReady (p : Params) (b : Block) : Block :=
  let b := raiseK p 1 (updBoot (fun t => { t with state := .ready }) b)
  when b.boot.minimal (raiseK p 2) b

/-- STATE moves from stage to stage as the units do; FAILED stays. -/
def bootCheck (p : Params) (b : Block) : Block :=
  let b := when (decide (b.boot.state = .scrub) && allScrubbed p b) (updBoot (fun t => { t with state := .selftest })) b
  let b := when (decide (b.boot.state = .selftest) && allTested p b) (updBoot (fun t => { t with state := .linkup })) b
  when (decide (b.boot.state = .linkup) && allLinked p b) (becomeReady p) b

/-! ## Reset pins (R379, R386) -/

/-- An attempt begins at a release: the count rises, or the fourth start in a row is minimal (R386, R387). -/
def beginAttempt (p : Params) (b : Block) : Block :=
  updBoot (fun t =>
    if t.attempts = 3 then { t with
      minimal := true, t0 := b.clk.fclk, fence := BitVec.ofNat 48 (2 ^ p.nw - 2) }
    else { t with attempts := t.attempts + 1, t0 := b.clk.fclk }) b

/-- What PORST_N leaves: nothing but the level of the other reset pin; what the block has driven stays driven. -/
def powerOff (b : Block) : Block := { boot := { porst := true, srst := b.boot.srst }, out := b.out }

/-- PORST_N_ASSERT (R379). -/
def actPorstNAssert (s : State) : Outcome := .next (s.onBlock (fun _ b => powerOff b))

/-- PORST_N_RELEASE (R376, R386): the dividers start. -/
def actPorstNRelease (s : State) : Outcome :=
  s.run (fun _ b => b.boot.porst) (fun p b =>
    beginAttempt p (updBoot (fun t => { t with porst := false, attempts := 0 }) (updClk (fun c => { c with fclk := 0 }) b)))

/-- What SRST_N leaves (R377, R379): the timestamp domain, the meter, ATTEMPTS, MINIMAL and REASON, which becomes
RESET_UNLOCKED for an attempt that is neither locked nor failed (R386). -/
def softOff (b : Block) : Block :=
  let t := b.boot
  { clk := { b.clk with exam := [], slotDue := [], cmpNow := [], clrDue := [] }, meter := b.meter, out := b.out
    boot := {
      porst := false, srst := true, attempts := t.attempts, minimal := t.minimal
      reason := if t.lock ∨ t.state = .failed then t.reason else 6
      stage := t.stage.filter (fun x => x.1 = tsDom ∨ x.1 = mtDom), since := t.since.filter (fun x => x.1 = tsDom ∨ x.1 = mtDom) } }

/-- SRST_N_ASSERT (R379). -/
def actSrstNAssert (s : State) : Outcome :=
  s.run (fun _ b => !b.boot.srst) (fun _ b =>
    if b.boot.porst then updBoot (fun t => { t with srst := true }) b else softOff b)

/-- SRST_N_RELEASE (R376, R386). -/
def actSrstNRelease (s : State) : Outcome :=
  s.run (fun _ b => b.boot.srst) (fun p b =>
    let b := updBoot (fun t => { t with srst := false }) b
    if b.boot.porst then b else beginAttempt p b)

/-- MTR_RST_N (R330, R343): accumulators and records are gone, the meter is STOPPED. -/
def actMtrRstN (s : State) : Outcome :=
  s.run (fun _ b => !b.boot.porst) (fun _ b => updMeter (fun m => { ts := m.ts }) b)

/-! ## Releases (R376, Table 13.14) -/

/-- A domain's unit number. -/
def domNo : Domain → Nat
  | .timestamp => tsDom
  | .management => mgtDom
  | .meter => mtDom
  | .keeper => 0
  | .ward w => 1 + w
  | .hinge h => 64 + h

/-- The fclk of a domain's release, from the release of the pin. -/
def relAt (p : Params) : Domain → Nat
  | .timestamp => 8
  | .management => 8
  | .meter => 16
  | .keeper => 16
  | .ward w => 32 + 8 * w
  | .hinge h => 32 + 8 * p.nw + 8 * h

/-- The domain is one of this start; the timestamp and the meter are held by PORST_N only. -/
def starts (p : Params) (b : Block) : Domain → Bool
  | .timestamp | .meter => true
  | .management | .keeper => !b.boot.srst
  | .ward w => !b.boot.srst && decide (w ∈ startWards p b)
  | .hinge h => !b.boot.srst && decide (h ∈ startHinges p b)

/-- DOMAIN_RESET_RELEASE (R376, R384): the timestamp counts from its release on; a Ward and the Keeper scrub; a Hinge
asks its adapter for ACTIVE. -/
def actDomainResetRelease (d : Domain) (s : State) : Outcome :=
  s.run (fun p b => !b.boot.porst && starts p b d && decide (stageOf b (domNo d) = .held)
      && decide (b.boot.t0 + relAt p d ≤ b.clk.fclk)) (fun p b =>
    match d with
    | .timestamp => setStage tsDom .ready (updClk (fun c => { c with ts := BitVec.ofNat 64 ((c.fclk - (b.boot.t0 + relAt p d)) / 2) }) b)
    | .management => setStage mgtDom .ready b
    | .meter => setStage mtDom .ready b
    | .keeper => setStage 0 .scrub b
    | .ward w => setStage (1 + w) .scrub b
    | .hinge h => emit (.linkReq h true) (setStage (64 + h) .linkup b))

/-! ## Scrub, self-test, rescrub, TMR check (R380 to R383) -/

/-- The unit's pins are released. -/
def booting (b : Block) : Bool := !b.boot.porst && !b.boot.srst

/-- BOOT_SCRUB_DONE (R380); a Ward scrubs for 2,048 fclk (Table 13.14). -/
def actBootScrubDone (u : UnitId) (s : State) : Outcome :=
  s.run (fun _ b => booting b && decide (stageOf b (unitNo u) = .scrub)) (fun p b =>
    match u with
    | .ward w => if Tbl.get 0 b.boot.since (1 + w) + 2048 ≤ b.clk.fclk then bootCheck p (setStage (1 + w) .selftest b) else b
    | .keeper => bootCheck p (setStage 0 .selftest b)
    | .hinge _ => b)

/-- The first of a list of words: lowest table, then lowest index (R420). -/
def firstWord : List (Nat × Nat) → Option (Nat × Nat)
  | [] => none
  | x :: l => match firstWord l with
    | none => some x
    | some y => some (if y.1 < x.1 ∨ y.1 = x.1 ∧ y.2 < x.2 then y else x)

/-- A Ward with a fatal word is fenced; with none left the start fails (R381, Table 14.4). -/
def fenceWard (p : Params) (w : Nat) (x : Nat × Nat) (b : Block) : Block :=
  let b := logRec p (eccLog (.ward w) x.1 x.2) b
  let b := setStage (1 + w) .fenced (updBoot (fun t => { t with fence := t.fence ||| BitVec.ofNat 48 (2 ^ w) }) b)
  when ((startWards p b).all (fenced b)) (failAttempt 3) b

/-- SELF_TEST_DONE (R381, R383): corrected words are reported; a fatal word fences a Ward and fails the start of the
Keeper. -/
def actSelfTestDone (u : UnitId) (fatal corrected : List (Nat × Nat)) (s : State) : Outcome :=
  s.run (fun _ b => booting b && decide (stageOf b (unitNo u) = .selftest)) (fun p b =>
    let b := forEach corrected (fun x => logRec p { status := 0, kind := 3, src := u, objk := 7, handle := tabWord x.1 x.2 }) b
    match u, firstWord fatal with
    | .ward w, some x => bootCheck p (fenceWard p w x b)
    | .keeper, some _ => bootCheck p (failAttempt 1 (setStage 0 .rescrub b))
    | _, _ => bootCheck p (setStage (unitNo u) .rescrub b))

/-- The rescrub of a unit ends; the Keeper's TMR check follows. -/
def rescrubbed (p : Params) (u : UnitId) (b : Block) : Block :=
  bootCheck p (setStage (unitNo u) (match u with | .keeper => .tmrCheck | _ => .ready) b)

/-- TMR_CHECK (R383): one lane that disagrees is a hard fault; two fail the start. -/
def actTmrCheck (bad : BitVec 3) (s : State) : Outcome :=
  s.run (fun _ b => booting b && decide (stageOf b 0 = .tmrCheck)) (fun p b =>
    let b := match bitsOf bad 3 with
      | [] => b
      | [n] => raiseK p 6 (logRec p { status := 0, kind := 2 } (updBoot (fun t => { t with hard := some n }) b))
      | _ => failAttempt 2 b
    bootCheck p (setStage 0 .ready b))

/-! ## Links (R384) -/

/-- LINK_UP (R276, R384): during boot, and again in TRAIN after a rearm. -/
def actLinkUp (h : Nat) (s : State) : Outcome :=
  s.runH h (fun p b =>
    if (hng b h).state = .train ∧ ¬ (hng b h).linkUp then
      let b := linkTrained p h b
      if stageOf b (64 + h) = .linkup then bootCheck p (setStage (64 + h) .ready b) else b
    else b)

/-- LINK_UP_TIMEOUT (R384): 1,024,000 tclk after the Hinge's release. -/
def actLinkUpTimeout (h : Nat) (s : State) : Outcome :=
  s.runH h (fun p b =>
    if stageOf b (64 + h) = .linkup ∧ Tbl.get 0 b.boot.since (64 + h) + 2048000 ≤ b.clk.fclk then
      let b := updBoot (fun t => { t with hfail := t.hfail ||| BitVec.ofNat 8 (2 ^ h) }) (setStage (64 + h) .timedOut b)
      bootCheck p (raiseH p h 4 b)
    else b)

/-! ## Lock and FWFAIL (R388, R389) -/

/-- The lock is set: the attempt has succeeded, and the Hinges exchange HELLO (R386, R389). -/
def lockSet (p : Params) (b : Block) : Block :=
  let b := updBoot (fun t => { t with lock := true, attempts := if t.minimal then t.attempts else 0 }) b
  forEach (startHinges p b) (fun h c => when (helloDue p c h) (fun d => tryActive p h (sendHello p h d)) c) b

/-- A write of KP_CTRL (R389). -/
def kctrlWrite (p : Params) (v : Word32) (b : Block) : Block :=
  if bitAt v 0 then
    (if b.boot.state = .ready ∧ b.dbolt.state ≠ .fault then (if b.boot.lock then b else lockSet p b) else pgErr p (kA 0 0) 8 b)
  else b

/-- LOCK (R389). -/
def actLock (s : State) : Outcome := s.keeperReg (kA 0 0x048) 1 false (fun p b => kctrlWrite p 1 b)

/-- A write of KP_BOOT: FWFAIL before the lock fails the attempt with FIRMWARE (R388). -/
def kbootWrite (v : Word32) (b : Block) : Block :=
  when (bitAt v 21 && !b.boot.lock) (updBoot (fun t => { t with state := .failed, reason := 5 })) b

/-- FWFAIL (R388). -/
def actFwfail (s : State) : Outcome := s.keeperReg (kA 0 0x04C) 0x200000 false (fun _ b => kbootWrite 0x200000 b)

end Sys2Proof.Machine
end

