-- ==== Sys2Proof/Machine/Meter.lean ====
section
/-! DEFINITION. The Sealed Meter: tally slots, periods, records, signing, its port (R329 to R344, R369, R416). -/

namespace Sys2Proof.Machine

/-! ## Time and signing (R333, R339, R369) -/

/-- The sclk cycle: an sclk edge falls on every 16th fclk (R25). -/
def sclkOf (b : Block) : Nat := b.clk.fclk / 16

/-- Bytes 0x00 to 0x5F of a record as a number (Table 12.2). -/
def recBytes (r : MRec) : Nat :=
  r.seqNo.toNat + r.startTs.toNat * 2 ^ 64 + r.endTs.toNat * 2 ^ 128
  + (r.kind + r.flags * 2 ^ 4 + r.tenant * 2 ^ 8 + r.preempt * 2 ^ 16 + r.cfggen.toNat * 2 ^ 32) * 2 ^ 192
  + r.busy.toNat * 2 ^ 256 + r.qwait.toNat * 2 ^ 320 + ((r.bytes.zipIdx).map (fun x => x.1.toNat * 2 ^ (384 + 64 * x.2))).sum
  + r.waste.toNat * 2 ^ 640 + r.done.toNat * 2 ^ 704 + r.failed.toNat * 2 ^ 736

/-- The message of a signing request: the unit identity, then the record (R339). -/
def signMsg (u : Unsigned) : BitVec 832 := BitVec.ofNat 832 (u.unitId.toNat + recBytes u.mrec * 2 ^ 64)

/-- REQ rises for a record. -/
def ksSend (u : Unsigned) (b : Block) : Block :=
  emit (.ksReq u.handle (signMsg u)) (updMeter (fun m => { m with signing := some ⟨u, sclkOf b, true, none⟩ }) b)

/-- The next record is signed when none is under way and the buffer has room for it (R337). -/
def signNext (b : Block) : Block :=
  let m := b.meter
  match m.toSign with
  | u :: l => if m.signing.isNone ∧ m.buf.length < 1024 then ksSend u (updMeter (fun m => { m with toSign := l }) b) else b
  | [] => b

/-- A record takes the next sequence number and asks for its signature under the key and identity in force. -/
def formRec (r : MRec) (b : Block) : Block :=
  signNext (updMeter (fun m => { m with
    toSign := m.toSign ++ [⟨{ r with seqNo := m.seqNo }, m.handle, m.unitId⟩], seqNo := m.seqNo + 1 }) b)

/-- A record without counts (Table 12.3). -/
def bareRec (kind : Nat) (s e : Word64) (flags : Nat) (gen : Word32) (busy qwait b0 b1 : Word64) : MRec :=
  ⟨0, s, e, kind, flags, 0, 0, gen, busy, qwait, [b0, b1, 0, 0], 0, 0, 0⟩

/-- A signing attempt has failed: reported, counted, retried after 1,024 sclk (R339). -/
def signFail (b : Block) : Block :=
  updMeter (fun m => { m with
    irq := m.irq ||| 4, cntKeyerr := satAdd (2 ^ 32 - 1) m.cntKeyerr 1
    signing := m.signing.map (fun s => { s with waitAck := false, retryAt := some (sclkOf b + 1024) }) }) b

/-- KEY_STORE_ACK (R339, R340, R369); the answer to an abandoned request is discarded. -/
def actKeyStoreAck (mac : BitVec 256) (err : Bool) (s : State) : Outcome :=
  s.runM (fun _ b =>
    match b.meter.signing with
    | some g =>
      if g.waitAck then
        if err then signFail b
        else signNext (updMeter (fun m => { m with
          signing := none, buf := m.buf ++ [(g.item.mrec, mac)], irq := if m.buf.length + 1 = m.thr then m.irq ||| 2 else m.irq }) b)
      else b
    | none => b)

/-- KEY_STORE_TIMEOUT (R339): after MT_KEY.TMO × 256 sclk; TMO 0 sets no limit. -/
def actKeyStoreTimeout (s : State) : Outcome :=
  s.runM (fun _ b =>
    match b.meter.signing with
    | some g => if g.waitAck ∧ b.meter.tmo ≠ 0 ∧ g.since + b.meter.tmo * 256 ≤ sclkOf b then signFail b else b
    | none => b)

/-- SIGN_RETRY (R339): the same message again. -/
def actSignRetry (s : State) : Outcome :=
  s.runM (fun _ b =>
    match b.meter.signing with
    | some g => match g.retryAt with
      | some t => if t ≤ sclkOf b then ksSend g.item b else b
      | none => b
    | none => b)

/-! ## Tally slots (R331 to R336) -/

/-- A period is open: lines are accumulated. -/
def periodOpen (m : Meter) : Bool := m.running && (m.run || m.stopReq)

/-- A 32-bit accumulator saturates and marks SAT (R334). -/
def acc32 (x y : Nat) : Nat × Bool := (satAdd (2 ^ 32 - 1) x y, decide (2 ^ 32 ≤ x + y))

/-- A line added to a tenant's accumulators. -/
def addLine (l : Tally) (a : Acc) : Acc :=
  let d := acc32 a.done l.done
  let f := acc32 a.failed l.failed
  let e := acc32 a.preempt l.preempt
  { busy := (a.busy + l.busy) % 2 ^ 64, qwait := (a.qwait + l.qwait) % 2 ^ 64
    bytes := (List.range 4).map (fun i => (a.bytes.getD i 0 + l.bytes.getD i 0) % 2 ^ 64)
    waste := (a.waste + l.waste) % 2 ^ 64, done := d.1, failed := f.1, preempt := e.1
    sat := a.sat || l.sat || d.2 || f.2 || e.2, damaged := a.damaged }

/-- The dirty line of a source that became dirty earliest, lower tenant on a tie: its key. -/
def dirtiest (b : Block) (src : Nat) : Option Nat :=
  ((b.tally.filter (fun x => decide (x.1 / 256 = src) && x.2.dirtyAt.isSome)).foldl (fun a x => match a with
    | none => some x
    | some y => if x.2.dirtyAt.getD 0 < y.2.dirtyAt.getD 0 then some x else some y) none).map Prod.fst

/-- A line that reached the meter, in an open period. -/
def takeLine (t : Nat) (l : Tally) (h : LineHealth) (m : Meter) : Meter :=
  let m := { m with lines := m.lines + 1 }
  match h with
  | .ok => { m with bank := Tbl.upd {} m.bank t (addLine l) }
  | .badTenantKnown => { m with
      badLines := m.badLines + 1, cntBad := satAdd (2 ^ 32 - 1) m.cntBad 1, bank := Tbl.upd {} m.bank t (fun a => { a with damaged := true }) }
  | .badTenantLost => { m with badLines := m.badLines + 1, cntBad := satAdd (2 ^ 32 - 1) m.cntBad 1 }

/-- A line that reached the meter with no period open: counted for the next START record (R341). -/
def strayLine (h : LineHealth) (m : Meter) : Meter :=
  { m with stopLines := m.stopLines + 1, cntBad := if h = .ok then m.cntBad else satAdd (2 ^ 32 - 1) m.cntBad 1 }

/-- TALLY_SLOT_SAMPLE (R331, R333, R334): source c mod (NW + 1) in sclk cycle c, once a cycle. -/
def actTallySlotSample (health : LineHealth) (s : State) : Outcome :=
  s.runM (fun p b =>
    let c := sclkOf b
    if b.meter.lastSlot = some c then b
    else
      let b := updMeter (fun m => { m with lastSlot := some c }) b
      match dirtiest b (c % (p.nw + 1)) with
      | none => b
      | some k =>
        let l := Tbl.get {} b.tally k
        let b := { b with tally := Tbl.set {} b.tally k {} }
        updMeter (fun m => if periodOpen m then takeLine (k % 256) l health m else strayLine health m) b)

/-! ## Periods (R334, R335) -/

/-- MT_PERIOD.SCLK; smaller values read as 100,000. -/
def mtPeriod (v : Nat) : Nat := max 100000 v

/-- PERIOD_DUE (R334). -/
def actPeriodDue (s : State) : Outcome :=
  s.runM (fun _ b =>
    let m := b.meter
    if periodOpen m ∧ m.startSclk + m.period ≤ sclkOf b then updMeter (fun m => { m with due := true }) b else b)

/-- The period is to close: due, stopped, or by a configuration write (R334, R341, R342). -/
def closeWanted (m : Meter) : Bool := periodOpen m && (m.due || m.stopReq || m.cfgPend.isSome)

/-- The previous bank is drained and 258 entries are free; records formed and not yet in the buffer hold theirs
(R335). -/
def closeFits (m : Meter) : Bool :=
  m.closing.isNone && decide (m.buf.length + m.toSign.length + b2n m.signing.isSome + 258 ≤ 1024)

/-- PERIOD_CLOSE (R334, R335): the banks swap; a close that could not be made is STRETCHED when it comes. -/
def actPeriodClose (s : State) : Outcome :=
  s.runM (fun _ b =>
    let m := b.meter
    if !closeWanted m then b
    else if !closeFits m then updMeter (fun m => { m with delayed := true }) b
    else
      updMeter (fun m => { m with
        closing := some {
          startTs := m.startTs, endTs := m.ts, sclk := sclkOf b - m.startSclk, lines := m.lines, bad := m.badLines
          stretched := m.delayed, cfggen := m.cfggen, next := 0, usage := 0, closeDone := false, cfg := m.cfgPend }
        closeBank := m.bank, bank := [], startTs := m.ts, startSclk := sclkOf b, due := false, delayed := false, lines := 0
        badLines := 0, stopReq := false, cfgPend := none
        cntStretch := if m.delayed then satAdd (2 ^ 32 - 1) m.cntStretch 1 else m.cntStretch }) b)

/-! ## Record former (R336, R337, R342) -/

/-- The words of an accumulator that are uncorrectable read as 0: BUSY, QWAIT, BYTES0 to 3, WASTE, DONE, FAILED, PREEMPT
as 0 to 9. -/
def dropWords (bad : List Nat) (a : Acc) : Acc :=
  let z := fun (i v : Nat) => if i ∈ bad then 0 else v
  { busy := z 0 a.busy, qwait := z 1 a.qwait, bytes := (List.range 4).map (fun i => z (2 + i) (a.bytes.getD i 0)),
    waste := z 6 a.waste, done := z 7 a.done, failed := z 8 a.failed, preempt := z 9 a.preempt, sat := a.sat,
    damaged := a.damaged || bad.any (fun i => decide (i < 10)) }

/-- The USAGE record of a tenant (Table 12.2). -/
def usageRec (c : Closing) (t : Nat) (a : Acc) : MRec :=
  let w := fun (n : Nat) => BitVec.ofNat 64 n
  ⟨0, c.startTs, c.endTs, 0, b2n a.damaged * 2 + b2n (a.sat || decide (2 ^ 16 ≤ a.preempt)) * 4, t, min a.preempt 0xFFFF, c.cfggen,
    w a.busy, w a.qwait, a.bytes.map w, w a.waste, BitVec.ofNat 32 a.done, BitVec.ofNat 32 a.failed⟩

/-- The CLOSE record (Table 12.3). -/
def closeRec (c : Closing) : MRec :=
  let w := fun (n : Nat) => BitVec.ofNat 64 n
  bareRec 1 c.startTs c.endTs (b2n c.stretched) c.cfggen (w c.usage) (w c.lines) (w c.bad) (w c.sclk)

/-- The register word of MT_KEY. -/
def mtKeyWord (m : Meter) : Word32 := BitVec.ofNat 32 (m.tmo % 2 ^ 16 * 2 ^ 16 + m.handle % 2 ^ 16)

/-- The configuration with a write applied (Table 12.4). -/
def mtApply (c : MtCfg) (m : Meter) : Meter :=
  match c with
  | .period v => { m with period := mtPeriod v.toNat }
  | .key v => { m with tmo := fld v 16 16, handle := fld v 0 16 }
  | .unitId hi v => { m with unitId := if hi then setFld m.unitId 32 32 v.toNat else setFld m.unitId 0 32 v.toNat }

/-- Code and value of the register a write names (Table 12.3). -/
def mtCode : MtCfg → Nat
  | .period _ => 1
  | .key _ => 2
  | .unitId _ _ => 3

/-- The value of the register a write names. -/
def mtValue (c : MtCfg) (m : Meter) : Word64 :=
  match c with
  | .period _ => BitVec.ofNat 64 m.period
  | .key _ => (mtKeyWord m).setWidth 64
  | .unitId _ _ => m.unitId

/-- The CONFIG record. -/
def configRec (k : Closing) (c : MtCfg) (m : Meter) : MRec :=
  bareRec 3 k.startTs k.endTs 0 k.cfggen (BitVec.ofNat 64 (mtCode c)) (mtValue c m) (mtValue c (mtApply c m)) 0

/-- The records of a period are complete; a stopped meter is STOPPED (R341). -/
def closeOver (b : Block) : Block :=
  updMeter (fun m =>
    let m := { m with closing := none, closeBank := [] }
    if m.run ∨ m.stopReq then m else { m with running := false, irq := m.irq ||| 1 }) b

/-- One record is formed: the next tenant's USAGE, then CLOSE, then CONFIG, after which the new value takes effect. -/
def formNext (bad : List Nat) (k : Closing) (b : Block) : Block :=
  match b.meter.closeBank.find? (fun x => k.next ≤ x.1) with
  | some x => formRec (usageRec k x.1 (dropWords bad x.2))
      (updMeter (fun m => { m with closing := some { k with next := x.1 + 1, usage := k.usage + 1 } }) b)
  | none =>
    if !k.closeDone then
      let b := formRec (closeRec k) (updMeter (fun m => { m with closing := some { k with closeDone := true } }) b)
      if k.cfg.isNone then closeOver b else b
    else match k.cfg with
      | some c => closeOver (updMeter (fun m => { mtApply c m with cfggen := m.cfggen + 1 }) (formRec (configRec k c b.meter) b))
      | none => closeOver b

/-- RECORD_FORM (R337): at most one record in an sclk cycle. -/
def actRecordForm (bad : List Nat) (s : State) : Outcome :=
  s.runM (fun _ b =>
    match b.meter.closing with
    | some k =>
      if b.meter.lastForm = some (sclkOf b) then b
      else formNext bad k (updMeter (fun m => { m with lastForm := some (sclkOf b) }) b)
    | none => b)

/-! ## Meter port (R340 to R342, Table 15.13) -/

/-- MT_CTRL.RUN := 1 in STOPPED: a START record, and a period (R341). -/
def mtRun (b : Block) : Block :=
  if b.meter.running then b
  else
    let m := b.meter
    formRec (bareRec 2 m.ts m.ts 0 m.cfggen m.seqBase (BitVec.ofNat 64 m.stopLines) 0 0)
      (updMeter (fun m => { m with
        running := true, run := true, stopReq := false, seqNo := m.seqBase, stopLines := 0, startTs := m.ts, startSclk := sclkOf b
        due := false, delayed := false, lines := 0, badLines := 0, bank := [] }) b)

/-- MT_CTRL.RUN := 0 in RUN: the period is to close (R341). -/
def mtStop (b : Block) : Block :=
  updMeter (fun m => if m.running ∧ m.run then { m with run := false, stopReq := true } else m) b

/-- CFG_PEND: a configuration write waits for its CONFIG record. -/
def cfgBusy (m : Meter) : Bool := m.cfgPend.isSome || (match m.closing with | some k => k.cfg.isSome | none => false)

/-- A write of MT_PERIOD, MT_KEY or MT_UNIT_ID: applied while STOPPED, else shadowed until the close it forces
(R341, R342). -/
def mtConfig (c : MtCfg) (b : Block) : Block :=
  updMeter (fun m =>
    if !m.running then mtApply c m
    else if cfgBusy m then { m with irq := m.irq ||| 8 }
    else if periodOpen m then { m with cfgPend := some c }
    else { m with closing := m.closing.map (fun k => { k with cfg := some c }) }) b

/-- MT_REC_POP (R340). -/
def mtPop (b : Block) : Block := signNext (updMeter (fun m => { m with buf := m.buf.tail }) b)

/-- The meter port has accepted a write. -/
def mtOkay (b : Block) : Block := updMeter (fun m => { m with resp := .okay }) b

/-- METER_RUN (R341). -/
def actMeterRun (s : State) : Outcome := s.runM (fun _ b => mtRun (mtOkay b))

/-- METER_STOP (R341). -/
def actMeterStop (s : State) : Outcome := s.runM (fun _ b => mtStop (mtOkay b))

/-- METER_CONFIG_WRITE (R342). -/
def actMeterConfigWrite (c : MtCfg) (s : State) : Outcome := s.runM (fun _ b => mtConfig c (mtOkay b))

/-- METER_REC_POP (R340). -/
def actMeterRecPop (s : State) : Outcome := s.runM (fun _ b => mtPop (mtOkay b))

/-- The offsets of the meter port beyond its header. -/
def mtOffsets : List Nat := (List.range 18).map (fun i => 0x040 + 4 * i) ++ (List.range 32).map (fun i => 0x100 + 4 * i)

/-- A write at an offset of the meter port (Tables 12.4, 15.2, 15.13). -/
def mtWrite (o : Nat) (v : Word32) (b : Block) : Block :=
  match o with
  | 0x014 => updMeter (fun m => { m with errmask := v &&& 0x1FFF }) b
  | 0x01C => updMeter (fun m => { m with scratch := v }) b
  | 0x044 => if bitAt v 0 then mtRun b else mtStop b
  | 0x048 => mtConfig (.period v) b
  | 0x04C => mtConfig (.key v) b
  | 0x050 => mtConfig (.unitId false v) b
  | 0x054 => mtConfig (.unitId true v) b
  | 0x058 => updMeter (fun m => if m.run then m else { m with seqBase := setFld m.seqBase 0 32 v.toNat }) b
  | 0x05C => updMeter (fun m => if m.run then m else { m with seqBase := setFld m.seqBase 32 32 v.toNat }) b
  | 0x070 => updMeter (fun m => { m with thr := fld v 0 11 }) b
  | 0x074 => updMeter (fun m => { m with irq := m.irq &&& ~~~(v.setWidth 4) ||| (if m.running then 0 else 1) }) b
  | 0x084 => when (bitAt v 0) mtPop b
  | _ => b

/-- A write through the meter port (R368). -/
def mtpWrite (a : Nat) (v : Word32) (strb : BitVec 4) (b : Block) : Block :=
  if a % 4 ≠ 0 ∨ strb ≠ 0xF then updMeter (fun m => { m with resp := .slverr }) b
  else if a < 0x40 ∨ a ∈ mtOffsets then mtWrite a v (mtOkay b)
  else updMeter (fun m => { m with resp := .decerr }) b

/-- A word of the header that the meter port's space opens with (R416). -/
def mtHeader (p : Params) (b : Block) (o : Nat) : Word32 :=
  match o with
  | 0x000 => BitVec.ofNat 32 (6 * 2 ^ 24 + 1 * 2 ^ 16)
  | 0x004 => BitVec.ofNat 32 (1 * 2 ^ 24 + 2 * 2 ^ 16 + p.mtPatch % 2 ^ 16)
  | 0x008 => BitVec.ofNat 32 (b2n b.boot.minimal * 2 ^ 16 + 1 * 2 ^ 8)
  | 0x014 => b.meter.errmask
  | 0x018 => BitVec.ofNat 32 (b2n b.boot.lock)
  | 0x01C => b.meter.scratch
  | _ => 0

/-- MTR_IRQ (R340). -/
def mtrIrq (b : Block) : Bool := decide (b.meter.irq ≠ 0)

/-- The 128 bytes of a signed record (Table 12.2). -/
def signedBytes (x : MRec × BitVec 256) : Nat := recBytes x.1 + x.2.toNat * 2 ^ 768

/-- A register of Table 15.13 as the mirror presents it; what it does not present reads 0 (R344). -/
def mirrorView (p : Params) (m : Meter) (o : Nat) : Word32 :=
  match o with
  | 0x040 => BitVec.ofNat 32 (1 * 2 ^ 24 + 2 * 2 ^ 16 + p.mtPatch % 2 ^ 16)
  | 0x044 => BitVec.ofNat 32 (b2n m.run)
  | 0x048 => BitVec.ofNat 32 m.period
  | 0x050 => BitVec.ofNat 32 (fld m.unitId 0 32)
  | 0x054 => BitVec.ofNat 32 (fld m.unitId 32 32)
  | 0x060 => BitVec.ofNat 32 (fld m.seqNo 0 32)
  | 0x064 => BitVec.ofNat 32 (fld m.seqNo 32 32)
  | 0x068 => m.cfggen
  | 0x06C => BitVec.ofNat 32 (b2n m.running * 2 ^ 30 + b2n (cfgBusy m) * 2 ^ 29 + min m.buf.length 2047)
  | 0x078 => BitVec.ofNat 32 m.cntStretch
  | 0x07C => BitVec.ofNat 32 m.cntBad
  | 0x080 => BitVec.ofNat 32 m.cntKeyerr
  | _ => 0

/-- A register of Table 15.13 at the meter port (Table 12.4). -/
def mtView (p : Params) (m : Meter) (o : Nat) : Word32 :=
  match o with
  | 0x04C => mtKeyWord m
  | 0x058 => BitVec.ofNat 32 (fld m.seqBase 0 32)
  | 0x05C => BitVec.ofNat 32 (fld m.seqBase 32 32)
  | 0x070 => BitVec.ofNat 32 m.thr
  | 0x074 => m.irq.setWidth 32
  | _ =>
    if 0x100 ≤ o then BitVec.ofNat 32 (((m.buf.head?.map signedBytes).getD 0) / 2 ^ (8 * (o - 0x100)))
    else mirrorView p m o

/-- The word that a read of a LO word at the meter port latches (R400). -/
def mtPair (o : Nat) : Option Nat := if o = 0x058 then some 0x05C else if o = 0x060 then some 0x064 else none

/-- A read through the meter port (R368, R400, R416). -/
def mtpRead (p : Params) (a : Nat) (b : Block) : Block :=
  let m := b.meter
  if a % 4 ≠ 0 then updMeter (fun m => { m with resp := .slverr }) b
  else if a < 0x40 then updMeter (fun m => { m with resp := .okay, rdata := mtHeader p b a }) b
  else if a ∈ mtOffsets then
    let l := match mtPair a with
      | some h => Tbl.ins (Tbl.del m.latch h) h (mtView p m h)
      | none => Tbl.del m.latch a
    let v := ((m.latch.find? (fun x => x.1 = a)).map Prod.snd).getD (mtView p m a)
    updMeter (fun m => { m with resp := .okay, rdata := v, latch := l }) b
  else updMeter (fun m => { m with resp := .decerr, rdata := 0 }) b

end Sys2Proof.Machine
end

