-- ==== Sys2Proof/Machine/Observe.lean ====
section
/-! DEFINITION. Observation: counter clears and snapshots (R302 to R304), blocked-on snapshots (R322 to R324), the
trace's registers, staging, blocks and samples (R311 to R318). -/

namespace Sys2Proof.Machine

/-! ## Counters (R302, R304) -/

/-- The counter bank of the page at `base` becomes 0. -/
def clearBank (base : Nat) (b : Block) : Block :=
  { b with cnt := b.cnt.filter (fun x => !(decide (base + 0x100 ≤ x.1) && decide (x.1 < base + 0x300))) }

/-- The counters outside the banks that belong to the Keeper's, and its bank (R302, R303). -/
def zeroKeeper (b : Block) : Block :=
  let b := forEach (b.gov.doms.map Prod.fst) (fun d => updDom d (fun x => { x with dlyStarts := 0, dlyCyc := 0 })) (clearBank (kA 10 0) b)
  updLog (fun l => { l with cnt := [], dropped := 0 }) b

/-- The counters of the page at `base` become 0, now and again at the end of the cycle: the cycle's own counts are lost with
the rest (R302). -/
def clearPage (base : Nat) (b : Block) : Block :=
  clearBank base (updClk (fun k => { k with clrDue := if base ∈ k.clrDue then k.clrDue else k.clrDue ++ [base] }) b)

/-- KP_CNT_CTRL.CLR: the Keeper bank, the delay counters of every supply domain, the log counts (R302, R303). -/
def clearKeeper (b : Block) : Block := zeroKeeper (clearPage (kA 10 0) b)

/-- The clears of the cycle at its end (R302). -/
def clearCycle (b : Block) : Block :=
  let b := forEach b.clk.clrDue (fun a c => if a = kA 10 0 then zeroKeeper c else clearBank a c) b
  updClk (fun k => { k with clrDue := [] }) b

/-- COUNTER_CLEAR (R302). -/
def actCounterClear (tgt : CTarget) (s : State) : Outcome :=
  match tgt with
  | .keeper => s.keeperReg (kA 10 0x040) 1 false (fun _ b => clearKeeper b)
  | .wards t => s.wardReg t 6 0x040 1 false (fun _ w b => clearPage (wA w 6 0) b)
  | .hinge h => s.keeperReg (hA h 0x064) 1 false (fun p b => when (decide (h < p.nh)) (clearPage (hA h 0)) b)

/-- A write of KP_CNT_CTRL.SNAP: the order is sampled 40 fclk later. -/
def snapOrder (b : Block) : Block := { b with snapAt := b.snapAt ++ [b.clk.fclk + 40] }

/-- COUNTER_SNAPSHOT_ORDER (R304). -/
def actCounterSnapshotOrder (s : State) : Outcome := s.keeperReg (kA 10 0x040) 2 false (fun _ b => snapOrder b)

/-- Every unit copies its counters into its shadow bank. -/
def copyCounters (b : Block) : Block := { b with cntSh := b.cnt, snapTs := b.clk.ts }

/-- COUNTER_SNAPSHOT (R304), in the order's 40th fclk: the events that follow it in its cycle are copied with the cycle's end. -/
def actCounterSnapshot (s : State) : Outcome :=
  s.runK (fun _ b => when (decide (b.clk.fclk ∈ b.snapAt)) copyCounters b)

/-- The snapshots ordered for this cycle, after its events (R304). -/
def snapCycle (b : Block) : Block :=
  let b := when (decide (b.clk.fclk ∈ b.snapAt)) copyCounters b
  { b with snapAt := b.snapAt.filter (fun t => b.clk.fclk < t) }

/-! ## Blocked-on records (R323, Table 11.7) -/

/-- A record without a ring carries 0x1FFF. -/
def noRing : Nat := 0x1FFF

/-- The first Ward short of entries for a segment that waits, and how many it lacks. -/
def entShort (b : Block) (t : Nat) (g : Seg) : Nat × Nat :=
  let lack := fun (w : Nat) =>
    let need := Tbl.get 0 g.demand w
    if g.quota then (if need = 0 then 0 else entriesHeld b w t + need - quotaOf b t) else need - allocatable b w
  match (segWards g).find? (fun w => decide (lack w ≠ 0)) with
  | some w => (w, lack w)
  | none => ((segWards g).headD 0, 0)

/-- The entries an AHEAD, WAITSUB or FENCE awaits: of the oldest open step, of the awaited submission, of the scope. -/
def aheadWaits (g : Ring) : Nat := ((g.steps.find? (fun s => s.opened)).map (fun s => s.unsettled)).getD 0

/-- Entries of the submission that a WAITSUB awaits. -/
def waitSubWaits (b : Block) (r : Nat) (w : Nat × Word32) : Nat :=
  match ringInSlot b (rTenant (rng b r)) w.1 with
  | some q => ((subOf b q w.2).map (fun s => s.unsettled)).getD 0
  | none => 0

/-- Entries that a FENCE awaits. -/
def fenceWaits (b : Block) (r : Nat) (scope : Bool) : Nat :=
  let g := rng b r
  ((if scope then g.subs.takeWhile (fun s => s.subid ≠ g.walk.subid) else []).map (fun s => s.unsettled)).sum
    + ((walkSub b r).map (fun s => s.unsettled)).getD 0

/-- A value of 32 bits, saturating. -/
def sat32 (n : Nat) : Word32 := BitVec.ofNat 32 (min n (2 ^ 32 - 1))

/-- What a ring's walk waits for: RING_HASP, RING_ENTQ, RING_WAIT. -/
def blkWalk (p : Params) (b : Block) (r : Nat) : List BlkRec :=
  let g := rng b r
  let k := g.walk
  let t := rTenant g
  let mk := fun (kind : Nat) (w o v : Word32) (since : Word64) => BlkRec.mk kind t r w o v since
  let me := BitVec.ofNat 32 r
  match k.mode with
  | .waitHasp => match k.hold with
    | some x => [mk 1 me (BitVec.ofNat 32 (x.inst.getD (ownInst p b) * 2 ^ 12 + x.hasp)) x.target k.since]
    | none => []
  | .entq => match Tbl.get none b.segs r with
    | some s =>
      let x := entShort b t s
      [mk 2 me (BitVec.ofNat 32 x.1) (BitVec.ofNat 32 (b2n s.quota * 2 ^ 31 + min x.2 0xFFF)) s.since]
    | none => []
  | .waitAhead => [mk 3 me g.step (sat32 (aheadWaits g)) k.since]
  | .waitSub => match (walkSub b r).bind (fun s => s.waitOn) with
    | some w => [mk 3 (me ||| 0x10000) w.2 (sat32 (waitSubWaits b r w)) k.since]
    | none => []
  | .waitFence scope _ => [mk 3 (me ||| 0x20000) 0 (sat32 (fenceWaits b r scope)) k.since]
  | _ => []

/-- The records of a ring at its home Ward, with RING_HALT. -/
def blkRing (p : Params) (b : Block) (r : Nat) : List BlkRec :=
  let g := rng b r
  blkWalk p b r ++ (if g.haltKind = 0 then [] else
    [⟨4, rTenant g, r, BitVec.ofNat 32 r, BitVec.ofNat 32 g.haltKind, g.halt.setWidth 32, g.walk.since⟩])

/-- The ring of an entry's waiter; none for an entry of another instance's ring. -/
def entRing (e : Entry) : Nat := if e.d.rinst.isSome then noRing else e.d.ring

/-- PORT_HASP, HOL and PORT_RUN of a port. -/
def blkPort (p : Params) (b : Block) (n : Nat) : List BlkRec :=
  let q := prt b n
  let minRun := rdf p b (wA (portWard p n) 0 0x0DC) 0 16 * 2048
  (match q.wait with
    | some k =>
      if k.released then [] else
        let e := ent b k.handle
        let tw := taskWord p (some n) k.gen k.handle
        let id := BitVec.ofNat 32 (k.inst.getD (ownInst p b) * 2 ^ 12 + k.hasp)
        BlkRec.mk 5 e.d.tenant (entRing e) tw id k.target k.since
          :: (match q.iq.find? (fun x => decide (x.handle = k.handle)) with
            | some x => match selfBlock b q x ⟨k.hasp, k.inst, k.target⟩ with
              | some h => [⟨6, e.d.tenant, entRing e, tw, wordOf p b h, BitVec.ofNat 32 k.hasp, k.since⟩]
              | none => []
            | none => [])
    | none => [])
  ++ (match q.run with
    | some r =>
      let e := ent b r.handle
      if minRun ≤ b.clk.fclk - r.commit then
        [⟨8, e.d.tenant, entRing e, taskWord p (some n) r.gen r.handle, BitVec.ofNat 32 n, sat32 (b.clk.fclk - r.commit), r.since⟩]
      else []
    | none => [])

/-- ENTRY of a sealed PENDING entry. -/
def blkEntry (p : Params) (b : Block) (h : Nat) : BlkRec :=
  let e := ent b h
  let id := match e.d.sig.head? with
    | some g => BitVec.ofNat 32 (g.inst.getD (ownInst p b) * 2 ^ 12 + g.hasp)
    | none => 0xFFFFFFFF
  let imp := (fedOf b (homeOf h)).imports.any (fun x => decide (x.1 = h) && decide (x.2.2 ≠ 0))
  ⟨7, e.d.tenant, entRing e, wordOf p b h, id,
    BitVec.ofNat 32 (e.tumbler % 256 + b2n e.guardWait.isSome * 2 ^ 8 + b2n imp * 2 ^ 9), e.pendSince⟩

/-- KEY of a request that waits in pool `k` of a port. -/
def blkKey (n k : Nat) (pool : KPool) (q : KReq) : BlkRec :=
  ⟨9, pool.tenant, noRing, BitVec.ofNat 32 q.reqport, BitVec.ofNat 32 (n * 2 ^ 4 + k),
    BitVec.ofNat 32 (pool.free % 2 ^ 13 * 2 ^ 16 + q.count % 2 ^ 13), q.sinceTs⟩

/-- CH_RETRY of the sending endpoint at port `n`. -/
def blkChan (p : Params) (b : Block) (n : Nat) (key : ChKey) (c : Chan) : BlkRec :=
  ⟨10, c.tenant, noRing, BitVec.ofNat 32 n, BitVec.ofNat 32 (stormRecv p b c % 4096 * 2 ^ 14 + key.ch % 2 ^ 14), sat32 c.retry, c.retrySince⟩

/-- CB_SHORT of queue `q` of Ward `w`. -/
def blkQueue (p : Params) (b : Block) (w q : Nat) (c : CQ) : BlkRec :=
  ⟨11, c.tenant, c.ring, wordOf p b c.entry, BitVec.ofNat 32 (qidOf w q c), sat32 (c.n - c.doneCnt), c.since⟩

/-- By KIND, then SINCE, oldest first. -/
def blkBefore (x y : BlkRec) : Bool :=
  if x.kind ≠ y.kind then decide (x.kind < y.kind) else decide (x.since.toNat ≤ y.since.toNat)

/-- A record put behind those that come before it. -/
def blkIns (x : BlkRec) : List BlkRec → List BlkRec
  | [] => [x]
  | y :: l => if blkBefore y x then y :: blkIns x l else x :: y :: l

/-- Records in the order of R324. -/
def blkSort (l : List BlkRec) : List BlkRec := l.foldl (fun a x => blkIns x a) []

/-- Every wait that Ward `w` holds but ENTRY. -/
def blkOthers (p : Params) (b : Block) (w : Nat) : List BlkRec :=
  b.rings.flatMap (fun x => if rHome x.2 = w then blkRing p b x.1 else [])
  ++ b.ports.flatMap (fun x => if portWard p x.1 = w then blkPort p b x.1 else [])
  ++ b.kpool.flatMap (fun x => if portWard p (x.1 / 16) = w then x.2.waiting.map (blkKey (x.1 / 16) (x.1 % 16) x.2) else [])
  ++ (allChans b).filterMap (fun x => match txPortOf x.2 with
    | some n => if portWard p n = w ∧ 16 ≤ x.2.retry then some (blkChan p b n x.1 x.2) else none
    | none => none)
  ++ b.cq.filterMap (fun x =>
    if x.1 / 64 = w ∧ x.2.st = .opened ∧ x.2.doneCnt < x.2.n then some (blkQueue p b w (x.1 % 64) x.2) else none)

/-- The ENTRY records of Ward `w`, longest pending first. -/
def blkEntries (p : Params) (b : Block) (w : Nat) : List BlkRec :=
  blkSort ((b.ents.filter (fun x => decide (homeOf x.1 = w) && decide (x.2.st = .pending) && x.2.isSealed)).map (fun x => blkEntry p b x.1))

/-- A Ward builds its record set (R322, R324). -/
def blkBuild (p : Params) (w : Nat) (b : Block) : Block :=
  let es := blkEntries p b w
  let l := blkSort (blkOthers p b w ++ es.take 64)
  { b with blk := { b.blk with
      recs := Tbl.set [] b.blk.recs w (l.take 256), ts := Tbl.set 0 b.blk.ts w b.clk.ts
      ovf := Tbl.set 0 b.blk.ovf w (satAdd 0xFFFF (es.length - 64) (l.length - 256)) } }

/-- BLOCKED_ON_SNAP_ORDER (R322). -/
def actBlockedOnSnapOrder (s : State) : Outcome := s.keeperReg (kA 8 0x060) 1 false (fun _ b => blkOrder b)

/-- Every Ward builds its record set. -/
def blkAll (p : Params) (b : Block) : Block :=
  let b := forEach ((List.range p.nw).filter (wardUp p b)) (blkBuild p) b
  { b with blk := { b.blk with builtAt := some b.clk.fclk } }

/-- BLOCKED_ON_SNAPSHOT (R322), in the order's 40th fclk: the events that follow it in its cycle are seen with the cycle's
end. -/
def actBlockedOnSnapshot (s : State) : Outcome :=
  s.runK (fun p b => when (decide (b.clk.fclk ∈ b.blk.orderAt)) (blkAll p) b)

/-- The record sets ordered for this cycle, after its events (R322). -/
def blkCycle (p : Params) (b : Block) : Block :=
  let b := when (decide (b.clk.fclk ∈ b.blk.orderAt)) (blkAll p) b
  { b with blk := { b.blk with orderAt := b.blk.orderAt.filter (fun t => b.clk.fclk < t) } }

/-- BLOCKED_ON_DONE (R322). -/
def actBlockedOnDone (s : State) : Outcome :=
  s.runK (fun _ b => if b.blk.builtAt.isSome then { b with blk := { b.blk with builtAt := none, done := true } } else b)

/-! ## Trace blocks (R312, R314) -/

/-- The block of 16 slots that a staged entry lies in. -/
def blkOfSlot (x : TrSlot) : Bool × Nat × Nat := (x.post, x.page, x.slot / 16)

/-- The staged entries as runs of one block each, in order of placement. -/
def trRuns (l : List TrSlot) : List (List TrSlot) :=
  l.foldr (fun x acc => match acc with
    | (y :: r) :: rest => if blkOfSlot x = blkOfSlot y then (x :: y :: r) :: rest else [x] :: (y :: r) :: rest
    | rest => [x] :: rest) []

/-- Slots of a run's block that lie behind its last entry. -/
def runPads (l : List TrSlot) : Nat := match l.getLast? with | some x => 15 - x.slot % 16 | none => 0

/-- A block may be written: full, waiting for 1,024 fclk, or the last one after the stop (R312, R315). -/
def runDue (b : Block) (l : List TrSlot) : Bool :=
  decide (runPads l = 0) || decide (b.trace.state = .stopped)
    || (match l.head? with | some x => decide (x.at_ + 1024 ≤ b.clk.fclk) | none => false)

/-- The address of a block (R311, R314). -/
def trAddr (p : Params) (b : Block) (x : TrSlot) : Nat :=
  rdf p b (trA 0x054) 0 16 * 2 ^ 32 + (rd p b (trA 0x050)).toNat
    + ((if x.post then trPre p b else 0) + x.page) * 4096 + x.slot / 16 * 256

/-- PAD entries take their slots: the ring's pointer moves on, the post region's count towards its quota. -/
def padSlots (p : Params) (post : Bool) (n : Nat) (b : Block) : Block :=
  if n = 0 then b
  else if post then
    let c := b.trace.postCount + n
    when (decide (c = trPost p b * 256) && decide (b.trace.state = .post)) (trStop p)
      (updTr (fun t => { t with postCount := c, full := if c % 256 = 0 then none else t.full }) b)
  else
    let t := b.trace
    if t.preSlot + n < 256 then updTr (fun t => { t with preSlot := t.preSlot + n }) b
    else
      let pg := if t.prePage + 1 = trPre p b then 0 else t.prePage + 1
      updTr (fun t => { t with
        preSlot := 0, prePage := pg, preWrap := t.preWrap || decide (pg = 0)
        full := if t.state = .armed then none else t.full }) b

/-- SRCK and SRCI of a source (Tables 10.6, 11.3). -/
def srcByte : UnitId → Nat
  | .keeper => 0
  | .ward w => 2 ^ 6 + w % 2 ^ 6
  | .hinge h => 2 ^ 7 + h % 2 ^ 6

/-- The 16 bytes of an entry; a FULL entry holds nothing but its timestamp (Table 11.3, R308). -/
def trBytes (x : TrSlot) : BitVec 128 :=
  let e := x.ent
  if e.kind = 0 then BitVec.ofNat 128 (e.ts.toNat * 2 ^ 64)
  else BitVec.ofNat 128 ((BitVec.ofInt 32 x.delta).toNat + e.kind % 2 ^ 8 * 2 ^ 32 + srcByte e.src * 2 ^ 40 + e.layer % 2 ^ 16 * 2 ^ 48
    + e.opid % 2 ^ 16 * 2 ^ 64 + e.tenant % 2 ^ 8 * 2 ^ 80 + e.aux % 2 ^ 8 * 2 ^ 88 + e.arg.toNat * 2 ^ 96)

/-- The 16 bytes of a PAD entry (R309, Table 11.4). -/
def trPad : BitVec 128 := BitVec.ofNat 128 (0x0F * 2 ^ 32 + 0xFFFF * 2 ^ 48 + 0xFFFF * 2 ^ 64)

/-- One block is written through the Keeper's MP, completed with PAD entries. -/
def writeRun (p : Params) (l : List TrSlot) (b : Block) : Block :=
  match l.head? with
  | none => b
  | some x =>
    let n := runPads l
    let b := updTr (fun t => { t with staged := t.staged.filter (fun y => y ∉ l) }) b
    emit (.traceBlock (trAddr p b x) (l.map trBytes ++ List.replicate n trPad) (sysAx p b .keeper)) (padSlots p x.post n b)

/-- TRACE_BLOCK_WRITE (R312): the first block that is due. -/
def actTraceBlockWrite (s : State) : Outcome :=
  s.runK (fun p b => match (trRuns b.trace.staged).find? (runDue b) with
    | some l => writeRun p l b
    | none => b)

/-- TRACE_WRITE_RESPONSE (R318). -/
def actTraceWriteResponse (resp : Resp) (s : State) : Outcome :=
  s.runK (fun _ b => when (decide (resp = .fault)) (updTr (fun t => { t with werr := satAdd (2 ^ 32 - 1) t.werr 1 })) b)

/-! ## Trace control (R314, R316) -/

/-- EN := 1 in OFF arms the trace. -/
def trEnable (b : Block) : Block :=
  if b.trace.state = .off then
    updTr (fun t => { t with
      state := .armed, preWrap := false, prePage := 0, preSlot := 0, postCount := 0, full := none, fifo := [], lost := [], staged := [] }) b
  else b

/-- EN := 0 returns to OFF after the staged entries have been written. -/
def trDisable (p : Params) (b : Block) : Block :=
  if b.trace.state = .off then b
  else
    updTr (fun t => { t with state := .off, fifo := [], lost := [] }) (forEach (trRuns b.trace.staged) (writeRun p) b)

/-- A write of TR_CTRL. -/
def trCtrl (p : Params) (v : Word32) (b : Block) : Block :=
  let b := wr p (trA 0x040) (v &&& 1) b
  when (bitAt v 1) (trTrigger p 0 0) (if bitAt v 0 then trEnable b else trDisable p b)

/-- TRACE_ENABLE (R314). -/
def actTraceEnable (s : State) : Outcome := s.keeperReg (trA 0x040) 1 false (fun p b => trCtrl p 1 b)

/-- TRACE_DISABLE (R314). -/
def actTraceDisable (s : State) : Outcome := s.keeperReg (trA 0x040) 0 false (fun p b => trCtrl p 0 b)

/-- TRACE_TRIG_WRITE (R316): EN keeps its value. -/
def actTraceTrigWrite (s : State) : Outcome :=
  s.runReg (fun p b =>
    let v := rd p b (trA 0x040) &&& 1 ||| 2
    regWrite (trA 0x040) v [] [trA 0x040 / 0x1000] (trCtrl p v) b)

/-! ## Staging (R312, R313, R316) -/

/-- The block with the Keeper's DROP entry placed when entries were lost at the staging buffer (R313). -/
def dropAhead (p : Params) (b : Block) : Block :=
  let l := Tbl.get (0, (0 : Word64)) b.trace.lost 0
  if l.1 = 0 then b
  else trPlace p ⟨l.2, 0x01, .keeper, 0xFFFF, 0xFFFF, 0, 0, sat32 l.1⟩ (updTr (fun t => { t with lost := Tbl.set (0, 0) t.lost 0 (0, 0) }) b)

/-- An entry lost at a FIFO or at the staging buffer (R313). -/
def trLose (u : Nat) (e : TrEnt) (b : Block) : Block :=
  bump (trDropCnt u) 1 (updTr (fun t => { t with
    lost := Tbl.upd (0, 0) t.lost u (fun l => (l.1 + 1, if l.1 = 0 then e.ts else l.2)) }) b)

/-- A MARK entry that meets TR_TRIG_MASK and TR_TRIG_TAG triggers when it is staged (R316). -/
def markTrigger (p : Params) (e : TrEnt) (b : Block) : Bool :=
  bitAt (rd p b (trA 0x070)) 30 && decide (e.kind = 0x03)
    && decide (e.arg &&& rd p b (trA 0x074) = rd p b (trA 0x078) &&& rd p b (trA 0x074))

/-- One entry placed by the Keeper, behind the trigger it causes. -/
def stageOne (p : Params) (e : TrEnt) (b : Block) : Block :=
  if b.trace.staged.length < 4096 then
    let b := dropAhead p b
    trPlace p e (when (markTrigger p e b) (trTrigger p 2 0) b)
  else trLose 0 e b

/-- The first entry of the FIFO of unit `u` leaves it; a Ward's crosses the crossbar (R306, R312). -/
def stageFrom (p : Params) (u : Nat) (b : Block) : Block :=
  match Tbl.get [] b.trace.fifo u with
  | [] => b
  | e :: l =>
    let b := updTr (fun t => { t with fifo := Tbl.set [] t.fifo u l }) b
    stageOne p e (if u = 0 then b else xtx (some (u - 1)) 16 b)

/-- TRACE_ENTRY_STAGE (R312): up to 4 entries, the Keeper's own before one from each Ward; nothing is staged outside
ARMED and POST (R314, R315). -/
def actTraceEntryStage (s : State) : Outcome :=
  s.runK (fun p b =>
    if b.trace.state = .armed ∨ b.trace.state = .post then
      let k := (Tbl.get [] b.trace.fifo 0).length
      forEach ((List.replicate k 0 ++ (b.trace.fifo.map Prod.fst).filter (· ≠ 0)).take 4) (stageFrom p) b
    else b)

/-- TRACE_FIFO_DROP (R313): an entry of the unit finds its FIFO, or the staging buffer, full. -/
def actTraceFifoDrop (u : UnitId) (s : State) : Outcome :=
  s.run (fun p b => match u with | .keeper => keeperUp b | .ward w => wardUp p b w | .hinge _ => false) (fun _ b =>
    let n := unitNo u
    let full : Bool := match u with
      | .keeper => decide (4096 ≤ b.trace.staged.length)
      | _ => decide (trCap n ≤ (Tbl.get [] b.trace.fifo n).length)
    let e : TrEnt := ⟨b.clk.ts, 0, u, 0, 0, 0, 0, 0⟩
    if full ∧ (b.trace.state = .armed ∨ b.trace.state = .post) then trLose n e b else b)

/-! ## Samples (R317) -/

/-- TR_CFG.SAMPLE_LOG2 in fclk. -/
def samplePer (p : Params) (b : Block) : Nat := 2 ^ (clampNat 10 24 (rdf p b (trA 0x060) 16 5) + 1)

/-- SAMPLE_PERIOD (R317). -/
def actSamplePeriod (w : Nat) (s : State) : Outcome :=
  s.runW w (fun p b =>
    if trMask p b (.ward w) ∧ (b.trace.state = .armed ∨ b.trace.state = .post)
        ∧ Tbl.get 0 b.trace.sampAt w + samplePer p b ≤ b.clk.fclk then
      let i := Tbl.get 0 b.trace.sampNext w % p.ne
      let n := w * p.ne + i
      let run := runEnt b n
      let arg := BitVec.ofNat 32 (b2n run.isSome * 2 ^ 31 + i * 2 ^ 25 + min (2 ^ 25 - 1) (prt b n).sampleBusy)
      let e : TrEnt := match run with
        | some x => ⟨b.clk.ts, 0x80, .ward w, x.d.layer, x.d.opid, x.d.tenant, 0, arg⟩
        | none => ⟨b.clk.ts, 0x80, .ward w, 0xFFFF, 0xFFFF, 0, 0, arg⟩
      let b := updTr (fun t => { t with
        sampNext := Tbl.set 0 t.sampNext w ((i + 1) % p.ne), sampAt := Tbl.set 0 t.sampAt w b.clk.fclk }) b
      trForm p (.ward w) e (updPort n (fun q => { q with sampleBusy := 0 }) b)
    else b)

end Sys2Proof.Machine
end

