-- ==== Sys2Proof/Machine/RegView.lean ====
section
/-! DEFINITION. What a read of a register returns, without the read's own effects (chapter 15, Tables 4.1, 6.8, 7.1,
7.4, 8.2, 8.6, 10.6, 11.5, 14.3). -/

namespace Sys2Proof.Machine

/-- A number as a word, its low 32 bits. -/
def w32 (n : Nat) : Word32 := BitVec.ofNat 32 n

/-- Word `i` of a number. -/
def nthWord (n i : Nat) : Word32 := BitVec.ofNat 32 (n / 2 ^ (32 * i))

/-! ## Page headers (R398, R402) -/

/-- PG_ID: type and index of a page. -/
def pageId : Page → Nat × Nat
  | .keeper _ => (1, 0)
  | .ward w _ => (2, w)
  | .bcast _ => (3, 0)
  | .group g _ => (4, g)
  | .hinge h => (5, h)
  | .mirror => (6, 0)
  | .trace => (7, 0)
  | .dump => (8, 0)
  | .tenant t => (9, t)

/-- PG_CAP.PAGE. -/
def pageNo : Page → Nat
  | .keeper q | .ward _ q | .bcast q | .group _ q => q
  | _ => 0

/-- PG_CAP.UNITS. -/
def pageUnits (p : Params) (b : Block) : Page → Nat
  | .bcast _ => (members p b .bcast).length
  | .group g _ => (members p b (.group g)).length
  | _ => 1

/-- PG_STAT.FENCED. -/
def pageFenced (b : Block) : Page → Bool
  | .ward w _ => fenced b w
  | _ => false

/-- PG_LOCK.HAS_RWL. -/
def hasRwl (p : Params) (g : Page) : Bool := (pageRows p g).any (fun x => x.2.any (fun f => decide (f.acc = .rwl)))

/-- A word of a page header. -/
def headerView (p : Params) (b : Block) (g : Page) (a : Nat) : Word32 :=
  match a % 0x1000 with
  | 0x000 => w32 ((pageId g).1 * 2 ^ 24 + (pageId g).2 * 2 ^ 16)
  | 0x004 => match g with
    | .mirror => w32 (1 * 2 ^ 24 + 2 * 2 ^ 16 + p.mtPatch % 2 ^ 16)
    | _ => w32 (3 * 2 ^ 24 + 1 * 2 ^ 16 + p.patch % 2 ^ 16)
  | 0x008 => w32 (b2n b.boot.minimal * 2 ^ 16 + pageUnits p b g * 2 ^ 8 + pageNo g)
  | 0x00C => w32 (b2n (pageFenced b g) * 2 + b2n (Tbl.get false b.mgt.bdiff (a / 0x1000)))
  | 0x010 => rd p b a
  | 0x014 => rd p b a
  | 0x018 => w32 (b2n (hasRwl p g) * 2 + b2n b.boot.lock)
  | 0x01C => rd p b a
  | _ => 0

/-! ## Counters (R303, R304) -/

/-- A counter word: 64-bit counters as LO and HI, 32-bit ones whole; the shadow bank while VIEW is 1. -/
def cntView (view : Bool) (b : Block) (a : Nat) : Word32 :=
  let t := if view then b.cntSh else b.cnt
  if a % 0x1000 < 0x200 then nthWord (Tbl.get 0 t (a / 8 * 8)) (a / 4 % 2) else w32 (Tbl.get 0 t a)

/-! ## Keeper pages -/

/-- KP_BOOT.STATE (Table 14.3). -/
def bootNo : BootState → Nat
  | .scrub => 0
  | .selftest => 1
  | .linkup => 2
  | .ready => 3
  | .failed => 4

/-- KP_DBOLT_STAT.STATE. -/
def dbNo : DbState → Nat
  | .run => 0
  | .drain => 1
  | .quiesced => 2
  | .fault => 3

/-- KP_CMT_CTRL.VIEW (R391). -/
def viewWork (p : Params) (b : Block) : Bool := bitAt (rd p b (kA 0 0x084)) 0

/-- Enabled rings of a tenant, ascending. -/
def tenRings (b : Block) (t : Nat) : List Ring := (b.rings.filter (fun x => x.2.enable && decide (rTenant x.2 = t))).map Prod.snd

/-- A Keeper-scope shadow differs from a working copy (R392). -/
def keeperPend (b : Block) : Bool :=
  b.pcls.any (fun x => decide (x.2.shadow ≠ x.2.work))
    || b.rings.any (fun x => x.2.enable && decide (x.2.gmode ≠ (ten b (rTenant x.2)).gmode))

/-- Page 0 (Table 15.3). -/
def view0 (p : Params) (b : Block) (o : Nat) : Word32 :=
  let t := b.boot
  match o with
  | 0x040 => w32 (3 * 2 ^ 24 + 1 * 2 ^ 16 + p.patch % 2 ^ 16)
  | 0x044 => w32 (p.nw * 2 ^ 26 + p.ne * 2 ^ 19 + p.nh * 2 ^ 15 + evDepth p * 2 ^ 7)
  | 0x048 => w32 (b2n t.lock)
  | 0x04C => w32 (bootNo t.state * 2 ^ 29 + b2n t.minimal * 2 ^ 28 + t.reason * 2 ^ 24 + t.attempts * 2 ^ 22 + t.hfail.toNat)
  | 0x050 => w32 (fld t.fence 0 32)
  | 0x054 => w32 (fld t.fence 32 16)
  | 0x05C => w32 (b2n t.hard.isSome * 2 ^ 31 + t.lane.getD 2 0 * 2 ^ 20 + t.lane.getD 1 0 * 2 ^ 10 + t.lane.getD 0 0)
  | 0x088 => w32 (b2n (keeperPend b))
  | 0x08C => w32 (fld b.cmtTs 0 32)
  | 0x090 => w32 (fld b.cmtTs 32 32)
  | _ => rd p b (kA 0 o)

/-- Word Dk of a ring descriptor (Table 4.1). -/
def ringWord (g : Ring) (k : Nat) : Word32 :=
  match k with
  | 0 => g.d0
  | 1 => g.d1
  | 2 => g.d2
  | 3 => g.d3
  | 4 => g.d4
  | 5 => w32 (b2n g.enable)
  | 8 => w32 (g.rptr.toNat * 2 ^ 16 + g.fptr.toNat)
  | 9 => w32 (outstanding g * 2 ^ 16 + g.wptr.toNat)
  | 10 => w32 (openSteps g * 2 ^ 12 + g.haltKind * 2 ^ 8 + g.halt.toNat)
  | 11 => g.step
  | 12 => w32 g.walk.off
  | 13 => g.walk.subid
  | 14 => (g.walk.loops[0]?).elim 0 (fun l => l.iter)
  | 15 => (g.walk.loops[1]?).elim 0 (fun l => l.iter)
  | _ => 0

/-- Page 1: D0 to D7, or D8 to D15 with HALF = 1. -/
def view1 (p : Params) (b : Block) (o : Nat) : Word32 :=
  if o = 0x040 then rd p b (kA 1 o)
  else ringWord (rng b (ringSel p b)) ((o - 0x044) / 4 + (if bitAt (rd p b (kA 1 0x040)) 16 then 8 else 0))

/-- KP_TEN_SEL.TENANT. -/
def tenSel (p : Params) (b : Block) : Nat := rdf p b (kA 2 0x040) 0 8

/-- Page 2 (Table 8.2); GUARD_MODE as R391 says. -/
def view2 (p : Params) (b : Block) (o : Nat) : Word32 :=
  let t := ten b (tenSel p b)
  let rs := tenRings b (tenSel p b)
  match o with
  | 0x044 =>
    let gm := if viewWork p b then (rs.head?.map (fun r => r.gmode)).getD t.gmode else t.gmode
    w32 (b2n t.en * 2 ^ 31 + b2n t.lcOk * 2 ^ 30 + b2n t.preemptible * 2 ^ 29 + gm)
  | 0x048 => w32 (t.chmask.toNat * 2 ^ 16 + t.waymask.toNat)
  | 0x04C => w32 t.weight
  | 0x050 => w32 (min 2048 t.ttq)
  | 0x054 => w32 rs.length
  | _ => rd p b (kA 2 o)

/-- KP_PCL_SEL.CLASS and RANK. -/
def pclSel (p : Params) (b : Block) : Nat × Nat := (rdf p b (kA 3 0x040) 0 12, rdf p b (kA 3 0x040) 16 3)

/-- Page 3: the shadow, or the working copy while VIEW is 1. -/
def view3 (p : Params) (b : Block) (o : Nat) : Word32 :=
  let x := pcl b (pclSel p b).1
  let c := if viewWork p b then x.work else x.shadow
  let k := Tbl.get {} c.ranks (pclSel p b).2
  match o with
  | 0x044 => w32 (b2n k.v * 2 ^ 31 + k.ward)
  | 0x048 => w32 (fld k.mask 0 32)
  | 0x04C => w32 (fld k.mask 32 32)
  | 0x050 => w32 (b2n c.remote * 2 ^ 31 + c.rinst * 2 ^ 16 + c.tenant)
  | _ => rd p b (kA 3 o)

/-- KP_GOV_SEL.DOMAIN. -/
def govSel (p : Params) (b : Block) : Nat := rdf p b (kA 4 0x040) 0 4

/-- Page 4 (Table 15.5). -/
def view4 (p : Params) (b : Block) (o : Nat) : Word32 :=
  let d := dmn b (govSel p b)
  match o with
  | 0x044 => w32 d.starts
  | 0x048 => w32 d.limit
  | 0x04C => w32 d.shift
  | 0x050 => w32 d.dlyStarts
  | 0x054 => nthWord d.dlyCyc 0
  | 0x058 => nthWord d.dlyCyc 1
  | _ => if 0x080 ≤ o ∧ o < 0x100 ∧ o % 8 = 0 then w32 (p.eclFact.getD ((o - 0x080) / 8) 0 % 2 ^ 16) else rd p b (kA 4 o)

/-- Page 5 (Table 7.1). -/
def view5 (p : Params) (b : Block) (o : Nat) : Word32 :=
  let h := haspSel p b
  let x := hsp b h
  let ws := waitersOn b h
  match o with
  | 0x044 => x.count
  | 0x048 => w32 (b2n x.v * 2 ^ 31 + x.tenant)
  | 0x04C => w32 (x.ovf * 2 ^ 16 + ws.length)
  | 0x050 => match ws.map (fun w => w.target.toNat) with
    | [] => 0
    | t :: l => w32 (l.foldl min t)
  | 0x064 => w32 b.preIgnored
  | _ => rd p b (kA 5 o)

/-- KP_ROUTE_SEL.INST. -/
def routeSel (p : Params) (b : Block) : Nat := rdf p b (kA 6 0x044) 0 6

/-- Page 6 (Table 15.7). -/
def view6 (p : Params) (b : Block) (o : Nat) : Word32 :=
  if o = 0x048 then w32 (b2n (rte b (routeSel p b)).v * 2 ^ 31 + (rte b (routeSel p b)).hinge) else rd p b (kA 6 o)

/-- The bytes of a log record (Table 10.6). -/
def logBytes (r : LogRec) : Nat :=
  r.ts.toNat + r.status.toNat * 2 ^ 64
  + (r.kind * 16 + b2n r.handleV * 8 + b2n r.ringV * 4 + b2n r.rootV * 2 + b2n r.overrun) * 2 ^ 72 + srcByte r.src * 2 ^ 80
  + r.tenant % 256 * 2 ^ 88 + r.ring % 2 ^ 13 * 2 ^ 96 + r.layer % 2 ^ 16 * 2 ^ 112 + r.subid.toNat * 2 ^ 128
  + r.handle.toNat * 2 ^ 160 + r.aux.toNat * 2 ^ 192 + r.opid % 2 ^ 16 * 2 ^ 224 + r.objk * 2 ^ 240

/-- Page 7 (Table 15.8). -/
def view7 (p : Params) (b : Block) (o : Nat) : Word32 :=
  let l := b.log
  if o < 0x060 then (match l.recs.head? with | some r => nthWord (logBytes r) ((o - 0x040) / 4) | none => 0)
  else if 0x080 ≤ o ∧ o < 0x090 then l.lr.getD ((o - 0x080) / 4) 0
  else match o with
    | 0x064 => w32 (b2n l.failed * 2 ^ 31 + b2n ((l.recs.head?.map LogRec.dmg).getD false) * 2 ^ 30 + l.recs.length)
    | 0x068 => w32 l.dropped
    | 0x074 => w32 (Tbl.get 0 l.cnt (rdf p b (kA 7 0x070) 0 8))
    | 0x090 => w32 l.lrOvf
    | _ => rd p b (kA 7 o)

/-- Page 8 (Table 15.9). -/
def view8 (p : Params) (b : Block) (o : Nat) : Word32 :=
  let d := b.dbolt
  match o with
  | 0x044 => w32 (dbNo d.state * 2 ^ 30 + b2n d.discFault * 4 + b2n d.b * 2 + b2n d.a)
  | 0x048 => w32 d.short
  | 0x054 => w32 (b2n b.hang.hung * 2 ^ 31 + b.hang.ring)
  | 0x058 => w32 b.hang.count
  | 0x064 => w32 (b2n b.blk.done)
  | _ => rd p b (kA 8 o)

/-- Page 9 (Table 15.9). -/
def view9 (p : Params) (b : Block) (o : Nat) : Word32 :=
  let c := b.cap
  if 0x080 ≤ o then nthWord c.capRec.toNat ((o - 0x080) / 4)
  else match o with
    | 0x040 => w32 (b2n c.valid * 2 ^ 31 + c.missed)
    | 0x048 => w32 (c.status.toNat * 2 ^ 24 + c.haltKind * 2 ^ 20 + c.ring)
    | 0x04C => w32 c.off
    | 0x050 => nthWord c.va 0
    | 0x054 => nthWord c.va 1
    | _ => rd p b (kA 9 o)

/-- Page 10 (Tables 15.9, 11.2). -/
def view10 (p : Params) (b : Block) (o : Nat) : Word32 :=
  if 0x100 ≤ o then cntView (bitAt (rd p b (kA 10 0x040)) 2) b (kA 10 o)
  else match o with
    | 0x044 => w32 (fld b.snapTs 0 32)
    | 0x048 => w32 (fld b.snapTs 32 32)
    | _ => rd p b (kA 10 o)

/-- A register of Keeper page `q`. -/
def keeperView (p : Params) (b : Block) (q o : Nat) : Word32 :=
  match q with
  | 0 => view0 p b o
  | 1 => view1 p b o
  | 2 => view2 p b o
  | 3 => view3 p b o
  | 4 => view4 p b o
  | 5 => view5 p b o
  | 6 => view6 p b o
  | 7 => view7 p b o
  | 8 => view8 p b o
  | 9 => view9 p b o
  | _ => view10 p b o

/-! ## Ward pages -/

/-- The working copy of WD_IQ_CFG. -/
def iqWorkOf (b : Block) (w : Nat) : Word32 := Tbl.get 0x102 b.iqWork w

/-- A shadow of the Ward differs from its working copy (R392). -/
def wardPend (p : Params) (b : Block) (w : Nat) : Bool := decide (rd p b (wA w 0 0x0B4) ≠ iqWorkOf b w)

/-- Page 0 (Table 15.10); WD_IQ_CFG.STAGE reads 0 in minimal mode (R387). -/
def wview0 (p : Params) (b : Block) (w o : Nat) : Word32 :=
  match o with
  | 0x0B0 => w32 (b2n (wardPend p b w))
  | 0x0B4 =>
    let v := if viewWork p b then iqWorkOf b w else rd p b (wA w 0 o)
    if b.boot.minimal then v &&& 0xFF else v
  | 0x0B8 => w32 (p.lat.getD w 4)
  | 0x0E0 => w32 ((480 - blocksUsed b w) * 2 ^ 16 + ((List.range 64).countP (queueFree b w) - heldOf b Seg.queues w))
  | _ => rd p b (wA w 0 o)

/-- WD_SLOT_SEL.SLOT. -/
def slotSel (p : Params) (b : Block) (w : Nat) : Nat := rdf p b (wA w 1 0x040) 0 12

/-- Page 1: slots. -/
def wview1 (p : Params) (b : Block) (w o : Nat) : Word32 :=
  let s := slt b w (slotSel p b w)
  match o with
  | 0x044 => w32 (b2n s.v * 2 ^ 31 + b2n s.f * 2 ^ 30 + b2n s.c * 2 ^ 29 + s.tenant % 256 * 2 ^ 16 + s.fillgen.toNat)
  | 0x048 => s.value
  | _ => rd p b (wA w 1 o)

/-- The flit of the popped item now in RDATA; past the last one it reads 0. -/
def popFlit (x : MqPop) : Nat := ((x.flits[x.flit]?).map BitVec.toNat).getD 0

/-- Page 2: message queues. -/
def wview2 (p : Params) (b : Block) (w o : Nat) : Word32 :=
  let q := mqu b w (mqSel p b w)
  let x := Tbl.get {} b.mqPop w
  if 0x0C0 ≤ o then nthWord (popFlit x) ((o - 0x0C0) / 4)
  else match o with
    | 0x044 => w32 (b2n q.en * 2 ^ 31 + q.tenant * 2 ^ 16 + q.size * 2 ^ 8 + q.base)
    | 0x048 => w32 (q.reader * 2 ^ 16 + b2n q.fcEn * 16 + q.fcPin)
    | 0x04C => w32 (q.hiWm * 2 ^ 16 + q.loWm)
    | 0x050 => w32 (b2n (decide (mqOcc q = mqSlots q)) * 2 ^ 31 + b2n q.flushPend * 2 ^ 30 + b2n q.overrun * 2 ^ 29 + b2n q.xoff * 2 ^ 28 + mqOcc q)
    | 0x054 => w32 q.flushed
    | 0x058 => w32 q.ceCnt
    | 0x068 => w32 (b2n x.empty * 2 ^ 31 + b2n x.poison * 2 ^ 30 + x.flit % 16 * 2 ^ 20 + x.len * 2 ^ 16 + x.ch % 2 ^ 14)
    | _ => rd p b (wA w 2 o)

/-- Page 3: key pools (Table 7.4). -/
def wview3 (p : Params) (b : Block) (w o : Nat) : Word32 :=
  let k := match keySel p b w with | some x => kpl b x.1 x.2 | none => {}
  match o with
  | 0x044 => w32 (k.base * 2 ^ 8 + k.tenant)
  | 0x048 => w32 (b2n k.en * 2 ^ 31 + k.waiting.length * 2 ^ 26 + k.size)
  | 0x04C => w32 (k.head * 2 ^ 16 + k.tail)
  | 0x050 => w32 (k.nextGseq.toNat * 2 ^ 16 + k.free)
  | _ => rd p b (wA w 3 o)

/-- STATE of a combining queue. -/
def cqNo : CqSt → Nat
  | .free => 0
  | .opened => 1
  | .draining => 2
  | .quarantine => 3

/-- Word Dk of a combining queue (Table 6.8). -/
def cqWord (c : CQ) (k : Nat) : Word32 :=
  match k with
  | 0 => w32 (cqNo c.st * 2 ^ 30 + c.gen % 16 * 2 ^ 26 + c.oper * 2 ^ 24 + c.ofmt * 2 ^ 20 + c.ifmt * 2 ^ 16
      + b2n c.fast * 2 ^ 15 + b2n c.failed * 2 ^ 14 + c.len)
  | 1 => w32 (c.tenant % 256 * 2 ^ 24 + c.status.toNat * 2 ^ 16 + c.openC.length * 2 ^ 11 + c.blocks)
  | 2 => w32 c.n
  | 3 => w32 c.admits
  | 4 => w32 c.doneCnt
  | 5 => w32 c.surplus
  | 6 => w32 c.nanIn
  | _ => w32 (c.nanOut * 2 ^ 16 + c.ovf)

/-- Page 4: combining queues. -/
def wview4 (p : Params) (b : Block) (w o : Nat) : Word32 :=
  if o = 0x040 then rd p b (wA w 4 o) else cqWord (cqu b w (rdf p b (wA w 4 0x040) 0 6)) ((o - 0x044) / 4)

/-- The bits of an event-ring entry (Table 11.5). -/
def evBits (e : EvEntry) : Nat :=
  e.handle % 2 ^ 17 + e.gen % 256 * 2 ^ 17 + e.aux % 64 * 2 ^ 25 + b2n e.old * 2 ^ 31 + e.status.toNat * 2 ^ 32
  + e.kind * 2 ^ 40 + fld e.ts 0 20 * 2 ^ 44

/-- The port of WD_EV_SEL and its ring, as latched by the latest read of WD_EV_TSNEW_LO (R320). -/
def evPort (p : Params) (b : Block) (w : Nat) : Nat := w * p.ne + rdf p b (wA w 5 0x040) 0 6

/-- The event ring a data read looks at. -/
def evRing (b : Block) (n : Nat) : List EvEntry := (Tbl.get none b.mgt.evLatch n).getD (Tbl.get [] b.evr n)

/-- The selected event-ring entry; 0 for an empty slot. -/
def evSel (p : Params) (b : Block) (w : Nat) : Nat :=
  (((evRing b (evPort p b w))[rdf p b (wA w 5 0x040) 16 6]?).map evBits).getD 0

/-- The timestamp of the newest entry of the selected port. -/
def evNew (p : Params) (b : Block) (w : Nat) : Nat := (((Tbl.get [] b.evr (evPort p b w)).head?).map (fun e => e.ts.toNat)).getD 0

/-- The bits of a blocked-on record (R322). -/
def blkWord (x : BlkRec) (k : Nat) : Word32 :=
  match k with
  | 0 => w32 (x.kind * 2 ^ 28 + x.tenant % 256 * 2 ^ 20 + x.ring % 2 ^ 13)
  | 1 => x.waiter
  | 2 => x.object
  | 3 => x.value
  | _ => w32 (fld x.since 0 32)

/-- Page 5: event rings and blocked-on records. -/
def wview5 (p : Params) (b : Block) (w o : Nat) : Word32 :=
  let l := Tbl.get [] b.blk.recs w
  match o with
  | 0x044 => nthWord (evSel p b w) 0
  | 0x048 => nthWord (evSel p b w) 1
  | 0x04C => nthWord (evNew p b w) 0
  | 0x050 => nthWord (evNew p b w) 1
  | 0x078 => w32 (Tbl.get 0 b.blk.ovf w * 2 ^ 16 + l.length)
  | 0x07C => w32 (fld (Tbl.get 0 b.blk.ts w) 0 32)
  | 0x080 => w32 (fld (Tbl.get 0 b.blk.ts w) 32 32)
  | _ => if 0x064 ≤ o ∧ o < 0x078 then ((l[rdf p b (wA w 5 0x060) 0 8]?).map (fun x => blkWord x ((o - 0x064) / 4))).getD 0
    else rd p b (wA w 5 o)

/-- A register of page `q` of Ward `w`. -/
def wardView (p : Params) (b : Block) (w q o : Nat) : Word32 :=
  match q with
  | 0 => wview0 p b w o
  | 1 => wview1 p b w o
  | 2 => wview2 p b w o
  | 3 => wview3 p b w o
  | 4 => wview4 p b w o
  | 5 => wview5 p b w o
  | _ => if 0x100 ≤ o then cntView (bitAt (rd p b (wA w 6 0x040)) 1) b (wA w 6 o) else rd p b (wA w 6 o)

/-! ## Hinge, trace, dump and tenant pages -/

/-- HG_STAT.STATE. -/
def hgNo : HgState → Nat
  | .train => 0
  | .active => 1
  | .hold => 2
  | .down => 3

/-- A register of a Hinge page (Table 15.12). -/
def hingeView (p : Params) (b : Block) (h o : Nat) : Word32 :=
  let g := hng b h
  if 0x100 ≤ o then cntView (bitAt (rd p b (hA h 0x064)) 1) b (hA h o)
  else match o with
    | 0x044 => w32 (hgNo g.state)
    | 0x050 => w32 (b2n g.locked * 2 ^ 31 + b2n g.lost * 2 ^ 30 + g.outlier)
    | 0x054 => BitVec.ofInt 32 g.corr
    | 0x058 => w32 (p.ldlyFact.getD h 0 % 2 ^ 20)
    | _ => rd p b (hA h o)

/-- TR_STAT.STATE. -/
def trNo : TrState → Nat
  | .off => 0
  | .armed => 1
  | .post => 2
  | .stopped => 3

/-- A register of the trace page (Table 15.14). -/
def traceView (p : Params) (b : Block) (o : Nat) : Word32 :=
  let t := b.trace
  match o with
  | 0x044 => w32 (trNo t.state * 2 ^ 30 + b2n t.preWrap * 2 ^ 29 + t.prePage % 2 ^ 16 * 2 ^ 8 + t.preSlot % 256)
  | 0x048 => w32 (t.trigSrc.toNat * 2 ^ 16 + t.retrig)
  | 0x04C => w32 t.werr
  | _ => rd p b (trA o)

/-- A register of the dump page. -/
def dumpView (p : Params) (b : Block) (o : Nat) : Word32 :=
  match o with
  | 0x050 => w32 (b2n b.dump.done * 2 ^ 31 + dumpNeed p % 2 ^ 16)
  | 0x054 => w32 b.dump.werr
  | _ => rd p b (duA o)

/-- The combining queue of TN_CB_SEL: Ward and queue number. -/
def tnCb (p : Params) (b : Block) (t : Nat) : Nat × Nat :=
  (rdf p b (tnA t 0x054) 6 6, rdf p b (tnA t 0x054) 0 6)

/-- TN_CB_SEL names a queue of another tenant (Table 8.6). -/
def tnDenied (p : Params) (b : Block) (t : Nat) : Bool := decide ((cqu b (tnCb p b t).1 (tnCb p b t).2).tenant ≠ t)

/-- Bit s: the ring in slot s is PENDING or HELD. -/
def tnHeld (b : Block) (t lo : Nat) : Word32 :=
  w32 (((b.rings.filter (fun x => decide (rTenant x.2 = t) && decide (x.2.pre ≠ .run) && decide (lo ≤ rSlot x.2)
    && decide (rSlot x.2 < lo + 32))).map (fun x => rSlot x.2 - lo)).eraseDups.map (fun i => 2 ^ i)).sum

/-- A register of tenant window `t` (Tables 8.6, 15.15). -/
def tenantView (p : Params) (b : Block) (t o : Nat) : Word32 :=
  if o = 0x04C then tnHeld b t 0
  else if o = 0x050 then tnHeld b t 32
  else if 0x080 ≤ o ∧ o < 0x180 then Tbl.get 0 b.tdone (t * 64 + (o - 0x080) / 4)
  else if 0x200 ≤ o ∧ o < 0x220 then
    (if tnDenied p b t then 0 else cqWord (cqu b (tnCb p b t).1 (tnCb p b t).2) ((o - 0x200) / 4))
  else if 0x300 ≤ o ∧ o < 0x330 then nthWord (Tbl.get 0 b.cnt (tnA t (o / 8 * 8))) (o / 4 % 2)
  else if 0x330 ≤ o then w32 (Tbl.get 0 b.cnt (tnA t o))
  else rd p b (tnA t o)

/-- A register beyond its page's header; the windows are read member by member (R402). -/
def pageView (p : Params) (b : Block) (g : Page) (o : Nat) : Word32 :=
  match g with
  | .keeper q => keeperView p b q o
  | .ward w q => wardView p b w q o
  | .bcast _ => 0
  | .group _ _ => 0
  | .hinge h => hingeView p b h o
  | .mirror => mirrorView p b.meter o
  | .trace => traceView p b o
  | .dump => dumpView p b o
  | .tenant t => tenantView p b t o

end Sys2Proof.Machine
end

