-- ==== Sys2Proof/Machine/Dump.lean ====
section
/-! DEFINITION. The dump (R299, R300): its start, the freeze that follows, its sections. -/

namespace Sys2Proof.Machine

/-- The snapshot slot of a port in a dump. -/
def dumpSlot (p : Params) (b : Block) (n : Nat) : Nat := dumpBase p b + dumpBytes p - 512 * nPorts p + 512 * n

/-- A port with a RUNNING task is asked for its snapshot; one asked for a capture answers for the dump. -/
def dumpAsk (p : Params) (n : Nat) (b : Block) : Block :=
  let asked := (prt b n).snapReq.isSome
  let b := updPort n (fun q => { q with snapReq := some ⟨dumpSlot p b n, b.clk.ts, b.clk.fclk, true⟩ })
    { b with dump := { b.dump with await := b.dump.await ++ [n] } }
  when (!asked) (emit (.snapReq n)) b

/-- The reason of R300: an instance fault before a deadbolt before a hang. -/
def dumpReason (b : Block) : Nat := match b.dbolt.state with | .fault => 3 | .quiesced => 2 | _ => 1

/-- A write of KP_DUMP_CTRL.GO (R299): the freeze follows with the next fclk. -/
def dumpStart (p : Params) (b : Block) : Block :=
  if b.hang.hung ∨ b.dbolt.state = .quiesced ∨ b.dbolt.state = .fault then
    { b with dump := { b.dump with going := true, done := false, reason := dumpReason b } }
  else pgErr p (duA 0) 7 b

/-- DUMP_GO (R299). -/
def actDumpGo (s : State) : Outcome := s.keeperReg (duA 0x040) 1 false dumpStart

/-- The freeze (R299): the link resets, the dump's header, the snapshot requests. -/
def dumpFreeze (p : Params) (b : Block) : Block :=
  let b := { b with dump := { b.dump with going := false, frozen := true, at_ := b.clk.ts, await := [], absent := [] } }
  let b := forEach ((List.range p.nh).filter (fun h => (hng b h).state = .active))
    (fun h c => emit (.linkReq h false) (updHinge h (fun g => { g with stall := true }) c)) b
  let b := emit (.dumpHdr (dumpBase p b) 0x504D5544 (view0 p b 0x040) (view0 p b 0x044) b.dump.reason (dumpSections p).length
    (dumpBytes p) b.clk.ts (sysAx p b .keeper)) b
  forEach ((b.ports.filter (fun x => x.2.run.isSome)).map Prod.fst) (dumpAsk p) b

/-- A register word as a dump writes it; 0 where there is no register. -/
def wordAt (p : Params) (b : Block) (a : Nat) : Word32 :=
  match pageOf p a with
  | none => 0
  | some g => if a % 0x1000 < 0x40 then headerView p b g a
    else if (regFields p a).isNone then 0 else pageView p b g (a % 0x1000)

/-- The register words of `n` bytes from `base` on. -/
def wordsAt (p : Params) (b : Block) (base n : Nat) : List Word32 := (List.range (n / 4)).map (fun i => wordAt p b (base + 4 * i))

/-- The rows of a table that belong to Ward `w`; `f` gives the Ward of a key. -/
def rowsOf {α : Type} (f : Nat → Nat) (w : Nat) (t : Tbl α) : Tbl α := t.filter (fun x => decide (f x.1 = w))

/-- The data of a section as the block holds it (Table 10.8). -/
def dumpImg (p : Params) (b : Block) (id u : Nat) : DumpImg :=
  match id with
  | 0x01 => .words (wordsAt p b 0 65536)
  | 0x02 => .rings b.rings
  | 0x03 => .hasps b.hasps b.waits
  | 0x04 => .classes b.pcls
  | 0x05 => .govern b.gov b.arb b.routes
  | 0x06 => .errlog b.log
  | 0x07 => .capture b.cap b.storms
  | 0x10 => .words (wordsAt p b (wA u 0 0) 65536)
  | 0x11 => .tasks (rowsOf homeOf u b.ents)
  | 0x12 => .edges ((rowsOf homeOf u b.ents).map (fun x => (x.1, x.2.succ)))
  | 0x13 => .chans (b.chans.filter (fun x => decide ((x.2.map Chan.dir) = some u))) (b.rchans.filter (fun x => decide (x.2.2.dir = u)))
  | 0x14 => .queues (rowsOf (· / 64) u b.mq)
  | 0x15 => .combine (rowsOf (· / 64) u b.cq)
  | 0x16 => .others (rowsOf (· / 4096) u b.slots) (rowsOf (fun k => portWard p (k / 16)) u b.kpool) (fedOf b u)
      (rowsOf (portWard p) u b.evr) (b.cnt.filter (fun x => decide (wA u 6 0 ≤ x.1) && decide (x.1 < wA u 7 0))) (Tbl.get [] b.blk.recs u)
  | 0x20 => .hinge (wordsAt p b (hA u 0) 4096) (hng b u)
  | _ => .slots ((List.range (nPorts p)).filter (fun n => decide (n ∈ b.dump.absent) || (prt b n).run.isNone))

/-- The unit whose MP a section goes through (R299). -/
def dumpUnit (id u : Nat) : UnitId := if 0x10 ≤ id ∧ id < 0x20 then .ward u else .keeper

/-- The words of a section that MP writes with poison: bad words of messages, where WD_MEM_CFG.POISON_EN is 1 (R287,
Table 10.5). -/
def dumpPoison (p : Params) (b : Block) (id u : Nat) (bad : List Nat) : List Nat :=
  if id = 0x14 ∧ bitAt (rd p b (wA u 0 0x0C0)) 17 then bad else []

/-- One section: its header, its data, and the indices of at most 1,024 bad words of 64 bits (R300). -/
def dumpSection (p : Params) (x : Nat × Nat × Nat × Nat) (b : Block) : Block :=
  let l := (List.range (x.2.2.2 / 8)).filter (Config.dumpBad b.clk.fclk x.2.1 x.2.2.1)
  let m := dumpUnit x.2.1 x.2.2.1
  emit (.dumpSec m x.1 x.2.1 x.2.2.1 x.2.2.2 l.length (l.take 1024) (dumpPoison p b x.2.1 x.2.2.1 l) (dumpImg p b x.2.1 x.2.2.1) (sysAx p b m)) b

/-- DUMP_DONE (R299): after the last snapshot the sections are written; which words are found uncorrectable and how many writes
meet a fault response are free values (log entry 39). -/
def actDumpDone (s : State) : Outcome :=
  s.run (fun _ b => !b.boot.porst && !b.boot.srst && b.dump.frozen && !b.dump.done && b.dump.await.isEmpty) (fun p b =>
    let b := forEach (dumpPlaces (dumpBase p b + 64) (dumpSections p)) (dumpSection p) b
    raiseK p 17 { b with dump := { b.dump with done := true, werr := satAdd (2 ^ 32 - 1) b.dump.werr (Config.dumpFaults b.clk.fclk) } })

end Sys2Proof.Machine
end

