-- ==== Sys2Proof/Machine/RegWrite.lean ====
section
/-! DEFINITION. Register writes and reads with their effects (chapter 15), RWQ shadows and commit points (R390 to R396),
multi-word registers (R400), select windows (R401), broadcast and group windows (R402), held accesses (R368). -/

namespace Sys2Proof.Machine

/-! ## Access classes (Table 0.8, R396) -/

/-- A field of `old` under a write of `v`: RWL is closed by the lock; a 0 to W1C or W1S has no effect; W1S bits act
through the command that their write is, and RO fields stay. -/
def fieldWrite (lock : Bool) (v old : Word32) (f : Fld) : Word32 :=
  match f.acc with
  | .rw | .rwq => setFld old f.lo f.len (fld v f.lo f.len)
  | .rwl => if lock then old else setFld old f.lo f.len (fld v f.lo f.len)
  | .w1c => old &&& ~~~(v &&& BitVec.ofNat 32 ((2 ^ f.len - 1) * 2 ^ f.lo))
  | .w1s | .ro => old

/-- The fields that read as the nearer bound of a range, by page and offset: lowest bit, length, bounds. -/
def clampsOf : Page → Nat → List (Nat × Nat × Nat × Nat)
  | .keeper 0, 0x060 => [(0, 16, 1, 65535)]
  | .keeper 0, 0x064 => [(0, 8, 1, 255)]
  | .keeper 4, 0x060 => [(0, 13, 64, 4096)]
  | .keeper 5, 0x06C => [(0, 16, 64, 65535)]
  | .keeper 8, 0x040 => [(20, 12, 1, 4095)]
  | .ward _ 0, 0x0B4 => [(0, 4, 1, 8)]
  | .ward _ 0, 0x0BC => [(0, 16, 1, 65535)]
  | .ward _ 0, 0x0CC => [(0, 7, 1, 64)]
  | .ward _ 0, 0x0D0 => [(0, 16, 1, 65535)]
  | .ward _ 0, 0x0D4 => [(0, 16, 1, 65535)]
  | .hinge _, 0x040 => [(16, 12, 64, 2048)]
  | .trace, 0x060 => [(16, 5, 10, 24)]
  | _, _ => []

/-- A word with its bounded fields at the nearer bound. -/
def clampWord (g : Page) (o : Nat) (v : Word32) : Word32 :=
  (clampsOf g o).foldl (fun x c => setFld x c.1 c.2.1 (clampNat c.2.2.1 c.2.2.2 (fld x c.1 c.2.1))) v

/-- The page of an aperture address, by its base. -/
def pageBase (a : Nat) : Nat := a / 0x1000 * 0x1000

/-- A write to register storage under the access class of each field; a word with an RWL field sets LOCKED_WRITE in its
page after the lock (R396). -/
def plainWrite (p : Params) (g : Page) (a : Nat) (v : Word32) (b : Block) : Block :=
  let fs := (regFields p a).getD []
  let b1 := wr p a (clampWord g (a % 0x1000) (fs.foldl (fieldWrite b.boot.lock v) (rd p b a))) b
  when (b.boot.lock && fs.any (fun f => decide (f.acc = .rwl))) (pgErr p (pageBase a) 0) b1

/-! ## Registers of several words (R400) -/

/-- The registers of several words of a page: offset of W0 and number of words. -/
def multiRegs : Page → List (Nat × Nat)
  | .keeper 0 => [(0x078, 2), (0x088, 3)]
  | .keeper 4 => [(0x054, 2), (0x060, 2)]
  | .keeper 5 => [(0x068, 2)]
  | .keeper 6 => (List.range 8).map (fun i => (0x080 + 8 * i, 2))
  | .keeper 7 => [(0x064, 2)]
  | .keeper 8 => [(0x054, 2)]
  | .keeper 9 => [(0x048, 2), (0x050, 2), (0x058, 2)]
  | .keeper 10 => [(0x044, 2), (0x100, 2)]
  | .ward _ 0 => [(0x0C4, 2)]
  | .ward _ 2 => [(0x044, 3), (0x050, 3)]
  | .ward _ 5 => [(0x044, 2), (0x04C, 2), (0x078, 3)]
  | .ward _ 6 => (List.range 13).map (fun i => (0x100 + 8 * i, 2))
  | .hinge _ => (0x050, 2) :: (List.range 4).map (fun i => (0x100 + 8 * i, 2))
  | .mirror => [(0x060, 2)]
  | .trace => [(0x044, 3), (0x050, 2)]
  | .dump => [(0x044, 2), (0x050, 2)]
  | .tenant _ => (List.range 6).map (fun i => (0x300 + 8 * i, 2))
  | _ => []

/-- The register of several words that a word belongs to. -/
def multiAt (g : Page) (o : Nat) : Option (Nat × Nat) :=
  (multiRegs g).find? (fun m => decide (m.1 ≤ o) && decide (o < m.1 + 4 * m.2))

/-- A higher word with a writable field: its write is held. -/
def heldWord (p : Params) (g : Page) (o : Nat) : Bool :=
  match multiAt g o with
  | some m => decide (m.1 ≠ o) && ((rowAt (pageRows p g) o).getD []).any (fun f => decide (f.acc = .rw) || decide (f.acc = .rwl))
  | none => false

/-- A write to a higher word is held; held words of the page's other registers are discarded. -/
def holdOne (g : Page) (a : Nat) (v : Word32) (b : Block) : Block :=
  let m := (multiAt g (a % 0x1000)).getD (a % 0x1000, 1)
  let keep := fun (k : Nat) => decide (k / 0x1000 ≠ a / 0x1000) || (decide (m.1 ≤ k % 0x1000) && decide (k % 0x1000 < m.1 + 4 * m.2))
  holdWord a v (updMgt (fun x => { x with held := x.held.filter (fun y => keep y.1) }) b)

/-- A write of W0 takes effect together with the held words of its register. -/
def multiWrite (p : Params) (g : Page) (a : Nat) (v : Word32) (b : Block) : Block :=
  let m := (multiAt g (a % 0x1000)).getD (a % 0x1000, 1)
  let b := forEach ((List.range m.2).tail) (fun i c => match heldAt c (a + 4 * i) with
    | some x => plainWrite p g (a + 4 * i) x c
    | none => c) b
  plainWrite p g a v b

/-! ## Select windows (R368, R401) -/

/-- The selector of a data register is out of range. -/
def selBad (p : Params) (b : Block) (g : Page) (o : Nat) : Bool :=
  match g with
  | .keeper 6 => decide (o = 0x048) && decide (routeSel p b = rdf p b (kA 6 0x040) 0 6)
  | .keeper 7 => decide (o = 0x074) && decide (0x15 < rdf p b (kA 7 0x070) 0 8)
  | .ward w 3 => decide (0x044 ≤ o) && (keySel p b w).isNone
  | .ward w 5 =>
    if 0x044 ≤ o ∧ o < 0x054 then
      decide (p.ne ≤ rdf p b (wA w 5 0x040) 0 6) || (decide (o < 0x04C) && decide (evDepth p ≤ rdf p b (wA w 5 0x040) 16 6))
    else decide (0x064 ≤ o) && decide (o < 0x078) && decide ((Tbl.get [] b.blk.recs w).length ≤ rdf p b (wA w 5 0x060) 0 8)
  | _ => false

/-- The data register of a window onto a table SRAM (R368). -/
def tabReg : Page → Nat → Bool
  | .keeper 1, o => decide (0x044 ≤ o)
  | .keeper 3, o => decide (0x044 ≤ o)
  | .keeper 4, o => decide (0x044 ≤ o) && decide (o < 0x050)
  | .keeper 5, o => decide (0x044 ≤ o) && decide (o < 0x054) || decide (o = 0x058)
  | .keeper 7, o => decide (o ≤ 0x060)
  | .ward _ 1, o => decide (0x044 ≤ o)
  | .ward _ 2, o => decide (0x044 ≤ o) && decide (o < 0x068)
  | .ward _ 3, o => decide (0x044 ≤ o)
  | .ward _ 4, o => decide (0x044 ≤ o)
  | .ward _ 5, o => decide (0x044 ≤ o) && decide (o < 0x054)
  | _, _ => false

/-- The units whose rescrub an access awaits. -/
def needOf (g : Page) (o : Nat) : List Nat :=
  if 0x40 ≤ o ∧ tabReg g o then (match g with | .ward w _ => [1 + w] | _ => [0]) else []

/-! ## Shadows and commit points (R390 to R393) -/

/-- KP_CMT_CTRL.QHOLD. -/
def qhold (p : Params) (b : Block) : Bool := bitAt (rd p b (kA 0 0x084)) 2

/-- Class `c` commits at Ward `w`: at its home, or anywhere while it has none (Table 14.5). -/
def pclHere (p : Params) (b : Block) (w c : Nat) : Bool :=
  match classHome p b (pcl b c).work with
  | some h => decide (h = w)
  | none => true

/-- A shadow of the scope of Ward `w` is pending (R392). -/
def scopePend (p : Params) (b : Block) (w : Nat) : Bool :=
  wardPend p b w || b.pcls.any (fun x => decide (x.2.shadow ≠ x.2.work) && pclHere p b w x.1)
    || b.rings.any (fun x => x.2.enable && decide (rHome x.2 = w) && decide (x.2.gmode ≠ (ten b (rTenant x.2)).gmode))

/-- The commit of Ward `w`'s scope: shadows become working copies. -/
def commitAt (p : Params) (w : Nat) (b : Block) : Block :=
  let pend := scopePend p b w
  let b := forEach ((b.pcls.map Prod.fst).filter (pclHere p b w)) (fun c => updPcl c (fun x =>
    { x with work := x.shadow, bad := x.bad.filter (· ∉ x.written), written := [] })) b
  let b := forEach ((b.rings.filter (fun x => x.2.enable && decide (rHome x.2 = w))).map Prod.fst)
    (fun r c => updRing r (fun g => { g with gmode := (ten c (rTenant g)).gmode }) c) b
  let b := { b with iqWork := Tbl.set 0x102 b.iqWork w (rd p b (wA w 0 0x0B4)) }
  when pend (fun c => { c with cmtTs := c.clk.ts }) b

/-- A commit point of Ward `w`: nothing commits under QHOLD (R392). -/
def commitPointAt (p : Params) (w : Nat) (b : Block) : Block :=
  let b := { b with cmtDue := b.cmtDue.filter (· ≠ w) }
  if qhold p b then b else commitAt p w b

/-- Every unfenced Ward reaches a commit point. -/
def commitAll (p : Params) (b : Block) : Block :=
  forEach ((List.range p.nw).filter (fun w => !fenced b w)) (commitPointAt p) b

/-- Ward `w` reaches a commit point: by a STEP_END or a completion of this cycle, or with none of its rings
outstanding and a shadow pending. -/
def atCommit (p : Params) (b : Block) (w : Nat) : Bool :=
  decide (w ∈ b.cmtDue)
    || (b.rings.all (fun x => decide (rHome x.2 ≠ w) || decide (outstanding x.2 = 0)) && scopePend p b w)

/-- COMMIT_POINT (R392). -/
def actCommitPoint (w : Nat) (s : State) : Outcome :=
  s.runW w (fun p b => if atCommit p b w then commitPointAt p w b else b)

/-- COMMIT_FORCE (R392): VIEW and QHOLD keep their values. -/
def actCommitForce (s : State) : Outcome := s.keeperReg (kA 0 0x084) 2 false commitAll

/-! ## Keeper registers -/

/-- The tenant has a ring that is enabled or has submissions outstanding (R230). -/
def tenLive (b : Block) (t : Nat) : Bool :=
  b.rings.any (fun x => decide (rTenant x.2 = t) && (x.2.enable || decide (x.2.subs ≠ [])))

/-- A write of KP_TEN_CFG, field by field (R230). -/
def tenCfgWrite (p : Params) (v : Word32) (b : Block) : Block :=
  let t := tenSel p b
  let keepEn := !bitAt v 31 && (ten b t).en && tenLive b t
  let keepMode := decide (fld v 0 2 = 3)
  let b := updTen t (fun x => { x with
    en := if keepEn then x.en else bitAt v 31, lcOk := bitAt v 30, preemptible := bitAt v 29
    gmode := if keepMode then x.gmode else fld v 0 2 }) b
  when (keepEn || keepMode) (pgErr p (kA 2 0) 2) b

/-- TENANT_CFG_WRITE (R230). -/
def actTenantCfgWrite (data : BitVec 32) (s : State) : Outcome := s.keeperReg (kA 2 0x044) data false (tenCfgWrite · data)

/-- A write of page 2 (Table 8.2). -/
def tenWrite (p : Params) (o : Nat) (v : Word32) (b : Block) : Block :=
  let t := tenSel p b
  match o with
  | 0x044 => tenCfgWrite p v b
  | 0x048 => updTen t (fun x => { x with chmask := BitVec.ofNat 16 (fld v 16 16), waymask := BitVec.ofNat 16 (fld v 0 16) }) b
  | 0x04C => updTen t (fun x => { x with weight := fld v 0 16 }) b
  | 0x050 => updTen t (fun x => { x with ttq := min 2048 (fld v 0 12) }) b
  | _ => plainWrite p (.keeper 2) (kA 2 o) v b

/-- A rank of a class's shadow changed. -/
def pclRank (c k : Nat) (f : Rank → Rank) (b : Block) : Block :=
  updPcl c (fun x => { x with
    shadow := { x.shadow with ranks := Tbl.upd {} x.shadow.ranks k f }
    written := if k ∈ x.written then x.written else x.written ++ [k] }) b

/-- A write of page 3: the class's shadow (R77, R79, R391). -/
def pclWrite (p : Params) (o : Nat) (v : Word32) (b : Block) : Block :=
  let c := (pclSel p b).1
  let k := (pclSel p b).2
  match o with
  | 0x044 => pclRank c k (fun x => { x with v := bitAt v 31, ward := fld v 0 6 }) b
  | 0x048 => pclRank c k (fun x => { x with mask := setFld x.mask 0 32 v.toNat }) b
  | 0x04C => pclRank c k (fun x => { x with mask := setFld x.mask 32 32 v.toNat }) b
  | 0x050 => updPcl c (fun x => { x with
      shadow := { x.shadow with remote := bitAt v 31, rinst := fld v 16 6, tenant := fld v 0 8 } }) b
  | _ => plainWrite p (.keeper 3) (kA 3 o) v b

/-- A write of page 4: a domain's budget takes part from the next window (R390, R406); a rewrite replaces an
uncorrectable word (Table 10.4). -/
def govWrite (p : Params) (o : Nat) (v : Word32) (b : Block) : Block :=
  let d := govSel p b
  match o with
  | 0x044 => updDom d (fun x => { x with starts := fld v 0 10, bad := false }) b
  | 0x048 => updDom d (fun x => { x with limit := fld v 0 24, bad := false }) b
  | 0x04C => updDom d (fun x => { x with shift := fld v 0 3 }) b
  | 0x050 => b
  | 0x054 => b
  | 0x058 => b
  | 0x060 => multiWrite p (.keeper 4) (kA 4 o) v b
  | _ => plainWrite p (.keeper 4) (kA 4 o) v b

/-- A write of KP_ROUTE, an RWL word of the selected instance (R250, R396). -/
def routeWrite (p : Params) (v : Word32) (b : Block) : Block :=
  if b.boot.lock then pgErr p (kA 6 0) 0 b
  else { b with routes := Tbl.set {} b.routes (routeSel p b) ⟨bitAt v 31, fld v 0 3⟩ }

/-- Writing 1 to KP_CAP_STAT.VALID clears the capture (R147). -/
def capClear (v : Word32) (b : Block) : Block :=
  when (bitAt v 31) (fun c => { c with cap := { c.cap with valid := false, missed := 0 } }) b

/-- CAPTURE_CLEAR (R147). -/
def actCaptureClear (s : State) : Outcome := s.keeperReg (kA 9 0x040) 0x80000000 false (fun _ => capClear 0x80000000)

/-- Writing 1 to KP_HANG_STAT.HUNG clears it (R298). -/
def hangClear (v : Word32) (b : Block) : Block :=
  when (bitAt v 31) (fun c => { c with hang := { c.hang with hung := false } }) b

/-- A write of page 0. -/
def keeper0 (p : Params) (o : Nat) (v : Word32) (b : Block) : Block :=
  match o with
  | 0x048 => kctrlWrite p v b
  | 0x04C => kbootWrite v b
  | 0x078 => multiWrite p (.keeper 0) (kA 0 o) v b
  | 0x084 => when (bitAt v 1) (commitAll p) (plainWrite p (.keeper 0) (kA 0 o) v b)
  | _ => plainWrite p (.keeper 0) (kA 0 o) v b

/-- A write of page 5. -/
def keeper5 (p : Params) (o : Nat) (v : Word32) (b : Block) : Block :=
  match o with
  | 0x048 => haspAssignAt p v b
  | 0x058 => when (bitAt v 0) (haspForceAt p) b
  | 0x060 => preCtrl p v b
  | 0x068 => multiWrite p (.keeper 5) (kA 5 o) v b
  | _ => plainWrite p (.keeper 5) (kA 5 o) v b

/-- A write of page 8. -/
def keeper8 (p : Params) (o : Nat) (v : Word32) (b : Block) : Block :=
  match o with
  | 0x044 => dbStatWrite v b
  | 0x054 => hangClear v b
  | 0x060 => when (bitAt v 0) blkOrder (plainWrite p (.keeper 8) (kA 8 o) v b)
  | _ => plainWrite p (.keeper 8) (kA 8 o) v b

/-- A write of KP_CNT_CTRL (R302, R304). -/
def cntCtrl (p : Params) (v : Word32) (b : Block) : Block :=
  when (bitAt v 1) snapOrder (when (bitAt v 0) clearKeeper (plainWrite p (.keeper 10) (kA 10 0x040) v b))

/-- A write of a Keeper register. -/
def keeperWrite (p : Params) (q o : Nat) (v : Word32) (b : Block) : Block :=
  match q with
  | 0 => keeper0 p o v b
  | 1 => if o = 0x040 then plainWrite p (.keeper 1) (kA 1 o) v b else ringWrite p ((o - 0x044) / 4) v b
  | 2 => tenWrite p o v b
  | 3 => pclWrite p o v b
  | 4 => govWrite p o v b
  | 5 => keeper5 p o v b
  | 6 => if o = 0x048 then routeWrite p v b
    else if 0x080 ≤ o then multiWrite p (.keeper 6) (kA 6 o) v b else plainWrite p (.keeper 6) (kA 6 o) v b
  | 7 => if o = 0x060 then logCtrl v b else if o = 0x094 then lrCtrl v b else plainWrite p (.keeper 7) (kA 7 o) v b
  | 8 => keeper8 p o v b
  | 9 => if o = 0x040 then capClear v b
    else if o = 0x058 then multiWrite p (.keeper 9) (kA 9 o) v b else plainWrite p (.keeper 9) (kA 9 o) v b
  | _ => if o = 0x040 then cntCtrl p v b else b

/-! ## Ward registers -/

/-- A write of a slot's registers (R68, R413), behind the slot updates of the cycle's settlements (R73). -/
def slotRegWrite (p : Params) (w o : Nat) (v : Word32) (b : Block) : Block :=
  let b := slotRank b
  let n := slotSel p b w
  match o with
  | 0x044 => updSlot w n (fun x => { x with
      v := bitAt v 31, f := bitAt v 30, c := bitAt v 29, tenant := fld v 16 8, fillgen := BitVec.ofNat 16 (fld v 0 16) }) b
  | 0x048 => updSlot w n (fun x => { x with value := v }) b
  | _ => plainWrite p (.ward w 1) (wA w 1 o) v b

/-- A write of WD_IQ_CFG: STAGE is ignored in minimal mode (R387). -/
def iqCfgWrite (p : Params) (w : Nat) (v : Word32) (b : Block) : Block :=
  let v1 := if b.boot.minimal then setFld v 8 1 (fld (rd p b (wA w 0 0x0B4)) 8 1) else v
  plainWrite p (.ward w 0) (wA w 0 0x0B4) v1 b

/-- The event rings of a Ward are no longer latched. -/
def evRelease (w : Nat) (p : Params) (b : Block) : Block :=
  updMgt (fun m => { m with evLatch := m.evLatch.filter (fun x => decide (x.1 / p.ne ≠ w)) }) b

/-- A write of page 2 of a Ward (R170 to R175, R413). -/
def wardMq (p : Params) (w o : Nat) (v : Word32) (b : Block) : Block :=
  match o with
  | 0x044 => mqCfgAt p w v b
  | 0x050 => when (bitAt v 29) (updMQ w (mqSel p b w) (fun m => { m with overrun := false })) b
  | 0x05C => when (bitAt v 0) (mqFlushAt p w) b
  | 0x060 => let b1 := plainWrite p (.ward w 2) (wA w 2 o) v b
    if bitAt v 31 then mqPushAt p w (bitAt v 0) b1 else b1
  | 0x064 => when (bitAt v 0) (mqPopAt p w) b
  | _ => plainWrite p (.ward w 2) (wA w 2 o) v b

/-- A write of page 3 of a Ward (R217, R223). -/
def wardKey (p : Params) (w o : Nat) (v : Word32) (b : Block) : Block :=
  match o with
  | 0x040 => plainWrite p (.ward w 3) (wA w 3 o) v b
  | 0x054 => when (bitAt v 0) (keyResetAt p w) b
  | _ => keyCfgAt p ((o - 0x044) / 4) v w b

/-- A write of a Ward register. -/
def wardRegWrite (p : Params) (q o : Nat) (v : Word32) (w : Nat) (b : Block) : Block :=
  match q with
  | 0 => if o = 0x0B4 then iqCfgWrite p w v b
    else if o = 0x0C4 then multiWrite p (.ward w 0) (wA w 0 o) v b else plainWrite p (.ward w 0) (wA w 0 o) v b
  | 1 => slotRegWrite p w o v b
  | 2 => wardMq p w o v b
  | 3 => wardKey p w o v b
  | 5 => let b1 := plainWrite p (.ward w 5) (wA w 5 o) v b
    if o = 0x040 then evRelease w p b1 else b1
  | 6 => let b1 := plainWrite p (.ward w 6) (wA w 6 o) v b
    if o = 0x040 ∧ bitAt v 0 then clearPage (wA w 6 0) b1 else b1
  | _ => plainWrite p (.ward w q) (wA w q o) v b

/-! ## Hinge, trace, dump and tenant registers -/

/-- A write of a Hinge register (Table 15.12). -/
def hingeRegWrite (p : Params) (h o : Nat) (v : Word32) (b : Block) : Block :=
  match o with
  | 0x048 => hgCtrl p h v b
  | 0x050 => tsStatWrite h v b
  | 0x064 => when (bitAt v 0) (clearPage (hA h 0)) (plainWrite p (.hinge h) (hA h o) v b)
  | _ => plainWrite p (.hinge h) (hA h o) v b

/-- A write of the trace page: configuration is refused outside OFF (R307, R417). -/
def traceWrite (p : Params) (o : Nat) (v : Word32) (b : Block) : Block :=
  if o = 0x040 then trCtrl p v b
  else if 0x050 ≤ o ∧ o < 0x070 ∧ b.trace.state ≠ .off then pgErr p (trA 0) 6 b
  else if o = 0x050 then multiWrite p .trace (trA o) v b
  else plainWrite p .trace (trA o) v b

/-- A write of the dump page. -/
def dumpWrite (p : Params) (o : Nat) (v : Word32) (b : Block) : Block :=
  if o = 0x040 then when (bitAt v 0) (dumpStart p) b
  else if o = 0x044 then multiWrite p .dump (duA o) v b else plainWrite p .dump (duA o) v b

/-- A write of a tenant window (Tables 8.6, 15.15). -/
def tenantWrite (p : Params) (t o : Nat) (v : Word32) (b : Block) : Block :=
  match o with
  | 0x040 => ringBell p t (fld v 16 6) (BitVec.ofNat 16 (fld v 0 16)) (plainWrite p (.tenant t) (tnA t o) v b)
  | 0x044 => ringCtrl p t (fld v 0 6) (fld v 16 2) (bitAt v 24) b
  | 0x054 =>
    let b := plainWrite p (.tenant t) (tnA t o) v b
    when (tnDenied p b t) (setBits p (tnA t 0x048) 2) b
  | _ => plainWrite p (.tenant t) (tnA t o) v b

/-- A write of a register beyond the header of a page that is no window. -/
def pageWrite (p : Params) (g : Page) (o : Nat) (v : Word32) (b : Block) : Block :=
  match g with
  | .keeper q => keeperWrite p q o v b
  | .ward w q => wardRegWrite p q o v w b
  | .bcast _ => b
  | .group _ _ => b
  | .hinge h => hingeRegWrite p h o v b
  | .mirror => pgErr p 0x600000 10 b
  | .trace => traceWrite p o v b
  | .dump => dumpWrite p o v b
  | .tenant t => tenantWrite p t o v b

/-! ## The management port (R368) -/

/-- The response of the management port. -/
def mgtResp (r : AxiResp) (b : Block) : Block := updMgt (fun m => { m with resp := r }) b

/-- A word of one page: held, ignored under a selector out of range, or written. -/
def oneWrite (p : Params) (g : Page) (a : Nat) (v : Word32) (b : Block) : Block :=
  let o := a % 0x1000
  if heldWord p g o then holdOne g a v b
  else dropHeld [a / 0x1000] (if selBad p b g o then pgErr p (pageBase a) 11 b else pageWrite p g o v b)

/-- A write through the broadcast or a group window (R402). -/
def winWrite (p : Params) (t : WTarget) (q a : Nat) (v : Word32) (b : Block) : Block :=
  match members p b t with
  | [] => pgErr p (pageBase a) 12 b
  | ws => forEach ws (fun w c => oneWrite p (.ward w q) (wA w q (a % 0x1000)) v c) b

/-- The units an access awaits: of every member for a window. -/
def accNeed (p : Params) (b : Block) (g : Page) (o : Nat) : List Nat :=
  match g with
  | .bcast q => (members p b .bcast).flatMap (fun w => needOf (.ward w q) o)
  | .group k q => (members p b (.group k)).flatMap (fun w => needOf (.ward w q) o)
  | _ => needOf g o

/-- The effect of a write to an address that has a register (R382, R398, R402). -/
def regEffect (p : Params) (g : Page) (a : Nat) (v : Word32) (b : Block) : Block :=
  let o := a % 0x1000
  if pageFenced b g then b
  else if o < 0x40 then dropHeld [a / 0x1000] (plainWrite p g a v b)
  else match g with
    | .bcast q => winWrite p .bcast q a v b
    | .group k q => winWrite p (.group k) q a v b
    | _ => oneWrite p g a v b

/-- No register at an address: DECERR, but in the meter mirror and in a fenced Ward's window (R344, R382, R397). -/
def noReg (p : Params) (b : Block) (a : Nat) : Bool :=
  match pageOf p a with
  | none => true
  | some .mirror => false
  | some g => !pageFenced b g && (regFields p a).isNone

/-- A write to an aperture address (R368, R397). -/
def mgtWrite (p : Params) (a : Nat) (v : Word32) (b : Block) : Block :=
  match pageOf p a with
  | none => mgtResp .decerr b
  | some g =>
    if noReg p b a then mgtResp .decerr b
    else if (accNeed p b g (a % 0x1000)).all (tabReady b) then regEffect p g a v (mgtResp .okay b)
    else updMgt (fun m => { m with resp := .waiting, waitW := some (BitVec.ofNat 24 a, v) }) b

/-- A write at the management port: only aligned words with every strobe set are accepted (R368). -/
def mgtAccess (p : Params) (a : Nat) (v : Word32) (strb : BitVec 4) (b : Block) : Block :=
  if a % 4 ≠ 0 ∨ strb ≠ 0xF then mgtResp .slverr b else mgtWrite p a v b

/-- REGISTER_WRITE (R368, R390, R396). -/
def actRegisterWrite (port : RegPort) (addr : BitVec 24) (data : BitVec 32) (strb : BitVec 4) (s : State) : Outcome :=
  match port with
  | .mgt => s.runReg (fun p b => mgtAccess p addr.toNat data strb b)
  | .mtp => s.runM (fun _ b => mtpWrite addr.toNat data strb b)

/-- A register of Table 14.5, in its own window or through a broadcast or group window. -/
def rwqReg (p : Params) (a : Nat) : Bool :=
  let o := a % 0x1000
  match pageOf p a with
  | some (.keeper 2) => decide (o = 0x044)
  | some (.keeper 3) => decide (o ∈ [0x044, 0x048, 0x04C, 0x050])
  | some (.ward _ 0) => decide (o = 0x0B4)
  | some (.bcast 0) => decide (o = 0x0B4)
  | some (.group _ 0) => decide (o = 0x0B4)
  | _ => false

/-- RWQ_SHADOW_WRITE (R391). -/
def actRwqShadowWrite (addr : BitVec 24) (data : BitVec 32) (s : State) : Outcome :=
  s.runReg (fun p b => if rwqReg p addr.toNat then mgtWrite p addr.toNat data b else b)

/-! ## Reads (R368, R400 to R402) -/

/-- The latched word at an address (R400). -/
def latchedAt (b : Block) (a : Nat) : Option Word32 := (b.mgt.latch.find? (fun x => x.1 = a)).map Prod.snd

/-- A read of W0 latches the higher words of its register. -/
def latchRest (p : Params) (g : Page) (a : Nat) (b : Block) : Block :=
  match multiAt g (a % 0x1000) with
  | some m =>
    if m.1 = a % 0x1000 then
      forEach ((List.range m.2).tail) (fun i c =>
        updMgt (fun x => { x with latch := Tbl.ins (Tbl.del x.latch (a + 4 * i)) (a + 4 * i) (pageView p b g (m.1 + 4 * i)) }) c) b
    else b
  | none => b

/-- What a read does beyond the latch: WD_EV_TSNEW_LO latches the port's ring (R320), WD_MQ_RDATA15 moves to the next flit
(R413), TN_CB_DATA of another tenant's queue sets SEL_DENIED (Table 8.6). -/
def readEffect (p : Params) (g : Page) (o : Nat) (b : Block) : Block :=
  match g with
  | .ward w 5 =>
    if o = 0x04C then
      let n := evPort p b w
      updMgt (fun m => { m with evLatch := Tbl.set none m.evLatch n (some (Tbl.get [] b.evr n)) }) b
    else b
  | .ward w 2 => when (decide (o = 0x0FC)) (mqAdvanceAt w) b
  | .tenant t => when (decide (0x200 ≤ o) && decide (o < 0x220) && tnDenied p b t) (setBits p (tnA t 0x048) 2) b
  | _ => b

/-- A read of one page's word: value and effects. A latched word is returned once. -/
def readOne (p : Params) (g : Page) (a : Nat) (b : Block) : Word32 × Block :=
  let o := a % 0x1000
  if selBad p b g o then (0, pgErr p (pageBase a) 11 b)
  else match latchedAt b a with
    | some v => (v, updMgt (fun m => { m with latch := Tbl.del m.latch a }) b)
    | none => (pageView p b g o, readEffect p g o (latchRest p g a b))

/-- The members of a window read in order. -/
def readMembers (p : Params) (q o : Nat) : List Nat → Block → List Word32 × Block
  | [], b => ([], b)
  | w :: l, b =>
    let r := readOne p (.ward w q) (wA w q o) b
    let t := readMembers p q o l r.2
    (r.1 :: t.1, t.2)

/-- A read has completed with a value. -/
def readDone (v : Word32) (r : AxiResp) (b : Block) : Block := updMgt (fun m => { m with rdata := v, resp := r }) b

/-- A read through the broadcast or a group window (R402). -/
def winRead (p : Params) (t : WTarget) (q a : Nat) (b : Block) : Block :=
  let r := readMembers p q (a % 0x1000) (members p b t) b
  let v := r.1.headD 0
  readDone v .okay (updMgt (fun m => { m with bdiff := Tbl.set false m.bdiff (a / 0x1000) (r.1.any (fun x => decide (x ≠ v))) }) r.2)

/-- A read of an address that has a register. -/
def readEffects (p : Params) (g : Page) (a : Nat) (b : Block) : Block :=
  if a % 0x1000 < 0x40 then readDone (headerView p b g a) .okay b
  else if pageFenced b g then readDone 0 .okay b
  else match g with
    | .bcast q => winRead p .bcast q a b
    | .group k q => winRead p (.group k) q a b
    | _ => let r := readOne p g a b
      readDone r.1 .okay r.2

/-- A read at the management port (R368, R397). -/
def mgtRead (p : Params) (a : Nat) (b : Block) : Block :=
  if a % 4 ≠ 0 then mgtResp .slverr b
  else match pageOf p a with
    | none => readDone 0 .decerr b
    | some g =>
      if noReg p b a then readDone 0 .decerr b
      else if (accNeed p b g (a % 0x1000)).all (tabReady b) then readEffects p g a b
      else updMgt (fun m => { m with resp := .waiting, waitR := some (BitVec.ofNat 24 a) }) b

/-- A read of an address for which `ok` holds, when the read before has completed. -/
def State.readReg (ok : Params → Nat → Bool) (addr : BitVec 24) (s : State) : Outcome :=
  s.run (fun p b => mgtUp b && b.mgt.waitR.isNone && ok p addr.toNat) (fun p b => mgtRead p addr.toNat b)

/-- The address lies in the broadcast or a group window. -/
def inWin (p : Params) (a : Nat) : Bool :=
  match pageOf p a with
  | some (.bcast _) => true
  | some (.group _ _) => true
  | _ => false

/-- A data register of the event rings (R320). -/
def inEvent (p : Params) (a : Nat) : Bool :=
  match pageOf p a with
  | some (.ward _ 5) => decide (0x044 ≤ a % 0x1000) && decide (a % 0x1000 < 0x054)
  | _ => false

/-- WINDOW_READ (R402). -/
def actWindowRead (addr : BitVec 24) (s : State) : Outcome := s.readReg inWin addr

/-- MULTIWORD_READ_LATCH (R400): a read outside the windows, or at the meter port. -/
def actMultiwordReadLatch (addr : RegPort × BitVec 24) (s : State) : Outcome :=
  match addr with
  | (.mgt, a) => s.readReg (fun p a => !inWin p a) a
  | (.mtp, a) => s.runM (fun p b => mtpRead p a.toNat b)

/-- EVENT_RING_READ (R320). -/
def actEventRingRead (addr : BitVec 24) (s : State) : Outcome := s.readReg inEvent addr

/-- MQ_RDATA_ADVANCE (R413): a read of WD_MQ_RDATA15. -/
def actMqRdataAdvance (w : Nat) (s : State) : Outcome :=
  s.readReg (fun p _ => decide (w < p.nw)) (BitVec.ofNat 24 (wA w 2 0x0FC))

/-! ## Accesses held for a rescrub (R368, R380) -/

/-- The accesses held are tried again. -/
def replayAccess (p : Params) (b : Block) : Block :=
  let b := match b.mgt.waitW with
    | some x => mgtWrite p x.1.toNat x.2 (updMgt (fun m => { m with waitW := none }) b)
    | none => b
  match b.mgt.waitR with
  | some a => mgtRead p a.toNat (updMgt (fun m => { m with waitR := none }) b)
  | none => b

/-- RESCRUB_DONE (R380). -/
def actRescrubDone (u : UnitId) (s : State) : Outcome :=
  s.run (fun _ b => booting b && decide (stageOf b (unitNo u) = .rescrub)) (fun p b => replayAccess p (rescrubbed p u b))

end Sys2Proof.Machine
end

