-- ==== Sys2Proof/Machine/Tick.lean ====
section
/-! DEFINITION. One fclk of the block's own clock (R25, R55, R213, R267, R298, R392): what ends a cycle, and what counts
with it. -/

namespace Sys2Proof.Machine

/-- A port's cycle: BUSY with a task RUNNING, IDLE with room and none (R302); the busy cycles of its sample (R317). -/
def countPort (p : Params) (n : Nat) (b : Block) : Block :=
  let w := portWard p n
  if (prt b n).run.isSome then updPort n (fun q => { q with sampleBusy := q.sampleBusy + 1 }) (bump (wc64 w 2) 1 b)
  else when (room p b n) (bump (wc64 w 3) 1) b

/-- What closes a cycle: the commits due (R392), the report of READY tasks for the next epoch (R106), the trigger cycle of a
drain (R296), the log (R289, R409), the ports' counters, the counters cleared and copied in the cycle (R302, R304), the
blocked-on records (R322). -/
def cycleClose (p : Params) (b : Block) : Block :=
  let b := forEach ((List.range p.nw).filter (fun w => wardUp p b w && atCommit p b w)) (commitPointAt p) b
  let b := logCycle (reportReady p (drainWatch p b))
  blkCycle p (snapCycle (clearCycle (forEach (b.ports.map Prod.fst) (countPort p) b)))

/-- The end of a cycle: the slot writes and doorbells that are due (R354, R116), the examination of the entries touched (R55), the waits whose targets are met (R213), the
governor queues (R96), the message queues (R171, R177), then what closes the cycle. -/
def cycleEnd (p : Params) (b : Block) : Block :=
  let b := selectWaits (drainExam p (deliverDue p (fun k _ => decide (k = 5)) b))
  cycleClose p (mqCycle p (govCycle p (deliverDue p (fun _ _ => true) b)))

/-- One tick of a ring's hang count (R298). -/
def hangTick (p : Params) (r : Nat) (b : Block) : Block :=
  when (wardUp p b (rHome (rng b r)) && hangCounts b r) (updRing r (fun g => { g with hangTicks := g.hangTicks + 1 })) b

/-- The tclk edge that follows an odd fclk: the timestamp advances unless it is held or this tclk's advance was a slew
step (R267 to R269). -/
def tclkEdge (p : Params) (b : Block) : Block :=
  let b := when (decide (stageOf b tsDom = .ready) && !tsHeld b.clk && decide (b.clk.lastSlew ≠ b.clk.fclk))
    (updClk (fun k => { k with ts := k.ts + 1 })) b
  forEach (b.rings.map Prod.fst) (hangTick p) b

/-- The sclk edge: the meter samples the timestamp (R333); a close that does not fit is delayed (R335). -/
def sclkEdge (b : Block) : Block :=
  updMeter (fun m => { m with ts := b.clk.ts, delayed := m.delayed || (closeWanted m && !closeFits m) }) b

/-- The clock edge that ends an fclk cycle. -/
def clockEdge (p : Params) (b : Block) : Block :=
  let b := when (decide (b.clk.fclk % 2 = 1)) (tclkEdge p) b
  let b := faultEdge p (updClk (fun k => { k with fclk := k.fclk + 1 }) b)
  let b := when b.dump.going (dumpFreeze p) b
  when (decide (b.clk.fclk % 16 = 0) && meterUp b) sclkEdge b

/-- One fclk; under PORST_N no clock runs. -/
def tick (p : Params) (b : Block) : Block :=
  if b.boot.porst then b else clockEdge p (when (keeperUp b) (cycleEnd p) b)

/-- The cycle under way ends, and the next has sampled nothing (R27). -/
def State.nextCycle (s : State) : State := { s.onBlock tick with cycle := {} }

/-- The step on an empty queue. -/
def idle (s : State) : Outcome := .next s.nextCycle

end Sys2Proof.Machine
end

