-- ==== Sys2Proof/Machine/Order.lean ====
section
/-! DEFINITION. The order of the events of one fclk cycle (R23 to R32, R35, R368, R419): the clock edge at which a command is
sampled, the holders that sample it, its rank in Table 1.4, its place among events of that rank (R30), and what becomes of
one that the cycle under way cannot take any more (R27). -/

namespace Sys2Proof.Machine

/-! ## Holders and sources -/

/-- The Keeper as a holder. -/
def atKeeper : Nat := 0
/-- A Ward as a holder. -/
def atWard (w : Nat) : Nat := 1 + w
/-- A Hinge as a holder. -/
def atHinge (h : Nat) : Nat := 100 + h
/-- The MP of a Ward, which serves one ring fetcher in a cycle (R35). -/
def atFetch (w : Nat) : Nat := 200 + w
/-- The combining units of a Ward, which apply or drain in a cycle (R202). -/
def atComb (w : Nat) : Nat := 300 + w
/-- The stage into which a unit's trace entries are taken (R310). -/
def atTrace : Nat := 400
/-- The record FIFO of the meter and its key store (R335, R337). -/
def atRec : Nat := 401
/-- The accumulators of the meter (R333, R335). -/
def atAcc : Nat := 402

/-- The sources in the order of R30: a Ward's own ports by global number, the Keeper's own units, source Wards, Hinges, the
management port. -/
def fromKeeper : Nat := 4096
/-- A source Ward. -/
def fromWard (w : Nat) : Nat := 4097 + w
/-- A Hinge. -/
def fromHinge (h : Nat) : Nat := 8192 + h
/-- The management port. -/
def fromMgt : Nat := 16384
/-- An engine port, as Ward `w` sees it. -/
def fromPort (p : Params) (w n : Nat) : Nat := if portWard p n = w then n else fromWard (portWard p n)
/-- A Ward, or the Keeper. -/
def fromUnit : Option Nat → Nat
  | some w => fromWard w
  | none => fromKeeper

/-- Where an item on its way comes from; `w` is the Ward that samples it. -/
def itemFrom (p : Params) (b : Block) (w : Nat) : XItem → Nat
  | .succ o _ _ _ _ => fromWard (homeOf o)
  | .settle u _ _ _ _ _ => match (ent b (wHandle u)).port with | some n => fromWard (portWard p n) | none => fromKeeper
  | .toRing u _ _ _ _ _ _ => fromWard (homeOf (wHandle u))
  | .proxy u _ => match (ent b (wHandle u)).port with | some n => fromWard (portWard p n) | none => fromKeeper
  | .msg m => match (getChan b m.key).bind txPortOf with | some n => fromPort p w n | none => fromKeeper
  | .nack _ _ _ src => fromUnit src
  | .ack _ _ src => fromUnit src
  | .close _ _ src => fromUnit src
  | .chAlloc _ n _ _ => fromWard (portWard p n)
  | .sig _ _ (.settle _ _ u _) => fromWard (homeOf (wHandle u))
  | .sig _ _ (.hsig n _ _) => fromWard (portWard p n)
  | .keyReq _ n _ _ _ _ => fromPort p w n
  | .keyRet _ _ _ n _ => fromPort p w n
  | .unload h _ _ => fromWard (homeOf h)
  | _ => fromKeeper

/-- Where the item that a command samples comes from. -/
def whence (p : Params) (b : Block) (w : Nat) (f : XItem → Bool) : Nat :=
  match xfind b f with
  | some x => itemFrom p b w x
  | none => fromKeeper

/-! ## The place of a command in its cycle -/

/-- The clock at whose edges a command is sampled (R25): any fclk; the fclk of an mclk edge, for a management write (R23);
the one after it, before its first event, for a management read, which returns what the cycle of the edge left (R24); the
fclk of an sclk edge, for the meter, and for its register port. -/
inductive Gate where
  | fclk
  | mgtWrite
  | mgtRead
  | sclk
  | mtp
deriving DecidableEq, Repr

/-- How a command takes part in a cycle: its clock, the holders whose order it enters, its rank (Table 1.4; 11 and above for
what follows the events of a cycle), its source (R30), whether it is the only one of its kind in the cycle, the Ward
whose input stage takes it as a tumbler item (R419), whether its sender ends the cycle with it (log entry 7). -/
structure Turn where
  gate : Gate := .fclk
  holders : List Nat := []
  rank : Nat := 0
  src : Nat := 0
  once : Bool := false
  item : Option Nat := none
  ends : Bool := false
deriving DecidableEq, Repr

/-- The place in the order of a cycle: by rank, then by source. -/
def Turn.key (t : Turn) : Nat := t.rank * 32768 + t.src + 1

/-- An event of one holder. -/
def evt (holder rank src : Nat) : Turn := { holders := [holder], rank := rank, src := src }

/-- A management write, of the rank given, at its holders. -/
def mgtEvt (holders : List Nat) (rank : Nat) : Turn := { gate := .mgtWrite, holders := holders, rank := rank, src := fromMgt }

/-- A management write of rank 10. -/
def mgtReg (holders : List Nat) : Turn := mgtEvt holders 10

/-- A management read. -/
def mgtReadEvt : Turn := { gate := .mgtRead }

/-- A tumbler item at the home Ward of an entry (R419). -/
def tumblerEvt (p : Params) (b : Block) (rank kind : Nat) (word root : Word32) (src : Option Via) (eoc : Bool) : Turn :=
  let w := homeOf (wHandle word)
  { evt (atWard w) rank (match src with | some v => fromHinge v.hinge | none => whence p b w (isSucc kind word root)) with
    item := some w, ends := eoc }

/-- The holders of a register: the Wards of a window (R23), a Hinge, the Keeper for every other page. -/
def regHolders (p : Params) (b : Block) (a : Nat) : List Nat :=
  match pageOf p a with
  | some (.ward w _) => [atWard w]
  | some (.bcast _) => (members p b .bcast).map atWard
  | some (.group g _) => (members p b (.group g)).map atWard
  | some (.hinge h) => [atHinge h]
  | _ => [atKeeper]

/-- A ring's home Ward as a holder. -/
def atRing (b : Block) (r : Nat) : Nat := atWard (rHome (rng b r))

/-- The home Ward of the ring that a tenant's slot names. -/
def atSlot (b : Block) (t slot : Nat) : Nat := atWard (bellWard b t slot)

/-- A management write by its address: a doorbell is of rank 9, a ring's cancel and a pre-emption request of rank 7, a write of
KP_HASP_FORCE of rank 6, every other one of rank 10 (Table 1.4). -/
def writeTurn (p : Params) (b : Block) (a : Nat) (data : Word32) : Turn :=
  match pageOf p a with
  | some (.tenant t) =>
    if a % 0x1000 = 0x040 then mgtEvt [atSlot b t (fld data 16 6)] 9
    else if a % 0x1000 = 0x044 then mgtEvt [atSlot b t (fld data 0 6)] 7
    else mgtReg [atKeeper]
  | _ =>
    if a = kA 5 0x058 then mgtEvt [atKeeper] 6
    else if a = kA 5 0x060 then mgtEvt [atKeeper] 7
    else mgtReg (regHolders p b a)

/-- The unit of a table. -/
def atUnit : UnitId → Nat
  | .keeper => atKeeper
  | .ward w => atWard w
  | .hinge h => atHinge h

/-- A request of an engine port on MSG, KEY or CMP, as its own Ward samples it. -/
def portEvt (p : Params) (rank port : Nat) : Turn := evt (atWard (portWard p port)) rank port

/-- An access at the meter's register port. -/
def mtpEvt : Turn := { gate := .mtp }

/-- A drain whose last response settles the queue's entry: a combining-queue release (R195, R419). -/
def drainEnds (b : Block) (w q : Nat) : Bool :=
  let c := cqu b w q
  decide (c.wrOut = 1) && decide (c.drained = c.len) && decide (c.outBuf = [])

/-- The holder of the receiving end of a channel. -/
def msgWard (p : Params) (b : Block) (key : ChKey) (seq : BitVec 16) : Nat :=
  match getChan b key with
  | some c => rxWard p c (match xfind b (isMsg key seq) with | some (.msg m) => m.hop | _ => none)
  | none => 0

/-- The Ward of a channel's sending endpoint. -/
def sendWard (p : Params) (b : Block) (key : ChKey) : Nat :=
  (((getChan b key).bind txPortOf).map (portWard p)).getD 0

/-- A NACK on its way. -/
def isNackItem (key : ChKey) (seq : BitVec 16) : XItem → Bool
  | .nack k q _ _ => decide (k = key) && decide (q = seq)
  | _ => false

/-- A decision on its way to the port's Ward. -/
def isPdec (h : Nat) : XItem → Bool
  | .pdec k _ _ _ _ => decide (k = h)
  | _ => false

/-- An unload directive on its way. -/
def isUnload (h : Nat) : XItem → Bool
  | .unload k _ _ => decide (k = h)
  | _ => false

/-- The port that a decision or an unload directive names. -/
def portNamed (b : Block) (f : XItem → Bool) : Nat :=
  match xfind b f with
  | some (.pdec _ _ n _ _) => n
  | some (.unload _ _ n) => n
  | _ => 0

/-- The tier and home Ward of a request at the placement engine (R84). -/
def tierOf (b : Block) (h : Nat) : Nat :=
  match b.place.reqs.find? (fun r => r.handle = h) with
  | some r => r.tier * 64 + homeOf h + 1
  | none => homeOf h + 1

/-- The place of each command in its cycle. A command with no holder enters no order: it is no event of Table 1.4 but a
unit's own progress, a response, a pin, or a time the rules fix to the cycle (log entry 42). -/
def turnOf (p : Params) (b : Block) : Instr → Turn
  | .porstNAssert | .porstNRelease | .srstNAssert | .srstNRelease | .mtrRstN | .domainResetRelease _ | .bootScrubDone _
  | .selfTestDone _ _ _ | .rescrubDone _ | .tmrCheck _ | .linkUp _ | .linkUpTimeout _ => {}
  | .lock | .fwfail | .ringDescriptorWrite _ _ | .ringEnable | .ringDisable | .tenantCfgWrite _ | .haspAssign _
  | .preemptResume _ | .logPop | .logReinit | .lrClear | .counterSnapshotOrder | .blockedOnSnapOrder | .dumpGo
  | .traceEnable | .traceDisable | .traceTrigWrite | .discFaultClear | .captureClear => mgtReg [atKeeper]
  | .commitForce => mgtReg (atKeeper :: (members p b .bcast).map atWard)
  | .registerWrite .mgt addr data _ => writeTurn p b addr.toNat data
  | .registerWrite .mtp _ _ _ => mtpEvt
  | .rwqShadowWrite addr data => writeTurn p b addr.toNat data
  | .commitPoint w => evt (atWard w) 12 0
  | .windowRead _ | .eventRingRead _ | .mqRdataAdvance _ => mgtReadEvt
  | .multiwordReadLatch (.mgt, _) => mgtReadEvt
  | .multiwordReadLatch (.mtp, _) => mtpEvt
  | .haspForce => mgtEvt [atKeeper] 6
  | .preemptRequest _ _ => mgtEvt [atKeeper] 7
  | .keyPoolCfgWrite t _ _ | .keyPoolReset t | .mqCfgWrite t _ _ | .mqFlush t | .mqPush t _ | .mqPop t =>
    mgtReg ((members p b t).map atWard)
  | .flushDiscard _ _ => {}
  | .counterClear .keeper => mgtReg [atKeeper]
  | .counterClear (.wards t) => mgtReg ((members p b t).map atWard)
  | .counterClear (.hinge h) => mgtReg [atHinge h]
  | .counterSnapshot | .blockedOnSnapshot | .blockedOnDone | .dumpSnapshotTimeout _ | .dumpDone => {}
  | .hingeDownWrite h | .hingeRearm h | .tsUnlock h => mgtReg [atHinge h]
  | .tnDoorbell t slot _ => mgtEvt [atSlot b t (slot % 64)] 9
  | .ringCancelOldest t slot | .ringCancelAll t slot => mgtEvt [atSlot b t slot] 7
  | .ringResume t slot => mgtReg [atSlot b t slot]
  | .meterRun | .meterStop | .meterConfigWrite _ => mtpEvt
  | .meterRecPop => { mtpEvt with holders := [atRec], rank := 1 }
  | .tallySlotSample _ => { gate := .sclk, holders := [atAcc], rank := 1 }
  | .periodClose => { gate := .sclk, holders := [atAcc], rank := 2 }
  | .keyStoreAck _ _ => { gate := .sclk, holders := [atRec], rank := 2 }
  | .periodDue | .recordForm _ | .keyStoreTimeout | .signRetry => { gate := .sclk }
  | .issueCommit _ _ | .issDescriptorAccepted _ | .preloadStart _ | .argumentReadResponse _ _ _ | .preloadComplete _ => {}
  | .canAck port _ _ => portEvt p 4 port
  | .cmpRecord port _ _ eoc => { portEvt p 4 port with ends := eoc }
  | .opdDelivery _ | .landingCreditReturn _ _ | .statusBeatAccepted _ => {}
  | .send port _ _ | .contrib port _ _ | .openReq port _ | .closeReq port _ | .hsig port _ | .keyreq port _
  | .returnUnused port _ | .slotwr port _ | .badMsgRequest port _ _ | .returnKret port _ => portEvt p 5 port
  | .doorbell port _ => portEvt p 9 port
  | .ctlOnlineChange _ _ _ _ | .ctlSnapshotReceived _ _ | .snapshotTimeout _ => {}
  | .portReset port => portEvt p 4 port
  | .decrement word src eoc => tumblerEvt p b 4 0 word 0 src eoc
  | .failureNotice word root src eoc => tumblerEvt p b 4 1 word root src eoc
  | .cancelNotice word src eoc => tumblerEvt p b 7 2 word 0 src eoc
  | .seal w _ _ src eoc =>
    { evt (atWard w) 9 (match src with | some v => fromHinge v.hinge | none => fromKeeper) with ends := eoc }
  | .guardWaitPass _ => {}
  | .settlementNotice .fromPort word eoc =>
    { evt (atWard (homeOf (wHandle word))) 4 (whence p b (homeOf (wHandle word)) (isSettle word)) with ends := eoc }
  | .settlementNotice .toRing word eoc =>
    { evt (match xfind b (isToRing word) with | some (.toRing _ r _ _ _ _ _) => atRing b r | _ => atKeeper) 4
        (fromWard (homeOf (wHandle word))) with ends := eoc }
  | .issueProxyNotice _ word => evt (atWard (homeOf (wHandle word))) 4 (whence p b (homeOf (wHandle word)) (isProxy word))
  | .successorDelivery _ | .entryFree _ | .quarantineEnd _ | .edgeRefetchDone _ => {}
  | .taskClassTimeout h => evt (atWard (homeOf h)) 8 (fromWard (homeOf h))
  | .arbiterForward w => { evt (atWard w) 11 0 with once := true }
  | .placementRequest h => evt atKeeper 4 (fromWard (homeOf h))
  | .waitingListOffer => evt atKeeper 11 0
  | .placementDecision h => evt atKeeper 11 (tierOf b h)
  | .stagingRequest h => evt atKeeper 12 (homeOf h)
  | .stagingNoPort h => evt (atWard (homeOf h)) 4 fromKeeper
  | .placementDecisionArrival h => evt (atWard (portWard p (portNamed b (isPdec h)))) 4 fromKeeper
  | .stagedTaskPlaced _ => {}
  | .governorRequest _ => evt atKeeper 13 0
  | .governorQueueGrant _ => evt atKeeper 13 1
  | .governorWindowStart _ => {}
  | .portRelease port _ => evt atKeeper 4 (fromWard (portWard p port))
  | .taskCancel h => evt (atWard (homeOf h)) 7 (whence p b (homeOf h) (isCancel h))
  | .withdrawal h => evt atKeeper 7 (fromWard (homeOf h))
  | .unloadDirective h => evt (atWard (portWard p (portNamed b (isUnload h)))) 7 (fromWard (homeOf h))
  | .epochMint | .tokenArrival _ => {}
  | .ringFetch w => { evt (atFetch w) 1 0 with once := true }
  | .ringFetchResponse ring _ resp _ => if resp = .okay then {} else evt (atRing b ring) 3 (fromWard (rHome (rng b ring)))
  | .ringRepoll _ | .recordAccept _ _ | .waitsubRelease _ | .segmentHeader _ _ _ | .graphPass1 _
  | .fanListReadResponse _ _ _ _ | .operandReadResponse _ _ _ _ | .graphPass2 _ | .entryQueueAdmit _ | .graphPass3 _
  | .aheadRelease _ | .cond _ _ | .loop _ _ | .endloop _ _ | .stepEnd _ _ | .yield _ _ | .fence _ _ | .fenceRelease _
  | .indirect _ _ | .setSlot _ _ | .note _ _ | .mark _ _ | .nop _ _ | .haspWait _ _ | .openCh _ _ | .closeCh _ _ => {}
  | .haspSignal _ _ | .haspReset _ _ => evt atKeeper 6 fromKeeper
  | .commandFaultNotice ring => evt (atRing b ring) 3 fromKeeper
  | .ringTimeout ring | .stepTimeout ring => evt (atRing b ring) 8 (fromWard (rHome (rng b ring)))
  | .statusBlockWriteResponse _ _ _ | .digestWriteResponse _ _ _ | .noteWriteResponse _ _ _ => {}
  | .messageArrival key _ (some x) => evt (atWard (msgWard p b key 0)) 5 (fromHinge x.1)
  | .messageArrival key seq none => evt (atWard (msgWard p b key seq)) 5 (whence p b (msgWard p b key seq) (isMsg key seq))
  | .nackReturn key _ (some x) => evt (atWard (sendWard p b key)) 5 (fromHinge x.1)
  | .nackReturn key seq none => evt (atWard (sendWard p b key)) 5 (whence p b (sendWard p b key) (isNackItem key seq))
  | .answerReturn port (some x) => evt (atWard (portWard p port)) 5 (fromHinge x.1)
  | .answerReturn port none => evt (atWard (portWard p port)) 5 (whence p b (portWard p port) (isAnswer b port))
  | .channelAllocate => evt atKeeper 5 (whence p b 0 isAlloc)
  | .bindNotice _ | .channelIdFree _ => {}
  | .channelCloseApply key place =>
    let w := match getChan b key with | some c => closeWard p c place | none => 0
    evt (atWard w) 7 (whence p b w (isClose key place))
  | .stormNotice _ => {}
  | .partArrival qid _ _ (some x) => evt (atWard (fld qid 6 6)) 5 (fromHinge x.1)
  | .partArrival qid _ port none => evt (atWard (fld qid 6 6)) 5 (fromPort p (fld qid 6 6) port)
  | .partApply w | .drainConvert w _ => { evt (atComb w) 1 0 with once := true }
  | .drainWriteResponse w q _ =>
    if drainEnds b w q then { evt (atWard w) 4 (fromWard w) with item := some w } else {}
  | .tearNotice qid _ port => evt (atWard (fld qid 6 6)) 4 (fromPort p (fld qid 6 6) port)
  | .queueNumberFree _ _ => {}
  | .signal h inc src => evt atKeeper 6 (match src with | .remote v _ => fromHinge v.hinge | s => itemFrom p b 0 (.sig h inc s))
  | .waitRegistration _ => {}
  | .waitRelease => { evt atKeeper 14 0 with once := true }
  | .taskFormRelease port => evt (atWard (portWard p port)) 6 fromKeeper
  | .keyRequestArrival dport reqport => evt (atWard (portWard p dport)) 5 (fromPort p (portWard p dport) reqport)
  | .keyReturn dport pool gseq =>
    evt (atWard (portWard p dport)) 5 (whence p b (portWard p dport) (isKeyRet dport pool gseq))
  | .keyTimeout dport _ _ => evt (atWard (portWard p dport)) 8 (fromWard (portWard p dport))
  | .autoPreemptTrigger => evt atKeeper 7 fromKeeper
  | .discardNotice w _ => evt (atWard w) 7 fromKeeper
  | .autoResume => {}
  | .helloReceived _ _ | .itemForward _ _ | .remoteReserve _ _ | .hndAnswer _ _ _ | .remoteRetryExpiry _ | .linkItem _ _ _ _
  | .xctlAbandon _ _ => {}
  | .setlItem via ring _ _ => evt (atRing b ring) 4 (fromHinge via.hinge)
  | .hopItem src _ _ _ _ _ => evt atKeeper 6 (fromHinge src.hinge)
  | .hrelItem it => evt atKeeper 6 (fromHinge it.1)
  | .chcItem src _ .openCh _ _ _ => evt atKeeper 5 (fromHinge src.hinge)
  | .chcItem src _ .close _ _ _ => evt atKeeper 7 (fromHinge src.hinge)
  | .chcItem src _ .tear qid _ _ => evt (atWard (qid / 64 % 64)) 4 (fromHinge src.hinge)
  | .confReceived _ _ | .confSend _ | .retrainNotification _ | .linkActiveAgain _ | .holdMaxExpiry _ | .linkError _ => {}
  | .hingeDownEvent h => evt atKeeper 3 (fromHinge h)
  | .unrchItem _ _ _ => {}
  | .unreachableNotice w _ => evt (atWard w) 3 fromKeeper
  | .tsFlitSend _ | .tsSample _ _ | .tsSlewStep | .tsHoldEnd | .tsLost _ => {}
  | .scrubRead _ _ _ _ => {}
  | .uncorrectableWord u _ _ _ => evt (atUnit u) 3 0
  | .tmrDisagreement _ => evt atKeeper 3 0
  | .replay _ | .crossbarRetransmit _ _ | .logRecordArrival _ | .deadboltSample _ _ => {}
  | .deadboltAssert => { holders := atKeeper :: (members p b .bcast).map atWard, rank := 2 }
  | .drainEnd => evt atKeeper 8 fromKeeper
  | .deadboltRelease | .hangDetect _ => {}
  | .traceEntryStage => { evt atTrace 1 0 with once := true }
  | .traceFifoDrop _ | .traceBlockWrite | .traceWriteResponse _ | .samplePeriod _ | .portResetRelease _
  | .issueCopyReread _ _ | .hingeCreditReturn _ _ _ | .stallRequest _ => {}

/-! ## Sampling -/

/-- The latest place taken at a holder in the cycle under way. -/
def Cycle.lastAt (k : Cycle) (u : Nat) : Nat := Tbl.get 0 k.last u

/-- The tumbler items that a Ward's input stage accepts in a cycle (R419). -/
def itemsPerFclk : Nat := 4

/-- The cycles of a command's clock: their number of fclk, and the fclk within it. -/
def Gate.phase : Gate → Nat × Nat
  | .fclk => (1, 0)
  | .mgtWrite => (4, 0)
  | .mgtRead => (4, 1)
  | .sclk => (16, 0)
  | .mtp => (16, 0)

/-- The clock's edge falls in the cycle, and the command's port has taken no other access of that edge; a read comes before
the first event of its fclk. -/
def Gate.opens (g : Gate) (f : Nat) (k : Cycle) : Bool :=
  decide (f % g.phase.1 = g.phase.2) && (match g with
    | .fclk => true
    | .mgtWrite => !k.wrote
    | .mgtRead => !k.read && !k.began
    | .sclk => true
    | .mtp => !k.meter)

/-- The cycle under way takes a command: its clock's edge falls there, no holder has sampled an event that comes after it in
the order of R29 and R30, its Ward's input stage still accepts it. -/
def Turn.fits (t : Turn) (f : Nat) (k : Cycle) : Bool :=
  t.gate.opens f k && t.holders.all (fun u => decide (if t.once then k.lastAt u < t.key else k.lastAt u ≤ t.key))
    && (t.holders = [] || !k.ended) && (match t.item with | some w => decide (Tbl.get 0 k.items w < itemsPerFclk) | none => true)

/-- The command is sampled in the cycle under way; under PORST_N no clock runs and it acts at once. -/
def inTurn (p : Params) (b : Block) (k : Cycle) (c : Instr) : Bool := b.boot.porst || (turnOf p b c).fits b.clk.fclk k

/-- The cycles for which a command is held at its input stage (R27). -/
def heldFor (p : Params) (b : Block) (k : Cycle) (c : Instr) : Nat :=
  if inTurn p b k c then 0
  else
    let n := (turnOf p b c).gate.phase
    n.1 - (b.clk.fclk + n.1 - n.2) % n.1

/-- The cycles that pass while a command is held. -/
def State.pass : Nat → State → State
  | 0, s => s
  | n + 1, s => State.pass n s.nextCycle

/-- The command sampled: what the cycle holds of it. -/
def Turn.mark (t : Turn) (k : Cycle) : Cycle :=
  { last := t.holders.foldl (fun l u => Tbl.set 0 l u t.key) k.last,
    items := match t.item with | some w => Tbl.set 0 k.items w (Tbl.get 0 k.items w + 1) | none => k.items,
    began := k.began || decide (t.gate ≠ .mgtRead),
    wrote := k.wrote || decide (t.gate = .mgtWrite),
    read := k.read || decide (t.gate = .mgtRead),
    meter := k.meter || decide (t.gate = .mtp),
    ended := k.ended || t.ends }

/-- The doorbells and slot writes that reach the command's holders in this cycle and come before it in the order (R29). -/
def earlier (p : Params) (t : Turn) (b : Block) : Block :=
  deliverDue p (fun r w => decide (atWard w ∈ t.holders) && decide (r < t.rank)) b

/-- The state in which a command acts: it is held until a cycle takes it (R27), and what comes before it there is done. -/
def State.sampled (c : Instr) (s : State) : State :=
  let s := s.pass (heldFor s.params s.block s.cycle c)
  let t := turnOf s.params s.block c
  { s.onBlock (fun p => earlier p t) with cycle := t.mark s.cycle }

end Sys2Proof.Machine
end

