-- ==== Sys2Proof/Machine/Events.lean ====
section
/-! DEFINITION. The commands as their holders sample them: each acts, as its family defines, on the state in which its cycle
takes it (R27, R29). -/

namespace Sys2Proof.Machine

/-- PORST_N_ASSERT (R379). -/
def execPorstNAssert (s : State) : Outcome := actPorstNAssert (s.sampled .porstNAssert)

/-- PORST_N_RELEASE (R376). -/
def execPorstNRelease (s : State) : Outcome := actPorstNRelease (s.sampled .porstNRelease)

/-- SRST_N_ASSERT (R379). -/
def execSrstNAssert (s : State) : Outcome := actSrstNAssert (s.sampled .srstNAssert)

/-- SRST_N_RELEASE (R386). -/
def execSrstNRelease (s : State) : Outcome := actSrstNRelease (s.sampled .srstNRelease)

/-- MTR_RST_N (R330). -/
def execMtrRstN (s : State) : Outcome := actMtrRstN (s.sampled .mtrRstN)

/-- DOMAIN_RESET_RELEASE (R376). -/
def execDomainResetRelease (d : Domain) (s : State) : Outcome := actDomainResetRelease d (s.sampled (.domainResetRelease d))

/-- BOOT_SCRUB_DONE (R380). -/
def execBootScrubDone (u : UnitId) (s : State) : Outcome := actBootScrubDone u (s.sampled (.bootScrubDone u))

/-- SELF_TEST_DONE (R381). -/
def execSelfTestDone (u : UnitId) (fatal : List (Nat × Nat)) (corrected : List (Nat × Nat)) (s : State) : Outcome :=
  actSelfTestDone u fatal corrected (s.sampled (.selfTestDone u fatal corrected))

/-- RESCRUB_DONE (R380). -/
def execRescrubDone (u : UnitId) (s : State) : Outcome := actRescrubDone u (s.sampled (.rescrubDone u))

/-- TMR_CHECK (R383). -/
def execTmrCheck (bad : BitVec 3) (s : State) : Outcome := actTmrCheck bad (s.sampled (.tmrCheck bad))

/-- LINK_UP (R384). -/
def execLinkUp (h : Nat) (s : State) : Outcome := actLinkUp h (s.sampled (.linkUp h))

/-- LINK_UP_TIMEOUT (R384). -/
def execLinkUpTimeout (h : Nat) (s : State) : Outcome := actLinkUpTimeout h (s.sampled (.linkUpTimeout h))

/-- LOCK (R389). -/
def execLock (s : State) : Outcome := actLock (s.sampled .lock)

/-- FWFAIL (R388). -/
def execFwfail (s : State) : Outcome := actFwfail (s.sampled .fwfail)

/-- REGISTER_WRITE (R390). -/
def execRegisterWrite (port : RegPort) (addr : BitVec 24) (data : BitVec 32) (strb : BitVec 4) (s : State) : Outcome :=
  actRegisterWrite port addr data strb (s.sampled (.registerWrite port addr data strb))

/-- RWQ_SHADOW_WRITE (R391). -/
def execRwqShadowWrite (addr : BitVec 24) (data : BitVec 32) (s : State) : Outcome :=
  actRwqShadowWrite addr data (s.sampled (.rwqShadowWrite addr data))

/-- COMMIT_POINT (R392). -/
def execCommitPoint (w : Nat) (s : State) : Outcome := actCommitPoint w (s.sampled (.commitPoint w))

/-- COMMIT_FORCE (R392). -/
def execCommitForce (s : State) : Outcome := actCommitForce (s.sampled .commitForce)

/-- WINDOW_READ (R402). -/
def execWindowRead (addr : BitVec 24) (s : State) : Outcome := actWindowRead addr (s.sampled (.windowRead addr))

/-- MULTIWORD_READ_LATCH (R400). -/
def execMultiwordReadLatch (addr : RegPort × BitVec 24) (s : State) : Outcome :=
  actMultiwordReadLatch addr (s.sampled (.multiwordReadLatch addr))

/-- EVENT_RING_READ (R320). -/
def execEventRingRead (addr : BitVec 24) (s : State) : Outcome := actEventRingRead addr (s.sampled (.eventRingRead addr))

/-- RING_DESCRIPTOR_WRITE (R110). -/
def execRingDescriptorWrite (k : Nat) (data : BitVec 32) (s : State) : Outcome :=
  actRingDescriptorWrite k data (s.sampled (.ringDescriptorWrite k data))

/-- RING_ENABLE (R110). -/
def execRingEnable (s : State) : Outcome := actRingEnable (s.sampled .ringEnable)

/-- RING_DISABLE (R111). -/
def execRingDisable (s : State) : Outcome := actRingDisable (s.sampled .ringDisable)

/-- TENANT_CFG_WRITE (R230). -/
def execTenantCfgWrite (data : BitVec 32) (s : State) : Outcome := actTenantCfgWrite data (s.sampled (.tenantCfgWrite data))

/-- HASP_ASSIGN (R206). -/
def execHaspAssign (data : BitVec 32) (s : State) : Outcome := actHaspAssign data (s.sampled (.haspAssign data))

/-- HASP_FORCE (R216). -/
def execHaspForce (s : State) : Outcome := actHaspForce (s.sampled .haspForce)

/-- PREEMPT_REQUEST (R237). -/
def execPreemptRequest (ring : Nat) (queue : Bool) (s : State) : Outcome :=
  actPreemptRequest ring queue (s.sampled (.preemptRequest ring queue))

/-- PREEMPT_RESUME (R242). -/
def execPreemptResume (ring : Nat) (s : State) : Outcome := actPreemptResume ring (s.sampled (.preemptResume ring))

/-- KEY_POOL_CFG_WRITE (R217). -/
def execKeyPoolCfgWrite (tgt : WTarget) (k : Nat) (data : BitVec 32) (s : State) : Outcome :=
  actKeyPoolCfgWrite tgt k data (s.sampled (.keyPoolCfgWrite tgt k data))

/-- KEY_POOL_RESET (R223). -/
def execKeyPoolReset (tgt : WTarget) (s : State) : Outcome := actKeyPoolReset tgt (s.sampled (.keyPoolReset tgt))

/-- MQ_CFG_WRITE (R170). -/
def execMqCfgWrite (tgt : WTarget) (k : Nat) (data : BitVec 32) (s : State) : Outcome :=
  actMqCfgWrite tgt k data (s.sampled (.mqCfgWrite tgt k data))

/-- MQ_FLUSH (R174). -/
def execMqFlush (tgt : WTarget) (s : State) : Outcome := actMqFlush tgt (s.sampled (.mqFlush tgt))

/-- FLUSH_DISCARD (R174). -/
def execFlushDiscard (w : Nat) (q : Nat) (s : State) : Outcome := actFlushDiscard w q (s.sampled (.flushDiscard w q))

/-- MQ_PUSH (R175). -/
def execMqPush (tgt : WTarget) (be : Bool) (s : State) : Outcome := actMqPush tgt be (s.sampled (.mqPush tgt be))

/-- MQ_POP (R175). -/
def execMqPop (tgt : WTarget) (s : State) : Outcome := actMqPop tgt (s.sampled (.mqPop tgt))

/-- MQ_RDATA_ADVANCE (R413). -/
def execMqRdataAdvance (w : Nat) (s : State) : Outcome := actMqRdataAdvance w (s.sampled (.mqRdataAdvance w))

/-- LOG_POP (R288). -/
def execLogPop (s : State) : Outcome := actLogPop (s.sampled .logPop)

/-- LOG_REINIT (R292). -/
def execLogReinit (s : State) : Outcome := actLogReinit (s.sampled .logReinit)

/-- LR_CLEAR (R292). -/
def execLrClear (s : State) : Outcome := actLrClear (s.sampled .lrClear)

/-- COUNTER_CLEAR (R302). -/
def execCounterClear (tgt : CTarget) (s : State) : Outcome := actCounterClear tgt (s.sampled (.counterClear tgt))

/-- COUNTER_SNAPSHOT_ORDER (R304). -/
def execCounterSnapshotOrder (s : State) : Outcome := actCounterSnapshotOrder (s.sampled .counterSnapshotOrder)

/-- COUNTER_SNAPSHOT (R304). -/
def execCounterSnapshot (s : State) : Outcome := actCounterSnapshot (s.sampled .counterSnapshot)

/-- BLOCKED_ON_SNAP_ORDER (R322). -/
def execBlockedOnSnapOrder (s : State) : Outcome := actBlockedOnSnapOrder (s.sampled .blockedOnSnapOrder)

/-- BLOCKED_ON_SNAPSHOT (R322). -/
def execBlockedOnSnapshot (s : State) : Outcome := actBlockedOnSnapshot (s.sampled .blockedOnSnapshot)

/-- BLOCKED_ON_DONE (R322). -/
def execBlockedOnDone (s : State) : Outcome := actBlockedOnDone (s.sampled .blockedOnDone)

/-- DUMP_GO (R299). -/
def execDumpGo (s : State) : Outcome := actDumpGo (s.sampled .dumpGo)

/-- DUMP_SNAPSHOT_TIMEOUT (R299). -/
def execDumpSnapshotTimeout (port : Nat) (s : State) : Outcome :=
  actDumpSnapshotTimeout port (s.sampled (.dumpSnapshotTimeout port))

/-- DUMP_DONE (R299). -/
def execDumpDone (s : State) : Outcome := actDumpDone (s.sampled .dumpDone)

/-- TRACE_ENABLE (R314). -/
def execTraceEnable (s : State) : Outcome := actTraceEnable (s.sampled .traceEnable)

/-- TRACE_DISABLE (R314). -/
def execTraceDisable (s : State) : Outcome := actTraceDisable (s.sampled .traceDisable)

/-- TRACE_TRIG_WRITE (R316). -/
def execTraceTrigWrite (s : State) : Outcome := actTraceTrigWrite (s.sampled .traceTrigWrite)

/-- HINGE_DOWN_WRITE (R272). -/
def execHingeDownWrite (h : Nat) (s : State) : Outcome := actHingeDownWrite h (s.sampled (.hingeDownWrite h))

/-- HINGE_REARM (R276). -/
def execHingeRearm (h : Nat) (s : State) : Outcome := actHingeRearm h (s.sampled (.hingeRearm h))

/-- TS_UNLOCK (R271). -/
def execTsUnlock (h : Nat) (s : State) : Outcome := actTsUnlock h (s.sampled (.tsUnlock h))

/-- DISC_FAULT_CLEAR (R297). -/
def execDiscFaultClear (s : State) : Outcome := actDiscFaultClear (s.sampled .discFaultClear)

/-- CAPTURE_CLEAR (R147). -/
def execCaptureClear (s : State) : Outcome := actCaptureClear (s.sampled .captureClear)

/-- TN_DOORBELL (R115). -/
def execTnDoorbell (t : Nat) (tslot : Nat) (wptr : BitVec 16) (s : State) : Outcome :=
  actTnDoorbell t tslot wptr (s.sampled (.tnDoorbell t tslot wptr))

/-- RING_CANCEL_OLDEST (R145). -/
def execRingCancelOldest (t : Nat) (tslot : Nat) (s : State) : Outcome :=
  actRingCancelOldest t tslot (s.sampled (.ringCancelOldest t tslot))

/-- RING_CANCEL_ALL (R145). -/
def execRingCancelAll (t : Nat) (tslot : Nat) (s : State) : Outcome :=
  actRingCancelAll t tslot (s.sampled (.ringCancelAll t tslot))

/-- RING_RESUME (R146). -/
def execRingResume (t : Nat) (tslot : Nat) (s : State) : Outcome := actRingResume t tslot (s.sampled (.ringResume t tslot))

/-- METER_RUN (R341). -/
def execMeterRun (s : State) : Outcome := actMeterRun (s.sampled .meterRun)

/-- METER_STOP (R341). -/
def execMeterStop (s : State) : Outcome := actMeterStop (s.sampled .meterStop)

/-- METER_CONFIG_WRITE (R342). -/
def execMeterConfigWrite (c : MtCfg) (s : State) : Outcome := actMeterConfigWrite c (s.sampled (.meterConfigWrite c))

/-- METER_REC_POP (R340). -/
def execMeterRecPop (s : State) : Outcome := actMeterRecPop (s.sampled .meterRecPop)

/-- TALLY_SLOT_SAMPLE (R331). -/
def execTallySlotSample (health : LineHealth) (s : State) : Outcome :=
  actTallySlotSample health (s.sampled (.tallySlotSample health))

/-- PERIOD_DUE (R334). -/
def execPeriodDue (s : State) : Outcome := actPeriodDue (s.sampled .periodDue)

/-- PERIOD_CLOSE (R335). -/
def execPeriodClose (s : State) : Outcome := actPeriodClose (s.sampled .periodClose)

/-- RECORD_FORM (R337). -/
def execRecordForm (bad : List Nat) (s : State) : Outcome := actRecordForm bad (s.sampled (.recordForm bad))

/-- KEY_STORE_ACK (R369). -/
def execKeyStoreAck (mac : BitVec 256) (err : Bool) (s : State) : Outcome :=
  actKeyStoreAck mac err (s.sampled (.keyStoreAck mac err))

/-- KEY_STORE_TIMEOUT (R339). -/
def execKeyStoreTimeout (s : State) : Outcome := actKeyStoreTimeout (s.sampled .keyStoreTimeout)

/-- SIGN_RETRY (R339). -/
def execSignRetry (s : State) : Outcome := actSignRetry (s.sampled .signRetry)

/-- ISSUE_COMMIT (R101). -/
def execIssueCommit (port : Nat) (issok : Bool) (s : State) : Outcome :=
  actIssueCommit port issok (s.sampled (.issueCommit port issok))

/-- ISS_DESCRIPTOR_ACCEPTED (R348). -/
def execIssDescriptorAccepted (port : Nat) (s : State) : Outcome :=
  actIssDescriptorAccepted port (s.sampled (.issDescriptorAccepted port))

/-- PRELOAD_START (R99). -/
def execPreloadStart (port : Nat) (s : State) : Outcome := actPreloadStart port (s.sampled (.preloadStart port))

/-- ARGUMENT_READ_RESPONSE (R99). -/
def execArgumentReadResponse (port : Nat) (resp : Resp) (beats : List (BitVec 256)) (s : State) : Outcome :=
  actArgumentReadResponse port resp beats (s.sampled (.argumentReadResponse port resp beats))

/-- PRELOAD_COMPLETE (R99). -/
def execPreloadComplete (port : Nat) (s : State) : Outcome := actPreloadComplete port (s.sampled (.preloadComplete port))

/-- CAN_ACK (R350). -/
def execCanAck (port : Nat) (hdl : BitVec 25) (held : Bool) (s : State) : Outcome :=
  actCanAck port hdl held (s.sampled (.canAck port hdl held))

/-- CMP_RECORD (R351). -/
def execCmpRecord (port : Nat) (rec : BitVec 256) (stats : Option (BitVec 256)) (eoc : Bool) (s : State) : Outcome :=
  actCmpRecord port rec stats eoc (s.sampled (.cmpRecord port rec stats eoc))

/-- OPD_DELIVERY (R357). -/
def execOpdDelivery (w : Nat) (s : State) : Outcome := actOpdDelivery w (s.sampled (.opdDelivery w))

/-- LANDING_CREDIT_RETURN (R356). -/
def execLandingCreditReturn (port : Nat) (n : Nat) (s : State) : Outcome :=
  actLandingCreditReturn port n (s.sampled (.landingCreditReturn port n))

/-- STATUS_BEAT_ACCEPTED (R167). -/
def execStatusBeatAccepted (port : Nat) (s : State) : Outcome :=
  actStatusBeatAccepted port (s.sampled (.statusBeatAccepted port))

/-- SEND (R160). -/
def execSend (port : Nat) (hdr : BitVec 512) (flits : List (BitVec 512)) (s : State) : Outcome :=
  actSend port hdr flits (s.sampled (.send port hdr flits))

/-- CONTRIB (R186). -/
def execContrib (port : Nat) (hdr : BitVec 512) (flits : List (BitVec 512)) (s : State) : Outcome :=
  actContrib port hdr flits (s.sampled (.contrib port hdr flits))

/-- OPEN (R153). -/
def execOpenReq (port : Nat) (hdr : BitVec 512) (s : State) : Outcome := actOpenReq port hdr (s.sampled (.openReq port hdr))

/-- CLOSE (R158). -/
def execCloseReq (port : Nat) (hdr : BitVec 512) (s : State) : Outcome :=
  actCloseReq port hdr (s.sampled (.closeReq port hdr))

/-- HSIG (R207). -/
def execHsig (port : Nat) (hdr : BitVec 512) (s : State) : Outcome := actHsig port hdr (s.sampled (.hsig port hdr))

/-- KEYREQ (R218). -/
def execKeyreq (port : Nat) (hdr : BitVec 512) (s : State) : Outcome := actKeyreq port hdr (s.sampled (.keyreq port hdr))

/-- RETURN_UNUSED (R221). -/
def execReturnUnused (port : Nat) (hdr : BitVec 512) (s : State) : Outcome :=
  actReturnUnused port hdr (s.sampled (.returnUnused port hdr))

/-- DOORBELL (R116). -/
def execDoorbell (port : Nat) (hdr : BitVec 512) (s : State) : Outcome :=
  actDoorbell port hdr (s.sampled (.doorbell port hdr))

/-- SLOTWR (R354). -/
def execSlotwr (port : Nat) (hdr : BitVec 512) (s : State) : Outcome := actSlotwr port hdr (s.sampled (.slotwr port hdr))

/-- BAD_MSG_REQUEST (R354). -/
def execBadMsgRequest (port : Nat) (hdr : BitVec 512) (beats : Nat) (s : State) : Outcome :=
  actBadMsgRequest port hdr beats (s.sampled (.badMsgRequest port hdr beats))

/-- RETURN (R221). -/
def execReturnKret (port : Nat) (data : BitVec 32) (s : State) : Outcome :=
  actReturnKret port data (s.sampled (.returnKret port data))

/-- CTL_ONLINE_CHANGE (R360). -/
def execCtlOnlineChange (port : Nat) (on : Bool) (lbflits : Nat) (tdm : Nat) (s : State) : Outcome :=
  actCtlOnlineChange port on lbflits tdm (s.sampled (.ctlOnlineChange port on lbflits tdm))

/-- CTL_SNAPSHOT_RECEIVED (R361). -/
def execCtlSnapshotReceived (port : Nat) (beats : List (BitVec 128)) (s : State) : Outcome :=
  actCtlSnapshotReceived port beats (s.sampled (.ctlSnapshotReceived port beats))

/-- SNAPSHOT_TIMEOUT (R361). -/
def execSnapshotTimeout (port : Nat) (s : State) : Outcome := actSnapshotTimeout port (s.sampled (.snapshotTimeout port))

/-- PORT_RESET (R362). -/
def execPortReset (port : Nat) (s : State) : Outcome := actPortReset port (s.sampled (.portReset port))

/-- DECREMENT (R51). -/
def execDecrement (word : BitVec 32) (src : Option Via) (eoc : Bool) (s : State) : Outcome :=
  actDecrement word src eoc (s.sampled (.decrement word src eoc))

/-- FAILURE_NOTICE (R63). -/
def execFailureNotice (word : BitVec 32) (root : BitVec 32) (src : Option Via) (eoc : Bool) (s : State) : Outcome :=
  actFailureNotice word root src eoc (s.sampled (.failureNotice word root src eoc))

/-- CANCEL_NOTICE (R64). -/
def execCancelNotice (word : BitVec 32) (src : Option Via) (eoc : Bool) (s : State) : Outcome :=
  actCancelNotice word src eoc (s.sampled (.cancelNotice word src eoc))

/-- SEAL (R48). -/
def execSeal (w : Nat) (ring : Nat) (seg : Nat) (src : Option Via) (eoc : Bool) (s : State) : Outcome :=
  actSeal w ring seg src eoc (s.sampled (.seal w ring seg src eoc))

/-- GUARD_WAIT_PASS (R71). -/
def execGuardWaitPass (w : Nat) (s : State) : Outcome := actGuardWaitPass w (s.sampled (.guardWaitPass w))

/-- SETTLEMENT_NOTICE (R57). -/
def execSettlementNotice (kind : NoticeKind) (word : BitVec 32) (eoc : Bool) (s : State) : Outcome :=
  actSettlementNotice kind word eoc (s.sampled (.settlementNotice kind word eoc))

/-- ISSUE_PROXY_NOTICE (R57). -/
def execIssueProxyNotice (kind : ProxyKind) (word : BitVec 32) (s : State) : Outcome :=
  actIssueProxyNotice kind word (s.sampled (.issueProxyNotice kind word))

/-- SUCCESSOR_DELIVERY (R59). -/
def execSuccessorDelivery (handle : Nat) (s : State) : Outcome :=
  actSuccessorDelivery handle (s.sampled (.successorDelivery handle))

/-- ENTRY_FREE (R60). -/
def execEntryFree (handle : Nat) (s : State) : Outcome := actEntryFree handle (s.sampled (.entryFree handle))

/-- QUARANTINE_END (R52). -/
def execQuarantineEnd (handle : Nat) (s : State) : Outcome := actQuarantineEnd handle (s.sampled (.quarantineEnd handle))

/-- EDGE_REFETCH_DONE (R61). -/
def execEdgeRefetchDone (handle : Nat) (s : State) : Outcome :=
  actEdgeRefetchDone handle (s.sampled (.edgeRefetchDone handle))

/-- TASK_CLASS_TIMEOUT (R67). -/
def execTaskClassTimeout (handle : Nat) (s : State) : Outcome :=
  actTaskClassTimeout handle (s.sampled (.taskClassTimeout handle))

/-- ARBITER_FORWARD (R105). -/
def execArbiterForward (w : Nat) (s : State) : Outcome := actArbiterForward w (s.sampled (.arbiterForward w))

/-- PLACEMENT_REQUEST (R82). -/
def execPlacementRequest (handle : Nat) (s : State) : Outcome :=
  actPlacementRequest handle (s.sampled (.placementRequest handle))

/-- PLACEMENT_DECISION (R82). -/
def execPlacementDecision (handle : Nat) (s : State) : Outcome :=
  actPlacementDecision handle (s.sampled (.placementDecision handle))

/-- WAITING_LIST_OFFER (R84). -/
def execWaitingListOffer (s : State) : Outcome := actWaitingListOffer (s.sampled .waitingListOffer)

/-- STAGING_REQUEST (R86). -/
def execStagingRequest (handle : Nat) (s : State) : Outcome := actStagingRequest handle (s.sampled (.stagingRequest handle))

/-- STAGING_NO_PORT (R89). -/
def execStagingNoPort (handle : Nat) (s : State) : Outcome := actStagingNoPort handle (s.sampled (.stagingNoPort handle))

/-- PLACEMENT_DECISION_ARRIVAL (R57). -/
def execPlacementDecisionArrival (handle : Nat) (s : State) : Outcome :=
  actPlacementDecisionArrival handle (s.sampled (.placementDecisionArrival handle))

/-- STAGED_TASK_PLACED (R89). -/
def execStagedTaskPlaced (handle : Nat) (s : State) : Outcome :=
  actStagedTaskPlaced handle (s.sampled (.stagedTaskPlaced handle))

/-- GOVERNOR_REQUEST (R94). -/
def execGovernorRequest (handle : Nat) (s : State) : Outcome :=
  actGovernorRequest handle (s.sampled (.governorRequest handle))

/-- GOVERNOR_QUEUE_GRANT (R96). -/
def execGovernorQueueGrant (dom : Nat) (s : State) : Outcome :=
  actGovernorQueueGrant dom (s.sampled (.governorQueueGrant dom))

/-- GOVERNOR_WINDOW_START (R91). -/
def execGovernorWindowStart (throttle : BitVec 16) (s : State) : Outcome :=
  actGovernorWindowStart throttle (s.sampled (.governorWindowStart throttle))

/-- PORT_RELEASE (R81). -/
def execPortRelease (port : Nat) (handle : Nat) (s : State) : Outcome :=
  actPortRelease port handle (s.sampled (.portRelease port handle))

/-- TASK_CANCEL (R103). -/
def execTaskCancel (handle : Nat) (s : State) : Outcome := actTaskCancel handle (s.sampled (.taskCancel handle))

/-- WITHDRAWAL (R103). -/
def execWithdrawal (handle : Nat) (s : State) : Outcome := actWithdrawal handle (s.sampled (.withdrawal handle))

/-- UNLOAD_DIRECTIVE (R103). -/
def execUnloadDirective (handle : Nat) (s : State) : Outcome :=
  actUnloadDirective handle (s.sampled (.unloadDirective handle))

/-- EPOCH_MINT (R106). -/
def execEpochMint (s : State) : Outcome := actEpochMint (s.sampled .epochMint)

/-- TOKEN_ARRIVAL (R106). -/
def execTokenArrival (w : Nat) (s : State) : Outcome := actTokenArrival w (s.sampled (.tokenArrival w))

/-- RING_FETCH (R122). -/
def execRingFetch (w : Nat) (s : State) : Outcome := actRingFetch w (s.sampled (.ringFetch w))

/-- RING_FETCH_RESPONSE (R121). -/
def execRingFetchResponse (ring : Nat) (kind : FetchKind) (resp : Resp) (rec : BitVec 512) (s : State) : Outcome :=
  actRingFetchResponse ring kind resp rec (s.sampled (.ringFetchResponse ring kind resp rec))

/-- RING_REPOLL (R113). -/
def execRingRepoll (ring : Nat) (s : State) : Outcome := actRingRepoll ring (s.sampled (.ringRepoll ring))

/-- RECORD_ACCEPT (R118). -/
def execRecordAccept (ring : Nat) (rec : BitVec 512) (s : State) : Outcome :=
  actRecordAccept ring rec (s.sampled (.recordAccept ring rec))

/-- WAITSUB_RELEASE (R120). -/
def execWaitsubRelease (ring : Nat) (s : State) : Outcome := actWaitsubRelease ring (s.sampled (.waitsubRelease ring))

/-- SEGMENT_HEADER (R124). -/
def execSegmentHeader (ring : Nat) (hdr : BitVec 512) (body : List (BitVec 256)) (s : State) : Outcome :=
  actSegmentHeader ring hdr body (s.sampled (.segmentHeader ring hdr body))

/-- GRAPH_PASS1 (R46). -/
def execGraphPass1 (ring : Nat) (s : State) : Outcome := actGraphPass1 ring (s.sampled (.graphPass1 ring))

/-- FAN_LIST_READ_RESPONSE (R43). -/
def execFanListReadResponse (ring : Nat) (addr : BitVec 48) (resp : Resp) (idx : List Nat) (s : State) : Outcome :=
  actFanListReadResponse ring addr resp idx (s.sampled (.fanListReadResponse ring addr resp idx))

/-- OPERAND_READ_RESPONSE (R126). -/
def execOperandReadResponse (ring : Nat) (addr : BitVec 48) (resp : Resp) (value : BitVec 64) (s : State) : Outcome :=
  actOperandReadResponse ring addr resp value (s.sampled (.operandReadResponse ring addr resp value))

/-- GRAPH_PASS2 (R46). -/
def execGraphPass2 (ring : Nat) (s : State) : Outcome := actGraphPass2 ring (s.sampled (.graphPass2 ring))

/-- ENTRY_QUEUE_ADMIT (R75). -/
def execEntryQueueAdmit (ring : Nat) (s : State) : Outcome := actEntryQueueAdmit ring (s.sampled (.entryQueueAdmit ring))

/-- GRAPH_PASS3 (R46). -/
def execGraphPass3 (ring : Nat) (s : State) : Outcome := actGraphPass3 ring (s.sampled (.graphPass3 ring))

/-- AHEAD_RELEASE (R134). -/
def execAheadRelease (ring : Nat) (s : State) : Outcome := actAheadRelease ring (s.sampled (.aheadRelease ring))

/-- COND (R132). -/
def execCond (ring : Nat) (rec : BitVec 256) (s : State) : Outcome := actCond ring rec (s.sampled (.cond ring rec))

/-- LOOP (R133). -/
def execLoop (ring : Nat) (rec : BitVec 256) (s : State) : Outcome := actLoop ring rec (s.sampled (.loop ring rec))

/-- ENDLOOP (R133). -/
def execEndloop (ring : Nat) (rec : BitVec 256) (s : State) : Outcome := actEndloop ring rec (s.sampled (.endloop ring rec))

/-- STEP_END (R134). -/
def execStepEnd (ring : Nat) (rec : BitVec 256) (s : State) : Outcome := actStepEnd ring rec (s.sampled (.stepEnd ring rec))

/-- YIELD (R135). -/
def execYield (ring : Nat) (rec : BitVec 256) (s : State) : Outcome := actYield ring rec (s.sampled (.yield ring rec))

/-- FENCE (R136). -/
def execFence (ring : Nat) (rec : BitVec 256) (s : State) : Outcome := actFence ring rec (s.sampled (.fence ring rec))

/-- FENCE_RELEASE (R136). -/
def execFenceRelease (ring : Nat) (s : State) : Outcome := actFenceRelease ring (s.sampled (.fenceRelease ring))

/-- INDIRECT (R137). -/
def execIndirect (ring : Nat) (rec : BitVec 256) (s : State) : Outcome :=
  actIndirect ring rec (s.sampled (.indirect ring rec))

/-- SET_SLOT (R138). -/
def execSetSlot (ring : Nat) (rec : BitVec 256) (s : State) : Outcome := actSetSlot ring rec (s.sampled (.setSlot ring rec))

/-- NOTE (R138). -/
def execNote (ring : Nat) (rec : BitVec 256) (s : State) : Outcome := actNote ring rec (s.sampled (.note ring rec))

/-- MARK (R309). -/
def execMark (ring : Nat) (rec : BitVec 256) (s : State) : Outcome := actMark ring rec (s.sampled (.mark ring rec))

/-- NOP (R125). -/
def execNop (ring : Nat) (rec : BitVec 256) (s : State) : Outcome := actNop ring rec (s.sampled (.nop ring rec))

/-- HASP_SIGNAL (R207). -/
def execHaspSignal (ring : Nat) (rec : BitVec 256) (s : State) : Outcome :=
  actHaspSignal ring rec (s.sampled (.haspSignal ring rec))

/-- HASP_RESET (R207). -/
def execHaspReset (ring : Nat) (rec : BitVec 256) (s : State) : Outcome :=
  actHaspReset ring rec (s.sampled (.haspReset ring rec))

/-- HASP_WAIT (R211). -/
def execHaspWait (ring : Nat) (rec : BitVec 256) (s : State) : Outcome :=
  actHaspWait ring rec (s.sampled (.haspWait ring rec))

/-- OPEN_CH (R157). -/
def execOpenCh (ring : Nat) (rec : BitVec 256) (s : State) : Outcome := actOpenCh ring rec (s.sampled (.openCh ring rec))

/-- CLOSE_CH (R158). -/
def execCloseCh (ring : Nat) (rec : BitVec 256) (s : State) : Outcome := actCloseCh ring rec (s.sampled (.closeCh ring rec))

/-- COMMAND_FAULT_NOTICE (R140). -/
def execCommandFaultNotice (ring : Nat) (s : State) : Outcome :=
  actCommandFaultNotice ring (s.sampled (.commandFaultNotice ring))

/-- RING_TIMEOUT (R144). -/
def execRingTimeout (ring : Nat) (s : State) : Outcome := actRingTimeout ring (s.sampled (.ringTimeout ring))

/-- STEP_TIMEOUT (R144). -/
def execStepTimeout (ring : Nat) (s : State) : Outcome := actStepTimeout ring (s.sampled (.stepTimeout ring))

/-- STATUS_BLOCK_WRITE_RESPONSE (R143). -/
def execStatusBlockWriteResponse (ring : Nat) (subid : BitVec 32) (resp : Resp) (s : State) : Outcome :=
  actStatusBlockWriteResponse ring subid resp (s.sampled (.statusBlockWriteResponse ring subid resp))

/-- DIGEST_WRITE_RESPONSE (R328). -/
def execDigestWriteResponse (ring : Nat) (subid : BitVec 32) (resp : Resp) (s : State) : Outcome :=
  actDigestWriteResponse ring subid resp (s.sampled (.digestWriteResponse ring subid resp))

/-- MESSAGE_ARRIVAL (R165). -/
def execMessageArrival (key : ChKey) (seq : BitVec 16) (it : Option (Nat × Item)) (s : State) : Outcome :=
  actMessageArrival key seq it (s.sampled (.messageArrival key seq it))

/-- NACK_RETURN (R166). -/
def execNackReturn (key : ChKey) (seq : BitVec 16) (it : Option (Nat × Item)) (s : State) : Outcome :=
  actNackReturn key seq it (s.sampled (.nackReturn key seq it))

/-- ANSWER_RETURN (R355). -/
def execAnswerReturn (port : Nat) (it : Option (Nat × Item)) (s : State) : Outcome :=
  actAnswerReturn port it (s.sampled (.answerReturn port it))

/-- CHANNEL_ALLOCATE (R154). -/
def execChannelAllocate (s : State) : Outcome := actChannelAllocate (s.sampled .channelAllocate)

/-- BIND_NOTICE (R151). -/
def execBindNotice (key : ChKey) (s : State) : Outcome := actBindNotice key (s.sampled (.bindNotice key))

/-- CHANNEL_CLOSE_APPLY (R159). -/
def execChannelCloseApply (key : ChKey) (place : CloseAt) (s : State) : Outcome :=
  actChannelCloseApply key place (s.sampled (.channelCloseApply key place))

/-- CHANNEL_ID_FREE (R154). -/
def execChannelIdFree (ch : Nat) (s : State) : Outcome := actChannelIdFree ch (s.sampled (.channelIdFree ch))

/-- STORM_NOTICE (R180). -/
def execStormNotice (ch : Nat) (s : State) : Outcome := actStormNotice ch (s.sampled (.stormNotice ch))

/-- PART_ARRIVAL (R188). -/
def execPartArrival (qid : BitVec 16) (inst : Nat) (port : Nat) (it : Option (Nat × Item)) (s : State) : Outcome :=
  actPartArrival qid inst port it (s.sampled (.partArrival qid inst port it))

/-- PART_APPLY (R202). -/
def execPartApply (w : Nat) (s : State) : Outcome := actPartApply w (s.sampled (.partApply w))

/-- DRAIN_CONVERT (R195). -/
def execDrainConvert (w : Nat) (q : Nat) (s : State) : Outcome := actDrainConvert w q (s.sampled (.drainConvert w q))

/-- DRAIN_WRITE_RESPONSE (R195). -/
def execDrainWriteResponse (w : Nat) (q : Nat) (resp : Resp) (s : State) : Outcome :=
  actDrainWriteResponse w q resp (s.sampled (.drainWriteResponse w q resp))

/-- TEAR_NOTICE (R190). -/
def execTearNotice (qid : BitVec 16) (inst : Nat) (port : Nat) (s : State) : Outcome :=
  actTearNotice qid inst port (s.sampled (.tearNotice qid inst port))

/-- QUEUE_NUMBER_FREE (R183). -/
def execQueueNumberFree (w : Nat) (q : Nat) (s : State) : Outcome :=
  actQueueNumberFree w q (s.sampled (.queueNumberFree w q))

/-- SIGNAL (R207). -/
def execSignal (hasp : Nat) (inc : BitVec 32) (src : SigSrc) (s : State) : Outcome :=
  actSignal hasp inc src (s.sampled (.signal hasp inc src))

/-- WAIT_REGISTRATION (R211). -/
def execWaitRegistration (port : Nat) (s : State) : Outcome := actWaitRegistration port (s.sampled (.waitRegistration port))

/-- WAIT_RELEASE (R213). -/
def execWaitRelease (s : State) : Outcome := actWaitRelease (s.sampled .waitRelease)

/-- TASK_FORM_RELEASE (R213). -/
def execTaskFormRelease (port : Nat) (s : State) : Outcome := actTaskFormRelease port (s.sampled (.taskFormRelease port))

/-- KEY_REQUEST_ARRIVAL (R218). -/
def execKeyRequestArrival (dport : Nat) (reqport : Nat) (s : State) : Outcome :=
  actKeyRequestArrival dport reqport (s.sampled (.keyRequestArrival dport reqport))

/-- KEY_RETURN (R221). -/
def execKeyReturn (dport : Nat) (pool : Nat) (gseq : BitVec 16) (s : State) : Outcome :=
  actKeyReturn dport pool gseq (s.sampled (.keyReturn dport pool gseq))

/-- KEY_TIMEOUT (R222). -/
def execKeyTimeout (dport : Nat) (pool : Nat) (idx : Nat) (s : State) : Outcome :=
  actKeyTimeout dport pool idx (s.sampled (.keyTimeout dport pool idx))

/-- AUTO_PREEMPT_TRIGGER (R244). -/
def execAutoPreemptTrigger (s : State) : Outcome := actAutoPreemptTrigger (s.sampled .autoPreemptTrigger)

/-- DISCARD_NOTICE (R238). -/
def execDiscardNotice (w : Nat) (ring : Nat) (s : State) : Outcome :=
  actDiscardNotice w ring (s.sampled (.discardNotice w ring))

/-- AUTO_RESUME (R244). -/
def execAutoResume (s : State) : Outcome := actAutoResume (s.sampled .autoResume)

/-- HELLO_RECEIVED (R260). -/
def execHelloReceived (h : Nat) (hinst : Nat) (s : State) : Outcome :=
  actHelloReceived h hinst (s.sampled (.helloReceived h hinst))

/-- ITEM_FORWARD (R251). -/
def execItemForward (h : Nat) (slots : List (BitVec 128)) (s : State) : Outcome :=
  actItemForward h slots (s.sampled (.itemForward h slots))

/-- REMOTE_RESERVE (R253). -/
def execRemoteReserve (h : Nat) (req : ReserveReq) (s : State) : Outcome :=
  actRemoteReserve h req (s.sampled (.remoteReserve h req))

/-- HND_ANSWER (R253). -/
def execHndAnswer (ring : Nat) (via : Via) (ans : ReserveAns) (s : State) : Outcome :=
  actHndAnswer ring via ans (s.sampled (.hndAnswer ring via ans))

/-- REMOTE_RETRY_EXPIRY (R253). -/
def execRemoteRetryExpiry (ring : Nat) (s : State) : Outcome :=
  actRemoteRetryExpiry ring (s.sampled (.remoteRetryExpiry ring))

/-- LINK_ITEM (R253). -/
def execLinkItem (via : Via) (bank : Nat) (idx : Nat) (word : BitVec 32) (s : State) : Outcome :=
  actLinkItem via bank idx word (s.sampled (.linkItem via bank idx word))

/-- XCTL_ABANDON (R253). -/
def execXctlAbandon (via : Via) (bank : Nat) (s : State) : Outcome :=
  actXctlAbandon via bank (s.sampled (.xctlAbandon via bank))

/-- SETL_ITEM (R255). -/
def execSetlItem (via : Via) (ring : Nat) (word : BitVec 32) (status : BitVec 8) (s : State) : Outcome :=
  actSetlItem via ring word status (s.sampled (.setlItem via ring word status))

/-- HOP_ITEM (R264). -/
def execHopItem (src : Origin) (tenant : Nat) (hasp : Nat) (op : HopOp) (value : BitVec 32) (tag : BitVec 32) (s : State) : Outcome :=
  actHopItem (src.via tenant) hasp op value tag (s.sampled (.hopItem src tenant hasp op value tag))

/-- HREL_ITEM (R264). -/
def execHrelItem (it : Nat × BitVec 32) (s : State) : Outcome := actHrelItem it.1 it.2 (s.sampled (.hrelItem it))

/-- CHC_ITEM (R265). -/
def execChcItem (src : Origin) (tenant : Nat) (op : ChcOp) (ch : Nat) (endp : BitVec 32) (port : Nat) (s : State) : Outcome :=
  actChcItem (src.via tenant) op ch endp port (s.sampled (.chcItem src tenant op ch endp port))

/-- CONF_RECEIVED (R259). -/
def execConfReceived (h : Nat) (iseq : Nat) (s : State) : Outcome :=
  actConfReceived h iseq (s.sampled (.confReceived h iseq))

/-- CONF_SEND (R259). -/
def execConfSend (h : Nat) (s : State) : Outcome := actConfSend h (s.sampled (.confSend h))

/-- RETRAIN_NOTIFICATION (R272). -/
def execRetrainNotification (h : Nat) (s : State) : Outcome := actRetrainNotification h (s.sampled (.retrainNotification h))

/-- LINK_ACTIVE_AGAIN (R272). -/
def execLinkActiveAgain (h : Nat) (s : State) : Outcome := actLinkActiveAgain h (s.sampled (.linkActiveAgain h))

/-- HOLD_MAX_EXPIRY (R272). -/
def execHoldMaxExpiry (h : Nat) (s : State) : Outcome := actHoldMaxExpiry h (s.sampled (.holdMaxExpiry h))

/-- LINK_ERROR (R272). -/
def execLinkError (h : Nat) (s : State) : Outcome := actLinkError h (s.sampled (.linkError h))

/-- HINGE_DOWN_EVENT (R273). -/
def execHingeDownEvent (h : Nat) (s : State) : Outcome := actHingeDownEvent h (s.sampled (.hingeDownEvent h))

/-- UNRCH_ITEM (R273). -/
def execUnrchItem (h : Nat) (mask : BitVec 64) (reach : Bool) (s : State) : Outcome :=
  actUnrchItem h mask reach (s.sampled (.unrchItem h mask reach))

/-- UNREACHABLE_NOTICE (R275). -/
def execUnreachableNotice (w : Nat) (mask : BitVec 64) (s : State) : Outcome :=
  actUnreachableNotice w mask (s.sampled (.unreachableNotice w mask))

/-- TS_FLIT_SEND (R266). -/
def execTsFlitSend (h : Nat) (s : State) : Outcome := actTsFlitSend h (s.sampled (.tsFlitSend h))

/-- TS_SAMPLE (R267). -/
def execTsSample (h : Nat) (tsval : BitVec 64) (s : State) : Outcome := actTsSample h tsval (s.sampled (.tsSample h tsval))

/-- TS_SLEW_STEP (R268). -/
def execTsSlewStep (s : State) : Outcome := actTsSlewStep (s.sampled .tsSlewStep)

/-- TS_HOLD_END (R269). -/
def execTsHoldEnd (s : State) : Outcome := actTsHoldEnd (s.sampled .tsHoldEnd)

/-- TS_LOST (R271). -/
def execTsLost (h : Nat) (s : State) : Outcome := actTsLost h (s.sampled (.tsLost h))

/-- SCRUB_READ (R283). -/
def execScrubRead (u : UnitId) (table : Nat) (word : ScrubWord) (corrected : Bool) (s : State) : Outcome :=
  actScrubRead u table word corrected (s.sampled (.scrubRead u table word corrected))

/-- UNCORRECTABLE_WORD (R285). -/
def execUncorrectableWord (u : UnitId) (table : Nat) (idx : Nat) (obj : Nat) (s : State) : Outcome :=
  actUncorrectableWord u table idx obj (s.sampled (.uncorrectableWord u table idx obj))

/-- TMR_DISAGREEMENT (R281). -/
def execTmrDisagreement (lanes : BitVec 3) (s : State) : Outcome :=
  actTmrDisagreement lanes (s.sampled (.tmrDisagreement lanes))

/-- REPLAY (R280). -/
def execReplay (u : UnitId) (s : State) : Outcome := actReplay u (s.sampled (.replay u))

/-- CROSSBAR_RETRANSMIT (R280). -/
def execCrossbarRetransmit (u : UnitId) (again : Bool) (s : State) : Outcome :=
  actCrossbarRetransmit u again (s.sampled (.crossbarRetransmit u again))

/-- LOG_RECORD_ARRIVAL (R288). -/
def execLogRecordArrival (u : UnitId) (s : State) : Outcome := actLogRecordArrival u (s.sampled (.logRecordArrival u))

/-- DEADBOLT_SAMPLE (R293). -/
def execDeadboltSample (a : Bool) (b : Bool) (s : State) : Outcome := actDeadboltSample a b (s.sampled (.deadboltSample a b))

/-- DEADBOLT_ASSERT (R295). -/
def execDeadboltAssert (s : State) : Outcome := actDeadboltAssert (s.sampled .deadboltAssert)

/-- DRAIN_END (R296). -/
def execDrainEnd (s : State) : Outcome := actDrainEnd (s.sampled .drainEnd)

/-- DEADBOLT_RELEASE (R297). -/
def execDeadboltRelease (s : State) : Outcome := actDeadboltRelease (s.sampled .deadboltRelease)

/-- HANG_DETECT (R298). -/
def execHangDetect (ring : Nat) (s : State) : Outcome := actHangDetect ring (s.sampled (.hangDetect ring))

/-- TRACE_ENTRY_STAGE (R312). -/
def execTraceEntryStage (s : State) : Outcome := actTraceEntryStage (s.sampled .traceEntryStage)

/-- TRACE_FIFO_DROP (R313). -/
def execTraceFifoDrop (u : UnitId) (s : State) : Outcome := actTraceFifoDrop u (s.sampled (.traceFifoDrop u))

/-- TRACE_BLOCK_WRITE (R312). -/
def execTraceBlockWrite (s : State) : Outcome := actTraceBlockWrite (s.sampled .traceBlockWrite)

/-- TRACE_WRITE_RESPONSE (R318). -/
def execTraceWriteResponse (resp : Resp) (s : State) : Outcome :=
  actTraceWriteResponse resp (s.sampled (.traceWriteResponse resp))

/-- SAMPLE_PERIOD (R317). -/
def execSamplePeriod (w : Nat) (s : State) : Outcome := actSamplePeriod w (s.sampled (.samplePeriod w))

/-- NOTE_WRITE_RESPONSE (R143). -/
def execNoteWriteResponse (ring : Nat) (subid : BitVec 32) (resp : Resp) (s : State) : Outcome :=
  actNoteWriteResponse ring subid resp (s.sampled (.noteWriteResponse ring subid resp))

/-- PORT_RESET_RELEASE (R360). -/
def execPortResetRelease (port : Nat) (s : State) : Outcome := actPortResetRelease port (s.sampled (.portResetRelease port))

/-- ISSUE_COPY_REREAD (R285). -/
def execIssueCopyReread (port : Nat) (handle : Nat) (s : State) : Outcome :=
  actIssueCopyReread port handle (s.sampled (.issueCopyReread port handle))

/-- HINGE_CREDIT_RETURN (R259). -/
def execHingeCreditReturn (h : Nat) (credO : Nat) (credA : Nat) (s : State) : Outcome :=
  actHingeCreditReturn h credO credA (s.sampled (.hingeCreditReturn h credO credA))

/-- STALL_REQUEST (R370). -/
def execStallRequest (h : Nat) (s : State) : Outcome := actStallRequest h (s.sampled (.stallRequest h))

end Sys2Proof.Machine
end

