-- ==== Sys2Proof/Machine/Dispatch.lean ====
section
/-! DEFINITION. The meaning of each command: one arm per constructor of `Instr`. -/

namespace Sys2Proof.Machine

def exec (i : Instr) (s : State) : Host.Outcome State Fault Refusal :=
  match i with
  | .porstNAssert => Sys2Proof.Machine.execPorstNAssert s
  | .porstNRelease => Sys2Proof.Machine.execPorstNRelease s
  | .srstNAssert => Sys2Proof.Machine.execSrstNAssert s
  | .srstNRelease => Sys2Proof.Machine.execSrstNRelease s
  | .mtrRstN => Sys2Proof.Machine.execMtrRstN s
  | .domainResetRelease d => Sys2Proof.Machine.execDomainResetRelease d s
  | .bootScrubDone u => Sys2Proof.Machine.execBootScrubDone u s
  | .selfTestDone u fatal corrected => Sys2Proof.Machine.execSelfTestDone u fatal corrected s
  | .rescrubDone u => Sys2Proof.Machine.execRescrubDone u s
  | .tmrCheck bad => Sys2Proof.Machine.execTmrCheck bad s
  | .linkUp h => Sys2Proof.Machine.execLinkUp h s
  | .linkUpTimeout h => Sys2Proof.Machine.execLinkUpTimeout h s
  | .lock => Sys2Proof.Machine.execLock s
  | .fwfail => Sys2Proof.Machine.execFwfail s
  | .registerWrite port addr data strb => Sys2Proof.Machine.execRegisterWrite port addr data strb s
  | .rwqShadowWrite addr data => Sys2Proof.Machine.execRwqShadowWrite addr data s
  | .commitPoint w => Sys2Proof.Machine.execCommitPoint w s
  | .commitForce => Sys2Proof.Machine.execCommitForce s
  | .windowRead addr => Sys2Proof.Machine.execWindowRead addr s
  | .multiwordReadLatch addr => Sys2Proof.Machine.execMultiwordReadLatch addr s
  | .eventRingRead addr => Sys2Proof.Machine.execEventRingRead addr s
  | .ringDescriptorWrite k data => Sys2Proof.Machine.execRingDescriptorWrite k data s
  | .ringEnable => Sys2Proof.Machine.execRingEnable s
  | .ringDisable => Sys2Proof.Machine.execRingDisable s
  | .tenantCfgWrite data => Sys2Proof.Machine.execTenantCfgWrite data s
  | .haspAssign data => Sys2Proof.Machine.execHaspAssign data s
  | .haspForce => Sys2Proof.Machine.execHaspForce s
  | .preemptRequest ring queue => Sys2Proof.Machine.execPreemptRequest ring queue s
  | .preemptResume ring => Sys2Proof.Machine.execPreemptResume ring s
  | .keyPoolCfgWrite tgt k data => Sys2Proof.Machine.execKeyPoolCfgWrite tgt k data s
  | .keyPoolReset tgt => Sys2Proof.Machine.execKeyPoolReset tgt s
  | .mqCfgWrite tgt k data => Sys2Proof.Machine.execMqCfgWrite tgt k data s
  | .mqFlush tgt => Sys2Proof.Machine.execMqFlush tgt s
  | .flushDiscard w q => Sys2Proof.Machine.execFlushDiscard w q s
  | .mqPush tgt be => Sys2Proof.Machine.execMqPush tgt be s
  | .mqPop tgt => Sys2Proof.Machine.execMqPop tgt s
  | .mqRdataAdvance w => Sys2Proof.Machine.execMqRdataAdvance w s
  | .logPop => Sys2Proof.Machine.execLogPop s
  | .logReinit => Sys2Proof.Machine.execLogReinit s
  | .lrClear => Sys2Proof.Machine.execLrClear s
  | .counterClear tgt => Sys2Proof.Machine.execCounterClear tgt s
  | .counterSnapshotOrder => Sys2Proof.Machine.execCounterSnapshotOrder s
  | .counterSnapshot => Sys2Proof.Machine.execCounterSnapshot s
  | .blockedOnSnapOrder => Sys2Proof.Machine.execBlockedOnSnapOrder s
  | .blockedOnSnapshot => Sys2Proof.Machine.execBlockedOnSnapshot s
  | .blockedOnDone => Sys2Proof.Machine.execBlockedOnDone s
  | .dumpGo => Sys2Proof.Machine.execDumpGo s
  | .dumpSnapshotTimeout port => Sys2Proof.Machine.execDumpSnapshotTimeout port s
  | .dumpDone => Sys2Proof.Machine.execDumpDone s
  | .traceEnable => Sys2Proof.Machine.execTraceEnable s
  | .traceDisable => Sys2Proof.Machine.execTraceDisable s
  | .traceTrigWrite => Sys2Proof.Machine.execTraceTrigWrite s
  | .hingeDownWrite h => Sys2Proof.Machine.execHingeDownWrite h s
  | .hingeRearm h => Sys2Proof.Machine.execHingeRearm h s
  | .tsUnlock h => Sys2Proof.Machine.execTsUnlock h s
  | .discFaultClear => Sys2Proof.Machine.execDiscFaultClear s
  | .captureClear => Sys2Proof.Machine.execCaptureClear s
  | .tnDoorbell t tslot wptr => Sys2Proof.Machine.execTnDoorbell t tslot wptr s
  | .ringCancelOldest t tslot => Sys2Proof.Machine.execRingCancelOldest t tslot s
  | .ringCancelAll t tslot => Sys2Proof.Machine.execRingCancelAll t tslot s
  | .ringResume t tslot => Sys2Proof.Machine.execRingResume t tslot s
  | .meterRun => Sys2Proof.Machine.execMeterRun s
  | .meterStop => Sys2Proof.Machine.execMeterStop s
  | .meterConfigWrite c => Sys2Proof.Machine.execMeterConfigWrite c s
  | .meterRecPop => Sys2Proof.Machine.execMeterRecPop s
  | .tallySlotSample health => Sys2Proof.Machine.execTallySlotSample health s
  | .periodDue => Sys2Proof.Machine.execPeriodDue s
  | .periodClose => Sys2Proof.Machine.execPeriodClose s
  | .recordForm bad => Sys2Proof.Machine.execRecordForm bad s
  | .keyStoreAck mac err => Sys2Proof.Machine.execKeyStoreAck mac err s
  | .keyStoreTimeout => Sys2Proof.Machine.execKeyStoreTimeout s
  | .signRetry => Sys2Proof.Machine.execSignRetry s
  | .issueCommit port issok => Sys2Proof.Machine.execIssueCommit port issok s
  | .issDescriptorAccepted port => Sys2Proof.Machine.execIssDescriptorAccepted port s
  | .preloadStart port => Sys2Proof.Machine.execPreloadStart port s
  | .argumentReadResponse port resp beats => Sys2Proof.Machine.execArgumentReadResponse port resp beats s
  | .preloadComplete port => Sys2Proof.Machine.execPreloadComplete port s
  | .canAck port hdl held => Sys2Proof.Machine.execCanAck port hdl held s
  | .cmpRecord port rec stats eoc => Sys2Proof.Machine.execCmpRecord port rec stats eoc s
  | .opdDelivery w => Sys2Proof.Machine.execOpdDelivery w s
  | .landingCreditReturn port n => Sys2Proof.Machine.execLandingCreditReturn port n s
  | .statusBeatAccepted port => Sys2Proof.Machine.execStatusBeatAccepted port s
  | .send port hdr flits => Sys2Proof.Machine.execSend port hdr flits s
  | .contrib port hdr flits => Sys2Proof.Machine.execContrib port hdr flits s
  | .openReq port hdr => Sys2Proof.Machine.execOpenReq port hdr s
  | .closeReq port hdr => Sys2Proof.Machine.execCloseReq port hdr s
  | .hsig port hdr => Sys2Proof.Machine.execHsig port hdr s
  | .keyreq port hdr => Sys2Proof.Machine.execKeyreq port hdr s
  | .returnUnused port hdr => Sys2Proof.Machine.execReturnUnused port hdr s
  | .doorbell port hdr => Sys2Proof.Machine.execDoorbell port hdr s
  | .slotwr port hdr => Sys2Proof.Machine.execSlotwr port hdr s
  | .badMsgRequest port hdr beats => Sys2Proof.Machine.execBadMsgRequest port hdr beats s
  | .returnKret port data => Sys2Proof.Machine.execReturnKret port data s
  | .ctlOnlineChange port on lbflits tdm => Sys2Proof.Machine.execCtlOnlineChange port on lbflits tdm s
  | .ctlSnapshotReceived port beats => Sys2Proof.Machine.execCtlSnapshotReceived port beats s
  | .snapshotTimeout port => Sys2Proof.Machine.execSnapshotTimeout port s
  | .portReset port => Sys2Proof.Machine.execPortReset port s
  | .decrement word src eoc => Sys2Proof.Machine.execDecrement word src eoc s
  | .failureNotice word root src eoc => Sys2Proof.Machine.execFailureNotice word root src eoc s
  | .cancelNotice word src eoc => Sys2Proof.Machine.execCancelNotice word src eoc s
  | .seal w ring seg src eoc => Sys2Proof.Machine.execSeal w ring seg src eoc s
  | .guardWaitPass w => Sys2Proof.Machine.execGuardWaitPass w s
  | .settlementNotice kind word eoc => Sys2Proof.Machine.execSettlementNotice kind word eoc s
  | .issueProxyNotice kind word => Sys2Proof.Machine.execIssueProxyNotice kind word s
  | .successorDelivery handle => Sys2Proof.Machine.execSuccessorDelivery handle s
  | .entryFree handle => Sys2Proof.Machine.execEntryFree handle s
  | .quarantineEnd handle => Sys2Proof.Machine.execQuarantineEnd handle s
  | .edgeRefetchDone handle => Sys2Proof.Machine.execEdgeRefetchDone handle s
  | .taskClassTimeout handle => Sys2Proof.Machine.execTaskClassTimeout handle s
  | .arbiterForward w => Sys2Proof.Machine.execArbiterForward w s
  | .placementRequest handle => Sys2Proof.Machine.execPlacementRequest handle s
  | .placementDecision handle => Sys2Proof.Machine.execPlacementDecision handle s
  | .waitingListOffer => Sys2Proof.Machine.execWaitingListOffer s
  | .stagingRequest handle => Sys2Proof.Machine.execStagingRequest handle s
  | .stagingNoPort handle => Sys2Proof.Machine.execStagingNoPort handle s
  | .placementDecisionArrival handle => Sys2Proof.Machine.execPlacementDecisionArrival handle s
  | .stagedTaskPlaced handle => Sys2Proof.Machine.execStagedTaskPlaced handle s
  | .governorRequest handle => Sys2Proof.Machine.execGovernorRequest handle s
  | .governorQueueGrant dom => Sys2Proof.Machine.execGovernorQueueGrant dom s
  | .governorWindowStart throttle => Sys2Proof.Machine.execGovernorWindowStart throttle s
  | .portRelease port handle => Sys2Proof.Machine.execPortRelease port handle s
  | .taskCancel handle => Sys2Proof.Machine.execTaskCancel handle s
  | .withdrawal handle => Sys2Proof.Machine.execWithdrawal handle s
  | .unloadDirective handle => Sys2Proof.Machine.execUnloadDirective handle s
  | .epochMint => Sys2Proof.Machine.execEpochMint s
  | .tokenArrival w => Sys2Proof.Machine.execTokenArrival w s
  | .ringFetch w => Sys2Proof.Machine.execRingFetch w s
  | .ringFetchResponse ring kind resp rec => Sys2Proof.Machine.execRingFetchResponse ring kind resp rec s
  | .ringRepoll ring => Sys2Proof.Machine.execRingRepoll ring s
  | .recordAccept ring rec => Sys2Proof.Machine.execRecordAccept ring rec s
  | .waitsubRelease ring => Sys2Proof.Machine.execWaitsubRelease ring s
  | .segmentHeader ring hdr body => Sys2Proof.Machine.execSegmentHeader ring hdr body s
  | .graphPass1 ring => Sys2Proof.Machine.execGraphPass1 ring s
  | .fanListReadResponse ring addr resp idx => Sys2Proof.Machine.execFanListReadResponse ring addr resp idx s
  | .operandReadResponse ring addr resp value => Sys2Proof.Machine.execOperandReadResponse ring addr resp value s
  | .graphPass2 ring => Sys2Proof.Machine.execGraphPass2 ring s
  | .entryQueueAdmit ring => Sys2Proof.Machine.execEntryQueueAdmit ring s
  | .graphPass3 ring => Sys2Proof.Machine.execGraphPass3 ring s
  | .aheadRelease ring => Sys2Proof.Machine.execAheadRelease ring s
  | .cond ring rec => Sys2Proof.Machine.execCond ring rec s
  | .loop ring rec => Sys2Proof.Machine.execLoop ring rec s
  | .endloop ring rec => Sys2Proof.Machine.execEndloop ring rec s
  | .stepEnd ring rec => Sys2Proof.Machine.execStepEnd ring rec s
  | .yield ring rec => Sys2Proof.Machine.execYield ring rec s
  | .fence ring rec => Sys2Proof.Machine.execFence ring rec s
  | .fenceRelease ring => Sys2Proof.Machine.execFenceRelease ring s
  | .indirect ring rec => Sys2Proof.Machine.execIndirect ring rec s
  | .setSlot ring rec => Sys2Proof.Machine.execSetSlot ring rec s
  | .note ring rec => Sys2Proof.Machine.execNote ring rec s
  | .mark ring rec => Sys2Proof.Machine.execMark ring rec s
  | .nop ring rec => Sys2Proof.Machine.execNop ring rec s
  | .haspSignal ring rec => Sys2Proof.Machine.execHaspSignal ring rec s
  | .haspReset ring rec => Sys2Proof.Machine.execHaspReset ring rec s
  | .haspWait ring rec => Sys2Proof.Machine.execHaspWait ring rec s
  | .openCh ring rec => Sys2Proof.Machine.execOpenCh ring rec s
  | .closeCh ring rec => Sys2Proof.Machine.execCloseCh ring rec s
  | .commandFaultNotice ring => Sys2Proof.Machine.execCommandFaultNotice ring s
  | .ringTimeout ring => Sys2Proof.Machine.execRingTimeout ring s
  | .stepTimeout ring => Sys2Proof.Machine.execStepTimeout ring s
  | .statusBlockWriteResponse ring subid resp => Sys2Proof.Machine.execStatusBlockWriteResponse ring subid resp s
  | .digestWriteResponse ring subid resp => Sys2Proof.Machine.execDigestWriteResponse ring subid resp s
  | .messageArrival key seq it => Sys2Proof.Machine.execMessageArrival key seq it s
  | .nackReturn key seq it => Sys2Proof.Machine.execNackReturn key seq it s
  | .answerReturn port it => Sys2Proof.Machine.execAnswerReturn port it s
  | .channelAllocate => Sys2Proof.Machine.execChannelAllocate s
  | .bindNotice key => Sys2Proof.Machine.execBindNotice key s
  | .channelCloseApply key place => Sys2Proof.Machine.execChannelCloseApply key place s
  | .channelIdFree ch => Sys2Proof.Machine.execChannelIdFree ch s
  | .stormNotice ch => Sys2Proof.Machine.execStormNotice ch s
  | .partArrival qid inst port it => Sys2Proof.Machine.execPartArrival qid inst port it s
  | .partApply w => Sys2Proof.Machine.execPartApply w s
  | .drainConvert w q => Sys2Proof.Machine.execDrainConvert w q s
  | .drainWriteResponse w q resp => Sys2Proof.Machine.execDrainWriteResponse w q resp s
  | .tearNotice qid inst port => Sys2Proof.Machine.execTearNotice qid inst port s
  | .queueNumberFree w q => Sys2Proof.Machine.execQueueNumberFree w q s
  | .signal hasp inc src => Sys2Proof.Machine.execSignal hasp inc src s
  | .waitRegistration port => Sys2Proof.Machine.execWaitRegistration port s
  | .waitRelease => Sys2Proof.Machine.execWaitRelease s
  | .taskFormRelease port => Sys2Proof.Machine.execTaskFormRelease port s
  | .keyRequestArrival dport reqport => Sys2Proof.Machine.execKeyRequestArrival dport reqport s
  | .keyReturn dport pool gseq => Sys2Proof.Machine.execKeyReturn dport pool gseq s
  | .keyTimeout dport pool idx => Sys2Proof.Machine.execKeyTimeout dport pool idx s
  | .autoPreemptTrigger => Sys2Proof.Machine.execAutoPreemptTrigger s
  | .discardNotice w ring => Sys2Proof.Machine.execDiscardNotice w ring s
  | .autoResume => Sys2Proof.Machine.execAutoResume s
  | .helloReceived h hinst => Sys2Proof.Machine.execHelloReceived h hinst s
  | .itemForward h slots => Sys2Proof.Machine.execItemForward h slots s
  | .remoteReserve h req => Sys2Proof.Machine.execRemoteReserve h req s
  | .hndAnswer ring via ans => Sys2Proof.Machine.execHndAnswer ring via ans s
  | .remoteRetryExpiry ring => Sys2Proof.Machine.execRemoteRetryExpiry ring s
  | .linkItem via bank idx word => Sys2Proof.Machine.execLinkItem via bank idx word s
  | .xctlAbandon via bank => Sys2Proof.Machine.execXctlAbandon via bank s
  | .setlItem via ring word status => Sys2Proof.Machine.execSetlItem via ring word status s
  | .hopItem src tenant hasp op value tag => Sys2Proof.Machine.execHopItem src tenant hasp op value tag s
  | .hrelItem it => Sys2Proof.Machine.execHrelItem it s
  | .chcItem src tenant op ch endp port => Sys2Proof.Machine.execChcItem src tenant op ch endp port s
  | .confReceived h iseq => Sys2Proof.Machine.execConfReceived h iseq s
  | .confSend h => Sys2Proof.Machine.execConfSend h s
  | .retrainNotification h => Sys2Proof.Machine.execRetrainNotification h s
  | .linkActiveAgain h => Sys2Proof.Machine.execLinkActiveAgain h s
  | .holdMaxExpiry h => Sys2Proof.Machine.execHoldMaxExpiry h s
  | .linkError h => Sys2Proof.Machine.execLinkError h s
  | .hingeDownEvent h => Sys2Proof.Machine.execHingeDownEvent h s
  | .unrchItem h mask reach => Sys2Proof.Machine.execUnrchItem h mask reach s
  | .unreachableNotice w mask => Sys2Proof.Machine.execUnreachableNotice w mask s
  | .tsFlitSend h => Sys2Proof.Machine.execTsFlitSend h s
  | .tsSample h tsval => Sys2Proof.Machine.execTsSample h tsval s
  | .tsSlewStep => Sys2Proof.Machine.execTsSlewStep s
  | .tsHoldEnd => Sys2Proof.Machine.execTsHoldEnd s
  | .tsLost h => Sys2Proof.Machine.execTsLost h s
  | .scrubRead u table word corrected => Sys2Proof.Machine.execScrubRead u table word corrected s
  | .uncorrectableWord u table idx obj => Sys2Proof.Machine.execUncorrectableWord u table idx obj s
  | .tmrDisagreement lanes => Sys2Proof.Machine.execTmrDisagreement lanes s
  | .replay u => Sys2Proof.Machine.execReplay u s
  | .crossbarRetransmit u again => Sys2Proof.Machine.execCrossbarRetransmit u again s
  | .logRecordArrival u => Sys2Proof.Machine.execLogRecordArrival u s
  | .deadboltSample a b => Sys2Proof.Machine.execDeadboltSample a b s
  | .deadboltAssert => Sys2Proof.Machine.execDeadboltAssert s
  | .drainEnd => Sys2Proof.Machine.execDrainEnd s
  | .deadboltRelease => Sys2Proof.Machine.execDeadboltRelease s
  | .hangDetect ring => Sys2Proof.Machine.execHangDetect ring s
  | .traceEntryStage => Sys2Proof.Machine.execTraceEntryStage s
  | .traceFifoDrop u => Sys2Proof.Machine.execTraceFifoDrop u s
  | .traceBlockWrite => Sys2Proof.Machine.execTraceBlockWrite s
  | .traceWriteResponse resp => Sys2Proof.Machine.execTraceWriteResponse resp s
  | .samplePeriod w => Sys2Proof.Machine.execSamplePeriod w s
  | .noteWriteResponse ring subid resp => Sys2Proof.Machine.execNoteWriteResponse ring subid resp s
  | .portResetRelease port => Sys2Proof.Machine.execPortResetRelease port s
  | .issueCopyReread port handle => Sys2Proof.Machine.execIssueCopyReread port handle s
  | .hingeCreditReturn h credO credA => Sys2Proof.Machine.execHingeCreditReturn h credO credA s
  | .stallRequest h => Sys2Proof.Machine.execStallRequest h s

end Sys2Proof.Machine
end

