-- ==== Sys2Proof/Safety.lean ====
section
/-! DEFINITION. The terms in which claims speak of a run: which parts of the block a command leaves as they were, the
canonical form of the tables, and the registers that the lock holds. -/

namespace Sys2Proof.Machine

/-- The parts of the block, one for each field of `Block`. -/
inductive BlockPart where
  | clk | boot | mgt | regs | cnt | cntSh | snapAt | snapTs | cmtTs | cmtDue | iqWork | ents | wq | slots | ports
  | occ | place | gov | arb | rings | tdone | tens | segs | entq | pcls | hasps | waits | kpool | mq | mqPop
  | chans | rchans | storms | cq | cbParts | opdLast | preIgnored | resumeQ | lcIdleAt | hg | routes | unreach
  | fedt | remSegs | log | dbolt | hang | dump | cap | ecc | evr | blk | trace | watch | tally | meter | xbar
  | out
deriving DecidableEq, Repr

/-- Two blocks agree on a part. -/
def agree : BlockPart → Block → Block → Prop
  | .clk, b, c => c.clk = b.clk
  | .boot, b, c => c.boot = b.boot
  | .mgt, b, c => c.mgt = b.mgt
  | .regs, b, c => c.regs = b.regs
  | .cnt, b, c => c.cnt = b.cnt
  | .cntSh, b, c => c.cntSh = b.cntSh
  | .snapAt, b, c => c.snapAt = b.snapAt
  | .snapTs, b, c => c.snapTs = b.snapTs
  | .cmtTs, b, c => c.cmtTs = b.cmtTs
  | .cmtDue, b, c => c.cmtDue = b.cmtDue
  | .iqWork, b, c => c.iqWork = b.iqWork
  | .ents, b, c => c.ents = b.ents
  | .wq, b, c => c.wq = b.wq
  | .slots, b, c => c.slots = b.slots
  | .ports, b, c => c.ports = b.ports
  | .occ, b, c => c.occ = b.occ
  | .place, b, c => c.place = b.place
  | .gov, b, c => c.gov = b.gov
  | .arb, b, c => c.arb = b.arb
  | .rings, b, c => c.rings = b.rings
  | .tdone, b, c => c.tdone = b.tdone
  | .tens, b, c => c.tens = b.tens
  | .segs, b, c => c.segs = b.segs
  | .entq, b, c => c.entq = b.entq
  | .pcls, b, c => c.pcls = b.pcls
  | .hasps, b, c => c.hasps = b.hasps
  | .waits, b, c => c.waits = b.waits
  | .kpool, b, c => c.kpool = b.kpool
  | .mq, b, c => c.mq = b.mq
  | .mqPop, b, c => c.mqPop = b.mqPop
  | .chans, b, c => c.chans = b.chans
  | .rchans, b, c => c.rchans = b.rchans
  | .storms, b, c => c.storms = b.storms
  | .cq, b, c => c.cq = b.cq
  | .cbParts, b, c => c.cbParts = b.cbParts
  | .opdLast, b, c => c.opdLast = b.opdLast
  | .preIgnored, b, c => c.preIgnored = b.preIgnored
  | .resumeQ, b, c => c.resumeQ = b.resumeQ
  | .lcIdleAt, b, c => c.lcIdleAt = b.lcIdleAt
  | .hg, b, c => c.hg = b.hg
  | .routes, b, c => c.routes = b.routes
  | .unreach, b, c => c.unreach = b.unreach
  | .fedt, b, c => c.fedt = b.fedt
  | .remSegs, b, c => c.remSegs = b.remSegs
  | .log, b, c => c.log = b.log
  | .dbolt, b, c => c.dbolt = b.dbolt
  | .hang, b, c => c.hang = b.hang
  | .dump, b, c => c.dump = b.dump
  | .cap, b, c => c.cap = b.cap
  | .ecc, b, c => c.ecc = b.ecc
  | .evr, b, c => c.evr = b.evr
  | .blk, b, c => c.blk = b.blk
  | .trace, b, c => c.trace = b.trace
  | .watch, b, c => c.watch = b.watch
  | .tally, b, c => c.tally = b.tally
  | .meter, b, c => c.meter = b.meter
  | .xbar, b, c => c.xbar = b.xbar
  | .out, b, c => c.out = b.out

/-- The second block differs from the first at most in the parts listed. -/
def Only (l : List BlockPart) (b c : Block) : Prop := ∀ f, f ∉ l → agree f b c

/-- The parts of the block that a command may write; every other part it leaves as it was. -/
def writes : Instr → List BlockPart
  | .porstNAssert => [.clk, .boot, .mgt, .regs, .cnt, .cntSh, .snapAt, .snapTs, .cmtTs, .cmtDue, .iqWork, .ents, .wq, .slots, .ports, .occ, .place, .gov, .arb, .rings, .tdone, .tens, .segs, .entq, .pcls, .hasps, .waits, .kpool, .mq, .mqPop, .chans, .rchans, .storms, .cq, .cbParts, .opdLast, .preIgnored, .resumeQ, .lcIdleAt, .hg, .routes, .unreach, .fedt, .remSegs, .log, .dbolt, .hang, .dump, .cap, .ecc, .evr, .blk, .trace, .watch, .tally, .meter, .xbar]
  | .porstNRelease => [.clk, .boot]
  | .srstNAssert => [.clk, .boot, .mgt, .regs, .cnt, .cntSh, .snapAt, .snapTs, .cmtTs, .cmtDue, .iqWork, .ents, .wq, .slots, .ports, .occ, .place, .gov, .arb, .rings, .tdone, .tens, .segs, .entq, .pcls, .hasps, .waits, .kpool, .mq, .mqPop, .chans, .rchans, .storms, .cq, .cbParts, .opdLast, .preIgnored, .resumeQ, .lcIdleAt, .hg, .routes, .unreach, .fedt, .remSegs, .log, .dbolt, .hang, .dump, .cap, .ecc, .evr, .blk, .trace, .watch, .tally, .xbar]
  | .srstNRelease => [.boot]
  | .mtrRstN => [.meter]
  | .domainResetRelease _ => [.clk, .boot, .out]
  | .bootScrubDone _ => [.boot, .regs, .out]
  | .selfTestDone _ _ _ => [.boot, .regs, .cnt, .log, .trace, .out]
  | .rescrubDone _ => [.clk, .boot, .mgt, .regs, .cnt, .snapAt, .cmtTs, .cmtDue, .iqWork, .ents, .slots, .ports, .gov, .rings, .tdone, .tens, .segs, .entq, .pcls, .hasps, .waits, .kpool, .mq, .mqPop, .chans, .cq, .cbParts, .preIgnored, .resumeQ, .hg, .routes, .unreach, .log, .dbolt, .hang, .dump, .cap, .evr, .blk, .trace, .watch, .tally, .xbar, .out]
  | .tmrCheck _ => [.boot, .regs, .cnt, .log, .trace, .out]
  | .linkUp _ => [.boot, .regs, .cnt, .hg, .unreach, .out]
  | .linkUpTimeout _ => [.boot, .regs, .out]
  | .lock => [.boot, .mgt, .regs, .cnt, .hg, .unreach, .out]
  | .fwfail => [.boot, .mgt]
  | .registerWrite _ _ _ _ => [.clk, .boot, .mgt, .regs, .cnt, .snapAt, .cmtTs, .cmtDue, .iqWork, .ents, .slots, .ports, .gov, .rings, .tdone, .tens, .segs, .entq, .pcls, .hasps, .waits, .kpool, .mq, .mqPop, .chans, .cq, .cbParts, .preIgnored, .resumeQ, .hg, .routes, .unreach, .log, .dbolt, .hang, .dump, .cap, .evr, .blk, .trace, .watch, .tally, .meter, .xbar, .out]
  | .rwqShadowWrite _ _ => [.clk, .boot, .mgt, .regs, .cnt, .snapAt, .cmtTs, .cmtDue, .iqWork, .ents, .slots, .ports, .gov, .rings, .tdone, .tens, .segs, .entq, .pcls, .hasps, .waits, .kpool, .mq, .mqPop, .chans, .cq, .cbParts, .preIgnored, .resumeQ, .hg, .routes, .unreach, .log, .dbolt, .hang, .dump, .cap, .evr, .blk, .trace, .watch, .tally, .xbar, .out]
  | .commitPoint _ => [.cmtTs, .cmtDue, .iqWork, .rings, .pcls]
  | .commitForce => [.mgt, .cmtTs, .cmtDue, .iqWork, .rings, .pcls]
  | .windowRead _ => [.mgt, .regs, .mqPop, .out]
  | .multiwordReadLatch _ => [.mgt, .regs, .mqPop, .meter, .out]
  | .eventRingRead _ => [.mgt, .regs, .mqPop, .out]
  | .ringDescriptorWrite _ _ => [.mgt, .regs, .rings, .tdone, .out]
  | .ringEnable => [.mgt, .regs, .rings, .tdone, .out]
  | .ringDisable => [.mgt, .regs, .rings, .tdone, .out]
  | .tenantCfgWrite _ => [.mgt, .regs, .tens, .out]
  | .haspAssign _ => [.mgt, .regs, .hasps, .out]
  | .haspForce => [.mgt, .regs, .cnt, .hasps, .log, .trace, .out]
  | .preemptRequest _ _ => [.clk, .mgt, .regs, .cnt, .cmtDue, .ents, .rings, .tdone, .segs, .entq, .waits, .chans, .preIgnored, .resumeQ, .hg, .log, .trace, .tally, .xbar, .out]
  | .preemptResume _ => [.clk, .mgt, .regs, .cnt, .cmtDue, .ents, .rings, .tdone, .segs, .entq, .waits, .chans, .preIgnored, .resumeQ, .hg, .log, .trace, .tally, .xbar, .out]
  | .keyPoolCfgWrite _ _ _ => [.mgt, .regs, .kpool, .out]
  | .keyPoolReset _ => [.mgt, .regs, .cnt, .ports, .kpool, .out]
  | .mqCfgWrite _ _ _ => [.mgt, .regs, .mq, .out]
  | .mqFlush _ => [.mgt, .regs, .mq, .out]
  | .flushDiscard _ _ => [.mq]
  | .mqPush _ _ => [.mgt, .regs, .ports, .mq, .out]
  | .mqPop _ => [.mgt, .regs, .mq, .mqPop, .out]
  | .mqRdataAdvance _ => [.mgt, .regs, .mqPop, .out]
  | .logPop => [.mgt, .log]
  | .logReinit => [.mgt, .log]
  | .lrClear => [.mgt, .log]
  | .counterClear _ => [.clk, .mgt, .regs, .cnt, .gov, .log, .out]
  | .counterSnapshotOrder => [.mgt, .snapAt]
  | .counterSnapshot => [.cntSh, .snapTs]
  | .blockedOnSnapOrder => [.mgt, .blk]
  | .blockedOnSnapshot => [.blk]
  | .blockedOnDone => [.blk]
  | .dumpGo => [.mgt, .regs, .dump, .out]
  | .dumpSnapshotTimeout _ => [.ports, .dump, .out]
  | .dumpDone => [.regs, .dump, .out]
  | .traceEnable => [.mgt, .regs, .trace, .out]
  | .traceDisable => [.mgt, .regs, .trace, .out]
  | .traceTrigWrite => [.mgt, .regs, .trace, .out]
  | .hingeDownWrite _ => [.mgt, .hg, .out]
  | .hingeRearm _ => [.mgt, .hg, .out]
  | .tsUnlock _ => [.mgt, .hg]
  | .discFaultClear => [.mgt, .dbolt]
  | .captureClear => [.mgt, .cap]
  | .tnDoorbell _ _ _ => [.mgt, .regs, .cnt, .rings]
  | .ringCancelOldest _ _ => [.clk, .mgt, .regs, .cnt, .cmtDue, .ents, .ports, .rings, .tdone, .segs, .entq, .waits, .chans, .cq, .cbParts, .resumeQ, .hg, .log, .evr, .trace, .watch, .tally, .xbar, .out]
  | .ringCancelAll _ _ => [.clk, .mgt, .regs, .cnt, .cmtDue, .ents, .ports, .rings, .tdone, .segs, .entq, .waits, .chans, .cq, .cbParts, .resumeQ, .hg, .log, .evr, .trace, .watch, .tally, .xbar, .out]
  | .ringResume _ _ => [.clk, .mgt, .regs, .cnt, .cmtDue, .ents, .ports, .rings, .tdone, .segs, .entq, .waits, .chans, .cq, .cbParts, .resumeQ, .hg, .log, .evr, .trace, .watch, .tally, .xbar, .out]
  | .meterRun => [.meter, .out]
  | .meterStop => [.meter]
  | .meterConfigWrite _ => [.meter]
  | .meterRecPop => [.meter, .out]
  | .tallySlotSample _ => [.tally, .meter]
  | .periodDue => [.meter]
  | .periodClose => [.meter]
  | .recordForm _ => [.meter, .out]
  | .keyStoreAck _ _ => [.meter, .out]
  | .keyStoreTimeout => [.meter]
  | .signRetry => [.meter, .out]
  | .issueCommit _ _ => [.cnt, .ents, .ports, .chans, .rchans, .evr, .trace, .xbar, .out]
  | .issDescriptorAccepted _ => [.ents, .ports]
  | .preloadStart _ => [.ports, .out]
  | .argumentReadResponse _ _ _ => [.ports, .out]
  | .preloadComplete _ => [.cnt, .ents, .ports, .evr, .xbar]
  | .canAck _ _ _ => [.cnt, .ents, .ports, .evr, .xbar]
  | .cmpRecord _ _ _ _ => [.clk, .regs, .cnt, .cmtDue, .ents, .slots, .ports, .rings, .tdone, .chans, .rchans, .resumeQ, .hg, .log, .evr, .trace, .watch, .tally, .xbar, .out]
  | .opdDelivery _ => [.ports, .opdLast, .out]
  | .landingCreditReturn _ _ => [.ports, .mq]
  | .statusBeatAccepted _ => [.cnt, .ports, .mq, .chans, .rchans, .hg, .evr, .xbar, .out]
  | .send _ _ _ => [.cnt, .ports, .chans, .rchans, .hg, .evr, .watch, .xbar, .out]
  | .contrib _ _ _ => [.cnt, .ports, .hg, .xbar, .out]
  | .openReq _ _ => [.cnt, .ports, .xbar]
  | .closeReq _ _ => [.cnt, .ports, .chans, .rchans, .hg, .xbar, .out]
  | .hsig _ _ => [.cnt, .ports, .hg, .xbar, .out]
  | .keyreq _ _ => [.cnt, .ports, .xbar, .out]
  | .returnUnused _ _ => [.cnt, .ports, .xbar]
  | .doorbell _ _ => [.cnt, .ports, .xbar]
  | .slotwr _ _ => [.cnt, .slots, .ports, .xbar]
  | .badMsgRequest _ _ _ => [.cnt, .ports, .xbar]
  | .returnKret _ _ => [.cnt, .ports, .kpool, .evr, .trace, .out]
  | .ctlOnlineChange _ _ _ _ => [.cnt, .ports, .mq, .evr, .out]
  | .ctlSnapshotReceived _ _ => [.cnt, .ports, .dump, .evr, .out]
  | .snapshotTimeout _ => [.ports, .dump, .out]
  | .portReset _ => [.clk, .regs, .cnt, .cmtDue, .ents, .ports, .rings, .tdone, .waits, .kpool, .mq, .chans, .rchans, .resumeQ, .hg, .log, .evr, .trace, .watch, .tally, .xbar, .out]
  | .decrement _ _ _ => [.clk, .regs, .cnt, .cmtDue, .ents, .slots, .ports, .rings, .tdone, .chans, .resumeQ, .hg, .fedt, .log, .evr, .trace, .watch, .tally, .xbar, .out]
  | .failureNotice _ _ _ _ => [.clk, .regs, .cnt, .cmtDue, .ents, .slots, .ports, .rings, .tdone, .chans, .resumeQ, .hg, .fedt, .log, .evr, .trace, .watch, .tally, .xbar, .out]
  | .cancelNotice _ _ _ => [.clk, .regs, .cnt, .cmtDue, .ents, .slots, .ports, .rings, .tdone, .chans, .resumeQ, .hg, .fedt, .log, .evr, .trace, .watch, .tally, .xbar, .out]
  | .seal _ _ _ _ _ => [.clk, .regs, .cnt, .cmtDue, .ents, .slots, .ports, .rings, .tdone, .waits, .chans, .cq, .cbParts, .resumeQ, .hg, .remSegs, .log, .evr, .trace, .watch, .tally, .xbar, .out]
  | .guardWaitPass _ => [.clk, .cnt, .ents, .slots, .trace, .out]
  | .settlementNotice _ _ _ => [.clk, .regs, .cnt, .cmtDue, .ents, .slots, .ports, .rings, .tdone, .chans, .resumeQ, .hg, .log, .evr, .trace, .watch, .tally, .xbar, .out]
  | .issueProxyNotice _ _ => [.cnt, .ents, .xbar]
  | .successorDelivery _ => [.cnt, .ents, .hg, .xbar, .out]
  | .entryFree _ => [.ents, .wq, .cq, .fedt]
  | .quarantineEnd _ => [.ents]
  | .edgeRefetchDone _ => [.ents, .out]
  | .taskClassTimeout _ => [.regs, .cnt, .ents, .log, .trace, .out]
  | .arbiterForward _ => [.cnt, .ents, .arb, .xbar]
  | .placementRequest _ => [.clk, .ents, .place, .xbar]
  | .placementDecision _ => [.cnt, .ents, .occ, .place, .lcIdleAt]
  | .waitingListOffer => [.cnt, .ents, .occ, .place, .lcIdleAt]
  | .stagingRequest _ => [.cnt, .ents, .occ, .place, .gov, .lcIdleAt, .xbar]
  | .stagingNoPort _ => [.cnt, .ents, .xbar]
  | .placementDecisionArrival _ => [.cnt, .ents, .ports, .evr, .trace, .xbar, .out]
  | .stagedTaskPlaced _ => [.cnt, .ents, .ports, .place, .gov, .arb, .evr, .trace, .xbar, .out]
  | .governorRequest _ => [.clk, .place, .gov]
  | .governorQueueGrant _ => [.cnt, .ents, .gov, .xbar]
  | .governorWindowStart _ => [.gov]
  | .portRelease _ _ => [.ents, .occ, .place, .gov, .rings, .xbar]
  | .taskCancel _ => [.clk, .regs, .cnt, .cmtDue, .ents, .ports, .rings, .tdone, .waits, .chans, .cq, .cbParts, .resumeQ, .hg, .log, .evr, .trace, .watch, .tally, .xbar, .out]
  | .withdrawal _ => [.ents, .occ, .place, .gov, .lcIdleAt, .xbar]
  | .unloadDirective _ => [.clk, .regs, .cnt, .cmtDue, .ents, .ports, .rings, .tdone, .waits, .chans, .resumeQ, .hg, .log, .evr, .trace, .watch, .tally, .xbar, .out]
  | .epochMint => [.arb, .xbar]
  | .tokenArrival _ => [.cnt, .arb, .xbar]
  | .ringFetch _ => [.rings, .out]
  | .ringFetchResponse _ _ _ _ => [.regs, .cnt, .cmtDue, .ports, .rings, .tdone, .segs, .entq, .chans, .hg, .log, .cap, .trace, .xbar, .out]
  | .ringRepoll _ => [.rings, .out]
  | .recordAccept _ _ => [.regs, .cnt, .cmtDue, .ports, .rings, .tdone, .chans, .log, .cap, .trace, .xbar, .out]
  | .waitsubRelease _ => [.rings]
  | .segmentHeader _ _ _ => [.cnt, .cmtDue, .ports, .rings, .tdone, .segs, .entq, .chans, .hg, .cap, .xbar, .out]
  | .graphPass1 _ => [.cnt, .ports, .rings, .segs, .entq, .hg, .cap, .xbar, .out]
  | .fanListReadResponse _ _ _ _ => [.regs, .cnt, .ports, .rings, .segs, .entq, .hg, .log, .cap, .trace, .xbar, .out]
  | .operandReadResponse _ _ _ _ => [.regs, .cnt, .ports, .rings, .segs, .entq, .hg, .log, .cap, .trace, .xbar, .out]
  | .graphPass2 _ => [.cnt, .ents, .wq, .slots, .ports, .rings, .segs, .entq, .chans, .cq, .hg, .fedt, .cap, .trace, .watch, .xbar, .out]
  | .entryQueueAdmit _ => [.cnt, .ents, .wq, .slots, .ports, .rings, .segs, .entq, .chans, .cq, .hg, .fedt, .cap, .trace, .watch, .xbar, .out]
  | .graphPass3 _ => [.cnt, .cmtDue, .ents, .rings, .tdone, .segs, .chans, .hg, .xbar, .out]
  | .aheadRelease _ => [.rings]
  | .cond _ _ => [.cnt, .cmtDue, .ports, .rings, .tdone, .segs, .entq, .chans, .hg, .cap, .xbar, .out]
  | .loop _ _ => [.cnt, .cmtDue, .ports, .rings, .tdone, .segs, .entq, .chans, .hg, .cap, .xbar, .out]
  | .endloop _ _ => [.cnt, .cmtDue, .ports, .rings, .tdone, .segs, .entq, .chans, .hg, .cap, .xbar, .out]
  | .stepEnd _ _ => [.clk, .regs, .cnt, .cmtDue, .ents, .ports, .rings, .tdone, .segs, .entq, .waits, .chans, .resumeQ, .hg, .log, .cap, .trace, .tally, .xbar, .out]
  | .yield _ _ => [.clk, .regs, .cnt, .cmtDue, .ents, .ports, .rings, .tdone, .segs, .entq, .waits, .chans, .resumeQ, .hg, .log, .cap, .trace, .tally, .xbar, .out]
  | .fence _ _ => [.cnt, .cmtDue, .ports, .rings, .tdone, .segs, .entq, .chans, .hg, .cap, .xbar, .out]
  | .fenceRelease _ => [.cnt, .cmtDue, .ports, .rings, .tdone, .segs, .entq, .chans, .hg, .cap, .xbar, .out]
  | .indirect _ _ => [.cnt, .cmtDue, .ports, .rings, .tdone, .segs, .entq, .chans, .hg, .cap, .xbar, .out]
  | .setSlot _ _ => [.cnt, .cmtDue, .slots, .ports, .rings, .tdone, .segs, .entq, .chans, .hg, .cap, .xbar, .out]
  | .note _ _ => [.cnt, .cmtDue, .ports, .rings, .tdone, .segs, .entq, .chans, .hg, .cap, .xbar, .out]
  | .mark _ _ => [.cnt, .cmtDue, .ports, .rings, .tdone, .segs, .entq, .chans, .hg, .cap, .trace, .xbar, .out]
  | .nop _ _ => [.cnt, .cmtDue, .ports, .rings, .tdone, .segs, .entq, .chans, .hg, .cap, .xbar, .out]
  | .haspSignal _ _ => [.regs, .cnt, .cmtDue, .ports, .rings, .tdone, .segs, .entq, .hasps, .chans, .hg, .log, .cap, .trace, .xbar, .out]
  | .haspReset _ _ => [.cnt, .cmtDue, .ports, .rings, .tdone, .segs, .entq, .hasps, .chans, .hg, .cap, .xbar, .out]
  | .haspWait _ _ => [.clk, .cnt, .ports, .rings, .segs, .entq, .waits, .hg, .cap, .xbar, .out]
  | .openCh _ _ => [.cnt, .cmtDue, .slots, .ports, .rings, .tdone, .segs, .entq, .chans, .hg, .cap, .xbar, .out]
  | .closeCh _ _ => [.cnt, .cmtDue, .ports, .rings, .tdone, .segs, .entq, .chans, .rchans, .hg, .cap, .xbar, .out]
  | .commandFaultNotice _ => [.clk, .regs, .cnt, .cmtDue, .ents, .ports, .rings, .tdone, .segs, .entq, .waits, .chans, .cq, .cbParts, .resumeQ, .hg, .log, .evr, .trace, .watch, .tally, .xbar, .out]
  | .ringTimeout _ => [.clk, .regs, .cnt, .cmtDue, .ents, .ports, .rings, .tdone, .segs, .entq, .waits, .chans, .cq, .cbParts, .resumeQ, .hg, .log, .evr, .trace, .watch, .tally, .xbar, .out]
  | .stepTimeout _ => [.clk, .regs, .cnt, .cmtDue, .ents, .ports, .rings, .tdone, .segs, .entq, .waits, .chans, .cq, .cbParts, .resumeQ, .hg, .log, .evr, .trace, .watch, .tally, .xbar, .out]
  | .statusBlockWriteResponse _ _ _ => [.regs, .cnt, .rings, .tdone, .log, .trace, .out]
  | .digestWriteResponse _ _ _ => [.clk, .regs, .cnt, .cmtDue, .ents, .ports, .rings, .tdone, .chans, .cq, .cbParts, .resumeQ, .hg, .log, .evr, .trace, .watch, .tally, .xbar, .out]
  | .messageArrival _ _ _ => [.cnt, .ports, .mq, .chans, .rchans, .hg, .trace, .watch, .xbar, .out]
  | .nackReturn _ _ _ => [.cnt, .ports, .chans, .rchans, .hg, .evr, .xbar]
  | .answerReturn _ _ => [.cnt, .ports, .chans, .rchans, .storms, .hg, .xbar]
  | .channelAllocate => [.cnt, .ports, .chans, .rchans, .hg, .xbar, .out]
  | .bindNotice _ => [.cnt, .chans, .rchans, .xbar]
  | .channelCloseApply _ _ => [.cnt, .ports, .rings, .chans, .rchans, .hg, .watch, .xbar, .out]
  | .channelIdFree _ => [.chans, .rchans]
  | .stormNotice _ => [.regs, .cnt, .chans, .rchans, .storms, .log, .trace, .xbar, .out]
  | .partArrival _ _ _ _ => [.clk, .regs, .cnt, .cmtDue, .ents, .ports, .rings, .tdone, .chans, .cq, .cbParts, .resumeQ, .hg, .log, .evr, .trace, .watch, .tally, .xbar, .out]
  | .partApply _ => [.cnt, .ports, .cq, .cbParts, .hg, .xbar, .out]
  | .drainConvert _ _ => [.cq, .watch, .out]
  | .drainWriteResponse _ _ _ => [.clk, .regs, .cnt, .cmtDue, .ents, .ports, .rings, .tdone, .chans, .cq, .cbParts, .resumeQ, .hg, .log, .evr, .trace, .watch, .tally, .xbar, .out]
  | .tearNotice _ _ _ => [.clk, .regs, .cnt, .cmtDue, .ents, .ports, .rings, .tdone, .chans, .cq, .cbParts, .resumeQ, .hg, .log, .evr, .trace, .watch, .tally, .xbar, .out]
  | .queueNumberFree _ _ => [.cq]
  | .signal _ _ _ => [.regs, .cnt, .ports, .hasps, .hg, .log, .trace, .xbar, .out]
  | .waitRegistration _ => [.clk, .regs, .cnt, .ports, .waits, .hg, .log, .evr, .trace, .xbar, .out]
  | .waitRelease => [.cnt, .cmtDue, .rings, .tdone, .waits, .chans, .hg, .trace, .xbar, .out]
  | .taskFormRelease _ => [.cnt, .ports, .evr, .xbar]
  | .keyRequestArrival _ _ => [.cnt, .ports, .kpool, .evr, .trace, .xbar, .out]
  | .keyReturn _ _ _ => [.cnt, .ports, .kpool, .evr, .trace, .xbar, .out]
  | .keyTimeout _ _ _ => [.regs, .cnt, .ports, .kpool, .log, .evr, .trace, .out]
  | .autoPreemptTrigger => [.clk, .regs, .cnt, .cmtDue, .ents, .place, .rings, .tdone, .segs, .entq, .waits, .chans, .preIgnored, .resumeQ, .hg, .log, .trace, .tally, .xbar, .out]
  | .discardNotice _ _ => [.clk, .regs, .cnt, .cmtDue, .ents, .ports, .rings, .tdone, .waits, .chans, .cq, .cbParts, .resumeQ, .hg, .fedt, .log, .evr, .trace, .watch, .tally, .xbar, .out]
  | .autoResume => [.cnt, .cmtDue, .rings, .tdone, .chans, .preIgnored, .resumeQ, .lcIdleAt, .trace, .xbar, .out]
  | .helloReceived _ _ => [.regs, .cnt, .hg, .unreach, .out]
  | .itemForward _ _ => [.cnt, .ents, .ports, .rings, .segs, .entq, .chans, .rchans, .storms, .hg, .cap, .xbar, .out]
  | .remoteReserve _ _ => [.cnt, .ents, .wq, .hg, .fedt, .remSegs, .out]
  | .hndAnswer _ _ _ => [.cnt, .ents, .wq, .slots, .ports, .rings, .segs, .entq, .chans, .cq, .hg, .fedt, .cap, .trace, .watch, .xbar, .out]
  | .remoteRetryExpiry _ => [.rings, .entq]
  | .linkItem _ _ _ _ => [.cnt, .ents, .hg, .out]
  | .xctlAbandon _ _ => [.cnt, .ents, .wq, .hg, .fedt, .remSegs]
  | .setlItem _ _ _ _ => [.clk, .regs, .cnt, .cmtDue, .rings, .tdone, .chans, .resumeQ, .hg, .fedt, .log, .trace, .tally, .xbar, .out]
  | .hopItem _ _ _ _ _ _ => [.clk, .regs, .cnt, .ports, .hasps, .waits, .hg, .log, .trace, .xbar, .out]
  | .hrelItem _ => [.cnt, .cmtDue, .rings, .tdone, .chans, .hg, .xbar, .out]
  | .chcItem _ _ _ _ _ _ => [.clk, .regs, .cnt, .cmtDue, .ents, .ports, .rings, .tdone, .chans, .rchans, .cq, .cbParts, .resumeQ, .hg, .log, .evr, .trace, .watch, .tally, .xbar, .out]
  | .confReceived _ _ => [.cnt, .ents, .hg, .out]
  | .confSend _ => [.cnt, .hg, .out]
  | .retrainNotification _ => [.cnt, .hg]
  | .linkActiveAgain _ => [.cnt, .hg, .out]
  | .holdMaxExpiry _ => [.hg]
  | .linkError _ => [.hg]
  | .hingeDownEvent _ => [.regs, .cnt, .ents, .ports, .rings, .segs, .entq, .chans, .rchans, .storms, .hg, .unreach, .log, .cap, .trace, .xbar, .out]
  | .unrchItem _ _ _ => [.cnt, .ports, .rings, .segs, .entq, .hg, .unreach, .cap, .xbar, .out]
  | .unreachableNotice _ _ => [.clk, .regs, .cnt, .cmtDue, .ents, .ports, .rings, .tdone, .segs, .entq, .waits, .chans, .rchans, .storms, .cq, .cbParts, .resumeQ, .hg, .fedt, .remSegs, .log, .cap, .evr, .trace, .watch, .tally, .xbar, .out]
  | .tsFlitSend _ => [.hg, .out]
  | .tsSample _ _ => [.clk, .gov, .hg]
  | .tsSlewStep => [.clk]
  | .tsHoldEnd => [.clk]
  | .tsLost _ => [.regs, .hg, .out]
  | .scrubRead _ _ _ _ => [.regs, .cnt, .mq, .log, .ecc, .trace, .out]
  | .uncorrectableWord _ _ _ _ => [.clk, .regs, .cnt, .cmtDue, .ents, .slots, .ports, .gov, .rings, .tdone, .segs, .entq, .pcls, .hasps, .waits, .kpool, .mq, .chans, .rchans, .cq, .cbParts, .resumeQ, .hg, .fedt, .log, .evr, .trace, .watch, .tally, .xbar, .out]
  | .tmrDisagreement _ => [.boot, .regs, .cnt, .log, .dbolt, .trace, .out]
  | .replay _ => [.cnt]
  | .crossbarRetransmit _ _ => [.boot, .regs, .cnt, .log, .dbolt, .ecc, .trace, .out]
  | .logRecordArrival _ => [.regs, .log, .trace, .out]
  | .deadboltSample _ _ => [.regs, .cnt, .log, .dbolt, .trace, .out]
  | .deadboltAssert => [.regs, .cnt, .rings, .segs, .entq, .hg, .dbolt, .trace, .out]
  | .drainEnd => [.clk, .regs, .cnt, .cmtDue, .ents, .ports, .rings, .tdone, .segs, .entq, .waits, .chans, .cq, .cbParts, .resumeQ, .hg, .log, .dbolt, .evr, .trace, .watch, .tally, .xbar, .out]
  | .deadboltRelease => [.dbolt]
  | .hangDetect _ => [.regs, .cnt, .rings, .log, .hang, .blk, .trace, .out]
  | .traceEntryStage => [.regs, .cnt, .trace, .out]
  | .traceFifoDrop _ => [.cnt, .trace]
  | .traceBlockWrite => [.regs, .trace, .out]
  | .traceWriteResponse _ => [.trace]
  | .samplePeriod _ => [.cnt, .ports, .trace]
  | .noteWriteResponse _ _ _ => [.regs, .cnt, .log, .trace, .out]
  | .portResetRelease _ => [.cnt, .ports, .evr]
  | .issueCopyReread _ _ => [.cnt, .ports, .xbar]
  | .hingeCreditReturn _ _ _ => [.cnt, .hg, .out]
  | .stallRequest _ => [.hg, .out]

/-- The parts that one fclk of the block's own clock may write (log entry 5). -/
def tickWrites : List BlockPart :=
  [.clk, .regs, .cnt, .cntSh, .snapAt, .snapTs, .cmtTs, .cmtDue, .iqWork, .ents, .slots, .ports, .gov, .arb, .rings,
   .tdone, .segs, .entq, .pcls, .waits, .mq, .chans, .resumeQ, .hg, .log, .dbolt, .dump, .evr, .blk, .trace, .watch,
   .tally, .meter, .xbar, .out]

/-! ## Words of the statements -/

/-- No doorbell or slot write on its way is due in the cycle, so that nothing comes before the command (R29). -/
abbrev NoneDue (b : Block) : Prop := ∀ x ∈ b.xbar, dueItem b x = none

/-- The command `c`, sampled in the cycle under way, takes the block `b` to a block of which `Q` holds; the parameters and
the waiting commands stay, and the cycle holds that the command was sampled. -/
def Takes (c : Instr) (p : Params) (q : List Instr) (b : Block) (Q : Block → Prop) : Prop :=
  ∀ k, inTurn p b k c → NoneDue b → ∃ d, exec c ⟨p, q, b, k⟩ = .next ⟨p, q, d, (turnOf p b c).mark k⟩ ∧ Q d

/-- Two blocks hold the same entries but for entry `h`; and so on for the other tables. -/
def OnlyEnt (h : Nat) (b d : Block) : Prop := ∀ k, k ≠ h → ent d k = ent b k
def OnlyPort (n : Nat) (b d : Block) : Prop := ∀ k, k ≠ n → prt d k = prt b k
def OnlyRing (r : Nat) (b d : Block) : Prop := ∀ k, k ≠ r → rng d k = rng b k
def OnlyHinge (h : Nat) (b d : Block) : Prop := ∀ k, k ≠ h → hng d k = hng b k
def OnlyReg (p : Params) (a : Nat) (b d : Block) : Prop := ∀ k, k ≠ a → rd p d k = rd p b k
def OnlyMQ (k : Nat) (b d : Block) : Prop := ∀ j, j ≠ k → Tbl.get {} d.mq j = Tbl.get {} b.mq j
def OnlyCQ (k : Nat) (b d : Block) : Prop := ∀ j, j ≠ k → Tbl.get {} d.cq j = Tbl.get {} b.cq j
def OnlyKPool (k : Nat) (b d : Block) : Prop := ∀ j, j ≠ k → Tbl.get {} d.kpool j = Tbl.get {} b.kpool j
def OnlyHasp (h : Nat) (b d : Block) : Prop := ∀ k, k ≠ h → hsp d k = hsp b k
def OnlyChan (c : Nat) (b d : Block) : Prop := ∀ k, k ≠ c → chn d k = chn b k
def OnlyTen (t : Nat) (b d : Block) : Prop := ∀ k, k ≠ t → ten d k = ten b k
def OnlyCnt (k : Nat) (b d : Block) : Prop := ∀ j, j ≠ k → Tbl.get 0 d.cnt j = Tbl.get 0 b.cnt j

/-- The walk of ring `r` is at a record of opcode `o` with the bytes `x`, well formed and free of patches, and takes it. -/
def Reads (p : Params) (b : Block) (r o : Nat) (x : BitVec 256) : Prop :=
  keeperUp b ∧ mayTake b r ∧ (rng b r).walk.patches = [] ∧ controlOp (wide x) ∧ opc (wide x) = o ∧ fieldsOk p b true 0 (wide x)
/-- The record at the walk of ring `r` is not the last of its segment. -/
def Inside (b : Block) (r : Nat) : Prop := ∃ g, (rng b r).walk.seg = some g ∧ (rng b r).walk.off + 32 < g.off + 64 + g.len
/-- The walk at the record after the one it was at. -/
def nextRec (k : Walk) : Walk := { k with mode := .records, off := k.off + 32, memv := [], hold := none, patches := [] }
/-- The endpoint lies in another instance. -/
def farEndp : EndP → Bool
  | .remote _ _ => true
  | _ => false
/-- The endpoint is a task. -/
def taskEndp : EndP → Bool
  | .task _ => true
  | _ => false
/-- A ring that has just progressed (R298). -/
def calm (g : Ring) : Ring := { g with hangTicks := 0, hung := false }
/-- The ring with its points no longer clean: an effect has happened since them (R236). -/
def stained (g : Ring) : Ring := { g with points := g.points.map (fun q => { q with clean := false }) }

/-! ## What holds of every table -/

/-- The error log within its sizes: 1,024 records at the Keeper (R288), 4 last-resort registers (R291), 16 records in a
unit's buffer (R289). -/
def Log.fits (l : Log) : Prop := l.recs.length ≤ 1024 ∧ l.lr.length ≤ 4 ∧ ∀ x ∈ l.buf, x.2.length ≤ 16

/-- Register storage in canonical form: addresses strictly rising, no word listed at its reset value. -/
def regsCanonical (p : Params) (t : Tbl Word32) : Prop :=
  t.Pairwise (fun x y => x.1 < y.1) ∧ ∀ x ∈ t, x.2 ≠ regReset p x.1

/-- Every table of the block is in canonical form, so that equal contents are equal data, and the log, the event rings and
the storm list are within the sizes the spec gives them (R288, R289, R291, R319, R180). -/
structure Sound (p : Params) (b : Block) : Prop where
  regs : regsCanonical p b.regs
  cnt : Tbl.wf 0 b.cnt
  cntSh : Tbl.wf 0 b.cntSh
  iqWork : Tbl.wf 0x102 b.iqWork
  ents : Tbl.wf {} b.ents
  wq : Tbl.wf {} b.wq
  slots : Tbl.wf {} b.slots
  ports : Tbl.wf {} b.ports
  occ : Tbl.wf [] b.occ
  rings : Tbl.wf {} b.rings
  tdone : Tbl.wf 0 b.tdone
  tens : Tbl.wf {} b.tens
  segs : Tbl.wf none b.segs
  pcls : Tbl.wf {} b.pcls
  hasps : Tbl.wf {} b.hasps
  kpool : Tbl.wf {} b.kpool
  mq : Tbl.wf {} b.mq
  mqPop : Tbl.wf {} b.mqPop
  chans : Tbl.wf none b.chans
  cq : Tbl.wf {} b.cq
  cbParts : Tbl.wf [] b.cbParts
  opdLast : Tbl.wf 0 b.opdLast
  hg : Tbl.wf {} b.hg
  routes : Tbl.wf {} b.routes
  fedt : Tbl.wf {} b.fedt
  evr : Tbl.wf [] b.evr
  tally : Tbl.wf {} b.tally
  log : b.log.fits
  evrSize : ∀ x ∈ b.evr, x.2.length ≤ evDepth p
  storms : b.storms.length ≤ 64

end Sys2Proof.Machine
end

