-- ==== Sys2Proof/Certificates/Slice0/Obligations.lean ====
section
/-! DEFINITION. The statements about the model that are to be proved. -/

section Statements

open Sys2Proof Sys2Proof.Machine

/-! ## Resets and boot (chapter 14) -/

/-- The reset pins (R376, R379, R386, R387, R330). Asserting PORST_N leaves everything at its reset value but the level of
SRST_N and the record of what the block has driven. Releasing it begins attempt 1. Asserting SRST_N clears everything
but the timestamp, the clock, the meter, the record of what was driven, ATTEMPTS, MINIMAL and REASON, and sets REASON
6 where the start was neither locked nor failed; while PORST_N is asserted it only changes the level. Releasing SRST_N
begins an attempt: after three attempts in minimal mode with every Ward but Ward 0 fenced, else with ATTEMPTS one
higher. MTR_RST_N resets the meter and keeps its copy of the timestamp, nothing else. -/
def Obligations.ResetPins : Prop :=
  (∀ p q b, Takes .porstNAssert p q b fun d =>
      d = { boot := { porst := true, srst := b.boot.srst }, out := b.out }) ∧
  (∀ p q b, b.boot.porst = true → Takes .porstNRelease p q b fun d =>
      d.boot.porst = false ∧ d.boot.attempts = 1 ∧ d.boot.srst = b.boot.srst ∧ d.clk.fclk = 0 ∧ d.clk.ts = b.clk.ts
    ∧ Only [.clk, .boot] b d) ∧
  (∀ p q b, b.boot.porst = false → b.boot.srst = false → Takes .srstNAssert p q b fun d =>
      d.boot.srst = true ∧ d.boot.lock = false ∧ d.boot.state = .scrub ∧ d.boot.fence = 0
    ∧ d.boot.attempts = b.boot.attempts ∧ d.boot.minimal = b.boot.minimal
    ∧ d.boot.reason = (if b.boot.lock ∨ b.boot.state = .failed then b.boot.reason else 6)
    ∧ d.clk.ts = b.clk.ts ∧ d.clk.fclk = b.clk.fclk ∧ d.meter = b.meter ∧ d.out = b.out
    ∧ (∀ f, f ∉ [.clk, .boot, .meter, .out] → agree f {} d)) ∧
  (∀ p q b, b.boot.porst = true → b.boot.srst = false → Takes .srstNAssert p q b fun d =>
      d = { b with boot := { b.boot with srst := true } }) ∧
  (∀ p q b, b.boot.porst = false → b.boot.srst = true → Takes .srstNRelease p q b fun d =>
      d.boot.srst = false ∧ d.boot.t0 = b.clk.fclk
    ∧ (b.boot.attempts = 3 → d.boot.minimal = true ∧ d.boot.attempts = 3 ∧ d.boot.fence = BitVec.ofNat 48 (2 ^ p.nw - 2))
    ∧ (b.boot.attempts ≠ 3 → d.boot.minimal = b.boot.minimal ∧ d.boot.attempts = b.boot.attempts + 1 ∧ d.boot.fence = b.boot.fence)
    ∧ Only [.boot] b d) ∧
  (∀ p q b, b.boot.porst = false → Takes .mtrRstN p q b fun d =>
      d.meter = { ts := b.meter.ts } ∧ Only [.meter] b d)

/-- A start (R376, R380 to R384, R386, R388, R389). A domain whose release is due leaves reset into its first stage. A
scrub that ends leads to the self-test (a Ward's no sooner than 2,048 fclk after it began), a self-test without a
fatal word to the rescrub, one with a fatal word of a Ward to a fenced Ward, a rescrub to the Keeper's lane comparison
or to READY while no register access waits. The lane comparison without a bad lane, and with one bad lane, which is
voted out for good, ends READY. A Hinge that waits for its link becomes READY with it, and after 1,024,000 tclk is
timed out with its bit of HFAIL set and no other. LOCK := 1 in READY outside FAULT sets LOCK and, outside minimal
mode, returns ATTEMPTS to 0. FWFAIL before the lock makes the attempt FAILED with REASON 5 (FIRMWARE). Every unit but
the one named keeps its stage, and nothing changes outside the parts named. -/
def Obligations.BootAndLock : Prop :=
  (∀ p q b x, b.boot.porst = false → starts p b x = true → stageOf b (domNo x) = .held → b.boot.t0 + relAt p x ≤ b.clk.fclk →
    Takes (.domainResetRelease x) p q b fun d =>
      stageOf d (domNo x) = (match x with | .keeper | .ward _ => .scrub | .hinge _ => .linkup | _ => .ready)
    ∧ (∀ u, u ≠ domNo x → stageOf d u = stageOf b u) ∧ Only [.clk, .boot, .out] b d) ∧
  (∀ p q b u, booting b = true → stageOf b (unitNo u) = .scrub → (match u with
      | .keeper => True | .ward w => Tbl.get 0 b.boot.since (1 + w) + 2048 ≤ b.clk.fclk | .hinge _ => False) →
    Takes (.bootScrubDone u) p q b fun d =>
      stageOf d (unitNo u) = .selftest ∧ (∀ v, v ≠ unitNo u → stageOf d v = stageOf b v) ∧ Only [.boot, .regs, .out] b d) ∧
  (∀ p q b u l, booting b = true → stageOf b (unitNo u) = .selftest →
    Takes (.selfTestDone u [] l) p q b fun d =>
      stageOf d (unitNo u) = .rescrub ∧ (∀ v, v ≠ unitNo u → stageOf d v = stageOf b v)
    ∧ Only [.boot, .regs, .cnt, .log, .trace, .out] b d) ∧
  (∀ p q b w x l c, booting b = true → stageOf b (1 + w) = .selftest → w < 48 →
    Takes (.selfTestDone (.ward w) (x :: l) c) p q b fun d =>
      stageOf d (1 + w) = .fenced ∧ fenced d w = true ∧ Only [.boot, .regs, .cnt, .log, .trace, .out] b d) ∧
  (∀ p q b u, booting b = true → stageOf b (unitNo u) = .rescrub → b.mgt.waitW = none → b.mgt.waitR = none →
    Takes (.rescrubDone u) p q b fun d =>
      stageOf d (unitNo u) = (match u with | .keeper => .tmrCheck | _ => .ready)
    ∧ (∀ v, v ≠ unitNo u → stageOf d v = stageOf b v) ∧ Only [.boot, .regs, .out] b d) ∧
  (∀ p q b, booting b = true → stageOf b 0 = .tmrCheck →
    Takes (.tmrCheck 0) p q b fun d =>
      stageOf d 0 = .ready ∧ d.boot.hard = b.boot.hard
    ∧ Only [.boot, .regs, .out] b d) ∧
  (∀ p q b n (bad : BitVec 3), booting b = true → stageOf b 0 = .tmrCheck → bitsOf bad 3 = [n] →
    Takes (.tmrCheck bad) p q b fun d =>
      stageOf d 0 = .ready ∧ d.boot.hard = some n
    ∧ Only [.boot, .regs, .cnt, .log, .trace, .out] b d) ∧
  (∀ p q b h, hingeUp p b h = true → (hng b h).state = .train → (hng b h).linkUp = false →
    Takes (.linkUp h) p q b fun d =>
      (hng d h).linkUp = true
    ∧ (stageOf b (64 + h) = .linkup → stageOf d (64 + h) = .ready) ∧ Only [.boot, .regs, .cnt, .hg, .unreach, .out] b d) ∧
  (∀ p q b h, hingeUp p b h = true → stageOf b (64 + h) = .linkup →
      Tbl.get 0 b.boot.since (64 + h) + 2048000 ≤ b.clk.fclk → h < 8 →
    Takes (.linkUpTimeout h) p q b fun d =>
      stageOf d (64 + h) = .timedOut
    ∧ d.boot.hfail.getLsbD h = true ∧ (∀ k, k ≠ h → d.boot.hfail.getLsbD k = b.boot.hfail.getLsbD k) ∧ Only [.boot, .regs, .out] b d) ∧
  (∀ p q b, mgtFree b = true → b.boot.state = .ready → b.dbolt.state ≠ .fault → b.boot.lock = false →
    Takes .lock p q b fun d =>
      d.boot.lock = true ∧ d.boot.state = .ready
    ∧ d.boot.attempts = (if b.boot.minimal then b.boot.attempts else 0) ∧ d.boot.minimal = b.boot.minimal
    ∧ d.boot.fence = b.boot.fence ∧ Only [.boot, .mgt, .regs, .cnt, .hg, .unreach, .out] b d) ∧
  (∀ p q b, mgtFree b = true → b.boot.lock = false →
    Takes .fwfail p q b fun d =>
      d.boot = { b.boot with state := .failed, reason := 5 }
    ∧ Only [.boot, .mgt] b d)

/-! ## Register access (chapters 13 to 15) -/

/-- The management port and the meter port (R368, R389, R396). SCRATCH takes the word written and no other register
changes. A word that LOCK closes (0x68) takes the word written before the lock; after it the word stays and
LOCKED_WRITE is set. An access whose address is not a multiple of 4, or whose strobe is not full, is answered SLVERR
and changes nothing but the response. The same of the meter's own port and its SCRATCH. -/
def Obligations.RegisterWrites : Prop :=
  (∀ p q b v, mgtFree b → Takes (.registerWrite .mgt 0x00001C v 0xF) p q b fun d =>
    rd p d 0x1C = v ∧ d.mgt.resp = .okay ∧ OnlyReg p 0x1C b d ∧ Only [.mgt, .regs] b d) ∧
  (∀ p q b v, mgtFree b → b.boot.lock = false → Takes (.registerWrite .mgt 0x000068 v 0xF) p q b fun d =>
    rd p d 0x68 = v ∧ OnlyReg p 0x68 b d ∧ Only [.mgt, .regs] b d) ∧
  (∀ p q b v, mgtFree b → b.boot.lock = true → Takes (.registerWrite .mgt 0x000068 v 0xF) p q b fun d =>
    rd p d 0x68 = rd p b 0x68 ∧ bitAt (rd p d 0x10) 0 = true ∧ Only [.mgt, .regs, .out] b d) ∧
  (∀ p q b (a : BitVec 24) v s, mgtFree b → a.toNat % 4 ≠ 0 ∨ s ≠ 0xF → Takes (.registerWrite .mgt a v s) p q b fun d =>
    d.mgt = { b.mgt with resp := .slverr } ∧ Only [.mgt] b d) ∧
  (∀ p q b v, meterUp b → Takes (.registerWrite .mtp 0x00001C v 0xF) p q b fun d =>
    d.meter = { b.meter with scratch := v, resp := .okay } ∧ Only [.meter] b d) ∧
  (∀ p q b (a : BitVec 24) v s, meterUp b → a.toNat % 4 ≠ 0 ∨ s ≠ 0xF → Takes (.registerWrite .mtp a v s) p q b fun d =>
    d.meter = { b.meter with resp := .slverr } ∧ Only [.meter] b d)

/-- Reads (R320, R400, R402). A read of the broadcast window answers the lowest member's word and keeps whether any member
differs. A read of KP_SNAP_TS_LO answers the low word and latches the high one, and the next read of the high word
answers the latched value and drops the latch (that it serves one read is the model's choice, log entry 17). A read of
WD_EV_TSNEW_LO of Ward 0 latches the event ring of the selected port. -/
def Obligations.RegisterReads : Prop :=
  (∀ p q b w l, mgtUp b → b.mgt.waitR = none → b.mgt.latch = [] → members p b .bcast = w :: l →
    Takes (.windowRead 0x4000C0) p q b fun d =>
      d.mgt.rdata = rd p b (wA w 0 0xC0) ∧ d.mgt.resp = .okay
      ∧ Tbl.get false d.mgt.bdiff 0x400 = l.any (fun v => decide (rd p b (wA v 0 0xC0) ≠ rd p b (wA w 0 0xC0)))
      ∧ Only [.mgt] b d) ∧
  (∀ p q b, mgtUp b → b.mgt.waitR = none → b.mgt.latch = [] → Takes (.multiwordReadLatch (.mgt, 0x00A044)) p q b fun d =>
      d.mgt.rdata = BitVec.ofNat 32 b.snapTs.toNat ∧ d.mgt.resp = .okay
      ∧ d.mgt.latch = [(0xA048, BitVec.ofNat 32 (b.snapTs.toNat / 2 ^ 32))] ∧ Only [.mgt] b d) ∧
  (∀ p q b v, mgtUp b → b.mgt.waitR = none → b.mgt.latch = [(0xA048, v)] → Takes (.multiwordReadLatch (.mgt, 0x00A048)) p q b fun d =>
      d.mgt.rdata = v ∧ d.mgt.resp = .okay ∧ d.mgt.latch = [] ∧ Only [.mgt] b d) ∧
  (∀ p q b, mgtUp b → b.mgt.waitR = none → b.mgt.latch = [] → 0 < p.nw → fenced b 0 = false → tabReady b 1 →
      rdf p b (wA 0 5 0x040) 0 6 < p.ne →
    Takes (.eventRingRead 0x10504C) p q b fun d =>
      let n := rdf p b (wA 0 5 0x040) 0 6
      Tbl.get none d.mgt.evLatch n = some (Tbl.get [] b.evr n) ∧ d.mgt.resp = .okay ∧ Only [.mgt] b d)

/-- Fields that take effect at a commit point (R230, R390 to R392). A write of KP_TEN_CFG changes that tenant's fields
and no other tenant's; GUARD_MODE 0b11 is refused alone, and the mode that rings have in use stays until a commit. A
commit point of a Ward puts its placement classes, the guard modes of its enabled rings and WD_IQ_CFG into use and
leaves every other class and Ward alone; with QHOLD it ends the request and changes nothing else. A forced commit with
QHOLD clear puts WD_IQ_CFG of every unfenced Ward into use. -/
def Obligations.ShadowsAndCommits : Prop :=
  (∀ p q b v, mgtFree b → fld v 0 2 ≠ 3 → bitAt v 31 → Takes (.rwqShadowWrite 0x002044 v) p q b fun d =>
    ten d (tenSel p b) = { ten b (tenSel p b) with
      en := true, lcOk := bitAt v 30, preemptible := bitAt v 29, gmode := fld v 0 2 }
    ∧ OnlyTen (tenSel p b) b d ∧ Only [.mgt, .tens] b d) ∧
  (∀ p q b w, wardUp p b w → atCommit p b w → qhold p b = false → Takes (.commitPoint w) p q b fun d =>
    (∀ c, pclHere p b w c → (pcl d c).work = (pcl b c).shadow) ∧ (∀ c, ¬ pclHere p b w c → pcl d c = pcl b c)
    ∧ (∀ r, (rng b r).enable → rHome (rng b r) = w → rng d r = { rng b r with gmode := (ten b (rTenant (rng b r))).gmode })
    ∧ Tbl.get 0x102 d.iqWork w = rd p b (wA w 0 0x0B4) ∧ (∀ v, v ≠ w → Tbl.get 0x102 d.iqWork v = Tbl.get 0x102 b.iqWork v)
    ∧ w ∉ d.cmtDue ∧ Only [.cmtTs, .cmtDue, .iqWork, .rings, .pcls] b d) ∧
  (∀ p q b w, wardUp p b w → atCommit p b w → qhold p b = true → Takes (.commitPoint w) p q b fun d =>
    w ∉ d.cmtDue ∧ Only [.cmtDue] b d) ∧
  (∀ p q b, mgtFree b → qhold p b = false → Takes .commitForce p q b fun d =>
    (∀ w, w < p.nw → fenced b w = false → Tbl.get 0x102 d.iqWork w = rd p b (wA w 0 0x0B4))
    ∧ Only [.mgt, .cmtTs, .cmtDue, .iqWork, .rings, .pcls] b d) ∧
  (∀ p q b v, mgtFree b → Takes (.tenantCfgWrite v) p q b fun d =>
    (ten d (tenSel p b)).gmode = (if fld v 0 2 = 3 then (ten b (tenSel p b)).gmode else fld v 0 2)
    ∧ (ten d (tenSel p b)).lcOk = bitAt v 30 ∧ (ten d (tenSel p b)).preemptible = bitAt v 29
    ∧ d.rings = b.rings ∧ d.pcls = b.pcls ∧ OnlyTen (tenSel p b) b d)

/-- Configuration by register (R110, R111, R205, R206, R216, R230). A descriptor word of the selected ring is written
while the ring is disabled and has nothing outstanding, its reserved bits staying 0; otherwise it stays and
PG_ERR.RING_CFG is set; a word that is read only, or of the other half, stays. ENABLE of a good descriptor enables a
ring with nothing outstanding, with its pointers, STEP and loops at 0, the SUBID it expects that of FIRST_SUBID, and
the guard mode of its tenant; a bad one is refused with PG_ERR.RING_CFG. ENABLE := 0 ends fetching and keeps what was
accepted. KP_TEN_CFG is written field by field; EN := 0 is refused while a ring of the tenant is live. A hasp without
waits is assigned with COUNT 0, and one with waits is not; a forced write of COUNT sets COUNT alone. No other ring,
tenant or hasp changes. -/
def Obligations.Configuration : Prop :=
  (∀ p q b k v, mgtFree b → tabReady b 0 → bitAt (rd p b (kA 1 0x040)) 16 = false → k < 5 →
      (rng b (ringSel p b)).enable = false → (rng b (ringSel p b)).subs = [] →
    Takes (.ringDescriptorWrite k v) p q b fun d =>
      rng d (ringSel p b) = (match k with
        | 0 => { rng b (ringSel p b) with d0 := v }
        | 1 => { rng b (ringSel p b) with d1 := v &&& 0xFFFFEFFF }
        | 2 => { rng b (ringSel p b) with d2 := v &&& 0xFFFFFF3F }
        | 3 => { rng b (ringSel p b) with d3 := v &&& 0x0FFFFFFF }
        | _ => { rng b (ringSel p b) with d4 := v })
      ∧ OnlyRing (ringSel p b) b d ∧ Only [.mgt, .rings] b d) ∧
  (∀ p q b k v, mgtFree b → tabReady b 0 → bitAt (rd p b (kA 1 0x040)) 16 = false → k < 5 →
      (rng b (ringSel p b)).enable = true ∨ (rng b (ringSel p b)).subs ≠ [] →
    Takes (.ringDescriptorWrite k v) p q b fun d =>
      bitAt (rd p d (kA 1 0x010)) 1 = true ∧ d.rings = b.rings ∧ Only [.mgt, .regs, .out] b d) ∧
  (∀ p q b k v, mgtFree b → tabReady b 0 → bitAt (rd p b (kA 1 0x040)) 16 = true ∨ 6 ≤ k →
    Takes (.ringDescriptorWrite k v) p q b fun d => d.rings = b.rings ∧ Only [.mgt] b d) ∧
  (∀ p q b, mgtFree b → tabReady b 0 → bitAt (rd p b (kA 1 0x040)) 16 = false → (rng b (ringSel p b)).enable = false →
      enableBad p b (ringSel p b) = false → (rng b (ringSel p b)).subs = [] →
    Takes .ringEnable p q b fun d =>
      rng d (ringSel p b) = { rng b (ringSel p b) with
        enable := true, fptr := 0, rptr := 0, wptr := 0, step := 0, walk := { (rng b (ringSel p b)).walk with loops := [] }
        expSub := (rng b (ringSel p b)).d4, recNo := 0, cancelTo := none, repollAt := none, recRead := false, points := []
        hangTicks := 0, hung := false, fenceFail := false, steps := []
        gmode := (ten b (rTenant (rng b (ringSel p b)))).gmode }
      ∧ OnlyRing (ringSel p b) b d ∧ Only [.mgt, .rings, .tdone] b d) ∧
  (∀ p q b, mgtFree b → tabReady b 0 → bitAt (rd p b (kA 1 0x040)) 16 = false → (rng b (ringSel p b)).enable = false →
      enableBad p b (ringSel p b) = true →
    Takes .ringEnable p q b fun d =>
      bitAt (rd p d (kA 1 0x010)) 1 = true ∧ d.rings = b.rings ∧ d.tdone = b.tdone ∧ Only [.mgt, .regs, .out] b d) ∧
  (∀ p q b, mgtFree b → tabReady b 0 → bitAt (rd p b (kA 1 0x040)) 16 = false →
    Takes .ringDisable p q b fun d =>
      rng d (ringSel p b) = { rng b (ringSel p b) with enable := false, recRead := false, repollAt := none }
      ∧ OnlyRing (ringSel p b) b d ∧ Only [.mgt, .rings] b d) ∧
  (∀ p q b v, mgtFree b → fld v 0 2 ≠ 3 → bitAt v 31 ∨ tenLive b (tenSel p b) = false →
    Takes (.tenantCfgWrite v) p q b fun d =>
      ten d (tenSel p b) = { ten b (tenSel p b) with
        en := bitAt v 31, lcOk := bitAt v 30, preemptible := bitAt v 29, gmode := fld v 0 2 }
      ∧ OnlyTen (tenSel p b) b d ∧ Only [.mgt, .tens] b d) ∧
  (∀ p q b v, mgtFree b → bitAt v 31 = false → (ten b (tenSel p b)).en = true → tenLive b (tenSel p b) = true →
    Takes (.tenantCfgWrite v) p q b fun d =>
      (ten d (tenSel p b)).en = true ∧ bitAt (rd p d (kA 2 0x010)) 2 = true ∧ OnlyTen (tenSel p b) b d
      ∧ Only [.mgt, .regs, .tens, .out] b d) ∧
  (∀ p q b v, mgtFree b → tabReady b 0 → waitersOn b (haspSel p b) = [] → Takes (.haspAssign v) p q b fun d =>
    hsp d (haspSel p b) = { hsp b (haspSel p b) with count := 0, v := bitAt v 31, tenant := fld v 0 8 }
    ∧ OnlyHasp (haspSel p b) b d ∧ Only [.mgt, .hasps] b d) ∧
  (∀ p q b v, mgtFree b → tabReady b 0 → waitersOn b (haspSel p b) ≠ [] → Takes (.haspAssign v) p q b fun d =>
    d.hasps = b.hasps ∧ bitAt (rd p d (kA 5 0x010)) 3 = true ∧ Only [.mgt, .regs, .out] b d) ∧
  (∀ p q b, mgtFree b → tabReady b 0 → Takes .haspForce p q b fun d =>
    hsp d (haspSel p b) = { hsp b (haspSel p b) with count := rd p b (kA 5 0x054) }
    ∧ OnlyHasp (haspSel p b) b d ∧ Only [.mgt, .regs, .cnt, .hasps, .log, .trace, .out] b d)

/-! ## Registers of the Ward pages -/

/-- Message queues by register (R170 to R175, R413). A disabled queue takes its descriptor with the write of W0, the
higher words being held until then and no item changing. A flush discards every item that is not being delivered and
counts them in FLUSHED, at once where every item has landed and otherwise when FLUSH_DISCARD finds that they have. A
push appends one item of one flit, or sets OVERRUN where there is no room. A pop of a queue without a reader takes the
front item into the read window, else the window reads empty; each read of the last data word moves the window on by a
flit. Key pools (R217, R223): a disabled pool takes its base and tenant, then its size with ENABLE, its free keys
being its size less the keys out; ENABLE := 0 disables it; a reset drops its grants and its waiting requests. No other
queue or pool changes. -/
def Obligations.QueueAndPoolRegisters : Prop :=
  (∀ p q b w v, mgtFree b → w < p.nw → fenced b w = false → tabReady b (1 + w) → (mqu b w (mqSel p b w)).en = false →
      heldAt b (wA w 2 0x048) = none → heldAt b (wA w 2 0x04C) = none → bitAt v 31 = false →
    Takes (.mqCfgWrite (.ward w) 0 v) p q b fun d =>
      (mqu d w (mqSel p b w)).en = false ∧ (mqu d w (mqSel p b w)).tenant = fld v 16 8
      ∧ (mqu d w (mqSel p b w)).size = fld v 8 7 ∧ (mqu d w (mqSel p b w)).base = fld v 0 7
      ∧ (mqu d w (mqSel p b w)).items = (mqu b w (mqSel p b w)).items
      ∧ OnlyMQ (w * 64 + mqSel p b w) b d ∧ Only [.mgt, .cnt, .mq, .evr, .out] b d) ∧
  (∀ p q b w k v, mgtFree b → w < p.nw → fenced b w = false → 0 < k →
    Takes (.mqCfgWrite (.ward w) k v) p q b fun d => heldAt d (wA w 2 (0x044 + 4 * k)) = some v ∧ Only [.mgt] b d) ∧
  (∀ p q b w, mgtFree b → w < p.nw → fenced b w = false → tabReady b (1 + w) →
      (mqu b w (mqSel p b w)).items.all (fun i => decide (i.landedAt ≤ b.clk.fclk)) →
    Takes (.mqFlush (.ward w)) p q b fun d =>
      (mqu d w (mqSel p b w)).items = (mqu b w (mqSel p b w)).items.filter (fun i => i.delivering)
      ∧ (mqu d w (mqSel p b w)).flushPend = false
      ∧ (mqu d w (mqSel p b w)).flushed
        = satAdd (2 ^ 32 - 1) (mqu b w (mqSel p b w)).flushed ((mqu b w (mqSel p b w)).items.countP (fun i => !i.delivering))
      ∧ OnlyMQ (w * 64 + mqSel p b w) b d ∧ Only [.mgt, .cnt, .mq, .evr, .out] b d) ∧
  (∀ p q b w, mgtFree b → w < p.nw → fenced b w = false → tabReady b (1 + w) →
      (mqu b w (mqSel p b w)).items.all (fun i => decide (i.landedAt ≤ b.clk.fclk)) = false →
    Takes (.mqFlush (.ward w)) p q b fun d =>
      mqu d w (mqSel p b w) = { mqu b w (mqSel p b w) with flushPend := true } ∧ OnlyMQ (w * 64 + mqSel p b w) b d ∧ Only [.mgt, .mq] b d) ∧
  (∀ p q b w k, wardUp p b w → (mqu b w k).flushPend = true → (mqu b w k).items.all (fun i => decide (i.landedAt ≤ b.clk.fclk)) →
    Takes (.flushDiscard w k) p q b fun d =>
      (mqu d w k).items = (mqu b w k).items.filter (fun i => i.delivering) ∧ (mqu d w k).flushPend = false
      ∧ (mqu d w k).flushed = satAdd (2 ^ 32 - 1) (mqu b w k).flushed ((mqu b w k).items.countP (fun i => !i.delivering))
      ∧ OnlyMQ (w * 64 + k) b d ∧ Only [.cnt, .mq, .evr, .out] b d) ∧
  (∀ p q b w be, mgtFree b → w < p.nw → fenced b w = false → tabReady b (1 + w) →
      mqOcc (mqu b w (mqSel p b w)) + 1 ≤ mqSlots (mqu b w (mqSel p b w)) →
    Takes (.mqPush (.ward w) be) p q b fun d =>
      (mqu d w (mqSel p b w)).items.length = (mqu b w (mqSel p b w)).items.length + 1
      ∧ ((mqu d w (mqSel p b w)).items.getLast?.map (fun i => (i.be, i.flits.length, i.ch, i.landedAt)))
        = some (be, 1, none, b.clk.fclk)
      ∧ OnlyMQ (w * 64 + mqSel p b w) b d ∧ Only [.mgt, .regs, .cnt, .ports, .mq, .evr, .out] b d) ∧
  (∀ p q b w be, mgtFree b → w < p.nw → fenced b w = false → tabReady b (1 + w) →
      mqSlots (mqu b w (mqSel p b w)) < mqOcc (mqu b w (mqSel p b w)) + 1 →
    Takes (.mqPush (.ward w) be) p q b fun d =>
      mqu d w (mqSel p b w) = { mqu b w (mqSel p b w) with overrun := true } ∧ OnlyMQ (w * 64 + mqSel p b w) b d
      ∧ Only [.mgt, .regs, .mq] b d) ∧
  (∀ p q b w i, mgtFree b → w < p.nw → fenced b w = false → tabReady b (1 + w) → (mqu b w (mqSel p b w)).reader = 0xFFFF →
      mqFront b.clk.fclk (mqu b w (mqSel p b w)) = some i →
    Takes (.mqPop (.ward w)) p q b fun d =>
      (mqu d w (mqSel p b w)).items = (mqu b w (mqSel p b w)).items.erase i
      ∧ (Tbl.get {} d.mqPop w).flits = i.flits ∧ (Tbl.get {} d.mqPop w).flit = 0 ∧ (Tbl.get {} d.mqPop w).empty = false
      ∧ OnlyMQ (w * 64 + mqSel p b w) b d ∧ Only [.mgt, .cnt, .mq, .mqPop, .evr, .out] b d) ∧
  (∀ p q b w, mgtFree b → w < p.nw → fenced b w = false → tabReady b (1 + w) →
      (mqu b w (mqSel p b w)).reader ≠ 0xFFFF ∨ mqFront b.clk.fclk (mqu b w (mqSel p b w)) = none →
    Takes (.mqPop (.ward w)) p q b fun d =>
      Tbl.get {} d.mqPop w = { Tbl.get {} b.mqPop w with empty := true } ∧ Only [.mgt, .mqPop] b d) ∧
  (∀ p q b w, mgtUp b → b.mgt.waitR = none → b.mgt.latch = [] → w < p.nw → w < 48 → fenced b w = false → tabReady b (1 + w) →
    Takes (.mqRdataAdvance w) p q b fun d =>
      Tbl.get {} d.mqPop w = (let x := Tbl.get {} b.mqPop w; { x with flit := if x.flit < x.flits.length then x.flit + 1 else x.flit })
      ∧ d.mgt.resp = .okay ∧ (∀ v, v ≠ w → Tbl.get {} d.mqPop v = Tbl.get {} b.mqPop v) ∧ Only [.mgt, .mqPop] b d) ∧
  (∀ p q b w v x, mgtFree b → w < p.nw → fenced b w = false → tabReady b (1 + w) → keySel p b w = some x →
      (kpl b x.1 x.2).en = false →
    Takes (.keyPoolCfgWrite (.ward w) 0 v) p q b fun d =>
      kpl d x.1 x.2 = { kpl b x.1 x.2 with base := fld v 8 24, tenant := fld v 0 8 }
      ∧ OnlyKPool (x.1 * 16 + x.2) b d ∧ Only [.mgt, .kpool] b d) ∧
  (∀ p q b w v x, mgtFree b → w < p.nw → fenced b w = false → tabReady b (1 + w) → keySel p b w = some x →
      (kpl b x.1 x.2).en = false → (bitAt v 31 → keyEnBad p b x.1 (kpl b x.1 x.2) (fld v 0 13) = false) →
    Takes (.keyPoolCfgWrite (.ward w) 1 v) p q b fun d =>
      kpl d x.1 x.2 = { kpl b x.1 x.2 with
        size := fld v 0 13, free := fld v 0 13 - ((kpl b x.1 x.2).grants.map Grant.count).sum, en := bitAt v 31 }
      ∧ OnlyKPool (x.1 * 16 + x.2) b d ∧ Only [.mgt, .kpool] b d) ∧
  (∀ p q b w v x, mgtFree b → w < p.nw → fenced b w = false → tabReady b (1 + w) → keySel p b w = some x →
      (kpl b x.1 x.2).en = true → bitAt v 31 = false →
    Takes (.keyPoolCfgWrite (.ward w) 1 v) p q b fun d =>
      kpl d x.1 x.2 = { kpl b x.1 x.2 with en := false } ∧ OnlyKPool (x.1 * 16 + x.2) b d ∧ Only [.mgt, .kpool] b d) ∧
  (∀ p q b w x, mgtFree b → w < p.nw → fenced b w = false → tabReady b (1 + w) → keySel p b w = some x →
    Takes (.keyPoolReset (.ward w)) p q b fun d =>
      kpl d x.1 x.2 = { kpl b x.1 x.2 with grants := [], waiting := [], head := 0, tail := 0, free := (kpl b x.1 x.2).size }
      ∧ OnlyKPool (x.1 * 16 + x.2) b d ∧ Only [.mgt, .cnt, .ports, .kpool, .out] b d)

/-! ## Logs, counters, snapshots, dump, trace -/

/-- Register effects at the Keeper and the Hinges (R147, R271, R272, R276, R288, R297). LOG_CTRL.POP removes the oldest
record, but none of those that came to an empty log in the same cycle. HG_CTRL.DOWN takes a Hinge that is not down to DOWN, remembers the state it left and makes its DOWN event
pending. REARM takes one that is down, with its DOWN event applied, to TRAIN and asks its adapter for the link. LOCKED
:= 0 unlocks the timestamp of that Hinge. DISC_FAULT clears while both channels are 0. The capture cleared makes room
for the next. Nothing else changes. -/
def Obligations.LogHingeDeadboltRegisters : Prop :=
  (∀ p q b, mgtFree b → tabReady b 0 → b.log.fresh < b.log.recs.length → Takes .logPop p q b fun d =>
    d.log = { b.log with recs := b.log.recs.tail } ∧ Only [.mgt, .log] b d) ∧
  (∀ p q b, mgtFree b → tabReady b 0 → b.log.recs.length ≤ b.log.fresh → Takes .logPop p q b fun d =>
    d.log = b.log ∧ Only [.mgt] b d) ∧
  (∀ p q b h, mgtFree b → h < p.nh → (hng b h).state ≠ .down → Takes (.hingeDownWrite h) p q b fun d =>
    (hng d h).state = .down ∧ (hng d h).leftState = (hng b h).state ∧ (hng d h).downPend = true ∧ (hng d h).linkUp = false
    ∧ OnlyHinge h b d ∧ Only [.mgt, .hg] b d) ∧
  (∀ p q b h, mgtFree b → h < p.nh → (hng b h).state = .down → (hng b h).downPend = false → Takes (.hingeRearm h) p q b fun d =>
    hng d h = { hng b h with state := .train, rearmed := true, linkUp := false } ∧ d.out = b.out ++ [.linkReq h true]
    ∧ OnlyHinge h b d ∧ Only [.mgt, .hg, .out] b d) ∧
  (∀ p q b h, mgtFree b → h < p.nh → Takes (.tsUnlock h) p q b fun d =>
    hng d h = { hng b h with locked := false } ∧ OnlyHinge h b d ∧ Only [.mgt, .hg] b d) ∧
  (∀ p q b, mgtFree b → b.dbolt.a = false → b.dbolt.b = false → Takes .discFaultClear p q b fun d =>
    d.dbolt = { b.dbolt with discFault := false } ∧ Only [.mgt, .dbolt] b d) ∧
  (∀ p q b, mgtFree b → Takes .captureClear p q b fun d =>
    d.cap = { b.cap with valid := false, missed := 0 } ∧ Only [.mgt, .cap] b d)

/-- Counters and snapshots (R302 to R304, R322 to R324). A clear makes the counters of its unit 0, notes them to be cleared
again with the cycle's own counts, and changes no other unit's. A snapshot order is noted for 40 fclk later. In that
cycle, and in no other, the snapshot copies every counter and takes the timestamp. A blocked-on order is noted likewise and clears DONE; when it is due each Ward that is up stamps its page
with the timestamp and builds at most 256 records; DONE follows the build. -/
def Obligations.CountersAndSnapshots : Prop :=
  (∀ p q b, mgtFree b → Takes (.counterClear .keeper) p q b fun d =>
    (∀ o, o < 0x300 → 0x100 ≤ o → Tbl.get 0 d.cnt (kA 10 o) = 0) ∧ d.log.cnt = [] ∧ d.log.dropped = 0 ∧ d.log.recs = b.log.recs
    ∧ (∀ k, 0x10000 ≤ k → Tbl.get 0 d.cnt k = Tbl.get 0 b.cnt k) ∧ Only [.clk, .mgt, .cnt, .gov, .log] b d) ∧
  (∀ p q b w, mgtFree b → w < p.nw → fenced b w = false → Takes (.counterClear (.wards (.ward w))) p q b fun d =>
    (∀ o, o < 0x300 → 0x100 ≤ o → Tbl.get 0 d.cnt (wA w 6 o) = 0)
    ∧ (∀ k, k < wA w 6 0 ∨ wA w 6 0 + 0x300 ≤ k → Tbl.get 0 d.cnt k = Tbl.get 0 b.cnt k)
    ∧ wA w 6 0 ∈ d.clk.clrDue ∧ Only [.clk, .mgt, .cnt] b d) ∧
  (∀ p q b h, mgtFree b → h < p.nh → Takes (.counterClear (.hinge h)) p q b fun d =>
    (∀ o, o < 0x300 → 0x100 ≤ o → Tbl.get 0 d.cnt (hA h o) = 0)
    ∧ (∀ k, k < hA h 0 ∨ hA h 0 + 0x300 ≤ k → Tbl.get 0 d.cnt k = Tbl.get 0 b.cnt k)
    ∧ hA h 0 ∈ d.clk.clrDue ∧ Only [.clk, .mgt, .cnt] b d) ∧
  (∀ p q b, mgtFree b → Takes .counterSnapshotOrder p q b fun d =>
    d.snapAt = b.snapAt ++ [b.clk.fclk + 40] ∧ Only [.mgt, .snapAt] b d) ∧
  (∀ p q b, keeperUp b → b.clk.fclk ∈ b.snapAt → Takes .counterSnapshot p q b fun d =>
    d.cntSh = b.cnt ∧ d.snapTs = b.clk.ts ∧ Only [.cntSh, .snapTs] b d) ∧
  (∀ p q b, keeperUp b → b.clk.fclk ∉ b.snapAt → Takes .counterSnapshot p q b fun d => d = b) ∧
  (∀ p q b, mgtFree b → Takes .blockedOnSnapOrder p q b fun d =>
    d.blk = { b.blk with orderAt := b.blk.orderAt ++ [b.clk.fclk + 40], builtAt := none, done := false } ∧ Only [.mgt, .blk] b d) ∧
  (∀ p q b, keeperUp b → b.clk.fclk ∈ b.blk.orderAt → Takes .blockedOnSnapshot p q b fun d =>
    d.blk.builtAt = some b.clk.fclk ∧ d.blk.done = b.blk.done ∧ d.blk.orderAt = b.blk.orderAt
    ∧ (∀ w, wardUp p b w → Tbl.get 0 d.blk.ts w = b.clk.ts ∧ (Tbl.get [] d.blk.recs w).length ≤ 256) ∧ Only [.blk] b d) ∧
  (∀ p q b, keeperUp b → b.blk.builtAt.isSome → Takes .blockedOnDone p q b fun d =>
    d.blk = { b.blk with builtAt := none, done := true } ∧ Only [.blk] b d)

/-- The dump (R299, R300): in HUNG, QUIESCED or FAULT GO is accepted, and the clock edge that follows freezes the instance,
takes the timestamp and asks every port with a running task for a snapshot; in RUN or DRAIN without HUNG it is denied with
its error bit. A port that does not answer in time is listed absent; the dump is done when no port is awaited, and counts
the writes that met a fault response, however many (a free value, log entry 39). The trace (R307, R308, R314, R315): EN
from OFF arms it and empties FIFOs and staging; EN = 0 turns it off; TRIG takes an armed trace with POST not 0 into POST
with trigger source 1. -/
def Obligations.DumpAndTraceControl : Prop :=
  (∀ p q b, mgtFree b → b.hang.hung ∨ b.dbolt.state = .quiesced ∨ b.dbolt.state = .fault → Takes .dumpGo p q b fun d =>
    d.dump = { b.dump with going := true, done := false, reason := dumpReason b } ∧ Only [.mgt, .dump] b d) ∧
  (∀ p b, (dumpFreeze p b).dump.frozen = true ∧ (dumpFreeze p b).dump.going = false ∧ (dumpFreeze p b).dump.at_ = b.clk.ts
    ∧ (dumpFreeze p b).dump.absent = [] ∧ (dumpFreeze p b).dump.await = (b.ports.filter (fun x => x.2.run.isSome)).map Prod.fst
    ∧ Only [.ports, .hg, .dump, .out] b (dumpFreeze p b)) ∧
  (∀ p b, b.dump.going = true → (clockEdge p b).dump.frozen = true ∧ (clockEdge p b).dump.going = false) ∧
  (∀ p q b, mgtFree b → b.hang.hung = false → b.dbolt.state = .run ∨ b.dbolt.state = .drain → Takes .dumpGo p q b fun d =>
    d.dump = b.dump ∧ bitAt (rd p d (duA 0x010)) 7 = true ∧ Only [.mgt, .regs, .out] b d) ∧
  (∀ p q b n x, snapUp p b n → (prt b n).snapReq = some x → x.dump = true →
      x.since + rdf p b (duA 0x04C) 0 16 * 128 ≤ b.clk.fclk →
    Takes (.dumpSnapshotTimeout n) p q b fun d =>
      prt d n = { prt b n with snapReq := none } ∧ OnlyPort n b d ∧ d.dump.absent = b.dump.absent ++ [n] ∧ n ∉ d.dump.await
      ∧ Only [.ports, .dump, .out] b d) ∧
  (∀ p q b, b.boot.porst = false → b.boot.srst = false → b.dump.frozen = true → b.dump.done = false → b.dump.await = [] →
    Takes .dumpDone p q b fun d =>
      d.dump = { b.dump with done := true, werr := satAdd (2 ^ 32 - 1) b.dump.werr (Config.dumpFaults b.clk.fclk) }
      ∧ bitAt (rd p d kIrq) 17 = true ∧ Only [.regs, .dump, .out] b d) ∧
  (∀ p q b, mgtFree b → b.trace.state = .off → Takes .traceEnable p q b fun d =>
    d.trace.state = .armed ∧ d.trace.staged = [] ∧ d.trace.fifo = [] ∧ d.trace.postCount = 0 ∧ d.trace.preWrap = false
    ∧ bitAt (rd p d (trA 0x040)) 0 = true ∧ OnlyReg p (trA 0x040) b d ∧ Only [.mgt, .regs, .trace] b d) ∧
  (∀ p q b, mgtFree b → Takes .traceDisable p q b fun d =>
    d.trace.state = .off ∧ bitAt (rd p d (trA 0x040)) 0 = false ∧ OnlyReg p (trA 0x040) b d ∧ Only [.mgt, .regs, .trace, .out] b d) ∧
  (∀ p q b, mgtFree b → b.trace.state = .armed → bitAt (rd p b (trA 0x040)) 0 = true → trPost p b ≠ 0 →
    Takes .traceTrigWrite p q b fun d =>
      d.trace.state = .post ∧ d.trace.trigSrc = 1 ∧ d.trace.trigAt = b.clk.fclk ∧ bitAt (rd p d tIrq) 0 = true
      ∧ Only [.mgt, .regs, .trace, .out] b d)

/-- A tenant's window (R112 to R115, R145, R146, R401). A doorbell of the tenant's ring that stays inside the ring moves
the write pointer; one that names no ring of the tenant sets DB_ERR. A cancel of the oldest submission, with entries
still unsettled and none that can be stopped, ends it early with status 0x04 (CANCELLED). A cancel of all on a ring
without submissions marks the records not yet accepted. RESUME of a ring halted by POISON (0x06) ends the halt and
keeps its submissions. No other ring changes. -/
def Obligations.TenantWindow : Prop :=
  (∀ p q b t s x r, mgtFree b → ringOf b t (s % 64) = some r → (x - (rng b r).rptr).toNat ≤ 2 ^ rLog (rng b r) →
      (x - (rng b r).wptr).toNat ≤ 2 ^ rLog (rng b r) →
    Takes (.tnDoorbell t s x) p q b fun d =>
      rng d r = { rng b r with wptr := x } ∧ OnlyRing r b d ∧ OnlyReg p (tnA t 0x040) b d ∧ Only [.mgt, .regs, .rings] b d) ∧
  (∀ p q b t s x, mgtFree b → ringOf b t (s % 64) = none → Takes (.tnDoorbell t s x) p q b fun d =>
    bitAt (rd p d (tnA t 0x048)) 0 = true ∧ Only [.mgt, .regs, .cnt] b d) ∧
  (∀ p q b t s r x l, mgtFree b → ringInSlot b t (s % 64) = some r → (rng b r).subs = x :: l → x.complete = false → x.early = none →
      x.unsettled ≠ 0 → stoppable b r x.subid = [] → (rng b r).walk.subid ≠ x.subid →
      (rng b r).prePoint = none →
    Takes (.ringCancelOldest t s) p q b fun d =>
      subOf d r x.subid = some { x with early := some 0x04, walkEnded := true } ∧ (rng d r).subs.tail = l.map (fun y =>
        if y.subid = x.subid then { y with early := some 0x04, walkEnded := true } else y) ∧ OnlyRing r b d
      ∧ Only [.mgt, .regs, .cnt, .rings] b d) ∧
  (∀ p q b t s r, mgtFree b → ringInSlot b t (s % 64) = some r → (rng b r).subs = [] →
    Takes (.ringCancelAll t s) p q b fun d =>
      rng d r = { rng b r with
        cancelTo := (let n := (rng b r).recNo + ((rng b r).wptr - (rng b r).fptr).toNat
          if (rng b r).recNo < n then some n else (rng b r).cancelTo), repollAt := none }
      ∧ OnlyRing r b d ∧ Only [.mgt, .regs, .rings] b d) ∧
  (∀ p q b t s r, mgtFree b → ringInSlot b t (s % 64) = some r → (rng b r).haltKind ≠ 0 → (rng b r).halt = 0x06 →
    Takes (.ringResume t s) p q b fun d =>
      (rng d r).haltKind = 0 ∧ (rng d r).halt = 0 ∧ (rng d r).subs = (rng b r).subs ∧ OnlyRing r b d
      ∧ OnlyReg p (tnA t 0x044) b d ∧ Only [.mgt, .regs, .rings] b d)

/-! ## The Sealed Meter (chapter 12) -/

/-- The meter's port (R334, R335, R338, R340, R343): RUN starts a stopped meter with nothing in the signer: it begins at
SEQ_BASE with the START record. RUN := 0 asks for the last close. A key configuration is used at once while stopped; a
configuration is pending while a period is open, and one more while it is pending raises an interrupt. POP removes the
oldest record. The meter's events (R331 to R337, R342): a tally slot takes the line of its source into the bank of the
open period and empties it; a line whose tenant is lost is counted bad; a period reaches its length; a wanted close
that fits the buffer moves the bank and begins the next period, one that does not is delayed; a CLOSE record that ends
a close takes one sequence number. What the rules leave open of these meetings is the model's reading (log entry 20). -/
def Obligations.MeterPortAndPeriod : Prop :=
  (∀ p q b, meterUp b → b.meter.running = false → b.meter.signing = none → b.meter.toSign = [] → b.meter.buf.length < 1024 →
    Takes .meterRun p q b fun d =>
      d.meter.running = true ∧ d.meter.run = true ∧ d.meter.seqNo = b.meter.seqBase + 1 ∧ d.meter.startTs = b.meter.ts
      ∧ d.meter.startSclk = sclkOf b ∧ d.meter.bank = [] ∧ d.meter.stopLines = 0
      ∧ d.meter.signing.map (fun g => (g.item.mrec.kind, g.item.mrec.seqNo, g.item.mrec.startTs, g.waitAck))
        = some (2, b.meter.seqBase, b.meter.ts, true)
      ∧ Only [.meter, .out] b d) ∧
  (∀ p q b, meterUp b → b.meter.running = true → b.meter.run = true → Takes .meterStop p q b fun d =>
    d.meter = { b.meter with run := false, stopReq := true, resp := .okay } ∧ Only [.meter] b d) ∧
  (∀ p q b v, meterUp b → b.meter.running = false → Takes (.meterConfigWrite (.key v)) p q b fun d =>
    d.meter = { b.meter with tmo := fld v 16 16, handle := fld v 0 16, resp := .okay } ∧ Only [.meter] b d) ∧
  (∀ p q b c, meterUp b → b.meter.running = true → cfgBusy b.meter = false → periodOpen b.meter = true →
    Takes (.meterConfigWrite c) p q b fun d => d.meter = { b.meter with cfgPend := some c, resp := .okay } ∧ Only [.meter] b d) ∧
  (∀ p q b c, meterUp b → b.meter.running = true → cfgBusy b.meter = true →
    Takes (.meterConfigWrite c) p q b fun d => d.meter = { b.meter with irq := b.meter.irq ||| 8, resp := .okay } ∧ Only [.meter] b d) ∧
  (∀ p q b, meterUp b → b.meter.toSign = [] → Takes .meterRecPop p q b fun d =>
    d.meter = { b.meter with buf := b.meter.buf.tail, resp := .okay } ∧ Only [.meter] b d) ∧
  (∀ p q b k, meterUp b → b.meter.lastSlot ≠ some (sclkOf b) → dirtiest b (sclkOf b % (p.nw + 1)) = some k → periodOpen b.meter = true →
    Takes (.tallySlotSample .ok) p q b fun d =>
      Tbl.get {} d.tally k = {} ∧ (∀ j, j ≠ k → Tbl.get {} d.tally j = Tbl.get {} b.tally j)
      ∧ Tbl.get {} d.meter.bank (k % 256) = addLine (Tbl.get {} b.tally k) (Tbl.get {} b.meter.bank (k % 256))
      ∧ (∀ t, t ≠ k % 256 → Tbl.get {} d.meter.bank t = Tbl.get {} b.meter.bank t)
      ∧ d.meter.lines = b.meter.lines + 1 ∧ d.meter.badLines = b.meter.badLines ∧ Only [.tally, .meter] b d) ∧
  (∀ p q b k, meterUp b → b.meter.lastSlot ≠ some (sclkOf b) → dirtiest b (sclkOf b % (p.nw + 1)) = some k → periodOpen b.meter = true →
    Takes (.tallySlotSample .badTenantLost) p q b fun d =>
      Tbl.get {} d.tally k = {} ∧ d.meter.bank = b.meter.bank ∧ d.meter.badLines = b.meter.badLines + 1
      ∧ d.meter.cntBad = satAdd (2 ^ 32 - 1) b.meter.cntBad 1 ∧ Only [.tally, .meter] b d) ∧
  (∀ p q b, meterUp b → periodOpen b.meter = true → b.meter.startSclk + b.meter.period ≤ sclkOf b → Takes .periodDue p q b fun d =>
    d.meter = { b.meter with due := true } ∧ Only [.meter] b d) ∧
  (∀ p q b, meterUp b → closeWanted b.meter = true → closeFits b.meter = true → Takes .periodClose p q b fun d =>
    d.meter.closing = some {
      startTs := b.meter.startTs, endTs := b.meter.ts, sclk := sclkOf b - b.meter.startSclk, lines := b.meter.lines, bad := b.meter.badLines
      stretched := b.meter.delayed, cfggen := b.meter.cfggen, next := 0, usage := 0, closeDone := false, cfg := b.meter.cfgPend }
    ∧ d.meter.closeBank = b.meter.bank ∧ d.meter.bank = [] ∧ d.meter.startTs = b.meter.ts ∧ d.meter.startSclk = sclkOf b
    ∧ d.meter.due = false ∧ d.meter.lines = 0 ∧ Only [.meter] b d) ∧
  (∀ p q b, meterUp b → closeWanted b.meter = true → closeFits b.meter = false → Takes .periodClose p q b fun d =>
    d.meter = { b.meter with delayed := true } ∧ Only [.meter] b d) ∧
  (∀ p q b k, meterUp b → b.meter.closing = some k → b.meter.lastForm ≠ some (sclkOf b) → b.meter.closeBank = [] → k.closeDone = false →
      k.cfg = none → Takes (.recordForm []) p q b fun d =>
    d.meter.closing = none ∧ d.meter.seqNo = b.meter.seqNo + 1 ∧ d.meter.lastForm = some (sclkOf b)
    ∧ (d.meter.running = false ↔ b.meter.running = false ∨ (b.meter.run = false ∧ b.meter.stopReq = false))
    ∧ Only [.meter, .out] b d)

/-- Signing (R339, R340, R369). The key store's acknowledgement puts the record with its MAC into the buffer and raises
RECS where the buffer reaches THR. An error, and a missing answer after KEY_TMO units of 256 sclk, count KEYERR, raise
its interrupt and set a retry 1,024 sclk later; the retry presents the same record again. -/
def Obligations.MeterSigning : Prop :=
  (∀ p q b m g, meterUp b → b.meter.signing = some g → g.waitAck = true → b.meter.toSign = [] →
    Takes (.keyStoreAck m false) p q b fun d =>
      d.meter.buf = b.meter.buf ++ [(g.item.mrec, m)] ∧ d.meter.signing = none ∧ d.meter.seqNo = b.meter.seqNo
      ∧ d.meter.irq = (if b.meter.buf.length + 1 = b.meter.thr then b.meter.irq ||| 2 else b.meter.irq) ∧ Only [.meter, .out] b d) ∧
  (∀ p q b m g, meterUp b → b.meter.signing = some g → g.waitAck = true → Takes (.keyStoreAck m true) p q b fun d =>
    d.meter = { b.meter with
      irq := b.meter.irq ||| 4, cntKeyerr := satAdd (2 ^ 32 - 1) b.meter.cntKeyerr 1
      signing := some { g with waitAck := false, retryAt := some (sclkOf b + 1024) } } ∧ Only [.meter] b d) ∧
  (∀ p q b g, meterUp b → b.meter.signing = some g → g.waitAck = true → b.meter.tmo ≠ 0 → g.since + b.meter.tmo * 256 ≤ sclkOf b →
    Takes .keyStoreTimeout p q b fun d =>
      d.meter = { b.meter with
        irq := b.meter.irq ||| 4, cntKeyerr := satAdd (2 ^ 32 - 1) b.meter.cntKeyerr 1
        signing := some { g with waitAck := false, retryAt := some (sclkOf b + 1024) } } ∧ Only [.meter] b d) ∧
  (∀ p q b g t, meterUp b → b.meter.signing = some g → g.retryAt = some t → t ≤ sclkOf b → Takes .signRetry p q b fun d =>
    d.meter = { b.meter with signing := some ⟨g.item, sclkOf b, true, none⟩ } ∧ d.out = b.out ++ [.ksReq g.item.handle (signMsg g.item)]
    ∧ Only [.meter, .out] b d)

/-! ## Engine ports (chapters 3, 13) -/

/-- Issue and preload (R98 to R101, R347 to R350). The commit makes the head of the issue queue RUNNING at its port, dated
with the cycle, and takes it from the queue. The accepted descriptor frees the port for the next descriptor and starts
the timeout of the task's class. A preload outside minimal mode reads the argument record of the task it loads into
the free shadow buffer; its beats count down and the buffer is full after the last. No other port or entry changes. -/
def Obligations.IssueAndPreload : Prop :=
  (∀ p q b n x, portUp p b n → issueHead b (portWard p n) (prt b n) = some x → Takes (.issueCommit n true) p q b fun d =>
    (prt d n).run = some ⟨x.handle, x.gen, b.clk.fclk, b.clk.ts⟩ ∧ (prt d n).iss = some x.handle ∧ (prt d n).wait = none
    ∧ (prt d n).iq = (prt b n).iq.filter (fun y => !(decide (y.handle = x.handle) && decide (y.gen = x.gen)))
    ∧ (ent d x.handle).runAt = b.clk.fclk ∧ OnlyEnt x.handle b d ∧ OnlyPort n b d) ∧
  (∀ p q b n h, portUp p b n → (prt b n).iss = some h → Takes (.issDescriptorAccepted n) p q b fun d =>
    (prt d n).iss = none ∧ (prt d n).run = (prt b n).run
    ∧ (prt d n).shadow = (if (prt b n).issBinds then .free else (prt b n).shadow)
    ∧ ent d h = (if tmoLimit p b (ent b h).d.tmo = 0 then ent b h
        else { ent b h with tmoLimit := b.clk.fclk + tmoLimit p b (ent b h).d.tmo * 2048 })
    ∧ OnlyEnt h b d ∧ OnlyPort n b d ∧ Only [.ports, .ents] b d) ∧
  (∀ p q b n x, portUp p b n → runState b → b.boot.minimal = false → (prt b n).shadow = .free → preloadNext b (prt b n) = some x →
    Takes (.preloadStart n) p q b fun d =>
      prt d n = { prt b n with shadow := .loading x.1 x.2 (2 * (ent b x.1).d.arglen) 0 } ∧ OnlyPort n b d ∧ Only [.ports, .out] b d) ∧
  (∀ p q b n r l h g k e, portUp p b n → (prt b n).shadow = .loading h g k e → l.length ≤ k →
    Takes (.argumentReadResponse n r l) p q b fun d =>
      prt d n = { prt b n with shadow := .loading h g (k - l.length) (preErr e r) } ∧ OnlyPort n b d
      ∧ d.out.length = b.out.length + l.length ∧ Only [.ports, .out] b d) ∧
  (∀ p q b n h g e, portUp p b n → (prt b n).shadow = .loading h g 0 e → Takes (.preloadComplete n) p q b fun d =>
    (prt d n).shadow = .full h g e ∧ (prt d n).run = (prt b n).run ∧ OnlyPort n b d)

/-- Records of an engine (R57, R103, R104, R350 to R352, Table 10.4). A CMP record that names the running task frees the
port and keeps its issue queue; one when no task runs is counted STALE and changes nothing else. The acknowledgement
of a cancel that is out removes the cancel, frees a shadow buffer that held the task and sends the release of the
place; one that answers no cancel is counted STALE. A reread copy of an issue queue is whole again. -/
def Obligations.CompletionAtPort : Prop :=
  (∀ p q b n x r z, portUp p b n → (prt b n).run = some r → r.handle = fld x 0 17 → r.gen % 256 = fld x 17 8 →
    Takes (.cmpRecord n x z false) p q b fun d => (prt d n).run = none ∧ (prt d n).contribs = [] ∧ (prt d n).iq = (prt b n).iq) ∧
  (∀ p q b n x z e, portUp p b n → (prt b n).run = none → Takes (.cmpRecord n x z e) p q b fun d =>
    Tbl.get 0 d.cnt (wc32 (portWard p n) 1) = satAdd (2 ^ 32 - 1) (Tbl.get 0 b.cnt (wc32 (portWard p n) 1)) 1
    ∧ OnlyCnt (wc32 (portWard p n) 1) b d ∧ Only [.cnt] b d) ∧
  (∀ p q b n x v, portUp p b n → x ∈ (prt b n).cans → Takes (.canAck n x v) p q b fun d =>
    prt d n = { prt b n with
      cans := (prt b n).cans.erase x
      shadow := if shadowHolds (prt b n).shadow (fld x 0 17) (fld x 17 8) then .free else (prt b n).shadow }
    ∧ .release n (fld x 0 17) false ∈ d.xbar ∧ OnlyPort n b d ∧ OnlyEnt (fld x 0 17) b d ∧ Only [.cnt, .ents, .ports, .evr, .xbar] b d) ∧
  (∀ p q b n x v, portUp p b n → x ∉ (prt b n).cans → Takes (.canAck n x v) p q b fun d =>
    Tbl.get 0 d.cnt (wc32 (portWard p n) 1) = satAdd (2 ^ 32 - 1) (Tbl.get 0 b.cnt (wc32 (portWard p n) 1)) 1 ∧ Only [.cnt] b d) ∧
  (∀ p q b n h, portUp p b n → .reread n h ∈ b.xbar → Takes (.issueCopyReread n h) p q b fun d =>
    prt d n = { prt b n with iq := (prt b n).iq.map (fun x => if x.handle = h then { x with copyBad := false } else x) }
    ∧ d.xbar.length + 1 = b.xbar.length ∧ OnlyPort n b d ∧ Only [.cnt, .ports, .xbar] b d)

/-- A port's state (R168, R356, R360 to R362). A port reset empties the port, its release takes it out of reset. Credits
returned are added. A CTL change brings a port with 16 credits or more online with its TDM slot and credits, or takes
it offline. A snapshot that was asked for is written once, whether the port answers or its time passes. Delivery (R355
to R357): among the ports of a Ward with a beat ready the owner of the TDM slot delivers first; with no owner the only
ready port delivers and the search goes on after it; a delivered STATUS beat stays out until it is accepted. No other
port changes. -/
def Obligations.PortStateAndDelivery : Prop :=
  (∀ p q b n, portUp p b n → Takes (.portReset n) p q b fun d =>
    (prt d n).inReset = true ∧ (prt d n).online = false ∧ (prt d n).run = none ∧ (prt d n).iq = [] ∧ (prt d n).stage = none
    ∧ (prt d n).cans = [] ∧ (prt d n).wait = none ∧ (prt d n).shadow = .free ∧ (prt d n).iss = none ∧ (prt d n).credit = 0
    ∧ (prt d n).opd = [] ∧ (prt d n).statusOut = none) ∧
  (∀ p q b n, wardUp p b (portWard p n) → (prt b n).inReset = true → Takes (.portResetRelease n) p q b fun d =>
    prt d n = { prt b n with inReset := false } ∧ OnlyPort n b d ∧ Only [.cnt, .ports, .evr] b d) ∧
  (∀ p q b n k, portUp p b n → k ≤ 16 → b.mq = [] → Takes (.landingCreditReturn n k) p q b fun d =>
    prt d n = { prt b n with credit := (prt b n).credit + k } ∧ OnlyPort n b d ∧ Only [.ports] b d) ∧
  (∀ p q b n k t, portUp p b n → (prt b n).online = false → 16 ≤ k → b.mq = [] → (prt b n).keyRecs = [] →
    Takes (.ctlOnlineChange n true k t) p q b fun d =>
      prt d n = { prt b n with online := true, tdm := t, credit := k } ∧ OnlyPort n b d ∧ Only [.cnt, .ports, .evr] b d) ∧
  (∀ p q b n k t, portUp p b n → (prt b n).online = true → Takes (.ctlOnlineChange n false k t) p q b fun d =>
    prt d n = { prt b n with online := false, tdm := t } ∧ OnlyPort n b d ∧ Only [.cnt, .ports, .evr] b d) ∧
  (∀ p q b n l x, snapUp p b n → (prt b n).snapReq = some x → Takes (.ctlSnapshotReceived n l) p q b fun d =>
    prt d n = { prt b n with snapReq := none } ∧ n ∉ d.dump.await ∧ d.out.length = b.out.length + 1 ∧ OnlyPort n b d
    ∧ Only [.cnt, .ports, .dump, .evr, .out] b d) ∧
  (∀ p q b n x, snapUp p b n → (prt b n).snapReq = some x → x.dump = false → x.since + rdf p b (duA 0x04C) 0 16 * 128 ≤ b.clk.fclk →
    Takes (.snapshotTimeout n) p q b fun d =>
      prt d n = { prt b n with snapReq := none } ∧ d.dump.absent = b.dump.absent ∧ d.out.length = b.out.length + 1 ∧ OnlyPort n b d
      ∧ Only [.ports, .dump, .out] b d) ∧
  (∀ p q b w i x l, wardUp p b w → i < p.ne → (prt b (w * p.ne + i)).opd = x :: l → opdReady (prt b (w * p.ne + i)) →
      (prt b (w * p.ne + i)).tdm = ownerSlot p b w → (∀ j, j < p.ne → j ≠ i → (prt b (w * p.ne + j)).tdm ≠ ownerSlot p b w) →
    Takes (.opdDelivery w) p q b fun d =>
      prt d (w * p.ne + i) = { prt b (w * p.ne + i) with opd := l, statusOut := if x.kind = 1 then some x else none }
      ∧ d.out = b.out ++ [.opd (w * p.ne + i) x] ∧ OnlyPort (w * p.ne + i) b d ∧ Only [.ports, .out] b d) ∧
  (∀ p q b w i x l, wardUp p b w → i < p.ne → (prt b (w * p.ne + i)).opd = x :: l → opdReady (prt b (w * p.ne + i)) →
      (∀ j, j < p.ne → (prt b (w * p.ne + j)).tdm ≠ ownerSlot p b w) → (∀ j, j < p.ne → j ≠ i → opdReady (prt b (w * p.ne + j)) = false) →
    Takes (.opdDelivery w) p q b fun d =>
      prt d (w * p.ne + i) = { prt b (w * p.ne + i) with opd := l, statusOut := if x.kind = 1 then some x else none }
      ∧ d.out = b.out ++ [.opd (w * p.ne + i) x] ∧ Tbl.get 0 d.opdLast w = i + 1 ∧ Only [.ports, .opdLast, .out] b d) ∧
  (∀ p q b n x, portUp p b n → (prt b n).statusOut = some x → x.queue = none → x.ack = false →
    Takes (.statusBeatAccepted n) p q b fun d =>
      prt d n = { prt b n with statusOut := none } ∧ OnlyPort n b d ∧ Only [.cnt, .ports, .evr] b d)

/-! ## Requests on MSG (Tables 13.3, 13.4; chapters 5 to 8) -/

/-- Requests of an engine (R161, R353, R354). A SEND that passes the checks on an open channel to a receiver of this
instance takes the next sequence number, awaits its outcome and is on its way. A SEND on a channel that does not exist
is answered CLOSED (0x08). A request that is malformed is answered BAD_COMMAND (0x13) and changes nothing but the
port's answers. -/
def Obligations.SendRequest : Prop :=
  (∀ p q b n hdr l c, portUp p b n → fld hdr 0 8 = 1 → msgBad hdr l.length = false → chn b (fld hdr 32 14) = some c →
      isRelay c = false → farEndp c.rx = false → sendCheck p b n c (fld hdr 56 4) = 0 →
    Takes (.send n hdr l) p q b fun d =>
      chn d (fld hdr 32 14) = some { c with nseq := c.nseq + 1, sent := c.sent ++ [(c.nseq, msgTag hdr)], relay := none }
      ∧ d.xbar = b.xbar ++ [.msg ⟨⟨none, fld hdr 32 14⟩, c.nseq, runBe b n, deadlineOf b (fld hdr 64 16), l, l.map (fun _ => 0), none, b.clk.fclk⟩]
      ∧ OnlyChan (fld hdr 32 14) b d ∧ Only [.cnt, .chans, .xbar] b d) ∧
  (∀ p q b n hdr l, portUp p b n → fld hdr 0 8 = 1 → msgBad hdr l.length = false → chn b (fld hdr 32 14) = none →
    Takes (.send n hdr l) p q b fun d =>
      (prt d n).opd = (prt b n).opd ++ [{ kind := 2, ch := ⟨none, 0⟩, data := ansBeat (msgTag hdr) 0x08 1 0 (fld hdr 32 14) 0 }]
      ∧ OnlyPort n b d) ∧
  (∀ p q b n hdr k, portUp p b n → msgBad hdr k = true → Takes (.badMsgRequest n hdr k) p q b fun d =>
    prt d n = { prt b n with opd := (prt b n).opd ++ [{ kind := 2, ch := ⟨none, 0⟩, data := ansBeat (msgTag hdr) 0x13 (fld hdr 0 8) 0 0 0 }] }
    ∧ OnlyPort n b d ∧ Only [.ports] b d)

/-- Requests of an engine (R153, R158, R159, R186, R187). The first part of a contribution, with room at the port, opens
the contribution there and is on its way to its queue. An open request that passes its checks is on its way to the
directory. A close request by an end of an open channel marks it closing, is on its way to the directory and is
answered OK. -/
def Obligations.ContribOpenClose : Prop :=
  (∀ p q b n hdr l t, portUp p b n → fld hdr 0 8 = 2 → msgBad hdr l.length = false → runTen b n = some t → bitAt hdr 54 = false →
      (prt b n).parts.length < 4 → (prt b n).contribs = [] → fld hdr 64 12 = 0 → fld (BitVec.ofNat 16 (fld hdr 32 16)) 6 6 < p.nw →
      fenced b (fld (BitVec.ofNat 16 (fld hdr 32 16)) 6 6) = false →
    Takes (.contrib n hdr l) p q b fun d =>
      prt d n = { prt b n with
        parts := (prt b n).parts ++ [⟨BitVec.ofNat 16 (fld hdr 32 16), none, msgTag hdr, true, bitAt hdr 96, 0⟩]
        contribs := [⟨BitVec.ofNat 16 (fld hdr 32 16), none, runWord p b n, false⟩] }
      ∧ d.xbar = b.xbar ++ [.part {
          qid := BitVec.ofNat 16 (fld hdr 32 16), inst := none, port := n, tag := msgTag hdr, tenant := t, word := runWord p b n, off := 0,
          nelem := fld hdr 80 13, final := bitAt hdr 96, flits := l }]
      ∧ OnlyPort n b d ∧ Only [.cnt, .ports, .xbar] b d) ∧
  (∀ p q b n hdr t e, portUp p b n → fld hdr 0 8 = 3 → msgBad hdr 0 = false → runTen b n = some t → peerOf p b hdr = some e →
      bitAt hdr 32 = false → bitAt hdr 33 = false → openBad n (.port n) e = false → farEndp e = false →
      openCheck p b t { tenant := t, dir := portWard p n, tx := .port n, rx := e, owner := .task (runWord p b n) } = 0 →
    Takes (.openReq n hdr) p q b fun d =>
      d.xbar = b.xbar ++ [.chAlloc { tenant := t, dir := portWard p n, tx := .port n, rx := e, owner := .task (runWord p b n) } n (msgTag hdr) []]
      ∧ Only [.cnt, .xbar] b d) ∧
  (∀ p q b n hdr c, portUp p b n → fld hdr 0 8 = 4 → msgBad hdr 0 = false → bitAt hdr 54 = false → chn b (fld hdr 32 14) = some c →
      holdsEnd n c → (c.txClosed && c.rxClosed) = false → c.closing = false →
    Takes (.closeReq n hdr) p q b fun d =>
      chn d (fld hdr 32 14) = some { c with closing := true } ∧ d.xbar = b.xbar ++ [.close ⟨none, fld hdr 32 14⟩ .directory (some (portWard p n))]
      ∧ (prt d n).opd = (prt b n).opd ++ [{ kind := 2, ch := ⟨none, 0⟩, data := ansBeat (msgTag hdr) 0 4 0 (fld hdr 32 14) 0 }]
      ∧ OnlyChan (fld hdr 32 14) b d ∧ OnlyPort n b d ∧ Only [.cnt, .ports, .chans, .xbar] b d)

/-- Requests of an engine (R68, R73, R116, R207, R218, R221). A signal, a key request and an unused-key return of this
instance are on their way. A doorbell of a ring that lets engines ring is answered OK and is on its way to the ring's Ward;
of a ring that does not it is refused with 0x0F. A slot write by the slot's tenant at its own Ward sets or clears its value and
no other slot; one at another Ward is on its way there. A key return that names no
grant out is counted EXCESS and changes nothing else; one that names a grant out, with nobody waiting, marks it
returned and frees the returned grants at the tail. -/
def Obligations.HaspKeySlotRequests : Prop :=
  (∀ p q b n hdr, portUp p b n → fld hdr 0 8 = 5 → msgBad hdr 0 = false → bitAt hdr 54 = false → Takes (.hsig n hdr) p q b fun d =>
    d.xbar = b.xbar ++ [.sig (fld hdr 32 12) (BitVec.ofNat 32 (fld hdr 64 32)) (.hsig n (msgTag hdr) (runTen b n))]
    ∧ Only [.cnt, .xbar] b d) ∧
  (∀ p q b n hdr t, portUp p b n → fld hdr 0 8 = 6 → msgBad hdr 0 = false → runTen b n = some t → fld hdr 32 12 < nPorts p →
      fenced b (portWard p (fld hdr 32 12)) = false →
    Takes (.keyreq n hdr) p q b fun d =>
      d.xbar = b.xbar ++ [.keyReq (fld hdr 32 12) n (fld hdr 48 4) (fld hdr 64 13) t (msgTag hdr)] ∧ Only [.cnt, .xbar] b d) ∧
  (∀ p q b n hdr, portUp p b n → fld hdr 0 8 = 7 → msgBad hdr 0 = false → fld hdr 32 12 < nPorts p →
      fenced b (portWard p (fld hdr 32 12)) = false →
    Takes (.returnUnused n hdr) p q b fun d =>
      d.xbar = b.xbar ++ [.keyRet (fld hdr 32 12) (fld hdr 48 4) (BitVec.ofNat 16 (fld hdr 64 16)) n (msgTag hdr)]
      ∧ Only [.cnt, .xbar] b d) ∧
  (∀ p q b n hdr t r, portUp p b n → fld hdr 0 8 = 8 → msgBad hdr 0 = false → runTen b n = some t → ringNamed b t (fld hdr 32 6) = some r →
      bitAt (rng b r).d1 14 →
    Takes (.doorbell n hdr) p q b fun d =>
      d.xbar = b.xbar ++ [.bell (dueAt p (portWard p n) (bellWard b t (fld hdr 32 6)) b) (bellWard b t (fld hdr 32 6)) t (fld hdr 32 6)
        (BitVec.ofNat 16 (fld hdr 48 16))]
      ∧ (prt d n).opd = (prt b n).opd ++ [{ kind := 2, ch := ⟨none, 0⟩, data := ansBeat (msgTag hdr) 0 8 0 0 0 }]
      ∧ OnlyPort n b d ∧ Only [.cnt, .ports, .xbar] b d) ∧
  (∀ p q b n hdr t r, portUp p b n → fld hdr 0 8 = 8 → msgBad hdr 0 = false → runTen b n = some t → ringNamed b t (fld hdr 32 6) = some r →
      bitAt (rng b r).d1 14 = false →
    Takes (.doorbell n hdr) p q b fun d =>
      (prt d n).opd = (prt b n).opd ++ [{ kind := 2, ch := ⟨none, 0⟩, data := ansBeat (msgTag hdr) 0x0F 8 0 0 0 }]
      ∧ OnlyPort n b d ∧ Only [.ports] b d) ∧
  (∀ p q b n hdr k, portUp p b n → fld hdr 0 8 = 9 → msgBad hdr 0 = false → fld hdr 44 6 = portWard p n → fld hdr 32 12 = k →
      portWard p n < p.nw → runTen b n = some (slt b (portWard p n) k).tenant →
    Takes (.slotwr n hdr) p q b fun d =>
      slt d (portWard p n) k = (if bitAt hdr 56 then { slt b (portWard p n) k with v := false }
        else { slt b (portWard p n) k with v := true, value := BitVec.ofNat 32 (fld hdr 64 32) })
      ∧ (∀ j, j ≠ portWard p n * 4096 + k → Tbl.get {} d.slots j = Tbl.get {} b.slots j) ∧ Only [.cnt, .slots, .ports, .xbar] b d) ∧
  (∀ p q b n hdr v, portUp p b n → fld hdr 0 8 = 9 → msgBad hdr 0 = false → fld hdr 44 6 = v → v ≠ portWard p n → v < p.nw →
      fenced b v = false →
    Takes (.slotwr n hdr) p q b fun d =>
      d.xbar = b.xbar ++ [.slotW (dueAt p (portWard p n) v b) v (fld hdr 32 12) (bitAt hdr 56) (BitVec.ofNat 32 (fld hdr 64 32)) n
        (msgTag hdr) (runTen b n)] ∧ Only [.cnt, .xbar] b d) ∧
  (∀ p q b n v, portUp p b n → (kpl b n (fld v 0 4)).grants.any (fun g => decide (g.gseq = BitVec.ofNat 16 (fld v 4 16)) && !g.returned) = false →
    Takes (.returnKret n v) p q b fun d =>
      Tbl.get 0 d.cnt (wc32 (portWard p n) 11) = satAdd (2 ^ 32 - 1) (Tbl.get 0 b.cnt (wc32 (portWard p n) 11)) 1 ∧ Only [.cnt] b d) ∧
  (∀ p q b n v, portUp p b n → (kpl b n (fld v 0 4)).grants.any (fun g => decide (g.gseq = BitVec.ofNat 16 (fld v 4 16)) && !g.returned) →
      (kpl b n (fld v 0 4)).waiting = [] →
    Takes (.returnKret n v) p q b fun d =>
      kpl d n (fld v 0 4) = keyTail { kpl b n (fld v 0 4) with grants := (kpl b n (fld v 0 4)).grants.map (fun g =>
        if g.gseq = BitVec.ofNat 16 (fld v 4 16) then { g with returned := true } else g) } (kpl b n (fld v 0 4)).grants.length
      ∧ OnlyKPool (n * 16 + fld v 0 4) b d ∧ Only [.kpool] b d)

/-! ## Tasks (chapter 2) -/

/-- Successor items (R51, R55, R56, R63, R64). A decrement lowers the tumbler of its PENDING target, leaves it to the
examination at the end of the cycle, and its owner is owed one less. A failure notice fails a PENDING target with
PREDECESSOR_FAIL (0x02) and the sender's root, a cancel notice cancels it with 0x04, each lowering the tumbler. At the
end of the cycle a sealed task without guards, join, combining queue or remote mode whose tumbler has reached 0 is
READY. When a cycle ends is said by the command (the model's choice, log entry 7). -/
def Obligations.SuccessorItemsAndReady : Prop :=
  (∀ p q b word o wd k rt st h, wardUp p b (homeOf (wHandle word)) → xfind b (isSucc 0 word 0) = some (.succ o wd k rt st) →
      findEntry p b word = some h → h ≠ o → (ent b h).st = .pending → (ent b h).tumbler ≠ 0 →
    Takes (.decrement word none false) p q b fun d =>
      (ent d h).tumbler = (ent b h).tumbler - 1 ∧ (ent d h).st = .pending ∧ h ∈ d.clk.exam
      ∧ ent d o = { ent b o with owed := (ent b o).owed - 1 } ∧ d.xbar = b.xbar.eraseP (isSucc 0 word 0)
      ∧ (∀ k, k ≠ h → k ≠ o → ent d k = ent b k) ∧ Only [.clk, .cnt, .ents, .xbar] b d) ∧
  (∀ p q b word root o wd k rt st h, wardUp p b (homeOf (wHandle word)) → xfind b (isSucc 1 word root) = some (.succ o wd k rt st) →
      findEntry p b word = some h → h ≠ o → (ent b h).st = .pending → (ent b h).tumbler ≠ 0 →
    Takes (.failureNotice word root none false) p q b fun d =>
      (ent d h).st = .failed ∧ (ent d h).status = 0x02 ∧ (ent d h).root = some root ∧ (ent d h).tumbler = (ent b h).tumbler - 1) ∧
  (∀ p q b word o wd k rt st h, wardUp p b (homeOf (wHandle word)) → xfind b (isSucc 2 word 0) = some (.succ o wd k rt st) →
      findEntry p b word = some h → h ≠ o → (ent b h).st = .pending → (ent b h).tumbler ≠ 0 →
    Takes (.cancelNotice word none false) p q b fun d =>
      (ent d h).st = .cancelled ∧ (ent d h).status = 0x04 ∧ (ent d h).tumbler = (ent b h).tumbler - 1) ∧
  (∀ p q b word o wd k rt st h, wardUp p b (homeOf (wHandle word)) → xfind b (isSucc 0 word 0) = some (.succ o wd k rt st) →
      findEntry p b word = some h → h ≠ o → (ent b h).st = .pending → (ent b h).tumbler = 1 → (ent b h).isSealed = true →
      (ent b h).d.isJoin = false → (ent b h).d.cq = none → (ent b h).d.guards = [] → (ent b h).d.mode = 0 →
      (ent b h).guardWait = none → b.clk.exam = [] → (∀ x ∈ b.ents, x.2.guardWait = none) →
    Takes (.decrement word none true) p q b fun d =>
      (ent d h).st = .ready ∧ (ent d h).tumbler = 0 ∧ (ent d h).readyAt = b.clk.fclk ∧ d.clk.exam = [])

/-- A seal (R46, R48) seals every entry of its segment at the Ward that is not sealed, and no other. A task that waits
alone for its enforced guards (R69 to R72) and whose guards all pass becomes READY and claims the slots they name; no
other entry changes. -/
def Obligations.SealAndGuards : Prop :=
  (∀ p q b w r g v rr gg, wardUp p b w → xfind b (isSeal w r g) = some (.segSeal v rr gg) → Takes (.seal w r g none false) p q b fun d =>
    (∀ h, h ∈ unsealedOf b w r g none → (ent d h).isSealed = true)
    ∧ (∀ h, h ∉ unsealedOf b w r g none → (ent d h).isSealed = (ent b h).isSealed)) ∧
  (∀ p q b w h, wardUp p b w → guardWaiters b w = [h] → homeOf h = w → (ent b h).d.mode = 2 →
      (guardsOf (ent b h).d).all (guardPass b w) →
    Takes (.guardWaitPass w) p q b fun d =>
      (ent d h).st = .ready ∧ (ent d h).claimed = true ∧ (ent d h).guardWait = none ∧ OnlyEnt h b d
      ∧ (∀ s, (∃ g ∈ guardsOf (ent b h).d, g.1 ≠ 3 ∧ g.2 = s) → (slt d w s).c = true))

/-- Notices (R57, R60, R141). A settlement of status 0 forwarded by a port's Ward makes the entry DONE, one with a status
other than 0 and CANCELLED makes it FAILED with that status and itself as root. One forwarded to the ring's Ward sets
condition 5 of the entry and changes nothing else of it. A proxy notice makes a live entry PLACED, PRELOADED or
RUNNING. -/
def Obligations.NoticesAtHome : Prop :=
  (∀ p q b word wd bz qw ss h, keeperUp b → xfind b (isSettle word) = some (.settle wd 0 0 bz qw ss) → findEntry p b word = some h →
      live (ent b h).st → (ent b h).faulted = false → (ent b h).d.mode = 0 →
    Takes (.settlementNotice .fromPort word false) p q b fun d =>
      (ent d h).st = .done ∧ (ent d h).status = 0 ∧ (ent d h).ran = true ∧ (ent d h).released = true) ∧
  (∀ p q b word wd bz qw ss z st h, keeperUp b → xfind b (isSettle word) = some (.settle wd st z bz qw ss) →
      findEntry p b word = some h → live (ent b h).st → (ent b h).faulted = false → st ≠ 0 → st ≠ 0x04 →
    Takes (.settlementNotice .fromPort word false) p q b fun d =>
      (ent d h).st = .failed ∧ (ent d h).status = st ∧ (ent d h).root = some (wordOf p b h)) ∧
  (∀ p q b word wd r i s t st x h, keeperUp b → xfind b (isToRing word) = some (.toRing wd r i s t st x) → findEntry p b word = some h →
    Takes (.settlementNotice .toRing word false) p q b fun d =>
      ent d h = { ent b h with noticed := true } ∧ OnlyEnt h b d) ∧
  (∀ p q b k word wd h, wardUp p b (homeOf (wHandle word)) → xfind b (isProxy word) = some (.proxy wd k) →
      findEntry p b word = some h → live (ent b h).st →
    Takes (.issueProxyNotice k word) p q b fun d =>
      ent d h = (match k with
        | .placed => { ent b h with st := .placed, place := .none }
        | .preloaded => { ent b h with st := .preloaded }
        | .running => { ent b h with st := .running, ran := true })
      ∧ OnlyEnt h b d ∧ Only [.cnt, .ents, .xbar] b d)

/-- The life of an entry (R52, R59 to R61, R67, R103). A settled entry sends one item to each local successor and is owed
as many answers. It is freed when every condition holds, keeping its generation, and enters the quarantine of 256
fclk, which ends it and before whose end the command has no effect (log entry 2). A spilled edge list that has been
read again is no longer spilled. A running task past its class's timeout is marked OVERRUN. A cancel ends a READY task
that is not yet placed CANCELLED and is only counted for a RUNNING one. No other entry changes. -/
def Obligations.EntryLifecycle : Prop :=
  (∀ p q b h, wardUp p b (homeOf h) → (ent b h).st = .done ∨ (ent b h).st = .failed ∨ (ent b h).st = .cancelled →
      (ent b h).sent = false → (ent b h).isSealed = true → (ent b h).spilled = false → (ent b h).d.relay = false →
      (ent b h).cut.getLsbD (ownInst p b) = false → (ent b h).succ.all (fun v => v.getLsbD 31 && decide (fld v 17 6 = ownInst p b)) →
    Takes (.successorDelivery h) p q b fun d =>
      ent d h = { ent b h with sent := true, owed := (ent b h).owed + (ent b h).succ.length }
      ∧ d.xbar.length = b.xbar.length + (ent b h).succ.length ∧ OnlyEnt h b d ∧ Only [.cnt, .ents, .xbar] b d) ∧
  (∀ p q b h, wardUp p b (homeOf h) → mayFree (ent b h) → (ent b h).retire = false → noCan b h (ent b h).gen →
    Takes (.entryFree h) p q b fun d =>
      ent d h = { gen := (ent b h).gen, freedAt := some b.clk.fclk } ∧ OnlyEnt h b d
      ∧ (Tbl.get {} d.wq (homeOf h)).freed = (Tbl.get {} b.wq (homeOf h)).freed ++ [h % 2048]
      ∧ (∀ x ∈ (fedOf d (homeOf h)).imports, x.1 ≠ h) ∧ Only [.ents, .wq, .cq, .fedt] b d) ∧
  (∀ p q b h t, wardUp p b (homeOf h) → (ent b h).freedAt = some t → t + 256 ≤ b.clk.fclk → Takes (.quarantineEnd h) p q b fun d =>
    ent d h = { ent b h with freedAt := none } ∧ OnlyEnt h b d ∧ Only [.ents] b d) ∧
  (∀ p q b h t, wardUp p b (homeOf h) → (ent b h).freedAt = some t → b.clk.fclk < t + 256 → Takes (.quarantineEnd h) p q b fun d =>
    d = b) ∧
  (∀ p q b h, wardUp p b (homeOf h) → (ent b h).spilled = true → (ent b h).st ≠ .pending → (ent b h).st ≠ .free →
      linesUsed b (homeOf h) + linesFor (ent b h).succ.length ≤ 2048 →
    Takes (.edgeRefetchDone h) p q b fun d => ent d h = { ent b h with spilled := false } ∧ OnlyEnt h b d ∧ Only [.ents] b d) ∧
  (∀ p q b h, wardUp p b (homeOf h) → (ent b h).tmoLimit ≠ 0 → (ent b h).tmoLimit ≤ b.clk.fclk → (ent b h).overrun = false →
      (ent b h).st = .running →
    Takes (.taskClassTimeout h) p q b fun d => ent d h = { ent b h with overrun := true } ∧ OnlyEnt h b d
      ∧ Only [.regs, .cnt, .ents, .log, .trace, .out] b d) ∧
  (∀ p q b h, wardUp p b (homeOf h) → (ent b h).st = .ready → (ent b h).place = .none → Takes (.taskCancel h) p q b fun d =>
    (ent d h).st = .cancelled ∧ (ent d h).status = 0x04) ∧
  (∀ p q b h, wardUp p b (homeOf h) → (ent b h).st = .running → Takes (.taskCancel h) p q b fun d =>
    d.ents = b.ents ∧ OnlyCnt (wc32 (homeOf h) 0) b d ∧ Only [.cnt] b d)

/-! ## Placement, governor, arbiter (chapter 3) -/

/-- Placement (R81 to R89, R105). The arbiter forwards a READY task backed by a token, spending it. The request reaches
the engine's list. The decision takes the first port of the class's walk with room, raises OCC by 1 and sends the
assignment to the governor; with no room the request waits, and a waiting request is offered the ports later. Staging:
a request takes a port of its class whose OCC is 0, with OCC 1, or is told that there is none. A decision that arrives
puts the task into the issue queue, or holds it as the staged task of the port. A staged task that is READY under its
reservation is charged to the governor, leaves the stage and enters the issue queue. The cases have nobody else
waiting. -/
def Obligations.PlacementAndStaging : Prop :=
  (∀ p q b w h e, wardUp p b w → outReqs b w < 8 → rdyList b w = [(h, e)] → ent b h = e → e.d.tenant < 256 →
      tokens b w e.d.tenant (clsOf e) ≠ 0 →
    Takes (.arbiterForward w) p q b fun d =>
      ent d h = { e with place := .forwarded } ∧ d.xbar = b.xbar ++ [.preq h e.gen (clsOf e)]
      ∧ tokens d w e.d.tenant (clsOf e) = tokens b w e.d.tenant (clsOf e) - 1 ∧ OnlyEnt h b d ∧ Only [.cnt, .ents, .arb, .xbar] b d) ∧
  (∀ p q b h hh g t, keeperUp b →
      xfind b (fun x => match x with | .preq k _ _ => decide (k = h) | _ => false) = some (.preq hh g t) → hh = h →
    Takes (.placementRequest h) p q b fun d =>
      d.place.reqs = b.place.reqs ++ [⟨h, g, t, false, nextSeq b, none, 0⟩] ∧ (ent d h).place = .atEngine ∧ OnlyEnt h b d
      ∧ d.xbar.length + 1 = b.xbar.length ∧ Only [.clk, .ents, .place, .xbar] b d) ∧
  (∀ p q b h r n k, keeperUp b → b.place.reqs.find? (fun r => r.handle = h ∧ r.waitAt = none) = some r → runState b →
      waitingOrder b = [] → walkClass p b (ent b h).d.pclass (room p b) = some (n, k) →
    Takes (.placementDecision h) p q b fun d =>
      d.place.toGov = b.place.toGov ++ [(h, r.gen, n)] ∧ d.place.reqs = b.place.reqs.erase r ∧ occ d n = occ b n + 1
      ∧ (ent d h).place = .atGov ∧ (ent d h).port = some n ∧ (ent d h).rank = k ∧ OnlyEnt h b d
      ∧ Only [.cnt, .ents, .occ, .place, .lcIdleAt] b d) ∧
  (∀ p q b h r, keeperUp b → b.place.reqs.find? (fun r => r.handle = h ∧ r.waitAt = none) = some r → runState b →
      waitingOrder b = [] → walkClass p b (ent b h).d.pclass (room p b) = none →
    Takes (.placementDecision h) p q b fun d =>
      d.place.reqs = b.place.reqs.map (fun x => if x = r then { x with waitAt := some b.clk.fclk, lcAt := b.clk.fclk } else x)
      ∧ d.place.toGov = b.place.toGov ∧ Only [.place] b d) ∧
  (∀ p q b r n k, keeperUp b → runState b → waitingOrder b = [r] → r.tier ≤ 3 →
      walkClass p b (ent b r.handle).d.pclass (room p b) = some (n, k) →
    Takes .waitingListOffer p q b fun d =>
      d.place.toGov = b.place.toGov ++ [(r.handle, r.gen, n)] ∧ d.place.reqs = b.place.reqs.erase r ∧ occ d n = occ b n + 1
      ∧ (ent d r.handle).port = some n ∧ Only [.cnt, .ents, .occ, .place, .lcIdleAt] b d) ∧
  (∀ p q b h hh g n k, keeperUp b → xfind b (fun x => match x with | .sreq j _ => decide (j = h) | _ => false) = some (.sreq hh g) →
      hh = h → runState b → b.place.reqs = [] →
      walkClass p b (ent b h).d.pclass (fun n => room p b n && decide (occ b n = 0)) = some (n, k) →
    Takes (.stagingRequest h) p q b fun d =>
      occ d n = 1 ∧ .pdec h g n k true ∈ d.xbar
      ∧ ent d h = { ent b h with
        rank := k, resvHeld := (ent b h).resvHeld || fits (dmn b (domOf p b n)) (energyEst p b (ent b h).d.energy) }
      ∧ OnlyEnt h b d ∧ Only [.cnt, .ents, .occ, .gov, .xbar] b d) ∧
  (∀ p q b h hh g, keeperUp b → xfind b (fun x => match x with | .sreq j _ => decide (j = h) | _ => false) = some (.sreq hh g) →
      hh = h → runState b → b.place.reqs = [] →
      walkClass p b (ent b h).d.pclass (fun n => room p b n && decide (occ b n = 0)) = none →
    Takes (.stagingRequest h) p q b fun d => .sNone h g ∈ d.xbar ∧ Only [.xbar] b d) ∧
  (∀ p q b h hh g, wardUp p b (homeOf h) →
      xfind b (fun x => match x with | .sNone j _ => decide (j = h) | _ => false) = some (.sNone hh g) →
    Takes (.stagingNoPort h) p q b fun d => ent d h = { ent b h with stageOut := false } ∧ OnlyEnt h b d ∧ Only [.cnt, .ents, .xbar] b d) ∧
  (∀ p q b h hh g n k, keeperUp b →
      xfind b (fun x => match x with | .pdec j _ _ _ _ => decide (j = h) | _ => false) = some (.pdec hh g n k false) → hh = h →
      (ent b h).port = some n → (prt b n).stage = none →
    Takes (.placementDecisionArrival h) p q b fun d =>
      (prt d n).iq = (prt b n).iq ++ [{ handle := h, gen := g, be := (ent b h).d.be, at_ := b.clk.fclk }]
      ∧ (ent d h).port = some n ∧ (ent d h).staged = none ∧ OnlyEnt h b d ∧ OnlyPort n b d) ∧
  (∀ p q b h hh g n k, keeperUp b →
      xfind b (fun x => match x with | .pdec j _ _ _ _ => decide (j = h) | _ => false) = some (.pdec hh g n k true) → hh = h →
      live (ent b h).st →
    Takes (.placementDecisionArrival h) p q b fun d =>
      prt d n = { prt b n with stage := some (h, g) } ∧ ent d h = { ent b h with staged := some n, stageOut := false }
      ∧ OnlyEnt h b d ∧ OnlyPort n b d ∧ Only [.cnt, .ents, .ports, .evr, .xbar] b d) ∧
  (∀ p q b h n r, wardUp p b (homeOf h) → (ent b h).staged = some n → (ent b h).st = .ready → (ent b h).place = .none → runState b →
      (dmn b (domOf p b n)).resv.find? (fun r => r.handle = h) = some r → (prt b n).stage = some (h, (ent b h).gen) →
    Takes (.stagedTaskPlaced h) p q b fun d =>
      (dmn d (domOf p b n)).n = (dmn b (domOf p b n)).n + 1 ∧ (dmn d (domOf p b n)).i = (dmn b (domOf p b n)).i + r.est
      ∧ (dmn d (domOf p b n)).resv = (dmn b (domOf p b n)).resv.erase r ∧ (prt d n).stage = none
      ∧ (prt d n).iq = (prt b n).iq ++ [{ handle := h, gen := (ent b h).gen, be := (ent b h).d.be, at_ := b.clk.fclk }]
      ∧ (ent d h).port = some n ∧ OnlyEnt h b d ∧ OnlyPort n b d)

/-- The governor (R91 to R96). A request that arrives joins its domain's queue in the order of the queue and charges
nothing. When the queue is examined its only request is granted where the domain permits it: N rises by 1, the charge by
the task's estimate, and the decision goes to the port's Ward. A head that the domain does not permit is not granted, and
nothing is after 4 grants of the domain in a cycle. A window that begins works every domain out anew. -/
def Obligations.Governor : Prop :=
  (∀ p q b h hh g n, keeperUp b → b.place.toGov.find? (fun x => decide (x.1 = h)) = some (hh, g, n) → hh = h →
    Takes (.governorRequest h) p q b fun d =>
      (dmn d (domOf p b n)).q = govIns ⟨h, g, n, (ent b h).d.be, b.clk.fclk, nextSeq b⟩ (dmn b (domOf p b n)).q
      ∧ (dmn d (domOf p b n)).n = (dmn b (domOf p b n)).n ∧ (dmn d (domOf p b n)).i = (dmn b (domOf p b n)).i
      ∧ (∀ k, k ≠ domOf p b n → dmn d k = dmn b k) ∧ d.place.toGov = b.place.toGov.erase (h, g, n)
      ∧ d.place.reqs = b.place.reqs ∧ Only [.clk, .place, .gov] b d) ∧
  (∀ p q b k g l, keeperUp b → (dmn b k).q = g :: l → permits (dmn b k) (energyEst p b (ent b g.handle).d.energy) = false →
    Takes (.governorQueueGrant k) p q b fun d => d = b) ∧
  (∀ p q b k, keeperUp b → 4 ≤ grantsNow b k → Takes (.governorQueueGrant k) p q b fun d => d = b) ∧
  (∀ p q b k g, keeperUp b → runState b → (dmn b k).q = [g] → grantsNow b k < 4 →
      permits (dmn b k) (energyEst p b (ent b g.handle).d.energy) →
    Takes (.governorQueueGrant k) p q b fun d =>
      (dmn d k).q = [] ∧ (dmn d k).n = (dmn b k).n + 1 ∧ (dmn d k).i = (dmn b k).i + energyEst p b (ent b g.handle).d.energy
      ∧ (ent d g.handle).place = .inFlight ∧ d.xbar = b.xbar ++ [.pdec g.handle g.gen g.port (ent b g.handle).rank false]
      ∧ OnlyEnt g.handle b d) ∧
  (∀ p q b t, keeperUp b → windowDue b → Takes (.governorWindowStart t) p q b fun d =>
    d.gov.winStart = b.clk.fclk ∧ (∀ k, k < 16 → dmn d k = winDom (t.getLsbD k) (dmn b k)) ∧ Only [.gov] b d)

/-- Releases and tokens (R81, R103, R104, R106). A release lowers OCC of its port by 1 and of no other. A withdrawn
request leaves the engine's list and its entry is released. An unloaded staged task leaves its port by a CAN record. A
due epoch begins and sends a token message to each Ward. An arriving token message replaces every token of its Ward
and no other's. -/
def Obligations.ReleasesAndTokens : Prop :=
  (∀ p q b n h, keeperUp b → .release n h true ∈ b.xbar → (ent b h).d.rinst ≠ none → Takes (.portRelease n h) p q b fun d =>
    occ d n = occ b n - (if h ∈ Tbl.get [] b.occ n then 1 else 0) ∧ (∀ k, k ≠ n → occ d k = occ b k) ∧ d.xbar.length + 1 = b.xbar.length ∧ Only [.occ, .xbar] b d) ∧
  (∀ p q b h hh g r, keeperUp b → xfind b (fun x => match x with | .withdraw j _ => decide (j = h) | _ => false) = some (.withdraw hh g) →
      hh = h → b.place.reqs.find? (fun r => decide (r.handle = h)) = some r →
    Takes (.withdrawal h) p q b fun d =>
      d.place.reqs = b.place.reqs.erase r ∧ ent d h = { ent b h with released := true, stageOut := false } ∧ OnlyEnt h b d
      ∧ d.xbar.length + 1 = b.xbar.length ∧ Only [.ents, .place, .lcIdleAt, .xbar] b d) ∧
  (∀ p q b h hh g n, keeperUp b → xfind b (fun x => match x with | .unload j _ _ => decide (j = h) | _ => false) = some (.unload hh g n) →
      hh = h → (prt b n).stage = some (h, g) →
    Takes (.unloadDirective h) p q b fun d =>
      (prt d n).stage = none ∧ (prt d n).cans = (prt b n).cans ++ [BitVec.ofNat 25 (g % 256 * 2 ^ 17 + h)]
      ∧ ent d h = { ent b h with staged := none } ∧ .can n (BitVec.ofNat 25 (g % 256 * 2 ^ 17 + h)) ∈ d.out
      ∧ OnlyEnt h b d ∧ OnlyPort n b d) ∧
  (∀ p q b, keeperUp b → b.arb.epochStart + b.arb.epoch ≤ b.clk.fclk → Takes .epochMint p q b fun d =>
    d.arb = { b.arb with epochStart := b.clk.fclk, epoch := epochLen p b } ∧ d.xbar.length = b.xbar.length + p.nw ∧ Only [.arb, .xbar] b d) ∧
  (∀ p q b w v l, wardUp p b w → xfind b (fun x => match x with | .tokens v _ => decide (v = w) | _ => false) = some (.tokens v l) →
      (∀ x ∈ l, x.1 < 512) → (l.map Prod.fst).Nodup →
    Takes (.tokenArrival w) p q b fun d =>
      (∀ x ∈ l, Tbl.get 0 d.arb.tok (w * 512 + x.1) = x.2)
      ∧ (∀ k, k / 512 = w → k % 512 ∉ l.map Prod.fst → Tbl.get 0 d.arb.tok k = 0)
      ∧ (∀ k, k / 512 ≠ w → Tbl.get 0 d.arb.tok k = Tbl.get 0 b.arb.tok k) ∧ Only [.cnt, .arb, .xbar] b d)

/-! ## Rings and the walk (chapter 4) -/

/-- Fetching (R35, R110 to R113, R118, R121, R122, R146). Of the rings that want a read, the first in the order is
served: its record, the block that its walk waits for, or the next 256-byte block of its image. A record whose phase
says that it is not written is looked at again after the repoll time, and is read then if its ring comes first. An
image block that arrives advances the image. A translation fault halts the ring with XLATE_FAULT (0x06) with its place
kept, setting the Ward's interrupt for a record. A ring that is enabled reads its first record at BASE next, with
TN_RING_DONE at FIRST_SUBID - 1; one that is disabled reads no further record and keeps what it has accepted; a write
of D0 moves BASE. No other ring changes. -/
def Obligations.RingFetch : Prop :=
  (∀ p q b w r a, wardUp p b w → r ∈ b.rings.map Prod.fst → rHome (rng b r) = w → fetchWant b r = some (.record a) →
      (∀ x, x ∈ b.rings.map Prod.fst → rHome (rng b x) = w → (fetchWant b x).isSome → x ≠ r → fetchBefore b r x) →
    Takes (.ringFetch w) p q b fun d =>
      rng d r = { rng b r with recRead := true } ∧ d.out = b.out ++ [.mpRead (.ward w) a (tenAx p b (.ward w) (rTenant (rng b r)) (rBe (rng b r)))]
      ∧ OnlyRing r b d ∧ Only [.rings, .out] b d) ∧
  (∀ p q b w r a, wardUp p b w → r ∈ b.rings.map Prod.fst → rHome (rng b r) = w → fetchWant b r = some (.demand a) →
      (∀ x, x ∈ b.rings.map Prod.fst → rHome (rng b x) = w → (fetchWant b x).isSome → x ≠ r → fetchBefore b r x) →
    Takes (.ringFetch w) p q b fun d =>
      rng d r = { rng b r with walk := { (rng b r).walk with want := (rng b r).walk.want.tail } }
      ∧ d.out = b.out ++ [.mpRead (.ward w) a (tenAx p b (.ward w) (rTenant (rng b r)) (rBe (rng b r)))]
      ∧ OnlyRing r b d ∧ Only [.rings, .out] b d) ∧
  (∀ p q b w r a, wardUp p b w → r ∈ b.rings.map Prod.fst → rHome (rng b r) = w → fetchWant b r = some (.image a) →
      (∀ x, x ∈ b.rings.map Prod.fst → rHome (rng b x) = w → (fetchWant b x).isSome → x ≠ r → fetchBefore b r x) →
    Takes (.ringFetch w) p q b fun d =>
      rng d r = { rng b r with gotOff := if (rng b r).fetchOff = a then (rng b r).gotOff else a, fetchOff := a + 256 } ∧ d.out = b.out ++ [.mpRead (.ward w) a (tenAx p b (.ward w) (rTenant (rng b r)) (rBe (rng b r)))]
      ∧ OnlyRing r b d ∧ Only [.rings, .out] b d) ∧
  (∀ p q b r x, wardUp p b (rHome (rng b r)) → (rng b r).recRead = true → fld x 0 1 ≠ phaseOf (rng b r) → cancelNext (rng b r) = false →
    Takes (.ringFetchResponse r .record .okay x) p q b fun d =>
      rng d r = { rng b r with recRead := false, repollAt := some (b.clk.fclk + repoll p b (rHome (rng b r))) }
      ∧ OnlyRing r b d ∧ Only [.cnt, .rings] b d) ∧
  (∀ p q b r x, wardUp p b (rHome (rng b r)) → (rng b r).recRead = true →
    Takes (.ringFetchResponse r .record .fault x) p q b fun d =>
      rng d r = { rng b r with haltKind := 1, halt := 0x06, recRead := false, walk := { (rng b r).walk with since := b.clk.ts } }
      ∧ OnlyRing r b d ∧ bitAt (rd p d (wIrq (rHome (rng b r)))) 1 = true) ∧
  (∀ p q b r x, wardUp p b (rHome (rng b r)) → (rng b r).gotOff < (rng b r).fetchOff → (rng b r).haltKind = 0 →
    Takes (.ringFetchResponse r .image .okay x) p q b fun d =>
      rng d r = { rng b r with gotOff := (rng b r).gotOff + 256 } ∧ OnlyRing r b d ∧ Only [.rings] b d) ∧
  (∀ p q b r x, wardUp p b (rHome (rng b r)) → (rng b r).gotOff < (rng b r).fetchOff → (rng b r).haltKind = 0 →
    Takes (.ringFetchResponse r .image .fault x) p q b fun d =>
      (rng d r).haltKind = 2 ∧ (rng d r).halt = 0x06 ∧ (rng d r).walk.off = (rng b r).walk.off ∧ (rng d r).fetchOff = (rng b r).gotOff
      ∧ OnlyRing r b d) ∧
  (∀ p q b r t c, wardUp p b (rHome (rng b r)) → (rng b r).repollAt = some t → t ≤ b.clk.fclk → (rng b r).enable = true →
      (rng b r).haltKind = 0 → c = updRing r (fun g => { g with repollAt := none }) b → fetchNext c (rHome (rng b r)) ≠ some r →
    Takes (.ringRepoll r) p q b fun d => d = c) ∧
  (∀ p q b r t c a, wardUp p b (rHome (rng b r)) → (rng b r).repollAt = some t → t ≤ b.clk.fclk → (rng b r).enable = true →
      (rng b r).haltKind = 0 → c = updRing r (fun g => { g with repollAt := none }) b → fetchNext c (rHome (rng b r)) = some r →
      fetchWant c r = some (.record a) →
    Takes (.ringRepoll r) p q b fun d =>
      rng d r = { rng b r with repollAt := none, recRead := true }
      ∧ d.out = b.out ++ [.mpRead (.ward (rHome (rng b r))) a (tenAx p b (.ward (rHome (rng b r))) (rTenant (rng b r)) (rBe (rng b r)))]
      ∧ OnlyRing r b d ∧ Only [.rings, .out] b d) ∧
  (∀ p q b, mgtFree b → tabReady b 0 → bitAt (rd p b (kA 1 0x040)) 16 = false → (rng b (ringSel p b)).enable = false →
      enableBad p b (ringSel p b) = false →
    Takes .ringEnable p q b fun d =>
      recAddr (rng d (ringSel p b)) = rBase (rng b (ringSel p b))
      ∧ (∀ r, Tbl.get 0 d.tdone r = if r = rTenant (rng b (ringSel p b)) * 64 + rSlot (rng b (ringSel p b))
          then (rng b (ringSel p b)).d4 - 1 else Tbl.get 0 b.tdone r)
      ∧ OnlyRing (ringSel p b) b d ∧ Only [.mgt, .rings, .tdone] b d) ∧
  (∀ p q b, mgtFree b → tabReady b 0 → bitAt (rd p b (kA 1 0x040)) 16 = false →
    Takes .ringDisable p q b fun d =>
      (∀ a, fetchWant d (ringSel p b) ≠ some (.record a)) ∧ (rng d (ringSel p b)).subs = (rng b (ringSel p b)).subs
      ∧ (rng d (ringSel p b)).walk = (rng b (ringSel p b)).walk ∧ OnlyRing (ringSel p b) b d ∧ Only [.mgt, .rings] b d) ∧
  (∀ p q b v, mgtFree b → tabReady b 0 → bitAt (rd p b (kA 1 0x040)) 16 = false →
      (rng b (ringSel p b)).enable = false → (rng b (ringSel p b)).subs = [] →
    Takes (.ringDescriptorWrite 0 v) p q b fun d =>
      rBase (rng d (ringSel p b)) = fld (rng b (ringSel p b)).d1 0 8 * 2 ^ 40 + v.toNat * 2 ^ 8
      ∧ OnlyRing (ringSel p b) b d ∧ Only [.mgt, .rings] b d)

/-- Records (R117 to R120). An accepted record is appended as the next submission of its ring, with FPTR and the expected
number one higher; where the walk is idle it begins at ENTRY, in the WAITSUB wait if the awaited submission is not
complete; where it is not, the walk stays. A bad record is accepted and logged BAD_COMMAND (0x13). A satisfied WAITSUB
leads to the first segment. No other ring changes. -/
def Obligations.RecordsAccepted : Prop :=
  (∀ p q b r x, wardUp p b (rHome (rng b r)) → (rng b r).enable = true → runState b → (rng b r).haltKind = 0 → mayAccept (rng b r) →
      cancelNext (rng b r) = false → fld x 0 1 = phaseOf (rng b r) → recBad b r x = false →
      (∀ s ∈ (rng b r).subs, s.subid ≠ (rng b r).expSub) → (rng b r).walk.mode ≠ .idle →
    Takes (.recordAccept r x) p q b fun d =>
      (rng d r).subs = (rng b r).subs ++ [subOfRec b r x false] ∧ (rng d r).fptr = (rng b r).fptr + 1
      ∧ (rng d r).expSub = (rng b r).expSub + 1 ∧ (rng d r).walk = (rng b r).walk ∧ OnlyRing r b d ∧ Only [.rings] b d) ∧
  (∀ p q b r x, wardUp p b (rHome (rng b r)) → (rng b r).enable = true → runState b → (rng b r).haltKind = 0 → mayAccept (rng b r) →
      cancelNext (rng b r) = false → fld x 0 1 = phaseOf (rng b r) → recBad b r x = false →
      (∀ s ∈ (rng b r).subs, s.subid ≠ (rng b r).expSub ∧ s.walkEnded = true) → (rng b r).walk.mode = .idle →
    Takes (.recordAccept r x) p q b fun d =>
      (rng d r).walk = {
        mode := if waitOver b (rTenant (rng b r)) (recWait x) then .header else .waitSub
        off := bf x 0x10 0 32, subid := (rng b r).expSub, since := b.clk.ts } ∧ OnlyRing r b d ∧ Only [.rings] b d) ∧
  (∀ p q b r x, wardUp p b (rHome (rng b r)) → (rng b r).enable = true → runState b → (rng b r).haltKind = 0 → mayAccept (rng b r) →
      cancelNext (rng b r) = false → fld x 0 1 = phaseOf (rng b r) → recBad b r x = true →
    Takes (.recordAccept r x) p q b fun d =>
      (rng d r).fptr = (rng b r).fptr + 1 ∧ (rng d r).expSub = (rng b r).expSub + 1
      ∧ Tbl.get 0 d.log.cnt 0x13 = satAdd (2 ^ 32 - 1) (Tbl.get 0 b.log.cnt 0x13) 1 ∧ OnlyRing r b d) ∧
  (∀ p q b r, wardUp p b (rHome (rng b r)) → (rng b r).walk.mode = .waitSub → walking b r →
      waitOver b (rTenant (rng b r)) ((walkSub b r).bind (fun s => s.waitOn)) →
    Takes (.waitsubRelease r) p q b fun d =>
      rng d r = calm { rng b r with walk := { (rng b r).walk with mode := .header } } ∧ OnlyRing r b d ∧ Only [.rings] b d)

/-- Segments (R124, R125, R129). A good CONTROL header with records leads to its first record. A good GRAPH header leads
to the AHEAD wait or to pass 1 with the body of the segment. A bad header stops the walk and sends the command fault
BAD_COMMAND (0x13). No other ring changes. -/
def Obligations.SegmentHeaders : Prop :=
  (∀ p q b r hdr l, keeperUp b → (rng b r).walk.mode = .header → walking b r → (rng b r).walk.seek = none → l.length * 32 = bf hdr 8 0 32 →
      hdrOk (((walkSub b r).map (fun s => s.imglen)).getD 0) (rng b r).walk.off hdr l → bf hdr 6 0 1 = 1 → l ≠ [] →
    Takes (.segmentHeader r hdr l) p q b fun d =>
      rng d r = calm { rng b r with walk := { (rng b r).walk with
        seg := some (segOf (rng b r).walk.off hdr l), off := (rng b r).walk.off + 64, body := [], mode := .records, since := b.clk.ts } }
      ∧ OnlyRing r b d ∧ Only [.rings] b d) ∧
  (∀ p q b r hdr l, keeperUp b → (rng b r).walk.mode = .header → walking b r → (rng b r).walk.seek = none → l.length * 32 = bf hdr 8 0 32 →
      hdrOk (((walkSub b r).map (fun s => s.imglen)).getD 0) (rng b r).walk.off hdr l → bf hdr 6 0 1 = 0 →
    Takes (.segmentHeader r hdr l) p q b fun d =>
      rng d r = calm { rng b r with walk := { (rng b r).walk with
        seg := some (segOf (rng b r).walk.off hdr l), body := l, mode := (if aheadHolds (rng b r) then .waitAhead else .pass1), since := b.clk.ts } }
      ∧ OnlyRing r b d ∧ Only [.rings] b d) ∧
  (∀ p q b r hdr l, keeperUp b → (rng b r).walk.mode = .header → walking b r → (rng b r).walk.seek = none →
      l.length * 32 = bf hdr 8 0 32 → hdrOk (((walkSub b r).map (fun s => s.imglen)).getD 0) (rng b r).walk.off hdr l = false →
    Takes (.segmentHeader r hdr l) p q b fun d =>
      (rng d r).walk.mode = .stopped ∧ .cmdFault r (rng b r).walk.subid 0x13 ∈ d.xbar ∧ OnlyRing r b d)

/-- A segment instantiated (R46, R74, R75, R131, R134, R146). Pass 1 of a good segment takes a free bank and gives the
segment its number. Pass 2 reserves the entries where every Ward has room and otherwise puts the ring into the entry
queue, which it leaves as pass 2 would; a segment that never fits is stopped NO_RESOURCES (0x0E). Pass 3 with every
link known frees the bank and sends a seal to each Ward of the segment; with an unknown fan list it reads that list. A
fan list or an operand that arrives is kept, one with a translation fault halts the ring with POISON at the same
place. The AHEAD wait ends when it no longer holds. Each pass is one command (the model's choice, log entry 29). No
other ring changes. -/
def Obligations.GraphPasses : Prop :=
  (∀ p q b r h k l z, keeperUp b → (rng b r).walk.mode = .pass1 → walking b r → passReads (rng b r).walk = false →
      (rng b r).walk.seg = some h → freeBank b = some k →
      parseRecs p (progress r b) r (rng b r).walk.body.length (rng b r).walk.body (h.off + 64) [] = (l, none) →
      checkAll p (progress r b) r h.ntask ((l.filter (fun x => isNode x.2)).map (fun x => homeAt p (progress r b) (recClass x.2))) l [] 0 = (z, none) →
      segFault (rng b r).walk h.ntask h.off l z = none →
    Takes (.graphPass1 r) p q b fun d =>
      (rng d r).walk.mode = .pass2 ∧ (rng d r).walk.off = h.off ∧ (rng d r).segNo = (rng b r).segNo + 1
      ∧ (∃ g, Tbl.get none d.segs r = some g ∧ g.bank = k ∧ g.no = (rng b r).segNo) ∧ OnlyRing r b d ∧ Only [.rings, .segs] b d) ∧
  (∀ p q b r g, keeperUp b → (rng b r).walk.mode = .pass2 → Tbl.get none b.segs r = some g → walking b r →
      neverFits b (rTenant (rng b r)) g = false → quotaOk b (rTenant (rng b r)) g → heldBack b b.entq g = false → fitsNow b g = false →
    Takes (.graphPass2 r) p q b fun d =>
      (rng d r).walk = { (rng b r).walk with mode := .entq } ∧ r ∈ d.entq ∧ OnlyRing r b d ∧ Only [.rings, .segs, .entq] b d) ∧
  (∀ p q b r g, keeperUp b → (rng b r).walk.mode = .pass2 → Tbl.get none b.segs r = some g → walking b r →
      neverFits b (rTenant (rng b r)) g = false → quotaOk b (rTenant (rng b r)) g → heldBack b b.entq g = false → fitsNow b g →
      opensStatus p b r g = 0 → segInsts g = [] →
    Takes (.graphPass2 r) p q b fun d =>
      (rng d r).walk.mode = .pass3 ∧ r ∉ d.entq ∧ (rng d r).hung = false ∧ OnlyRing r b d) ∧
  (∀ p q b r g, keeperUp b → (rng b r).walk.mode = .pass2 → Tbl.get none b.segs r = some g → walking b r →
      neverFits b (rTenant (rng b r)) g →
    Takes (.graphPass2 r) p q b fun d =>
      (rng d r).walk.mode = .stopped ∧ .cmdFault r (rng b r).walk.subid 0x0E ∈ d.xbar ∧ Tbl.get none d.segs r = none) ∧
  (∀ p q b r g, keeperUp b → (rng b r).walk.mode = .entq → Tbl.get none b.segs r = some g → walking b r →
      neverFits b (rTenant (rng b r)) g = false → quotaOk b (rTenant (rng b r)) g → heldBack b (b.entq.takeWhile (· ≠ r)) g = false →
      fitsNow b g → opensStatus p b r g = 0 → segInsts g = [] →
    Takes (.entryQueueAdmit r) p q b fun d =>
      (rng d r).walk.mode = .pass3 ∧ r ∉ d.entq ∧ (rng d r).hung = false ∧ OnlyRing r b d) ∧
  (∀ p q b r g, keeperUp b → (rng b r).walk.mode = .pass3 → Tbl.get none b.segs r = some g → (rng b r).haltKind = 0 →
      passReads (rng b r).walk = false → linkNeed (rng b r).walk g.recs = none →
    Takes (.graphPass3 r) p q b fun d =>
      Tbl.get none d.segs r = none ∧ (∀ w ∈ sealWards g, .segSeal w r g.no ∈ d.xbar) ∧ OnlyRing r b d) ∧
  (∀ p q b r g a, keeperUp b → (rng b r).walk.mode = .pass3 → Tbl.get none b.segs r = some g → (rng b r).haltKind = 0 →
      passReads (rng b r).walk = false → linkNeed (rng b r).walk g.recs = some a →
    Takes (.graphPass3 r) p q b fun d =>
      rng d r = calm { rng b r with walk := { (rng b r).walk with
        fanWait := some a, off := ((fanRec p b r a).getD ((rng b r).walk.off, 0)).1, want := (rng b r).walk.want ++ [a]
        atRec := ((fanRec p b r a).getD ((rng b r).walk.off, 0)).2 } } ∧ OnlyRing r b d ∧ Only [.rings] b d) ∧
  (∀ p q b r a l, wardUp p b (rHome (rng b r)) → (rng b r).walk.fanWait = some a.toNat →
    Takes (.fanListReadResponse r a .okay l) p q b fun d =>
      (rng d r).walk.fanWait = none ∧ a.toNat ∈ (rng d r).walk.reread ∧ (rng d r).walk.mode = (rng b r).walk.mode
      ∧ OnlyRing r b d ∧ Only [.rings] b d) ∧
  (∀ p q b r a l, wardUp p b (rHome (rng b r)) → (rng b r).walk.fanWait = some a.toNat → (rng b r).walk.mode ≠ .pass3 →
    Takes (.fanListReadResponse r a .fault l) p q b fun d =>
      (rng d r).haltKind = 3 ∧ (rng d r).halt = 0x06 ∧ (rng d r).walk.off = (rng b r).walk.off ∧ OnlyRing r b d) ∧
  (∀ p q b r a v, wardUp p b (rHome (rng b r)) → (rng b r).walk.opWait = some a.toNat →
    Takes (.operandReadResponse r a .okay v) p q b fun d =>
      (rng d r).walk.opWait = none ∧ (a.toNat, v) ∈ (rng d r).walk.memv ∧ (rng d r).walk.off = (rng b r).walk.off
      ∧ OnlyRing r b d ∧ Only [.rings] b d) ∧
  (∀ p q b r a v, wardUp p b (rHome (rng b r)) → (rng b r).walk.opWait = some a.toNat →
    Takes (.operandReadResponse r a .fault v) p q b fun d =>
      (rng d r).haltKind = 4 ∧ (rng d r).halt = 0x06 ∧ (rng d r).walk.off = (rng b r).walk.off ∧ OnlyRing r b d) ∧
  (∀ p q b r, keeperUp b → (rng b r).walk.mode = .waitAhead → walking b r → aheadHolds (rng b r) = false → Takes (.aheadRelease r) p q b fun d =>
    rng d r = calm { rng b r with walk := { (rng b r).walk with mode := .pass1 } } ∧ OnlyRing r b d ∧ Only [.rings] b d)

/-- Records of a CONTROL segment (R127, R129, R137, R138). NOP moves to the next record; at the end of the segment the
walk goes to the segment NEXT names. MARK sets the ring's layer and operation. NOTE writes its bytes to memory.
SET_SLOT of a value sets the slot of the tenant. INDIRECT patches the next record. No other ring changes. -/
def Obligations.RecordsInTurn : Prop :=
  (∀ p q b r x, Reads p b r 0x7F x → Inside b r → Takes (.nop r x) p q b fun d =>
    rng d r = calm { rng b r with walk := nextRec (rng b r).walk } ∧ OnlyRing r b d ∧ Only [.rings] b d) ∧
  (∀ p q b r x g, Reads p b r 0x7F x → (rng b r).walk.seg = some g → g.off + 64 + g.len ≤ (rng b r).walk.off + 32 → g.next ≠ 0xFFFFFFFF →
    Takes (.nop r x) p q b fun d =>
      (rng d r).walk.mode = .header ∧ (rng d r).walk.off = g.next.toNat ∧ OnlyRing r b d ∧ Only [.rings] b d) ∧
  (∀ p q b r x, Reads p b r 0x51 x → Inside b r → Takes (.mark r x) p q b fun d =>
    rng d r = calm { rng b r with layer := bf x 2 0 16, opid := bf x 4 0 16, walk := nextRec (rng b r).walk }
    ∧ OnlyRing r b d ∧ Only [.cnt, .rings, .trace] b d) ∧
  (∀ p q b r x, Reads p b r 0x61 x → Inside b r → Takes (.note r x) p q b fun d =>
    rng d r = calm (stained { rng b r with walk := nextRec (rng b r).walk })
    ∧ d.out = b.out ++ [.memWrite (.ward (rHome (rng b r))) (bitAt (rd p b (wA (rHome (rng b r)) 0 0x0C0)) 16) (bf x 8 0 48) (bf x 1 0 5)
        (bf x 0x10 0 (8 * bf x 1 0 5)) (tenAx p b (.ward (rHome (rng b r))) (rTenant (rng b r)) (rBe (rng b r)))]
    ∧ OnlyRing r b d ∧ Only [.rings, .out] b d) ∧
  (∀ p q b r x v, Reads p b r 0x41 x → Inside b r → bitAt x 8 = false → evalLow p b r (opdAt (wide x) 8) = .val v →
      slotMine b (rTenant (rng b r)) (bf x 4 0 18) →
    Takes (.setSlot r x) p q b fun d =>
      rng d r = calm (stained { rng b r with walk := nextRec (rng b r).walk })
      ∧ slt d (bf x 4 0 18 / 4096) (bf x 4 0 18 % 4096)
        = { slt b (bf x 4 0 18 / 4096) (bf x 4 0 18 % 4096) with v := true, value := BitVec.ofNat 32 v }
      ∧ OnlyRing r b d ∧ Only [.rings, .slots] b d) ∧
  (∀ p q b r x v k, Reads p b r 0x40 x → k = (rng b r).walk → lastRec k = false → indirectPatch p b r (wide x) = .val v →
    Takes (.indirect r x) p q b fun d =>
      rng d r = calm { rng b r with walk := { nextRec k with
        patches := [⟨bf x 1 0 6, indBytes (wide x), v % 2 ^ (8 * indBytes (wide x))⟩] } } ∧ OnlyRing r b d ∧ Only [.rings] b d)

/-- Branches and loops (R132, R133). A COND that holds goes on; one that does not goes to its TARGET further on in the
segment, leaving the loops it leaves. LOOP with a count opens a level; with count 0 it goes to its exit. ENDLOOP goes
back to the body and counts the iteration, or leaves the level after the last one. No other ring changes. -/
def Obligations.BranchesAndLoops : Prop :=
  (∀ p q b r x u v, Reads p b r 0x30 x → Inside b r → evalLow p b r (opdAt (wide x) 8) = .val u → evalLow p b r (opdAt (wide x) 16) = .val v →
      condHolds (bf x 1 0 4) (BitVec.ofNat 32 u) (BitVec.ofNat 32 v) →
    Takes (.cond r x) p q b fun d =>
      rng d r = calm { rng b r with walk := nextRec (rng b r).walk } ∧ OnlyRing r b d ∧ Only [.rings] b d) ∧
  (∀ p q b r x u v g, Reads p b r 0x30 x → evalLow p b r (opdAt (wide x) 8) = .val u → evalLow p b r (opdAt (wide x) 16) = .val v →
      condHolds (bf x 1 0 4) (BitVec.ofNat 32 u) (BitVec.ofNat 32 v) = false → (rng b r).walk.seg = some g →
      (rng b r).walk.off < bf x 4 0 32 → bf x 4 0 32 < g.off + 64 + g.len → bf x 4 0 32 % 32 = 0 →
    Takes (.cond r x) p q b fun d =>
      (rng d r).walk.off = bf x 4 0 32 ∧ (rng d r).walk.mode = .records ∧ (rng d r).walk.seg = some g
      ∧ (rng d r).walk.loops = (rng b r).walk.loops.filter (fun l => decide (bf x 4 0 32 < l.exit)) ∧ OnlyRing r b d ∧ Only [.rings] b d) ∧
  (∀ p q b r x n g, Reads p b r 0x31 x → Inside b r → bitAt x 8 = false → evalLow p b r (opdAt (wide x) 8) = .val n → n ≠ 0 →
      (rng b r).walk.loops.length < 2 → (rng b r).walk.seg = some g →
    Takes (.loop r x) p q b fun d =>
      rng d r = calm { rng b r with walk := { nextRec (rng b r).walk with
        loops := (rng b r).walk.loops ++ [⟨(rng b r).walk.off + 32, bf x 4 0 32, 0, BitVec.ofNat 32 n, false, g⟩] } }
      ∧ OnlyRing r b d ∧ Only [.rings] b d) ∧
  (∀ p q b r x g, Reads p b r 0x31 x → bitAt x 8 = false → evalLow p b r (opdAt (wide x) 8) = .val 0 → (rng b r).walk.loops.length < 2 →
      (rng b r).walk.seg = some g → (rng b r).walk.off < bf x 4 0 32 → bf x 4 0 32 < g.off + 64 + g.len → bf x 4 0 32 % 32 = 0 →
    Takes (.loop r x) p q b fun d =>
      (rng d r).walk.off = bf x 4 0 32 ∧ (rng d r).walk.loops = (rng b r).walk.loops ∧ OnlyRing r b d ∧ Only [.rings] b d) ∧
  (∀ p q b r x l, Reads p b r 0x32 x → (rng b r).walk.loops.getLast? = some l → l.exit = (rng b r).walk.off + 32 →
      l.forever ∨ l.iter + 1 < l.count → l.body < l.seg.off + 64 + l.seg.len →
    Takes (.endloop r x) p q b fun d =>
      rng d r = calm { rng b r with walk := { (rng b r).walk with
        loops := (rng b r).walk.loops.dropLast ++ [{ l with iter := l.iter + 1 }], seg := some l.seg, off := l.body, memv := [], patches := [] } }
      ∧ OnlyRing r b d ∧ Only [.rings] b d) ∧
  (∀ p q b r x l, Reads p b r 0x32 x → Inside b r → (rng b r).walk.loops.getLast? = some l → l.exit = (rng b r).walk.off + 32 →
      l.forever = false → l.count ≤ l.iter + 1 →
    Takes (.endloop r x) p q b fun d =>
      rng d r = calm { rng b r with walk := { nextRec (rng b r).walk with loops := (rng b r).walk.loops.dropLast } }
      ∧ OnlyRing r b d ∧ Only [.rings] b d)

/-- Steps and fences (R134 to R136, R234). STEP_END of a step without entries out completes it, raises STEP and the
interval and asks for the commit point of the Ward; with entries out it closes the step and STEP stays. YIELD keeps
the step, raises the interval and adds a point to a history of at most 8. A FENCE whose scope is settled goes on, else
the walk waits; the wait ends when the scope is settled, and with the fail flag and a failed entry in scope it stops
the walk with PREDECESSOR_FAIL (0x02). No other ring changes. -/
def Obligations.StepsAndFences : Prop :=
  (∀ p q b r x, Reads p b r 0x33 x → Inside b r → (rng b r).steps = [] → (rng b r).pre = .run → Takes (.stepEnd r x) p q b fun d =>
    (rng d r).steps = [] ∧ (rng d r).step = (rng b r).step + 1 ∧ (rng d r).stepNo = max (rng b r).stepTop (rng b r).stepNo + 1
    ∧ (rng d r).interval = (rng b r).interval + 1 ∧ (rng d r).walk = nextRec (rng b r).walk ∧ rHome (rng b r) ∈ d.cmtDue
    ∧ OnlyRing r b d) ∧
  (∀ p q b r x s, Reads p b r 0x33 x → Inside b r → (rng b r).steps = [s] → s.no = (rng b r).stepNo → s.unsettled ≠ 0 → (rng b r).pre = .run →
    Takes (.stepEnd r x) p q b fun d =>
      (rng d r).steps = [{ s with closed := true }] ∧ (rng d r).step = (rng b r).step ∧ (rng d r).stepNo = (rng b r).stepTop + 1
      ∧ (rng d r).walk = nextRec (rng b r).walk ∧ OnlyRing r b d ∧ Only [.cmtDue, .rings] b d) ∧
  (∀ p q b r x, Reads p b r 0x34 x → Inside b r → (rng b r).pre = .run → Takes (.yield r x) p q b fun d =>
    (rng d r).walk = nextRec (rng b r).walk ∧ (rng d r).interval = (rng b r).interval + 1 ∧ (rng d r).ivYield = false
    ∧ (rng d r).points.length = min 8 ((rng b r).points.length + 1) ∧ (rng d r).step = (rng b r).step ∧ (rng d r).steps = (rng b r).steps
    ∧ OnlyRing r b d ∧ Only [.rings] b d) ∧
  (∀ p q b r x, Reads p b r 0x60 x → Inside b r → fenceOver b r (bitAt x 8) → (bitAt x 9 && fenceFailed b r (bitAt x 8)) = false →
    Takes (.fence r x) p q b fun d =>
      rng d r = calm { rng b r with walk := nextRec (rng b r).walk } ∧ OnlyRing r b d ∧ Only [.rings] b d) ∧
  (∀ p q b r x, Reads p b r 0x60 x → fenceOver b r (bitAt x 8) = false → Takes (.fence r x) p q b fun d =>
    rng d r = calm { rng b r with walk := { (rng b r).walk with mode := .waitFence (bitAt x 8) (bitAt x 9), since := b.clk.ts, patches := [] } }
    ∧ OnlyRing r b d ∧ Only [.rings] b d) ∧
  (∀ p q b r sc fs, keeperUp b → (rng b r).walk.mode = .waitFence sc fs → walking b r → fenceOver b r sc → (fs && fenceFailed b r sc) = false →
      Inside b r → Takes (.fenceRelease r) p q b fun d =>
    rng d r = calm { rng b r with walk := nextRec (rng b r).walk } ∧ OnlyRing r b d ∧ Only [.rings] b d) ∧
  (∀ p q b r sc, keeperUp b → (rng b r).walk.mode = .waitFence sc true → walking b r → fenceOver b r sc → fenceFailed b r sc →
    Takes (.fenceRelease r) p q b fun d =>
      (rng d r).walk.mode = .stopped ∧ .cmdFault r (rng b r).walk.subid 0x02 ∈ d.xbar ∧ OnlyRing r b d)

/-- Hasps and channels of a walk (R138, R154, R157, R159, R207, R211). HASP_SIGNAL adds to COUNT where the sum fits in 32
bits; HASP_RESET makes COUNT 0; HASP_WAIT registers the walk as a waiter and holds it. OPEN_CH that passes its checks
takes a free channel ID and writes it to its slot. CLOSE_CH of the tenant's open channel marks it closing and sends
the close to the directory; of a channel that does not exist it passes. No other hasp, channel or ring changes. -/
def Obligations.HaspAndChannelRecords : Prop :=
  (∀ p q b r x v h, Reads p b r 0x21 x → Inside b r → evalLow p b r (opdAt (wide x) 8) = .val v → haspOf p b (wide x) = (none, h) →
      haspCheck b h (rTenant (rng b r)) = 0 → (hsp b h).count.toNat + (BitVec.ofNat 32 v).toNat < 2 ^ 32 →
    Takes (.haspSignal r x) p q b fun d =>
      (hsp d h).count = (hsp b h).count + BitVec.ofNat 32 v ∧ (hsp d h).ovf = (hsp b h).ovf ∧ OnlyHasp h b d
      ∧ rng d r = calm (stained { rng b r with walk := nextRec (rng b r).walk }) ∧ Only [.cnt, .rings, .hasps, .trace] b d) ∧
  (∀ p q b r x h, Reads p b r 0x22 x → Inside b r → haspOf p b (wide x) = (none, h) → haspCheck b h (rTenant (rng b r)) = 0 →
    Takes (.haspReset r x) p q b fun d =>
      hsp d h = { hsp b h with count := 0 } ∧ OnlyHasp h b d
      ∧ rng d r = calm (stained { rng b r with walk := nextRec (rng b r).walk }) ∧ Only [.rings, .hasps] b d) ∧
  (∀ p q b r x v h, Reads p b r 0x20 x → evalLow p b r (opdAt (wide x) 8) = .val v → haspOf p b (wide x) = (none, h) →
      haspCheck b h (rTenant (rng b r)) = 0 → Takes (.haspWait r x) p q b fun d =>
    d.waits = b.waits ++ [⟨.ring r, h, BitVec.ofNat 32 v, nextSeq b, false⟩] ∧ (rng d r).walk.mode = .waitHasp
    ∧ (rng d r).walk.off = (rng b r).walk.off ∧ OnlyRing r b d ∧ Only [.clk, .rings, .waits] b d) ∧
  (∀ p q b r x id, Reads p b r 0x10 x → Inside b r → slotMine b (rTenant (rng b r)) (bf x 8 0 18) →
      openCheck p b (rTenant (rng b r)) (openChan p b r (.sub r (rng b r).walk.subid) [] x) = 0 → freeCh b = some id →
    Takes (.openCh r x) p q b fun d =>
      chn d id = some (openChan p b r (.sub r (rng b r).walk.subid) [] x) ∧ OnlyChan id b d
      ∧ (slt d (bf x 8 0 18 / 4096) (bf x 8 0 18 % 4096)).value = BitVec.ofNat 32 id ∧ (slt d (bf x 8 0 18 / 4096) (bf x 8 0 18 % 4096)).v = true
      ∧ (rng d r).walk = nextRec (rng b r).walk ∧ OnlyRing r b d ∧ Only [.rings, .slots, .chans] b d) ∧
  (∀ p q b r x id c, Reads p b r 0x11 x → Inside b r → evalLow p b r (opdAt (wide x) 8) = .val id → chn b id = some c →
      c.tenant = rTenant (rng b r) → c.closing = false → Takes (.closeCh r x) p q b fun d =>
    chn d id = some { c with closing := true } ∧ .close ⟨none, id⟩ .directory none ∈ d.xbar ∧ OnlyChan id b d
    ∧ (rng d r).walk = nextRec (rng b r).walk ∧ OnlyRing r b d ∧ Only [.cnt, .rings, .chans, .xbar] b d) ∧
  (∀ p q b r x id, Reads p b r 0x11 x → Inside b r → evalLow p b r (opdAt (wide x) 8) = .val id → chn b id = none →
    Takes (.closeCh r x) p q b fun d =>
      rng d r = calm (stained { rng b r with walk := nextRec (rng b r).walk }) ∧ OnlyRing r b d ∧ Only [.rings] b d)

/-- The end of a submission (R123, R140, R141, R143, R144). A command fault, the ring's timeout and a step's timeout end a
submission early: with its status, or TIMEOUT (0x03), which is logged; the cases have entries still unsettled and none
that can be stopped. A status block written for the oldest complete submission removes it, raises RPTR and sets
TN_RING_DONE. A digest written is counted off. A note written changes nothing; one that faults is logged POISON
(0x06). No other ring changes. -/
def Obligations.SubmissionsEnd : Prop :=
  (∀ p q b r sid st s, wardUp p b (rHome (rng b r)) → xfind b (isFault r) = some (.cmdFault r sid st) → subOf b r sid = some s →
      s.complete = false → s.early = none → s.unsettled ≠ 0 → (rng b r).walk.subid ≠ sid → (rng b r).prePoint = none →
      stoppable b r sid = [] → Takes (.commandFaultNotice r) p q b fun d =>
    subOf d r sid = some { s with early := some st, walkEnded := true } ∧ d.xbar = b.xbar.eraseP (isFault r) ∧ OnlyRing r b d) ∧
  (∀ p q b r s, wardUp p b (rHome (rng b r)) → subOf b r s.subid = some s →
      (rng b r).subs.find? (fun s => !s.complete && s.early.isNone && rtmoOver b (rng b r) s) = some s →
      s.unsettled ≠ 0 → (rng b r).walk.subid ≠ s.subid → (rng b r).prePoint = none → stoppable b r s.subid = [] →
    Takes (.ringTimeout r) p q b fun d =>
      subOf d r s.subid = some { s with early := some 0x03, walkEnded := true } ∧ OnlyRing r b d
      ∧ Tbl.get 0 d.log.cnt 0x03 = satAdd (2 ^ 32 - 1) (Tbl.get 0 b.log.cnt 0x03) 1) ∧
  (∀ p q b r s, wardUp p b (rHome (rng b r)) → subOf b r s.subid = some s →
      (rng b r).subs.find? (fun s => !s.complete && s.early.isNone && stmoOver b (rng b r) s.subid) = some s →
      s.unsettled ≠ 0 → (rng b r).walk.subid ≠ s.subid → (rng b r).prePoint = none → stoppable b r s.subid = [] →
    Takes (.stepTimeout r) p q b fun d =>
      subOf d r s.subid = some { s with early := some 0x03, walkEnded := true } ∧ OnlyRing r b d
      ∧ Tbl.get 0 d.log.cnt 0x03 = satAdd (2 ^ 32 - 1) (Tbl.get 0 b.log.cnt 0x03) 1) ∧
  (∀ p q b r s l, wardUp p b (rHome (rng b r)) → (rng b r).subs = s :: l → s.complete = true → s.statusWr = .pending → s.digests = 0 →
      (∀ x ∈ l, x.complete = false ∧ x.subid ≠ s.subid) →
    Takes (.statusBlockWriteResponse r s.subid .okay) p q b fun d =>
      (rng d r).subs = l ∧ (rng d r).rptr = (rng b r).rptr + 1 ∧ Tbl.get 0 d.tdone (rTenant (rng b r) * 64 + rSlot (rng b r)) = s.subid
      ∧ OnlyRing r b d ∧ Only [.rings, .tdone, .out] b d) ∧
  (∀ p q b r sid s l, wardUp p b (rHome (rng b r)) → subOf b r sid = some s → s.digestQ = none :: l → (∀ x ∈ (rng b r).subs, x.complete = false) →
    Takes (.digestWriteResponse r sid .okay) p q b fun d =>
      subOf d r sid = some { s with digestQ := l, digests := s.digests - 1 } ∧ OnlyRing r b d ∧ Only [.rings] b d) ∧
  (∀ p q b r sid, wardUp p b (rHome (rng b r)) → Takes (.noteWriteResponse r sid .okay) p q b fun d => d = b) ∧
  (∀ p q b r sid, wardUp p b (rHome (rng b r)) → Takes (.noteWriteResponse r sid .fault) p q b fun d =>
    Tbl.get 0 d.log.cnt 0x06 = satAdd (2 ^ 32 - 1) (Tbl.get 0 b.log.cnt 0x06) 1 ∧ Only [.regs, .cnt, .log, .trace, .out] b d)

/-! ## Pre-emption (chapter 8) -/

/-- Pre-emption (R237 to R239, R242, R244). A request for a ring in RUN with a valid point takes its walk and step back to
the point and sends a discard notice of the intervals since to every Ward; without one the ring is PENDING; one for a
ring that is disabled or not in RUN is ignored and counted. RESUME returns a HELD ring to RUN, is remembered for a
PENDING one, and is ignored and counted in RUN. A latency-critical request that has waited LC_WAIT makes its victim's
ring PENDING with queueing, and nothing happens while that is off. The head of the resume queue returns to RUN after
LC_IDLE without such a request. A discard notice marks a RUNNING entry of its intervals, and cancels a PENDING one.
That STEP returns to the point's value is the model's reading (log entry 30). -/
def Obligations.PreemptionAndResume : Prop :=
  (∀ p q b r qu pt, mgtFree b → r < 8192 → (rng b r).enable = true → (rng b r).pre = .run → validPoint (rng b r).points = some pt →
    Takes (.preemptRequest r qu) p q b fun d =>
      (rng d r).walk = pointWalk pt ∧ (rng d r).step = pt.step ∧ (rng d r).pre ≠ .run ∧ (rng d r).wptr = (rng b r).wptr
      ∧ (∀ w, w < p.nw → fenced b w = false → .discard w r pt.interval (rng b r).interval ∈ d.xbar)) ∧
  (∀ p q b r qu, mgtFree b → r < 8192 → (rng b r).enable = true → (rng b r).pre = .run → validPoint (rng b r).points = none →
    Takes (.preemptRequest r qu) p q b fun d =>
      rng d r = { rng b r with pre := .pending, prePoint := none, preQueue := qu, preResume := false } ∧ OnlyRing r b d
      ∧ Only [.mgt, .regs, .cnt, .rings, .trace] b d) ∧
  (∀ p q b r qu, mgtFree b → r < 8192 → (rng b r).enable = false ∨ (rng b r).pre ≠ .run → Takes (.preemptRequest r qu) p q b fun d =>
    d.preIgnored = satAdd (2 ^ 32 - 1) b.preIgnored 1 ∧ Only [.mgt, .regs, .preIgnored] b d) ∧
  (∀ p q b r, mgtFree b → r < 8192 → (rng b r).pre = .held → Takes (.preemptResume r) p q b fun d =>
    (rng d r).pre = .run ∧ (rng d r).prePoint = none ∧ r ∉ d.resumeQ ∧ OnlyRing r b d) ∧
  (∀ p q b r, mgtFree b → r < 8192 → (rng b r).pre = .pending → Takes (.preemptResume r) p q b fun d =>
    rng d r = { rng b r with preResume := true } ∧ OnlyRing r b d ∧ Only [.mgt, .regs, .rings] b d) ∧
  (∀ p q b r, mgtFree b → r < 8192 → (rng b r).pre = .run → Takes (.preemptResume r) p q b fun d =>
    d.preIgnored = satAdd (2 ^ 32 - 1) b.preIgnored 1 ∧ Only [.mgt, .regs, .preIgnored] b d) ∧
  (∀ p q b x r, keeperUp b → bitAt (rd p b (kA 5 0x068)) 0 = true →
      (waitingOrder b).filter (fun y => lcWaiting y && decide (y.lcAt + lcWait p b ≤ b.clk.fclk)) = [x] → victim p b x = some r →
      validPoint (rng b r).points = none →
    Takes .autoPreemptTrigger p q b fun d =>
      rng d r = { rng b r with pre := .pending, prePoint := none, preQueue := true, preResume := false }
      ∧ d.place.reqs = b.place.reqs.map (fun y => if y = x then { y with lcAt := b.clk.fclk } else y)
      ∧ OnlyRing r b d ∧ Only [.cnt, .place, .rings, .trace] b d) ∧
  (∀ p q b, keeperUp b → bitAt (rd p b (kA 5 0x068)) 0 = false → Takes .autoPreemptTrigger p q b fun d => d = b) ∧
  (∀ p q b r l, keeperUp b → b.resumeQ = r :: l → bitAt (rd p b (kA 5 0x068)) 1 = true → (∀ x ∈ b.place.reqs, lcWaiting x = false) →
      b.lcIdleAt + rdf p b (kA 5 0x06C) 16 16 ≤ b.clk.fclk → (rng b r).pre = .held →
    Takes .autoResume p q b fun d =>
      (rng d r).pre = .run ∧ (rng d r).prePoint = none ∧ r ∉ d.resumeQ ∧ d.lcIdleAt = b.clk.fclk ∧ OnlyRing r b d) ∧
  (∀ p q b w r lo hi h, wardUp p b w → xfind b (isDiscard w r) = some (.discard w r lo hi) → discardSet b w r lo hi = [h] →
      (ent b h).st = .running →
    Takes (.discardNotice w r) p q b fun d =>
      ent d h = { ent b h with discard := true } ∧ OnlyEnt h b d ∧ d.xbar = b.xbar.eraseP (isDiscard w r)
      ∧ Only [.cnt, .ents, .fedt, .xbar] b d) ∧
  (∀ p q b w r lo hi h, wardUp p b w → xfind b (isDiscard w r) = some (.discard w r lo hi) → discardSet b w r lo hi = [h] →
      (ent b h).st = .pending → (ent b h).d.cq = none →
    Takes (.discardNotice w r) p q b fun d =>
      (ent d h).st = .cancelled ∧ (ent d h).status = 0x04 ∧ (ent d h).discard = true ∧ OnlyEnt h b d)

/-! ## Channels, message queues and combining (chapters 5, 6) -/

/-- Arrival (R165, R167, R172). An accepted message raises the expected sequence number, takes its landing credits and
puts its flits and its status beat on the port's stream. A message for a receiver that has closed is refused CLOSED
(0x08) and changes no channel. One that its message queue takes is appended there with the cycle its last flit lands
and is acknowledged. No other port or queue changes. -/
def Obligations.MessagesArrive : Prop :=
  (∀ p q b key n m c, keeperUp b → key.inst = none → xfind b (isMsg key m.seqNo) = some (.msg m) → getChan b key = some c → c.rx = .port n →
      m.hop = none → portOutcome b n c c.rxClosed (c.rxBroken || (prt b n).inReset) true m = 0 →
    Takes (.messageArrival key m.seqNo none) p q b fun d =>
      (∃ c', getChan d key = some c' ∧ c'.eseq = c.eseq + 1 ∧ c'.landed = c.landed + 1 ∧ c'.nseq = c.nseq ∧ c'.sent = c.sent)
      ∧ (prt d n).credit = (prt b n).credit - m.flits.length ∧ (prt d n).opd.length = (prt b n).opd.length + m.flits.length + 1
      ∧ OnlyPort n b d ∧ d.xbar = b.xbar.eraseP (isMsg key m.seqNo)) ∧
  (∀ p q b key n m c, keeperUp b → key.inst = none → xfind b (isMsg key m.seqNo) = some (.msg m) → getChan b key = some c → c.rx = .port n →
      c.rxClosed = true → Takes (.messageArrival key m.seqNo none) p q b fun d =>
    .nack key m.seqNo 0x08 (some (portWard p n)) ∈ d.xbar ∧ getChan d key = some c ∧ (prt d n).opd = (prt b n).opd ∧ (prt d n).credit = (prt b n).credit
    ∧ Only [.cnt, .trace, .xbar] b d) ∧
  (∀ p q b key w k m c, keeperUp b → key.inst = none → xfind b (isMsg key m.seqNo) = some (.msg m) → getChan b key = some c → c.rx = .queue w k →
      queueOutcome (mqu b w k) c m = 0 → mqReader p w (mqu b w k) = none →
    Takes (.messageArrival key m.seqNo none) p q b fun d =>
      (mqu d w k).items = (mqu b w k).items ++ [⟨m.be, m.deadline, m.flits, m.poison, some key, m.seqNo, b.clk.fclk + m.flits.length - 1, false⟩]
      ∧ .ack key m.seqNo (some w) ∈ d.xbar ∧ OnlyMQ (w * 64 + k) b d)

/-- Outcomes (R166, R167, R180, R355). An acknowledged message is forgotten and clears the retry count and the marks of
its channel. Any other answer reaches its port. A message refused for a full receiver (0x07) is forgotten, counts a
retry, and the sequence goes back to it. A storm notice that closes a cycle of waiting channels marks every channel of
the cycle and is logged (0x15); one that closes none is only kept. No other channel changes where one is named. -/
def Obligations.MessageOutcomes : Prop :=
  (∀ p q b n k s z c, keeperUp b → wardUp p b (portWard p n) → k.inst = none → xfind b (isAnswer b n) = some (.ack k s z) →
      getChan b k = some c → (prt b n).inReset = false →
    Takes (.answerReturn n none) p q b fun d =>
      getChan d k = some { c with sent := c.sent.eraseP (fun x => x.1 = s), relay := none, retry := 0, noticed := false, marked := false }
      ∧ (prt d n).opd.length = (prt b n).opd.length + 1 ∧ OnlyPort n b d ∧ OnlyChan k.ch b d) ∧
  (∀ p q b n k beat, keeperUp b → wardUp p b (portWard p n) → xfind b (isAnswer b n) = some (.answer k beat) → fld beat 24 8 ≠ 2 →
      (prt b n).inReset = false →
    Takes (.answerReturn n none) p q b fun d =>
      prt d n = { prt b n with opd := (prt b n).opd ++ [{ kind := 2, ch := ⟨none, 0⟩, data := beat }] } ∧ OnlyPort n b d
      ∧ Only [.cnt, .ports, .xbar] b d) ∧
  (∀ p q b k s st z c n, keeperUp b → k.inst = none → xfind b (fun x => match x with
        | .nack i u _ _ => decide (i = k) && decide (u = s)
        | _ => false) = some (.nack k s st z) → getChan b k = some c → txPortOf c = some n → isRelay c = false → (prt b n).inReset = false →
      c.noticed = true → st = 0x07 → Takes (.nackReturn k s none) p q b fun d =>
    (∃ c', getChan d k = some c' ∧ c'.sent = c.sent.eraseP (fun x => x.1 = s) ∧ c'.retry = c.retry + 1
      ∧ c'.nseq = (if decide (c.nseq ≠ s) && serialGe c.nseq s then s else c.nseq))
    ∧ (prt d n).opd.length = (prt b n).opd.length + 1 ∧ OnlyPort n b d ∧ OnlyChan k.ch b d) ∧
  (∀ p q b ch n l, keeperUp b → xfind b (fun x => match x with
        | .storm k => decide (k.ch = ch)
        | _ => false) = some (.storm n) → b.storms.length < 64 → stormPath b.storms n.sport 17 n.rport = some l →
    Takes (.stormNotice ch) p q b fun d =>
      d.storms = b.storms ++ [n] ∧ (∀ k ∈ ch :: l, chn d k = (chn b k).map (fun c => { c with marked := true }))
      ∧ Tbl.get 0 d.log.cnt 0x15 = satAdd (2 ^ 32 - 1) (Tbl.get 0 b.log.cnt 0x15) 1) ∧
  (∀ p q b ch n, keeperUp b → xfind b (fun x => match x with
        | .storm k => decide (k.ch = ch)
        | _ => false) = some (.storm n) → b.storms.length < 64 → stormPath b.storms n.sport 17 n.rport = none →
    Takes (.stormNotice ch) p q b fun d => d.storms = b.storms ++ [n] ∧ Only [.cnt, .storms, .xbar] b d)

/-- A channel (R151, R154, R159). A request at the directory takes the lowest free ID and is answered with it, or
NO_RESOURCES (0x0E) where none is free. A bind notice names where the receiver is. A close at the directory goes to
both ends; at the sender, with the receiver closed, the channel waits for reuse; at a receiving port it is closed with
its beat. The ID is free when the reuse time is over. No other channel changes. -/
def Obligations.ChannelLife : Prop :=
  (∀ p q b c n tag n2 id, keeperUp b → xfind b isAlloc = some (.chAlloc c n tag n2) → freeCh b = some id → farEndp c.rx = false →
      taskEndp c.tx = false → taskEndp c.rx = false →
    Takes .channelAllocate p q b fun d =>
      chn d id = some c ∧ OnlyChan id b d ∧ .answer n (ansBeat tag 0 3 (BitVec.ofNat 32 id) 0 0) ∈ d.xbar ∧ Only [.cnt, .chans, .xbar] b d) ∧
  (∀ p q b c n tag n2, keeperUp b → xfind b isAlloc = some (.chAlloc c n tag n2) → freeCh b = none → Takes .channelAllocate p q b fun d =>
    .answer n (ansBeat tag 0x0E 3 0 0 0) ∈ d.xbar ∧ Only [.cnt, .xbar] b d) ∧
  (∀ p q b k n z c, keeperUp b → k.inst = none → xfind b (fun x => match x with
        | .bind i _ _ _ => decide (i = k)
        | _ => false) = some (.bind k false (some n) z) → getChan b k = some c →
    Takes (.bindNotice k) p q b fun d => getChan d k = some { c with rxLoc := some n } ∧ OnlyChan k.ch b d ∧ Only [.cnt, .chans, .xbar] b d) ∧
  (∀ p q b k c x, keeperUp b → k.inst = none → xfind b (isClose k .directory) = some x → getChan b k = some c → farEndp c.rx = false →
    Takes (.channelCloseApply k .directory) p q b fun d =>
      getChan d k = some { c with closing := true } ∧ .close k .tx (some c.dir) ∈ d.xbar ∧ .close k .rx (some c.dir) ∈ d.xbar ∧ OnlyChan k.ch b d
      ∧ Only [.cnt, .chans, .xbar] b d) ∧
  (∀ p q b k c x, keeperUp b → k.inst = none → xfind b (isClose k .tx) = some x → getChan b k = some c → c.rxClosed = true → c.freeAt = none →
    Takes (.channelCloseApply k .tx) p q b fun d =>
      getChan d k = some { c with txClosed := true, freeAt := some (b.clk.fclk + reuseDelay c) } ∧ OnlyChan k.ch b d
      ∧ Only [.cnt, .chans, .xbar] b d) ∧
  (∀ p q b k c x n, keeperUp b → k.inst = none → xfind b (isClose k .rx) = some x → getChan b k = some c → c.rx = .port n →
      c.closedBeat = false → (prt b n).inReset = false → b.watch = [] →
    Takes (.channelCloseApply k .rx) p q b fun d =>
      (∃ c', getChan d k = some c' ∧ c'.rxClosed = true ∧ c'.closedBeat = true) ∧ (prt d n).opd.length = (prt b n).opd.length + 1
      ∧ OnlyChan k.ch b d ∧ OnlyPort n b d ∧ Only [.cnt, .ports, .chans, .xbar] b d) ∧
  (∀ p q b ch c t, keeperUp b → chn b ch = some c → c.freeAt = some t → t ≤ b.clk.fclk → Takes (.channelIdFree ch) p q b fun d =>
    chn d ch = none ∧ OnlyChan ch b d ∧ Only [.chans, .rchans] b d)

/-- Combining (R186, R188 to R190, R195, R200, R202). A part that its queue takes goes into the Ward's input buffer, the
first of a contribution opening it. An applied part changes the accumulators; a final one counts its contribution and
the last of them begins the drain. The drain converts 8 elements at a time, or 32 for FAST; a write response counts
off, and the last one of a whole result makes the entry DONE. A tear of an open contribution fails the entry with
BROKEN (0x09); one for a queue that is over changes no queue. The number is free 4,096 fclk later, and the command has
no effect before (log entry 2). No other queue changes. -/
def Obligations.Combining : Prop :=
  (∀ p q b id n x, wardUp p b (fld id 6 6) → xfind b (fun y => match y with
        | .part z => decide (z.qid = id) && decide (z.port = n)
        | _ => false) = some (.part x) → x.qid = id → x.off ≠ 0 → partCheck b (fld id 6 6) (cqu b (fld id 6 6) (fld id 0 6)) x = (0, 0) →
    Takes (.partArrival id (ownInst p b) n none) p q b fun d =>
      Tbl.get [] d.cbParts (fld id 6 6) = Tbl.get [] b.cbParts (fld id 6 6) ++ [x]
      ∧ (cqu d (fld id 6 6) (fld id 0 6)).openC = (cqu b (fld id 6 6) (fld id 0 6)).openC.map (fun o =>
          if o.inst = x.inst ∧ o.port = x.port then { o with exp := x.off + x.nelem } else o)
      ∧ OnlyCQ (fld id 6 6 * 64 + fld id 0 6) b d ∧ Only [.cnt, .cq, .cbParts, .trace, .xbar] b d) ∧
  (∀ p q b id n x, wardUp p b (fld id 6 6) → xfind b (fun y => match y with
        | .part z => decide (z.qid = id) && decide (z.port = n)
        | _ => false) = some (.part x) → x.qid = id → x.off = 0 → partCheck b (fld id 6 6) (cqu b (fld id 6 6) (fld id 0 6)) x = (0, 0) →
    Takes (.partArrival id (ownInst p b) n none) p q b fun d =>
      Tbl.get [] d.cbParts (fld id 6 6) = Tbl.get [] b.cbParts (fld id 6 6) ++ [x]
      ∧ (cqu d (fld id 6 6) (fld id 0 6)).admits = (cqu b (fld id 6 6) (fld id 0 6)).admits + 1
      ∧ (cqu d (fld id 6 6) (fld id 0 6)).openC = (cqu b (fld id 6 6) (fld id 0 6)).openC ++ [⟨x.inst, x.port, x.nelem, x.word⟩]
      ∧ OnlyCQ (fld id 6 6 * 64 + fld id 0 6) b d ∧ Only [.cnt, .cq, .cbParts, .trace, .xbar] b d) ∧
  (∀ p q b w x l c, wardUp p b w → Tbl.get [] b.cbParts w = x :: l → x.final = true → c = cqu b w (fld x.qid 0 6) →
    Takes (.partApply w) p q b fun d =>
      Tbl.get [] d.cbParts w = l ∧ (cqu d w (fld x.qid 0 6)).doneCnt = c.doneCnt + 1
      ∧ (cqu d w (fld x.qid 0 6)).st = (if c.doneCnt + 1 = c.n then .draining else c.st)
      ∧ (cqu d w (fld x.qid 0 6)).cells = (applyPart x c).cells ∧ OnlyCQ (w * 64 + fld x.qid 0 6) b d) ∧
  (∀ p q b w x l c, wardUp p b w → Tbl.get [] b.cbParts w = x :: l → x.final = false → c = cqu b w (fld x.qid 0 6) →
    Takes (.partApply w) p q b fun d =>
      Tbl.get [] d.cbParts w = l ∧ cqu d w (fld x.qid 0 6) = applyPart x c ∧ OnlyCQ (w * 64 + fld x.qid 0 6) b d) ∧
  (∀ p q b w k, wardUp p b w → (cqu b w k).st = .draining → cqLive b (cqu b w k) → Takes (.drainConvert w k) p q b fun d =>
    (cqu d w k).drained = (if (cqu b w k).drained < (cqu b w k).len
        then min (cqu b w k).len ((cqu b w k).drained + (if (cqu b w k).fast then 32 else 8)) else (cqu b w k).drained)
    ∧ (cqu d w k).cells = (cqu b w k).cells ∧ OnlyCQ (w * 64 + k) b d ∧ Only [.cq, .watch, .out] b d) ∧
  (∀ p q b w k, wardUp p b w → (cqu b w k).wrOut ≠ 0 → (cqu b w k).drained < (cqu b w k).len → Takes (.drainWriteResponse w k .okay) p q b fun d =>
    cqu d w k = { cqu b w k with wrOut := (cqu b w k).wrOut - 1 } ∧ OnlyCQ (w * 64 + k) b d ∧ Only [.cq] b d) ∧
  (∀ p q b w k, wardUp p b w → (cqu b w k).st = .draining → cqLive b (cqu b w k) → (cqu b w k).drained = (cqu b w k).len →
      (cqu b w k).wrOut = 1 → (cqu b w k).wrErr = false → (cqu b w k).outBuf = [] → (cqu b w k).digestOut = false →
      (cqu b w k).cancelLate = false → (cqu b w k).eccErr = false → (∀ x ∈ b.watch, x.kind ≠ 1) →
      homeOf (cqu b w k).entry = w → (ent b (cqu b w k).entry).d.mode = 0 →
    Takes (.drainWriteResponse w k .okay) p q b fun d =>
      (ent d (cqu b w k).entry).st = .done ∧ (ent d (cqu b w k).entry).status = 0) ∧
  (∀ p q b id n word, wardUp p b (fld id 6 6) → xfind b (fun x => match x with
        | .tear k i m _ => decide (k = id) && decide (m = n) && decide (i = none)
        | _ => false) = some (.tear id none n word) → cqLive b (cqu b (fld id 6 6) (fld id 0 6)) = false →
    Takes (.tearNotice id (ownInst p b) n) p q b fun d => Only [.cnt, .xbar] b d) ∧
  (∀ p q b id n word h, wardUp p b (fld id 6 6) → xfind b (fun x => match x with
        | .tear k i m _ => decide (k = id) && decide (m = n) && decide (i = none)
        | _ => false) = some (.tear id none n word) → cqLive b (cqu b (fld id 6 6) (fld id 0 6)) →
      (cqu b (fld id 6 6) (fld id 0 6)).gen % 16 = fld id 12 4 → (cqu b (fld id 6 6) (fld id 0 6)).failed = false →
      (∃ o ∈ (cqu b (fld id 6 6) (fld id 0 6)).openC, o.inst = none ∧ o.port = n) → h = (cqu b (fld id 6 6) (fld id 0 6)).entry →
    Takes (.tearNotice id (ownInst p b) n) p q b fun d => (ent d h).st = .failed ∧ (ent d h).status = 0x09) ∧
  (∀ p q b w k t, wardUp p b w → (cqu b w k).st = .quarantine → (cqu b w k).freedAt = some t → t + 4096 ≤ b.clk.fclk →
    Takes (.queueNumberFree w k) p q b fun d =>
      cqu d w k = { cqu b w k with st := .free, freedAt := none } ∧ OnlyCQ (w * 64 + k) b d ∧ Only [.cq] b d) ∧
  (∀ p q b w k t, wardUp p b w → (cqu b w k).st = .quarantine → (cqu b w k).freedAt = some t → b.clk.fclk < t + 4096 →
    Takes (.queueNumberFree w k) p q b fun d => d = b)

/-! ## Hasps and key pools (chapters 6, 7) -/

/-- Hasps (R206 to R209, R211 to R213, R216). A settlement's signal adds to COUNT; one that would pass 2^32 - 1
changes only HASP_OVF, sends a command fault 0x12 and is logged. A running task's due wait is registered at the
Keeper. A satisfied wait is released: a port's by a message, a walk's by going on. While no wait is satisfied nothing
changes. A release that arrives for the waiting task marks it released, and one for a port without a wait changes
nothing but counters. A hasp that is assigned starts at COUNT 0 and lets its tenant's operations pass and no others; a
forced COUNT is logged, and the waits stay. No other hasp, port or ring changes. -/
def Obligations.SignalsAndWaits : Prop :=
  (∀ p q b h inc r sid st x t, keeperUp b → xfind b (fun y => match y with
        | .sig i v c => decide (i = h) && decide (v = inc) && decide (c = .settle r sid st x)
        | _ => false) = some (.sig h inc (.settle r sid st x)) → sigTenant (.settle r sid st x) = some t → haspCheck b h t = 0 →
      (hsp b h).count.toNat + inc.toNat < 2 ^ 32 →
    Takes (.signal h inc (.settle r sid st x)) p q b fun d =>
      hsp d h = { hsp b h with count := (hsp b h).count + inc } ∧ OnlyHasp h b d ∧ d.xbar.length + 1 = b.xbar.length
      ∧ Only [.cnt, .hasps, .trace, .xbar] b d) ∧
  (∀ p q b h inc r sid st x t, keeperUp b → xfind b (fun y => match y with
        | .sig i v c => decide (i = h) && decide (v = inc) && decide (c = .settle r sid st x)
        | _ => false) = some (.sig h inc (.settle r sid st x)) → sigTenant (.settle r sid st x) = some t → haspCheck b h t = 0 →
      2 ^ 32 ≤ (hsp b h).count.toNat + inc.toNat →
    Takes (.signal h inc (.settle r sid st x)) p q b fun d =>
      hsp d h = { hsp b h with ovf := satAdd 0xFFFF (hsp b h).ovf 1 } ∧ OnlyHasp h b d ∧ .cmdFault r sid 0x12 ∈ d.xbar
      ∧ Tbl.get 0 d.log.cnt 0x12 = satAdd (2 ^ 32 - 1) (Tbl.get 0 b.log.cnt 0x12) 1) ∧
  (∀ p q b n x k, portUp p b n → waitDue b (prt b n) = some (x, k) → otherInst p b k.inst.isSome (k.inst.getD 0) = none →
      selfBlock b (prt b n) x k = none →
    Takes (.waitRegistration n) p q b fun d =>
      d.waits = b.waits ++ [⟨.port n, k.hasp, k.target, nextSeq b, false⟩]
      ∧ prt d n = { prt b n with wait := some ⟨x.handle, x.gen, k.hasp, none, k.target, b.clk.ts, false⟩ } ∧ OnlyPort n b d
      ∧ Only [.clk, .cnt, .ports, .waits, .evr] b d) ∧
  (∀ p q b x n k, keeperUp b → b.waits = [x] → x.target ≤ (hsp b x.hasp).count → x.who = .port n → (prt b n).wait = some k →
    Takes .waitRelease p q b fun d => d.waits = [] ∧ .rel n k.handle k.gen ∈ d.xbar ∧ Only [.cnt, .waits, .trace, .xbar] b d) ∧
  (∀ p q b x r, keeperUp b → b.waits = [x] → x.target ≤ (hsp b x.hasp).count → x.who = .ring r → (rng b r).walk.mode = .waitHasp → Inside b r →
    Takes .waitRelease p q b fun d =>
      d.waits = [] ∧ rng d r = calm { rng b r with walk := { nextRec (rng b r).walk with patches := (rng b r).walk.patches } } ∧ OnlyRing r b d
      ∧ Only [.cnt, .rings, .waits, .trace] b d) ∧
  (∀ p q b, keeperUp b → (∀ x ∈ b.waits, x.sel = false ∧ (hsp b x.hasp).count < x.target) →
    Takes .waitRelease p q b fun d => d = b) ∧
  (∀ p q b n h g k, wardUp p b (portWard p n) → xfind b (fun x => match x with
        | .rel m _ _ => decide (m = n)
        | _ => false) = some (.rel n h g) → (prt b n).wait = some k → k.handle = h → k.gen = g → k.released = false →
    Takes (.taskFormRelease n) p q b fun d =>
      prt d n = { prt b n with wait := some { k with released := true } } ∧ OnlyPort n b d ∧ Only [.cnt, .ports, .evr, .xbar] b d) ∧
  (∀ p q b n h g, wardUp p b (portWard p n) → xfind b (fun x => match x with
        | .rel m _ _ => decide (m = n)
        | _ => false) = some (.rel n h g) → (prt b n).wait = none →
    Takes (.taskFormRelease n) p q b fun d => Only [.cnt, .xbar] b d) ∧
  (∀ p q b v t, mgtFree b → tabReady b 0 → waitersOn b (haspSel p b) = [] → Takes (.haspAssign v) p q b fun d =>
    haspCheck d (haspSel p b) t = (if bitAt v 31 then (if fld v 0 8 = t then 0 else 0x0F) else 0x0E)
    ∧ (hsp d (haspSel p b)).count = 0 ∧ d.waits = b.waits ∧ OnlyHasp (haspSel p b) b d) ∧
  (∀ p q b, mgtFree b → tabReady b 0 → Takes .haspForce p q b fun d =>
    (hsp d (haspSel p b)).count = rd p b (kA 5 0x054) ∧ (hsp d (haspSel p b)).tenant = (hsp b (haspSel p b)).tenant
    ∧ d.waits = b.waits ∧ Tbl.get 0 d.log.cnt 0 = satAdd (2 ^ 32 - 1) (Tbl.get 0 b.log.cnt 0) 1 ∧ OnlyHasp (haspSel p b) b d)

/-- Keys (R218 to R222). A request that fits an idle pool is granted the next keys of the circle and the next grant
number. One that does not fit, or finds others waiting, waits. One of another tenant is refused with status 0x0F. The
oldest grant returned gives its keys back to the tail. A request past KEY_TMO that is not first is removed and logged
0x0A. No other pool changes. -/
def Obligations.KeyPools : Prop :=
  (∀ p q b n r k c t i, wardUp p b (portWard p n) → xfind b (fun x => match x with
        | .keyReq u v _ _ _ _ => decide (u = n) && decide (v = r)
        | _ => false) = some (.keyReq n r k c t i) → (kpl b n k).en = true → (kpl b n k).tenant = t → c ≠ 0 → c ≤ (kpl b n k).size →
      keyWaits b r < 4 → (kpl b n k).waiting = [] → c ≤ (kpl b n k).free →
    Takes (.keyRequestArrival n r) p q b fun d =>
      kpl d n k = { kpl b n k with
        head := ((kpl b n k).head + c) % max 1 (kpl b n k).size, free := (kpl b n k).free - c, nextGseq := (kpl b n k).nextGseq + 1
        grants := (kpl b n k).grants ++ [⟨(kpl b n k).nextGseq, (kpl b n k).head, c, r, false⟩] }
      ∧ OnlyKPool (n * 16 + k) b d) ∧
  (∀ p q b n r k c t i, wardUp p b (portWard p n) → xfind b (fun x => match x with
        | .keyReq u v _ _ _ _ => decide (u = n) && decide (v = r)
        | _ => false) = some (.keyReq n r k c t i) → (kpl b n k).en = true → (kpl b n k).tenant = t → c ≠ 0 → c ≤ (kpl b n k).size →
      keyWaits b r < 4 → (kpl b n k).waiting.length < 16 → (kpl b n k).waiting ≠ [] ∨ (kpl b n k).free < c →
    Takes (.keyRequestArrival n r) p q b fun d =>
      kpl d n k = { kpl b n k with waiting := (kpl b n k).waiting ++ [⟨r, c, b.clk.fclk, b.clk.ts⟩] } ∧ OnlyKPool (n * 16 + k) b d
      ∧ Only [.cnt, .kpool, .xbar] b d) ∧
  (∀ p q b n r k c t i, wardUp p b (portWard p n) → xfind b (fun x => match x with
        | .keyReq u v _ _ _ _ => decide (u = n) && decide (v = r)
        | _ => false) = some (.keyReq n r k c t i) → (kpl b n k).en = true → (kpl b n k).tenant ≠ t →
      (prt b r).online = true → (prt b r).inReset = false →
    Takes (.keyRequestArrival n r) p q b fun d =>
      d.out = b.out ++ [.key r (keyRec 2 0x0F 0 n k 0 0 (kpl b n k).tenant r)] ∧ Only [.cnt, .xbar, .out] b d) ∧
  (∀ p q b n k s m tag g l, wardUp p b (portWard p n) → xfind b (fun x => match x with
        | .keyRet u v j _ _ => decide (u = n) && decide (v = k) && decide (j = s)
        | _ => false) = some (.keyRet n k s m tag) → (kpl b n k).grants = g :: l → g.gseq = s → g.returned = false →
      (∀ x ∈ l, x.gseq ≠ s ∧ x.returned = false) → (kpl b n k).waiting = [] →
    Takes (.keyReturn n k s) p q b fun d =>
      kpl d n k = { kpl b n k with
        grants := l, tail := (g.off + g.count) % max 1 (kpl b n k).size, free := (kpl b n k).free + g.count }
      ∧ OnlyKPool (n * 16 + k) b d) ∧
  (∀ p q b n k i x, wardUp p b (portWard p n) → (kpl b n k).waiting[i]? = some x → rdf p b (wA (portWard p n) 0 0x0D8) 0 16 ≠ 0 →
      x.since + rdf p b (wA (portWard p n) 0 0x0D8) 0 16 * 128 ≤ b.clk.fclk → i ≠ 0 → (kpl b n k).free < (((kpl b n k).waiting.map KReq.count)[0]?).getD 0 →
    Takes (.keyTimeout n k i) p q b fun d =>
      kpl d n k = { kpl b n k with waiting := (kpl b n k).waiting.eraseIdx i } ∧ OnlyKPool (n * 16 + k) b d
      ∧ Tbl.get 0 d.log.cnt 0x0A = satAdd (2 ^ 32 - 1) (Tbl.get 0 b.log.cnt 0x0A) 1)

/-! ## Federation (chapter 9) -/

/-- Hinges (R259 to R261, R271 to R273, R276). A HELLO of the configured peer makes a trained Hinge ACTIVE with 1,024
and 256 credits, and after a REARM makes the instances behind it reachable again; another one only raises its
interrupt. A retraining Hinge is in HOLD, is ACTIVE again when its link returns in HOLD_MAX, and DOWN after it; a link
error takes it DOWN. The DOWN event ends its credits, marks what lay behind it unreachable at every Ward and is logged
0x10. Returned credits are added up to what the lane has. A CONF drops the items it confirms, and the owner of one is
owed one less. CONF is sent after 64 items or 128 cycles, and not with nothing to confirm. A stall request is
acknowledged. No other Hinge changes where one is named. -/
def Obligations.HingeStatesAndLanes : Prop :=
  (∀ p q b h, hingeUp p b h → (hng b h).state = .train → (hng b h).linkUp = true → b.boot.lock = true → fedOn p b → (hng b h).helloTx = true →
      (hng b h).txq = [] → (hng b h).rearmed = false →
    Takes (.helloReceived h (peerInst p b h)) p q b fun d =>
      hng d h = { hng b h with
        helloRx := true, state := .active, credO := 1024, credA := 256, retO := 0, retA := 0, rxO := 1024, rxA := 256
        txSeq := 0, rxSeq := 0, lastConf := 0, stall := false, lastTs := b.clk.fclk } ∧ OnlyHinge h b d ∧ Only [.hg] b d) ∧
  (∀ p q b h i, hingeUp p b h → (hng b h).state = .train → (hng b h).linkUp = true → b.boot.lock = true → fedOn p b → i ≠ peerInst p b h →
    Takes (.helloReceived h i) p q b fun d => hng d h = hng b h ∧ bitAt (rd p d (hIrq h)) 1 = true ∧ Only [.regs, .out] b d) ∧
  (∀ p q b h, hingeUp p b h → (hng b h).state = .active → Takes (.retrainNotification h) p q b fun d =>
    hng d h = { hng b h with
      state := .hold, holdAt := b.clk.fclk, badRun := if bitAt (rd p b (hA h 0x04C)) 31 then 8 else (hng b h).badRun } ∧ OnlyHinge h b d ∧ Only [.hg, .cnt] b d) ∧
  (∀ p q b h, hingeUp p b h → (hng b h).state = .hold → b.clk.fclk ≤ (hng b h).holdAt + holdMax p b h → (hng b h).txq = [] →
    Takes (.linkActiveAgain h) p q b fun d =>
      hng d h = { hng b h with state := .active, stall := false } ∧ OnlyHinge h b d ∧ Only [.hg] b d) ∧
  (∀ p q b h, hingeUp p b h → (hng b h).state = .hold → (hng b h).holdAt + holdMax p b h < b.clk.fclk → Takes (.holdMaxExpiry h) p q b fun d =>
    (hng d h).state = .down ∧ (hng d h).leftState = .hold ∧ (hng d h).downPend = true ∧ (hng d h).heldItems = (hng b h).heldItems
    ∧ OnlyHinge h b d ∧ Only [.hg] b d) ∧
  (∀ p q b h, hingeUp p b h → (hng b h).state ≠ .down → Takes (.linkError h) p q b fun d =>
    (hng d h).state = .down ∧ (hng d h).leftState = (hng b h).state ∧ (hng d h).downPend = true ∧ (hng d h).txq = (hng b h).txq
    ∧ OnlyHinge h b d ∧ Only [.hg] b d) ∧
  (∀ p q b h, hingeUp p b h → (hng b h).state = .down → (hng b h).downPend = true → (hng b h).heldItems = [] → (hng b h).txq = [] →
      (∀ k, k < p.nh → k ≠ h → (hng b k).state ≠ .active) →
    Takes (.hingeDownEvent h) p q b fun d =>
      (hng d h).downPend = false ∧ (hng d h).credO = 0 ∧ (hng d h).credA = 0 ∧ d.unreach = b.unreach ||| viaHinge b h
      ∧ (∀ w, w < p.nw → fenced b w = false → .unreach w (viaHinge b h) ∈ d.xbar)
      ∧ Tbl.get 0 d.log.cnt 0x10 = satAdd (2 ^ 32 - 1) (Tbl.get 0 b.log.cnt 0x10) 1 ∧ bitAt (rd p d (hIrq h)) 2 = true) ∧
  (∀ p q b h o a, hingeUp p b h → (hng b h).state = .active → (hng b h).txq = [] → Takes (.hingeCreditReturn h o a) p q b fun d =>
    hng d h = { hng b h with credO := min 1024 ((hng b h).credO + o), credA := min 256 ((hng b h).credA + a) } ∧ OnlyHinge h b d
    ∧ Only [.hg] b d) ∧
  (∀ p q b h n, hingeUp p b h → (hng b h).txq = [] → beyondCredit (hng b h) 1 false = false → (∀ x ∈ (hng b h).heldItems, x.2.2 = none) →
    Takes (.confReceived h n) p q b fun d =>
    (hng d h).heldItems = (hng b h).heldItems.filter (fun x => n ≤ x.1) ∧ (hng d h).retA = (hng b h).retA + 1 ∧ OnlyHinge h b d
    ∧ Only [.hg, .cnt] b d) ∧
  (∀ p q b h n k it e, hingeUp p b h → (hng b h).txq = [] → beyondCredit (hng b h) 1 false = false → (hng b h).heldItems = [(k, it, some e)] → k < n → it.kind = 0x01 →
    Takes (.confReceived h n) p q b fun d =>
      (hng d h).heldItems = [] ∧ ent d e = { ent b e with owed := (ent b e).owed - 1 } ∧ OnlyEnt e b d ∧ Only [.ents, .hg, .cnt] b d) ∧
  (∀ p q b h, hingeUp p b h → (hng b h).state = .active → (hng b h).rxSeq ≠ (hng b h).lastConf →
      (hng b h).lastConf + 64 ≤ (hng b h).rxSeq ∨ (hng b h).rxSince + 128 ≤ b.clk.fclk →
    Takes (.confSend h) p q b fun d =>
      (hng d h).lastConf = (hng b h).rxSeq ∧ (hng d h).rxSeq = (hng b h).rxSeq ∧ OnlyHinge h b d ∧ Only [.hg, .cnt, .out] b d) ∧
  (∀ p q b h, hingeUp p b h → (hng b h).state = .active → (hng b h).rxSeq = (hng b h).lastConf → Takes (.confSend h) p q b fun d => d = b) ∧
  (∀ p q b h, hingeUp p b h → (hng b h).state = .active → Takes (.stallRequest h) p q b fun d =>
    hng d h = { hng b h with stall := true } ∧ d.out = b.out ++ [.stallAck h] ∧ OnlyHinge h b d ∧ Only [.hg, .out] b d) ∧
  (∀ p q b h, hingeUp p b h → (hng b h).state = .train → (hng b h).linkUp = true → b.boot.lock = true → fedOn p b → (hng b h).helloTx = true →
      (hng b h).rearmed = true → (hng b h).downPend = false →
    Takes (.helloReceived h (peerInst p b h)) p q b fun d =>
      (hng d h).state = .active ∧ (hng d h).rearmed = false ∧ d.unreach = b.unreach &&& ~~~viaHinge b h)

/-- Time (R267 to R269, R271, R272, R370). A due timestamp is sent on an ACTIVE Hinge. The first sample of an unlocked
Hinge locks: a correction that is not negative steps the timestamp forward, a negative one holds it for that many
tclk. A sample inside the gate of a locked one becomes the pending correction; one outside it is counted an outlier
and changes no clock. A pending correction is slewed by one tick each 31 fclk. A hold ends. After 8 outliers in a row
the timestamp is LOST with its interrupt. When the Hinge with UP retrains, is held too long or fails, the timestamp is
about to be LOST, and no clock changes; its link back in time, it goes on as it was. A stalled Hinge sends no item. -/
def Obligations.FederationTime : Prop :=
  (∀ p q b h, hingeUp p b h → (hng b h).state = .active → (hng b h).stall = false → (hng b h).lastTs + tsPeriod p b h ≤ b.clk.fclk →
      (hng b h).retO = 0 → (hng b h).retA = 0 →
    Takes (.tsFlitSend h) p q b fun d =>
      hng d h = { hng b h with lastTs := b.clk.fclk } ∧ d.out = b.out ++ [.flit h (hingePayload 0 0 none (some b.clk.ts) [])] ∧ OnlyHinge h b d ∧ Only [.hg, .out] b d) ∧
  (∀ p q b h t, hingeUp p b h → bitAt (rd p b (hA h 0x04C)) 31 = true → (hng b h).state = .active → bitAt (rd p b (kA 6 0x040)) 14 = false →
      (hng b h).locked = false → 0 ≤ tsCorr p b h t →
    Takes (.tsSample h t) p q b fun d =>
      d.clk = { b.clk with ts := b.clk.ts + BitVec.ofInt 64 (tsCorr p b h t) }
      ∧ hng d h = { hng b h with corr := tsCorr p b h t, locked := true, badRun := 0 } ∧ OnlyHinge h b d ∧ Only [.clk, .gov, .hg] b d) ∧
  (∀ p q b h t, hingeUp p b h → bitAt (rd p b (hA h 0x04C)) 31 = true → (hng b h).state = .active → bitAt (rd p b (kA 6 0x040)) 14 = false →
      (hng b h).locked = false → tsCorr p b h t < 0 →
    Takes (.tsSample h t) p q b fun d =>
      d.clk = { b.clk with hold := b.clk.fclk + 2 * (tsCorr p b h t).natAbs } ∧ (hng d h).locked = true ∧ OnlyHinge h b d
      ∧ d.gov = { b.gov with stepped := true } ∧ Only [.clk, .gov, .hg] b d) ∧
  (∀ p q b h t, hingeUp p b h → bitAt (rd p b (hA h 0x04C)) 31 = true → (hng b h).state = .active → bitAt (rd p b (kA 6 0x040)) 14 = false →
      (hng b h).locked = true → (hng b h).lost = false → (tsCorr p b h t).natAbs ≤ rdf p b (hA h 0x04C) 0 8 →
    Takes (.tsSample h t) p q b fun d =>
      d.clk = { b.clk with pend := tsCorr p b h t } ∧ hng d h = { hng b h with corr := tsCorr p b h t, badRun := 0 } ∧ OnlyHinge h b d
      ∧ Only [.clk, .hg] b d) ∧
  (∀ p q b h t, hingeUp p b h → bitAt (rd p b (hA h 0x04C)) 31 = true → (hng b h).state = .active → bitAt (rd p b (kA 6 0x040)) 14 = false →
      (hng b h).locked = true → rdf p b (hA h 0x04C) 0 8 < (tsCorr p b h t).natAbs →
    Takes (.tsSample h t) p q b fun d =>
      hng d h = { hng b h with
        corr := tsCorr p b h t, outlier := satAdd 0xFFFF (hng b h).outlier 1, badRun := min 8 ((hng b h).badRun + 1) }
      ∧ OnlyHinge h b d ∧ Only [.hg] b d) ∧
  (∀ p q b, keeperUp b → b.clk.fclk % 2 = 0 → 0 < b.clk.pend → b.clk.hold = 0 → b.clk.lastSlew + 31 ≤ b.clk.fclk → (b.clk.ts.toNat + 1) % 80 ≠ 0 →
    Takes .tsSlewStep p q b fun d =>
      d.clk = { b.clk with ts := b.clk.ts + 2, pend := b.clk.pend - 1, lastSlew := b.clk.fclk + 1 } ∧ Only [.clk] b d) ∧
  (∀ p q b, keeperUp b → b.clk.fclk % 2 = 0 → b.clk.pend < 0 → b.clk.hold = 0 → b.clk.lastSlew + 31 ≤ b.clk.fclk →
    Takes .tsSlewStep p q b fun d =>
      d.clk = { b.clk with pend := b.clk.pend + 1, lastSlew := b.clk.fclk + 1 } ∧ Only [.clk] b d) ∧
  (∀ p q b, keeperUp b → b.clk.hold ≠ 0 → b.clk.hold ≤ b.clk.fclk → Takes .tsHoldEnd p q b fun d =>
    d.clk = { b.clk with hold := 0 } ∧ Only [.clk] b d) ∧
  (∀ p q b h, hingeUp p b h → 8 ≤ (hng b h).badRun → (hng b h).lost = false → Takes (.tsLost h) p q b fun d =>
    hng d h = { hng b h with lost := true, badRun := 0 } ∧ bitAt (rd p d (hIrq h)) 3 = true ∧ OnlyHinge h b d ∧ Only [.regs, .hg, .out] b d) ∧
  (∀ p q b h, hingeUp p b h → (hng b h).state = .active → bitAt (rd p b (hA h 0x04C)) 31 = true → Takes (.retrainNotification h) p q b fun d =>
    (hng d h).state = .hold ∧ (hng d h).badRun = 8 ∧ (hng d h).locked = (hng b h).locked ∧ d.clk = b.clk ∧ OnlyHinge h b d) ∧
  (∀ p q b h, hingeUp p b h → (hng b h).state = .hold → b.clk.fclk ≤ (hng b h).holdAt + holdMax p b h → Takes (.linkActiveAgain h) p q b fun d =>
    (hng d h).state = .active ∧ (hng d h).locked = (hng b h).locked ∧ (hng d h).lastTs = (hng b h).lastTs ∧ d.clk = b.clk
    ∧ OnlyHinge h b d) ∧
  (∀ p q b h, hingeUp p b h → (hng b h).state = .hold → (hng b h).holdAt + holdMax p b h < b.clk.fclk →
      bitAt (rd p b (hA h 0x04C)) 31 = true →
    Takes (.holdMaxExpiry h) p q b fun d =>
      (hng d h).badRun = 8 ∧ (hng d h).locked = (hng b h).locked ∧ d.clk = b.clk ∧ OnlyHinge h b d ∧ Only [.hg] b d) ∧
  (∀ p q b h, hingeUp p b h → (hng b h).state = .active ∨ (hng b h).state = .hold → bitAt (rd p b (hA h 0x04C)) 31 = true →
    Takes (.linkError h) p q b fun d =>
      (hng d h).badRun = 8 ∧ (hng d h).locked = (hng b h).locked ∧ d.clk = b.clk ∧ OnlyHinge h b d ∧ Only [.hg] b d) ∧
  (∀ p q b h, hingeUp p b h → (hng b h).state = .active → Takes (.stallRequest h) p q b fun d =>
    (hng d h).stall = true ∧ nextItem (hng d h) = none ∧ (hng d h).lastTs = (hng b h).lastTs ∧ d.clk = b.clk ∧ OnlyHinge h b d
    ∧ Only [.hg, .out] b d)

/-- Remote segments (R253). A reservation that fits is kept with one entry for each record; one that does not fit now
reserves nothing. At the origin the last answer leads to pass 3, an earlier one fills its handles in, a refusal stops
the walk with its status, RETRY waits for the retry time, after which the ring joins the entry queue. A link item adds
a successor to its entry. Abandoning a reservation frees its unsealed entry. No other ring or entry changes where one
is named. -/
def Obligations.RemoteSegments : Prop :=
  (∀ p q b h r, hingeUp p b h → beyondCredit (hng b h) ((reserveSizes r).headD 0) true = false → (ten b r.tenant).en = true → farStatus p b r = 0 → neverFits b r.tenant (farSeg p b r) = false →
      quotaOk b r.tenant (farSeg p b r) → fitsNow b (farSeg p b r) →
    Takes (.remoteReserve h r) p q b fun d =>
      ∃ g, d.remSegs = b.remSegs.filter (fun g => !(decide (g.inst = r.inst) && decide (g.bank = r.bank))) ++ [g]
        ∧ g.inst = r.inst ∧ g.bank = r.bank ∧ g.ring = r.ring ∧ g.handles.length = r.recs.length) ∧
  (∀ p q b h r, hingeUp p b h → beyondCredit (hng b h) ((reserveSizes r).headD 0) true = false → farStatus p b r = 0 → neverFits b r.tenant (farSeg p b r) = false →
      (quotaOk b r.tenant (farSeg p b r) && fitsNow b (farSeg p b r)) = false →
    Takes (.remoteReserve h r) p q b fun d => Only [.cnt, .hg, .out] b d) ∧
  (∀ p q b r v l g, keeperUp b → v.hinge < p.nh → beyondCredit (hng b v.hinge) 1 false = false →
      (rng b r).walk.mode = .remote → Tbl.get none b.segs r = some g → g.awaiting = [v.inst] →
    Takes (.hndAnswer r v (.ok l)) p q b fun d => (rng d r).walk.mode = .pass3 ∧ OnlyRing r b d) ∧
  (∀ p q b r v l g k, keeperUp b → v.hinge < p.nh → beyondCredit (hng b v.hinge) 1 false = false →
      (rng b r).walk.mode = .remote → Tbl.get none b.segs r = some g → g.awaiting = v.inst :: k → k ≠ [] →
    Takes (.hndAnswer r v (.ok l)) p q b fun d =>
      Tbl.get none d.segs r = some { g with awaiting := k, handles := l.foldl (fun hs x => hs.set x.1 x.2) g.handles }
      ∧ rng d r = rng b r ∧ Only [.cnt, .segs, .hg] b d) ∧
  (∀ p q b r v st g, keeperUp b → v.hinge < p.nh → beyondCredit (hng b v.hinge) 1 false = false →
      (rng b r).walk.mode = .remote → Tbl.get none b.segs r = some g → v.inst ∈ g.awaiting →
    Takes (.hndAnswer r v (.refused st)) p q b fun d =>
      (rng d r).walk.mode = .stopped ∧ Tbl.get none d.segs r = none ∧ .cmdFault r (rng b r).walk.subid st ∈ d.xbar ∧ OnlyRing r b d) ∧
  (∀ p q b r v g, keeperUp b → v.hinge < p.nh → beyondCredit (hng b v.hinge) 1 false = false →
      (rng b r).walk.mode = .remote → Tbl.get none b.segs r = some g → v.inst ∈ g.awaiting →
    Takes (.hndAnswer r v .retry) p q b fun d =>
      (rng d r).walk.mode = .retry (b.clk.fclk + rdf p b (kA 6 0x040) 16 16) ∧ OnlyRing r b d ∧ Only [.cnt, .segs, .rings, .hg, .out] b d) ∧
  (∀ p q b r t, keeperUp b → (rng b r).walk.mode = .retry t → t ≤ b.clk.fclk → walking b r → Takes (.remoteRetryExpiry r) p q b fun d =>
    rng d r = { rng b r with walk := { (rng b r).walk with mode := .entq } } ∧ d.entq = b.entq ++ [r] ∧ OnlyRing r b d
    ∧ Only [.rings, .entq] b d) ∧
  (∀ p q b v k n w g h, keeperUp b → v.hinge < p.nh → beyondCredit (hng b v.hinge) 1 true = false →
      b.remSegs.find? (fun g => g.inst = v.inst ∧ g.bank = k) = some g → g.handles.find? (fun x => x.1 = n) = some (n, h) →
      spillBase p b (homeOf h) = 0 → (ent b h).spilled = false →
    Takes (.linkItem v k n w) p q b fun d => ent d h = { ent b h with succ := (ent b h).succ ++ [w] } ∧ OnlyEnt h b d ∧ Only [.cnt, .ents, .hg] b d) ∧
  (∀ p q b v k g n h, keeperUp b → v.hinge < p.nh → beyondCredit (hng b v.hinge) 1 true = false →
      b.remSegs.find? (fun g => g.inst = v.inst ∧ g.bank = k) = some g → g.handles = [(n, h)] →
      (ent b h).st = .pending → (ent b h).isSealed = false →
    Takes (.xctlAbandon v k) p q b fun d =>
      d.remSegs = b.remSegs.erase g ∧ (ent d h).st = .free ∧ OnlyEnt h b d ∧ Only [.cnt, .ents, .wq, .hg, .fedt, .remSegs] b d)

/-- Items (R249 to R251, R255, R259, R260, R263 to R265, R273 to R275). An item for another instance goes on by its
route with one hop more; slots that spell no item, or that come beyond credit, take the Hinge DOWN; one for this
instance is not forwarded (no effect, log entry 2). SETL counts its remote entry as settled with its failure. HOP
signals, resets, waits on and leaves the hasp. HREL releases its port's waiter. CHC opens the far end of a channel,
closes a channel and tears a contribution, which is void where none is open. UNRCH of instances reached through its
Hinge is passed to every Ward, and taken back likewise. A Ward that is told drops the imports, the remote entries and
the reservations of those instances. A Hinge that has exchanged HELLO may place an item; credits that come back place
the item that waits for them; a CONF drops the headers it confirms; a CONF that is due takes one answer credit and one
flit; after the DOWN event of a Hinge no instance is reachable through it. -/
def Obligations.ItemsAndReachability : Prop :=
  (∀ p q b h l it k, hingeUp p b h → spellItem l = some it → it.dinst ≠ ownInst p b → it.hops < 6 → rte b it.dinst = ⟨true, k⟩ →
      beyondCredit (hng b h) (itemSlots it) (orderedItem it) = false → k ≠ h → (hng b k).state = .hold →
    Takes (.itemForward h l) p q b fun d =>
      (hng d k).txq = (hng b k).txq ++ [({ it with hops := it.hops + 1 }, none)] ∧ (hng d h).txq = (hng b h).txq
      ∧ (if orderedItem it then (hng d h).retO = (hng b h).retO + itemSlots it else (hng d h).retA = (hng b h).retA + itemSlots it)
      ∧ Only [.cnt, .hg] b d) ∧
  (∀ p q b h l, hingeUp p b h → spellItem l = none → (hng b h).state ≠ .down →
    Takes (.itemForward h l) p q b fun d => (hng d h).state = .down ∧ (hng d h).downPend = true ∧ OnlyHinge h b d ∧ Only [.hg] b d) ∧
  (∀ p q b h l it, hingeUp p b h → spellItem l = some it → it.dinst ≠ ownInst p b →
      beyondCredit (hng b h) (itemSlots it) (orderedItem it) = true →
    Takes (.itemForward h l) p q b fun d => (hng d h).state = .down ∧ (hng d h).downPend = true ∧ OnlyHinge h b d ∧ Only [.hg] b d) ∧
  (∀ p q b h l it, hingeUp p b h → spellItem l = some it → it.dinst = ownInst p b →
    Takes (.itemForward h l) p q b fun d => d = b) ∧
  (∀ p q b v r w st o s, keeperUp b → v.hinge < p.nh → beyondCredit (hng b v.hinge) 1 true = false →
      (fedOf b (rHome (rng b r))).roster.find? (fun o => o.word = w ∧ o.ring = r) = some o → o.step = none →
      o.discard = false → subOf b r o.subid = some s → 1 < s.unsettled → st ≠ 0 → st ≠ 0x04 → (rng b r).steps = [] → (rng b r).pre = .run →
    Takes (.setlItem v r w st) p q b fun d =>
      (fedOf d (rHome (rng b r))).roster = (fedOf b (rHome (rng b r))).roster.erase o
      ∧ subOf d r o.subid = some { s with unsettled := s.unsettled - 1, nfail := s.nfail + 1, firstFail := some (s.firstFail.getD st) }
      ∧ OnlyRing r b d) ∧
  (∀ p q b (i : Via) h v g, keeperUp b → i.hinge < p.nh → beyondCredit (hng b i.hinge) 1 true = false →
      (ten b i.tenant).en = true → haspCheck b h i.tenant = 0 → (hsp b h).count.toNat + v.toNat < 2 ^ 32 →
    Takes (.hopItem i.origin i.tenant h .signal v g) p q b fun d => hsp d h = { hsp b h with count := (hsp b h).count + v } ∧ OnlyHasp h b d) ∧
  (∀ p q b (i : Via) h v g, keeperUp b → i.hinge < p.nh → beyondCredit (hng b i.hinge) 1 true = false →
      (ten b i.tenant).en = true → haspCheck b h i.tenant = 0 → Takes (.hopItem i.origin i.tenant h .reset v g) p q b fun d =>
    hsp d h = { hsp b h with count := 0 } ∧ OnlyHasp h b d) ∧
  (∀ p q b (i : Via) h v g, keeperUp b → i.hinge < p.nh → beyondCredit (hng b i.hinge) 1 true = false →
      (ten b i.tenant).en = true → haspCheck b h i.tenant = 0 →
      b.waits.countP (fun x => match x.who with | .remote _ _ => true | _ => false) < 1024 →
    Takes (.hopItem i.origin i.tenant h .wait v g) p q b fun d =>
      d.waits = b.waits ++ [⟨.remote i.inst g, h, v, nextSeq b, false⟩] ∧ d.hasps = b.hasps) ∧
  (∀ p q b (i : Via) h v g, keeperUp b → i.hinge < p.nh → beyondCredit (hng b i.hinge) 1 true = false →
      (ten b i.tenant).en = true → Takes (.hopItem i.origin i.tenant h .waitRemove v g) p q b fun d =>
    d.waits = b.waits.filter (fun x => !(decide (x.who = .remote i.inst g) && decide (x.hasp = h))) ∧ Only [.cnt, .waits, .hg] b d) ∧
  (∀ p q b h g k i, keeperUp b → h < p.nh → beyondCredit (hng b h) 1 true = false → g.getLsbD 31 = false → (prt b (fld g 0 12)).wait = some k → k.inst = some i → tagPort (fld g 0 12) (waitKey k) = g →
    Takes (.hrelItem (h, g)) p q b fun d => .rel (fld g 0 12) k.handle k.gen ∈ d.xbar ∧ d.ports = b.ports) ∧
  (∀ p q b (i : Via) c e n x, keeperUp b → i.hinge < p.nh → beyondCredit (hng b i.hinge) 1 true = false →
      (ten b i.tenant).en = true → farEnd p b e = some x → endOwned p b i.tenant x → recsFree p b (farChan p i.inst i.tenant x) →
    Takes (.chcItem i.origin i.tenant .openCh c e n) p q b fun d =>
      d.rchans = b.rchans.filter (fun x => !(decide (x.1 = i.inst) && decide (x.2.1 = c))) ++ [(i.inst, c, farChan p i.inst i.tenant x)] ∧ d.chans = b.chans) ∧
  (∀ p q b (i : Via) c n k j, keeperUp b → i.hinge < p.nh → beyondCredit (hng b i.hinge) 1 true = false →
      (ten b i.tenant).en = true → chn b c = some k → k.rx = .remote i.inst j → k.closing = false →
    Takes (.chcItem i.origin i.tenant .close c 1 n) p q b fun d =>
      chn d c = some { k with closing := true } ∧ .close ⟨none, c⟩ .directory none ∈ d.xbar ∧ OnlyChan c b d) ∧
  (∀ p q b (i : Via) c e n, keeperUp b → i.hinge < p.nh → beyondCredit (hng b i.hinge) 1 true = false →
      (ten b i.tenant).en = true → wardUp p b (c / 64 % 64) →
      (∀ o ∈ (cqu b (c / 64 % 64) (c % 64)).openC, o.inst ≠ some i.inst ∨ o.port ≠ n) →
    Takes (.chcItem i.origin i.tenant .tear c e n) p q b fun d =>
      Tbl.get 0 d.cnt (wc32 (c / 64 % 64) 0) = satAdd (2 ^ 32 - 1) (Tbl.get 0 b.cnt (wc32 (c / 64 % 64) 0)) 1 ∧ Only [.cnt, .hg] b d) ∧
  (∀ p q b (i : Via) c e n h, keeperUp b → i.hinge < p.nh → beyondCredit (hng b i.hinge) 1 true = false →
      (ten b i.tenant).en = true → wardUp p b (c / 64 % 64) → cqLive b (cqu b (c / 64 % 64) (c % 64)) →
      (cqu b (c / 64 % 64) (c % 64)).gen % 16 = c / 4096 % 16 → (cqu b (c / 64 % 64) (c % 64)).failed = false →
      (∃ o ∈ (cqu b (c / 64 % 64) (c % 64)).openC, o.inst = some i.inst ∧ o.port = n) → h = (cqu b (c / 64 % 64) (c % 64)).entry →
    Takes (.chcItem i.origin i.tenant .tear c e n) p q b fun d => (ent d h).st = .failed ∧ (ent d h).status = 0x09) ∧
  (∀ p q b h m, hingeUp p b h → beyondCredit (hng b h) 1 true = false → m &&& viaHinge b h &&& ~~~b.unreach = 0 → Takes (.unrchItem h m false) p q b fun d =>
    d.unreach = b.unreach ∧ Only [.cnt, .hg] b d) ∧
  (∀ p q b h m, hingeUp p b h → beyondCredit (hng b h) 1 true = false → m &&& viaHinge b h &&& ~~~b.unreach ≠ 0 → Takes (.unrchItem h m false) p q b fun d =>
    d.unreach = b.unreach ||| (m &&& viaHinge b h &&& ~~~b.unreach)
    ∧ (∀ w, w < p.nw → fenced b w = false → .unreach w (m &&& viaHinge b h &&& ~~~b.unreach) ∈ d.xbar)) ∧
  (∀ p q b h m, hingeUp p b h → beyondCredit (hng b h) 1 true = false → m &&& viaHinge b h &&& b.unreach ≠ 0 → Takes (.unrchItem h m true) p q b fun d =>
    d.unreach = b.unreach &&& ~~~(m &&& viaHinge b h &&& b.unreach) ∧ d.xbar = b.xbar) ∧
  (∀ p q b w m, wardUp p b w → xfind b (isUnreach w m) = some (.unreach w m) → Takes (.unreachableNotice w m) p q b fun d =>
    (∀ x ∈ (fedOf d w).imports, m.getLsbD x.2.1 → x.2.2 = 0) ∧ (∀ o ∈ (fedOf d w).roster, m.getLsbD (fld o.word 17 6) = false)
    ∧ (∀ g ∈ d.remSegs, m.getLsbD g.inst = false)) ∧
  (∀ p q b h it, hingeUp p b h → (hng b h).state = .train → (hng b h).linkUp = true → b.boot.lock = true → fedOn p b → (hng b h).helloTx = true →
      (hng b h).rearmed = false → (hng b h).downPend = false → (hng b h).txq = [] → (hng b h).heldItems.length < 1024 → itemSlots it ≤ 256 →
    Takes (.helloReceived h (peerInst p b h)) p q b fun d => mayPlace (hng d h) it = true ∧ d.unreach = b.unreach ∧ OnlyHinge h b d) ∧
  (∀ p q b h o a it w, hingeUp p b h → (hng b h).state = .active → (hng b h).stall = false → (hng b h).txq = [(it, w)] →
      (hng b h).heldItems.length < 1024 → itemSlots it ≤ (if orderedItem it then min 1024 ((hng b h).credO + o) else min 256 ((hng b h).credA + a)) →
    Takes (.hingeCreditReturn h o a) p q b fun d =>
      (hng d h).txq = []
      ∧ (hng d h).heldItems = (hng b h).heldItems ++ (if orderedItem it then [((hng b h).txSeq, it, w)] else [])
      ∧ d.out.length = b.out.length + (itemSlots it + 13) / 14 ∧ OnlyHinge h b d) ∧
  (∀ p q b h n, hingeUp p b h → (hng b h).txq = [] → beyondCredit (hng b h) 1 false = false → Takes (.confReceived h n) p q b fun d =>
    (hng d h).heldItems = (hng b h).heldItems.filter (fun x => n ≤ x.1) ∧ d.unreach = b.unreach ∧ d.out = b.out) ∧
  (∀ p q b h, hingeUp p b h → (hng b h).state = .active → (hng b h).stall = false → (hng b h).txq = [] → 0 < (hng b h).credA →
      (hng b h).rxSeq ≠ (hng b h).lastConf →
      (hng b h).lastConf + 64 ≤ (hng b h).rxSeq ∨ (hng b h).rxSince + 128 ≤ b.clk.fclk →
    Takes (.confSend h) p q b fun d =>
      (hng d h).credA = (hng b h).credA - 1 ∧ (hng d h).credO = (hng b h).credO ∧ (hng d h).txq = []
      ∧ d.out.length = b.out.length + 1 ∧ OnlyHinge h b d) ∧
  (∀ p q b h i, hingeUp p b h → (hng b h).downPend = true → i < 64 → rte b i = ⟨true, h⟩ → Takes (.hingeDownEvent h) p q b fun d =>
    reachable p d i = false ∧ d.routes = b.routes)

/-! ## Faults, the deadbolt and the error log (chapter 10) -/

/-- Memory errors (R283 to R285, R288, R289). The patrol reads the next word of a table, notes the time and moves on, to the
first word after the last; before its time, and at a unit without a patrol, nothing is read (log entry 2). A word that is
corrected, by the patrol or by an ordinary read, is counted, and is a hard word from its threshold on; a clean word read in
the ordinary way changes nothing. An uncorrectable word of a slot makes it unusable, of an accumulator marks the cell bad, of
a governor domain marks it bad, of a Hinge takes it DOWN, each logged 0x05 where the statement says so. A unit sends its
oldest buffered record with the count of those lost. The error log takes the oldest record sent while it has room; full, it
keeps it to the end of the cycle; failed, the record goes to a last-resort register. With nothing sent nothing happens. -/
def Obligations.MemoryErrorsAndLog : Prop :=
  (∀ p q b u t e, unitUp p b u → patrols u → Tbl.get 0 b.ecc.lastScrub (unitNo u) = 0
        ∨ Tbl.get 0 b.ecc.lastScrub (unitNo u) + scrubGap p b u ≤ b.clk.fclk + 1 → Tbl.get 0 b.ecc.next (unitNo u * 256 + t % 256) ≠ 0 →
    Takes (.scrubRead u t (.patrol e) false) p q b fun d =>
      d.ecc = { b.ecc with
        lastScrub := Tbl.set 0 b.ecc.lastScrub (unitNo u) (b.clk.fclk + 1)
        next := Tbl.set 0 b.ecc.next (unitNo u * 256 + t % 256)
          (if e then 0 else Tbl.get 0 b.ecc.next (unitNo u * 256 + t % 256) + 1) } ∧ Only [.ecc] b d) ∧
  (∀ p q b u t i, unitUp p b u → Takes (.scrubRead u t (.ordinary i) false) p q b fun d => d = b) ∧
  (∀ p q b u t i, unitUp p b u → Takes (.scrubRead u t (.ordinary i) true) p q b fun d =>
    Tbl.get 0 d.ecc.ce (eccKey u t i) = Tbl.get 0 b.ecc.ce (eccKey u t i) + 1
    ∧ (eccKey u t i ∈ d.ecc.hard ↔ eccKey u t i ∈ b.ecc.hard ∨ rd1 p b (kA 0 0x064) 0 8 ≤ Tbl.get 0 b.ecc.ce (eccKey u t i) + 1)
    ∧ Only [.regs, .cnt, .mq, .log, .ecc, .trace, .out] b d) ∧
  (∀ p q b u t e c, unitUp p b u → patrols u = false ∨ (Tbl.get 0 b.ecc.lastScrub (unitNo u) ≠ 0
        ∧ b.clk.fclk + 1 < Tbl.get 0 b.ecc.lastScrub (unitNo u) + scrubGap p b u) →
    Takes (.scrubRead u t (.patrol e) c) p q b fun d => d = b) ∧
  (∀ p q b w i n, wardUp p b w → Takes (.uncorrectableWord (.ward w) 0x16 i n) p q b fun d =>
    slt d w n = { slt b w n with f := false, c := true, v := false }
    ∧ Tbl.get 0 d.log.cnt 0x05 = satAdd (2 ^ 32 - 1) (Tbl.get 0 b.log.cnt 0x05) 1 ∧ Only [.regs, .cnt, .slots, .log, .trace, .out] b d) ∧
  (∀ p q b w i n, wardUp p b w → n % 4096 < (cqu b w (n / 4096)).len → Takes (.uncorrectableWord (.ward w) 0x15 i n) p q b fun d =>
    (Tbl.get (initCell (cqu b w (n / 4096))) (cqu d w (n / 4096)).cells (n % 4096)).bad = true ∧ OnlyCQ (w * 64 + n / 4096) b d
    ∧ Only [.regs, .cnt, .cq, .log, .trace, .out] b d) ∧
  (∀ p q b i n, keeperUp b → n < 16 → Takes (.uncorrectableWord .keeper 0x04 i n) p q b fun d =>
    dmn d n = { dmn b n with bad := true } ∧ Tbl.get 0 d.log.cnt 0x05 = satAdd (2 ^ 32 - 1) (Tbl.get 0 b.log.cnt 0x05) 1
    ∧ Only [.regs, .cnt, .gov, .log, .trace, .out] b d) ∧
  (∀ p q b h t i, hingeUp p b h → (hng b h).state ≠ .down → Takes (.uncorrectableWord (.hinge h) t i 0) p q b fun d =>
    (hng d h).state = .down ∧ (hng d h).downPend = true ∧ OnlyHinge h b d ∧ Only [.regs, .cnt, .hg, .log, .trace, .out] b d) ∧
  (∀ p q b u x n l, keeperUp b → Tbl.get [] b.log.air (unitNo u) = (x, n) :: l → b.log.failed = false → b.log.recs.length < 1024 →
    Takes (.logRecordArrival u) p q b fun d =>
      d.log.recs = b.log.recs ++ [x] ∧ d.log.fresh = b.log.fresh + 1 ∧ Tbl.get [] d.log.air (unitNo u) = l ∧ d.log.buf = b.log.buf
      ∧ d.log.dropped = satAdd (2 ^ 32 - 1) b.log.dropped n ∧ Only [.regs, .cnt, .log, .trace, .out] b d) ∧
  (∀ p q b u x n l, keeperUp b → Tbl.get [] b.log.air (unitNo u) = (x, n) :: l → b.log.failed = false → 1024 ≤ b.log.recs.length →
    Takes (.logRecordArrival u) p q b fun d =>
      d.log.recs = b.log.recs ∧ d.log.late = b.log.late ++ [x] ∧ d.log.dropped = satAdd (2 ^ 32 - 1) b.log.dropped n
      ∧ Tbl.get [] d.log.air (unitNo u) = l) ∧
  (∀ p q b u x n l, keeperUp b → Tbl.get [] b.log.air (unitNo u) = (x, n) :: l → b.log.failed = true → b.log.lr.length < 4 →
    Takes (.logRecordArrival u) p q b fun d =>
      d.log.recs = b.log.recs ∧ d.log.lr = b.log.lr ++ [lrWord x] ∧ d.log.lrOvf = b.log.lrOvf) ∧
  (∀ p q b u, keeperUp b → Tbl.get [] b.log.air (unitNo u) = [] → Takes (.logRecordArrival u) p q b fun d => d = b) ∧
  (∀ n b x l, Tbl.get [] b.log.buf n = x :: l →
    Tbl.get [] (sendLog n b).log.buf n = l ∧ Tbl.get [] (sendLog n b).log.air n = Tbl.get [] b.log.air n ++ [(x, Tbl.get 0 b.log.lost n)]
    ∧ Tbl.get 0 (sendLog n b).log.lost n = 0 ∧ Only [.cnt, .log] b (sendLog n b))

/-- Sequencers and lanes (R280 to R282). A replay of a Ward or a Hinge is counted and changes nothing else. A Ward's
retransmission is counted, and the count of those of one transfer kept. A transfer bad for the third time in a row, and a word in which no two lanes agree, is the instance fault: the deadbolt
enters FAULT with its interrupt and log record. One lane that disagrees is counted for that lane. -/
def Obligations.SequencerFaults : Prop :=
  (∀ p q b w, wardUp p b w → Takes (.replay (.ward w)) p q b fun d =>
    Tbl.get 0 d.cnt (wc32 w 12) = satAdd (2 ^ 32 - 1) (Tbl.get 0 b.cnt (wc32 w 12)) 1 ∧ OnlyCnt (wc32 w 12) b d ∧ Only [.cnt] b d) ∧
  (∀ p q b h, hingeUp p b h → Takes (.replay (.hinge h)) p q b fun d =>
    Tbl.get 0 d.cnt (hc32 h 1) = satAdd (2 ^ 32 - 1) (Tbl.get 0 b.cnt (hc32 h 1)) 1 ∧ OnlyCnt (hc32 h 1) b d ∧ Only [.cnt] b d) ∧
  (∀ p q b w a, wardUp p b w → a = false ∨ Tbl.get 0 b.ecc.retry (1 + w) < 2 → Takes (.crossbarRetransmit (.ward w) a) p q b fun d =>
    Tbl.get 0 d.cnt (wc32 w 13) = satAdd (2 ^ 32 - 1) (Tbl.get 0 b.cnt (wc32 w 13)) 1 ∧ OnlyCnt (wc32 w 13) b d
    ∧ Tbl.get 0 d.ecc.retry (1 + w) = (if a then Tbl.get 0 b.ecc.retry (1 + w) + 1 else 1) ∧ Only [.cnt, .ecc] b d) ∧
  (∀ p q b u, unitUp p b u → 2 ≤ Tbl.get 0 b.ecc.retry (unitNo u) → b.dbolt.state ≠ .fault → Takes (.crossbarRetransmit u true) p q b fun d =>
    d.dbolt = { b.dbolt with
      state := .fault, instFault := true, drainAt := b.clk.fclk + 1, trigAt := none, drained := false
      quiesceDue := decide (b.dbolt.state = .run) }
    ∧ Tbl.get 0 d.ecc.retry (unitNo u) = 0 ∧ bitAt (rd p d kIrq) 8 = true
    ∧ Tbl.get 0 d.log.cnt 0x05 = satAdd (2 ^ 32 - 1) (Tbl.get 0 b.log.cnt 0x05) 1) ∧
  (∀ p q b m i, keeperUp b → bitsOf m 3 = [i] → b.boot.hard = none → b.boot.laneAt = [] → Takes (.tmrDisagreement m) p q b fun d =>
    d.boot = { b.boot with lane := b.boot.lane.set i (satAdd 1023 (b.boot.lane.getD i 0) 1), laneAt := [(i, b.clk.fclk)] }
    ∧ Only [.boot] b d) ∧
  (∀ p q b m, keeperUp b → 2 ≤ (bitsOf m 3).length → b.boot.hard = none → b.dbolt.state ≠ .fault → Takes (.tmrDisagreement m) p q b fun d =>
    d.dbolt.state = .fault ∧ d.dbolt.instFault = true ∧ bitAt (rd p d kIrq) 8 = true)

/-- The last-resort registers (R292). With the log failed and all four in use each further event, of the Keeper or of
another unit's buffer, adds 1 to OVF, which stops at 0xFFFF, and every event is counted by its status in KP_LOG_CNT.
LR_CTRL.CLEAR empties the four registers and OVF. LOG_CTRL.REINIT clears FAILED and empties the log into DROPPED. -/
def Obligations.LastResortRegisters : Prop :=
  (∀ p r b, Tbl.get 0 (logRec p r b).log.cnt r.status.toNat = satAdd (2 ^ 32 - 1) (Tbl.get 0 b.log.cnt r.status.toNat) 1) ∧
  (∀ p r b, r.src = .keeper → b.log.failed = true → b.log.lr.length = 4 →
    (logRec p r b).log.lrOvf = min 0xFFFF (b.log.lrOvf + 1) ∧ (logRec p r b).log.lr = b.log.lr ∧ (logRec p r b).log.recs = b.log.recs) ∧
  (∀ p q b u x n l, keeperUp b → Tbl.get [] b.log.air (unitNo u) = (x, n) :: l → b.log.failed = true → b.log.lr.length = 4 →
    Takes (.logRecordArrival u) p q b fun d =>
      d.log.lrOvf = min 0xFFFF (b.log.lrOvf + 1) ∧ d.log.lr = b.log.lr ∧ d.log.recs = b.log.recs) ∧
  (∀ p q b, mgtFree b → Takes .lrClear p q b fun d => d.log = { b.log with lr := [], lrOvf := 0 } ∧ Only [.mgt, .log] b d) ∧
  (∀ p q b, mgtFree b → tabReady b 0 → Takes .logReinit p q b fun d =>
    d.log = { b.log with
      failed := false, recs := [], late := [], fresh := 0
      dropped := satAdd (2 ^ 32 - 1) b.log.dropped (b.log.recs.length + b.log.late.length) }
    ∧ Only [.mgt, .log] b d)

/-- The deadbolt and hangs (R293 to R298). Two agreeing channels are the input; a disagreement that has lasted DISC_LIMIT
samples is a fault that counts as asserted and is logged 0x11, a shorter one only counts. An assertion in RUN starts
the drain with its interrupt. The drain ends QUIESCED 40 fclk after its trigger. A release returns to RUN, but not out
of FAULT. A ring without progress for the limit is reported HUNG. -/
def Obligations.DeadboltAndHang : Prop :=
  (∀ p q b a, keeperUp b → Takes (.deadboltSample a a) p q b fun d =>
    d.dbolt.input = (a || b.dbolt.discFault) ∧ d.dbolt.disagree = 0 ∧ d.dbolt.a = a ∧ d.dbolt.b = a ∧ d.dbolt.state = b.dbolt.state
    ∧ Only [.dbolt] b d) ∧
  (∀ p q b a, keeperUp b → b.dbolt.disagree + 1 = discLimit p b → Takes (.deadboltSample a (!a)) p q b fun d =>
    d.dbolt.discFault = true ∧ d.dbolt.input = true ∧ d.dbolt.disagree = b.dbolt.disagree + 1
    ∧ Tbl.get 0 d.log.cnt 0x11 = satAdd (2 ^ 32 - 1) (Tbl.get 0 b.log.cnt 0x11) 1) ∧
  (∀ p q b a, keeperUp b → b.dbolt.disagree + 1 ≠ discLimit p b → Takes (.deadboltSample a (!a)) p q b fun d =>
    d.dbolt = { b.dbolt with a := a, b := !a, disagree := b.dbolt.disagree + 1 } ∧ Only [.dbolt] b d) ∧
  (∀ p q b, keeperUp b → b.dbolt.input = true → b.dbolt.asserted = false → b.dbolt.state = .run → Takes .deadboltAssert p q b fun d =>
    d.dbolt = { b.dbolt with asserted := true, state := .drain, drainAt := b.clk.fclk, trigAt := none, drained := false }
    ∧ bitAt (rd p d kIrq) 16 = true) ∧
  (∀ p q b t, keeperUp b → b.dbolt.trigAt = some t → b.dbolt.state = .drain → t + 40 ≤ b.clk.fclk → Takes .drainEnd p q b fun d =>
    d.dbolt = { b.dbolt with state := .quiesced, drained := true, trigAt := none }) ∧
  (∀ p q b, keeperUp b → b.dbolt.asserted = true → b.dbolt.input = false → b.dbolt.state ≠ .fault → Takes .deadboltRelease p q b fun d =>
    d.dbolt = { b.dbolt with asserted := false, state := .run, trigAt := none } ∧ Only [.dbolt] b d) ∧
  (∀ p q b, keeperUp b → b.dbolt.asserted = true → b.dbolt.input = false → b.dbolt.state = .fault → Takes .deadboltRelease p q b fun d =>
    d.dbolt = { b.dbolt with asserted := false } ∧ Only [.dbolt] b d) ∧
  (∀ p q b r, wardUp p b (rHome (rng b r)) → hangLimit p b ≠ 0 → hangLimit p b ≤ (rng b r).hangTicks → (rng b r).hung = false →
    Takes (.hangDetect r) p q b fun d =>
      rng d r = { rng b r with hung := true } ∧ d.hang.hung = true ∧ d.hang.count = satAdd (2 ^ 32 - 1) b.hang.count 1
      ∧ bitAt (rd p d kIrq) 4 = true ∧ OnlyRing r b d)

/-! ## Trace (chapter 11) -/

/-- The trace (R308 to R317). Staging takes the oldest entries of the FIFOs while the trace runs, and nothing while it is
OFF or STOPPED. An entry that finds its FIFO full is counted as lost and in the unit's counter. A due run of staged
entries is written as a block and leaves the staging; its good response changes nothing. A due sample takes the ports
of its Ward in turn. From when a sample period runs is the model's reading (log entry 21). -/
def Obligations.TracePath : Prop :=
  (∀ p q b, keeperUp b → b.trace.state = .off ∨ b.trace.state = .stopped → Takes .traceEntryStage p q b fun d => d = b) ∧
  (∀ p q b u e, keeperUp b → b.trace.state = .armed → b.trace.fifo = [(u, [e])] → Takes .traceEntryStage p q b fun d =>
    Tbl.get [] d.trace.fifo u = [] ∧ Only [.regs, .cnt, .trace, .out] b d) ∧
  (∀ p q b w, wardUp p b w → trCap (1 + w) ≤ (Tbl.get [] b.trace.fifo (1 + w)).length → b.trace.state = .armed ∨ b.trace.state = .post →
    Takes (.traceFifoDrop (.ward w)) p q b fun d =>
      (Tbl.get (0, 0) d.trace.lost (1 + w)).1 = (Tbl.get (0, 0) b.trace.lost (1 + w)).1 + 1
      ∧ Tbl.get 0 d.cnt (trDropCnt (1 + w)) = satAdd (2 ^ 32 - 1) (Tbl.get 0 b.cnt (trDropCnt (1 + w))) 1
      ∧ Only [.cnt, .trace] b d) ∧
  (∀ p q b l x r, keeperUp b → (trRuns b.trace.staged).find? (runDue b) = some l → l = x :: r → Takes .traceBlockWrite p q b fun d =>
    d.trace.staged = b.trace.staged.filter (fun y => y ∉ l)
    ∧ .traceBlock (trAddr p b x) (l.map trBytes ++ List.replicate (runPads l) trPad) (sysAx p b .keeper) ∈ d.out ∧ Only [.regs, .trace, .out] b d) ∧
  (∀ p q b, keeperUp b → Takes (.traceWriteResponse .okay) p q b fun d => d = b) ∧
  (∀ p q b w i, wardUp p b w → trMask p b (.ward w) → b.trace.state = .armed ∨ b.trace.state = .post →
      Tbl.get 0 b.trace.sampAt w + samplePer p b ≤ b.clk.fclk → i = Tbl.get 0 b.trace.sampNext w % p.ne →
    Takes (.samplePeriod w) p q b fun d =>
      (prt d (w * p.ne + i)).sampleBusy = 0 ∧ OnlyPort (w * p.ne + i) b d ∧ Tbl.get 0 d.trace.sampNext w = (i + 1) % p.ne
      ∧ Tbl.get 0 d.trace.sampAt w = b.clk.fclk ∧ Only [.cnt, .ports, .trace] b d)

/-- A trace write that faults (R318): WERR rises by 1 up to its limit and nothing else changes: no DROP entry, no record
in the error log, and recording goes on. -/
def Obligations.TraceWriteFault : Prop :=
  ∀ p q b, keeperUp b → Takes (.traceWriteResponse .fault) p q b fun d =>
    d.trace = { b.trace with werr := satAdd (2 ^ 32 - 1) b.trace.werr 1 } ∧ Only [.trace] b d

/-! ## The block as a whole -/

/-- For every command c and state, the step of the state with c at the front of its queue is exec of c on that state with
the rest of the queue. -/
def Obligations.StepRunsFront : Prop :=
  ∀ p b k c rest, step ⟨p, c :: rest, b, k⟩ = exec c ⟨p, rest, b, k⟩

/-- Every command answers a next state, whatever the block, and leaves the parameters and the waiting commands. One
that the cycle under way does not take is held (R27): it does what it does in the next cycle. A step on an empty queue
answers a next state in which only what a tick writes has changed, with nothing sampled in the new cycle: that one
fclk passes then is the model's choice (log entry 5). -/
def Obligations.EveryCommandAnswers : Prop :=
  (∀ p q b k c, ∃ d j, exec c ⟨p, q, b, k⟩ = .next ⟨p, q, d, j⟩)
  ∧ (∀ p q b k c, inTurn p b k c = false → exec c ⟨p, q, b, k⟩ = exec c (State.nextCycle ⟨p, q, b, k⟩))
  ∧ (∀ p b k, ∃ d, step ⟨p, [], b, k⟩ = .next ⟨p, [], d, {}⟩ ∧ Only tickWrites b d)

/-- The frame of all commands: in every state whose cycle takes it, each command changes no part of the block outside
the list `writes` gives for it, and answers a next state with the parameters and the queue as they were (an event acts
on an object at its holder, R28). -/
def Obligations.CommandsWriteOnly : Prop :=
  ∀ p q b c, Takes c p q b fun d => Only (writes c) b d

/-- After reset (R379, R380, Table 14.1): PORST_N is asserted, no command waits, the instance is unlocked and before its
first attempt, the timestamp is 0, every register reads its reset value, no entry, channel, hasp, key pool or ring is
in use, every slot is empty, the log and the meter hold nothing, the deadbolt is in RUN, the trace is OFF, nothing is
in flight and nothing has been driven. The reset values that the manual does not give are the model's choice (log
entry 4). -/
def Obligations.ResetState : Prop :=
  State.reset.pending = [] ∧ State.reset.block.boot.porst = true ∧ State.reset.block.boot.lock = false
  ∧ State.reset.block.boot.state = .scrub ∧ State.reset.block.boot.attempts = 0 ∧ State.reset.block.clk.ts = 0
  ∧ (∀ p a, rd p State.reset.block a = regReset p a) ∧ (∀ h, (ent State.reset.block h).st = .free) ∧ (∀ c, chn State.reset.block c = none)
  ∧ (∀ h, (hsp State.reset.block h).v = false) ∧ (∀ n k, (kpl State.reset.block n k).en = false)
  ∧ (∀ w n, slt State.reset.block w n = {}) ∧ (∀ r, (rng State.reset.block r).enable = false)
  ∧ State.reset.block.log = {} ∧ State.reset.block.dbolt.state = .run ∧ State.reset.block.trace.state = .off
  ∧ State.reset.block.meter = {} ∧ State.reset.block.xbar = [] ∧ State.reset.block.out = []

/-- After reset every table of the block is in canonical form and every buffer is within its size (Sound), for all
parameters. -/
def Obligations.SoundAtReset : Prop :=
  ∀ p, Sound p State.reset.block

/-- From every state, reached or not, whose tables are in canonical form and whose error log, event rings and storm list
are within their sizes (R180, R288, R319), a step that answers a next state answers one in which they are. -/
def Obligations.SoundKept : Prop :=
  ∀ s t, Sound s.params s.block → step s = .next t → Sound t.params t.block

/-- A write of 1 to KP_CTRL.LOCK takes effect only when KP_BOOT.STATE is READY and the deadbolt is not in FAULT; any other
is ignored and sets PG_ERR.BOOT_WAIT in the Keeper page; in every step of every state LOCK stays set but for SRST_N or
PORST_N. -/
def Obligations.LockRule : Prop :=
  (∀ p q b, mgtFree b → b.boot.state = .ready → b.dbolt.state ≠ .fault → Takes .lock p q b fun d => d.boot.lock = true) ∧
  (∀ p q b, mgtFree b → b.boot.state ≠ .ready ∨ b.dbolt.state = .fault → Takes .lock p q b fun d =>
    d.boot = b.boot ∧ bitAt (rd p d (kA 0 0x010)) 8 = true ∧ Only [.mgt, .regs, .out] b d) ∧
  (∀ s t, step s = .next t → s.block.boot.lock = true →
    t.block.boot.lock = true ∨ s.pending.head? = some .porstNAssert ∨ s.pending.head? = some .srstNAssert)

/-- In every step of every state that is in FAULT the deadbolt stays in FAULT but for an assertion of SRST_N or PORST_N
(R282). -/
def Obligations.FaultHeld : Prop :=
  ∀ s t, step s = .next t → s.block.dbolt.state = .fault →
    t.block.dbolt.state = .fault ∨ s.pending.head? = some .porstNAssert ∨ s.pending.head? = some .srstNAssert

end Statements
end

