-- ==== Sys2Proof/Laws/Table.lean ====
section
/-! SUPPORT. The laws of sparse tables: what is read after a write, and the canonical form that every write keeps. -/

namespace Sys2Proof

variable {α : Type}

theorem Tbl.get_del (d : α) (t : Tbl α) (k j : Nat) : Tbl.get d (Tbl.del t k) j = if j = k then d else Tbl.get d t j := by
  induction t with
  | nil => simp [Tbl.del, Tbl.get]
  | cons a r ih =>
    obtain ⟨i, v⟩ := a
    by_cases h : i = k
    · subst h
      simp only [Tbl.del, if_true, ih, Tbl.get]
      by_cases hj : j = i
      · simp [hj]
      · simp [hj, Ne.symm hj]
    · simp only [Tbl.del, h, if_false, Tbl.get, ih]; split <;> split <;> simp_all

theorem Tbl.get_ins (d : α) (t : Tbl α) (k : Nat) (v : α) (h : Tbl.del t k = t) (j : Nat) :
    Tbl.get d (Tbl.ins t k v) j = if j = k then v else Tbl.get d t j := by
  induction t with
  | nil => simp [Tbl.ins, Tbl.get, eq_comm]
  | cons a r ih =>
    obtain ⟨i, u⟩ := a
    by_cases hi : i = k
    · exfalso
      have hl : ∀ s : Tbl α, (Tbl.del s k).length ≤ s.length := fun s => by
        induction s with
        | nil => simp [Tbl.del]
        | cons a s ih => obtain ⟨i, u⟩ := a; simp only [Tbl.del]; split <;> simp <;> omega
      have := hl r
      simp only [Tbl.del, hi, if_true] at h
      rw [h] at this; simp at this
    · simp only [Tbl.del, hi, if_false, List.cons.injEq, true_and] at h
      simp only [Tbl.ins]
      split
      · simp only [Tbl.get, eq_comm (a := k)]
      · simp only [Tbl.get, ih h]; split <;> simp_all

theorem Tbl.del_del (t : Tbl α) (k : Nat) : Tbl.del (Tbl.del t k) k = Tbl.del t k := by
  induction t with
  | nil => rfl
  | cons a r ih => obtain ⟨i, u⟩ := a; by_cases h : i = k <;> simp [Tbl.del, h, ih]

/-- What is read after a write. -/
theorem Tbl.get_set [DecidableEq α] (d : α) (t : Tbl α) (k : Nat) (v : α) (j : Nat) :
    Tbl.get d (Tbl.set d t k v) j = if j = k then v else Tbl.get d t j := by
  unfold Tbl.set
  split
  · next h => rw [Tbl.get_del, h]
  · rw [Tbl.get_ins d _ k v (Tbl.del_del t k), Tbl.get_del]; split <;> simp_all

@[simp] theorem Tbl.get_set_same [DecidableEq α] (d : α) (t : Tbl α) (k : Nat) (v : α) : Tbl.get d (Tbl.set d t k v) k = v := by
  simp [Tbl.get_set]

theorem Tbl.get_set_ne [DecidableEq α] (d : α) (t : Tbl α) (k : Nat) (v : α) (j : Nat) (h : j ≠ k) :
    Tbl.get d (Tbl.set d t k v) j = Tbl.get d t j := by simp [Tbl.get_set, h]

/-- The same where the key read has a default of its own, as registers have. -/
theorem Tbl.get_set_gen [DecidableEq α] (d e : α) (t : Tbl α) (k : Nat) (v : α) (j : Nat) (h : j ≠ k) :
    Tbl.get e (Tbl.set d t k v) j = Tbl.get e t j := by
  unfold Tbl.set
  split
  · simp [Tbl.get_del, h]
  · rw [Tbl.get_ins e _ k v (Tbl.del_del t k), Tbl.get_del]; simp [h]

theorem Tbl.get_upd [DecidableEq α] (d : α) (t : Tbl α) (k : Nat) (f : α → α) (j : Nat) :
    Tbl.get d (Tbl.upd d t k f) j = if j = k then f (Tbl.get d t k) else Tbl.get d t j := Tbl.get_set d t k _ j

@[simp] theorem Tbl.get_upd_same [DecidableEq α] (d : α) (t : Tbl α) (k : Nat) (f : α → α) :
    Tbl.get d (Tbl.upd d t k f) k = f (Tbl.get d t k) := Tbl.get_set_same d t k _

theorem Tbl.get_upd_ne [DecidableEq α] (d : α) (t : Tbl α) (k : Nat) (f : α → α) (j : Nat) (h : j ≠ k) :
    Tbl.get d (Tbl.upd d t k f) j = Tbl.get d t j := Tbl.get_set_ne d t k _ j h

/-- Keys strictly rising. -/
def Tbl.rising (t : Tbl α) : Prop := t.Pairwise (fun a b => a.1 < b.1)

theorem Tbl.mem_del (t : Tbl α) (k : Nat) (x : Nat × α) (h : x ∈ Tbl.del t k) : x ∈ t ∧ x.1 ≠ k := by
  induction t with
  | nil => simp [Tbl.del] at h
  | cons a r ih =>
    obtain ⟨i, u⟩ := a
    simp only [Tbl.del] at h
    split at h
    · have := ih h; exact ⟨by simp [this.1], this.2⟩
    · rcases List.mem_cons.mp h with rfl | h
      · exact ⟨by simp, by assumption⟩
      · have := ih h; exact ⟨by simp [this.1], this.2⟩

theorem Tbl.rising_del (t : Tbl α) (k : Nat) (h : Tbl.rising t) : Tbl.rising (Tbl.del t k) := by
  induction t with
  | nil => exact h
  | cons a r ih =>
    obtain ⟨i, u⟩ := a
    rw [Tbl.rising, List.pairwise_cons] at h
    simp only [Tbl.del]
    split
    · exact ih h.2
    · rw [Tbl.rising, List.pairwise_cons]
      exact ⟨fun x hx => h.1 x (Tbl.mem_del r k x hx).1, ih h.2⟩

theorem Tbl.mem_ins (t : Tbl α) (k : Nat) (v : α) (x : Nat × α) (h : x ∈ Tbl.ins t k v) : x = (k, v) ∨ x ∈ t := by
  induction t with
  | nil => simp [Tbl.ins] at h; exact Or.inl h
  | cons a r ih =>
    obtain ⟨i, u⟩ := a
    simp only [Tbl.ins] at h
    split at h
    · simpa using h
    · rcases List.mem_cons.mp h with rfl | h
      · simp
      · rcases ih h with h | h <;> simp [h]

theorem Tbl.rising_ins (t : Tbl α) (k : Nat) (v : α) (hk : ∀ x ∈ t, x.1 ≠ k) (h : Tbl.rising t) : Tbl.rising (Tbl.ins t k v) := by
  induction t with
  | nil => simp [Tbl.ins, Tbl.rising]
  | cons a r ih =>
    obtain ⟨i, u⟩ := a
    have hi : i ≠ k := hk (i, u) (by simp)
    rw [Tbl.rising, List.pairwise_cons] at h
    simp only [Tbl.ins]
    split
    · next hlt =>
      rw [Tbl.rising, List.pairwise_cons]
      refine ⟨fun x hx => ?_, by rw [List.pairwise_cons]; exact h⟩
      rcases List.mem_cons.mp hx with rfl | hx
      · exact hlt
      · exact lt_trans hlt (h.1 x hx)
    · rw [Tbl.rising, List.pairwise_cons]
      refine ⟨fun x hx => ?_, ih (fun x hx => hk x (by simp [hx])) h.2⟩
      rcases Tbl.mem_ins r k v x hx with rfl | hx
      · simp; omega
      · exact h.1 x hx

theorem Tbl.rising_set [DecidableEq α] (d : α) (t : Tbl α) (k : Nat) (v : α) (h : Tbl.rising t) : Tbl.rising (Tbl.set d t k v) := by
  unfold Tbl.set
  split
  · exact Tbl.rising_del t k h
  · exact Tbl.rising_ins _ k v (fun x hx => (Tbl.mem_del t k x hx).2) (Tbl.rising_del t k h)

theorem Tbl.mem_set [DecidableEq α] (d : α) (t : Tbl α) (k : Nat) (v : α) (x : Nat × α) (h : x ∈ Tbl.set d t k v) :
    (x = (k, v) ∧ v ≠ d) ∨ x ∈ t := by
  unfold Tbl.set at h
  split at h
  · exact Or.inr (Tbl.mem_del t k x h).1
  · rcases Tbl.mem_ins _ k v x h with h | h
    · exact Or.inl ⟨h, by assumption⟩
    · exact Or.inr (Tbl.mem_del t k x h).1

theorem Tbl.wf_iff [DecidableEq α] (d : α) (t : Tbl α) : Tbl.wf d t = true ↔ Tbl.rising t ∧ ∀ x ∈ t, x.2 ≠ d := by
  simp [Tbl.wf, Tbl.rising]

/-- A write keeps the canonical form. -/
theorem Tbl.wf_set [DecidableEq α] (d : α) (t : Tbl α) (k : Nat) (v : α) (h : Tbl.wf d t = true) : Tbl.wf d (Tbl.set d t k v) = true := by
  rw [Tbl.wf_iff] at h ⊢
  refine ⟨Tbl.rising_set d t k v h.1, fun x hx => ?_⟩
  rcases Tbl.mem_set d t k v x hx with ⟨rfl, hv⟩ | hx
  · exact hv
  · exact h.2 x hx

theorem Tbl.wf_upd [DecidableEq α] (d : α) (t : Tbl α) (k : Nat) (f : α → α) (h : Tbl.wf d t = true) :
    Tbl.wf d (Tbl.upd d t k f) = true := Tbl.wf_set d t k _ h

theorem Tbl.wf_filter [DecidableEq α] (d : α) (t : Tbl α) (q : Nat × α → Bool) (h : Tbl.wf d t = true) :
    Tbl.wf d (t.filter q) = true := by
  rw [Tbl.wf_iff] at h ⊢
  exact ⟨h.1.filter q, fun x hx => h.2 x (List.mem_filter.mp hx).1⟩

end Sys2Proof
end

