-- ==== Sys2Proof/Laws/Keeps.lean ====
section
/-! SUPPORT. How `Sound` is kept: one rule for each way the block is changed. -/

namespace Sys2Proof.Machine

/-- What is sound stays sound. -/
def Keeps (p : Params) (b c : Block) : Prop := Sound p b → Sound p c

theorem Keeps.refl (p : Params) (b : Block) : Keeps p b b := fun h => h

theorem Keeps.next {p : Params} {b c d : Block} (h : Keeps p c d) (hb : Keeps p b c) : Keeps p b d := fun k => h (hb k)

/-- The parts that `Sound` does not speak of. -/
def freeParts : List BlockPart :=
  [.clk, .boot, .mgt, .snapAt, .snapTs, .cmtTs, .cmtDue, .place, .gov, .arb, .entq, .waits, .rchans, .preIgnored, .resumeQ, .lcIdleAt, .unreach, .remSegs, .dbolt, .hang, .dump, .cap, .ecc, .blk, .trace, .watch, .meter, .xbar, .out]

theorem Keeps.free {p : Params} {b c d : Block} (h : Only freeParts c d) (hb : Keeps p b c) : Keeps p b d := fun k => by
  have s := hb k
  have e : ∀ f, f ∉ freeParts → agree f c d := h
  exact {
    regs := by have := e .regs (by decide); simp only [agree] at this; rw [this]; exact s.regs
    cnt := by have := e .cnt (by decide); simp only [agree] at this; rw [this]; exact s.cnt
    cntSh := by have := e .cntSh (by decide); simp only [agree] at this; rw [this]; exact s.cntSh
    iqWork := by have := e .iqWork (by decide); simp only [agree] at this; rw [this]; exact s.iqWork
    ents := by have := e .ents (by decide); simp only [agree] at this; rw [this]; exact s.ents
    wq := by have := e .wq (by decide); simp only [agree] at this; rw [this]; exact s.wq
    slots := by have := e .slots (by decide); simp only [agree] at this; rw [this]; exact s.slots
    ports := by have := e .ports (by decide); simp only [agree] at this; rw [this]; exact s.ports
    occ := by have := e .occ (by decide); simp only [agree] at this; rw [this]; exact s.occ
    rings := by have := e .rings (by decide); simp only [agree] at this; rw [this]; exact s.rings
    tdone := by have := e .tdone (by decide); simp only [agree] at this; rw [this]; exact s.tdone
    tens := by have := e .tens (by decide); simp only [agree] at this; rw [this]; exact s.tens
    segs := by have := e .segs (by decide); simp only [agree] at this; rw [this]; exact s.segs
    pcls := by have := e .pcls (by decide); simp only [agree] at this; rw [this]; exact s.pcls
    hasps := by have := e .hasps (by decide); simp only [agree] at this; rw [this]; exact s.hasps
    kpool := by have := e .kpool (by decide); simp only [agree] at this; rw [this]; exact s.kpool
    mq := by have := e .mq (by decide); simp only [agree] at this; rw [this]; exact s.mq
    mqPop := by have := e .mqPop (by decide); simp only [agree] at this; rw [this]; exact s.mqPop
    chans := by have := e .chans (by decide); simp only [agree] at this; rw [this]; exact s.chans
    cq := by have := e .cq (by decide); simp only [agree] at this; rw [this]; exact s.cq
    cbParts := by have := e .cbParts (by decide); simp only [agree] at this; rw [this]; exact s.cbParts
    opdLast := by have := e .opdLast (by decide); simp only [agree] at this; rw [this]; exact s.opdLast
    hg := by have := e .hg (by decide); simp only [agree] at this; rw [this]; exact s.hg
    routes := by have := e .routes (by decide); simp only [agree] at this; rw [this]; exact s.routes
    fedt := by have := e .fedt (by decide); simp only [agree] at this; rw [this]; exact s.fedt
    tally := by have := e .tally (by decide); simp only [agree] at this; rw [this]; exact s.tally
    evr := by have := e .evr (by decide); simp only [agree] at this; rw [this]; exact s.evr
    log := by have := e .log (by decide); simp only [agree] at this; rw [this]; exact s.log
    storms := by have := e .storms (by decide); simp only [agree] at this; rw [this]; exact s.storms
    evrSize := by have := e .evr (by decide); simp only [agree] at this; rw [this]; exact s.evrSize }

theorem Keeps.when {p : Params} {b c : Block} {q : Bool} {f : Block → Block} (h : ∀ x, Keeps p x (f x)) (hb : Keeps p b c) :
    Keeps p b (when q f c) := by
  unfold Machine.when; split
  · exact Keeps.next (h c) hb
  · exact hb

theorem Keeps.foldl {p : Params} {α : Type} {f : Block → α → Block} (h : ∀ x a, Keeps p x (f x a)) :
    ∀ (xs : List α) {b c : Block}, Keeps p b c → Keeps p b (xs.foldl f c)
  | [], _, _, hb => hb
  | a :: xs, _, c, hb => Keeps.foldl h xs (Keeps.next (h c a) hb)

theorem Keeps.forEach {p : Params} {α : Type} {xs : List α} {f : α → Block → Block} {b c : Block}
    (h : ∀ a x, Keeps p x (f a x)) (hb : Keeps p b c) : Keeps p b (forEach xs f c) :=
  Keeps.foldl (fun x a => h a x) xs hb

theorem Keeps.set_cnt {p : Params} {b c : Block} {k : Nat} {v : Nat} (hb : Keeps p b c) :
    Keeps p b { c with cnt := Tbl.set 0 c.cnt k v } := fun h => { hb h with cnt := Tbl.wf_set _ _ _ _ (hb h).cnt }
theorem Keeps.upd_cnt {p : Params} {b c : Block} {k : Nat} {v : Nat → Nat} (hb : Keeps p b c) :
    Keeps p b { c with cnt := Tbl.upd 0 c.cnt k v } := fun h => { hb h with cnt := Tbl.wf_upd _ _ _ _ (hb h).cnt }
theorem Keeps.set_cntSh {p : Params} {b c : Block} {k : Nat} {v : Nat} (hb : Keeps p b c) :
    Keeps p b { c with cntSh := Tbl.set 0 c.cntSh k v } := fun h => { hb h with cntSh := Tbl.wf_set _ _ _ _ (hb h).cntSh }
theorem Keeps.upd_cntSh {p : Params} {b c : Block} {k : Nat} {v : Nat → Nat} (hb : Keeps p b c) :
    Keeps p b { c with cntSh := Tbl.upd 0 c.cntSh k v } := fun h => { hb h with cntSh := Tbl.wf_upd _ _ _ _ (hb h).cntSh }
theorem Keeps.set_iqWork {p : Params} {b c : Block} {k : Nat} {v : Word32} (hb : Keeps p b c) :
    Keeps p b { c with iqWork := Tbl.set 0x102 c.iqWork k v } := fun h => { hb h with iqWork := Tbl.wf_set _ _ _ _ (hb h).iqWork }
theorem Keeps.upd_iqWork {p : Params} {b c : Block} {k : Nat} {v : Word32 → Word32} (hb : Keeps p b c) :
    Keeps p b { c with iqWork := Tbl.upd 0x102 c.iqWork k v } := fun h => { hb h with iqWork := Tbl.wf_upd _ _ _ _ (hb h).iqWork }
theorem Keeps.set_ents {p : Params} {b c : Block} {k : Nat} {v : Entry} (hb : Keeps p b c) :
    Keeps p b { c with ents := Tbl.set {} c.ents k v } := fun h => { hb h with ents := Tbl.wf_set _ _ _ _ (hb h).ents }
theorem Keeps.upd_ents {p : Params} {b c : Block} {k : Nat} {v : Entry → Entry} (hb : Keeps p b c) :
    Keeps p b { c with ents := Tbl.upd {} c.ents k v } := fun h => { hb h with ents := Tbl.wf_upd _ _ _ _ (hb h).ents }
theorem Keeps.set_wq {p : Params} {b c : Block} {k : Nat} {v : FreeQ} (hb : Keeps p b c) :
    Keeps p b { c with wq := Tbl.set {} c.wq k v } := fun h => { hb h with wq := Tbl.wf_set _ _ _ _ (hb h).wq }
theorem Keeps.upd_wq {p : Params} {b c : Block} {k : Nat} {v : FreeQ → FreeQ} (hb : Keeps p b c) :
    Keeps p b { c with wq := Tbl.upd {} c.wq k v } := fun h => { hb h with wq := Tbl.wf_upd _ _ _ _ (hb h).wq }
theorem Keeps.set_slots {p : Params} {b c : Block} {k : Nat} {v : Slot} (hb : Keeps p b c) :
    Keeps p b { c with slots := Tbl.set {} c.slots k v } := fun h => { hb h with slots := Tbl.wf_set _ _ _ _ (hb h).slots }
theorem Keeps.upd_slots {p : Params} {b c : Block} {k : Nat} {v : Slot → Slot} (hb : Keeps p b c) :
    Keeps p b { c with slots := Tbl.upd {} c.slots k v } := fun h => { hb h with slots := Tbl.wf_upd _ _ _ _ (hb h).slots }
theorem Keeps.set_ports {p : Params} {b c : Block} {k : Nat} {v : Port} (hb : Keeps p b c) :
    Keeps p b { c with ports := Tbl.set {} c.ports k v } := fun h => { hb h with ports := Tbl.wf_set _ _ _ _ (hb h).ports }
theorem Keeps.upd_ports {p : Params} {b c : Block} {k : Nat} {v : Port → Port} (hb : Keeps p b c) :
    Keeps p b { c with ports := Tbl.upd {} c.ports k v } := fun h => { hb h with ports := Tbl.wf_upd _ _ _ _ (hb h).ports }
theorem Keeps.set_occ {p : Params} {b c : Block} {k : Nat} {v : List Nat} (hb : Keeps p b c) :
    Keeps p b { c with occ := Tbl.set [] c.occ k v } := fun h => { hb h with occ := Tbl.wf_set _ _ _ _ (hb h).occ }
theorem Keeps.upd_occ {p : Params} {b c : Block} {k : Nat} {v : List Nat → List Nat} (hb : Keeps p b c) :
    Keeps p b { c with occ := Tbl.upd [] c.occ k v } := fun h => { hb h with occ := Tbl.wf_upd _ _ _ _ (hb h).occ }
theorem Keeps.set_rings {p : Params} {b c : Block} {k : Nat} {v : Ring} (hb : Keeps p b c) :
    Keeps p b { c with rings := Tbl.set {} c.rings k v } := fun h => { hb h with rings := Tbl.wf_set _ _ _ _ (hb h).rings }
theorem Keeps.upd_rings {p : Params} {b c : Block} {k : Nat} {v : Ring → Ring} (hb : Keeps p b c) :
    Keeps p b { c with rings := Tbl.upd {} c.rings k v } := fun h => { hb h with rings := Tbl.wf_upd _ _ _ _ (hb h).rings }
theorem Keeps.set_tdone {p : Params} {b c : Block} {k : Nat} {v : Word32} (hb : Keeps p b c) :
    Keeps p b { c with tdone := Tbl.set 0 c.tdone k v } := fun h => { hb h with tdone := Tbl.wf_set _ _ _ _ (hb h).tdone }
theorem Keeps.upd_tdone {p : Params} {b c : Block} {k : Nat} {v : Word32 → Word32} (hb : Keeps p b c) :
    Keeps p b { c with tdone := Tbl.upd 0 c.tdone k v } := fun h => { hb h with tdone := Tbl.wf_upd _ _ _ _ (hb h).tdone }
theorem Keeps.set_tens {p : Params} {b c : Block} {k : Nat} {v : Tenant} (hb : Keeps p b c) :
    Keeps p b { c with tens := Tbl.set {} c.tens k v } := fun h => { hb h with tens := Tbl.wf_set _ _ _ _ (hb h).tens }
theorem Keeps.upd_tens {p : Params} {b c : Block} {k : Nat} {v : Tenant → Tenant} (hb : Keeps p b c) :
    Keeps p b { c with tens := Tbl.upd {} c.tens k v } := fun h => { hb h with tens := Tbl.wf_upd _ _ _ _ (hb h).tens }
theorem Keeps.set_segs {p : Params} {b c : Block} {k : Nat} {v : Option Seg} (hb : Keeps p b c) :
    Keeps p b { c with segs := Tbl.set none c.segs k v } := fun h => { hb h with segs := Tbl.wf_set _ _ _ _ (hb h).segs }
theorem Keeps.upd_segs {p : Params} {b c : Block} {k : Nat} {v : Option Seg → Option Seg} (hb : Keeps p b c) :
    Keeps p b { c with segs := Tbl.upd none c.segs k v } := fun h => { hb h with segs := Tbl.wf_upd _ _ _ _ (hb h).segs }
theorem Keeps.set_pcls {p : Params} {b c : Block} {k : Nat} {v : PClass} (hb : Keeps p b c) :
    Keeps p b { c with pcls := Tbl.set {} c.pcls k v } := fun h => { hb h with pcls := Tbl.wf_set _ _ _ _ (hb h).pcls }
theorem Keeps.upd_pcls {p : Params} {b c : Block} {k : Nat} {v : PClass → PClass} (hb : Keeps p b c) :
    Keeps p b { c with pcls := Tbl.upd {} c.pcls k v } := fun h => { hb h with pcls := Tbl.wf_upd _ _ _ _ (hb h).pcls }
theorem Keeps.set_hasps {p : Params} {b c : Block} {k : Nat} {v : Hasp} (hb : Keeps p b c) :
    Keeps p b { c with hasps := Tbl.set {} c.hasps k v } := fun h => { hb h with hasps := Tbl.wf_set _ _ _ _ (hb h).hasps }
theorem Keeps.upd_hasps {p : Params} {b c : Block} {k : Nat} {v : Hasp → Hasp} (hb : Keeps p b c) :
    Keeps p b { c with hasps := Tbl.upd {} c.hasps k v } := fun h => { hb h with hasps := Tbl.wf_upd _ _ _ _ (hb h).hasps }
theorem Keeps.set_kpool {p : Params} {b c : Block} {k : Nat} {v : KPool} (hb : Keeps p b c) :
    Keeps p b { c with kpool := Tbl.set {} c.kpool k v } := fun h => { hb h with kpool := Tbl.wf_set _ _ _ _ (hb h).kpool }
theorem Keeps.upd_kpool {p : Params} {b c : Block} {k : Nat} {v : KPool → KPool} (hb : Keeps p b c) :
    Keeps p b { c with kpool := Tbl.upd {} c.kpool k v } := fun h => { hb h with kpool := Tbl.wf_upd _ _ _ _ (hb h).kpool }
theorem Keeps.set_mq {p : Params} {b c : Block} {k : Nat} {v : MQ} (hb : Keeps p b c) :
    Keeps p b { c with mq := Tbl.set {} c.mq k v } := fun h => { hb h with mq := Tbl.wf_set _ _ _ _ (hb h).mq }
theorem Keeps.upd_mq {p : Params} {b c : Block} {k : Nat} {v : MQ → MQ} (hb : Keeps p b c) :
    Keeps p b { c with mq := Tbl.upd {} c.mq k v } := fun h => { hb h with mq := Tbl.wf_upd _ _ _ _ (hb h).mq }
theorem Keeps.set_mqPop {p : Params} {b c : Block} {k : Nat} {v : MqPop} (hb : Keeps p b c) :
    Keeps p b { c with mqPop := Tbl.set {} c.mqPop k v } := fun h => { hb h with mqPop := Tbl.wf_set _ _ _ _ (hb h).mqPop }
theorem Keeps.upd_mqPop {p : Params} {b c : Block} {k : Nat} {v : MqPop → MqPop} (hb : Keeps p b c) :
    Keeps p b { c with mqPop := Tbl.upd {} c.mqPop k v } := fun h => { hb h with mqPop := Tbl.wf_upd _ _ _ _ (hb h).mqPop }
theorem Keeps.set_chans {p : Params} {b c : Block} {k : Nat} {v : Option Chan} (hb : Keeps p b c) :
    Keeps p b { c with chans := Tbl.set none c.chans k v } := fun h => { hb h with chans := Tbl.wf_set _ _ _ _ (hb h).chans }
theorem Keeps.upd_chans {p : Params} {b c : Block} {k : Nat} {v : Option Chan → Option Chan} (hb : Keeps p b c) :
    Keeps p b { c with chans := Tbl.upd none c.chans k v } := fun h => { hb h with chans := Tbl.wf_upd _ _ _ _ (hb h).chans }
theorem Keeps.set_cq {p : Params} {b c : Block} {k : Nat} {v : CQ} (hb : Keeps p b c) :
    Keeps p b { c with cq := Tbl.set {} c.cq k v } := fun h => { hb h with cq := Tbl.wf_set _ _ _ _ (hb h).cq }
theorem Keeps.upd_cq {p : Params} {b c : Block} {k : Nat} {v : CQ → CQ} (hb : Keeps p b c) :
    Keeps p b { c with cq := Tbl.upd {} c.cq k v } := fun h => { hb h with cq := Tbl.wf_upd _ _ _ _ (hb h).cq }
theorem Keeps.set_cbParts {p : Params} {b c : Block} {k : Nat} {v : List Part} (hb : Keeps p b c) :
    Keeps p b { c with cbParts := Tbl.set [] c.cbParts k v } := fun h => { hb h with cbParts := Tbl.wf_set _ _ _ _ (hb h).cbParts }
theorem Keeps.upd_cbParts {p : Params} {b c : Block} {k : Nat} {v : List Part → List Part} (hb : Keeps p b c) :
    Keeps p b { c with cbParts := Tbl.upd [] c.cbParts k v } := fun h => { hb h with cbParts := Tbl.wf_upd _ _ _ _ (hb h).cbParts }
theorem Keeps.set_opdLast {p : Params} {b c : Block} {k : Nat} {v : Nat} (hb : Keeps p b c) :
    Keeps p b { c with opdLast := Tbl.set 0 c.opdLast k v } := fun h => { hb h with opdLast := Tbl.wf_set _ _ _ _ (hb h).opdLast }
theorem Keeps.upd_opdLast {p : Params} {b c : Block} {k : Nat} {v : Nat → Nat} (hb : Keeps p b c) :
    Keeps p b { c with opdLast := Tbl.upd 0 c.opdLast k v } := fun h => { hb h with opdLast := Tbl.wf_upd _ _ _ _ (hb h).opdLast }
theorem Keeps.set_hg {p : Params} {b c : Block} {k : Nat} {v : Hinge} (hb : Keeps p b c) :
    Keeps p b { c with hg := Tbl.set {} c.hg k v } := fun h => { hb h with hg := Tbl.wf_set _ _ _ _ (hb h).hg }
theorem Keeps.upd_hg {p : Params} {b c : Block} {k : Nat} {v : Hinge → Hinge} (hb : Keeps p b c) :
    Keeps p b { c with hg := Tbl.upd {} c.hg k v } := fun h => { hb h with hg := Tbl.wf_upd _ _ _ _ (hb h).hg }
theorem Keeps.set_routes {p : Params} {b c : Block} {k : Nat} {v : Route} (hb : Keeps p b c) :
    Keeps p b { c with routes := Tbl.set {} c.routes k v } := fun h => { hb h with routes := Tbl.wf_set _ _ _ _ (hb h).routes }
theorem Keeps.upd_routes {p : Params} {b c : Block} {k : Nat} {v : Route → Route} (hb : Keeps p b c) :
    Keeps p b { c with routes := Tbl.upd {} c.routes k v } := fun h => { hb h with routes := Tbl.wf_upd _ _ _ _ (hb h).routes }
theorem Keeps.set_fedt {p : Params} {b c : Block} {k : Nat} {v : FedTab} (hb : Keeps p b c) :
    Keeps p b { c with fedt := Tbl.set {} c.fedt k v } := fun h => { hb h with fedt := Tbl.wf_set _ _ _ _ (hb h).fedt }
theorem Keeps.upd_fedt {p : Params} {b c : Block} {k : Nat} {v : FedTab → FedTab} (hb : Keeps p b c) :
    Keeps p b { c with fedt := Tbl.upd {} c.fedt k v } := fun h => { hb h with fedt := Tbl.wf_upd _ _ _ _ (hb h).fedt }
theorem Keeps.set_tally {p : Params} {b c : Block} {k : Nat} {v : Tally} (hb : Keeps p b c) :
    Keeps p b { c with tally := Tbl.set {} c.tally k v } := fun h => { hb h with tally := Tbl.wf_set _ _ _ _ (hb h).tally }
theorem Keeps.upd_tally {p : Params} {b c : Block} {k : Nat} {v : Tally → Tally} (hb : Keeps p b c) :
    Keeps p b { c with tally := Tbl.upd {} c.tally k v } := fun h => { hb h with tally := Tbl.wf_upd _ _ _ _ (hb h).tally }

theorem Keeps.log {p : Params} {b c : Block} {f : Log → Log} (hf : ∀ l, l.fits → (f l).fits) (hb : Keeps p b c) :
    Keeps p b (updLog f c) := fun h => { hb h with log := hf _ (hb h).log }

theorem Keeps.storm {p : Params} {b c : Block} {l : List Storm} (hl : c.storms.length ≤ 64 → l.length ≤ 64) (hb : Keeps p b c) :
    Keeps p b { c with storms := l } := fun h => { hb h with storms := hl (hb h).storms }

theorem Keeps.evrSet {p : Params} {b c : Block} {k : Nat} {v : List EvEntry} (hv : Sound p c → v.length ≤ evDepth p)
    (hb : Keeps p b c) : Keeps p b { c with evr := Tbl.set [] c.evr k v } := fun h => { hb h with
  evr := Tbl.wf_set _ _ _ _ (hb h).evr
  evrSize := fun x hx => by
    rcases Tbl.mem_set _ _ _ _ x hx with ⟨rfl, _⟩ | hx
    · exact hv (hb h)
    · exact (hb h).evrSize x hx }

theorem regs_set {p : Params} {a : Nat} {v : Word32} {t : Tbl Word32} (k : regsCanonical p t) :
    regsCanonical p (Tbl.set (regReset p a) t a v) := by
  refine ⟨Tbl.rising_set _ _ _ _ k.1, fun x hx => ?_⟩
  rcases Tbl.mem_set _ _ _ _ x hx with ⟨rfl, hv⟩ | hx
  · exact hv
  · exact k.2 x hx

theorem Keeps.regSet {p : Params} {b c : Block} {a : Nat} {v : Word32} (hb : Keeps p b c) : Keeps p b (wr p a v c) := fun h =>
  { hb h with regs := regs_set (hb h).regs }

/-- A new log record in a list of bounded length. -/
theorem buf_fits {l : Tbl (List LogRec)} {k : Nat} {v : List LogRec} (hv : v.length ≤ 16) (h : ∀ x ∈ l, x.2.length ≤ 16) :
    ∀ x ∈ Tbl.set [] l k v, x.2.length ≤ 16 := fun x hx => by
  rcases Tbl.mem_set _ _ _ _ x hx with ⟨rfl, _⟩ | hx
  · exact hv
  · exact h x hx

theorem listTable_get {α : Type} {n : Nat} {t : Tbl (List α)} (h : ∀ x ∈ t, x.2.length ≤ n) (k : Nat) : (Tbl.get [] t k).length ≤ n := by
  induction t with
  | nil => simp [Tbl.get]
  | cons a r ih =>
    obtain ⟨i, v⟩ := a
    simp only [Tbl.get]; split
    · exact h (i, v) (by simp)
    · exact ih (fun x hx => h x (by simp [hx]))

/-- A block just out of reset: every table lists nothing. -/
theorem Sound.fresh (p : Params) (c : Clk) (t : Boot) (m : Meter) (o : List Out) :
    Sound p { clk := c, boot := t, meter := m, out := o } where
  regs := ⟨List.Pairwise.nil, fun _ h => nomatch h⟩
  cnt := rfl
  cntSh := rfl
  iqWork := rfl
  ents := rfl
  wq := rfl
  slots := rfl
  ports := rfl
  occ := rfl
  rings := rfl
  tdone := rfl
  tens := rfl
  segs := rfl
  pcls := rfl
  hasps := rfl
  kpool := rfl
  mq := rfl
  mqPop := rfl
  chans := rfl
  cq := rfl
  cbParts := rfl
  opdLast := rfl
  hg := rfl
  routes := rfl
  fedt := rfl
  evr := rfl
  tally := rfl
  log := ⟨Nat.zero_le _, Nat.zero_le _, fun _ h => nomatch h⟩
  evrSize := fun _ h => nomatch h
  storms := Nat.zero_le _

end Sys2Proof.Machine
end

