-- ==== Sys2Proof/Laws/Only.lean ====
section
/-! SUPPORT. How `Only` composes: one rule for each way the block is changed. -/

namespace Sys2Proof.Machine

theorem agree_refl (f : BlockPart) (b : Block) : agree f b b := by cases f <;> rfl

theorem agree_trans (f : BlockPart) (a b c : Block) (h : agree f a b) (k : agree f b c) : agree f a c := by
  cases f <;> exact Eq.trans k h

/-- Nothing changes. -/
theorem Only.refl (l : List BlockPart) (b : Block) : Only l b b := fun f _ => agree_refl f b

/-- One more operation that changes parts of the list alone. -/
theorem Only.next {l m : List BlockPart} {b c d : Block} (h : Only m c d) (hs : ∀ f ∈ m, f ∈ l) (hb : Only l b c) : Only l b d :=
  fun f hf => agree_trans f b c d (hb f hf) (h f (fun hm => hf (hs f hm)))

/-- A longer list. -/
theorem Only.mono {l m : List BlockPart} {b c : Block} (h : Only m b c) (hs : ∀ f ∈ m, f ∈ l) : Only l b c :=
  Only.next h hs (Only.refl l b)

/-- A record update: the parts outside the list are those of the block before it. -/
theorem Only.update {l : List BlockPart} {b c d : Block} (h : ∀ f, f ∉ l → agree f c d) (hb : Only l b c) : Only l b d :=
  fun f hf => agree_trans f b c d (hb f hf) (h f hf)

theorem Only.when {l : List BlockPart} {b c : Block} {q : Bool} {f : Block → Block} (h : ∀ x, Only l x (f x)) (hb : Only l b c) :
    Only l b (when q f c) := by
  unfold Machine.when; split
  · exact Only.next (h c) (fun _ k => k) hb
  · exact hb

theorem Only.foldl {l : List BlockPart} {α : Type} {f : Block → α → Block} (h : ∀ x a, Only l x (f x a)) :
    ∀ (xs : List α) {b c : Block}, Only l b c → Only l b (xs.foldl f c)
  | [], _, _, hb => hb
  | a :: xs, _, c, hb => Only.foldl h xs (Only.next (h c a) (fun _ k => k) hb)

theorem Only.forEach {l : List BlockPart} {α : Type} {xs : List α} {f : α → Block → Block} {b c : Block}
    (h : ∀ a x, Only l x (f a x)) (hb : Only l b c) : Only l b (forEach xs f c) :=
  Only.foldl (fun x a => h a x) xs hb

end Sys2Proof.Machine
end

