-- ==== Sys2Proof/Laws/OnlyOps.lean ====
section
/-! SUPPORT. What each operation can change: the getters and setters, counters, interrupts, register access and reports. One lemma for each operation; the list names the
parts of the block outside which it leaves everything as it was. -/

namespace Sys2Proof.Machine

set_option linter.all false

theorem wr_only (p : Params) (a : ℕ) (v : Word32) (b : Block) :
    Only [.regs] b (wr p a v b) := by
  unfold wr
  try dsimp only
  repeat' first
    | with_reducible apply Only.refl
    | with_reducible apply Only.foldl
    | split
    | refine Only.update (by intro f hf; cases f <;> first | exact absurd (by decide) hf | dsimp only [agree]) ?_
    | (intro _; try dsimp only)

theorem setBits_only (p : Params) (a : ℕ) (m : Word32) (b : Block) :
    Only [.regs] b (setBits p a m b) := by
  unfold setBits
  try dsimp only
  repeat' first
    | with_reducible apply Only.refl
    | (with_reducible apply Only.next (wr_only _ _ _ _); · decide)
    | with_reducible apply Only.foldl
    | split
    | refine Only.update (by intro f hf; cases f <;> first | exact absurd (by decide) hf | dsimp only [agree]) ?_
    | (intro _; try dsimp only)

theorem tookSeq_only (b : Block) :
    Only [.clk] b (tookSeq b) := by
  unfold tookSeq
  try dsimp only
  repeat' first
    | with_reducible apply Only.refl
    | with_reducible apply Only.foldl
    | split
    | refine Only.update (by intro f hf; cases f <;> first | exact absurd (by decide) hf | dsimp only [agree]) ?_
    | (intro _; try dsimp only)

theorem updEnt_only (h : ℕ) (f : Entry → Entry) (b : Block) :
    Only [.ents] b (updEnt h f b) := by
  unfold updEnt
  try dsimp only
  repeat' first
    | with_reducible apply Only.refl
    | with_reducible apply Only.foldl
    | split
    | refine Only.update (by intro f hf; cases f <;> first | exact absurd (by decide) hf | dsimp only [agree]) ?_
    | (intro _; try dsimp only)

theorem updPort_only (n : ℕ) (f : Port → Port) (b : Block) :
    Only [.ports] b (updPort n f b) := by
  unfold updPort
  try dsimp only
  repeat' first
    | with_reducible apply Only.refl
    | with_reducible apply Only.foldl
    | split
    | refine Only.update (by intro f hf; cases f <;> first | exact absurd (by decide) hf | dsimp only [agree]) ?_
    | (intro _; try dsimp only)

theorem updRing_only (r : ℕ) (f : Ring → Ring) (b : Block) :
    Only [.rings] b (updRing r f b) := by
  unfold updRing
  try dsimp only
  repeat' first
    | with_reducible apply Only.refl
    | with_reducible apply Only.foldl
    | split
    | refine Only.update (by intro f hf; cases f <;> first | exact absurd (by decide) hf | dsimp only [agree]) ?_
    | (intro _; try dsimp only)

theorem updWalk_only (r : ℕ) (f : Walk → Walk) (b : Block) :
    Only [.rings] b (updWalk r f b) := by
  unfold updWalk
  try dsimp only
  repeat' first
    | with_reducible apply Only.refl
    | (with_reducible apply Only.next (updRing_only _ _ _); · decide)
    | with_reducible apply Only.foldl
    | split
    | refine Only.update (by intro f hf; cases f <;> first | exact absurd (by decide) hf | dsimp only [agree]) ?_
    | (intro _; try dsimp only)

theorem updTen_only (t : ℕ) (f : Tenant → Tenant) (b : Block) :
    Only [.tens] b (updTen t f b) := by
  unfold updTen
  try dsimp only
  repeat' first
    | with_reducible apply Only.refl
    | with_reducible apply Only.foldl
    | split
    | refine Only.update (by intro f hf; cases f <;> first | exact absurd (by decide) hf | dsimp only [agree]) ?_
    | (intro _; try dsimp only)

theorem updSlot_only (w : ℕ) (n : ℕ) (f : Slot → Slot) (b : Block) :
    Only [.slots] b (updSlot w n f b) := by
  unfold updSlot
  try dsimp only
  repeat' first
    | with_reducible apply Only.refl
    | with_reducible apply Only.foldl
    | split
    | refine Only.update (by intro f hf; cases f <;> first | exact absurd (by decide) hf | dsimp only [agree]) ?_
    | (intro _; try dsimp only)

theorem updMQ_only (w : ℕ) (q : ℕ) (f : MQ → MQ) (b : Block) :
    Only [.mq] b (updMQ w q f b) := by
  unfold updMQ
  try dsimp only
  repeat' first
    | with_reducible apply Only.refl
    | with_reducible apply Only.foldl
    | split
    | refine Only.update (by intro f hf; cases f <;> first | exact absurd (by decide) hf | dsimp only [agree]) ?_
    | (intro _; try dsimp only)

theorem updCQ_only (w : ℕ) (q : ℕ) (f : CQ → CQ) (b : Block) :
    Only [.cq] b (updCQ w q f b) := by
  unfold updCQ
  try dsimp only
  repeat' first
    | with_reducible apply Only.refl
    | with_reducible apply Only.foldl
    | split
    | refine Only.update (by intro f hf; cases f <;> first | exact absurd (by decide) hf | dsimp only [agree]) ?_
    | (intro _; try dsimp only)

theorem updHasp_only (h : ℕ) (f : Hasp → Hasp) (b : Block) :
    Only [.hasps] b (updHasp h f b) := by
  unfold updHasp
  try dsimp only
  repeat' first
    | with_reducible apply Only.refl
    | with_reducible apply Only.foldl
    | split
    | refine Only.update (by intro f hf; cases f <;> first | exact absurd (by decide) hf | dsimp only [agree]) ?_
    | (intro _; try dsimp only)

theorem updKPool_only (n : ℕ) (k : ℕ) (f : KPool → KPool) (b : Block) :
    Only [.kpool] b (updKPool n k f b) := by
  unfold updKPool
  try dsimp only
  repeat' first
    | with_reducible apply Only.refl
    | with_reducible apply Only.foldl
    | split
    | refine Only.update (by intro f hf; cases f <;> first | exact absurd (by decide) hf | dsimp only [agree]) ?_
    | (intro _; try dsimp only)

theorem setChan_only (c : ℕ) (v : Option Chan) (b : Block) :
    Only [.chans] b (setChan c v b) := by
  unfold setChan
  try dsimp only
  repeat' first
    | with_reducible apply Only.refl
    | with_reducible apply Only.foldl
    | split
    | refine Only.update (by intro f hf; cases f <;> first | exact absurd (by decide) hf | dsimp only [agree]) ?_
    | (intro _; try dsimp only)

theorem updHinge_only (h : ℕ) (f : Hinge → Hinge) (b : Block) :
    Only [.hg] b (updHinge h f b) := by
  unfold updHinge
  try dsimp only
  repeat' first
    | with_reducible apply Only.refl
    | with_reducible apply Only.foldl
    | split
    | refine Only.update (by intro f hf; cases f <;> first | exact absurd (by decide) hf | dsimp only [agree]) ?_
    | (intro _; try dsimp only)

theorem updPcl_only (c : ℕ) (f : PClass → PClass) (b : Block) :
    Only [.pcls] b (updPcl c f b) := by
  unfold updPcl
  try dsimp only
  repeat' first
    | with_reducible apply Only.refl
    | with_reducible apply Only.foldl
    | split
    | refine Only.update (by intro f hf; cases f <;> first | exact absurd (by decide) hf | dsimp only [agree]) ?_
    | (intro _; try dsimp only)

theorem updDom_only (d : ℕ) (f : Dom → Dom) (b : Block) :
    Only [.gov] b (updDom d f b) := by
  unfold updDom
  try dsimp only
  repeat' first
    | with_reducible apply Only.refl
    | with_reducible apply Only.foldl
    | split
    | refine Only.update (by intro f hf; cases f <;> first | exact absurd (by decide) hf | dsimp only [agree]) ?_
    | (intro _; try dsimp only)

theorem updFed_only (w : ℕ) (f : FedTab → FedTab) (b : Block) :
    Only [.fedt] b (updFed w f b) := by
  unfold updFed
  try dsimp only
  repeat' first
    | with_reducible apply Only.refl
    | with_reducible apply Only.foldl
    | split
    | refine Only.update (by intro f hf; cases f <;> first | exact absurd (by decide) hf | dsimp only [agree]) ?_
    | (intro _; try dsimp only)

theorem updDb_only (f : Dbolt → Dbolt) (b : Block) :
    Only [.dbolt] b (updDb f b) := by
  unfold updDb
  try dsimp only
  repeat' first
    | with_reducible apply Only.refl
    | with_reducible apply Only.foldl
    | split
    | refine Only.update (by intro f hf; cases f <;> first | exact absurd (by decide) hf | dsimp only [agree]) ?_
    | (intro _; try dsimp only)

theorem updBoot_only (f : Boot → Boot) (b : Block) :
    Only [.boot] b (updBoot f b) := by
  unfold updBoot
  try dsimp only
  repeat' first
    | with_reducible apply Only.refl
    | with_reducible apply Only.foldl
    | split
    | refine Only.update (by intro f hf; cases f <;> first | exact absurd (by decide) hf | dsimp only [agree]) ?_
    | (intro _; try dsimp only)

theorem updClk_only (f : Clk → Clk) (b : Block) :
    Only [.clk] b (updClk f b) := by
  unfold updClk
  try dsimp only
  repeat' first
    | with_reducible apply Only.refl
    | with_reducible apply Only.foldl
    | split
    | refine Only.update (by intro f hf; cases f <;> first | exact absurd (by decide) hf | dsimp only [agree]) ?_
    | (intro _; try dsimp only)

theorem updMgt_only (f : Mgt → Mgt) (b : Block) :
    Only [.mgt] b (updMgt f b) := by
  unfold updMgt
  try dsimp only
  repeat' first
    | with_reducible apply Only.refl
    | with_reducible apply Only.foldl
    | split
    | refine Only.update (by intro f hf; cases f <;> first | exact absurd (by decide) hf | dsimp only [agree]) ?_
    | (intro _; try dsimp only)

theorem updTr_only (f : Trace → Trace) (b : Block) :
    Only [.trace] b (updTr f b) := by
  unfold updTr
  try dsimp only
  repeat' first
    | with_reducible apply Only.refl
    | with_reducible apply Only.foldl
    | split
    | refine Only.update (by intro f hf; cases f <;> first | exact absurd (by decide) hf | dsimp only [agree]) ?_
    | (intro _; try dsimp only)

theorem updLog_only (f : Log → Log) (b : Block) :
    Only [.log] b (updLog f b) := by
  unfold updLog
  try dsimp only
  repeat' first
    | with_reducible apply Only.refl
    | with_reducible apply Only.foldl
    | split
    | refine Only.update (by intro f hf; cases f <;> first | exact absurd (by decide) hf | dsimp only [agree]) ?_
    | (intro _; try dsimp only)

theorem updMeter_only (f : Meter → Meter) (b : Block) :
    Only [.meter] b (updMeter f b) := by
  unfold updMeter
  try dsimp only
  repeat' first
    | with_reducible apply Only.refl
    | with_reducible apply Only.foldl
    | split
    | refine Only.update (by intro f hf; cases f <;> first | exact absurd (by decide) hf | dsimp only [agree]) ?_
    | (intro _; try dsimp only)

theorem emit_only (o : Out) (b : Block) :
    Only [.out] b (emit o b) := by
  unfold emit
  try dsimp only
  repeat' first
    | with_reducible apply Only.refl
    | with_reducible apply Only.foldl
    | split
    | refine Only.update (by intro f hf; cases f <;> first | exact absurd (by decide) hf | dsimp only [agree]) ?_
    | (intro _; try dsimp only)

theorem postW_only (p : Params) (w : ℕ) (addr : ℕ) (len : ℕ) (data : ℕ) (t : ℕ) (be : Bool) (b : Block) :
    Only [.out] b (postW p w addr len data t be b) := by
  unfold postW
  try dsimp only
  repeat' first
    | with_reducible apply Only.refl
    | (with_reducible apply Only.next (emit_only _ _); · decide)
    | with_reducible apply Only.foldl
    | split
    | refine Only.update (by intro f hf; cases f <;> first | exact absurd (by decide) hf | dsimp only [agree]) ?_
    | (intro _; try dsimp only)

theorem mpW_only (p : Params) (w : ℕ) (addr : ℕ) (len : ℕ) (data : ℕ) (t : ℕ) (be : Bool) (b : Block) :
    Only [.out] b (mpW p w addr len data t be b) := by
  unfold mpW
  try dsimp only
  repeat' first
    | with_reducible apply Only.refl
    | (with_reducible apply Only.next (emit_only _ _); · decide)
    | with_reducible apply Only.foldl
    | split
    | refine Only.update (by intro f hf; cases f <;> first | exact absurd (by decide) hf | dsimp only [agree]) ?_
    | (intro _; try dsimp only)

theorem mpR_only (p : Params) (w : ℕ) (addr : ℕ) (t : ℕ) (be : Bool) (b : Block) :
    Only [.out] b (mpR p w addr t be b) := by
  unfold mpR
  try dsimp only
  repeat' first
    | with_reducible apply Only.refl
    | (with_reducible apply Only.next (emit_only _ _); · decide)
    | with_reducible apply Only.foldl
    | split
    | refine Only.update (by intro f hf; cases f <;> first | exact absurd (by decide) hf | dsimp only [agree]) ?_
    | (intro _; try dsimp only)

theorem bump_only (a : ℕ) (n : ℕ) (b : Block) :
    Only [.cnt] b (bump a n b) := by
  unfold bump
  try dsimp only
  repeat' first
    | with_reducible apply Only.refl
    | with_reducible apply Only.foldl
    | split
    | refine Only.update (by intro f hf; cases f <;> first | exact absurd (by decide) hf | dsimp only [agree]) ?_
    | (intro _; try dsimp only)

theorem voidW_only (w : ℕ) (b : Block) :
    Only [.cnt] b (voidW w b) := by
  unfold voidW
  try dsimp only
  repeat' first
    | with_reducible apply Only.refl
    | (with_reducible apply Only.next (bump_only _ _ _); · decide)
    | with_reducible apply Only.foldl
    | split
    | refine Only.update (by intro f hf; cases f <;> first | exact absurd (by decide) hf | dsimp only [agree]) ?_
    | (intro _; try dsimp only)

theorem voidK_only (b : Block) :
    Only [.cnt] b (voidK b) := by
  unfold voidK
  try dsimp only
  repeat' first
    | with_reducible apply Only.refl
    | (with_reducible apply Only.next (bump_only _ _ _); · decide)
    | with_reducible apply Only.foldl
    | split
    | refine Only.update (by intro f hf; cases f <;> first | exact absurd (by decide) hf | dsimp only [agree]) ?_
    | (intro _; try dsimp only)

theorem msiWrite_only (p : Params) (k : ℕ) (b : Block) :
    Only [.out] b (msiWrite p k b) := by
  unfold msiWrite
  try dsimp only
  repeat' first
    | with_reducible apply Only.refl
    | (with_reducible apply Only.next (emit_only _ _); · decide)
    | with_reducible apply Only.foldl
    | split
    | refine Only.update (by intro f hf; cases f <;> first | exact absurd (by decide) hf | dsimp only [agree]) ?_
    | (intro _; try dsimp only)

theorem raise_only (p : Params) (a : ℕ) (m : Word32) (b : Block) :
    Only [.regs, .out] b (raise p a m b) := by
  unfold raise
  try dsimp only
  repeat' first
    | with_reducible apply Only.refl
    | (with_reducible apply Only.next (setBits_only _ _ _ _); · decide)
    | (with_reducible apply Only.next (msiWrite_only _ _ _); · decide)
    | with_reducible apply Only.when
    | with_reducible apply Only.forEach
    | with_reducible apply Only.foldl
    | split
    | refine Only.update (by intro f hf; cases f <;> first | exact absurd (by decide) hf | dsimp only [agree]) ?_
    | (intro _; try dsimp only)

theorem raiseK_only (p : Params) (i : ℕ) (b : Block) :
    Only [.regs, .out] b (raiseK p i b) := by
  unfold raiseK
  try dsimp only
  repeat' first
    | with_reducible apply Only.refl
    | (with_reducible apply Only.next (raise_only _ _ _ _); · decide)
    | with_reducible apply Only.foldl
    | split
    | refine Only.update (by intro f hf; cases f <;> first | exact absurd (by decide) hf | dsimp only [agree]) ?_
    | (intro _; try dsimp only)

theorem raiseW_only (p : Params) (w : ℕ) (i : ℕ) (b : Block) :
    Only [.regs, .out] b (raiseW p w i b) := by
  unfold raiseW
  try dsimp only
  repeat' first
    | with_reducible apply Only.refl
    | (with_reducible apply Only.next (raise_only _ _ _ _); · decide)
    | with_reducible apply Only.foldl
    | split
    | refine Only.update (by intro f hf; cases f <;> first | exact absurd (by decide) hf | dsimp only [agree]) ?_
    | (intro _; try dsimp only)

theorem raiseH_only (p : Params) (h : ℕ) (i : ℕ) (b : Block) :
    Only [.regs, .out] b (raiseH p h i b) := by
  unfold raiseH
  try dsimp only
  repeat' first
    | with_reducible apply Only.refl
    | (with_reducible apply Only.next (raise_only _ _ _ _); · decide)
    | with_reducible apply Only.foldl
    | split
    | refine Only.update (by intro f hf; cases f <;> first | exact absurd (by decide) hf | dsimp only [agree]) ?_
    | (intro _; try dsimp only)

theorem pgErrLine_only (p : Params) (base : ℕ) (b : Block) :
    Only [.regs, .out] b (pgErrLine p base b) := by
  unfold pgErrLine
  try dsimp only
  repeat' first
    | with_reducible apply Only.refl
    | (with_reducible apply Only.next (raiseK_only _ _ _); · decide)
    | (with_reducible apply Only.next (raiseW_only _ _ _ _); · decide)
    | (with_reducible apply Only.next (raiseH_only _ _ _ _); · decide)
    | with_reducible apply Only.foldl
    | split
    | refine Only.update (by intro f hf; cases f <;> first | exact absurd (by decide) hf | dsimp only [agree]) ?_
    | (intro _; try dsimp only)

theorem pgErr_only (p : Params) (base : ℕ) (i : ℕ) (b : Block) :
    Only [.regs, .out] b (pgErr p base i b) := by
  unfold pgErr
  try dsimp only
  repeat' first
    | with_reducible apply Only.refl
    | (with_reducible apply Only.next (setBits_only _ _ _ _); · decide)
    | (with_reducible apply Only.next (pgErrLine_only _ _ _); · decide)
    | with_reducible apply Only.when
    | with_reducible apply Only.foldl
    | split
    | refine Only.update (by intro f hf; cases f <;> first | exact absurd (by decide) hf | dsimp only [agree]) ?_
    | (intro _; try dsimp only)

theorem xtx_only (w : Option ℕ) (n : ℕ) (b : Block) :
    Only [.cnt] b (xtx w n b) := by
  unfold xtx
  try dsimp only
  repeat' first
    | with_reducible apply Only.refl
    | (with_reducible apply Only.next (bump_only _ _ _); · decide)
    | with_reducible apply Only.foldl
    | split
    | refine Only.update (by intro f hf; cases f <;> first | exact absurd (by decide) hf | dsimp only [agree]) ?_
    | (intro _; try dsimp only)

theorem xrx_only (w : ℕ) (n : ℕ) (b : Block) :
    Only [.cnt] b (xrx w n b) := by
  unfold xrx
  try dsimp only
  repeat' first
    | with_reducible apply Only.refl
    | (with_reducible apply Only.next (bump_only _ _ _); · decide)
    | with_reducible apply Only.foldl
    | split
    | refine Only.update (by intro f hf; cases f <;> first | exact absurd (by decide) hf | dsimp only [agree]) ?_
    | (intro _; try dsimp only)

theorem xput_only (it : XItem) (b : Block) :
    Only [.xbar] b (xput it b) := by
  unfold xput
  try dsimp only
  repeat' first
    | with_reducible apply Only.refl
    | with_reducible apply Only.foldl
    | split
    | refine Only.update (by intro f hf; cases f <;> first | exact absurd (by decide) hf | dsimp only [agree]) ?_
    | (intro _; try dsimp only)

theorem xsend_only (w : Option ℕ) (n : ℕ) (it : XItem) (b : Block) :
    Only [.cnt, .xbar] b (xsend w n it b) := by
  unfold xsend
  try dsimp only
  repeat' first
    | with_reducible apply Only.refl
    | (with_reducible apply Only.next (xtx_only _ _ _); · decide)
    | (with_reducible apply Only.next (xput_only _ _); · decide)
    | with_reducible apply Only.foldl
    | split
    | refine Only.update (by intro f hf; cases f <;> first | exact absurd (by decide) hf | dsimp only [agree]) ?_
    | (intro _; try dsimp only)

theorem xto_only (from_ : Option ℕ) (v : ℕ) (n : ℕ) (it : XItem) (b : Block) :
    Only [.cnt, .xbar] b (xto from_ v n it b) := by
  unfold xto
  try dsimp only
  repeat' first
    | with_reducible apply Only.refl
    | (with_reducible apply Only.next (xput_only _ _); · decide)
    | (with_reducible apply Only.next (xsend_only _ _ _ _); · decide)
    | with_reducible apply Only.foldl
    | split
    | refine Only.update (by intro f hf; cases f <;> first | exact absurd (by decide) hf | dsimp only [agree]) ?_
    | (intro _; try dsimp only)

theorem xfrom_only (from_ : Option ℕ) (v : ℕ) (n : ℕ) (b : Block) :
    Only [.cnt] b (xfrom from_ v n b) := by
  unfold xfrom
  try dsimp only
  repeat' first
    | with_reducible apply Only.refl
    | (with_reducible apply Only.next (xrx_only _ _ _); · decide)
    | with_reducible apply Only.when
    | with_reducible apply Only.foldl
    | split
    | refine Only.update (by intro f hf; cases f <;> first | exact absurd (by decide) hf | dsimp only [agree]) ?_
    | (intro _; try dsimp only)

theorem xdrop_only (f : XItem → Bool) (b : Block) :
    Only [.xbar] b (xdrop f b) := by
  unfold xdrop
  try dsimp only
  repeat' first
    | with_reducible apply Only.refl
    | with_reducible apply Only.foldl
    | split
    | refine Only.update (by intro f hf; cases f <;> first | exact absurd (by decide) hf | dsimp only [agree]) ?_
    | (intro _; try dsimp only)

theorem trStop_only (p : Params) (b : Block) :
    Only [.regs, .trace, .out] b (trStop p b) := by
  unfold trStop
  try dsimp only
  repeat' first
    | with_reducible apply Only.refl
    | (with_reducible apply Only.next (updTr_only _ _); · decide)
    | (with_reducible apply Only.next (raise_only _ _ _ _); · decide)
    | with_reducible apply Only.foldl
    | split
    | refine Only.update (by intro f hf; cases f <;> first | exact absurd (by decide) hf | dsimp only [agree]) ?_
    | (intro _; try dsimp only)

theorem trSlotPut_only (p : Params) (e : TrEnt) (delta : ℤ) (b : Block) :
    Only [.regs, .trace, .out] b (trSlotPut p e delta b) := by
  unfold trSlotPut
  try dsimp only
  repeat' first
    | with_reducible apply Only.refl
    | (with_reducible apply Only.next (updTr_only _ _); · decide)
    | (with_reducible apply Only.next (trStop_only _ _); · decide)
    | with_reducible apply Only.when
    | with_reducible apply Only.foldl
    | split
    | refine Only.update (by intro f hf; cases f <;> first | exact absurd (by decide) hf | dsimp only [agree]) ?_
    | (intro _; try dsimp only)

theorem trFull_only (p : Params) (ts : Word64) (b : Block) :
    Only [.regs, .trace, .out] b (trFull p ts b) := by
  unfold trFull
  try dsimp only
  repeat' first
    | with_reducible apply Only.refl
    | (with_reducible apply Only.next (updTr_only _ _); · decide)
    | (with_reducible apply Only.next (trSlotPut_only _ _ _ _); · decide)
    | with_reducible apply Only.foldl
    | split
    | refine Only.update (by intro f hf; cases f <;> first | exact absurd (by decide) hf | dsimp only [agree]) ?_
    | (intro _; try dsimp only)

theorem trPlace_only (p : Params) (e : TrEnt) (b : Block) :
    Only [.regs, .trace, .out] b (trPlace p e b) := by
  unfold trPlace
  try dsimp only
  repeat' first
    | with_reducible apply Only.refl
    | (with_reducible apply Only.next (trSlotPut_only _ _ _ _); · decide)
    | (with_reducible apply Only.next (trFull_only _ _ _); · decide)
    | with_reducible apply Only.foldl
    | split
    | refine Only.update (by intro f hf; cases f <;> first | exact absurd (by decide) hf | dsimp only [agree]) ?_
    | (intro _; try dsimp only)

theorem trTrigger_only (p : Params) (src : ℕ) (status : Status) (b : Block) :
    Only [.regs, .trace, .out] b (trTrigger p src status b) := by
  unfold trTrigger
  try dsimp only
  repeat' first
    | with_reducible apply Only.refl
    | (with_reducible apply Only.next (updTr_only _ _); · decide)
    | (with_reducible apply Only.next (raise_only _ _ _ _); · decide)
    | (with_reducible apply Only.next (trStop_only _ _); · decide)
    | (with_reducible apply Only.next (trFull_only _ _ _); · decide)
    | (with_reducible apply Only.next (trPlace_only _ _ _); · decide)
    | with_reducible apply Only.foldl
    | split
    | refine Only.update (by intro f hf; cases f <;> first | exact absurd (by decide) hf | dsimp only [agree]) ?_
    | (intro _; try dsimp only)

theorem trPush_only (u : ℕ) (e : TrEnt) (b : Block) :
    Only [.cnt, .trace] b (trPush u e b) := by
  unfold trPush
  try dsimp only
  repeat' first
    | with_reducible apply Only.refl
    | (with_reducible apply Only.next (updTr_only _ _); · decide)
    | (with_reducible apply Only.next (bump_only _ _ _); · decide)
    | with_reducible apply Only.foldl
    | split
    | refine Only.update (by intro f hf; cases f <;> first | exact absurd (by decide) hf | dsimp only [agree]) ?_
    | (intro _; try dsimp only)

theorem trForm_only (p : Params) (at_ : UnitId) (e : TrEnt) (b : Block) :
    Only [.cnt, .trace] b (trForm p at_ e b) := by
  unfold trForm
  try dsimp only
  repeat' first
    | with_reducible apply Only.refl
    | (with_reducible apply Only.next (trPush_only _ _ _); · decide)
    | with_reducible apply Only.foldl
    | split
    | refine Only.update (by intro f hf; cases f <;> first | exact absurd (by decide) hf | dsimp only [agree]) ?_
    | (intro _; try dsimp only)

theorem trTask_only (p : Params) (src : UnitId) (kind : ℕ) (d : TaskDesc) (aux : ℕ) (arg : Word32) (b : Block) :
    Only [.cnt, .trace] b (trTask p src kind d aux arg b) := by
  unfold trTask
  try dsimp only
  repeat' first
    | with_reducible apply Only.refl
    | (with_reducible apply Only.next (trForm_only _ _ _ _); · decide)
    | with_reducible apply Only.foldl
    | split
    | refine Only.update (by intro f hf; cases f <;> first | exact absurd (by decide) hf | dsimp only [agree]) ?_
    | (intro _; try dsimp only)

theorem trRing_only (p : Params) (src : UnitId) (kind : ℕ) (r : ℕ) (aux : ℕ) (arg : Word32) (b : Block) :
    Only [.cnt, .trace] b (trRing p src kind r aux arg b) := by
  unfold trRing
  try dsimp only
  repeat' first
    | with_reducible apply Only.refl
    | (with_reducible apply Only.next (trForm_only _ _ _ _); · decide)
    | with_reducible apply Only.foldl
    | split
    | refine Only.update (by intro f hf; cases f <;> first | exact absurd (by decide) hf | dsimp only [agree]) ?_
    | (intro _; try dsimp only)

theorem logIrq_only (p : Params) (u : UnitId) (b : Block) :
    Only [.regs, .out] b (logIrq p u b) := by
  unfold logIrq
  try dsimp only
  repeat' first
    | with_reducible apply Only.refl
    | (with_reducible apply Only.next (raiseK_only _ _ _); · decide)
    | (with_reducible apply Only.next (raiseW_only _ _ _ _); · decide)
    | (with_reducible apply Only.next (raiseH_only _ _ _ _); · decide)
    | with_reducible apply Only.foldl
    | split
    | refine Only.update (by intro f hf; cases f <;> first | exact absurd (by decide) hf | dsimp only [agree]) ?_
    | (intro _; try dsimp only)

theorem lastResort_only (r : LogRec) (b : Block) :
    Only [.log] b (lastResort r b) := by
  unfold lastResort
  try dsimp only
  repeat' first
    | with_reducible apply Only.refl
    | (with_reducible apply Only.next (updLog_only _ _); · decide)
    | with_reducible apply Only.foldl
    | split
    | refine Only.update (by intro f hf; cases f <;> first | exact absurd (by decide) hf | dsimp only [agree]) ?_
    | (intro _; try dsimp only)

theorem storeLog_only (p : Params) (r : LogRec) (b : Block) :
    Only [.regs, .log, .trace, .out] b (storeLog p r b) := by
  unfold storeLog
  try dsimp only
  repeat' first
    | with_reducible apply Only.refl
    | (with_reducible apply Only.next (updLog_only _ _); · decide)
    | (with_reducible apply Only.next (trTrigger_only _ _ _ _); · decide)
    | (with_reducible apply Only.next (logIrq_only _ _ _); · decide)
    | (with_reducible apply Only.next (lastResort_only _ _); · decide)
    | with_reducible apply Only.when
    | with_reducible apply Only.foldl
    | split
    | refine Only.update (by intro f hf; cases f <;> first | exact absurd (by decide) hf | dsimp only [agree]) ?_
    | (intro _; try dsimp only)

theorem logRec_only (p : Params) (r0 : LogRec) (b : Block) :
    Only [.regs, .cnt, .log, .trace, .out] b (logRec p r0 b) := by
  unfold logRec
  try dsimp only
  repeat' first
    | with_reducible apply Only.refl
    | (with_reducible apply Only.next (updLog_only _ _); · decide)
    | (with_reducible apply Only.next (trForm_only _ _ _ _); · decide)
    | (with_reducible apply Only.next (storeLog_only _ _ _); · decide)
    | with_reducible apply Only.foldl
    | split
    | refine Only.update (by intro f hf; cases f <;> first | exact absurd (by decide) hf | dsimp only [agree]) ?_
    | (intro _; try dsimp only)

theorem sendLog_only (n : ℕ) (b : Block) :
    Only [.cnt, .log] b (sendLog n b) := by
  unfold sendLog
  try dsimp only
  repeat' first
    | with_reducible apply Only.refl
    | (with_reducible apply Only.next (updLog_only _ _); · decide)
    | (with_reducible apply Only.next (xtx_only _ _ _); · decide)
    | with_reducible apply Only.foldl
    | split
    | refine Only.update (by intro f hf; cases f <;> first | exact absurd (by decide) hf | dsimp only [agree]) ?_
    | (intro _; try dsimp only)

theorem logCycle_only (b : Block) :
    Only [.cnt, .log] b (logCycle b) := by
  unfold logCycle
  try dsimp only
  repeat' first
    | with_reducible apply Only.refl
    | (with_reducible apply Only.next (updLog_only _ _); · decide)
    | (with_reducible apply Only.next (sendLog_only _ _); · decide)
    | with_reducible apply Only.forEach
    | with_reducible apply Only.foldl
    | split
    | refine Only.update (by intro f hf; cases f <;> first | exact absurd (by decide) hf | dsimp only [agree]) ?_
    | (intro _; try dsimp only)

theorem evRec_only (p : Params) (n : ℕ) (kind : ℕ) (status : Status) (aux : ℕ) (gen : ℕ) (h : ℕ) (b : Block) :
    Only [.cnt, .evr] b (evRec p n kind status aux gen h b) := by
  unfold evRec
  try dsimp only
  repeat' first
    | with_reducible apply Only.refl
    | (with_reducible apply Only.next (bump_only _ _ _); · decide)
    | with_reducible apply Only.foldl
    | split
    | refine Only.update (by intro f hf; cases f <;> first | exact absurd (by decide) hf | dsimp only [agree]) ?_
    | (intro _; try dsimp only)

theorem dropHeld_only (pages : List ℕ) (b : Block) :
    Only [.mgt] b (dropHeld pages b) := by
  unfold dropHeld
  try dsimp only
  repeat' first
    | with_reducible apply Only.refl
    | (with_reducible apply Only.next (updMgt_only _ _); · decide)
    | with_reducible apply Only.foldl
    | split
    | refine Only.update (by intro f hf; cases f <;> first | exact absurd (by decide) hf | dsimp only [agree]) ?_
    | (intro _; try dsimp only)

theorem regWrite_only {l : List BlockPart} {a : Nat} {data : Word32} {need pages : List Nat} {f : Block → Block} {b c : Block}
    (hl : ∀ g ∈ [BlockPart.mgt], g ∈ l) (hf : ∀ x, Only l x (f x)) (hb : Only l b c) : Only l b (regWrite a data need pages f c) := by
  unfold regWrite
  split
  · exact Only.next (dropHeld_only _ _) hl (Only.next (hf _) (fun _ k => k) (Only.next (updMgt_only _ _) hl hb))
  · exact Only.next (updMgt_only _ _) hl hb

theorem wardWrite_only {l : List BlockPart} {p : Params} {t : WTarget} {q o : Nat} {data : Word32} {tab : Bool}
    {f : Nat → Block → Block} {b c : Block} (hl : ∀ g ∈ [BlockPart.mgt, .regs, .out], g ∈ l) (hf : ∀ w x, Only l x (f w x))
    (hb : Only l b c) : Only l b (wardWrite p t q o data tab f c) := by
  have h1 : ∀ {need pages : List Nat}, Only l b (regWrite (tgtA t q o) data need pages (forEach (members p c t) f) c) := fun {_ _} =>
    regWrite_only (fun g hg => hl g (by simp at hg; simp [hg])) (fun _ => Only.forEach hf (Only.refl _ _)) hb
  unfold wardWrite
  dsimp only
  split
  · exact h1
  · exact Only.next (pgErr_only _ _ _ _) (fun g hg => hl g (by simp at hg ⊢; tauto)) h1
  · exact h1

theorem holdWord_only (a : ℕ) (v : Word32) (b : Block) :
    Only [.mgt] b (holdWord a v b) := by
  unfold holdWord
  try dsimp only
  repeat' first
    | with_reducible apply Only.refl
    | (with_reducible apply Only.next (updMgt_only _ _); · decide)
    | with_reducible apply Only.foldl
    | split
    | refine Only.update (by intro f hf; cases f <;> first | exact absurd (by decide) hf | dsimp only [agree]) ?_
    | (intro _; try dsimp only)

theorem wardHold_only (p : Params) (t : WTarget) (q : ℕ) (o : ℕ) (data : Word32) (b : Block) :
    Only [.mgt, .regs, .out] b (wardHold p t q o data b) := by
  unfold wardHold
  try dsimp only
  repeat' first
    | with_reducible apply Only.refl
    | (with_reducible apply Only.next (updMgt_only _ _); · decide)
    | (with_reducible apply Only.next (pgErr_only _ _ _ _); · decide)
    | (with_reducible apply Only.next (holdWord_only _ _ _); · decide)
    | with_reducible apply Only.forEach
    | with_reducible apply Only.foldl
    | split
    | refine Only.update (by intro f hf; cases f <;> first | exact absurd (by decide) hf | dsimp only [agree]) ?_
    | (intro _; try dsimp only)

end Sys2Proof.Machine
end

