-- ==== Sys2Proof/Laws/OnlyTasks.lean ====
section
/-! SUPPORT. What each operation can change: Hinge queues, settlement, tasks and placement. One lemma for each operation; the list names the
parts of the block outside which it leaves everything as it was. -/

namespace Sys2Proof.Machine

set_option linter.all false

theorem flitOut_only (h : ℕ) (hello : Option ℕ) (ts : Option Word64) (slots : List (BitVec 128)) (b : Block) :
    Only [.hg, .out] b (flitOut h hello ts slots b) := by
  unfold flitOut
  try dsimp only
  repeat' first
    | with_reducible apply Only.refl
    | (with_reducible apply Only.next (updHinge_only _ _ _); · decide)
    | (with_reducible apply Only.next (emit_only _ _); · decide)
    | with_reducible apply Only.foldl
    | split
    | refine Only.update (by intro f hf; cases f <;> first | exact absurd (by decide) hf | dsimp only [agree]) ?_
    | (intro _; try dsimp only)

theorem itemFlits_only (h : ℕ) (it : Item) (b : Block) :
    Only [.hg, .out] b (itemFlits h it b) := by
  unfold itemFlits
  try dsimp only
  repeat' first
    | with_reducible apply Only.refl
    | (with_reducible apply Only.next (flitOut_only _ _ _ _ _); · decide)
    | with_reducible apply Only.forEach
    | with_reducible apply Only.foldl
    | split
    | refine Only.update (by intro f hf; cases f <;> first | exact absurd (by decide) hf | dsimp only [agree]) ?_
    | (intro _; try dsimp only)

theorem itemOut_only (h : ℕ) (it : Item × Option ℕ) (b : Block) :
    Only [.cnt, .hg, .out] b (itemOut h it b) := by
  unfold itemOut
  try dsimp only
  repeat' first
    | with_reducible apply Only.refl
    | (with_reducible apply Only.next (updHinge_only _ _ _); · decide)
    | (with_reducible apply Only.next (bump_only _ _ _); · decide)
    | (with_reducible apply Only.next (itemFlits_only _ _ _); · decide)
    | with_reducible apply Only.foldl
    | split
    | refine Only.update (by intro f hf; cases f <;> first | exact absurd (by decide) hf | dsimp only [agree]) ?_
    | (intro _; try dsimp only)

theorem hingeFlush_only (h : ℕ) (x1 : ℕ) (x2 : Block) :
    Only [.cnt, .hg, .out] x2 (hingeFlush h x1 x2) := by
  induction x1 generalizing x2 with
  | zero =>
    unfold hingeFlush
    try dsimp only
    repeat' first
        | with_reducible apply Only.refl
        | (with_reducible apply Only.next (updHinge_only _ _ _); · decide)
        | (with_reducible apply Only.next (itemOut_only _ _ _); · decide)
        | with_reducible apply Only.foldl
        | split
        | refine Only.update (by intro f hf; cases f <;> first | exact absurd (by decide) hf | dsimp only [agree]) ?_
        | (intro _; try dsimp only)
  | succ k ih =>
    unfold hingeFlush
    try dsimp only
    repeat' first
        | (with_reducible apply Only.next (ih _); · decide)
        | with_reducible apply Only.refl
        | (with_reducible apply Only.next (updHinge_only _ _ _); · decide)
        | (with_reducible apply Only.next (itemOut_only _ _ _); · decide)
        | with_reducible apply Only.foldl
        | split
        | refine Only.update (by intro f hf; cases f <;> first | exact absurd (by decide) hf | dsimp only [agree]) ?_
        | (intro _; try dsimp only)

theorem hingePut_only (h : ℕ) (it : Item) (owner : Option ℕ) (b : Block) :
    Only [.cnt, .hg, .out] b (hingePut h it owner b) := by
  unfold hingePut
  try dsimp only
  repeat' first
    | with_reducible apply Only.refl
    | (with_reducible apply Only.next (updHinge_only _ _ _); · decide)
    | (with_reducible apply Only.next (hingeFlush_only _ _ _); · decide)
    | with_reducible apply Only.foldl
    | split
    | refine Only.update (by intro f hf; cases f <;> first | exact absurd (by decide) hf | dsimp only [agree]) ?_
    | (intro _; try dsimp only)

theorem goDown_only (p : Params) (h : ℕ) (b : Block) :
    Only [.hg] b (goDown p h b) := by
  unfold goDown
  try dsimp only
  repeat' first
    | with_reducible apply Only.refl
    | (with_reducible apply Only.next (updHinge_only _ _ _); · decide)
    | with_reducible apply Only.foldl
    | split
    | refine Only.update (by intro f hf; cases f <;> first | exact absurd (by decide) hf | dsimp only [agree]) ?_
    | (intro _; try dsimp only)

theorem hingeIn_only (h : ℕ) (slots : ℕ) (ordered : Bool) (b : Block) :
    Only [.cnt, .hg] b (hingeIn h slots ordered b) := by
  unfold hingeIn
  try dsimp only
  repeat' first
    | with_reducible apply Only.refl
    | (with_reducible apply Only.next (updHinge_only _ _ _); · decide)
    | (with_reducible apply Only.next (bump_only _ _ _); · decide)
    | with_reducible apply Only.foldl
    | split
    | refine Only.update (by intro f hf; cases f <;> first | exact absurd (by decide) hf | dsimp only [agree]) ?_
    | (intro _; try dsimp only)

theorem rxItem_only {l : List BlockPart} {p : Params} {h slots : Nat} {ordered : Bool} {f : Block → Block} {b c : Block}
    (hl : ∀ g ∈ [BlockPart.cnt, .hg], g ∈ l) (hf : ∀ x, Only l x (f x)) (hb : Only l b c) :
    Only l b (rxItem p h slots ordered f c) := by
  unfold rxItem
  split
  · exact hb
  · split
    · exact Only.next (goDown_only _ _ _) (fun g hg => hl g (by revert g; decide)) hb
    · exact Only.next (hf _) (fun _ k => k) (Only.next (hingeIn_only _ _ _ _) (fun g hg => hl g (by revert g; decide)) hb)

theorem rxData_only {l : List BlockPart} {p : Params} {h : Nat} {it : Item} {f : Item → Block → Block} {b c : Block}
    (hl : ∀ g ∈ [BlockPart.cnt, .hg], g ∈ l) (hf : ∀ i x, Only l x (f i x)) (hb : Only l b c) :
    Only l b (rxData p h it f c) :=
  rxItem_only (fun g hg => hl g (by revert g; decide))
    (fun x => Only.next (hf _ _) (fun _ k => k) (Only.mono (updHinge_only _ _ _) (fun g hg => hl g (by revert g; decide)))) hb

theorem rxItems_only {l : List BlockPart} {p : Params} {h : Nat} {s : List Nat} {ordered : Bool} {f : Block → Block}
    {b c : Block} (hl : ∀ g ∈ [BlockPart.cnt, .hg], g ∈ l) (hf : ∀ x, Only l x (f x)) (hb : Only l b c) :
    Only l b (rxItems p h s ordered f c) :=
  rxItem_only (fun g hg => hl g (by revert g; decide)) (fun x => Only.next (hf _) (fun _ k => k)
    (Only.forEach (fun n y => Only.mono (hingeIn_only _ _ _ _) (fun g hg => hl g (by revert g; decide))) (Only.refl _ _))) hb

theorem sendItem_only (w : Option ℕ) (it : Item) (b : Block) :
    Only [.cnt, .hg, .out] b (sendItem w it b) := by
  unfold sendItem
  try dsimp only
  repeat' first
    | with_reducible apply Only.refl
    | (with_reducible apply Only.next (xtx_only _ _ _); · decide)
    | (with_reducible apply Only.next (hingePut_only _ _ _ _); · decide)
    | with_reducible apply Only.foldl
    | split
    | refine Only.update (by intro f hf; cases f <;> first | exact absurd (by decide) hf | dsimp only [agree]) ?_
    | (intro _; try dsimp only)

theorem sendFor_only (h : ℕ) (it : Item) (b : Block) :
    Only [.cnt, .hg, .out] b (sendFor h it b) := by
  unfold sendFor
  try dsimp only
  repeat' first
    | with_reducible apply Only.refl
    | (with_reducible apply Only.next (xtx_only _ _ _); · decide)
    | (with_reducible apply Only.next (hingePut_only _ _ _ _); · decide)
    | with_reducible apply Only.foldl
    | split
    | refine Only.update (by intro f hf; cases f <;> first | exact absurd (by decide) hf | dsimp only [agree]) ?_
    | (intro _; try dsimp only)

theorem tally_only (p : Params) (src : Option ℕ) (t : ℕ) (f : Tally → Tally) (b : Block) :
    Only [.clk, .tally] b (tally p src t f b) := by
  unfold tally
  try dsimp only
  repeat' first
    | with_reducible apply Only.refl
    | (with_reducible apply Only.next (tookSeq_only _); · decide)
    | with_reducible apply Only.foldl
    | split
    | refine Only.update (by intro f hf; cases f <;> first | exact absurd (by decide) hf | dsimp only [agree]) ?_
    | (intro _; try dsimp only)

theorem answerTo_only (p : Params) (from_ : Option ℕ) (n : ℕ) (beat : BitVec 512) (b : Block) :
    Only [.cnt, .ports, .xbar] b (answerTo p from_ n beat b) := by
  unfold answerTo
  try dsimp only
  repeat' first
    | with_reducible apply Only.refl
    | (with_reducible apply Only.next (updPort_only _ _ _); · decide)
    | (with_reducible apply Only.next (xsend_only _ _ _ _); · decide)
    | with_reducible apply Only.foldl
    | split
    | refine Only.update (by intro f hf; cases f <;> first | exact absurd (by decide) hf | dsimp only [agree]) ?_
    | (intro _; try dsimp only)

theorem closeOwned_only (f : ChOwner → Bool) (b : Block) :
    Only [.cnt, .chans, .xbar] b (closeOwned f b) := by
  unfold closeOwned
  try dsimp only
  repeat' first
    | with_reducible apply Only.refl
    | (with_reducible apply Only.next (setChan_only _ _ _); · decide)
    | (with_reducible apply Only.next (xsend_only _ _ _ _); · decide)
    | with_reducible apply Only.when
    | with_reducible apply Only.forEach
    | with_reducible apply Only.foldl
    | split
    | refine Only.update (by intro f hf; cases f <;> first | exact absurd (by decide) hf | dsimp only [agree]) ?_
    | (intro _; try dsimp only)

theorem markCommit_only (w : ℕ) (b : Block) :
    Only [.cmtDue] b (markCommit w b) := by
  unfold markCommit
  try dsimp only
  repeat' first
    | with_reducible apply Only.refl
    | with_reducible apply Only.foldl
    | split
    | refine Only.update (by intro f hf; cases f <;> first | exact absurd (by decide) hf | dsimp only [agree]) ?_
    | (intro _; try dsimp only)

theorem updSub_only (r : ℕ) (subid : Word32) (f : Sub → Sub) (b : Block) :
    Only [.rings] b (updSub r subid f b) := by
  unfold updSub
  try dsimp only
  repeat' first
    | with_reducible apply Only.refl
    | (with_reducible apply Only.next (updRing_only _ _ _); · decide)
    | with_reducible apply Only.foldl
    | split
    | refine Only.update (by intro f hf; cases f <;> first | exact absurd (by decide) hf | dsimp only [agree]) ?_
    | (intro _; try dsimp only)

theorem progress_only (r : ℕ) (b : Block) :
    Only [.rings] b (progress r b) := by
  unfold progress
  try dsimp only
  repeat' first
    | with_reducible apply Only.refl
    | (with_reducible apply Only.next (updRing_only _ _ _); · decide)
    | with_reducible apply Only.foldl
    | split
    | refine Only.update (by intro f hf; cases f <;> first | exact absurd (by decide) hf | dsimp only [agree]) ?_
    | (intro _; try dsimp only)

theorem overSub_only (r : ℕ) (at_ : ℕ) (b : Block) :
    Only [.rings] b (overSub r at_ b) := by
  unfold overSub
  try dsimp only
  repeat' first
    | with_reducible apply Only.refl
    | (with_reducible apply Only.next (updRing_only _ _ _); · decide)
    | with_reducible apply Only.foldl
    | split
    | refine Only.update (by intro f hf; cases f <;> first | exact absurd (by decide) hf | dsimp only [agree]) ?_
    | (intro _; try dsimp only)

theorem overSteps_only (r : ℕ) (x1 : List (Option ℕ)) (b : Block) :
    Only [.rings] b (overSteps r x1 b) := by
  unfold overSteps
  try dsimp only
  repeat' first
    | with_reducible apply Only.refl
    | (with_reducible apply Only.next (updRing_only _ _ _); · decide)
    | with_reducible apply Only.foldl
    | split
    | refine Only.update (by intro f hf; cases f <;> first | exact absurd (by decide) hf | dsimp only [agree]) ?_
    | (intro _; try dsimp only)

theorem stepAdvance_only (p : Params) (r : ℕ) (x2 : ℕ) (x3 : Block) :
    Only [.cnt, .rings, .chans, .trace, .xbar] x3 (stepAdvance p r x2 x3) := by
  induction x2 generalizing x3 with
  | zero =>
    unfold stepAdvance
    try dsimp only
    repeat' first
        | with_reducible apply Only.refl
        | (with_reducible apply Only.next (updRing_only _ _ _); · decide)
        | (with_reducible apply Only.next (trRing_only _ _ _ _ _ _ _); · decide)
        | (with_reducible apply Only.next (closeOwned_only _ _); · decide)
        | (with_reducible apply Only.next (overSteps_only _ _ _); · decide)
        | with_reducible apply Only.foldl
        | split
        | refine Only.update (by intro f hf; cases f <;> first | exact absurd (by decide) hf | dsimp only [agree]) ?_
        | (intro _; try dsimp only)
  | succ k ih =>
    unfold stepAdvance
    try dsimp only
    repeat' first
        | (with_reducible apply Only.next (ih _); · decide)
        | with_reducible apply Only.refl
        | (with_reducible apply Only.next (updRing_only _ _ _); · decide)
        | (with_reducible apply Only.next (trRing_only _ _ _ _ _ _ _); · decide)
        | (with_reducible apply Only.next (closeOwned_only _ _); · decide)
        | (with_reducible apply Only.next (overSteps_only _ _ _); · decide)
        | with_reducible apply Only.foldl
        | split
        | refine Only.update (by intro f hf; cases f <;> first | exact absurd (by decide) hf | dsimp only [agree]) ?_
        | (intro _; try dsimp only)

theorem doneAdvance_only (p : Params) (r : ℕ) (x2 : ℕ) (x3 : Block) :
    Only [.rings, .tdone, .out] x3 (doneAdvance p r x2 x3) := by
  induction x2 generalizing x3 with
  | zero =>
    unfold doneAdvance
    try dsimp only
    repeat' first
        | with_reducible apply Only.refl
        | (with_reducible apply Only.next (updRing_only _ _ _); · decide)
        | (with_reducible apply Only.next (postW_only _ _ _ _ _ _ _ _); · decide)
        | with_reducible apply Only.foldl
        | split
        | refine Only.update (by intro f hf; cases f <;> first | exact absurd (by decide) hf | dsimp only [agree]) ?_
        | (intro _; try dsimp only)
  | succ k ih =>
    unfold doneAdvance
    try dsimp only
    repeat' first
        | (with_reducible apply Only.next (ih _); · decide)
        | with_reducible apply Only.refl
        | (with_reducible apply Only.next (updRing_only _ _ _); · decide)
        | (with_reducible apply Only.next (postW_only _ _ _ _ _ _ _ _); · decide)
        | with_reducible apply Only.foldl
        | split
        | refine Only.update (by intro f hf; cases f <;> first | exact absurd (by decide) hf | dsimp only [agree]) ?_
        | (intro _; try dsimp only)

theorem subCheck_only (p : Params) (r : ℕ) (subid : Word32) (b : Block) :
    Only [.cnt, .cmtDue, .rings, .tdone, .chans, .xbar, .out] b (subCheck p r subid b) := by
  unfold subCheck
  try dsimp only
  repeat' first
    | with_reducible apply Only.refl
    | (with_reducible apply Only.next (postW_only _ _ _ _ _ _ _ _); · decide)
    | (with_reducible apply Only.next (closeOwned_only _ _); · decide)
    | (with_reducible apply Only.next (markCommit_only _ _); · decide)
    | (with_reducible apply Only.next (updSub_only _ _ _ _); · decide)
    | (with_reducible apply Only.next (overSub_only _ _ _); · decide)
    | (with_reducible apply Only.next (doneAdvance_only _ _ _ _); · decide)
    | with_reducible apply Only.when
    | with_reducible apply Only.foldl
    | split
    | refine Only.update (by intro f hf; cases f <;> first | exact absurd (by decide) hf | dsimp only [agree]) ?_
    | (intro _; try dsimp only)

theorem startNext_only (r : ℕ) (b : Block) :
    Only [.rings] b (startNext r b) := by
  unfold startNext
  try dsimp only
  repeat' first
    | with_reducible apply Only.refl
    | (with_reducible apply Only.next (updWalk_only _ _ _); · decide)
    | with_reducible apply Only.foldl
    | split
    | refine Only.update (by intro f hf; cases f <;> first | exact absurd (by decide) hf | dsimp only [agree]) ?_
    | (intro _; try dsimp only)

theorem walkEnd_only (p : Params) (r : ℕ) (b : Block) :
    Only [.cnt, .cmtDue, .rings, .tdone, .chans, .xbar, .out] b (walkEnd p r b) := by
  unfold walkEnd
  try dsimp only
  repeat' first
    | with_reducible apply Only.refl
    | (with_reducible apply Only.next (updSub_only _ _ _ _); · decide)
    | (with_reducible apply Only.next (subCheck_only _ _ _ _); · decide)
    | (with_reducible apply Only.next (startNext_only _ _); · decide)
    | with_reducible apply Only.foldl
    | split
    | refine Only.update (by intro f hf; cases f <;> first | exact absurd (by decide) hf | dsimp only [agree]) ?_
    | (intro _; try dsimp only)

theorem leaveSeg_only (p : Params) (r : ℕ) (b : Block) :
    Only [.cnt, .cmtDue, .rings, .tdone, .chans, .xbar, .out] b (leaveSeg p r b) := by
  unfold leaveSeg
  try dsimp only
  repeat' first
    | with_reducible apply Only.refl
    | (with_reducible apply Only.next (updWalk_only _ _ _); · decide)
    | (with_reducible apply Only.next (walkEnd_only _ _ _); · decide)
    | with_reducible apply Only.foldl
    | split
    | refine Only.update (by intro f hf; cases f <;> first | exact absurd (by decide) hf | dsimp only [agree]) ?_
    | (intro _; try dsimp only)

theorem passRec_only (p : Params) (r : ℕ) (b : Block) :
    Only [.cnt, .cmtDue, .rings, .tdone, .chans, .xbar, .out] b (passRec p r b) := by
  unfold passRec
  try dsimp only
  repeat' first
    | with_reducible apply Only.refl
    | (with_reducible apply Only.next (updWalk_only _ _ _); · decide)
    | (with_reducible apply Only.next (leaveSeg_only _ _ _); · decide)
    | with_reducible apply Only.foldl
    | split
    | refine Only.update (by intro f hf; cases f <;> first | exact absurd (by decide) hf | dsimp only [agree]) ?_
    | (intro _; try dsimp only)

theorem walkOn_only (p : Params) (r : ℕ) (b : Block) :
    Only [.cnt, .cmtDue, .rings, .tdone, .chans, .xbar, .out] b (walkOn p r b) := by
  unfold walkOn
  try dsimp only
  repeat' first
    | with_reducible apply Only.refl
    | (with_reducible apply Only.next (leaveSeg_only _ _ _); · decide)
    | with_reducible apply Only.foldl
    | split
    | refine Only.update (by intro f hf; cases f <;> first | exact absurd (by decide) hf | dsimp only [agree]) ?_
    | (intro _; try dsimp only)

theorem toRun_only (p : Params) (r : ℕ) (b : Block) :
    Only [.cnt, .cmtDue, .rings, .tdone, .chans, .resumeQ, .trace, .xbar, .out] b (toRun p r b) := by
  unfold toRun
  try dsimp only
  repeat' first
    | with_reducible apply Only.refl
    | (with_reducible apply Only.next (updRing_only _ _ _); · decide)
    | (with_reducible apply Only.next (trRing_only _ _ _ _ _ _ _); · decide)
    | (with_reducible apply Only.next (walkOn_only _ _ _); · decide)
    | with_reducible apply Only.foldl
    | split
    | refine Only.update (by intro f hf; cases f <;> first | exact absurd (by decide) hf | dsimp only [agree]) ?_
    | (intro _; try dsimp only)

theorem gateCheck_only (p : Params) (r : ℕ) (b : Block) :
    Only [.clk, .regs, .cnt, .cmtDue, .rings, .tdone, .chans, .resumeQ, .log, .trace, .tally, .xbar, .out] b (gateCheck p r b) := by
  unfold gateCheck
  try dsimp only
  repeat' first
    | with_reducible apply Only.refl
    | (with_reducible apply Only.next (updRing_only _ _ _); · decide)
    | (with_reducible apply Only.next (bump_only _ _ _); · decide)
    | (with_reducible apply Only.next (trRing_only _ _ _ _ _ _ _); · decide)
    | (with_reducible apply Only.next (logRec_only _ _ _); · decide)
    | (with_reducible apply Only.next (tally_only _ _ _ _ _); · decide)
    | (with_reducible apply Only.next (toRun_only _ _ _); · decide)
    | with_reducible apply Only.when
    | with_reducible apply Only.foldl
    | split
    | refine Only.update (by intro f hf; cases f <;> first | exact absurd (by decide) hf | dsimp only [agree]) ?_
    | (intro _; try dsimp only)

theorem ringSettle_only (p : Params) (r : ℕ) (subid : Word32) (step : Option ℕ) (st : TState) (status : Status) (discard : Bool) (b : Block) :
    Only [.clk, .regs, .cnt, .cmtDue, .rings, .tdone, .chans, .resumeQ, .log, .trace, .tally, .xbar, .out] b (ringSettle p r subid step st status discard b) := by
  unfold ringSettle
  try dsimp only
  repeat' first
    | with_reducible apply Only.refl
    | (with_reducible apply Only.next (updRing_only _ _ _); · decide)
    | (with_reducible apply Only.next (updSub_only _ _ _ _); · decide)
    | (with_reducible apply Only.next (progress_only _ _); · decide)
    | (with_reducible apply Only.next (stepAdvance_only _ _ _ _); · decide)
    | (with_reducible apply Only.next (subCheck_only _ _ _ _); · decide)
    | (with_reducible apply Only.next (gateCheck_only _ _ _); · decide)
    | with_reducible apply Only.foldl
    | split
    | refine Only.update (by intro f hf; cases f <;> first | exact absurd (by decide) hf | dsimp only [agree]) ?_
    | (intro _; try dsimp only)

theorem settleSlots_only (w : ℕ) (e : Entry) (done : Bool) (b : Block) :
    Only [.clk] b (settleSlots w e done b) := by
  unfold settleSlots
  try dsimp only
  repeat' first
    | with_reducible apply Only.refl
    | (with_reducible apply Only.next (updClk_only _ _); · decide)
    | with_reducible apply Only.foldl
    | split
    | refine Only.update (by intro f hf; cases f <;> first | exact absurd (by decide) hf | dsimp only [agree]) ?_
    | (intro _; try dsimp only)

theorem slotApply_only (x0 : SlotFx) (b : Block) :
    Only [.slots] b (slotApply x0 b) := by
  unfold slotApply
  try dsimp only
  repeat' first
    | with_reducible apply Only.refl
    | (with_reducible apply Only.next (updSlot_only _ _ _ _); · decide)
    | with_reducible apply Only.foldl
    | split
    | refine Only.update (by intro f hf; cases f <;> first | exact absurd (by decide) hf | dsimp only [agree]) ?_
    | (intro _; try dsimp only)

theorem slotRank_only (b : Block) :
    Only [.clk, .slots] b (slotRank b) := by
  unfold slotRank
  try dsimp only
  repeat' first
    | with_reducible apply Only.refl
    | (with_reducible apply Only.next (updClk_only _ _); · decide)
    | (with_reducible apply Only.next (slotApply_only _ _); · decide)
    | with_reducible apply Only.forEach
    | with_reducible apply Only.foldl
    | split
    | refine Only.update (by intro f hf; cases f <;> first | exact absurd (by decide) hf | dsimp only [agree]) ?_
    | (intro _; try dsimp only)

theorem faultTo_only (w : Option ℕ) (r : ℕ) (subid : Word32) (st : Status) (b : Block) :
    Only [.cnt, .xbar] b (faultTo w r subid st b) := by
  unfold faultTo
  try dsimp only
  repeat' first
    | with_reducible apply Only.refl
    | (with_reducible apply Only.next (xsend_only _ _ _ _); · decide)
    | with_reducible apply Only.foldl
    | split
    | refine Only.update (by intro f hf; cases f <;> first | exact absurd (by decide) hf | dsimp only [agree]) ?_
    | (intro _; try dsimp only)

theorem settleSignals_only (p : Params) (h : ℕ) (e : Entry) (done : Bool) (b : Block) :
    Only [.cnt, .hg, .xbar, .out] b (settleSignals p h e done b) := by
  unfold settleSignals
  try dsimp only
  repeat' first
    | with_reducible apply Only.refl
    | (with_reducible apply Only.next (xsend_only _ _ _ _); · decide)
    | (with_reducible apply Only.next (sendItem_only _ _ _); · decide)
    | (with_reducible apply Only.next (faultTo_only _ _ _ _ _); · decide)
    | with_reducible apply Only.forEach
    | with_reducible apply Only.foldl
    | split
    | refine Only.update (by intro f hf; cases f <;> first | exact absurd (by decide) hf | dsimp only [agree]) ?_
    | (intro _; try dsimp only)

theorem canSend_only (p : Params) (n : ℕ) (h : ℕ) (gen : ℕ) (b : Block) :
    Only [.cnt, .ports, .evr, .out] b (canSend p n h gen b) := by
  unfold canSend
  try dsimp only
  repeat' first
    | with_reducible apply Only.refl
    | (with_reducible apply Only.next (updPort_only _ _ _); · decide)
    | (with_reducible apply Only.next (emit_only _ _); · decide)
    | (with_reducible apply Only.next (evRec_only _ _ _ _ _ _ _ _); · decide)
    | with_reducible apply Only.foldl
    | split
    | refine Only.update (by intro f hf; cases f <;> first | exact absurd (by decide) hf | dsimp only [agree]) ?_
    | (intro _; try dsimp only)

theorem stopPreload_only (n : ℕ) (h : ℕ) (gen : ℕ) (b : Block) :
    Only [.ports] b (stopPreload n h gen b) := by
  unfold stopPreload
  try dsimp only
  repeat' first
    | with_reducible apply Only.refl
    | (with_reducible apply Only.next (updPort_only _ _ _); · decide)
    | with_reducible apply Only.foldl
    | split
    | refine Only.update (by intro f hf; cases f <;> first | exact absurd (by decide) hf | dsimp only [agree]) ?_
    | (intro _; try dsimp only)

theorem unloadStage_only (p : Params) (n : ℕ) (h : ℕ) (gen : ℕ) (b : Block) :
    Only [.cnt, .ents, .ports, .evr, .trace, .out] b (unloadStage p n h gen b) := by
  unfold unloadStage
  try dsimp only
  repeat' first
    | with_reducible apply Only.refl
    | (with_reducible apply Only.next (updEnt_only _ _ _); · decide)
    | (with_reducible apply Only.next (updPort_only _ _ _); · decide)
    | (with_reducible apply Only.next (bump_only _ _ _); · decide)
    | (with_reducible apply Only.next (trTask_only _ _ _ _ _ _ _); · decide)
    | (with_reducible apply Only.next (canSend_only _ _ _ _ _); · decide)
    | (with_reducible apply Only.next (stopPreload_only _ _ _ _); · decide)
    | with_reducible apply Only.foldl
    | split
    | refine Only.update (by intro f hf; cases f <;> first | exact absurd (by decide) hf | dsimp only [agree]) ?_
    | (intro _; try dsimp only)

theorem removeWait_only (p : Params) (w : Option ℕ) (who : Waiter) (inst : Option ℕ) (hasp : ℕ) (tenant : ℕ) (tag : Word32) (b : Block) :
    Only [.cnt, .waits, .hg, .out] b (removeWait p w who inst hasp tenant tag b) := by
  unfold removeWait
  try dsimp only
  repeat' first
    | with_reducible apply Only.refl
    | (with_reducible apply Only.next (sendItem_only _ _ _); · decide)
    | with_reducible apply Only.when
    | with_reducible apply Only.foldl
    | split
    | refine Only.update (by intro f hf; cases f <;> first | exact absurd (by decide) hf | dsimp only [agree]) ?_
    | (intro _; try dsimp only)

theorem dropPortWait_only (p : Params) (n : ℕ) (b : Block) :
    Only [.cnt, .ports, .waits, .hg, .evr, .out] b (dropPortWait p n b) := by
  unfold dropPortWait
  try dsimp only
  repeat' first
    | with_reducible apply Only.refl
    | (with_reducible apply Only.next (updPort_only _ _ _); · decide)
    | (with_reducible apply Only.next (evRec_only _ _ _ _ _ _ _ _); · decide)
    | (with_reducible apply Only.next (removeWait_only _ _ _ _ _ _ _ _); · decide)
    | with_reducible apply Only.foldl
    | split
    | refine Only.update (by intro f hf; cases f <;> first | exact absurd (by decide) hf | dsimp only [agree]) ?_
    | (intro _; try dsimp only)

theorem unqueue_only (p : Params) (n : ℕ) (h : ℕ) (gen : ℕ) (b : Block) :
    Only [.cnt, .ports, .waits, .hg, .evr, .out] b (unqueue p n h gen b) := by
  unfold unqueue
  try dsimp only
  repeat' first
    | with_reducible apply Only.refl
    | (with_reducible apply Only.next (updPort_only _ _ _); · decide)
    | (with_reducible apply Only.next (canSend_only _ _ _ _ _); · decide)
    | (with_reducible apply Only.next (stopPreload_only _ _ _ _); · decide)
    | (with_reducible apply Only.next (dropPortWait_only _ _ _); · decide)
    | with_reducible apply Only.when
    | with_reducible apply Only.foldl
    | split
    | refine Only.update (by intro f hf; cases f <;> first | exact absurd (by decide) hf | dsimp only [agree]) ?_
    | (intro _; try dsimp only)

theorem unstage_only (p : Params) (h : ℕ) (b : Block) :
    Only [.cnt, .ents, .ports, .evr, .trace, .xbar, .out] b (unstage p h b) := by
  unfold unstage
  try dsimp only
  repeat' first
    | with_reducible apply Only.refl
    | (with_reducible apply Only.next (xsend_only _ _ _ _); · decide)
    | (with_reducible apply Only.next (unloadStage_only _ _ _ _ _); · decide)
    | with_reducible apply Only.when
    | with_reducible apply Only.foldl
    | split
    | refine Only.update (by intro f hf; cases f <;> first | exact absurd (by decide) hf | dsimp only [agree]) ?_
    | (intro _; try dsimp only)

theorem digestWrite_only (p : Params) (w : ℕ) (x2 : Watch) (d : ℕ) (q : Option ℕ) (b : Block) :
    Only [.rings, .watch, .out] b (digestWrite p w x2 d q b) := by
  unfold digestWrite
  try dsimp only
  repeat' first
    | with_reducible apply Only.refl
    | (with_reducible apply Only.next (mpW_only _ _ _ _ _ _ _ _); · decide)
    | (with_reducible apply Only.next (updSub_only _ _ _ _); · decide)
    | with_reducible apply Only.foldl
    | split
    | refine Only.update (by intro f hf; cases f <;> first | exact absurd (by decide) hf | dsimp only [agree]) ?_
    | (intro _; try dsimp only)

theorem watchDrop_only (p : Params) (kind : ℕ) (obj : ℕ) (b : Block) :
    Only [.rings, .tdone, .watch, .out] b (watchDrop p kind obj b) := by
  unfold watchDrop
  try dsimp only
  repeat' first
    | with_reducible apply Only.refl
    | (with_reducible apply Only.next (updSub_only _ _ _ _); · decide)
    | (with_reducible apply Only.next (doneAdvance_only _ _ _ _); · decide)
    | with_reducible apply Only.foldl
    | split
    | refine Only.update (by intro f hf; cases f <;> first | exact absurd (by decide) hf | dsimp only [agree]) ?_
    | (intro _; try dsimp only)

theorem settleWatch_only (p : Params) (h : ℕ) (status : Status) (stats : Option (BitVec 256)) (b : Block) :
    Only [.rings, .watch, .out] b (settleWatch p h status stats b) := by
  unfold settleWatch
  try dsimp only
  repeat' first
    | with_reducible apply Only.refl
    | (with_reducible apply Only.next (digestWrite_only _ _ _ _ _ _); · decide)
    | with_reducible apply Only.foldl
    | split
    | refine Only.update (by intro f hf; cases f <;> first | exact absurd (by decide) hf | dsimp only [agree]) ?_
    | (intro _; try dsimp only)

theorem settleTally_only (p : Params) (h : ℕ) (e : Entry) (busy : ℕ) (qwait : ℕ) (done : Bool) (b : Block) :
    Only [.clk, .cnt, .tally] b (settleTally p h e busy qwait done b) := by
  unfold settleTally
  try dsimp only
  repeat' first
    | with_reducible apply Only.refl
    | (with_reducible apply Only.next (bump_only _ _ _); · decide)
    | (with_reducible apply Only.next (tally_only _ _ _ _ _); · decide)
    | with_reducible apply Only.foldl
    | split
    | refine Only.update (by intro f hf; cases f <;> first | exact absurd (by decide) hf | dsimp only [agree]) ?_
    | (intro _; try dsimp only)

theorem settleRing_only (p : Params) (h : ℕ) (e : Entry) (st : TState) (status : Status) (b : Block) :
    Only [.clk, .regs, .cnt, .cmtDue, .ents, .rings, .tdone, .chans, .resumeQ, .hg, .log, .trace, .tally, .xbar, .out] b (settleRing p h e st status b) := by
  unfold settleRing
  try dsimp only
  repeat' first
    | with_reducible apply Only.refl
    | (with_reducible apply Only.next (updEnt_only _ _ _); · decide)
    | (with_reducible apply Only.next (xsend_only _ _ _ _); · decide)
    | (with_reducible apply Only.next (sendFor_only _ _ _); · decide)
    | (with_reducible apply Only.next (ringSettle_only _ _ _ _ _ _ _ _); · decide)
    | with_reducible apply Only.foldl
    | split
    | refine Only.update (by intro f hf; cases f <;> first | exact absurd (by decide) hf | dsimp only [agree]) ?_
    | (intro _; try dsimp only)

theorem refetch_only (p : Params) (h : ℕ) (b : Block) :
    Only [.out] b (refetch p h b) := by
  unfold refetch
  try dsimp only
  repeat' first
    | with_reducible apply Only.refl
    | (with_reducible apply Only.next (mpR_only _ _ _ _ _ _); · decide)
    | with_reducible apply Only.forEach
    | with_reducible apply Only.foldl
    | split
    | refine Only.update (by intro f hf; cases f <;> first | exact absurd (by decide) hf | dsimp only [agree]) ?_
    | (intro _; try dsimp only)

theorem settle_only (p : Params) (h : ℕ) (st : TState) (status : Status) (root : Option Word32) (rel : Bool) (run : Option (ℕ × ℕ)) (stats : Option (BitVec 256)) (aux : Word32) (b : Block) :
    Only [.clk, .regs, .cnt, .cmtDue, .ents, .ports, .rings, .tdone, .chans, .resumeQ, .hg, .log, .evr, .trace, .watch, .tally, .xbar, .out] b (settle p h st status root rel run stats aux b) := by
  unfold settle
  try dsimp only
  repeat' first
    | with_reducible apply Only.refl
    | (with_reducible apply Only.next (updEnt_only _ _ _); · decide)
    | (with_reducible apply Only.next (updClk_only _ _); · decide)
    | (with_reducible apply Only.next (bump_only _ _ _); · decide)
    | (with_reducible apply Only.next (trTask_only _ _ _ _ _ _ _); · decide)
    | (with_reducible apply Only.next (logRec_only _ _ _); · decide)
    | (with_reducible apply Only.next (closeOwned_only _ _); · decide)
    | (with_reducible apply Only.next (settleSlots_only _ _ _ _); · decide)
    | (with_reducible apply Only.next (settleSignals_only _ _ _ _ _); · decide)
    | (with_reducible apply Only.next (unstage_only _ _ _); · decide)
    | (with_reducible apply Only.next (settleWatch_only _ _ _ _ _); · decide)
    | (with_reducible apply Only.next (settleTally_only _ _ _ _ _ _ _); · decide)
    | (with_reducible apply Only.next (settleRing_only _ _ _ _ _ _); · decide)
    | (with_reducible apply Only.next (refetch_only _ _ _); · decide)
    | with_reducible apply Only.when
    | with_reducible apply Only.foldl
    | split
    | refine Only.update (by intro f hf; cases f <;> first | exact absurd (by decide) hf | dsimp only [agree]) ?_
    | (intro _; try dsimp only)

theorem bumpNack_only (p : Params) (n : ℕ) (st : Status) (b : Block) :
    Only [.cnt] b (bumpNack p n st b) := by
  unfold bumpNack
  try dsimp only
  repeat' first
    | with_reducible apply Only.refl
    | (with_reducible apply Only.next (bump_only _ _ _); · decide)
    | with_reducible apply Only.when
    | with_reducible apply Only.foldl
    | split
    | refine Only.update (by intro f hf; cases f <;> first | exact absurd (by decide) hf | dsimp only [agree]) ?_
    | (intro _; try dsimp only)

theorem partDone_only (p : Params) (n : ℕ) (tag : BitVec 16) (st : Status) (b : Block) :
    Only [.cnt, .ports] b (partDone p n tag st b) := by
  unfold partDone
  try dsimp only
  repeat' first
    | with_reducible apply Only.refl
    | (with_reducible apply Only.next (updPort_only _ _ _); · decide)
    | (with_reducible apply Only.next (bump_only _ _ _); · decide)
    | (with_reducible apply Only.next (bumpNack_only _ _ _ _); · decide)
    | with_reducible apply Only.when
    | with_reducible apply Only.foldl
    | split
    | refine Only.update (by intro f hf; cases f <;> first | exact absurd (by decide) hf | dsimp only [agree]) ?_
    | (intro _; try dsimp only)

theorem answerPart_only (p : Params) (w : ℕ) (n : ℕ) (tag : BitVec 16) (st : Status) (result : ℕ) (b : Block) :
    Only [.cnt, .ports, .xbar] b (answerPart p w n tag st result b) := by
  unfold answerPart
  try dsimp only
  repeat' first
    | with_reducible apply Only.refl
    | (with_reducible apply Only.next (answerTo_only _ _ _ _ _); · decide)
    | (with_reducible apply Only.next (partDone_only _ _ _ _ _); · decide)
    | with_reducible apply Only.foldl
    | split
    | refine Only.update (by intro f hf; cases f <;> first | exact absurd (by decide) hf | dsimp only [agree]) ?_
    | (intro _; try dsimp only)

theorem dropParts_only (p : Params) (w : ℕ) (q : ℕ) (st : Status) (b : Block) :
    Only [.cnt, .ports, .cbParts, .hg, .xbar, .out] b (dropParts p w q st b) := by
  unfold dropParts
  try dsimp only
  repeat' first
    | with_reducible apply Only.refl
    | (with_reducible apply Only.next (sendItem_only _ _ _); · decide)
    | (with_reducible apply Only.next (answerPart_only _ _ _ _ _ _ _); · decide)
    | with_reducible apply Only.forEach
    | with_reducible apply Only.foldl
    | split
    | refine Only.update (by intro f hf; cases f <;> first | exact absurd (by decide) hf | dsimp only [agree]) ?_
    | (intro _; try dsimp only)

theorem cqSettle_only (p : Params) (w : ℕ) (q : ℕ) (failed : Bool) (status : Status) (b : Block) :
    Only [.cnt, .ports, .rings, .tdone, .cq, .cbParts, .hg, .watch, .xbar, .out] b (cqSettle p w q failed status b) := by
  unfold cqSettle
  try dsimp only
  repeat' first
    | with_reducible apply Only.refl
    | (with_reducible apply Only.next (updCQ_only _ _ _ _); · decide)
    | (with_reducible apply Only.next (watchDrop_only _ _ _ _); · decide)
    | (with_reducible apply Only.next (dropParts_only _ _ _ _ _); · decide)
    | with_reducible apply Only.foldl
    | split
    | refine Only.update (by intro f hf; cases f <;> first | exact absurd (by decide) hf | dsimp only [agree]) ?_
    | (intro _; try dsimp only)

theorem drainSettle_only (p : Params) (w : ℕ) (q : ℕ) (b : Block) :
    Only [.clk, .regs, .cnt, .cmtDue, .ents, .ports, .rings, .tdone, .chans, .cq, .cbParts, .resumeQ, .hg, .log, .evr, .trace, .watch, .tally, .xbar, .out] b (drainSettle p w q b) := by
  unfold drainSettle
  try dsimp only
  repeat' first
    | with_reducible apply Only.refl
    | (with_reducible apply Only.next (updEnt_only _ _ _); · decide)
    | (with_reducible apply Only.next (updCQ_only _ _ _ _); · decide)
    | (with_reducible apply Only.next (logRec_only _ _ _); · decide)
    | (with_reducible apply Only.next (settle_only _ _ _ _ _ _ _ _ _ _); · decide)
    | (with_reducible apply Only.next (cqSettle_only _ _ _ _ _ _); · decide)
    | with_reducible apply Only.foldl
    | split
    | refine Only.update (by intro f hf; cases f <;> first | exact absurd (by decide) hf | dsimp only [agree]) ?_
    | (intro _; try dsimp only)

theorem cancelEntry_only (p : Params) (h : ℕ) (b : Block) :
    Only [.clk, .regs, .cnt, .cmtDue, .ents, .ports, .rings, .tdone, .waits, .chans, .cq, .cbParts, .resumeQ, .hg, .log, .evr, .trace, .watch, .tally, .xbar, .out] b (cancelEntry p h b) := by
  unfold cancelEntry
  try dsimp only
  repeat' first
    | with_reducible apply Only.refl
    | (with_reducible apply Only.next (updEnt_only _ _ _); · decide)
    | (with_reducible apply Only.next (updCQ_only _ _ _ _); · decide)
    | (with_reducible apply Only.next (voidW_only _ _); · decide)
    | (with_reducible apply Only.next (xsend_only _ _ _ _); · decide)
    | (with_reducible apply Only.next (unqueue_only _ _ _ _ _); · decide)
    | (with_reducible apply Only.next (settle_only _ _ _ _ _ _ _ _ _ _); · decide)
    | (with_reducible apply Only.next (cqSettle_only _ _ _ _ _ _); · decide)
    | with_reducible apply Only.foldl
    | split
    | refine Only.update (by intro f hf; cases f <;> first | exact absurd (by decide) hf | dsimp only [agree]) ?_
    | (intro _; try dsimp only)

theorem makeReady_only (p : Params) (h : ℕ) (b : Block) :
    Only [.cnt, .ents, .trace, .out] b (makeReady p h b) := by
  unfold makeReady
  try dsimp only
  repeat' first
    | with_reducible apply Only.refl
    | (with_reducible apply Only.next (updEnt_only _ _ _); · decide)
    | (with_reducible apply Only.next (trTask_only _ _ _ _ _ _ _); · decide)
    | (with_reducible apply Only.next (refetch_only _ _ _); · decide)
    | with_reducible apply Only.when
    | with_reducible apply Only.foldl
    | split
    | refine Only.update (by intro f hf; cases f <;> first | exact absurd (by decide) hf | dsimp only [agree]) ?_
    | (intro _; try dsimp only)

theorem claimSlots_only (w : ℕ) (e : Entry) (b : Block) :
    Only [.slots] b (claimSlots w e b) := by
  unfold claimSlots
  try dsimp only
  repeat' first
    | with_reducible apply Only.refl
    | (with_reducible apply Only.next (updSlot_only _ _ _ _); · decide)
    | with_reducible apply Only.forEach
    | with_reducible apply Only.foldl
    | split
    | refine Only.update (by intro f hf; cases f <;> first | exact absurd (by decide) hf | dsimp only [agree]) ?_
    | (intro _; try dsimp only)

theorem guardStep_only (p : Params) (h : ℕ) (b : Block) :
    Only [.clk, .cnt, .ents, .slots, .trace, .out] b (guardStep p h b) := by
  unfold guardStep
  try dsimp only
  repeat' first
    | with_reducible apply Only.refl
    | (with_reducible apply Only.next (tookSeq_only _); · decide)
    | (with_reducible apply Only.next (updEnt_only _ _ _); · decide)
    | (with_reducible apply Only.next (makeReady_only _ _ _); · decide)
    | (with_reducible apply Only.next (claimSlots_only _ _ _); · decide)
    | with_reducible apply Only.foldl
    | split
    | refine Only.update (by intro f hf; cases f <;> first | exact absurd (by decide) hf | dsimp only [agree]) ?_
    | (intro _; try dsimp only)

theorem examine_only (p : Params) (h : ℕ) (b : Block) :
    Only [.clk, .regs, .cnt, .cmtDue, .ents, .slots, .ports, .rings, .tdone, .chans, .resumeQ, .hg, .log, .evr, .trace, .watch, .tally, .xbar, .out] b (examine p h b) := by
  unfold examine
  try dsimp only
  repeat' first
    | with_reducible apply Only.refl
    | (with_reducible apply Only.next (updEnt_only _ _ _); · decide)
    | (with_reducible apply Only.next (settle_only _ _ _ _ _ _ _ _ _ _); · decide)
    | (with_reducible apply Only.next (guardStep_only _ _ _); · decide)
    | with_reducible apply Only.foldl
    | split
    | refine Only.update (by intro f hf; cases f <;> first | exact absurd (by decide) hf | dsimp only [agree]) ?_
    | (intro _; try dsimp only)

theorem touch_only (h : ℕ) (b : Block) :
    Only [.clk] b (touch h b) := by
  unfold touch
  try dsimp only
  repeat' first
    | with_reducible apply Only.refl
    | (with_reducible apply Only.next (updClk_only _ _); · decide)
    | with_reducible apply Only.foldl
    | split
    | refine Only.update (by intro f hf; cases f <;> first | exact absurd (by decide) hf | dsimp only [agree]) ?_
    | (intro _; try dsimp only)

theorem guardPassAll_only (p : Params) (w : ℕ) (b : Block) :
    Only [.clk, .cnt, .ents, .slots, .trace, .out] b (guardPassAll p w b) := by
  unfold guardPassAll
  try dsimp only
  repeat' first
    | with_reducible apply Only.refl
    | (with_reducible apply Only.next (guardStep_only _ _ _); · decide)
    | with_reducible apply Only.when
    | with_reducible apply Only.forEach
    | with_reducible apply Only.foldl
    | split
    | refine Only.update (by intro f hf; cases f <;> first | exact absurd (by decide) hf | dsimp only [agree]) ?_
    | (intro _; try dsimp only)

theorem drainExam_only (p : Params) (b : Block) :
    Only [.clk, .regs, .cnt, .cmtDue, .ents, .slots, .ports, .rings, .tdone, .chans, .resumeQ, .hg, .log, .evr, .trace, .watch, .tally, .xbar, .out] b (drainExam p b) := by
  unfold drainExam
  try dsimp only
  repeat' first
    | with_reducible apply Only.refl
    | (with_reducible apply Only.next (updClk_only _ _); · decide)
    | (with_reducible apply Only.next (slotRank_only _); · decide)
    | (with_reducible apply Only.next (examine_only _ _ _); · decide)
    | (with_reducible apply Only.next (guardPassAll_only _ _ _); · decide)
    | with_reducible apply Only.forEach
    | with_reducible apply Only.foldl
    | split
    | refine Only.update (by intro f hf; cases f <;> first | exact absurd (by decide) hf | dsimp only [agree]) ?_
    | (intro _; try dsimp only)

theorem endCycle_only (p : Params) (eoc : Bool) (b : Block) :
    Only [.clk, .regs, .cnt, .cmtDue, .ents, .slots, .ports, .rings, .tdone, .chans, .resumeQ, .hg, .log, .evr, .trace, .watch, .tally, .xbar, .out] b (endCycle p eoc b) := by
  unfold endCycle
  try dsimp only
  repeat' first
    | with_reducible apply Only.refl
    | (with_reducible apply Only.next (drainExam_only _ _); · decide)
    | with_reducible apply Only.when
    | with_reducible apply Only.foldl
    | split
    | refine Only.update (by intro f hf; cases f <;> first | exact absurd (by decide) hf | dsimp only [agree]) ?_
    | (intro _; try dsimp only)

theorem wantStage_only (h : ℕ) (b : Block) :
    Only [.ents] b (wantStage h b) := by
  unfold wantStage
  try dsimp only
  repeat' first
    | with_reducible apply Only.refl
    | (with_reducible apply Only.next (updEnt_only _ _ _); · decide)
    | with_reducible apply Only.when
    | with_reducible apply Only.foldl
    | split
    | refine Only.update (by intro f hf; cases f <;> first | exact absurd (by decide) hf | dsimp only [agree]) ?_
    | (intro _; try dsimp only)

theorem staleItem_only (p : Params) (word : Word32) (b : Block) :
    Only [.cnt] b (staleItem p word b) := by
  unfold staleItem
  try dsimp only
  repeat' first
    | with_reducible apply Only.refl
    | (with_reducible apply Only.next (bump_only _ _ _); · decide)
    | with_reducible apply Only.when
    | with_reducible apply Only.foldl
    | split
    | refine Only.update (by intro f hf; cases f <;> first | exact absurd (by decide) hf | dsimp only [agree]) ?_
    | (intro _; try dsimp only)

theorem excess_only (p : Params) (h : ℕ) (b : Block) :
    Only [.regs, .cnt, .log, .trace, .out] b (excess p h b) := by
  unfold excess
  try dsimp only
  repeat' first
    | with_reducible apply Only.refl
    | (with_reducible apply Only.next (bump_only _ _ _); · decide)
    | (with_reducible apply Only.next (logRec_only _ _ _); · decide)
    | with_reducible apply Only.foldl
    | split
    | refine Only.update (by intro f hf; cases f <;> first | exact absurd (by decide) hf | dsimp only [agree]) ?_
    | (intro _; try dsimp only)

theorem tumblerItem_only (p : Params) (kind : ℕ) (word : Word32) (root : Word32) (st : Status) (b : Block) :
    Only [.clk, .regs, .cnt, .cmtDue, .ents, .ports, .rings, .tdone, .chans, .resumeQ, .hg, .log, .evr, .trace, .watch, .tally, .xbar, .out] b (tumblerItem p kind word root st b) := by
  unfold tumblerItem
  try dsimp only
  repeat' first
    | with_reducible apply Only.refl
    | (with_reducible apply Only.next (updEnt_only _ _ _); · decide)
    | (with_reducible apply Only.next (settle_only _ _ _ _ _ _ _ _ _ _); · decide)
    | (with_reducible apply Only.next (touch_only _ _); · decide)
    | (with_reducible apply Only.next (wantStage_only _ _); · decide)
    | (with_reducible apply Only.next (staleItem_only _ _ _); · decide)
    | (with_reducible apply Only.next (excess_only _ _ _); · decide)
    | with_reducible apply Only.foldl
    | split
    | refine Only.update (by intro f hf; cases f <;> first | exact absurd (by decide) hf | dsimp only [agree]) ?_
    | (intro _; try dsimp only)

theorem sampleItem_only (p : Params) (kind : ℕ) (word : Word32) (root : Word32) (src : Option Via) (b : Block) :
    Only [.clk, .regs, .cnt, .cmtDue, .ents, .ports, .rings, .tdone, .chans, .resumeQ, .hg, .fedt, .log, .evr, .trace, .watch, .tally, .xbar, .out] b (sampleItem p kind word root src b) := by
  unfold sampleItem
  try dsimp only
  repeat' first
    | with_reducible apply Only.refl
    | (with_reducible apply Only.next (updEnt_only _ _ _); · decide)
    | (with_reducible apply Only.next (updFed_only _ _ _); · decide)
    | (with_reducible apply Only.next (bump_only _ _ _); · decide)
    | (with_reducible apply Only.next (xrx_only _ _ _); · decide)
    | (with_reducible apply Only.next (xdrop_only _ _); · decide)
    | with_reducible refine rxItem_only (by decide) ?_ ?_
    | (with_reducible apply Only.next (staleItem_only _ _ _); · decide)
    | (with_reducible apply Only.next (tumblerItem_only _ _ _ _ _ _); · decide)
    | with_reducible apply Only.when
    | with_reducible apply Only.foldl
    | split
    | refine Only.update (by intro f hf; cases f <;> first | exact absurd (by decide) hf | dsimp only [agree]) ?_
    | (intro _; try dsimp only)

theorem sealEntry_only (p : Params) (h : ℕ) (b : Block) :
    Only [.clk, .regs, .cnt, .cmtDue, .ents, .ports, .rings, .tdone, .waits, .chans, .cq, .cbParts, .resumeQ, .hg, .log, .evr, .trace, .watch, .tally, .xbar, .out] b (sealEntry p h b) := by
  unfold sealEntry
  try dsimp only
  repeat' first
    | with_reducible apply Only.refl
    | (with_reducible apply Only.next (updEnt_only _ _ _); · decide)
    | (with_reducible apply Only.next (drainSettle_only _ _ _ _); · decide)
    | (with_reducible apply Only.next (cancelEntry_only _ _ _); · decide)
    | (with_reducible apply Only.next (touch_only _ _); · decide)
    | (with_reducible apply Only.next (wantStage_only _ _); · decide)
    | with_reducible apply Only.when
    | with_reducible apply Only.foldl
    | split
    | refine Only.update (by intro f hf; cases f <;> first | exact absurd (by decide) hf | dsimp only [agree]) ?_
    | (intro _; try dsimp only)

theorem dropRemSeg_only (inst : ℕ) (bank : ℕ) (b : Block) :
    Only [.remSegs] b (dropRemSeg inst bank b) := by
  unfold dropRemSeg
  try dsimp only
  repeat' first
    | with_reducible apply Only.refl
    | with_reducible apply Only.foldl
    | split
    | refine Only.update (by intro f hf; cases f <;> first | exact absurd (by decide) hf | dsimp only [agree]) ?_
    | (intro _; try dsimp only)

theorem sealHanded_only (inst : ℕ) (bank : ℕ) (b : Block) :
    Only [.remSegs] b (sealHanded inst bank b) := by
  unfold sealHanded
  try dsimp only
  repeat' first
    | with_reducible apply Only.refl
    | with_reducible apply Only.foldl
    | split
    | refine Only.update (by intro f hf; cases f <;> first | exact absurd (by decide) hf | dsimp only [agree]) ?_
    | (intro _; try dsimp only)

theorem homeCmp_only (p : Params) (h : ℕ) (status : Status) (aux : Word32) (busy : ℕ) (qwait : ℕ) (stats : Option (BitVec 256)) (b : Block) :
    Only [.clk, .regs, .cnt, .cmtDue, .ents, .ports, .rings, .tdone, .chans, .resumeQ, .hg, .log, .evr, .trace, .watch, .tally, .xbar, .out] b (homeCmp p h status aux busy qwait stats b) := by
  unfold homeCmp
  try dsimp only
  repeat' first
    | with_reducible apply Only.refl
    | (with_reducible apply Only.next (updEnt_only _ _ _); · decide)
    | (with_reducible apply Only.next (voidW_only _ _); · decide)
    | (with_reducible apply Only.next (settle_only _ _ _ _ _ _ _ _ _ _); · decide)
    | with_reducible apply Only.when
    | with_reducible apply Only.foldl
    | split
    | refine Only.update (by intro f hf; cases f <;> first | exact absurd (by decide) hf | dsimp only [agree]) ?_
    | (intro _; try dsimp only)

theorem proxyState_only (kind : ProxyKind) (h : ℕ) (b : Block) :
    Only [.ents] b (proxyState kind h b) := by
  unfold proxyState
  try dsimp only
  repeat' first
    | with_reducible apply Only.refl
    | (with_reducible apply Only.next (updEnt_only _ _ _); · decide)
    | with_reducible apply Only.foldl
    | split
    | refine Only.update (by intro f hf; cases f <;> first | exact absurd (by decide) hf | dsimp only [agree]) ?_
    | (intro _; try dsimp only)

theorem deliverOne_only (p : Params) (h : ℕ) (word : Word32) (b : Block) :
    Only [.cnt, .ents, .hg, .xbar, .out] b (deliverOne p h word b) := by
  unfold deliverOne
  try dsimp only
  repeat' first
    | with_reducible apply Only.refl
    | (with_reducible apply Only.next (updEnt_only _ _ _); · decide)
    | (with_reducible apply Only.next (bump_only _ _ _); · decide)
    | (with_reducible apply Only.next (xput_only _ _); · decide)
    | (with_reducible apply Only.next (xsend_only _ _ _ _); · decide)
    | (with_reducible apply Only.next (sendFor_only _ _ _); · decide)
    | with_reducible apply Only.foldl
    | split
    | refine Only.update (by intro f hf; cases f <;> first | exact absurd (by decide) hf | dsimp only [agree]) ?_
    | (intro _; try dsimp only)

theorem freeQueue_only (h : ℕ) (e : Entry) (b : Block) :
    Only [.cq] b (freeQueue h e b) := by
  unfold freeQueue
  try dsimp only
  repeat' first
    | with_reducible apply Only.refl
    | (with_reducible apply Only.next (updCQ_only _ _ _ _); · decide)
    | with_reducible apply Only.foldl
    | split
    | refine Only.update (by intro f hf; cases f <;> first | exact absurd (by decide) hf | dsimp only [agree]) ?_
    | (intro _; try dsimp only)

theorem spillOut_only (p : Params) (h : ℕ) (b : Block) :
    Only [.ents, .out] b (spillOut p h b) := by
  unfold spillOut
  try dsimp only
  repeat' first
    | with_reducible apply Only.refl
    | (with_reducible apply Only.next (updEnt_only _ _ _); · decide)
    | (with_reducible apply Only.next (mpW_only _ _ _ _ _ _ _ _); · decide)
    | with_reducible apply Only.foldl
    | split
    | refine Only.update (by intro f hf; cases f <;> first | exact absurd (by decide) hf | dsimp only [agree]) ?_
    | (intro _; try dsimp only)

theorem evict_only (p : Params) (w : ℕ) (need : ℕ) (x3 : ℕ) (x4 : Block) :
    Only [.ents, .out] x4 (evict p w need x3 x4) := by
  induction x3 generalizing x4 with
  | zero =>
    unfold evict
    try dsimp only
    repeat' first
        | with_reducible apply Only.refl
        | (with_reducible apply Only.next (spillOut_only _ _ _); · decide)
        | with_reducible apply Only.foldl
        | split
        | refine Only.update (by intro f hf; cases f <;> first | exact absurd (by decide) hf | dsimp only [agree]) ?_
        | (intro _; try dsimp only)
  | succ k ih =>
    unfold evict
    try dsimp only
    repeat' first
        | (with_reducible apply Only.next (ih _); · decide)
        | with_reducible apply Only.refl
        | (with_reducible apply Only.next (spillOut_only _ _ _); · decide)
        | with_reducible apply Only.foldl
        | split
        | refine Only.update (by intro f hf; cases f <;> first | exact absurd (by decide) hf | dsimp only [agree]) ?_
        | (intro _; try dsimp only)

theorem putLinks_only (p : Params) (h : ℕ) (ws : List Word32) (b : Block) :
    Only [.ents, .out] b (putLinks p h ws b) := by
  unfold putLinks
  try dsimp only
  repeat' first
    | with_reducible apply Only.refl
    | (with_reducible apply Only.next (updEnt_only _ _ _); · decide)
    | (with_reducible apply Only.next (spillOut_only _ _ _); · decide)
    | (with_reducible apply Only.next (evict_only _ _ _ _ _); · decide)
    | with_reducible apply Only.when
    | with_reducible apply Only.foldl
    | split
    | refine Only.update (by intro f hf; cases f <;> first | exact absurd (by decide) hf | dsimp only [agree]) ?_
    | (intro _; try dsimp only)

theorem occUp_only (n : ℕ) (h : ℕ) (b : Block) :
    Only [.occ] b (occUp n h b) := by
  unfold occUp
  try dsimp only
  repeat' first
    | with_reducible apply Only.refl
    | with_reducible apply Only.foldl
    | split
    | refine Only.update (by intro f hf; cases f <;> first | exact absurd (by decide) hf | dsimp only [agree]) ?_
    | (intro _; try dsimp only)

theorem occDown_only (n : ℕ) (h : ℕ) (b : Block) :
    Only [.occ] b (occDown n h b) := by
  unfold occDown
  try dsimp only
  repeat' first
    | with_reducible apply Only.refl
    | with_reducible apply Only.foldl
    | split
    | refine Only.update (by intro f hf; cases f <;> first | exact absurd (by decide) hf | dsimp only [agree]) ?_
    | (intro _; try dsimp only)

theorem countGrant_only (d : ℕ) (b : Block) :
    Only [.gov] b (countGrant d b) := by
  unfold countGrant
  try dsimp only
  repeat' first
    | with_reducible apply Only.refl
    | with_reducible apply Only.foldl
    | split
    | refine Only.update (by intro f hf; cases f <;> first | exact absurd (by decide) hf | dsimp only [agree]) ?_
    | (intro _; try dsimp only)

theorem grant_only (p : Params) (d : ℕ) (g : GReq) (b : Block) :
    Only [.cnt, .ents, .gov, .xbar] b (grant p d g b) := by
  unfold grant
  try dsimp only
  repeat' first
    | with_reducible apply Only.refl
    | (with_reducible apply Only.next (updEnt_only _ _ _); · decide)
    | (with_reducible apply Only.next (updDom_only _ _ _); · decide)
    | (with_reducible apply Only.next (xsend_only _ _ _ _); · decide)
    | (with_reducible apply Only.next (countGrant_only _ _); · decide)
    | with_reducible apply Only.foldl
    | split
    | refine Only.update (by intro f hf; cases f <;> first | exact absurd (by decide) hf | dsimp only [agree]) ?_
    | (intro _; try dsimp only)

theorem govExamine_only (p : Params) (d : ℕ) (x2 : ℕ) (x3 : Block) :
    Only [.cnt, .ents, .gov, .xbar] x3 (govExamine p d x2 x3) := by
  induction x2 generalizing x3 with
  | zero =>
    unfold govExamine
    try dsimp only
    repeat' first
        | with_reducible apply Only.refl
        | (with_reducible apply Only.next (grant_only _ _ _ _); · decide)
        | with_reducible apply Only.foldl
        | split
        | refine Only.update (by intro f hf; cases f <;> first | exact absurd (by decide) hf | dsimp only [agree]) ?_
        | (intro _; try dsimp only)
  | succ k ih =>
    unfold govExamine
    try dsimp only
    repeat' first
        | (with_reducible apply Only.next (ih _); · decide)
        | with_reducible apply Only.refl
        | (with_reducible apply Only.next (grant_only _ _ _ _); · decide)
        | with_reducible apply Only.foldl
        | split
        | refine Only.update (by intro f hf; cases f <;> first | exact absurd (by decide) hf | dsimp only [agree]) ?_
        | (intro _; try dsimp only)

theorem govArrive_only (p : Params) (h : ℕ) (gen : ℕ) (n : ℕ) (b : Block) :
    Only [.clk, .gov] b (govArrive p h gen n b) := by
  unfold govArrive
  try dsimp only
  repeat' first
    | with_reducible apply Only.refl
    | (with_reducible apply Only.next (tookSeq_only _); · decide)
    | (with_reducible apply Only.next (updDom_only _ _ _); · decide)
    | with_reducible apply Only.foldl
    | split
    | refine Only.update (by intro f hf; cases f <;> first | exact absurd (by decide) hf | dsimp only [agree]) ?_
    | (intro _; try dsimp only)

theorem govDelayed_only (p : Params) (d : ℕ) (b : Block) :
    Only [.cnt, .trace] b (govDelayed p d b) := by
  unfold govDelayed
  try dsimp only
  repeat' first
    | with_reducible apply Only.refl
    | (with_reducible apply Only.next (trTask_only _ _ _ _ _ _ _); · decide)
    | with_reducible apply Only.forEach
    | with_reducible apply Only.foldl
    | split
    | refine Only.update (by intro f hf; cases f <;> first | exact absurd (by decide) hf | dsimp only [agree]) ?_
    | (intro _; try dsimp only)

theorem govCycle_only (p : Params) (b : Block) :
    Only [.cnt, .ents, .gov, .trace, .xbar] b (govCycle p b) := by
  unfold govCycle
  try dsimp only
  repeat' first
    | with_reducible apply Only.refl
    | (with_reducible apply Only.next (govExamine_only _ _ _ _); · decide)
    | (with_reducible apply Only.next (govDelayed_only _ _ _); · decide)
    | with_reducible apply Only.when
    | with_reducible apply Only.forEach
    | with_reducible apply Only.foldl
    | split
    | refine Only.update (by intro f hf; cases f <;> first | exact absurd (by decide) hf | dsimp only [agree]) ?_
    | (intro _; try dsimp only)

theorem dwrr_only (w : ℕ) (T : List ℕ) (x2 : ℕ) (x3 : Block) :
    Only [.arb] x3 (dwrr w T x2 x3).2 := by
  induction x2 generalizing x3 with
  | zero =>
    unfold dwrr
    try dsimp only
    repeat' first
        | with_reducible apply Only.refl
        | with_reducible apply Only.foldl
        | split
        | refine Only.update (by intro f hf; cases f <;> first | exact absurd (by decide) hf | dsimp only [agree]) ?_
        | (intro _; try dsimp only)
  | succ k ih =>
    unfold dwrr
    try dsimp only
    repeat' first
        | (with_reducible apply Only.next (ih _); · decide)
        | with_reducible apply Only.refl
        | with_reducible apply Only.foldl
        | split
        | refine Only.update (by intro f hf; cases f <;> first | exact absurd (by decide) hf | dsimp only [agree]) ?_
        | (intro _; try dsimp only)

theorem forwardTask_only (w : ℕ) (h : ℕ) (tier : ℕ) (b : Block) :
    Only [.cnt, .ents, .xbar] b (forwardTask w h tier b) := by
  unfold forwardTask
  try dsimp only
  repeat' first
    | with_reducible apply Only.refl
    | (with_reducible apply Only.next (updEnt_only _ _ _); · decide)
    | (with_reducible apply Only.next (xsend_only _ _ _ _); · decide)
    | with_reducible apply Only.foldl
    | split
    | refine Only.update (by intro f hf; cases f <;> first | exact absurd (by decide) hf | dsimp only [agree]) ?_
    | (intro _; try dsimp only)

theorem forwardStage_only (w : ℕ) (b : Block) :
    Only [.cnt, .ents, .xbar] b (forwardStage w b) := by
  unfold forwardStage
  try dsimp only
  repeat' first
    | with_reducible apply Only.refl
    | (with_reducible apply Only.next (updEnt_only _ _ _); · decide)
    | (with_reducible apply Only.next (xsend_only _ _ _ _); · decide)
    | with_reducible apply Only.foldl
    | split
    | refine Only.update (by intro f hf; cases f <;> first | exact absurd (by decide) hf | dsimp only [agree]) ?_
    | (intro _; try dsimp only)

theorem lcGone_only (r : PReq) (b : Block) :
    Only [.lcIdleAt] b (lcGone r b) := by
  unfold lcGone
  try dsimp only
  repeat' first
    | with_reducible apply Only.refl
    | with_reducible apply Only.foldl
    | split
    | refine Only.update (by intro f hf; cases f <;> first | exact absurd (by decide) hf | dsimp only [agree]) ?_
    | (intro _; try dsimp only)

theorem assignPort_only (r : PReq) (n : ℕ) (rank : ℕ) (b : Block) :
    Only [.cnt, .ents, .occ, .place, .lcIdleAt] b (assignPort r n rank b) := by
  unfold assignPort
  try dsimp only
  repeat' first
    | with_reducible apply Only.refl
    | (with_reducible apply Only.next (updEnt_only _ _ _); · decide)
    | (with_reducible apply Only.next (bump_only _ _ _); · decide)
    | (with_reducible apply Only.next (occUp_only _ _ _); · decide)
    | (with_reducible apply Only.next (lcGone_only _ _); · decide)
    | with_reducible apply Only.foldl
    | split
    | refine Only.update (by intro f hf; cases f <;> first | exact absurd (by decide) hf | dsimp only [agree]) ?_
    | (intro _; try dsimp only)

theorem offerWaiting_only (p : Params) (t : ℕ) (b : Block) :
    Only [.cnt, .ents, .occ, .place, .lcIdleAt] b (offerWaiting p t b) := by
  unfold offerWaiting
  try dsimp only
  repeat' first
    | with_reducible apply Only.refl
    | (with_reducible apply Only.next (assignPort_only _ _ _ _); · decide)
    | with_reducible apply Only.forEach
    | with_reducible apply Only.foldl
    | split
    | refine Only.update (by intro f hf; cases f <;> first | exact absurd (by decide) hf | dsimp only [agree]) ?_
    | (intro _; try dsimp only)

theorem decideReq_only (p : Params) (r : PReq) (b : Block) :
    Only [.cnt, .ents, .occ, .place, .lcIdleAt] b (decideReq p r b) := by
  unfold decideReq
  try dsimp only
  repeat' first
    | with_reducible apply Only.refl
    | (with_reducible apply Only.next (assignPort_only _ _ _ _); · decide)
    | (with_reducible apply Only.next (offerWaiting_only _ _ _); · decide)
    | with_reducible apply Only.foldl
    | split
    | refine Only.update (by intro f hf; cases f <;> first | exact absurd (by decide) hf | dsimp only [agree]) ?_
    | (intro _; try dsimp only)

theorem decideAll_only (p : Params) (b : Block) :
    Only [.cnt, .ents, .occ, .place, .lcIdleAt] b (decideAll p b) := by
  unfold decideAll
  try dsimp only
  repeat' first
    | with_reducible apply Only.refl
    | (with_reducible apply Only.next (offerWaiting_only _ _ _); · decide)
    | (with_reducible apply Only.next (decideReq_only _ _ _); · decide)
    | with_reducible apply Only.forEach
    | with_reducible apply Only.foldl
    | split
    | refine Only.update (by intro f hf; cases f <;> first | exact absurd (by decide) hf | dsimp only [agree]) ?_
    | (intro _; try dsimp only)

theorem reserve_only (p : Params) (h : ℕ) (n : ℕ) (b : Block) :
    Only [.ents, .gov] b (reserve p h n b) := by
  unfold reserve
  try dsimp only
  repeat' first
    | with_reducible apply Only.refl
    | (with_reducible apply Only.next (updEnt_only _ _ _); · decide)
    | (with_reducible apply Only.next (updDom_only _ _ _); · decide)
    | with_reducible apply Only.when
    | with_reducible apply Only.foldl
    | split
    | refine Only.update (by intro f hf; cases f <;> first | exact absurd (by decide) hf | dsimp only [agree]) ?_
    | (intro _; try dsimp only)

theorem enqueue_only (p : Params) (h : ℕ) (gen : ℕ) (n : ℕ) (b : Block) :
    Only [.cnt, .ents, .ports, .evr, .trace, .xbar, .out] b (enqueue p h gen n b) := by
  unfold enqueue
  try dsimp only
  repeat' first
    | with_reducible apply Only.refl
    | (with_reducible apply Only.next (updEnt_only _ _ _); · decide)
    | (with_reducible apply Only.next (updPort_only _ _ _); · decide)
    | (with_reducible apply Only.next (xsend_only _ _ _ _); · decide)
    | (with_reducible apply Only.next (trTask_only _ _ _ _ _ _ _); · decide)
    | (with_reducible apply Only.next (evRec_only _ _ _ _ _ _ _ _); · decide)
    | (with_reducible apply Only.next (unloadStage_only _ _ _ _ _); · decide)
    | (with_reducible apply Only.next (proxyState_only _ _ _); · decide)
    | with_reducible apply Only.foldl
    | split
    | refine Only.update (by intro f hf; cases f <;> first | exact absurd (by decide) hf | dsimp only [agree]) ?_
    | (intro _; try dsimp only)

theorem stageLost_only (h : ℕ) (b : Block) :
    Only [.ents] b (stageLost h b) := by
  unfold stageLost
  try dsimp only
  repeat' first
    | with_reducible apply Only.refl
    | (with_reducible apply Only.next (updEnt_only _ _ _); · decide)
    | with_reducible apply Only.foldl
    | split
    | refine Only.update (by intro f hf; cases f <;> first | exact absurd (by decide) hf | dsimp only [agree]) ?_
    | (intro _; try dsimp only)

theorem spendToken_only (h : ℕ) (b : Block) :
    Only [.arb] b (spendToken h b) := by
  unfold spendToken
  try dsimp only
  repeat' first
    | with_reducible apply Only.refl
    | with_reducible apply Only.foldl
    | split
    | refine Only.update (by intro f hf; cases f <;> first | exact absurd (by decide) hf | dsimp only [agree]) ?_
    | (intro _; try dsimp only)

theorem freePort_only (p : Params) (port : ℕ) (b : Block) :
    Only [.occ, .gov] b (freePort p port b) := by
  unfold freePort
  try dsimp only
  repeat' first
    | with_reducible apply Only.refl
    | (with_reducible apply Only.next (updDom_only _ _ _); · decide)
    | with_reducible apply Only.foldl
    | split
    | refine Only.update (by intro f hf; cases f <;> first | exact absurd (by decide) hf | dsimp only [agree]) ?_
    | (intro _; try dsimp only)

theorem dropGov_only (h : ℕ) (b : Block) :
    Only [.place, .gov] b (dropGov h b) := by
  unfold dropGov
  try dsimp only
  repeat' first
    | with_reducible apply Only.refl
    | (with_reducible apply Only.next (updDom_only _ _ _); · decide)
    | with_reducible apply Only.forEach
    | with_reducible apply Only.foldl
    | split
    | refine Only.update (by intro f hf; cases f <;> first | exact absurd (by decide) hf | dsimp only [agree]) ?_
    | (intro _; try dsimp only)

theorem stageGone_only (p : Params) (port : ℕ) (h : ℕ) (b : Block) :
    Only [.ents, .place, .gov] b (stageGone p port h b) := by
  unfold stageGone
  try dsimp only
  repeat' first
    | with_reducible apply Only.refl
    | (with_reducible apply Only.next (updEnt_only _ _ _); · decide)
    | (with_reducible apply Only.next (updDom_only _ _ _); · decide)
    | (with_reducible apply Only.next (dropGov_only _ _); · decide)
    | with_reducible apply Only.when
    | with_reducible apply Only.foldl
    | split
    | refine Only.update (by intro f hf; cases f <;> first | exact absurd (by decide) hf | dsimp only [agree]) ?_
    | (intro _; try dsimp only)

theorem withdrawn_only (h : ℕ) (gen : ℕ) (b : Block) :
    Only [.ents, .occ, .place, .gov, .lcIdleAt, .xbar] b (withdrawn h gen b) := by
  unfold withdrawn
  try dsimp only
  repeat' first
    | with_reducible apply Only.refl
    | (with_reducible apply Only.next (updEnt_only _ _ _); · decide)
    | (with_reducible apply Only.next (updDom_only _ _ _); · decide)
    | (with_reducible apply Only.next (xput_only _ _); · decide)
    | (with_reducible apply Only.next (xdrop_only _ _); · decide)
    | (with_reducible apply Only.next (occDown_only _ _ _); · decide)
    | (with_reducible apply Only.next (lcGone_only _ _); · decide)
    | with_reducible apply Only.when
    | with_reducible apply Only.foldl
    | split
    | refine Only.update (by intro f hf; cases f <;> first | exact absurd (by decide) hf | dsimp only [agree]) ?_
    | (intro _; try dsimp only)

theorem reportReady_only (p : Params) (b : Block) :
    Only [.arb] b (reportReady p b) := by
  unfold reportReady
  try dsimp only
  repeat' first
    | with_reducible apply Only.refl
    | with_reducible apply Only.when
    | with_reducible apply Only.foldl
    | split
    | refine Only.update (by intro f hf; cases f <;> first | exact absurd (by decide) hf | dsimp only [agree]) ?_
    | (intro _; try dsimp only)

end Sys2Proof.Machine
end

