-- ==== Sys2Proof/Laws/OnlyChannels.lean ====
section
/-! SUPPORT. What each operation can change: channels, message queues, messages and combining queues. One lemma for each operation; the list names the
parts of the block outside which it leaves everything as it was. -/

namespace Sys2Proof.Machine

set_option linter.all false

theorem updChan_only (k : ChKey) (f : Chan → Chan) (b : Block) :
    Only [.chans, .rchans] b (updChan k f b) := by
  unfold updChan
  try dsimp only
  repeat' first
    | with_reducible apply Only.refl
    | (with_reducible apply Only.next (setChan_only _ _ _); · decide)
    | with_reducible apply Only.foldl
    | split
    | refine Only.update (by intro f hf; cases f <;> first | exact absurd (by decide) hf | dsimp only [agree]) ?_
    | (intro _; try dsimp only)

theorem trMsg_only (p : Params) (w : ℕ) (kind : ℕ) (c : Chan) (ch : ℕ) (seq : BitVec 16) (aux : ℕ) (b : Block) :
    Only [.cnt, .trace] b (trMsg p w kind c ch seq aux b) := by
  unfold trMsg
  try dsimp only
  repeat' first
    | with_reducible apply Only.refl
    | (with_reducible apply Only.next (trForm_only _ _ _ _); · decide)
    | with_reducible apply Only.foldl
    | split
    | refine Only.update (by intro f hf; cases f <;> first | exact absurd (by decide) hf | dsimp only [agree]) ?_
    | (intro _; try dsimp only)

theorem answerHere_only (p : Params) (n : ℕ) (hdr : BitVec 512) (st : Status) (result : Word32) (chid : ℕ) (seq : BitVec 16) (b : Block) :
    Only [.cnt, .ports, .xbar] b (answerHere p n hdr st result chid seq b) := by
  unfold answerHere
  try dsimp only
  repeat' first
    | with_reducible apply Only.refl
    | (with_reducible apply Only.next (answerTo_only _ _ _ _ _); · decide)
    | with_reducible apply Only.foldl
    | split
    | refine Only.update (by intro f hf; cases f <;> first | exact absurd (by decide) hf | dsimp only [agree]) ?_
    | (intro _; try dsimp only)

theorem landOn_only (n : ℕ) (key : ChKey) (be : Bool) (flits : List (BitVec 512)) (poison : List (BitVec 8)) (st : OpdBeat) (b : Block) :
    Only [.ports] b (landOn n key be flits poison st b) := by
  unfold landOn
  try dsimp only
  repeat' first
    | with_reducible apply Only.refl
    | (with_reducible apply Only.next (updPort_only _ _ _); · decide)
    | with_reducible apply Only.foldl
    | split
    | refine Only.update (by intro f hf; cases f <;> first | exact absurd (by decide) hf | dsimp only [agree]) ?_
    | (intro _; try dsimp only)

theorem countLanded_only (key : ChKey) (n : ℕ) (poison : Bool) (hop : Option ℕ) (b : Block) :
    Only [.chans, .rchans] b (countLanded key n poison hop b) := by
  unfold countLanded
  try dsimp only
  repeat' first
    | with_reducible apply Only.refl
    | (with_reducible apply Only.next (updChan_only _ _ _); · decide)
    | with_reducible apply Only.foldl
    | split
    | refine Only.update (by intro f hf; cases f <;> first | exact absurd (by decide) hf | dsimp only [agree]) ?_
    | (intro _; try dsimp only)

theorem closedBeat_only (key : ChKey) (b : Block) :
    Only [.ports, .chans, .rchans] b (closedBeat key b) := by
  unfold closedBeat
  try dsimp only
  repeat' first
    | with_reducible apply Only.refl
    | (with_reducible apply Only.next (updPort_only _ _ _); · decide)
    | (with_reducible apply Only.next (updChan_only _ _ _); · decide)
    | with_reducible apply Only.foldl
    | split
    | refine Only.update (by intro f hf; cases f <;> first | exact absurd (by decide) hf | dsimp only [agree]) ?_
    | (intro _; try dsimp only)

theorem mqXoff_only (p : Params) (w : ℕ) (q : ℕ) (b : Block) :
    Only [.cnt, .mq, .evr, .out] b (mqXoff p w q b) := by
  unfold mqXoff
  try dsimp only
  repeat' first
    | with_reducible apply Only.refl
    | (with_reducible apply Only.next (updMQ_only _ _ _ _); · decide)
    | (with_reducible apply Only.next (emit_only _ _); · decide)
    | (with_reducible apply Only.next (evRec_only _ _ _ _ _ _ _ _); · decide)
    | with_reducible apply Only.forEach
    | with_reducible apply Only.foldl
    | split
    | refine Only.update (by intro f hf; cases f <;> first | exact absurd (by decide) hf | dsimp only [agree]) ?_
    | (intro _; try dsimp only)

theorem mqDeliver_only (p : Params) (w : ℕ) (q : ℕ) (b : Block) :
    Only [.ports, .mq] b (mqDeliver p w q b) := by
  unfold mqDeliver
  try dsimp only
  repeat' first
    | with_reducible apply Only.refl
    | (with_reducible apply Only.next (updMQ_only _ _ _ _); · decide)
    | (with_reducible apply Only.next (landOn_only _ _ _ _ _ _ _); · decide)
    | with_reducible apply Only.foldl
    | split
    | refine Only.update (by intro f hf; cases f <;> first | exact absurd (by decide) hf | dsimp only [agree]) ?_
    | (intro _; try dsimp only)

theorem mqServe_only (p : Params) (n : ℕ) (b : Block) :
    Only [.ports, .mq] b (mqServe p n b) := by
  unfold mqServe
  try dsimp only
  repeat' first
    | with_reducible apply Only.refl
    | (with_reducible apply Only.next (mqDeliver_only _ _ _ _); · decide)
    | with_reducible apply Only.forEach
    | with_reducible apply Only.foldl
    | split
    | refine Only.update (by intro f hf; cases f <;> first | exact absurd (by decide) hf | dsimp only [agree]) ?_
    | (intro _; try dsimp only)

theorem mqCycle_only (p : Params) (b : Block) :
    Only [.cnt, .ports, .mq, .evr, .out] b (mqCycle p b) := by
  unfold mqCycle
  try dsimp only
  repeat' first
    | with_reducible apply Only.refl
    | (with_reducible apply Only.next (mqXoff_only _ _ _ _); · decide)
    | (with_reducible apply Only.next (mqDeliver_only _ _ _ _); · decide)
    | with_reducible apply Only.forEach
    | with_reducible apply Only.foldl
    | split
    | refine Only.update (by intro f hf; cases f <;> first | exact absurd (by decide) hf | dsimp only [agree]) ?_
    | (intro _; try dsimp only)

theorem mqFlushNow_only (w : ℕ) (q : ℕ) (b : Block) :
    Only [.mq] b (mqFlushNow w q b) := by
  unfold mqFlushNow
  try dsimp only
  repeat' first
    | with_reducible apply Only.refl
    | (with_reducible apply Only.next (updMQ_only _ _ _ _); · decide)
    | with_reducible apply Only.foldl
    | split
    | refine Only.update (by intro f hf; cases f <;> first | exact absurd (by decide) hf | dsimp only [agree]) ?_
    | (intro _; try dsimp only)

theorem mqCfgAt_only (p : Params) (w : ℕ) (v : Word32) (b : Block) :
    Only [.regs, .mq, .out] b (mqCfgAt p w v b) := by
  unfold mqCfgAt
  try dsimp only
  repeat' first
    | with_reducible apply Only.refl
    | (with_reducible apply Only.next (updMQ_only _ _ _ _); · decide)
    | (with_reducible apply Only.next (pgErr_only _ _ _ _); · decide)
    | with_reducible apply Only.when
    | with_reducible apply Only.foldl
    | split
    | refine Only.update (by intro f hf; cases f <;> first | exact absurd (by decide) hf | dsimp only [agree]) ?_
    | (intro _; try dsimp only)

theorem mqPushAt_only (p : Params) (w : ℕ) (be : Bool) (b : Block) :
    Only [.ports, .mq] b (mqPushAt p w be b) := by
  unfold mqPushAt
  try dsimp only
  repeat' first
    | with_reducible apply Only.refl
    | (with_reducible apply Only.next (updMQ_only _ _ _ _); · decide)
    | (with_reducible apply Only.next (mqDeliver_only _ _ _ _); · decide)
    | with_reducible apply Only.foldl
    | split
    | refine Only.update (by intro f hf; cases f <;> first | exact absurd (by decide) hf | dsimp only [agree]) ?_
    | (intro _; try dsimp only)

theorem mqPopAt_only (p : Params) (w : ℕ) (b : Block) :
    Only [.mq, .mqPop] b (mqPopAt p w b) := by
  unfold mqPopAt
  try dsimp only
  repeat' first
    | with_reducible apply Only.refl
    | (with_reducible apply Only.next (updMQ_only _ _ _ _); · decide)
    | with_reducible apply Only.foldl
    | split
    | refine Only.update (by intro f hf; cases f <;> first | exact absurd (by decide) hf | dsimp only [agree]) ?_
    | (intro _; try dsimp only)

theorem mqFlushAt_only (p : Params) (w : ℕ) (b : Block) :
    Only [.mq] b (mqFlushAt p w b) := by
  unfold mqFlushAt
  try dsimp only
  repeat' first
    | with_reducible apply Only.refl
    | (with_reducible apply Only.next (updMQ_only _ _ _ _); · decide)
    | (with_reducible apply Only.next (mqFlushNow_only _ _ _); · decide)
    | with_reducible apply Only.foldl
    | split
    | refine Only.update (by intro f hf; cases f <;> first | exact absurd (by decide) hf | dsimp only [agree]) ?_
    | (intro _; try dsimp only)

theorem mqAdvanceAt_only (w : ℕ) (b : Block) :
    Only [.mqPop] b (mqAdvanceAt w b) := by
  unfold mqAdvanceAt
  try dsimp only
  repeat' first
    | with_reducible apply Only.refl
    | with_reducible apply Only.foldl
    | split
    | refine Only.update (by intro f hf; cases f <;> first | exact absurd (by decide) hf | dsimp only [agree]) ?_
    | (intro _; try dsimp only)

theorem watchMsg_only (key : ChKey) (flits : List (BitVec 512)) (poison : List (BitVec 8)) (b : Block) :
    Only [.watch] b (watchMsg key flits poison b) := by
  unfold watchMsg
  try dsimp only
  repeat' first
    | with_reducible apply Only.refl
    | with_reducible apply Only.foldl
    | split
    | refine Only.update (by intro f hf; cases f <;> first | exact absurd (by decide) hf | dsimp only [agree]) ?_
    | (intro _; try dsimp only)

theorem chanDigest_only (p : Params) (key : ChKey) (c : Chan) (b : Block) :
    Only [.rings, .watch, .out] b (chanDigest p key c b) := by
  unfold chanDigest
  try dsimp only
  repeat' first
    | with_reducible apply Only.refl
    | (with_reducible apply Only.next (digestWrite_only _ _ _ _ _ _); · decide)
    | with_reducible apply Only.foldl
    | split
    | refine Only.update (by intro f hf; cases f <;> first | exact absurd (by decide) hf | dsimp only [agree]) ?_
    | (intro _; try dsimp only)

theorem countNack_only (p : Params) (n : ℕ) (ch : ℕ) (st : Status) (b : Block) :
    Only [.cnt, .evr] b (countNack p n ch st b) := by
  unfold countNack
  try dsimp only
  repeat' first
    | with_reducible apply Only.refl
    | (with_reducible apply Only.next (evRec_only _ _ _ _ _ _ _ _); · decide)
    | (with_reducible apply Only.next (bumpNack_only _ _ _ _); · decide)
    | with_reducible apply Only.when
    | with_reducible apply Only.foldl
    | split
    | refine Only.update (by intro f hf; cases f <;> first | exact absurd (by decide) hf | dsimp only [agree]) ?_
    | (intro _; try dsimp only)

theorem retryUp_only (p : Params) (n : ℕ) (key : ChKey) (st : Status) (b : Block) :
    Only [.cnt, .chans, .rchans, .xbar] b (retryUp p n key st b) := by
  unfold retryUp
  try dsimp only
  repeat' first
    | with_reducible apply Only.refl
    | (with_reducible apply Only.next (xsend_only _ _ _ _); · decide)
    | (with_reducible apply Only.next (updChan_only _ _ _); · decide)
    | with_reducible apply Only.when
    | with_reducible apply Only.foldl
    | split
    | refine Only.update (by intro f hf; cases f <;> first | exact absurd (by decide) hf | dsimp only [agree]) ?_
    | (intro _; try dsimp only)

theorem refuseSend_only (p : Params) (n : ℕ) (hdr : BitVec 512) (st : Status) (result : ℕ) (seq : BitVec 16) (b : Block) :
    Only [.cnt, .ports, .chans, .rchans, .evr, .xbar] b (refuseSend p n hdr st result seq b) := by
  unfold refuseSend
  try dsimp only
  repeat' first
    | with_reducible apply Only.refl
    | (with_reducible apply Only.next (answerHere_only _ _ _ _ _ _ _ _); · decide)
    | (with_reducible apply Only.next (countNack_only _ _ _ _ _); · decide)
    | (with_reducible apply Only.next (retryUp_only _ _ _ _ _); · decide)
    | with_reducible apply Only.foldl
    | split
    | refine Only.update (by intro f hf; cases f <;> first | exact absurd (by decide) hf | dsimp only [agree]) ?_
    | (intro _; try dsimp only)

theorem launch_only (p : Params) (w : ℕ) (c : Chan) (m : Msg) (b : Block) :
    Only [.cnt, .hg, .xbar, .out] b (launch p w c m b) := by
  unfold launch
  try dsimp only
  repeat' first
    | with_reducible apply Only.refl
    | (with_reducible apply Only.next (xtx_only _ _ _); · decide)
    | (with_reducible apply Only.next (xput_only _ _); · decide)
    | (with_reducible apply Only.next (xsend_only _ _ _ _); · decide)
    | (with_reducible apply Only.next (hingePut_only _ _ _ _); · decide)
    | with_reducible apply Only.foldl
    | split
    | refine Only.update (by intro f hf; cases f <;> first | exact absurd (by decide) hf | dsimp only [agree]) ?_
    | (intro _; try dsimp only)

theorem outcomeBack_only (p : Params) (w : ℕ) (key : ChKey) (c : Chan) (seq : BitVec 16) (st : Status) (b : Block) :
    Only [.cnt, .hg, .xbar, .out] b (outcomeBack p w key c seq st b) := by
  unfold outcomeBack
  try dsimp only
  repeat' first
    | with_reducible apply Only.refl
    | (with_reducible apply Only.next (xput_only _ _); · decide)
    | (with_reducible apply Only.next (xsend_only _ _ _ _); · decide)
    | (with_reducible apply Only.next (sendItem_only _ _ _); · decide)
    | with_reducible apply Only.when
    | with_reducible apply Only.foldl
    | split
    | refine Only.update (by intro f hf; cases f <;> first | exact absurd (by decide) hf | dsimp only [agree]) ?_
    | (intro _; try dsimp only)

theorem acceptPort_only (n : ℕ) (key : ChKey) (m : Msg) (b : Block) :
    Only [.ports, .chans, .rchans, .watch] b (acceptPort n key m b) := by
  unfold acceptPort
  try dsimp only
  repeat' first
    | with_reducible apply Only.refl
    | (with_reducible apply Only.next (updChan_only _ _ _); · decide)
    | (with_reducible apply Only.next (landOn_only _ _ _ _ _ _ _); · decide)
    | (with_reducible apply Only.next (countLanded_only _ _ _ _ _); · decide)
    | (with_reducible apply Only.next (watchMsg_only _ _ _ _); · decide)
    | with_reducible apply Only.when
    | with_reducible apply Only.foldl
    | split
    | refine Only.update (by intro f hf; cases f <;> first | exact absurd (by decide) hf | dsimp only [agree]) ?_
    | (intro _; try dsimp only)

theorem acceptQueue_only (p : Params) (w : ℕ) (q : ℕ) (key : ChKey) (c : Chan) (m : Msg) (b : Block) :
    Only [.cnt, .ports, .mq, .chans, .rchans, .hg, .watch, .xbar, .out] b (acceptQueue p w q key c m b) := by
  unfold acceptQueue
  try dsimp only
  repeat' first
    | with_reducible apply Only.refl
    | (with_reducible apply Only.next (updMQ_only _ _ _ _); · decide)
    | (with_reducible apply Only.next (updChan_only _ _ _); · decide)
    | (with_reducible apply Only.next (countLanded_only _ _ _ _ _); · decide)
    | (with_reducible apply Only.next (mqDeliver_only _ _ _ _); · decide)
    | (with_reducible apply Only.next (watchMsg_only _ _ _ _); · decide)
    | (with_reducible apply Only.next (outcomeBack_only _ _ _ _ _ _ _); · decide)
    | with_reducible apply Only.foldl
    | split
    | refine Only.update (by intro f hf; cases f <;> first | exact absurd (by decide) hf | dsimp only [agree]) ?_
    | (intro _; try dsimp only)

theorem arriveMsg_only (p : Params) (key : ChKey) (c : Chan) (m : Msg) (b : Block) :
    Only [.cnt, .ports, .mq, .chans, .rchans, .hg, .trace, .watch, .xbar, .out] b (arriveMsg p key c m b) := by
  unfold arriveMsg
  try dsimp only
  repeat' first
    | with_reducible apply Only.refl
    | (with_reducible apply Only.next (trMsg_only _ _ _ _ _ _ _ _); · decide)
    | (with_reducible apply Only.next (outcomeBack_only _ _ _ _ _ _ _); · decide)
    | (with_reducible apply Only.next (acceptPort_only _ _ _ _); · decide)
    | (with_reducible apply Only.next (acceptQueue_only _ _ _ _ _ _ _); · decide)
    | with_reducible apply Only.foldl
    | split
    | refine Only.update (by intro f hf; cases f <;> first | exact absurd (by decide) hf | dsimp only [agree]) ?_
    | (intro _; try dsimp only)

theorem answerSend_only (key : ChKey) (c : Chan) (seq : BitVec 16) (st : Status) (result : ℕ) (b : Block) :
    Only [.ports] b (answerSend key c seq st result b) := by
  unfold answerSend
  try dsimp only
  repeat' first
    | with_reducible apply Only.refl
    | (with_reducible apply Only.next (updPort_only _ _ _); · decide)
    | with_reducible apply Only.foldl
    | split
    | refine Only.update (by intro f hf; cases f <;> first | exact absurd (by decide) hf | dsimp only [agree]) ?_
    | (intro _; try dsimp only)

theorem forget_only (key : ChKey) (seq : BitVec 16) (b : Block) :
    Only [.chans, .rchans] b (forget key seq b) := by
  unfold forget
  try dsimp only
  repeat' first
    | with_reducible apply Only.refl
    | (with_reducible apply Only.next (updChan_only _ _ _); · decide)
    | with_reducible apply Only.foldl
    | split
    | refine Only.update (by intro f hf; cases f <;> first | exact absurd (by decide) hf | dsimp only [agree]) ?_
    | (intro _; try dsimp only)

theorem nackAt_only (p : Params) (key : ChKey) (seq : BitVec 16) (st : Status) (b : Block) :
    Only [.cnt, .ports, .chans, .rchans, .evr, .xbar] b (nackAt p key seq st b) := by
  unfold nackAt
  try dsimp only
  repeat' first
    | with_reducible apply Only.refl
    | (with_reducible apply Only.next (updChan_only _ _ _); · decide)
    | (with_reducible apply Only.next (countNack_only _ _ _ _ _); · decide)
    | (with_reducible apply Only.next (retryUp_only _ _ _ _ _); · decide)
    | (with_reducible apply Only.next (answerSend_only _ _ _ _ _ _); · decide)
    | (with_reducible apply Only.next (forget_only _ _ _); · decide)
    | with_reducible apply Only.foldl
    | split
    | refine Only.update (by intro f hf; cases f <;> first | exact absurd (by decide) hf | dsimp only [agree]) ?_
    | (intro _; try dsimp only)

theorem ackAt_only (key : ChKey) (seq : BitVec 16) (b : Block) :
    Only [.ports, .chans, .rchans, .storms] b (ackAt key seq b) := by
  unfold ackAt
  try dsimp only
  repeat' first
    | with_reducible apply Only.refl
    | (with_reducible apply Only.next (updChan_only _ _ _); · decide)
    | (with_reducible apply Only.next (answerSend_only _ _ _ _ _ _); · decide)
    | (with_reducible apply Only.next (forget_only _ _ _); · decide)
    | with_reducible apply Only.foldl
    | split
    | refine Only.update (by intro f hf; cases f <;> first | exact absurd (by decide) hf | dsimp only [agree]) ?_
    | (intro _; try dsimp only)

theorem backAt_only (p : Params) (key : ChKey) (src : Option ℕ) (b : Block) :
    Only [.cnt] b (backAt p key src b) := by
  unfold backAt
  try dsimp only
  repeat' first
    | with_reducible apply Only.refl
    | (with_reducible apply Only.next (xfrom_only _ _ _ _); · decide)
    | with_reducible apply Only.foldl
    | split
    | refine Only.update (by intro f hf; cases f <;> first | exact absurd (by decide) hf | dsimp only [agree]) ?_
    | (intro _; try dsimp only)

theorem opdSend_only (n : ℕ) (b : Block) :
    Only [.ports, .out] b (opdSend n b) := by
  unfold opdSend
  try dsimp only
  repeat' first
    | with_reducible apply Only.refl
    | (with_reducible apply Only.next (updPort_only _ _ _); · decide)
    | (with_reducible apply Only.next (emit_only _ _); · decide)
    | with_reducible apply Only.foldl
    | split
    | refine Only.update (by intro f hf; cases f <;> first | exact absurd (by decide) hf | dsimp only [agree]) ?_
    | (intro _; try dsimp only)

theorem relayNext_only (p : Params) (w : ℕ) (key : ChKey) (c : Chan) (x4 : OpdBeat) (hop : ℕ) (b : Block) :
    Only [.cnt, .chans, .rchans, .hg, .xbar, .out] b (relayNext p w key c x4 hop b) := by
  unfold relayNext
  try dsimp only
  repeat' first
    | with_reducible apply Only.refl
    | (with_reducible apply Only.next (updChan_only _ _ _); · decide)
    | (with_reducible apply Only.next (launch_only _ _ _ _ _); · decide)
    | (with_reducible apply Only.next (outcomeBack_only _ _ _ _ _ _ _); · decide)
    | with_reducible apply Only.foldl
    | split
    | refine Only.update (by intro f hf; cases f <;> first | exact absurd (by decide) hf | dsimp only [agree]) ?_
    | (intro _; try dsimp only)

theorem bindTask_only (p : Params) (n : ℕ) (word : Word32) (b : Block) :
    Only [.cnt, .ports, .chans, .rchans, .xbar] b (bindTask p n word b) := by
  unfold bindTask
  try dsimp only
  repeat' first
    | with_reducible apply Only.refl
    | (with_reducible apply Only.next (updPort_only _ _ _); · decide)
    | (with_reducible apply Only.next (xto_only _ _ _ _ _); · decide)
    | (with_reducible apply Only.next (updChan_only _ _ _); · decide)
    | with_reducible apply Only.when
    | with_reducible apply Only.forEach
    | with_reducible apply Only.foldl
    | split
    | refine Only.update (by intro f hf; cases f <;> first | exact absurd (by decide) hf | dsimp only [agree]) ?_
    | (intro _; try dsimp only)

theorem unbindTask_only (p : Params) (n : ℕ) (b : Block) :
    Only [.cnt, .ports, .chans, .rchans, .xbar] b (unbindTask p n b) := by
  unfold unbindTask
  try dsimp only
  repeat' first
    | with_reducible apply Only.refl
    | (with_reducible apply Only.next (updPort_only _ _ _); · decide)
    | (with_reducible apply Only.next (xto_only _ _ _ _ _); · decide)
    | (with_reducible apply Only.next (updChan_only _ _ _); · decide)
    | with_reducible apply Only.forEach
    | with_reducible apply Only.foldl
    | split
    | refine Only.update (by intro f hf; cases f <;> first | exact absurd (by decide) hf | dsimp only [agree]) ?_
    | (intro _; try dsimp only)

theorem bindHops_only (p : Params) (c : Chan) (tx : Bool) (src : ℕ) (b : Block) :
    Only [.cnt] b (bindHops p c tx src b) := by
  unfold bindHops
  try dsimp only
  repeat' first
    | with_reducible apply Only.refl
    | (with_reducible apply Only.next (xtx_only _ _ _); · decide)
    | (with_reducible apply Only.next (xrx_only _ _ _); · decide)
    | (with_reducible apply Only.next (xfrom_only _ _ _ _); · decide)
    | with_reducible apply Only.foldl
    | split
    | refine Only.update (by intro f hf; cases f <;> first | exact absurd (by decide) hf | dsimp only [agree]) ?_
    | (intro _; try dsimp only)

theorem answerOpen_only (p : Params) (n : ℕ) (tag : BitVec 16) (st : Status) (id : ℕ) (b : Block) :
    Only [.cnt, .ports, .xbar] b (answerOpen p n tag st id b) := by
  unfold answerOpen
  try dsimp only
  repeat' first
    | with_reducible apply Only.refl
    | (with_reducible apply Only.next (answerTo_only _ _ _ _ _); · decide)
    | with_reducible apply Only.foldl
    | split
    | refine Only.update (by intro f hf; cases f <;> first | exact absurd (by decide) hf | dsimp only [agree]) ?_
    | (intro _; try dsimp only)

theorem bindRunning_only (p : Params) (key : ChKey) (e : EndP) (b : Block) :
    Only [.cnt, .ports, .chans, .rchans, .xbar] b (bindRunning p key e b) := by
  unfold bindRunning
  try dsimp only
  repeat' first
    | with_reducible apply Only.refl
    | (with_reducible apply Only.next (updChan_only _ _ _); · decide)
    | (with_reducible apply Only.next (bindTask_only _ _ _ _); · decide)
    | with_reducible apply Only.when
    | with_reducible apply Only.foldl
    | split
    | refine Only.update (by intro f hf; cases f <;> first | exact absurd (by decide) hf | dsimp only [agree]) ?_
    | (intro _; try dsimp only)

theorem beginClose_only (w : Option ℕ) (key : ChKey) (b : Block) :
    Only [.cnt, .chans, .rchans, .xbar] b (beginClose w key b) := by
  unfold beginClose
  try dsimp only
  repeat' first
    | with_reducible apply Only.refl
    | (with_reducible apply Only.next (xput_only _ _); · decide)
    | (with_reducible apply Only.next (xsend_only _ _ _ _); · decide)
    | (with_reducible apply Only.next (updChan_only _ _ _); · decide)
    | with_reducible apply Only.foldl
    | split
    | refine Only.update (by intro f hf; cases f <;> first | exact absurd (by decide) hf | dsimp only [agree]) ?_
    | (intro _; try dsimp only)

theorem ownerGone_only (p : Params) (key : ChKey) (b : Block) :
    Only [.cnt, .chans, .rchans, .xbar] b (ownerGone p key b) := by
  unfold ownerGone
  try dsimp only
  repeat' first
    | with_reducible apply Only.refl
    | (with_reducible apply Only.next (beginClose_only _ _ _); · decide)
    | with_reducible apply Only.when
    | with_reducible apply Only.foldl
    | split
    | refine Only.update (by intro f hf; cases f <;> first | exact absurd (by decide) hf | dsimp only [agree]) ?_
    | (intro _; try dsimp only)

theorem closeFar_only (p : Params) (key : ChKey) (c : Chan) (b : Block) :
    Only [.cnt, .hg, .out] b (closeFar p key c b) := by
  unfold closeFar
  try dsimp only
  repeat' first
    | with_reducible apply Only.refl
    | (with_reducible apply Only.next (sendItem_only _ _ _); · decide)
    | with_reducible apply Only.when
    | with_reducible apply Only.foldl
    | split
    | refine Only.update (by intro f hf; cases f <;> first | exact absurd (by decide) hf | dsimp only [agree]) ?_
    | (intro _; try dsimp only)

theorem closeEnd_only (key : ChKey) (b : Block) :
    Only [.chans, .rchans] b (closeEnd key b) := by
  unfold closeEnd
  try dsimp only
  repeat' first
    | with_reducible apply Only.refl
    | (with_reducible apply Only.next (updChan_only _ _ _); · decide)
    | with_reducible apply Only.foldl
    | split
    | refine Only.update (by intro f hf; cases f <;> first | exact absurd (by decide) hf | dsimp only [agree]) ?_
    | (intro _; try dsimp only)

theorem cutSends_only (n : ℕ) (b : Block) :
    Only [.chans, .rchans, .xbar] b (cutSends n b) := by
  unfold cutSends
  try dsimp only
  repeat' first
    | with_reducible apply Only.refl
    | (with_reducible apply Only.next (updChan_only _ _ _); · decide)
    | with_reducible apply Only.forEach
    | with_reducible apply Only.foldl
    | split
    | refine Only.update (by intro f hf; cases f <;> first | exact absurd (by decide) hf | dsimp only [agree]) ?_
    | (intro _; try dsimp only)

theorem resetChans_only (p : Params) (n : ℕ) (b : Block) :
    Only [.cnt, .ports, .mq, .chans, .rchans, .hg, .xbar, .out] b (resetChans p n b) := by
  unfold resetChans
  try dsimp only
  repeat' first
    | with_reducible apply Only.refl
    | (with_reducible apply Only.next (updPort_only _ _ _); · decide)
    | (with_reducible apply Only.next (updMQ_only _ _ _ _); · decide)
    | (with_reducible apply Only.next (updChan_only _ _ _); · decide)
    | (with_reducible apply Only.next (outcomeBack_only _ _ _ _ _ _ _); · decide)
    | (with_reducible apply Only.next (cutSends_only _ _); · decide)
    | with_reducible apply Only.when
    | with_reducible apply Only.forEach
    | with_reducible apply Only.foldl
    | split
    | refine Only.update (by intro f hf; cases f <;> first | exact absurd (by decide) hf | dsimp only [agree]) ?_
    | (intro _; try dsimp only)

theorem refusePart_only (p : Params) (n : ℕ) (hdr : BitVec 512) (st : Status) (b : Block) :
    Only [.cnt, .ports, .xbar] b (refusePart p n hdr st b) := by
  unfold refusePart
  try dsimp only
  repeat' first
    | with_reducible apply Only.refl
    | (with_reducible apply Only.next (updPort_only _ _ _); · decide)
    | (with_reducible apply Only.next (bump_only _ _ _); · decide)
    | (with_reducible apply Only.next (bumpNack_only _ _ _ _); · decide)
    | (with_reducible apply Only.next (answerHere_only _ _ _ _ _ _ _ _); · decide)
    | with_reducible apply Only.when
    | with_reducible apply Only.foldl
    | split
    | refine Only.update (by intro f hf; cases f <;> first | exact absurd (by decide) hf | dsimp only [agree]) ?_
    | (intro _; try dsimp only)

theorem partBack_only (p : Params) (w : ℕ) (x2 : Part) (st : Status) (result : ℕ) (b : Block) :
    Only [.cnt, .ports, .hg, .xbar, .out] b (partBack p w x2 st result b) := by
  unfold partBack
  try dsimp only
  repeat' first
    | with_reducible apply Only.refl
    | (with_reducible apply Only.next (sendItem_only _ _ _); · decide)
    | (with_reducible apply Only.next (answerPart_only _ _ _ _ _ _ _); · decide)
    | with_reducible apply Only.when
    | with_reducible apply Only.foldl
    | split
    | refine Only.update (by intro f hf; cases f <;> first | exact absurd (by decide) hf | dsimp only [agree]) ?_
    | (intro _; try dsimp only)

theorem cqFail_only (p : Params) (w : ℕ) (q : ℕ) (st : Status) (aux : Word32) (b : Block) :
    Only [.clk, .regs, .cnt, .cmtDue, .ents, .ports, .rings, .tdone, .chans, .cq, .cbParts, .resumeQ, .hg, .log, .evr, .trace, .watch, .tally, .xbar, .out] b (cqFail p w q st aux b) := by
  unfold cqFail
  try dsimp only
  repeat' first
    | with_reducible apply Only.refl
    | (with_reducible apply Only.next (updEnt_only _ _ _); · decide)
    | (with_reducible apply Only.next (logRec_only _ _ _); · decide)
    | (with_reducible apply Only.next (settle_only _ _ _ _ _ _ _ _ _ _); · decide)
    | (with_reducible apply Only.next (cqSettle_only _ _ _ _ _ _); · decide)
    | with_reducible apply Only.foldl
    | split
    | refine Only.update (by intro f hf; cases f <;> first | exact absurd (by decide) hf | dsimp only [agree]) ?_
    | (intro _; try dsimp only)

theorem arrivePart_only (p : Params) (w : ℕ) (x2 : Part) (b : Block) :
    Only [.clk, .regs, .cnt, .cmtDue, .ents, .ports, .rings, .tdone, .chans, .cq, .cbParts, .resumeQ, .hg, .log, .evr, .trace, .watch, .tally, .xbar, .out] b (arrivePart p w x2 b) := by
  unfold arrivePart
  try dsimp only
  repeat' first
    | with_reducible apply Only.refl
    | (with_reducible apply Only.next (updCQ_only _ _ _ _); · decide)
    | (with_reducible apply Only.next (trForm_only _ _ _ _); · decide)
    | (with_reducible apply Only.next (logRec_only _ _ _); · decide)
    | (with_reducible apply Only.next (partBack_only _ _ _ _ _ _); · decide)
    | (with_reducible apply Only.next (cqFail_only _ _ _ _ _ _); · decide)
    | with_reducible apply Only.when
    | with_reducible apply Only.foldl
    | split
    | refine Only.update (by intro f hf; cases f <;> first | exact absurd (by decide) hf | dsimp only [agree]) ?_
    | (intro _; try dsimp only)

theorem tearAt_only (p : Params) (qid : BitVec 16) (i : Option ℕ) (n : ℕ) (word : Word32) (b : Block) :
    Only [.clk, .regs, .cnt, .cmtDue, .ents, .ports, .rings, .tdone, .chans, .cq, .cbParts, .resumeQ, .hg, .log, .evr, .trace, .watch, .tally, .xbar, .out] b (tearAt p qid i n word b) := by
  unfold tearAt
  try dsimp only
  repeat' first
    | with_reducible apply Only.refl
    | (with_reducible apply Only.next (voidW_only _ _); · decide)
    | (with_reducible apply Only.next (cqFail_only _ _ _ _ _ _); · decide)
    | with_reducible apply Only.foldl
    | split
    | refine Only.update (by intro f hf; cases f <;> first | exact absurd (by decide) hf | dsimp only [agree]) ?_
    | (intro _; try dsimp only)

theorem tearAll_only (p : Params) (n : ℕ) (b : Block) :
    Only [.cnt, .ports, .hg, .xbar, .out] b (tearAll p n b) := by
  unfold tearAll
  try dsimp only
  repeat' first
    | with_reducible apply Only.refl
    | (with_reducible apply Only.next (updPort_only _ _ _); · decide)
    | (with_reducible apply Only.next (xput_only _ _); · decide)
    | (with_reducible apply Only.next (xsend_only _ _ _ _); · decide)
    | (with_reducible apply Only.next (sendItem_only _ _ _); · decide)
    | with_reducible apply Only.when
    | with_reducible apply Only.forEach
    | with_reducible apply Only.foldl
    | split
    | refine Only.update (by intro f hf; cases f <;> first | exact absurd (by decide) hf | dsimp only [agree]) ?_
    | (intro _; try dsimp only)

theorem watchOut_only (w : ℕ) (q : ℕ) (c : CQ) (v : ℕ) (b : Block) :
    Only [.watch] b (watchOut w q c v b) := by
  unfold watchOut
  try dsimp only
  repeat' first
    | with_reducible apply Only.refl
    | with_reducible apply Only.foldl
    | split
    | refine Only.update (by intro f hf; cases f <;> first | exact absurd (by decide) hf | dsimp only [agree]) ?_
    | (intro _; try dsimp only)

theorem drainBlock_only (p : Params) (w : ℕ) (q : ℕ) (b : Block) :
    Only [.cq, .out] b (drainBlock p w q b) := by
  unfold drainBlock
  try dsimp only
  repeat' first
    | with_reducible apply Only.refl
    | (with_reducible apply Only.next (updCQ_only _ _ _ _); · decide)
    | (with_reducible apply Only.next (mpW_only _ _ _ _ _ _ _ _); · decide)
    | with_reducible apply Only.foldl
    | split
    | refine Only.update (by intro f hf; cases f <;> first | exact absurd (by decide) hf | dsimp only [agree]) ?_
    | (intro _; try dsimp only)

theorem drainSome_only (p : Params) (w : ℕ) (q : ℕ) (x3 : ℕ) (x4 : Block) :
    Only [.cq, .watch, .out] x4 (drainSome p w q x3 x4) := by
  induction x3 generalizing x4 with
  | zero =>
    unfold drainSome
    try dsimp only
    repeat' first
        | with_reducible apply Only.refl
        | (with_reducible apply Only.next (updCQ_only _ _ _ _); · decide)
        | (with_reducible apply Only.next (watchOut_only _ _ _ _ _); · decide)
        | (with_reducible apply Only.next (drainBlock_only _ _ _ _); · decide)
        | with_reducible apply Only.foldl
        | split
        | refine Only.update (by intro f hf; cases f <;> first | exact absurd (by decide) hf | dsimp only [agree]) ?_
        | (intro _; try dsimp only)
  | succ k ih =>
    unfold drainSome
    try dsimp only
    repeat' first
        | (with_reducible apply Only.next (ih _); · decide)
        | with_reducible apply Only.refl
        | (with_reducible apply Only.next (updCQ_only _ _ _ _); · decide)
        | (with_reducible apply Only.next (watchOut_only _ _ _ _ _); · decide)
        | (with_reducible apply Only.next (drainBlock_only _ _ _ _); · decide)
        | with_reducible apply Only.foldl
        | split
        | refine Only.update (by intro f hf; cases f <;> first | exact absurd (by decide) hf | dsimp only [agree]) ?_
        | (intro _; try dsimp only)

theorem drainFinish_only (p : Params) (w : ℕ) (q : ℕ) (b : Block) :
    Only [.clk, .regs, .cnt, .cmtDue, .ents, .ports, .rings, .tdone, .chans, .cq, .cbParts, .resumeQ, .hg, .log, .evr, .trace, .watch, .tally, .xbar, .out] b (drainFinish p w q b) := by
  unfold drainFinish
  try dsimp only
  repeat' first
    | with_reducible apply Only.refl
    | (with_reducible apply Only.next (updCQ_only _ _ _ _); · decide)
    | (with_reducible apply Only.next (digestWrite_only _ _ _ _ _ _); · decide)
    | (with_reducible apply Only.next (drainSettle_only _ _ _ _); · decide)
    | with_reducible apply Only.foldl
    | split
    | refine Only.update (by intro f hf; cases f <;> first | exact absurd (by decide) hf | dsimp only [agree]) ?_
    | (intro _; try dsimp only)

theorem ringAnswer_only (tag : ℕ) (st : Status) (b : Block) :
    Only [.cnt, .xbar] b (ringAnswer tag st b) := by
  unfold ringAnswer
  try dsimp only
  repeat' first
    | with_reducible apply Only.refl
    | (with_reducible apply Only.next (faultTo_only _ _ _ _ _); · decide)
    | with_reducible apply Only.when
    | with_reducible apply Only.foldl
    | split
    | refine Only.update (by intro f hf; cases f <;> first | exact absurd (by decide) hf | dsimp only [agree]) ?_
    | (intro _; try dsimp only)

theorem farAnswer_only (p : Params) (n : ℕ) (it : Item) (b : Block) :
    Only [.cnt, .ports, .chans, .rchans, .storms, .xbar] b (farAnswer p n it b) := by
  unfold farAnswer
  try dsimp only
  repeat' first
    | with_reducible apply Only.refl
    | (with_reducible apply Only.next (updPort_only _ _ _); · decide)
    | (with_reducible apply Only.next (setChan_only _ _ _); · decide)
    | (with_reducible apply Only.next (faultTo_only _ _ _ _ _); · decide)
    | (with_reducible apply Only.next (partDone_only _ _ _ _ _); · decide)
    | (with_reducible apply Only.next (ackAt_only _ _ _); · decide)
    | with_reducible apply Only.when
    | with_reducible apply Only.foldl
    | split
    | refine Only.update (by intro f hf; cases f <;> first | exact absurd (by decide) hf | dsimp only [agree]) ?_
    | (intro _; try dsimp only)

theorem applyAnswer_only (p : Params) (it : Item) (b : Block) :
    Only [.cnt, .ports, .chans, .rchans, .storms, .xbar] b (applyAnswer p it b) := by
  unfold applyAnswer
  try dsimp only
  repeat' first
    | with_reducible apply Only.refl
    | (with_reducible apply Only.next (ringAnswer_only _ _ _); · decide)
    | (with_reducible apply Only.next (farAnswer_only _ _ _ _); · decide)
    | with_reducible apply Only.foldl
    | split
    | refine Only.update (by intro f hf; cases f <;> first | exact absurd (by decide) hf | dsimp only [agree]) ?_
    | (intro _; try dsimp only)

end Sys2Proof.Machine
end

