-- ==== Sys2Proof/Laws/OnlyHasps.lean ====
section
/-! SUPPORT. What each operation can change: hasps, keys and the engine ports. One lemma for each operation; the list names the
parts of the block outside which it leaves everything as it was. -/

namespace Sys2Proof.Machine

set_option linter.all false

theorem haspSignal_only (p : Params) (h : ℕ) (inc : Word32) (t : ℕ) (m : ℕ × ℕ) (lg : LogRec) (b : Block) :
    Only [.regs, .cnt, .hasps, .log, .trace, .out] b (haspSignal p h inc t m lg b).2 := by
  unfold haspSignal
  try dsimp only
  repeat' first
    | with_reducible apply Only.refl
    | (with_reducible apply Only.next (updHasp_only _ _ _); · decide)
    | (with_reducible apply Only.next (trForm_only _ _ _ _); · decide)
    | (with_reducible apply Only.next (logRec_only _ _ _); · decide)
    | with_reducible apply Only.foldl
    | split
    | refine Only.update (by intro f hf; cases f <;> first | exact absurd (by decide) hf | dsimp only [agree]) ?_
    | (intro _; try dsimp only)

theorem haspReset_only (h : ℕ) (t : ℕ) (b : Block) :
    Only [.hasps] b (haspReset h t b).2 := by
  unfold haspReset
  try dsimp only
  repeat' first
    | with_reducible apply Only.refl
    | (with_reducible apply Only.next (updHasp_only _ _ _); · decide)
    | with_reducible apply Only.when
    | with_reducible apply Only.foldl
    | split
    | refine Only.update (by intro f hf; cases f <;> first | exact absurd (by decide) hf | dsimp only [agree]) ?_
    | (intro _; try dsimp only)

theorem sigOutcome_only (p : Params) (src : SigSrc) (st : Status) (b : Block) :
    Only [.cnt, .ports, .hg, .xbar, .out] b (sigOutcome p src st b) := by
  unfold sigOutcome
  try dsimp only
  repeat' first
    | with_reducible apply Only.refl
    | (with_reducible apply Only.next (sendItem_only _ _ _); · decide)
    | (with_reducible apply Only.next (answerTo_only _ _ _ _ _); · decide)
    | (with_reducible apply Only.next (faultTo_only _ _ _ _ _); · decide)
    | with_reducible apply Only.when
    | with_reducible apply Only.foldl
    | split
    | refine Only.update (by intro f hf; cases f <;> first | exact absurd (by decide) hf | dsimp only [agree]) ?_
    | (intro _; try dsimp only)

theorem sigApply_only (p : Params) (h : ℕ) (inc : Word32) (src : SigSrc) (b : Block) :
    Only [.regs, .cnt, .ports, .hasps, .hg, .log, .trace, .xbar, .out] b (sigApply p h inc src b) := by
  unfold sigApply
  try dsimp only
  repeat' first
    | with_reducible apply Only.refl
    | (with_reducible apply Only.next (haspSignal_only _ _ _ _ _ _ _); · decide)
    | (with_reducible apply Only.next (sigOutcome_only _ _ _ _); · decide)
    | with_reducible apply Only.foldl
    | split
    | refine Only.update (by intro f hf; cases f <;> first | exact absurd (by decide) hf | dsimp only [agree]) ?_
    | (intro _; try dsimp only)

theorem registerWait_only (who : Waiter) (h : ℕ) (target : Word32) (b : Block) :
    Only [.clk, .waits] b (registerWait who h target b) := by
  unfold registerWait
  try dsimp only
  repeat' first
    | with_reducible apply Only.refl
    | (with_reducible apply Only.next (tookSeq_only _); · decide)
    | with_reducible apply Only.foldl
    | split
    | refine Only.update (by intro f hf; cases f <;> first | exact absurd (by decide) hf | dsimp only [agree]) ?_
    | (intro _; try dsimp only)

theorem selectWaits_only (b : Block) :
    Only [.waits] b (selectWaits b) := by
  unfold selectWaits
  try dsimp only
  repeat' first
    | with_reducible apply Only.refl
    | with_reducible apply Only.foldl
    | split
    | refine Only.update (by intro f hf; cases f <;> first | exact absurd (by decide) hf | dsimp only [agree]) ?_
    | (intro _; try dsimp only)

theorem freeRing_only (p : Params) (r : ℕ) (b : Block) :
    Only [.cnt, .cmtDue, .rings, .tdone, .chans, .xbar, .out] b (freeRing p r b) := by
  unfold freeRing
  try dsimp only
  repeat' first
    | with_reducible apply Only.refl
    | (with_reducible apply Only.next (progress_only _ _); · decide)
    | (with_reducible apply Only.next (passRec_only _ _ _); · decide)
    | with_reducible apply Only.foldl
    | split
    | refine Only.update (by intro f hf; cases f <;> first | exact absurd (by decide) hf | dsimp only [agree]) ?_
    | (intro _; try dsimp only)

theorem trRel_only (p : Params) (x1 : HWait) (form : ℕ) (m : ℕ × ℕ) (b : Block) :
    Only [.cnt, .trace] b (trRel p x1 form m b) := by
  unfold trRel
  try dsimp only
  repeat' first
    | with_reducible apply Only.refl
    | (with_reducible apply Only.next (trForm_only _ _ _ _); · decide)
    | with_reducible apply Only.foldl
    | split
    | refine Only.update (by intro f hf; cases f <;> first | exact absurd (by decide) hf | dsimp only [agree]) ?_
    | (intro _; try dsimp only)

theorem releaseOne_only (p : Params) (x1 : HWait) (b : Block) :
    Only [.cnt, .cmtDue, .rings, .tdone, .waits, .chans, .hg, .trace, .xbar, .out] b (releaseOne p x1 b) := by
  unfold releaseOne
  try dsimp only
  repeat' first
    | with_reducible apply Only.refl
    | (with_reducible apply Only.next (xsend_only _ _ _ _); · decide)
    | (with_reducible apply Only.next (sendItem_only _ _ _); · decide)
    | (with_reducible apply Only.next (progress_only _ _); · decide)
    | (with_reducible apply Only.next (freeRing_only _ _ _); · decide)
    | (with_reducible apply Only.next (trRel_only _ _ _ _ _); · decide)
    | with_reducible apply Only.when
    | with_reducible apply Only.foldl
    | split
    | refine Only.update (by intro f hf; cases f <;> first | exact absurd (by decide) hf | dsimp only [agree]) ?_
    | (intro _; try dsimp only)

theorem haspAssignAt_only (p : Params) (data : Word32) (b : Block) :
    Only [.regs, .hasps, .out] b (haspAssignAt p data b) := by
  unfold haspAssignAt
  try dsimp only
  repeat' first
    | with_reducible apply Only.refl
    | (with_reducible apply Only.next (updHasp_only _ _ _); · decide)
    | (with_reducible apply Only.next (pgErr_only _ _ _ _); · decide)
    | with_reducible apply Only.foldl
    | split
    | refine Only.update (by intro f hf; cases f <;> first | exact absurd (by decide) hf | dsimp only [agree]) ?_
    | (intro _; try dsimp only)

theorem haspForceAt_only (p : Params) (b : Block) :
    Only [.regs, .cnt, .hasps, .log, .trace, .out] b (haspForceAt p b) := by
  unfold haspForceAt
  try dsimp only
  repeat' first
    | with_reducible apply Only.refl
    | (with_reducible apply Only.next (updHasp_only _ _ _); · decide)
    | (with_reducible apply Only.next (logRec_only _ _ _); · decide)
    | with_reducible apply Only.foldl
    | split
    | refine Only.update (by intro f hf; cases f <;> first | exact absurd (by decide) hf | dsimp only [agree]) ?_
    | (intro _; try dsimp only)

theorem keySend_only (n : ℕ) (r : BitVec 128) (b : Block) :
    Only [.ports, .out] b (keySend n r b) := by
  unfold keySend
  try dsimp only
  repeat' first
    | with_reducible apply Only.refl
    | (with_reducible apply Only.next (updPort_only _ _ _); · decide)
    | (with_reducible apply Only.next (emit_only _ _); · decide)
    | with_reducible apply Only.foldl
    | split
    | refine Only.update (by intro f hf; cases f <;> first | exact absurd (by decide) hf | dsimp only [agree]) ?_
    | (intro _; try dsimp only)

theorem keyDrain_only (n : ℕ) (b : Block) :
    Only [.ports, .out] b (keyDrain n b) := by
  unfold keyDrain
  try dsimp only
  repeat' first
    | with_reducible apply Only.refl
    | (with_reducible apply Only.next (updPort_only _ _ _); · decide)
    | (with_reducible apply Only.next (emit_only _ _); · decide)
    | with_reducible apply Only.forEach
    | with_reducible apply Only.foldl
    | split
    | refine Only.update (by intro f hf; cases f <;> first | exact absurd (by decide) hf | dsimp only [agree]) ?_
    | (intro _; try dsimp only)

theorem keyEvent_only (p : Params) (n : ℕ) (pool : ℕ) (st : Status) (b : Block) :
    Only [.cnt, .evr] b (keyEvent p n pool st b) := by
  unfold keyEvent
  try dsimp only
  repeat' first
    | with_reducible apply Only.refl
    | (with_reducible apply Only.next (evRec_only _ _ _ _ _ _ _ _); · decide)
    | with_reducible apply Only.foldl
    | split
    | refine Only.update (by intro f hf; cases f <;> first | exact absurd (by decide) hf | dsimp only [agree]) ?_
    | (intro _; try dsimp only)

theorem keyToReq_only (p : Params) (dport : ℕ) (reqport : ℕ) (r : BitVec 128) (b : Block) :
    Only [.cnt, .ports, .out] b (keyToReq p dport reqport r b) := by
  unfold keyToReq
  try dsimp only
  repeat' first
    | with_reducible apply Only.refl
    | (with_reducible apply Only.next (xtx_only _ _ _); · decide)
    | (with_reducible apply Only.next (xrx_only _ _ _); · decide)
    | (with_reducible apply Only.next (keySend_only _ _ _); · decide)
    | with_reducible apply Only.foldl
    | split
    | refine Only.update (by intro f hf; cases f <;> first | exact absurd (by decide) hf | dsimp only [agree]) ?_
    | (intro _; try dsimp only)

theorem keyRefuse_only (p : Params) (dport : ℕ) (pool : ℕ) (reqport : ℕ) (st : Status) (b : Block) :
    Only [.cnt, .ports, .out] b (keyRefuse p dport pool reqport st b) := by
  unfold keyRefuse
  try dsimp only
  repeat' first
    | with_reducible apply Only.refl
    | (with_reducible apply Only.next (keyToReq_only _ _ _ _ _); · decide)
    | with_reducible apply Only.foldl
    | split
    | refine Only.update (by intro f hf; cases f <;> first | exact absurd (by decide) hf | dsimp only [agree]) ?_
    | (intro _; try dsimp only)

theorem trKey_only (p : Params) (kind : ℕ) (dport : ℕ) (pool : ℕ) (reqport : ℕ) (count : ℕ) (b : Block) :
    Only [.cnt, .trace] b (trKey p kind dport pool reqport count b) := by
  unfold trKey
  try dsimp only
  repeat' first
    | with_reducible apply Only.refl
    | (with_reducible apply Only.next (trForm_only _ _ _ _); · decide)
    | with_reducible apply Only.foldl
    | split
    | refine Only.update (by intro f hf; cases f <;> first | exact absurd (by decide) hf | dsimp only [agree]) ?_
    | (intro _; try dsimp only)

theorem keyGrant_only (p : Params) (dport : ℕ) (pool : ℕ) (reqport : ℕ) (count : ℕ) (b : Block) :
    Only [.cnt, .ports, .kpool, .evr, .trace, .out] b (keyGrant p dport pool reqport count b) := by
  unfold keyGrant
  try dsimp only
  repeat' first
    | with_reducible apply Only.refl
    | (with_reducible apply Only.next (updKPool_only _ _ _ _); · decide)
    | (with_reducible apply Only.next (keySend_only _ _ _); · decide)
    | (with_reducible apply Only.next (keyEvent_only _ _ _ _ _); · decide)
    | (with_reducible apply Only.next (keyToReq_only _ _ _ _ _); · decide)
    | (with_reducible apply Only.next (trKey_only _ _ _ _ _ _ _); · decide)
    | with_reducible apply Only.foldl
    | split
    | refine Only.update (by intro f hf; cases f <;> first | exact absurd (by decide) hf | dsimp only [agree]) ?_
    | (intro _; try dsimp only)

theorem keyLate_only (dport : ℕ) (pool : ℕ) (b : Block) :
    Only [.kpool] b (keyLate dport pool b) := by
  unfold keyLate
  try dsimp only
  repeat' first
    | with_reducible apply Only.refl
    | (with_reducible apply Only.next (updKPool_only _ _ _ _); · decide)
    | with_reducible apply Only.foldl
    | split
    | refine Only.update (by intro f hf; cases f <;> first | exact absurd (by decide) hf | dsimp only [agree]) ?_
    | (intro _; try dsimp only)

theorem keyExamine_only (p : Params) (dport : ℕ) (pool : ℕ) (x3 : ℕ) (x4 : Block) :
    Only [.cnt, .ports, .kpool, .evr, .trace, .out] x4 (keyExamine p dport pool x3 x4) := by
  induction x3 generalizing x4 with
  | zero =>
    unfold keyExamine
    try dsimp only
    repeat' first
        | with_reducible apply Only.refl
        | (with_reducible apply Only.next (updKPool_only _ _ _ _); · decide)
        | (with_reducible apply Only.next (keyGrant_only _ _ _ _ _ _); · decide)
        | (with_reducible apply Only.next (keyLate_only _ _ _); · decide)
        | with_reducible apply Only.when
        | with_reducible apply Only.foldl
        | split
        | refine Only.update (by intro f hf; cases f <;> first | exact absurd (by decide) hf | dsimp only [agree]) ?_
        | (intro _; try dsimp only)
  | succ k ih =>
    unfold keyExamine
    try dsimp only
    repeat' first
        | (with_reducible apply Only.next (ih _); · decide)
        | with_reducible apply Only.refl
        | (with_reducible apply Only.next (updKPool_only _ _ _ _); · decide)
        | (with_reducible apply Only.next (keyGrant_only _ _ _ _ _ _); · decide)
        | (with_reducible apply Only.next (keyLate_only _ _ _); · decide)
        | with_reducible apply Only.when
        | with_reducible apply Only.foldl
        | split
        | refine Only.update (by intro f hf; cases f <;> first | exact absurd (by decide) hf | dsimp only [agree]) ?_
        | (intro _; try dsimp only)

theorem keyReturnAt_only (p : Params) (dport : ℕ) (pool : ℕ) (gseq : BitVec 16) (b : Block) :
    Only [.cnt, .ports, .kpool, .evr, .trace, .out] b (keyReturnAt p dport pool gseq b) := by
  unfold keyReturnAt
  try dsimp only
  repeat' first
    | with_reducible apply Only.refl
    | (with_reducible apply Only.next (updKPool_only _ _ _ _); · decide)
    | (with_reducible apply Only.next (bump_only _ _ _); · decide)
    | (with_reducible apply Only.next (keyExamine_only _ _ _ _ _); · decide)
    | with_reducible apply Only.foldl
    | split
    | refine Only.update (by intro f hf; cases f <;> first | exact absurd (by decide) hf | dsimp only [agree]) ?_
    | (intro _; try dsimp only)

theorem keyPoolReset_only (p : Params) (n : ℕ) (pool : ℕ) (st : Status) (b : Block) :
    Only [.cnt, .ports, .kpool, .out] b (keyPoolReset p n pool st b) := by
  unfold keyPoolReset
  try dsimp only
  repeat' first
    | with_reducible apply Only.refl
    | (with_reducible apply Only.next (updKPool_only _ _ _ _); · decide)
    | (with_reducible apply Only.next (keySend_only _ _ _); · decide)
    | (with_reducible apply Only.next (keyRefuse_only _ _ _ _ _ _); · decide)
    | with_reducible apply Only.forEach
    | with_reducible apply Only.foldl
    | split
    | refine Only.update (by intro f hf; cases f <;> first | exact absurd (by decide) hf | dsimp only [agree]) ?_
    | (intro _; try dsimp only)

theorem keyCfgAt_only (p : Params) (k : ℕ) (v : Word32) (w : ℕ) (b : Block) :
    Only [.regs, .kpool, .out] b (keyCfgAt p k v w b) := by
  unfold keyCfgAt
  try dsimp only
  repeat' first
    | with_reducible apply Only.refl
    | (with_reducible apply Only.next (updKPool_only _ _ _ _); · decide)
    | (with_reducible apply Only.next (pgErr_only _ _ _ _); · decide)
    | with_reducible apply Only.when
    | with_reducible apply Only.foldl
    | split
    | refine Only.update (by intro f hf; cases f <;> first | exact absurd (by decide) hf | dsimp only [agree]) ?_
    | (intro _; try dsimp only)

theorem keyResetAt_only (p : Params) (w : ℕ) (b : Block) :
    Only [.regs, .cnt, .ports, .kpool, .out] b (keyResetAt p w b) := by
  unfold keyResetAt
  try dsimp only
  repeat' first
    | with_reducible apply Only.refl
    | (with_reducible apply Only.next (pgErr_only _ _ _ _); · decide)
    | (with_reducible apply Only.next (keyPoolReset_only _ _ _ _ _); · decide)
    | with_reducible apply Only.foldl
    | split
    | refine Only.update (by intro f hf; cases f <;> first | exact absurd (by decide) hf | dsimp only [agree]) ?_
    | (intro _; try dsimp only)

theorem markPreloaded_only (p : Params) (n : ℕ) (h : ℕ) (gen : ℕ) (b : Block) :
    Only [.cnt, .ents, .ports, .evr, .xbar] b (markPreloaded p n h gen b) := by
  unfold markPreloaded
  try dsimp only
  repeat' first
    | with_reducible apply Only.refl
    | (with_reducible apply Only.next (updPort_only _ _ _); · decide)
    | (with_reducible apply Only.next (xsend_only _ _ _ _); · decide)
    | (with_reducible apply Only.next (evRec_only _ _ _ _ _ _ _ _); · decide)
    | (with_reducible apply Only.next (proxyState_only _ _ _); · decide)
    | with_reducible apply Only.foldl
    | split
    | refine Only.update (by intro f hf; cases f <;> first | exact absurd (by decide) hf | dsimp only [agree]) ?_
    | (intro _; try dsimp only)

theorem commitIssue_only (p : Params) (n : ℕ) (x2 : IqEnt) (b : Block) :
    Only [.cnt, .ents, .ports, .chans, .rchans, .evr, .trace, .xbar, .out] b (commitIssue p n x2 b) := by
  unfold commitIssue
  try dsimp only
  repeat' first
    | with_reducible apply Only.refl
    | (with_reducible apply Only.next (updEnt_only _ _ _); · decide)
    | (with_reducible apply Only.next (updPort_only _ _ _); · decide)
    | (with_reducible apply Only.next (emit_only _ _); · decide)
    | (with_reducible apply Only.next (bump_only _ _ _); · decide)
    | (with_reducible apply Only.next (xsend_only _ _ _ _); · decide)
    | (with_reducible apply Only.next (trTask_only _ _ _ _ _ _ _); · decide)
    | (with_reducible apply Only.next (evRec_only _ _ _ _ _ _ _ _); · decide)
    | (with_reducible apply Only.next (proxyState_only _ _ _); · decide)
    | (with_reducible apply Only.next (bindTask_only _ _ _ _); · decide)
    | with_reducible apply Only.foldl
    | split
    | refine Only.update (by intro f hf; cases f <;> first | exact absurd (by decide) hf | dsimp only [agree]) ?_
    | (intro _; try dsimp only)

theorem finishTask_only (p : Params) (n : ℕ) (r : RunInfo) (raw : ℕ) (bytes : List ℕ) (stats : Option (BitVec 256)) (b : Block) :
    Only [.clk, .regs, .cnt, .cmtDue, .ents, .ports, .rings, .tdone, .chans, .rchans, .resumeQ, .hg, .log, .evr, .trace, .watch, .tally, .xbar, .out] b (finishTask p n r raw bytes stats b) := by
  unfold finishTask
  try dsimp only
  repeat' first
    | with_reducible apply Only.refl
    | (with_reducible apply Only.next (updPort_only _ _ _); · decide)
    | (with_reducible apply Only.next (bump_only _ _ _); · decide)
    | (with_reducible apply Only.next (xsend_only _ _ _ _); · decide)
    | (with_reducible apply Only.next (trTask_only _ _ _ _ _ _ _); · decide)
    | (with_reducible apply Only.next (evRec_only _ _ _ _ _ _ _ _); · decide)
    | (with_reducible apply Only.next (tally_only _ _ _ _ _); · decide)
    | (with_reducible apply Only.next (homeCmp_only _ _ _ _ _ _ _ _); · decide)
    | (with_reducible apply Only.next (unbindTask_only _ _ _); · decide)
    | (with_reducible apply Only.next (tearAll_only _ _ _); · decide)
    | with_reducible apply Only.forEach
    | with_reducible apply Only.foldl
    | split
    | refine Only.update (by intro f hf; cases f <;> first | exact absurd (by decide) hf | dsimp only [agree]) ?_
    | (intro _; try dsimp only)

theorem badBell_only (p : Params) (t : ℕ) (slot : ℕ) (b : Block) :
    Only [.regs, .cnt] b (badBell p t slot b) := by
  unfold badBell
  try dsimp only
  repeat' first
    | with_reducible apply Only.refl
    | (with_reducible apply Only.next (setBits_only _ _ _ _); · decide)
    | (with_reducible apply Only.next (bump_only _ _ _); · decide)
    | with_reducible apply Only.foldl
    | split
    | refine Only.update (by intro f hf; cases f <;> first | exact absurd (by decide) hf | dsimp only [agree]) ?_
    | (intro _; try dsimp only)

theorem ringBell_only (p : Params) (t : ℕ) (slot : ℕ) (wptr : BitVec 16) (b : Block) :
    Only [.regs, .cnt, .rings] b (ringBell p t slot wptr b) := by
  unfold ringBell
  try dsimp only
  repeat' first
    | with_reducible apply Only.refl
    | (with_reducible apply Only.next (updRing_only _ _ _); · decide)
    | (with_reducible apply Only.next (badBell_only _ _ _ _); · decide)
    | with_reducible apply Only.foldl
    | split
    | refine Only.update (by intro f hf; cases f <;> first | exact absurd (by decide) hf | dsimp only [agree]) ?_
    | (intro _; try dsimp only)

theorem writeSlot_only (w : ℕ) (n : ℕ) (clear : Bool) (v : Word32) (b : Block) :
    Only [.slots] b (writeSlot w n clear v b) := by
  unfold writeSlot
  try dsimp only
  repeat' first
    | with_reducible apply Only.refl
    | (with_reducible apply Only.next (updSlot_only _ _ _ _); · decide)
    | with_reducible apply Only.foldl
    | split
    | refine Only.update (by intro f hf; cases f <;> first | exact absurd (by decide) hf | dsimp only [agree]) ?_
    | (intro _; try dsimp only)

theorem slotWrite_only (p : Params) (v : ℕ) (n : ℕ) (clear : Bool) (value : Word32) (port : ℕ) (tag : BitVec 16) (t : Option ℕ) (b : Block) :
    Only [.cnt, .slots, .ports, .xbar] b (slotWrite p v n clear value port tag t b) := by
  unfold slotWrite
  try dsimp only
  repeat' first
    | with_reducible apply Only.refl
    | (with_reducible apply Only.next (answerTo_only _ _ _ _ _); · decide)
    | (with_reducible apply Only.next (writeSlot_only _ _ _ _ _); · decide)
    | with_reducible apply Only.when
    | with_reducible apply Only.foldl
    | split
    | refine Only.update (by intro f hf; cases f <;> first | exact absurd (by decide) hf | dsimp only [agree]) ?_
    | (intro _; try dsimp only)

theorem deliver_only (p : Params) (x1 : XItem) (b : Block) :
    Only [.regs, .cnt, .slots, .ports, .rings, .xbar] b (deliver p x1 b) := by
  unfold deliver
  try dsimp only
  repeat' first
    | with_reducible apply Only.refl
    | (with_reducible apply Only.next (xrx_only _ _ _); · decide)
    | (with_reducible apply Only.next (ringBell_only _ _ _ _ _); · decide)
    | (with_reducible apply Only.next (slotWrite_only _ _ _ _ _ _ _ _ _); · decide)
    | with_reducible apply Only.foldl
    | split
    | refine Only.update (by intro f hf; cases f <;> first | exact absurd (by decide) hf | dsimp only [agree]) ?_
    | (intro _; try dsimp only)

theorem deliverDue_only (p : Params) (f : ℕ → ℕ → Bool) (b : Block) :
    Only [.regs, .cnt, .slots, .ports, .rings, .xbar] b (deliverDue p f b) := by
  unfold deliverDue
  try dsimp only
  repeat' first
    | with_reducible apply Only.refl
    | (with_reducible apply Only.next (deliver_only _ _ _); · decide)
    | with_reducible apply Only.forEach
    | with_reducible apply Only.foldl
    | split
    | refine Only.update (by intro f hf; cases f <;> first | exact absurd (by decide) hf | dsimp only [agree]) ?_
    | (intro _; try dsimp only)

theorem snapEnd_only (n : ℕ) (b : Block) :
    Only [.ports, .dump] b (snapEnd n b) := by
  unfold snapEnd
  try dsimp only
  repeat' first
    | with_reducible apply Only.refl
    | (with_reducible apply Only.next (updPort_only _ _ _); · decide)
    | with_reducible apply Only.foldl
    | split
    | refine Only.update (by intro f hf; cases f <;> first | exact absurd (by decide) hf | dsimp only [agree]) ?_
    | (intro _; try dsimp only)

theorem snapAbsent_only (p : Params) (port : ℕ) (dump : Bool) (b : Block) :
    Only [.ports, .dump, .out] b (snapAbsent p port dump b) := by
  unfold snapAbsent
  try dsimp only
  repeat' first
    | with_reducible apply Only.refl
    | (with_reducible apply Only.next (emit_only _ _); · decide)
    | (with_reducible apply Only.next (snapEnd_only _ _); · decide)
    | with_reducible apply Only.foldl
    | split
    | refine Only.update (by intro f hf; cases f <;> first | exact absurd (by decide) hf | dsimp only [agree]) ?_
    | (intro _; try dsimp only)

theorem snapAsk_only (n : ℕ) (addr : ℕ) (dump : Bool) (b : Block) :
    Only [.ports, .out] b (snapAsk n addr dump b) := by
  unfold snapAsk
  try dsimp only
  repeat' first
    | with_reducible apply Only.refl
    | (with_reducible apply Only.next (updPort_only _ _ _); · decide)
    | (with_reducible apply Only.next (emit_only _ _); · decide)
    | with_reducible apply Only.foldl
    | split
    | refine Only.update (by intro f hf; cases f <;> first | exact absurd (by decide) hf | dsimp only [agree]) ?_
    | (intro _; try dsimp only)

theorem resetQueued_only (p : Params) (n : ℕ) (x2 : IqEnt) (b : Block) :
    Only [.clk, .regs, .cnt, .cmtDue, .ents, .ports, .rings, .tdone, .chans, .resumeQ, .hg, .log, .evr, .trace, .watch, .tally, .xbar, .out] b (resetQueued p n x2 b) := by
  unfold resetQueued
  try dsimp only
  repeat' first
    | with_reducible apply Only.refl
    | (with_reducible apply Only.next (updEnt_only _ _ _); · decide)
    | (with_reducible apply Only.next (xsend_only _ _ _ _); · decide)
    | (with_reducible apply Only.next (settle_only _ _ _ _ _ _ _ _ _ _); · decide)
    | with_reducible apply Only.foldl
    | split
    | refine Only.update (by intro f hf; cases f <;> first | exact absurd (by decide) hf | dsimp only [agree]) ?_
    | (intro _; try dsimp only)

theorem resetStage_only (p : Params) (n : ℕ) (b : Block) :
    Only [.cnt, .ents, .ports, .trace] b (resetStage p n b) := by
  unfold resetStage
  try dsimp only
  repeat' first
    | with_reducible apply Only.refl
    | (with_reducible apply Only.next (updEnt_only _ _ _); · decide)
    | (with_reducible apply Only.next (updPort_only _ _ _); · decide)
    | (with_reducible apply Only.next (bump_only _ _ _); · decide)
    | (with_reducible apply Only.next (trTask_only _ _ _ _ _ _ _); · decide)
    | with_reducible apply Only.foldl
    | split
    | refine Only.update (by intro f hf; cases f <;> first | exact absurd (by decide) hf | dsimp only [agree]) ?_
    | (intro _; try dsimp only)

theorem resetCans_only (n : ℕ) (b : Block) :
    Only [.ents, .ports] b (resetCans n b) := by
  unfold resetCans
  try dsimp only
  repeat' first
    | with_reducible apply Only.refl
    | (with_reducible apply Only.next (updEnt_only _ _ _); · decide)
    | (with_reducible apply Only.next (updPort_only _ _ _); · decide)
    | with_reducible apply Only.forEach
    | with_reducible apply Only.foldl
    | split
    | refine Only.update (by intro f hf; cases f <;> first | exact absurd (by decide) hf | dsimp only [agree]) ?_
    | (intro _; try dsimp only)

end Sys2Proof.Machine
end

