-- ==== Sys2Proof/Laws/OnlyRings.lean ====
section
/-! SUPPORT. What each operation can change: rings, the passes over a segment, pre-emption and the walk. One lemma for each operation; the list names the
parts of the block outside which it leaves everything as it was. -/

namespace Sys2Proof.Machine

set_option linter.all false

theorem capture_only (p : Params) (r : ℕ) (kind : ℕ) (st : Status) (off : ℕ) (va : ℕ) (rec1 : BitVec 512) (b : Block) :
    Only [.ports, .cap, .out] b (capture p r kind st off va rec1 b) := by
  unfold capture
  try dsimp only
  repeat' first
    | with_reducible apply Only.refl
    | (with_reducible apply Only.next (snapAsk_only _ _ _ _); · decide)
    | with_reducible apply Only.when
    | with_reducible apply Only.forEach
    | with_reducible apply Only.foldl
    | split
    | refine Only.update (by intro f hf; cases f <;> first | exact absurd (by decide) hf | dsimp only [agree]) ?_
    | (intro _; try dsimp only)

theorem abandonFar_only (p : Params) (r : ℕ) (g : Seg) (b : Block) :
    Only [.cnt, .hg, .out] b (abandonFar p r g b) := by
  unfold abandonFar
  try dsimp only
  repeat' first
    | with_reducible apply Only.refl
    | (with_reducible apply Only.next (sendItem_only _ _ _); · decide)
    | with_reducible apply Only.when
    | with_reducible apply Only.forEach
    | with_reducible apply Only.foldl
    | split
    | refine Only.update (by intro f hf; cases f <;> first | exact absurd (by decide) hf | dsimp only [agree]) ?_
    | (intro _; try dsimp only)

theorem abandonSeg_only (p : Params) (r : ℕ) (b : Block) :
    Only [.cnt, .rings, .segs, .entq, .hg, .out] b (abandonSeg p r b) := by
  unfold abandonSeg
  try dsimp only
  repeat' first
    | with_reducible apply Only.refl
    | (with_reducible apply Only.next (updWalk_only _ _ _); · decide)
    | (with_reducible apply Only.next (abandonFar_only _ _ _ _); · decide)
    | with_reducible apply Only.when
    | with_reducible apply Only.foldl
    | split
    | refine Only.update (by intro f hf; cases f <;> first | exact absurd (by decide) hf | dsimp only [agree]) ?_
    | (intro _; try dsimp only)

theorem dropRingWait_only (p : Params) (r : ℕ) (b : Block) :
    Only [.cnt, .rings, .waits, .hg, .out] b (dropRingWait p r b) := by
  unfold dropRingWait
  try dsimp only
  repeat' first
    | with_reducible apply Only.refl
    | (with_reducible apply Only.next (updWalk_only _ _ _); · decide)
    | (with_reducible apply Only.next (removeWait_only _ _ _ _ _ _ _ _); · decide)
    | with_reducible apply Only.foldl
    | split
    | refine Only.update (by intro f hf; cases f <;> first | exact absurd (by decide) hf | dsimp only [agree]) ?_
    | (intro _; try dsimp only)

theorem clearHalt_only (r : ℕ) (b : Block) :
    Only [.rings] b (clearHalt r b) := by
  unfold clearHalt
  try dsimp only
  repeat' first
    | with_reducible apply Only.refl
    | (with_reducible apply Only.next (updRing_only _ _ _); · decide)
    | with_reducible apply Only.foldl
    | split
    | refine Only.update (by intro f hf; cases f <;> first | exact absurd (by decide) hf | dsimp only [agree]) ?_
    | (intro _; try dsimp only)

theorem dropWalk_only (p : Params) (r : ℕ) (b : Block) :
    Only [.cnt, .rings, .segs, .entq, .waits, .hg, .out] b (dropWalk p r b) := by
  unfold dropWalk
  try dsimp only
  repeat' first
    | with_reducible apply Only.refl
    | (with_reducible apply Only.next (abandonSeg_only _ _ _); · decide)
    | (with_reducible apply Only.next (dropRingWait_only _ _ _); · decide)
    | (with_reducible apply Only.next (clearHalt_only _ _); · decide)
    | with_reducible apply Only.foldl
    | split
    | refine Only.update (by intro f hf; cases f <;> first | exact absurd (by decide) hf | dsimp only [agree]) ?_
    | (intro _; try dsimp only)

theorem voidPre_only (p : Params) (r : ℕ) (subid : Word32) (b : Block) :
    Only [.cnt, .cmtDue, .rings, .tdone, .chans, .resumeQ, .trace, .xbar, .out] b (voidPre p r subid b) := by
  unfold voidPre
  try dsimp only
  repeat' first
    | with_reducible apply Only.refl
    | (with_reducible apply Only.next (toRun_only _ _ _); · decide)
    | with_reducible apply Only.when
    | with_reducible apply Only.foldl
    | split
    | refine Only.update (by intro f hf; cases f <;> first | exact absurd (by decide) hf | dsimp only [agree]) ?_
    | (intro _; try dsimp only)

theorem cancelAt_only (p : Params) (w : ℕ) (h : ℕ) (b : Block) :
    Only [.clk, .regs, .cnt, .cmtDue, .ents, .ports, .rings, .tdone, .waits, .chans, .cq, .cbParts, .resumeQ, .hg, .log, .evr, .trace, .watch, .tally, .xbar, .out] b (cancelAt p w h b) := by
  unfold cancelAt
  try dsimp only
  repeat' first
    | with_reducible apply Only.refl
    | (with_reducible apply Only.next (xsend_only _ _ _ _); · decide)
    | (with_reducible apply Only.next (cancelEntry_only _ _ _); · decide)
    | with_reducible apply Only.foldl
    | split
    | refine Only.update (by intro f hf; cases f <;> first | exact absurd (by decide) hf | dsimp only [agree]) ?_
    | (intro _; try dsimp only)

theorem endSub_only (p : Params) (r : ℕ) (subid : Word32) (st : Status) (b : Block) :
    Only [.clk, .regs, .cnt, .cmtDue, .ents, .ports, .rings, .tdone, .segs, .entq, .waits, .chans, .cq, .cbParts, .resumeQ, .hg, .log, .evr, .trace, .watch, .tally, .xbar, .out] b (endSub p r subid st b) := by
  unfold endSub
  try dsimp only
  repeat' first
    | with_reducible apply Only.refl
    | (with_reducible apply Only.next (updRing_only _ _ _); · decide)
    | (with_reducible apply Only.next (updWalk_only _ _ _); · decide)
    | (with_reducible apply Only.next (voidW_only _ _); · decide)
    | (with_reducible apply Only.next (updSub_only _ _ _ _); · decide)
    | (with_reducible apply Only.next (overSub_only _ _ _); · decide)
    | (with_reducible apply Only.next (overSteps_only _ _ _); · decide)
    | (with_reducible apply Only.next (subCheck_only _ _ _ _); · decide)
    | (with_reducible apply Only.next (startNext_only _ _); · decide)
    | (with_reducible apply Only.next (clearHalt_only _ _); · decide)
    | (with_reducible apply Only.next (dropWalk_only _ _ _); · decide)
    | (with_reducible apply Only.next (voidPre_only _ _ _ _); · decide)
    | (with_reducible apply Only.next (cancelAt_only _ _ _ _); · decide)
    | with_reducible apply Only.forEach
    | with_reducible apply Only.foldl
    | split
    | refine Only.update (by intro f hf; cases f <;> first | exact absurd (by decide) hf | dsimp only [agree]) ?_
    | (intro _; try dsimp only)

theorem haltRing_only (p : Params) (r : ℕ) (kind : ℕ) (rec1 : BitVec 512) (va : ℕ) (b : Block) :
    Only [.regs, .cnt, .ports, .rings, .log, .cap, .trace, .out] b (haltRing p r kind rec1 va b) := by
  unfold haltRing
  try dsimp only
  repeat' first
    | with_reducible apply Only.refl
    | (with_reducible apply Only.next (updRing_only _ _ _); · decide)
    | (with_reducible apply Only.next (raiseW_only _ _ _ _); · decide)
    | (with_reducible apply Only.next (trRing_only _ _ _ _ _ _ _); · decide)
    | (with_reducible apply Only.next (logRec_only _ _ _); · decide)
    | (with_reducible apply Only.next (capture_only _ _ _ _ _ _ _ _); · decide)
    | with_reducible apply Only.foldl
    | split
    | refine Only.update (by intro f hf; cases f <;> first | exact absurd (by decide) hf | dsimp only [agree]) ?_
    | (intro _; try dsimp only)

theorem walkFault_only (p : Params) (r : ℕ) (st : Status) (off : ℕ) (rec1 : BitVec 512) (b : Block) :
    Only [.cnt, .ports, .rings, .segs, .entq, .hg, .cap, .xbar, .out] b (walkFault p r st off rec1 b) := by
  unfold walkFault
  try dsimp only
  repeat' first
    | with_reducible apply Only.refl
    | (with_reducible apply Only.next (updWalk_only _ _ _); · decide)
    | (with_reducible apply Only.next (faultTo_only _ _ _ _ _); · decide)
    | (with_reducible apply Only.next (capture_only _ _ _ _ _ _ _ _); · decide)
    | (with_reducible apply Only.next (abandonSeg_only _ _ _); · decide)
    | with_reducible apply Only.foldl
    | split
    | refine Only.update (by intro f hf; cases f <;> first | exact absurd (by decide) hf | dsimp only [agree]) ?_
    | (intro _; try dsimp only)

theorem timeOut_only (p : Params) (r : ℕ) (s : Sub) (b : Block) :
    Only [.clk, .regs, .cnt, .cmtDue, .ents, .ports, .rings, .tdone, .segs, .entq, .waits, .chans, .cq, .cbParts, .resumeQ, .hg, .log, .evr, .trace, .watch, .tally, .xbar, .out] b (timeOut p r s b) := by
  unfold timeOut
  try dsimp only
  repeat' first
    | with_reducible apply Only.refl
    | (with_reducible apply Only.next (logRec_only _ _ _); · decide)
    | (with_reducible apply Only.next (endSub_only _ _ _ _ _); · decide)
    | with_reducible apply Only.foldl
    | split
    | refine Only.update (by intro f hf; cases f <;> first | exact absurd (by decide) hf | dsimp only [agree]) ?_
    | (intro _; try dsimp only)

theorem writeFault_only (p : Params) (r : ℕ) (subid : Word32) (resp : Resp) (b : Block) :
    Only [.regs, .cnt, .log, .trace, .out] b (writeFault p r subid resp b) := by
  unfold writeFault
  try dsimp only
  repeat' first
    | with_reducible apply Only.refl
    | (with_reducible apply Only.next (logRec_only _ _ _); · decide)
    | with_reducible apply Only.when
    | with_reducible apply Only.foldl
    | split
    | refine Only.update (by intro f hf; cases f <;> first | exact absurd (by decide) hf | dsimp only [agree]) ?_
    | (intro _; try dsimp only)

theorem takeRec_only (p : Params) (r : ℕ) (x2 : BitVec 512) (blank : Bool) (st : Option Status) (b : Block) :
    Only [.cnt, .cmtDue, .rings, .tdone, .chans, .xbar, .out] b (takeRec p r x2 blank st b) := by
  unfold takeRec
  try dsimp only
  repeat' first
    | with_reducible apply Only.refl
    | (with_reducible apply Only.next (updRing_only _ _ _); · decide)
    | (with_reducible apply Only.next (progress_only _ _); · decide)
    | (with_reducible apply Only.next (subCheck_only _ _ _ _); · decide)
    | (with_reducible apply Only.next (startNext_only _ _); · decide)
    | with_reducible apply Only.when
    | with_reducible apply Only.foldl
    | split
    | refine Only.update (by intro f hf; cases f <;> first | exact absurd (by decide) hf | dsimp only [agree]) ?_
    | (intro _; try dsimp only)

theorem badRec_only (p : Params) (r : ℕ) (x2 : BitVec 512) (st : Status) (b : Block) :
    Only [.regs, .cnt, .cmtDue, .ports, .rings, .tdone, .chans, .log, .cap, .trace, .xbar, .out] b (badRec p r x2 st b) := by
  unfold badRec
  try dsimp only
  repeat' first
    | with_reducible apply Only.refl
    | (with_reducible apply Only.next (logRec_only _ _ _); · decide)
    | (with_reducible apply Only.next (capture_only _ _ _ _ _ _ _ _); · decide)
    | (with_reducible apply Only.next (takeRec_only _ _ _ _ _ _); · decide)
    | with_reducible apply Only.foldl
    | split
    | refine Only.update (by intro f hf; cases f <;> first | exact absurd (by decide) hf | dsimp only [agree]) ?_
    | (intro _; try dsimp only)

theorem fetchOne_only (p : Params) (r : ℕ) (b : Block) :
    Only [.rings, .out] b (fetchOne p r b) := by
  unfold fetchOne
  try dsimp only
  repeat' first
    | with_reducible apply Only.refl
    | (with_reducible apply Only.next (updRing_only _ _ _); · decide)
    | (with_reducible apply Only.next (updWalk_only _ _ _); · decide)
    | (with_reducible apply Only.next (mpR_only _ _ _ _ _ _); · decide)
    | with_reducible apply Only.foldl
    | split
    | refine Only.update (by intro f hf; cases f <;> first | exact absurd (by decide) hf | dsimp only [agree]) ?_
    | (intro _; try dsimp only)

theorem ringRefuse_only (p : Params) (b : Block) :
    Only [.regs, .out] b (ringRefuse p b) := by
  unfold ringRefuse
  try dsimp only
  repeat' first
    | with_reducible apply Only.refl
    | (with_reducible apply Only.next (pgErr_only _ _ _ _); · decide)
    | with_reducible apply Only.foldl
    | split
    | refine Only.update (by intro f hf; cases f <;> first | exact absurd (by decide) hf | dsimp only [agree]) ?_
    | (intro _; try dsimp only)

theorem enableRing_only (r : ℕ) (b : Block) :
    Only [.rings, .tdone] b (enableRing r b) := by
  unfold enableRing
  try dsimp only
  repeat' first
    | with_reducible apply Only.refl
    | (with_reducible apply Only.next (updRing_only _ _ _); · decide)
    | with_reducible apply Only.foldl
    | split
    | refine Only.update (by intro f hf; cases f <;> first | exact absurd (by decide) hf | dsimp only [agree]) ?_
    | (intro _; try dsimp only)

theorem writeEnable_only (p : Params) (r : ℕ) (on : Bool) (b : Block) :
    Only [.regs, .rings, .tdone, .out] b (writeEnable p r on b) := by
  unfold writeEnable
  try dsimp only
  repeat' first
    | with_reducible apply Only.refl
    | (with_reducible apply Only.next (updRing_only _ _ _); · decide)
    | (with_reducible apply Only.next (ringRefuse_only _ _); · decide)
    | (with_reducible apply Only.next (enableRing_only _ _); · decide)
    | with_reducible apply Only.foldl
    | split
    | refine Only.update (by intro f hf; cases f <;> first | exact absurd (by decide) hf | dsimp only [agree]) ?_
    | (intro _; try dsimp only)

theorem ringWrite_only (p : Params) (k : ℕ) (data : Word32) (b : Block) :
    Only [.regs, .rings, .tdone, .out] b (ringWrite p k data b) := by
  unfold ringWrite
  try dsimp only
  repeat' first
    | with_reducible apply Only.refl
    | (with_reducible apply Only.next (updRing_only _ _ _); · decide)
    | (with_reducible apply Only.next (ringRefuse_only _ _); · decide)
    | (with_reducible apply Only.next (writeEnable_only _ _ _ _); · decide)
    | with_reducible apply Only.foldl
    | split
    | refine Only.update (by intro f hf; cases f <;> first | exact absurd (by decide) hf | dsimp only [agree]) ?_
    | (intro _; try dsimp only)

theorem cancelOldest_only (p : Params) (r : ℕ) (b : Block) :
    Only [.clk, .regs, .cnt, .cmtDue, .ents, .ports, .rings, .tdone, .segs, .entq, .waits, .chans, .cq, .cbParts, .resumeQ, .hg, .log, .evr, .trace, .watch, .tally, .xbar, .out] b (cancelOldest p r b) := by
  unfold cancelOldest
  try dsimp only
  repeat' first
    | with_reducible apply Only.refl
    | (with_reducible apply Only.next (voidW_only _ _); · decide)
    | (with_reducible apply Only.next (endSub_only _ _ _ _ _); · decide)
    | with_reducible apply Only.foldl
    | split
    | refine Only.update (by intro f hf; cases f <;> first | exact absurd (by decide) hf | dsimp only [agree]) ?_
    | (intro _; try dsimp only)

theorem cancelAll_only (p : Params) (r : ℕ) (b : Block) :
    Only [.clk, .regs, .cnt, .cmtDue, .ents, .ports, .rings, .tdone, .segs, .entq, .waits, .chans, .cq, .cbParts, .resumeQ, .hg, .log, .evr, .trace, .watch, .tally, .xbar, .out] b (cancelAll p r b) := by
  unfold cancelAll
  try dsimp only
  repeat' first
    | with_reducible apply Only.refl
    | (with_reducible apply Only.next (updRing_only _ _ _); · decide)
    | (with_reducible apply Only.next (clearHalt_only _ _); · decide)
    | (with_reducible apply Only.next (endSub_only _ _ _ _ _); · decide)
    | with_reducible apply Only.when
    | with_reducible apply Only.forEach
    | with_reducible apply Only.foldl
    | split
    | refine Only.update (by intro f hf; cases f <;> first | exact absurd (by decide) hf | dsimp only [agree]) ?_
    | (intro _; try dsimp only)

theorem resumeRing_only (r : ℕ) (b : Block) :
    Only [.rings] b (resumeRing r b) := by
  unfold resumeRing
  try dsimp only
  repeat' first
    | with_reducible apply Only.refl
    | (with_reducible apply Only.next (updRing_only _ _ _); · decide)
    | with_reducible apply Only.foldl
    | split
    | refine Only.update (by intro f hf; cases f <;> first | exact absurd (by decide) hf | dsimp only [agree]) ?_
    | (intro _; try dsimp only)

theorem ringCtrl_only (p : Params) (t : ℕ) (slot : ℕ) (cancel : ℕ) (resume : Bool) (b : Block) :
    Only [.clk, .regs, .cnt, .cmtDue, .ents, .ports, .rings, .tdone, .segs, .entq, .waits, .chans, .cq, .cbParts, .resumeQ, .hg, .log, .evr, .trace, .watch, .tally, .xbar, .out] b (ringCtrl p t slot cancel resume b) := by
  unfold ringCtrl
  try dsimp only
  repeat' first
    | with_reducible apply Only.refl
    | (with_reducible apply Only.next (wr_only _ _ _ _); · decide)
    | (with_reducible apply Only.next (cancelOldest_only _ _ _); · decide)
    | (with_reducible apply Only.next (cancelAll_only _ _ _); · decide)
    | (with_reducible apply Only.next (resumeRing_only _ _); · decide)
    | with_reducible apply Only.when
    | with_reducible apply Only.foldl
    | split
    | refine Only.update (by intro f hf; cases f <;> first | exact absurd (by decide) hf | dsimp only [agree]) ?_
    | (intro _; try dsimp only)

theorem walkRead_only (r : ℕ) (addr : ℕ) (x2 : BitVec 512) (b : Block) :
    Only [.rings] b (walkRead r addr x2 b) := by
  unfold walkRead
  try dsimp only
  repeat' first
    | with_reducible apply Only.refl
    | (with_reducible apply Only.next (updWalk_only _ _ _); · decide)
    | with_reducible apply Only.foldl
    | split
    | refine Only.update (by intro f hf; cases f <;> first | exact absurd (by decide) hf | dsimp only [agree]) ?_
    | (intro _; try dsimp only)

theorem actStop_only (p : Params) (r : ℕ) (x2 : Stop) (b : Block) :
    Only [.cnt, .ports, .rings, .segs, .entq, .hg, .cap, .xbar, .out] b (actStop p r x2 b) := by
  unfold actStop
  try dsimp only
  repeat' first
    | with_reducible apply Only.refl
    | (with_reducible apply Only.next (updWalk_only _ _ _); · decide)
    | (with_reducible apply Only.next (walkFault_only _ _ _ _ _ _); · decide)
    | (with_reducible apply Only.next (walkRead_only _ _ _ _); · decide)
    | with_reducible apply Only.foldl
    | split
    | refine Only.update (by intro f hf; cases f <;> first | exact absurd (by decide) hf | dsimp only [agree]) ?_
    | (intro _; try dsimp only)

theorem pass1_only (p : Params) (r : ℕ) (b : Block) :
    Only [.cnt, .ports, .rings, .segs, .entq, .hg, .cap, .xbar, .out] b (pass1 p r b) := by
  unfold pass1
  try dsimp only
  repeat' first
    | with_reducible apply Only.refl
    | (with_reducible apply Only.next (updRing_only _ _ _); · decide)
    | (with_reducible apply Only.next (actStop_only _ _ _ _); · decide)
    | with_reducible apply Only.foldl
    | split
    | refine Only.update (by intro f hf; cases f <;> first | exact absurd (by decide) hf | dsimp only [agree]) ?_
    | (intro _; try dsimp only)

theorem passFault_only (p : Params) (r : ℕ) (st : Status) (b : Block) :
    Only [.cnt, .ports, .rings, .segs, .entq, .hg, .cap, .xbar, .out] b (passFault p r st b) := by
  unfold passFault
  try dsimp only
  repeat' first
    | with_reducible apply Only.refl
    | (with_reducible apply Only.next (faultTo_only _ _ _ _ _); · decide)
    | (with_reducible apply Only.next (capture_only _ _ _ _ _ _ _ _); · decide)
    | (with_reducible apply Only.next (walkFault_only _ _ _ _ _ _); · decide)
    | with_reducible apply Only.foldl
    | split
    | refine Only.update (by intro f hf; cases f <;> first | exact absurd (by decide) hf | dsimp only [agree]) ?_
    | (intro _; try dsimp only)

theorem takeEntry_only (w : ℕ) (b : Block) :
    Only [.wq] b (takeEntry w b).2 := by
  unfold takeEntry
  try dsimp only
  repeat' first
    | with_reducible apply Only.refl
    | with_reducible apply Only.foldl
    | split
    | refine Only.update (by intro f hf; cases f <;> first | exact absurd (by decide) hf | dsimp only [agree]) ?_
    | (intro _; try dsimp only)

theorem putEntry_only (h : ℕ) (tum : ℕ) (d : TaskDesc) (b : Block) :
    Only [.ents] b (putEntry h tum d b) := by
  unfold putEntry
  try dsimp only
  repeat' first
    | with_reducible apply Only.refl
    | (with_reducible apply Only.next (updEnt_only _ _ _); · decide)
    | with_reducible apply Only.foldl
    | split
    | refine Only.update (by intro f hf; cases f <;> first | exact absurd (by decide) hf | dsimp only [agree]) ?_
    | (intro _; try dsimp only)

theorem updSeg_only (r : ℕ) (f : Seg → Seg) (b : Block) :
    Only [.segs] b (updSeg r f b) := by
  unfold updSeg
  try dsimp only
  repeat' first
    | with_reducible apply Only.refl
    | with_reducible apply Only.foldl
    | split
    | refine Only.update (by intro f hf; cases f <;> first | exact absurd (by decide) hf | dsimp only [agree]) ?_
    | (intro _; try dsimp only)

theorem allocIdx_only (p : Params) (r : ℕ) (g : Seg) (i : ℕ) (x4 : BitVec 512) (b : Block) :
    Only [.ents, .wq, .rings, .segs, .fedt] b (allocIdx p r g i x4 b) := by
  unfold allocIdx
  try dsimp only
  repeat' first
    | with_reducible apply Only.refl
    | (with_reducible apply Only.next (updRing_only _ _ _); · decide)
    | (with_reducible apply Only.next (updFed_only _ _ _); · decide)
    | (with_reducible apply Only.next (takeEntry_only _ _); · decide)
    | (with_reducible apply Only.next (putEntry_only _ _ _ _); · decide)
    | (with_reducible apply Only.next (updSeg_only _ _ _); · decide)
    | with_reducible apply Only.when
    | with_reducible apply Only.foldl
    | split
    | refine Only.update (by intro f hf; cases f <;> first | exact absurd (by decide) hf | dsimp only [agree]) ?_
    | (intro _; try dsimp only)

theorem applyCombine_only (p : Params) (r : ℕ) (g : Seg) (x3 : BitVec 512) (b : Block) :
    Only [.ents, .wq, .slots, .segs, .cq] b (applyCombine p r g x3 b) := by
  unfold applyCombine
  try dsimp only
  repeat' first
    | with_reducible apply Only.refl
    | (with_reducible apply Only.next (updCQ_only _ _ _ _); · decide)
    | (with_reducible apply Only.next (writeSlot_only _ _ _ _ _); · decide)
    | (with_reducible apply Only.next (takeEntry_only _ _); · decide)
    | (with_reducible apply Only.next (putEntry_only _ _ _ _); · decide)
    | (with_reducible apply Only.next (updSeg_only _ _ _); · decide)
    | with_reducible apply Only.foldl
    | split
    | refine Only.update (by intro f hf; cases f <;> first | exact absurd (by decide) hf | dsimp only [agree]) ?_
    | (intro _; try dsimp only)

theorem applyOpen_only (p : Params) (r : ℕ) (owner : ChOwner) (hs : List Word32) (y : BitVec 256) (b : Block) :
    Only [.slots, .chans] b (applyOpen p r owner hs y b) := by
  unfold applyOpen
  try dsimp only
  repeat' first
    | with_reducible apply Only.refl
    | (with_reducible apply Only.next (setChan_only _ _ _); · decide)
    | (with_reducible apply Only.next (writeSlot_only _ _ _ _ _); · decide)
    | with_reducible apply Only.foldl
    | split
    | refine Only.update (by intro f hf; cases f <;> first | exact absurd (by decide) hf | dsimp only [agree]) ?_
    | (intro _; try dsimp only)

theorem applyWatch_only (r : ℕ) (hs : List Word32) (y : BitVec 256) (id : Word32) (b : Block) :
    Only [.rings, .watch] b (applyWatch r hs y id b) := by
  unfold applyWatch
  try dsimp only
  repeat' first
    | with_reducible apply Only.refl
    | (with_reducible apply Only.next (updSub_only _ _ _ _); · decide)
    | with_reducible apply Only.foldl
    | split
    | refine Only.update (by intro f hf; cases f <;> first | exact absurd (by decide) hf | dsimp only [agree]) ?_
    | (intro _; try dsimp only)

theorem applyMark_only (p : Params) (r : ℕ) (y : BitVec 256) (b : Block) :
    Only [.cnt, .rings, .trace] b (applyMark p r y b) := by
  unfold applyMark
  try dsimp only
  repeat' first
    | with_reducible apply Only.refl
    | (with_reducible apply Only.next (updRing_only _ _ _); · decide)
    | (with_reducible apply Only.next (trRing_only _ _ _ _ _ _ _); · decide)
    | with_reducible apply Only.foldl
    | split
    | refine Only.update (by intro f hf; cases f <;> first | exact absurd (by decide) hf | dsimp only [agree]) ?_
    | (intro _; try dsimp only)

theorem applySet_only (y : BitVec 256) (v : Word32) (b : Block) :
    Only [.slots] b (applySet y v b) := by
  unfold applySet
  try dsimp only
  repeat' first
    | with_reducible apply Only.refl
    | (with_reducible apply Only.next (writeSlot_only _ _ _ _ _); · decide)
    | with_reducible apply Only.foldl
    | split
    | refine Only.update (by intro f hf; cases f <;> first | exact absurd (by decide) hf | dsimp only [agree]) ?_
    | (intro _; try dsimp only)

theorem applyRec_only (p : Params) (r : ℕ) (g : Seg) (x3 : SRec) (b : Block) :
    Only [.cnt, .ents, .wq, .slots, .rings, .segs, .chans, .cq, .trace, .watch] b (applyRec p r g x3 b) := by
  unfold applyRec
  try dsimp only
  repeat' first
    | with_reducible apply Only.refl
    | (with_reducible apply Only.next (applyCombine_only _ _ _ _ _); · decide)
    | (with_reducible apply Only.next (applyOpen_only _ _ _ _ _ _); · decide)
    | (with_reducible apply Only.next (applyWatch_only _ _ _ _ _); · decide)
    | (with_reducible apply Only.next (applyMark_only _ _ _ _); · decide)
    | (with_reducible apply Only.next (applySet_only _ _ _); · decide)
    | with_reducible apply Only.foldl
    | split
    | refine Only.update (by intro f hf; cases f <;> first | exact absurd (by decide) hf | dsimp only [agree]) ?_
    | (intro _; try dsimp only)

theorem ensureStep_only (r : ℕ) (b : Block) :
    Only [.rings] b (ensureStep r b) := by
  unfold ensureStep
  try dsimp only
  repeat' first
    | with_reducible apply Only.refl
    | (with_reducible apply Only.next (updRing_only _ _ _); · decide)
    | with_reducible apply Only.foldl
    | split
    | refine Only.update (by intro f hf; cases f <;> first | exact absurd (by decide) hf | dsimp only [agree]) ?_
    | (intro _; try dsimp only)

theorem allocSeg_only (p : Params) (r : ℕ) (g : Seg) (b : Block) :
    Only [.cnt, .ents, .wq, .slots, .rings, .segs, .entq, .chans, .cq, .fedt, .trace, .watch] b (allocSeg p r g b) := by
  unfold allocSeg
  try dsimp only
  repeat' first
    | with_reducible apply Only.refl
    | (with_reducible apply Only.next (updRing_only _ _ _); · decide)
    | (with_reducible apply Only.next (updWalk_only _ _ _); · decide)
    | (with_reducible apply Only.next (updSub_only _ _ _ _); · decide)
    | (with_reducible apply Only.next (allocIdx_only _ _ _ _ _ _); · decide)
    | (with_reducible apply Only.next (applyRec_only _ _ _ _ _); · decide)
    | (with_reducible apply Only.next (ensureStep_only _ _); · decide)
    | with_reducible apply Only.forEach
    | with_reducible apply Only.foldl
    | split
    | refine Only.update (by intro f hf; cases f <;> first | exact absurd (by decide) hf | dsimp only [agree]) ?_
    | (intro _; try dsimp only)

theorem reserveFar_only (p : Params) (r : ℕ) (g : Seg) (i : ℕ) (b : Block) :
    Only [.cnt, .hg, .out] b (reserveFar p r g i b) := by
  unfold reserveFar
  try dsimp only
  repeat' first
    | with_reducible apply Only.refl
    | (with_reducible apply Only.next (sendItem_only _ _ _); · decide)
    | with_reducible apply Only.when
    | with_reducible apply Only.forEach
    | with_reducible apply Only.foldl
    | split
    | refine Only.update (by intro f hf; cases f <;> first | exact absurd (by decide) hf | dsimp only [agree]) ?_
    | (intro _; try dsimp only)

theorem grantSeg_only (p : Params) (r : ℕ) (g : Seg) (b : Block) :
    Only [.cnt, .ents, .wq, .slots, .ports, .rings, .segs, .entq, .chans, .cq, .hg, .fedt, .cap, .trace, .watch, .xbar, .out] b (grantSeg p r g b) := by
  unfold grantSeg
  try dsimp only
  repeat' first
    | with_reducible apply Only.refl
    | (with_reducible apply Only.next (updWalk_only _ _ _); · decide)
    | (with_reducible apply Only.next (walkFault_only _ _ _ _ _ _); · decide)
    | (with_reducible apply Only.next (updSeg_only _ _ _); · decide)
    | (with_reducible apply Only.next (allocSeg_only _ _ _ _); · decide)
    | (with_reducible apply Only.next (reserveFar_only _ _ _ _ _); · decide)
    | with_reducible apply Only.forEach
    | with_reducible apply Only.foldl
    | split
    | refine Only.update (by intro f hf; cases f <;> first | exact absurd (by decide) hf | dsimp only [agree]) ?_
    | (intro _; try dsimp only)

theorem admitSeg_only (p : Params) (r : ℕ) (before : List ℕ) (g : Seg) (b : Block) :
    Only [.cnt, .ents, .wq, .slots, .ports, .rings, .segs, .entq, .chans, .cq, .hg, .fedt, .cap, .trace, .watch, .xbar, .out] b (admitSeg p r before g b) := by
  unfold admitSeg
  try dsimp only
  repeat' first
    | with_reducible apply Only.refl
    | (with_reducible apply Only.next (updWalk_only _ _ _); · decide)
    | (with_reducible apply Only.next (progress_only _ _); · decide)
    | (with_reducible apply Only.next (walkFault_only _ _ _ _ _ _); · decide)
    | (with_reducible apply Only.next (updSeg_only _ _ _); · decide)
    | (with_reducible apply Only.next (grantSeg_only _ _ _ _); · decide)
    | with_reducible apply Only.foldl
    | split
    | refine Only.update (by intro f hf; cases f <;> first | exact absurd (by decide) hf | dsimp only [agree]) ?_
    | (intro _; try dsimp only)

theorem linkIdx_only (p : Params) (r : ℕ) (g : Seg) (k : Walk) (i : ℕ) (b : Block) :
    Only [.cnt, .ents, .hg, .out] b (linkIdx p r g k i b) := by
  unfold linkIdx
  try dsimp only
  repeat' first
    | with_reducible apply Only.refl
    | (with_reducible apply Only.next (sendItem_only _ _ _); · decide)
    | (with_reducible apply Only.next (putLinks_only _ _ _ _); · decide)
    | with_reducible apply Only.when
    | with_reducible apply Only.forEach
    | with_reducible apply Only.foldl
    | split
    | refine Only.update (by intro f hf; cases f <;> first | exact absurd (by decide) hf | dsimp only [agree]) ?_
    | (intro _; try dsimp only)

theorem attachRec_only (g : Seg) (x1 : SRec) (b : Block) :
    Only [.ents] b (attachRec g x1 b) := by
  unfold attachRec
  try dsimp only
  repeat' first
    | with_reducible apply Only.refl
    | (with_reducible apply Only.next (updEnt_only _ _ _); · decide)
    | with_reducible apply Only.foldl
    | split
    | refine Only.update (by intro f hf; cases f <;> first | exact absurd (by decide) hf | dsimp only [agree]) ?_
    | (intro _; try dsimp only)

theorem sealSeg_only (p : Params) (r : ℕ) (g : Seg) (b : Block) :
    Only [.cnt, .rings, .segs, .hg, .xbar, .out] b (sealSeg p r g b) := by
  unfold sealSeg
  try dsimp only
  repeat' first
    | with_reducible apply Only.refl
    | (with_reducible apply Only.next (updRing_only _ _ _); · decide)
    | (with_reducible apply Only.next (xsend_only _ _ _ _); · decide)
    | (with_reducible apply Only.next (sendItem_only _ _ _); · decide)
    | with_reducible apply Only.when
    | with_reducible apply Only.forEach
    | with_reducible apply Only.foldl
    | split
    | refine Only.update (by intro f hf; cases f <;> first | exact absurd (by decide) hf | dsimp only [agree]) ?_
    | (intro _; try dsimp only)

theorem linkSeg_only (p : Params) (r : ℕ) (g : Seg) (b : Block) :
    Only [.cnt, .ents, .rings, .segs, .hg, .xbar, .out] b (linkSeg p r g b) := by
  unfold linkSeg
  try dsimp only
  repeat' first
    | with_reducible apply Only.refl
    | (with_reducible apply Only.next (putLinks_only _ _ _ _); · decide)
    | (with_reducible apply Only.next (updSeg_only _ _ _); · decide)
    | (with_reducible apply Only.next (linkIdx_only _ _ _ _ _ _); · decide)
    | (with_reducible apply Only.next (attachRec_only _ _ _); · decide)
    | (with_reducible apply Only.next (sealSeg_only _ _ _ _); · decide)
    | with_reducible apply Only.forEach
    | with_reducible apply Only.foldl
    | split
    | refine Only.update (by intro f hf; cases f <;> first | exact absurd (by decide) hf | dsimp only [agree]) ?_
    | (intro _; try dsimp only)

theorem afterSeal_only (p : Params) (r : ℕ) (b : Block) :
    Only [.cnt, .cmtDue, .rings, .tdone, .chans, .xbar, .out] b (afterSeal p r b) := by
  unfold afterSeal
  try dsimp only
  repeat' first
    | with_reducible apply Only.refl
    | (with_reducible apply Only.next (startNext_only _ _); · decide)
    | (with_reducible apply Only.next (leaveSeg_only _ _ _); · decide)
    | with_reducible apply Only.foldl
    | split
    | refine Only.update (by intro f hf; cases f <;> first | exact absurd (by decide) hf | dsimp only [agree]) ?_
    | (intro _; try dsimp only)

theorem pass3_only (p : Params) (r : ℕ) (g : Seg) (b : Block) :
    Only [.cnt, .cmtDue, .ents, .rings, .tdone, .segs, .chans, .hg, .xbar, .out] b (pass3 p r g b) := by
  unfold pass3
  try dsimp only
  repeat' first
    | with_reducible apply Only.refl
    | (with_reducible apply Only.next (updWalk_only _ _ _); · decide)
    | (with_reducible apply Only.next (walkRead_only _ _ _ _); · decide)
    | (with_reducible apply Only.next (linkSeg_only _ _ _ _); · decide)
    | (with_reducible apply Only.next (afterSeal_only _ _ _); · decide)
    | with_reducible apply Only.foldl
    | split
    | refine Only.update (by intro f hf; cases f <;> first | exact absurd (by decide) hf | dsimp only [agree]) ?_
    | (intro _; try dsimp only)

theorem finishSeg_only (p : Params) (r : ℕ) (b : Block) :
    Only [.cnt, .ents, .rings, .segs, .entq, .waits, .hg, .xbar, .out] b (finishSeg p r b) := by
  unfold finishSeg
  try dsimp only
  repeat' first
    | with_reducible apply Only.refl
    | (with_reducible apply Only.next (clearHalt_only _ _); · decide)
    | (with_reducible apply Only.next (dropWalk_only _ _ _); · decide)
    | (with_reducible apply Only.next (linkSeg_only _ _ _ _); · decide)
    | with_reducible apply Only.foldl
    | split
    | refine Only.update (by intro f hf; cases f <;> first | exact absurd (by decide) hf | dsimp only [agree]) ?_
    | (intro _; try dsimp only)

theorem takePoint_only (p : Params) (r : ℕ) (pt : Point) (b : Block) :
    Only [.clk, .regs, .cnt, .cmtDue, .ents, .rings, .tdone, .segs, .entq, .waits, .chans, .resumeQ, .hg, .log, .trace, .tally, .xbar, .out] b (takePoint p r pt b) := by
  unfold takePoint
  try dsimp only
  repeat' first
    | with_reducible apply Only.refl
    | (with_reducible apply Only.next (updRing_only _ _ _); · decide)
    | (with_reducible apply Only.next (xsend_only _ _ _ _); · decide)
    | (with_reducible apply Only.next (closeOwned_only _ _); · decide)
    | (with_reducible apply Only.next (gateCheck_only _ _ _); · decide)
    | (with_reducible apply Only.next (finishSeg_only _ _ _); · decide)
    | with_reducible apply Only.forEach
    | with_reducible apply Only.foldl
    | split
    | refine Only.update (by intro f hf; cases f <;> first | exact absurd (by decide) hf | dsimp only [agree]) ?_
    | (intro _; try dsimp only)

theorem preIgnore_only (b : Block) :
    Only [.preIgnored] b (preIgnore b) := by
  unfold preIgnore
  try dsimp only
  repeat' first
    | with_reducible apply Only.refl
    | with_reducible apply Only.foldl
    | split
    | refine Only.update (by intro f hf; cases f <;> first | exact absurd (by decide) hf | dsimp only [agree]) ?_
    | (intro _; try dsimp only)

theorem preRequest_only (p : Params) (r : ℕ) (queue : Bool) (b : Block) :
    Only [.clk, .regs, .cnt, .cmtDue, .ents, .rings, .tdone, .segs, .entq, .waits, .chans, .preIgnored, .resumeQ, .hg, .log, .trace, .tally, .xbar, .out] b (preRequest p r queue b) := by
  unfold preRequest
  try dsimp only
  repeat' first
    | with_reducible apply Only.refl
    | (with_reducible apply Only.next (updRing_only _ _ _); · decide)
    | (with_reducible apply Only.next (trRing_only _ _ _ _ _ _ _); · decide)
    | (with_reducible apply Only.next (takePoint_only _ _ _ _); · decide)
    | (with_reducible apply Only.next (preIgnore_only _); · decide)
    | with_reducible apply Only.foldl
    | split
    | refine Only.update (by intro f hf; cases f <;> first | exact absurd (by decide) hf | dsimp only [agree]) ?_
    | (intro _; try dsimp only)

theorem preResumeAt_only (p : Params) (r : ℕ) (b : Block) :
    Only [.cnt, .cmtDue, .rings, .tdone, .chans, .preIgnored, .resumeQ, .trace, .xbar, .out] b (preResumeAt p r b) := by
  unfold preResumeAt
  try dsimp only
  repeat' first
    | with_reducible apply Only.refl
    | (with_reducible apply Only.next (updRing_only _ _ _); · decide)
    | (with_reducible apply Only.next (toRun_only _ _ _); · decide)
    | (with_reducible apply Only.next (preIgnore_only _); · decide)
    | with_reducible apply Only.foldl
    | split
    | refine Only.update (by intro f hf; cases f <;> first | exact absurd (by decide) hf | dsimp only [agree]) ?_
    | (intro _; try dsimp only)

theorem preCtrl_only (p : Params) (v : Word32) (b : Block) :
    Only [.clk, .regs, .cnt, .cmtDue, .ents, .rings, .tdone, .segs, .entq, .waits, .chans, .preIgnored, .resumeQ, .hg, .log, .trace, .tally, .xbar, .out] b (preCtrl p v b) := by
  unfold preCtrl
  try dsimp only
  repeat' first
    | with_reducible apply Only.refl
    | (with_reducible apply Only.next (wr_only _ _ _ _); · decide)
    | (with_reducible apply Only.next (preRequest_only _ _ _ _); · decide)
    | (with_reducible apply Only.next (preResumeAt_only _ _ _); · decide)
    | with_reducible apply Only.foldl
    | split
    | refine Only.update (by intro f hf; cases f <;> first | exact absurd (by decide) hf | dsimp only [agree]) ?_
    | (intro _; try dsimp only)

theorem discardOne_only (p : Params) (h : ℕ) (b : Block) :
    Only [.clk, .regs, .cnt, .cmtDue, .ents, .ports, .rings, .tdone, .waits, .chans, .cq, .cbParts, .resumeQ, .hg, .log, .evr, .trace, .watch, .tally, .xbar, .out] b (discardOne p h b) := by
  unfold discardOne
  try dsimp only
  repeat' first
    | with_reducible apply Only.refl
    | (with_reducible apply Only.next (updEnt_only _ _ _); · decide)
    | (with_reducible apply Only.next (voidW_only _ _); · decide)
    | (with_reducible apply Only.next (cancelEntry_only _ _ _); · decide)
    | with_reducible apply Only.foldl
    | split
    | refine Only.update (by intro f hf; cases f <;> first | exact absurd (by decide) hf | dsimp only [agree]) ?_
    | (intro _; try dsimp only)

theorem uncount_only (h : ℕ) (b : Block) :
    Only [.cnt, .ents, .rings, .xbar] b (uncount h b) := by
  unfold uncount
  try dsimp only
  repeat' first
    | with_reducible apply Only.refl
    | (with_reducible apply Only.next (updEnt_only _ _ _); · decide)
    | (with_reducible apply Only.next (voidW_only _ _); · decide)
    | (with_reducible apply Only.next (updSub_only _ _ _ _); · decide)
    | with_reducible apply Only.when
    | with_reducible apply Only.foldl
    | split
    | refine Only.update (by intro f hf; cases f <;> first | exact absurd (by decide) hf | dsimp only [agree]) ?_
    | (intro _; try dsimp only)

theorem lcFire_only (p : Params) (q : PReq) (b : Block) :
    Only [.clk, .regs, .cnt, .cmtDue, .ents, .place, .rings, .tdone, .segs, .entq, .waits, .chans, .preIgnored, .resumeQ, .hg, .log, .trace, .tally, .xbar, .out] b (lcFire p q b) := by
  unfold lcFire
  try dsimp only
  repeat' first
    | with_reducible apply Only.refl
    | (with_reducible apply Only.next (preRequest_only _ _ _ _); · decide)
    | with_reducible apply Only.foldl
    | split
    | refine Only.update (by intro f hf; cases f <;> first | exact absurd (by decide) hf | dsimp only [agree]) ?_
    | (intro _; try dsimp only)

theorem enterSeg_only (p : Params) (r : ℕ) (h : SegHdr) (body : List (BitVec 256)) (b : Block) :
    Only [.cnt, .cmtDue, .rings, .tdone, .chans, .xbar, .out] b (enterSeg p r h body b) := by
  unfold enterSeg
  try dsimp only
  repeat' first
    | with_reducible apply Only.refl
    | (with_reducible apply Only.next (updWalk_only _ _ _); · decide)
    | (with_reducible apply Only.next (walkOn_only _ _ _); · decide)
    | with_reducible apply Only.foldl
    | split
    | refine Only.update (by intro f hf; cases f <;> first | exact absurd (by decide) hf | dsimp only [agree]) ?_
    | (intro _; try dsimp only)

theorem badSeek_only (p : Params) (r : ℕ) (x2 : Seek) (b : Block) :
    Only [.cnt, .ports, .rings, .segs, .entq, .hg, .cap, .xbar, .out] b (badSeek p r x2 b) := by
  unfold badSeek
  try dsimp only
  repeat' first
    | with_reducible apply Only.refl
    | (with_reducible apply Only.next (walkFault_only _ _ _ _ _ _); · decide)
    | with_reducible apply Only.foldl
    | split
    | refine Only.update (by intro f hf; cases f <;> first | exact absurd (by decide) hf | dsimp only [agree]) ?_
    | (intro _; try dsimp only)

theorem seekSeg_only (p : Params) (r : ℕ) (x2 : Seek) (h : SegHdr) (body : List (BitVec 256)) (b : Block) :
    Only [.cnt, .cmtDue, .ports, .rings, .tdone, .segs, .entq, .chans, .hg, .cap, .xbar, .out] b (seekSeg p r x2 h body b) := by
  unfold seekSeg
  try dsimp only
  repeat' first
    | with_reducible apply Only.refl
    | (with_reducible apply Only.next (updWalk_only _ _ _); · decide)
    | (with_reducible apply Only.next (leaveSeg_only _ _ _); · decide)
    | (with_reducible apply Only.next (enterSeg_only _ _ _ _ _); · decide)
    | (with_reducible apply Only.next (badSeek_only _ _ _ _); · decide)
    | with_reducible apply Only.foldl
    | split
    | refine Only.update (by intro f hf; cases f <;> first | exact absurd (by decide) hf | dsimp only [agree]) ?_
    | (intro _; try dsimp only)

theorem walkRec_only {l : List BlockPart} {p : Params} {r o : Nat} {rec1 : BitVec 256} {f : BitVec 512 → Block → Block}
    {b c : Block} (hl : ∀ g ∈ [BlockPart.cnt, .ports, .rings, .segs, .entq, .hg, .cap, .xbar, .out], g ∈ l)
    (hf : ∀ y x, Only l x (f y x)) (hb : Only l b c) : Only l b (walkRec p r o rec1 f c) := by
  have hw : ∀ st off x, Only l b (walkFault p r st off x c) := fun st off x => Only.next (walkFault_only _ _ _ _ _ _) hl hb
  unfold walkRec
  dsimp only
  split
  · exact hb
  · split
    · exact hw _ _ _
    · split
      · exact hw _ _ _
      · split
        · exact hb
        · split
          · exact hw _ _ _
          · exact Only.next (hf _ _) (fun _ k => k) (Only.next (progress_only _ _) (fun g hg => hl g (by simp at hg; simp [hg])) hb)

theorem spent_only (r : ℕ) (b : Block) :
    Only [.rings] b (spent r b) := by
  unfold spent
  try dsimp only
  repeat' first
    | with_reducible apply Only.refl
    | (with_reducible apply Only.next (updWalk_only _ _ _); · decide)
    | with_reducible apply Only.foldl
    | split
    | refine Only.update (by intro f hf; cases f <;> first | exact absurd (by decide) hf | dsimp only [agree]) ?_
    | (intro _; try dsimp only)

theorem recFault_only (p : Params) (r : ℕ) (st : Status) (x3 : BitVec 512) (b : Block) :
    Only [.cnt, .ports, .rings, .segs, .entq, .hg, .cap, .xbar, .out] b (recFault p r st x3 b) := by
  unfold recFault
  try dsimp only
  repeat' first
    | with_reducible apply Only.refl
    | (with_reducible apply Only.next (walkFault_only _ _ _ _ _ _); · decide)
    | with_reducible apply Only.foldl
    | split
    | refine Only.update (by intro f hf; cases f <;> first | exact absurd (by decide) hf | dsimp only [agree]) ?_
    | (intro _; try dsimp only)

theorem useOpd_only {l : List BlockPart} {p : Params} {r : Nat} {x : BitVec 512} {v : OpdVal} {f : Nat → Block → Block}
    {b c : Block} (hl : ∀ g ∈ [BlockPart.cnt, .ports, .rings, .segs, .entq, .hg, .cap, .xbar, .out], g ∈ l)
    (hf : ∀ n x, Only l x (f n x)) (hb : Only l b c) : Only l b (useOpd p r x v f c) := by
  unfold useOpd
  split
  · exact Only.next (hf _ _) (fun _ k => k) hb
  · exact Only.next (recFault_only _ _ _ _ _) hl hb
  · exact Only.next (walkRead_only _ _ _ _) (fun g hg => hl g (by simp at hg; simp [hg]))
      (Only.next (updWalk_only _ _ _) (fun g hg => hl g (by simp at hg; simp [hg])) hb)

theorem pass_only (p : Params) (r : ℕ) (b : Block) :
    Only [.cnt, .cmtDue, .rings, .tdone, .chans, .xbar, .out] b (pass p r b) := by
  unfold pass
  try dsimp only
  repeat' first
    | with_reducible apply Only.refl
    | (with_reducible apply Only.next (passRec_only _ _ _); · decide)
    | (with_reducible apply Only.next (spent_only _ _); · decide)
    | with_reducible apply Only.foldl
    | split
    | refine Only.update (by intro f hf; cases f <;> first | exact absurd (by decide) hf | dsimp only [agree]) ?_
    | (intro _; try dsimp only)

theorem dirty_only (r : ℕ) (b : Block) :
    Only [.rings] b (dirty r b) := by
  unfold dirty
  try dsimp only
  repeat' first
    | with_reducible apply Only.refl
    | (with_reducible apply Only.next (updRing_only _ _ _); · decide)
    | with_reducible apply Only.foldl
    | split
    | refine Only.update (by intro f hf; cases f <;> first | exact absurd (by decide) hf | dsimp only [agree]) ?_
    | (intro _; try dsimp only)

theorem jump_only (p : Params) (r : ℕ) (tgt : ℕ) (leave : Bool) (x4 : BitVec 512) (b : Block) :
    Only [.cnt, .cmtDue, .ports, .rings, .tdone, .segs, .entq, .chans, .hg, .cap, .xbar, .out] b (jump p r tgt leave x4 b) := by
  unfold jump
  try dsimp only
  repeat' first
    | with_reducible apply Only.refl
    | (with_reducible apply Only.next (updWalk_only _ _ _); · decide)
    | (with_reducible apply Only.next (leaveSeg_only _ _ _); · decide)
    | (with_reducible apply Only.next (spent_only _ _); · decide)
    | (with_reducible apply Only.next (recFault_only _ _ _ _ _); · decide)
    | with_reducible apply Only.foldl
    | split
    | refine Only.update (by intro f hf; cases f <;> first | exact absurd (by decide) hf | dsimp only [agree]) ?_
    | (intro _; try dsimp only)

theorem reachPoint_only (p : Params) (r : ℕ) (isStep : Bool) (stepNo : ℕ) (b : Block) :
    Only [.clk, .regs, .cnt, .cmtDue, .ents, .rings, .tdone, .segs, .entq, .waits, .chans, .resumeQ, .hg, .log, .trace, .tally, .xbar, .out] b (reachPoint p r isStep stepNo b) := by
  unfold reachPoint
  try dsimp only
  repeat' first
    | with_reducible apply Only.refl
    | (with_reducible apply Only.next (updRing_only _ _ _); · decide)
    | (with_reducible apply Only.next (passRec_only _ _ _); · decide)
    | (with_reducible apply Only.next (takePoint_only _ _ _ _); · decide)
    | (with_reducible apply Only.next (spent_only _ _); · decide)
    | with_reducible apply Only.foldl
    | split
    | refine Only.update (by intro f hf; cases f <;> first | exact absurd (by decide) hf | dsimp only [agree]) ?_
    | (intro _; try dsimp only)

theorem fencePass_only (p : Params) (r : ℕ) (scope : Bool) (failstop : Bool) (b : Block) :
    Only [.cnt, .cmtDue, .ports, .rings, .tdone, .segs, .entq, .chans, .hg, .cap, .xbar, .out] b (fencePass p r scope failstop b) := by
  unfold fencePass
  try dsimp only
  repeat' first
    | with_reducible apply Only.refl
    | (with_reducible apply Only.next (recFault_only _ _ _ _ _); · decide)
    | (with_reducible apply Only.next (pass_only _ _ _); · decide)
    | with_reducible apply Only.foldl
    | split
    | refine Only.update (by intro f hf; cases f <;> first | exact absurd (by decide) hf | dsimp only [agree]) ?_
    | (intro _; try dsimp only)

theorem walkHasp_only {l : List BlockPart} {p : Params} {r : Nat} {x : BitVec 512} {op : Nat} {value : Word32} {wait : Bool}
    {f : Nat → Block → Block} {b c : Block}
    (hl : ∀ g ∈ [BlockPart.cnt, .ports, .rings, .segs, .entq, .hg, .cap, .xbar, .out], g ∈ l)
    (hf : ∀ n x, Only l x (f n x)) (hb : Only l b c) : Only l b (walkHasp p r x op value wait f c) := by
  unfold walkHasp
  dsimp only
  split
  · exact Only.next (recFault_only _ _ _ _ _) hl hb
  · split
    · exact Only.next (hf _ _) (fun _ k => k) hb
    · exact Only.next (sendItem_only _ _ _) (fun g hg => hl g (by simp at hg ⊢; tauto)) hb

end Sys2Proof.Machine
end

