-- ==== Sys2Proof/Laws/OnlyFed.lean ====
section
/-! SUPPORT. What each operation can change: federation, faults and the deadbolt. One lemma for each operation; the list names the
parts of the block outside which it leaves everything as it was. -/

namespace Sys2Proof.Machine

set_option linter.all false

theorem toPeer_only (p : Params) (h : ℕ) (kind : ℕ) (args : ℕ) (b : Block) :
    Only [.cnt, .hg, .out] b (toPeer p h kind args b) := by
  unfold toPeer
  try dsimp only
  repeat' first
    | with_reducible apply Only.refl
    | (with_reducible apply Only.next (hingePut_only _ _ _ _); · decide)
    | with_reducible apply Only.foldl
    | split
    | refine Only.update (by intro f hf; cases f <;> first | exact absurd (by decide) hf | dsimp only [agree]) ?_
    | (intro _; try dsimp only)

theorem sendUnrch_only (p : Params) (h : ℕ) (mask : BitVec 64) (reach : Bool) (b : Block) :
    Only [.cnt, .hg, .out] b (sendUnrch p h mask reach b) := by
  unfold sendUnrch
  try dsimp only
  repeat' first
    | with_reducible apply Only.refl
    | (with_reducible apply Only.next (toPeer_only _ _ _ _ _); · decide)
    | with_reducible apply Only.forEach
    | with_reducible apply Only.foldl
    | split
    | refine Only.update (by intro f hf; cases f <;> first | exact absurd (by decide) hf | dsimp only [agree]) ?_
    | (intro _; try dsimp only)

theorem sendHello_only (p : Params) (h : ℕ) (b : Block) :
    Only [.hg, .out] b (sendHello p h b) := by
  unfold sendHello
  try dsimp only
  repeat' first
    | with_reducible apply Only.refl
    | (with_reducible apply Only.next (updHinge_only _ _ _); · decide)
    | (with_reducible apply Only.next (flitOut_only _ _ _ _ _); · decide)
    | with_reducible apply Only.foldl
    | split
    | refine Only.update (by intro f hf; cases f <;> first | exact absurd (by decide) hf | dsimp only [agree]) ?_
    | (intro _; try dsimp only)

theorem tryActive_only (p : Params) (h : ℕ) (b : Block) :
    Only [.cnt, .hg, .unreach, .out] b (tryActive p h b) := by
  unfold tryActive
  try dsimp only
  repeat' first
    | with_reducible apply Only.refl
    | (with_reducible apply Only.next (updHinge_only _ _ _); · decide)
    | (with_reducible apply Only.next (hingeFlush_only _ _ _); · decide)
    | (with_reducible apply Only.next (sendUnrch_only _ _ _ _ _); · decide)
    | with_reducible apply Only.when
    | with_reducible apply Only.foldl
    | split
    | refine Only.update (by intro f hf; cases f <;> first | exact absurd (by decide) hf | dsimp only [agree]) ?_
    | (intro _; try dsimp only)

theorem linkTrained_only (p : Params) (h : ℕ) (b : Block) :
    Only [.cnt, .hg, .unreach, .out] b (linkTrained p h b) := by
  unfold linkTrained
  try dsimp only
  repeat' first
    | with_reducible apply Only.refl
    | (with_reducible apply Only.next (updHinge_only _ _ _); · decide)
    | (with_reducible apply Only.next (sendHello_only _ _ _); · decide)
    | (with_reducible apply Only.next (tryActive_only _ _ _); · decide)
    | with_reducible apply Only.when
    | with_reducible apply Only.foldl
    | split
    | refine Only.update (by intro f hf; cases f <;> first | exact absurd (by decide) hf | dsimp only [agree]) ?_
    | (intro _; try dsimp only)

theorem hgCtrl_only (p : Params) (h : ℕ) (v : Word32) (b : Block) :
    Only [.hg, .out] b (hgCtrl p h v b) := by
  unfold hgCtrl
  try dsimp only
  repeat' first
    | with_reducible apply Only.refl
    | (with_reducible apply Only.next (updHinge_only _ _ _); · decide)
    | (with_reducible apply Only.next (emit_only _ _); · decide)
    | (with_reducible apply Only.next (goDown_only _ _ _); · decide)
    | with_reducible apply Only.foldl
    | split
    | refine Only.update (by intro f hf; cases f <;> first | exact absurd (by decide) hf | dsimp only [agree]) ?_
    | (intro _; try dsimp only)

theorem ownerDone_only (it : Item) (o : ℕ) (b : Block) :
    Only [.ents] b (ownerDone it o b) := by
  unfold ownerDone
  try dsimp only
  repeat' first
    | with_reducible apply Only.refl
    | (with_reducible apply Only.next (updEnt_only _ _ _); · decide)
    | with_reducible apply Only.foldl
    | split
    | refine Only.update (by intro f hf; cases f <;> first | exact absurd (by decide) hf | dsimp only [agree]) ?_
    | (intro _; try dsimp only)

theorem hingeFault_only (p : Params) (r : ℕ) (subid : Word32) (b : Block) :
    Only [.cnt, .ports, .rings, .segs, .entq, .hg, .cap, .xbar, .out] b (hingeFault p r subid b) := by
  unfold hingeFault
  try dsimp only
  repeat' first
    | with_reducible apply Only.refl
    | (with_reducible apply Only.next (faultTo_only _ _ _ _ _); · decide)
    | (with_reducible apply Only.next (walkFault_only _ _ _ _ _ _); · decide)
    | with_reducible apply Only.foldl
    | split
    | refine Only.update (by intro f hf; cases f <;> first | exact absurd (by decide) hf | dsimp only [agree]) ?_
    | (intro _; try dsimp only)

theorem strandOwn_only (p : Params) (it : Item) (o : Option ℕ) (b : Block) :
    Only [.cnt, .ents, .ports, .rings, .segs, .entq, .chans, .rchans, .storms, .hg, .cap, .xbar, .out] b (strandOwn p it o b) := by
  unfold strandOwn
  try dsimp only
  repeat' first
    | with_reducible apply Only.refl
    | (with_reducible apply Only.next (xsend_only _ _ _ _); · decide)
    | (with_reducible apply Only.next (updChan_only _ _ _); · decide)
    | (with_reducible apply Only.next (applyAnswer_only _ _ _); · decide)
    | (with_reducible apply Only.next (ownerDone_only _ _ _); · decide)
    | (with_reducible apply Only.next (hingeFault_only _ _ _ _); · decide)
    | with_reducible apply Only.foldl
    | split
    | refine Only.update (by intro f hf; cases f <;> first | exact absurd (by decide) hf | dsimp only [agree]) ?_
    | (intro _; try dsimp only)

theorem strandOne_only (p : Params) (h : ℕ) (x2 : Item × Option ℕ) (b : Block) :
    Only [.cnt, .ents, .ports, .rings, .segs, .entq, .chans, .rchans, .storms, .hg, .cap, .xbar, .out] b (strandOne p h x2 b) := by
  unfold strandOne
  try dsimp only
  repeat' first
    | with_reducible apply Only.refl
    | (with_reducible apply Only.next (bump_only _ _ _); · decide)
    | (with_reducible apply Only.next (sendItem_only _ _ _); · decide)
    | (with_reducible apply Only.next (strandOwn_only _ _ _ _); · decide)
    | with_reducible apply Only.when
    | with_reducible apply Only.foldl
    | split
    | refine Only.update (by intro f hf; cases f <;> first | exact absurd (by decide) hf | dsimp only [agree]) ?_
    | (intro _; try dsimp only)

theorem farEntry_only (p : Params) (req : ReserveReq) (x2 : ℕ × BitVec 512) (b : Block) :
    Only [.ents, .wq, .fedt, .remSegs] b (farEntry p req x2 b) := by
  unfold farEntry
  try dsimp only
  repeat' first
    | with_reducible apply Only.refl
    | (with_reducible apply Only.next (updFed_only _ _ _); · decide)
    | (with_reducible apply Only.next (takeEntry_only _ _); · decide)
    | (with_reducible apply Only.next (putEntry_only _ _ _ _); · decide)
    | with_reducible apply Only.foldl
    | split
    | refine Only.update (by intro f hf; cases f <;> first | exact absurd (by decide) hf | dsimp only [agree]) ?_
    | (intro _; try dsimp only)

theorem farReply_only (p : Params) (req : ReserveReq) (st : Status) (b : Block) :
    Only [.cnt, .hg, .out] b (farReply p req st b) := by
  unfold farReply
  try dsimp only
  repeat' first
    | with_reducible apply Only.refl
    | (with_reducible apply Only.next (sendItem_only _ _ _); · decide)
    | with_reducible apply Only.when
    | with_reducible apply Only.foldl
    | split
    | refine Only.update (by intro f hf; cases f <;> first | exact absurd (by decide) hf | dsimp only [agree]) ?_
    | (intro _; try dsimp only)

theorem farGrant_only (p : Params) (req : ReserveReq) (b : Block) :
    Only [.cnt, .ents, .wq, .hg, .fedt, .remSegs, .out] b (farGrant p req b) := by
  unfold farGrant
  try dsimp only
  repeat' first
    | with_reducible apply Only.refl
    | (with_reducible apply Only.next (sendItem_only _ _ _); · decide)
    | (with_reducible apply Only.next (farEntry_only _ _ _ _); · decide)
    | (with_reducible apply Only.next (farReply_only _ _ _ _); · decide)
    | with_reducible apply Only.when
    | with_reducible apply Only.forEach
    | with_reducible apply Only.foldl
    | split
    | refine Only.update (by intro f hf; cases f <;> first | exact absurd (by decide) hf | dsimp only [agree]) ?_
    | (intro _; try dsimp only)

theorem giveBack_only (h : ℕ) (b : Block) :
    Only [.ents, .wq, .fedt] b (giveBack h b) := by
  unfold giveBack
  try dsimp only
  repeat' first
    | with_reducible apply Only.refl
    | (with_reducible apply Only.next (updEnt_only _ _ _); · decide)
    | (with_reducible apply Only.next (updFed_only _ _ _); · decide)
    | with_reducible apply Only.foldl
    | split
    | refine Only.update (by intro f hf; cases f <;> first | exact absurd (by decide) hf | dsimp only [agree]) ?_
    | (intro _; try dsimp only)

theorem chcOpen_only (p : Params) (inst : ℕ) (tenant : ℕ) (ch : ℕ) (endp : Word32) (b : Block) :
    Only [.cnt, .rchans, .hg, .out] b (chcOpen p inst tenant ch endp b) := by
  unfold chcOpen
  try dsimp only
  repeat' first
    | with_reducible apply Only.refl
    | (with_reducible apply Only.next (sendItem_only _ _ _); · decide)
    | with_reducible apply Only.when
    | with_reducible apply Only.foldl
    | split
    | refine Only.update (by intro f hf; cases f <;> first | exact absurd (by decide) hf | dsimp only [agree]) ?_
    | (intro _; try dsimp only)

theorem noticeWards_only (p : Params) (mask : BitVec 64) (b : Block) :
    Only [.xbar] b (noticeWards p mask b) := by
  unfold noticeWards
  try dsimp only
  repeat' first
    | with_reducible apply Only.refl
    | (with_reducible apply Only.next (xput_only _ _); · decide)
    | with_reducible apply Only.forEach
    | with_reducible apply Only.foldl
    | split
    | refine Only.update (by intro f hf; cases f <;> first | exact absurd (by decide) hf | dsimp only [agree]) ?_
    | (intro _; try dsimp only)

theorem dropAwaiting_only (p : Params) (mask : BitVec 64) (b : Block) :
    Only [.cnt, .ports, .rings, .segs, .entq, .hg, .cap, .xbar, .out] b (dropAwaiting p mask b) := by
  unfold dropAwaiting
  try dsimp only
  repeat' first
    | with_reducible apply Only.refl
    | (with_reducible apply Only.next (hingeFault_only _ _ _ _); · decide)
    | with_reducible apply Only.when
    | with_reducible apply Only.forEach
    | with_reducible apply Only.foldl
    | split
    | refine Only.update (by intro f hf; cases f <;> first | exact absurd (by decide) hf | dsimp only [agree]) ?_
    | (intro _; try dsimp only)

theorem failImports_only (p : Params) (w : ℕ) (u : BitVec 64) (b : Block) :
    Only [.clk, .regs, .cnt, .cmtDue, .ents, .ports, .rings, .tdone, .chans, .resumeQ, .hg, .fedt, .log, .evr, .trace, .watch, .tally, .xbar, .out] b (failImports p w u b) := by
  unfold failImports
  try dsimp only
  repeat' first
    | with_reducible apply Only.refl
    | (with_reducible apply Only.next (updFed_only _ _ _); · decide)
    | (with_reducible apply Only.next (tumblerItem_only _ _ _ _ _ _); · decide)
    | with_reducible apply Only.forEach
    | with_reducible apply Only.foldl
    | split
    | refine Only.update (by intro f hf; cases f <;> first | exact absurd (by decide) hf | dsimp only [agree]) ?_
    | (intro _; try dsimp only)

theorem failRoster_only (p : Params) (w : ℕ) (u : BitVec 64) (b : Block) :
    Only [.clk, .regs, .cnt, .cmtDue, .rings, .tdone, .chans, .resumeQ, .fedt, .log, .trace, .tally, .xbar, .out] b (failRoster p w u b) := by
  unfold failRoster
  try dsimp only
  repeat' first
    | with_reducible apply Only.refl
    | (with_reducible apply Only.next (updFed_only _ _ _); · decide)
    | (with_reducible apply Only.next (logRec_only _ _ _); · decide)
    | (with_reducible apply Only.next (ringSettle_only _ _ _ _ _ _ _ _); · decide)
    | with_reducible apply Only.forEach
    | with_reducible apply Only.foldl
    | split
    | refine Only.update (by intro f hf; cases f <;> first | exact absurd (by decide) hf | dsimp only [agree]) ?_
    | (intro _; try dsimp only)

theorem cutFar_only (w : ℕ) (u : BitVec 64) (b : Block) :
    Only [.ents] b (cutFar w u b) := by
  unfold cutFar
  try dsimp only
  repeat' first
    | with_reducible apply Only.refl
    | (with_reducible apply Only.next (updEnt_only _ _ _); · decide)
    | with_reducible apply Only.forEach
    | with_reducible apply Only.foldl
    | split
    | refine Only.update (by intro f hf; cases f <;> first | exact absurd (by decide) hf | dsimp only [agree]) ?_
    | (intro _; try dsimp only)

theorem cancelFar_only (p : Params) (w : ℕ) (u : BitVec 64) (b : Block) :
    Only [.clk, .regs, .cnt, .cmtDue, .ents, .ports, .rings, .tdone, .waits, .chans, .cq, .cbParts, .resumeQ, .hg, .remSegs, .log, .evr, .trace, .watch, .tally, .xbar, .out] b (cancelFar p w u b) := by
  unfold cancelFar
  try dsimp only
  repeat' first
    | with_reducible apply Only.refl
    | (with_reducible apply Only.next (logRec_only _ _ _); · decide)
    | (with_reducible apply Only.next (cancelEntry_only _ _ _); · decide)
    | (with_reducible apply Only.next (cutFar_only _ _ _); · decide)
    | with_reducible apply Only.forEach
    | with_reducible apply Only.foldl
    | split
    | refine Only.update (by intro f hf; cases f <;> first | exact absurd (by decide) hf | dsimp only [agree]) ?_
    | (intro _; try dsimp only)

theorem tearFar_only (p : Params) (w : ℕ) (u : BitVec 64) (b : Block) :
    Only [.clk, .regs, .cnt, .cmtDue, .ents, .ports, .rings, .tdone, .waits, .chans, .cq, .cbParts, .resumeQ, .hg, .log, .evr, .trace, .watch, .tally, .xbar, .out] b (tearFar p w u b) := by
  unfold tearFar
  try dsimp only
  repeat' first
    | with_reducible apply Only.refl
    | (with_reducible apply Only.next (cqFail_only _ _ _ _ _ _); · decide)
    | with_reducible apply Only.when
    | with_reducible apply Only.forEach
    | with_reducible apply Only.foldl
    | split
    | refine Only.update (by intro f hf; cases f <;> first | exact absurd (by decide) hf | dsimp only [agree]) ?_
    | (intro _; try dsimp only)

theorem breakChan_only (p : Params) (w : ℕ) (u : BitVec 64) (key : ChKey) (c : Chan) (b : Block) :
    Only [.cnt, .ports, .chans, .rchans, .storms, .xbar] b (breakChan p w u key c b) := by
  unfold breakChan
  try dsimp only
  repeat' first
    | with_reducible apply Only.refl
    | (with_reducible apply Only.next (xput_only _ _); · decide)
    | (with_reducible apply Only.next (updChan_only _ _ _); · decide)
    | (with_reducible apply Only.next (closedBeat_only _ _); · decide)
    | (with_reducible apply Only.next (applyAnswer_only _ _ _); · decide)
    | with_reducible apply Only.forEach
    | with_reducible apply Only.foldl
    | split
    | refine Only.update (by intro f hf; cases f <;> first | exact absurd (by decide) hf | dsimp only [agree]) ?_
    | (intro _; try dsimp only)

theorem settleAsked_only (p : Params) (w : ℕ) (u : BitVec 64) (b : Block) :
    Only [.cnt, .ports, .rings, .segs, .entq, .chans, .rchans, .storms, .hg, .cap, .xbar, .out] b (settleAsked p w u b) := by
  unfold settleAsked
  try dsimp only
  repeat' first
    | with_reducible apply Only.refl
    | (with_reducible apply Only.next (applyAnswer_only _ _ _); · decide)
    | (with_reducible apply Only.next (hingeFault_only _ _ _ _); · decide)
    | with_reducible apply Only.when
    | with_reducible apply Only.forEach
    | with_reducible apply Only.foldl
    | split
    | refine Only.update (by intro f hf; cases f <;> first | exact absurd (by decide) hf | dsimp only [agree]) ?_
    | (intro _; try dsimp only)

theorem settleWaits_only (p : Params) (w : ℕ) (u : BitVec 64) (b : Block) :
    Only [.cnt, .ports, .rings, .segs, .entq, .hg, .cap, .xbar, .out] b (settleWaits p w u b) := by
  unfold settleWaits
  try dsimp only
  repeat' first
    | with_reducible apply Only.refl
    | (with_reducible apply Only.next (hingeFault_only _ _ _ _); · decide)
    | with_reducible apply Only.when
    | with_reducible apply Only.forEach
    | with_reducible apply Only.foldl
    | split
    | refine Only.update (by intro f hf; cases f <;> first | exact absurd (by decide) hf | dsimp only [agree]) ?_
    | (intro _; try dsimp only)

theorem govStepped_only (c : ℤ) (b : Block) :
    Only [.gov] b (govStepped c b) := by
  unfold govStepped
  try dsimp only
  repeat' first
    | with_reducible apply Only.refl
    | with_reducible apply Only.when
    | with_reducible apply Only.foldl
    | split
    | refine Only.update (by intro f hf; cases f <;> first | exact absurd (by decide) hf | dsimp only [agree]) ?_
    | (intro _; try dsimp only)

theorem tsStatWrite_only (h : ℕ) (v : Word32) (b : Block) :
    Only [.hg] b (tsStatWrite h v b) := by
  unfold tsStatWrite
  try dsimp only
  repeat' first
    | with_reducible apply Only.refl
    | (with_reducible apply Only.next (updHinge_only _ _ _); · decide)
    | with_reducible apply Only.foldl
    | split
    | refine Only.update (by intro f hf; cases f <;> first | exact absurd (by decide) hf | dsimp only [agree]) ?_
    | (intro _; try dsimp only)

theorem ceCount_only (u : UnitId) (table : ℕ) (idx : ℕ) (b : Block) :
    Only [.cnt, .mq] b (ceCount u table idx b) := by
  unfold ceCount
  try dsimp only
  repeat' first
    | with_reducible apply Only.refl
    | (with_reducible apply Only.next (updMQ_only _ _ _ _); · decide)
    | (with_reducible apply Only.next (bump_only _ _ _); · decide)
    | with_reducible apply Only.foldl
    | split
    | refine Only.update (by intro f hf; cases f <;> first | exact absurd (by decide) hf | dsimp only [agree]) ?_
    | (intro _; try dsimp only)

theorem corrected_only (p : Params) (u : UnitId) (table : ℕ) (idx : ℕ) (b : Block) :
    Only [.regs, .cnt, .mq, .log, .ecc, .trace, .out] b (corrected p u table idx b) := by
  unfold corrected
  try dsimp only
  repeat' first
    | with_reducible apply Only.refl
    | (with_reducible apply Only.next (logRec_only _ _ _); · decide)
    | (with_reducible apply Only.next (ceCount_only _ _ _ _); · decide)
    | with_reducible apply Only.foldl
    | split
    | refine Only.update (by intro f hf; cases f <;> first | exact absurd (by decide) hf | dsimp only [agree]) ?_
    | (intro _; try dsimp only)

theorem patrol_only (p : Params) (u : UnitId) (table : ℕ) (last : Bool) (bad : Bool) (b : Block) :
    Only [.regs, .cnt, .mq, .log, .ecc, .trace, .out] b (patrol p u table last bad b) := by
  unfold patrol
  try dsimp only
  repeat' first
    | with_reducible apply Only.refl
    | (with_reducible apply Only.next (corrected_only _ _ _ _ _); · decide)
    | with_reducible apply Only.when
    | with_reducible apply Only.foldl
    | split
    | refine Only.update (by intro f hf; cases f <;> first | exact absurd (by decide) hf | dsimp only [agree]) ?_
    | (intro _; try dsimp only)

theorem retireEntry_only (h : ℕ) (b : Block) :
    Only [.cnt, .ents] b (retireEntry h b) := by
  unfold retireEntry
  try dsimp only
  repeat' first
    | with_reducible apply Only.refl
    | (with_reducible apply Only.next (updEnt_only _ _ _); · decide)
    | (with_reducible apply Only.next (bump_only _ _ _); · decide)
    | with_reducible apply Only.when
    | with_reducible apply Only.foldl
    | split
    | refine Only.update (by intro f hf; cases f <;> first | exact absurd (by decide) hf | dsimp only [agree]) ?_
    | (intro _; try dsimp only)

theorem badEntry_only (p : Params) (h : ℕ) (b : Block) :
    Only [.clk, .regs, .cnt, .cmtDue, .ents, .ports, .rings, .tdone, .chans, .cq, .cbParts, .resumeQ, .hg, .log, .evr, .trace, .watch, .tally, .xbar, .out] b (badEntry p h b) := by
  unfold badEntry
  try dsimp only
  repeat' first
    | with_reducible apply Only.refl
    | (with_reducible apply Only.next (updEnt_only _ _ _); · decide)
    | (with_reducible apply Only.next (xsend_only _ _ _ _); · decide)
    | (with_reducible apply Only.next (settle_only _ _ _ _ _ _ _ _ _ _); · decide)
    | (with_reducible apply Only.next (cqFail_only _ _ _ _ _ _); · decide)
    | (with_reducible apply Only.next (retireEntry_only _ _); · decide)
    | with_reducible apply Only.foldl
    | split
    | refine Only.update (by intro f hf; cases f <;> first | exact absurd (by decide) hf | dsimp only [agree]) ?_
    | (intro _; try dsimp only)

theorem badCopy_only (p : Params) (w : ℕ) (h : ℕ) (b : Block) :
    Only [.cnt, .ports, .xbar] b (badCopy p w h b) := by
  unfold badCopy
  try dsimp only
  repeat' first
    | with_reducible apply Only.refl
    | (with_reducible apply Only.next (updPort_only _ _ _); · decide)
    | (with_reducible apply Only.next (xsend_only _ _ _ _); · decide)
    | with_reducible apply Only.foldl
    | split
    | refine Only.update (by intro f hf; cases f <;> first | exact absurd (by decide) hf | dsimp only [agree]) ?_
    | (intro _; try dsimp only)

theorem badEdge_only (p : Params) (h : ℕ) (b : Block) :
    Only [.clk, .regs, .cnt, .cmtDue, .ents, .ports, .rings, .tdone, .segs, .entq, .waits, .chans, .cq, .cbParts, .resumeQ, .hg, .log, .evr, .trace, .watch, .tally, .xbar, .out] b (badEdge p h b) := by
  unfold badEdge
  try dsimp only
  repeat' first
    | with_reducible apply Only.refl
    | (with_reducible apply Only.next (endSub_only _ _ _ _ _); · decide)
    | (with_reducible apply Only.next (badEntry_only _ _ _); · decide)
    | with_reducible apply Only.foldl
    | split
    | refine Only.update (by intro f hf; cases f <;> first | exact absurd (by decide) hf | dsimp only [agree]) ?_
    | (intro _; try dsimp only)

theorem badChan_only (key : ChKey) (b : Block) :
    Only [.ports, .chans, .rchans] b (badChan key b) := by
  unfold badChan
  try dsimp only
  repeat' first
    | with_reducible apply Only.refl
    | (with_reducible apply Only.next (updChan_only _ _ _); · decide)
    | (with_reducible apply Only.next (closedBeat_only _ _); · decide)
    | with_reducible apply Only.foldl
    | split
    | refine Only.update (by intro f hf; cases f <;> first | exact absurd (by decide) hf | dsimp only [agree]) ?_
    | (intro _; try dsimp only)

theorem badQueue_only (p : Params) (w : ℕ) (q : ℕ) (k : ℕ) (idx : ℕ) (b : Block) :
    Only [.ports, .mq] b (badQueue p w q k idx b) := by
  unfold badQueue
  try dsimp only
  repeat' first
    | with_reducible apply Only.refl
    | (with_reducible apply Only.next (updPort_only _ _ _); · decide)
    | (with_reducible apply Only.next (updMQ_only _ _ _ _); · decide)
    | with_reducible apply Only.when
    | with_reducible apply Only.foldl
    | split
    | refine Only.update (by intro f hf; cases f <;> first | exact absurd (by decide) hf | dsimp only [agree]) ?_
    | (intro _; try dsimp only)

theorem badRelay_only (ch : ℕ) (idx : ℕ) (b : Block) :
    Only [.chans, .rchans] b (badRelay ch idx b) := by
  unfold badRelay
  try dsimp only
  repeat' first
    | with_reducible apply Only.refl
    | (with_reducible apply Only.next (updChan_only _ _ _); · decide)
    | with_reducible apply Only.foldl
    | split
    | refine Only.update (by intro f hf; cases f <;> first | exact absurd (by decide) hf | dsimp only [agree]) ?_
    | (intro _; try dsimp only)

theorem badImport_only (p : Params) (h : ℕ) (inst : ℕ) (b : Block) :
    Only [.clk, .regs, .cnt, .cmtDue, .ents, .ports, .rings, .tdone, .chans, .resumeQ, .hg, .fedt, .log, .evr, .trace, .watch, .tally, .xbar, .out] b (badImport p h inst b) := by
  unfold badImport
  try dsimp only
  repeat' first
    | with_reducible apply Only.refl
    | (with_reducible apply Only.next (updFed_only _ _ _); · decide)
    | (with_reducible apply Only.next (tumblerItem_only _ _ _ _ _ _); · decide)
    | with_reducible apply Only.forEach
    | with_reducible apply Only.foldl
    | split
    | refine Only.update (by intro f hf; cases f <;> first | exact absurd (by decide) hf | dsimp only [agree]) ?_
    | (intro _; try dsimp only)

theorem badRoster_only (p : Params) (w : ℕ) (k : ℕ) (b : Block) :
    Only [.clk, .regs, .cnt, .cmtDue, .rings, .tdone, .chans, .resumeQ, .fedt, .log, .trace, .tally, .xbar, .out] b (badRoster p w k b) := by
  unfold badRoster
  try dsimp only
  repeat' first
    | with_reducible apply Only.refl
    | (with_reducible apply Only.next (updFed_only _ _ _); · decide)
    | (with_reducible apply Only.next (logRec_only _ _ _); · decide)
    | (with_reducible apply Only.next (ringSettle_only _ _ _ _ _ _ _ _); · decide)
    | with_reducible apply Only.foldl
    | split
    | refine Only.update (by intro f hf; cases f <;> first | exact absurd (by decide) hf | dsimp only [agree]) ?_
    | (intro _; try dsimp only)

theorem badEvent_only (p : Params) (w : ℕ) (obj : ℕ) (b : Block) :
    Only [.cnt, .evr] b (badEvent p w obj b) := by
  unfold badEvent
  try dsimp only
  repeat' first
    | with_reducible apply Only.refl
    | with_reducible apply Only.foldl
    | split
    | refine Only.update (by intro f hf; cases f <;> first | exact absurd (by decide) hf | dsimp only [agree]) ?_
    | (intro _; try dsimp only)

theorem badWard_only (p : Params) (w : ℕ) (table : ℕ) (idx : ℕ) (obj : ℕ) (b : Block) :
    Only [.clk, .regs, .cnt, .cmtDue, .ents, .slots, .ports, .rings, .tdone, .segs, .entq, .waits, .kpool, .mq, .chans, .rchans, .cq, .cbParts, .resumeQ, .hg, .fedt, .log, .evr, .trace, .watch, .tally, .xbar, .out] b (badWard p w table idx obj b) := by
  unfold badWard
  try dsimp only
  repeat' first
    | with_reducible apply Only.refl
    | (with_reducible apply Only.next (updSlot_only _ _ _ _); · decide)
    | (with_reducible apply Only.next (updCQ_only _ _ _ _); · decide)
    | (with_reducible apply Only.next (keyPoolReset_only _ _ _ _ _); · decide)
    | (with_reducible apply Only.next (badEntry_only _ _ _); · decide)
    | (with_reducible apply Only.next (badCopy_only _ _ _ _); · decide)
    | (with_reducible apply Only.next (badEdge_only _ _ _); · decide)
    | (with_reducible apply Only.next (badChan_only _ _); · decide)
    | (with_reducible apply Only.next (badQueue_only _ _ _ _ _ _); · decide)
    | (with_reducible apply Only.next (badRelay_only _ _ _); · decide)
    | (with_reducible apply Only.next (badImport_only _ _ _ _); · decide)
    | (with_reducible apply Only.next (badRoster_only _ _ _ _); · decide)
    | (with_reducible apply Only.next (badEvent_only _ _ _ _); · decide)
    | with_reducible apply Only.foldl
    | split
    | refine Only.update (by intro f hf; cases f <;> first | exact absurd (by decide) hf | dsimp only [agree]) ?_
    | (intro _; try dsimp only)

theorem badRing_only (p : Params) (r : ℕ) (b : Block) :
    Only [.clk, .regs, .cnt, .cmtDue, .ents, .ports, .rings, .tdone, .segs, .entq, .waits, .chans, .cq, .cbParts, .resumeQ, .hg, .log, .evr, .trace, .watch, .tally, .xbar, .out] b (badRing p r b) := by
  unfold badRing
  try dsimp only
  repeat' first
    | with_reducible apply Only.refl
    | (with_reducible apply Only.next (updRing_only _ _ _); · decide)
    | (with_reducible apply Only.next (endSub_only _ _ _ _ _); · decide)
    | (with_reducible apply Only.next (writeEnable_only _ _ _ _); · decide)
    | with_reducible apply Only.forEach
    | with_reducible apply Only.foldl
    | split
    | refine Only.update (by intro f hf; cases f <;> first | exact absurd (by decide) hf | dsimp only [agree]) ?_
    | (intro _; try dsimp only)

theorem failWait_only (p : Params) (x1 : HWait) (b : Block) :
    Only [.cnt, .waits, .hg, .xbar, .out] b (failWait p x1 b) := by
  unfold failWait
  try dsimp only
  repeat' first
    | with_reducible apply Only.refl
    | (with_reducible apply Only.next (sendItem_only _ _ _); · decide)
    | (with_reducible apply Only.next (faultTo_only _ _ _ _ _); · decide)
    | with_reducible apply Only.when
    | with_reducible apply Only.foldl
    | split
    | refine Only.update (by intro f hf; cases f <;> first | exact absurd (by decide) hf | dsimp only [agree]) ?_
    | (intro _; try dsimp only)

theorem badHasp_only (p : Params) (h : ℕ) (b : Block) :
    Only [.cnt, .hasps, .waits, .hg, .xbar, .out] b (badHasp p h b) := by
  unfold badHasp
  try dsimp only
  repeat' first
    | with_reducible apply Only.refl
    | (with_reducible apply Only.next (updHasp_only _ _ _); · decide)
    | (with_reducible apply Only.next (failWait_only _ _ _); · decide)
    | with_reducible apply Only.forEach
    | with_reducible apply Only.foldl
    | split
    | refine Only.update (by intro f hf; cases f <;> first | exact absurd (by decide) hf | dsimp only [agree]) ?_
    | (intro _; try dsimp only)

theorem badLog_only (p : Params) (k : ℕ) (b : Block) :
    Only [.regs, .log, .out] b (badLog p k b) := by
  unfold badLog
  try dsimp only
  repeat' first
    | with_reducible apply Only.refl
    | (with_reducible apply Only.next (updLog_only _ _); · decide)
    | (with_reducible apply Only.next (raiseK_only _ _ _); · decide)
    | with_reducible apply Only.foldl
    | split
    | refine Only.update (by intro f hf; cases f <;> first | exact absurd (by decide) hf | dsimp only [agree]) ?_
    | (intro _; try dsimp only)

theorem badKeeper_only (p : Params) (table : ℕ) (obj : ℕ) (b : Block) :
    Only [.clk, .regs, .cnt, .cmtDue, .ents, .ports, .gov, .rings, .tdone, .segs, .entq, .pcls, .hasps, .waits, .chans, .cq, .cbParts, .resumeQ, .hg, .log, .evr, .trace, .watch, .tally, .xbar, .out] b (badKeeper p table obj b) := by
  unfold badKeeper
  try dsimp only
  repeat' first
    | with_reducible apply Only.refl
    | (with_reducible apply Only.next (updPcl_only _ _ _); · decide)
    | (with_reducible apply Only.next (updDom_only _ _ _); · decide)
    | (with_reducible apply Only.next (badRing_only _ _ _); · decide)
    | (with_reducible apply Only.next (badHasp_only _ _ _); · decide)
    | (with_reducible apply Only.next (badLog_only _ _ _); · decide)
    | with_reducible apply Only.foldl
    | split
    | refine Only.update (by intro f hf; cases f <;> first | exact absurd (by decide) hf | dsimp only [agree]) ?_
    | (intro _; try dsimp only)

theorem failAttempt_only (reason : ℕ) (b : Block) :
    Only [.boot] b (failAttempt reason b) := by
  unfold failAttempt
  try dsimp only
  repeat' first
    | with_reducible apply Only.refl
    | (with_reducible apply Only.next (updBoot_only _ _); · decide)
    | with_reducible apply Only.foldl
    | split
    | refine Only.update (by intro f hf; cases f <;> first | exact absurd (by decide) hf | dsimp only [agree]) ?_
    | (intro _; try dsimp only)

theorem quiesceRing_only (p : Params) (r : ℕ) (b : Block) :
    Only [.cnt, .rings, .segs, .entq, .hg, .out] b (quiesceRing p r b) := by
  unfold quiesceRing
  try dsimp only
  repeat' first
    | with_reducible apply Only.refl
    | (with_reducible apply Only.next (updWalk_only _ _ _); · decide)
    | (with_reducible apply Only.next (abandonSeg_only _ _ _); · decide)
    | with_reducible apply Only.foldl
    | split
    | refine Only.update (by intro f hf; cases f <;> first | exact absurd (by decide) hf | dsimp only [agree]) ?_
    | (intro _; try dsimp only)

theorem quiesceAll_only (p : Params) (b : Block) :
    Only [.cnt, .rings, .segs, .entq, .hg, .out] b (quiesceAll p b) := by
  unfold quiesceAll
  try dsimp only
  repeat' first
    | with_reducible apply Only.refl
    | (with_reducible apply Only.next (quiesceRing_only _ _ _); · decide)
    | with_reducible apply Only.forEach
    | with_reducible apply Only.foldl
    | split
    | refine Only.update (by intro f hf; cases f <;> first | exact absurd (by decide) hf | dsimp only [agree]) ?_
    | (intro _; try dsimp only)

theorem faultEdge_only (p : Params) (b : Block) :
    Only [.cnt, .rings, .segs, .entq, .hg, .dbolt, .out] b (faultEdge p b) := by
  unfold faultEdge
  try dsimp only
  repeat' first
    | with_reducible apply Only.refl
    | (with_reducible apply Only.next (updDb_only _ _); · decide)
    | (with_reducible apply Only.next (quiesceAll_only _ _); · decide)
    | with_reducible apply Only.when
    | with_reducible apply Only.foldl
    | split
    | refine Only.update (by intro f hf; cases f <;> first | exact absurd (by decide) hf | dsimp only [agree]) ?_
    | (intro _; try dsimp only)

theorem laneUp_only (n : ℕ) (b : Block) :
    Only [.boot] b (laneUp n b) := by
  unfold laneUp
  try dsimp only
  repeat' first
    | with_reducible apply Only.refl
    | (with_reducible apply Only.next (updBoot_only _ _); · decide)
    | with_reducible apply Only.foldl
    | split
    | refine Only.update (by intro f hf; cases f <;> first | exact absurd (by decide) hf | dsimp only [agree]) ?_
    | (intro _; try dsimp only)

theorem laneHard_only (p : Params) (n : ℕ) (b : Block) :
    Only [.boot, .regs, .cnt, .log, .trace, .out] b (laneHard p n b) := by
  unfold laneHard
  try dsimp only
  repeat' first
    | with_reducible apply Only.refl
    | (with_reducible apply Only.next (updBoot_only _ _); · decide)
    | (with_reducible apply Only.next (raiseK_only _ _ _); · decide)
    | (with_reducible apply Only.next (logRec_only _ _ _); · decide)
    | with_reducible apply Only.foldl
    | split
    | refine Only.update (by intro f hf; cases f <;> first | exact absurd (by decide) hf | dsimp only [agree]) ?_
    | (intro _; try dsimp only)

theorem logCtrl_only (v : Word32) (b : Block) :
    Only [.log] b (logCtrl v b) := by
  unfold logCtrl
  try dsimp only
  repeat' first
    | with_reducible apply Only.refl
    | (with_reducible apply Only.next (updLog_only _ _); · decide)
    | with_reducible apply Only.when
    | with_reducible apply Only.foldl
    | split
    | refine Only.update (by intro f hf; cases f <;> first | exact absurd (by decide) hf | dsimp only [agree]) ?_
    | (intro _; try dsimp only)

theorem lrCtrl_only (v : Word32) (b : Block) :
    Only [.log] b (lrCtrl v b) := by
  unfold lrCtrl
  try dsimp only
  repeat' first
    | with_reducible apply Only.refl
    | (with_reducible apply Only.next (updLog_only _ _); · decide)
    | with_reducible apply Only.when
    | with_reducible apply Only.foldl
    | split
    | refine Only.update (by intro f hf; cases f <;> first | exact absurd (by decide) hf | dsimp only [agree]) ?_
    | (intro _; try dsimp only)

theorem disagreeTick_only (p : Params) (a : Bool) (b : Block) :
    Only [.regs, .cnt, .log, .dbolt, .trace, .out] b (disagreeTick p a b) := by
  unfold disagreeTick
  try dsimp only
  repeat' first
    | with_reducible apply Only.refl
    | (with_reducible apply Only.next (updDb_only _ _); · decide)
    | (with_reducible apply Only.next (logRec_only _ _ _); · decide)
    | with_reducible apply Only.foldl
    | split
    | refine Only.update (by intro f hf; cases f <;> first | exact absurd (by decide) hf | dsimp only [agree]) ?_
    | (intro _; try dsimp only)

theorem agreeTick_only (p : Params) (on : Bool) (b : Block) :
    Only [.dbolt] b (agreeTick p on b) := by
  unfold agreeTick
  try dsimp only
  repeat' first
    | with_reducible apply Only.refl
    | (with_reducible apply Only.next (updDb_only _ _); · decide)
    | with_reducible apply Only.foldl
    | split
    | refine Only.update (by intro f hf; cases f <;> first | exact absurd (by decide) hf | dsimp only [agree]) ?_
    | (intro _; try dsimp only)

theorem drainWatch_only (p : Params) (b : Block) :
    Only [.dbolt] b (drainWatch p b) := by
  unfold drainWatch
  try dsimp only
  repeat' first
    | with_reducible apply Only.refl
    | (with_reducible apply Only.next (updDb_only _ _); · decide)
    | with_reducible apply Only.foldl
    | split
    | refine Only.update (by intro f hf; cases f <;> first | exact absurd (by decide) hf | dsimp only [agree]) ?_
    | (intro _; try dsimp only)

theorem endAll_only (p : Params) (st : Status) (b : Block) :
    Only [.clk, .regs, .cnt, .cmtDue, .ents, .ports, .rings, .tdone, .segs, .entq, .waits, .chans, .cq, .cbParts, .resumeQ, .hg, .log, .evr, .trace, .watch, .tally, .xbar, .out] b (endAll p st b) := by
  unfold endAll
  try dsimp only
  repeat' first
    | with_reducible apply Only.refl
    | (with_reducible apply Only.next (endSub_only _ _ _ _ _); · decide)
    | with_reducible apply Only.forEach
    | with_reducible apply Only.foldl
    | split
    | refine Only.update (by intro f hf; cases f <;> first | exact absurd (by decide) hf | dsimp only [agree]) ?_
    | (intro _; try dsimp only)

theorem dbStatWrite_only (v : Word32) (b : Block) :
    Only [.dbolt] b (dbStatWrite v b) := by
  unfold dbStatWrite
  try dsimp only
  repeat' first
    | with_reducible apply Only.refl
    | (with_reducible apply Only.next (updDb_only _ _); · decide)
    | with_reducible apply Only.when
    | with_reducible apply Only.foldl
    | split
    | refine Only.update (by intro f hf; cases f <;> first | exact absurd (by decide) hf | dsimp only [agree]) ?_
    | (intro _; try dsimp only)

theorem blkOrder_only (b : Block) :
    Only [.blk] b (blkOrder b) := by
  unfold blkOrder
  try dsimp only
  repeat' first
    | with_reducible apply Only.refl
    | with_reducible apply Only.foldl
    | split
    | refine Only.update (by intro f hf; cases f <;> first | exact absurd (by decide) hf | dsimp only [agree]) ?_
    | (intro _; try dsimp only)

end Sys2Proof.Machine
end

