-- ==== Sys2Proof/Laws/OnlyRest.lean ====
section
/-! SUPPORT. What each operation can change: observation, boot, the meter, the register map, the dump and the clock. One lemma for each operation; the list names the
parts of the block outside which it leaves everything as it was. -/

namespace Sys2Proof.Machine

set_option linter.all false

theorem clearBank_only (base : ℕ) (b : Block) :
    Only [.cnt] b (clearBank base b) := by
  unfold clearBank
  try dsimp only
  repeat' first
    | with_reducible apply Only.refl
    | with_reducible apply Only.foldl
    | split
    | refine Only.update (by intro f hf; cases f <;> first | exact absurd (by decide) hf | dsimp only [agree]) ?_
    | (intro _; try dsimp only)

theorem zeroKeeper_only (b : Block) :
    Only [.cnt, .gov, .log] b (zeroKeeper b) := by
  unfold zeroKeeper
  try dsimp only
  repeat' first
    | with_reducible apply Only.refl
    | (with_reducible apply Only.next (updDom_only _ _ _); · decide)
    | (with_reducible apply Only.next (updLog_only _ _); · decide)
    | (with_reducible apply Only.next (clearBank_only _ _); · decide)
    | with_reducible apply Only.forEach
    | with_reducible apply Only.foldl
    | split
    | refine Only.update (by intro f hf; cases f <;> first | exact absurd (by decide) hf | dsimp only [agree]) ?_
    | (intro _; try dsimp only)

theorem clearPage_only (base : ℕ) (b : Block) :
    Only [.clk, .cnt] b (clearPage base b) := by
  unfold clearPage
  try dsimp only
  repeat' first
    | with_reducible apply Only.refl
    | (with_reducible apply Only.next (updClk_only _ _); · decide)
    | (with_reducible apply Only.next (clearBank_only _ _); · decide)
    | with_reducible apply Only.foldl
    | split
    | refine Only.update (by intro f hf; cases f <;> first | exact absurd (by decide) hf | dsimp only [agree]) ?_
    | (intro _; try dsimp only)

theorem clearKeeper_only (b : Block) :
    Only [.clk, .cnt, .gov, .log] b (clearKeeper b) := by
  unfold clearKeeper
  try dsimp only
  repeat' first
    | with_reducible apply Only.refl
    | (with_reducible apply Only.next (zeroKeeper_only _); · decide)
    | (with_reducible apply Only.next (clearPage_only _ _); · decide)
    | with_reducible apply Only.foldl
    | split
    | refine Only.update (by intro f hf; cases f <;> first | exact absurd (by decide) hf | dsimp only [agree]) ?_
    | (intro _; try dsimp only)

theorem clearCycle_only (b : Block) :
    Only [.clk, .cnt, .gov, .log] b (clearCycle b) := by
  unfold clearCycle
  try dsimp only
  repeat' first
    | with_reducible apply Only.refl
    | (with_reducible apply Only.next (updClk_only _ _); · decide)
    | (with_reducible apply Only.next (clearBank_only _ _); · decide)
    | (with_reducible apply Only.next (zeroKeeper_only _); · decide)
    | with_reducible apply Only.forEach
    | with_reducible apply Only.foldl
    | split
    | refine Only.update (by intro f hf; cases f <;> first | exact absurd (by decide) hf | dsimp only [agree]) ?_
    | (intro _; try dsimp only)

theorem snapOrder_only (b : Block) :
    Only [.snapAt] b (snapOrder b) := by
  unfold snapOrder
  try dsimp only
  repeat' first
    | with_reducible apply Only.refl
    | with_reducible apply Only.foldl
    | split
    | refine Only.update (by intro f hf; cases f <;> first | exact absurd (by decide) hf | dsimp only [agree]) ?_
    | (intro _; try dsimp only)

theorem copyCounters_only (b : Block) :
    Only [.cntSh, .snapTs] b (copyCounters b) := by
  unfold copyCounters
  try dsimp only
  repeat' first
    | with_reducible apply Only.refl
    | with_reducible apply Only.foldl
    | split
    | refine Only.update (by intro f hf; cases f <;> first | exact absurd (by decide) hf | dsimp only [agree]) ?_
    | (intro _; try dsimp only)

theorem snapCycle_only (b : Block) :
    Only [.cntSh, .snapAt, .snapTs] b (snapCycle b) := by
  unfold snapCycle
  try dsimp only
  repeat' first
    | with_reducible apply Only.refl
    | (with_reducible apply Only.next (copyCounters_only _); · decide)
    | with_reducible apply Only.when
    | with_reducible apply Only.foldl
    | split
    | refine Only.update (by intro f hf; cases f <;> first | exact absurd (by decide) hf | dsimp only [agree]) ?_
    | (intro _; try dsimp only)

theorem blkBuild_only (p : Params) (w : ℕ) (b : Block) :
    Only [.blk] b (blkBuild p w b) := by
  unfold blkBuild
  try dsimp only
  repeat' first
    | with_reducible apply Only.refl
    | with_reducible apply Only.foldl
    | split
    | refine Only.update (by intro f hf; cases f <;> first | exact absurd (by decide) hf | dsimp only [agree]) ?_
    | (intro _; try dsimp only)

theorem blkAll_only (p : Params) (b : Block) :
    Only [.blk] b (blkAll p b) := by
  unfold blkAll
  try dsimp only
  repeat' first
    | with_reducible apply Only.refl
    | (with_reducible apply Only.next (blkBuild_only _ _ _); · decide)
    | with_reducible apply Only.forEach
    | with_reducible apply Only.foldl
    | split
    | refine Only.update (by intro f hf; cases f <;> first | exact absurd (by decide) hf | dsimp only [agree]) ?_
    | (intro _; try dsimp only)

theorem blkCycle_only (p : Params) (b : Block) :
    Only [.blk] b (blkCycle p b) := by
  unfold blkCycle
  try dsimp only
  repeat' first
    | with_reducible apply Only.refl
    | (with_reducible apply Only.next (blkAll_only _ _); · decide)
    | with_reducible apply Only.when
    | with_reducible apply Only.foldl
    | split
    | refine Only.update (by intro f hf; cases f <;> first | exact absurd (by decide) hf | dsimp only [agree]) ?_
    | (intro _; try dsimp only)

theorem padSlots_only (p : Params) (post : Bool) (n : ℕ) (b : Block) :
    Only [.regs, .trace, .out] b (padSlots p post n b) := by
  unfold padSlots
  try dsimp only
  repeat' first
    | with_reducible apply Only.refl
    | (with_reducible apply Only.next (updTr_only _ _); · decide)
    | (with_reducible apply Only.next (trStop_only _ _); · decide)
    | with_reducible apply Only.when
    | with_reducible apply Only.foldl
    | split
    | refine Only.update (by intro f hf; cases f <;> first | exact absurd (by decide) hf | dsimp only [agree]) ?_
    | (intro _; try dsimp only)

theorem writeRun_only (p : Params) (x1 : List TrSlot) (b : Block) :
    Only [.regs, .trace, .out] b (writeRun p x1 b) := by
  unfold writeRun
  try dsimp only
  repeat' first
    | with_reducible apply Only.refl
    | (with_reducible apply Only.next (updTr_only _ _); · decide)
    | (with_reducible apply Only.next (emit_only _ _); · decide)
    | (with_reducible apply Only.next (padSlots_only _ _ _ _); · decide)
    | with_reducible apply Only.foldl
    | split
    | refine Only.update (by intro f hf; cases f <;> first | exact absurd (by decide) hf | dsimp only [agree]) ?_
    | (intro _; try dsimp only)

theorem trEnable_only (b : Block) :
    Only [.trace] b (trEnable b) := by
  unfold trEnable
  try dsimp only
  repeat' first
    | with_reducible apply Only.refl
    | (with_reducible apply Only.next (updTr_only _ _); · decide)
    | with_reducible apply Only.foldl
    | split
    | refine Only.update (by intro f hf; cases f <;> first | exact absurd (by decide) hf | dsimp only [agree]) ?_
    | (intro _; try dsimp only)

theorem trDisable_only (p : Params) (b : Block) :
    Only [.regs, .trace, .out] b (trDisable p b) := by
  unfold trDisable
  try dsimp only
  repeat' first
    | with_reducible apply Only.refl
    | (with_reducible apply Only.next (updTr_only _ _); · decide)
    | (with_reducible apply Only.next (writeRun_only _ _ _); · decide)
    | with_reducible apply Only.forEach
    | with_reducible apply Only.foldl
    | split
    | refine Only.update (by intro f hf; cases f <;> first | exact absurd (by decide) hf | dsimp only [agree]) ?_
    | (intro _; try dsimp only)

theorem trCtrl_only (p : Params) (v : Word32) (b : Block) :
    Only [.regs, .trace, .out] b (trCtrl p v b) := by
  unfold trCtrl
  try dsimp only
  repeat' first
    | with_reducible apply Only.refl
    | (with_reducible apply Only.next (wr_only _ _ _ _); · decide)
    | (with_reducible apply Only.next (trTrigger_only _ _ _ _); · decide)
    | (with_reducible apply Only.next (trEnable_only _); · decide)
    | (with_reducible apply Only.next (trDisable_only _ _); · decide)
    | with_reducible apply Only.when
    | with_reducible apply Only.foldl
    | split
    | refine Only.update (by intro f hf; cases f <;> first | exact absurd (by decide) hf | dsimp only [agree]) ?_
    | (intro _; try dsimp only)

theorem dropAhead_only (p : Params) (b : Block) :
    Only [.regs, .trace, .out] b (dropAhead p b) := by
  unfold dropAhead
  try dsimp only
  repeat' first
    | with_reducible apply Only.refl
    | (with_reducible apply Only.next (updTr_only _ _); · decide)
    | (with_reducible apply Only.next (trPlace_only _ _ _); · decide)
    | with_reducible apply Only.foldl
    | split
    | refine Only.update (by intro f hf; cases f <;> first | exact absurd (by decide) hf | dsimp only [agree]) ?_
    | (intro _; try dsimp only)

theorem trLose_only (u : ℕ) (e : TrEnt) (b : Block) :
    Only [.cnt, .trace] b (trLose u e b) := by
  unfold trLose
  try dsimp only
  repeat' first
    | with_reducible apply Only.refl
    | (with_reducible apply Only.next (updTr_only _ _); · decide)
    | (with_reducible apply Only.next (bump_only _ _ _); · decide)
    | with_reducible apply Only.foldl
    | split
    | refine Only.update (by intro f hf; cases f <;> first | exact absurd (by decide) hf | dsimp only [agree]) ?_
    | (intro _; try dsimp only)

theorem stageOne_only (p : Params) (e : TrEnt) (b : Block) :
    Only [.regs, .cnt, .trace, .out] b (stageOne p e b) := by
  unfold stageOne
  try dsimp only
  repeat' first
    | with_reducible apply Only.refl
    | (with_reducible apply Only.next (trPlace_only _ _ _); · decide)
    | (with_reducible apply Only.next (trTrigger_only _ _ _ _); · decide)
    | (with_reducible apply Only.next (dropAhead_only _ _); · decide)
    | (with_reducible apply Only.next (trLose_only _ _ _); · decide)
    | with_reducible apply Only.when
    | with_reducible apply Only.foldl
    | split
    | refine Only.update (by intro f hf; cases f <;> first | exact absurd (by decide) hf | dsimp only [agree]) ?_
    | (intro _; try dsimp only)

theorem stageFrom_only (p : Params) (u : ℕ) (b : Block) :
    Only [.regs, .cnt, .trace, .out] b (stageFrom p u b) := by
  unfold stageFrom
  try dsimp only
  repeat' first
    | with_reducible apply Only.refl
    | (with_reducible apply Only.next (updTr_only _ _); · decide)
    | (with_reducible apply Only.next (xtx_only _ _ _); · decide)
    | (with_reducible apply Only.next (stageOne_only _ _ _); · decide)
    | with_reducible apply Only.foldl
    | split
    | refine Only.update (by intro f hf; cases f <;> first | exact absurd (by decide) hf | dsimp only [agree]) ?_
    | (intro _; try dsimp only)

theorem setStage_only (u : ℕ) (x1 : Stage) (b : Block) :
    Only [.boot] b (setStage u x1 b) := by
  unfold setStage
  try dsimp only
  repeat' first
    | with_reducible apply Only.refl
    | (with_reducible apply Only.next (updBoot_only _ _); · decide)
    | with_reducible apply Only.foldl
    | split
    | refine Only.update (by intro f hf; cases f <;> first | exact absurd (by decide) hf | dsimp only [agree]) ?_
    | (intro _; try dsimp only)

theorem becomeReady_only (p : Params) (b : Block) :
    Only [.boot, .regs, .out] b (becomeReady p b) := by
  unfold becomeReady
  try dsimp only
  repeat' first
    | with_reducible apply Only.refl
    | (with_reducible apply Only.next (updBoot_only _ _); · decide)
    | (with_reducible apply Only.next (raiseK_only _ _ _); · decide)
    | with_reducible apply Only.when
    | with_reducible apply Only.foldl
    | split
    | refine Only.update (by intro f hf; cases f <;> first | exact absurd (by decide) hf | dsimp only [agree]) ?_
    | (intro _; try dsimp only)

theorem bootCheck_only (p : Params) (b : Block) :
    Only [.boot, .regs, .out] b (bootCheck p b) := by
  unfold bootCheck
  try dsimp only
  repeat' first
    | with_reducible apply Only.refl
    | (with_reducible apply Only.next (updBoot_only _ _); · decide)
    | (with_reducible apply Only.next (becomeReady_only _ _); · decide)
    | with_reducible apply Only.when
    | with_reducible apply Only.foldl
    | split
    | refine Only.update (by intro f hf; cases f <;> first | exact absurd (by decide) hf | dsimp only [agree]) ?_
    | (intro _; try dsimp only)

theorem beginAttempt_only (p : Params) (b : Block) :
    Only [.boot] b (beginAttempt p b) := by
  unfold beginAttempt
  try dsimp only
  repeat' first
    | with_reducible apply Only.refl
    | (with_reducible apply Only.next (updBoot_only _ _); · decide)
    | with_reducible apply Only.foldl
    | split
    | refine Only.update (by intro f hf; cases f <;> first | exact absurd (by decide) hf | dsimp only [agree]) ?_
    | (intro _; try dsimp only)

theorem powerOff_only (b : Block) :
    Only [.clk, .boot, .mgt, .regs, .cnt, .cntSh, .snapAt, .snapTs, .cmtTs, .cmtDue, .iqWork, .ents, .wq, .slots, .ports, .occ, .place, .gov, .arb, .rings, .tdone, .tens, .segs, .entq, .pcls, .hasps, .waits, .kpool, .mq, .mqPop, .chans, .rchans, .storms, .cq, .cbParts, .opdLast, .preIgnored, .resumeQ, .lcIdleAt, .hg, .routes, .unreach, .fedt, .remSegs, .log, .dbolt, .hang, .dump, .cap, .ecc, .evr, .blk, .trace, .watch, .tally, .meter, .xbar] b (powerOff b) := by
  unfold powerOff
  try dsimp only
  repeat' first
    | with_reducible apply Only.refl
    | with_reducible apply Only.foldl
    | split
    | refine Only.update (by intro f hf; cases f <;> first | exact absurd (by decide) hf | dsimp only [agree]) ?_
    | (intro _; try dsimp only)

theorem softOff_only (b : Block) :
    Only [.clk, .boot, .mgt, .regs, .cnt, .cntSh, .snapAt, .snapTs, .cmtTs, .cmtDue, .iqWork, .ents, .wq, .slots, .ports, .occ, .place, .gov, .arb, .rings, .tdone, .tens, .segs, .entq, .pcls, .hasps, .waits, .kpool, .mq, .mqPop, .chans, .rchans, .storms, .cq, .cbParts, .opdLast, .preIgnored, .resumeQ, .lcIdleAt, .hg, .routes, .unreach, .fedt, .remSegs, .log, .dbolt, .hang, .dump, .cap, .ecc, .evr, .blk, .trace, .watch, .tally, .xbar] b (softOff b) := by
  unfold softOff
  try dsimp only
  repeat' first
    | with_reducible apply Only.refl
    | with_reducible apply Only.foldl
    | split
    | refine Only.update (by intro f hf; cases f <;> first | exact absurd (by decide) hf | dsimp only [agree]) ?_
    | (intro _; try dsimp only)

theorem fenceWard_only (p : Params) (w : ℕ) (x2 : ℕ × ℕ) (b : Block) :
    Only [.boot, .regs, .cnt, .log, .trace, .out] b (fenceWard p w x2 b) := by
  unfold fenceWard
  try dsimp only
  repeat' first
    | with_reducible apply Only.refl
    | (with_reducible apply Only.next (updBoot_only _ _); · decide)
    | (with_reducible apply Only.next (logRec_only _ _ _); · decide)
    | (with_reducible apply Only.next (failAttempt_only _ _); · decide)
    | (with_reducible apply Only.next (setStage_only _ _ _); · decide)
    | with_reducible apply Only.when
    | with_reducible apply Only.foldl
    | split
    | refine Only.update (by intro f hf; cases f <;> first | exact absurd (by decide) hf | dsimp only [agree]) ?_
    | (intro _; try dsimp only)

theorem rescrubbed_only (p : Params) (u : UnitId) (b : Block) :
    Only [.boot, .regs, .out] b (rescrubbed p u b) := by
  unfold rescrubbed
  try dsimp only
  repeat' first
    | with_reducible apply Only.refl
    | (with_reducible apply Only.next (setStage_only _ _ _); · decide)
    | (with_reducible apply Only.next (bootCheck_only _ _); · decide)
    | with_reducible apply Only.foldl
    | split
    | refine Only.update (by intro f hf; cases f <;> first | exact absurd (by decide) hf | dsimp only [agree]) ?_
    | (intro _; try dsimp only)

theorem lockSet_only (p : Params) (b : Block) :
    Only [.boot, .cnt, .hg, .unreach, .out] b (lockSet p b) := by
  unfold lockSet
  try dsimp only
  repeat' first
    | with_reducible apply Only.refl
    | (with_reducible apply Only.next (updBoot_only _ _); · decide)
    | (with_reducible apply Only.next (sendHello_only _ _ _); · decide)
    | (with_reducible apply Only.next (tryActive_only _ _ _); · decide)
    | with_reducible apply Only.when
    | with_reducible apply Only.forEach
    | with_reducible apply Only.foldl
    | split
    | refine Only.update (by intro f hf; cases f <;> first | exact absurd (by decide) hf | dsimp only [agree]) ?_
    | (intro _; try dsimp only)

theorem kctrlWrite_only (p : Params) (v : Word32) (b : Block) :
    Only [.boot, .regs, .cnt, .hg, .unreach, .out] b (kctrlWrite p v b) := by
  unfold kctrlWrite
  try dsimp only
  repeat' first
    | with_reducible apply Only.refl
    | (with_reducible apply Only.next (pgErr_only _ _ _ _); · decide)
    | (with_reducible apply Only.next (lockSet_only _ _); · decide)
    | with_reducible apply Only.foldl
    | split
    | refine Only.update (by intro f hf; cases f <;> first | exact absurd (by decide) hf | dsimp only [agree]) ?_
    | (intro _; try dsimp only)

theorem kbootWrite_only (v : Word32) (b : Block) :
    Only [.boot] b (kbootWrite v b) := by
  unfold kbootWrite
  try dsimp only
  repeat' first
    | with_reducible apply Only.refl
    | (with_reducible apply Only.next (updBoot_only _ _); · decide)
    | with_reducible apply Only.when
    | with_reducible apply Only.foldl
    | split
    | refine Only.update (by intro f hf; cases f <;> first | exact absurd (by decide) hf | dsimp only [agree]) ?_
    | (intro _; try dsimp only)

theorem ksSend_only (u : Unsigned) (b : Block) :
    Only [.meter, .out] b (ksSend u b) := by
  unfold ksSend
  try dsimp only
  repeat' first
    | with_reducible apply Only.refl
    | (with_reducible apply Only.next (updMeter_only _ _); · decide)
    | (with_reducible apply Only.next (emit_only _ _); · decide)
    | with_reducible apply Only.foldl
    | split
    | refine Only.update (by intro f hf; cases f <;> first | exact absurd (by decide) hf | dsimp only [agree]) ?_
    | (intro _; try dsimp only)

theorem signNext_only (b : Block) :
    Only [.meter, .out] b (signNext b) := by
  unfold signNext
  try dsimp only
  repeat' first
    | with_reducible apply Only.refl
    | (with_reducible apply Only.next (updMeter_only _ _); · decide)
    | (with_reducible apply Only.next (ksSend_only _ _); · decide)
    | with_reducible apply Only.foldl
    | split
    | refine Only.update (by intro f hf; cases f <;> first | exact absurd (by decide) hf | dsimp only [agree]) ?_
    | (intro _; try dsimp only)

theorem formRec_only (r : MRec) (b : Block) :
    Only [.meter, .out] b (formRec r b) := by
  unfold formRec
  try dsimp only
  repeat' first
    | with_reducible apply Only.refl
    | (with_reducible apply Only.next (updMeter_only _ _); · decide)
    | (with_reducible apply Only.next (signNext_only _); · decide)
    | with_reducible apply Only.foldl
    | split
    | refine Only.update (by intro f hf; cases f <;> first | exact absurd (by decide) hf | dsimp only [agree]) ?_
    | (intro _; try dsimp only)

theorem signFail_only (b : Block) :
    Only [.meter] b (signFail b) := by
  unfold signFail
  try dsimp only
  repeat' first
    | with_reducible apply Only.refl
    | (with_reducible apply Only.next (updMeter_only _ _); · decide)
    | with_reducible apply Only.foldl
    | split
    | refine Only.update (by intro f hf; cases f <;> first | exact absurd (by decide) hf | dsimp only [agree]) ?_
    | (intro _; try dsimp only)

theorem closeOver_only (b : Block) :
    Only [.meter] b (closeOver b) := by
  unfold closeOver
  try dsimp only
  repeat' first
    | with_reducible apply Only.refl
    | (with_reducible apply Only.next (updMeter_only _ _); · decide)
    | with_reducible apply Only.foldl
    | split
    | refine Only.update (by intro f hf; cases f <;> first | exact absurd (by decide) hf | dsimp only [agree]) ?_
    | (intro _; try dsimp only)

theorem formNext_only (bad : List ℕ) (k : Closing) (b : Block) :
    Only [.meter, .out] b (formNext bad k b) := by
  unfold formNext
  try dsimp only
  repeat' first
    | with_reducible apply Only.refl
    | (with_reducible apply Only.next (updMeter_only _ _); · decide)
    | (with_reducible apply Only.next (formRec_only _ _); · decide)
    | (with_reducible apply Only.next (closeOver_only _); · decide)
    | with_reducible apply Only.foldl
    | split
    | refine Only.update (by intro f hf; cases f <;> first | exact absurd (by decide) hf | dsimp only [agree]) ?_
    | (intro _; try dsimp only)

theorem mtRun_only (b : Block) :
    Only [.meter, .out] b (mtRun b) := by
  unfold mtRun
  try dsimp only
  repeat' first
    | with_reducible apply Only.refl
    | (with_reducible apply Only.next (updMeter_only _ _); · decide)
    | (with_reducible apply Only.next (formRec_only _ _); · decide)
    | with_reducible apply Only.foldl
    | split
    | refine Only.update (by intro f hf; cases f <;> first | exact absurd (by decide) hf | dsimp only [agree]) ?_
    | (intro _; try dsimp only)

theorem mtStop_only (b : Block) :
    Only [.meter] b (mtStop b) := by
  unfold mtStop
  try dsimp only
  repeat' first
    | with_reducible apply Only.refl
    | (with_reducible apply Only.next (updMeter_only _ _); · decide)
    | with_reducible apply Only.foldl
    | split
    | refine Only.update (by intro f hf; cases f <;> first | exact absurd (by decide) hf | dsimp only [agree]) ?_
    | (intro _; try dsimp only)

theorem mtConfig_only (c : MtCfg) (b : Block) :
    Only [.meter] b (mtConfig c b) := by
  unfold mtConfig
  try dsimp only
  repeat' first
    | with_reducible apply Only.refl
    | (with_reducible apply Only.next (updMeter_only _ _); · decide)
    | with_reducible apply Only.foldl
    | split
    | refine Only.update (by intro f hf; cases f <;> first | exact absurd (by decide) hf | dsimp only [agree]) ?_
    | (intro _; try dsimp only)

theorem mtPop_only (b : Block) :
    Only [.meter, .out] b (mtPop b) := by
  unfold mtPop
  try dsimp only
  repeat' first
    | with_reducible apply Only.refl
    | (with_reducible apply Only.next (updMeter_only _ _); · decide)
    | (with_reducible apply Only.next (signNext_only _); · decide)
    | with_reducible apply Only.foldl
    | split
    | refine Only.update (by intro f hf; cases f <;> first | exact absurd (by decide) hf | dsimp only [agree]) ?_
    | (intro _; try dsimp only)

theorem mtOkay_only (b : Block) :
    Only [.meter] b (mtOkay b) := by
  unfold mtOkay
  try dsimp only
  repeat' first
    | with_reducible apply Only.refl
    | (with_reducible apply Only.next (updMeter_only _ _); · decide)
    | with_reducible apply Only.foldl
    | split
    | refine Only.update (by intro f hf; cases f <;> first | exact absurd (by decide) hf | dsimp only [agree]) ?_
    | (intro _; try dsimp only)

theorem mtWrite_only (o : ℕ) (v : Word32) (b : Block) :
    Only [.meter, .out] b (mtWrite o v b) := by
  unfold mtWrite
  try dsimp only
  repeat' first
    | with_reducible apply Only.refl
    | (with_reducible apply Only.next (updMeter_only _ _); · decide)
    | (with_reducible apply Only.next (mtRun_only _); · decide)
    | (with_reducible apply Only.next (mtStop_only _); · decide)
    | (with_reducible apply Only.next (mtConfig_only _ _); · decide)
    | (with_reducible apply Only.next (mtPop_only _); · decide)
    | with_reducible apply Only.when
    | with_reducible apply Only.foldl
    | split
    | refine Only.update (by intro f hf; cases f <;> first | exact absurd (by decide) hf | dsimp only [agree]) ?_
    | (intro _; try dsimp only)

theorem mtpWrite_only (a : ℕ) (v : Word32) (strb : BitVec 4) (b : Block) :
    Only [.meter, .out] b (mtpWrite a v strb b) := by
  unfold mtpWrite
  try dsimp only
  repeat' first
    | with_reducible apply Only.refl
    | (with_reducible apply Only.next (updMeter_only _ _); · decide)
    | (with_reducible apply Only.next (mtOkay_only _); · decide)
    | (with_reducible apply Only.next (mtWrite_only _ _ _); · decide)
    | with_reducible apply Only.foldl
    | split
    | refine Only.update (by intro f hf; cases f <;> first | exact absurd (by decide) hf | dsimp only [agree]) ?_
    | (intro _; try dsimp only)

theorem mtpRead_only (p : Params) (a : ℕ) (b : Block) :
    Only [.meter] b (mtpRead p a b) := by
  unfold mtpRead
  try dsimp only
  repeat' first
    | with_reducible apply Only.refl
    | (with_reducible apply Only.next (updMeter_only _ _); · decide)
    | with_reducible apply Only.foldl
    | split
    | refine Only.update (by intro f hf; cases f <;> first | exact absurd (by decide) hf | dsimp only [agree]) ?_
    | (intro _; try dsimp only)

theorem dumpAsk_only (p : Params) (n : ℕ) (b : Block) :
    Only [.ports, .dump, .out] b (dumpAsk p n b) := by
  unfold dumpAsk
  try dsimp only
  repeat' first
    | with_reducible apply Only.refl
    | (with_reducible apply Only.next (updPort_only _ _ _); · decide)
    | (with_reducible apply Only.next (emit_only _ _); · decide)
    | with_reducible apply Only.when
    | with_reducible apply Only.foldl
    | split
    | refine Only.update (by intro f hf; cases f <;> first | exact absurd (by decide) hf | dsimp only [agree]) ?_
    | (intro _; try dsimp only)

theorem dumpStart_only (p : Params) (b : Block) :
    Only [.regs, .dump, .out] b (dumpStart p b) := by
  unfold dumpStart
  try dsimp only
  repeat' first
    | with_reducible apply Only.refl
    | (with_reducible apply Only.next (pgErr_only _ _ _ _); · decide)
    | with_reducible apply Only.foldl
    | split
    | refine Only.update (by intro f hf; cases f <;> first | exact absurd (by decide) hf | dsimp only [agree]) ?_
    | (intro _; try dsimp only)

theorem dumpFreeze_only (p : Params) (b : Block) :
    Only [.ports, .hg, .dump, .out] b (dumpFreeze p b) := by
  unfold dumpFreeze
  try dsimp only
  repeat' first
    | with_reducible apply Only.refl
    | (with_reducible apply Only.next (updHinge_only _ _ _); · decide)
    | (with_reducible apply Only.next (emit_only _ _); · decide)
    | (with_reducible apply Only.next (dumpAsk_only _ _ _); · decide)
    | with_reducible apply Only.forEach
    | with_reducible apply Only.foldl
    | split
    | refine Only.update (by intro f hf; cases f <;> first | exact absurd (by decide) hf | dsimp only [agree]) ?_
    | (intro _; try dsimp only)

theorem dumpSection_only (p : Params) (x2 : ℕ × ℕ × ℕ × ℕ) (b : Block) :
    Only [.out] b (dumpSection p x2 b) := by
  unfold dumpSection
  try dsimp only
  repeat' first
    | with_reducible apply Only.refl
    | (with_reducible apply Only.next (emit_only _ _); · decide)
    | with_reducible apply Only.foldl
    | split
    | refine Only.update (by intro f hf; cases f <;> first | exact absurd (by decide) hf | dsimp only [agree]) ?_
    | (intro _; try dsimp only)

theorem plainWrite_only (p : Params) (g : Page) (a : ℕ) (v : Word32) (b : Block) :
    Only [.regs, .out] b (plainWrite p g a v b) := by
  unfold plainWrite
  try dsimp only
  repeat' first
    | with_reducible apply Only.refl
    | (with_reducible apply Only.next (wr_only _ _ _ _); · decide)
    | (with_reducible apply Only.next (pgErr_only _ _ _ _); · decide)
    | with_reducible apply Only.when
    | with_reducible apply Only.foldl
    | split
    | refine Only.update (by intro f hf; cases f <;> first | exact absurd (by decide) hf | dsimp only [agree]) ?_
    | (intro _; try dsimp only)

theorem holdOne_only (g : Page) (a : ℕ) (v : Word32) (b : Block) :
    Only [.mgt] b (holdOne g a v b) := by
  unfold holdOne
  try dsimp only
  repeat' first
    | with_reducible apply Only.refl
    | (with_reducible apply Only.next (updMgt_only _ _); · decide)
    | (with_reducible apply Only.next (holdWord_only _ _ _); · decide)
    | with_reducible apply Only.foldl
    | split
    | refine Only.update (by intro f hf; cases f <;> first | exact absurd (by decide) hf | dsimp only [agree]) ?_
    | (intro _; try dsimp only)

theorem multiWrite_only (p : Params) (g : Page) (a : ℕ) (v : Word32) (b : Block) :
    Only [.regs, .out] b (multiWrite p g a v b) := by
  unfold multiWrite
  try dsimp only
  repeat' first
    | with_reducible apply Only.refl
    | (with_reducible apply Only.next (plainWrite_only _ _ _ _ _); · decide)
    | with_reducible apply Only.forEach
    | with_reducible apply Only.foldl
    | split
    | refine Only.update (by intro f hf; cases f <;> first | exact absurd (by decide) hf | dsimp only [agree]) ?_
    | (intro _; try dsimp only)

theorem commitAt_only (p : Params) (w : ℕ) (b : Block) :
    Only [.cmtTs, .iqWork, .rings, .pcls] b (commitAt p w b) := by
  unfold commitAt
  try dsimp only
  repeat' first
    | with_reducible apply Only.refl
    | (with_reducible apply Only.next (updRing_only _ _ _); · decide)
    | (with_reducible apply Only.next (updPcl_only _ _ _); · decide)
    | with_reducible apply Only.when
    | with_reducible apply Only.forEach
    | with_reducible apply Only.foldl
    | split
    | refine Only.update (by intro f hf; cases f <;> first | exact absurd (by decide) hf | dsimp only [agree]) ?_
    | (intro _; try dsimp only)

theorem commitPointAt_only (p : Params) (w : ℕ) (b : Block) :
    Only [.cmtTs, .cmtDue, .iqWork, .rings, .pcls] b (commitPointAt p w b) := by
  unfold commitPointAt
  try dsimp only
  repeat' first
    | with_reducible apply Only.refl
    | (with_reducible apply Only.next (commitAt_only _ _ _); · decide)
    | with_reducible apply Only.foldl
    | split
    | refine Only.update (by intro f hf; cases f <;> first | exact absurd (by decide) hf | dsimp only [agree]) ?_
    | (intro _; try dsimp only)

theorem commitAll_only (p : Params) (b : Block) :
    Only [.cmtTs, .cmtDue, .iqWork, .rings, .pcls] b (commitAll p b) := by
  unfold commitAll
  try dsimp only
  repeat' first
    | with_reducible apply Only.refl
    | (with_reducible apply Only.next (commitPointAt_only _ _ _); · decide)
    | with_reducible apply Only.forEach
    | with_reducible apply Only.foldl
    | split
    | refine Only.update (by intro f hf; cases f <;> first | exact absurd (by decide) hf | dsimp only [agree]) ?_
    | (intro _; try dsimp only)

theorem tenCfgWrite_only (p : Params) (v : Word32) (b : Block) :
    Only [.regs, .tens, .out] b (tenCfgWrite p v b) := by
  unfold tenCfgWrite
  try dsimp only
  repeat' first
    | with_reducible apply Only.refl
    | (with_reducible apply Only.next (updTen_only _ _ _); · decide)
    | (with_reducible apply Only.next (pgErr_only _ _ _ _); · decide)
    | with_reducible apply Only.when
    | with_reducible apply Only.foldl
    | split
    | refine Only.update (by intro f hf; cases f <;> first | exact absurd (by decide) hf | dsimp only [agree]) ?_
    | (intro _; try dsimp only)

theorem tenWrite_only (p : Params) (o : ℕ) (v : Word32) (b : Block) :
    Only [.regs, .tens, .out] b (tenWrite p o v b) := by
  unfold tenWrite
  try dsimp only
  repeat' first
    | with_reducible apply Only.refl
    | (with_reducible apply Only.next (updTen_only _ _ _); · decide)
    | (with_reducible apply Only.next (plainWrite_only _ _ _ _ _); · decide)
    | (with_reducible apply Only.next (tenCfgWrite_only _ _ _); · decide)
    | with_reducible apply Only.foldl
    | split
    | refine Only.update (by intro f hf; cases f <;> first | exact absurd (by decide) hf | dsimp only [agree]) ?_
    | (intro _; try dsimp only)

theorem pclRank_only (c : ℕ) (k : ℕ) (f : Rank → Rank) (b : Block) :
    Only [.pcls] b (pclRank c k f b) := by
  unfold pclRank
  try dsimp only
  repeat' first
    | with_reducible apply Only.refl
    | (with_reducible apply Only.next (updPcl_only _ _ _); · decide)
    | with_reducible apply Only.foldl
    | split
    | refine Only.update (by intro f hf; cases f <;> first | exact absurd (by decide) hf | dsimp only [agree]) ?_
    | (intro _; try dsimp only)

theorem pclWrite_only (p : Params) (o : ℕ) (v : Word32) (b : Block) :
    Only [.regs, .pcls, .out] b (pclWrite p o v b) := by
  unfold pclWrite
  try dsimp only
  repeat' first
    | with_reducible apply Only.refl
    | (with_reducible apply Only.next (updPcl_only _ _ _); · decide)
    | (with_reducible apply Only.next (plainWrite_only _ _ _ _ _); · decide)
    | (with_reducible apply Only.next (pclRank_only _ _ _ _); · decide)
    | with_reducible apply Only.foldl
    | split
    | refine Only.update (by intro f hf; cases f <;> first | exact absurd (by decide) hf | dsimp only [agree]) ?_
    | (intro _; try dsimp only)

theorem govWrite_only (p : Params) (o : ℕ) (v : Word32) (b : Block) :
    Only [.regs, .gov, .out] b (govWrite p o v b) := by
  unfold govWrite
  try dsimp only
  repeat' first
    | with_reducible apply Only.refl
    | (with_reducible apply Only.next (updDom_only _ _ _); · decide)
    | (with_reducible apply Only.next (plainWrite_only _ _ _ _ _); · decide)
    | (with_reducible apply Only.next (multiWrite_only _ _ _ _ _); · decide)
    | with_reducible apply Only.foldl
    | split
    | refine Only.update (by intro f hf; cases f <;> first | exact absurd (by decide) hf | dsimp only [agree]) ?_
    | (intro _; try dsimp only)

theorem routeWrite_only (p : Params) (v : Word32) (b : Block) :
    Only [.regs, .routes, .out] b (routeWrite p v b) := by
  unfold routeWrite
  try dsimp only
  repeat' first
    | with_reducible apply Only.refl
    | (with_reducible apply Only.next (pgErr_only _ _ _ _); · decide)
    | with_reducible apply Only.foldl
    | split
    | refine Only.update (by intro f hf; cases f <;> first | exact absurd (by decide) hf | dsimp only [agree]) ?_
    | (intro _; try dsimp only)

theorem capClear_only (v : Word32) (b : Block) :
    Only [.cap] b (capClear v b) := by
  unfold capClear
  try dsimp only
  repeat' first
    | with_reducible apply Only.refl
    | with_reducible apply Only.when
    | with_reducible apply Only.foldl
    | split
    | refine Only.update (by intro f hf; cases f <;> first | exact absurd (by decide) hf | dsimp only [agree]) ?_
    | (intro _; try dsimp only)

theorem hangClear_only (v : Word32) (b : Block) :
    Only [.hang] b (hangClear v b) := by
  unfold hangClear
  try dsimp only
  repeat' first
    | with_reducible apply Only.refl
    | with_reducible apply Only.when
    | with_reducible apply Only.foldl
    | split
    | refine Only.update (by intro f hf; cases f <;> first | exact absurd (by decide) hf | dsimp only [agree]) ?_
    | (intro _; try dsimp only)

theorem keeper0_only (p : Params) (o : ℕ) (v : Word32) (b : Block) :
    Only [.boot, .regs, .cnt, .cmtTs, .cmtDue, .iqWork, .rings, .pcls, .hg, .unreach, .out] b (keeper0 p o v b) := by
  unfold keeper0
  try dsimp only
  repeat' first
    | with_reducible apply Only.refl
    | (with_reducible apply Only.next (kctrlWrite_only _ _ _); · decide)
    | (with_reducible apply Only.next (kbootWrite_only _ _); · decide)
    | (with_reducible apply Only.next (plainWrite_only _ _ _ _ _); · decide)
    | (with_reducible apply Only.next (multiWrite_only _ _ _ _ _); · decide)
    | (with_reducible apply Only.next (commitAll_only _ _); · decide)
    | with_reducible apply Only.when
    | with_reducible apply Only.foldl
    | split
    | refine Only.update (by intro f hf; cases f <;> first | exact absurd (by decide) hf | dsimp only [agree]) ?_
    | (intro _; try dsimp only)

theorem keeper5_only (p : Params) (o : ℕ) (v : Word32) (b : Block) :
    Only [.clk, .regs, .cnt, .cmtDue, .ents, .rings, .tdone, .segs, .entq, .hasps, .waits, .chans, .preIgnored, .resumeQ, .hg, .log, .trace, .tally, .xbar, .out] b (keeper5 p o v b) := by
  unfold keeper5
  try dsimp only
  repeat' first
    | with_reducible apply Only.refl
    | (with_reducible apply Only.next (haspAssignAt_only _ _ _); · decide)
    | (with_reducible apply Only.next (haspForceAt_only _ _); · decide)
    | (with_reducible apply Only.next (preCtrl_only _ _ _); · decide)
    | (with_reducible apply Only.next (plainWrite_only _ _ _ _ _); · decide)
    | (with_reducible apply Only.next (multiWrite_only _ _ _ _ _); · decide)
    | with_reducible apply Only.when
    | with_reducible apply Only.foldl
    | split
    | refine Only.update (by intro f hf; cases f <;> first | exact absurd (by decide) hf | dsimp only [agree]) ?_
    | (intro _; try dsimp only)

theorem keeper8_only (p : Params) (o : ℕ) (v : Word32) (b : Block) :
    Only [.regs, .dbolt, .hang, .blk, .out] b (keeper8 p o v b) := by
  unfold keeper8
  try dsimp only
  repeat' first
    | with_reducible apply Only.refl
    | (with_reducible apply Only.next (dbStatWrite_only _ _); · decide)
    | (with_reducible apply Only.next (blkOrder_only _); · decide)
    | (with_reducible apply Only.next (plainWrite_only _ _ _ _ _); · decide)
    | (with_reducible apply Only.next (hangClear_only _ _); · decide)
    | with_reducible apply Only.when
    | with_reducible apply Only.foldl
    | split
    | refine Only.update (by intro f hf; cases f <;> first | exact absurd (by decide) hf | dsimp only [agree]) ?_
    | (intro _; try dsimp only)

theorem cntCtrl_only (p : Params) (v : Word32) (b : Block) :
    Only [.clk, .regs, .cnt, .snapAt, .gov, .log, .out] b (cntCtrl p v b) := by
  unfold cntCtrl
  try dsimp only
  repeat' first
    | with_reducible apply Only.refl
    | (with_reducible apply Only.next (clearKeeper_only _); · decide)
    | (with_reducible apply Only.next (snapOrder_only _); · decide)
    | (with_reducible apply Only.next (plainWrite_only _ _ _ _ _); · decide)
    | with_reducible apply Only.when
    | with_reducible apply Only.foldl
    | split
    | refine Only.update (by intro f hf; cases f <;> first | exact absurd (by decide) hf | dsimp only [agree]) ?_
    | (intro _; try dsimp only)

theorem keeperWrite_only (p : Params) (q : ℕ) (o : ℕ) (v : Word32) (b : Block) :
    Only [.clk, .boot, .regs, .cnt, .snapAt, .cmtTs, .cmtDue, .iqWork, .ents, .gov, .rings, .tdone, .tens, .segs, .entq, .pcls, .hasps, .waits, .chans, .preIgnored, .resumeQ, .hg, .routes, .unreach, .log, .dbolt, .hang, .cap, .blk, .trace, .tally, .xbar, .out] b (keeperWrite p q o v b) := by
  unfold keeperWrite
  try dsimp only
  repeat' first
    | with_reducible apply Only.refl
    | (with_reducible apply Only.next (ringWrite_only _ _ _ _); · decide)
    | (with_reducible apply Only.next (logCtrl_only _ _); · decide)
    | (with_reducible apply Only.next (lrCtrl_only _ _); · decide)
    | (with_reducible apply Only.next (plainWrite_only _ _ _ _ _); · decide)
    | (with_reducible apply Only.next (multiWrite_only _ _ _ _ _); · decide)
    | (with_reducible apply Only.next (tenWrite_only _ _ _ _); · decide)
    | (with_reducible apply Only.next (pclWrite_only _ _ _ _); · decide)
    | (with_reducible apply Only.next (govWrite_only _ _ _ _); · decide)
    | (with_reducible apply Only.next (routeWrite_only _ _ _); · decide)
    | (with_reducible apply Only.next (capClear_only _ _); · decide)
    | (with_reducible apply Only.next (keeper0_only _ _ _ _); · decide)
    | (with_reducible apply Only.next (keeper5_only _ _ _ _); · decide)
    | (with_reducible apply Only.next (keeper8_only _ _ _ _); · decide)
    | (with_reducible apply Only.next (cntCtrl_only _ _ _); · decide)
    | with_reducible apply Only.foldl
    | split
    | refine Only.update (by intro f hf; cases f <;> first | exact absurd (by decide) hf | dsimp only [agree]) ?_
    | (intro _; try dsimp only)

theorem slotRegWrite_only (p : Params) (w : ℕ) (o : ℕ) (v : Word32) (b : Block) :
    Only [.clk, .regs, .slots, .out] b (slotRegWrite p w o v b) := by
  unfold slotRegWrite
  try dsimp only
  repeat' first
    | with_reducible apply Only.refl
    | (with_reducible apply Only.next (updSlot_only _ _ _ _); · decide)
    | (with_reducible apply Only.next (slotRank_only _); · decide)
    | (with_reducible apply Only.next (plainWrite_only _ _ _ _ _); · decide)
    | with_reducible apply Only.foldl
    | split
    | refine Only.update (by intro f hf; cases f <;> first | exact absurd (by decide) hf | dsimp only [agree]) ?_
    | (intro _; try dsimp only)

theorem iqCfgWrite_only (p : Params) (w : ℕ) (v : Word32) (b : Block) :
    Only [.regs, .out] b (iqCfgWrite p w v b) := by
  unfold iqCfgWrite
  try dsimp only
  repeat' first
    | with_reducible apply Only.refl
    | (with_reducible apply Only.next (plainWrite_only _ _ _ _ _); · decide)
    | with_reducible apply Only.foldl
    | split
    | refine Only.update (by intro f hf; cases f <;> first | exact absurd (by decide) hf | dsimp only [agree]) ?_
    | (intro _; try dsimp only)

theorem evRelease_only (w : ℕ) (p : Params) (b : Block) :
    Only [.mgt] b (evRelease w p b) := by
  unfold evRelease
  try dsimp only
  repeat' first
    | with_reducible apply Only.refl
    | (with_reducible apply Only.next (updMgt_only _ _); · decide)
    | with_reducible apply Only.foldl
    | split
    | refine Only.update (by intro f hf; cases f <;> first | exact absurd (by decide) hf | dsimp only [agree]) ?_
    | (intro _; try dsimp only)

theorem wardMq_only (p : Params) (w : ℕ) (o : ℕ) (v : Word32) (b : Block) :
    Only [.regs, .ports, .mq, .mqPop, .out] b (wardMq p w o v b) := by
  unfold wardMq
  try dsimp only
  repeat' first
    | with_reducible apply Only.refl
    | (with_reducible apply Only.next (updMQ_only _ _ _ _); · decide)
    | (with_reducible apply Only.next (mqCfgAt_only _ _ _ _); · decide)
    | (with_reducible apply Only.next (mqPushAt_only _ _ _ _); · decide)
    | (with_reducible apply Only.next (mqPopAt_only _ _ _); · decide)
    | (with_reducible apply Only.next (mqFlushAt_only _ _ _); · decide)
    | (with_reducible apply Only.next (plainWrite_only _ _ _ _ _); · decide)
    | with_reducible apply Only.when
    | with_reducible apply Only.foldl
    | split
    | refine Only.update (by intro f hf; cases f <;> first | exact absurd (by decide) hf | dsimp only [agree]) ?_
    | (intro _; try dsimp only)

theorem wardKey_only (p : Params) (w : ℕ) (o : ℕ) (v : Word32) (b : Block) :
    Only [.regs, .cnt, .ports, .kpool, .out] b (wardKey p w o v b) := by
  unfold wardKey
  try dsimp only
  repeat' first
    | with_reducible apply Only.refl
    | (with_reducible apply Only.next (keyCfgAt_only _ _ _ _ _); · decide)
    | (with_reducible apply Only.next (keyResetAt_only _ _ _); · decide)
    | (with_reducible apply Only.next (plainWrite_only _ _ _ _ _); · decide)
    | with_reducible apply Only.when
    | with_reducible apply Only.foldl
    | split
    | refine Only.update (by intro f hf; cases f <;> first | exact absurd (by decide) hf | dsimp only [agree]) ?_
    | (intro _; try dsimp only)

theorem wardRegWrite_only (p : Params) (q : ℕ) (o : ℕ) (v : Word32) (w : ℕ) (b : Block) :
    Only [.clk, .mgt, .regs, .cnt, .slots, .ports, .kpool, .mq, .mqPop, .out] b (wardRegWrite p q o v w b) := by
  unfold wardRegWrite
  try dsimp only
  repeat' first
    | with_reducible apply Only.refl
    | (with_reducible apply Only.next (clearPage_only _ _); · decide)
    | (with_reducible apply Only.next (plainWrite_only _ _ _ _ _); · decide)
    | (with_reducible apply Only.next (multiWrite_only _ _ _ _ _); · decide)
    | (with_reducible apply Only.next (slotRegWrite_only _ _ _ _ _); · decide)
    | (with_reducible apply Only.next (iqCfgWrite_only _ _ _ _); · decide)
    | (with_reducible apply Only.next (evRelease_only _ _ _); · decide)
    | (with_reducible apply Only.next (wardMq_only _ _ _ _ _); · decide)
    | (with_reducible apply Only.next (wardKey_only _ _ _ _ _); · decide)
    | with_reducible apply Only.foldl
    | split
    | refine Only.update (by intro f hf; cases f <;> first | exact absurd (by decide) hf | dsimp only [agree]) ?_
    | (intro _; try dsimp only)

theorem hingeRegWrite_only (p : Params) (h : ℕ) (o : ℕ) (v : Word32) (b : Block) :
    Only [.clk, .regs, .cnt, .hg, .out] b (hingeRegWrite p h o v b) := by
  unfold hingeRegWrite
  try dsimp only
  repeat' first
    | with_reducible apply Only.refl
    | (with_reducible apply Only.next (hgCtrl_only _ _ _ _); · decide)
    | (with_reducible apply Only.next (tsStatWrite_only _ _ _); · decide)
    | (with_reducible apply Only.next (clearPage_only _ _); · decide)
    | (with_reducible apply Only.next (plainWrite_only _ _ _ _ _); · decide)
    | with_reducible apply Only.when
    | with_reducible apply Only.foldl
    | split
    | refine Only.update (by intro f hf; cases f <;> first | exact absurd (by decide) hf | dsimp only [agree]) ?_
    | (intro _; try dsimp only)

theorem traceWrite_only (p : Params) (o : ℕ) (v : Word32) (b : Block) :
    Only [.regs, .trace, .out] b (traceWrite p o v b) := by
  unfold traceWrite
  try dsimp only
  repeat' first
    | with_reducible apply Only.refl
    | (with_reducible apply Only.next (pgErr_only _ _ _ _); · decide)
    | (with_reducible apply Only.next (trCtrl_only _ _ _); · decide)
    | (with_reducible apply Only.next (plainWrite_only _ _ _ _ _); · decide)
    | (with_reducible apply Only.next (multiWrite_only _ _ _ _ _); · decide)
    | with_reducible apply Only.foldl
    | split
    | refine Only.update (by intro f hf; cases f <;> first | exact absurd (by decide) hf | dsimp only [agree]) ?_
    | (intro _; try dsimp only)

theorem dumpWrite_only (p : Params) (o : ℕ) (v : Word32) (b : Block) :
    Only [.regs, .dump, .out] b (dumpWrite p o v b) := by
  unfold dumpWrite
  try dsimp only
  repeat' first
    | with_reducible apply Only.refl
    | (with_reducible apply Only.next (dumpStart_only _ _); · decide)
    | (with_reducible apply Only.next (plainWrite_only _ _ _ _ _); · decide)
    | (with_reducible apply Only.next (multiWrite_only _ _ _ _ _); · decide)
    | with_reducible apply Only.when
    | with_reducible apply Only.foldl
    | split
    | refine Only.update (by intro f hf; cases f <;> first | exact absurd (by decide) hf | dsimp only [agree]) ?_
    | (intro _; try dsimp only)

theorem tenantWrite_only (p : Params) (t : ℕ) (o : ℕ) (v : Word32) (b : Block) :
    Only [.clk, .regs, .cnt, .cmtDue, .ents, .ports, .rings, .tdone, .segs, .entq, .waits, .chans, .cq, .cbParts, .resumeQ, .hg, .log, .evr, .trace, .watch, .tally, .xbar, .out] b (tenantWrite p t o v b) := by
  unfold tenantWrite
  try dsimp only
  repeat' first
    | with_reducible apply Only.refl
    | (with_reducible apply Only.next (setBits_only _ _ _ _); · decide)
    | (with_reducible apply Only.next (ringBell_only _ _ _ _ _); · decide)
    | (with_reducible apply Only.next (ringCtrl_only _ _ _ _ _ _); · decide)
    | (with_reducible apply Only.next (plainWrite_only _ _ _ _ _); · decide)
    | with_reducible apply Only.when
    | with_reducible apply Only.foldl
    | split
    | refine Only.update (by intro f hf; cases f <;> first | exact absurd (by decide) hf | dsimp only [agree]) ?_
    | (intro _; try dsimp only)

theorem pageWrite_only (p : Params) (g : Page) (o : ℕ) (v : Word32) (b : Block) :
    Only [.clk, .boot, .mgt, .regs, .cnt, .snapAt, .cmtTs, .cmtDue, .iqWork, .ents, .slots, .ports, .gov, .rings, .tdone, .tens, .segs, .entq, .pcls, .hasps, .waits, .kpool, .mq, .mqPop, .chans, .cq, .cbParts, .preIgnored, .resumeQ, .hg, .routes, .unreach, .log, .dbolt, .hang, .dump, .cap, .evr, .blk, .trace, .watch, .tally, .xbar, .out] b (pageWrite p g o v b) := by
  unfold pageWrite
  try dsimp only
  repeat' first
    | with_reducible apply Only.refl
    | (with_reducible apply Only.next (pgErr_only _ _ _ _); · decide)
    | (with_reducible apply Only.next (keeperWrite_only _ _ _ _ _); · decide)
    | (with_reducible apply Only.next (wardRegWrite_only _ _ _ _ _ _); · decide)
    | (with_reducible apply Only.next (hingeRegWrite_only _ _ _ _ _); · decide)
    | (with_reducible apply Only.next (traceWrite_only _ _ _ _); · decide)
    | (with_reducible apply Only.next (dumpWrite_only _ _ _ _); · decide)
    | (with_reducible apply Only.next (tenantWrite_only _ _ _ _ _); · decide)
    | with_reducible apply Only.foldl
    | split
    | refine Only.update (by intro f hf; cases f <;> first | exact absurd (by decide) hf | dsimp only [agree]) ?_
    | (intro _; try dsimp only)

theorem mgtResp_only (r : AxiResp) (b : Block) :
    Only [.mgt] b (mgtResp r b) := by
  unfold mgtResp
  try dsimp only
  repeat' first
    | with_reducible apply Only.refl
    | (with_reducible apply Only.next (updMgt_only _ _); · decide)
    | with_reducible apply Only.foldl
    | split
    | refine Only.update (by intro f hf; cases f <;> first | exact absurd (by decide) hf | dsimp only [agree]) ?_
    | (intro _; try dsimp only)

theorem oneWrite_only (p : Params) (g : Page) (a : ℕ) (v : Word32) (b : Block) :
    Only [.clk, .boot, .mgt, .regs, .cnt, .snapAt, .cmtTs, .cmtDue, .iqWork, .ents, .slots, .ports, .gov, .rings, .tdone, .tens, .segs, .entq, .pcls, .hasps, .waits, .kpool, .mq, .mqPop, .chans, .cq, .cbParts, .preIgnored, .resumeQ, .hg, .routes, .unreach, .log, .dbolt, .hang, .dump, .cap, .evr, .blk, .trace, .watch, .tally, .xbar, .out] b (oneWrite p g a v b) := by
  unfold oneWrite
  try dsimp only
  repeat' first
    | with_reducible apply Only.refl
    | (with_reducible apply Only.next (pgErr_only _ _ _ _); · decide)
    | (with_reducible apply Only.next (dropHeld_only _ _); · decide)
    | (with_reducible apply Only.next (holdOne_only _ _ _ _); · decide)
    | (with_reducible apply Only.next (pageWrite_only _ _ _ _ _); · decide)
    | with_reducible apply Only.foldl
    | split
    | refine Only.update (by intro f hf; cases f <;> first | exact absurd (by decide) hf | dsimp only [agree]) ?_
    | (intro _; try dsimp only)

theorem winWrite_only (p : Params) (t : WTarget) (q : ℕ) (a : ℕ) (v : Word32) (b : Block) :
    Only [.clk, .boot, .mgt, .regs, .cnt, .snapAt, .cmtTs, .cmtDue, .iqWork, .ents, .slots, .ports, .gov, .rings, .tdone, .tens, .segs, .entq, .pcls, .hasps, .waits, .kpool, .mq, .mqPop, .chans, .cq, .cbParts, .preIgnored, .resumeQ, .hg, .routes, .unreach, .log, .dbolt, .hang, .dump, .cap, .evr, .blk, .trace, .watch, .tally, .xbar, .out] b (winWrite p t q a v b) := by
  unfold winWrite
  try dsimp only
  repeat' first
    | with_reducible apply Only.refl
    | (with_reducible apply Only.next (pgErr_only _ _ _ _); · decide)
    | (with_reducible apply Only.next (oneWrite_only _ _ _ _ _); · decide)
    | with_reducible apply Only.forEach
    | with_reducible apply Only.foldl
    | split
    | refine Only.update (by intro f hf; cases f <;> first | exact absurd (by decide) hf | dsimp only [agree]) ?_
    | (intro _; try dsimp only)

theorem regEffect_only (p : Params) (g : Page) (a : ℕ) (v : Word32) (b : Block) :
    Only [.clk, .boot, .mgt, .regs, .cnt, .snapAt, .cmtTs, .cmtDue, .iqWork, .ents, .slots, .ports, .gov, .rings, .tdone, .tens, .segs, .entq, .pcls, .hasps, .waits, .kpool, .mq, .mqPop, .chans, .cq, .cbParts, .preIgnored, .resumeQ, .hg, .routes, .unreach, .log, .dbolt, .hang, .dump, .cap, .evr, .blk, .trace, .watch, .tally, .xbar, .out] b (regEffect p g a v b) := by
  unfold regEffect
  try dsimp only
  repeat' first
    | with_reducible apply Only.refl
    | (with_reducible apply Only.next (dropHeld_only _ _); · decide)
    | (with_reducible apply Only.next (plainWrite_only _ _ _ _ _); · decide)
    | (with_reducible apply Only.next (oneWrite_only _ _ _ _ _); · decide)
    | (with_reducible apply Only.next (winWrite_only _ _ _ _ _ _); · decide)
    | with_reducible apply Only.foldl
    | split
    | refine Only.update (by intro f hf; cases f <;> first | exact absurd (by decide) hf | dsimp only [agree]) ?_
    | (intro _; try dsimp only)

theorem mgtWrite_only (p : Params) (a : ℕ) (v : Word32) (b : Block) :
    Only [.clk, .boot, .mgt, .regs, .cnt, .snapAt, .cmtTs, .cmtDue, .iqWork, .ents, .slots, .ports, .gov, .rings, .tdone, .tens, .segs, .entq, .pcls, .hasps, .waits, .kpool, .mq, .mqPop, .chans, .cq, .cbParts, .preIgnored, .resumeQ, .hg, .routes, .unreach, .log, .dbolt, .hang, .dump, .cap, .evr, .blk, .trace, .watch, .tally, .xbar, .out] b (mgtWrite p a v b) := by
  unfold mgtWrite
  try dsimp only
  repeat' first
    | with_reducible apply Only.refl
    | (with_reducible apply Only.next (updMgt_only _ _); · decide)
    | (with_reducible apply Only.next (mgtResp_only _ _); · decide)
    | (with_reducible apply Only.next (regEffect_only _ _ _ _ _); · decide)
    | with_reducible apply Only.foldl
    | split
    | refine Only.update (by intro f hf; cases f <;> first | exact absurd (by decide) hf | dsimp only [agree]) ?_
    | (intro _; try dsimp only)

theorem mgtAccess_only (p : Params) (a : ℕ) (v : Word32) (strb : BitVec 4) (b : Block) :
    Only [.clk, .boot, .mgt, .regs, .cnt, .snapAt, .cmtTs, .cmtDue, .iqWork, .ents, .slots, .ports, .gov, .rings, .tdone, .tens, .segs, .entq, .pcls, .hasps, .waits, .kpool, .mq, .mqPop, .chans, .cq, .cbParts, .preIgnored, .resumeQ, .hg, .routes, .unreach, .log, .dbolt, .hang, .dump, .cap, .evr, .blk, .trace, .watch, .tally, .xbar, .out] b (mgtAccess p a v strb b) := by
  unfold mgtAccess
  try dsimp only
  repeat' first
    | with_reducible apply Only.refl
    | (with_reducible apply Only.next (mgtResp_only _ _); · decide)
    | (with_reducible apply Only.next (mgtWrite_only _ _ _ _); · decide)
    | with_reducible apply Only.foldl
    | split
    | refine Only.update (by intro f hf; cases f <;> first | exact absurd (by decide) hf | dsimp only [agree]) ?_
    | (intro _; try dsimp only)

theorem latchRest_only (p : Params) (g : Page) (a : ℕ) (b : Block) :
    Only [.mgt] b (latchRest p g a b) := by
  unfold latchRest
  try dsimp only
  repeat' first
    | with_reducible apply Only.refl
    | (with_reducible apply Only.next (updMgt_only _ _); · decide)
    | with_reducible apply Only.forEach
    | with_reducible apply Only.foldl
    | split
    | refine Only.update (by intro f hf; cases f <;> first | exact absurd (by decide) hf | dsimp only [agree]) ?_
    | (intro _; try dsimp only)

theorem readEffect_only (p : Params) (g : Page) (o : ℕ) (b : Block) :
    Only [.mgt, .regs, .mqPop] b (readEffect p g o b) := by
  unfold readEffect
  try dsimp only
  repeat' first
    | with_reducible apply Only.refl
    | (with_reducible apply Only.next (setBits_only _ _ _ _); · decide)
    | (with_reducible apply Only.next (updMgt_only _ _); · decide)
    | (with_reducible apply Only.next (mqAdvanceAt_only _ _); · decide)
    | with_reducible apply Only.when
    | with_reducible apply Only.foldl
    | split
    | refine Only.update (by intro f hf; cases f <;> first | exact absurd (by decide) hf | dsimp only [agree]) ?_
    | (intro _; try dsimp only)

theorem readOne_only (p : Params) (g : Page) (a : ℕ) (b : Block) :
    Only [.mgt, .regs, .mqPop, .out] b (readOne p g a b).2 := by
  unfold readOne
  try dsimp only
  repeat' first
    | with_reducible apply Only.refl
    | (with_reducible apply Only.next (updMgt_only _ _); · decide)
    | (with_reducible apply Only.next (pgErr_only _ _ _ _); · decide)
    | (with_reducible apply Only.next (latchRest_only _ _ _ _); · decide)
    | (with_reducible apply Only.next (readEffect_only _ _ _ _); · decide)
    | with_reducible apply Only.foldl
    | split
    | refine Only.update (by intro f hf; cases f <;> first | exact absurd (by decide) hf | dsimp only [agree]) ?_
    | (intro _; try dsimp only)

theorem readMembers_only (p : Params) (q : ℕ) (o : ℕ) (x3 : List ℕ) (x4 : Block) :
    Only [.mgt, .regs, .mqPop, .out] x4 (readMembers p q o x3 x4).2 := by
  induction x3 generalizing x4 with
  | nil =>
    unfold readMembers
    try dsimp only
    repeat' first
        | with_reducible apply Only.refl
        | (with_reducible apply Only.next (readOne_only _ _ _ _); · decide)
        | with_reducible apply Only.foldl
        | split
        | refine Only.update (by intro f hf; cases f <;> first | exact absurd (by decide) hf | dsimp only [agree]) ?_
        | (intro _; try dsimp only)
  | cons a l ih =>
    unfold readMembers
    try dsimp only
    repeat' first
        | (with_reducible apply Only.next (ih _); · decide)
        | with_reducible apply Only.refl
        | (with_reducible apply Only.next (readOne_only _ _ _ _); · decide)
        | with_reducible apply Only.foldl
        | split
        | refine Only.update (by intro f hf; cases f <;> first | exact absurd (by decide) hf | dsimp only [agree]) ?_
        | (intro _; try dsimp only)

theorem readDone_only (v : Word32) (r : AxiResp) (b : Block) :
    Only [.mgt] b (readDone v r b) := by
  unfold readDone
  try dsimp only
  repeat' first
    | with_reducible apply Only.refl
    | (with_reducible apply Only.next (updMgt_only _ _); · decide)
    | with_reducible apply Only.foldl
    | split
    | refine Only.update (by intro f hf; cases f <;> first | exact absurd (by decide) hf | dsimp only [agree]) ?_
    | (intro _; try dsimp only)

theorem winRead_only (p : Params) (t : WTarget) (q : ℕ) (a : ℕ) (b : Block) :
    Only [.mgt, .regs, .mqPop, .out] b (winRead p t q a b) := by
  unfold winRead
  try dsimp only
  repeat' first
    | with_reducible apply Only.refl
    | (with_reducible apply Only.next (updMgt_only _ _); · decide)
    | (with_reducible apply Only.next (readMembers_only _ _ _ _ _); · decide)
    | (with_reducible apply Only.next (readDone_only _ _ _); · decide)
    | with_reducible apply Only.foldl
    | split
    | refine Only.update (by intro f hf; cases f <;> first | exact absurd (by decide) hf | dsimp only [agree]) ?_
    | (intro _; try dsimp only)

theorem readEffects_only (p : Params) (g : Page) (a : ℕ) (b : Block) :
    Only [.mgt, .regs, .mqPop, .out] b (readEffects p g a b) := by
  unfold readEffects
  try dsimp only
  repeat' first
    | with_reducible apply Only.refl
    | (with_reducible apply Only.next (readOne_only _ _ _ _); · decide)
    | (with_reducible apply Only.next (readDone_only _ _ _); · decide)
    | (with_reducible apply Only.next (winRead_only _ _ _ _ _); · decide)
    | with_reducible apply Only.foldl
    | split
    | refine Only.update (by intro f hf; cases f <;> first | exact absurd (by decide) hf | dsimp only [agree]) ?_
    | (intro _; try dsimp only)

theorem mgtRead_only (p : Params) (a : ℕ) (b : Block) :
    Only [.mgt, .regs, .mqPop, .out] b (mgtRead p a b) := by
  unfold mgtRead
  try dsimp only
  repeat' first
    | with_reducible apply Only.refl
    | (with_reducible apply Only.next (updMgt_only _ _); · decide)
    | (with_reducible apply Only.next (mgtResp_only _ _); · decide)
    | (with_reducible apply Only.next (readDone_only _ _ _); · decide)
    | (with_reducible apply Only.next (readEffects_only _ _ _ _); · decide)
    | with_reducible apply Only.foldl
    | split
    | refine Only.update (by intro f hf; cases f <;> first | exact absurd (by decide) hf | dsimp only [agree]) ?_
    | (intro _; try dsimp only)

theorem replayAccess_only (p : Params) (b : Block) :
    Only [.clk, .boot, .mgt, .regs, .cnt, .snapAt, .cmtTs, .cmtDue, .iqWork, .ents, .slots, .ports, .gov, .rings, .tdone, .tens, .segs, .entq, .pcls, .hasps, .waits, .kpool, .mq, .mqPop, .chans, .cq, .cbParts, .preIgnored, .resumeQ, .hg, .routes, .unreach, .log, .dbolt, .hang, .dump, .cap, .evr, .blk, .trace, .watch, .tally, .xbar, .out] b (replayAccess p b) := by
  unfold replayAccess
  try dsimp only
  repeat' first
    | with_reducible apply Only.refl
    | (with_reducible apply Only.next (updMgt_only _ _); · decide)
    | (with_reducible apply Only.next (mgtWrite_only _ _ _ _); · decide)
    | (with_reducible apply Only.next (mgtRead_only _ _ _); · decide)
    | with_reducible apply Only.foldl
    | split
    | refine Only.update (by intro f hf; cases f <;> first | exact absurd (by decide) hf | dsimp only [agree]) ?_
    | (intro _; try dsimp only)

theorem countPort_only (p : Params) (n : ℕ) (b : Block) :
    Only [.cnt, .ports] b (countPort p n b) := by
  unfold countPort
  try dsimp only
  repeat' first
    | with_reducible apply Only.refl
    | (with_reducible apply Only.next (updPort_only _ _ _); · decide)
    | (with_reducible apply Only.next (bump_only _ _ _); · decide)
    | with_reducible apply Only.when
    | with_reducible apply Only.foldl
    | split
    | refine Only.update (by intro f hf; cases f <;> first | exact absurd (by decide) hf | dsimp only [agree]) ?_
    | (intro _; try dsimp only)

theorem cycleClose_only (p : Params) (b : Block) :
    Only [.clk, .cnt, .cntSh, .snapAt, .snapTs, .cmtTs, .cmtDue, .iqWork, .ports, .gov, .arb, .rings, .pcls, .log, .dbolt, .blk] b (cycleClose p b) := by
  unfold cycleClose
  try dsimp only
  repeat' first
    | with_reducible apply Only.refl
    | (with_reducible apply Only.next (logCycle_only _); · decide)
    | (with_reducible apply Only.next (reportReady_only _ _); · decide)
    | (with_reducible apply Only.next (drainWatch_only _ _); · decide)
    | (with_reducible apply Only.next (clearCycle_only _); · decide)
    | (with_reducible apply Only.next (snapCycle_only _); · decide)
    | (with_reducible apply Only.next (blkCycle_only _ _); · decide)
    | (with_reducible apply Only.next (commitPointAt_only _ _ _); · decide)
    | (with_reducible apply Only.next (countPort_only _ _ _); · decide)
    | with_reducible apply Only.forEach
    | with_reducible apply Only.foldl
    | split
    | refine Only.update (by intro f hf; cases f <;> first | exact absurd (by decide) hf | dsimp only [agree]) ?_
    | (intro _; try dsimp only)

theorem cycleEnd_only (p : Params) (b : Block) :
    Only [.clk, .regs, .cnt, .cntSh, .snapAt, .snapTs, .cmtTs, .cmtDue, .iqWork, .ents, .slots, .ports, .gov, .arb, .rings, .tdone, .pcls, .waits, .mq, .chans, .resumeQ, .hg, .log, .dbolt, .evr, .blk, .trace, .watch, .tally, .xbar, .out] b (cycleEnd p b) := by
  unfold cycleEnd
  try dsimp only
  repeat' first
    | with_reducible apply Only.refl
    | (with_reducible apply Only.next (drainExam_only _ _); · decide)
    | (with_reducible apply Only.next (govCycle_only _ _); · decide)
    | (with_reducible apply Only.next (mqCycle_only _ _); · decide)
    | (with_reducible apply Only.next (selectWaits_only _); · decide)
    | (with_reducible apply Only.next (deliverDue_only _ _ _); · decide)
    | (with_reducible apply Only.next (cycleClose_only _ _); · decide)
    | with_reducible apply Only.foldl
    | split
    | refine Only.update (by intro f hf; cases f <;> first | exact absurd (by decide) hf | dsimp only [agree]) ?_
    | (intro _; try dsimp only)

theorem hangTick_only (p : Params) (r : ℕ) (b : Block) :
    Only [.rings] b (hangTick p r b) := by
  unfold hangTick
  try dsimp only
  repeat' first
    | with_reducible apply Only.refl
    | (with_reducible apply Only.next (updRing_only _ _ _); · decide)
    | with_reducible apply Only.when
    | with_reducible apply Only.foldl
    | split
    | refine Only.update (by intro f hf; cases f <;> first | exact absurd (by decide) hf | dsimp only [agree]) ?_
    | (intro _; try dsimp only)

theorem tclkEdge_only (p : Params) (b : Block) :
    Only [.clk, .rings] b (tclkEdge p b) := by
  unfold tclkEdge
  try dsimp only
  repeat' first
    | with_reducible apply Only.refl
    | (with_reducible apply Only.next (updClk_only _ _); · decide)
    | (with_reducible apply Only.next (hangTick_only _ _ _); · decide)
    | with_reducible apply Only.when
    | with_reducible apply Only.forEach
    | with_reducible apply Only.foldl
    | split
    | refine Only.update (by intro f hf; cases f <;> first | exact absurd (by decide) hf | dsimp only [agree]) ?_
    | (intro _; try dsimp only)

theorem sclkEdge_only (b : Block) :
    Only [.meter] b (sclkEdge b) := by
  unfold sclkEdge
  try dsimp only
  repeat' first
    | with_reducible apply Only.refl
    | (with_reducible apply Only.next (updMeter_only _ _); · decide)
    | with_reducible apply Only.foldl
    | split
    | refine Only.update (by intro f hf; cases f <;> first | exact absurd (by decide) hf | dsimp only [agree]) ?_
    | (intro _; try dsimp only)

theorem clockEdge_only (p : Params) (b : Block) :
    Only [.clk, .cnt, .ports, .rings, .segs, .entq, .hg, .dbolt, .dump, .meter, .out] b (clockEdge p b) := by
  unfold clockEdge
  try dsimp only
  repeat' first
    | with_reducible apply Only.refl
    | (with_reducible apply Only.next (updClk_only _ _); · decide)
    | (with_reducible apply Only.next (faultEdge_only _ _); · decide)
    | (with_reducible apply Only.next (dumpFreeze_only _ _); · decide)
    | (with_reducible apply Only.next (tclkEdge_only _ _); · decide)
    | (with_reducible apply Only.next (sclkEdge_only _); · decide)
    | with_reducible apply Only.when
    | with_reducible apply Only.foldl
    | split
    | refine Only.update (by intro f hf; cases f <;> first | exact absurd (by decide) hf | dsimp only [agree]) ?_
    | (intro _; try dsimp only)

theorem tick_only (p : Params) (b : Block) :
    Only [.clk, .regs, .cnt, .cntSh, .snapAt, .snapTs, .cmtTs, .cmtDue, .iqWork, .ents, .slots, .ports, .gov, .arb, .rings, .tdone, .segs, .entq, .pcls, .waits, .mq, .chans, .resumeQ, .hg, .log, .dbolt, .dump, .evr, .blk, .trace, .watch, .tally, .meter, .xbar, .out] b (tick p b) := by
  unfold tick
  try dsimp only
  repeat' first
    | with_reducible apply Only.refl
    | (with_reducible apply Only.next (cycleEnd_only _ _); · decide)
    | (with_reducible apply Only.next (clockEdge_only _ _); · decide)
    | with_reducible apply Only.when
    | with_reducible apply Only.foldl
    | split
    | refine Only.update (by intro f hf; cases f <;> first | exact absurd (by decide) hf | dsimp only [agree]) ?_
    | (intro _; try dsimp only)

theorem earlier_only (p : Params) (t : Turn) (b : Block) :
    Only [.regs, .cnt, .slots, .ports, .rings, .xbar] b (earlier p t b) := by
  unfold earlier
  try dsimp only
  repeat' first
    | with_reducible apply Only.refl
    | (with_reducible apply Only.next (deliverDue_only _ _ _); · decide)
    | with_reducible apply Only.foldl
    | split
    | refine Only.update (by intro f hf; cases f <;> first | exact absurd (by decide) hf | dsimp only [agree]) ?_
    | (intro _; try dsimp only)

end Sys2Proof.Machine
end

