-- ==== Sys2Proof/Laws/KeepsOps.lean ====
section
/-! SUPPORT. Each operation keeps the block sound: the getters and setters, counters, interrupts, register access and reports. -/

namespace Sys2Proof.Machine

set_option linter.all false

theorem wr_keeps (p : Params) (a : ℕ) (v : Word32) (b : Block) :
    Keeps p b (wr p a v b) := Keeps.regSet (Keeps.refl _ _)

theorem setBits_keeps (p : Params) (a : ℕ) (m : Word32) (b : Block) :
    Keeps p b (setBits p a m b) := by
  unfold setBits
  try dsimp only
  repeat' first
    | with_reducible apply Keeps.refl
    | with_reducible apply Keeps.next (wr_keeps _ _ _ _)
    | with_reducible apply Keeps.foldl
    | split
    | (intro _; try dsimp only)

theorem tookSeq_keeps (p : Params) (b : Block) :
    Keeps p b (tookSeq b) :=
  Keeps.free (Only.mono (tookSeq_only _) (by decide)) (Keeps.refl _ _)

theorem updEnt_keeps (p : Params) (h : ℕ) (f : Entry → Entry) (b : Block) :
    Keeps p b (updEnt h f b) := Keeps.upd_ents (Keeps.refl _ _)

theorem updPort_keeps (p : Params) (n : ℕ) (f : Port → Port) (b : Block) :
    Keeps p b (updPort n f b) := Keeps.upd_ports (Keeps.refl _ _)

theorem updRing_keeps (p : Params) (r : ℕ) (f : Ring → Ring) (b : Block) :
    Keeps p b (updRing r f b) := Keeps.upd_rings (Keeps.refl _ _)

theorem updWalk_keeps (p : Params) (r : ℕ) (f : Walk → Walk) (b : Block) :
    Keeps p b (updWalk r f b) := by
  unfold updWalk
  try dsimp only
  repeat' first
    | with_reducible apply Keeps.refl
    | with_reducible apply Keeps.next (updRing_keeps p _ _ _)
    | with_reducible apply Keeps.foldl
    | split
    | (intro _; try dsimp only)

theorem updTen_keeps (p : Params) (t : ℕ) (f : Tenant → Tenant) (b : Block) :
    Keeps p b (updTen t f b) := Keeps.upd_tens (Keeps.refl _ _)

theorem updSlot_keeps (p : Params) (w : ℕ) (n : ℕ) (f : Slot → Slot) (b : Block) :
    Keeps p b (updSlot w n f b) := Keeps.upd_slots (Keeps.refl _ _)

theorem updMQ_keeps (p : Params) (w : ℕ) (q : ℕ) (f : MQ → MQ) (b : Block) :
    Keeps p b (updMQ w q f b) := Keeps.upd_mq (Keeps.refl _ _)

theorem updCQ_keeps (p : Params) (w : ℕ) (q : ℕ) (f : CQ → CQ) (b : Block) :
    Keeps p b (updCQ w q f b) := Keeps.upd_cq (Keeps.refl _ _)

theorem updHasp_keeps (p : Params) (h : ℕ) (f : Hasp → Hasp) (b : Block) :
    Keeps p b (updHasp h f b) := Keeps.upd_hasps (Keeps.refl _ _)

theorem updKPool_keeps (p : Params) (n : ℕ) (k : ℕ) (f : KPool → KPool) (b : Block) :
    Keeps p b (updKPool n k f b) := Keeps.upd_kpool (Keeps.refl _ _)

theorem setChan_keeps (p : Params) (c : ℕ) (v : Option Chan) (b : Block) :
    Keeps p b (setChan c v b) := Keeps.set_chans (Keeps.refl _ _)

theorem updHinge_keeps (p : Params) (h : ℕ) (f : Hinge → Hinge) (b : Block) :
    Keeps p b (updHinge h f b) := Keeps.upd_hg (Keeps.refl _ _)

theorem updPcl_keeps (p : Params) (c : ℕ) (f : PClass → PClass) (b : Block) :
    Keeps p b (updPcl c f b) := Keeps.upd_pcls (Keeps.refl _ _)

theorem updDom_keeps (p : Params) (d : ℕ) (f : Dom → Dom) (b : Block) :
    Keeps p b (updDom d f b) :=
  Keeps.free (Only.mono (updDom_only _ _ _) (by decide)) (Keeps.refl _ _)

theorem updFed_keeps (p : Params) (w : ℕ) (f : FedTab → FedTab) (b : Block) :
    Keeps p b (updFed w f b) := Keeps.upd_fedt (Keeps.refl _ _)

theorem updDb_keeps (p : Params) (f : Dbolt → Dbolt) (b : Block) :
    Keeps p b (updDb f b) :=
  Keeps.free (Only.mono (updDb_only _ _) (by decide)) (Keeps.refl _ _)

theorem updBoot_keeps (p : Params) (f : Boot → Boot) (b : Block) :
    Keeps p b (updBoot f b) :=
  Keeps.free (Only.mono (updBoot_only _ _) (by decide)) (Keeps.refl _ _)

theorem updClk_keeps (p : Params) (f : Clk → Clk) (b : Block) :
    Keeps p b (updClk f b) :=
  Keeps.free (Only.mono (updClk_only _ _) (by decide)) (Keeps.refl _ _)

theorem updMgt_keeps (p : Params) (f : Mgt → Mgt) (b : Block) :
    Keeps p b (updMgt f b) :=
  Keeps.free (Only.mono (updMgt_only _ _) (by decide)) (Keeps.refl _ _)

theorem updTr_keeps (p : Params) (f : Trace → Trace) (b : Block) :
    Keeps p b (updTr f b) :=
  Keeps.free (Only.mono (updTr_only _ _) (by decide)) (Keeps.refl _ _)

theorem updMeter_keeps (p : Params) (f : Meter → Meter) (b : Block) :
    Keeps p b (updMeter f b) :=
  Keeps.free (Only.mono (updMeter_only _ _) (by decide)) (Keeps.refl _ _)

theorem emit_keeps (p : Params) (o : Out) (b : Block) :
    Keeps p b (emit o b) :=
  Keeps.free (Only.mono (emit_only _ _) (by decide)) (Keeps.refl _ _)

theorem postW_keeps (p : Params) (w : ℕ) (addr : ℕ) (len : ℕ) (data : ℕ) (t : ℕ) (be : Bool) (b : Block) :
    Keeps p b (postW p w addr len data t be b) :=
  Keeps.free (Only.mono (postW_only _ _ _ _ _ _ _ _) (by decide)) (Keeps.refl _ _)

theorem mpW_keeps (p : Params) (w : ℕ) (addr : ℕ) (len : ℕ) (data : ℕ) (t : ℕ) (be : Bool) (b : Block) :
    Keeps p b (mpW p w addr len data t be b) :=
  Keeps.free (Only.mono (mpW_only _ _ _ _ _ _ _ _) (by decide)) (Keeps.refl _ _)

theorem mpR_keeps (p : Params) (w : ℕ) (addr : ℕ) (t : ℕ) (be : Bool) (b : Block) :
    Keeps p b (mpR p w addr t be b) :=
  Keeps.free (Only.mono (mpR_only _ _ _ _ _ _) (by decide)) (Keeps.refl _ _)

theorem bump_keeps (p : Params) (a : ℕ) (n : ℕ) (b : Block) :
    Keeps p b (bump a n b) := Keeps.set_cnt (Keeps.refl _ _)

theorem voidW_keeps (p : Params) (w : ℕ) (b : Block) :
    Keeps p b (voidW w b) := by
  unfold voidW
  try dsimp only
  repeat' first
    | with_reducible apply Keeps.refl
    | with_reducible apply Keeps.next (bump_keeps p _ _ _)
    | with_reducible apply Keeps.foldl
    | split
    | (intro _; try dsimp only)

theorem voidK_keeps (p : Params) (b : Block) :
    Keeps p b (voidK b) := by
  unfold voidK
  try dsimp only
  repeat' first
    | with_reducible apply Keeps.refl
    | with_reducible apply Keeps.next (bump_keeps p _ _ _)
    | with_reducible apply Keeps.foldl
    | split
    | (intro _; try dsimp only)

theorem msiWrite_keeps (p : Params) (k : ℕ) (b : Block) :
    Keeps p b (msiWrite p k b) :=
  Keeps.free (Only.mono (msiWrite_only _ _ _) (by decide)) (Keeps.refl _ _)

theorem raise_keeps (p : Params) (a : ℕ) (m : Word32) (b : Block) :
    Keeps p b (raise p a m b) := by
  unfold raise
  try dsimp only
  repeat' first
    | with_reducible apply Keeps.refl
    | with_reducible apply Keeps.next (setBits_keeps _ _ _ _)
    | with_reducible apply Keeps.next (msiWrite_keeps _ _ _)
    | with_reducible apply Keeps.when
    | with_reducible apply Keeps.forEach
    | with_reducible apply Keeps.foldl
    | split
    | (intro _; try dsimp only)

theorem raiseK_keeps (p : Params) (i : ℕ) (b : Block) :
    Keeps p b (raiseK p i b) := by
  unfold raiseK
  try dsimp only
  repeat' first
    | with_reducible apply Keeps.refl
    | with_reducible apply Keeps.next (raise_keeps _ _ _ _)
    | with_reducible apply Keeps.foldl
    | split
    | (intro _; try dsimp only)

theorem raiseW_keeps (p : Params) (w : ℕ) (i : ℕ) (b : Block) :
    Keeps p b (raiseW p w i b) := by
  unfold raiseW
  try dsimp only
  repeat' first
    | with_reducible apply Keeps.refl
    | with_reducible apply Keeps.next (raise_keeps _ _ _ _)
    | with_reducible apply Keeps.foldl
    | split
    | (intro _; try dsimp only)

theorem raiseH_keeps (p : Params) (h : ℕ) (i : ℕ) (b : Block) :
    Keeps p b (raiseH p h i b) := by
  unfold raiseH
  try dsimp only
  repeat' first
    | with_reducible apply Keeps.refl
    | with_reducible apply Keeps.next (raise_keeps _ _ _ _)
    | with_reducible apply Keeps.foldl
    | split
    | (intro _; try dsimp only)

theorem pgErrLine_keeps (p : Params) (base : ℕ) (b : Block) :
    Keeps p b (pgErrLine p base b) := by
  unfold pgErrLine
  split
  · exact raiseW_keeps _ _ _ _
  · exact raiseH_keeps _ _ _ _
  · exact Keeps.refl _ _
  · exact raiseK_keeps _ _ _

theorem pgErr_keeps (p : Params) (base : ℕ) (i : ℕ) (b : Block) :
    Keeps p b (pgErr p base i b) := by
  unfold pgErr
  try dsimp only
  repeat' first
    | with_reducible apply Keeps.refl
    | with_reducible apply Keeps.next (setBits_keeps _ _ _ _)
    | with_reducible apply Keeps.next (pgErrLine_keeps _ _ _)
    | with_reducible apply Keeps.when
    | with_reducible apply Keeps.foldl
    | split
    | (intro _; try dsimp only)

theorem xtx_keeps (p : Params) (w : Option ℕ) (n : ℕ) (b : Block) :
    Keeps p b (xtx w n b) := by
  unfold xtx
  try dsimp only
  repeat' first
    | with_reducible apply Keeps.refl
    | with_reducible apply Keeps.next (bump_keeps p _ _ _)
    | with_reducible apply Keeps.foldl
    | split
    | (intro _; try dsimp only)

theorem xrx_keeps (p : Params) (w : ℕ) (n : ℕ) (b : Block) :
    Keeps p b (xrx w n b) := by
  unfold xrx
  try dsimp only
  repeat' first
    | with_reducible apply Keeps.refl
    | with_reducible apply Keeps.next (bump_keeps p _ _ _)
    | with_reducible apply Keeps.foldl
    | split
    | (intro _; try dsimp only)

theorem xput_keeps (p : Params) (it : XItem) (b : Block) :
    Keeps p b (xput it b) :=
  Keeps.free (Only.mono (xput_only _ _) (by decide)) (Keeps.refl _ _)

theorem xsend_keeps (p : Params) (w : Option ℕ) (n : ℕ) (it : XItem) (b : Block) :
    Keeps p b (xsend w n it b) := by
  unfold xsend
  try dsimp only
  repeat' first
    | with_reducible apply Keeps.refl
    | with_reducible apply Keeps.next (xtx_keeps p _ _ _)
    | with_reducible apply Keeps.next (xput_keeps p _ _)
    | with_reducible apply Keeps.foldl
    | split
    | (intro _; try dsimp only)

theorem xto_keeps (p : Params) (from_ : Option ℕ) (v : ℕ) (n : ℕ) (it : XItem) (b : Block) :
    Keeps p b (xto from_ v n it b) := by
  unfold xto
  try dsimp only
  repeat' first
    | with_reducible apply Keeps.refl
    | with_reducible apply Keeps.next (xput_keeps p _ _)
    | with_reducible apply Keeps.next (xsend_keeps p _ _ _ _)
    | with_reducible apply Keeps.foldl
    | split
    | (intro _; try dsimp only)

theorem xfrom_keeps (p : Params) (from_ : Option ℕ) (v : ℕ) (n : ℕ) (b : Block) :
    Keeps p b (xfrom from_ v n b) := by
  unfold xfrom
  try dsimp only
  repeat' first
    | with_reducible apply Keeps.refl
    | with_reducible apply Keeps.next (xrx_keeps p _ _ _)
    | with_reducible apply Keeps.when
    | with_reducible apply Keeps.foldl
    | split
    | (intro _; try dsimp only)

theorem xdrop_keeps (p : Params) (f : XItem → Bool) (b : Block) :
    Keeps p b (xdrop f b) :=
  Keeps.free (Only.mono (xdrop_only _ _) (by decide)) (Keeps.refl _ _)

theorem trStop_keeps (p : Params) (b : Block) :
    Keeps p b (trStop p b) := by
  unfold trStop
  try dsimp only
  repeat' first
    | with_reducible apply Keeps.refl
    | with_reducible apply Keeps.next (updTr_keeps p _ _)
    | with_reducible apply Keeps.next (raise_keeps _ _ _ _)
    | with_reducible apply Keeps.foldl
    | split
    | (intro _; try dsimp only)

theorem trSlotPut_keeps (p : Params) (e : TrEnt) (delta : ℤ) (b : Block) :
    Keeps p b (trSlotPut p e delta b) := by
  unfold trSlotPut
  try dsimp only
  repeat' first
    | with_reducible apply Keeps.refl
    | with_reducible apply Keeps.next (updTr_keeps p _ _)
    | with_reducible apply Keeps.next (trStop_keeps _ _)
    | with_reducible apply Keeps.when
    | with_reducible apply Keeps.foldl
    | split
    | (intro _; try dsimp only)

theorem trFull_keeps (p : Params) (ts : Word64) (b : Block) :
    Keeps p b (trFull p ts b) := by
  unfold trFull
  try dsimp only
  repeat' first
    | with_reducible apply Keeps.refl
    | with_reducible apply Keeps.next (updTr_keeps p _ _)
    | with_reducible apply Keeps.next (trSlotPut_keeps _ _ _ _)
    | with_reducible apply Keeps.foldl
    | split
    | (intro _; try dsimp only)

theorem trPlace_keeps (p : Params) (e : TrEnt) (b : Block) :
    Keeps p b (trPlace p e b) := by
  unfold trPlace
  try dsimp only
  repeat' first
    | with_reducible apply Keeps.refl
    | with_reducible apply Keeps.next (trSlotPut_keeps _ _ _ _)
    | with_reducible apply Keeps.next (trFull_keeps _ _ _)
    | with_reducible apply Keeps.foldl
    | split
    | (intro _; try dsimp only)

theorem trTrigger_keeps (p : Params) (src : ℕ) (status : Status) (b : Block) :
    Keeps p b (trTrigger p src status b) := by
  unfold trTrigger
  dsimp only
  split
  · exact Keeps.refl _ _
  · split
    · exact Keeps.next (trStop_keeps _ _) (Keeps.next (trPlace_keeps _ _ _) (Keeps.next (raise_keeps _ _ _ _) (updTr_keeps _ _ _)))
    · exact Keeps.next (trPlace_keeps _ _ _) (Keeps.next (trFull_keeps _ _ _)
        (Keeps.next (updTr_keeps _ _ _) (Keeps.next (raise_keeps _ _ _ _) (updTr_keeps _ _ _))))
  · split
    · exact updTr_keeps _ _ _
    · exact updTr_keeps _ _ _

theorem trPush_keeps (p : Params) (u : ℕ) (e : TrEnt) (b : Block) :
    Keeps p b (trPush u e b) := by
  unfold trPush
  try dsimp only
  repeat' first
    | with_reducible apply Keeps.refl
    | with_reducible apply Keeps.next (updTr_keeps p _ _)
    | with_reducible apply Keeps.next (bump_keeps p _ _ _)
    | with_reducible apply Keeps.foldl
    | split
    | (intro _; try dsimp only)

theorem trForm_keeps (p : Params) (at_ : UnitId) (e : TrEnt) (b : Block) :
    Keeps p b (trForm p at_ e b) := by
  unfold trForm
  try dsimp only
  repeat' first
    | with_reducible apply Keeps.refl
    | with_reducible apply Keeps.next (trPush_keeps p _ _ _)
    | with_reducible apply Keeps.foldl
    | split
    | (intro _; try dsimp only)

theorem trTask_keeps (p : Params) (src : UnitId) (kind : ℕ) (d : TaskDesc) (aux : ℕ) (arg : Word32) (b : Block) :
    Keeps p b (trTask p src kind d aux arg b) := by
  unfold trTask
  try dsimp only
  repeat' first
    | with_reducible apply Keeps.refl
    | with_reducible apply Keeps.next (trForm_keeps _ _ _ _)
    | with_reducible apply Keeps.foldl
    | split
    | (intro _; try dsimp only)

theorem trRing_keeps (p : Params) (src : UnitId) (kind : ℕ) (r : ℕ) (aux : ℕ) (arg : Word32) (b : Block) :
    Keeps p b (trRing p src kind r aux arg b) := by
  unfold trRing
  try dsimp only
  repeat' first
    | with_reducible apply Keeps.refl
    | with_reducible apply Keeps.next (trForm_keeps _ _ _ _)
    | with_reducible apply Keeps.foldl
    | split
    | (intro _; try dsimp only)

theorem logIrq_keeps (p : Params) (u : UnitId) (b : Block) :
    Keeps p b (logIrq p u b) := by
  unfold logIrq
  split
  · exact raiseK_keeps _ _ _
  · exact raiseW_keeps _ _ _ _
  · exact raiseH_keeps _ _ _ _

theorem lastResort_keeps (p : Params) (r : LogRec) (b : Block) :
    Keeps p b (lastResort r b) := by
  unfold lastResort
  refine Keeps.log (fun l h => ?_) (Keeps.refl _ _)
  split
  · exact ⟨h.1, by simp; omega, h.2.2⟩
  · exact h

theorem storeLog_keeps (p : Params) (r : LogRec) (b : Block) :
    Keeps p b (storeLog p r b) := by
  unfold storeLog
  dsimp only
  refine Keeps.when (fun _ => trTrigger_keeps _ _ _ _) (Keeps.when (fun _ => logIrq_keeps _ _ _) ?_)
  split
  · exact lastResort_keeps _ _ _
  · split
    · next hl => exact fun h => { h with log := ⟨by show (b.log.recs ++ [r]).length ≤ 1024; simp; omega, h.log.2⟩ }
    · exact Keeps.log (fun l h => h) (Keeps.refl _ _)

theorem logRec_keeps (p : Params) (r0 : LogRec) (b : Block) :
    Keeps p b (logRec p r0 b) := by
  unfold logRec
  dsimp only
  have h0 : Keeps p b (trForm p .keeper ⟨b.clk.ts, 0x70, r0.src, r0.layer, r0.opid, r0.tenant, r0.status.toNat, r0.handle⟩
      (updLog (fun l => { l with cnt := Tbl.upd 0 l.cnt r0.status.toNat (fun n => satAdd (2 ^ 32 - 1) n 1) }) b)) :=
    Keeps.next (trForm_keeps _ _ _ _) (Keeps.log (fun l h => h) (Keeps.refl _ _))
  split
  · exact Keeps.next (storeLog_keeps _ _ _) h0
  · split
    · next hl =>
      refine fun h => { h0 h with log := ⟨(h0 h).log.1, (h0 h).log.2.1, buf_fits ?_ (h0 h).log.2.2⟩ }
      simp; omega
    · exact Keeps.next (Keeps.log (fun l h => h) (Keeps.refl _ _)) h0

theorem sendLog_keeps (p : Params) (n : ℕ) (b : Block) :
    Keeps p b (sendLog n b) := by
  unfold sendLog
  split
  · exact Keeps.refl _ _
  · next x l hx =>
    have h0 : Keeps p b (updLog (fun g => { g with
        buf := Tbl.set [] g.buf n l, lost := Tbl.set 0 g.lost n 0,
        air := Tbl.upd [] g.air n (· ++ [(x, Tbl.get 0 b.log.lost n)]) }) b) := fun h =>
      { h with log := ⟨h.log.1, h.log.2.1, buf_fits (by
          have := listTable_get h.log.2.2 n
          rw [hx] at this; simp at this; omega) h.log.2.2⟩ }
    dsimp only
    split
    · exact Keeps.next (xtx_keeps _ _ _ _) h0
    · exact h0

theorem logCycle_keeps (p : Params) (b : Block) :
    Keeps p b (logCycle b) := by
  unfold logCycle
  dsimp only
  refine Keeps.forEach (fun _ _ => sendLog_keeps _ _ _) (fun h => { h with log := ⟨?_, h.log.2⟩ })
  have := h.log.1
  show (b.log.recs ++ b.log.late.take (1024 - b.log.recs.length)).length ≤ 1024
  simp; omega

theorem evRec_keeps (p : Params) (n : ℕ) (kind : ℕ) (status : Status) (aux : ℕ) (gen : ℕ) (h : ℕ) (b : Block) :
    Keeps p b (evRec p n kind status aux gen h b) := by
  unfold evRec
  dsimp only
  split
  · exact bump_keeps _ _ _ _
  · exact Keeps.evrSet (fun _ => by simp) (Keeps.refl _ _)

theorem dropHeld_keeps (p : Params) (pages : List ℕ) (b : Block) :
    Keeps p b (dropHeld pages b) :=
  Keeps.free (Only.mono (dropHeld_only _ _) (by decide)) (Keeps.refl _ _)

theorem regWrite_keeps {p : Params} {a : Nat} {data : Word32} {need pages : List Nat} {f : Block → Block} {b c : Block}
    (hf : ∀ x, Keeps p x (f x)) (hb : Keeps p b c) : Keeps p b (regWrite a data need pages f c) := by
  unfold regWrite
  split
  · exact Keeps.next (dropHeld_keeps _ _ _) (Keeps.next (hf _) (Keeps.next (updMgt_keeps _ _ _) hb))
  · exact Keeps.next (updMgt_keeps _ _ _) hb

theorem wardWrite_keeps {p : Params} {t : WTarget} {q o : Nat} {data : Word32} {tab : Bool}
    {f : Nat → Block → Block} {b c : Block} (hf : ∀ w x, Keeps p x (f w x))
    (hb : Keeps p b c) : Keeps p b (wardWrite p t q o data tab f c) := by
  have h1 : ∀ {need pages : List Nat}, Keeps p b (regWrite (tgtA t q o) data need pages (forEach (members p c t) f) c) := fun {_ _} =>
    regWrite_keeps (fun _ => Keeps.forEach hf (Keeps.refl _ _)) hb
  unfold wardWrite
  dsimp only
  split
  · exact h1
  · exact Keeps.next (pgErr_keeps _ _ _ _) h1
  · exact h1

theorem holdWord_keeps (p : Params) (a : ℕ) (v : Word32) (b : Block) :
    Keeps p b (holdWord a v b) :=
  Keeps.free (Only.mono (holdWord_only _ _ _) (by decide)) (Keeps.refl _ _)

theorem wardHold_keeps (p : Params) (t : WTarget) (q : ℕ) (o : ℕ) (data : Word32) (b : Block) :
    Keeps p b (wardHold p t q o data b) := by
  unfold wardHold
  try dsimp only
  repeat' first
    | with_reducible apply Keeps.refl
    | with_reducible apply Keeps.next (updMgt_keeps p _ _)
    | with_reducible apply Keeps.next (pgErr_keeps _ _ _ _)
    | with_reducible apply Keeps.next (holdWord_keeps p _ _ _)
    | with_reducible apply Keeps.forEach
    | with_reducible apply Keeps.foldl
    | split
    | (intro _; try dsimp only)

end Sys2Proof.Machine
end

