-- ==== Sys2Proof/Laws/KeepsTasks.lean ====
section
/-! SUPPORT. Each operation keeps the block sound: Hinge queues, settlement, tasks and placement. -/

namespace Sys2Proof.Machine

set_option linter.all false

theorem flitOut_keeps (p : Params) (h : ℕ) (hello : Option ℕ) (ts : Option Word64) (slots : List (BitVec 128)) (b : Block) :
    Keeps p b (flitOut h hello ts slots b) := by
  unfold flitOut
  try dsimp only
  repeat' first
    | with_reducible apply Keeps.refl
    | with_reducible apply Keeps.next (updHinge_keeps p _ _ _)
    | with_reducible apply Keeps.next (emit_keeps p _ _)
    | with_reducible apply Keeps.foldl
    | split
    | (intro _; try dsimp only)

theorem itemFlits_keeps (p : Params) (h : ℕ) (it : Item) (b : Block) :
    Keeps p b (itemFlits h it b) := by
  unfold itemFlits
  try dsimp only
  repeat' first
    | with_reducible apply Keeps.refl
    | with_reducible apply Keeps.next (flitOut_keeps p _ _ _ _ _)
    | with_reducible apply Keeps.forEach
    | with_reducible apply Keeps.foldl
    | split
    | (intro _; try dsimp only)

theorem itemOut_keeps (p : Params) (h : ℕ) (it : Item × Option ℕ) (b : Block) :
    Keeps p b (itemOut h it b) := by
  unfold itemOut
  try dsimp only
  repeat' first
    | with_reducible apply Keeps.refl
    | with_reducible apply Keeps.next (updHinge_keeps p _ _ _)
    | with_reducible apply Keeps.next (bump_keeps p _ _ _)
    | with_reducible apply Keeps.next (itemFlits_keeps p _ _ _)
    | with_reducible apply Keeps.foldl
    | split
    | (intro _; try dsimp only)

theorem hingeFlush_keeps (p : Params) (h : ℕ) (x1 : ℕ) (x2 : Block) :
    Keeps p x2 (hingeFlush h x1 x2) := by
  induction x1 generalizing x2 with
  | zero =>
    unfold hingeFlush
    try dsimp only
    repeat' first
        | with_reducible apply Keeps.refl
        | with_reducible apply Keeps.next (updHinge_keeps p _ _ _)
        | with_reducible apply Keeps.next (itemOut_keeps p _ _ _)
        | with_reducible apply Keeps.foldl
        | split
        | (intro _; try dsimp only)
  | succ k ih =>
    unfold hingeFlush
    try dsimp only
    repeat' first
        | with_reducible apply Keeps.next (ih _)
        | with_reducible apply Keeps.refl
        | with_reducible apply Keeps.next (updHinge_keeps p _ _ _)
        | with_reducible apply Keeps.next (itemOut_keeps p _ _ _)
        | with_reducible apply Keeps.foldl
        | split
        | (intro _; try dsimp only)

theorem hingePut_keeps (p : Params) (h : ℕ) (it : Item) (owner : Option ℕ) (b : Block) :
    Keeps p b (hingePut h it owner b) := by
  unfold hingePut
  try dsimp only
  repeat' first
    | with_reducible apply Keeps.refl
    | with_reducible apply Keeps.next (updHinge_keeps p _ _ _)
    | with_reducible apply Keeps.next (hingeFlush_keeps p _ _ _)
    | with_reducible apply Keeps.foldl
    | split
    | (intro _; try dsimp only)

theorem goDown_keeps (p : Params) (h : ℕ) (b : Block) :
    Keeps p b (goDown p h b) := by
  unfold goDown
  try dsimp only
  repeat' first
    | with_reducible apply Keeps.refl
    | with_reducible apply Keeps.next (updHinge_keeps p _ _ _)
    | with_reducible apply Keeps.foldl
    | split
    | (intro _; try dsimp only)

theorem hingeIn_keeps (p : Params) (h : ℕ) (slots : ℕ) (ordered : Bool) (b : Block) :
    Keeps p b (hingeIn h slots ordered b) := by
  unfold hingeIn
  try dsimp only
  repeat' first
    | with_reducible apply Keeps.refl
    | with_reducible apply Keeps.next (updHinge_keeps p _ _ _)
    | with_reducible apply Keeps.next (bump_keeps p _ _ _)
    | with_reducible apply Keeps.foldl
    | split
    | (intro _; try dsimp only)

theorem rxItem_keeps {p : Params} {h slots : Nat} {ordered : Bool} {f : Block → Block} {b c : Block}
    (hf : ∀ x, Keeps p x (f x)) (hb : Keeps p b c) : Keeps p b (rxItem p h slots ordered f c) := by
  unfold rxItem
  split
  · exact hb
  · split
    · exact Keeps.next (goDown_keeps _ _ _) hb
    · exact Keeps.next (hf _) (Keeps.next (hingeIn_keeps _ _ _ _ _) hb)

theorem rxData_keeps {p : Params} {h : Nat} {it : Item} {f : Item → Block → Block} {b c : Block}
    (hf : ∀ i x, Keeps p x (f i x)) (hb : Keeps p b c) : Keeps p b (rxData p h it f c) :=
  rxItem_keeps (fun x => Keeps.next (hf _ _) (updHinge_keeps _ _ _ _)) hb

theorem rxItems_keeps {p : Params} {h : Nat} {s : List Nat} {ordered : Bool} {f : Block → Block} {b c : Block}
    (hf : ∀ x, Keeps p x (f x)) (hb : Keeps p b c) : Keeps p b (rxItems p h s ordered f c) :=
  rxItem_keeps (fun x => Keeps.next (hf _) (Keeps.forEach (fun n y => hingeIn_keeps _ _ _ _ _) (Keeps.refl _ _))) hb

theorem sendItem_keeps (p : Params) (w : Option ℕ) (it : Item) (b : Block) :
    Keeps p b (sendItem w it b) := by
  unfold sendItem
  try dsimp only
  repeat' first
    | with_reducible apply Keeps.refl
    | with_reducible apply Keeps.next (xtx_keeps p _ _ _)
    | with_reducible apply Keeps.next (hingePut_keeps p _ _ _ _)
    | with_reducible apply Keeps.foldl
    | split
    | (intro _; try dsimp only)

theorem sendFor_keeps (p : Params) (h : ℕ) (it : Item) (b : Block) :
    Keeps p b (sendFor h it b) := by
  unfold sendFor
  try dsimp only
  repeat' first
    | with_reducible apply Keeps.refl
    | with_reducible apply Keeps.next (xtx_keeps p _ _ _)
    | with_reducible apply Keeps.next (hingePut_keeps p _ _ _ _)
    | with_reducible apply Keeps.foldl
    | split
    | (intro _; try dsimp only)

theorem tally_keeps (p : Params) (src : Option ℕ) (t : ℕ) (f : Tally → Tally) (b : Block) :
    Keeps p b (tally p src t f b) := by
  unfold tally
  try dsimp only
  repeat' first
    | with_reducible apply Keeps.refl
    | with_reducible apply Keeps.next (tookSeq_keeps p _)
    | with_reducible apply Keeps.set_tally
    | with_reducible apply Keeps.upd_tally
    | with_reducible apply Keeps.foldl
    | split
    | refine Keeps.free (by intro f hf; cases f <;> first | exact absurd (by decide) hf | dsimp only [agree]) ?_
    | (intro _; try dsimp only)

theorem answerTo_keeps (p : Params) (from_ : Option ℕ) (n : ℕ) (beat : BitVec 512) (b : Block) :
    Keeps p b (answerTo p from_ n beat b) := by
  unfold answerTo
  try dsimp only
  repeat' first
    | with_reducible apply Keeps.refl
    | with_reducible apply Keeps.next (updPort_keeps p _ _ _)
    | with_reducible apply Keeps.next (xsend_keeps p _ _ _ _)
    | with_reducible apply Keeps.foldl
    | split
    | (intro _; try dsimp only)

theorem closeOwned_keeps (p : Params) (f : ChOwner → Bool) (b : Block) :
    Keeps p b (closeOwned f b) := by
  unfold closeOwned
  try dsimp only
  repeat' first
    | with_reducible apply Keeps.refl
    | with_reducible apply Keeps.next (setChan_keeps p _ _ _)
    | with_reducible apply Keeps.next (xsend_keeps p _ _ _ _)
    | with_reducible apply Keeps.when
    | with_reducible apply Keeps.forEach
    | with_reducible apply Keeps.foldl
    | split
    | (intro _; try dsimp only)

theorem markCommit_keeps (p : Params) (w : ℕ) (b : Block) :
    Keeps p b (markCommit w b) :=
  Keeps.free (Only.mono (markCommit_only _ _) (by decide)) (Keeps.refl _ _)

theorem updSub_keeps (p : Params) (r : ℕ) (subid : Word32) (f : Sub → Sub) (b : Block) :
    Keeps p b (updSub r subid f b) := by
  unfold updSub
  try dsimp only
  repeat' first
    | with_reducible apply Keeps.refl
    | with_reducible apply Keeps.next (updRing_keeps p _ _ _)
    | with_reducible apply Keeps.foldl
    | split
    | (intro _; try dsimp only)

theorem progress_keeps (p : Params) (r : ℕ) (b : Block) :
    Keeps p b (progress r b) := by
  unfold progress
  try dsimp only
  repeat' first
    | with_reducible apply Keeps.refl
    | with_reducible apply Keeps.next (updRing_keeps p _ _ _)
    | with_reducible apply Keeps.foldl
    | split
    | (intro _; try dsimp only)

theorem overSub_keeps (p : Params) (r : ℕ) (at_ : ℕ) (b : Block) :
    Keeps p b (overSub r at_ b) := by
  unfold overSub
  try dsimp only
  repeat' first
    | with_reducible apply Keeps.refl
    | with_reducible apply Keeps.next (updRing_keeps p _ _ _)
    | with_reducible apply Keeps.foldl
    | split
    | (intro _; try dsimp only)

theorem overSteps_keeps (p : Params) (r : ℕ) (x1 : List (Option ℕ)) (b : Block) :
    Keeps p b (overSteps r x1 b) := by
  unfold overSteps
  try dsimp only
  repeat' first
    | with_reducible apply Keeps.refl
    | with_reducible apply Keeps.next (updRing_keeps p _ _ _)
    | with_reducible apply Keeps.foldl
    | split
    | (intro _; try dsimp only)

theorem stepAdvance_keeps (p : Params) (r : ℕ) (x2 : ℕ) (x3 : Block) :
    Keeps p x3 (stepAdvance p r x2 x3) := by
  induction x2 generalizing x3 with
  | zero =>
    unfold stepAdvance
    try dsimp only
    repeat' first
        | with_reducible apply Keeps.refl
        | with_reducible apply Keeps.next (updRing_keeps p _ _ _)
        | with_reducible apply Keeps.next (trRing_keeps _ _ _ _ _ _ _)
        | with_reducible apply Keeps.next (closeOwned_keeps p _ _)
        | with_reducible apply Keeps.next (overSteps_keeps p _ _ _)
        | with_reducible apply Keeps.foldl
        | split
        | (intro _; try dsimp only)
  | succ k ih =>
    unfold stepAdvance
    try dsimp only
    repeat' first
        | with_reducible apply Keeps.next (ih _)
        | with_reducible apply Keeps.refl
        | with_reducible apply Keeps.next (updRing_keeps p _ _ _)
        | with_reducible apply Keeps.next (trRing_keeps _ _ _ _ _ _ _)
        | with_reducible apply Keeps.next (closeOwned_keeps p _ _)
        | with_reducible apply Keeps.next (overSteps_keeps p _ _ _)
        | with_reducible apply Keeps.foldl
        | split
        | (intro _; try dsimp only)

theorem doneAdvance_keeps (p : Params) (r : ℕ) (x2 : ℕ) (x3 : Block) :
    Keeps p x3 (doneAdvance p r x2 x3) := by
  induction x2 generalizing x3 with
  | zero =>
    unfold doneAdvance
    try dsimp only
    repeat' first
        | with_reducible apply Keeps.refl
        | with_reducible apply Keeps.next (updRing_keeps p _ _ _)
        | with_reducible apply Keeps.next (postW_keeps _ _ _ _ _ _ _ _)
        | with_reducible apply Keeps.set_tdone
        | with_reducible apply Keeps.upd_tdone
        | with_reducible apply Keeps.foldl
        | split
        | refine Keeps.free (by intro f hf; cases f <;> first | exact absurd (by decide) hf | dsimp only [agree]) ?_
        | (intro _; try dsimp only)
  | succ k ih =>
    unfold doneAdvance
    try dsimp only
    repeat' first
        | with_reducible apply Keeps.next (ih _)
        | with_reducible apply Keeps.refl
        | with_reducible apply Keeps.next (updRing_keeps p _ _ _)
        | with_reducible apply Keeps.next (postW_keeps _ _ _ _ _ _ _ _)
        | with_reducible apply Keeps.set_tdone
        | with_reducible apply Keeps.upd_tdone
        | with_reducible apply Keeps.foldl
        | split
        | refine Keeps.free (by intro f hf; cases f <;> first | exact absurd (by decide) hf | dsimp only [agree]) ?_
        | (intro _; try dsimp only)

theorem subCheck_keeps (p : Params) (r : ℕ) (subid : Word32) (b : Block) :
    Keeps p b (subCheck p r subid b) := by
  unfold subCheck
  try dsimp only
  repeat' first
    | with_reducible apply Keeps.refl
    | with_reducible apply Keeps.next (postW_keeps _ _ _ _ _ _ _ _)
    | with_reducible apply Keeps.next (closeOwned_keeps p _ _)
    | with_reducible apply Keeps.next (markCommit_keeps p _ _)
    | with_reducible apply Keeps.next (updSub_keeps p _ _ _ _)
    | with_reducible apply Keeps.next (overSub_keeps p _ _ _)
    | with_reducible apply Keeps.next (doneAdvance_keeps _ _ _ _)
    | with_reducible apply Keeps.when
    | with_reducible apply Keeps.foldl
    | split
    | (intro _; try dsimp only)

theorem startNext_keeps (p : Params) (r : ℕ) (b : Block) :
    Keeps p b (startNext r b) := by
  unfold startNext
  try dsimp only
  repeat' first
    | with_reducible apply Keeps.refl
    | with_reducible apply Keeps.next (updWalk_keeps p _ _ _)
    | with_reducible apply Keeps.foldl
    | split
    | (intro _; try dsimp only)

theorem walkEnd_keeps (p : Params) (r : ℕ) (b : Block) :
    Keeps p b (walkEnd p r b) := by
  unfold walkEnd
  try dsimp only
  repeat' first
    | with_reducible apply Keeps.refl
    | with_reducible apply Keeps.next (updSub_keeps p _ _ _ _)
    | with_reducible apply Keeps.next (subCheck_keeps _ _ _ _)
    | with_reducible apply Keeps.next (startNext_keeps p _ _)
    | with_reducible apply Keeps.foldl
    | split
    | (intro _; try dsimp only)

theorem leaveSeg_keeps (p : Params) (r : ℕ) (b : Block) :
    Keeps p b (leaveSeg p r b) := by
  unfold leaveSeg
  try dsimp only
  repeat' first
    | with_reducible apply Keeps.refl
    | with_reducible apply Keeps.next (updWalk_keeps p _ _ _)
    | with_reducible apply Keeps.next (walkEnd_keeps _ _ _)
    | with_reducible apply Keeps.foldl
    | split
    | (intro _; try dsimp only)

theorem passRec_keeps (p : Params) (r : ℕ) (b : Block) :
    Keeps p b (passRec p r b) := by
  unfold passRec
  try dsimp only
  repeat' first
    | with_reducible apply Keeps.refl
    | with_reducible apply Keeps.next (updWalk_keeps p _ _ _)
    | with_reducible apply Keeps.next (leaveSeg_keeps _ _ _)
    | with_reducible apply Keeps.foldl
    | split
    | (intro _; try dsimp only)

theorem walkOn_keeps (p : Params) (r : ℕ) (b : Block) :
    Keeps p b (walkOn p r b) := by
  unfold walkOn
  try dsimp only
  repeat' first
    | with_reducible apply Keeps.refl
    | with_reducible apply Keeps.next (leaveSeg_keeps _ _ _)
    | with_reducible apply Keeps.foldl
    | split
    | (intro _; try dsimp only)

theorem toRun_keeps (p : Params) (r : ℕ) (b : Block) :
    Keeps p b (toRun p r b) := by
  unfold toRun
  try dsimp only
  repeat' first
    | with_reducible apply Keeps.refl
    | with_reducible apply Keeps.next (updRing_keeps p _ _ _)
    | with_reducible apply Keeps.next (trRing_keeps _ _ _ _ _ _ _)
    | with_reducible apply Keeps.next (walkOn_keeps _ _ _)
    | with_reducible apply Keeps.foldl
    | split
    | refine Keeps.free (by intro f hf; cases f <;> first | exact absurd (by decide) hf | dsimp only [agree]) ?_
    | (intro _; try dsimp only)

theorem gateCheck_keeps (p : Params) (r : ℕ) (b : Block) :
    Keeps p b (gateCheck p r b) := by
  unfold gateCheck
  try dsimp only
  repeat' first
    | with_reducible apply Keeps.refl
    | with_reducible apply Keeps.next (updRing_keeps p _ _ _)
    | with_reducible apply Keeps.next (bump_keeps p _ _ _)
    | with_reducible apply Keeps.next (trRing_keeps _ _ _ _ _ _ _)
    | with_reducible apply Keeps.next (logRec_keeps _ _ _)
    | with_reducible apply Keeps.next (tally_keeps _ _ _ _ _)
    | with_reducible apply Keeps.next (toRun_keeps _ _ _)
    | with_reducible apply Keeps.when
    | with_reducible apply Keeps.foldl
    | split
    | refine Keeps.free (by intro f hf; cases f <;> first | exact absurd (by decide) hf | dsimp only [agree]) ?_
    | (intro _; try dsimp only)

theorem ringSettle_keeps (p : Params) (r : ℕ) (subid : Word32) (step : Option ℕ) (st : TState) (status : Status) (discard : Bool) (b : Block) :
    Keeps p b (ringSettle p r subid step st status discard b) := by
  unfold ringSettle
  try dsimp only
  repeat' first
    | with_reducible apply Keeps.refl
    | with_reducible apply Keeps.next (updRing_keeps p _ _ _)
    | with_reducible apply Keeps.next (updSub_keeps p _ _ _ _)
    | with_reducible apply Keeps.next (progress_keeps p _ _)
    | with_reducible apply Keeps.next (stepAdvance_keeps _ _ _ _)
    | with_reducible apply Keeps.next (subCheck_keeps _ _ _ _)
    | with_reducible apply Keeps.next (gateCheck_keeps _ _ _)
    | with_reducible apply Keeps.foldl
    | split
    | (intro _; try dsimp only)

theorem settleSlots_keeps (p : Params) (w : ℕ) (e : Entry) (done : Bool) (b : Block) :
    Keeps p b (settleSlots w e done b) :=
  Keeps.free (Only.mono (settleSlots_only _ _ _ _) (by decide)) (Keeps.refl _ _)

theorem slotApply_keeps (p : Params) (x0 : SlotFx) (b : Block) :
    Keeps p b (slotApply x0 b) := by
  unfold slotApply
  try dsimp only
  repeat' first
    | with_reducible apply Keeps.refl
    | with_reducible apply Keeps.next (updSlot_keeps p _ _ _ _)
    | with_reducible apply Keeps.foldl
    | split
    | (intro _; try dsimp only)

theorem slotRank_keeps (p : Params) (b : Block) :
    Keeps p b (slotRank b) := by
  unfold slotRank
  try dsimp only
  repeat' first
    | with_reducible apply Keeps.refl
    | with_reducible apply Keeps.next (updClk_keeps p _ _)
    | with_reducible apply Keeps.next (slotApply_keeps p _ _)
    | with_reducible apply Keeps.forEach
    | with_reducible apply Keeps.foldl
    | split
    | (intro _; try dsimp only)

theorem faultTo_keeps (p : Params) (w : Option ℕ) (r : ℕ) (subid : Word32) (st : Status) (b : Block) :
    Keeps p b (faultTo w r subid st b) := by
  unfold faultTo
  try dsimp only
  repeat' first
    | with_reducible apply Keeps.refl
    | with_reducible apply Keeps.next (xsend_keeps p _ _ _ _)
    | with_reducible apply Keeps.foldl
    | split
    | (intro _; try dsimp only)

theorem settleSignals_keeps (p : Params) (h : ℕ) (e : Entry) (done : Bool) (b : Block) :
    Keeps p b (settleSignals p h e done b) := by
  unfold settleSignals
  try dsimp only
  repeat' first
    | with_reducible apply Keeps.refl
    | with_reducible apply Keeps.next (xsend_keeps p _ _ _ _)
    | with_reducible apply Keeps.next (sendItem_keeps p _ _ _)
    | with_reducible apply Keeps.next (faultTo_keeps p _ _ _ _ _)
    | with_reducible apply Keeps.forEach
    | with_reducible apply Keeps.foldl
    | split
    | (intro _; try dsimp only)

theorem canSend_keeps (p : Params) (n : ℕ) (h : ℕ) (gen : ℕ) (b : Block) :
    Keeps p b (canSend p n h gen b) := by
  unfold canSend
  try dsimp only
  repeat' first
    | with_reducible apply Keeps.refl
    | with_reducible apply Keeps.next (updPort_keeps p _ _ _)
    | with_reducible apply Keeps.next (emit_keeps p _ _)
    | with_reducible apply Keeps.next (evRec_keeps _ _ _ _ _ _ _ _)
    | with_reducible apply Keeps.foldl
    | split
    | (intro _; try dsimp only)

theorem stopPreload_keeps (p : Params) (n : ℕ) (h : ℕ) (gen : ℕ) (b : Block) :
    Keeps p b (stopPreload n h gen b) := by
  unfold stopPreload
  try dsimp only
  repeat' first
    | with_reducible apply Keeps.refl
    | with_reducible apply Keeps.next (updPort_keeps p _ _ _)
    | with_reducible apply Keeps.foldl
    | split
    | (intro _; try dsimp only)

theorem unloadStage_keeps (p : Params) (n : ℕ) (h : ℕ) (gen : ℕ) (b : Block) :
    Keeps p b (unloadStage p n h gen b) := by
  unfold unloadStage
  try dsimp only
  repeat' first
    | with_reducible apply Keeps.refl
    | with_reducible apply Keeps.next (updEnt_keeps p _ _ _)
    | with_reducible apply Keeps.next (updPort_keeps p _ _ _)
    | with_reducible apply Keeps.next (bump_keeps p _ _ _)
    | with_reducible apply Keeps.next (trTask_keeps _ _ _ _ _ _ _)
    | with_reducible apply Keeps.next (canSend_keeps _ _ _ _ _)
    | with_reducible apply Keeps.next (stopPreload_keeps p _ _ _ _)
    | with_reducible apply Keeps.foldl
    | split
    | (intro _; try dsimp only)

theorem removeWait_keeps (p : Params) (w : Option ℕ) (who : Waiter) (inst : Option ℕ) (hasp : ℕ) (tenant : ℕ) (tag : Word32) (b : Block) :
    Keeps p b (removeWait p w who inst hasp tenant tag b) := by
  unfold removeWait
  try dsimp only
  repeat' first
    | with_reducible apply Keeps.refl
    | with_reducible apply Keeps.next (sendItem_keeps p _ _ _)
    | with_reducible apply Keeps.when
    | with_reducible apply Keeps.foldl
    | split
    | refine Keeps.free (by intro f hf; cases f <;> first | exact absurd (by decide) hf | dsimp only [agree]) ?_
    | (intro _; try dsimp only)

theorem dropPortWait_keeps (p : Params) (n : ℕ) (b : Block) :
    Keeps p b (dropPortWait p n b) := by
  unfold dropPortWait
  try dsimp only
  repeat' first
    | with_reducible apply Keeps.refl
    | with_reducible apply Keeps.next (updPort_keeps p _ _ _)
    | with_reducible apply Keeps.next (evRec_keeps _ _ _ _ _ _ _ _)
    | with_reducible apply Keeps.next (removeWait_keeps _ _ _ _ _ _ _ _)
    | with_reducible apply Keeps.foldl
    | split
    | (intro _; try dsimp only)

theorem unqueue_keeps (p : Params) (n : ℕ) (h : ℕ) (gen : ℕ) (b : Block) :
    Keeps p b (unqueue p n h gen b) := by
  unfold unqueue
  try dsimp only
  repeat' first
    | with_reducible apply Keeps.refl
    | with_reducible apply Keeps.next (updPort_keeps p _ _ _)
    | with_reducible apply Keeps.next (canSend_keeps _ _ _ _ _)
    | with_reducible apply Keeps.next (stopPreload_keeps p _ _ _ _)
    | with_reducible apply Keeps.next (dropPortWait_keeps _ _ _)
    | with_reducible apply Keeps.when
    | with_reducible apply Keeps.foldl
    | split
    | (intro _; try dsimp only)

theorem unstage_keeps (p : Params) (h : ℕ) (b : Block) :
    Keeps p b (unstage p h b) := by
  unfold unstage
  try dsimp only
  repeat' first
    | with_reducible apply Keeps.refl
    | with_reducible apply Keeps.next (xsend_keeps p _ _ _ _)
    | with_reducible apply Keeps.next (unloadStage_keeps _ _ _ _ _)
    | with_reducible apply Keeps.when
    | with_reducible apply Keeps.foldl
    | split
    | (intro _; try dsimp only)

theorem digestWrite_keeps (p : Params) (w : ℕ) (x2 : Watch) (d : ℕ) (q : Option ℕ) (b : Block) :
    Keeps p b (digestWrite p w x2 d q b) := by
  unfold digestWrite
  try dsimp only
  repeat' first
    | with_reducible apply Keeps.refl
    | with_reducible apply Keeps.next (mpW_keeps _ _ _ _ _ _ _ _)
    | with_reducible apply Keeps.next (updSub_keeps p _ _ _ _)
    | with_reducible apply Keeps.foldl
    | split
    | refine Keeps.free (by intro f hf; cases f <;> first | exact absurd (by decide) hf | dsimp only [agree]) ?_
    | (intro _; try dsimp only)

theorem watchDrop_keeps (p : Params) (kind : ℕ) (obj : ℕ) (b : Block) :
    Keeps p b (watchDrop p kind obj b) := by
  unfold watchDrop
  try dsimp only
  repeat' first
    | with_reducible apply Keeps.refl
    | with_reducible apply Keeps.next (updSub_keeps p _ _ _ _)
    | with_reducible apply Keeps.next (doneAdvance_keeps _ _ _ _)
    | with_reducible apply Keeps.foldl
    | split
    | refine Keeps.free (by intro f hf; cases f <;> first | exact absurd (by decide) hf | dsimp only [agree]) ?_
    | (intro _; try dsimp only)

theorem settleWatch_keeps (p : Params) (h : ℕ) (status : Status) (stats : Option (BitVec 256)) (b : Block) :
    Keeps p b (settleWatch p h status stats b) := by
  unfold settleWatch
  try dsimp only
  repeat' first
    | with_reducible apply Keeps.refl
    | with_reducible apply Keeps.next (digestWrite_keeps _ _ _ _ _ _)
    | with_reducible apply Keeps.foldl
    | split
    | (intro _; try dsimp only)

theorem settleTally_keeps (p : Params) (h : ℕ) (e : Entry) (busy : ℕ) (qwait : ℕ) (done : Bool) (b : Block) :
    Keeps p b (settleTally p h e busy qwait done b) := by
  unfold settleTally
  try dsimp only
  repeat' first
    | with_reducible apply Keeps.refl
    | with_reducible apply Keeps.next (bump_keeps p _ _ _)
    | with_reducible apply Keeps.next (tally_keeps _ _ _ _ _)
    | with_reducible apply Keeps.foldl
    | split
    | (intro _; try dsimp only)

theorem settleRing_keeps (p : Params) (h : ℕ) (e : Entry) (st : TState) (status : Status) (b : Block) :
    Keeps p b (settleRing p h e st status b) := by
  unfold settleRing
  try dsimp only
  repeat' first
    | with_reducible apply Keeps.refl
    | with_reducible apply Keeps.next (updEnt_keeps p _ _ _)
    | with_reducible apply Keeps.next (xsend_keeps p _ _ _ _)
    | with_reducible apply Keeps.next (sendFor_keeps p _ _ _)
    | with_reducible apply Keeps.next (ringSettle_keeps _ _ _ _ _ _ _ _)
    | with_reducible apply Keeps.foldl
    | split
    | (intro _; try dsimp only)

theorem refetch_keeps (p : Params) (h : ℕ) (b : Block) :
    Keeps p b (refetch p h b) :=
  Keeps.free (Only.mono (refetch_only _ _ _) (by decide)) (Keeps.refl _ _)

theorem settle_keeps (p : Params) (h : ℕ) (st : TState) (status : Status) (root : Option Word32) (rel : Bool) (run : Option (ℕ × ℕ)) (stats : Option (BitVec 256)) (aux : Word32) (b : Block) :
    Keeps p b (settle p h st status root rel run stats aux b) := by
  unfold settle
  try dsimp only
  repeat' first
    | with_reducible apply Keeps.refl
    | with_reducible apply Keeps.next (updEnt_keeps p _ _ _)
    | with_reducible apply Keeps.next (updClk_keeps p _ _)
    | with_reducible apply Keeps.next (bump_keeps p _ _ _)
    | with_reducible apply Keeps.next (trTask_keeps _ _ _ _ _ _ _)
    | with_reducible apply Keeps.next (logRec_keeps _ _ _)
    | with_reducible apply Keeps.next (closeOwned_keeps p _ _)
    | with_reducible apply Keeps.next (settleSlots_keeps p _ _ _ _)
    | with_reducible apply Keeps.next (settleSignals_keeps _ _ _ _ _)
    | with_reducible apply Keeps.next (unstage_keeps _ _ _)
    | with_reducible apply Keeps.next (settleWatch_keeps _ _ _ _ _)
    | with_reducible apply Keeps.next (settleTally_keeps _ _ _ _ _ _ _)
    | with_reducible apply Keeps.next (settleRing_keeps _ _ _ _ _ _)
    | with_reducible apply Keeps.next (refetch_keeps _ _ _)
    | with_reducible apply Keeps.when
    | with_reducible apply Keeps.foldl
    | split
    | (intro _; try dsimp only)

theorem bumpNack_keeps (p : Params) (n : ℕ) (st : Status) (b : Block) :
    Keeps p b (bumpNack p n st b) := by
  unfold bumpNack
  try dsimp only
  repeat' first
    | with_reducible apply Keeps.refl
    | with_reducible apply Keeps.next (bump_keeps p _ _ _)
    | with_reducible apply Keeps.when
    | with_reducible apply Keeps.foldl
    | split
    | (intro _; try dsimp only)

theorem partDone_keeps (p : Params) (n : ℕ) (tag : BitVec 16) (st : Status) (b : Block) :
    Keeps p b (partDone p n tag st b) := by
  unfold partDone
  try dsimp only
  repeat' first
    | with_reducible apply Keeps.refl
    | with_reducible apply Keeps.next (updPort_keeps p _ _ _)
    | with_reducible apply Keeps.next (bump_keeps p _ _ _)
    | with_reducible apply Keeps.next (bumpNack_keeps _ _ _ _)
    | with_reducible apply Keeps.when
    | with_reducible apply Keeps.foldl
    | split
    | (intro _; try dsimp only)

theorem answerPart_keeps (p : Params) (w : ℕ) (n : ℕ) (tag : BitVec 16) (st : Status) (result : ℕ) (b : Block) :
    Keeps p b (answerPart p w n tag st result b) := by
  unfold answerPart
  try dsimp only
  repeat' first
    | with_reducible apply Keeps.refl
    | with_reducible apply Keeps.next (answerTo_keeps _ _ _ _ _)
    | with_reducible apply Keeps.next (partDone_keeps _ _ _ _ _)
    | with_reducible apply Keeps.foldl
    | split
    | (intro _; try dsimp only)

theorem dropParts_keeps (p : Params) (w : ℕ) (q : ℕ) (st : Status) (b : Block) :
    Keeps p b (dropParts p w q st b) := by
  unfold dropParts
  try dsimp only
  repeat' first
    | with_reducible apply Keeps.refl
    | with_reducible apply Keeps.next (sendItem_keeps p _ _ _)
    | with_reducible apply Keeps.next (answerPart_keeps _ _ _ _ _ _ _)
    | with_reducible apply Keeps.set_cbParts
    | with_reducible apply Keeps.upd_cbParts
    | with_reducible apply Keeps.forEach
    | with_reducible apply Keeps.foldl
    | split
    | refine Keeps.free (by intro f hf; cases f <;> first | exact absurd (by decide) hf | dsimp only [agree]) ?_
    | (intro _; try dsimp only)

theorem cqSettle_keeps (p : Params) (w : ℕ) (q : ℕ) (failed : Bool) (status : Status) (b : Block) :
    Keeps p b (cqSettle p w q failed status b) := by
  unfold cqSettle
  try dsimp only
  repeat' first
    | with_reducible apply Keeps.refl
    | with_reducible apply Keeps.next (updCQ_keeps p _ _ _ _)
    | with_reducible apply Keeps.next (watchDrop_keeps _ _ _ _)
    | with_reducible apply Keeps.next (dropParts_keeps _ _ _ _ _)
    | with_reducible apply Keeps.foldl
    | split
    | (intro _; try dsimp only)

theorem drainSettle_keeps (p : Params) (w : ℕ) (q : ℕ) (b : Block) :
    Keeps p b (drainSettle p w q b) := by
  unfold drainSettle
  try dsimp only
  repeat' first
    | with_reducible apply Keeps.refl
    | with_reducible apply Keeps.next (updEnt_keeps p _ _ _)
    | with_reducible apply Keeps.next (updCQ_keeps p _ _ _ _)
    | with_reducible apply Keeps.next (logRec_keeps _ _ _)
    | with_reducible apply Keeps.next (settle_keeps _ _ _ _ _ _ _ _ _ _)
    | with_reducible apply Keeps.next (cqSettle_keeps _ _ _ _ _ _)
    | with_reducible apply Keeps.foldl
    | split
    | (intro _; try dsimp only)

theorem cancelEntry_keeps (p : Params) (h : ℕ) (b : Block) :
    Keeps p b (cancelEntry p h b) := by
  unfold cancelEntry
  try dsimp only
  repeat' first
    | with_reducible apply Keeps.refl
    | with_reducible apply Keeps.next (updEnt_keeps p _ _ _)
    | with_reducible apply Keeps.next (updCQ_keeps p _ _ _ _)
    | with_reducible apply Keeps.next (voidW_keeps p _ _)
    | with_reducible apply Keeps.next (xsend_keeps p _ _ _ _)
    | with_reducible apply Keeps.next (unqueue_keeps _ _ _ _ _)
    | with_reducible apply Keeps.next (settle_keeps _ _ _ _ _ _ _ _ _ _)
    | with_reducible apply Keeps.next (cqSettle_keeps _ _ _ _ _ _)
    | with_reducible apply Keeps.foldl
    | split
    | (intro _; try dsimp only)

theorem makeReady_keeps (p : Params) (h : ℕ) (b : Block) :
    Keeps p b (makeReady p h b) := by
  unfold makeReady
  try dsimp only
  repeat' first
    | with_reducible apply Keeps.refl
    | with_reducible apply Keeps.next (updEnt_keeps p _ _ _)
    | with_reducible apply Keeps.next (trTask_keeps _ _ _ _ _ _ _)
    | with_reducible apply Keeps.next (refetch_keeps _ _ _)
    | with_reducible apply Keeps.when
    | with_reducible apply Keeps.foldl
    | split
    | (intro _; try dsimp only)

theorem claimSlots_keeps (p : Params) (w : ℕ) (e : Entry) (b : Block) :
    Keeps p b (claimSlots w e b) := by
  unfold claimSlots
  try dsimp only
  repeat' first
    | with_reducible apply Keeps.refl
    | with_reducible apply Keeps.next (updSlot_keeps p _ _ _ _)
    | with_reducible apply Keeps.forEach
    | with_reducible apply Keeps.foldl
    | split
    | (intro _; try dsimp only)

theorem guardStep_keeps (p : Params) (h : ℕ) (b : Block) :
    Keeps p b (guardStep p h b) := by
  unfold guardStep
  try dsimp only
  repeat' first
    | with_reducible apply Keeps.refl
    | with_reducible apply Keeps.next (tookSeq_keeps p _)
    | with_reducible apply Keeps.next (updEnt_keeps p _ _ _)
    | with_reducible apply Keeps.next (makeReady_keeps _ _ _)
    | with_reducible apply Keeps.next (claimSlots_keeps p _ _ _)
    | with_reducible apply Keeps.foldl
    | split
    | (intro _; try dsimp only)

theorem examine_keeps (p : Params) (h : ℕ) (b : Block) :
    Keeps p b (examine p h b) := by
  unfold examine
  try dsimp only
  repeat' first
    | with_reducible apply Keeps.refl
    | with_reducible apply Keeps.next (updEnt_keeps p _ _ _)
    | with_reducible apply Keeps.next (settle_keeps _ _ _ _ _ _ _ _ _ _)
    | with_reducible apply Keeps.next (guardStep_keeps _ _ _)
    | with_reducible apply Keeps.foldl
    | split
    | (intro _; try dsimp only)

theorem touch_keeps (p : Params) (h : ℕ) (b : Block) :
    Keeps p b (touch h b) :=
  Keeps.free (Only.mono (touch_only _ _) (by decide)) (Keeps.refl _ _)

theorem guardPassAll_keeps (p : Params) (w : ℕ) (b : Block) :
    Keeps p b (guardPassAll p w b) := by
  unfold guardPassAll
  try dsimp only
  repeat' first
    | with_reducible apply Keeps.refl
    | with_reducible apply Keeps.next (guardStep_keeps _ _ _)
    | with_reducible apply Keeps.when
    | with_reducible apply Keeps.forEach
    | with_reducible apply Keeps.foldl
    | split
    | (intro _; try dsimp only)

theorem drainExam_keeps (p : Params) (b : Block) :
    Keeps p b (drainExam p b) := by
  unfold drainExam
  try dsimp only
  repeat' first
    | with_reducible apply Keeps.refl
    | with_reducible apply Keeps.next (updClk_keeps p _ _)
    | with_reducible apply Keeps.next (slotRank_keeps p _)
    | with_reducible apply Keeps.next (examine_keeps _ _ _)
    | with_reducible apply Keeps.next (guardPassAll_keeps _ _ _)
    | with_reducible apply Keeps.forEach
    | with_reducible apply Keeps.foldl
    | split
    | (intro _; try dsimp only)

theorem endCycle_keeps (p : Params) (eoc : Bool) (b : Block) :
    Keeps p b (endCycle p eoc b) := by
  unfold endCycle
  try dsimp only
  repeat' first
    | with_reducible apply Keeps.refl
    | with_reducible apply Keeps.next (drainExam_keeps _ _)
    | with_reducible apply Keeps.when
    | with_reducible apply Keeps.foldl
    | split
    | (intro _; try dsimp only)

theorem wantStage_keeps (p : Params) (h : ℕ) (b : Block) :
    Keeps p b (wantStage h b) := by
  unfold wantStage
  try dsimp only
  repeat' first
    | with_reducible apply Keeps.refl
    | with_reducible apply Keeps.next (updEnt_keeps p _ _ _)
    | with_reducible apply Keeps.when
    | with_reducible apply Keeps.foldl
    | split
    | (intro _; try dsimp only)

theorem staleItem_keeps (p : Params) (word : Word32) (b : Block) :
    Keeps p b (staleItem p word b) := by
  unfold staleItem
  try dsimp only
  repeat' first
    | with_reducible apply Keeps.refl
    | with_reducible apply Keeps.next (bump_keeps p _ _ _)
    | with_reducible apply Keeps.when
    | with_reducible apply Keeps.foldl
    | split
    | (intro _; try dsimp only)

theorem excess_keeps (p : Params) (h : ℕ) (b : Block) :
    Keeps p b (excess p h b) := by
  unfold excess
  try dsimp only
  repeat' first
    | with_reducible apply Keeps.refl
    | with_reducible apply Keeps.next (bump_keeps p _ _ _)
    | with_reducible apply Keeps.next (logRec_keeps _ _ _)
    | with_reducible apply Keeps.foldl
    | split
    | (intro _; try dsimp only)

theorem tumblerItem_keeps (p : Params) (kind : ℕ) (word : Word32) (root : Word32) (st : Status) (b : Block) :
    Keeps p b (tumblerItem p kind word root st b) := by
  unfold tumblerItem
  try dsimp only
  repeat' first
    | with_reducible apply Keeps.refl
    | with_reducible apply Keeps.next (updEnt_keeps p _ _ _)
    | with_reducible apply Keeps.next (settle_keeps _ _ _ _ _ _ _ _ _ _)
    | with_reducible apply Keeps.next (touch_keeps p _ _)
    | with_reducible apply Keeps.next (wantStage_keeps p _ _)
    | with_reducible apply Keeps.next (staleItem_keeps _ _ _)
    | with_reducible apply Keeps.next (excess_keeps _ _ _)
    | with_reducible apply Keeps.foldl
    | split
    | (intro _; try dsimp only)

theorem sampleItem_keeps (p : Params) (kind : ℕ) (word : Word32) (root : Word32) (src : Option Via) (b : Block) :
    Keeps p b (sampleItem p kind word root src b) := by
  unfold sampleItem
  try dsimp only
  repeat' first
    | with_reducible apply Keeps.refl
    | with_reducible apply Keeps.next (updEnt_keeps p _ _ _)
    | with_reducible apply Keeps.next (updFed_keeps p _ _ _)
    | with_reducible apply Keeps.next (bump_keeps p _ _ _)
    | with_reducible apply Keeps.next (xrx_keeps p _ _ _)
    | with_reducible apply Keeps.next (xdrop_keeps p _ _)
    | with_reducible refine rxItem_keeps ?_ ?_
    | with_reducible apply Keeps.next (staleItem_keeps _ _ _)
    | with_reducible apply Keeps.next (tumblerItem_keeps _ _ _ _ _ _)
    | with_reducible apply Keeps.when
    | with_reducible apply Keeps.foldl
    | split
    | (intro _; try dsimp only)

theorem sealEntry_keeps (p : Params) (h : ℕ) (b : Block) :
    Keeps p b (sealEntry p h b) := by
  unfold sealEntry
  try dsimp only
  repeat' first
    | with_reducible apply Keeps.refl
    | with_reducible apply Keeps.next (updEnt_keeps p _ _ _)
    | with_reducible apply Keeps.next (drainSettle_keeps _ _ _ _)
    | with_reducible apply Keeps.next (cancelEntry_keeps _ _ _)
    | with_reducible apply Keeps.next (touch_keeps p _ _)
    | with_reducible apply Keeps.next (wantStage_keeps p _ _)
    | with_reducible apply Keeps.when
    | with_reducible apply Keeps.foldl
    | split
    | (intro _; try dsimp only)

theorem dropRemSeg_keeps (p : Params) (inst : ℕ) (bank : ℕ) (b : Block) :
    Keeps p b (dropRemSeg inst bank b) :=
  Keeps.free (Only.mono (dropRemSeg_only _ _ _) (by decide)) (Keeps.refl _ _)

theorem sealHanded_keeps (p : Params) (inst : ℕ) (bank : ℕ) (b : Block) :
    Keeps p b (sealHanded inst bank b) :=
  Keeps.free (Only.mono (sealHanded_only _ _ _) (by decide)) (Keeps.refl _ _)

theorem homeCmp_keeps (p : Params) (h : ℕ) (status : Status) (aux : Word32) (busy : ℕ) (qwait : ℕ) (stats : Option (BitVec 256)) (b : Block) :
    Keeps p b (homeCmp p h status aux busy qwait stats b) := by
  unfold homeCmp
  try dsimp only
  repeat' first
    | with_reducible apply Keeps.refl
    | with_reducible apply Keeps.next (updEnt_keeps p _ _ _)
    | with_reducible apply Keeps.next (voidW_keeps p _ _)
    | with_reducible apply Keeps.next (settle_keeps _ _ _ _ _ _ _ _ _ _)
    | with_reducible apply Keeps.when
    | with_reducible apply Keeps.foldl
    | split
    | (intro _; try dsimp only)

theorem proxyState_keeps (p : Params) (kind : ProxyKind) (h : ℕ) (b : Block) :
    Keeps p b (proxyState kind h b) := by
  unfold proxyState
  try dsimp only
  repeat' first
    | with_reducible apply Keeps.refl
    | with_reducible apply Keeps.next (updEnt_keeps p _ _ _)
    | with_reducible apply Keeps.foldl
    | split
    | (intro _; try dsimp only)

theorem deliverOne_keeps (p : Params) (h : ℕ) (word : Word32) (b : Block) :
    Keeps p b (deliverOne p h word b) := by
  unfold deliverOne
  try dsimp only
  repeat' first
    | with_reducible apply Keeps.refl
    | with_reducible apply Keeps.next (updEnt_keeps p _ _ _)
    | with_reducible apply Keeps.next (bump_keeps p _ _ _)
    | with_reducible apply Keeps.next (xput_keeps p _ _)
    | with_reducible apply Keeps.next (xsend_keeps p _ _ _ _)
    | with_reducible apply Keeps.next (sendFor_keeps p _ _ _)
    | with_reducible apply Keeps.foldl
    | split
    | (intro _; try dsimp only)

theorem freeQueue_keeps (p : Params) (h : ℕ) (e : Entry) (b : Block) :
    Keeps p b (freeQueue h e b) := by
  unfold freeQueue
  try dsimp only
  repeat' first
    | with_reducible apply Keeps.refl
    | with_reducible apply Keeps.next (updCQ_keeps p _ _ _ _)
    | with_reducible apply Keeps.foldl
    | split
    | (intro _; try dsimp only)

theorem spillOut_keeps (p : Params) (h : ℕ) (b : Block) :
    Keeps p b (spillOut p h b) := by
  unfold spillOut
  try dsimp only
  repeat' first
    | with_reducible apply Keeps.refl
    | with_reducible apply Keeps.next (updEnt_keeps p _ _ _)
    | with_reducible apply Keeps.next (mpW_keeps _ _ _ _ _ _ _ _)
    | with_reducible apply Keeps.foldl
    | split
    | (intro _; try dsimp only)

theorem evict_keeps (p : Params) (w : ℕ) (need : ℕ) (x3 : ℕ) (x4 : Block) :
    Keeps p x4 (evict p w need x3 x4) := by
  induction x3 generalizing x4 with
  | zero =>
    unfold evict
    try dsimp only
    repeat' first
        | with_reducible apply Keeps.refl
        | with_reducible apply Keeps.next (spillOut_keeps _ _ _)
        | with_reducible apply Keeps.foldl
        | split
        | (intro _; try dsimp only)
  | succ k ih =>
    unfold evict
    try dsimp only
    repeat' first
        | with_reducible apply Keeps.next (ih _)
        | with_reducible apply Keeps.refl
        | with_reducible apply Keeps.next (spillOut_keeps _ _ _)
        | with_reducible apply Keeps.foldl
        | split
        | (intro _; try dsimp only)

theorem putLinks_keeps (p : Params) (h : ℕ) (ws : List Word32) (b : Block) :
    Keeps p b (putLinks p h ws b) := by
  unfold putLinks
  try dsimp only
  repeat' first
    | with_reducible apply Keeps.refl
    | with_reducible apply Keeps.next (updEnt_keeps p _ _ _)
    | with_reducible apply Keeps.next (spillOut_keeps _ _ _)
    | with_reducible apply Keeps.next (evict_keeps _ _ _ _ _)
    | with_reducible apply Keeps.when
    | with_reducible apply Keeps.foldl
    | split
    | (intro _; try dsimp only)

theorem occUp_keeps (p : Params) (n : ℕ) (h : ℕ) (b : Block) :
    Keeps p b (occUp n h b) := by
  unfold occUp
  try dsimp only
  repeat' first
    | with_reducible apply Keeps.refl
    | with_reducible apply Keeps.set_occ
    | with_reducible apply Keeps.upd_occ
    | with_reducible apply Keeps.foldl
    | split
    | refine Keeps.free (by intro f hf; cases f <;> first | exact absurd (by decide) hf | dsimp only [agree]) ?_
    | (intro _; try dsimp only)

theorem occDown_keeps (p : Params) (n : ℕ) (h : ℕ) (b : Block) :
    Keeps p b (occDown n h b) := by
  unfold occDown
  try dsimp only
  repeat' first
    | with_reducible apply Keeps.refl
    | with_reducible apply Keeps.set_occ
    | with_reducible apply Keeps.upd_occ
    | with_reducible apply Keeps.foldl
    | split
    | refine Keeps.free (by intro f hf; cases f <;> first | exact absurd (by decide) hf | dsimp only [agree]) ?_
    | (intro _; try dsimp only)

theorem countGrant_keeps (p : Params) (d : ℕ) (b : Block) :
    Keeps p b (countGrant d b) :=
  Keeps.free (Only.mono (countGrant_only _ _) (by decide)) (Keeps.refl _ _)

theorem grant_keeps (p : Params) (d : ℕ) (g : GReq) (b : Block) :
    Keeps p b (grant p d g b) := by
  unfold grant
  try dsimp only
  repeat' first
    | with_reducible apply Keeps.refl
    | with_reducible apply Keeps.next (updEnt_keeps p _ _ _)
    | with_reducible apply Keeps.next (updDom_keeps p _ _ _)
    | with_reducible apply Keeps.next (xsend_keeps p _ _ _ _)
    | with_reducible apply Keeps.next (countGrant_keeps p _ _)
    | with_reducible apply Keeps.foldl
    | split
    | (intro _; try dsimp only)

theorem govExamine_keeps (p : Params) (d : ℕ) (x2 : ℕ) (x3 : Block) :
    Keeps p x3 (govExamine p d x2 x3) := by
  induction x2 generalizing x3 with
  | zero =>
    unfold govExamine
    try dsimp only
    repeat' first
        | with_reducible apply Keeps.refl
        | with_reducible apply Keeps.next (grant_keeps _ _ _ _)
        | with_reducible apply Keeps.foldl
        | split
        | (intro _; try dsimp only)
  | succ k ih =>
    unfold govExamine
    try dsimp only
    repeat' first
        | with_reducible apply Keeps.next (ih _)
        | with_reducible apply Keeps.refl
        | with_reducible apply Keeps.next (grant_keeps _ _ _ _)
        | with_reducible apply Keeps.foldl
        | split
        | (intro _; try dsimp only)

theorem govArrive_keeps (p : Params) (h : ℕ) (gen : ℕ) (n : ℕ) (b : Block) :
    Keeps p b (govArrive p h gen n b) :=
  Keeps.free (Only.mono (govArrive_only _ _ _ _ _) (by decide)) (Keeps.refl _ _)

theorem govDelayed_keeps (p : Params) (d : ℕ) (b : Block) :
    Keeps p b (govDelayed p d b) := by
  unfold govDelayed
  try dsimp only
  repeat' first
    | with_reducible apply Keeps.refl
    | with_reducible apply Keeps.next (trTask_keeps _ _ _ _ _ _ _)
    | with_reducible apply Keeps.forEach
    | with_reducible apply Keeps.foldl
    | split
    | (intro _; try dsimp only)

theorem govCycle_keeps (p : Params) (b : Block) :
    Keeps p b (govCycle p b) := by
  unfold govCycle
  try dsimp only
  repeat' first
    | with_reducible apply Keeps.refl
    | with_reducible apply Keeps.next (govExamine_keeps _ _ _ _)
    | with_reducible apply Keeps.next (govDelayed_keeps _ _ _)
    | with_reducible apply Keeps.when
    | with_reducible apply Keeps.forEach
    | with_reducible apply Keeps.foldl
    | split
    | (intro _; try dsimp only)

theorem dwrr_keeps (p : Params) (w : ℕ) (T : List ℕ) (x2 : ℕ) (x3 : Block) :
    Keeps p x3 (dwrr w T x2 x3).2 :=
  Keeps.free (Only.mono (dwrr_only _ _ _ _) (by decide)) (Keeps.refl _ _)

theorem forwardTask_keeps (p : Params) (w : ℕ) (h : ℕ) (tier : ℕ) (b : Block) :
    Keeps p b (forwardTask w h tier b) := by
  unfold forwardTask
  try dsimp only
  repeat' first
    | with_reducible apply Keeps.refl
    | with_reducible apply Keeps.next (updEnt_keeps p _ _ _)
    | with_reducible apply Keeps.next (xsend_keeps p _ _ _ _)
    | with_reducible apply Keeps.foldl
    | split
    | (intro _; try dsimp only)

theorem forwardStage_keeps (p : Params) (w : ℕ) (b : Block) :
    Keeps p b (forwardStage w b) := by
  unfold forwardStage
  try dsimp only
  repeat' first
    | with_reducible apply Keeps.refl
    | with_reducible apply Keeps.next (updEnt_keeps p _ _ _)
    | with_reducible apply Keeps.next (xsend_keeps p _ _ _ _)
    | with_reducible apply Keeps.foldl
    | split
    | (intro _; try dsimp only)

theorem lcGone_keeps (p : Params) (r : PReq) (b : Block) :
    Keeps p b (lcGone r b) :=
  Keeps.free (Only.mono (lcGone_only _ _) (by decide)) (Keeps.refl _ _)

theorem assignPort_keeps (p : Params) (r : PReq) (n : ℕ) (rank : ℕ) (b : Block) :
    Keeps p b (assignPort r n rank b) := by
  unfold assignPort
  try dsimp only
  repeat' first
    | with_reducible apply Keeps.refl
    | with_reducible apply Keeps.next (updEnt_keeps p _ _ _)
    | with_reducible apply Keeps.next (bump_keeps p _ _ _)
    | with_reducible apply Keeps.next (occUp_keeps p _ _ _)
    | with_reducible apply Keeps.next (lcGone_keeps p _ _)
    | with_reducible apply Keeps.foldl
    | split
    | refine Keeps.free (by intro f hf; cases f <;> first | exact absurd (by decide) hf | dsimp only [agree]) ?_
    | (intro _; try dsimp only)

theorem offerWaiting_keeps (p : Params) (t : ℕ) (b : Block) :
    Keeps p b (offerWaiting p t b) := by
  unfold offerWaiting
  try dsimp only
  repeat' first
    | with_reducible apply Keeps.refl
    | with_reducible apply Keeps.next (assignPort_keeps p _ _ _ _)
    | with_reducible apply Keeps.forEach
    | with_reducible apply Keeps.foldl
    | split
    | (intro _; try dsimp only)

theorem decideReq_keeps (p : Params) (r : PReq) (b : Block) :
    Keeps p b (decideReq p r b) := by
  unfold decideReq
  try dsimp only
  repeat' first
    | with_reducible apply Keeps.refl
    | with_reducible apply Keeps.next (assignPort_keeps p _ _ _ _)
    | with_reducible apply Keeps.next (offerWaiting_keeps _ _ _)
    | with_reducible apply Keeps.foldl
    | split
    | refine Keeps.free (by intro f hf; cases f <;> first | exact absurd (by decide) hf | dsimp only [agree]) ?_
    | (intro _; try dsimp only)

theorem decideAll_keeps (p : Params) (b : Block) :
    Keeps p b (decideAll p b) := by
  unfold decideAll
  try dsimp only
  repeat' first
    | with_reducible apply Keeps.refl
    | with_reducible apply Keeps.next (offerWaiting_keeps _ _ _)
    | with_reducible apply Keeps.next (decideReq_keeps _ _ _)
    | with_reducible apply Keeps.forEach
    | with_reducible apply Keeps.foldl
    | split
    | (intro _; try dsimp only)

theorem reserve_keeps (p : Params) (h : ℕ) (n : ℕ) (b : Block) :
    Keeps p b (reserve p h n b) := by
  unfold reserve
  try dsimp only
  repeat' first
    | with_reducible apply Keeps.refl
    | with_reducible apply Keeps.next (updEnt_keeps p _ _ _)
    | with_reducible apply Keeps.next (updDom_keeps p _ _ _)
    | with_reducible apply Keeps.when
    | with_reducible apply Keeps.foldl
    | split
    | (intro _; try dsimp only)

theorem enqueue_keeps (p : Params) (h : ℕ) (gen : ℕ) (n : ℕ) (b : Block) :
    Keeps p b (enqueue p h gen n b) := by
  unfold enqueue
  try dsimp only
  repeat' first
    | with_reducible apply Keeps.refl
    | with_reducible apply Keeps.next (updEnt_keeps p _ _ _)
    | with_reducible apply Keeps.next (updPort_keeps p _ _ _)
    | with_reducible apply Keeps.next (xsend_keeps p _ _ _ _)
    | with_reducible apply Keeps.next (trTask_keeps _ _ _ _ _ _ _)
    | with_reducible apply Keeps.next (evRec_keeps _ _ _ _ _ _ _ _)
    | with_reducible apply Keeps.next (unloadStage_keeps _ _ _ _ _)
    | with_reducible apply Keeps.next (proxyState_keeps p _ _ _)
    | with_reducible apply Keeps.foldl
    | split
    | (intro _; try dsimp only)

theorem stageLost_keeps (p : Params) (h : ℕ) (b : Block) :
    Keeps p b (stageLost h b) := by
  unfold stageLost
  try dsimp only
  repeat' first
    | with_reducible apply Keeps.refl
    | with_reducible apply Keeps.next (updEnt_keeps p _ _ _)
    | with_reducible apply Keeps.foldl
    | split
    | (intro _; try dsimp only)

theorem spendToken_keeps (p : Params) (h : ℕ) (b : Block) :
    Keeps p b (spendToken h b) :=
  Keeps.free (Only.mono (spendToken_only _ _) (by decide)) (Keeps.refl _ _)

theorem freePort_keeps (p : Params) (port : ℕ) (b : Block) :
    Keeps p b (freePort p port b) := by
  unfold freePort
  try dsimp only
  repeat' first
    | with_reducible apply Keeps.refl
    | with_reducible apply Keeps.next (updDom_keeps p _ _ _)
    | with_reducible apply Keeps.set_occ
    | with_reducible apply Keeps.upd_occ
    | with_reducible apply Keeps.foldl
    | split
    | refine Keeps.free (by intro f hf; cases f <;> first | exact absurd (by decide) hf | dsimp only [agree]) ?_
    | (intro _; try dsimp only)

theorem dropGov_keeps (p : Params) (h : ℕ) (b : Block) :
    Keeps p b (dropGov h b) :=
  Keeps.free (Only.mono (dropGov_only _ _) (by decide)) (Keeps.refl _ _)

theorem stageGone_keeps (p : Params) (port : ℕ) (h : ℕ) (b : Block) :
    Keeps p b (stageGone p port h b) := by
  unfold stageGone
  try dsimp only
  repeat' first
    | with_reducible apply Keeps.refl
    | with_reducible apply Keeps.next (updEnt_keeps p _ _ _)
    | with_reducible apply Keeps.next (updDom_keeps p _ _ _)
    | with_reducible apply Keeps.next (dropGov_keeps p _ _)
    | with_reducible apply Keeps.when
    | with_reducible apply Keeps.foldl
    | split
    | (intro _; try dsimp only)

theorem withdrawn_keeps (p : Params) (h : ℕ) (gen : ℕ) (b : Block) :
    Keeps p b (withdrawn h gen b) := by
  unfold withdrawn
  try dsimp only
  repeat' first
    | with_reducible apply Keeps.refl
    | with_reducible apply Keeps.next (updEnt_keeps p _ _ _)
    | with_reducible apply Keeps.next (updDom_keeps p _ _ _)
    | with_reducible apply Keeps.next (xput_keeps p _ _)
    | with_reducible apply Keeps.next (xdrop_keeps p _ _)
    | with_reducible apply Keeps.next (occDown_keeps p _ _ _)
    | with_reducible apply Keeps.next (lcGone_keeps p _ _)
    | with_reducible apply Keeps.when
    | with_reducible apply Keeps.foldl
    | split
    | refine Keeps.free (by intro f hf; cases f <;> first | exact absurd (by decide) hf | dsimp only [agree]) ?_
    | (intro _; try dsimp only)

theorem reportReady_keeps (p : Params) (b : Block) :
    Keeps p b (reportReady p b) :=
  Keeps.free (Only.mono (reportReady_only _ _) (by decide)) (Keeps.refl _ _)

end Sys2Proof.Machine
end

