-- ==== Sys2Proof/Laws/KeepsChannels.lean ====
section
/-! SUPPORT. Each operation keeps the block sound: channels, message queues, messages and combining queues. -/

namespace Sys2Proof.Machine

set_option linter.all false

theorem updChan_keeps (p : Params) (k : ChKey) (f : Chan → Chan) (b : Block) :
    Keeps p b (updChan k f b) := by
  unfold updChan
  try dsimp only
  repeat' first
    | with_reducible apply Keeps.refl
    | with_reducible apply Keeps.next (setChan_keeps p _ _ _)
    | with_reducible apply Keeps.foldl
    | split
    | refine Keeps.free (by intro f hf; cases f <;> first | exact absurd (by decide) hf | dsimp only [agree]) ?_
    | (intro _; try dsimp only)

theorem trMsg_keeps (p : Params) (w : ℕ) (kind : ℕ) (c : Chan) (ch : ℕ) (seq : BitVec 16) (aux : ℕ) (b : Block) :
    Keeps p b (trMsg p w kind c ch seq aux b) := by
  unfold trMsg
  try dsimp only
  repeat' first
    | with_reducible apply Keeps.refl
    | with_reducible apply Keeps.next (trForm_keeps _ _ _ _)
    | with_reducible apply Keeps.foldl
    | split
    | (intro _; try dsimp only)

theorem answerHere_keeps (p : Params) (n : ℕ) (hdr : BitVec 512) (st : Status) (result : Word32) (chid : ℕ) (seq : BitVec 16) (b : Block) :
    Keeps p b (answerHere p n hdr st result chid seq b) := by
  unfold answerHere
  try dsimp only
  repeat' first
    | with_reducible apply Keeps.refl
    | with_reducible apply Keeps.next (answerTo_keeps _ _ _ _ _)
    | with_reducible apply Keeps.foldl
    | split
    | (intro _; try dsimp only)

theorem landOn_keeps (p : Params) (n : ℕ) (key : ChKey) (be : Bool) (flits : List (BitVec 512)) (poison : List (BitVec 8)) (st : OpdBeat) (b : Block) :
    Keeps p b (landOn n key be flits poison st b) := by
  unfold landOn
  try dsimp only
  repeat' first
    | with_reducible apply Keeps.refl
    | with_reducible apply Keeps.next (updPort_keeps p _ _ _)
    | with_reducible apply Keeps.foldl
    | split
    | (intro _; try dsimp only)

theorem countLanded_keeps (p : Params) (key : ChKey) (n : ℕ) (poison : Bool) (hop : Option ℕ) (b : Block) :
    Keeps p b (countLanded key n poison hop b) := by
  unfold countLanded
  try dsimp only
  repeat' first
    | with_reducible apply Keeps.refl
    | with_reducible apply Keeps.next (updChan_keeps p _ _ _)
    | with_reducible apply Keeps.foldl
    | split
    | (intro _; try dsimp only)

theorem closedBeat_keeps (p : Params) (key : ChKey) (b : Block) :
    Keeps p b (closedBeat key b) := by
  unfold closedBeat
  try dsimp only
  repeat' first
    | with_reducible apply Keeps.refl
    | with_reducible apply Keeps.next (updPort_keeps p _ _ _)
    | with_reducible apply Keeps.next (updChan_keeps p _ _ _)
    | with_reducible apply Keeps.foldl
    | split
    | (intro _; try dsimp only)

theorem mqXoff_keeps (p : Params) (w : ℕ) (q : ℕ) (b : Block) :
    Keeps p b (mqXoff p w q b) := by
  unfold mqXoff
  try dsimp only
  repeat' first
    | with_reducible apply Keeps.refl
    | with_reducible apply Keeps.next (updMQ_keeps p _ _ _ _)
    | with_reducible apply Keeps.next (emit_keeps p _ _)
    | with_reducible apply Keeps.next (evRec_keeps _ _ _ _ _ _ _ _)
    | with_reducible apply Keeps.forEach
    | with_reducible apply Keeps.foldl
    | split
    | (intro _; try dsimp only)

theorem mqDeliver_keeps (p : Params) (w : ℕ) (q : ℕ) (b : Block) :
    Keeps p b (mqDeliver p w q b) := by
  unfold mqDeliver
  try dsimp only
  repeat' first
    | with_reducible apply Keeps.refl
    | with_reducible apply Keeps.next (updMQ_keeps p _ _ _ _)
    | with_reducible apply Keeps.next (landOn_keeps p _ _ _ _ _ _ _)
    | with_reducible apply Keeps.foldl
    | split
    | (intro _; try dsimp only)

theorem mqServe_keeps (p : Params) (n : ℕ) (b : Block) :
    Keeps p b (mqServe p n b) := by
  unfold mqServe
  try dsimp only
  repeat' first
    | with_reducible apply Keeps.refl
    | with_reducible apply Keeps.next (mqDeliver_keeps _ _ _ _)
    | with_reducible apply Keeps.forEach
    | with_reducible apply Keeps.foldl
    | split
    | (intro _; try dsimp only)

theorem mqCycle_keeps (p : Params) (b : Block) :
    Keeps p b (mqCycle p b) := by
  unfold mqCycle
  try dsimp only
  repeat' first
    | with_reducible apply Keeps.refl
    | with_reducible apply Keeps.next (mqXoff_keeps _ _ _ _)
    | with_reducible apply Keeps.next (mqDeliver_keeps _ _ _ _)
    | with_reducible apply Keeps.forEach
    | with_reducible apply Keeps.foldl
    | split
    | (intro _; try dsimp only)

theorem mqFlushNow_keeps (p : Params) (w : ℕ) (q : ℕ) (b : Block) :
    Keeps p b (mqFlushNow w q b) := by
  unfold mqFlushNow
  try dsimp only
  repeat' first
    | with_reducible apply Keeps.refl
    | with_reducible apply Keeps.next (updMQ_keeps p _ _ _ _)
    | with_reducible apply Keeps.foldl
    | split
    | (intro _; try dsimp only)

theorem mqCfgAt_keeps (p : Params) (w : ℕ) (v : Word32) (b : Block) :
    Keeps p b (mqCfgAt p w v b) := by
  unfold mqCfgAt
  try dsimp only
  repeat' first
    | with_reducible apply Keeps.refl
    | with_reducible apply Keeps.next (updMQ_keeps p _ _ _ _)
    | with_reducible apply Keeps.next (pgErr_keeps _ _ _ _)
    | with_reducible apply Keeps.when
    | with_reducible apply Keeps.foldl
    | split
    | (intro _; try dsimp only)

theorem mqPushAt_keeps (p : Params) (w : ℕ) (be : Bool) (b : Block) :
    Keeps p b (mqPushAt p w be b) := by
  unfold mqPushAt
  try dsimp only
  repeat' first
    | with_reducible apply Keeps.refl
    | with_reducible apply Keeps.next (updMQ_keeps p _ _ _ _)
    | with_reducible apply Keeps.next (mqDeliver_keeps _ _ _ _)
    | with_reducible apply Keeps.foldl
    | split
    | (intro _; try dsimp only)

theorem mqPopAt_keeps (p : Params) (w : ℕ) (b : Block) :
    Keeps p b (mqPopAt p w b) := by
  unfold mqPopAt
  try dsimp only
  repeat' first
    | with_reducible apply Keeps.refl
    | with_reducible apply Keeps.next (updMQ_keeps p _ _ _ _)
    | with_reducible apply Keeps.set_mqPop
    | with_reducible apply Keeps.upd_mqPop
    | with_reducible apply Keeps.foldl
    | split
    | refine Keeps.free (by intro f hf; cases f <;> first | exact absurd (by decide) hf | dsimp only [agree]) ?_
    | (intro _; try dsimp only)

theorem mqFlushAt_keeps (p : Params) (w : ℕ) (b : Block) :
    Keeps p b (mqFlushAt p w b) := by
  unfold mqFlushAt
  try dsimp only
  repeat' first
    | with_reducible apply Keeps.refl
    | with_reducible apply Keeps.next (updMQ_keeps p _ _ _ _)
    | with_reducible apply Keeps.next (mqFlushNow_keeps p _ _ _)
    | with_reducible apply Keeps.foldl
    | split
    | (intro _; try dsimp only)

theorem mqAdvanceAt_keeps (p : Params) (w : ℕ) (b : Block) :
    Keeps p b (mqAdvanceAt w b) := by
  unfold mqAdvanceAt
  try dsimp only
  repeat' first
    | with_reducible apply Keeps.refl
    | with_reducible apply Keeps.set_mqPop
    | with_reducible apply Keeps.upd_mqPop
    | with_reducible apply Keeps.foldl
    | split
    | refine Keeps.free (by intro f hf; cases f <;> first | exact absurd (by decide) hf | dsimp only [agree]) ?_
    | (intro _; try dsimp only)

theorem watchMsg_keeps (p : Params) (key : ChKey) (flits : List (BitVec 512)) (poison : List (BitVec 8)) (b : Block) :
    Keeps p b (watchMsg key flits poison b) :=
  Keeps.free (Only.mono (watchMsg_only _ _ _ _) (by decide)) (Keeps.refl _ _)

theorem chanDigest_keeps (p : Params) (key : ChKey) (c : Chan) (b : Block) :
    Keeps p b (chanDigest p key c b) := by
  unfold chanDigest
  try dsimp only
  repeat' first
    | with_reducible apply Keeps.refl
    | with_reducible apply Keeps.next (digestWrite_keeps _ _ _ _ _ _)
    | with_reducible apply Keeps.foldl
    | split
    | (intro _; try dsimp only)

theorem countNack_keeps (p : Params) (n : ℕ) (ch : ℕ) (st : Status) (b : Block) :
    Keeps p b (countNack p n ch st b) := by
  unfold countNack
  try dsimp only
  repeat' first
    | with_reducible apply Keeps.refl
    | with_reducible apply Keeps.next (evRec_keeps _ _ _ _ _ _ _ _)
    | with_reducible apply Keeps.next (bumpNack_keeps _ _ _ _)
    | with_reducible apply Keeps.when
    | with_reducible apply Keeps.foldl
    | split
    | (intro _; try dsimp only)

theorem retryUp_keeps (p : Params) (n : ℕ) (key : ChKey) (st : Status) (b : Block) :
    Keeps p b (retryUp p n key st b) := by
  unfold retryUp
  try dsimp only
  repeat' first
    | with_reducible apply Keeps.refl
    | with_reducible apply Keeps.next (xsend_keeps p _ _ _ _)
    | with_reducible apply Keeps.next (updChan_keeps p _ _ _)
    | with_reducible apply Keeps.when
    | with_reducible apply Keeps.foldl
    | split
    | (intro _; try dsimp only)

theorem refuseSend_keeps (p : Params) (n : ℕ) (hdr : BitVec 512) (st : Status) (result : ℕ) (seq : BitVec 16) (b : Block) :
    Keeps p b (refuseSend p n hdr st result seq b) := by
  unfold refuseSend
  try dsimp only
  repeat' first
    | with_reducible apply Keeps.refl
    | with_reducible apply Keeps.next (answerHere_keeps _ _ _ _ _ _ _ _)
    | with_reducible apply Keeps.next (countNack_keeps _ _ _ _ _)
    | with_reducible apply Keeps.next (retryUp_keeps _ _ _ _ _)
    | with_reducible apply Keeps.foldl
    | split
    | (intro _; try dsimp only)

theorem launch_keeps (p : Params) (w : ℕ) (c : Chan) (m : Msg) (b : Block) :
    Keeps p b (launch p w c m b) := by
  unfold launch
  try dsimp only
  repeat' first
    | with_reducible apply Keeps.refl
    | with_reducible apply Keeps.next (xtx_keeps p _ _ _)
    | with_reducible apply Keeps.next (xput_keeps p _ _)
    | with_reducible apply Keeps.next (xsend_keeps p _ _ _ _)
    | with_reducible apply Keeps.next (hingePut_keeps p _ _ _ _)
    | with_reducible apply Keeps.foldl
    | split
    | (intro _; try dsimp only)

theorem outcomeBack_keeps (p : Params) (w : ℕ) (key : ChKey) (c : Chan) (seq : BitVec 16) (st : Status) (b : Block) :
    Keeps p b (outcomeBack p w key c seq st b) := by
  unfold outcomeBack
  try dsimp only
  repeat' first
    | with_reducible apply Keeps.refl
    | with_reducible apply Keeps.next (xput_keeps p _ _)
    | with_reducible apply Keeps.next (xsend_keeps p _ _ _ _)
    | with_reducible apply Keeps.next (sendItem_keeps p _ _ _)
    | with_reducible apply Keeps.when
    | with_reducible apply Keeps.foldl
    | split
    | (intro _; try dsimp only)

theorem acceptPort_keeps (p : Params) (n : ℕ) (key : ChKey) (m : Msg) (b : Block) :
    Keeps p b (acceptPort n key m b) := by
  unfold acceptPort
  try dsimp only
  repeat' first
    | with_reducible apply Keeps.refl
    | with_reducible apply Keeps.next (updChan_keeps p _ _ _)
    | with_reducible apply Keeps.next (landOn_keeps p _ _ _ _ _ _ _)
    | with_reducible apply Keeps.next (countLanded_keeps p _ _ _ _ _)
    | with_reducible apply Keeps.next (watchMsg_keeps p _ _ _ _)
    | with_reducible apply Keeps.when
    | with_reducible apply Keeps.foldl
    | split
    | (intro _; try dsimp only)

theorem acceptQueue_keeps (p : Params) (w : ℕ) (q : ℕ) (key : ChKey) (c : Chan) (m : Msg) (b : Block) :
    Keeps p b (acceptQueue p w q key c m b) := by
  unfold acceptQueue
  try dsimp only
  repeat' first
    | with_reducible apply Keeps.refl
    | with_reducible apply Keeps.next (updMQ_keeps p _ _ _ _)
    | with_reducible apply Keeps.next (updChan_keeps p _ _ _)
    | with_reducible apply Keeps.next (countLanded_keeps p _ _ _ _ _)
    | with_reducible apply Keeps.next (mqDeliver_keeps _ _ _ _)
    | with_reducible apply Keeps.next (watchMsg_keeps p _ _ _ _)
    | with_reducible apply Keeps.next (outcomeBack_keeps _ _ _ _ _ _ _)
    | with_reducible apply Keeps.foldl
    | split
    | (intro _; try dsimp only)

theorem arriveMsg_keeps (p : Params) (key : ChKey) (c : Chan) (m : Msg) (b : Block) :
    Keeps p b (arriveMsg p key c m b) := by
  unfold arriveMsg
  try dsimp only
  repeat' first
    | with_reducible apply Keeps.refl
    | with_reducible apply Keeps.next (trMsg_keeps _ _ _ _ _ _ _ _)
    | with_reducible apply Keeps.next (outcomeBack_keeps _ _ _ _ _ _ _)
    | with_reducible apply Keeps.next (acceptPort_keeps p _ _ _ _)
    | with_reducible apply Keeps.next (acceptQueue_keeps _ _ _ _ _ _ _)
    | with_reducible apply Keeps.foldl
    | split
    | (intro _; try dsimp only)

theorem answerSend_keeps (p : Params) (key : ChKey) (c : Chan) (seq : BitVec 16) (st : Status) (result : ℕ) (b : Block) :
    Keeps p b (answerSend key c seq st result b) := by
  unfold answerSend
  try dsimp only
  repeat' first
    | with_reducible apply Keeps.refl
    | with_reducible apply Keeps.next (updPort_keeps p _ _ _)
    | with_reducible apply Keeps.foldl
    | split
    | (intro _; try dsimp only)

theorem forget_keeps (p : Params) (key : ChKey) (seq : BitVec 16) (b : Block) :
    Keeps p b (forget key seq b) := by
  unfold forget
  try dsimp only
  repeat' first
    | with_reducible apply Keeps.refl
    | with_reducible apply Keeps.next (updChan_keeps p _ _ _)
    | with_reducible apply Keeps.foldl
    | split
    | (intro _; try dsimp only)

theorem nackAt_keeps (p : Params) (key : ChKey) (seq : BitVec 16) (st : Status) (b : Block) :
    Keeps p b (nackAt p key seq st b) := by
  unfold nackAt
  try dsimp only
  repeat' first
    | with_reducible apply Keeps.refl
    | with_reducible apply Keeps.next (updChan_keeps p _ _ _)
    | with_reducible apply Keeps.next (countNack_keeps _ _ _ _ _)
    | with_reducible apply Keeps.next (retryUp_keeps _ _ _ _ _)
    | with_reducible apply Keeps.next (answerSend_keeps p _ _ _ _ _ _)
    | with_reducible apply Keeps.next (forget_keeps p _ _ _)
    | with_reducible apply Keeps.foldl
    | split
    | (intro _; try dsimp only)

theorem ackAt_keeps (p : Params) (key : ChKey) (seq : BitVec 16) (b : Block) :
    Keeps p b (ackAt key seq b) := by
  unfold ackAt
  split
  · exact Keeps.refl _ _
  · refine Keeps.storm (fun h => le_trans (List.length_filter_le _ _) h) ?_
    exact Keeps.next (updChan_keeps _ _ _ _) (Keeps.next (forget_keeps _ _ _ _) (answerSend_keeps _ _ _ _ _ _ _))

theorem backAt_keeps (p : Params) (key : ChKey) (src : Option ℕ) (b : Block) :
    Keeps p b (backAt p key src b) := by
  unfold backAt
  try dsimp only
  repeat' first
    | with_reducible apply Keeps.refl
    | with_reducible apply Keeps.next (xfrom_keeps p _ _ _ _)
    | with_reducible apply Keeps.foldl
    | split
    | (intro _; try dsimp only)

theorem opdSend_keeps (p : Params) (n : ℕ) (b : Block) :
    Keeps p b (opdSend n b) := by
  unfold opdSend
  try dsimp only
  repeat' first
    | with_reducible apply Keeps.refl
    | with_reducible apply Keeps.next (updPort_keeps p _ _ _)
    | with_reducible apply Keeps.next (emit_keeps p _ _)
    | with_reducible apply Keeps.foldl
    | split
    | (intro _; try dsimp only)

theorem relayNext_keeps (p : Params) (w : ℕ) (key : ChKey) (c : Chan) (x4 : OpdBeat) (hop : ℕ) (b : Block) :
    Keeps p b (relayNext p w key c x4 hop b) := by
  unfold relayNext
  try dsimp only
  repeat' first
    | with_reducible apply Keeps.refl
    | with_reducible apply Keeps.next (updChan_keeps p _ _ _)
    | with_reducible apply Keeps.next (launch_keeps _ _ _ _ _)
    | with_reducible apply Keeps.next (outcomeBack_keeps _ _ _ _ _ _ _)
    | with_reducible apply Keeps.foldl
    | split
    | (intro _; try dsimp only)

theorem bindTask_keeps (p : Params) (n : ℕ) (word : Word32) (b : Block) :
    Keeps p b (bindTask p n word b) := by
  unfold bindTask
  try dsimp only
  repeat' first
    | with_reducible apply Keeps.refl
    | with_reducible apply Keeps.next (updPort_keeps p _ _ _)
    | with_reducible apply Keeps.next (xto_keeps p _ _ _ _ _)
    | with_reducible apply Keeps.next (updChan_keeps p _ _ _)
    | with_reducible apply Keeps.when
    | with_reducible apply Keeps.forEach
    | with_reducible apply Keeps.foldl
    | split
    | (intro _; try dsimp only)

theorem unbindTask_keeps (p : Params) (n : ℕ) (b : Block) :
    Keeps p b (unbindTask p n b) := by
  unfold unbindTask
  try dsimp only
  repeat' first
    | with_reducible apply Keeps.refl
    | with_reducible apply Keeps.next (updPort_keeps p _ _ _)
    | with_reducible apply Keeps.next (xto_keeps p _ _ _ _ _)
    | with_reducible apply Keeps.next (updChan_keeps p _ _ _)
    | with_reducible apply Keeps.forEach
    | with_reducible apply Keeps.foldl
    | split
    | (intro _; try dsimp only)

theorem bindHops_keeps (p : Params) (c : Chan) (tx : Bool) (src : ℕ) (b : Block) :
    Keeps p b (bindHops p c tx src b) := by
  unfold bindHops
  try dsimp only
  repeat' first
    | with_reducible apply Keeps.refl
    | with_reducible apply Keeps.next (xtx_keeps p _ _ _)
    | with_reducible apply Keeps.next (xrx_keeps p _ _ _)
    | with_reducible apply Keeps.next (xfrom_keeps p _ _ _ _)
    | with_reducible apply Keeps.foldl
    | split
    | (intro _; try dsimp only)

theorem answerOpen_keeps (p : Params) (n : ℕ) (tag : BitVec 16) (st : Status) (id : ℕ) (b : Block) :
    Keeps p b (answerOpen p n tag st id b) := by
  unfold answerOpen
  try dsimp only
  repeat' first
    | with_reducible apply Keeps.refl
    | with_reducible apply Keeps.next (answerTo_keeps _ _ _ _ _)
    | with_reducible apply Keeps.foldl
    | split
    | (intro _; try dsimp only)

theorem bindRunning_keeps (p : Params) (key : ChKey) (e : EndP) (b : Block) :
    Keeps p b (bindRunning p key e b) := by
  unfold bindRunning
  try dsimp only
  repeat' first
    | with_reducible apply Keeps.refl
    | with_reducible apply Keeps.next (updChan_keeps p _ _ _)
    | with_reducible apply Keeps.next (bindTask_keeps _ _ _ _)
    | with_reducible apply Keeps.when
    | with_reducible apply Keeps.foldl
    | split
    | (intro _; try dsimp only)

theorem beginClose_keeps (p : Params) (w : Option ℕ) (key : ChKey) (b : Block) :
    Keeps p b (beginClose w key b) := by
  unfold beginClose
  try dsimp only
  repeat' first
    | with_reducible apply Keeps.refl
    | with_reducible apply Keeps.next (xput_keeps p _ _)
    | with_reducible apply Keeps.next (xsend_keeps p _ _ _ _)
    | with_reducible apply Keeps.next (updChan_keeps p _ _ _)
    | with_reducible apply Keeps.foldl
    | split
    | (intro _; try dsimp only)

theorem ownerGone_keeps (p : Params) (key : ChKey) (b : Block) :
    Keeps p b (ownerGone p key b) := by
  unfold ownerGone
  try dsimp only
  repeat' first
    | with_reducible apply Keeps.refl
    | with_reducible apply Keeps.next (beginClose_keeps p _ _ _)
    | with_reducible apply Keeps.when
    | with_reducible apply Keeps.foldl
    | split
    | (intro _; try dsimp only)

theorem closeFar_keeps (p : Params) (key : ChKey) (c : Chan) (b : Block) :
    Keeps p b (closeFar p key c b) := by
  unfold closeFar
  try dsimp only
  repeat' first
    | with_reducible apply Keeps.refl
    | with_reducible apply Keeps.next (sendItem_keeps p _ _ _)
    | with_reducible apply Keeps.when
    | with_reducible apply Keeps.foldl
    | split
    | (intro _; try dsimp only)

theorem closeEnd_keeps (p : Params) (key : ChKey) (b : Block) :
    Keeps p b (closeEnd key b) := by
  unfold closeEnd
  try dsimp only
  repeat' first
    | with_reducible apply Keeps.refl
    | with_reducible apply Keeps.next (updChan_keeps p _ _ _)
    | with_reducible apply Keeps.foldl
    | split
    | (intro _; try dsimp only)

theorem cutSends_keeps (p : Params) (n : ℕ) (b : Block) :
    Keeps p b (cutSends n b) := by
  unfold cutSends
  try dsimp only
  repeat' first
    | with_reducible apply Keeps.refl
    | with_reducible apply Keeps.next (updChan_keeps p _ _ _)
    | with_reducible apply Keeps.forEach
    | with_reducible apply Keeps.foldl
    | split
    | refine Keeps.free (by intro f hf; cases f <;> first | exact absurd (by decide) hf | dsimp only [agree]) ?_
    | (intro _; try dsimp only)

theorem resetChans_keeps (p : Params) (n : ℕ) (b : Block) :
    Keeps p b (resetChans p n b) := by
  unfold resetChans
  try dsimp only
  repeat' first
    | with_reducible apply Keeps.refl
    | with_reducible apply Keeps.next (updPort_keeps p _ _ _)
    | with_reducible apply Keeps.next (updMQ_keeps p _ _ _ _)
    | with_reducible apply Keeps.next (updChan_keeps p _ _ _)
    | with_reducible apply Keeps.next (outcomeBack_keeps _ _ _ _ _ _ _)
    | with_reducible apply Keeps.next (cutSends_keeps p _ _)
    | with_reducible apply Keeps.when
    | with_reducible apply Keeps.forEach
    | with_reducible apply Keeps.foldl
    | split
    | (intro _; try dsimp only)

theorem refusePart_keeps (p : Params) (n : ℕ) (hdr : BitVec 512) (st : Status) (b : Block) :
    Keeps p b (refusePart p n hdr st b) := by
  unfold refusePart
  try dsimp only
  repeat' first
    | with_reducible apply Keeps.refl
    | with_reducible apply Keeps.next (updPort_keeps p _ _ _)
    | with_reducible apply Keeps.next (bump_keeps p _ _ _)
    | with_reducible apply Keeps.next (bumpNack_keeps _ _ _ _)
    | with_reducible apply Keeps.next (answerHere_keeps _ _ _ _ _ _ _ _)
    | with_reducible apply Keeps.when
    | with_reducible apply Keeps.foldl
    | split
    | (intro _; try dsimp only)

theorem partBack_keeps (p : Params) (w : ℕ) (x2 : Part) (st : Status) (result : ℕ) (b : Block) :
    Keeps p b (partBack p w x2 st result b) := by
  unfold partBack
  try dsimp only
  repeat' first
    | with_reducible apply Keeps.refl
    | with_reducible apply Keeps.next (sendItem_keeps p _ _ _)
    | with_reducible apply Keeps.next (answerPart_keeps _ _ _ _ _ _ _)
    | with_reducible apply Keeps.when
    | with_reducible apply Keeps.foldl
    | split
    | (intro _; try dsimp only)

theorem cqFail_keeps (p : Params) (w : ℕ) (q : ℕ) (st : Status) (aux : Word32) (b : Block) :
    Keeps p b (cqFail p w q st aux b) := by
  unfold cqFail
  try dsimp only
  repeat' first
    | with_reducible apply Keeps.refl
    | with_reducible apply Keeps.next (updEnt_keeps p _ _ _)
    | with_reducible apply Keeps.next (logRec_keeps _ _ _)
    | with_reducible apply Keeps.next (settle_keeps _ _ _ _ _ _ _ _ _ _)
    | with_reducible apply Keeps.next (cqSettle_keeps _ _ _ _ _ _)
    | with_reducible apply Keeps.foldl
    | split
    | (intro _; try dsimp only)

theorem arrivePart_keeps (p : Params) (w : ℕ) (x2 : Part) (b : Block) :
    Keeps p b (arrivePart p w x2 b) := by
  unfold arrivePart
  try dsimp only
  repeat' first
    | with_reducible apply Keeps.refl
    | with_reducible apply Keeps.next (updCQ_keeps p _ _ _ _)
    | with_reducible apply Keeps.next (trForm_keeps _ _ _ _)
    | with_reducible apply Keeps.next (logRec_keeps _ _ _)
    | with_reducible apply Keeps.next (partBack_keeps _ _ _ _ _ _)
    | with_reducible apply Keeps.next (cqFail_keeps _ _ _ _ _ _)
    | with_reducible apply Keeps.set_cbParts
    | with_reducible apply Keeps.upd_cbParts
    | with_reducible apply Keeps.when
    | with_reducible apply Keeps.foldl
    | split
    | refine Keeps.free (by intro f hf; cases f <;> first | exact absurd (by decide) hf | dsimp only [agree]) ?_
    | (intro _; try dsimp only)

theorem tearAt_keeps (p : Params) (qid : BitVec 16) (i : Option ℕ) (n : ℕ) (word : Word32) (b : Block) :
    Keeps p b (tearAt p qid i n word b) := by
  unfold tearAt
  try dsimp only
  repeat' first
    | with_reducible apply Keeps.refl
    | with_reducible apply Keeps.next (voidW_keeps p _ _)
    | with_reducible apply Keeps.next (cqFail_keeps _ _ _ _ _ _)
    | with_reducible apply Keeps.foldl
    | split
    | (intro _; try dsimp only)

theorem tearAll_keeps (p : Params) (n : ℕ) (b : Block) :
    Keeps p b (tearAll p n b) := by
  unfold tearAll
  try dsimp only
  repeat' first
    | with_reducible apply Keeps.refl
    | with_reducible apply Keeps.next (updPort_keeps p _ _ _)
    | with_reducible apply Keeps.next (xput_keeps p _ _)
    | with_reducible apply Keeps.next (xsend_keeps p _ _ _ _)
    | with_reducible apply Keeps.next (sendItem_keeps p _ _ _)
    | with_reducible apply Keeps.when
    | with_reducible apply Keeps.forEach
    | with_reducible apply Keeps.foldl
    | split
    | (intro _; try dsimp only)

theorem watchOut_keeps (p : Params) (w : ℕ) (q : ℕ) (c : CQ) (v : ℕ) (b : Block) :
    Keeps p b (watchOut w q c v b) :=
  Keeps.free (Only.mono (watchOut_only _ _ _ _ _) (by decide)) (Keeps.refl _ _)

theorem drainBlock_keeps (p : Params) (w : ℕ) (q : ℕ) (b : Block) :
    Keeps p b (drainBlock p w q b) := by
  unfold drainBlock
  try dsimp only
  repeat' first
    | with_reducible apply Keeps.refl
    | with_reducible apply Keeps.next (updCQ_keeps p _ _ _ _)
    | with_reducible apply Keeps.next (mpW_keeps _ _ _ _ _ _ _ _)
    | with_reducible apply Keeps.foldl
    | split
    | (intro _; try dsimp only)

theorem drainSome_keeps (p : Params) (w : ℕ) (q : ℕ) (x3 : ℕ) (x4 : Block) :
    Keeps p x4 (drainSome p w q x3 x4) := by
  induction x3 generalizing x4 with
  | zero =>
    unfold drainSome
    try dsimp only
    repeat' first
        | with_reducible apply Keeps.refl
        | with_reducible apply Keeps.next (updCQ_keeps p _ _ _ _)
        | with_reducible apply Keeps.next (watchOut_keeps p _ _ _ _ _)
        | with_reducible apply Keeps.next (drainBlock_keeps _ _ _ _)
        | with_reducible apply Keeps.foldl
        | split
        | (intro _; try dsimp only)
  | succ k ih =>
    unfold drainSome
    try dsimp only
    repeat' first
        | with_reducible apply Keeps.next (ih _)
        | with_reducible apply Keeps.refl
        | with_reducible apply Keeps.next (updCQ_keeps p _ _ _ _)
        | with_reducible apply Keeps.next (watchOut_keeps p _ _ _ _ _)
        | with_reducible apply Keeps.next (drainBlock_keeps _ _ _ _)
        | with_reducible apply Keeps.foldl
        | split
        | (intro _; try dsimp only)

theorem drainFinish_keeps (p : Params) (w : ℕ) (q : ℕ) (b : Block) :
    Keeps p b (drainFinish p w q b) := by
  unfold drainFinish
  try dsimp only
  repeat' first
    | with_reducible apply Keeps.refl
    | with_reducible apply Keeps.next (updCQ_keeps p _ _ _ _)
    | with_reducible apply Keeps.next (digestWrite_keeps _ _ _ _ _ _)
    | with_reducible apply Keeps.next (drainSettle_keeps _ _ _ _)
    | with_reducible apply Keeps.foldl
    | split
    | (intro _; try dsimp only)

theorem ringAnswer_keeps (p : Params) (tag : ℕ) (st : Status) (b : Block) :
    Keeps p b (ringAnswer tag st b) := by
  unfold ringAnswer
  try dsimp only
  repeat' first
    | with_reducible apply Keeps.refl
    | with_reducible apply Keeps.next (faultTo_keeps p _ _ _ _ _)
    | with_reducible apply Keeps.when
    | with_reducible apply Keeps.foldl
    | split
    | (intro _; try dsimp only)

theorem farAnswer_keeps (p : Params) (n : ℕ) (it : Item) (b : Block) :
    Keeps p b (farAnswer p n it b) := by
  unfold farAnswer
  try dsimp only
  repeat' first
    | with_reducible apply Keeps.refl
    | with_reducible apply Keeps.next (updPort_keeps p _ _ _)
    | with_reducible apply Keeps.next (setChan_keeps p _ _ _)
    | with_reducible apply Keeps.next (faultTo_keeps p _ _ _ _ _)
    | with_reducible apply Keeps.next (partDone_keeps _ _ _ _ _)
    | with_reducible apply Keeps.next (ackAt_keeps p _ _ _)
    | with_reducible apply Keeps.when
    | with_reducible apply Keeps.foldl
    | split
    | (intro _; try dsimp only)

theorem applyAnswer_keeps (p : Params) (it : Item) (b : Block) :
    Keeps p b (applyAnswer p it b) := by
  unfold applyAnswer
  try dsimp only
  repeat' first
    | with_reducible apply Keeps.refl
    | with_reducible apply Keeps.next (ringAnswer_keeps p _ _ _)
    | with_reducible apply Keeps.next (farAnswer_keeps _ _ _ _)
    | with_reducible apply Keeps.foldl
    | split
    | (intro _; try dsimp only)

end Sys2Proof.Machine
end

