-- ==== Sys2Proof/Laws/KeepsHasps.lean ====
section
/-! SUPPORT. Each operation keeps the block sound: hasps, keys and the engine ports. -/

namespace Sys2Proof.Machine

set_option linter.all false

theorem haspSignal_keeps (p : Params) (h : ℕ) (inc : Word32) (t : ℕ) (m : ℕ × ℕ) (lg : LogRec) (b : Block) :
    Keeps p b (haspSignal p h inc t m lg b).2 := by
  unfold haspSignal
  try dsimp only
  repeat' first
    | with_reducible apply Keeps.refl
    | with_reducible apply Keeps.next (updHasp_keeps p _ _ _)
    | with_reducible apply Keeps.next (trForm_keeps _ _ _ _)
    | with_reducible apply Keeps.next (logRec_keeps _ _ _)
    | with_reducible apply Keeps.foldl
    | split
    | (intro _; try dsimp only)

theorem haspReset_keeps (p : Params) (h : ℕ) (t : ℕ) (b : Block) :
    Keeps p b (haspReset h t b).2 := by
  unfold haspReset
  try dsimp only
  repeat' first
    | with_reducible apply Keeps.refl
    | with_reducible apply Keeps.next (updHasp_keeps p _ _ _)
    | with_reducible apply Keeps.when
    | with_reducible apply Keeps.foldl
    | split
    | (intro _; try dsimp only)

theorem sigOutcome_keeps (p : Params) (src : SigSrc) (st : Status) (b : Block) :
    Keeps p b (sigOutcome p src st b) := by
  unfold sigOutcome
  try dsimp only
  repeat' first
    | with_reducible apply Keeps.refl
    | with_reducible apply Keeps.next (sendItem_keeps p _ _ _)
    | with_reducible apply Keeps.next (answerTo_keeps _ _ _ _ _)
    | with_reducible apply Keeps.next (faultTo_keeps p _ _ _ _ _)
    | with_reducible apply Keeps.when
    | with_reducible apply Keeps.foldl
    | split
    | (intro _; try dsimp only)

theorem sigApply_keeps (p : Params) (h : ℕ) (inc : Word32) (src : SigSrc) (b : Block) :
    Keeps p b (sigApply p h inc src b) := by
  unfold sigApply
  try dsimp only
  repeat' first
    | with_reducible apply Keeps.refl
    | with_reducible apply Keeps.next (haspSignal_keeps _ _ _ _ _ _ _)
    | with_reducible apply Keeps.next (sigOutcome_keeps _ _ _ _)
    | with_reducible apply Keeps.foldl
    | split
    | (intro _; try dsimp only)

theorem registerWait_keeps (p : Params) (who : Waiter) (h : ℕ) (target : Word32) (b : Block) :
    Keeps p b (registerWait who h target b) :=
  Keeps.free (Only.mono (registerWait_only _ _ _ _) (by decide)) (Keeps.refl _ _)

theorem selectWaits_keeps (p : Params) (b : Block) :
    Keeps p b (selectWaits b) :=
  Keeps.free (Only.mono (selectWaits_only _) (by decide)) (Keeps.refl _ _)

theorem freeRing_keeps (p : Params) (r : ℕ) (b : Block) :
    Keeps p b (freeRing p r b) := by
  unfold freeRing
  try dsimp only
  repeat' first
    | with_reducible apply Keeps.refl
    | with_reducible apply Keeps.next (progress_keeps p _ _)
    | with_reducible apply Keeps.next (passRec_keeps _ _ _)
    | with_reducible apply Keeps.foldl
    | split
    | (intro _; try dsimp only)

theorem trRel_keeps (p : Params) (x1 : HWait) (form : ℕ) (m : ℕ × ℕ) (b : Block) :
    Keeps p b (trRel p x1 form m b) := by
  unfold trRel
  try dsimp only
  repeat' first
    | with_reducible apply Keeps.refl
    | with_reducible apply Keeps.next (trForm_keeps _ _ _ _)
    | with_reducible apply Keeps.foldl
    | split
    | (intro _; try dsimp only)

theorem releaseOne_keeps (p : Params) (x1 : HWait) (b : Block) :
    Keeps p b (releaseOne p x1 b) := by
  unfold releaseOne
  try dsimp only
  repeat' first
    | with_reducible apply Keeps.refl
    | with_reducible apply Keeps.next (xsend_keeps p _ _ _ _)
    | with_reducible apply Keeps.next (sendItem_keeps p _ _ _)
    | with_reducible apply Keeps.next (progress_keeps p _ _)
    | with_reducible apply Keeps.next (freeRing_keeps _ _ _)
    | with_reducible apply Keeps.next (trRel_keeps _ _ _ _ _)
    | with_reducible apply Keeps.when
    | with_reducible apply Keeps.foldl
    | split
    | refine Keeps.free (by intro f hf; cases f <;> first | exact absurd (by decide) hf | dsimp only [agree]) ?_
    | (intro _; try dsimp only)

theorem haspAssignAt_keeps (p : Params) (data : Word32) (b : Block) :
    Keeps p b (haspAssignAt p data b) := by
  unfold haspAssignAt
  try dsimp only
  repeat' first
    | with_reducible apply Keeps.refl
    | with_reducible apply Keeps.next (updHasp_keeps p _ _ _)
    | with_reducible apply Keeps.next (pgErr_keeps _ _ _ _)
    | with_reducible apply Keeps.foldl
    | split
    | (intro _; try dsimp only)

theorem haspForceAt_keeps (p : Params) (b : Block) :
    Keeps p b (haspForceAt p b) := by
  unfold haspForceAt
  try dsimp only
  repeat' first
    | with_reducible apply Keeps.refl
    | with_reducible apply Keeps.next (updHasp_keeps p _ _ _)
    | with_reducible apply Keeps.next (logRec_keeps _ _ _)
    | with_reducible apply Keeps.foldl
    | split
    | (intro _; try dsimp only)

theorem keySend_keeps (p : Params) (n : ℕ) (r : BitVec 128) (b : Block) :
    Keeps p b (keySend n r b) := by
  unfold keySend
  try dsimp only
  repeat' first
    | with_reducible apply Keeps.refl
    | with_reducible apply Keeps.next (updPort_keeps p _ _ _)
    | with_reducible apply Keeps.next (emit_keeps p _ _)
    | with_reducible apply Keeps.foldl
    | split
    | (intro _; try dsimp only)

theorem keyDrain_keeps (p : Params) (n : ℕ) (b : Block) :
    Keeps p b (keyDrain n b) := by
  unfold keyDrain
  try dsimp only
  repeat' first
    | with_reducible apply Keeps.refl
    | with_reducible apply Keeps.next (updPort_keeps p _ _ _)
    | with_reducible apply Keeps.next (emit_keeps p _ _)
    | with_reducible apply Keeps.forEach
    | with_reducible apply Keeps.foldl
    | split
    | (intro _; try dsimp only)

theorem keyEvent_keeps (p : Params) (n : ℕ) (pool : ℕ) (st : Status) (b : Block) :
    Keeps p b (keyEvent p n pool st b) := by
  unfold keyEvent
  try dsimp only
  repeat' first
    | with_reducible apply Keeps.refl
    | with_reducible apply Keeps.next (evRec_keeps _ _ _ _ _ _ _ _)
    | with_reducible apply Keeps.foldl
    | split
    | (intro _; try dsimp only)

theorem keyToReq_keeps (p : Params) (dport : ℕ) (reqport : ℕ) (r : BitVec 128) (b : Block) :
    Keeps p b (keyToReq p dport reqport r b) := by
  unfold keyToReq
  try dsimp only
  repeat' first
    | with_reducible apply Keeps.refl
    | with_reducible apply Keeps.next (xtx_keeps p _ _ _)
    | with_reducible apply Keeps.next (xrx_keeps p _ _ _)
    | with_reducible apply Keeps.next (keySend_keeps p _ _ _)
    | with_reducible apply Keeps.foldl
    | split
    | (intro _; try dsimp only)

theorem keyRefuse_keeps (p : Params) (dport : ℕ) (pool : ℕ) (reqport : ℕ) (st : Status) (b : Block) :
    Keeps p b (keyRefuse p dport pool reqport st b) := by
  unfold keyRefuse
  try dsimp only
  repeat' first
    | with_reducible apply Keeps.refl
    | with_reducible apply Keeps.next (keyToReq_keeps _ _ _ _ _)
    | with_reducible apply Keeps.foldl
    | split
    | (intro _; try dsimp only)

theorem trKey_keeps (p : Params) (kind : ℕ) (dport : ℕ) (pool : ℕ) (reqport : ℕ) (count : ℕ) (b : Block) :
    Keeps p b (trKey p kind dport pool reqport count b) := by
  unfold trKey
  try dsimp only
  repeat' first
    | with_reducible apply Keeps.refl
    | with_reducible apply Keeps.next (trForm_keeps _ _ _ _)
    | with_reducible apply Keeps.foldl
    | split
    | (intro _; try dsimp only)

theorem keyGrant_keeps (p : Params) (dport : ℕ) (pool : ℕ) (reqport : ℕ) (count : ℕ) (b : Block) :
    Keeps p b (keyGrant p dport pool reqport count b) := by
  unfold keyGrant
  try dsimp only
  repeat' first
    | with_reducible apply Keeps.refl
    | with_reducible apply Keeps.next (updKPool_keeps p _ _ _ _)
    | with_reducible apply Keeps.next (keySend_keeps p _ _ _)
    | with_reducible apply Keeps.next (keyEvent_keeps _ _ _ _ _)
    | with_reducible apply Keeps.next (keyToReq_keeps _ _ _ _ _)
    | with_reducible apply Keeps.next (trKey_keeps _ _ _ _ _ _ _)
    | with_reducible apply Keeps.foldl
    | split
    | (intro _; try dsimp only)

theorem keyLate_keeps (p : Params) (dport : ℕ) (pool : ℕ) (b : Block) :
    Keeps p b (keyLate dport pool b) := by
  unfold keyLate
  try dsimp only
  repeat' first
    | with_reducible apply Keeps.refl
    | with_reducible apply Keeps.next (updKPool_keeps p _ _ _ _)
    | with_reducible apply Keeps.foldl
    | split
    | (intro _; try dsimp only)

theorem keyExamine_keeps (p : Params) (dport : ℕ) (pool : ℕ) (x3 : ℕ) (x4 : Block) :
    Keeps p x4 (keyExamine p dport pool x3 x4) := by
  induction x3 generalizing x4 with
  | zero =>
    unfold keyExamine
    try dsimp only
    repeat' first
        | with_reducible apply Keeps.refl
        | with_reducible apply Keeps.next (updKPool_keeps p _ _ _ _)
        | with_reducible apply Keeps.next (keyGrant_keeps _ _ _ _ _ _)
        | with_reducible apply Keeps.next (keyLate_keeps p _ _ _)
        | with_reducible apply Keeps.when
        | with_reducible apply Keeps.foldl
        | split
        | (intro _; try dsimp only)
  | succ k ih =>
    unfold keyExamine
    try dsimp only
    repeat' first
        | with_reducible apply Keeps.next (ih _)
        | with_reducible apply Keeps.refl
        | with_reducible apply Keeps.next (updKPool_keeps p _ _ _ _)
        | with_reducible apply Keeps.next (keyGrant_keeps _ _ _ _ _ _)
        | with_reducible apply Keeps.next (keyLate_keeps p _ _ _)
        | with_reducible apply Keeps.when
        | with_reducible apply Keeps.foldl
        | split
        | (intro _; try dsimp only)

theorem keyReturnAt_keeps (p : Params) (dport : ℕ) (pool : ℕ) (gseq : BitVec 16) (b : Block) :
    Keeps p b (keyReturnAt p dport pool gseq b) := by
  unfold keyReturnAt
  try dsimp only
  repeat' first
    | with_reducible apply Keeps.refl
    | with_reducible apply Keeps.next (updKPool_keeps p _ _ _ _)
    | with_reducible apply Keeps.next (bump_keeps p _ _ _)
    | with_reducible apply Keeps.next (keyExamine_keeps _ _ _ _ _)
    | with_reducible apply Keeps.foldl
    | split
    | (intro _; try dsimp only)

theorem keyPoolReset_keeps (p : Params) (n : ℕ) (pool : ℕ) (st : Status) (b : Block) :
    Keeps p b (keyPoolReset p n pool st b) := by
  unfold keyPoolReset
  try dsimp only
  repeat' first
    | with_reducible apply Keeps.refl
    | with_reducible apply Keeps.next (updKPool_keeps p _ _ _ _)
    | with_reducible apply Keeps.next (keySend_keeps p _ _ _)
    | with_reducible apply Keeps.next (keyRefuse_keeps _ _ _ _ _ _)
    | with_reducible apply Keeps.forEach
    | with_reducible apply Keeps.foldl
    | split
    | (intro _; try dsimp only)

theorem keyCfgAt_keeps (p : Params) (k : ℕ) (v : Word32) (w : ℕ) (b : Block) :
    Keeps p b (keyCfgAt p k v w b) := by
  unfold keyCfgAt
  try dsimp only
  repeat' first
    | with_reducible apply Keeps.refl
    | with_reducible apply Keeps.next (updKPool_keeps p _ _ _ _)
    | with_reducible apply Keeps.next (pgErr_keeps _ _ _ _)
    | with_reducible apply Keeps.when
    | with_reducible apply Keeps.foldl
    | split
    | (intro _; try dsimp only)

theorem keyResetAt_keeps (p : Params) (w : ℕ) (b : Block) :
    Keeps p b (keyResetAt p w b) := by
  unfold keyResetAt
  try dsimp only
  repeat' first
    | with_reducible apply Keeps.refl
    | with_reducible apply Keeps.next (pgErr_keeps _ _ _ _)
    | with_reducible apply Keeps.next (keyPoolReset_keeps _ _ _ _ _)
    | with_reducible apply Keeps.foldl
    | split
    | (intro _; try dsimp only)

theorem markPreloaded_keeps (p : Params) (n : ℕ) (h : ℕ) (gen : ℕ) (b : Block) :
    Keeps p b (markPreloaded p n h gen b) := by
  unfold markPreloaded
  try dsimp only
  repeat' first
    | with_reducible apply Keeps.refl
    | with_reducible apply Keeps.next (updPort_keeps p _ _ _)
    | with_reducible apply Keeps.next (xsend_keeps p _ _ _ _)
    | with_reducible apply Keeps.next (evRec_keeps _ _ _ _ _ _ _ _)
    | with_reducible apply Keeps.next (proxyState_keeps p _ _ _)
    | with_reducible apply Keeps.foldl
    | split
    | (intro _; try dsimp only)

theorem commitIssue_keeps (p : Params) (n : ℕ) (x2 : IqEnt) (b : Block) :
    Keeps p b (commitIssue p n x2 b) := by
  unfold commitIssue
  try dsimp only
  repeat' first
    | with_reducible apply Keeps.refl
    | with_reducible apply Keeps.next (updEnt_keeps p _ _ _)
    | with_reducible apply Keeps.next (updPort_keeps p _ _ _)
    | with_reducible apply Keeps.next (emit_keeps p _ _)
    | with_reducible apply Keeps.next (bump_keeps p _ _ _)
    | with_reducible apply Keeps.next (xsend_keeps p _ _ _ _)
    | with_reducible apply Keeps.next (trTask_keeps _ _ _ _ _ _ _)
    | with_reducible apply Keeps.next (evRec_keeps _ _ _ _ _ _ _ _)
    | with_reducible apply Keeps.next (proxyState_keeps p _ _ _)
    | with_reducible apply Keeps.next (bindTask_keeps _ _ _ _)
    | with_reducible apply Keeps.foldl
    | split
    | (intro _; try dsimp only)

theorem finishTask_keeps (p : Params) (n : ℕ) (r : RunInfo) (raw : ℕ) (bytes : List ℕ) (stats : Option (BitVec 256)) (b : Block) :
    Keeps p b (finishTask p n r raw bytes stats b) := by
  unfold finishTask
  try dsimp only
  repeat' first
    | with_reducible apply Keeps.refl
    | with_reducible apply Keeps.next (updPort_keeps p _ _ _)
    | with_reducible apply Keeps.next (bump_keeps p _ _ _)
    | with_reducible apply Keeps.next (xsend_keeps p _ _ _ _)
    | with_reducible apply Keeps.next (trTask_keeps _ _ _ _ _ _ _)
    | with_reducible apply Keeps.next (evRec_keeps _ _ _ _ _ _ _ _)
    | with_reducible apply Keeps.next (tally_keeps _ _ _ _ _)
    | with_reducible apply Keeps.next (homeCmp_keeps _ _ _ _ _ _ _ _)
    | with_reducible apply Keeps.next (unbindTask_keeps _ _ _)
    | with_reducible apply Keeps.next (tearAll_keeps _ _ _)
    | with_reducible apply Keeps.forEach
    | with_reducible apply Keeps.foldl
    | split
    | (intro _; try dsimp only)

theorem badBell_keeps (p : Params) (t : ℕ) (slot : ℕ) (b : Block) :
    Keeps p b (badBell p t slot b) := by
  unfold badBell
  try dsimp only
  repeat' first
    | with_reducible apply Keeps.refl
    | with_reducible apply Keeps.next (setBits_keeps _ _ _ _)
    | with_reducible apply Keeps.next (bump_keeps p _ _ _)
    | with_reducible apply Keeps.foldl
    | split
    | (intro _; try dsimp only)

theorem ringBell_keeps (p : Params) (t : ℕ) (slot : ℕ) (wptr : BitVec 16) (b : Block) :
    Keeps p b (ringBell p t slot wptr b) := by
  unfold ringBell
  try dsimp only
  repeat' first
    | with_reducible apply Keeps.refl
    | with_reducible apply Keeps.next (updRing_keeps p _ _ _)
    | with_reducible apply Keeps.next (badBell_keeps _ _ _ _)
    | with_reducible apply Keeps.foldl
    | split
    | (intro _; try dsimp only)

theorem writeSlot_keeps (p : Params) (w : ℕ) (n : ℕ) (clear : Bool) (v : Word32) (b : Block) :
    Keeps p b (writeSlot w n clear v b) := by
  unfold writeSlot
  try dsimp only
  repeat' first
    | with_reducible apply Keeps.refl
    | with_reducible apply Keeps.next (updSlot_keeps p _ _ _ _)
    | with_reducible apply Keeps.foldl
    | split
    | (intro _; try dsimp only)

theorem slotWrite_keeps (p : Params) (v : ℕ) (n : ℕ) (clear : Bool) (value : Word32) (port : ℕ) (tag : BitVec 16) (t : Option ℕ) (b : Block) :
    Keeps p b (slotWrite p v n clear value port tag t b) := by
  unfold slotWrite
  try dsimp only
  repeat' first
    | with_reducible apply Keeps.refl
    | with_reducible apply Keeps.next (answerTo_keeps _ _ _ _ _)
    | with_reducible apply Keeps.next (writeSlot_keeps p _ _ _ _ _)
    | with_reducible apply Keeps.when
    | with_reducible apply Keeps.foldl
    | split
    | (intro _; try dsimp only)

theorem deliver_keeps (p : Params) (x1 : XItem) (b : Block) :
    Keeps p b (deliver p x1 b) := by
  unfold deliver
  try dsimp only
  repeat' first
    | with_reducible apply Keeps.refl
    | with_reducible apply Keeps.next (xrx_keeps p _ _ _)
    | with_reducible apply Keeps.next (ringBell_keeps _ _ _ _ _)
    | with_reducible apply Keeps.next (slotWrite_keeps _ _ _ _ _ _ _ _ _)
    | with_reducible apply Keeps.foldl
    | split
    | (intro _; try dsimp only)

theorem deliverDue_keeps (p : Params) (f : ℕ → ℕ → Bool) (b : Block) :
    Keeps p b (deliverDue p f b) := by
  unfold deliverDue
  try dsimp only
  repeat' first
    | with_reducible apply Keeps.refl
    | with_reducible apply Keeps.next (deliver_keeps _ _ _)
    | with_reducible apply Keeps.forEach
    | with_reducible apply Keeps.foldl
    | split
    | refine Keeps.free (by intro f hf; cases f <;> first | exact absurd (by decide) hf | dsimp only [agree]) ?_
    | (intro _; try dsimp only)

theorem snapEnd_keeps (p : Params) (n : ℕ) (b : Block) :
    Keeps p b (snapEnd n b) := by
  unfold snapEnd
  try dsimp only
  repeat' first
    | with_reducible apply Keeps.refl
    | with_reducible apply Keeps.next (updPort_keeps p _ _ _)
    | with_reducible apply Keeps.foldl
    | split
    | refine Keeps.free (by intro f hf; cases f <;> first | exact absurd (by decide) hf | dsimp only [agree]) ?_
    | (intro _; try dsimp only)

theorem snapAbsent_keeps (p : Params) (port : ℕ) (dump : Bool) (b : Block) :
    Keeps p b (snapAbsent p port dump b) := by
  unfold snapAbsent
  try dsimp only
  repeat' first
    | with_reducible apply Keeps.refl
    | with_reducible apply Keeps.next (emit_keeps p _ _)
    | with_reducible apply Keeps.next (snapEnd_keeps p _ _)
    | with_reducible apply Keeps.foldl
    | split
    | refine Keeps.free (by intro f hf; cases f <;> first | exact absurd (by decide) hf | dsimp only [agree]) ?_
    | (intro _; try dsimp only)

theorem snapAsk_keeps (p : Params) (n : ℕ) (addr : ℕ) (dump : Bool) (b : Block) :
    Keeps p b (snapAsk n addr dump b) := by
  unfold snapAsk
  try dsimp only
  repeat' first
    | with_reducible apply Keeps.refl
    | with_reducible apply Keeps.next (updPort_keeps p _ _ _)
    | with_reducible apply Keeps.next (emit_keeps p _ _)
    | with_reducible apply Keeps.foldl
    | split
    | (intro _; try dsimp only)

theorem resetQueued_keeps (p : Params) (n : ℕ) (x2 : IqEnt) (b : Block) :
    Keeps p b (resetQueued p n x2 b) := by
  unfold resetQueued
  try dsimp only
  repeat' first
    | with_reducible apply Keeps.refl
    | with_reducible apply Keeps.next (updEnt_keeps p _ _ _)
    | with_reducible apply Keeps.next (xsend_keeps p _ _ _ _)
    | with_reducible apply Keeps.next (settle_keeps _ _ _ _ _ _ _ _ _ _)
    | with_reducible apply Keeps.foldl
    | split
    | (intro _; try dsimp only)

theorem resetStage_keeps (p : Params) (n : ℕ) (b : Block) :
    Keeps p b (resetStage p n b) := by
  unfold resetStage
  try dsimp only
  repeat' first
    | with_reducible apply Keeps.refl
    | with_reducible apply Keeps.next (updEnt_keeps p _ _ _)
    | with_reducible apply Keeps.next (updPort_keeps p _ _ _)
    | with_reducible apply Keeps.next (bump_keeps p _ _ _)
    | with_reducible apply Keeps.next (trTask_keeps _ _ _ _ _ _ _)
    | with_reducible apply Keeps.foldl
    | split
    | (intro _; try dsimp only)

theorem resetCans_keeps (p : Params) (n : ℕ) (b : Block) :
    Keeps p b (resetCans n b) := by
  unfold resetCans
  try dsimp only
  repeat' first
    | with_reducible apply Keeps.refl
    | with_reducible apply Keeps.next (updEnt_keeps p _ _ _)
    | with_reducible apply Keeps.next (updPort_keeps p _ _ _)
    | with_reducible apply Keeps.forEach
    | with_reducible apply Keeps.foldl
    | split
    | (intro _; try dsimp only)

end Sys2Proof.Machine
end

