-- ==== Sys2Proof/Laws/KeepsRings.lean ====
section
/-! SUPPORT. Each operation keeps the block sound: rings, the passes over a segment, pre-emption and the walk. -/

namespace Sys2Proof.Machine

set_option linter.all false

theorem capture_keeps (p : Params) (r : ℕ) (kind : ℕ) (st : Status) (off : ℕ) (va : ℕ) (rec1 : BitVec 512) (b : Block) :
    Keeps p b (capture p r kind st off va rec1 b) := by
  unfold capture
  try dsimp only
  repeat' first
    | with_reducible apply Keeps.refl
    | with_reducible apply Keeps.next (snapAsk_keeps p _ _ _ _)
    | with_reducible apply Keeps.when
    | with_reducible apply Keeps.forEach
    | with_reducible apply Keeps.foldl
    | split
    | refine Keeps.free (by intro f hf; cases f <;> first | exact absurd (by decide) hf | dsimp only [agree]) ?_
    | (intro _; try dsimp only)

theorem abandonFar_keeps (p : Params) (r : ℕ) (g : Seg) (b : Block) :
    Keeps p b (abandonFar p r g b) := by
  unfold abandonFar
  try dsimp only
  repeat' first
    | with_reducible apply Keeps.refl
    | with_reducible apply Keeps.next (sendItem_keeps p _ _ _)
    | with_reducible apply Keeps.when
    | with_reducible apply Keeps.forEach
    | with_reducible apply Keeps.foldl
    | split
    | (intro _; try dsimp only)

theorem abandonSeg_keeps (p : Params) (r : ℕ) (b : Block) :
    Keeps p b (abandonSeg p r b) := by
  have tail : ∀ {c : Block} {v : Option Seg} {q : List Nat}, Keeps p b c →
      Keeps p b { c with segs := Tbl.set none c.segs r v, entq := q } :=
    fun hb s => { hb s with segs := Tbl.wf_set _ _ _ _ (hb s).segs }
  unfold abandonSeg
  dsimp only
  split
  · exact updWalk_keeps _ _ _ _
  · exact tail (Keeps.when (fun _ => abandonFar_keeps _ _ _ _) (updWalk_keeps _ _ _ _))

theorem dropRingWait_keeps (p : Params) (r : ℕ) (b : Block) :
    Keeps p b (dropRingWait p r b) := by
  unfold dropRingWait
  try dsimp only
  repeat' first
    | with_reducible apply Keeps.refl
    | with_reducible apply Keeps.next (updWalk_keeps p _ _ _)
    | with_reducible apply Keeps.next (removeWait_keeps _ _ _ _ _ _ _ _)
    | with_reducible apply Keeps.foldl
    | split
    | (intro _; try dsimp only)

theorem clearHalt_keeps (p : Params) (r : ℕ) (b : Block) :
    Keeps p b (clearHalt r b) := by
  unfold clearHalt
  try dsimp only
  repeat' first
    | with_reducible apply Keeps.refl
    | with_reducible apply Keeps.next (updRing_keeps p _ _ _)
    | with_reducible apply Keeps.foldl
    | split
    | (intro _; try dsimp only)

theorem dropWalk_keeps (p : Params) (r : ℕ) (b : Block) :
    Keeps p b (dropWalk p r b) := by
  unfold dropWalk
  try dsimp only
  repeat' first
    | with_reducible apply Keeps.refl
    | with_reducible apply Keeps.next (abandonSeg_keeps _ _ _)
    | with_reducible apply Keeps.next (dropRingWait_keeps _ _ _)
    | with_reducible apply Keeps.next (clearHalt_keeps p _ _)
    | with_reducible apply Keeps.foldl
    | split
    | (intro _; try dsimp only)

theorem voidPre_keeps (p : Params) (r : ℕ) (subid : Word32) (b : Block) :
    Keeps p b (voidPre p r subid b) := by
  unfold voidPre
  try dsimp only
  repeat' first
    | with_reducible apply Keeps.refl
    | with_reducible apply Keeps.next (toRun_keeps _ _ _)
    | with_reducible apply Keeps.when
    | with_reducible apply Keeps.foldl
    | split
    | (intro _; try dsimp only)

theorem cancelAt_keeps (p : Params) (w : ℕ) (h : ℕ) (b : Block) :
    Keeps p b (cancelAt p w h b) := by
  unfold cancelAt
  try dsimp only
  repeat' first
    | with_reducible apply Keeps.refl
    | with_reducible apply Keeps.next (xsend_keeps p _ _ _ _)
    | with_reducible apply Keeps.next (cancelEntry_keeps _ _ _)
    | with_reducible apply Keeps.foldl
    | split
    | (intro _; try dsimp only)

theorem endSub_keeps (p : Params) (r : ℕ) (subid : Word32) (st : Status) (b : Block) :
    Keeps p b (endSub p r subid st b) := by
  unfold endSub
  try dsimp only
  repeat' first
    | with_reducible apply Keeps.refl
    | with_reducible apply Keeps.next (updRing_keeps p _ _ _)
    | with_reducible apply Keeps.next (updWalk_keeps p _ _ _)
    | with_reducible apply Keeps.next (voidW_keeps p _ _)
    | with_reducible apply Keeps.next (updSub_keeps p _ _ _ _)
    | with_reducible apply Keeps.next (overSub_keeps p _ _ _)
    | with_reducible apply Keeps.next (overSteps_keeps p _ _ _)
    | with_reducible apply Keeps.next (subCheck_keeps _ _ _ _)
    | with_reducible apply Keeps.next (startNext_keeps p _ _)
    | with_reducible apply Keeps.next (clearHalt_keeps p _ _)
    | with_reducible apply Keeps.next (dropWalk_keeps _ _ _)
    | with_reducible apply Keeps.next (voidPre_keeps _ _ _ _)
    | with_reducible apply Keeps.next (cancelAt_keeps _ _ _ _)
    | with_reducible apply Keeps.forEach
    | with_reducible apply Keeps.foldl
    | split
    | (intro _; try dsimp only)

theorem haltRing_keeps (p : Params) (r : ℕ) (kind : ℕ) (rec1 : BitVec 512) (va : ℕ) (b : Block) :
    Keeps p b (haltRing p r kind rec1 va b) := by
  unfold haltRing
  try dsimp only
  repeat' first
    | with_reducible apply Keeps.refl
    | with_reducible apply Keeps.next (updRing_keeps p _ _ _)
    | with_reducible apply Keeps.next (raiseW_keeps _ _ _ _)
    | with_reducible apply Keeps.next (trRing_keeps _ _ _ _ _ _ _)
    | with_reducible apply Keeps.next (logRec_keeps _ _ _)
    | with_reducible apply Keeps.next (capture_keeps _ _ _ _ _ _ _ _)
    | with_reducible apply Keeps.foldl
    | split
    | (intro _; try dsimp only)

theorem walkFault_keeps (p : Params) (r : ℕ) (st : Status) (off : ℕ) (rec1 : BitVec 512) (b : Block) :
    Keeps p b (walkFault p r st off rec1 b) := by
  unfold walkFault
  try dsimp only
  repeat' first
    | with_reducible apply Keeps.refl
    | with_reducible apply Keeps.next (updWalk_keeps p _ _ _)
    | with_reducible apply Keeps.next (faultTo_keeps p _ _ _ _ _)
    | with_reducible apply Keeps.next (capture_keeps _ _ _ _ _ _ _ _)
    | with_reducible apply Keeps.next (abandonSeg_keeps _ _ _)
    | with_reducible apply Keeps.foldl
    | split
    | (intro _; try dsimp only)

theorem timeOut_keeps (p : Params) (r : ℕ) (s : Sub) (b : Block) :
    Keeps p b (timeOut p r s b) := by
  unfold timeOut
  try dsimp only
  repeat' first
    | with_reducible apply Keeps.refl
    | with_reducible apply Keeps.next (logRec_keeps _ _ _)
    | with_reducible apply Keeps.next (endSub_keeps _ _ _ _ _)
    | with_reducible apply Keeps.foldl
    | split
    | (intro _; try dsimp only)

theorem writeFault_keeps (p : Params) (r : ℕ) (subid : Word32) (resp : Resp) (b : Block) :
    Keeps p b (writeFault p r subid resp b) := by
  unfold writeFault
  try dsimp only
  repeat' first
    | with_reducible apply Keeps.refl
    | with_reducible apply Keeps.next (logRec_keeps _ _ _)
    | with_reducible apply Keeps.when
    | with_reducible apply Keeps.foldl
    | split
    | (intro _; try dsimp only)

theorem takeRec_keeps (p : Params) (r : ℕ) (x2 : BitVec 512) (blank : Bool) (st : Option Status) (b : Block) :
    Keeps p b (takeRec p r x2 blank st b) := by
  unfold takeRec
  try dsimp only
  repeat' first
    | with_reducible apply Keeps.refl
    | with_reducible apply Keeps.next (updRing_keeps p _ _ _)
    | with_reducible apply Keeps.next (progress_keeps p _ _)
    | with_reducible apply Keeps.next (subCheck_keeps _ _ _ _)
    | with_reducible apply Keeps.next (startNext_keeps p _ _)
    | with_reducible apply Keeps.when
    | with_reducible apply Keeps.foldl
    | split
    | (intro _; try dsimp only)

theorem badRec_keeps (p : Params) (r : ℕ) (x2 : BitVec 512) (st : Status) (b : Block) :
    Keeps p b (badRec p r x2 st b) := by
  unfold badRec
  try dsimp only
  repeat' first
    | with_reducible apply Keeps.refl
    | with_reducible apply Keeps.next (logRec_keeps _ _ _)
    | with_reducible apply Keeps.next (capture_keeps _ _ _ _ _ _ _ _)
    | with_reducible apply Keeps.next (takeRec_keeps _ _ _ _ _ _)
    | with_reducible apply Keeps.foldl
    | split
    | (intro _; try dsimp only)

theorem fetchOne_keeps (p : Params) (r : ℕ) (b : Block) :
    Keeps p b (fetchOne p r b) := by
  unfold fetchOne
  try dsimp only
  repeat' first
    | with_reducible apply Keeps.refl
    | with_reducible apply Keeps.next (updRing_keeps p _ _ _)
    | with_reducible apply Keeps.next (updWalk_keeps p _ _ _)
    | with_reducible apply Keeps.next (mpR_keeps _ _ _ _ _ _)
    | with_reducible apply Keeps.foldl
    | split
    | (intro _; try dsimp only)

theorem ringRefuse_keeps (p : Params) (b : Block) :
    Keeps p b (ringRefuse p b) := by
  unfold ringRefuse
  try dsimp only
  repeat' first
    | with_reducible apply Keeps.refl
    | with_reducible apply Keeps.next (pgErr_keeps _ _ _ _)
    | with_reducible apply Keeps.foldl
    | split
    | (intro _; try dsimp only)

theorem enableRing_keeps (p : Params) (r : ℕ) (b : Block) :
    Keeps p b (enableRing r b) := by
  unfold enableRing
  try dsimp only
  repeat' first
    | with_reducible apply Keeps.refl
    | with_reducible apply Keeps.next (updRing_keeps p _ _ _)
    | with_reducible apply Keeps.set_tdone
    | with_reducible apply Keeps.upd_tdone
    | with_reducible apply Keeps.foldl
    | split
    | refine Keeps.free (by intro f hf; cases f <;> first | exact absurd (by decide) hf | dsimp only [agree]) ?_
    | (intro _; try dsimp only)

theorem writeEnable_keeps (p : Params) (r : ℕ) (on : Bool) (b : Block) :
    Keeps p b (writeEnable p r on b) := by
  unfold writeEnable
  try dsimp only
  repeat' first
    | with_reducible apply Keeps.refl
    | with_reducible apply Keeps.next (updRing_keeps p _ _ _)
    | with_reducible apply Keeps.next (ringRefuse_keeps _ _)
    | with_reducible apply Keeps.next (enableRing_keeps p _ _)
    | with_reducible apply Keeps.foldl
    | split
    | (intro _; try dsimp only)

theorem ringWrite_keeps (p : Params) (k : ℕ) (data : Word32) (b : Block) :
    Keeps p b (ringWrite p k data b) := by
  unfold ringWrite
  try dsimp only
  repeat' first
    | with_reducible apply Keeps.refl
    | with_reducible apply Keeps.next (updRing_keeps p _ _ _)
    | with_reducible apply Keeps.next (ringRefuse_keeps _ _)
    | with_reducible apply Keeps.next (writeEnable_keeps _ _ _ _)
    | with_reducible apply Keeps.foldl
    | split
    | (intro _; try dsimp only)

theorem cancelOldest_keeps (p : Params) (r : ℕ) (b : Block) :
    Keeps p b (cancelOldest p r b) := by
  unfold cancelOldest
  try dsimp only
  repeat' first
    | with_reducible apply Keeps.refl
    | with_reducible apply Keeps.next (voidW_keeps p _ _)
    | with_reducible apply Keeps.next (endSub_keeps _ _ _ _ _)
    | with_reducible apply Keeps.foldl
    | split
    | (intro _; try dsimp only)

theorem cancelAll_keeps (p : Params) (r : ℕ) (b : Block) :
    Keeps p b (cancelAll p r b) := by
  unfold cancelAll
  try dsimp only
  repeat' first
    | with_reducible apply Keeps.refl
    | with_reducible apply Keeps.next (updRing_keeps p _ _ _)
    | with_reducible apply Keeps.next (clearHalt_keeps p _ _)
    | with_reducible apply Keeps.next (endSub_keeps _ _ _ _ _)
    | with_reducible apply Keeps.when
    | with_reducible apply Keeps.forEach
    | with_reducible apply Keeps.foldl
    | split
    | (intro _; try dsimp only)

theorem resumeRing_keeps (p : Params) (r : ℕ) (b : Block) :
    Keeps p b (resumeRing r b) := by
  unfold resumeRing
  try dsimp only
  repeat' first
    | with_reducible apply Keeps.refl
    | with_reducible apply Keeps.next (updRing_keeps p _ _ _)
    | with_reducible apply Keeps.foldl
    | split
    | (intro _; try dsimp only)

theorem ringCtrl_keeps (p : Params) (t : ℕ) (slot : ℕ) (cancel : ℕ) (resume : Bool) (b : Block) :
    Keeps p b (ringCtrl p t slot cancel resume b) := by
  unfold ringCtrl
  try dsimp only
  repeat' first
    | with_reducible apply Keeps.refl
    | with_reducible apply Keeps.next (wr_keeps _ _ _ _)
    | with_reducible apply Keeps.next (cancelOldest_keeps _ _ _)
    | with_reducible apply Keeps.next (cancelAll_keeps _ _ _)
    | with_reducible apply Keeps.next (resumeRing_keeps p _ _)
    | with_reducible apply Keeps.when
    | with_reducible apply Keeps.foldl
    | split
    | (intro _; try dsimp only)

theorem walkRead_keeps (p : Params) (r : ℕ) (addr : ℕ) (x2 : BitVec 512) (b : Block) :
    Keeps p b (walkRead r addr x2 b) := by
  unfold walkRead
  try dsimp only
  repeat' first
    | with_reducible apply Keeps.refl
    | with_reducible apply Keeps.next (updWalk_keeps p _ _ _)
    | with_reducible apply Keeps.foldl
    | split
    | (intro _; try dsimp only)

theorem actStop_keeps (p : Params) (r : ℕ) (x2 : Stop) (b : Block) :
    Keeps p b (actStop p r x2 b) := by
  unfold actStop
  try dsimp only
  repeat' first
    | with_reducible apply Keeps.refl
    | with_reducible apply Keeps.next (updWalk_keeps p _ _ _)
    | with_reducible apply Keeps.next (walkFault_keeps _ _ _ _ _ _)
    | with_reducible apply Keeps.next (walkRead_keeps p _ _ _ _)
    | with_reducible apply Keeps.foldl
    | split
    | (intro _; try dsimp only)

theorem pass1_keeps (p : Params) (r : ℕ) (b : Block) :
    Keeps p b (pass1 p r b) := by
  unfold pass1
  try dsimp only
  repeat' first
    | with_reducible apply Keeps.refl
    | with_reducible apply Keeps.next (updRing_keeps p _ _ _)
    | with_reducible apply Keeps.next (actStop_keeps _ _ _ _)
    | with_reducible apply Keeps.set_segs
    | with_reducible apply Keeps.upd_segs
    | with_reducible apply Keeps.foldl
    | split
    | refine Keeps.free (by intro f hf; cases f <;> first | exact absurd (by decide) hf | dsimp only [agree]) ?_
    | (intro _; try dsimp only)

theorem passFault_keeps (p : Params) (r : ℕ) (st : Status) (b : Block) :
    Keeps p b (passFault p r st b) := by
  unfold passFault
  try dsimp only
  repeat' first
    | with_reducible apply Keeps.refl
    | with_reducible apply Keeps.next (faultTo_keeps p _ _ _ _ _)
    | with_reducible apply Keeps.next (capture_keeps _ _ _ _ _ _ _ _)
    | with_reducible apply Keeps.next (walkFault_keeps _ _ _ _ _ _)
    | with_reducible apply Keeps.foldl
    | split
    | (intro _; try dsimp only)

theorem takeEntry_keeps (p : Params) (w : ℕ) (b : Block) :
    Keeps p b (takeEntry w b).2 := by
  unfold takeEntry
  try dsimp only
  repeat' first
    | with_reducible apply Keeps.refl
    | with_reducible apply Keeps.set_wq
    | with_reducible apply Keeps.upd_wq
    | with_reducible apply Keeps.foldl
    | split
    | refine Keeps.free (by intro f hf; cases f <;> first | exact absurd (by decide) hf | dsimp only [agree]) ?_
    | (intro _; try dsimp only)

theorem putEntry_keeps (p : Params) (h : ℕ) (tum : ℕ) (d : TaskDesc) (b : Block) :
    Keeps p b (putEntry h tum d b) := by
  unfold putEntry
  try dsimp only
  repeat' first
    | with_reducible apply Keeps.refl
    | with_reducible apply Keeps.next (updEnt_keeps p _ _ _)
    | with_reducible apply Keeps.foldl
    | split
    | (intro _; try dsimp only)

theorem updSeg_keeps (p : Params) (r : ℕ) (f : Seg → Seg) (b : Block) :
    Keeps p b (updSeg r f b) := by
  unfold updSeg
  try dsimp only
  repeat' first
    | with_reducible apply Keeps.refl
    | with_reducible apply Keeps.set_segs
    | with_reducible apply Keeps.upd_segs
    | with_reducible apply Keeps.foldl
    | split
    | refine Keeps.free (by intro f hf; cases f <;> first | exact absurd (by decide) hf | dsimp only [agree]) ?_
    | (intro _; try dsimp only)

theorem allocIdx_keeps (p : Params) (r : ℕ) (g : Seg) (i : ℕ) (x4 : BitVec 512) (b : Block) :
    Keeps p b (allocIdx p r g i x4 b) := by
  unfold allocIdx
  try dsimp only
  repeat' first
    | with_reducible apply Keeps.refl
    | with_reducible apply Keeps.next (updRing_keeps p _ _ _)
    | with_reducible apply Keeps.next (updFed_keeps p _ _ _)
    | with_reducible apply Keeps.next (takeEntry_keeps p _ _)
    | with_reducible apply Keeps.next (putEntry_keeps p _ _ _ _)
    | with_reducible apply Keeps.next (updSeg_keeps p _ _ _)
    | with_reducible apply Keeps.when
    | with_reducible apply Keeps.foldl
    | split
    | (intro _; try dsimp only)

theorem applyCombine_keeps (p : Params) (r : ℕ) (g : Seg) (x3 : BitVec 512) (b : Block) :
    Keeps p b (applyCombine p r g x3 b) := by
  unfold applyCombine
  try dsimp only
  repeat' first
    | with_reducible apply Keeps.refl
    | with_reducible apply Keeps.next (updCQ_keeps p _ _ _ _)
    | with_reducible apply Keeps.next (writeSlot_keeps p _ _ _ _ _)
    | with_reducible apply Keeps.next (takeEntry_keeps p _ _)
    | with_reducible apply Keeps.next (putEntry_keeps p _ _ _ _)
    | with_reducible apply Keeps.next (updSeg_keeps p _ _ _)
    | with_reducible apply Keeps.foldl
    | split
    | (intro _; try dsimp only)

theorem applyOpen_keeps (p : Params) (r : ℕ) (owner : ChOwner) (hs : List Word32) (y : BitVec 256) (b : Block) :
    Keeps p b (applyOpen p r owner hs y b) := by
  unfold applyOpen
  try dsimp only
  repeat' first
    | with_reducible apply Keeps.refl
    | with_reducible apply Keeps.next (setChan_keeps p _ _ _)
    | with_reducible apply Keeps.next (writeSlot_keeps p _ _ _ _ _)
    | with_reducible apply Keeps.foldl
    | split
    | (intro _; try dsimp only)

theorem applyWatch_keeps (p : Params) (r : ℕ) (hs : List Word32) (y : BitVec 256) (id : Word32) (b : Block) :
    Keeps p b (applyWatch r hs y id b) := by
  unfold applyWatch
  try dsimp only
  repeat' first
    | with_reducible apply Keeps.refl
    | with_reducible apply Keeps.next (updSub_keeps p _ _ _ _)
    | with_reducible apply Keeps.foldl
    | split
    | refine Keeps.free (by intro f hf; cases f <;> first | exact absurd (by decide) hf | dsimp only [agree]) ?_
    | (intro _; try dsimp only)

theorem applyMark_keeps (p : Params) (r : ℕ) (y : BitVec 256) (b : Block) :
    Keeps p b (applyMark p r y b) := by
  unfold applyMark
  try dsimp only
  repeat' first
    | with_reducible apply Keeps.refl
    | with_reducible apply Keeps.next (updRing_keeps p _ _ _)
    | with_reducible apply Keeps.next (trRing_keeps _ _ _ _ _ _ _)
    | with_reducible apply Keeps.foldl
    | split
    | (intro _; try dsimp only)

theorem applySet_keeps (p : Params) (y : BitVec 256) (v : Word32) (b : Block) :
    Keeps p b (applySet y v b) := by
  unfold applySet
  try dsimp only
  repeat' first
    | with_reducible apply Keeps.refl
    | with_reducible apply Keeps.next (writeSlot_keeps p _ _ _ _ _)
    | with_reducible apply Keeps.foldl
    | split
    | (intro _; try dsimp only)

theorem applyRec_keeps (p : Params) (r : ℕ) (g : Seg) (x3 : SRec) (b : Block) :
    Keeps p b (applyRec p r g x3 b) := by
  unfold applyRec
  try dsimp only
  repeat' first
    | with_reducible apply Keeps.refl
    | with_reducible apply Keeps.next (applyCombine_keeps _ _ _ _ _)
    | with_reducible apply Keeps.next (applyOpen_keeps _ _ _ _ _ _)
    | with_reducible apply Keeps.next (applyWatch_keeps p _ _ _ _ _)
    | with_reducible apply Keeps.next (applyMark_keeps _ _ _ _)
    | with_reducible apply Keeps.next (applySet_keeps p _ _ _)
    | with_reducible apply Keeps.foldl
    | split
    | (intro _; try dsimp only)

theorem ensureStep_keeps (p : Params) (r : ℕ) (b : Block) :
    Keeps p b (ensureStep r b) := by
  unfold ensureStep
  try dsimp only
  repeat' first
    | with_reducible apply Keeps.refl
    | with_reducible apply Keeps.next (updRing_keeps p _ _ _)
    | with_reducible apply Keeps.foldl
    | split
    | (intro _; try dsimp only)

theorem allocSeg_keeps (p : Params) (r : ℕ) (g : Seg) (b : Block) :
    Keeps p b (allocSeg p r g b) := by
  unfold allocSeg
  try dsimp only
  repeat' first
    | with_reducible apply Keeps.refl
    | with_reducible apply Keeps.next (updRing_keeps p _ _ _)
    | with_reducible apply Keeps.next (updWalk_keeps p _ _ _)
    | with_reducible apply Keeps.next (updSub_keeps p _ _ _ _)
    | with_reducible apply Keeps.next (allocIdx_keeps _ _ _ _ _ _)
    | with_reducible apply Keeps.next (applyRec_keeps _ _ _ _ _)
    | with_reducible apply Keeps.next (ensureStep_keeps p _ _)
    | with_reducible apply Keeps.forEach
    | with_reducible apply Keeps.foldl
    | split
    | refine Keeps.free (by intro f hf; cases f <;> first | exact absurd (by decide) hf | dsimp only [agree]) ?_
    | (intro _; try dsimp only)

theorem reserveFar_keeps (p : Params) (r : ℕ) (g : Seg) (i : ℕ) (b : Block) :
    Keeps p b (reserveFar p r g i b) := by
  unfold reserveFar
  try dsimp only
  repeat' first
    | with_reducible apply Keeps.refl
    | with_reducible apply Keeps.next (sendItem_keeps p _ _ _)
    | with_reducible apply Keeps.when
    | with_reducible apply Keeps.forEach
    | with_reducible apply Keeps.foldl
    | split
    | (intro _; try dsimp only)

theorem grantSeg_keeps (p : Params) (r : ℕ) (g : Seg) (b : Block) :
    Keeps p b (grantSeg p r g b) := by
  unfold grantSeg
  try dsimp only
  repeat' first
    | with_reducible apply Keeps.refl
    | with_reducible apply Keeps.next (updWalk_keeps p _ _ _)
    | with_reducible apply Keeps.next (walkFault_keeps _ _ _ _ _ _)
    | with_reducible apply Keeps.next (updSeg_keeps p _ _ _)
    | with_reducible apply Keeps.next (allocSeg_keeps _ _ _ _)
    | with_reducible apply Keeps.next (reserveFar_keeps _ _ _ _ _)
    | with_reducible apply Keeps.forEach
    | with_reducible apply Keeps.foldl
    | split
    | refine Keeps.free (by intro f hf; cases f <;> first | exact absurd (by decide) hf | dsimp only [agree]) ?_
    | (intro _; try dsimp only)

theorem admitSeg_keeps (p : Params) (r : ℕ) (before : List ℕ) (g : Seg) (b : Block) :
    Keeps p b (admitSeg p r before g b) := by
  unfold admitSeg
  try dsimp only
  repeat' first
    | with_reducible apply Keeps.refl
    | with_reducible apply Keeps.next (updWalk_keeps p _ _ _)
    | with_reducible apply Keeps.next (progress_keeps p _ _)
    | with_reducible apply Keeps.next (walkFault_keeps _ _ _ _ _ _)
    | with_reducible apply Keeps.next (updSeg_keeps p _ _ _)
    | with_reducible apply Keeps.next (grantSeg_keeps _ _ _ _)
    | with_reducible apply Keeps.foldl
    | split
    | refine Keeps.free (by intro f hf; cases f <;> first | exact absurd (by decide) hf | dsimp only [agree]) ?_
    | (intro _; try dsimp only)

theorem linkIdx_keeps (p : Params) (r : ℕ) (g : Seg) (k : Walk) (i : ℕ) (b : Block) :
    Keeps p b (linkIdx p r g k i b) := by
  unfold linkIdx
  try dsimp only
  repeat' first
    | with_reducible apply Keeps.refl
    | with_reducible apply Keeps.next (sendItem_keeps p _ _ _)
    | with_reducible apply Keeps.next (putLinks_keeps _ _ _ _)
    | with_reducible apply Keeps.when
    | with_reducible apply Keeps.forEach
    | with_reducible apply Keeps.foldl
    | split
    | (intro _; try dsimp only)

theorem attachRec_keeps (p : Params) (g : Seg) (x1 : SRec) (b : Block) :
    Keeps p b (attachRec g x1 b) := by
  unfold attachRec
  try dsimp only
  repeat' first
    | with_reducible apply Keeps.refl
    | with_reducible apply Keeps.next (updEnt_keeps p _ _ _)
    | with_reducible apply Keeps.foldl
    | split
    | (intro _; try dsimp only)

theorem sealSeg_keeps (p : Params) (r : ℕ) (g : Seg) (b : Block) :
    Keeps p b (sealSeg p r g b) := by
  unfold sealSeg
  try dsimp only
  repeat' first
    | with_reducible apply Keeps.refl
    | with_reducible apply Keeps.next (updRing_keeps p _ _ _)
    | with_reducible apply Keeps.next (xsend_keeps p _ _ _ _)
    | with_reducible apply Keeps.next (sendItem_keeps p _ _ _)
    | with_reducible apply Keeps.set_segs
    | with_reducible apply Keeps.upd_segs
    | with_reducible apply Keeps.when
    | with_reducible apply Keeps.forEach
    | with_reducible apply Keeps.foldl
    | split
    | refine Keeps.free (by intro f hf; cases f <;> first | exact absurd (by decide) hf | dsimp only [agree]) ?_
    | (intro _; try dsimp only)

theorem linkSeg_keeps (p : Params) (r : ℕ) (g : Seg) (b : Block) :
    Keeps p b (linkSeg p r g b) := by
  unfold linkSeg
  try dsimp only
  repeat' first
    | with_reducible apply Keeps.refl
    | with_reducible apply Keeps.next (putLinks_keeps _ _ _ _)
    | with_reducible apply Keeps.next (updSeg_keeps p _ _ _)
    | with_reducible apply Keeps.next (linkIdx_keeps _ _ _ _ _ _)
    | with_reducible apply Keeps.next (attachRec_keeps p _ _ _)
    | with_reducible apply Keeps.next (sealSeg_keeps _ _ _ _)
    | with_reducible apply Keeps.forEach
    | with_reducible apply Keeps.foldl
    | split
    | (intro _; try dsimp only)

theorem afterSeal_keeps (p : Params) (r : ℕ) (b : Block) :
    Keeps p b (afterSeal p r b) := by
  unfold afterSeal
  try dsimp only
  repeat' first
    | with_reducible apply Keeps.refl
    | with_reducible apply Keeps.next (startNext_keeps p _ _)
    | with_reducible apply Keeps.next (leaveSeg_keeps _ _ _)
    | with_reducible apply Keeps.foldl
    | split
    | (intro _; try dsimp only)

theorem pass3_keeps (p : Params) (r : ℕ) (g : Seg) (b : Block) :
    Keeps p b (pass3 p r g b) := by
  unfold pass3
  try dsimp only
  repeat' first
    | with_reducible apply Keeps.refl
    | with_reducible apply Keeps.next (updWalk_keeps p _ _ _)
    | with_reducible apply Keeps.next (walkRead_keeps p _ _ _ _)
    | with_reducible apply Keeps.next (linkSeg_keeps _ _ _ _)
    | with_reducible apply Keeps.next (afterSeal_keeps _ _ _)
    | with_reducible apply Keeps.foldl
    | split
    | (intro _; try dsimp only)

theorem finishSeg_keeps (p : Params) (r : ℕ) (b : Block) :
    Keeps p b (finishSeg p r b) := by
  unfold finishSeg
  try dsimp only
  repeat' first
    | with_reducible apply Keeps.refl
    | with_reducible apply Keeps.next (clearHalt_keeps p _ _)
    | with_reducible apply Keeps.next (dropWalk_keeps _ _ _)
    | with_reducible apply Keeps.next (linkSeg_keeps _ _ _ _)
    | with_reducible apply Keeps.foldl
    | split
    | (intro _; try dsimp only)

theorem takePoint_keeps (p : Params) (r : ℕ) (pt : Point) (b : Block) :
    Keeps p b (takePoint p r pt b) := by
  unfold takePoint
  try dsimp only
  repeat' first
    | with_reducible apply Keeps.refl
    | with_reducible apply Keeps.next (updRing_keeps p _ _ _)
    | with_reducible apply Keeps.next (xsend_keeps p _ _ _ _)
    | with_reducible apply Keeps.next (closeOwned_keeps p _ _)
    | with_reducible apply Keeps.next (gateCheck_keeps _ _ _)
    | with_reducible apply Keeps.next (finishSeg_keeps _ _ _)
    | with_reducible apply Keeps.forEach
    | with_reducible apply Keeps.foldl
    | split
    | (intro _; try dsimp only)

theorem preIgnore_keeps (p : Params) (b : Block) :
    Keeps p b (preIgnore b) :=
  Keeps.free (Only.mono (preIgnore_only _) (by decide)) (Keeps.refl _ _)

theorem preRequest_keeps (p : Params) (r : ℕ) (queue : Bool) (b : Block) :
    Keeps p b (preRequest p r queue b) := by
  unfold preRequest
  try dsimp only
  repeat' first
    | with_reducible apply Keeps.refl
    | with_reducible apply Keeps.next (updRing_keeps p _ _ _)
    | with_reducible apply Keeps.next (trRing_keeps _ _ _ _ _ _ _)
    | with_reducible apply Keeps.next (takePoint_keeps _ _ _ _)
    | with_reducible apply Keeps.next (preIgnore_keeps p _)
    | with_reducible apply Keeps.foldl
    | split
    | (intro _; try dsimp only)

theorem preResumeAt_keeps (p : Params) (r : ℕ) (b : Block) :
    Keeps p b (preResumeAt p r b) := by
  unfold preResumeAt
  try dsimp only
  repeat' first
    | with_reducible apply Keeps.refl
    | with_reducible apply Keeps.next (updRing_keeps p _ _ _)
    | with_reducible apply Keeps.next (toRun_keeps _ _ _)
    | with_reducible apply Keeps.next (preIgnore_keeps p _)
    | with_reducible apply Keeps.foldl
    | split
    | (intro _; try dsimp only)

theorem preCtrl_keeps (p : Params) (v : Word32) (b : Block) :
    Keeps p b (preCtrl p v b) := by
  unfold preCtrl
  try dsimp only
  repeat' first
    | with_reducible apply Keeps.refl
    | with_reducible apply Keeps.next (wr_keeps _ _ _ _)
    | with_reducible apply Keeps.next (preRequest_keeps _ _ _ _)
    | with_reducible apply Keeps.next (preResumeAt_keeps _ _ _)
    | with_reducible apply Keeps.foldl
    | split
    | (intro _; try dsimp only)

theorem discardOne_keeps (p : Params) (h : ℕ) (b : Block) :
    Keeps p b (discardOne p h b) := by
  unfold discardOne
  try dsimp only
  repeat' first
    | with_reducible apply Keeps.refl
    | with_reducible apply Keeps.next (updEnt_keeps p _ _ _)
    | with_reducible apply Keeps.next (voidW_keeps p _ _)
    | with_reducible apply Keeps.next (cancelEntry_keeps _ _ _)
    | with_reducible apply Keeps.foldl
    | split
    | (intro _; try dsimp only)

theorem uncount_keeps (p : Params) (h : ℕ) (b : Block) :
    Keeps p b (uncount h b) := by
  unfold uncount
  try dsimp only
  repeat' first
    | with_reducible apply Keeps.refl
    | with_reducible apply Keeps.next (updEnt_keeps p _ _ _)
    | with_reducible apply Keeps.next (voidW_keeps p _ _)
    | with_reducible apply Keeps.next (updSub_keeps p _ _ _ _)
    | with_reducible apply Keeps.when
    | with_reducible apply Keeps.foldl
    | split
    | refine Keeps.free (by intro f hf; cases f <;> first | exact absurd (by decide) hf | dsimp only [agree]) ?_
    | (intro _; try dsimp only)

theorem lcFire_keeps (p : Params) (q : PReq) (b : Block) :
    Keeps p b (lcFire p q b) := by
  unfold lcFire
  try dsimp only
  repeat' first
    | with_reducible apply Keeps.refl
    | with_reducible apply Keeps.next (preRequest_keeps _ _ _ _)
    | with_reducible apply Keeps.foldl
    | split
    | refine Keeps.free (by intro f hf; cases f <;> first | exact absurd (by decide) hf | dsimp only [agree]) ?_
    | (intro _; try dsimp only)

theorem enterSeg_keeps (p : Params) (r : ℕ) (h : SegHdr) (body : List (BitVec 256)) (b : Block) :
    Keeps p b (enterSeg p r h body b) := by
  unfold enterSeg
  try dsimp only
  repeat' first
    | with_reducible apply Keeps.refl
    | with_reducible apply Keeps.next (updWalk_keeps p _ _ _)
    | with_reducible apply Keeps.next (walkOn_keeps _ _ _)
    | with_reducible apply Keeps.foldl
    | split
    | (intro _; try dsimp only)

theorem badSeek_keeps (p : Params) (r : ℕ) (x2 : Seek) (b : Block) :
    Keeps p b (badSeek p r x2 b) := by
  unfold badSeek
  try dsimp only
  repeat' first
    | with_reducible apply Keeps.refl
    | with_reducible apply Keeps.next (walkFault_keeps _ _ _ _ _ _)
    | with_reducible apply Keeps.foldl
    | split
    | (intro _; try dsimp only)

theorem seekSeg_keeps (p : Params) (r : ℕ) (x2 : Seek) (h : SegHdr) (body : List (BitVec 256)) (b : Block) :
    Keeps p b (seekSeg p r x2 h body b) := by
  unfold seekSeg
  try dsimp only
  repeat' first
    | with_reducible apply Keeps.refl
    | with_reducible apply Keeps.next (updWalk_keeps p _ _ _)
    | with_reducible apply Keeps.next (leaveSeg_keeps _ _ _)
    | with_reducible apply Keeps.next (enterSeg_keeps _ _ _ _ _)
    | with_reducible apply Keeps.next (badSeek_keeps _ _ _ _)
    | with_reducible apply Keeps.foldl
    | split
    | (intro _; try dsimp only)

theorem walkRec_keeps {p : Params} {r o : Nat} {rec1 : BitVec 256} {f : BitVec 512 → Block → Block}
    {b c : Block} (hf : ∀ y x, Keeps p x (f y x)) (hb : Keeps p b c) : Keeps p b (walkRec p r o rec1 f c) := by
  have hw : ∀ st off x, Keeps p b (walkFault p r st off x c) := fun st off x => Keeps.next (walkFault_keeps _ _ _ _ _ _) hb
  unfold walkRec
  dsimp only
  split
  · exact hb
  · split
    · exact hw _ _ _
    · split
      · exact hw _ _ _
      · split
        · exact hb
        · split
          · exact hw _ _ _
          · exact Keeps.next (hf _ _) (Keeps.next (progress_keeps _ _ _) hb)

theorem spent_keeps (p : Params) (r : ℕ) (b : Block) :
    Keeps p b (spent r b) := by
  unfold spent
  try dsimp only
  repeat' first
    | with_reducible apply Keeps.refl
    | with_reducible apply Keeps.next (updWalk_keeps p _ _ _)
    | with_reducible apply Keeps.foldl
    | split
    | (intro _; try dsimp only)

theorem recFault_keeps (p : Params) (r : ℕ) (st : Status) (x3 : BitVec 512) (b : Block) :
    Keeps p b (recFault p r st x3 b) := by
  unfold recFault
  try dsimp only
  repeat' first
    | with_reducible apply Keeps.refl
    | with_reducible apply Keeps.next (walkFault_keeps _ _ _ _ _ _)
    | with_reducible apply Keeps.foldl
    | split
    | (intro _; try dsimp only)

theorem useOpd_keeps {p : Params} {r : Nat} {x : BitVec 512} {v : OpdVal} {f : Nat → Block → Block}
    {b c : Block} (hf : ∀ n x, Keeps p x (f n x)) (hb : Keeps p b c) : Keeps p b (useOpd p r x v f c) := by
  unfold useOpd
  split
  · exact Keeps.next (hf _ _) hb
  · exact Keeps.next (recFault_keeps _ _ _ _ _) hb
  · exact Keeps.next (walkRead_keeps _ _ _ _ _) (Keeps.next (updWalk_keeps _ _ _ _) hb)

theorem pass_keeps (p : Params) (r : ℕ) (b : Block) :
    Keeps p b (pass p r b) := by
  unfold pass
  try dsimp only
  repeat' first
    | with_reducible apply Keeps.refl
    | with_reducible apply Keeps.next (passRec_keeps _ _ _)
    | with_reducible apply Keeps.next (spent_keeps p _ _)
    | with_reducible apply Keeps.foldl
    | split
    | (intro _; try dsimp only)

theorem dirty_keeps (p : Params) (r : ℕ) (b : Block) :
    Keeps p b (dirty r b) := by
  unfold dirty
  try dsimp only
  repeat' first
    | with_reducible apply Keeps.refl
    | with_reducible apply Keeps.next (updRing_keeps p _ _ _)
    | with_reducible apply Keeps.foldl
    | split
    | (intro _; try dsimp only)

theorem jump_keeps (p : Params) (r : ℕ) (tgt : ℕ) (leave : Bool) (x4 : BitVec 512) (b : Block) :
    Keeps p b (jump p r tgt leave x4 b) := by
  unfold jump
  try dsimp only
  repeat' first
    | with_reducible apply Keeps.refl
    | with_reducible apply Keeps.next (updWalk_keeps p _ _ _)
    | with_reducible apply Keeps.next (leaveSeg_keeps _ _ _)
    | with_reducible apply Keeps.next (spent_keeps p _ _)
    | with_reducible apply Keeps.next (recFault_keeps _ _ _ _ _)
    | with_reducible apply Keeps.foldl
    | split
    | (intro _; try dsimp only)

theorem reachPoint_keeps (p : Params) (r : ℕ) (isStep : Bool) (stepNo : ℕ) (b : Block) :
    Keeps p b (reachPoint p r isStep stepNo b) := by
  unfold reachPoint
  try dsimp only
  repeat' first
    | with_reducible apply Keeps.refl
    | with_reducible apply Keeps.next (updRing_keeps p _ _ _)
    | with_reducible apply Keeps.next (passRec_keeps _ _ _)
    | with_reducible apply Keeps.next (takePoint_keeps _ _ _ _)
    | with_reducible apply Keeps.next (spent_keeps p _ _)
    | with_reducible apply Keeps.foldl
    | split
    | (intro _; try dsimp only)

theorem fencePass_keeps (p : Params) (r : ℕ) (scope : Bool) (failstop : Bool) (b : Block) :
    Keeps p b (fencePass p r scope failstop b) := by
  unfold fencePass
  try dsimp only
  repeat' first
    | with_reducible apply Keeps.refl
    | with_reducible apply Keeps.next (recFault_keeps _ _ _ _ _)
    | with_reducible apply Keeps.next (pass_keeps _ _ _)
    | with_reducible apply Keeps.foldl
    | split
    | (intro _; try dsimp only)

theorem walkHasp_keeps {p : Params} {r : Nat} {x : BitVec 512} {op : Nat} {value : Word32} {wait : Bool}
    {f : Nat → Block → Block} {b c : Block} (hf : ∀ n x, Keeps p x (f n x)) (hb : Keeps p b c) :
    Keeps p b (walkHasp p r x op value wait f c) := by
  unfold walkHasp
  dsimp only
  split
  · exact Keeps.next (recFault_keeps _ _ _ _ _) hb
  · split
    · exact Keeps.next (hf _ _) hb
    · exact Keeps.next (sendItem_keeps _ _ _ _) hb

end Sys2Proof.Machine
end

