-- ==== Sys2Proof/Laws/KeepsFed.lean ====
section
/-! SUPPORT. Each operation keeps the block sound: federation, faults and the deadbolt. -/

namespace Sys2Proof.Machine

set_option linter.all false

theorem toPeer_keeps (p : Params) (h : ℕ) (kind : ℕ) (args : ℕ) (b : Block) :
    Keeps p b (toPeer p h kind args b) := by
  unfold toPeer
  try dsimp only
  repeat' first
    | with_reducible apply Keeps.refl
    | with_reducible apply Keeps.next (hingePut_keeps p _ _ _ _)
    | with_reducible apply Keeps.foldl
    | split
    | (intro _; try dsimp only)

theorem sendUnrch_keeps (p : Params) (h : ℕ) (mask : BitVec 64) (reach : Bool) (b : Block) :
    Keeps p b (sendUnrch p h mask reach b) := by
  unfold sendUnrch
  try dsimp only
  repeat' first
    | with_reducible apply Keeps.refl
    | with_reducible apply Keeps.next (toPeer_keeps _ _ _ _ _)
    | with_reducible apply Keeps.forEach
    | with_reducible apply Keeps.foldl
    | split
    | (intro _; try dsimp only)

theorem sendHello_keeps (p : Params) (h : ℕ) (b : Block) :
    Keeps p b (sendHello p h b) := by
  unfold sendHello
  try dsimp only
  repeat' first
    | with_reducible apply Keeps.refl
    | with_reducible apply Keeps.next (updHinge_keeps p _ _ _)
    | with_reducible apply Keeps.next (flitOut_keeps p _ _ _ _ _)
    | with_reducible apply Keeps.foldl
    | split
    | (intro _; try dsimp only)

theorem tryActive_keeps (p : Params) (h : ℕ) (b : Block) :
    Keeps p b (tryActive p h b) := by
  unfold tryActive
  try dsimp only
  repeat' first
    | with_reducible apply Keeps.refl
    | with_reducible apply Keeps.next (updHinge_keeps p _ _ _)
    | with_reducible apply Keeps.next (hingeFlush_keeps p _ _ _)
    | with_reducible apply Keeps.next (sendUnrch_keeps _ _ _ _ _)
    | with_reducible apply Keeps.when
    | with_reducible apply Keeps.foldl
    | split
    | refine Keeps.free (by intro f hf; cases f <;> first | exact absurd (by decide) hf | dsimp only [agree]) ?_
    | (intro _; try dsimp only)

theorem linkTrained_keeps (p : Params) (h : ℕ) (b : Block) :
    Keeps p b (linkTrained p h b) := by
  unfold linkTrained
  try dsimp only
  repeat' first
    | with_reducible apply Keeps.refl
    | with_reducible apply Keeps.next (updHinge_keeps p _ _ _)
    | with_reducible apply Keeps.next (sendHello_keeps _ _ _)
    | with_reducible apply Keeps.next (tryActive_keeps _ _ _)
    | with_reducible apply Keeps.when
    | with_reducible apply Keeps.foldl
    | split
    | (intro _; try dsimp only)

theorem hgCtrl_keeps (p : Params) (h : ℕ) (v : Word32) (b : Block) :
    Keeps p b (hgCtrl p h v b) := by
  unfold hgCtrl
  try dsimp only
  repeat' first
    | with_reducible apply Keeps.refl
    | with_reducible apply Keeps.next (updHinge_keeps p _ _ _)
    | with_reducible apply Keeps.next (emit_keeps p _ _)
    | with_reducible apply Keeps.next (goDown_keeps _ _ _)
    | with_reducible apply Keeps.foldl
    | split
    | (intro _; try dsimp only)

theorem ownerDone_keeps (p : Params) (it : Item) (o : ℕ) (b : Block) :
    Keeps p b (ownerDone it o b) := by
  unfold ownerDone
  try dsimp only
  repeat' first
    | with_reducible apply Keeps.refl
    | with_reducible apply Keeps.next (updEnt_keeps p _ _ _)
    | with_reducible apply Keeps.foldl
    | split
    | (intro _; try dsimp only)

theorem hingeFault_keeps (p : Params) (r : ℕ) (subid : Word32) (b : Block) :
    Keeps p b (hingeFault p r subid b) := by
  unfold hingeFault
  try dsimp only
  repeat' first
    | with_reducible apply Keeps.refl
    | with_reducible apply Keeps.next (faultTo_keeps p _ _ _ _ _)
    | with_reducible apply Keeps.next (walkFault_keeps _ _ _ _ _ _)
    | with_reducible apply Keeps.foldl
    | split
    | (intro _; try dsimp only)

theorem strandOwn_keeps (p : Params) (it : Item) (o : Option ℕ) (b : Block) :
    Keeps p b (strandOwn p it o b) := by
  unfold strandOwn
  try dsimp only
  repeat' first
    | with_reducible apply Keeps.refl
    | with_reducible apply Keeps.next (xsend_keeps p _ _ _ _)
    | with_reducible apply Keeps.next (updChan_keeps p _ _ _)
    | with_reducible apply Keeps.next (applyAnswer_keeps _ _ _)
    | with_reducible apply Keeps.next (ownerDone_keeps p _ _ _)
    | with_reducible apply Keeps.next (hingeFault_keeps _ _ _ _)
    | with_reducible apply Keeps.foldl
    | split
    | (intro _; try dsimp only)

theorem strandOne_keeps (p : Params) (h : ℕ) (x2 : Item × Option ℕ) (b : Block) :
    Keeps p b (strandOne p h x2 b) := by
  unfold strandOne
  try dsimp only
  repeat' first
    | with_reducible apply Keeps.refl
    | with_reducible apply Keeps.next (bump_keeps p _ _ _)
    | with_reducible apply Keeps.next (sendItem_keeps p _ _ _)
    | with_reducible apply Keeps.next (strandOwn_keeps _ _ _ _)
    | with_reducible apply Keeps.when
    | with_reducible apply Keeps.foldl
    | split
    | (intro _; try dsimp only)

theorem farEntry_keeps (p : Params) (req : ReserveReq) (x2 : ℕ × BitVec 512) (b : Block) :
    Keeps p b (farEntry p req x2 b) := by
  unfold farEntry
  try dsimp only
  repeat' first
    | with_reducible apply Keeps.refl
    | with_reducible apply Keeps.next (updFed_keeps p _ _ _)
    | with_reducible apply Keeps.next (takeEntry_keeps p _ _)
    | with_reducible apply Keeps.next (putEntry_keeps p _ _ _ _)
    | with_reducible apply Keeps.foldl
    | split
    | refine Keeps.free (by intro f hf; cases f <;> first | exact absurd (by decide) hf | dsimp only [agree]) ?_
    | (intro _; try dsimp only)

theorem farReply_keeps (p : Params) (req : ReserveReq) (st : Status) (b : Block) :
    Keeps p b (farReply p req st b) := by
  unfold farReply
  try dsimp only
  repeat' first
    | with_reducible apply Keeps.refl
    | with_reducible apply Keeps.next (sendItem_keeps p _ _ _)
    | with_reducible apply Keeps.when
    | with_reducible apply Keeps.foldl
    | split
    | (intro _; try dsimp only)

theorem farGrant_keeps (p : Params) (req : ReserveReq) (b : Block) :
    Keeps p b (farGrant p req b) := by
  unfold farGrant
  try dsimp only
  repeat' first
    | with_reducible apply Keeps.refl
    | with_reducible apply Keeps.next (sendItem_keeps p _ _ _)
    | with_reducible apply Keeps.next (farEntry_keeps _ _ _ _)
    | with_reducible apply Keeps.next (farReply_keeps _ _ _ _)
    | with_reducible apply Keeps.when
    | with_reducible apply Keeps.forEach
    | with_reducible apply Keeps.foldl
    | split
    | refine Keeps.free (by intro f hf; cases f <;> first | exact absurd (by decide) hf | dsimp only [agree]) ?_
    | (intro _; try dsimp only)

theorem giveBack_keeps (p : Params) (h : ℕ) (b : Block) :
    Keeps p b (giveBack h b) := by
  unfold giveBack
  try dsimp only
  repeat' first
    | with_reducible apply Keeps.refl
    | with_reducible apply Keeps.next (updEnt_keeps p _ _ _)
    | with_reducible apply Keeps.next (updFed_keeps p _ _ _)
    | with_reducible apply Keeps.set_wq
    | with_reducible apply Keeps.upd_wq
    | with_reducible apply Keeps.foldl
    | split
    | refine Keeps.free (by intro f hf; cases f <;> first | exact absurd (by decide) hf | dsimp only [agree]) ?_
    | (intro _; try dsimp only)

theorem chcOpen_keeps (p : Params) (inst : ℕ) (tenant : ℕ) (ch : ℕ) (endp : Word32) (b : Block) :
    Keeps p b (chcOpen p inst tenant ch endp b) := by
  unfold chcOpen
  try dsimp only
  repeat' first
    | with_reducible apply Keeps.refl
    | with_reducible apply Keeps.next (sendItem_keeps p _ _ _)
    | with_reducible apply Keeps.when
    | with_reducible apply Keeps.foldl
    | split
    | refine Keeps.free (by intro f hf; cases f <;> first | exact absurd (by decide) hf | dsimp only [agree]) ?_
    | (intro _; try dsimp only)

theorem noticeWards_keeps (p : Params) (mask : BitVec 64) (b : Block) :
    Keeps p b (noticeWards p mask b) :=
  Keeps.free (Only.mono (noticeWards_only _ _ _) (by decide)) (Keeps.refl _ _)

theorem dropAwaiting_keeps (p : Params) (mask : BitVec 64) (b : Block) :
    Keeps p b (dropAwaiting p mask b) := by
  unfold dropAwaiting
  try dsimp only
  repeat' first
    | with_reducible apply Keeps.refl
    | with_reducible apply Keeps.next (hingeFault_keeps _ _ _ _)
    | with_reducible apply Keeps.when
    | with_reducible apply Keeps.forEach
    | with_reducible apply Keeps.foldl
    | split
    | (intro _; try dsimp only)

theorem failImports_keeps (p : Params) (w : ℕ) (u : BitVec 64) (b : Block) :
    Keeps p b (failImports p w u b) := by
  unfold failImports
  try dsimp only
  repeat' first
    | with_reducible apply Keeps.refl
    | with_reducible apply Keeps.next (updFed_keeps p _ _ _)
    | with_reducible apply Keeps.next (tumblerItem_keeps _ _ _ _ _ _)
    | with_reducible apply Keeps.forEach
    | with_reducible apply Keeps.foldl
    | split
    | (intro _; try dsimp only)

theorem failRoster_keeps (p : Params) (w : ℕ) (u : BitVec 64) (b : Block) :
    Keeps p b (failRoster p w u b) := by
  unfold failRoster
  try dsimp only
  repeat' first
    | with_reducible apply Keeps.refl
    | with_reducible apply Keeps.next (updFed_keeps p _ _ _)
    | with_reducible apply Keeps.next (logRec_keeps _ _ _)
    | with_reducible apply Keeps.next (ringSettle_keeps _ _ _ _ _ _ _ _)
    | with_reducible apply Keeps.forEach
    | with_reducible apply Keeps.foldl
    | split
    | (intro _; try dsimp only)

theorem cutFar_keeps (p : Params) (w : ℕ) (u : BitVec 64) (b : Block) :
    Keeps p b (cutFar w u b) := by
  unfold cutFar
  try dsimp only
  repeat' first
    | with_reducible apply Keeps.refl
    | with_reducible apply Keeps.next (updEnt_keeps p _ _ _)
    | with_reducible apply Keeps.forEach
    | with_reducible apply Keeps.foldl
    | split
    | (intro _; try dsimp only)

theorem cancelFar_keeps (p : Params) (w : ℕ) (u : BitVec 64) (b : Block) :
    Keeps p b (cancelFar p w u b) := by
  unfold cancelFar
  try dsimp only
  repeat' first
    | with_reducible apply Keeps.refl
    | with_reducible apply Keeps.next (logRec_keeps _ _ _)
    | with_reducible apply Keeps.next (cancelEntry_keeps _ _ _)
    | with_reducible apply Keeps.next (cutFar_keeps p _ _ _)
    | with_reducible apply Keeps.forEach
    | with_reducible apply Keeps.foldl
    | split
    | refine Keeps.free (by intro f hf; cases f <;> first | exact absurd (by decide) hf | dsimp only [agree]) ?_
    | (intro _; try dsimp only)

theorem tearFar_keeps (p : Params) (w : ℕ) (u : BitVec 64) (b : Block) :
    Keeps p b (tearFar p w u b) := by
  unfold tearFar
  try dsimp only
  repeat' first
    | with_reducible apply Keeps.refl
    | with_reducible apply Keeps.next (cqFail_keeps _ _ _ _ _ _)
    | with_reducible apply Keeps.when
    | with_reducible apply Keeps.forEach
    | with_reducible apply Keeps.foldl
    | split
    | refine Keeps.free (by intro f hf; cases f <;> first | exact absurd (by decide) hf | dsimp only [agree]) ?_
    | (intro _; try dsimp only)

theorem breakChan_keeps (p : Params) (w : ℕ) (u : BitVec 64) (key : ChKey) (c : Chan) (b : Block) :
    Keeps p b (breakChan p w u key c b) := by
  unfold breakChan
  try dsimp only
  repeat' first
    | with_reducible apply Keeps.refl
    | with_reducible apply Keeps.next (xput_keeps p _ _)
    | with_reducible apply Keeps.next (updChan_keeps p _ _ _)
    | with_reducible apply Keeps.next (closedBeat_keeps p _ _)
    | with_reducible apply Keeps.next (applyAnswer_keeps _ _ _)
    | with_reducible apply Keeps.forEach
    | with_reducible apply Keeps.foldl
    | split
    | (intro _; try dsimp only)

theorem settleAsked_keeps (p : Params) (w : ℕ) (u : BitVec 64) (b : Block) :
    Keeps p b (settleAsked p w u b) := by
  unfold settleAsked
  try dsimp only
  repeat' first
    | with_reducible apply Keeps.refl
    | with_reducible apply Keeps.next (applyAnswer_keeps _ _ _)
    | with_reducible apply Keeps.next (hingeFault_keeps _ _ _ _)
    | with_reducible apply Keeps.when
    | with_reducible apply Keeps.forEach
    | with_reducible apply Keeps.foldl
    | split
    | (intro _; try dsimp only)

theorem settleWaits_keeps (p : Params) (w : ℕ) (u : BitVec 64) (b : Block) :
    Keeps p b (settleWaits p w u b) := by
  unfold settleWaits
  try dsimp only
  repeat' first
    | with_reducible apply Keeps.refl
    | with_reducible apply Keeps.next (hingeFault_keeps _ _ _ _)
    | with_reducible apply Keeps.when
    | with_reducible apply Keeps.forEach
    | with_reducible apply Keeps.foldl
    | split
    | (intro _; try dsimp only)

theorem govStepped_keeps (p : Params) (c : ℤ) (b : Block) :
    Keeps p b (govStepped c b) :=
  Keeps.free (Only.mono (govStepped_only _ _) (by decide)) (Keeps.refl _ _)

theorem tsStatWrite_keeps (p : Params) (h : ℕ) (v : Word32) (b : Block) :
    Keeps p b (tsStatWrite h v b) := by
  unfold tsStatWrite
  try dsimp only
  repeat' first
    | with_reducible apply Keeps.refl
    | with_reducible apply Keeps.next (updHinge_keeps p _ _ _)
    | with_reducible apply Keeps.foldl
    | split
    | (intro _; try dsimp only)

theorem ceCount_keeps (p : Params) (u : UnitId) (table : ℕ) (idx : ℕ) (b : Block) :
    Keeps p b (ceCount u table idx b) := by
  unfold ceCount
  try dsimp only
  repeat' first
    | with_reducible apply Keeps.refl
    | with_reducible apply Keeps.next (updMQ_keeps p _ _ _ _)
    | with_reducible apply Keeps.next (bump_keeps p _ _ _)
    | with_reducible apply Keeps.foldl
    | split
    | (intro _; try dsimp only)

theorem corrected_keeps (p : Params) (u : UnitId) (table : ℕ) (idx : ℕ) (b : Block) :
    Keeps p b (corrected p u table idx b) := by
  unfold corrected
  try dsimp only
  repeat' first
    | with_reducible apply Keeps.refl
    | with_reducible apply Keeps.next (logRec_keeps _ _ _)
    | with_reducible apply Keeps.next (ceCount_keeps p _ _ _ _)
    | with_reducible apply Keeps.foldl
    | split
    | refine Keeps.free (by intro f hf; cases f <;> first | exact absurd (by decide) hf | dsimp only [agree]) ?_
    | (intro _; try dsimp only)

theorem patrol_keeps (p : Params) (u : UnitId) (table : ℕ) (last : Bool) (bad : Bool) (b : Block) :
    Keeps p b (patrol p u table last bad b) := by
  unfold patrol
  try dsimp only
  repeat' first
    | with_reducible apply Keeps.refl
    | with_reducible apply Keeps.next (corrected_keeps _ _ _ _ _)
    | with_reducible apply Keeps.when
    | with_reducible apply Keeps.foldl
    | split
    | refine Keeps.free (by intro f hf; cases f <;> first | exact absurd (by decide) hf | dsimp only [agree]) ?_
    | (intro _; try dsimp only)

theorem retireEntry_keeps (p : Params) (h : ℕ) (b : Block) :
    Keeps p b (retireEntry h b) := by
  unfold retireEntry
  try dsimp only
  repeat' first
    | with_reducible apply Keeps.refl
    | with_reducible apply Keeps.next (updEnt_keeps p _ _ _)
    | with_reducible apply Keeps.next (bump_keeps p _ _ _)
    | with_reducible apply Keeps.when
    | with_reducible apply Keeps.foldl
    | split
    | (intro _; try dsimp only)

theorem badEntry_keeps (p : Params) (h : ℕ) (b : Block) :
    Keeps p b (badEntry p h b) := by
  unfold badEntry
  try dsimp only
  repeat' first
    | with_reducible apply Keeps.refl
    | with_reducible apply Keeps.next (updEnt_keeps p _ _ _)
    | with_reducible apply Keeps.next (xsend_keeps p _ _ _ _)
    | with_reducible apply Keeps.next (settle_keeps _ _ _ _ _ _ _ _ _ _)
    | with_reducible apply Keeps.next (cqFail_keeps _ _ _ _ _ _)
    | with_reducible apply Keeps.next (retireEntry_keeps p _ _)
    | with_reducible apply Keeps.foldl
    | split
    | (intro _; try dsimp only)

theorem badCopy_keeps (p : Params) (w : ℕ) (h : ℕ) (b : Block) :
    Keeps p b (badCopy p w h b) := by
  unfold badCopy
  try dsimp only
  repeat' first
    | with_reducible apply Keeps.refl
    | with_reducible apply Keeps.next (updPort_keeps p _ _ _)
    | with_reducible apply Keeps.next (xsend_keeps p _ _ _ _)
    | with_reducible apply Keeps.foldl
    | split
    | (intro _; try dsimp only)

theorem badEdge_keeps (p : Params) (h : ℕ) (b : Block) :
    Keeps p b (badEdge p h b) := by
  unfold badEdge
  try dsimp only
  repeat' first
    | with_reducible apply Keeps.refl
    | with_reducible apply Keeps.next (endSub_keeps _ _ _ _ _)
    | with_reducible apply Keeps.next (badEntry_keeps _ _ _)
    | with_reducible apply Keeps.foldl
    | split
    | (intro _; try dsimp only)

theorem badChan_keeps (p : Params) (key : ChKey) (b : Block) :
    Keeps p b (badChan key b) := by
  unfold badChan
  try dsimp only
  repeat' first
    | with_reducible apply Keeps.refl
    | with_reducible apply Keeps.next (updChan_keeps p _ _ _)
    | with_reducible apply Keeps.next (closedBeat_keeps p _ _)
    | with_reducible apply Keeps.foldl
    | split
    | (intro _; try dsimp only)

theorem badQueue_keeps (p : Params) (w : ℕ) (q : ℕ) (k : ℕ) (idx : ℕ) (b : Block) :
    Keeps p b (badQueue p w q k idx b) := by
  unfold badQueue
  try dsimp only
  repeat' first
    | with_reducible apply Keeps.refl
    | with_reducible apply Keeps.next (updPort_keeps p _ _ _)
    | with_reducible apply Keeps.next (updMQ_keeps p _ _ _ _)
    | with_reducible apply Keeps.when
    | with_reducible apply Keeps.foldl
    | split
    | (intro _; try dsimp only)

theorem badRelay_keeps (p : Params) (ch : ℕ) (idx : ℕ) (b : Block) :
    Keeps p b (badRelay ch idx b) := by
  unfold badRelay
  try dsimp only
  repeat' first
    | with_reducible apply Keeps.refl
    | with_reducible apply Keeps.next (updChan_keeps p _ _ _)
    | with_reducible apply Keeps.foldl
    | split
    | (intro _; try dsimp only)

theorem badImport_keeps (p : Params) (h : ℕ) (inst : ℕ) (b : Block) :
    Keeps p b (badImport p h inst b) := by
  unfold badImport
  try dsimp only
  repeat' first
    | with_reducible apply Keeps.refl
    | with_reducible apply Keeps.next (updFed_keeps p _ _ _)
    | with_reducible apply Keeps.next (tumblerItem_keeps _ _ _ _ _ _)
    | with_reducible apply Keeps.forEach
    | with_reducible apply Keeps.foldl
    | split
    | (intro _; try dsimp only)

theorem badRoster_keeps (p : Params) (w : ℕ) (k : ℕ) (b : Block) :
    Keeps p b (badRoster p w k b) := by
  unfold badRoster
  try dsimp only
  repeat' first
    | with_reducible apply Keeps.refl
    | with_reducible apply Keeps.next (updFed_keeps p _ _ _)
    | with_reducible apply Keeps.next (logRec_keeps _ _ _)
    | with_reducible apply Keeps.next (ringSettle_keeps _ _ _ _ _ _ _ _)
    | with_reducible apply Keeps.foldl
    | split
    | (intro _; try dsimp only)

theorem badEvent_keeps (p : Params) (w : ℕ) (obj : ℕ) (b : Block) :
    Keeps p b (badEvent p w obj b) := by
  unfold badEvent
  split
  · exact Keeps.set_cnt (Keeps.refl _ _)
  · exact Keeps.evrSet (fun h => by rw [List.length_set]; exact listTable_get h.evrSize _) (Keeps.refl _ _)

theorem badWard_keeps (p : Params) (w : ℕ) (table : ℕ) (idx : ℕ) (obj : ℕ) (b : Block) :
    Keeps p b (badWard p w table idx obj b) := by
  unfold badWard
  try dsimp only
  repeat' first
    | with_reducible apply Keeps.refl
    | with_reducible apply Keeps.next (updSlot_keeps p _ _ _ _)
    | with_reducible apply Keeps.next (updCQ_keeps p _ _ _ _)
    | with_reducible apply Keeps.next (keyPoolReset_keeps _ _ _ _ _)
    | with_reducible apply Keeps.next (badEntry_keeps _ _ _)
    | with_reducible apply Keeps.next (badCopy_keeps _ _ _ _)
    | with_reducible apply Keeps.next (badEdge_keeps _ _ _)
    | with_reducible apply Keeps.next (badChan_keeps p _ _)
    | with_reducible apply Keeps.next (badQueue_keeps _ _ _ _ _ _)
    | with_reducible apply Keeps.next (badRelay_keeps p _ _ _)
    | with_reducible apply Keeps.next (badImport_keeps _ _ _ _)
    | with_reducible apply Keeps.next (badRoster_keeps _ _ _ _)
    | with_reducible apply Keeps.next (badEvent_keeps _ _ _ _)
    | with_reducible apply Keeps.foldl
    | split
    | (intro _; try dsimp only)

theorem badRing_keeps (p : Params) (r : ℕ) (b : Block) :
    Keeps p b (badRing p r b) := by
  unfold badRing
  try dsimp only
  repeat' first
    | with_reducible apply Keeps.refl
    | with_reducible apply Keeps.next (updRing_keeps p _ _ _)
    | with_reducible apply Keeps.next (endSub_keeps _ _ _ _ _)
    | with_reducible apply Keeps.next (writeEnable_keeps _ _ _ _)
    | with_reducible apply Keeps.forEach
    | with_reducible apply Keeps.foldl
    | split
    | (intro _; try dsimp only)

theorem failWait_keeps (p : Params) (x1 : HWait) (b : Block) :
    Keeps p b (failWait p x1 b) := by
  unfold failWait
  try dsimp only
  repeat' first
    | with_reducible apply Keeps.refl
    | with_reducible apply Keeps.next (sendItem_keeps p _ _ _)
    | with_reducible apply Keeps.next (faultTo_keeps p _ _ _ _ _)
    | with_reducible apply Keeps.when
    | with_reducible apply Keeps.foldl
    | split
    | refine Keeps.free (by intro f hf; cases f <;> first | exact absurd (by decide) hf | dsimp only [agree]) ?_
    | (intro _; try dsimp only)

theorem badHasp_keeps (p : Params) (h : ℕ) (b : Block) :
    Keeps p b (badHasp p h b) := by
  unfold badHasp
  try dsimp only
  repeat' first
    | with_reducible apply Keeps.refl
    | with_reducible apply Keeps.next (updHasp_keeps p _ _ _)
    | with_reducible apply Keeps.next (failWait_keeps _ _ _)
    | with_reducible apply Keeps.forEach
    | with_reducible apply Keeps.foldl
    | split
    | (intro _; try dsimp only)

theorem badLog_keeps (p : Params) (k : ℕ) (b : Block) :
    Keeps p b (badLog p k b) := by
  unfold badLog
  refine Keeps.next (raiseK_keeps _ _ _) (Keeps.log (fun l h => ⟨by simpa using h.1, h.2⟩) (Keeps.refl _ _))

theorem badKeeper_keeps (p : Params) (table : ℕ) (obj : ℕ) (b : Block) :
    Keeps p b (badKeeper p table obj b) := by
  unfold badKeeper
  try dsimp only
  repeat' first
    | with_reducible apply Keeps.refl
    | with_reducible apply Keeps.next (updPcl_keeps p _ _ _)
    | with_reducible apply Keeps.next (updDom_keeps p _ _ _)
    | with_reducible apply Keeps.next (badRing_keeps _ _ _)
    | with_reducible apply Keeps.next (badHasp_keeps _ _ _)
    | with_reducible apply Keeps.next (badLog_keeps _ _ _)
    | with_reducible apply Keeps.foldl
    | split
    | (intro _; try dsimp only)

theorem failAttempt_keeps (p : Params) (reason : ℕ) (b : Block) :
    Keeps p b (failAttempt reason b) :=
  Keeps.free (Only.mono (failAttempt_only _ _) (by decide)) (Keeps.refl _ _)

theorem quiesceRing_keeps (p : Params) (r : ℕ) (b : Block) :
    Keeps p b (quiesceRing p r b) := by
  unfold quiesceRing
  try dsimp only
  repeat' first
    | with_reducible apply Keeps.refl
    | with_reducible apply Keeps.next (updWalk_keeps p _ _ _)
    | with_reducible apply Keeps.next (abandonSeg_keeps _ _ _)
    | with_reducible apply Keeps.foldl
    | split
    | (intro _; try dsimp only)

theorem quiesceAll_keeps (p : Params) (b : Block) :
    Keeps p b (quiesceAll p b) := by
  unfold quiesceAll
  try dsimp only
  repeat' first
    | with_reducible apply Keeps.refl
    | with_reducible apply Keeps.next (quiesceRing_keeps _ _ _)
    | with_reducible apply Keeps.forEach
    | with_reducible apply Keeps.foldl
    | split
    | (intro _; try dsimp only)

theorem faultEdge_keeps (p : Params) (b : Block) :
    Keeps p b (faultEdge p b) := by
  unfold faultEdge
  try dsimp only
  repeat' first
    | with_reducible apply Keeps.refl
    | with_reducible apply Keeps.next (updDb_keeps p _ _)
    | with_reducible apply Keeps.next (quiesceAll_keeps _ _)
    | with_reducible apply Keeps.when
    | with_reducible apply Keeps.foldl
    | split
    | (intro _; try dsimp only)

theorem laneUp_keeps (p : Params) (n : ℕ) (b : Block) :
    Keeps p b (laneUp n b) :=
  Keeps.free (Only.mono (laneUp_only _ _) (by decide)) (Keeps.refl _ _)

theorem laneHard_keeps (p : Params) (n : ℕ) (b : Block) :
    Keeps p b (laneHard p n b) := by
  unfold laneHard
  try dsimp only
  repeat' first
    | with_reducible apply Keeps.refl
    | with_reducible apply Keeps.next (updBoot_keeps p _ _)
    | with_reducible apply Keeps.next (raiseK_keeps _ _ _)
    | with_reducible apply Keeps.next (logRec_keeps _ _ _)
    | with_reducible apply Keeps.foldl
    | split
    | (intro _; try dsimp only)

theorem logCtrl_keeps (p : Params) (v : Word32) (b : Block) :
    Keeps p b (logCtrl v b) := by
  unfold logCtrl
  refine Keeps.when (fun _ => Keeps.log (fun l h => ⟨by simp, h.2⟩) (Keeps.refl _ _))
    (Keeps.when (fun _ => Keeps.log (fun l h => ?_) (Keeps.refl _ _)) (Keeps.refl _ _))
  split
  · exact ⟨by have := h.1; simp; omega, h.2⟩
  · exact h

theorem lrCtrl_keeps (p : Params) (v : Word32) (b : Block) :
    Keeps p b (lrCtrl v b) := by
  unfold lrCtrl
  exact Keeps.when (fun _ => Keeps.log (fun l h => ⟨h.1, by simp, h.2.2⟩) (Keeps.refl _ _)) (Keeps.refl _ _)

theorem disagreeTick_keeps (p : Params) (a : Bool) (b : Block) :
    Keeps p b (disagreeTick p a b) := by
  unfold disagreeTick
  try dsimp only
  repeat' first
    | with_reducible apply Keeps.refl
    | with_reducible apply Keeps.next (updDb_keeps p _ _)
    | with_reducible apply Keeps.next (logRec_keeps _ _ _)
    | with_reducible apply Keeps.foldl
    | split
    | (intro _; try dsimp only)

theorem agreeTick_keeps (p : Params) (on : Bool) (b : Block) :
    Keeps p b (agreeTick p on b) :=
  Keeps.free (Only.mono (agreeTick_only _ _ _) (by decide)) (Keeps.refl _ _)

theorem drainWatch_keeps (p : Params) (b : Block) :
    Keeps p b (drainWatch p b) :=
  Keeps.free (Only.mono (drainWatch_only _ _) (by decide)) (Keeps.refl _ _)

theorem endAll_keeps (p : Params) (st : Status) (b : Block) :
    Keeps p b (endAll p st b) := by
  unfold endAll
  try dsimp only
  repeat' first
    | with_reducible apply Keeps.refl
    | with_reducible apply Keeps.next (endSub_keeps _ _ _ _ _)
    | with_reducible apply Keeps.forEach
    | with_reducible apply Keeps.foldl
    | split
    | (intro _; try dsimp only)

theorem dbStatWrite_keeps (p : Params) (v : Word32) (b : Block) :
    Keeps p b (dbStatWrite v b) :=
  Keeps.free (Only.mono (dbStatWrite_only _ _) (by decide)) (Keeps.refl _ _)

theorem blkOrder_keeps (p : Params) (b : Block) :
    Keeps p b (blkOrder b) :=
  Keeps.free (Only.mono (blkOrder_only _) (by decide)) (Keeps.refl _ _)

end Sys2Proof.Machine
end

