-- ==== Sys2Proof/Laws/KeepsRest.lean ====
section
/-! SUPPORT. Each operation keeps the block sound: observation, boot, the meter, the register map, the dump and the clock. -/

namespace Sys2Proof.Machine

set_option linter.all false

theorem clearBank_keeps (p : Params) (base : ℕ) (b : Block) :
    Keeps p b (clearBank base b) := fun h => { h with cnt := Tbl.wf_filter _ _ _ h.cnt }

theorem zeroKeeper_keeps (p : Params) (b : Block) :
    Keeps p b (zeroKeeper b) := by
  unfold zeroKeeper
  exact Keeps.log (fun l h => h) (Keeps.forEach (fun _ _ => updDom_keeps _ _ _ _) (clearBank_keeps _ _ _))

theorem clearPage_keeps (p : Params) (base : ℕ) (b : Block) :
    Keeps p b (clearPage base b) := by
  unfold clearPage
  try dsimp only
  repeat' first
    | with_reducible apply Keeps.refl
    | with_reducible apply Keeps.next (updClk_keeps p _ _)
    | with_reducible apply Keeps.next (clearBank_keeps p _ _)
    | with_reducible apply Keeps.foldl
    | split
    | (intro _; try dsimp only)

theorem clearKeeper_keeps (p : Params) (b : Block) :
    Keeps p b (clearKeeper b) := Keeps.next (zeroKeeper_keeps _ _) (clearPage_keeps _ _ _)

theorem clearCycle_keeps (p : Params) (b : Block) :
    Keeps p b (clearCycle b) := by
  unfold clearCycle
  try dsimp only
  repeat' first
    | with_reducible apply Keeps.refl
    | with_reducible apply Keeps.next (updClk_keeps p _ _)
    | with_reducible apply Keeps.next (clearBank_keeps p _ _)
    | with_reducible apply Keeps.next (zeroKeeper_keeps p _)
    | with_reducible apply Keeps.forEach
    | with_reducible apply Keeps.foldl
    | split
    | (intro _; try dsimp only)

theorem snapOrder_keeps (p : Params) (b : Block) :
    Keeps p b (snapOrder b) :=
  Keeps.free (Only.mono (snapOrder_only _) (by decide)) (Keeps.refl _ _)

theorem copyCounters_keeps (p : Params) (b : Block) :
    Keeps p b (copyCounters b) := fun h => { h with cntSh := h.cnt }

theorem snapCycle_keeps (p : Params) (b : Block) :
    Keeps p b (snapCycle b) := by
  unfold snapCycle
  try dsimp only
  repeat' first
    | with_reducible apply Keeps.refl
    | with_reducible apply Keeps.next (copyCounters_keeps p _)
    | with_reducible apply Keeps.when
    | with_reducible apply Keeps.foldl
    | split
    | refine Keeps.free (by intro f hf; cases f <;> first | exact absurd (by decide) hf | dsimp only [agree]) ?_
    | (intro _; try dsimp only)

theorem blkBuild_keeps (p : Params) (w : ℕ) (b : Block) :
    Keeps p b (blkBuild p w b) :=
  Keeps.free (Only.mono (blkBuild_only _ _ _) (by decide)) (Keeps.refl _ _)

theorem blkAll_keeps (p : Params) (b : Block) :
    Keeps p b (blkAll p b) :=
  Keeps.free (Only.mono (blkAll_only _ _) (by decide)) (Keeps.refl _ _)

theorem blkCycle_keeps (p : Params) (b : Block) :
    Keeps p b (blkCycle p b) :=
  Keeps.free (Only.mono (blkCycle_only _ _) (by decide)) (Keeps.refl _ _)

theorem padSlots_keeps (p : Params) (post : Bool) (n : ℕ) (b : Block) :
    Keeps p b (padSlots p post n b) := by
  unfold padSlots
  try dsimp only
  repeat' first
    | with_reducible apply Keeps.refl
    | with_reducible apply Keeps.next (updTr_keeps p _ _)
    | with_reducible apply Keeps.next (trStop_keeps _ _)
    | with_reducible apply Keeps.when
    | with_reducible apply Keeps.foldl
    | split
    | (intro _; try dsimp only)

theorem writeRun_keeps (p : Params) (x1 : List TrSlot) (b : Block) :
    Keeps p b (writeRun p x1 b) := by
  unfold writeRun
  try dsimp only
  repeat' first
    | with_reducible apply Keeps.refl
    | with_reducible apply Keeps.next (updTr_keeps p _ _)
    | with_reducible apply Keeps.next (emit_keeps p _ _)
    | with_reducible apply Keeps.next (padSlots_keeps _ _ _ _)
    | with_reducible apply Keeps.foldl
    | split
    | (intro _; try dsimp only)

theorem trEnable_keeps (p : Params) (b : Block) :
    Keeps p b (trEnable b) :=
  Keeps.free (Only.mono (trEnable_only _) (by decide)) (Keeps.refl _ _)

theorem trDisable_keeps (p : Params) (b : Block) :
    Keeps p b (trDisable p b) := by
  unfold trDisable
  try dsimp only
  repeat' first
    | with_reducible apply Keeps.refl
    | with_reducible apply Keeps.next (updTr_keeps p _ _)
    | with_reducible apply Keeps.next (writeRun_keeps _ _ _)
    | with_reducible apply Keeps.forEach
    | with_reducible apply Keeps.foldl
    | split
    | (intro _; try dsimp only)

theorem trCtrl_keeps (p : Params) (v : Word32) (b : Block) :
    Keeps p b (trCtrl p v b) := by
  unfold trCtrl
  try dsimp only
  repeat' first
    | with_reducible apply Keeps.refl
    | with_reducible apply Keeps.next (wr_keeps _ _ _ _)
    | with_reducible apply Keeps.next (trTrigger_keeps _ _ _ _)
    | with_reducible apply Keeps.next (trEnable_keeps p _)
    | with_reducible apply Keeps.next (trDisable_keeps _ _)
    | with_reducible apply Keeps.when
    | with_reducible apply Keeps.foldl
    | split
    | (intro _; try dsimp only)

theorem dropAhead_keeps (p : Params) (b : Block) :
    Keeps p b (dropAhead p b) := by
  unfold dropAhead
  try dsimp only
  repeat' first
    | with_reducible apply Keeps.refl
    | with_reducible apply Keeps.next (updTr_keeps p _ _)
    | with_reducible apply Keeps.next (trPlace_keeps _ _ _)
    | with_reducible apply Keeps.foldl
    | split
    | (intro _; try dsimp only)

theorem trLose_keeps (p : Params) (u : ℕ) (e : TrEnt) (b : Block) :
    Keeps p b (trLose u e b) := by
  unfold trLose
  try dsimp only
  repeat' first
    | with_reducible apply Keeps.refl
    | with_reducible apply Keeps.next (updTr_keeps p _ _)
    | with_reducible apply Keeps.next (bump_keeps p _ _ _)
    | with_reducible apply Keeps.foldl
    | split
    | (intro _; try dsimp only)

theorem stageOne_keeps (p : Params) (e : TrEnt) (b : Block) :
    Keeps p b (stageOne p e b) := by
  unfold stageOne
  try dsimp only
  repeat' first
    | with_reducible apply Keeps.refl
    | with_reducible apply Keeps.next (trPlace_keeps _ _ _)
    | with_reducible apply Keeps.next (trTrigger_keeps _ _ _ _)
    | with_reducible apply Keeps.next (dropAhead_keeps _ _)
    | with_reducible apply Keeps.next (trLose_keeps p _ _ _)
    | with_reducible apply Keeps.when
    | with_reducible apply Keeps.foldl
    | split
    | (intro _; try dsimp only)

theorem stageFrom_keeps (p : Params) (u : ℕ) (b : Block) :
    Keeps p b (stageFrom p u b) := by
  unfold stageFrom
  try dsimp only
  repeat' first
    | with_reducible apply Keeps.refl
    | with_reducible apply Keeps.next (updTr_keeps p _ _)
    | with_reducible apply Keeps.next (xtx_keeps p _ _ _)
    | with_reducible apply Keeps.next (stageOne_keeps _ _ _)
    | with_reducible apply Keeps.foldl
    | split
    | (intro _; try dsimp only)

theorem setStage_keeps (p : Params) (u : ℕ) (x1 : Stage) (b : Block) :
    Keeps p b (setStage u x1 b) :=
  Keeps.free (Only.mono (setStage_only _ _ _) (by decide)) (Keeps.refl _ _)

theorem becomeReady_keeps (p : Params) (b : Block) :
    Keeps p b (becomeReady p b) := by
  unfold becomeReady
  try dsimp only
  repeat' first
    | with_reducible apply Keeps.refl
    | with_reducible apply Keeps.next (updBoot_keeps p _ _)
    | with_reducible apply Keeps.next (raiseK_keeps _ _ _)
    | with_reducible apply Keeps.when
    | with_reducible apply Keeps.foldl
    | split
    | (intro _; try dsimp only)

theorem bootCheck_keeps (p : Params) (b : Block) :
    Keeps p b (bootCheck p b) := by
  unfold bootCheck
  try dsimp only
  repeat' first
    | with_reducible apply Keeps.refl
    | with_reducible apply Keeps.next (updBoot_keeps p _ _)
    | with_reducible apply Keeps.next (becomeReady_keeps _ _)
    | with_reducible apply Keeps.when
    | with_reducible apply Keeps.foldl
    | split
    | (intro _; try dsimp only)

theorem beginAttempt_keeps (p : Params) (b : Block) :
    Keeps p b (beginAttempt p b) :=
  Keeps.free (Only.mono (beginAttempt_only _ _) (by decide)) (Keeps.refl _ _)

theorem powerOff_keeps (p : Params) (b : Block) :
    Keeps p b (powerOff b) := fun _ => Sound.fresh _ _ _ _ _

theorem softOff_keeps (p : Params) (b : Block) :
    Keeps p b (softOff b) := fun _ => Sound.fresh _ _ _ _ _

theorem fenceWard_keeps (p : Params) (w : ℕ) (x2 : ℕ × ℕ) (b : Block) :
    Keeps p b (fenceWard p w x2 b) := by
  unfold fenceWard
  try dsimp only
  repeat' first
    | with_reducible apply Keeps.refl
    | with_reducible apply Keeps.next (updBoot_keeps p _ _)
    | with_reducible apply Keeps.next (logRec_keeps _ _ _)
    | with_reducible apply Keeps.next (failAttempt_keeps p _ _)
    | with_reducible apply Keeps.next (setStage_keeps p _ _ _)
    | with_reducible apply Keeps.when
    | with_reducible apply Keeps.foldl
    | split
    | (intro _; try dsimp only)

theorem rescrubbed_keeps (p : Params) (u : UnitId) (b : Block) :
    Keeps p b (rescrubbed p u b) := by
  unfold rescrubbed
  try dsimp only
  repeat' first
    | with_reducible apply Keeps.refl
    | with_reducible apply Keeps.next (setStage_keeps p _ _ _)
    | with_reducible apply Keeps.next (bootCheck_keeps _ _)
    | with_reducible apply Keeps.foldl
    | split
    | (intro _; try dsimp only)

theorem lockSet_keeps (p : Params) (b : Block) :
    Keeps p b (lockSet p b) := by
  unfold lockSet
  try dsimp only
  repeat' first
    | with_reducible apply Keeps.refl
    | with_reducible apply Keeps.next (updBoot_keeps p _ _)
    | with_reducible apply Keeps.next (sendHello_keeps _ _ _)
    | with_reducible apply Keeps.next (tryActive_keeps _ _ _)
    | with_reducible apply Keeps.when
    | with_reducible apply Keeps.forEach
    | with_reducible apply Keeps.foldl
    | split
    | (intro _; try dsimp only)

theorem kctrlWrite_keeps (p : Params) (v : Word32) (b : Block) :
    Keeps p b (kctrlWrite p v b) := by
  unfold kctrlWrite
  try dsimp only
  repeat' first
    | with_reducible apply Keeps.refl
    | with_reducible apply Keeps.next (pgErr_keeps _ _ _ _)
    | with_reducible apply Keeps.next (lockSet_keeps _ _)
    | with_reducible apply Keeps.foldl
    | split
    | (intro _; try dsimp only)

theorem kbootWrite_keeps (p : Params) (v : Word32) (b : Block) :
    Keeps p b (kbootWrite v b) :=
  Keeps.free (Only.mono (kbootWrite_only _ _) (by decide)) (Keeps.refl _ _)

theorem ksSend_keeps (p : Params) (u : Unsigned) (b : Block) :
    Keeps p b (ksSend u b) :=
  Keeps.free (Only.mono (ksSend_only _ _) (by decide)) (Keeps.refl _ _)

theorem signNext_keeps (p : Params) (b : Block) :
    Keeps p b (signNext b) :=
  Keeps.free (Only.mono (signNext_only _) (by decide)) (Keeps.refl _ _)

theorem formRec_keeps (p : Params) (r : MRec) (b : Block) :
    Keeps p b (formRec r b) :=
  Keeps.free (Only.mono (formRec_only _ _) (by decide)) (Keeps.refl _ _)

theorem signFail_keeps (p : Params) (b : Block) :
    Keeps p b (signFail b) :=
  Keeps.free (Only.mono (signFail_only _) (by decide)) (Keeps.refl _ _)

theorem closeOver_keeps (p : Params) (b : Block) :
    Keeps p b (closeOver b) :=
  Keeps.free (Only.mono (closeOver_only _) (by decide)) (Keeps.refl _ _)

theorem formNext_keeps (p : Params) (bad : List ℕ) (k : Closing) (b : Block) :
    Keeps p b (formNext bad k b) :=
  Keeps.free (Only.mono (formNext_only _ _ _) (by decide)) (Keeps.refl _ _)

theorem mtRun_keeps (p : Params) (b : Block) :
    Keeps p b (mtRun b) :=
  Keeps.free (Only.mono (mtRun_only _) (by decide)) (Keeps.refl _ _)

theorem mtStop_keeps (p : Params) (b : Block) :
    Keeps p b (mtStop b) :=
  Keeps.free (Only.mono (mtStop_only _) (by decide)) (Keeps.refl _ _)

theorem mtConfig_keeps (p : Params) (c : MtCfg) (b : Block) :
    Keeps p b (mtConfig c b) :=
  Keeps.free (Only.mono (mtConfig_only _ _) (by decide)) (Keeps.refl _ _)

theorem mtPop_keeps (p : Params) (b : Block) :
    Keeps p b (mtPop b) :=
  Keeps.free (Only.mono (mtPop_only _) (by decide)) (Keeps.refl _ _)

theorem mtOkay_keeps (p : Params) (b : Block) :
    Keeps p b (mtOkay b) :=
  Keeps.free (Only.mono (mtOkay_only _) (by decide)) (Keeps.refl _ _)

theorem mtWrite_keeps (p : Params) (o : ℕ) (v : Word32) (b : Block) :
    Keeps p b (mtWrite o v b) :=
  Keeps.free (Only.mono (mtWrite_only _ _ _) (by decide)) (Keeps.refl _ _)

theorem mtpWrite_keeps (p : Params) (a : ℕ) (v : Word32) (strb : BitVec 4) (b : Block) :
    Keeps p b (mtpWrite a v strb b) :=
  Keeps.free (Only.mono (mtpWrite_only _ _ _ _) (by decide)) (Keeps.refl _ _)

theorem mtpRead_keeps (p : Params) (a : ℕ) (b : Block) :
    Keeps p b (mtpRead p a b) :=
  Keeps.free (Only.mono (mtpRead_only _ _ _) (by decide)) (Keeps.refl _ _)

theorem dumpAsk_keeps (p : Params) (n : ℕ) (b : Block) :
    Keeps p b (dumpAsk p n b) := by
  unfold dumpAsk
  try dsimp only
  repeat' first
    | with_reducible apply Keeps.refl
    | with_reducible apply Keeps.next (updPort_keeps p _ _ _)
    | with_reducible apply Keeps.next (emit_keeps p _ _)
    | with_reducible apply Keeps.when
    | with_reducible apply Keeps.foldl
    | split
    | refine Keeps.free (by intro f hf; cases f <;> first | exact absurd (by decide) hf | dsimp only [agree]) ?_
    | (intro _; try dsimp only)

theorem dumpStart_keeps (p : Params) (b : Block) :
    Keeps p b (dumpStart p b) := by
  unfold dumpStart
  try dsimp only
  repeat' first
    | with_reducible apply Keeps.refl
    | with_reducible apply Keeps.next (pgErr_keeps _ _ _ _)
    | with_reducible apply Keeps.foldl
    | split
    | refine Keeps.free (by intro f hf; cases f <;> first | exact absurd (by decide) hf | dsimp only [agree]) ?_
    | (intro _; try dsimp only)

theorem dumpFreeze_keeps (p : Params) (b : Block) :
    Keeps p b (dumpFreeze p b) := by
  unfold dumpFreeze
  try dsimp only
  repeat' first
    | with_reducible apply Keeps.refl
    | with_reducible apply Keeps.next (updHinge_keeps p _ _ _)
    | with_reducible apply Keeps.next (emit_keeps p _ _)
    | with_reducible apply Keeps.next (dumpAsk_keeps _ _ _)
    | with_reducible apply Keeps.forEach
    | with_reducible apply Keeps.foldl
    | split
    | refine Keeps.free (by intro f hf; cases f <;> first | exact absurd (by decide) hf | dsimp only [agree]) ?_
    | (intro _; try dsimp only)

theorem dumpSection_keeps (p : Params) (x2 : ℕ × ℕ × ℕ × ℕ) (b : Block) :
    Keeps p b (dumpSection p x2 b) :=
  Keeps.free (Only.mono (dumpSection_only _ _ _) (by decide)) (Keeps.refl _ _)

theorem plainWrite_keeps (p : Params) (g : Page) (a : ℕ) (v : Word32) (b : Block) :
    Keeps p b (plainWrite p g a v b) := by
  unfold plainWrite
  try dsimp only
  repeat' first
    | with_reducible apply Keeps.refl
    | with_reducible apply Keeps.next (wr_keeps _ _ _ _)
    | with_reducible apply Keeps.next (pgErr_keeps _ _ _ _)
    | with_reducible apply Keeps.when
    | with_reducible apply Keeps.foldl
    | split
    | (intro _; try dsimp only)

theorem holdOne_keeps (p : Params) (g : Page) (a : ℕ) (v : Word32) (b : Block) :
    Keeps p b (holdOne g a v b) :=
  Keeps.free (Only.mono (holdOne_only _ _ _ _) (by decide)) (Keeps.refl _ _)

theorem multiWrite_keeps (p : Params) (g : Page) (a : ℕ) (v : Word32) (b : Block) :
    Keeps p b (multiWrite p g a v b) := by
  unfold multiWrite
  try dsimp only
  repeat' first
    | with_reducible apply Keeps.refl
    | with_reducible apply Keeps.next (plainWrite_keeps _ _ _ _ _)
    | with_reducible apply Keeps.forEach
    | with_reducible apply Keeps.foldl
    | split
    | (intro _; try dsimp only)

theorem commitAt_keeps (p : Params) (w : ℕ) (b : Block) :
    Keeps p b (commitAt p w b) := by
  unfold commitAt
  try dsimp only
  repeat' first
    | with_reducible apply Keeps.refl
    | with_reducible apply Keeps.next (updRing_keeps p _ _ _)
    | with_reducible apply Keeps.next (updPcl_keeps p _ _ _)
    | with_reducible apply Keeps.set_iqWork
    | with_reducible apply Keeps.upd_iqWork
    | with_reducible apply Keeps.when
    | with_reducible apply Keeps.forEach
    | with_reducible apply Keeps.foldl
    | split
    | refine Keeps.free (by intro f hf; cases f <;> first | exact absurd (by decide) hf | dsimp only [agree]) ?_
    | (intro _; try dsimp only)

theorem commitPointAt_keeps (p : Params) (w : ℕ) (b : Block) :
    Keeps p b (commitPointAt p w b) := by
  unfold commitPointAt
  try dsimp only
  repeat' first
    | with_reducible apply Keeps.refl
    | with_reducible apply Keeps.next (commitAt_keeps _ _ _)
    | with_reducible apply Keeps.foldl
    | split
    | refine Keeps.free (by intro f hf; cases f <;> first | exact absurd (by decide) hf | dsimp only [agree]) ?_
    | (intro _; try dsimp only)

theorem commitAll_keeps (p : Params) (b : Block) :
    Keeps p b (commitAll p b) := by
  unfold commitAll
  try dsimp only
  repeat' first
    | with_reducible apply Keeps.refl
    | with_reducible apply Keeps.next (commitPointAt_keeps _ _ _)
    | with_reducible apply Keeps.forEach
    | with_reducible apply Keeps.foldl
    | split
    | (intro _; try dsimp only)

theorem tenCfgWrite_keeps (p : Params) (v : Word32) (b : Block) :
    Keeps p b (tenCfgWrite p v b) := by
  unfold tenCfgWrite
  try dsimp only
  repeat' first
    | with_reducible apply Keeps.refl
    | with_reducible apply Keeps.next (updTen_keeps p _ _ _)
    | with_reducible apply Keeps.next (pgErr_keeps _ _ _ _)
    | with_reducible apply Keeps.when
    | with_reducible apply Keeps.foldl
    | split
    | (intro _; try dsimp only)

theorem tenWrite_keeps (p : Params) (o : ℕ) (v : Word32) (b : Block) :
    Keeps p b (tenWrite p o v b) := by
  unfold tenWrite
  try dsimp only
  repeat' first
    | with_reducible apply Keeps.refl
    | with_reducible apply Keeps.next (updTen_keeps p _ _ _)
    | with_reducible apply Keeps.next (plainWrite_keeps _ _ _ _ _)
    | with_reducible apply Keeps.next (tenCfgWrite_keeps _ _ _)
    | with_reducible apply Keeps.foldl
    | split
    | (intro _; try dsimp only)

theorem pclRank_keeps (p : Params) (c : ℕ) (k : ℕ) (f : Rank → Rank) (b : Block) :
    Keeps p b (pclRank c k f b) := by
  unfold pclRank
  try dsimp only
  repeat' first
    | with_reducible apply Keeps.refl
    | with_reducible apply Keeps.next (updPcl_keeps p _ _ _)
    | with_reducible apply Keeps.foldl
    | split
    | (intro _; try dsimp only)

theorem pclWrite_keeps (p : Params) (o : ℕ) (v : Word32) (b : Block) :
    Keeps p b (pclWrite p o v b) := by
  unfold pclWrite
  try dsimp only
  repeat' first
    | with_reducible apply Keeps.refl
    | with_reducible apply Keeps.next (updPcl_keeps p _ _ _)
    | with_reducible apply Keeps.next (plainWrite_keeps _ _ _ _ _)
    | with_reducible apply Keeps.next (pclRank_keeps p _ _ _ _)
    | with_reducible apply Keeps.foldl
    | split
    | (intro _; try dsimp only)

theorem govWrite_keeps (p : Params) (o : ℕ) (v : Word32) (b : Block) :
    Keeps p b (govWrite p o v b) := by
  unfold govWrite
  try dsimp only
  repeat' first
    | with_reducible apply Keeps.refl
    | with_reducible apply Keeps.next (updDom_keeps p _ _ _)
    | with_reducible apply Keeps.next (plainWrite_keeps _ _ _ _ _)
    | with_reducible apply Keeps.next (multiWrite_keeps _ _ _ _ _)
    | with_reducible apply Keeps.foldl
    | split
    | (intro _; try dsimp only)

theorem routeWrite_keeps (p : Params) (v : Word32) (b : Block) :
    Keeps p b (routeWrite p v b) := by
  unfold routeWrite
  try dsimp only
  repeat' first
    | with_reducible apply Keeps.refl
    | with_reducible apply Keeps.next (pgErr_keeps _ _ _ _)
    | with_reducible apply Keeps.set_routes
    | with_reducible apply Keeps.upd_routes
    | with_reducible apply Keeps.foldl
    | split
    | refine Keeps.free (by intro f hf; cases f <;> first | exact absurd (by decide) hf | dsimp only [agree]) ?_
    | (intro _; try dsimp only)

theorem capClear_keeps (p : Params) (v : Word32) (b : Block) :
    Keeps p b (capClear v b) :=
  Keeps.free (Only.mono (capClear_only _ _) (by decide)) (Keeps.refl _ _)

theorem hangClear_keeps (p : Params) (v : Word32) (b : Block) :
    Keeps p b (hangClear v b) :=
  Keeps.free (Only.mono (hangClear_only _ _) (by decide)) (Keeps.refl _ _)

theorem keeper0_keeps (p : Params) (o : ℕ) (v : Word32) (b : Block) :
    Keeps p b (keeper0 p o v b) := by
  unfold keeper0
  try dsimp only
  repeat' first
    | with_reducible apply Keeps.refl
    | with_reducible apply Keeps.next (kctrlWrite_keeps _ _ _)
    | with_reducible apply Keeps.next (kbootWrite_keeps p _ _)
    | with_reducible apply Keeps.next (plainWrite_keeps _ _ _ _ _)
    | with_reducible apply Keeps.next (multiWrite_keeps _ _ _ _ _)
    | with_reducible apply Keeps.next (commitAll_keeps _ _)
    | with_reducible apply Keeps.when
    | with_reducible apply Keeps.foldl
    | split
    | (intro _; try dsimp only)

theorem keeper5_keeps (p : Params) (o : ℕ) (v : Word32) (b : Block) :
    Keeps p b (keeper5 p o v b) := by
  unfold keeper5
  try dsimp only
  repeat' first
    | with_reducible apply Keeps.refl
    | with_reducible apply Keeps.next (haspAssignAt_keeps _ _ _)
    | with_reducible apply Keeps.next (haspForceAt_keeps _ _)
    | with_reducible apply Keeps.next (preCtrl_keeps _ _ _)
    | with_reducible apply Keeps.next (plainWrite_keeps _ _ _ _ _)
    | with_reducible apply Keeps.next (multiWrite_keeps _ _ _ _ _)
    | with_reducible apply Keeps.when
    | with_reducible apply Keeps.foldl
    | split
    | (intro _; try dsimp only)

theorem keeper8_keeps (p : Params) (o : ℕ) (v : Word32) (b : Block) :
    Keeps p b (keeper8 p o v b) := by
  unfold keeper8
  try dsimp only
  repeat' first
    | with_reducible apply Keeps.refl
    | with_reducible apply Keeps.next (dbStatWrite_keeps p _ _)
    | with_reducible apply Keeps.next (blkOrder_keeps p _)
    | with_reducible apply Keeps.next (plainWrite_keeps _ _ _ _ _)
    | with_reducible apply Keeps.next (hangClear_keeps p _ _)
    | with_reducible apply Keeps.when
    | with_reducible apply Keeps.foldl
    | split
    | (intro _; try dsimp only)

theorem cntCtrl_keeps (p : Params) (v : Word32) (b : Block) :
    Keeps p b (cntCtrl p v b) := by
  unfold cntCtrl
  try dsimp only
  repeat' first
    | with_reducible apply Keeps.refl
    | with_reducible apply Keeps.next (clearKeeper_keeps p _)
    | with_reducible apply Keeps.next (snapOrder_keeps p _)
    | with_reducible apply Keeps.next (plainWrite_keeps _ _ _ _ _)
    | with_reducible apply Keeps.when
    | with_reducible apply Keeps.foldl
    | split
    | (intro _; try dsimp only)

theorem keeperWrite_keeps (p : Params) (q : ℕ) (o : ℕ) (v : Word32) (b : Block) :
    Keeps p b (keeperWrite p q o v b) := by
  unfold keeperWrite
  try dsimp only
  repeat' first
    | with_reducible apply Keeps.refl
    | with_reducible apply Keeps.next (ringWrite_keeps _ _ _ _)
    | with_reducible apply Keeps.next (logCtrl_keeps p _ _)
    | with_reducible apply Keeps.next (lrCtrl_keeps p _ _)
    | with_reducible apply Keeps.next (plainWrite_keeps _ _ _ _ _)
    | with_reducible apply Keeps.next (multiWrite_keeps _ _ _ _ _)
    | with_reducible apply Keeps.next (tenWrite_keeps _ _ _ _)
    | with_reducible apply Keeps.next (pclWrite_keeps _ _ _ _)
    | with_reducible apply Keeps.next (govWrite_keeps _ _ _ _)
    | with_reducible apply Keeps.next (routeWrite_keeps _ _ _)
    | with_reducible apply Keeps.next (capClear_keeps p _ _)
    | with_reducible apply Keeps.next (keeper0_keeps _ _ _ _)
    | with_reducible apply Keeps.next (keeper5_keeps _ _ _ _)
    | with_reducible apply Keeps.next (keeper8_keeps _ _ _ _)
    | with_reducible apply Keeps.next (cntCtrl_keeps _ _ _)
    | with_reducible apply Keeps.foldl
    | split
    | (intro _; try dsimp only)

theorem slotRegWrite_keeps (p : Params) (w : ℕ) (o : ℕ) (v : Word32) (b : Block) :
    Keeps p b (slotRegWrite p w o v b) := by
  unfold slotRegWrite
  try dsimp only
  repeat' first
    | with_reducible apply Keeps.refl
    | with_reducible apply Keeps.next (updSlot_keeps p _ _ _ _)
    | with_reducible apply Keeps.next (slotRank_keeps p _)
    | with_reducible apply Keeps.next (plainWrite_keeps _ _ _ _ _)
    | with_reducible apply Keeps.foldl
    | split
    | (intro _; try dsimp only)

theorem iqCfgWrite_keeps (p : Params) (w : ℕ) (v : Word32) (b : Block) :
    Keeps p b (iqCfgWrite p w v b) := by
  unfold iqCfgWrite
  try dsimp only
  repeat' first
    | with_reducible apply Keeps.refl
    | with_reducible apply Keeps.next (plainWrite_keeps _ _ _ _ _)
    | with_reducible apply Keeps.foldl
    | split
    | (intro _; try dsimp only)

theorem evRelease_keeps (p : Params) (w : ℕ) (p : Params) (b : Block) :
    Keeps p b (evRelease w p b) :=
  Keeps.free (Only.mono (evRelease_only _ _ _) (by decide)) (Keeps.refl _ _)

theorem wardMq_keeps (p : Params) (w : ℕ) (o : ℕ) (v : Word32) (b : Block) :
    Keeps p b (wardMq p w o v b) := by
  unfold wardMq
  try dsimp only
  repeat' first
    | with_reducible apply Keeps.refl
    | with_reducible apply Keeps.next (updMQ_keeps p _ _ _ _)
    | with_reducible apply Keeps.next (mqCfgAt_keeps _ _ _ _)
    | with_reducible apply Keeps.next (mqPushAt_keeps _ _ _ _)
    | with_reducible apply Keeps.next (mqPopAt_keeps _ _ _)
    | with_reducible apply Keeps.next (mqFlushAt_keeps _ _ _)
    | with_reducible apply Keeps.next (plainWrite_keeps _ _ _ _ _)
    | with_reducible apply Keeps.when
    | with_reducible apply Keeps.foldl
    | split
    | (intro _; try dsimp only)

theorem wardKey_keeps (p : Params) (w : ℕ) (o : ℕ) (v : Word32) (b : Block) :
    Keeps p b (wardKey p w o v b) := by
  unfold wardKey
  try dsimp only
  repeat' first
    | with_reducible apply Keeps.refl
    | with_reducible apply Keeps.next (keyCfgAt_keeps _ _ _ _ _)
    | with_reducible apply Keeps.next (keyResetAt_keeps _ _ _)
    | with_reducible apply Keeps.next (plainWrite_keeps _ _ _ _ _)
    | with_reducible apply Keeps.when
    | with_reducible apply Keeps.foldl
    | split
    | (intro _; try dsimp only)

theorem wardRegWrite_keeps (p : Params) (q : ℕ) (o : ℕ) (v : Word32) (w : ℕ) (b : Block) :
    Keeps p b (wardRegWrite p q o v w b) := by
  unfold wardRegWrite
  try dsimp only
  repeat' first
    | with_reducible apply Keeps.refl
    | with_reducible apply Keeps.next (clearPage_keeps p _ _)
    | with_reducible apply Keeps.next (plainWrite_keeps _ _ _ _ _)
    | with_reducible apply Keeps.next (multiWrite_keeps _ _ _ _ _)
    | with_reducible apply Keeps.next (slotRegWrite_keeps _ _ _ _ _)
    | with_reducible apply Keeps.next (iqCfgWrite_keeps _ _ _ _)
    | with_reducible apply Keeps.next (evRelease_keeps p _ _ _)
    | with_reducible apply Keeps.next (wardMq_keeps _ _ _ _ _)
    | with_reducible apply Keeps.next (wardKey_keeps _ _ _ _ _)
    | with_reducible apply Keeps.foldl
    | split
    | (intro _; try dsimp only)

theorem hingeRegWrite_keeps (p : Params) (h : ℕ) (o : ℕ) (v : Word32) (b : Block) :
    Keeps p b (hingeRegWrite p h o v b) := by
  unfold hingeRegWrite
  try dsimp only
  repeat' first
    | with_reducible apply Keeps.refl
    | with_reducible apply Keeps.next (hgCtrl_keeps _ _ _ _)
    | with_reducible apply Keeps.next (tsStatWrite_keeps p _ _ _)
    | with_reducible apply Keeps.next (clearPage_keeps p _ _)
    | with_reducible apply Keeps.next (plainWrite_keeps _ _ _ _ _)
    | with_reducible apply Keeps.when
    | with_reducible apply Keeps.foldl
    | split
    | (intro _; try dsimp only)

theorem traceWrite_keeps (p : Params) (o : ℕ) (v : Word32) (b : Block) :
    Keeps p b (traceWrite p o v b) := by
  unfold traceWrite
  try dsimp only
  repeat' first
    | with_reducible apply Keeps.refl
    | with_reducible apply Keeps.next (pgErr_keeps _ _ _ _)
    | with_reducible apply Keeps.next (trCtrl_keeps _ _ _)
    | with_reducible apply Keeps.next (plainWrite_keeps _ _ _ _ _)
    | with_reducible apply Keeps.next (multiWrite_keeps _ _ _ _ _)
    | with_reducible apply Keeps.foldl
    | split
    | (intro _; try dsimp only)

theorem dumpWrite_keeps (p : Params) (o : ℕ) (v : Word32) (b : Block) :
    Keeps p b (dumpWrite p o v b) := by
  unfold dumpWrite
  try dsimp only
  repeat' first
    | with_reducible apply Keeps.refl
    | with_reducible apply Keeps.next (dumpStart_keeps _ _)
    | with_reducible apply Keeps.next (plainWrite_keeps _ _ _ _ _)
    | with_reducible apply Keeps.next (multiWrite_keeps _ _ _ _ _)
    | with_reducible apply Keeps.when
    | with_reducible apply Keeps.foldl
    | split
    | (intro _; try dsimp only)

theorem tenantWrite_keeps (p : Params) (t : ℕ) (o : ℕ) (v : Word32) (b : Block) :
    Keeps p b (tenantWrite p t o v b) := by
  unfold tenantWrite
  try dsimp only
  repeat' first
    | with_reducible apply Keeps.refl
    | with_reducible apply Keeps.next (setBits_keeps _ _ _ _)
    | with_reducible apply Keeps.next (ringBell_keeps _ _ _ _ _)
    | with_reducible apply Keeps.next (ringCtrl_keeps _ _ _ _ _ _)
    | with_reducible apply Keeps.next (plainWrite_keeps _ _ _ _ _)
    | with_reducible apply Keeps.when
    | with_reducible apply Keeps.foldl
    | split
    | (intro _; try dsimp only)

theorem pageWrite_keeps (p : Params) (g : Page) (o : ℕ) (v : Word32) (b : Block) :
    Keeps p b (pageWrite p g o v b) := by
  unfold pageWrite
  try dsimp only
  repeat' first
    | with_reducible apply Keeps.refl
    | with_reducible apply Keeps.next (pgErr_keeps _ _ _ _)
    | with_reducible apply Keeps.next (keeperWrite_keeps _ _ _ _ _)
    | with_reducible apply Keeps.next (wardRegWrite_keeps _ _ _ _ _ _)
    | with_reducible apply Keeps.next (hingeRegWrite_keeps _ _ _ _ _)
    | with_reducible apply Keeps.next (traceWrite_keeps _ _ _ _)
    | with_reducible apply Keeps.next (dumpWrite_keeps _ _ _ _)
    | with_reducible apply Keeps.next (tenantWrite_keeps _ _ _ _ _)
    | with_reducible apply Keeps.foldl
    | split
    | (intro _; try dsimp only)

theorem mgtResp_keeps (p : Params) (r : AxiResp) (b : Block) :
    Keeps p b (mgtResp r b) :=
  Keeps.free (Only.mono (mgtResp_only _ _) (by decide)) (Keeps.refl _ _)

theorem oneWrite_keeps (p : Params) (g : Page) (a : ℕ) (v : Word32) (b : Block) :
    Keeps p b (oneWrite p g a v b) := by
  unfold oneWrite
  try dsimp only
  repeat' first
    | with_reducible apply Keeps.refl
    | with_reducible apply Keeps.next (pgErr_keeps _ _ _ _)
    | with_reducible apply Keeps.next (dropHeld_keeps p _ _)
    | with_reducible apply Keeps.next (holdOne_keeps p _ _ _ _)
    | with_reducible apply Keeps.next (pageWrite_keeps _ _ _ _ _)
    | with_reducible apply Keeps.foldl
    | split
    | (intro _; try dsimp only)

theorem winWrite_keeps (p : Params) (t : WTarget) (q : ℕ) (a : ℕ) (v : Word32) (b : Block) :
    Keeps p b (winWrite p t q a v b) := by
  unfold winWrite
  try dsimp only
  repeat' first
    | with_reducible apply Keeps.refl
    | with_reducible apply Keeps.next (pgErr_keeps _ _ _ _)
    | with_reducible apply Keeps.next (oneWrite_keeps _ _ _ _ _)
    | with_reducible apply Keeps.forEach
    | with_reducible apply Keeps.foldl
    | split
    | (intro _; try dsimp only)

theorem regEffect_keeps (p : Params) (g : Page) (a : ℕ) (v : Word32) (b : Block) :
    Keeps p b (regEffect p g a v b) := by
  unfold regEffect
  try dsimp only
  repeat' first
    | with_reducible apply Keeps.refl
    | with_reducible apply Keeps.next (dropHeld_keeps p _ _)
    | with_reducible apply Keeps.next (plainWrite_keeps _ _ _ _ _)
    | with_reducible apply Keeps.next (oneWrite_keeps _ _ _ _ _)
    | with_reducible apply Keeps.next (winWrite_keeps _ _ _ _ _ _)
    | with_reducible apply Keeps.foldl
    | split
    | (intro _; try dsimp only)

theorem mgtWrite_keeps (p : Params) (a : ℕ) (v : Word32) (b : Block) :
    Keeps p b (mgtWrite p a v b) := by
  unfold mgtWrite
  try dsimp only
  repeat' first
    | with_reducible apply Keeps.refl
    | with_reducible apply Keeps.next (updMgt_keeps p _ _)
    | with_reducible apply Keeps.next (mgtResp_keeps p _ _)
    | with_reducible apply Keeps.next (regEffect_keeps _ _ _ _ _)
    | with_reducible apply Keeps.foldl
    | split
    | (intro _; try dsimp only)

theorem mgtAccess_keeps (p : Params) (a : ℕ) (v : Word32) (strb : BitVec 4) (b : Block) :
    Keeps p b (mgtAccess p a v strb b) := by
  unfold mgtAccess
  try dsimp only
  repeat' first
    | with_reducible apply Keeps.refl
    | with_reducible apply Keeps.next (mgtResp_keeps p _ _)
    | with_reducible apply Keeps.next (mgtWrite_keeps _ _ _ _)
    | with_reducible apply Keeps.foldl
    | split
    | (intro _; try dsimp only)

theorem latchRest_keeps (p : Params) (g : Page) (a : ℕ) (b : Block) :
    Keeps p b (latchRest p g a b) :=
  Keeps.free (Only.mono (latchRest_only _ _ _ _) (by decide)) (Keeps.refl _ _)

theorem readEffect_keeps (p : Params) (g : Page) (o : ℕ) (b : Block) :
    Keeps p b (readEffect p g o b) := by
  unfold readEffect
  try dsimp only
  repeat' first
    | with_reducible apply Keeps.refl
    | with_reducible apply Keeps.next (setBits_keeps _ _ _ _)
    | with_reducible apply Keeps.next (updMgt_keeps p _ _)
    | with_reducible apply Keeps.next (mqAdvanceAt_keeps p _ _)
    | with_reducible apply Keeps.when
    | with_reducible apply Keeps.foldl
    | split
    | (intro _; try dsimp only)

theorem readOne_keeps (p : Params) (g : Page) (a : ℕ) (b : Block) :
    Keeps p b (readOne p g a b).2 := by
  unfold readOne
  try dsimp only
  repeat' first
    | with_reducible apply Keeps.refl
    | with_reducible apply Keeps.next (updMgt_keeps p _ _)
    | with_reducible apply Keeps.next (pgErr_keeps _ _ _ _)
    | with_reducible apply Keeps.next (latchRest_keeps _ _ _ _)
    | with_reducible apply Keeps.next (readEffect_keeps _ _ _ _)
    | with_reducible apply Keeps.foldl
    | split
    | (intro _; try dsimp only)

theorem readMembers_keeps (p : Params) (q : ℕ) (o : ℕ) (x3 : List ℕ) (x4 : Block) :
    Keeps p x4 (readMembers p q o x3 x4).2 := by
  induction x3 generalizing x4 with
  | nil =>
    unfold readMembers
    try dsimp only
    repeat' first
        | with_reducible apply Keeps.refl
        | with_reducible apply Keeps.next (readOne_keeps _ _ _ _)
        | with_reducible apply Keeps.foldl
        | split
        | (intro _; try dsimp only)
  | cons a l ih =>
    unfold readMembers
    try dsimp only
    repeat' first
        | with_reducible apply Keeps.next (ih _)
        | with_reducible apply Keeps.refl
        | with_reducible apply Keeps.next (readOne_keeps _ _ _ _)
        | with_reducible apply Keeps.foldl
        | split
        | (intro _; try dsimp only)

theorem readDone_keeps (p : Params) (v : Word32) (r : AxiResp) (b : Block) :
    Keeps p b (readDone v r b) :=
  Keeps.free (Only.mono (readDone_only _ _ _) (by decide)) (Keeps.refl _ _)

theorem winRead_keeps (p : Params) (t : WTarget) (q : ℕ) (a : ℕ) (b : Block) :
    Keeps p b (winRead p t q a b) := by
  unfold winRead
  try dsimp only
  repeat' first
    | with_reducible apply Keeps.refl
    | with_reducible apply Keeps.next (updMgt_keeps p _ _)
    | with_reducible apply Keeps.next (readMembers_keeps _ _ _ _ _)
    | with_reducible apply Keeps.next (readDone_keeps p _ _ _)
    | with_reducible apply Keeps.foldl
    | split
    | (intro _; try dsimp only)

theorem readEffects_keeps (p : Params) (g : Page) (a : ℕ) (b : Block) :
    Keeps p b (readEffects p g a b) := by
  unfold readEffects
  try dsimp only
  repeat' first
    | with_reducible apply Keeps.refl
    | with_reducible apply Keeps.next (readOne_keeps _ _ _ _)
    | with_reducible apply Keeps.next (readDone_keeps p _ _ _)
    | with_reducible apply Keeps.next (winRead_keeps _ _ _ _ _)
    | with_reducible apply Keeps.foldl
    | split
    | (intro _; try dsimp only)

theorem mgtRead_keeps (p : Params) (a : ℕ) (b : Block) :
    Keeps p b (mgtRead p a b) := by
  unfold mgtRead
  try dsimp only
  repeat' first
    | with_reducible apply Keeps.refl
    | with_reducible apply Keeps.next (updMgt_keeps p _ _)
    | with_reducible apply Keeps.next (mgtResp_keeps p _ _)
    | with_reducible apply Keeps.next (readDone_keeps p _ _ _)
    | with_reducible apply Keeps.next (readEffects_keeps _ _ _ _)
    | with_reducible apply Keeps.foldl
    | split
    | (intro _; try dsimp only)

theorem replayAccess_keeps (p : Params) (b : Block) :
    Keeps p b (replayAccess p b) := by
  unfold replayAccess
  try dsimp only
  repeat' first
    | with_reducible apply Keeps.refl
    | with_reducible apply Keeps.next (updMgt_keeps p _ _)
    | with_reducible apply Keeps.next (mgtWrite_keeps _ _ _ _)
    | with_reducible apply Keeps.next (mgtRead_keeps _ _ _)
    | with_reducible apply Keeps.foldl
    | split
    | (intro _; try dsimp only)

theorem countPort_keeps (p : Params) (n : ℕ) (b : Block) :
    Keeps p b (countPort p n b) := by
  unfold countPort
  try dsimp only
  repeat' first
    | with_reducible apply Keeps.refl
    | with_reducible apply Keeps.next (updPort_keeps p _ _ _)
    | with_reducible apply Keeps.next (bump_keeps p _ _ _)
    | with_reducible apply Keeps.when
    | with_reducible apply Keeps.foldl
    | split
    | (intro _; try dsimp only)

theorem cycleClose_keeps (p : Params) (b : Block) :
    Keeps p b (cycleClose p b) := by
  unfold cycleClose
  try dsimp only
  repeat' first
    | with_reducible apply Keeps.refl
    | with_reducible apply Keeps.next (logCycle_keeps p _)
    | with_reducible apply Keeps.next (reportReady_keeps _ _)
    | with_reducible apply Keeps.next (drainWatch_keeps _ _)
    | with_reducible apply Keeps.next (clearCycle_keeps p _)
    | with_reducible apply Keeps.next (snapCycle_keeps p _)
    | with_reducible apply Keeps.next (blkCycle_keeps _ _)
    | with_reducible apply Keeps.next (commitPointAt_keeps _ _ _)
    | with_reducible apply Keeps.next (countPort_keeps _ _ _)
    | with_reducible apply Keeps.forEach
    | with_reducible apply Keeps.foldl
    | split
    | (intro _; try dsimp only)

theorem cycleEnd_keeps (p : Params) (b : Block) :
    Keeps p b (cycleEnd p b) := by
  unfold cycleEnd
  try dsimp only
  repeat' first
    | with_reducible apply Keeps.refl
    | with_reducible apply Keeps.next (drainExam_keeps _ _)
    | with_reducible apply Keeps.next (govCycle_keeps _ _)
    | with_reducible apply Keeps.next (mqCycle_keeps _ _)
    | with_reducible apply Keeps.next (selectWaits_keeps p _)
    | with_reducible apply Keeps.next (deliverDue_keeps _ _ _)
    | with_reducible apply Keeps.next (cycleClose_keeps _ _)
    | with_reducible apply Keeps.foldl
    | split
    | (intro _; try dsimp only)

theorem hangTick_keeps (p : Params) (r : ℕ) (b : Block) :
    Keeps p b (hangTick p r b) := by
  unfold hangTick
  try dsimp only
  repeat' first
    | with_reducible apply Keeps.refl
    | with_reducible apply Keeps.next (updRing_keeps p _ _ _)
    | with_reducible apply Keeps.when
    | with_reducible apply Keeps.foldl
    | split
    | (intro _; try dsimp only)

theorem tclkEdge_keeps (p : Params) (b : Block) :
    Keeps p b (tclkEdge p b) := by
  unfold tclkEdge
  try dsimp only
  repeat' first
    | with_reducible apply Keeps.refl
    | with_reducible apply Keeps.next (updClk_keeps p _ _)
    | with_reducible apply Keeps.next (hangTick_keeps _ _ _)
    | with_reducible apply Keeps.when
    | with_reducible apply Keeps.forEach
    | with_reducible apply Keeps.foldl
    | split
    | (intro _; try dsimp only)

theorem sclkEdge_keeps (p : Params) (b : Block) :
    Keeps p b (sclkEdge b) :=
  Keeps.free (Only.mono (sclkEdge_only _) (by decide)) (Keeps.refl _ _)

theorem clockEdge_keeps (p : Params) (b : Block) :
    Keeps p b (clockEdge p b) := by
  unfold clockEdge
  try dsimp only
  repeat' first
    | with_reducible apply Keeps.refl
    | with_reducible apply Keeps.next (updClk_keeps p _ _)
    | with_reducible apply Keeps.next (faultEdge_keeps _ _)
    | with_reducible apply Keeps.next (dumpFreeze_keeps _ _)
    | with_reducible apply Keeps.next (tclkEdge_keeps _ _)
    | with_reducible apply Keeps.next (sclkEdge_keeps p _)
    | with_reducible apply Keeps.when
    | with_reducible apply Keeps.foldl
    | split
    | (intro _; try dsimp only)

theorem tick_keeps (p : Params) (b : Block) :
    Keeps p b (tick p b) := by
  unfold tick
  try dsimp only
  repeat' first
    | with_reducible apply Keeps.refl
    | with_reducible apply Keeps.next (cycleEnd_keeps _ _)
    | with_reducible apply Keeps.next (clockEdge_keeps _ _)
    | with_reducible apply Keeps.when
    | with_reducible apply Keeps.foldl
    | split
    | (intro _; try dsimp only)

theorem earlier_keeps (p : Params) (t : Turn) (b : Block) :
    Keeps p b (earlier p t b) := by
  unfold earlier
  try dsimp only
  repeat' first
    | with_reducible apply Keeps.refl
    | with_reducible apply Keeps.next (deliverDue_keeps _ _ _)
    | with_reducible apply Keeps.foldl
    | split
    | (intro _; try dsimp only)

end Sys2Proof.Machine
end

