-- ==== Sys2Proof/Laws/Order.lean ====
section
/-! SUPPORT. How a command is sampled: at once when the cycle under way takes it, and in the first cycle of its clock
otherwise. -/

namespace Sys2Proof.Machine

/-- What is not due is not delivered. -/
theorem deliverDue_none (p : Params) (f : Nat → Nat → Bool) (b : Block) (h : NoneDue b) : deliverDue p f b = b := by
  have e : ∀ x ∈ b.xbar, isDue b f x = false := fun x hx => by simp [isDue, h x hx]
  have e1 : b.xbar.filter (isDue b f) = [] := List.filter_eq_nil_iff.mpr fun x hx => by simp [e x hx]
  have e2 : b.xbar.filter (fun x => !isDue b f x) = b.xbar := List.filter_eq_self.mpr fun x hx => by simp [e x hx]
  unfold deliverDue
  rw [e1, e2]
  rfl

/-- A command that its cycle takes acts on the block as it is. -/
theorem sampled_now (c : Instr) (p : Params) (q : List Instr) (b : Block) (k : Cycle) (h : inTurn p b k c) (n : NoneDue b) :
    State.sampled c ⟨p, q, b, k⟩ = ⟨p, q, b, (turnOf p b c).mark k⟩ := by
  simp only [State.sampled, heldFor, h, if_true, State.pass, State.onBlock, earlier, deliverDue_none p _ b n]

/-- A cycle that has sampled nothing takes every command at an edge of its clock. -/
theorem fits_fresh (t : Turn) (f : Nat) (h : f % t.gate.phase.1 = t.gate.phase.2) : t.fits f {} = true := by
  have hk : ∀ u, (({} : Cycle).lastAt u) = 0 := fun u => rfl
  have hi : ∀ w, (Tbl.get 0 ({} : Cycle).items w) = 0 := fun w => rfl
  have hg : t.gate.opens f {} = true := by unfold Gate.opens; rw [h]; cases t.gate <;> rfl
  unfold Turn.fits
  rw [hg]
  simp only [hk, hi, Turn.key]
  cases t.item <;> simp [itemsPerFclk]

/-- A command whose clock's edge falls in a fresh cycle is in turn. -/
theorem inTurn_fresh (p : Params) (b : Block) (c : Instr)
    (h : b.clk.fclk % (turnOf p b c).gate.phase.1 = (turnOf p b c).gate.phase.2) : inTurn p b {} c = true := by
  simp [inTurn, fits_fresh _ _ h]

/-- No clock runs under PORST_N: a command acts at once. -/
theorem inTurn_porst (p : Params) (b : Block) (k : Cycle) (c : Instr) (h : b.boot.porst = true) : inTurn p b k c = true := by
  simp [inTurn, h]

/-- The cycles that pass lead to an edge of the command's clock. -/
theorem heldFor_edge (p : Params) (b : Block) (k : Cycle) (c : Instr) (h : ¬ inTurn p b k c) :
    (b.clk.fclk + heldFor p b k c) % (turnOf p b c).gate.phase.1 = (turnOf p b c).gate.phase.2 ∧ 1 ≤ heldFor p b k c := by
  simp only [heldFor, h]
  cases (turnOf p b c).gate <;> simp [Gate.phase] <;> omega

end Sys2Proof.Machine
end

