-- ==== Sys2Proof/Laws/State.lean ====
section
/-! SUPPORT. What each update of the state leaves: its own field, every other field, and what the getters read after it. -/

namespace Sys2Proof.Machine

/-! ## Each update and each field -/

@[simp] theorem updEnt_clk (h : Nat) (f : Entry → Entry) (b : Block) : (updEnt h f b).clk = b.clk := rfl
@[simp] theorem updEnt_boot (h : Nat) (f : Entry → Entry) (b : Block) : (updEnt h f b).boot = b.boot := rfl
@[simp] theorem updEnt_mgt (h : Nat) (f : Entry → Entry) (b : Block) : (updEnt h f b).mgt = b.mgt := rfl
@[simp] theorem updEnt_regs (h : Nat) (f : Entry → Entry) (b : Block) : (updEnt h f b).regs = b.regs := rfl
@[simp] theorem updEnt_cnt (h : Nat) (f : Entry → Entry) (b : Block) : (updEnt h f b).cnt = b.cnt := rfl
@[simp] theorem updEnt_cntSh (h : Nat) (f : Entry → Entry) (b : Block) : (updEnt h f b).cntSh = b.cntSh := rfl
@[simp] theorem updEnt_snapAt (h : Nat) (f : Entry → Entry) (b : Block) : (updEnt h f b).snapAt = b.snapAt := rfl
@[simp] theorem updEnt_snapTs (h : Nat) (f : Entry → Entry) (b : Block) : (updEnt h f b).snapTs = b.snapTs := rfl
@[simp] theorem updEnt_cmtTs (h : Nat) (f : Entry → Entry) (b : Block) : (updEnt h f b).cmtTs = b.cmtTs := rfl
@[simp] theorem updEnt_cmtDue (h : Nat) (f : Entry → Entry) (b : Block) : (updEnt h f b).cmtDue = b.cmtDue := rfl
@[simp] theorem updEnt_iqWork (h : Nat) (f : Entry → Entry) (b : Block) : (updEnt h f b).iqWork = b.iqWork := rfl
@[simp] theorem updEnt_ents (h : Nat) (f : Entry → Entry) (b : Block) : (updEnt h f b).ents = Tbl.upd {} b.ents h f := rfl
@[simp] theorem updEnt_wq (h : Nat) (f : Entry → Entry) (b : Block) : (updEnt h f b).wq = b.wq := rfl
@[simp] theorem updEnt_slots (h : Nat) (f : Entry → Entry) (b : Block) : (updEnt h f b).slots = b.slots := rfl
@[simp] theorem updEnt_ports (h : Nat) (f : Entry → Entry) (b : Block) : (updEnt h f b).ports = b.ports := rfl
@[simp] theorem updEnt_occ (h : Nat) (f : Entry → Entry) (b : Block) : (updEnt h f b).occ = b.occ := rfl
@[simp] theorem updEnt_place (h : Nat) (f : Entry → Entry) (b : Block) : (updEnt h f b).place = b.place := rfl
@[simp] theorem updEnt_gov (h : Nat) (f : Entry → Entry) (b : Block) : (updEnt h f b).gov = b.gov := rfl
@[simp] theorem updEnt_arb (h : Nat) (f : Entry → Entry) (b : Block) : (updEnt h f b).arb = b.arb := rfl
@[simp] theorem updEnt_rings (h : Nat) (f : Entry → Entry) (b : Block) : (updEnt h f b).rings = b.rings := rfl
@[simp] theorem updEnt_tdone (h : Nat) (f : Entry → Entry) (b : Block) : (updEnt h f b).tdone = b.tdone := rfl
@[simp] theorem updEnt_tens (h : Nat) (f : Entry → Entry) (b : Block) : (updEnt h f b).tens = b.tens := rfl
@[simp] theorem updEnt_segs (h : Nat) (f : Entry → Entry) (b : Block) : (updEnt h f b).segs = b.segs := rfl
@[simp] theorem updEnt_entq (h : Nat) (f : Entry → Entry) (b : Block) : (updEnt h f b).entq = b.entq := rfl
@[simp] theorem updEnt_pcls (h : Nat) (f : Entry → Entry) (b : Block) : (updEnt h f b).pcls = b.pcls := rfl
@[simp] theorem updEnt_hasps (h : Nat) (f : Entry → Entry) (b : Block) : (updEnt h f b).hasps = b.hasps := rfl
@[simp] theorem updEnt_waits (h : Nat) (f : Entry → Entry) (b : Block) : (updEnt h f b).waits = b.waits := rfl
@[simp] theorem updEnt_kpool (h : Nat) (f : Entry → Entry) (b : Block) : (updEnt h f b).kpool = b.kpool := rfl
@[simp] theorem updEnt_mq (h : Nat) (f : Entry → Entry) (b : Block) : (updEnt h f b).mq = b.mq := rfl
@[simp] theorem updEnt_mqPop (h : Nat) (f : Entry → Entry) (b : Block) : (updEnt h f b).mqPop = b.mqPop := rfl
@[simp] theorem updEnt_chans (h : Nat) (f : Entry → Entry) (b : Block) : (updEnt h f b).chans = b.chans := rfl
@[simp] theorem updEnt_rchans (h : Nat) (f : Entry → Entry) (b : Block) : (updEnt h f b).rchans = b.rchans := rfl
@[simp] theorem updEnt_storms (h : Nat) (f : Entry → Entry) (b : Block) : (updEnt h f b).storms = b.storms := rfl
@[simp] theorem updEnt_cq (h : Nat) (f : Entry → Entry) (b : Block) : (updEnt h f b).cq = b.cq := rfl
@[simp] theorem updEnt_cbParts (h : Nat) (f : Entry → Entry) (b : Block) : (updEnt h f b).cbParts = b.cbParts := rfl
@[simp] theorem updEnt_opdLast (h : Nat) (f : Entry → Entry) (b : Block) : (updEnt h f b).opdLast = b.opdLast := rfl
@[simp] theorem updEnt_preIgnored (h : Nat) (f : Entry → Entry) (b : Block) : (updEnt h f b).preIgnored = b.preIgnored := rfl
@[simp] theorem updEnt_resumeQ (h : Nat) (f : Entry → Entry) (b : Block) : (updEnt h f b).resumeQ = b.resumeQ := rfl
@[simp] theorem updEnt_lcIdleAt (h : Nat) (f : Entry → Entry) (b : Block) : (updEnt h f b).lcIdleAt = b.lcIdleAt := rfl
@[simp] theorem updEnt_hg (h : Nat) (f : Entry → Entry) (b : Block) : (updEnt h f b).hg = b.hg := rfl
@[simp] theorem updEnt_routes (h : Nat) (f : Entry → Entry) (b : Block) : (updEnt h f b).routes = b.routes := rfl
@[simp] theorem updEnt_unreach (h : Nat) (f : Entry → Entry) (b : Block) : (updEnt h f b).unreach = b.unreach := rfl
@[simp] theorem updEnt_fedt (h : Nat) (f : Entry → Entry) (b : Block) : (updEnt h f b).fedt = b.fedt := rfl
@[simp] theorem updEnt_remSegs (h : Nat) (f : Entry → Entry) (b : Block) : (updEnt h f b).remSegs = b.remSegs := rfl
@[simp] theorem updEnt_log (h : Nat) (f : Entry → Entry) (b : Block) : (updEnt h f b).log = b.log := rfl
@[simp] theorem updEnt_dbolt (h : Nat) (f : Entry → Entry) (b : Block) : (updEnt h f b).dbolt = b.dbolt := rfl
@[simp] theorem updEnt_hang (h : Nat) (f : Entry → Entry) (b : Block) : (updEnt h f b).hang = b.hang := rfl
@[simp] theorem updEnt_dump (h : Nat) (f : Entry → Entry) (b : Block) : (updEnt h f b).dump = b.dump := rfl
@[simp] theorem updEnt_cap (h : Nat) (f : Entry → Entry) (b : Block) : (updEnt h f b).cap = b.cap := rfl
@[simp] theorem updEnt_ecc (h : Nat) (f : Entry → Entry) (b : Block) : (updEnt h f b).ecc = b.ecc := rfl
@[simp] theorem updEnt_evr (h : Nat) (f : Entry → Entry) (b : Block) : (updEnt h f b).evr = b.evr := rfl
@[simp] theorem updEnt_blk (h : Nat) (f : Entry → Entry) (b : Block) : (updEnt h f b).blk = b.blk := rfl
@[simp] theorem updEnt_trace (h : Nat) (f : Entry → Entry) (b : Block) : (updEnt h f b).trace = b.trace := rfl
@[simp] theorem updEnt_watch (h : Nat) (f : Entry → Entry) (b : Block) : (updEnt h f b).watch = b.watch := rfl
@[simp] theorem updEnt_tally (h : Nat) (f : Entry → Entry) (b : Block) : (updEnt h f b).tally = b.tally := rfl
@[simp] theorem updEnt_meter (h : Nat) (f : Entry → Entry) (b : Block) : (updEnt h f b).meter = b.meter := rfl
@[simp] theorem updEnt_xbar (h : Nat) (f : Entry → Entry) (b : Block) : (updEnt h f b).xbar = b.xbar := rfl
@[simp] theorem updEnt_out (h : Nat) (f : Entry → Entry) (b : Block) : (updEnt h f b).out = b.out := rfl

@[simp] theorem updPort_clk (n : Nat) (f : Port → Port) (b : Block) : (updPort n f b).clk = b.clk := rfl
@[simp] theorem updPort_boot (n : Nat) (f : Port → Port) (b : Block) : (updPort n f b).boot = b.boot := rfl
@[simp] theorem updPort_mgt (n : Nat) (f : Port → Port) (b : Block) : (updPort n f b).mgt = b.mgt := rfl
@[simp] theorem updPort_regs (n : Nat) (f : Port → Port) (b : Block) : (updPort n f b).regs = b.regs := rfl
@[simp] theorem updPort_cnt (n : Nat) (f : Port → Port) (b : Block) : (updPort n f b).cnt = b.cnt := rfl
@[simp] theorem updPort_cntSh (n : Nat) (f : Port → Port) (b : Block) : (updPort n f b).cntSh = b.cntSh := rfl
@[simp] theorem updPort_snapAt (n : Nat) (f : Port → Port) (b : Block) : (updPort n f b).snapAt = b.snapAt := rfl
@[simp] theorem updPort_snapTs (n : Nat) (f : Port → Port) (b : Block) : (updPort n f b).snapTs = b.snapTs := rfl
@[simp] theorem updPort_cmtTs (n : Nat) (f : Port → Port) (b : Block) : (updPort n f b).cmtTs = b.cmtTs := rfl
@[simp] theorem updPort_cmtDue (n : Nat) (f : Port → Port) (b : Block) : (updPort n f b).cmtDue = b.cmtDue := rfl
@[simp] theorem updPort_iqWork (n : Nat) (f : Port → Port) (b : Block) : (updPort n f b).iqWork = b.iqWork := rfl
@[simp] theorem updPort_ents (n : Nat) (f : Port → Port) (b : Block) : (updPort n f b).ents = b.ents := rfl
@[simp] theorem updPort_wq (n : Nat) (f : Port → Port) (b : Block) : (updPort n f b).wq = b.wq := rfl
@[simp] theorem updPort_slots (n : Nat) (f : Port → Port) (b : Block) : (updPort n f b).slots = b.slots := rfl
@[simp] theorem updPort_ports (n : Nat) (f : Port → Port) (b : Block) : (updPort n f b).ports = Tbl.upd {} b.ports n f := rfl
@[simp] theorem updPort_occ (n : Nat) (f : Port → Port) (b : Block) : (updPort n f b).occ = b.occ := rfl
@[simp] theorem updPort_place (n : Nat) (f : Port → Port) (b : Block) : (updPort n f b).place = b.place := rfl
@[simp] theorem updPort_gov (n : Nat) (f : Port → Port) (b : Block) : (updPort n f b).gov = b.gov := rfl
@[simp] theorem updPort_arb (n : Nat) (f : Port → Port) (b : Block) : (updPort n f b).arb = b.arb := rfl
@[simp] theorem updPort_rings (n : Nat) (f : Port → Port) (b : Block) : (updPort n f b).rings = b.rings := rfl
@[simp] theorem updPort_tdone (n : Nat) (f : Port → Port) (b : Block) : (updPort n f b).tdone = b.tdone := rfl
@[simp] theorem updPort_tens (n : Nat) (f : Port → Port) (b : Block) : (updPort n f b).tens = b.tens := rfl
@[simp] theorem updPort_segs (n : Nat) (f : Port → Port) (b : Block) : (updPort n f b).segs = b.segs := rfl
@[simp] theorem updPort_entq (n : Nat) (f : Port → Port) (b : Block) : (updPort n f b).entq = b.entq := rfl
@[simp] theorem updPort_pcls (n : Nat) (f : Port → Port) (b : Block) : (updPort n f b).pcls = b.pcls := rfl
@[simp] theorem updPort_hasps (n : Nat) (f : Port → Port) (b : Block) : (updPort n f b).hasps = b.hasps := rfl
@[simp] theorem updPort_waits (n : Nat) (f : Port → Port) (b : Block) : (updPort n f b).waits = b.waits := rfl
@[simp] theorem updPort_kpool (n : Nat) (f : Port → Port) (b : Block) : (updPort n f b).kpool = b.kpool := rfl
@[simp] theorem updPort_mq (n : Nat) (f : Port → Port) (b : Block) : (updPort n f b).mq = b.mq := rfl
@[simp] theorem updPort_mqPop (n : Nat) (f : Port → Port) (b : Block) : (updPort n f b).mqPop = b.mqPop := rfl
@[simp] theorem updPort_chans (n : Nat) (f : Port → Port) (b : Block) : (updPort n f b).chans = b.chans := rfl
@[simp] theorem updPort_rchans (n : Nat) (f : Port → Port) (b : Block) : (updPort n f b).rchans = b.rchans := rfl
@[simp] theorem updPort_storms (n : Nat) (f : Port → Port) (b : Block) : (updPort n f b).storms = b.storms := rfl
@[simp] theorem updPort_cq (n : Nat) (f : Port → Port) (b : Block) : (updPort n f b).cq = b.cq := rfl
@[simp] theorem updPort_cbParts (n : Nat) (f : Port → Port) (b : Block) : (updPort n f b).cbParts = b.cbParts := rfl
@[simp] theorem updPort_opdLast (n : Nat) (f : Port → Port) (b : Block) : (updPort n f b).opdLast = b.opdLast := rfl
@[simp] theorem updPort_preIgnored (n : Nat) (f : Port → Port) (b : Block) : (updPort n f b).preIgnored = b.preIgnored := rfl
@[simp] theorem updPort_resumeQ (n : Nat) (f : Port → Port) (b : Block) : (updPort n f b).resumeQ = b.resumeQ := rfl
@[simp] theorem updPort_lcIdleAt (n : Nat) (f : Port → Port) (b : Block) : (updPort n f b).lcIdleAt = b.lcIdleAt := rfl
@[simp] theorem updPort_hg (n : Nat) (f : Port → Port) (b : Block) : (updPort n f b).hg = b.hg := rfl
@[simp] theorem updPort_routes (n : Nat) (f : Port → Port) (b : Block) : (updPort n f b).routes = b.routes := rfl
@[simp] theorem updPort_unreach (n : Nat) (f : Port → Port) (b : Block) : (updPort n f b).unreach = b.unreach := rfl
@[simp] theorem updPort_fedt (n : Nat) (f : Port → Port) (b : Block) : (updPort n f b).fedt = b.fedt := rfl
@[simp] theorem updPort_remSegs (n : Nat) (f : Port → Port) (b : Block) : (updPort n f b).remSegs = b.remSegs := rfl
@[simp] theorem updPort_log (n : Nat) (f : Port → Port) (b : Block) : (updPort n f b).log = b.log := rfl
@[simp] theorem updPort_dbolt (n : Nat) (f : Port → Port) (b : Block) : (updPort n f b).dbolt = b.dbolt := rfl
@[simp] theorem updPort_hang (n : Nat) (f : Port → Port) (b : Block) : (updPort n f b).hang = b.hang := rfl
@[simp] theorem updPort_dump (n : Nat) (f : Port → Port) (b : Block) : (updPort n f b).dump = b.dump := rfl
@[simp] theorem updPort_cap (n : Nat) (f : Port → Port) (b : Block) : (updPort n f b).cap = b.cap := rfl
@[simp] theorem updPort_ecc (n : Nat) (f : Port → Port) (b : Block) : (updPort n f b).ecc = b.ecc := rfl
@[simp] theorem updPort_evr (n : Nat) (f : Port → Port) (b : Block) : (updPort n f b).evr = b.evr := rfl
@[simp] theorem updPort_blk (n : Nat) (f : Port → Port) (b : Block) : (updPort n f b).blk = b.blk := rfl
@[simp] theorem updPort_trace (n : Nat) (f : Port → Port) (b : Block) : (updPort n f b).trace = b.trace := rfl
@[simp] theorem updPort_watch (n : Nat) (f : Port → Port) (b : Block) : (updPort n f b).watch = b.watch := rfl
@[simp] theorem updPort_tally (n : Nat) (f : Port → Port) (b : Block) : (updPort n f b).tally = b.tally := rfl
@[simp] theorem updPort_meter (n : Nat) (f : Port → Port) (b : Block) : (updPort n f b).meter = b.meter := rfl
@[simp] theorem updPort_xbar (n : Nat) (f : Port → Port) (b : Block) : (updPort n f b).xbar = b.xbar := rfl
@[simp] theorem updPort_out (n : Nat) (f : Port → Port) (b : Block) : (updPort n f b).out = b.out := rfl

@[simp] theorem updRing_clk (r : Nat) (f : Ring → Ring) (b : Block) : (updRing r f b).clk = b.clk := rfl
@[simp] theorem updRing_boot (r : Nat) (f : Ring → Ring) (b : Block) : (updRing r f b).boot = b.boot := rfl
@[simp] theorem updRing_mgt (r : Nat) (f : Ring → Ring) (b : Block) : (updRing r f b).mgt = b.mgt := rfl
@[simp] theorem updRing_regs (r : Nat) (f : Ring → Ring) (b : Block) : (updRing r f b).regs = b.regs := rfl
@[simp] theorem updRing_cnt (r : Nat) (f : Ring → Ring) (b : Block) : (updRing r f b).cnt = b.cnt := rfl
@[simp] theorem updRing_cntSh (r : Nat) (f : Ring → Ring) (b : Block) : (updRing r f b).cntSh = b.cntSh := rfl
@[simp] theorem updRing_snapAt (r : Nat) (f : Ring → Ring) (b : Block) : (updRing r f b).snapAt = b.snapAt := rfl
@[simp] theorem updRing_snapTs (r : Nat) (f : Ring → Ring) (b : Block) : (updRing r f b).snapTs = b.snapTs := rfl
@[simp] theorem updRing_cmtTs (r : Nat) (f : Ring → Ring) (b : Block) : (updRing r f b).cmtTs = b.cmtTs := rfl
@[simp] theorem updRing_cmtDue (r : Nat) (f : Ring → Ring) (b : Block) : (updRing r f b).cmtDue = b.cmtDue := rfl
@[simp] theorem updRing_iqWork (r : Nat) (f : Ring → Ring) (b : Block) : (updRing r f b).iqWork = b.iqWork := rfl
@[simp] theorem updRing_ents (r : Nat) (f : Ring → Ring) (b : Block) : (updRing r f b).ents = b.ents := rfl
@[simp] theorem updRing_wq (r : Nat) (f : Ring → Ring) (b : Block) : (updRing r f b).wq = b.wq := rfl
@[simp] theorem updRing_slots (r : Nat) (f : Ring → Ring) (b : Block) : (updRing r f b).slots = b.slots := rfl
@[simp] theorem updRing_ports (r : Nat) (f : Ring → Ring) (b : Block) : (updRing r f b).ports = b.ports := rfl
@[simp] theorem updRing_occ (r : Nat) (f : Ring → Ring) (b : Block) : (updRing r f b).occ = b.occ := rfl
@[simp] theorem updRing_place (r : Nat) (f : Ring → Ring) (b : Block) : (updRing r f b).place = b.place := rfl
@[simp] theorem updRing_gov (r : Nat) (f : Ring → Ring) (b : Block) : (updRing r f b).gov = b.gov := rfl
@[simp] theorem updRing_arb (r : Nat) (f : Ring → Ring) (b : Block) : (updRing r f b).arb = b.arb := rfl
@[simp] theorem updRing_rings (r : Nat) (f : Ring → Ring) (b : Block) : (updRing r f b).rings = Tbl.upd {} b.rings r f := rfl
@[simp] theorem updRing_tdone (r : Nat) (f : Ring → Ring) (b : Block) : (updRing r f b).tdone = b.tdone := rfl
@[simp] theorem updRing_tens (r : Nat) (f : Ring → Ring) (b : Block) : (updRing r f b).tens = b.tens := rfl
@[simp] theorem updRing_segs (r : Nat) (f : Ring → Ring) (b : Block) : (updRing r f b).segs = b.segs := rfl
@[simp] theorem updRing_entq (r : Nat) (f : Ring → Ring) (b : Block) : (updRing r f b).entq = b.entq := rfl
@[simp] theorem updRing_pcls (r : Nat) (f : Ring → Ring) (b : Block) : (updRing r f b).pcls = b.pcls := rfl
@[simp] theorem updRing_hasps (r : Nat) (f : Ring → Ring) (b : Block) : (updRing r f b).hasps = b.hasps := rfl
@[simp] theorem updRing_waits (r : Nat) (f : Ring → Ring) (b : Block) : (updRing r f b).waits = b.waits := rfl
@[simp] theorem updRing_kpool (r : Nat) (f : Ring → Ring) (b : Block) : (updRing r f b).kpool = b.kpool := rfl
@[simp] theorem updRing_mq (r : Nat) (f : Ring → Ring) (b : Block) : (updRing r f b).mq = b.mq := rfl
@[simp] theorem updRing_mqPop (r : Nat) (f : Ring → Ring) (b : Block) : (updRing r f b).mqPop = b.mqPop := rfl
@[simp] theorem updRing_chans (r : Nat) (f : Ring → Ring) (b : Block) : (updRing r f b).chans = b.chans := rfl
@[simp] theorem updRing_rchans (r : Nat) (f : Ring → Ring) (b : Block) : (updRing r f b).rchans = b.rchans := rfl
@[simp] theorem updRing_storms (r : Nat) (f : Ring → Ring) (b : Block) : (updRing r f b).storms = b.storms := rfl
@[simp] theorem updRing_cq (r : Nat) (f : Ring → Ring) (b : Block) : (updRing r f b).cq = b.cq := rfl
@[simp] theorem updRing_cbParts (r : Nat) (f : Ring → Ring) (b : Block) : (updRing r f b).cbParts = b.cbParts := rfl
@[simp] theorem updRing_opdLast (r : Nat) (f : Ring → Ring) (b : Block) : (updRing r f b).opdLast = b.opdLast := rfl
@[simp] theorem updRing_preIgnored (r : Nat) (f : Ring → Ring) (b : Block) : (updRing r f b).preIgnored = b.preIgnored := rfl
@[simp] theorem updRing_resumeQ (r : Nat) (f : Ring → Ring) (b : Block) : (updRing r f b).resumeQ = b.resumeQ := rfl
@[simp] theorem updRing_lcIdleAt (r : Nat) (f : Ring → Ring) (b : Block) : (updRing r f b).lcIdleAt = b.lcIdleAt := rfl
@[simp] theorem updRing_hg (r : Nat) (f : Ring → Ring) (b : Block) : (updRing r f b).hg = b.hg := rfl
@[simp] theorem updRing_routes (r : Nat) (f : Ring → Ring) (b : Block) : (updRing r f b).routes = b.routes := rfl
@[simp] theorem updRing_unreach (r : Nat) (f : Ring → Ring) (b : Block) : (updRing r f b).unreach = b.unreach := rfl
@[simp] theorem updRing_fedt (r : Nat) (f : Ring → Ring) (b : Block) : (updRing r f b).fedt = b.fedt := rfl
@[simp] theorem updRing_remSegs (r : Nat) (f : Ring → Ring) (b : Block) : (updRing r f b).remSegs = b.remSegs := rfl
@[simp] theorem updRing_log (r : Nat) (f : Ring → Ring) (b : Block) : (updRing r f b).log = b.log := rfl
@[simp] theorem updRing_dbolt (r : Nat) (f : Ring → Ring) (b : Block) : (updRing r f b).dbolt = b.dbolt := rfl
@[simp] theorem updRing_hang (r : Nat) (f : Ring → Ring) (b : Block) : (updRing r f b).hang = b.hang := rfl
@[simp] theorem updRing_dump (r : Nat) (f : Ring → Ring) (b : Block) : (updRing r f b).dump = b.dump := rfl
@[simp] theorem updRing_cap (r : Nat) (f : Ring → Ring) (b : Block) : (updRing r f b).cap = b.cap := rfl
@[simp] theorem updRing_ecc (r : Nat) (f : Ring → Ring) (b : Block) : (updRing r f b).ecc = b.ecc := rfl
@[simp] theorem updRing_evr (r : Nat) (f : Ring → Ring) (b : Block) : (updRing r f b).evr = b.evr := rfl
@[simp] theorem updRing_blk (r : Nat) (f : Ring → Ring) (b : Block) : (updRing r f b).blk = b.blk := rfl
@[simp] theorem updRing_trace (r : Nat) (f : Ring → Ring) (b : Block) : (updRing r f b).trace = b.trace := rfl
@[simp] theorem updRing_watch (r : Nat) (f : Ring → Ring) (b : Block) : (updRing r f b).watch = b.watch := rfl
@[simp] theorem updRing_tally (r : Nat) (f : Ring → Ring) (b : Block) : (updRing r f b).tally = b.tally := rfl
@[simp] theorem updRing_meter (r : Nat) (f : Ring → Ring) (b : Block) : (updRing r f b).meter = b.meter := rfl
@[simp] theorem updRing_xbar (r : Nat) (f : Ring → Ring) (b : Block) : (updRing r f b).xbar = b.xbar := rfl
@[simp] theorem updRing_out (r : Nat) (f : Ring → Ring) (b : Block) : (updRing r f b).out = b.out := rfl

@[simp] theorem updWalk_clk (r : Nat) (f : Walk → Walk) (b : Block) : (updWalk r f b).clk = b.clk := rfl
@[simp] theorem updWalk_boot (r : Nat) (f : Walk → Walk) (b : Block) : (updWalk r f b).boot = b.boot := rfl
@[simp] theorem updWalk_mgt (r : Nat) (f : Walk → Walk) (b : Block) : (updWalk r f b).mgt = b.mgt := rfl
@[simp] theorem updWalk_regs (r : Nat) (f : Walk → Walk) (b : Block) : (updWalk r f b).regs = b.regs := rfl
@[simp] theorem updWalk_cnt (r : Nat) (f : Walk → Walk) (b : Block) : (updWalk r f b).cnt = b.cnt := rfl
@[simp] theorem updWalk_cntSh (r : Nat) (f : Walk → Walk) (b : Block) : (updWalk r f b).cntSh = b.cntSh := rfl
@[simp] theorem updWalk_snapAt (r : Nat) (f : Walk → Walk) (b : Block) : (updWalk r f b).snapAt = b.snapAt := rfl
@[simp] theorem updWalk_snapTs (r : Nat) (f : Walk → Walk) (b : Block) : (updWalk r f b).snapTs = b.snapTs := rfl
@[simp] theorem updWalk_cmtTs (r : Nat) (f : Walk → Walk) (b : Block) : (updWalk r f b).cmtTs = b.cmtTs := rfl
@[simp] theorem updWalk_cmtDue (r : Nat) (f : Walk → Walk) (b : Block) : (updWalk r f b).cmtDue = b.cmtDue := rfl
@[simp] theorem updWalk_iqWork (r : Nat) (f : Walk → Walk) (b : Block) : (updWalk r f b).iqWork = b.iqWork := rfl
@[simp] theorem updWalk_ents (r : Nat) (f : Walk → Walk) (b : Block) : (updWalk r f b).ents = b.ents := rfl
@[simp] theorem updWalk_wq (r : Nat) (f : Walk → Walk) (b : Block) : (updWalk r f b).wq = b.wq := rfl
@[simp] theorem updWalk_slots (r : Nat) (f : Walk → Walk) (b : Block) : (updWalk r f b).slots = b.slots := rfl
@[simp] theorem updWalk_ports (r : Nat) (f : Walk → Walk) (b : Block) : (updWalk r f b).ports = b.ports := rfl
@[simp] theorem updWalk_occ (r : Nat) (f : Walk → Walk) (b : Block) : (updWalk r f b).occ = b.occ := rfl
@[simp] theorem updWalk_place (r : Nat) (f : Walk → Walk) (b : Block) : (updWalk r f b).place = b.place := rfl
@[simp] theorem updWalk_gov (r : Nat) (f : Walk → Walk) (b : Block) : (updWalk r f b).gov = b.gov := rfl
@[simp] theorem updWalk_arb (r : Nat) (f : Walk → Walk) (b : Block) : (updWalk r f b).arb = b.arb := rfl
@[simp] theorem updWalk_rings (r : Nat) (f : Walk → Walk) (b : Block) : (updWalk r f b).rings = Tbl.upd {} b.rings r (fun g => { g with walk := f g.walk }) := rfl
@[simp] theorem updWalk_tdone (r : Nat) (f : Walk → Walk) (b : Block) : (updWalk r f b).tdone = b.tdone := rfl
@[simp] theorem updWalk_tens (r : Nat) (f : Walk → Walk) (b : Block) : (updWalk r f b).tens = b.tens := rfl
@[simp] theorem updWalk_segs (r : Nat) (f : Walk → Walk) (b : Block) : (updWalk r f b).segs = b.segs := rfl
@[simp] theorem updWalk_entq (r : Nat) (f : Walk → Walk) (b : Block) : (updWalk r f b).entq = b.entq := rfl
@[simp] theorem updWalk_pcls (r : Nat) (f : Walk → Walk) (b : Block) : (updWalk r f b).pcls = b.pcls := rfl
@[simp] theorem updWalk_hasps (r : Nat) (f : Walk → Walk) (b : Block) : (updWalk r f b).hasps = b.hasps := rfl
@[simp] theorem updWalk_waits (r : Nat) (f : Walk → Walk) (b : Block) : (updWalk r f b).waits = b.waits := rfl
@[simp] theorem updWalk_kpool (r : Nat) (f : Walk → Walk) (b : Block) : (updWalk r f b).kpool = b.kpool := rfl
@[simp] theorem updWalk_mq (r : Nat) (f : Walk → Walk) (b : Block) : (updWalk r f b).mq = b.mq := rfl
@[simp] theorem updWalk_mqPop (r : Nat) (f : Walk → Walk) (b : Block) : (updWalk r f b).mqPop = b.mqPop := rfl
@[simp] theorem updWalk_chans (r : Nat) (f : Walk → Walk) (b : Block) : (updWalk r f b).chans = b.chans := rfl
@[simp] theorem updWalk_rchans (r : Nat) (f : Walk → Walk) (b : Block) : (updWalk r f b).rchans = b.rchans := rfl
@[simp] theorem updWalk_storms (r : Nat) (f : Walk → Walk) (b : Block) : (updWalk r f b).storms = b.storms := rfl
@[simp] theorem updWalk_cq (r : Nat) (f : Walk → Walk) (b : Block) : (updWalk r f b).cq = b.cq := rfl
@[simp] theorem updWalk_cbParts (r : Nat) (f : Walk → Walk) (b : Block) : (updWalk r f b).cbParts = b.cbParts := rfl
@[simp] theorem updWalk_opdLast (r : Nat) (f : Walk → Walk) (b : Block) : (updWalk r f b).opdLast = b.opdLast := rfl
@[simp] theorem updWalk_preIgnored (r : Nat) (f : Walk → Walk) (b : Block) : (updWalk r f b).preIgnored = b.preIgnored := rfl
@[simp] theorem updWalk_resumeQ (r : Nat) (f : Walk → Walk) (b : Block) : (updWalk r f b).resumeQ = b.resumeQ := rfl
@[simp] theorem updWalk_lcIdleAt (r : Nat) (f : Walk → Walk) (b : Block) : (updWalk r f b).lcIdleAt = b.lcIdleAt := rfl
@[simp] theorem updWalk_hg (r : Nat) (f : Walk → Walk) (b : Block) : (updWalk r f b).hg = b.hg := rfl
@[simp] theorem updWalk_routes (r : Nat) (f : Walk → Walk) (b : Block) : (updWalk r f b).routes = b.routes := rfl
@[simp] theorem updWalk_unreach (r : Nat) (f : Walk → Walk) (b : Block) : (updWalk r f b).unreach = b.unreach := rfl
@[simp] theorem updWalk_fedt (r : Nat) (f : Walk → Walk) (b : Block) : (updWalk r f b).fedt = b.fedt := rfl
@[simp] theorem updWalk_remSegs (r : Nat) (f : Walk → Walk) (b : Block) : (updWalk r f b).remSegs = b.remSegs := rfl
@[simp] theorem updWalk_log (r : Nat) (f : Walk → Walk) (b : Block) : (updWalk r f b).log = b.log := rfl
@[simp] theorem updWalk_dbolt (r : Nat) (f : Walk → Walk) (b : Block) : (updWalk r f b).dbolt = b.dbolt := rfl
@[simp] theorem updWalk_hang (r : Nat) (f : Walk → Walk) (b : Block) : (updWalk r f b).hang = b.hang := rfl
@[simp] theorem updWalk_dump (r : Nat) (f : Walk → Walk) (b : Block) : (updWalk r f b).dump = b.dump := rfl
@[simp] theorem updWalk_cap (r : Nat) (f : Walk → Walk) (b : Block) : (updWalk r f b).cap = b.cap := rfl
@[simp] theorem updWalk_ecc (r : Nat) (f : Walk → Walk) (b : Block) : (updWalk r f b).ecc = b.ecc := rfl
@[simp] theorem updWalk_evr (r : Nat) (f : Walk → Walk) (b : Block) : (updWalk r f b).evr = b.evr := rfl
@[simp] theorem updWalk_blk (r : Nat) (f : Walk → Walk) (b : Block) : (updWalk r f b).blk = b.blk := rfl
@[simp] theorem updWalk_trace (r : Nat) (f : Walk → Walk) (b : Block) : (updWalk r f b).trace = b.trace := rfl
@[simp] theorem updWalk_watch (r : Nat) (f : Walk → Walk) (b : Block) : (updWalk r f b).watch = b.watch := rfl
@[simp] theorem updWalk_tally (r : Nat) (f : Walk → Walk) (b : Block) : (updWalk r f b).tally = b.tally := rfl
@[simp] theorem updWalk_meter (r : Nat) (f : Walk → Walk) (b : Block) : (updWalk r f b).meter = b.meter := rfl
@[simp] theorem updWalk_xbar (r : Nat) (f : Walk → Walk) (b : Block) : (updWalk r f b).xbar = b.xbar := rfl
@[simp] theorem updWalk_out (r : Nat) (f : Walk → Walk) (b : Block) : (updWalk r f b).out = b.out := rfl

@[simp] theorem updTen_clk (t : Nat) (f : Tenant → Tenant) (b : Block) : (updTen t f b).clk = b.clk := rfl
@[simp] theorem updTen_boot (t : Nat) (f : Tenant → Tenant) (b : Block) : (updTen t f b).boot = b.boot := rfl
@[simp] theorem updTen_mgt (t : Nat) (f : Tenant → Tenant) (b : Block) : (updTen t f b).mgt = b.mgt := rfl
@[simp] theorem updTen_regs (t : Nat) (f : Tenant → Tenant) (b : Block) : (updTen t f b).regs = b.regs := rfl
@[simp] theorem updTen_cnt (t : Nat) (f : Tenant → Tenant) (b : Block) : (updTen t f b).cnt = b.cnt := rfl
@[simp] theorem updTen_cntSh (t : Nat) (f : Tenant → Tenant) (b : Block) : (updTen t f b).cntSh = b.cntSh := rfl
@[simp] theorem updTen_snapAt (t : Nat) (f : Tenant → Tenant) (b : Block) : (updTen t f b).snapAt = b.snapAt := rfl
@[simp] theorem updTen_snapTs (t : Nat) (f : Tenant → Tenant) (b : Block) : (updTen t f b).snapTs = b.snapTs := rfl
@[simp] theorem updTen_cmtTs (t : Nat) (f : Tenant → Tenant) (b : Block) : (updTen t f b).cmtTs = b.cmtTs := rfl
@[simp] theorem updTen_cmtDue (t : Nat) (f : Tenant → Tenant) (b : Block) : (updTen t f b).cmtDue = b.cmtDue := rfl
@[simp] theorem updTen_iqWork (t : Nat) (f : Tenant → Tenant) (b : Block) : (updTen t f b).iqWork = b.iqWork := rfl
@[simp] theorem updTen_ents (t : Nat) (f : Tenant → Tenant) (b : Block) : (updTen t f b).ents = b.ents := rfl
@[simp] theorem updTen_wq (t : Nat) (f : Tenant → Tenant) (b : Block) : (updTen t f b).wq = b.wq := rfl
@[simp] theorem updTen_slots (t : Nat) (f : Tenant → Tenant) (b : Block) : (updTen t f b).slots = b.slots := rfl
@[simp] theorem updTen_ports (t : Nat) (f : Tenant → Tenant) (b : Block) : (updTen t f b).ports = b.ports := rfl
@[simp] theorem updTen_occ (t : Nat) (f : Tenant → Tenant) (b : Block) : (updTen t f b).occ = b.occ := rfl
@[simp] theorem updTen_place (t : Nat) (f : Tenant → Tenant) (b : Block) : (updTen t f b).place = b.place := rfl
@[simp] theorem updTen_gov (t : Nat) (f : Tenant → Tenant) (b : Block) : (updTen t f b).gov = b.gov := rfl
@[simp] theorem updTen_arb (t : Nat) (f : Tenant → Tenant) (b : Block) : (updTen t f b).arb = b.arb := rfl
@[simp] theorem updTen_rings (t : Nat) (f : Tenant → Tenant) (b : Block) : (updTen t f b).rings = b.rings := rfl
@[simp] theorem updTen_tdone (t : Nat) (f : Tenant → Tenant) (b : Block) : (updTen t f b).tdone = b.tdone := rfl
@[simp] theorem updTen_tens (t : Nat) (f : Tenant → Tenant) (b : Block) : (updTen t f b).tens = Tbl.upd {} b.tens t f := rfl
@[simp] theorem updTen_segs (t : Nat) (f : Tenant → Tenant) (b : Block) : (updTen t f b).segs = b.segs := rfl
@[simp] theorem updTen_entq (t : Nat) (f : Tenant → Tenant) (b : Block) : (updTen t f b).entq = b.entq := rfl
@[simp] theorem updTen_pcls (t : Nat) (f : Tenant → Tenant) (b : Block) : (updTen t f b).pcls = b.pcls := rfl
@[simp] theorem updTen_hasps (t : Nat) (f : Tenant → Tenant) (b : Block) : (updTen t f b).hasps = b.hasps := rfl
@[simp] theorem updTen_waits (t : Nat) (f : Tenant → Tenant) (b : Block) : (updTen t f b).waits = b.waits := rfl
@[simp] theorem updTen_kpool (t : Nat) (f : Tenant → Tenant) (b : Block) : (updTen t f b).kpool = b.kpool := rfl
@[simp] theorem updTen_mq (t : Nat) (f : Tenant → Tenant) (b : Block) : (updTen t f b).mq = b.mq := rfl
@[simp] theorem updTen_mqPop (t : Nat) (f : Tenant → Tenant) (b : Block) : (updTen t f b).mqPop = b.mqPop := rfl
@[simp] theorem updTen_chans (t : Nat) (f : Tenant → Tenant) (b : Block) : (updTen t f b).chans = b.chans := rfl
@[simp] theorem updTen_rchans (t : Nat) (f : Tenant → Tenant) (b : Block) : (updTen t f b).rchans = b.rchans := rfl
@[simp] theorem updTen_storms (t : Nat) (f : Tenant → Tenant) (b : Block) : (updTen t f b).storms = b.storms := rfl
@[simp] theorem updTen_cq (t : Nat) (f : Tenant → Tenant) (b : Block) : (updTen t f b).cq = b.cq := rfl
@[simp] theorem updTen_cbParts (t : Nat) (f : Tenant → Tenant) (b : Block) : (updTen t f b).cbParts = b.cbParts := rfl
@[simp] theorem updTen_opdLast (t : Nat) (f : Tenant → Tenant) (b : Block) : (updTen t f b).opdLast = b.opdLast := rfl
@[simp] theorem updTen_preIgnored (t : Nat) (f : Tenant → Tenant) (b : Block) : (updTen t f b).preIgnored = b.preIgnored := rfl
@[simp] theorem updTen_resumeQ (t : Nat) (f : Tenant → Tenant) (b : Block) : (updTen t f b).resumeQ = b.resumeQ := rfl
@[simp] theorem updTen_lcIdleAt (t : Nat) (f : Tenant → Tenant) (b : Block) : (updTen t f b).lcIdleAt = b.lcIdleAt := rfl
@[simp] theorem updTen_hg (t : Nat) (f : Tenant → Tenant) (b : Block) : (updTen t f b).hg = b.hg := rfl
@[simp] theorem updTen_routes (t : Nat) (f : Tenant → Tenant) (b : Block) : (updTen t f b).routes = b.routes := rfl
@[simp] theorem updTen_unreach (t : Nat) (f : Tenant → Tenant) (b : Block) : (updTen t f b).unreach = b.unreach := rfl
@[simp] theorem updTen_fedt (t : Nat) (f : Tenant → Tenant) (b : Block) : (updTen t f b).fedt = b.fedt := rfl
@[simp] theorem updTen_remSegs (t : Nat) (f : Tenant → Tenant) (b : Block) : (updTen t f b).remSegs = b.remSegs := rfl
@[simp] theorem updTen_log (t : Nat) (f : Tenant → Tenant) (b : Block) : (updTen t f b).log = b.log := rfl
@[simp] theorem updTen_dbolt (t : Nat) (f : Tenant → Tenant) (b : Block) : (updTen t f b).dbolt = b.dbolt := rfl
@[simp] theorem updTen_hang (t : Nat) (f : Tenant → Tenant) (b : Block) : (updTen t f b).hang = b.hang := rfl
@[simp] theorem updTen_dump (t : Nat) (f : Tenant → Tenant) (b : Block) : (updTen t f b).dump = b.dump := rfl
@[simp] theorem updTen_cap (t : Nat) (f : Tenant → Tenant) (b : Block) : (updTen t f b).cap = b.cap := rfl
@[simp] theorem updTen_ecc (t : Nat) (f : Tenant → Tenant) (b : Block) : (updTen t f b).ecc = b.ecc := rfl
@[simp] theorem updTen_evr (t : Nat) (f : Tenant → Tenant) (b : Block) : (updTen t f b).evr = b.evr := rfl
@[simp] theorem updTen_blk (t : Nat) (f : Tenant → Tenant) (b : Block) : (updTen t f b).blk = b.blk := rfl
@[simp] theorem updTen_trace (t : Nat) (f : Tenant → Tenant) (b : Block) : (updTen t f b).trace = b.trace := rfl
@[simp] theorem updTen_watch (t : Nat) (f : Tenant → Tenant) (b : Block) : (updTen t f b).watch = b.watch := rfl
@[simp] theorem updTen_tally (t : Nat) (f : Tenant → Tenant) (b : Block) : (updTen t f b).tally = b.tally := rfl
@[simp] theorem updTen_meter (t : Nat) (f : Tenant → Tenant) (b : Block) : (updTen t f b).meter = b.meter := rfl
@[simp] theorem updTen_xbar (t : Nat) (f : Tenant → Tenant) (b : Block) : (updTen t f b).xbar = b.xbar := rfl
@[simp] theorem updTen_out (t : Nat) (f : Tenant → Tenant) (b : Block) : (updTen t f b).out = b.out := rfl

@[simp] theorem updSlot_clk (w n : Nat) (f : Slot → Slot) (b : Block) : (updSlot w n f b).clk = b.clk := rfl
@[simp] theorem updSlot_boot (w n : Nat) (f : Slot → Slot) (b : Block) : (updSlot w n f b).boot = b.boot := rfl
@[simp] theorem updSlot_mgt (w n : Nat) (f : Slot → Slot) (b : Block) : (updSlot w n f b).mgt = b.mgt := rfl
@[simp] theorem updSlot_regs (w n : Nat) (f : Slot → Slot) (b : Block) : (updSlot w n f b).regs = b.regs := rfl
@[simp] theorem updSlot_cnt (w n : Nat) (f : Slot → Slot) (b : Block) : (updSlot w n f b).cnt = b.cnt := rfl
@[simp] theorem updSlot_cntSh (w n : Nat) (f : Slot → Slot) (b : Block) : (updSlot w n f b).cntSh = b.cntSh := rfl
@[simp] theorem updSlot_snapAt (w n : Nat) (f : Slot → Slot) (b : Block) : (updSlot w n f b).snapAt = b.snapAt := rfl
@[simp] theorem updSlot_snapTs (w n : Nat) (f : Slot → Slot) (b : Block) : (updSlot w n f b).snapTs = b.snapTs := rfl
@[simp] theorem updSlot_cmtTs (w n : Nat) (f : Slot → Slot) (b : Block) : (updSlot w n f b).cmtTs = b.cmtTs := rfl
@[simp] theorem updSlot_cmtDue (w n : Nat) (f : Slot → Slot) (b : Block) : (updSlot w n f b).cmtDue = b.cmtDue := rfl
@[simp] theorem updSlot_iqWork (w n : Nat) (f : Slot → Slot) (b : Block) : (updSlot w n f b).iqWork = b.iqWork := rfl
@[simp] theorem updSlot_ents (w n : Nat) (f : Slot → Slot) (b : Block) : (updSlot w n f b).ents = b.ents := rfl
@[simp] theorem updSlot_wq (w n : Nat) (f : Slot → Slot) (b : Block) : (updSlot w n f b).wq = b.wq := rfl
@[simp] theorem updSlot_slots (w n : Nat) (f : Slot → Slot) (b : Block) : (updSlot w n f b).slots = Tbl.upd {} b.slots (w * 4096 + n) f := rfl
@[simp] theorem updSlot_ports (w n : Nat) (f : Slot → Slot) (b : Block) : (updSlot w n f b).ports = b.ports := rfl
@[simp] theorem updSlot_occ (w n : Nat) (f : Slot → Slot) (b : Block) : (updSlot w n f b).occ = b.occ := rfl
@[simp] theorem updSlot_place (w n : Nat) (f : Slot → Slot) (b : Block) : (updSlot w n f b).place = b.place := rfl
@[simp] theorem updSlot_gov (w n : Nat) (f : Slot → Slot) (b : Block) : (updSlot w n f b).gov = b.gov := rfl
@[simp] theorem updSlot_arb (w n : Nat) (f : Slot → Slot) (b : Block) : (updSlot w n f b).arb = b.arb := rfl
@[simp] theorem updSlot_rings (w n : Nat) (f : Slot → Slot) (b : Block) : (updSlot w n f b).rings = b.rings := rfl
@[simp] theorem updSlot_tdone (w n : Nat) (f : Slot → Slot) (b : Block) : (updSlot w n f b).tdone = b.tdone := rfl
@[simp] theorem updSlot_tens (w n : Nat) (f : Slot → Slot) (b : Block) : (updSlot w n f b).tens = b.tens := rfl
@[simp] theorem updSlot_segs (w n : Nat) (f : Slot → Slot) (b : Block) : (updSlot w n f b).segs = b.segs := rfl
@[simp] theorem updSlot_entq (w n : Nat) (f : Slot → Slot) (b : Block) : (updSlot w n f b).entq = b.entq := rfl
@[simp] theorem updSlot_pcls (w n : Nat) (f : Slot → Slot) (b : Block) : (updSlot w n f b).pcls = b.pcls := rfl
@[simp] theorem updSlot_hasps (w n : Nat) (f : Slot → Slot) (b : Block) : (updSlot w n f b).hasps = b.hasps := rfl
@[simp] theorem updSlot_waits (w n : Nat) (f : Slot → Slot) (b : Block) : (updSlot w n f b).waits = b.waits := rfl
@[simp] theorem updSlot_kpool (w n : Nat) (f : Slot → Slot) (b : Block) : (updSlot w n f b).kpool = b.kpool := rfl
@[simp] theorem updSlot_mq (w n : Nat) (f : Slot → Slot) (b : Block) : (updSlot w n f b).mq = b.mq := rfl
@[simp] theorem updSlot_mqPop (w n : Nat) (f : Slot → Slot) (b : Block) : (updSlot w n f b).mqPop = b.mqPop := rfl
@[simp] theorem updSlot_chans (w n : Nat) (f : Slot → Slot) (b : Block) : (updSlot w n f b).chans = b.chans := rfl
@[simp] theorem updSlot_rchans (w n : Nat) (f : Slot → Slot) (b : Block) : (updSlot w n f b).rchans = b.rchans := rfl
@[simp] theorem updSlot_storms (w n : Nat) (f : Slot → Slot) (b : Block) : (updSlot w n f b).storms = b.storms := rfl
@[simp] theorem updSlot_cq (w n : Nat) (f : Slot → Slot) (b : Block) : (updSlot w n f b).cq = b.cq := rfl
@[simp] theorem updSlot_cbParts (w n : Nat) (f : Slot → Slot) (b : Block) : (updSlot w n f b).cbParts = b.cbParts := rfl
@[simp] theorem updSlot_opdLast (w n : Nat) (f : Slot → Slot) (b : Block) : (updSlot w n f b).opdLast = b.opdLast := rfl
@[simp] theorem updSlot_preIgnored (w n : Nat) (f : Slot → Slot) (b : Block) : (updSlot w n f b).preIgnored = b.preIgnored := rfl
@[simp] theorem updSlot_resumeQ (w n : Nat) (f : Slot → Slot) (b : Block) : (updSlot w n f b).resumeQ = b.resumeQ := rfl
@[simp] theorem updSlot_lcIdleAt (w n : Nat) (f : Slot → Slot) (b : Block) : (updSlot w n f b).lcIdleAt = b.lcIdleAt := rfl
@[simp] theorem updSlot_hg (w n : Nat) (f : Slot → Slot) (b : Block) : (updSlot w n f b).hg = b.hg := rfl
@[simp] theorem updSlot_routes (w n : Nat) (f : Slot → Slot) (b : Block) : (updSlot w n f b).routes = b.routes := rfl
@[simp] theorem updSlot_unreach (w n : Nat) (f : Slot → Slot) (b : Block) : (updSlot w n f b).unreach = b.unreach := rfl
@[simp] theorem updSlot_fedt (w n : Nat) (f : Slot → Slot) (b : Block) : (updSlot w n f b).fedt = b.fedt := rfl
@[simp] theorem updSlot_remSegs (w n : Nat) (f : Slot → Slot) (b : Block) : (updSlot w n f b).remSegs = b.remSegs := rfl
@[simp] theorem updSlot_log (w n : Nat) (f : Slot → Slot) (b : Block) : (updSlot w n f b).log = b.log := rfl
@[simp] theorem updSlot_dbolt (w n : Nat) (f : Slot → Slot) (b : Block) : (updSlot w n f b).dbolt = b.dbolt := rfl
@[simp] theorem updSlot_hang (w n : Nat) (f : Slot → Slot) (b : Block) : (updSlot w n f b).hang = b.hang := rfl
@[simp] theorem updSlot_dump (w n : Nat) (f : Slot → Slot) (b : Block) : (updSlot w n f b).dump = b.dump := rfl
@[simp] theorem updSlot_cap (w n : Nat) (f : Slot → Slot) (b : Block) : (updSlot w n f b).cap = b.cap := rfl
@[simp] theorem updSlot_ecc (w n : Nat) (f : Slot → Slot) (b : Block) : (updSlot w n f b).ecc = b.ecc := rfl
@[simp] theorem updSlot_evr (w n : Nat) (f : Slot → Slot) (b : Block) : (updSlot w n f b).evr = b.evr := rfl
@[simp] theorem updSlot_blk (w n : Nat) (f : Slot → Slot) (b : Block) : (updSlot w n f b).blk = b.blk := rfl
@[simp] theorem updSlot_trace (w n : Nat) (f : Slot → Slot) (b : Block) : (updSlot w n f b).trace = b.trace := rfl
@[simp] theorem updSlot_watch (w n : Nat) (f : Slot → Slot) (b : Block) : (updSlot w n f b).watch = b.watch := rfl
@[simp] theorem updSlot_tally (w n : Nat) (f : Slot → Slot) (b : Block) : (updSlot w n f b).tally = b.tally := rfl
@[simp] theorem updSlot_meter (w n : Nat) (f : Slot → Slot) (b : Block) : (updSlot w n f b).meter = b.meter := rfl
@[simp] theorem updSlot_xbar (w n : Nat) (f : Slot → Slot) (b : Block) : (updSlot w n f b).xbar = b.xbar := rfl
@[simp] theorem updSlot_out (w n : Nat) (f : Slot → Slot) (b : Block) : (updSlot w n f b).out = b.out := rfl

@[simp] theorem updMQ_clk (w q : Nat) (f : MQ → MQ) (b : Block) : (updMQ w q f b).clk = b.clk := rfl
@[simp] theorem updMQ_boot (w q : Nat) (f : MQ → MQ) (b : Block) : (updMQ w q f b).boot = b.boot := rfl
@[simp] theorem updMQ_mgt (w q : Nat) (f : MQ → MQ) (b : Block) : (updMQ w q f b).mgt = b.mgt := rfl
@[simp] theorem updMQ_regs (w q : Nat) (f : MQ → MQ) (b : Block) : (updMQ w q f b).regs = b.regs := rfl
@[simp] theorem updMQ_cnt (w q : Nat) (f : MQ → MQ) (b : Block) : (updMQ w q f b).cnt = b.cnt := rfl
@[simp] theorem updMQ_cntSh (w q : Nat) (f : MQ → MQ) (b : Block) : (updMQ w q f b).cntSh = b.cntSh := rfl
@[simp] theorem updMQ_snapAt (w q : Nat) (f : MQ → MQ) (b : Block) : (updMQ w q f b).snapAt = b.snapAt := rfl
@[simp] theorem updMQ_snapTs (w q : Nat) (f : MQ → MQ) (b : Block) : (updMQ w q f b).snapTs = b.snapTs := rfl
@[simp] theorem updMQ_cmtTs (w q : Nat) (f : MQ → MQ) (b : Block) : (updMQ w q f b).cmtTs = b.cmtTs := rfl
@[simp] theorem updMQ_cmtDue (w q : Nat) (f : MQ → MQ) (b : Block) : (updMQ w q f b).cmtDue = b.cmtDue := rfl
@[simp] theorem updMQ_iqWork (w q : Nat) (f : MQ → MQ) (b : Block) : (updMQ w q f b).iqWork = b.iqWork := rfl
@[simp] theorem updMQ_ents (w q : Nat) (f : MQ → MQ) (b : Block) : (updMQ w q f b).ents = b.ents := rfl
@[simp] theorem updMQ_wq (w q : Nat) (f : MQ → MQ) (b : Block) : (updMQ w q f b).wq = b.wq := rfl
@[simp] theorem updMQ_slots (w q : Nat) (f : MQ → MQ) (b : Block) : (updMQ w q f b).slots = b.slots := rfl
@[simp] theorem updMQ_ports (w q : Nat) (f : MQ → MQ) (b : Block) : (updMQ w q f b).ports = b.ports := rfl
@[simp] theorem updMQ_occ (w q : Nat) (f : MQ → MQ) (b : Block) : (updMQ w q f b).occ = b.occ := rfl
@[simp] theorem updMQ_place (w q : Nat) (f : MQ → MQ) (b : Block) : (updMQ w q f b).place = b.place := rfl
@[simp] theorem updMQ_gov (w q : Nat) (f : MQ → MQ) (b : Block) : (updMQ w q f b).gov = b.gov := rfl
@[simp] theorem updMQ_arb (w q : Nat) (f : MQ → MQ) (b : Block) : (updMQ w q f b).arb = b.arb := rfl
@[simp] theorem updMQ_rings (w q : Nat) (f : MQ → MQ) (b : Block) : (updMQ w q f b).rings = b.rings := rfl
@[simp] theorem updMQ_tdone (w q : Nat) (f : MQ → MQ) (b : Block) : (updMQ w q f b).tdone = b.tdone := rfl
@[simp] theorem updMQ_tens (w q : Nat) (f : MQ → MQ) (b : Block) : (updMQ w q f b).tens = b.tens := rfl
@[simp] theorem updMQ_segs (w q : Nat) (f : MQ → MQ) (b : Block) : (updMQ w q f b).segs = b.segs := rfl
@[simp] theorem updMQ_entq (w q : Nat) (f : MQ → MQ) (b : Block) : (updMQ w q f b).entq = b.entq := rfl
@[simp] theorem updMQ_pcls (w q : Nat) (f : MQ → MQ) (b : Block) : (updMQ w q f b).pcls = b.pcls := rfl
@[simp] theorem updMQ_hasps (w q : Nat) (f : MQ → MQ) (b : Block) : (updMQ w q f b).hasps = b.hasps := rfl
@[simp] theorem updMQ_waits (w q : Nat) (f : MQ → MQ) (b : Block) : (updMQ w q f b).waits = b.waits := rfl
@[simp] theorem updMQ_kpool (w q : Nat) (f : MQ → MQ) (b : Block) : (updMQ w q f b).kpool = b.kpool := rfl
@[simp] theorem updMQ_mq (w q : Nat) (f : MQ → MQ) (b : Block) : (updMQ w q f b).mq = Tbl.upd {} b.mq (w * 64 + q) f := rfl
@[simp] theorem updMQ_mqPop (w q : Nat) (f : MQ → MQ) (b : Block) : (updMQ w q f b).mqPop = b.mqPop := rfl
@[simp] theorem updMQ_chans (w q : Nat) (f : MQ → MQ) (b : Block) : (updMQ w q f b).chans = b.chans := rfl
@[simp] theorem updMQ_rchans (w q : Nat) (f : MQ → MQ) (b : Block) : (updMQ w q f b).rchans = b.rchans := rfl
@[simp] theorem updMQ_storms (w q : Nat) (f : MQ → MQ) (b : Block) : (updMQ w q f b).storms = b.storms := rfl
@[simp] theorem updMQ_cq (w q : Nat) (f : MQ → MQ) (b : Block) : (updMQ w q f b).cq = b.cq := rfl
@[simp] theorem updMQ_cbParts (w q : Nat) (f : MQ → MQ) (b : Block) : (updMQ w q f b).cbParts = b.cbParts := rfl
@[simp] theorem updMQ_opdLast (w q : Nat) (f : MQ → MQ) (b : Block) : (updMQ w q f b).opdLast = b.opdLast := rfl
@[simp] theorem updMQ_preIgnored (w q : Nat) (f : MQ → MQ) (b : Block) : (updMQ w q f b).preIgnored = b.preIgnored := rfl
@[simp] theorem updMQ_resumeQ (w q : Nat) (f : MQ → MQ) (b : Block) : (updMQ w q f b).resumeQ = b.resumeQ := rfl
@[simp] theorem updMQ_lcIdleAt (w q : Nat) (f : MQ → MQ) (b : Block) : (updMQ w q f b).lcIdleAt = b.lcIdleAt := rfl
@[simp] theorem updMQ_hg (w q : Nat) (f : MQ → MQ) (b : Block) : (updMQ w q f b).hg = b.hg := rfl
@[simp] theorem updMQ_routes (w q : Nat) (f : MQ → MQ) (b : Block) : (updMQ w q f b).routes = b.routes := rfl
@[simp] theorem updMQ_unreach (w q : Nat) (f : MQ → MQ) (b : Block) : (updMQ w q f b).unreach = b.unreach := rfl
@[simp] theorem updMQ_fedt (w q : Nat) (f : MQ → MQ) (b : Block) : (updMQ w q f b).fedt = b.fedt := rfl
@[simp] theorem updMQ_remSegs (w q : Nat) (f : MQ → MQ) (b : Block) : (updMQ w q f b).remSegs = b.remSegs := rfl
@[simp] theorem updMQ_log (w q : Nat) (f : MQ → MQ) (b : Block) : (updMQ w q f b).log = b.log := rfl
@[simp] theorem updMQ_dbolt (w q : Nat) (f : MQ → MQ) (b : Block) : (updMQ w q f b).dbolt = b.dbolt := rfl
@[simp] theorem updMQ_hang (w q : Nat) (f : MQ → MQ) (b : Block) : (updMQ w q f b).hang = b.hang := rfl
@[simp] theorem updMQ_dump (w q : Nat) (f : MQ → MQ) (b : Block) : (updMQ w q f b).dump = b.dump := rfl
@[simp] theorem updMQ_cap (w q : Nat) (f : MQ → MQ) (b : Block) : (updMQ w q f b).cap = b.cap := rfl
@[simp] theorem updMQ_ecc (w q : Nat) (f : MQ → MQ) (b : Block) : (updMQ w q f b).ecc = b.ecc := rfl
@[simp] theorem updMQ_evr (w q : Nat) (f : MQ → MQ) (b : Block) : (updMQ w q f b).evr = b.evr := rfl
@[simp] theorem updMQ_blk (w q : Nat) (f : MQ → MQ) (b : Block) : (updMQ w q f b).blk = b.blk := rfl
@[simp] theorem updMQ_trace (w q : Nat) (f : MQ → MQ) (b : Block) : (updMQ w q f b).trace = b.trace := rfl
@[simp] theorem updMQ_watch (w q : Nat) (f : MQ → MQ) (b : Block) : (updMQ w q f b).watch = b.watch := rfl
@[simp] theorem updMQ_tally (w q : Nat) (f : MQ → MQ) (b : Block) : (updMQ w q f b).tally = b.tally := rfl
@[simp] theorem updMQ_meter (w q : Nat) (f : MQ → MQ) (b : Block) : (updMQ w q f b).meter = b.meter := rfl
@[simp] theorem updMQ_xbar (w q : Nat) (f : MQ → MQ) (b : Block) : (updMQ w q f b).xbar = b.xbar := rfl
@[simp] theorem updMQ_out (w q : Nat) (f : MQ → MQ) (b : Block) : (updMQ w q f b).out = b.out := rfl

@[simp] theorem updCQ_clk (w q : Nat) (f : CQ → CQ) (b : Block) : (updCQ w q f b).clk = b.clk := rfl
@[simp] theorem updCQ_boot (w q : Nat) (f : CQ → CQ) (b : Block) : (updCQ w q f b).boot = b.boot := rfl
@[simp] theorem updCQ_mgt (w q : Nat) (f : CQ → CQ) (b : Block) : (updCQ w q f b).mgt = b.mgt := rfl
@[simp] theorem updCQ_regs (w q : Nat) (f : CQ → CQ) (b : Block) : (updCQ w q f b).regs = b.regs := rfl
@[simp] theorem updCQ_cnt (w q : Nat) (f : CQ → CQ) (b : Block) : (updCQ w q f b).cnt = b.cnt := rfl
@[simp] theorem updCQ_cntSh (w q : Nat) (f : CQ → CQ) (b : Block) : (updCQ w q f b).cntSh = b.cntSh := rfl
@[simp] theorem updCQ_snapAt (w q : Nat) (f : CQ → CQ) (b : Block) : (updCQ w q f b).snapAt = b.snapAt := rfl
@[simp] theorem updCQ_snapTs (w q : Nat) (f : CQ → CQ) (b : Block) : (updCQ w q f b).snapTs = b.snapTs := rfl
@[simp] theorem updCQ_cmtTs (w q : Nat) (f : CQ → CQ) (b : Block) : (updCQ w q f b).cmtTs = b.cmtTs := rfl
@[simp] theorem updCQ_cmtDue (w q : Nat) (f : CQ → CQ) (b : Block) : (updCQ w q f b).cmtDue = b.cmtDue := rfl
@[simp] theorem updCQ_iqWork (w q : Nat) (f : CQ → CQ) (b : Block) : (updCQ w q f b).iqWork = b.iqWork := rfl
@[simp] theorem updCQ_ents (w q : Nat) (f : CQ → CQ) (b : Block) : (updCQ w q f b).ents = b.ents := rfl
@[simp] theorem updCQ_wq (w q : Nat) (f : CQ → CQ) (b : Block) : (updCQ w q f b).wq = b.wq := rfl
@[simp] theorem updCQ_slots (w q : Nat) (f : CQ → CQ) (b : Block) : (updCQ w q f b).slots = b.slots := rfl
@[simp] theorem updCQ_ports (w q : Nat) (f : CQ → CQ) (b : Block) : (updCQ w q f b).ports = b.ports := rfl
@[simp] theorem updCQ_occ (w q : Nat) (f : CQ → CQ) (b : Block) : (updCQ w q f b).occ = b.occ := rfl
@[simp] theorem updCQ_place (w q : Nat) (f : CQ → CQ) (b : Block) : (updCQ w q f b).place = b.place := rfl
@[simp] theorem updCQ_gov (w q : Nat) (f : CQ → CQ) (b : Block) : (updCQ w q f b).gov = b.gov := rfl
@[simp] theorem updCQ_arb (w q : Nat) (f : CQ → CQ) (b : Block) : (updCQ w q f b).arb = b.arb := rfl
@[simp] theorem updCQ_rings (w q : Nat) (f : CQ → CQ) (b : Block) : (updCQ w q f b).rings = b.rings := rfl
@[simp] theorem updCQ_tdone (w q : Nat) (f : CQ → CQ) (b : Block) : (updCQ w q f b).tdone = b.tdone := rfl
@[simp] theorem updCQ_tens (w q : Nat) (f : CQ → CQ) (b : Block) : (updCQ w q f b).tens = b.tens := rfl
@[simp] theorem updCQ_segs (w q : Nat) (f : CQ → CQ) (b : Block) : (updCQ w q f b).segs = b.segs := rfl
@[simp] theorem updCQ_entq (w q : Nat) (f : CQ → CQ) (b : Block) : (updCQ w q f b).entq = b.entq := rfl
@[simp] theorem updCQ_pcls (w q : Nat) (f : CQ → CQ) (b : Block) : (updCQ w q f b).pcls = b.pcls := rfl
@[simp] theorem updCQ_hasps (w q : Nat) (f : CQ → CQ) (b : Block) : (updCQ w q f b).hasps = b.hasps := rfl
@[simp] theorem updCQ_waits (w q : Nat) (f : CQ → CQ) (b : Block) : (updCQ w q f b).waits = b.waits := rfl
@[simp] theorem updCQ_kpool (w q : Nat) (f : CQ → CQ) (b : Block) : (updCQ w q f b).kpool = b.kpool := rfl
@[simp] theorem updCQ_mq (w q : Nat) (f : CQ → CQ) (b : Block) : (updCQ w q f b).mq = b.mq := rfl
@[simp] theorem updCQ_mqPop (w q : Nat) (f : CQ → CQ) (b : Block) : (updCQ w q f b).mqPop = b.mqPop := rfl
@[simp] theorem updCQ_chans (w q : Nat) (f : CQ → CQ) (b : Block) : (updCQ w q f b).chans = b.chans := rfl
@[simp] theorem updCQ_rchans (w q : Nat) (f : CQ → CQ) (b : Block) : (updCQ w q f b).rchans = b.rchans := rfl
@[simp] theorem updCQ_storms (w q : Nat) (f : CQ → CQ) (b : Block) : (updCQ w q f b).storms = b.storms := rfl
@[simp] theorem updCQ_cq (w q : Nat) (f : CQ → CQ) (b : Block) : (updCQ w q f b).cq = Tbl.upd {} b.cq (w * 64 + q) f := rfl
@[simp] theorem updCQ_cbParts (w q : Nat) (f : CQ → CQ) (b : Block) : (updCQ w q f b).cbParts = b.cbParts := rfl
@[simp] theorem updCQ_opdLast (w q : Nat) (f : CQ → CQ) (b : Block) : (updCQ w q f b).opdLast = b.opdLast := rfl
@[simp] theorem updCQ_preIgnored (w q : Nat) (f : CQ → CQ) (b : Block) : (updCQ w q f b).preIgnored = b.preIgnored := rfl
@[simp] theorem updCQ_resumeQ (w q : Nat) (f : CQ → CQ) (b : Block) : (updCQ w q f b).resumeQ = b.resumeQ := rfl
@[simp] theorem updCQ_lcIdleAt (w q : Nat) (f : CQ → CQ) (b : Block) : (updCQ w q f b).lcIdleAt = b.lcIdleAt := rfl
@[simp] theorem updCQ_hg (w q : Nat) (f : CQ → CQ) (b : Block) : (updCQ w q f b).hg = b.hg := rfl
@[simp] theorem updCQ_routes (w q : Nat) (f : CQ → CQ) (b : Block) : (updCQ w q f b).routes = b.routes := rfl
@[simp] theorem updCQ_unreach (w q : Nat) (f : CQ → CQ) (b : Block) : (updCQ w q f b).unreach = b.unreach := rfl
@[simp] theorem updCQ_fedt (w q : Nat) (f : CQ → CQ) (b : Block) : (updCQ w q f b).fedt = b.fedt := rfl
@[simp] theorem updCQ_remSegs (w q : Nat) (f : CQ → CQ) (b : Block) : (updCQ w q f b).remSegs = b.remSegs := rfl
@[simp] theorem updCQ_log (w q : Nat) (f : CQ → CQ) (b : Block) : (updCQ w q f b).log = b.log := rfl
@[simp] theorem updCQ_dbolt (w q : Nat) (f : CQ → CQ) (b : Block) : (updCQ w q f b).dbolt = b.dbolt := rfl
@[simp] theorem updCQ_hang (w q : Nat) (f : CQ → CQ) (b : Block) : (updCQ w q f b).hang = b.hang := rfl
@[simp] theorem updCQ_dump (w q : Nat) (f : CQ → CQ) (b : Block) : (updCQ w q f b).dump = b.dump := rfl
@[simp] theorem updCQ_cap (w q : Nat) (f : CQ → CQ) (b : Block) : (updCQ w q f b).cap = b.cap := rfl
@[simp] theorem updCQ_ecc (w q : Nat) (f : CQ → CQ) (b : Block) : (updCQ w q f b).ecc = b.ecc := rfl
@[simp] theorem updCQ_evr (w q : Nat) (f : CQ → CQ) (b : Block) : (updCQ w q f b).evr = b.evr := rfl
@[simp] theorem updCQ_blk (w q : Nat) (f : CQ → CQ) (b : Block) : (updCQ w q f b).blk = b.blk := rfl
@[simp] theorem updCQ_trace (w q : Nat) (f : CQ → CQ) (b : Block) : (updCQ w q f b).trace = b.trace := rfl
@[simp] theorem updCQ_watch (w q : Nat) (f : CQ → CQ) (b : Block) : (updCQ w q f b).watch = b.watch := rfl
@[simp] theorem updCQ_tally (w q : Nat) (f : CQ → CQ) (b : Block) : (updCQ w q f b).tally = b.tally := rfl
@[simp] theorem updCQ_meter (w q : Nat) (f : CQ → CQ) (b : Block) : (updCQ w q f b).meter = b.meter := rfl
@[simp] theorem updCQ_xbar (w q : Nat) (f : CQ → CQ) (b : Block) : (updCQ w q f b).xbar = b.xbar := rfl
@[simp] theorem updCQ_out (w q : Nat) (f : CQ → CQ) (b : Block) : (updCQ w q f b).out = b.out := rfl

@[simp] theorem updHasp_clk (h : Nat) (f : Hasp → Hasp) (b : Block) : (updHasp h f b).clk = b.clk := rfl
@[simp] theorem updHasp_boot (h : Nat) (f : Hasp → Hasp) (b : Block) : (updHasp h f b).boot = b.boot := rfl
@[simp] theorem updHasp_mgt (h : Nat) (f : Hasp → Hasp) (b : Block) : (updHasp h f b).mgt = b.mgt := rfl
@[simp] theorem updHasp_regs (h : Nat) (f : Hasp → Hasp) (b : Block) : (updHasp h f b).regs = b.regs := rfl
@[simp] theorem updHasp_cnt (h : Nat) (f : Hasp → Hasp) (b : Block) : (updHasp h f b).cnt = b.cnt := rfl
@[simp] theorem updHasp_cntSh (h : Nat) (f : Hasp → Hasp) (b : Block) : (updHasp h f b).cntSh = b.cntSh := rfl
@[simp] theorem updHasp_snapAt (h : Nat) (f : Hasp → Hasp) (b : Block) : (updHasp h f b).snapAt = b.snapAt := rfl
@[simp] theorem updHasp_snapTs (h : Nat) (f : Hasp → Hasp) (b : Block) : (updHasp h f b).snapTs = b.snapTs := rfl
@[simp] theorem updHasp_cmtTs (h : Nat) (f : Hasp → Hasp) (b : Block) : (updHasp h f b).cmtTs = b.cmtTs := rfl
@[simp] theorem updHasp_cmtDue (h : Nat) (f : Hasp → Hasp) (b : Block) : (updHasp h f b).cmtDue = b.cmtDue := rfl
@[simp] theorem updHasp_iqWork (h : Nat) (f : Hasp → Hasp) (b : Block) : (updHasp h f b).iqWork = b.iqWork := rfl
@[simp] theorem updHasp_ents (h : Nat) (f : Hasp → Hasp) (b : Block) : (updHasp h f b).ents = b.ents := rfl
@[simp] theorem updHasp_wq (h : Nat) (f : Hasp → Hasp) (b : Block) : (updHasp h f b).wq = b.wq := rfl
@[simp] theorem updHasp_slots (h : Nat) (f : Hasp → Hasp) (b : Block) : (updHasp h f b).slots = b.slots := rfl
@[simp] theorem updHasp_ports (h : Nat) (f : Hasp → Hasp) (b : Block) : (updHasp h f b).ports = b.ports := rfl
@[simp] theorem updHasp_occ (h : Nat) (f : Hasp → Hasp) (b : Block) : (updHasp h f b).occ = b.occ := rfl
@[simp] theorem updHasp_place (h : Nat) (f : Hasp → Hasp) (b : Block) : (updHasp h f b).place = b.place := rfl
@[simp] theorem updHasp_gov (h : Nat) (f : Hasp → Hasp) (b : Block) : (updHasp h f b).gov = b.gov := rfl
@[simp] theorem updHasp_arb (h : Nat) (f : Hasp → Hasp) (b : Block) : (updHasp h f b).arb = b.arb := rfl
@[simp] theorem updHasp_rings (h : Nat) (f : Hasp → Hasp) (b : Block) : (updHasp h f b).rings = b.rings := rfl
@[simp] theorem updHasp_tdone (h : Nat) (f : Hasp → Hasp) (b : Block) : (updHasp h f b).tdone = b.tdone := rfl
@[simp] theorem updHasp_tens (h : Nat) (f : Hasp → Hasp) (b : Block) : (updHasp h f b).tens = b.tens := rfl
@[simp] theorem updHasp_segs (h : Nat) (f : Hasp → Hasp) (b : Block) : (updHasp h f b).segs = b.segs := rfl
@[simp] theorem updHasp_entq (h : Nat) (f : Hasp → Hasp) (b : Block) : (updHasp h f b).entq = b.entq := rfl
@[simp] theorem updHasp_pcls (h : Nat) (f : Hasp → Hasp) (b : Block) : (updHasp h f b).pcls = b.pcls := rfl
@[simp] theorem updHasp_hasps (h : Nat) (f : Hasp → Hasp) (b : Block) : (updHasp h f b).hasps = Tbl.upd {} b.hasps h f := rfl
@[simp] theorem updHasp_waits (h : Nat) (f : Hasp → Hasp) (b : Block) : (updHasp h f b).waits = b.waits := rfl
@[simp] theorem updHasp_kpool (h : Nat) (f : Hasp → Hasp) (b : Block) : (updHasp h f b).kpool = b.kpool := rfl
@[simp] theorem updHasp_mq (h : Nat) (f : Hasp → Hasp) (b : Block) : (updHasp h f b).mq = b.mq := rfl
@[simp] theorem updHasp_mqPop (h : Nat) (f : Hasp → Hasp) (b : Block) : (updHasp h f b).mqPop = b.mqPop := rfl
@[simp] theorem updHasp_chans (h : Nat) (f : Hasp → Hasp) (b : Block) : (updHasp h f b).chans = b.chans := rfl
@[simp] theorem updHasp_rchans (h : Nat) (f : Hasp → Hasp) (b : Block) : (updHasp h f b).rchans = b.rchans := rfl
@[simp] theorem updHasp_storms (h : Nat) (f : Hasp → Hasp) (b : Block) : (updHasp h f b).storms = b.storms := rfl
@[simp] theorem updHasp_cq (h : Nat) (f : Hasp → Hasp) (b : Block) : (updHasp h f b).cq = b.cq := rfl
@[simp] theorem updHasp_cbParts (h : Nat) (f : Hasp → Hasp) (b : Block) : (updHasp h f b).cbParts = b.cbParts := rfl
@[simp] theorem updHasp_opdLast (h : Nat) (f : Hasp → Hasp) (b : Block) : (updHasp h f b).opdLast = b.opdLast := rfl
@[simp] theorem updHasp_preIgnored (h : Nat) (f : Hasp → Hasp) (b : Block) : (updHasp h f b).preIgnored = b.preIgnored := rfl
@[simp] theorem updHasp_resumeQ (h : Nat) (f : Hasp → Hasp) (b : Block) : (updHasp h f b).resumeQ = b.resumeQ := rfl
@[simp] theorem updHasp_lcIdleAt (h : Nat) (f : Hasp → Hasp) (b : Block) : (updHasp h f b).lcIdleAt = b.lcIdleAt := rfl
@[simp] theorem updHasp_hg (h : Nat) (f : Hasp → Hasp) (b : Block) : (updHasp h f b).hg = b.hg := rfl
@[simp] theorem updHasp_routes (h : Nat) (f : Hasp → Hasp) (b : Block) : (updHasp h f b).routes = b.routes := rfl
@[simp] theorem updHasp_unreach (h : Nat) (f : Hasp → Hasp) (b : Block) : (updHasp h f b).unreach = b.unreach := rfl
@[simp] theorem updHasp_fedt (h : Nat) (f : Hasp → Hasp) (b : Block) : (updHasp h f b).fedt = b.fedt := rfl
@[simp] theorem updHasp_remSegs (h : Nat) (f : Hasp → Hasp) (b : Block) : (updHasp h f b).remSegs = b.remSegs := rfl
@[simp] theorem updHasp_log (h : Nat) (f : Hasp → Hasp) (b : Block) : (updHasp h f b).log = b.log := rfl
@[simp] theorem updHasp_dbolt (h : Nat) (f : Hasp → Hasp) (b : Block) : (updHasp h f b).dbolt = b.dbolt := rfl
@[simp] theorem updHasp_hang (h : Nat) (f : Hasp → Hasp) (b : Block) : (updHasp h f b).hang = b.hang := rfl
@[simp] theorem updHasp_dump (h : Nat) (f : Hasp → Hasp) (b : Block) : (updHasp h f b).dump = b.dump := rfl
@[simp] theorem updHasp_cap (h : Nat) (f : Hasp → Hasp) (b : Block) : (updHasp h f b).cap = b.cap := rfl
@[simp] theorem updHasp_ecc (h : Nat) (f : Hasp → Hasp) (b : Block) : (updHasp h f b).ecc = b.ecc := rfl
@[simp] theorem updHasp_evr (h : Nat) (f : Hasp → Hasp) (b : Block) : (updHasp h f b).evr = b.evr := rfl
@[simp] theorem updHasp_blk (h : Nat) (f : Hasp → Hasp) (b : Block) : (updHasp h f b).blk = b.blk := rfl
@[simp] theorem updHasp_trace (h : Nat) (f : Hasp → Hasp) (b : Block) : (updHasp h f b).trace = b.trace := rfl
@[simp] theorem updHasp_watch (h : Nat) (f : Hasp → Hasp) (b : Block) : (updHasp h f b).watch = b.watch := rfl
@[simp] theorem updHasp_tally (h : Nat) (f : Hasp → Hasp) (b : Block) : (updHasp h f b).tally = b.tally := rfl
@[simp] theorem updHasp_meter (h : Nat) (f : Hasp → Hasp) (b : Block) : (updHasp h f b).meter = b.meter := rfl
@[simp] theorem updHasp_xbar (h : Nat) (f : Hasp → Hasp) (b : Block) : (updHasp h f b).xbar = b.xbar := rfl
@[simp] theorem updHasp_out (h : Nat) (f : Hasp → Hasp) (b : Block) : (updHasp h f b).out = b.out := rfl

@[simp] theorem updKPool_clk (n k : Nat) (f : KPool → KPool) (b : Block) : (updKPool n k f b).clk = b.clk := rfl
@[simp] theorem updKPool_boot (n k : Nat) (f : KPool → KPool) (b : Block) : (updKPool n k f b).boot = b.boot := rfl
@[simp] theorem updKPool_mgt (n k : Nat) (f : KPool → KPool) (b : Block) : (updKPool n k f b).mgt = b.mgt := rfl
@[simp] theorem updKPool_regs (n k : Nat) (f : KPool → KPool) (b : Block) : (updKPool n k f b).regs = b.regs := rfl
@[simp] theorem updKPool_cnt (n k : Nat) (f : KPool → KPool) (b : Block) : (updKPool n k f b).cnt = b.cnt := rfl
@[simp] theorem updKPool_cntSh (n k : Nat) (f : KPool → KPool) (b : Block) : (updKPool n k f b).cntSh = b.cntSh := rfl
@[simp] theorem updKPool_snapAt (n k : Nat) (f : KPool → KPool) (b : Block) : (updKPool n k f b).snapAt = b.snapAt := rfl
@[simp] theorem updKPool_snapTs (n k : Nat) (f : KPool → KPool) (b : Block) : (updKPool n k f b).snapTs = b.snapTs := rfl
@[simp] theorem updKPool_cmtTs (n k : Nat) (f : KPool → KPool) (b : Block) : (updKPool n k f b).cmtTs = b.cmtTs := rfl
@[simp] theorem updKPool_cmtDue (n k : Nat) (f : KPool → KPool) (b : Block) : (updKPool n k f b).cmtDue = b.cmtDue := rfl
@[simp] theorem updKPool_iqWork (n k : Nat) (f : KPool → KPool) (b : Block) : (updKPool n k f b).iqWork = b.iqWork := rfl
@[simp] theorem updKPool_ents (n k : Nat) (f : KPool → KPool) (b : Block) : (updKPool n k f b).ents = b.ents := rfl
@[simp] theorem updKPool_wq (n k : Nat) (f : KPool → KPool) (b : Block) : (updKPool n k f b).wq = b.wq := rfl
@[simp] theorem updKPool_slots (n k : Nat) (f : KPool → KPool) (b : Block) : (updKPool n k f b).slots = b.slots := rfl
@[simp] theorem updKPool_ports (n k : Nat) (f : KPool → KPool) (b : Block) : (updKPool n k f b).ports = b.ports := rfl
@[simp] theorem updKPool_occ (n k : Nat) (f : KPool → KPool) (b : Block) : (updKPool n k f b).occ = b.occ := rfl
@[simp] theorem updKPool_place (n k : Nat) (f : KPool → KPool) (b : Block) : (updKPool n k f b).place = b.place := rfl
@[simp] theorem updKPool_gov (n k : Nat) (f : KPool → KPool) (b : Block) : (updKPool n k f b).gov = b.gov := rfl
@[simp] theorem updKPool_arb (n k : Nat) (f : KPool → KPool) (b : Block) : (updKPool n k f b).arb = b.arb := rfl
@[simp] theorem updKPool_rings (n k : Nat) (f : KPool → KPool) (b : Block) : (updKPool n k f b).rings = b.rings := rfl
@[simp] theorem updKPool_tdone (n k : Nat) (f : KPool → KPool) (b : Block) : (updKPool n k f b).tdone = b.tdone := rfl
@[simp] theorem updKPool_tens (n k : Nat) (f : KPool → KPool) (b : Block) : (updKPool n k f b).tens = b.tens := rfl
@[simp] theorem updKPool_segs (n k : Nat) (f : KPool → KPool) (b : Block) : (updKPool n k f b).segs = b.segs := rfl
@[simp] theorem updKPool_entq (n k : Nat) (f : KPool → KPool) (b : Block) : (updKPool n k f b).entq = b.entq := rfl
@[simp] theorem updKPool_pcls (n k : Nat) (f : KPool → KPool) (b : Block) : (updKPool n k f b).pcls = b.pcls := rfl
@[simp] theorem updKPool_hasps (n k : Nat) (f : KPool → KPool) (b : Block) : (updKPool n k f b).hasps = b.hasps := rfl
@[simp] theorem updKPool_waits (n k : Nat) (f : KPool → KPool) (b : Block) : (updKPool n k f b).waits = b.waits := rfl
@[simp] theorem updKPool_kpool (n k : Nat) (f : KPool → KPool) (b : Block) : (updKPool n k f b).kpool = Tbl.upd {} b.kpool (n * 16 + k) f := rfl
@[simp] theorem updKPool_mq (n k : Nat) (f : KPool → KPool) (b : Block) : (updKPool n k f b).mq = b.mq := rfl
@[simp] theorem updKPool_mqPop (n k : Nat) (f : KPool → KPool) (b : Block) : (updKPool n k f b).mqPop = b.mqPop := rfl
@[simp] theorem updKPool_chans (n k : Nat) (f : KPool → KPool) (b : Block) : (updKPool n k f b).chans = b.chans := rfl
@[simp] theorem updKPool_rchans (n k : Nat) (f : KPool → KPool) (b : Block) : (updKPool n k f b).rchans = b.rchans := rfl
@[simp] theorem updKPool_storms (n k : Nat) (f : KPool → KPool) (b : Block) : (updKPool n k f b).storms = b.storms := rfl
@[simp] theorem updKPool_cq (n k : Nat) (f : KPool → KPool) (b : Block) : (updKPool n k f b).cq = b.cq := rfl
@[simp] theorem updKPool_cbParts (n k : Nat) (f : KPool → KPool) (b : Block) : (updKPool n k f b).cbParts = b.cbParts := rfl
@[simp] theorem updKPool_opdLast (n k : Nat) (f : KPool → KPool) (b : Block) : (updKPool n k f b).opdLast = b.opdLast := rfl
@[simp] theorem updKPool_preIgnored (n k : Nat) (f : KPool → KPool) (b : Block) : (updKPool n k f b).preIgnored = b.preIgnored := rfl
@[simp] theorem updKPool_resumeQ (n k : Nat) (f : KPool → KPool) (b : Block) : (updKPool n k f b).resumeQ = b.resumeQ := rfl
@[simp] theorem updKPool_lcIdleAt (n k : Nat) (f : KPool → KPool) (b : Block) : (updKPool n k f b).lcIdleAt = b.lcIdleAt := rfl
@[simp] theorem updKPool_hg (n k : Nat) (f : KPool → KPool) (b : Block) : (updKPool n k f b).hg = b.hg := rfl
@[simp] theorem updKPool_routes (n k : Nat) (f : KPool → KPool) (b : Block) : (updKPool n k f b).routes = b.routes := rfl
@[simp] theorem updKPool_unreach (n k : Nat) (f : KPool → KPool) (b : Block) : (updKPool n k f b).unreach = b.unreach := rfl
@[simp] theorem updKPool_fedt (n k : Nat) (f : KPool → KPool) (b : Block) : (updKPool n k f b).fedt = b.fedt := rfl
@[simp] theorem updKPool_remSegs (n k : Nat) (f : KPool → KPool) (b : Block) : (updKPool n k f b).remSegs = b.remSegs := rfl
@[simp] theorem updKPool_log (n k : Nat) (f : KPool → KPool) (b : Block) : (updKPool n k f b).log = b.log := rfl
@[simp] theorem updKPool_dbolt (n k : Nat) (f : KPool → KPool) (b : Block) : (updKPool n k f b).dbolt = b.dbolt := rfl
@[simp] theorem updKPool_hang (n k : Nat) (f : KPool → KPool) (b : Block) : (updKPool n k f b).hang = b.hang := rfl
@[simp] theorem updKPool_dump (n k : Nat) (f : KPool → KPool) (b : Block) : (updKPool n k f b).dump = b.dump := rfl
@[simp] theorem updKPool_cap (n k : Nat) (f : KPool → KPool) (b : Block) : (updKPool n k f b).cap = b.cap := rfl
@[simp] theorem updKPool_ecc (n k : Nat) (f : KPool → KPool) (b : Block) : (updKPool n k f b).ecc = b.ecc := rfl
@[simp] theorem updKPool_evr (n k : Nat) (f : KPool → KPool) (b : Block) : (updKPool n k f b).evr = b.evr := rfl
@[simp] theorem updKPool_blk (n k : Nat) (f : KPool → KPool) (b : Block) : (updKPool n k f b).blk = b.blk := rfl
@[simp] theorem updKPool_trace (n k : Nat) (f : KPool → KPool) (b : Block) : (updKPool n k f b).trace = b.trace := rfl
@[simp] theorem updKPool_watch (n k : Nat) (f : KPool → KPool) (b : Block) : (updKPool n k f b).watch = b.watch := rfl
@[simp] theorem updKPool_tally (n k : Nat) (f : KPool → KPool) (b : Block) : (updKPool n k f b).tally = b.tally := rfl
@[simp] theorem updKPool_meter (n k : Nat) (f : KPool → KPool) (b : Block) : (updKPool n k f b).meter = b.meter := rfl
@[simp] theorem updKPool_xbar (n k : Nat) (f : KPool → KPool) (b : Block) : (updKPool n k f b).xbar = b.xbar := rfl
@[simp] theorem updKPool_out (n k : Nat) (f : KPool → KPool) (b : Block) : (updKPool n k f b).out = b.out := rfl

@[simp] theorem setChan_clk (c : Nat) (v : Option Chan) (b : Block) : (setChan c v b).clk = b.clk := rfl
@[simp] theorem setChan_boot (c : Nat) (v : Option Chan) (b : Block) : (setChan c v b).boot = b.boot := rfl
@[simp] theorem setChan_mgt (c : Nat) (v : Option Chan) (b : Block) : (setChan c v b).mgt = b.mgt := rfl
@[simp] theorem setChan_regs (c : Nat) (v : Option Chan) (b : Block) : (setChan c v b).regs = b.regs := rfl
@[simp] theorem setChan_cnt (c : Nat) (v : Option Chan) (b : Block) : (setChan c v b).cnt = b.cnt := rfl
@[simp] theorem setChan_cntSh (c : Nat) (v : Option Chan) (b : Block) : (setChan c v b).cntSh = b.cntSh := rfl
@[simp] theorem setChan_snapAt (c : Nat) (v : Option Chan) (b : Block) : (setChan c v b).snapAt = b.snapAt := rfl
@[simp] theorem setChan_snapTs (c : Nat) (v : Option Chan) (b : Block) : (setChan c v b).snapTs = b.snapTs := rfl
@[simp] theorem setChan_cmtTs (c : Nat) (v : Option Chan) (b : Block) : (setChan c v b).cmtTs = b.cmtTs := rfl
@[simp] theorem setChan_cmtDue (c : Nat) (v : Option Chan) (b : Block) : (setChan c v b).cmtDue = b.cmtDue := rfl
@[simp] theorem setChan_iqWork (c : Nat) (v : Option Chan) (b : Block) : (setChan c v b).iqWork = b.iqWork := rfl
@[simp] theorem setChan_ents (c : Nat) (v : Option Chan) (b : Block) : (setChan c v b).ents = b.ents := rfl
@[simp] theorem setChan_wq (c : Nat) (v : Option Chan) (b : Block) : (setChan c v b).wq = b.wq := rfl
@[simp] theorem setChan_slots (c : Nat) (v : Option Chan) (b : Block) : (setChan c v b).slots = b.slots := rfl
@[simp] theorem setChan_ports (c : Nat) (v : Option Chan) (b : Block) : (setChan c v b).ports = b.ports := rfl
@[simp] theorem setChan_occ (c : Nat) (v : Option Chan) (b : Block) : (setChan c v b).occ = b.occ := rfl
@[simp] theorem setChan_place (c : Nat) (v : Option Chan) (b : Block) : (setChan c v b).place = b.place := rfl
@[simp] theorem setChan_gov (c : Nat) (v : Option Chan) (b : Block) : (setChan c v b).gov = b.gov := rfl
@[simp] theorem setChan_arb (c : Nat) (v : Option Chan) (b : Block) : (setChan c v b).arb = b.arb := rfl
@[simp] theorem setChan_rings (c : Nat) (v : Option Chan) (b : Block) : (setChan c v b).rings = b.rings := rfl
@[simp] theorem setChan_tdone (c : Nat) (v : Option Chan) (b : Block) : (setChan c v b).tdone = b.tdone := rfl
@[simp] theorem setChan_tens (c : Nat) (v : Option Chan) (b : Block) : (setChan c v b).tens = b.tens := rfl
@[simp] theorem setChan_segs (c : Nat) (v : Option Chan) (b : Block) : (setChan c v b).segs = b.segs := rfl
@[simp] theorem setChan_entq (c : Nat) (v : Option Chan) (b : Block) : (setChan c v b).entq = b.entq := rfl
@[simp] theorem setChan_pcls (c : Nat) (v : Option Chan) (b : Block) : (setChan c v b).pcls = b.pcls := rfl
@[simp] theorem setChan_hasps (c : Nat) (v : Option Chan) (b : Block) : (setChan c v b).hasps = b.hasps := rfl
@[simp] theorem setChan_waits (c : Nat) (v : Option Chan) (b : Block) : (setChan c v b).waits = b.waits := rfl
@[simp] theorem setChan_kpool (c : Nat) (v : Option Chan) (b : Block) : (setChan c v b).kpool = b.kpool := rfl
@[simp] theorem setChan_mq (c : Nat) (v : Option Chan) (b : Block) : (setChan c v b).mq = b.mq := rfl
@[simp] theorem setChan_mqPop (c : Nat) (v : Option Chan) (b : Block) : (setChan c v b).mqPop = b.mqPop := rfl
@[simp] theorem setChan_chans (c : Nat) (v : Option Chan) (b : Block) : (setChan c v b).chans = Tbl.set none b.chans c v := rfl
@[simp] theorem setChan_rchans (c : Nat) (v : Option Chan) (b : Block) : (setChan c v b).rchans = b.rchans := rfl
@[simp] theorem setChan_storms (c : Nat) (v : Option Chan) (b : Block) : (setChan c v b).storms = b.storms := rfl
@[simp] theorem setChan_cq (c : Nat) (v : Option Chan) (b : Block) : (setChan c v b).cq = b.cq := rfl
@[simp] theorem setChan_cbParts (c : Nat) (v : Option Chan) (b : Block) : (setChan c v b).cbParts = b.cbParts := rfl
@[simp] theorem setChan_opdLast (c : Nat) (v : Option Chan) (b : Block) : (setChan c v b).opdLast = b.opdLast := rfl
@[simp] theorem setChan_preIgnored (c : Nat) (v : Option Chan) (b : Block) : (setChan c v b).preIgnored = b.preIgnored := rfl
@[simp] theorem setChan_resumeQ (c : Nat) (v : Option Chan) (b : Block) : (setChan c v b).resumeQ = b.resumeQ := rfl
@[simp] theorem setChan_lcIdleAt (c : Nat) (v : Option Chan) (b : Block) : (setChan c v b).lcIdleAt = b.lcIdleAt := rfl
@[simp] theorem setChan_hg (c : Nat) (v : Option Chan) (b : Block) : (setChan c v b).hg = b.hg := rfl
@[simp] theorem setChan_routes (c : Nat) (v : Option Chan) (b : Block) : (setChan c v b).routes = b.routes := rfl
@[simp] theorem setChan_unreach (c : Nat) (v : Option Chan) (b : Block) : (setChan c v b).unreach = b.unreach := rfl
@[simp] theorem setChan_fedt (c : Nat) (v : Option Chan) (b : Block) : (setChan c v b).fedt = b.fedt := rfl
@[simp] theorem setChan_remSegs (c : Nat) (v : Option Chan) (b : Block) : (setChan c v b).remSegs = b.remSegs := rfl
@[simp] theorem setChan_log (c : Nat) (v : Option Chan) (b : Block) : (setChan c v b).log = b.log := rfl
@[simp] theorem setChan_dbolt (c : Nat) (v : Option Chan) (b : Block) : (setChan c v b).dbolt = b.dbolt := rfl
@[simp] theorem setChan_hang (c : Nat) (v : Option Chan) (b : Block) : (setChan c v b).hang = b.hang := rfl
@[simp] theorem setChan_dump (c : Nat) (v : Option Chan) (b : Block) : (setChan c v b).dump = b.dump := rfl
@[simp] theorem setChan_cap (c : Nat) (v : Option Chan) (b : Block) : (setChan c v b).cap = b.cap := rfl
@[simp] theorem setChan_ecc (c : Nat) (v : Option Chan) (b : Block) : (setChan c v b).ecc = b.ecc := rfl
@[simp] theorem setChan_evr (c : Nat) (v : Option Chan) (b : Block) : (setChan c v b).evr = b.evr := rfl
@[simp] theorem setChan_blk (c : Nat) (v : Option Chan) (b : Block) : (setChan c v b).blk = b.blk := rfl
@[simp] theorem setChan_trace (c : Nat) (v : Option Chan) (b : Block) : (setChan c v b).trace = b.trace := rfl
@[simp] theorem setChan_watch (c : Nat) (v : Option Chan) (b : Block) : (setChan c v b).watch = b.watch := rfl
@[simp] theorem setChan_tally (c : Nat) (v : Option Chan) (b : Block) : (setChan c v b).tally = b.tally := rfl
@[simp] theorem setChan_meter (c : Nat) (v : Option Chan) (b : Block) : (setChan c v b).meter = b.meter := rfl
@[simp] theorem setChan_xbar (c : Nat) (v : Option Chan) (b : Block) : (setChan c v b).xbar = b.xbar := rfl
@[simp] theorem setChan_out (c : Nat) (v : Option Chan) (b : Block) : (setChan c v b).out = b.out := rfl

@[simp] theorem updHinge_clk (h : Nat) (f : Hinge → Hinge) (b : Block) : (updHinge h f b).clk = b.clk := rfl
@[simp] theorem updHinge_boot (h : Nat) (f : Hinge → Hinge) (b : Block) : (updHinge h f b).boot = b.boot := rfl
@[simp] theorem updHinge_mgt (h : Nat) (f : Hinge → Hinge) (b : Block) : (updHinge h f b).mgt = b.mgt := rfl
@[simp] theorem updHinge_regs (h : Nat) (f : Hinge → Hinge) (b : Block) : (updHinge h f b).regs = b.regs := rfl
@[simp] theorem updHinge_cnt (h : Nat) (f : Hinge → Hinge) (b : Block) : (updHinge h f b).cnt = b.cnt := rfl
@[simp] theorem updHinge_cntSh (h : Nat) (f : Hinge → Hinge) (b : Block) : (updHinge h f b).cntSh = b.cntSh := rfl
@[simp] theorem updHinge_snapAt (h : Nat) (f : Hinge → Hinge) (b : Block) : (updHinge h f b).snapAt = b.snapAt := rfl
@[simp] theorem updHinge_snapTs (h : Nat) (f : Hinge → Hinge) (b : Block) : (updHinge h f b).snapTs = b.snapTs := rfl
@[simp] theorem updHinge_cmtTs (h : Nat) (f : Hinge → Hinge) (b : Block) : (updHinge h f b).cmtTs = b.cmtTs := rfl
@[simp] theorem updHinge_cmtDue (h : Nat) (f : Hinge → Hinge) (b : Block) : (updHinge h f b).cmtDue = b.cmtDue := rfl
@[simp] theorem updHinge_iqWork (h : Nat) (f : Hinge → Hinge) (b : Block) : (updHinge h f b).iqWork = b.iqWork := rfl
@[simp] theorem updHinge_ents (h : Nat) (f : Hinge → Hinge) (b : Block) : (updHinge h f b).ents = b.ents := rfl
@[simp] theorem updHinge_wq (h : Nat) (f : Hinge → Hinge) (b : Block) : (updHinge h f b).wq = b.wq := rfl
@[simp] theorem updHinge_slots (h : Nat) (f : Hinge → Hinge) (b : Block) : (updHinge h f b).slots = b.slots := rfl
@[simp] theorem updHinge_ports (h : Nat) (f : Hinge → Hinge) (b : Block) : (updHinge h f b).ports = b.ports := rfl
@[simp] theorem updHinge_occ (h : Nat) (f : Hinge → Hinge) (b : Block) : (updHinge h f b).occ = b.occ := rfl
@[simp] theorem updHinge_place (h : Nat) (f : Hinge → Hinge) (b : Block) : (updHinge h f b).place = b.place := rfl
@[simp] theorem updHinge_gov (h : Nat) (f : Hinge → Hinge) (b : Block) : (updHinge h f b).gov = b.gov := rfl
@[simp] theorem updHinge_arb (h : Nat) (f : Hinge → Hinge) (b : Block) : (updHinge h f b).arb = b.arb := rfl
@[simp] theorem updHinge_rings (h : Nat) (f : Hinge → Hinge) (b : Block) : (updHinge h f b).rings = b.rings := rfl
@[simp] theorem updHinge_tdone (h : Nat) (f : Hinge → Hinge) (b : Block) : (updHinge h f b).tdone = b.tdone := rfl
@[simp] theorem updHinge_tens (h : Nat) (f : Hinge → Hinge) (b : Block) : (updHinge h f b).tens = b.tens := rfl
@[simp] theorem updHinge_segs (h : Nat) (f : Hinge → Hinge) (b : Block) : (updHinge h f b).segs = b.segs := rfl
@[simp] theorem updHinge_entq (h : Nat) (f : Hinge → Hinge) (b : Block) : (updHinge h f b).entq = b.entq := rfl
@[simp] theorem updHinge_pcls (h : Nat) (f : Hinge → Hinge) (b : Block) : (updHinge h f b).pcls = b.pcls := rfl
@[simp] theorem updHinge_hasps (h : Nat) (f : Hinge → Hinge) (b : Block) : (updHinge h f b).hasps = b.hasps := rfl
@[simp] theorem updHinge_waits (h : Nat) (f : Hinge → Hinge) (b : Block) : (updHinge h f b).waits = b.waits := rfl
@[simp] theorem updHinge_kpool (h : Nat) (f : Hinge → Hinge) (b : Block) : (updHinge h f b).kpool = b.kpool := rfl
@[simp] theorem updHinge_mq (h : Nat) (f : Hinge → Hinge) (b : Block) : (updHinge h f b).mq = b.mq := rfl
@[simp] theorem updHinge_mqPop (h : Nat) (f : Hinge → Hinge) (b : Block) : (updHinge h f b).mqPop = b.mqPop := rfl
@[simp] theorem updHinge_chans (h : Nat) (f : Hinge → Hinge) (b : Block) : (updHinge h f b).chans = b.chans := rfl
@[simp] theorem updHinge_rchans (h : Nat) (f : Hinge → Hinge) (b : Block) : (updHinge h f b).rchans = b.rchans := rfl
@[simp] theorem updHinge_storms (h : Nat) (f : Hinge → Hinge) (b : Block) : (updHinge h f b).storms = b.storms := rfl
@[simp] theorem updHinge_cq (h : Nat) (f : Hinge → Hinge) (b : Block) : (updHinge h f b).cq = b.cq := rfl
@[simp] theorem updHinge_cbParts (h : Nat) (f : Hinge → Hinge) (b : Block) : (updHinge h f b).cbParts = b.cbParts := rfl
@[simp] theorem updHinge_opdLast (h : Nat) (f : Hinge → Hinge) (b : Block) : (updHinge h f b).opdLast = b.opdLast := rfl
@[simp] theorem updHinge_preIgnored (h : Nat) (f : Hinge → Hinge) (b : Block) : (updHinge h f b).preIgnored = b.preIgnored := rfl
@[simp] theorem updHinge_resumeQ (h : Nat) (f : Hinge → Hinge) (b : Block) : (updHinge h f b).resumeQ = b.resumeQ := rfl
@[simp] theorem updHinge_lcIdleAt (h : Nat) (f : Hinge → Hinge) (b : Block) : (updHinge h f b).lcIdleAt = b.lcIdleAt := rfl
@[simp] theorem updHinge_hg (h : Nat) (f : Hinge → Hinge) (b : Block) : (updHinge h f b).hg = Tbl.upd {} b.hg h f := rfl
@[simp] theorem updHinge_routes (h : Nat) (f : Hinge → Hinge) (b : Block) : (updHinge h f b).routes = b.routes := rfl
@[simp] theorem updHinge_unreach (h : Nat) (f : Hinge → Hinge) (b : Block) : (updHinge h f b).unreach = b.unreach := rfl
@[simp] theorem updHinge_fedt (h : Nat) (f : Hinge → Hinge) (b : Block) : (updHinge h f b).fedt = b.fedt := rfl
@[simp] theorem updHinge_remSegs (h : Nat) (f : Hinge → Hinge) (b : Block) : (updHinge h f b).remSegs = b.remSegs := rfl
@[simp] theorem updHinge_log (h : Nat) (f : Hinge → Hinge) (b : Block) : (updHinge h f b).log = b.log := rfl
@[simp] theorem updHinge_dbolt (h : Nat) (f : Hinge → Hinge) (b : Block) : (updHinge h f b).dbolt = b.dbolt := rfl
@[simp] theorem updHinge_hang (h : Nat) (f : Hinge → Hinge) (b : Block) : (updHinge h f b).hang = b.hang := rfl
@[simp] theorem updHinge_dump (h : Nat) (f : Hinge → Hinge) (b : Block) : (updHinge h f b).dump = b.dump := rfl
@[simp] theorem updHinge_cap (h : Nat) (f : Hinge → Hinge) (b : Block) : (updHinge h f b).cap = b.cap := rfl
@[simp] theorem updHinge_ecc (h : Nat) (f : Hinge → Hinge) (b : Block) : (updHinge h f b).ecc = b.ecc := rfl
@[simp] theorem updHinge_evr (h : Nat) (f : Hinge → Hinge) (b : Block) : (updHinge h f b).evr = b.evr := rfl
@[simp] theorem updHinge_blk (h : Nat) (f : Hinge → Hinge) (b : Block) : (updHinge h f b).blk = b.blk := rfl
@[simp] theorem updHinge_trace (h : Nat) (f : Hinge → Hinge) (b : Block) : (updHinge h f b).trace = b.trace := rfl
@[simp] theorem updHinge_watch (h : Nat) (f : Hinge → Hinge) (b : Block) : (updHinge h f b).watch = b.watch := rfl
@[simp] theorem updHinge_tally (h : Nat) (f : Hinge → Hinge) (b : Block) : (updHinge h f b).tally = b.tally := rfl
@[simp] theorem updHinge_meter (h : Nat) (f : Hinge → Hinge) (b : Block) : (updHinge h f b).meter = b.meter := rfl
@[simp] theorem updHinge_xbar (h : Nat) (f : Hinge → Hinge) (b : Block) : (updHinge h f b).xbar = b.xbar := rfl
@[simp] theorem updHinge_out (h : Nat) (f : Hinge → Hinge) (b : Block) : (updHinge h f b).out = b.out := rfl

@[simp] theorem updPcl_clk (c : Nat) (f : PClass → PClass) (b : Block) : (updPcl c f b).clk = b.clk := rfl
@[simp] theorem updPcl_boot (c : Nat) (f : PClass → PClass) (b : Block) : (updPcl c f b).boot = b.boot := rfl
@[simp] theorem updPcl_mgt (c : Nat) (f : PClass → PClass) (b : Block) : (updPcl c f b).mgt = b.mgt := rfl
@[simp] theorem updPcl_regs (c : Nat) (f : PClass → PClass) (b : Block) : (updPcl c f b).regs = b.regs := rfl
@[simp] theorem updPcl_cnt (c : Nat) (f : PClass → PClass) (b : Block) : (updPcl c f b).cnt = b.cnt := rfl
@[simp] theorem updPcl_cntSh (c : Nat) (f : PClass → PClass) (b : Block) : (updPcl c f b).cntSh = b.cntSh := rfl
@[simp] theorem updPcl_snapAt (c : Nat) (f : PClass → PClass) (b : Block) : (updPcl c f b).snapAt = b.snapAt := rfl
@[simp] theorem updPcl_snapTs (c : Nat) (f : PClass → PClass) (b : Block) : (updPcl c f b).snapTs = b.snapTs := rfl
@[simp] theorem updPcl_cmtTs (c : Nat) (f : PClass → PClass) (b : Block) : (updPcl c f b).cmtTs = b.cmtTs := rfl
@[simp] theorem updPcl_cmtDue (c : Nat) (f : PClass → PClass) (b : Block) : (updPcl c f b).cmtDue = b.cmtDue := rfl
@[simp] theorem updPcl_iqWork (c : Nat) (f : PClass → PClass) (b : Block) : (updPcl c f b).iqWork = b.iqWork := rfl
@[simp] theorem updPcl_ents (c : Nat) (f : PClass → PClass) (b : Block) : (updPcl c f b).ents = b.ents := rfl
@[simp] theorem updPcl_wq (c : Nat) (f : PClass → PClass) (b : Block) : (updPcl c f b).wq = b.wq := rfl
@[simp] theorem updPcl_slots (c : Nat) (f : PClass → PClass) (b : Block) : (updPcl c f b).slots = b.slots := rfl
@[simp] theorem updPcl_ports (c : Nat) (f : PClass → PClass) (b : Block) : (updPcl c f b).ports = b.ports := rfl
@[simp] theorem updPcl_occ (c : Nat) (f : PClass → PClass) (b : Block) : (updPcl c f b).occ = b.occ := rfl
@[simp] theorem updPcl_place (c : Nat) (f : PClass → PClass) (b : Block) : (updPcl c f b).place = b.place := rfl
@[simp] theorem updPcl_gov (c : Nat) (f : PClass → PClass) (b : Block) : (updPcl c f b).gov = b.gov := rfl
@[simp] theorem updPcl_arb (c : Nat) (f : PClass → PClass) (b : Block) : (updPcl c f b).arb = b.arb := rfl
@[simp] theorem updPcl_rings (c : Nat) (f : PClass → PClass) (b : Block) : (updPcl c f b).rings = b.rings := rfl
@[simp] theorem updPcl_tdone (c : Nat) (f : PClass → PClass) (b : Block) : (updPcl c f b).tdone = b.tdone := rfl
@[simp] theorem updPcl_tens (c : Nat) (f : PClass → PClass) (b : Block) : (updPcl c f b).tens = b.tens := rfl
@[simp] theorem updPcl_segs (c : Nat) (f : PClass → PClass) (b : Block) : (updPcl c f b).segs = b.segs := rfl
@[simp] theorem updPcl_entq (c : Nat) (f : PClass → PClass) (b : Block) : (updPcl c f b).entq = b.entq := rfl
@[simp] theorem updPcl_pcls (c : Nat) (f : PClass → PClass) (b : Block) : (updPcl c f b).pcls = Tbl.upd {} b.pcls c f := rfl
@[simp] theorem updPcl_hasps (c : Nat) (f : PClass → PClass) (b : Block) : (updPcl c f b).hasps = b.hasps := rfl
@[simp] theorem updPcl_waits (c : Nat) (f : PClass → PClass) (b : Block) : (updPcl c f b).waits = b.waits := rfl
@[simp] theorem updPcl_kpool (c : Nat) (f : PClass → PClass) (b : Block) : (updPcl c f b).kpool = b.kpool := rfl
@[simp] theorem updPcl_mq (c : Nat) (f : PClass → PClass) (b : Block) : (updPcl c f b).mq = b.mq := rfl
@[simp] theorem updPcl_mqPop (c : Nat) (f : PClass → PClass) (b : Block) : (updPcl c f b).mqPop = b.mqPop := rfl
@[simp] theorem updPcl_chans (c : Nat) (f : PClass → PClass) (b : Block) : (updPcl c f b).chans = b.chans := rfl
@[simp] theorem updPcl_rchans (c : Nat) (f : PClass → PClass) (b : Block) : (updPcl c f b).rchans = b.rchans := rfl
@[simp] theorem updPcl_storms (c : Nat) (f : PClass → PClass) (b : Block) : (updPcl c f b).storms = b.storms := rfl
@[simp] theorem updPcl_cq (c : Nat) (f : PClass → PClass) (b : Block) : (updPcl c f b).cq = b.cq := rfl
@[simp] theorem updPcl_cbParts (c : Nat) (f : PClass → PClass) (b : Block) : (updPcl c f b).cbParts = b.cbParts := rfl
@[simp] theorem updPcl_opdLast (c : Nat) (f : PClass → PClass) (b : Block) : (updPcl c f b).opdLast = b.opdLast := rfl
@[simp] theorem updPcl_preIgnored (c : Nat) (f : PClass → PClass) (b : Block) : (updPcl c f b).preIgnored = b.preIgnored := rfl
@[simp] theorem updPcl_resumeQ (c : Nat) (f : PClass → PClass) (b : Block) : (updPcl c f b).resumeQ = b.resumeQ := rfl
@[simp] theorem updPcl_lcIdleAt (c : Nat) (f : PClass → PClass) (b : Block) : (updPcl c f b).lcIdleAt = b.lcIdleAt := rfl
@[simp] theorem updPcl_hg (c : Nat) (f : PClass → PClass) (b : Block) : (updPcl c f b).hg = b.hg := rfl
@[simp] theorem updPcl_routes (c : Nat) (f : PClass → PClass) (b : Block) : (updPcl c f b).routes = b.routes := rfl
@[simp] theorem updPcl_unreach (c : Nat) (f : PClass → PClass) (b : Block) : (updPcl c f b).unreach = b.unreach := rfl
@[simp] theorem updPcl_fedt (c : Nat) (f : PClass → PClass) (b : Block) : (updPcl c f b).fedt = b.fedt := rfl
@[simp] theorem updPcl_remSegs (c : Nat) (f : PClass → PClass) (b : Block) : (updPcl c f b).remSegs = b.remSegs := rfl
@[simp] theorem updPcl_log (c : Nat) (f : PClass → PClass) (b : Block) : (updPcl c f b).log = b.log := rfl
@[simp] theorem updPcl_dbolt (c : Nat) (f : PClass → PClass) (b : Block) : (updPcl c f b).dbolt = b.dbolt := rfl
@[simp] theorem updPcl_hang (c : Nat) (f : PClass → PClass) (b : Block) : (updPcl c f b).hang = b.hang := rfl
@[simp] theorem updPcl_dump (c : Nat) (f : PClass → PClass) (b : Block) : (updPcl c f b).dump = b.dump := rfl
@[simp] theorem updPcl_cap (c : Nat) (f : PClass → PClass) (b : Block) : (updPcl c f b).cap = b.cap := rfl
@[simp] theorem updPcl_ecc (c : Nat) (f : PClass → PClass) (b : Block) : (updPcl c f b).ecc = b.ecc := rfl
@[simp] theorem updPcl_evr (c : Nat) (f : PClass → PClass) (b : Block) : (updPcl c f b).evr = b.evr := rfl
@[simp] theorem updPcl_blk (c : Nat) (f : PClass → PClass) (b : Block) : (updPcl c f b).blk = b.blk := rfl
@[simp] theorem updPcl_trace (c : Nat) (f : PClass → PClass) (b : Block) : (updPcl c f b).trace = b.trace := rfl
@[simp] theorem updPcl_watch (c : Nat) (f : PClass → PClass) (b : Block) : (updPcl c f b).watch = b.watch := rfl
@[simp] theorem updPcl_tally (c : Nat) (f : PClass → PClass) (b : Block) : (updPcl c f b).tally = b.tally := rfl
@[simp] theorem updPcl_meter (c : Nat) (f : PClass → PClass) (b : Block) : (updPcl c f b).meter = b.meter := rfl
@[simp] theorem updPcl_xbar (c : Nat) (f : PClass → PClass) (b : Block) : (updPcl c f b).xbar = b.xbar := rfl
@[simp] theorem updPcl_out (c : Nat) (f : PClass → PClass) (b : Block) : (updPcl c f b).out = b.out := rfl

@[simp] theorem updDom_clk (d : Nat) (f : Dom → Dom) (b : Block) : (updDom d f b).clk = b.clk := rfl
@[simp] theorem updDom_boot (d : Nat) (f : Dom → Dom) (b : Block) : (updDom d f b).boot = b.boot := rfl
@[simp] theorem updDom_mgt (d : Nat) (f : Dom → Dom) (b : Block) : (updDom d f b).mgt = b.mgt := rfl
@[simp] theorem updDom_regs (d : Nat) (f : Dom → Dom) (b : Block) : (updDom d f b).regs = b.regs := rfl
@[simp] theorem updDom_cnt (d : Nat) (f : Dom → Dom) (b : Block) : (updDom d f b).cnt = b.cnt := rfl
@[simp] theorem updDom_cntSh (d : Nat) (f : Dom → Dom) (b : Block) : (updDom d f b).cntSh = b.cntSh := rfl
@[simp] theorem updDom_snapAt (d : Nat) (f : Dom → Dom) (b : Block) : (updDom d f b).snapAt = b.snapAt := rfl
@[simp] theorem updDom_snapTs (d : Nat) (f : Dom → Dom) (b : Block) : (updDom d f b).snapTs = b.snapTs := rfl
@[simp] theorem updDom_cmtTs (d : Nat) (f : Dom → Dom) (b : Block) : (updDom d f b).cmtTs = b.cmtTs := rfl
@[simp] theorem updDom_cmtDue (d : Nat) (f : Dom → Dom) (b : Block) : (updDom d f b).cmtDue = b.cmtDue := rfl
@[simp] theorem updDom_iqWork (d : Nat) (f : Dom → Dom) (b : Block) : (updDom d f b).iqWork = b.iqWork := rfl
@[simp] theorem updDom_ents (d : Nat) (f : Dom → Dom) (b : Block) : (updDom d f b).ents = b.ents := rfl
@[simp] theorem updDom_wq (d : Nat) (f : Dom → Dom) (b : Block) : (updDom d f b).wq = b.wq := rfl
@[simp] theorem updDom_slots (d : Nat) (f : Dom → Dom) (b : Block) : (updDom d f b).slots = b.slots := rfl
@[simp] theorem updDom_ports (d : Nat) (f : Dom → Dom) (b : Block) : (updDom d f b).ports = b.ports := rfl
@[simp] theorem updDom_occ (d : Nat) (f : Dom → Dom) (b : Block) : (updDom d f b).occ = b.occ := rfl
@[simp] theorem updDom_place (d : Nat) (f : Dom → Dom) (b : Block) : (updDom d f b).place = b.place := rfl
@[simp] theorem updDom_arb (d : Nat) (f : Dom → Dom) (b : Block) : (updDom d f b).arb = b.arb := rfl
@[simp] theorem updDom_rings (d : Nat) (f : Dom → Dom) (b : Block) : (updDom d f b).rings = b.rings := rfl
@[simp] theorem updDom_tdone (d : Nat) (f : Dom → Dom) (b : Block) : (updDom d f b).tdone = b.tdone := rfl
@[simp] theorem updDom_tens (d : Nat) (f : Dom → Dom) (b : Block) : (updDom d f b).tens = b.tens := rfl
@[simp] theorem updDom_segs (d : Nat) (f : Dom → Dom) (b : Block) : (updDom d f b).segs = b.segs := rfl
@[simp] theorem updDom_entq (d : Nat) (f : Dom → Dom) (b : Block) : (updDom d f b).entq = b.entq := rfl
@[simp] theorem updDom_pcls (d : Nat) (f : Dom → Dom) (b : Block) : (updDom d f b).pcls = b.pcls := rfl
@[simp] theorem updDom_hasps (d : Nat) (f : Dom → Dom) (b : Block) : (updDom d f b).hasps = b.hasps := rfl
@[simp] theorem updDom_waits (d : Nat) (f : Dom → Dom) (b : Block) : (updDom d f b).waits = b.waits := rfl
@[simp] theorem updDom_kpool (d : Nat) (f : Dom → Dom) (b : Block) : (updDom d f b).kpool = b.kpool := rfl
@[simp] theorem updDom_mq (d : Nat) (f : Dom → Dom) (b : Block) : (updDom d f b).mq = b.mq := rfl
@[simp] theorem updDom_mqPop (d : Nat) (f : Dom → Dom) (b : Block) : (updDom d f b).mqPop = b.mqPop := rfl
@[simp] theorem updDom_chans (d : Nat) (f : Dom → Dom) (b : Block) : (updDom d f b).chans = b.chans := rfl
@[simp] theorem updDom_rchans (d : Nat) (f : Dom → Dom) (b : Block) : (updDom d f b).rchans = b.rchans := rfl
@[simp] theorem updDom_storms (d : Nat) (f : Dom → Dom) (b : Block) : (updDom d f b).storms = b.storms := rfl
@[simp] theorem updDom_cq (d : Nat) (f : Dom → Dom) (b : Block) : (updDom d f b).cq = b.cq := rfl
@[simp] theorem updDom_cbParts (d : Nat) (f : Dom → Dom) (b : Block) : (updDom d f b).cbParts = b.cbParts := rfl
@[simp] theorem updDom_opdLast (d : Nat) (f : Dom → Dom) (b : Block) : (updDom d f b).opdLast = b.opdLast := rfl
@[simp] theorem updDom_preIgnored (d : Nat) (f : Dom → Dom) (b : Block) : (updDom d f b).preIgnored = b.preIgnored := rfl
@[simp] theorem updDom_resumeQ (d : Nat) (f : Dom → Dom) (b : Block) : (updDom d f b).resumeQ = b.resumeQ := rfl
@[simp] theorem updDom_lcIdleAt (d : Nat) (f : Dom → Dom) (b : Block) : (updDom d f b).lcIdleAt = b.lcIdleAt := rfl
@[simp] theorem updDom_hg (d : Nat) (f : Dom → Dom) (b : Block) : (updDom d f b).hg = b.hg := rfl
@[simp] theorem updDom_routes (d : Nat) (f : Dom → Dom) (b : Block) : (updDom d f b).routes = b.routes := rfl
@[simp] theorem updDom_unreach (d : Nat) (f : Dom → Dom) (b : Block) : (updDom d f b).unreach = b.unreach := rfl
@[simp] theorem updDom_fedt (d : Nat) (f : Dom → Dom) (b : Block) : (updDom d f b).fedt = b.fedt := rfl
@[simp] theorem updDom_remSegs (d : Nat) (f : Dom → Dom) (b : Block) : (updDom d f b).remSegs = b.remSegs := rfl
@[simp] theorem updDom_log (d : Nat) (f : Dom → Dom) (b : Block) : (updDom d f b).log = b.log := rfl
@[simp] theorem updDom_dbolt (d : Nat) (f : Dom → Dom) (b : Block) : (updDom d f b).dbolt = b.dbolt := rfl
@[simp] theorem updDom_hang (d : Nat) (f : Dom → Dom) (b : Block) : (updDom d f b).hang = b.hang := rfl
@[simp] theorem updDom_dump (d : Nat) (f : Dom → Dom) (b : Block) : (updDom d f b).dump = b.dump := rfl
@[simp] theorem updDom_cap (d : Nat) (f : Dom → Dom) (b : Block) : (updDom d f b).cap = b.cap := rfl
@[simp] theorem updDom_ecc (d : Nat) (f : Dom → Dom) (b : Block) : (updDom d f b).ecc = b.ecc := rfl
@[simp] theorem updDom_evr (d : Nat) (f : Dom → Dom) (b : Block) : (updDom d f b).evr = b.evr := rfl
@[simp] theorem updDom_blk (d : Nat) (f : Dom → Dom) (b : Block) : (updDom d f b).blk = b.blk := rfl
@[simp] theorem updDom_trace (d : Nat) (f : Dom → Dom) (b : Block) : (updDom d f b).trace = b.trace := rfl
@[simp] theorem updDom_watch (d : Nat) (f : Dom → Dom) (b : Block) : (updDom d f b).watch = b.watch := rfl
@[simp] theorem updDom_tally (d : Nat) (f : Dom → Dom) (b : Block) : (updDom d f b).tally = b.tally := rfl
@[simp] theorem updDom_meter (d : Nat) (f : Dom → Dom) (b : Block) : (updDom d f b).meter = b.meter := rfl
@[simp] theorem updDom_xbar (d : Nat) (f : Dom → Dom) (b : Block) : (updDom d f b).xbar = b.xbar := rfl
@[simp] theorem updDom_out (d : Nat) (f : Dom → Dom) (b : Block) : (updDom d f b).out = b.out := rfl

@[simp] theorem updFed_clk (w : Nat) (f : FedTab → FedTab) (b : Block) : (updFed w f b).clk = b.clk := rfl
@[simp] theorem updFed_boot (w : Nat) (f : FedTab → FedTab) (b : Block) : (updFed w f b).boot = b.boot := rfl
@[simp] theorem updFed_mgt (w : Nat) (f : FedTab → FedTab) (b : Block) : (updFed w f b).mgt = b.mgt := rfl
@[simp] theorem updFed_regs (w : Nat) (f : FedTab → FedTab) (b : Block) : (updFed w f b).regs = b.regs := rfl
@[simp] theorem updFed_cnt (w : Nat) (f : FedTab → FedTab) (b : Block) : (updFed w f b).cnt = b.cnt := rfl
@[simp] theorem updFed_cntSh (w : Nat) (f : FedTab → FedTab) (b : Block) : (updFed w f b).cntSh = b.cntSh := rfl
@[simp] theorem updFed_snapAt (w : Nat) (f : FedTab → FedTab) (b : Block) : (updFed w f b).snapAt = b.snapAt := rfl
@[simp] theorem updFed_snapTs (w : Nat) (f : FedTab → FedTab) (b : Block) : (updFed w f b).snapTs = b.snapTs := rfl
@[simp] theorem updFed_cmtTs (w : Nat) (f : FedTab → FedTab) (b : Block) : (updFed w f b).cmtTs = b.cmtTs := rfl
@[simp] theorem updFed_cmtDue (w : Nat) (f : FedTab → FedTab) (b : Block) : (updFed w f b).cmtDue = b.cmtDue := rfl
@[simp] theorem updFed_iqWork (w : Nat) (f : FedTab → FedTab) (b : Block) : (updFed w f b).iqWork = b.iqWork := rfl
@[simp] theorem updFed_ents (w : Nat) (f : FedTab → FedTab) (b : Block) : (updFed w f b).ents = b.ents := rfl
@[simp] theorem updFed_wq (w : Nat) (f : FedTab → FedTab) (b : Block) : (updFed w f b).wq = b.wq := rfl
@[simp] theorem updFed_slots (w : Nat) (f : FedTab → FedTab) (b : Block) : (updFed w f b).slots = b.slots := rfl
@[simp] theorem updFed_ports (w : Nat) (f : FedTab → FedTab) (b : Block) : (updFed w f b).ports = b.ports := rfl
@[simp] theorem updFed_occ (w : Nat) (f : FedTab → FedTab) (b : Block) : (updFed w f b).occ = b.occ := rfl
@[simp] theorem updFed_place (w : Nat) (f : FedTab → FedTab) (b : Block) : (updFed w f b).place = b.place := rfl
@[simp] theorem updFed_gov (w : Nat) (f : FedTab → FedTab) (b : Block) : (updFed w f b).gov = b.gov := rfl
@[simp] theorem updFed_arb (w : Nat) (f : FedTab → FedTab) (b : Block) : (updFed w f b).arb = b.arb := rfl
@[simp] theorem updFed_rings (w : Nat) (f : FedTab → FedTab) (b : Block) : (updFed w f b).rings = b.rings := rfl
@[simp] theorem updFed_tdone (w : Nat) (f : FedTab → FedTab) (b : Block) : (updFed w f b).tdone = b.tdone := rfl
@[simp] theorem updFed_tens (w : Nat) (f : FedTab → FedTab) (b : Block) : (updFed w f b).tens = b.tens := rfl
@[simp] theorem updFed_segs (w : Nat) (f : FedTab → FedTab) (b : Block) : (updFed w f b).segs = b.segs := rfl
@[simp] theorem updFed_entq (w : Nat) (f : FedTab → FedTab) (b : Block) : (updFed w f b).entq = b.entq := rfl
@[simp] theorem updFed_pcls (w : Nat) (f : FedTab → FedTab) (b : Block) : (updFed w f b).pcls = b.pcls := rfl
@[simp] theorem updFed_hasps (w : Nat) (f : FedTab → FedTab) (b : Block) : (updFed w f b).hasps = b.hasps := rfl
@[simp] theorem updFed_waits (w : Nat) (f : FedTab → FedTab) (b : Block) : (updFed w f b).waits = b.waits := rfl
@[simp] theorem updFed_kpool (w : Nat) (f : FedTab → FedTab) (b : Block) : (updFed w f b).kpool = b.kpool := rfl
@[simp] theorem updFed_mq (w : Nat) (f : FedTab → FedTab) (b : Block) : (updFed w f b).mq = b.mq := rfl
@[simp] theorem updFed_mqPop (w : Nat) (f : FedTab → FedTab) (b : Block) : (updFed w f b).mqPop = b.mqPop := rfl
@[simp] theorem updFed_chans (w : Nat) (f : FedTab → FedTab) (b : Block) : (updFed w f b).chans = b.chans := rfl
@[simp] theorem updFed_rchans (w : Nat) (f : FedTab → FedTab) (b : Block) : (updFed w f b).rchans = b.rchans := rfl
@[simp] theorem updFed_storms (w : Nat) (f : FedTab → FedTab) (b : Block) : (updFed w f b).storms = b.storms := rfl
@[simp] theorem updFed_cq (w : Nat) (f : FedTab → FedTab) (b : Block) : (updFed w f b).cq = b.cq := rfl
@[simp] theorem updFed_cbParts (w : Nat) (f : FedTab → FedTab) (b : Block) : (updFed w f b).cbParts = b.cbParts := rfl
@[simp] theorem updFed_opdLast (w : Nat) (f : FedTab → FedTab) (b : Block) : (updFed w f b).opdLast = b.opdLast := rfl
@[simp] theorem updFed_preIgnored (w : Nat) (f : FedTab → FedTab) (b : Block) : (updFed w f b).preIgnored = b.preIgnored := rfl
@[simp] theorem updFed_resumeQ (w : Nat) (f : FedTab → FedTab) (b : Block) : (updFed w f b).resumeQ = b.resumeQ := rfl
@[simp] theorem updFed_lcIdleAt (w : Nat) (f : FedTab → FedTab) (b : Block) : (updFed w f b).lcIdleAt = b.lcIdleAt := rfl
@[simp] theorem updFed_hg (w : Nat) (f : FedTab → FedTab) (b : Block) : (updFed w f b).hg = b.hg := rfl
@[simp] theorem updFed_routes (w : Nat) (f : FedTab → FedTab) (b : Block) : (updFed w f b).routes = b.routes := rfl
@[simp] theorem updFed_unreach (w : Nat) (f : FedTab → FedTab) (b : Block) : (updFed w f b).unreach = b.unreach := rfl
@[simp] theorem updFed_fedt (w : Nat) (f : FedTab → FedTab) (b : Block) : (updFed w f b).fedt = Tbl.upd {} b.fedt w f := rfl
@[simp] theorem updFed_remSegs (w : Nat) (f : FedTab → FedTab) (b : Block) : (updFed w f b).remSegs = b.remSegs := rfl
@[simp] theorem updFed_log (w : Nat) (f : FedTab → FedTab) (b : Block) : (updFed w f b).log = b.log := rfl
@[simp] theorem updFed_dbolt (w : Nat) (f : FedTab → FedTab) (b : Block) : (updFed w f b).dbolt = b.dbolt := rfl
@[simp] theorem updFed_hang (w : Nat) (f : FedTab → FedTab) (b : Block) : (updFed w f b).hang = b.hang := rfl
@[simp] theorem updFed_dump (w : Nat) (f : FedTab → FedTab) (b : Block) : (updFed w f b).dump = b.dump := rfl
@[simp] theorem updFed_cap (w : Nat) (f : FedTab → FedTab) (b : Block) : (updFed w f b).cap = b.cap := rfl
@[simp] theorem updFed_ecc (w : Nat) (f : FedTab → FedTab) (b : Block) : (updFed w f b).ecc = b.ecc := rfl
@[simp] theorem updFed_evr (w : Nat) (f : FedTab → FedTab) (b : Block) : (updFed w f b).evr = b.evr := rfl
@[simp] theorem updFed_blk (w : Nat) (f : FedTab → FedTab) (b : Block) : (updFed w f b).blk = b.blk := rfl
@[simp] theorem updFed_trace (w : Nat) (f : FedTab → FedTab) (b : Block) : (updFed w f b).trace = b.trace := rfl
@[simp] theorem updFed_watch (w : Nat) (f : FedTab → FedTab) (b : Block) : (updFed w f b).watch = b.watch := rfl
@[simp] theorem updFed_tally (w : Nat) (f : FedTab → FedTab) (b : Block) : (updFed w f b).tally = b.tally := rfl
@[simp] theorem updFed_meter (w : Nat) (f : FedTab → FedTab) (b : Block) : (updFed w f b).meter = b.meter := rfl
@[simp] theorem updFed_xbar (w : Nat) (f : FedTab → FedTab) (b : Block) : (updFed w f b).xbar = b.xbar := rfl
@[simp] theorem updFed_out (w : Nat) (f : FedTab → FedTab) (b : Block) : (updFed w f b).out = b.out := rfl

@[simp] theorem updDb_clk (f : Dbolt → Dbolt) (b : Block) : (updDb f b).clk = b.clk := rfl
@[simp] theorem updDb_boot (f : Dbolt → Dbolt) (b : Block) : (updDb f b).boot = b.boot := rfl
@[simp] theorem updDb_mgt (f : Dbolt → Dbolt) (b : Block) : (updDb f b).mgt = b.mgt := rfl
@[simp] theorem updDb_regs (f : Dbolt → Dbolt) (b : Block) : (updDb f b).regs = b.regs := rfl
@[simp] theorem updDb_cnt (f : Dbolt → Dbolt) (b : Block) : (updDb f b).cnt = b.cnt := rfl
@[simp] theorem updDb_cntSh (f : Dbolt → Dbolt) (b : Block) : (updDb f b).cntSh = b.cntSh := rfl
@[simp] theorem updDb_snapAt (f : Dbolt → Dbolt) (b : Block) : (updDb f b).snapAt = b.snapAt := rfl
@[simp] theorem updDb_snapTs (f : Dbolt → Dbolt) (b : Block) : (updDb f b).snapTs = b.snapTs := rfl
@[simp] theorem updDb_cmtTs (f : Dbolt → Dbolt) (b : Block) : (updDb f b).cmtTs = b.cmtTs := rfl
@[simp] theorem updDb_cmtDue (f : Dbolt → Dbolt) (b : Block) : (updDb f b).cmtDue = b.cmtDue := rfl
@[simp] theorem updDb_iqWork (f : Dbolt → Dbolt) (b : Block) : (updDb f b).iqWork = b.iqWork := rfl
@[simp] theorem updDb_ents (f : Dbolt → Dbolt) (b : Block) : (updDb f b).ents = b.ents := rfl
@[simp] theorem updDb_wq (f : Dbolt → Dbolt) (b : Block) : (updDb f b).wq = b.wq := rfl
@[simp] theorem updDb_slots (f : Dbolt → Dbolt) (b : Block) : (updDb f b).slots = b.slots := rfl
@[simp] theorem updDb_ports (f : Dbolt → Dbolt) (b : Block) : (updDb f b).ports = b.ports := rfl
@[simp] theorem updDb_occ (f : Dbolt → Dbolt) (b : Block) : (updDb f b).occ = b.occ := rfl
@[simp] theorem updDb_place (f : Dbolt → Dbolt) (b : Block) : (updDb f b).place = b.place := rfl
@[simp] theorem updDb_gov (f : Dbolt → Dbolt) (b : Block) : (updDb f b).gov = b.gov := rfl
@[simp] theorem updDb_arb (f : Dbolt → Dbolt) (b : Block) : (updDb f b).arb = b.arb := rfl
@[simp] theorem updDb_rings (f : Dbolt → Dbolt) (b : Block) : (updDb f b).rings = b.rings := rfl
@[simp] theorem updDb_tdone (f : Dbolt → Dbolt) (b : Block) : (updDb f b).tdone = b.tdone := rfl
@[simp] theorem updDb_tens (f : Dbolt → Dbolt) (b : Block) : (updDb f b).tens = b.tens := rfl
@[simp] theorem updDb_segs (f : Dbolt → Dbolt) (b : Block) : (updDb f b).segs = b.segs := rfl
@[simp] theorem updDb_entq (f : Dbolt → Dbolt) (b : Block) : (updDb f b).entq = b.entq := rfl
@[simp] theorem updDb_pcls (f : Dbolt → Dbolt) (b : Block) : (updDb f b).pcls = b.pcls := rfl
@[simp] theorem updDb_hasps (f : Dbolt → Dbolt) (b : Block) : (updDb f b).hasps = b.hasps := rfl
@[simp] theorem updDb_waits (f : Dbolt → Dbolt) (b : Block) : (updDb f b).waits = b.waits := rfl
@[simp] theorem updDb_kpool (f : Dbolt → Dbolt) (b : Block) : (updDb f b).kpool = b.kpool := rfl
@[simp] theorem updDb_mq (f : Dbolt → Dbolt) (b : Block) : (updDb f b).mq = b.mq := rfl
@[simp] theorem updDb_mqPop (f : Dbolt → Dbolt) (b : Block) : (updDb f b).mqPop = b.mqPop := rfl
@[simp] theorem updDb_chans (f : Dbolt → Dbolt) (b : Block) : (updDb f b).chans = b.chans := rfl
@[simp] theorem updDb_rchans (f : Dbolt → Dbolt) (b : Block) : (updDb f b).rchans = b.rchans := rfl
@[simp] theorem updDb_storms (f : Dbolt → Dbolt) (b : Block) : (updDb f b).storms = b.storms := rfl
@[simp] theorem updDb_cq (f : Dbolt → Dbolt) (b : Block) : (updDb f b).cq = b.cq := rfl
@[simp] theorem updDb_cbParts (f : Dbolt → Dbolt) (b : Block) : (updDb f b).cbParts = b.cbParts := rfl
@[simp] theorem updDb_opdLast (f : Dbolt → Dbolt) (b : Block) : (updDb f b).opdLast = b.opdLast := rfl
@[simp] theorem updDb_preIgnored (f : Dbolt → Dbolt) (b : Block) : (updDb f b).preIgnored = b.preIgnored := rfl
@[simp] theorem updDb_resumeQ (f : Dbolt → Dbolt) (b : Block) : (updDb f b).resumeQ = b.resumeQ := rfl
@[simp] theorem updDb_lcIdleAt (f : Dbolt → Dbolt) (b : Block) : (updDb f b).lcIdleAt = b.lcIdleAt := rfl
@[simp] theorem updDb_hg (f : Dbolt → Dbolt) (b : Block) : (updDb f b).hg = b.hg := rfl
@[simp] theorem updDb_routes (f : Dbolt → Dbolt) (b : Block) : (updDb f b).routes = b.routes := rfl
@[simp] theorem updDb_unreach (f : Dbolt → Dbolt) (b : Block) : (updDb f b).unreach = b.unreach := rfl
@[simp] theorem updDb_fedt (f : Dbolt → Dbolt) (b : Block) : (updDb f b).fedt = b.fedt := rfl
@[simp] theorem updDb_remSegs (f : Dbolt → Dbolt) (b : Block) : (updDb f b).remSegs = b.remSegs := rfl
@[simp] theorem updDb_log (f : Dbolt → Dbolt) (b : Block) : (updDb f b).log = b.log := rfl
@[simp] theorem updDb_dbolt (f : Dbolt → Dbolt) (b : Block) : (updDb f b).dbolt = f b.dbolt := rfl
@[simp] theorem updDb_hang (f : Dbolt → Dbolt) (b : Block) : (updDb f b).hang = b.hang := rfl
@[simp] theorem updDb_dump (f : Dbolt → Dbolt) (b : Block) : (updDb f b).dump = b.dump := rfl
@[simp] theorem updDb_cap (f : Dbolt → Dbolt) (b : Block) : (updDb f b).cap = b.cap := rfl
@[simp] theorem updDb_ecc (f : Dbolt → Dbolt) (b : Block) : (updDb f b).ecc = b.ecc := rfl
@[simp] theorem updDb_evr (f : Dbolt → Dbolt) (b : Block) : (updDb f b).evr = b.evr := rfl
@[simp] theorem updDb_blk (f : Dbolt → Dbolt) (b : Block) : (updDb f b).blk = b.blk := rfl
@[simp] theorem updDb_trace (f : Dbolt → Dbolt) (b : Block) : (updDb f b).trace = b.trace := rfl
@[simp] theorem updDb_watch (f : Dbolt → Dbolt) (b : Block) : (updDb f b).watch = b.watch := rfl
@[simp] theorem updDb_tally (f : Dbolt → Dbolt) (b : Block) : (updDb f b).tally = b.tally := rfl
@[simp] theorem updDb_meter (f : Dbolt → Dbolt) (b : Block) : (updDb f b).meter = b.meter := rfl
@[simp] theorem updDb_xbar (f : Dbolt → Dbolt) (b : Block) : (updDb f b).xbar = b.xbar := rfl
@[simp] theorem updDb_out (f : Dbolt → Dbolt) (b : Block) : (updDb f b).out = b.out := rfl

@[simp] theorem updBoot_clk (f : Boot → Boot) (b : Block) : (updBoot f b).clk = b.clk := rfl
@[simp] theorem updBoot_boot (f : Boot → Boot) (b : Block) : (updBoot f b).boot = f b.boot := rfl
@[simp] theorem updBoot_mgt (f : Boot → Boot) (b : Block) : (updBoot f b).mgt = b.mgt := rfl
@[simp] theorem updBoot_regs (f : Boot → Boot) (b : Block) : (updBoot f b).regs = b.regs := rfl
@[simp] theorem updBoot_cnt (f : Boot → Boot) (b : Block) : (updBoot f b).cnt = b.cnt := rfl
@[simp] theorem updBoot_cntSh (f : Boot → Boot) (b : Block) : (updBoot f b).cntSh = b.cntSh := rfl
@[simp] theorem updBoot_snapAt (f : Boot → Boot) (b : Block) : (updBoot f b).snapAt = b.snapAt := rfl
@[simp] theorem updBoot_snapTs (f : Boot → Boot) (b : Block) : (updBoot f b).snapTs = b.snapTs := rfl
@[simp] theorem updBoot_cmtTs (f : Boot → Boot) (b : Block) : (updBoot f b).cmtTs = b.cmtTs := rfl
@[simp] theorem updBoot_cmtDue (f : Boot → Boot) (b : Block) : (updBoot f b).cmtDue = b.cmtDue := rfl
@[simp] theorem updBoot_iqWork (f : Boot → Boot) (b : Block) : (updBoot f b).iqWork = b.iqWork := rfl
@[simp] theorem updBoot_ents (f : Boot → Boot) (b : Block) : (updBoot f b).ents = b.ents := rfl
@[simp] theorem updBoot_wq (f : Boot → Boot) (b : Block) : (updBoot f b).wq = b.wq := rfl
@[simp] theorem updBoot_slots (f : Boot → Boot) (b : Block) : (updBoot f b).slots = b.slots := rfl
@[simp] theorem updBoot_ports (f : Boot → Boot) (b : Block) : (updBoot f b).ports = b.ports := rfl
@[simp] theorem updBoot_occ (f : Boot → Boot) (b : Block) : (updBoot f b).occ = b.occ := rfl
@[simp] theorem updBoot_place (f : Boot → Boot) (b : Block) : (updBoot f b).place = b.place := rfl
@[simp] theorem updBoot_gov (f : Boot → Boot) (b : Block) : (updBoot f b).gov = b.gov := rfl
@[simp] theorem updBoot_arb (f : Boot → Boot) (b : Block) : (updBoot f b).arb = b.arb := rfl
@[simp] theorem updBoot_rings (f : Boot → Boot) (b : Block) : (updBoot f b).rings = b.rings := rfl
@[simp] theorem updBoot_tdone (f : Boot → Boot) (b : Block) : (updBoot f b).tdone = b.tdone := rfl
@[simp] theorem updBoot_tens (f : Boot → Boot) (b : Block) : (updBoot f b).tens = b.tens := rfl
@[simp] theorem updBoot_segs (f : Boot → Boot) (b : Block) : (updBoot f b).segs = b.segs := rfl
@[simp] theorem updBoot_entq (f : Boot → Boot) (b : Block) : (updBoot f b).entq = b.entq := rfl
@[simp] theorem updBoot_pcls (f : Boot → Boot) (b : Block) : (updBoot f b).pcls = b.pcls := rfl
@[simp] theorem updBoot_hasps (f : Boot → Boot) (b : Block) : (updBoot f b).hasps = b.hasps := rfl
@[simp] theorem updBoot_waits (f : Boot → Boot) (b : Block) : (updBoot f b).waits = b.waits := rfl
@[simp] theorem updBoot_kpool (f : Boot → Boot) (b : Block) : (updBoot f b).kpool = b.kpool := rfl
@[simp] theorem updBoot_mq (f : Boot → Boot) (b : Block) : (updBoot f b).mq = b.mq := rfl
@[simp] theorem updBoot_mqPop (f : Boot → Boot) (b : Block) : (updBoot f b).mqPop = b.mqPop := rfl
@[simp] theorem updBoot_chans (f : Boot → Boot) (b : Block) : (updBoot f b).chans = b.chans := rfl
@[simp] theorem updBoot_rchans (f : Boot → Boot) (b : Block) : (updBoot f b).rchans = b.rchans := rfl
@[simp] theorem updBoot_storms (f : Boot → Boot) (b : Block) : (updBoot f b).storms = b.storms := rfl
@[simp] theorem updBoot_cq (f : Boot → Boot) (b : Block) : (updBoot f b).cq = b.cq := rfl
@[simp] theorem updBoot_cbParts (f : Boot → Boot) (b : Block) : (updBoot f b).cbParts = b.cbParts := rfl
@[simp] theorem updBoot_opdLast (f : Boot → Boot) (b : Block) : (updBoot f b).opdLast = b.opdLast := rfl
@[simp] theorem updBoot_preIgnored (f : Boot → Boot) (b : Block) : (updBoot f b).preIgnored = b.preIgnored := rfl
@[simp] theorem updBoot_resumeQ (f : Boot → Boot) (b : Block) : (updBoot f b).resumeQ = b.resumeQ := rfl
@[simp] theorem updBoot_lcIdleAt (f : Boot → Boot) (b : Block) : (updBoot f b).lcIdleAt = b.lcIdleAt := rfl
@[simp] theorem updBoot_hg (f : Boot → Boot) (b : Block) : (updBoot f b).hg = b.hg := rfl
@[simp] theorem updBoot_routes (f : Boot → Boot) (b : Block) : (updBoot f b).routes = b.routes := rfl
@[simp] theorem updBoot_unreach (f : Boot → Boot) (b : Block) : (updBoot f b).unreach = b.unreach := rfl
@[simp] theorem updBoot_fedt (f : Boot → Boot) (b : Block) : (updBoot f b).fedt = b.fedt := rfl
@[simp] theorem updBoot_remSegs (f : Boot → Boot) (b : Block) : (updBoot f b).remSegs = b.remSegs := rfl
@[simp] theorem updBoot_log (f : Boot → Boot) (b : Block) : (updBoot f b).log = b.log := rfl
@[simp] theorem updBoot_dbolt (f : Boot → Boot) (b : Block) : (updBoot f b).dbolt = b.dbolt := rfl
@[simp] theorem updBoot_hang (f : Boot → Boot) (b : Block) : (updBoot f b).hang = b.hang := rfl
@[simp] theorem updBoot_dump (f : Boot → Boot) (b : Block) : (updBoot f b).dump = b.dump := rfl
@[simp] theorem updBoot_cap (f : Boot → Boot) (b : Block) : (updBoot f b).cap = b.cap := rfl
@[simp] theorem updBoot_ecc (f : Boot → Boot) (b : Block) : (updBoot f b).ecc = b.ecc := rfl
@[simp] theorem updBoot_evr (f : Boot → Boot) (b : Block) : (updBoot f b).evr = b.evr := rfl
@[simp] theorem updBoot_blk (f : Boot → Boot) (b : Block) : (updBoot f b).blk = b.blk := rfl
@[simp] theorem updBoot_trace (f : Boot → Boot) (b : Block) : (updBoot f b).trace = b.trace := rfl
@[simp] theorem updBoot_watch (f : Boot → Boot) (b : Block) : (updBoot f b).watch = b.watch := rfl
@[simp] theorem updBoot_tally (f : Boot → Boot) (b : Block) : (updBoot f b).tally = b.tally := rfl
@[simp] theorem updBoot_meter (f : Boot → Boot) (b : Block) : (updBoot f b).meter = b.meter := rfl
@[simp] theorem updBoot_xbar (f : Boot → Boot) (b : Block) : (updBoot f b).xbar = b.xbar := rfl
@[simp] theorem updBoot_out (f : Boot → Boot) (b : Block) : (updBoot f b).out = b.out := rfl

@[simp] theorem updClk_clk (f : Clk → Clk) (b : Block) : (updClk f b).clk = f b.clk := rfl
@[simp] theorem updClk_boot (f : Clk → Clk) (b : Block) : (updClk f b).boot = b.boot := rfl
@[simp] theorem updClk_mgt (f : Clk → Clk) (b : Block) : (updClk f b).mgt = b.mgt := rfl
@[simp] theorem updClk_regs (f : Clk → Clk) (b : Block) : (updClk f b).regs = b.regs := rfl
@[simp] theorem updClk_cnt (f : Clk → Clk) (b : Block) : (updClk f b).cnt = b.cnt := rfl
@[simp] theorem updClk_cntSh (f : Clk → Clk) (b : Block) : (updClk f b).cntSh = b.cntSh := rfl
@[simp] theorem updClk_snapAt (f : Clk → Clk) (b : Block) : (updClk f b).snapAt = b.snapAt := rfl
@[simp] theorem updClk_snapTs (f : Clk → Clk) (b : Block) : (updClk f b).snapTs = b.snapTs := rfl
@[simp] theorem updClk_cmtTs (f : Clk → Clk) (b : Block) : (updClk f b).cmtTs = b.cmtTs := rfl
@[simp] theorem updClk_cmtDue (f : Clk → Clk) (b : Block) : (updClk f b).cmtDue = b.cmtDue := rfl
@[simp] theorem updClk_iqWork (f : Clk → Clk) (b : Block) : (updClk f b).iqWork = b.iqWork := rfl
@[simp] theorem updClk_ents (f : Clk → Clk) (b : Block) : (updClk f b).ents = b.ents := rfl
@[simp] theorem updClk_wq (f : Clk → Clk) (b : Block) : (updClk f b).wq = b.wq := rfl
@[simp] theorem updClk_slots (f : Clk → Clk) (b : Block) : (updClk f b).slots = b.slots := rfl
@[simp] theorem updClk_ports (f : Clk → Clk) (b : Block) : (updClk f b).ports = b.ports := rfl
@[simp] theorem updClk_occ (f : Clk → Clk) (b : Block) : (updClk f b).occ = b.occ := rfl
@[simp] theorem updClk_place (f : Clk → Clk) (b : Block) : (updClk f b).place = b.place := rfl
@[simp] theorem updClk_gov (f : Clk → Clk) (b : Block) : (updClk f b).gov = b.gov := rfl
@[simp] theorem updClk_arb (f : Clk → Clk) (b : Block) : (updClk f b).arb = b.arb := rfl
@[simp] theorem updClk_rings (f : Clk → Clk) (b : Block) : (updClk f b).rings = b.rings := rfl
@[simp] theorem updClk_tdone (f : Clk → Clk) (b : Block) : (updClk f b).tdone = b.tdone := rfl
@[simp] theorem updClk_tens (f : Clk → Clk) (b : Block) : (updClk f b).tens = b.tens := rfl
@[simp] theorem updClk_segs (f : Clk → Clk) (b : Block) : (updClk f b).segs = b.segs := rfl
@[simp] theorem updClk_entq (f : Clk → Clk) (b : Block) : (updClk f b).entq = b.entq := rfl
@[simp] theorem updClk_pcls (f : Clk → Clk) (b : Block) : (updClk f b).pcls = b.pcls := rfl
@[simp] theorem updClk_hasps (f : Clk → Clk) (b : Block) : (updClk f b).hasps = b.hasps := rfl
@[simp] theorem updClk_waits (f : Clk → Clk) (b : Block) : (updClk f b).waits = b.waits := rfl
@[simp] theorem updClk_kpool (f : Clk → Clk) (b : Block) : (updClk f b).kpool = b.kpool := rfl
@[simp] theorem updClk_mq (f : Clk → Clk) (b : Block) : (updClk f b).mq = b.mq := rfl
@[simp] theorem updClk_mqPop (f : Clk → Clk) (b : Block) : (updClk f b).mqPop = b.mqPop := rfl
@[simp] theorem updClk_chans (f : Clk → Clk) (b : Block) : (updClk f b).chans = b.chans := rfl
@[simp] theorem updClk_rchans (f : Clk → Clk) (b : Block) : (updClk f b).rchans = b.rchans := rfl
@[simp] theorem updClk_storms (f : Clk → Clk) (b : Block) : (updClk f b).storms = b.storms := rfl
@[simp] theorem updClk_cq (f : Clk → Clk) (b : Block) : (updClk f b).cq = b.cq := rfl
@[simp] theorem updClk_cbParts (f : Clk → Clk) (b : Block) : (updClk f b).cbParts = b.cbParts := rfl
@[simp] theorem updClk_opdLast (f : Clk → Clk) (b : Block) : (updClk f b).opdLast = b.opdLast := rfl
@[simp] theorem updClk_preIgnored (f : Clk → Clk) (b : Block) : (updClk f b).preIgnored = b.preIgnored := rfl
@[simp] theorem updClk_resumeQ (f : Clk → Clk) (b : Block) : (updClk f b).resumeQ = b.resumeQ := rfl
@[simp] theorem updClk_lcIdleAt (f : Clk → Clk) (b : Block) : (updClk f b).lcIdleAt = b.lcIdleAt := rfl
@[simp] theorem updClk_hg (f : Clk → Clk) (b : Block) : (updClk f b).hg = b.hg := rfl
@[simp] theorem updClk_routes (f : Clk → Clk) (b : Block) : (updClk f b).routes = b.routes := rfl
@[simp] theorem updClk_unreach (f : Clk → Clk) (b : Block) : (updClk f b).unreach = b.unreach := rfl
@[simp] theorem updClk_fedt (f : Clk → Clk) (b : Block) : (updClk f b).fedt = b.fedt := rfl
@[simp] theorem updClk_remSegs (f : Clk → Clk) (b : Block) : (updClk f b).remSegs = b.remSegs := rfl
@[simp] theorem updClk_log (f : Clk → Clk) (b : Block) : (updClk f b).log = b.log := rfl
@[simp] theorem updClk_dbolt (f : Clk → Clk) (b : Block) : (updClk f b).dbolt = b.dbolt := rfl
@[simp] theorem updClk_hang (f : Clk → Clk) (b : Block) : (updClk f b).hang = b.hang := rfl
@[simp] theorem updClk_dump (f : Clk → Clk) (b : Block) : (updClk f b).dump = b.dump := rfl
@[simp] theorem updClk_cap (f : Clk → Clk) (b : Block) : (updClk f b).cap = b.cap := rfl
@[simp] theorem updClk_ecc (f : Clk → Clk) (b : Block) : (updClk f b).ecc = b.ecc := rfl
@[simp] theorem updClk_evr (f : Clk → Clk) (b : Block) : (updClk f b).evr = b.evr := rfl
@[simp] theorem updClk_blk (f : Clk → Clk) (b : Block) : (updClk f b).blk = b.blk := rfl
@[simp] theorem updClk_trace (f : Clk → Clk) (b : Block) : (updClk f b).trace = b.trace := rfl
@[simp] theorem updClk_watch (f : Clk → Clk) (b : Block) : (updClk f b).watch = b.watch := rfl
@[simp] theorem updClk_tally (f : Clk → Clk) (b : Block) : (updClk f b).tally = b.tally := rfl
@[simp] theorem updClk_meter (f : Clk → Clk) (b : Block) : (updClk f b).meter = b.meter := rfl
@[simp] theorem updClk_xbar (f : Clk → Clk) (b : Block) : (updClk f b).xbar = b.xbar := rfl
@[simp] theorem updClk_out (f : Clk → Clk) (b : Block) : (updClk f b).out = b.out := rfl

@[simp] theorem updMgt_clk (f : Mgt → Mgt) (b : Block) : (updMgt f b).clk = b.clk := rfl
@[simp] theorem updMgt_boot (f : Mgt → Mgt) (b : Block) : (updMgt f b).boot = b.boot := rfl
@[simp] theorem updMgt_mgt (f : Mgt → Mgt) (b : Block) : (updMgt f b).mgt = f b.mgt := rfl
@[simp] theorem updMgt_regs (f : Mgt → Mgt) (b : Block) : (updMgt f b).regs = b.regs := rfl
@[simp] theorem updMgt_cnt (f : Mgt → Mgt) (b : Block) : (updMgt f b).cnt = b.cnt := rfl
@[simp] theorem updMgt_cntSh (f : Mgt → Mgt) (b : Block) : (updMgt f b).cntSh = b.cntSh := rfl
@[simp] theorem updMgt_snapAt (f : Mgt → Mgt) (b : Block) : (updMgt f b).snapAt = b.snapAt := rfl
@[simp] theorem updMgt_snapTs (f : Mgt → Mgt) (b : Block) : (updMgt f b).snapTs = b.snapTs := rfl
@[simp] theorem updMgt_cmtTs (f : Mgt → Mgt) (b : Block) : (updMgt f b).cmtTs = b.cmtTs := rfl
@[simp] theorem updMgt_cmtDue (f : Mgt → Mgt) (b : Block) : (updMgt f b).cmtDue = b.cmtDue := rfl
@[simp] theorem updMgt_iqWork (f : Mgt → Mgt) (b : Block) : (updMgt f b).iqWork = b.iqWork := rfl
@[simp] theorem updMgt_ents (f : Mgt → Mgt) (b : Block) : (updMgt f b).ents = b.ents := rfl
@[simp] theorem updMgt_wq (f : Mgt → Mgt) (b : Block) : (updMgt f b).wq = b.wq := rfl
@[simp] theorem updMgt_slots (f : Mgt → Mgt) (b : Block) : (updMgt f b).slots = b.slots := rfl
@[simp] theorem updMgt_ports (f : Mgt → Mgt) (b : Block) : (updMgt f b).ports = b.ports := rfl
@[simp] theorem updMgt_occ (f : Mgt → Mgt) (b : Block) : (updMgt f b).occ = b.occ := rfl
@[simp] theorem updMgt_place (f : Mgt → Mgt) (b : Block) : (updMgt f b).place = b.place := rfl
@[simp] theorem updMgt_gov (f : Mgt → Mgt) (b : Block) : (updMgt f b).gov = b.gov := rfl
@[simp] theorem updMgt_arb (f : Mgt → Mgt) (b : Block) : (updMgt f b).arb = b.arb := rfl
@[simp] theorem updMgt_rings (f : Mgt → Mgt) (b : Block) : (updMgt f b).rings = b.rings := rfl
@[simp] theorem updMgt_tdone (f : Mgt → Mgt) (b : Block) : (updMgt f b).tdone = b.tdone := rfl
@[simp] theorem updMgt_tens (f : Mgt → Mgt) (b : Block) : (updMgt f b).tens = b.tens := rfl
@[simp] theorem updMgt_segs (f : Mgt → Mgt) (b : Block) : (updMgt f b).segs = b.segs := rfl
@[simp] theorem updMgt_entq (f : Mgt → Mgt) (b : Block) : (updMgt f b).entq = b.entq := rfl
@[simp] theorem updMgt_pcls (f : Mgt → Mgt) (b : Block) : (updMgt f b).pcls = b.pcls := rfl
@[simp] theorem updMgt_hasps (f : Mgt → Mgt) (b : Block) : (updMgt f b).hasps = b.hasps := rfl
@[simp] theorem updMgt_waits (f : Mgt → Mgt) (b : Block) : (updMgt f b).waits = b.waits := rfl
@[simp] theorem updMgt_kpool (f : Mgt → Mgt) (b : Block) : (updMgt f b).kpool = b.kpool := rfl
@[simp] theorem updMgt_mq (f : Mgt → Mgt) (b : Block) : (updMgt f b).mq = b.mq := rfl
@[simp] theorem updMgt_mqPop (f : Mgt → Mgt) (b : Block) : (updMgt f b).mqPop = b.mqPop := rfl
@[simp] theorem updMgt_chans (f : Mgt → Mgt) (b : Block) : (updMgt f b).chans = b.chans := rfl
@[simp] theorem updMgt_rchans (f : Mgt → Mgt) (b : Block) : (updMgt f b).rchans = b.rchans := rfl
@[simp] theorem updMgt_storms (f : Mgt → Mgt) (b : Block) : (updMgt f b).storms = b.storms := rfl
@[simp] theorem updMgt_cq (f : Mgt → Mgt) (b : Block) : (updMgt f b).cq = b.cq := rfl
@[simp] theorem updMgt_cbParts (f : Mgt → Mgt) (b : Block) : (updMgt f b).cbParts = b.cbParts := rfl
@[simp] theorem updMgt_opdLast (f : Mgt → Mgt) (b : Block) : (updMgt f b).opdLast = b.opdLast := rfl
@[simp] theorem updMgt_preIgnored (f : Mgt → Mgt) (b : Block) : (updMgt f b).preIgnored = b.preIgnored := rfl
@[simp] theorem updMgt_resumeQ (f : Mgt → Mgt) (b : Block) : (updMgt f b).resumeQ = b.resumeQ := rfl
@[simp] theorem updMgt_lcIdleAt (f : Mgt → Mgt) (b : Block) : (updMgt f b).lcIdleAt = b.lcIdleAt := rfl
@[simp] theorem updMgt_hg (f : Mgt → Mgt) (b : Block) : (updMgt f b).hg = b.hg := rfl
@[simp] theorem updMgt_routes (f : Mgt → Mgt) (b : Block) : (updMgt f b).routes = b.routes := rfl
@[simp] theorem updMgt_unreach (f : Mgt → Mgt) (b : Block) : (updMgt f b).unreach = b.unreach := rfl
@[simp] theorem updMgt_fedt (f : Mgt → Mgt) (b : Block) : (updMgt f b).fedt = b.fedt := rfl
@[simp] theorem updMgt_remSegs (f : Mgt → Mgt) (b : Block) : (updMgt f b).remSegs = b.remSegs := rfl
@[simp] theorem updMgt_log (f : Mgt → Mgt) (b : Block) : (updMgt f b).log = b.log := rfl
@[simp] theorem updMgt_dbolt (f : Mgt → Mgt) (b : Block) : (updMgt f b).dbolt = b.dbolt := rfl
@[simp] theorem updMgt_hang (f : Mgt → Mgt) (b : Block) : (updMgt f b).hang = b.hang := rfl
@[simp] theorem updMgt_dump (f : Mgt → Mgt) (b : Block) : (updMgt f b).dump = b.dump := rfl
@[simp] theorem updMgt_cap (f : Mgt → Mgt) (b : Block) : (updMgt f b).cap = b.cap := rfl
@[simp] theorem updMgt_ecc (f : Mgt → Mgt) (b : Block) : (updMgt f b).ecc = b.ecc := rfl
@[simp] theorem updMgt_evr (f : Mgt → Mgt) (b : Block) : (updMgt f b).evr = b.evr := rfl
@[simp] theorem updMgt_blk (f : Mgt → Mgt) (b : Block) : (updMgt f b).blk = b.blk := rfl
@[simp] theorem updMgt_trace (f : Mgt → Mgt) (b : Block) : (updMgt f b).trace = b.trace := rfl
@[simp] theorem updMgt_watch (f : Mgt → Mgt) (b : Block) : (updMgt f b).watch = b.watch := rfl
@[simp] theorem updMgt_tally (f : Mgt → Mgt) (b : Block) : (updMgt f b).tally = b.tally := rfl
@[simp] theorem updMgt_meter (f : Mgt → Mgt) (b : Block) : (updMgt f b).meter = b.meter := rfl
@[simp] theorem updMgt_xbar (f : Mgt → Mgt) (b : Block) : (updMgt f b).xbar = b.xbar := rfl
@[simp] theorem updMgt_out (f : Mgt → Mgt) (b : Block) : (updMgt f b).out = b.out := rfl

@[simp] theorem updTr_clk (f : Trace → Trace) (b : Block) : (updTr f b).clk = b.clk := rfl
@[simp] theorem updTr_boot (f : Trace → Trace) (b : Block) : (updTr f b).boot = b.boot := rfl
@[simp] theorem updTr_mgt (f : Trace → Trace) (b : Block) : (updTr f b).mgt = b.mgt := rfl
@[simp] theorem updTr_regs (f : Trace → Trace) (b : Block) : (updTr f b).regs = b.regs := rfl
@[simp] theorem updTr_cnt (f : Trace → Trace) (b : Block) : (updTr f b).cnt = b.cnt := rfl
@[simp] theorem updTr_cntSh (f : Trace → Trace) (b : Block) : (updTr f b).cntSh = b.cntSh := rfl
@[simp] theorem updTr_snapAt (f : Trace → Trace) (b : Block) : (updTr f b).snapAt = b.snapAt := rfl
@[simp] theorem updTr_snapTs (f : Trace → Trace) (b : Block) : (updTr f b).snapTs = b.snapTs := rfl
@[simp] theorem updTr_cmtTs (f : Trace → Trace) (b : Block) : (updTr f b).cmtTs = b.cmtTs := rfl
@[simp] theorem updTr_cmtDue (f : Trace → Trace) (b : Block) : (updTr f b).cmtDue = b.cmtDue := rfl
@[simp] theorem updTr_iqWork (f : Trace → Trace) (b : Block) : (updTr f b).iqWork = b.iqWork := rfl
@[simp] theorem updTr_ents (f : Trace → Trace) (b : Block) : (updTr f b).ents = b.ents := rfl
@[simp] theorem updTr_wq (f : Trace → Trace) (b : Block) : (updTr f b).wq = b.wq := rfl
@[simp] theorem updTr_slots (f : Trace → Trace) (b : Block) : (updTr f b).slots = b.slots := rfl
@[simp] theorem updTr_ports (f : Trace → Trace) (b : Block) : (updTr f b).ports = b.ports := rfl
@[simp] theorem updTr_occ (f : Trace → Trace) (b : Block) : (updTr f b).occ = b.occ := rfl
@[simp] theorem updTr_place (f : Trace → Trace) (b : Block) : (updTr f b).place = b.place := rfl
@[simp] theorem updTr_gov (f : Trace → Trace) (b : Block) : (updTr f b).gov = b.gov := rfl
@[simp] theorem updTr_arb (f : Trace → Trace) (b : Block) : (updTr f b).arb = b.arb := rfl
@[simp] theorem updTr_rings (f : Trace → Trace) (b : Block) : (updTr f b).rings = b.rings := rfl
@[simp] theorem updTr_tdone (f : Trace → Trace) (b : Block) : (updTr f b).tdone = b.tdone := rfl
@[simp] theorem updTr_tens (f : Trace → Trace) (b : Block) : (updTr f b).tens = b.tens := rfl
@[simp] theorem updTr_segs (f : Trace → Trace) (b : Block) : (updTr f b).segs = b.segs := rfl
@[simp] theorem updTr_entq (f : Trace → Trace) (b : Block) : (updTr f b).entq = b.entq := rfl
@[simp] theorem updTr_pcls (f : Trace → Trace) (b : Block) : (updTr f b).pcls = b.pcls := rfl
@[simp] theorem updTr_hasps (f : Trace → Trace) (b : Block) : (updTr f b).hasps = b.hasps := rfl
@[simp] theorem updTr_waits (f : Trace → Trace) (b : Block) : (updTr f b).waits = b.waits := rfl
@[simp] theorem updTr_kpool (f : Trace → Trace) (b : Block) : (updTr f b).kpool = b.kpool := rfl
@[simp] theorem updTr_mq (f : Trace → Trace) (b : Block) : (updTr f b).mq = b.mq := rfl
@[simp] theorem updTr_mqPop (f : Trace → Trace) (b : Block) : (updTr f b).mqPop = b.mqPop := rfl
@[simp] theorem updTr_chans (f : Trace → Trace) (b : Block) : (updTr f b).chans = b.chans := rfl
@[simp] theorem updTr_rchans (f : Trace → Trace) (b : Block) : (updTr f b).rchans = b.rchans := rfl
@[simp] theorem updTr_storms (f : Trace → Trace) (b : Block) : (updTr f b).storms = b.storms := rfl
@[simp] theorem updTr_cq (f : Trace → Trace) (b : Block) : (updTr f b).cq = b.cq := rfl
@[simp] theorem updTr_cbParts (f : Trace → Trace) (b : Block) : (updTr f b).cbParts = b.cbParts := rfl
@[simp] theorem updTr_opdLast (f : Trace → Trace) (b : Block) : (updTr f b).opdLast = b.opdLast := rfl
@[simp] theorem updTr_preIgnored (f : Trace → Trace) (b : Block) : (updTr f b).preIgnored = b.preIgnored := rfl
@[simp] theorem updTr_resumeQ (f : Trace → Trace) (b : Block) : (updTr f b).resumeQ = b.resumeQ := rfl
@[simp] theorem updTr_lcIdleAt (f : Trace → Trace) (b : Block) : (updTr f b).lcIdleAt = b.lcIdleAt := rfl
@[simp] theorem updTr_hg (f : Trace → Trace) (b : Block) : (updTr f b).hg = b.hg := rfl
@[simp] theorem updTr_routes (f : Trace → Trace) (b : Block) : (updTr f b).routes = b.routes := rfl
@[simp] theorem updTr_unreach (f : Trace → Trace) (b : Block) : (updTr f b).unreach = b.unreach := rfl
@[simp] theorem updTr_fedt (f : Trace → Trace) (b : Block) : (updTr f b).fedt = b.fedt := rfl
@[simp] theorem updTr_remSegs (f : Trace → Trace) (b : Block) : (updTr f b).remSegs = b.remSegs := rfl
@[simp] theorem updTr_log (f : Trace → Trace) (b : Block) : (updTr f b).log = b.log := rfl
@[simp] theorem updTr_dbolt (f : Trace → Trace) (b : Block) : (updTr f b).dbolt = b.dbolt := rfl
@[simp] theorem updTr_hang (f : Trace → Trace) (b : Block) : (updTr f b).hang = b.hang := rfl
@[simp] theorem updTr_dump (f : Trace → Trace) (b : Block) : (updTr f b).dump = b.dump := rfl
@[simp] theorem updTr_cap (f : Trace → Trace) (b : Block) : (updTr f b).cap = b.cap := rfl
@[simp] theorem updTr_ecc (f : Trace → Trace) (b : Block) : (updTr f b).ecc = b.ecc := rfl
@[simp] theorem updTr_evr (f : Trace → Trace) (b : Block) : (updTr f b).evr = b.evr := rfl
@[simp] theorem updTr_blk (f : Trace → Trace) (b : Block) : (updTr f b).blk = b.blk := rfl
@[simp] theorem updTr_trace (f : Trace → Trace) (b : Block) : (updTr f b).trace = f b.trace := rfl
@[simp] theorem updTr_watch (f : Trace → Trace) (b : Block) : (updTr f b).watch = b.watch := rfl
@[simp] theorem updTr_tally (f : Trace → Trace) (b : Block) : (updTr f b).tally = b.tally := rfl
@[simp] theorem updTr_meter (f : Trace → Trace) (b : Block) : (updTr f b).meter = b.meter := rfl
@[simp] theorem updTr_xbar (f : Trace → Trace) (b : Block) : (updTr f b).xbar = b.xbar := rfl
@[simp] theorem updTr_out (f : Trace → Trace) (b : Block) : (updTr f b).out = b.out := rfl

@[simp] theorem updLog_clk (f : Log → Log) (b : Block) : (updLog f b).clk = b.clk := rfl
@[simp] theorem updLog_boot (f : Log → Log) (b : Block) : (updLog f b).boot = b.boot := rfl
@[simp] theorem updLog_mgt (f : Log → Log) (b : Block) : (updLog f b).mgt = b.mgt := rfl
@[simp] theorem updLog_regs (f : Log → Log) (b : Block) : (updLog f b).regs = b.regs := rfl
@[simp] theorem updLog_cnt (f : Log → Log) (b : Block) : (updLog f b).cnt = b.cnt := rfl
@[simp] theorem updLog_cntSh (f : Log → Log) (b : Block) : (updLog f b).cntSh = b.cntSh := rfl
@[simp] theorem updLog_snapAt (f : Log → Log) (b : Block) : (updLog f b).snapAt = b.snapAt := rfl
@[simp] theorem updLog_snapTs (f : Log → Log) (b : Block) : (updLog f b).snapTs = b.snapTs := rfl
@[simp] theorem updLog_cmtTs (f : Log → Log) (b : Block) : (updLog f b).cmtTs = b.cmtTs := rfl
@[simp] theorem updLog_cmtDue (f : Log → Log) (b : Block) : (updLog f b).cmtDue = b.cmtDue := rfl
@[simp] theorem updLog_iqWork (f : Log → Log) (b : Block) : (updLog f b).iqWork = b.iqWork := rfl
@[simp] theorem updLog_ents (f : Log → Log) (b : Block) : (updLog f b).ents = b.ents := rfl
@[simp] theorem updLog_wq (f : Log → Log) (b : Block) : (updLog f b).wq = b.wq := rfl
@[simp] theorem updLog_slots (f : Log → Log) (b : Block) : (updLog f b).slots = b.slots := rfl
@[simp] theorem updLog_ports (f : Log → Log) (b : Block) : (updLog f b).ports = b.ports := rfl
@[simp] theorem updLog_occ (f : Log → Log) (b : Block) : (updLog f b).occ = b.occ := rfl
@[simp] theorem updLog_place (f : Log → Log) (b : Block) : (updLog f b).place = b.place := rfl
@[simp] theorem updLog_gov (f : Log → Log) (b : Block) : (updLog f b).gov = b.gov := rfl
@[simp] theorem updLog_arb (f : Log → Log) (b : Block) : (updLog f b).arb = b.arb := rfl
@[simp] theorem updLog_rings (f : Log → Log) (b : Block) : (updLog f b).rings = b.rings := rfl
@[simp] theorem updLog_tdone (f : Log → Log) (b : Block) : (updLog f b).tdone = b.tdone := rfl
@[simp] theorem updLog_tens (f : Log → Log) (b : Block) : (updLog f b).tens = b.tens := rfl
@[simp] theorem updLog_segs (f : Log → Log) (b : Block) : (updLog f b).segs = b.segs := rfl
@[simp] theorem updLog_entq (f : Log → Log) (b : Block) : (updLog f b).entq = b.entq := rfl
@[simp] theorem updLog_pcls (f : Log → Log) (b : Block) : (updLog f b).pcls = b.pcls := rfl
@[simp] theorem updLog_hasps (f : Log → Log) (b : Block) : (updLog f b).hasps = b.hasps := rfl
@[simp] theorem updLog_waits (f : Log → Log) (b : Block) : (updLog f b).waits = b.waits := rfl
@[simp] theorem updLog_kpool (f : Log → Log) (b : Block) : (updLog f b).kpool = b.kpool := rfl
@[simp] theorem updLog_mq (f : Log → Log) (b : Block) : (updLog f b).mq = b.mq := rfl
@[simp] theorem updLog_mqPop (f : Log → Log) (b : Block) : (updLog f b).mqPop = b.mqPop := rfl
@[simp] theorem updLog_chans (f : Log → Log) (b : Block) : (updLog f b).chans = b.chans := rfl
@[simp] theorem updLog_rchans (f : Log → Log) (b : Block) : (updLog f b).rchans = b.rchans := rfl
@[simp] theorem updLog_storms (f : Log → Log) (b : Block) : (updLog f b).storms = b.storms := rfl
@[simp] theorem updLog_cq (f : Log → Log) (b : Block) : (updLog f b).cq = b.cq := rfl
@[simp] theorem updLog_cbParts (f : Log → Log) (b : Block) : (updLog f b).cbParts = b.cbParts := rfl
@[simp] theorem updLog_opdLast (f : Log → Log) (b : Block) : (updLog f b).opdLast = b.opdLast := rfl
@[simp] theorem updLog_preIgnored (f : Log → Log) (b : Block) : (updLog f b).preIgnored = b.preIgnored := rfl
@[simp] theorem updLog_resumeQ (f : Log → Log) (b : Block) : (updLog f b).resumeQ = b.resumeQ := rfl
@[simp] theorem updLog_lcIdleAt (f : Log → Log) (b : Block) : (updLog f b).lcIdleAt = b.lcIdleAt := rfl
@[simp] theorem updLog_hg (f : Log → Log) (b : Block) : (updLog f b).hg = b.hg := rfl
@[simp] theorem updLog_routes (f : Log → Log) (b : Block) : (updLog f b).routes = b.routes := rfl
@[simp] theorem updLog_unreach (f : Log → Log) (b : Block) : (updLog f b).unreach = b.unreach := rfl
@[simp] theorem updLog_fedt (f : Log → Log) (b : Block) : (updLog f b).fedt = b.fedt := rfl
@[simp] theorem updLog_remSegs (f : Log → Log) (b : Block) : (updLog f b).remSegs = b.remSegs := rfl
@[simp] theorem updLog_log (f : Log → Log) (b : Block) : (updLog f b).log = f b.log := rfl
@[simp] theorem updLog_dbolt (f : Log → Log) (b : Block) : (updLog f b).dbolt = b.dbolt := rfl
@[simp] theorem updLog_hang (f : Log → Log) (b : Block) : (updLog f b).hang = b.hang := rfl
@[simp] theorem updLog_dump (f : Log → Log) (b : Block) : (updLog f b).dump = b.dump := rfl
@[simp] theorem updLog_cap (f : Log → Log) (b : Block) : (updLog f b).cap = b.cap := rfl
@[simp] theorem updLog_ecc (f : Log → Log) (b : Block) : (updLog f b).ecc = b.ecc := rfl
@[simp] theorem updLog_evr (f : Log → Log) (b : Block) : (updLog f b).evr = b.evr := rfl
@[simp] theorem updLog_blk (f : Log → Log) (b : Block) : (updLog f b).blk = b.blk := rfl
@[simp] theorem updLog_trace (f : Log → Log) (b : Block) : (updLog f b).trace = b.trace := rfl
@[simp] theorem updLog_watch (f : Log → Log) (b : Block) : (updLog f b).watch = b.watch := rfl
@[simp] theorem updLog_tally (f : Log → Log) (b : Block) : (updLog f b).tally = b.tally := rfl
@[simp] theorem updLog_meter (f : Log → Log) (b : Block) : (updLog f b).meter = b.meter := rfl
@[simp] theorem updLog_xbar (f : Log → Log) (b : Block) : (updLog f b).xbar = b.xbar := rfl
@[simp] theorem updLog_out (f : Log → Log) (b : Block) : (updLog f b).out = b.out := rfl

@[simp] theorem updMeter_clk (f : Meter → Meter) (b : Block) : (updMeter f b).clk = b.clk := rfl
@[simp] theorem updMeter_boot (f : Meter → Meter) (b : Block) : (updMeter f b).boot = b.boot := rfl
@[simp] theorem updMeter_mgt (f : Meter → Meter) (b : Block) : (updMeter f b).mgt = b.mgt := rfl
@[simp] theorem updMeter_regs (f : Meter → Meter) (b : Block) : (updMeter f b).regs = b.regs := rfl
@[simp] theorem updMeter_cnt (f : Meter → Meter) (b : Block) : (updMeter f b).cnt = b.cnt := rfl
@[simp] theorem updMeter_cntSh (f : Meter → Meter) (b : Block) : (updMeter f b).cntSh = b.cntSh := rfl
@[simp] theorem updMeter_snapAt (f : Meter → Meter) (b : Block) : (updMeter f b).snapAt = b.snapAt := rfl
@[simp] theorem updMeter_snapTs (f : Meter → Meter) (b : Block) : (updMeter f b).snapTs = b.snapTs := rfl
@[simp] theorem updMeter_cmtTs (f : Meter → Meter) (b : Block) : (updMeter f b).cmtTs = b.cmtTs := rfl
@[simp] theorem updMeter_cmtDue (f : Meter → Meter) (b : Block) : (updMeter f b).cmtDue = b.cmtDue := rfl
@[simp] theorem updMeter_iqWork (f : Meter → Meter) (b : Block) : (updMeter f b).iqWork = b.iqWork := rfl
@[simp] theorem updMeter_ents (f : Meter → Meter) (b : Block) : (updMeter f b).ents = b.ents := rfl
@[simp] theorem updMeter_wq (f : Meter → Meter) (b : Block) : (updMeter f b).wq = b.wq := rfl
@[simp] theorem updMeter_slots (f : Meter → Meter) (b : Block) : (updMeter f b).slots = b.slots := rfl
@[simp] theorem updMeter_ports (f : Meter → Meter) (b : Block) : (updMeter f b).ports = b.ports := rfl
@[simp] theorem updMeter_occ (f : Meter → Meter) (b : Block) : (updMeter f b).occ = b.occ := rfl
@[simp] theorem updMeter_place (f : Meter → Meter) (b : Block) : (updMeter f b).place = b.place := rfl
@[simp] theorem updMeter_gov (f : Meter → Meter) (b : Block) : (updMeter f b).gov = b.gov := rfl
@[simp] theorem updMeter_arb (f : Meter → Meter) (b : Block) : (updMeter f b).arb = b.arb := rfl
@[simp] theorem updMeter_rings (f : Meter → Meter) (b : Block) : (updMeter f b).rings = b.rings := rfl
@[simp] theorem updMeter_tdone (f : Meter → Meter) (b : Block) : (updMeter f b).tdone = b.tdone := rfl
@[simp] theorem updMeter_tens (f : Meter → Meter) (b : Block) : (updMeter f b).tens = b.tens := rfl
@[simp] theorem updMeter_segs (f : Meter → Meter) (b : Block) : (updMeter f b).segs = b.segs := rfl
@[simp] theorem updMeter_entq (f : Meter → Meter) (b : Block) : (updMeter f b).entq = b.entq := rfl
@[simp] theorem updMeter_pcls (f : Meter → Meter) (b : Block) : (updMeter f b).pcls = b.pcls := rfl
@[simp] theorem updMeter_hasps (f : Meter → Meter) (b : Block) : (updMeter f b).hasps = b.hasps := rfl
@[simp] theorem updMeter_waits (f : Meter → Meter) (b : Block) : (updMeter f b).waits = b.waits := rfl
@[simp] theorem updMeter_kpool (f : Meter → Meter) (b : Block) : (updMeter f b).kpool = b.kpool := rfl
@[simp] theorem updMeter_mq (f : Meter → Meter) (b : Block) : (updMeter f b).mq = b.mq := rfl
@[simp] theorem updMeter_mqPop (f : Meter → Meter) (b : Block) : (updMeter f b).mqPop = b.mqPop := rfl
@[simp] theorem updMeter_chans (f : Meter → Meter) (b : Block) : (updMeter f b).chans = b.chans := rfl
@[simp] theorem updMeter_rchans (f : Meter → Meter) (b : Block) : (updMeter f b).rchans = b.rchans := rfl
@[simp] theorem updMeter_storms (f : Meter → Meter) (b : Block) : (updMeter f b).storms = b.storms := rfl
@[simp] theorem updMeter_cq (f : Meter → Meter) (b : Block) : (updMeter f b).cq = b.cq := rfl
@[simp] theorem updMeter_cbParts (f : Meter → Meter) (b : Block) : (updMeter f b).cbParts = b.cbParts := rfl
@[simp] theorem updMeter_opdLast (f : Meter → Meter) (b : Block) : (updMeter f b).opdLast = b.opdLast := rfl
@[simp] theorem updMeter_preIgnored (f : Meter → Meter) (b : Block) : (updMeter f b).preIgnored = b.preIgnored := rfl
@[simp] theorem updMeter_resumeQ (f : Meter → Meter) (b : Block) : (updMeter f b).resumeQ = b.resumeQ := rfl
@[simp] theorem updMeter_lcIdleAt (f : Meter → Meter) (b : Block) : (updMeter f b).lcIdleAt = b.lcIdleAt := rfl
@[simp] theorem updMeter_hg (f : Meter → Meter) (b : Block) : (updMeter f b).hg = b.hg := rfl
@[simp] theorem updMeter_routes (f : Meter → Meter) (b : Block) : (updMeter f b).routes = b.routes := rfl
@[simp] theorem updMeter_unreach (f : Meter → Meter) (b : Block) : (updMeter f b).unreach = b.unreach := rfl
@[simp] theorem updMeter_fedt (f : Meter → Meter) (b : Block) : (updMeter f b).fedt = b.fedt := rfl
@[simp] theorem updMeter_remSegs (f : Meter → Meter) (b : Block) : (updMeter f b).remSegs = b.remSegs := rfl
@[simp] theorem updMeter_log (f : Meter → Meter) (b : Block) : (updMeter f b).log = b.log := rfl
@[simp] theorem updMeter_dbolt (f : Meter → Meter) (b : Block) : (updMeter f b).dbolt = b.dbolt := rfl
@[simp] theorem updMeter_hang (f : Meter → Meter) (b : Block) : (updMeter f b).hang = b.hang := rfl
@[simp] theorem updMeter_dump (f : Meter → Meter) (b : Block) : (updMeter f b).dump = b.dump := rfl
@[simp] theorem updMeter_cap (f : Meter → Meter) (b : Block) : (updMeter f b).cap = b.cap := rfl
@[simp] theorem updMeter_ecc (f : Meter → Meter) (b : Block) : (updMeter f b).ecc = b.ecc := rfl
@[simp] theorem updMeter_evr (f : Meter → Meter) (b : Block) : (updMeter f b).evr = b.evr := rfl
@[simp] theorem updMeter_blk (f : Meter → Meter) (b : Block) : (updMeter f b).blk = b.blk := rfl
@[simp] theorem updMeter_trace (f : Meter → Meter) (b : Block) : (updMeter f b).trace = b.trace := rfl
@[simp] theorem updMeter_watch (f : Meter → Meter) (b : Block) : (updMeter f b).watch = b.watch := rfl
@[simp] theorem updMeter_tally (f : Meter → Meter) (b : Block) : (updMeter f b).tally = b.tally := rfl
@[simp] theorem updMeter_meter (f : Meter → Meter) (b : Block) : (updMeter f b).meter = f b.meter := rfl
@[simp] theorem updMeter_xbar (f : Meter → Meter) (b : Block) : (updMeter f b).xbar = b.xbar := rfl
@[simp] theorem updMeter_out (f : Meter → Meter) (b : Block) : (updMeter f b).out = b.out := rfl

@[simp] theorem emit_clk (o : Out) (b : Block) : (emit o b).clk = b.clk := rfl
@[simp] theorem emit_boot (o : Out) (b : Block) : (emit o b).boot = b.boot := rfl
@[simp] theorem emit_mgt (o : Out) (b : Block) : (emit o b).mgt = b.mgt := rfl
@[simp] theorem emit_regs (o : Out) (b : Block) : (emit o b).regs = b.regs := rfl
@[simp] theorem emit_cnt (o : Out) (b : Block) : (emit o b).cnt = b.cnt := rfl
@[simp] theorem emit_cntSh (o : Out) (b : Block) : (emit o b).cntSh = b.cntSh := rfl
@[simp] theorem emit_snapAt (o : Out) (b : Block) : (emit o b).snapAt = b.snapAt := rfl
@[simp] theorem emit_snapTs (o : Out) (b : Block) : (emit o b).snapTs = b.snapTs := rfl
@[simp] theorem emit_cmtTs (o : Out) (b : Block) : (emit o b).cmtTs = b.cmtTs := rfl
@[simp] theorem emit_cmtDue (o : Out) (b : Block) : (emit o b).cmtDue = b.cmtDue := rfl
@[simp] theorem emit_iqWork (o : Out) (b : Block) : (emit o b).iqWork = b.iqWork := rfl
@[simp] theorem emit_ents (o : Out) (b : Block) : (emit o b).ents = b.ents := rfl
@[simp] theorem emit_wq (o : Out) (b : Block) : (emit o b).wq = b.wq := rfl
@[simp] theorem emit_slots (o : Out) (b : Block) : (emit o b).slots = b.slots := rfl
@[simp] theorem emit_ports (o : Out) (b : Block) : (emit o b).ports = b.ports := rfl
@[simp] theorem emit_occ (o : Out) (b : Block) : (emit o b).occ = b.occ := rfl
@[simp] theorem emit_place (o : Out) (b : Block) : (emit o b).place = b.place := rfl
@[simp] theorem emit_gov (o : Out) (b : Block) : (emit o b).gov = b.gov := rfl
@[simp] theorem emit_arb (o : Out) (b : Block) : (emit o b).arb = b.arb := rfl
@[simp] theorem emit_rings (o : Out) (b : Block) : (emit o b).rings = b.rings := rfl
@[simp] theorem emit_tdone (o : Out) (b : Block) : (emit o b).tdone = b.tdone := rfl
@[simp] theorem emit_tens (o : Out) (b : Block) : (emit o b).tens = b.tens := rfl
@[simp] theorem emit_segs (o : Out) (b : Block) : (emit o b).segs = b.segs := rfl
@[simp] theorem emit_entq (o : Out) (b : Block) : (emit o b).entq = b.entq := rfl
@[simp] theorem emit_pcls (o : Out) (b : Block) : (emit o b).pcls = b.pcls := rfl
@[simp] theorem emit_hasps (o : Out) (b : Block) : (emit o b).hasps = b.hasps := rfl
@[simp] theorem emit_waits (o : Out) (b : Block) : (emit o b).waits = b.waits := rfl
@[simp] theorem emit_kpool (o : Out) (b : Block) : (emit o b).kpool = b.kpool := rfl
@[simp] theorem emit_mq (o : Out) (b : Block) : (emit o b).mq = b.mq := rfl
@[simp] theorem emit_mqPop (o : Out) (b : Block) : (emit o b).mqPop = b.mqPop := rfl
@[simp] theorem emit_chans (o : Out) (b : Block) : (emit o b).chans = b.chans := rfl
@[simp] theorem emit_rchans (o : Out) (b : Block) : (emit o b).rchans = b.rchans := rfl
@[simp] theorem emit_storms (o : Out) (b : Block) : (emit o b).storms = b.storms := rfl
@[simp] theorem emit_cq (o : Out) (b : Block) : (emit o b).cq = b.cq := rfl
@[simp] theorem emit_cbParts (o : Out) (b : Block) : (emit o b).cbParts = b.cbParts := rfl
@[simp] theorem emit_opdLast (o : Out) (b : Block) : (emit o b).opdLast = b.opdLast := rfl
@[simp] theorem emit_preIgnored (o : Out) (b : Block) : (emit o b).preIgnored = b.preIgnored := rfl
@[simp] theorem emit_resumeQ (o : Out) (b : Block) : (emit o b).resumeQ = b.resumeQ := rfl
@[simp] theorem emit_lcIdleAt (o : Out) (b : Block) : (emit o b).lcIdleAt = b.lcIdleAt := rfl
@[simp] theorem emit_hg (o : Out) (b : Block) : (emit o b).hg = b.hg := rfl
@[simp] theorem emit_routes (o : Out) (b : Block) : (emit o b).routes = b.routes := rfl
@[simp] theorem emit_unreach (o : Out) (b : Block) : (emit o b).unreach = b.unreach := rfl
@[simp] theorem emit_fedt (o : Out) (b : Block) : (emit o b).fedt = b.fedt := rfl
@[simp] theorem emit_remSegs (o : Out) (b : Block) : (emit o b).remSegs = b.remSegs := rfl
@[simp] theorem emit_log (o : Out) (b : Block) : (emit o b).log = b.log := rfl
@[simp] theorem emit_dbolt (o : Out) (b : Block) : (emit o b).dbolt = b.dbolt := rfl
@[simp] theorem emit_hang (o : Out) (b : Block) : (emit o b).hang = b.hang := rfl
@[simp] theorem emit_dump (o : Out) (b : Block) : (emit o b).dump = b.dump := rfl
@[simp] theorem emit_cap (o : Out) (b : Block) : (emit o b).cap = b.cap := rfl
@[simp] theorem emit_ecc (o : Out) (b : Block) : (emit o b).ecc = b.ecc := rfl
@[simp] theorem emit_evr (o : Out) (b : Block) : (emit o b).evr = b.evr := rfl
@[simp] theorem emit_blk (o : Out) (b : Block) : (emit o b).blk = b.blk := rfl
@[simp] theorem emit_trace (o : Out) (b : Block) : (emit o b).trace = b.trace := rfl
@[simp] theorem emit_watch (o : Out) (b : Block) : (emit o b).watch = b.watch := rfl
@[simp] theorem emit_tally (o : Out) (b : Block) : (emit o b).tally = b.tally := rfl
@[simp] theorem emit_meter (o : Out) (b : Block) : (emit o b).meter = b.meter := rfl
@[simp] theorem emit_xbar (o : Out) (b : Block) : (emit o b).xbar = b.xbar := rfl
@[simp] theorem emit_out (o : Out) (b : Block) : (emit o b).out = b.out ++ [o] := rfl

@[simp] theorem xput_clk (i : XItem) (b : Block) : (xput i b).clk = b.clk := rfl
@[simp] theorem xput_boot (i : XItem) (b : Block) : (xput i b).boot = b.boot := rfl
@[simp] theorem xput_mgt (i : XItem) (b : Block) : (xput i b).mgt = b.mgt := rfl
@[simp] theorem xput_regs (i : XItem) (b : Block) : (xput i b).regs = b.regs := rfl
@[simp] theorem xput_cnt (i : XItem) (b : Block) : (xput i b).cnt = b.cnt := rfl
@[simp] theorem xput_cntSh (i : XItem) (b : Block) : (xput i b).cntSh = b.cntSh := rfl
@[simp] theorem xput_snapAt (i : XItem) (b : Block) : (xput i b).snapAt = b.snapAt := rfl
@[simp] theorem xput_snapTs (i : XItem) (b : Block) : (xput i b).snapTs = b.snapTs := rfl
@[simp] theorem xput_cmtTs (i : XItem) (b : Block) : (xput i b).cmtTs = b.cmtTs := rfl
@[simp] theorem xput_cmtDue (i : XItem) (b : Block) : (xput i b).cmtDue = b.cmtDue := rfl
@[simp] theorem xput_iqWork (i : XItem) (b : Block) : (xput i b).iqWork = b.iqWork := rfl
@[simp] theorem xput_ents (i : XItem) (b : Block) : (xput i b).ents = b.ents := rfl
@[simp] theorem xput_wq (i : XItem) (b : Block) : (xput i b).wq = b.wq := rfl
@[simp] theorem xput_slots (i : XItem) (b : Block) : (xput i b).slots = b.slots := rfl
@[simp] theorem xput_ports (i : XItem) (b : Block) : (xput i b).ports = b.ports := rfl
@[simp] theorem xput_occ (i : XItem) (b : Block) : (xput i b).occ = b.occ := rfl
@[simp] theorem xput_place (i : XItem) (b : Block) : (xput i b).place = b.place := rfl
@[simp] theorem xput_gov (i : XItem) (b : Block) : (xput i b).gov = b.gov := rfl
@[simp] theorem xput_arb (i : XItem) (b : Block) : (xput i b).arb = b.arb := rfl
@[simp] theorem xput_rings (i : XItem) (b : Block) : (xput i b).rings = b.rings := rfl
@[simp] theorem xput_tdone (i : XItem) (b : Block) : (xput i b).tdone = b.tdone := rfl
@[simp] theorem xput_tens (i : XItem) (b : Block) : (xput i b).tens = b.tens := rfl
@[simp] theorem xput_segs (i : XItem) (b : Block) : (xput i b).segs = b.segs := rfl
@[simp] theorem xput_entq (i : XItem) (b : Block) : (xput i b).entq = b.entq := rfl
@[simp] theorem xput_pcls (i : XItem) (b : Block) : (xput i b).pcls = b.pcls := rfl
@[simp] theorem xput_hasps (i : XItem) (b : Block) : (xput i b).hasps = b.hasps := rfl
@[simp] theorem xput_waits (i : XItem) (b : Block) : (xput i b).waits = b.waits := rfl
@[simp] theorem xput_kpool (i : XItem) (b : Block) : (xput i b).kpool = b.kpool := rfl
@[simp] theorem xput_mq (i : XItem) (b : Block) : (xput i b).mq = b.mq := rfl
@[simp] theorem xput_mqPop (i : XItem) (b : Block) : (xput i b).mqPop = b.mqPop := rfl
@[simp] theorem xput_chans (i : XItem) (b : Block) : (xput i b).chans = b.chans := rfl
@[simp] theorem xput_rchans (i : XItem) (b : Block) : (xput i b).rchans = b.rchans := rfl
@[simp] theorem xput_storms (i : XItem) (b : Block) : (xput i b).storms = b.storms := rfl
@[simp] theorem xput_cq (i : XItem) (b : Block) : (xput i b).cq = b.cq := rfl
@[simp] theorem xput_cbParts (i : XItem) (b : Block) : (xput i b).cbParts = b.cbParts := rfl
@[simp] theorem xput_opdLast (i : XItem) (b : Block) : (xput i b).opdLast = b.opdLast := rfl
@[simp] theorem xput_preIgnored (i : XItem) (b : Block) : (xput i b).preIgnored = b.preIgnored := rfl
@[simp] theorem xput_resumeQ (i : XItem) (b : Block) : (xput i b).resumeQ = b.resumeQ := rfl
@[simp] theorem xput_lcIdleAt (i : XItem) (b : Block) : (xput i b).lcIdleAt = b.lcIdleAt := rfl
@[simp] theorem xput_hg (i : XItem) (b : Block) : (xput i b).hg = b.hg := rfl
@[simp] theorem xput_routes (i : XItem) (b : Block) : (xput i b).routes = b.routes := rfl
@[simp] theorem xput_unreach (i : XItem) (b : Block) : (xput i b).unreach = b.unreach := rfl
@[simp] theorem xput_fedt (i : XItem) (b : Block) : (xput i b).fedt = b.fedt := rfl
@[simp] theorem xput_remSegs (i : XItem) (b : Block) : (xput i b).remSegs = b.remSegs := rfl
@[simp] theorem xput_log (i : XItem) (b : Block) : (xput i b).log = b.log := rfl
@[simp] theorem xput_dbolt (i : XItem) (b : Block) : (xput i b).dbolt = b.dbolt := rfl
@[simp] theorem xput_hang (i : XItem) (b : Block) : (xput i b).hang = b.hang := rfl
@[simp] theorem xput_dump (i : XItem) (b : Block) : (xput i b).dump = b.dump := rfl
@[simp] theorem xput_cap (i : XItem) (b : Block) : (xput i b).cap = b.cap := rfl
@[simp] theorem xput_ecc (i : XItem) (b : Block) : (xput i b).ecc = b.ecc := rfl
@[simp] theorem xput_evr (i : XItem) (b : Block) : (xput i b).evr = b.evr := rfl
@[simp] theorem xput_blk (i : XItem) (b : Block) : (xput i b).blk = b.blk := rfl
@[simp] theorem xput_trace (i : XItem) (b : Block) : (xput i b).trace = b.trace := rfl
@[simp] theorem xput_watch (i : XItem) (b : Block) : (xput i b).watch = b.watch := rfl
@[simp] theorem xput_tally (i : XItem) (b : Block) : (xput i b).tally = b.tally := rfl
@[simp] theorem xput_meter (i : XItem) (b : Block) : (xput i b).meter = b.meter := rfl
@[simp] theorem xput_xbar (i : XItem) (b : Block) : (xput i b).xbar = b.xbar ++ [i] := rfl
@[simp] theorem xput_out (i : XItem) (b : Block) : (xput i b).out = b.out := rfl

@[simp] theorem tookSeq_boot  (b : Block) : (tookSeq  b).boot = b.boot := rfl
@[simp] theorem tookSeq_mgt  (b : Block) : (tookSeq  b).mgt = b.mgt := rfl
@[simp] theorem tookSeq_regs  (b : Block) : (tookSeq  b).regs = b.regs := rfl
@[simp] theorem tookSeq_cnt  (b : Block) : (tookSeq  b).cnt = b.cnt := rfl
@[simp] theorem tookSeq_cntSh  (b : Block) : (tookSeq  b).cntSh = b.cntSh := rfl
@[simp] theorem tookSeq_snapAt  (b : Block) : (tookSeq  b).snapAt = b.snapAt := rfl
@[simp] theorem tookSeq_snapTs  (b : Block) : (tookSeq  b).snapTs = b.snapTs := rfl
@[simp] theorem tookSeq_cmtTs  (b : Block) : (tookSeq  b).cmtTs = b.cmtTs := rfl
@[simp] theorem tookSeq_cmtDue  (b : Block) : (tookSeq  b).cmtDue = b.cmtDue := rfl
@[simp] theorem tookSeq_iqWork  (b : Block) : (tookSeq  b).iqWork = b.iqWork := rfl
@[simp] theorem tookSeq_ents  (b : Block) : (tookSeq  b).ents = b.ents := rfl
@[simp] theorem tookSeq_wq  (b : Block) : (tookSeq  b).wq = b.wq := rfl
@[simp] theorem tookSeq_slots  (b : Block) : (tookSeq  b).slots = b.slots := rfl
@[simp] theorem tookSeq_ports  (b : Block) : (tookSeq  b).ports = b.ports := rfl
@[simp] theorem tookSeq_occ  (b : Block) : (tookSeq  b).occ = b.occ := rfl
@[simp] theorem tookSeq_place  (b : Block) : (tookSeq  b).place = b.place := rfl
@[simp] theorem tookSeq_gov  (b : Block) : (tookSeq  b).gov = b.gov := rfl
@[simp] theorem tookSeq_arb  (b : Block) : (tookSeq  b).arb = b.arb := rfl
@[simp] theorem tookSeq_rings  (b : Block) : (tookSeq  b).rings = b.rings := rfl
@[simp] theorem tookSeq_tdone  (b : Block) : (tookSeq  b).tdone = b.tdone := rfl
@[simp] theorem tookSeq_tens  (b : Block) : (tookSeq  b).tens = b.tens := rfl
@[simp] theorem tookSeq_segs  (b : Block) : (tookSeq  b).segs = b.segs := rfl
@[simp] theorem tookSeq_entq  (b : Block) : (tookSeq  b).entq = b.entq := rfl
@[simp] theorem tookSeq_pcls  (b : Block) : (tookSeq  b).pcls = b.pcls := rfl
@[simp] theorem tookSeq_hasps  (b : Block) : (tookSeq  b).hasps = b.hasps := rfl
@[simp] theorem tookSeq_waits  (b : Block) : (tookSeq  b).waits = b.waits := rfl
@[simp] theorem tookSeq_kpool  (b : Block) : (tookSeq  b).kpool = b.kpool := rfl
@[simp] theorem tookSeq_mq  (b : Block) : (tookSeq  b).mq = b.mq := rfl
@[simp] theorem tookSeq_mqPop  (b : Block) : (tookSeq  b).mqPop = b.mqPop := rfl
@[simp] theorem tookSeq_chans  (b : Block) : (tookSeq  b).chans = b.chans := rfl
@[simp] theorem tookSeq_rchans  (b : Block) : (tookSeq  b).rchans = b.rchans := rfl
@[simp] theorem tookSeq_storms  (b : Block) : (tookSeq  b).storms = b.storms := rfl
@[simp] theorem tookSeq_cq  (b : Block) : (tookSeq  b).cq = b.cq := rfl
@[simp] theorem tookSeq_cbParts  (b : Block) : (tookSeq  b).cbParts = b.cbParts := rfl
@[simp] theorem tookSeq_opdLast  (b : Block) : (tookSeq  b).opdLast = b.opdLast := rfl
@[simp] theorem tookSeq_preIgnored  (b : Block) : (tookSeq  b).preIgnored = b.preIgnored := rfl
@[simp] theorem tookSeq_resumeQ  (b : Block) : (tookSeq  b).resumeQ = b.resumeQ := rfl
@[simp] theorem tookSeq_lcIdleAt  (b : Block) : (tookSeq  b).lcIdleAt = b.lcIdleAt := rfl
@[simp] theorem tookSeq_hg  (b : Block) : (tookSeq  b).hg = b.hg := rfl
@[simp] theorem tookSeq_routes  (b : Block) : (tookSeq  b).routes = b.routes := rfl
@[simp] theorem tookSeq_unreach  (b : Block) : (tookSeq  b).unreach = b.unreach := rfl
@[simp] theorem tookSeq_fedt  (b : Block) : (tookSeq  b).fedt = b.fedt := rfl
@[simp] theorem tookSeq_remSegs  (b : Block) : (tookSeq  b).remSegs = b.remSegs := rfl
@[simp] theorem tookSeq_log  (b : Block) : (tookSeq  b).log = b.log := rfl
@[simp] theorem tookSeq_dbolt  (b : Block) : (tookSeq  b).dbolt = b.dbolt := rfl
@[simp] theorem tookSeq_hang  (b : Block) : (tookSeq  b).hang = b.hang := rfl
@[simp] theorem tookSeq_dump  (b : Block) : (tookSeq  b).dump = b.dump := rfl
@[simp] theorem tookSeq_cap  (b : Block) : (tookSeq  b).cap = b.cap := rfl
@[simp] theorem tookSeq_ecc  (b : Block) : (tookSeq  b).ecc = b.ecc := rfl
@[simp] theorem tookSeq_evr  (b : Block) : (tookSeq  b).evr = b.evr := rfl
@[simp] theorem tookSeq_blk  (b : Block) : (tookSeq  b).blk = b.blk := rfl
@[simp] theorem tookSeq_trace  (b : Block) : (tookSeq  b).trace = b.trace := rfl
@[simp] theorem tookSeq_watch  (b : Block) : (tookSeq  b).watch = b.watch := rfl
@[simp] theorem tookSeq_tally  (b : Block) : (tookSeq  b).tally = b.tally := rfl
@[simp] theorem tookSeq_meter  (b : Block) : (tookSeq  b).meter = b.meter := rfl
@[simp] theorem tookSeq_xbar  (b : Block) : (tookSeq  b).xbar = b.xbar := rfl
@[simp] theorem tookSeq_out  (b : Block) : (tookSeq  b).out = b.out := rfl

@[simp] theorem bump_clk (a n : Nat) (b : Block) : (bump a n b).clk = b.clk := rfl
@[simp] theorem bump_boot (a n : Nat) (b : Block) : (bump a n b).boot = b.boot := rfl
@[simp] theorem bump_mgt (a n : Nat) (b : Block) : (bump a n b).mgt = b.mgt := rfl
@[simp] theorem bump_regs (a n : Nat) (b : Block) : (bump a n b).regs = b.regs := rfl
@[simp] theorem bump_cntSh (a n : Nat) (b : Block) : (bump a n b).cntSh = b.cntSh := rfl
@[simp] theorem bump_snapAt (a n : Nat) (b : Block) : (bump a n b).snapAt = b.snapAt := rfl
@[simp] theorem bump_snapTs (a n : Nat) (b : Block) : (bump a n b).snapTs = b.snapTs := rfl
@[simp] theorem bump_cmtTs (a n : Nat) (b : Block) : (bump a n b).cmtTs = b.cmtTs := rfl
@[simp] theorem bump_cmtDue (a n : Nat) (b : Block) : (bump a n b).cmtDue = b.cmtDue := rfl
@[simp] theorem bump_iqWork (a n : Nat) (b : Block) : (bump a n b).iqWork = b.iqWork := rfl
@[simp] theorem bump_ents (a n : Nat) (b : Block) : (bump a n b).ents = b.ents := rfl
@[simp] theorem bump_wq (a n : Nat) (b : Block) : (bump a n b).wq = b.wq := rfl
@[simp] theorem bump_slots (a n : Nat) (b : Block) : (bump a n b).slots = b.slots := rfl
@[simp] theorem bump_ports (a n : Nat) (b : Block) : (bump a n b).ports = b.ports := rfl
@[simp] theorem bump_occ (a n : Nat) (b : Block) : (bump a n b).occ = b.occ := rfl
@[simp] theorem bump_place (a n : Nat) (b : Block) : (bump a n b).place = b.place := rfl
@[simp] theorem bump_gov (a n : Nat) (b : Block) : (bump a n b).gov = b.gov := rfl
@[simp] theorem bump_arb (a n : Nat) (b : Block) : (bump a n b).arb = b.arb := rfl
@[simp] theorem bump_rings (a n : Nat) (b : Block) : (bump a n b).rings = b.rings := rfl
@[simp] theorem bump_tdone (a n : Nat) (b : Block) : (bump a n b).tdone = b.tdone := rfl
@[simp] theorem bump_tens (a n : Nat) (b : Block) : (bump a n b).tens = b.tens := rfl
@[simp] theorem bump_segs (a n : Nat) (b : Block) : (bump a n b).segs = b.segs := rfl
@[simp] theorem bump_entq (a n : Nat) (b : Block) : (bump a n b).entq = b.entq := rfl
@[simp] theorem bump_pcls (a n : Nat) (b : Block) : (bump a n b).pcls = b.pcls := rfl
@[simp] theorem bump_hasps (a n : Nat) (b : Block) : (bump a n b).hasps = b.hasps := rfl
@[simp] theorem bump_waits (a n : Nat) (b : Block) : (bump a n b).waits = b.waits := rfl
@[simp] theorem bump_kpool (a n : Nat) (b : Block) : (bump a n b).kpool = b.kpool := rfl
@[simp] theorem bump_mq (a n : Nat) (b : Block) : (bump a n b).mq = b.mq := rfl
@[simp] theorem bump_mqPop (a n : Nat) (b : Block) : (bump a n b).mqPop = b.mqPop := rfl
@[simp] theorem bump_chans (a n : Nat) (b : Block) : (bump a n b).chans = b.chans := rfl
@[simp] theorem bump_rchans (a n : Nat) (b : Block) : (bump a n b).rchans = b.rchans := rfl
@[simp] theorem bump_storms (a n : Nat) (b : Block) : (bump a n b).storms = b.storms := rfl
@[simp] theorem bump_cq (a n : Nat) (b : Block) : (bump a n b).cq = b.cq := rfl
@[simp] theorem bump_cbParts (a n : Nat) (b : Block) : (bump a n b).cbParts = b.cbParts := rfl
@[simp] theorem bump_opdLast (a n : Nat) (b : Block) : (bump a n b).opdLast = b.opdLast := rfl
@[simp] theorem bump_preIgnored (a n : Nat) (b : Block) : (bump a n b).preIgnored = b.preIgnored := rfl
@[simp] theorem bump_resumeQ (a n : Nat) (b : Block) : (bump a n b).resumeQ = b.resumeQ := rfl
@[simp] theorem bump_lcIdleAt (a n : Nat) (b : Block) : (bump a n b).lcIdleAt = b.lcIdleAt := rfl
@[simp] theorem bump_hg (a n : Nat) (b : Block) : (bump a n b).hg = b.hg := rfl
@[simp] theorem bump_routes (a n : Nat) (b : Block) : (bump a n b).routes = b.routes := rfl
@[simp] theorem bump_unreach (a n : Nat) (b : Block) : (bump a n b).unreach = b.unreach := rfl
@[simp] theorem bump_fedt (a n : Nat) (b : Block) : (bump a n b).fedt = b.fedt := rfl
@[simp] theorem bump_remSegs (a n : Nat) (b : Block) : (bump a n b).remSegs = b.remSegs := rfl
@[simp] theorem bump_log (a n : Nat) (b : Block) : (bump a n b).log = b.log := rfl
@[simp] theorem bump_dbolt (a n : Nat) (b : Block) : (bump a n b).dbolt = b.dbolt := rfl
@[simp] theorem bump_hang (a n : Nat) (b : Block) : (bump a n b).hang = b.hang := rfl
@[simp] theorem bump_dump (a n : Nat) (b : Block) : (bump a n b).dump = b.dump := rfl
@[simp] theorem bump_cap (a n : Nat) (b : Block) : (bump a n b).cap = b.cap := rfl
@[simp] theorem bump_ecc (a n : Nat) (b : Block) : (bump a n b).ecc = b.ecc := rfl
@[simp] theorem bump_evr (a n : Nat) (b : Block) : (bump a n b).evr = b.evr := rfl
@[simp] theorem bump_blk (a n : Nat) (b : Block) : (bump a n b).blk = b.blk := rfl
@[simp] theorem bump_trace (a n : Nat) (b : Block) : (bump a n b).trace = b.trace := rfl
@[simp] theorem bump_watch (a n : Nat) (b : Block) : (bump a n b).watch = b.watch := rfl
@[simp] theorem bump_tally (a n : Nat) (b : Block) : (bump a n b).tally = b.tally := rfl
@[simp] theorem bump_meter (a n : Nat) (b : Block) : (bump a n b).meter = b.meter := rfl
@[simp] theorem bump_xbar (a n : Nat) (b : Block) : (bump a n b).xbar = b.xbar := rfl
@[simp] theorem bump_out (a n : Nat) (b : Block) : (bump a n b).out = b.out := rfl

@[simp] theorem wr_clk (p : Params) (a : Nat) (v : Word32) (b : Block) : (wr p a v b).clk = b.clk := rfl
@[simp] theorem wr_boot (p : Params) (a : Nat) (v : Word32) (b : Block) : (wr p a v b).boot = b.boot := rfl
@[simp] theorem wr_mgt (p : Params) (a : Nat) (v : Word32) (b : Block) : (wr p a v b).mgt = b.mgt := rfl
@[simp] theorem wr_regs (p : Params) (a : Nat) (v : Word32) (b : Block) : (wr p a v b).regs = Tbl.set (regReset p a) b.regs a v := rfl
@[simp] theorem wr_cnt (p : Params) (a : Nat) (v : Word32) (b : Block) : (wr p a v b).cnt = b.cnt := rfl
@[simp] theorem wr_cntSh (p : Params) (a : Nat) (v : Word32) (b : Block) : (wr p a v b).cntSh = b.cntSh := rfl
@[simp] theorem wr_snapAt (p : Params) (a : Nat) (v : Word32) (b : Block) : (wr p a v b).snapAt = b.snapAt := rfl
@[simp] theorem wr_snapTs (p : Params) (a : Nat) (v : Word32) (b : Block) : (wr p a v b).snapTs = b.snapTs := rfl
@[simp] theorem wr_cmtTs (p : Params) (a : Nat) (v : Word32) (b : Block) : (wr p a v b).cmtTs = b.cmtTs := rfl
@[simp] theorem wr_cmtDue (p : Params) (a : Nat) (v : Word32) (b : Block) : (wr p a v b).cmtDue = b.cmtDue := rfl
@[simp] theorem wr_iqWork (p : Params) (a : Nat) (v : Word32) (b : Block) : (wr p a v b).iqWork = b.iqWork := rfl
@[simp] theorem wr_ents (p : Params) (a : Nat) (v : Word32) (b : Block) : (wr p a v b).ents = b.ents := rfl
@[simp] theorem wr_wq (p : Params) (a : Nat) (v : Word32) (b : Block) : (wr p a v b).wq = b.wq := rfl
@[simp] theorem wr_slots (p : Params) (a : Nat) (v : Word32) (b : Block) : (wr p a v b).slots = b.slots := rfl
@[simp] theorem wr_ports (p : Params) (a : Nat) (v : Word32) (b : Block) : (wr p a v b).ports = b.ports := rfl
@[simp] theorem wr_occ (p : Params) (a : Nat) (v : Word32) (b : Block) : (wr p a v b).occ = b.occ := rfl
@[simp] theorem wr_place (p : Params) (a : Nat) (v : Word32) (b : Block) : (wr p a v b).place = b.place := rfl
@[simp] theorem wr_gov (p : Params) (a : Nat) (v : Word32) (b : Block) : (wr p a v b).gov = b.gov := rfl
@[simp] theorem wr_arb (p : Params) (a : Nat) (v : Word32) (b : Block) : (wr p a v b).arb = b.arb := rfl
@[simp] theorem wr_rings (p : Params) (a : Nat) (v : Word32) (b : Block) : (wr p a v b).rings = b.rings := rfl
@[simp] theorem wr_tdone (p : Params) (a : Nat) (v : Word32) (b : Block) : (wr p a v b).tdone = b.tdone := rfl
@[simp] theorem wr_tens (p : Params) (a : Nat) (v : Word32) (b : Block) : (wr p a v b).tens = b.tens := rfl
@[simp] theorem wr_segs (p : Params) (a : Nat) (v : Word32) (b : Block) : (wr p a v b).segs = b.segs := rfl
@[simp] theorem wr_entq (p : Params) (a : Nat) (v : Word32) (b : Block) : (wr p a v b).entq = b.entq := rfl
@[simp] theorem wr_pcls (p : Params) (a : Nat) (v : Word32) (b : Block) : (wr p a v b).pcls = b.pcls := rfl
@[simp] theorem wr_hasps (p : Params) (a : Nat) (v : Word32) (b : Block) : (wr p a v b).hasps = b.hasps := rfl
@[simp] theorem wr_waits (p : Params) (a : Nat) (v : Word32) (b : Block) : (wr p a v b).waits = b.waits := rfl
@[simp] theorem wr_kpool (p : Params) (a : Nat) (v : Word32) (b : Block) : (wr p a v b).kpool = b.kpool := rfl
@[simp] theorem wr_mq (p : Params) (a : Nat) (v : Word32) (b : Block) : (wr p a v b).mq = b.mq := rfl
@[simp] theorem wr_mqPop (p : Params) (a : Nat) (v : Word32) (b : Block) : (wr p a v b).mqPop = b.mqPop := rfl
@[simp] theorem wr_chans (p : Params) (a : Nat) (v : Word32) (b : Block) : (wr p a v b).chans = b.chans := rfl
@[simp] theorem wr_rchans (p : Params) (a : Nat) (v : Word32) (b : Block) : (wr p a v b).rchans = b.rchans := rfl
@[simp] theorem wr_storms (p : Params) (a : Nat) (v : Word32) (b : Block) : (wr p a v b).storms = b.storms := rfl
@[simp] theorem wr_cq (p : Params) (a : Nat) (v : Word32) (b : Block) : (wr p a v b).cq = b.cq := rfl
@[simp] theorem wr_cbParts (p : Params) (a : Nat) (v : Word32) (b : Block) : (wr p a v b).cbParts = b.cbParts := rfl
@[simp] theorem wr_opdLast (p : Params) (a : Nat) (v : Word32) (b : Block) : (wr p a v b).opdLast = b.opdLast := rfl
@[simp] theorem wr_preIgnored (p : Params) (a : Nat) (v : Word32) (b : Block) : (wr p a v b).preIgnored = b.preIgnored := rfl
@[simp] theorem wr_resumeQ (p : Params) (a : Nat) (v : Word32) (b : Block) : (wr p a v b).resumeQ = b.resumeQ := rfl
@[simp] theorem wr_lcIdleAt (p : Params) (a : Nat) (v : Word32) (b : Block) : (wr p a v b).lcIdleAt = b.lcIdleAt := rfl
@[simp] theorem wr_hg (p : Params) (a : Nat) (v : Word32) (b : Block) : (wr p a v b).hg = b.hg := rfl
@[simp] theorem wr_routes (p : Params) (a : Nat) (v : Word32) (b : Block) : (wr p a v b).routes = b.routes := rfl
@[simp] theorem wr_unreach (p : Params) (a : Nat) (v : Word32) (b : Block) : (wr p a v b).unreach = b.unreach := rfl
@[simp] theorem wr_fedt (p : Params) (a : Nat) (v : Word32) (b : Block) : (wr p a v b).fedt = b.fedt := rfl
@[simp] theorem wr_remSegs (p : Params) (a : Nat) (v : Word32) (b : Block) : (wr p a v b).remSegs = b.remSegs := rfl
@[simp] theorem wr_log (p : Params) (a : Nat) (v : Word32) (b : Block) : (wr p a v b).log = b.log := rfl
@[simp] theorem wr_dbolt (p : Params) (a : Nat) (v : Word32) (b : Block) : (wr p a v b).dbolt = b.dbolt := rfl
@[simp] theorem wr_hang (p : Params) (a : Nat) (v : Word32) (b : Block) : (wr p a v b).hang = b.hang := rfl
@[simp] theorem wr_dump (p : Params) (a : Nat) (v : Word32) (b : Block) : (wr p a v b).dump = b.dump := rfl
@[simp] theorem wr_cap (p : Params) (a : Nat) (v : Word32) (b : Block) : (wr p a v b).cap = b.cap := rfl
@[simp] theorem wr_ecc (p : Params) (a : Nat) (v : Word32) (b : Block) : (wr p a v b).ecc = b.ecc := rfl
@[simp] theorem wr_evr (p : Params) (a : Nat) (v : Word32) (b : Block) : (wr p a v b).evr = b.evr := rfl
@[simp] theorem wr_blk (p : Params) (a : Nat) (v : Word32) (b : Block) : (wr p a v b).blk = b.blk := rfl
@[simp] theorem wr_trace (p : Params) (a : Nat) (v : Word32) (b : Block) : (wr p a v b).trace = b.trace := rfl
@[simp] theorem wr_watch (p : Params) (a : Nat) (v : Word32) (b : Block) : (wr p a v b).watch = b.watch := rfl
@[simp] theorem wr_tally (p : Params) (a : Nat) (v : Word32) (b : Block) : (wr p a v b).tally = b.tally := rfl
@[simp] theorem wr_meter (p : Params) (a : Nat) (v : Word32) (b : Block) : (wr p a v b).meter = b.meter := rfl
@[simp] theorem wr_xbar (p : Params) (a : Nat) (v : Word32) (b : Block) : (wr p a v b).xbar = b.xbar := rfl
@[simp] theorem wr_out (p : Params) (a : Nat) (v : Word32) (b : Block) : (wr p a v b).out = b.out := rfl

/-! ## Getters of other parts -/

@[simp] theorem ent_updPort (h1 : Nat) (n : Nat) (f : Port → Port) (b : Block) : ent (updPort n f b) h1 = ent b h1 := rfl
@[simp] theorem ent_updRing (h1 : Nat) (r : Nat) (f : Ring → Ring) (b : Block) : ent (updRing r f b) h1 = ent b h1 := rfl
@[simp] theorem ent_updWalk (h1 : Nat) (r : Nat) (f : Walk → Walk) (b : Block) : ent (updWalk r f b) h1 = ent b h1 := rfl
@[simp] theorem ent_updTen (h1 : Nat) (t : Nat) (f : Tenant → Tenant) (b : Block) : ent (updTen t f b) h1 = ent b h1 := rfl
@[simp] theorem ent_updSlot (h1 : Nat) (w n : Nat) (f : Slot → Slot) (b : Block) : ent (updSlot w n f b) h1 = ent b h1 := rfl
@[simp] theorem ent_updMQ (h1 : Nat) (w q : Nat) (f : MQ → MQ) (b : Block) : ent (updMQ w q f b) h1 = ent b h1 := rfl
@[simp] theorem ent_updCQ (h1 : Nat) (w q : Nat) (f : CQ → CQ) (b : Block) : ent (updCQ w q f b) h1 = ent b h1 := rfl
@[simp] theorem ent_updHasp (h1 : Nat) (h : Nat) (f : Hasp → Hasp) (b : Block) : ent (updHasp h f b) h1 = ent b h1 := rfl
@[simp] theorem ent_updKPool (h1 : Nat) (n k : Nat) (f : KPool → KPool) (b : Block) : ent (updKPool n k f b) h1 = ent b h1 := rfl
@[simp] theorem ent_setChan (h1 : Nat) (c : Nat) (v : Option Chan) (b : Block) : ent (setChan c v b) h1 = ent b h1 := rfl
@[simp] theorem ent_updHinge (h1 : Nat) (h : Nat) (f : Hinge → Hinge) (b : Block) : ent (updHinge h f b) h1 = ent b h1 := rfl
@[simp] theorem ent_updPcl (h1 : Nat) (c : Nat) (f : PClass → PClass) (b : Block) : ent (updPcl c f b) h1 = ent b h1 := rfl
@[simp] theorem ent_updDom (h1 : Nat) (d : Nat) (f : Dom → Dom) (b : Block) : ent (updDom d f b) h1 = ent b h1 := rfl
@[simp] theorem ent_updFed (h1 : Nat) (w : Nat) (f : FedTab → FedTab) (b : Block) : ent (updFed w f b) h1 = ent b h1 := rfl
@[simp] theorem ent_updDb (h1 : Nat) (f : Dbolt → Dbolt) (b : Block) : ent (updDb f b) h1 = ent b h1 := rfl
@[simp] theorem ent_updBoot (h1 : Nat) (f : Boot → Boot) (b : Block) : ent (updBoot f b) h1 = ent b h1 := rfl
@[simp] theorem ent_updClk (h1 : Nat) (f : Clk → Clk) (b : Block) : ent (updClk f b) h1 = ent b h1 := rfl
@[simp] theorem ent_updMgt (h1 : Nat) (f : Mgt → Mgt) (b : Block) : ent (updMgt f b) h1 = ent b h1 := rfl
@[simp] theorem ent_updTr (h1 : Nat) (f : Trace → Trace) (b : Block) : ent (updTr f b) h1 = ent b h1 := rfl
@[simp] theorem ent_updLog (h1 : Nat) (f : Log → Log) (b : Block) : ent (updLog f b) h1 = ent b h1 := rfl
@[simp] theorem ent_updMeter (h1 : Nat) (f : Meter → Meter) (b : Block) : ent (updMeter f b) h1 = ent b h1 := rfl
@[simp] theorem ent_emit (h1 : Nat) (o : Out) (b : Block) : ent (emit o b) h1 = ent b h1 := rfl
@[simp] theorem ent_xput (h1 : Nat) (i : XItem) (b : Block) : ent (xput i b) h1 = ent b h1 := rfl
@[simp] theorem ent_tookSeq (h1 : Nat)  (b : Block) : ent (tookSeq  b) h1 = ent b h1 := rfl
@[simp] theorem ent_bump (h1 : Nat) (a n : Nat) (b : Block) : ent (bump a n b) h1 = ent b h1 := rfl
@[simp] theorem ent_wr (h1 : Nat) (p : Params) (a : Nat) (v : Word32) (b : Block) : ent (wr p a v b) h1 = ent b h1 := rfl

@[simp] theorem prt_updEnt (n1 : Nat) (h : Nat) (f : Entry → Entry) (b : Block) : prt (updEnt h f b) n1 = prt b n1 := rfl
@[simp] theorem prt_updRing (n1 : Nat) (r : Nat) (f : Ring → Ring) (b : Block) : prt (updRing r f b) n1 = prt b n1 := rfl
@[simp] theorem prt_updWalk (n1 : Nat) (r : Nat) (f : Walk → Walk) (b : Block) : prt (updWalk r f b) n1 = prt b n1 := rfl
@[simp] theorem prt_updTen (n1 : Nat) (t : Nat) (f : Tenant → Tenant) (b : Block) : prt (updTen t f b) n1 = prt b n1 := rfl
@[simp] theorem prt_updSlot (n1 : Nat) (w n : Nat) (f : Slot → Slot) (b : Block) : prt (updSlot w n f b) n1 = prt b n1 := rfl
@[simp] theorem prt_updMQ (n1 : Nat) (w q : Nat) (f : MQ → MQ) (b : Block) : prt (updMQ w q f b) n1 = prt b n1 := rfl
@[simp] theorem prt_updCQ (n1 : Nat) (w q : Nat) (f : CQ → CQ) (b : Block) : prt (updCQ w q f b) n1 = prt b n1 := rfl
@[simp] theorem prt_updHasp (n1 : Nat) (h : Nat) (f : Hasp → Hasp) (b : Block) : prt (updHasp h f b) n1 = prt b n1 := rfl
@[simp] theorem prt_updKPool (n1 : Nat) (n k : Nat) (f : KPool → KPool) (b : Block) : prt (updKPool n k f b) n1 = prt b n1 := rfl
@[simp] theorem prt_setChan (n1 : Nat) (c : Nat) (v : Option Chan) (b : Block) : prt (setChan c v b) n1 = prt b n1 := rfl
@[simp] theorem prt_updHinge (n1 : Nat) (h : Nat) (f : Hinge → Hinge) (b : Block) : prt (updHinge h f b) n1 = prt b n1 := rfl
@[simp] theorem prt_updPcl (n1 : Nat) (c : Nat) (f : PClass → PClass) (b : Block) : prt (updPcl c f b) n1 = prt b n1 := rfl
@[simp] theorem prt_updDom (n1 : Nat) (d : Nat) (f : Dom → Dom) (b : Block) : prt (updDom d f b) n1 = prt b n1 := rfl
@[simp] theorem prt_updFed (n1 : Nat) (w : Nat) (f : FedTab → FedTab) (b : Block) : prt (updFed w f b) n1 = prt b n1 := rfl
@[simp] theorem prt_updDb (n1 : Nat) (f : Dbolt → Dbolt) (b : Block) : prt (updDb f b) n1 = prt b n1 := rfl
@[simp] theorem prt_updBoot (n1 : Nat) (f : Boot → Boot) (b : Block) : prt (updBoot f b) n1 = prt b n1 := rfl
@[simp] theorem prt_updClk (n1 : Nat) (f : Clk → Clk) (b : Block) : prt (updClk f b) n1 = prt b n1 := rfl
@[simp] theorem prt_updMgt (n1 : Nat) (f : Mgt → Mgt) (b : Block) : prt (updMgt f b) n1 = prt b n1 := rfl
@[simp] theorem prt_updTr (n1 : Nat) (f : Trace → Trace) (b : Block) : prt (updTr f b) n1 = prt b n1 := rfl
@[simp] theorem prt_updLog (n1 : Nat) (f : Log → Log) (b : Block) : prt (updLog f b) n1 = prt b n1 := rfl
@[simp] theorem prt_updMeter (n1 : Nat) (f : Meter → Meter) (b : Block) : prt (updMeter f b) n1 = prt b n1 := rfl
@[simp] theorem prt_emit (n1 : Nat) (o : Out) (b : Block) : prt (emit o b) n1 = prt b n1 := rfl
@[simp] theorem prt_xput (n1 : Nat) (i : XItem) (b : Block) : prt (xput i b) n1 = prt b n1 := rfl
@[simp] theorem prt_tookSeq (n1 : Nat)  (b : Block) : prt (tookSeq  b) n1 = prt b n1 := rfl
@[simp] theorem prt_bump (n1 : Nat) (a n : Nat) (b : Block) : prt (bump a n b) n1 = prt b n1 := rfl
@[simp] theorem prt_wr (n1 : Nat) (p : Params) (a : Nat) (v : Word32) (b : Block) : prt (wr p a v b) n1 = prt b n1 := rfl

@[simp] theorem rng_updEnt (r1 : Nat) (h : Nat) (f : Entry → Entry) (b : Block) : rng (updEnt h f b) r1 = rng b r1 := rfl
@[simp] theorem rng_updPort (r1 : Nat) (n : Nat) (f : Port → Port) (b : Block) : rng (updPort n f b) r1 = rng b r1 := rfl
@[simp] theorem rng_updTen (r1 : Nat) (t : Nat) (f : Tenant → Tenant) (b : Block) : rng (updTen t f b) r1 = rng b r1 := rfl
@[simp] theorem rng_updSlot (r1 : Nat) (w n : Nat) (f : Slot → Slot) (b : Block) : rng (updSlot w n f b) r1 = rng b r1 := rfl
@[simp] theorem rng_updMQ (r1 : Nat) (w q : Nat) (f : MQ → MQ) (b : Block) : rng (updMQ w q f b) r1 = rng b r1 := rfl
@[simp] theorem rng_updCQ (r1 : Nat) (w q : Nat) (f : CQ → CQ) (b : Block) : rng (updCQ w q f b) r1 = rng b r1 := rfl
@[simp] theorem rng_updHasp (r1 : Nat) (h : Nat) (f : Hasp → Hasp) (b : Block) : rng (updHasp h f b) r1 = rng b r1 := rfl
@[simp] theorem rng_updKPool (r1 : Nat) (n k : Nat) (f : KPool → KPool) (b : Block) : rng (updKPool n k f b) r1 = rng b r1 := rfl
@[simp] theorem rng_setChan (r1 : Nat) (c : Nat) (v : Option Chan) (b : Block) : rng (setChan c v b) r1 = rng b r1 := rfl
@[simp] theorem rng_updHinge (r1 : Nat) (h : Nat) (f : Hinge → Hinge) (b : Block) : rng (updHinge h f b) r1 = rng b r1 := rfl
@[simp] theorem rng_updPcl (r1 : Nat) (c : Nat) (f : PClass → PClass) (b : Block) : rng (updPcl c f b) r1 = rng b r1 := rfl
@[simp] theorem rng_updDom (r1 : Nat) (d : Nat) (f : Dom → Dom) (b : Block) : rng (updDom d f b) r1 = rng b r1 := rfl
@[simp] theorem rng_updFed (r1 : Nat) (w : Nat) (f : FedTab → FedTab) (b : Block) : rng (updFed w f b) r1 = rng b r1 := rfl
@[simp] theorem rng_updDb (r1 : Nat) (f : Dbolt → Dbolt) (b : Block) : rng (updDb f b) r1 = rng b r1 := rfl
@[simp] theorem rng_updBoot (r1 : Nat) (f : Boot → Boot) (b : Block) : rng (updBoot f b) r1 = rng b r1 := rfl
@[simp] theorem rng_updClk (r1 : Nat) (f : Clk → Clk) (b : Block) : rng (updClk f b) r1 = rng b r1 := rfl
@[simp] theorem rng_updMgt (r1 : Nat) (f : Mgt → Mgt) (b : Block) : rng (updMgt f b) r1 = rng b r1 := rfl
@[simp] theorem rng_updTr (r1 : Nat) (f : Trace → Trace) (b : Block) : rng (updTr f b) r1 = rng b r1 := rfl
@[simp] theorem rng_updLog (r1 : Nat) (f : Log → Log) (b : Block) : rng (updLog f b) r1 = rng b r1 := rfl
@[simp] theorem rng_updMeter (r1 : Nat) (f : Meter → Meter) (b : Block) : rng (updMeter f b) r1 = rng b r1 := rfl
@[simp] theorem rng_emit (r1 : Nat) (o : Out) (b : Block) : rng (emit o b) r1 = rng b r1 := rfl
@[simp] theorem rng_xput (r1 : Nat) (i : XItem) (b : Block) : rng (xput i b) r1 = rng b r1 := rfl
@[simp] theorem rng_tookSeq (r1 : Nat)  (b : Block) : rng (tookSeq  b) r1 = rng b r1 := rfl
@[simp] theorem rng_bump (r1 : Nat) (a n : Nat) (b : Block) : rng (bump a n b) r1 = rng b r1 := rfl
@[simp] theorem rng_wr (r1 : Nat) (p : Params) (a : Nat) (v : Word32) (b : Block) : rng (wr p a v b) r1 = rng b r1 := rfl

@[simp] theorem ten_updEnt (t1 : Nat) (h : Nat) (f : Entry → Entry) (b : Block) : ten (updEnt h f b) t1 = ten b t1 := rfl
@[simp] theorem ten_updPort (t1 : Nat) (n : Nat) (f : Port → Port) (b : Block) : ten (updPort n f b) t1 = ten b t1 := rfl
@[simp] theorem ten_updRing (t1 : Nat) (r : Nat) (f : Ring → Ring) (b : Block) : ten (updRing r f b) t1 = ten b t1 := rfl
@[simp] theorem ten_updWalk (t1 : Nat) (r : Nat) (f : Walk → Walk) (b : Block) : ten (updWalk r f b) t1 = ten b t1 := rfl
@[simp] theorem ten_updSlot (t1 : Nat) (w n : Nat) (f : Slot → Slot) (b : Block) : ten (updSlot w n f b) t1 = ten b t1 := rfl
@[simp] theorem ten_updMQ (t1 : Nat) (w q : Nat) (f : MQ → MQ) (b : Block) : ten (updMQ w q f b) t1 = ten b t1 := rfl
@[simp] theorem ten_updCQ (t1 : Nat) (w q : Nat) (f : CQ → CQ) (b : Block) : ten (updCQ w q f b) t1 = ten b t1 := rfl
@[simp] theorem ten_updHasp (t1 : Nat) (h : Nat) (f : Hasp → Hasp) (b : Block) : ten (updHasp h f b) t1 = ten b t1 := rfl
@[simp] theorem ten_updKPool (t1 : Nat) (n k : Nat) (f : KPool → KPool) (b : Block) : ten (updKPool n k f b) t1 = ten b t1 := rfl
@[simp] theorem ten_setChan (t1 : Nat) (c : Nat) (v : Option Chan) (b : Block) : ten (setChan c v b) t1 = ten b t1 := rfl
@[simp] theorem ten_updHinge (t1 : Nat) (h : Nat) (f : Hinge → Hinge) (b : Block) : ten (updHinge h f b) t1 = ten b t1 := rfl
@[simp] theorem ten_updPcl (t1 : Nat) (c : Nat) (f : PClass → PClass) (b : Block) : ten (updPcl c f b) t1 = ten b t1 := rfl
@[simp] theorem ten_updDom (t1 : Nat) (d : Nat) (f : Dom → Dom) (b : Block) : ten (updDom d f b) t1 = ten b t1 := rfl
@[simp] theorem ten_updFed (t1 : Nat) (w : Nat) (f : FedTab → FedTab) (b : Block) : ten (updFed w f b) t1 = ten b t1 := rfl
@[simp] theorem ten_updDb (t1 : Nat) (f : Dbolt → Dbolt) (b : Block) : ten (updDb f b) t1 = ten b t1 := rfl
@[simp] theorem ten_updBoot (t1 : Nat) (f : Boot → Boot) (b : Block) : ten (updBoot f b) t1 = ten b t1 := rfl
@[simp] theorem ten_updClk (t1 : Nat) (f : Clk → Clk) (b : Block) : ten (updClk f b) t1 = ten b t1 := rfl
@[simp] theorem ten_updMgt (t1 : Nat) (f : Mgt → Mgt) (b : Block) : ten (updMgt f b) t1 = ten b t1 := rfl
@[simp] theorem ten_updTr (t1 : Nat) (f : Trace → Trace) (b : Block) : ten (updTr f b) t1 = ten b t1 := rfl
@[simp] theorem ten_updLog (t1 : Nat) (f : Log → Log) (b : Block) : ten (updLog f b) t1 = ten b t1 := rfl
@[simp] theorem ten_updMeter (t1 : Nat) (f : Meter → Meter) (b : Block) : ten (updMeter f b) t1 = ten b t1 := rfl
@[simp] theorem ten_emit (t1 : Nat) (o : Out) (b : Block) : ten (emit o b) t1 = ten b t1 := rfl
@[simp] theorem ten_xput (t1 : Nat) (i : XItem) (b : Block) : ten (xput i b) t1 = ten b t1 := rfl
@[simp] theorem ten_tookSeq (t1 : Nat)  (b : Block) : ten (tookSeq  b) t1 = ten b t1 := rfl
@[simp] theorem ten_bump (t1 : Nat) (a n : Nat) (b : Block) : ten (bump a n b) t1 = ten b t1 := rfl
@[simp] theorem ten_wr (t1 : Nat) (p : Params) (a : Nat) (v : Word32) (b : Block) : ten (wr p a v b) t1 = ten b t1 := rfl

@[simp] theorem slt_updEnt (w1 n1 : Nat) (h : Nat) (f : Entry → Entry) (b : Block) : slt (updEnt h f b) w1 n1 = slt b w1 n1 := rfl
@[simp] theorem slt_updPort (w1 n1 : Nat) (n : Nat) (f : Port → Port) (b : Block) : slt (updPort n f b) w1 n1 = slt b w1 n1 := rfl
@[simp] theorem slt_updRing (w1 n1 : Nat) (r : Nat) (f : Ring → Ring) (b : Block) : slt (updRing r f b) w1 n1 = slt b w1 n1 := rfl
@[simp] theorem slt_updWalk (w1 n1 : Nat) (r : Nat) (f : Walk → Walk) (b : Block) : slt (updWalk r f b) w1 n1 = slt b w1 n1 := rfl
@[simp] theorem slt_updTen (w1 n1 : Nat) (t : Nat) (f : Tenant → Tenant) (b : Block) : slt (updTen t f b) w1 n1 = slt b w1 n1 := rfl
@[simp] theorem slt_updMQ (w1 n1 : Nat) (w q : Nat) (f : MQ → MQ) (b : Block) : slt (updMQ w q f b) w1 n1 = slt b w1 n1 := rfl
@[simp] theorem slt_updCQ (w1 n1 : Nat) (w q : Nat) (f : CQ → CQ) (b : Block) : slt (updCQ w q f b) w1 n1 = slt b w1 n1 := rfl
@[simp] theorem slt_updHasp (w1 n1 : Nat) (h : Nat) (f : Hasp → Hasp) (b : Block) : slt (updHasp h f b) w1 n1 = slt b w1 n1 := rfl
@[simp] theorem slt_updKPool (w1 n1 : Nat) (n k : Nat) (f : KPool → KPool) (b : Block) : slt (updKPool n k f b) w1 n1 = slt b w1 n1 := rfl
@[simp] theorem slt_setChan (w1 n1 : Nat) (c : Nat) (v : Option Chan) (b : Block) : slt (setChan c v b) w1 n1 = slt b w1 n1 := rfl
@[simp] theorem slt_updHinge (w1 n1 : Nat) (h : Nat) (f : Hinge → Hinge) (b : Block) : slt (updHinge h f b) w1 n1 = slt b w1 n1 := rfl
@[simp] theorem slt_updPcl (w1 n1 : Nat) (c : Nat) (f : PClass → PClass) (b : Block) : slt (updPcl c f b) w1 n1 = slt b w1 n1 := rfl
@[simp] theorem slt_updDom (w1 n1 : Nat) (d : Nat) (f : Dom → Dom) (b : Block) : slt (updDom d f b) w1 n1 = slt b w1 n1 := rfl
@[simp] theorem slt_updFed (w1 n1 : Nat) (w : Nat) (f : FedTab → FedTab) (b : Block) : slt (updFed w f b) w1 n1 = slt b w1 n1 := rfl
@[simp] theorem slt_updDb (w1 n1 : Nat) (f : Dbolt → Dbolt) (b : Block) : slt (updDb f b) w1 n1 = slt b w1 n1 := rfl
@[simp] theorem slt_updBoot (w1 n1 : Nat) (f : Boot → Boot) (b : Block) : slt (updBoot f b) w1 n1 = slt b w1 n1 := rfl
@[simp] theorem slt_updClk (w1 n1 : Nat) (f : Clk → Clk) (b : Block) : slt (updClk f b) w1 n1 = slt b w1 n1 := rfl
@[simp] theorem slt_updMgt (w1 n1 : Nat) (f : Mgt → Mgt) (b : Block) : slt (updMgt f b) w1 n1 = slt b w1 n1 := rfl
@[simp] theorem slt_updTr (w1 n1 : Nat) (f : Trace → Trace) (b : Block) : slt (updTr f b) w1 n1 = slt b w1 n1 := rfl
@[simp] theorem slt_updLog (w1 n1 : Nat) (f : Log → Log) (b : Block) : slt (updLog f b) w1 n1 = slt b w1 n1 := rfl
@[simp] theorem slt_updMeter (w1 n1 : Nat) (f : Meter → Meter) (b : Block) : slt (updMeter f b) w1 n1 = slt b w1 n1 := rfl
@[simp] theorem slt_emit (w1 n1 : Nat) (o : Out) (b : Block) : slt (emit o b) w1 n1 = slt b w1 n1 := rfl
@[simp] theorem slt_xput (w1 n1 : Nat) (i : XItem) (b : Block) : slt (xput i b) w1 n1 = slt b w1 n1 := rfl
@[simp] theorem slt_tookSeq (w1 n1 : Nat)  (b : Block) : slt (tookSeq  b) w1 n1 = slt b w1 n1 := rfl
@[simp] theorem slt_bump (w1 n1 : Nat) (a n : Nat) (b : Block) : slt (bump a n b) w1 n1 = slt b w1 n1 := rfl
@[simp] theorem slt_wr (w1 n1 : Nat) (p : Params) (a : Nat) (v : Word32) (b : Block) : slt (wr p a v b) w1 n1 = slt b w1 n1 := rfl

@[simp] theorem mqu_updEnt (w1 q1 : Nat) (h : Nat) (f : Entry → Entry) (b : Block) : mqu (updEnt h f b) w1 q1 = mqu b w1 q1 := rfl
@[simp] theorem mqu_updPort (w1 q1 : Nat) (n : Nat) (f : Port → Port) (b : Block) : mqu (updPort n f b) w1 q1 = mqu b w1 q1 := rfl
@[simp] theorem mqu_updRing (w1 q1 : Nat) (r : Nat) (f : Ring → Ring) (b : Block) : mqu (updRing r f b) w1 q1 = mqu b w1 q1 := rfl
@[simp] theorem mqu_updWalk (w1 q1 : Nat) (r : Nat) (f : Walk → Walk) (b : Block) : mqu (updWalk r f b) w1 q1 = mqu b w1 q1 := rfl
@[simp] theorem mqu_updTen (w1 q1 : Nat) (t : Nat) (f : Tenant → Tenant) (b : Block) : mqu (updTen t f b) w1 q1 = mqu b w1 q1 := rfl
@[simp] theorem mqu_updSlot (w1 q1 : Nat) (w n : Nat) (f : Slot → Slot) (b : Block) : mqu (updSlot w n f b) w1 q1 = mqu b w1 q1 := rfl
@[simp] theorem mqu_updCQ (w1 q1 : Nat) (w q : Nat) (f : CQ → CQ) (b : Block) : mqu (updCQ w q f b) w1 q1 = mqu b w1 q1 := rfl
@[simp] theorem mqu_updHasp (w1 q1 : Nat) (h : Nat) (f : Hasp → Hasp) (b : Block) : mqu (updHasp h f b) w1 q1 = mqu b w1 q1 := rfl
@[simp] theorem mqu_updKPool (w1 q1 : Nat) (n k : Nat) (f : KPool → KPool) (b : Block) : mqu (updKPool n k f b) w1 q1 = mqu b w1 q1 := rfl
@[simp] theorem mqu_setChan (w1 q1 : Nat) (c : Nat) (v : Option Chan) (b : Block) : mqu (setChan c v b) w1 q1 = mqu b w1 q1 := rfl
@[simp] theorem mqu_updHinge (w1 q1 : Nat) (h : Nat) (f : Hinge → Hinge) (b : Block) : mqu (updHinge h f b) w1 q1 = mqu b w1 q1 := rfl
@[simp] theorem mqu_updPcl (w1 q1 : Nat) (c : Nat) (f : PClass → PClass) (b : Block) : mqu (updPcl c f b) w1 q1 = mqu b w1 q1 := rfl
@[simp] theorem mqu_updDom (w1 q1 : Nat) (d : Nat) (f : Dom → Dom) (b : Block) : mqu (updDom d f b) w1 q1 = mqu b w1 q1 := rfl
@[simp] theorem mqu_updFed (w1 q1 : Nat) (w : Nat) (f : FedTab → FedTab) (b : Block) : mqu (updFed w f b) w1 q1 = mqu b w1 q1 := rfl
@[simp] theorem mqu_updDb (w1 q1 : Nat) (f : Dbolt → Dbolt) (b : Block) : mqu (updDb f b) w1 q1 = mqu b w1 q1 := rfl
@[simp] theorem mqu_updBoot (w1 q1 : Nat) (f : Boot → Boot) (b : Block) : mqu (updBoot f b) w1 q1 = mqu b w1 q1 := rfl
@[simp] theorem mqu_updClk (w1 q1 : Nat) (f : Clk → Clk) (b : Block) : mqu (updClk f b) w1 q1 = mqu b w1 q1 := rfl
@[simp] theorem mqu_updMgt (w1 q1 : Nat) (f : Mgt → Mgt) (b : Block) : mqu (updMgt f b) w1 q1 = mqu b w1 q1 := rfl
@[simp] theorem mqu_updTr (w1 q1 : Nat) (f : Trace → Trace) (b : Block) : mqu (updTr f b) w1 q1 = mqu b w1 q1 := rfl
@[simp] theorem mqu_updLog (w1 q1 : Nat) (f : Log → Log) (b : Block) : mqu (updLog f b) w1 q1 = mqu b w1 q1 := rfl
@[simp] theorem mqu_updMeter (w1 q1 : Nat) (f : Meter → Meter) (b : Block) : mqu (updMeter f b) w1 q1 = mqu b w1 q1 := rfl
@[simp] theorem mqu_emit (w1 q1 : Nat) (o : Out) (b : Block) : mqu (emit o b) w1 q1 = mqu b w1 q1 := rfl
@[simp] theorem mqu_xput (w1 q1 : Nat) (i : XItem) (b : Block) : mqu (xput i b) w1 q1 = mqu b w1 q1 := rfl
@[simp] theorem mqu_tookSeq (w1 q1 : Nat)  (b : Block) : mqu (tookSeq  b) w1 q1 = mqu b w1 q1 := rfl
@[simp] theorem mqu_bump (w1 q1 : Nat) (a n : Nat) (b : Block) : mqu (bump a n b) w1 q1 = mqu b w1 q1 := rfl
@[simp] theorem mqu_wr (w1 q1 : Nat) (p : Params) (a : Nat) (v : Word32) (b : Block) : mqu (wr p a v b) w1 q1 = mqu b w1 q1 := rfl

@[simp] theorem cqu_updEnt (w1 q1 : Nat) (h : Nat) (f : Entry → Entry) (b : Block) : cqu (updEnt h f b) w1 q1 = cqu b w1 q1 := rfl
@[simp] theorem cqu_updPort (w1 q1 : Nat) (n : Nat) (f : Port → Port) (b : Block) : cqu (updPort n f b) w1 q1 = cqu b w1 q1 := rfl
@[simp] theorem cqu_updRing (w1 q1 : Nat) (r : Nat) (f : Ring → Ring) (b : Block) : cqu (updRing r f b) w1 q1 = cqu b w1 q1 := rfl
@[simp] theorem cqu_updWalk (w1 q1 : Nat) (r : Nat) (f : Walk → Walk) (b : Block) : cqu (updWalk r f b) w1 q1 = cqu b w1 q1 := rfl
@[simp] theorem cqu_updTen (w1 q1 : Nat) (t : Nat) (f : Tenant → Tenant) (b : Block) : cqu (updTen t f b) w1 q1 = cqu b w1 q1 := rfl
@[simp] theorem cqu_updSlot (w1 q1 : Nat) (w n : Nat) (f : Slot → Slot) (b : Block) : cqu (updSlot w n f b) w1 q1 = cqu b w1 q1 := rfl
@[simp] theorem cqu_updMQ (w1 q1 : Nat) (w q : Nat) (f : MQ → MQ) (b : Block) : cqu (updMQ w q f b) w1 q1 = cqu b w1 q1 := rfl
@[simp] theorem cqu_updHasp (w1 q1 : Nat) (h : Nat) (f : Hasp → Hasp) (b : Block) : cqu (updHasp h f b) w1 q1 = cqu b w1 q1 := rfl
@[simp] theorem cqu_updKPool (w1 q1 : Nat) (n k : Nat) (f : KPool → KPool) (b : Block) : cqu (updKPool n k f b) w1 q1 = cqu b w1 q1 := rfl
@[simp] theorem cqu_setChan (w1 q1 : Nat) (c : Nat) (v : Option Chan) (b : Block) : cqu (setChan c v b) w1 q1 = cqu b w1 q1 := rfl
@[simp] theorem cqu_updHinge (w1 q1 : Nat) (h : Nat) (f : Hinge → Hinge) (b : Block) : cqu (updHinge h f b) w1 q1 = cqu b w1 q1 := rfl
@[simp] theorem cqu_updPcl (w1 q1 : Nat) (c : Nat) (f : PClass → PClass) (b : Block) : cqu (updPcl c f b) w1 q1 = cqu b w1 q1 := rfl
@[simp] theorem cqu_updDom (w1 q1 : Nat) (d : Nat) (f : Dom → Dom) (b : Block) : cqu (updDom d f b) w1 q1 = cqu b w1 q1 := rfl
@[simp] theorem cqu_updFed (w1 q1 : Nat) (w : Nat) (f : FedTab → FedTab) (b : Block) : cqu (updFed w f b) w1 q1 = cqu b w1 q1 := rfl
@[simp] theorem cqu_updDb (w1 q1 : Nat) (f : Dbolt → Dbolt) (b : Block) : cqu (updDb f b) w1 q1 = cqu b w1 q1 := rfl
@[simp] theorem cqu_updBoot (w1 q1 : Nat) (f : Boot → Boot) (b : Block) : cqu (updBoot f b) w1 q1 = cqu b w1 q1 := rfl
@[simp] theorem cqu_updClk (w1 q1 : Nat) (f : Clk → Clk) (b : Block) : cqu (updClk f b) w1 q1 = cqu b w1 q1 := rfl
@[simp] theorem cqu_updMgt (w1 q1 : Nat) (f : Mgt → Mgt) (b : Block) : cqu (updMgt f b) w1 q1 = cqu b w1 q1 := rfl
@[simp] theorem cqu_updTr (w1 q1 : Nat) (f : Trace → Trace) (b : Block) : cqu (updTr f b) w1 q1 = cqu b w1 q1 := rfl
@[simp] theorem cqu_updLog (w1 q1 : Nat) (f : Log → Log) (b : Block) : cqu (updLog f b) w1 q1 = cqu b w1 q1 := rfl
@[simp] theorem cqu_updMeter (w1 q1 : Nat) (f : Meter → Meter) (b : Block) : cqu (updMeter f b) w1 q1 = cqu b w1 q1 := rfl
@[simp] theorem cqu_emit (w1 q1 : Nat) (o : Out) (b : Block) : cqu (emit o b) w1 q1 = cqu b w1 q1 := rfl
@[simp] theorem cqu_xput (w1 q1 : Nat) (i : XItem) (b : Block) : cqu (xput i b) w1 q1 = cqu b w1 q1 := rfl
@[simp] theorem cqu_tookSeq (w1 q1 : Nat)  (b : Block) : cqu (tookSeq  b) w1 q1 = cqu b w1 q1 := rfl
@[simp] theorem cqu_bump (w1 q1 : Nat) (a n : Nat) (b : Block) : cqu (bump a n b) w1 q1 = cqu b w1 q1 := rfl
@[simp] theorem cqu_wr (w1 q1 : Nat) (p : Params) (a : Nat) (v : Word32) (b : Block) : cqu (wr p a v b) w1 q1 = cqu b w1 q1 := rfl

@[simp] theorem hsp_updEnt (h1 : Nat) (h : Nat) (f : Entry → Entry) (b : Block) : hsp (updEnt h f b) h1 = hsp b h1 := rfl
@[simp] theorem hsp_updPort (h1 : Nat) (n : Nat) (f : Port → Port) (b : Block) : hsp (updPort n f b) h1 = hsp b h1 := rfl
@[simp] theorem hsp_updRing (h1 : Nat) (r : Nat) (f : Ring → Ring) (b : Block) : hsp (updRing r f b) h1 = hsp b h1 := rfl
@[simp] theorem hsp_updWalk (h1 : Nat) (r : Nat) (f : Walk → Walk) (b : Block) : hsp (updWalk r f b) h1 = hsp b h1 := rfl
@[simp] theorem hsp_updTen (h1 : Nat) (t : Nat) (f : Tenant → Tenant) (b : Block) : hsp (updTen t f b) h1 = hsp b h1 := rfl
@[simp] theorem hsp_updSlot (h1 : Nat) (w n : Nat) (f : Slot → Slot) (b : Block) : hsp (updSlot w n f b) h1 = hsp b h1 := rfl
@[simp] theorem hsp_updMQ (h1 : Nat) (w q : Nat) (f : MQ → MQ) (b : Block) : hsp (updMQ w q f b) h1 = hsp b h1 := rfl
@[simp] theorem hsp_updCQ (h1 : Nat) (w q : Nat) (f : CQ → CQ) (b : Block) : hsp (updCQ w q f b) h1 = hsp b h1 := rfl
@[simp] theorem hsp_updKPool (h1 : Nat) (n k : Nat) (f : KPool → KPool) (b : Block) : hsp (updKPool n k f b) h1 = hsp b h1 := rfl
@[simp] theorem hsp_setChan (h1 : Nat) (c : Nat) (v : Option Chan) (b : Block) : hsp (setChan c v b) h1 = hsp b h1 := rfl
@[simp] theorem hsp_updHinge (h1 : Nat) (h : Nat) (f : Hinge → Hinge) (b : Block) : hsp (updHinge h f b) h1 = hsp b h1 := rfl
@[simp] theorem hsp_updPcl (h1 : Nat) (c : Nat) (f : PClass → PClass) (b : Block) : hsp (updPcl c f b) h1 = hsp b h1 := rfl
@[simp] theorem hsp_updDom (h1 : Nat) (d : Nat) (f : Dom → Dom) (b : Block) : hsp (updDom d f b) h1 = hsp b h1 := rfl
@[simp] theorem hsp_updFed (h1 : Nat) (w : Nat) (f : FedTab → FedTab) (b : Block) : hsp (updFed w f b) h1 = hsp b h1 := rfl
@[simp] theorem hsp_updDb (h1 : Nat) (f : Dbolt → Dbolt) (b : Block) : hsp (updDb f b) h1 = hsp b h1 := rfl
@[simp] theorem hsp_updBoot (h1 : Nat) (f : Boot → Boot) (b : Block) : hsp (updBoot f b) h1 = hsp b h1 := rfl
@[simp] theorem hsp_updClk (h1 : Nat) (f : Clk → Clk) (b : Block) : hsp (updClk f b) h1 = hsp b h1 := rfl
@[simp] theorem hsp_updMgt (h1 : Nat) (f : Mgt → Mgt) (b : Block) : hsp (updMgt f b) h1 = hsp b h1 := rfl
@[simp] theorem hsp_updTr (h1 : Nat) (f : Trace → Trace) (b : Block) : hsp (updTr f b) h1 = hsp b h1 := rfl
@[simp] theorem hsp_updLog (h1 : Nat) (f : Log → Log) (b : Block) : hsp (updLog f b) h1 = hsp b h1 := rfl
@[simp] theorem hsp_updMeter (h1 : Nat) (f : Meter → Meter) (b : Block) : hsp (updMeter f b) h1 = hsp b h1 := rfl
@[simp] theorem hsp_emit (h1 : Nat) (o : Out) (b : Block) : hsp (emit o b) h1 = hsp b h1 := rfl
@[simp] theorem hsp_xput (h1 : Nat) (i : XItem) (b : Block) : hsp (xput i b) h1 = hsp b h1 := rfl
@[simp] theorem hsp_tookSeq (h1 : Nat)  (b : Block) : hsp (tookSeq  b) h1 = hsp b h1 := rfl
@[simp] theorem hsp_bump (h1 : Nat) (a n : Nat) (b : Block) : hsp (bump a n b) h1 = hsp b h1 := rfl
@[simp] theorem hsp_wr (h1 : Nat) (p : Params) (a : Nat) (v : Word32) (b : Block) : hsp (wr p a v b) h1 = hsp b h1 := rfl

@[simp] theorem kpl_updEnt (n1 k1 : Nat) (h : Nat) (f : Entry → Entry) (b : Block) : kpl (updEnt h f b) n1 k1 = kpl b n1 k1 := rfl
@[simp] theorem kpl_updPort (n1 k1 : Nat) (n : Nat) (f : Port → Port) (b : Block) : kpl (updPort n f b) n1 k1 = kpl b n1 k1 := rfl
@[simp] theorem kpl_updRing (n1 k1 : Nat) (r : Nat) (f : Ring → Ring) (b : Block) : kpl (updRing r f b) n1 k1 = kpl b n1 k1 := rfl
@[simp] theorem kpl_updWalk (n1 k1 : Nat) (r : Nat) (f : Walk → Walk) (b : Block) : kpl (updWalk r f b) n1 k1 = kpl b n1 k1 := rfl
@[simp] theorem kpl_updTen (n1 k1 : Nat) (t : Nat) (f : Tenant → Tenant) (b : Block) : kpl (updTen t f b) n1 k1 = kpl b n1 k1 := rfl
@[simp] theorem kpl_updSlot (n1 k1 : Nat) (w n : Nat) (f : Slot → Slot) (b : Block) : kpl (updSlot w n f b) n1 k1 = kpl b n1 k1 := rfl
@[simp] theorem kpl_updMQ (n1 k1 : Nat) (w q : Nat) (f : MQ → MQ) (b : Block) : kpl (updMQ w q f b) n1 k1 = kpl b n1 k1 := rfl
@[simp] theorem kpl_updCQ (n1 k1 : Nat) (w q : Nat) (f : CQ → CQ) (b : Block) : kpl (updCQ w q f b) n1 k1 = kpl b n1 k1 := rfl
@[simp] theorem kpl_updHasp (n1 k1 : Nat) (h : Nat) (f : Hasp → Hasp) (b : Block) : kpl (updHasp h f b) n1 k1 = kpl b n1 k1 := rfl
@[simp] theorem kpl_setChan (n1 k1 : Nat) (c : Nat) (v : Option Chan) (b : Block) : kpl (setChan c v b) n1 k1 = kpl b n1 k1 := rfl
@[simp] theorem kpl_updHinge (n1 k1 : Nat) (h : Nat) (f : Hinge → Hinge) (b : Block) : kpl (updHinge h f b) n1 k1 = kpl b n1 k1 := rfl
@[simp] theorem kpl_updPcl (n1 k1 : Nat) (c : Nat) (f : PClass → PClass) (b : Block) : kpl (updPcl c f b) n1 k1 = kpl b n1 k1 := rfl
@[simp] theorem kpl_updDom (n1 k1 : Nat) (d : Nat) (f : Dom → Dom) (b : Block) : kpl (updDom d f b) n1 k1 = kpl b n1 k1 := rfl
@[simp] theorem kpl_updFed (n1 k1 : Nat) (w : Nat) (f : FedTab → FedTab) (b : Block) : kpl (updFed w f b) n1 k1 = kpl b n1 k1 := rfl
@[simp] theorem kpl_updDb (n1 k1 : Nat) (f : Dbolt → Dbolt) (b : Block) : kpl (updDb f b) n1 k1 = kpl b n1 k1 := rfl
@[simp] theorem kpl_updBoot (n1 k1 : Nat) (f : Boot → Boot) (b : Block) : kpl (updBoot f b) n1 k1 = kpl b n1 k1 := rfl
@[simp] theorem kpl_updClk (n1 k1 : Nat) (f : Clk → Clk) (b : Block) : kpl (updClk f b) n1 k1 = kpl b n1 k1 := rfl
@[simp] theorem kpl_updMgt (n1 k1 : Nat) (f : Mgt → Mgt) (b : Block) : kpl (updMgt f b) n1 k1 = kpl b n1 k1 := rfl
@[simp] theorem kpl_updTr (n1 k1 : Nat) (f : Trace → Trace) (b : Block) : kpl (updTr f b) n1 k1 = kpl b n1 k1 := rfl
@[simp] theorem kpl_updLog (n1 k1 : Nat) (f : Log → Log) (b : Block) : kpl (updLog f b) n1 k1 = kpl b n1 k1 := rfl
@[simp] theorem kpl_updMeter (n1 k1 : Nat) (f : Meter → Meter) (b : Block) : kpl (updMeter f b) n1 k1 = kpl b n1 k1 := rfl
@[simp] theorem kpl_emit (n1 k1 : Nat) (o : Out) (b : Block) : kpl (emit o b) n1 k1 = kpl b n1 k1 := rfl
@[simp] theorem kpl_xput (n1 k1 : Nat) (i : XItem) (b : Block) : kpl (xput i b) n1 k1 = kpl b n1 k1 := rfl
@[simp] theorem kpl_tookSeq (n1 k1 : Nat)  (b : Block) : kpl (tookSeq  b) n1 k1 = kpl b n1 k1 := rfl
@[simp] theorem kpl_bump (n1 k1 : Nat) (a n : Nat) (b : Block) : kpl (bump a n b) n1 k1 = kpl b n1 k1 := rfl
@[simp] theorem kpl_wr (n1 k1 : Nat) (p : Params) (a : Nat) (v : Word32) (b : Block) : kpl (wr p a v b) n1 k1 = kpl b n1 k1 := rfl

@[simp] theorem chn_updEnt (c1 : Nat) (h : Nat) (f : Entry → Entry) (b : Block) : chn (updEnt h f b) c1 = chn b c1 := rfl
@[simp] theorem chn_updPort (c1 : Nat) (n : Nat) (f : Port → Port) (b : Block) : chn (updPort n f b) c1 = chn b c1 := rfl
@[simp] theorem chn_updRing (c1 : Nat) (r : Nat) (f : Ring → Ring) (b : Block) : chn (updRing r f b) c1 = chn b c1 := rfl
@[simp] theorem chn_updWalk (c1 : Nat) (r : Nat) (f : Walk → Walk) (b : Block) : chn (updWalk r f b) c1 = chn b c1 := rfl
@[simp] theorem chn_updTen (c1 : Nat) (t : Nat) (f : Tenant → Tenant) (b : Block) : chn (updTen t f b) c1 = chn b c1 := rfl
@[simp] theorem chn_updSlot (c1 : Nat) (w n : Nat) (f : Slot → Slot) (b : Block) : chn (updSlot w n f b) c1 = chn b c1 := rfl
@[simp] theorem chn_updMQ (c1 : Nat) (w q : Nat) (f : MQ → MQ) (b : Block) : chn (updMQ w q f b) c1 = chn b c1 := rfl
@[simp] theorem chn_updCQ (c1 : Nat) (w q : Nat) (f : CQ → CQ) (b : Block) : chn (updCQ w q f b) c1 = chn b c1 := rfl
@[simp] theorem chn_updHasp (c1 : Nat) (h : Nat) (f : Hasp → Hasp) (b : Block) : chn (updHasp h f b) c1 = chn b c1 := rfl
@[simp] theorem chn_updKPool (c1 : Nat) (n k : Nat) (f : KPool → KPool) (b : Block) : chn (updKPool n k f b) c1 = chn b c1 := rfl
@[simp] theorem chn_updHinge (c1 : Nat) (h : Nat) (f : Hinge → Hinge) (b : Block) : chn (updHinge h f b) c1 = chn b c1 := rfl
@[simp] theorem chn_updPcl (c1 : Nat) (c : Nat) (f : PClass → PClass) (b : Block) : chn (updPcl c f b) c1 = chn b c1 := rfl
@[simp] theorem chn_updDom (c1 : Nat) (d : Nat) (f : Dom → Dom) (b : Block) : chn (updDom d f b) c1 = chn b c1 := rfl
@[simp] theorem chn_updFed (c1 : Nat) (w : Nat) (f : FedTab → FedTab) (b : Block) : chn (updFed w f b) c1 = chn b c1 := rfl
@[simp] theorem chn_updDb (c1 : Nat) (f : Dbolt → Dbolt) (b : Block) : chn (updDb f b) c1 = chn b c1 := rfl
@[simp] theorem chn_updBoot (c1 : Nat) (f : Boot → Boot) (b : Block) : chn (updBoot f b) c1 = chn b c1 := rfl
@[simp] theorem chn_updClk (c1 : Nat) (f : Clk → Clk) (b : Block) : chn (updClk f b) c1 = chn b c1 := rfl
@[simp] theorem chn_updMgt (c1 : Nat) (f : Mgt → Mgt) (b : Block) : chn (updMgt f b) c1 = chn b c1 := rfl
@[simp] theorem chn_updTr (c1 : Nat) (f : Trace → Trace) (b : Block) : chn (updTr f b) c1 = chn b c1 := rfl
@[simp] theorem chn_updLog (c1 : Nat) (f : Log → Log) (b : Block) : chn (updLog f b) c1 = chn b c1 := rfl
@[simp] theorem chn_updMeter (c1 : Nat) (f : Meter → Meter) (b : Block) : chn (updMeter f b) c1 = chn b c1 := rfl
@[simp] theorem chn_emit (c1 : Nat) (o : Out) (b : Block) : chn (emit o b) c1 = chn b c1 := rfl
@[simp] theorem chn_xput (c1 : Nat) (i : XItem) (b : Block) : chn (xput i b) c1 = chn b c1 := rfl
@[simp] theorem chn_tookSeq (c1 : Nat)  (b : Block) : chn (tookSeq  b) c1 = chn b c1 := rfl
@[simp] theorem chn_bump (c1 : Nat) (a n : Nat) (b : Block) : chn (bump a n b) c1 = chn b c1 := rfl
@[simp] theorem chn_wr (c1 : Nat) (p : Params) (a : Nat) (v : Word32) (b : Block) : chn (wr p a v b) c1 = chn b c1 := rfl

@[simp] theorem hng_updEnt (h1 : Nat) (h : Nat) (f : Entry → Entry) (b : Block) : hng (updEnt h f b) h1 = hng b h1 := rfl
@[simp] theorem hng_updPort (h1 : Nat) (n : Nat) (f : Port → Port) (b : Block) : hng (updPort n f b) h1 = hng b h1 := rfl
@[simp] theorem hng_updRing (h1 : Nat) (r : Nat) (f : Ring → Ring) (b : Block) : hng (updRing r f b) h1 = hng b h1 := rfl
@[simp] theorem hng_updWalk (h1 : Nat) (r : Nat) (f : Walk → Walk) (b : Block) : hng (updWalk r f b) h1 = hng b h1 := rfl
@[simp] theorem hng_updTen (h1 : Nat) (t : Nat) (f : Tenant → Tenant) (b : Block) : hng (updTen t f b) h1 = hng b h1 := rfl
@[simp] theorem hng_updSlot (h1 : Nat) (w n : Nat) (f : Slot → Slot) (b : Block) : hng (updSlot w n f b) h1 = hng b h1 := rfl
@[simp] theorem hng_updMQ (h1 : Nat) (w q : Nat) (f : MQ → MQ) (b : Block) : hng (updMQ w q f b) h1 = hng b h1 := rfl
@[simp] theorem hng_updCQ (h1 : Nat) (w q : Nat) (f : CQ → CQ) (b : Block) : hng (updCQ w q f b) h1 = hng b h1 := rfl
@[simp] theorem hng_updHasp (h1 : Nat) (h : Nat) (f : Hasp → Hasp) (b : Block) : hng (updHasp h f b) h1 = hng b h1 := rfl
@[simp] theorem hng_updKPool (h1 : Nat) (n k : Nat) (f : KPool → KPool) (b : Block) : hng (updKPool n k f b) h1 = hng b h1 := rfl
@[simp] theorem hng_setChan (h1 : Nat) (c : Nat) (v : Option Chan) (b : Block) : hng (setChan c v b) h1 = hng b h1 := rfl
@[simp] theorem hng_updPcl (h1 : Nat) (c : Nat) (f : PClass → PClass) (b : Block) : hng (updPcl c f b) h1 = hng b h1 := rfl
@[simp] theorem hng_updDom (h1 : Nat) (d : Nat) (f : Dom → Dom) (b : Block) : hng (updDom d f b) h1 = hng b h1 := rfl
@[simp] theorem hng_updFed (h1 : Nat) (w : Nat) (f : FedTab → FedTab) (b : Block) : hng (updFed w f b) h1 = hng b h1 := rfl
@[simp] theorem hng_updDb (h1 : Nat) (f : Dbolt → Dbolt) (b : Block) : hng (updDb f b) h1 = hng b h1 := rfl
@[simp] theorem hng_updBoot (h1 : Nat) (f : Boot → Boot) (b : Block) : hng (updBoot f b) h1 = hng b h1 := rfl
@[simp] theorem hng_updClk (h1 : Nat) (f : Clk → Clk) (b : Block) : hng (updClk f b) h1 = hng b h1 := rfl
@[simp] theorem hng_updMgt (h1 : Nat) (f : Mgt → Mgt) (b : Block) : hng (updMgt f b) h1 = hng b h1 := rfl
@[simp] theorem hng_updTr (h1 : Nat) (f : Trace → Trace) (b : Block) : hng (updTr f b) h1 = hng b h1 := rfl
@[simp] theorem hng_updLog (h1 : Nat) (f : Log → Log) (b : Block) : hng (updLog f b) h1 = hng b h1 := rfl
@[simp] theorem hng_updMeter (h1 : Nat) (f : Meter → Meter) (b : Block) : hng (updMeter f b) h1 = hng b h1 := rfl
@[simp] theorem hng_emit (h1 : Nat) (o : Out) (b : Block) : hng (emit o b) h1 = hng b h1 := rfl
@[simp] theorem hng_xput (h1 : Nat) (i : XItem) (b : Block) : hng (xput i b) h1 = hng b h1 := rfl
@[simp] theorem hng_tookSeq (h1 : Nat)  (b : Block) : hng (tookSeq  b) h1 = hng b h1 := rfl
@[simp] theorem hng_bump (h1 : Nat) (a n : Nat) (b : Block) : hng (bump a n b) h1 = hng b h1 := rfl
@[simp] theorem hng_wr (h1 : Nat) (p : Params) (a : Nat) (v : Word32) (b : Block) : hng (wr p a v b) h1 = hng b h1 := rfl

@[simp] theorem pcl_updEnt (c1 : Nat) (h : Nat) (f : Entry → Entry) (b : Block) : pcl (updEnt h f b) c1 = pcl b c1 := rfl
@[simp] theorem pcl_updPort (c1 : Nat) (n : Nat) (f : Port → Port) (b : Block) : pcl (updPort n f b) c1 = pcl b c1 := rfl
@[simp] theorem pcl_updRing (c1 : Nat) (r : Nat) (f : Ring → Ring) (b : Block) : pcl (updRing r f b) c1 = pcl b c1 := rfl
@[simp] theorem pcl_updWalk (c1 : Nat) (r : Nat) (f : Walk → Walk) (b : Block) : pcl (updWalk r f b) c1 = pcl b c1 := rfl
@[simp] theorem pcl_updTen (c1 : Nat) (t : Nat) (f : Tenant → Tenant) (b : Block) : pcl (updTen t f b) c1 = pcl b c1 := rfl
@[simp] theorem pcl_updSlot (c1 : Nat) (w n : Nat) (f : Slot → Slot) (b : Block) : pcl (updSlot w n f b) c1 = pcl b c1 := rfl
@[simp] theorem pcl_updMQ (c1 : Nat) (w q : Nat) (f : MQ → MQ) (b : Block) : pcl (updMQ w q f b) c1 = pcl b c1 := rfl
@[simp] theorem pcl_updCQ (c1 : Nat) (w q : Nat) (f : CQ → CQ) (b : Block) : pcl (updCQ w q f b) c1 = pcl b c1 := rfl
@[simp] theorem pcl_updHasp (c1 : Nat) (h : Nat) (f : Hasp → Hasp) (b : Block) : pcl (updHasp h f b) c1 = pcl b c1 := rfl
@[simp] theorem pcl_updKPool (c1 : Nat) (n k : Nat) (f : KPool → KPool) (b : Block) : pcl (updKPool n k f b) c1 = pcl b c1 := rfl
@[simp] theorem pcl_setChan (c1 : Nat) (c : Nat) (v : Option Chan) (b : Block) : pcl (setChan c v b) c1 = pcl b c1 := rfl
@[simp] theorem pcl_updHinge (c1 : Nat) (h : Nat) (f : Hinge → Hinge) (b : Block) : pcl (updHinge h f b) c1 = pcl b c1 := rfl
@[simp] theorem pcl_updDom (c1 : Nat) (d : Nat) (f : Dom → Dom) (b : Block) : pcl (updDom d f b) c1 = pcl b c1 := rfl
@[simp] theorem pcl_updFed (c1 : Nat) (w : Nat) (f : FedTab → FedTab) (b : Block) : pcl (updFed w f b) c1 = pcl b c1 := rfl
@[simp] theorem pcl_updDb (c1 : Nat) (f : Dbolt → Dbolt) (b : Block) : pcl (updDb f b) c1 = pcl b c1 := rfl
@[simp] theorem pcl_updBoot (c1 : Nat) (f : Boot → Boot) (b : Block) : pcl (updBoot f b) c1 = pcl b c1 := rfl
@[simp] theorem pcl_updClk (c1 : Nat) (f : Clk → Clk) (b : Block) : pcl (updClk f b) c1 = pcl b c1 := rfl
@[simp] theorem pcl_updMgt (c1 : Nat) (f : Mgt → Mgt) (b : Block) : pcl (updMgt f b) c1 = pcl b c1 := rfl
@[simp] theorem pcl_updTr (c1 : Nat) (f : Trace → Trace) (b : Block) : pcl (updTr f b) c1 = pcl b c1 := rfl
@[simp] theorem pcl_updLog (c1 : Nat) (f : Log → Log) (b : Block) : pcl (updLog f b) c1 = pcl b c1 := rfl
@[simp] theorem pcl_updMeter (c1 : Nat) (f : Meter → Meter) (b : Block) : pcl (updMeter f b) c1 = pcl b c1 := rfl
@[simp] theorem pcl_emit (c1 : Nat) (o : Out) (b : Block) : pcl (emit o b) c1 = pcl b c1 := rfl
@[simp] theorem pcl_xput (c1 : Nat) (i : XItem) (b : Block) : pcl (xput i b) c1 = pcl b c1 := rfl
@[simp] theorem pcl_tookSeq (c1 : Nat)  (b : Block) : pcl (tookSeq  b) c1 = pcl b c1 := rfl
@[simp] theorem pcl_bump (c1 : Nat) (a n : Nat) (b : Block) : pcl (bump a n b) c1 = pcl b c1 := rfl
@[simp] theorem pcl_wr (c1 : Nat) (p : Params) (a : Nat) (v : Word32) (b : Block) : pcl (wr p a v b) c1 = pcl b c1 := rfl

@[simp] theorem dmn_updEnt (d1 : Nat) (h : Nat) (f : Entry → Entry) (b : Block) : dmn (updEnt h f b) d1 = dmn b d1 := rfl
@[simp] theorem dmn_updPort (d1 : Nat) (n : Nat) (f : Port → Port) (b : Block) : dmn (updPort n f b) d1 = dmn b d1 := rfl
@[simp] theorem dmn_updRing (d1 : Nat) (r : Nat) (f : Ring → Ring) (b : Block) : dmn (updRing r f b) d1 = dmn b d1 := rfl
@[simp] theorem dmn_updWalk (d1 : Nat) (r : Nat) (f : Walk → Walk) (b : Block) : dmn (updWalk r f b) d1 = dmn b d1 := rfl
@[simp] theorem dmn_updTen (d1 : Nat) (t : Nat) (f : Tenant → Tenant) (b : Block) : dmn (updTen t f b) d1 = dmn b d1 := rfl
@[simp] theorem dmn_updSlot (d1 : Nat) (w n : Nat) (f : Slot → Slot) (b : Block) : dmn (updSlot w n f b) d1 = dmn b d1 := rfl
@[simp] theorem dmn_updMQ (d1 : Nat) (w q : Nat) (f : MQ → MQ) (b : Block) : dmn (updMQ w q f b) d1 = dmn b d1 := rfl
@[simp] theorem dmn_updCQ (d1 : Nat) (w q : Nat) (f : CQ → CQ) (b : Block) : dmn (updCQ w q f b) d1 = dmn b d1 := rfl
@[simp] theorem dmn_updHasp (d1 : Nat) (h : Nat) (f : Hasp → Hasp) (b : Block) : dmn (updHasp h f b) d1 = dmn b d1 := rfl
@[simp] theorem dmn_updKPool (d1 : Nat) (n k : Nat) (f : KPool → KPool) (b : Block) : dmn (updKPool n k f b) d1 = dmn b d1 := rfl
@[simp] theorem dmn_setChan (d1 : Nat) (c : Nat) (v : Option Chan) (b : Block) : dmn (setChan c v b) d1 = dmn b d1 := rfl
@[simp] theorem dmn_updHinge (d1 : Nat) (h : Nat) (f : Hinge → Hinge) (b : Block) : dmn (updHinge h f b) d1 = dmn b d1 := rfl
@[simp] theorem dmn_updPcl (d1 : Nat) (c : Nat) (f : PClass → PClass) (b : Block) : dmn (updPcl c f b) d1 = dmn b d1 := rfl
@[simp] theorem dmn_updFed (d1 : Nat) (w : Nat) (f : FedTab → FedTab) (b : Block) : dmn (updFed w f b) d1 = dmn b d1 := rfl
@[simp] theorem dmn_updDb (d1 : Nat) (f : Dbolt → Dbolt) (b : Block) : dmn (updDb f b) d1 = dmn b d1 := rfl
@[simp] theorem dmn_updBoot (d1 : Nat) (f : Boot → Boot) (b : Block) : dmn (updBoot f b) d1 = dmn b d1 := rfl
@[simp] theorem dmn_updClk (d1 : Nat) (f : Clk → Clk) (b : Block) : dmn (updClk f b) d1 = dmn b d1 := rfl
@[simp] theorem dmn_updMgt (d1 : Nat) (f : Mgt → Mgt) (b : Block) : dmn (updMgt f b) d1 = dmn b d1 := rfl
@[simp] theorem dmn_updTr (d1 : Nat) (f : Trace → Trace) (b : Block) : dmn (updTr f b) d1 = dmn b d1 := rfl
@[simp] theorem dmn_updLog (d1 : Nat) (f : Log → Log) (b : Block) : dmn (updLog f b) d1 = dmn b d1 := rfl
@[simp] theorem dmn_updMeter (d1 : Nat) (f : Meter → Meter) (b : Block) : dmn (updMeter f b) d1 = dmn b d1 := rfl
@[simp] theorem dmn_emit (d1 : Nat) (o : Out) (b : Block) : dmn (emit o b) d1 = dmn b d1 := rfl
@[simp] theorem dmn_xput (d1 : Nat) (i : XItem) (b : Block) : dmn (xput i b) d1 = dmn b d1 := rfl
@[simp] theorem dmn_tookSeq (d1 : Nat)  (b : Block) : dmn (tookSeq  b) d1 = dmn b d1 := rfl
@[simp] theorem dmn_bump (d1 : Nat) (a n : Nat) (b : Block) : dmn (bump a n b) d1 = dmn b d1 := rfl
@[simp] theorem dmn_wr (d1 : Nat) (p : Params) (a : Nat) (v : Word32) (b : Block) : dmn (wr p a v b) d1 = dmn b d1 := rfl

@[simp] theorem rte_updEnt (i1 : Nat) (h : Nat) (f : Entry → Entry) (b : Block) : rte (updEnt h f b) i1 = rte b i1 := rfl
@[simp] theorem rte_updPort (i1 : Nat) (n : Nat) (f : Port → Port) (b : Block) : rte (updPort n f b) i1 = rte b i1 := rfl
@[simp] theorem rte_updRing (i1 : Nat) (r : Nat) (f : Ring → Ring) (b : Block) : rte (updRing r f b) i1 = rte b i1 := rfl
@[simp] theorem rte_updWalk (i1 : Nat) (r : Nat) (f : Walk → Walk) (b : Block) : rte (updWalk r f b) i1 = rte b i1 := rfl
@[simp] theorem rte_updTen (i1 : Nat) (t : Nat) (f : Tenant → Tenant) (b : Block) : rte (updTen t f b) i1 = rte b i1 := rfl
@[simp] theorem rte_updSlot (i1 : Nat) (w n : Nat) (f : Slot → Slot) (b : Block) : rte (updSlot w n f b) i1 = rte b i1 := rfl
@[simp] theorem rte_updMQ (i1 : Nat) (w q : Nat) (f : MQ → MQ) (b : Block) : rte (updMQ w q f b) i1 = rte b i1 := rfl
@[simp] theorem rte_updCQ (i1 : Nat) (w q : Nat) (f : CQ → CQ) (b : Block) : rte (updCQ w q f b) i1 = rte b i1 := rfl
@[simp] theorem rte_updHasp (i1 : Nat) (h : Nat) (f : Hasp → Hasp) (b : Block) : rte (updHasp h f b) i1 = rte b i1 := rfl
@[simp] theorem rte_updKPool (i1 : Nat) (n k : Nat) (f : KPool → KPool) (b : Block) : rte (updKPool n k f b) i1 = rte b i1 := rfl
@[simp] theorem rte_setChan (i1 : Nat) (c : Nat) (v : Option Chan) (b : Block) : rte (setChan c v b) i1 = rte b i1 := rfl
@[simp] theorem rte_updHinge (i1 : Nat) (h : Nat) (f : Hinge → Hinge) (b : Block) : rte (updHinge h f b) i1 = rte b i1 := rfl
@[simp] theorem rte_updPcl (i1 : Nat) (c : Nat) (f : PClass → PClass) (b : Block) : rte (updPcl c f b) i1 = rte b i1 := rfl
@[simp] theorem rte_updDom (i1 : Nat) (d : Nat) (f : Dom → Dom) (b : Block) : rte (updDom d f b) i1 = rte b i1 := rfl
@[simp] theorem rte_updFed (i1 : Nat) (w : Nat) (f : FedTab → FedTab) (b : Block) : rte (updFed w f b) i1 = rte b i1 := rfl
@[simp] theorem rte_updDb (i1 : Nat) (f : Dbolt → Dbolt) (b : Block) : rte (updDb f b) i1 = rte b i1 := rfl
@[simp] theorem rte_updBoot (i1 : Nat) (f : Boot → Boot) (b : Block) : rte (updBoot f b) i1 = rte b i1 := rfl
@[simp] theorem rte_updClk (i1 : Nat) (f : Clk → Clk) (b : Block) : rte (updClk f b) i1 = rte b i1 := rfl
@[simp] theorem rte_updMgt (i1 : Nat) (f : Mgt → Mgt) (b : Block) : rte (updMgt f b) i1 = rte b i1 := rfl
@[simp] theorem rte_updTr (i1 : Nat) (f : Trace → Trace) (b : Block) : rte (updTr f b) i1 = rte b i1 := rfl
@[simp] theorem rte_updLog (i1 : Nat) (f : Log → Log) (b : Block) : rte (updLog f b) i1 = rte b i1 := rfl
@[simp] theorem rte_updMeter (i1 : Nat) (f : Meter → Meter) (b : Block) : rte (updMeter f b) i1 = rte b i1 := rfl
@[simp] theorem rte_emit (i1 : Nat) (o : Out) (b : Block) : rte (emit o b) i1 = rte b i1 := rfl
@[simp] theorem rte_xput (i1 : Nat) (i : XItem) (b : Block) : rte (xput i b) i1 = rte b i1 := rfl
@[simp] theorem rte_tookSeq (i1 : Nat)  (b : Block) : rte (tookSeq  b) i1 = rte b i1 := rfl
@[simp] theorem rte_bump (i1 : Nat) (a n : Nat) (b : Block) : rte (bump a n b) i1 = rte b i1 := rfl
@[simp] theorem rte_wr (i1 : Nat) (p : Params) (a : Nat) (v : Word32) (b : Block) : rte (wr p a v b) i1 = rte b i1 := rfl

@[simp] theorem fedOf_updEnt (w1 : Nat) (h : Nat) (f : Entry → Entry) (b : Block) : fedOf (updEnt h f b) w1 = fedOf b w1 := rfl
@[simp] theorem fedOf_updPort (w1 : Nat) (n : Nat) (f : Port → Port) (b : Block) : fedOf (updPort n f b) w1 = fedOf b w1 := rfl
@[simp] theorem fedOf_updRing (w1 : Nat) (r : Nat) (f : Ring → Ring) (b : Block) : fedOf (updRing r f b) w1 = fedOf b w1 := rfl
@[simp] theorem fedOf_updWalk (w1 : Nat) (r : Nat) (f : Walk → Walk) (b : Block) : fedOf (updWalk r f b) w1 = fedOf b w1 := rfl
@[simp] theorem fedOf_updTen (w1 : Nat) (t : Nat) (f : Tenant → Tenant) (b : Block) : fedOf (updTen t f b) w1 = fedOf b w1 := rfl
@[simp] theorem fedOf_updSlot (w1 : Nat) (w n : Nat) (f : Slot → Slot) (b : Block) : fedOf (updSlot w n f b) w1 = fedOf b w1 := rfl
@[simp] theorem fedOf_updMQ (w1 : Nat) (w q : Nat) (f : MQ → MQ) (b : Block) : fedOf (updMQ w q f b) w1 = fedOf b w1 := rfl
@[simp] theorem fedOf_updCQ (w1 : Nat) (w q : Nat) (f : CQ → CQ) (b : Block) : fedOf (updCQ w q f b) w1 = fedOf b w1 := rfl
@[simp] theorem fedOf_updHasp (w1 : Nat) (h : Nat) (f : Hasp → Hasp) (b : Block) : fedOf (updHasp h f b) w1 = fedOf b w1 := rfl
@[simp] theorem fedOf_updKPool (w1 : Nat) (n k : Nat) (f : KPool → KPool) (b : Block) : fedOf (updKPool n k f b) w1 = fedOf b w1 := rfl
@[simp] theorem fedOf_setChan (w1 : Nat) (c : Nat) (v : Option Chan) (b : Block) : fedOf (setChan c v b) w1 = fedOf b w1 := rfl
@[simp] theorem fedOf_updHinge (w1 : Nat) (h : Nat) (f : Hinge → Hinge) (b : Block) : fedOf (updHinge h f b) w1 = fedOf b w1 := rfl
@[simp] theorem fedOf_updPcl (w1 : Nat) (c : Nat) (f : PClass → PClass) (b : Block) : fedOf (updPcl c f b) w1 = fedOf b w1 := rfl
@[simp] theorem fedOf_updDom (w1 : Nat) (d : Nat) (f : Dom → Dom) (b : Block) : fedOf (updDom d f b) w1 = fedOf b w1 := rfl
@[simp] theorem fedOf_updDb (w1 : Nat) (f : Dbolt → Dbolt) (b : Block) : fedOf (updDb f b) w1 = fedOf b w1 := rfl
@[simp] theorem fedOf_updBoot (w1 : Nat) (f : Boot → Boot) (b : Block) : fedOf (updBoot f b) w1 = fedOf b w1 := rfl
@[simp] theorem fedOf_updClk (w1 : Nat) (f : Clk → Clk) (b : Block) : fedOf (updClk f b) w1 = fedOf b w1 := rfl
@[simp] theorem fedOf_updMgt (w1 : Nat) (f : Mgt → Mgt) (b : Block) : fedOf (updMgt f b) w1 = fedOf b w1 := rfl
@[simp] theorem fedOf_updTr (w1 : Nat) (f : Trace → Trace) (b : Block) : fedOf (updTr f b) w1 = fedOf b w1 := rfl
@[simp] theorem fedOf_updLog (w1 : Nat) (f : Log → Log) (b : Block) : fedOf (updLog f b) w1 = fedOf b w1 := rfl
@[simp] theorem fedOf_updMeter (w1 : Nat) (f : Meter → Meter) (b : Block) : fedOf (updMeter f b) w1 = fedOf b w1 := rfl
@[simp] theorem fedOf_emit (w1 : Nat) (o : Out) (b : Block) : fedOf (emit o b) w1 = fedOf b w1 := rfl
@[simp] theorem fedOf_xput (w1 : Nat) (i : XItem) (b : Block) : fedOf (xput i b) w1 = fedOf b w1 := rfl
@[simp] theorem fedOf_tookSeq (w1 : Nat)  (b : Block) : fedOf (tookSeq  b) w1 = fedOf b w1 := rfl
@[simp] theorem fedOf_bump (w1 : Nat) (a n : Nat) (b : Block) : fedOf (bump a n b) w1 = fedOf b w1 := rfl
@[simp] theorem fedOf_wr (w1 : Nat) (p : Params) (a : Nat) (v : Word32) (b : Block) : fedOf (wr p a v b) w1 = fedOf b w1 := rfl

@[simp] theorem stageOf_updEnt (u1 : Nat) (h : Nat) (f : Entry → Entry) (b : Block) : stageOf (updEnt h f b) u1 = stageOf b u1 := rfl
@[simp] theorem stageOf_updPort (u1 : Nat) (n : Nat) (f : Port → Port) (b : Block) : stageOf (updPort n f b) u1 = stageOf b u1 := rfl
@[simp] theorem stageOf_updRing (u1 : Nat) (r : Nat) (f : Ring → Ring) (b : Block) : stageOf (updRing r f b) u1 = stageOf b u1 := rfl
@[simp] theorem stageOf_updWalk (u1 : Nat) (r : Nat) (f : Walk → Walk) (b : Block) : stageOf (updWalk r f b) u1 = stageOf b u1 := rfl
@[simp] theorem stageOf_updTen (u1 : Nat) (t : Nat) (f : Tenant → Tenant) (b : Block) : stageOf (updTen t f b) u1 = stageOf b u1 := rfl
@[simp] theorem stageOf_updSlot (u1 : Nat) (w n : Nat) (f : Slot → Slot) (b : Block) : stageOf (updSlot w n f b) u1 = stageOf b u1 := rfl
@[simp] theorem stageOf_updMQ (u1 : Nat) (w q : Nat) (f : MQ → MQ) (b : Block) : stageOf (updMQ w q f b) u1 = stageOf b u1 := rfl
@[simp] theorem stageOf_updCQ (u1 : Nat) (w q : Nat) (f : CQ → CQ) (b : Block) : stageOf (updCQ w q f b) u1 = stageOf b u1 := rfl
@[simp] theorem stageOf_updHasp (u1 : Nat) (h : Nat) (f : Hasp → Hasp) (b : Block) : stageOf (updHasp h f b) u1 = stageOf b u1 := rfl
@[simp] theorem stageOf_updKPool (u1 : Nat) (n k : Nat) (f : KPool → KPool) (b : Block) : stageOf (updKPool n k f b) u1 = stageOf b u1 := rfl
@[simp] theorem stageOf_setChan (u1 : Nat) (c : Nat) (v : Option Chan) (b : Block) : stageOf (setChan c v b) u1 = stageOf b u1 := rfl
@[simp] theorem stageOf_updHinge (u1 : Nat) (h : Nat) (f : Hinge → Hinge) (b : Block) : stageOf (updHinge h f b) u1 = stageOf b u1 := rfl
@[simp] theorem stageOf_updPcl (u1 : Nat) (c : Nat) (f : PClass → PClass) (b : Block) : stageOf (updPcl c f b) u1 = stageOf b u1 := rfl
@[simp] theorem stageOf_updDom (u1 : Nat) (d : Nat) (f : Dom → Dom) (b : Block) : stageOf (updDom d f b) u1 = stageOf b u1 := rfl
@[simp] theorem stageOf_updFed (u1 : Nat) (w : Nat) (f : FedTab → FedTab) (b : Block) : stageOf (updFed w f b) u1 = stageOf b u1 := rfl
@[simp] theorem stageOf_updDb (u1 : Nat) (f : Dbolt → Dbolt) (b : Block) : stageOf (updDb f b) u1 = stageOf b u1 := rfl
@[simp] theorem stageOf_updClk (u1 : Nat) (f : Clk → Clk) (b : Block) : stageOf (updClk f b) u1 = stageOf b u1 := rfl
@[simp] theorem stageOf_updMgt (u1 : Nat) (f : Mgt → Mgt) (b : Block) : stageOf (updMgt f b) u1 = stageOf b u1 := rfl
@[simp] theorem stageOf_updTr (u1 : Nat) (f : Trace → Trace) (b : Block) : stageOf (updTr f b) u1 = stageOf b u1 := rfl
@[simp] theorem stageOf_updLog (u1 : Nat) (f : Log → Log) (b : Block) : stageOf (updLog f b) u1 = stageOf b u1 := rfl
@[simp] theorem stageOf_updMeter (u1 : Nat) (f : Meter → Meter) (b : Block) : stageOf (updMeter f b) u1 = stageOf b u1 := rfl
@[simp] theorem stageOf_emit (u1 : Nat) (o : Out) (b : Block) : stageOf (emit o b) u1 = stageOf b u1 := rfl
@[simp] theorem stageOf_xput (u1 : Nat) (i : XItem) (b : Block) : stageOf (xput i b) u1 = stageOf b u1 := rfl
@[simp] theorem stageOf_tookSeq (u1 : Nat)  (b : Block) : stageOf (tookSeq  b) u1 = stageOf b u1 := rfl
@[simp] theorem stageOf_bump (u1 : Nat) (a n : Nat) (b : Block) : stageOf (bump a n b) u1 = stageOf b u1 := rfl
@[simp] theorem stageOf_wr (u1 : Nat) (p : Params) (a : Nat) (v : Word32) (b : Block) : stageOf (wr p a v b) u1 = stageOf b u1 := rfl

@[simp] theorem fenced_updEnt (w1 : Nat) (h : Nat) (f : Entry → Entry) (b : Block) : fenced (updEnt h f b) w1 = fenced b w1 := rfl
@[simp] theorem fenced_updPort (w1 : Nat) (n : Nat) (f : Port → Port) (b : Block) : fenced (updPort n f b) w1 = fenced b w1 := rfl
@[simp] theorem fenced_updRing (w1 : Nat) (r : Nat) (f : Ring → Ring) (b : Block) : fenced (updRing r f b) w1 = fenced b w1 := rfl
@[simp] theorem fenced_updWalk (w1 : Nat) (r : Nat) (f : Walk → Walk) (b : Block) : fenced (updWalk r f b) w1 = fenced b w1 := rfl
@[simp] theorem fenced_updTen (w1 : Nat) (t : Nat) (f : Tenant → Tenant) (b : Block) : fenced (updTen t f b) w1 = fenced b w1 := rfl
@[simp] theorem fenced_updSlot (w1 : Nat) (w n : Nat) (f : Slot → Slot) (b : Block) : fenced (updSlot w n f b) w1 = fenced b w1 := rfl
@[simp] theorem fenced_updMQ (w1 : Nat) (w q : Nat) (f : MQ → MQ) (b : Block) : fenced (updMQ w q f b) w1 = fenced b w1 := rfl
@[simp] theorem fenced_updCQ (w1 : Nat) (w q : Nat) (f : CQ → CQ) (b : Block) : fenced (updCQ w q f b) w1 = fenced b w1 := rfl
@[simp] theorem fenced_updHasp (w1 : Nat) (h : Nat) (f : Hasp → Hasp) (b : Block) : fenced (updHasp h f b) w1 = fenced b w1 := rfl
@[simp] theorem fenced_updKPool (w1 : Nat) (n k : Nat) (f : KPool → KPool) (b : Block) : fenced (updKPool n k f b) w1 = fenced b w1 := rfl
@[simp] theorem fenced_setChan (w1 : Nat) (c : Nat) (v : Option Chan) (b : Block) : fenced (setChan c v b) w1 = fenced b w1 := rfl
@[simp] theorem fenced_updHinge (w1 : Nat) (h : Nat) (f : Hinge → Hinge) (b : Block) : fenced (updHinge h f b) w1 = fenced b w1 := rfl
@[simp] theorem fenced_updPcl (w1 : Nat) (c : Nat) (f : PClass → PClass) (b : Block) : fenced (updPcl c f b) w1 = fenced b w1 := rfl
@[simp] theorem fenced_updDom (w1 : Nat) (d : Nat) (f : Dom → Dom) (b : Block) : fenced (updDom d f b) w1 = fenced b w1 := rfl
@[simp] theorem fenced_updFed (w1 : Nat) (w : Nat) (f : FedTab → FedTab) (b : Block) : fenced (updFed w f b) w1 = fenced b w1 := rfl
@[simp] theorem fenced_updDb (w1 : Nat) (f : Dbolt → Dbolt) (b : Block) : fenced (updDb f b) w1 = fenced b w1 := rfl
@[simp] theorem fenced_updClk (w1 : Nat) (f : Clk → Clk) (b : Block) : fenced (updClk f b) w1 = fenced b w1 := rfl
@[simp] theorem fenced_updMgt (w1 : Nat) (f : Mgt → Mgt) (b : Block) : fenced (updMgt f b) w1 = fenced b w1 := rfl
@[simp] theorem fenced_updTr (w1 : Nat) (f : Trace → Trace) (b : Block) : fenced (updTr f b) w1 = fenced b w1 := rfl
@[simp] theorem fenced_updLog (w1 : Nat) (f : Log → Log) (b : Block) : fenced (updLog f b) w1 = fenced b w1 := rfl
@[simp] theorem fenced_updMeter (w1 : Nat) (f : Meter → Meter) (b : Block) : fenced (updMeter f b) w1 = fenced b w1 := rfl
@[simp] theorem fenced_emit (w1 : Nat) (o : Out) (b : Block) : fenced (emit o b) w1 = fenced b w1 := rfl
@[simp] theorem fenced_xput (w1 : Nat) (i : XItem) (b : Block) : fenced (xput i b) w1 = fenced b w1 := rfl
@[simp] theorem fenced_tookSeq (w1 : Nat)  (b : Block) : fenced (tookSeq  b) w1 = fenced b w1 := rfl
@[simp] theorem fenced_bump (w1 : Nat) (a n : Nat) (b : Block) : fenced (bump a n b) w1 = fenced b w1 := rfl
@[simp] theorem fenced_wr (w1 : Nat) (p : Params) (a : Nat) (v : Word32) (b : Block) : fenced (wr p a v b) w1 = fenced b w1 := rfl

@[simp] theorem cnt_updEnt (a1 : Nat) (h : Nat) (f : Entry → Entry) (b : Block) : cnt (updEnt h f b) a1 = cnt b a1 := rfl
@[simp] theorem cnt_updPort (a1 : Nat) (n : Nat) (f : Port → Port) (b : Block) : cnt (updPort n f b) a1 = cnt b a1 := rfl
@[simp] theorem cnt_updRing (a1 : Nat) (r : Nat) (f : Ring → Ring) (b : Block) : cnt (updRing r f b) a1 = cnt b a1 := rfl
@[simp] theorem cnt_updWalk (a1 : Nat) (r : Nat) (f : Walk → Walk) (b : Block) : cnt (updWalk r f b) a1 = cnt b a1 := rfl
@[simp] theorem cnt_updTen (a1 : Nat) (t : Nat) (f : Tenant → Tenant) (b : Block) : cnt (updTen t f b) a1 = cnt b a1 := rfl
@[simp] theorem cnt_updSlot (a1 : Nat) (w n : Nat) (f : Slot → Slot) (b : Block) : cnt (updSlot w n f b) a1 = cnt b a1 := rfl
@[simp] theorem cnt_updMQ (a1 : Nat) (w q : Nat) (f : MQ → MQ) (b : Block) : cnt (updMQ w q f b) a1 = cnt b a1 := rfl
@[simp] theorem cnt_updCQ (a1 : Nat) (w q : Nat) (f : CQ → CQ) (b : Block) : cnt (updCQ w q f b) a1 = cnt b a1 := rfl
@[simp] theorem cnt_updHasp (a1 : Nat) (h : Nat) (f : Hasp → Hasp) (b : Block) : cnt (updHasp h f b) a1 = cnt b a1 := rfl
@[simp] theorem cnt_updKPool (a1 : Nat) (n k : Nat) (f : KPool → KPool) (b : Block) : cnt (updKPool n k f b) a1 = cnt b a1 := rfl
@[simp] theorem cnt_setChan (a1 : Nat) (c : Nat) (v : Option Chan) (b : Block) : cnt (setChan c v b) a1 = cnt b a1 := rfl
@[simp] theorem cnt_updHinge (a1 : Nat) (h : Nat) (f : Hinge → Hinge) (b : Block) : cnt (updHinge h f b) a1 = cnt b a1 := rfl
@[simp] theorem cnt_updPcl (a1 : Nat) (c : Nat) (f : PClass → PClass) (b : Block) : cnt (updPcl c f b) a1 = cnt b a1 := rfl
@[simp] theorem cnt_updDom (a1 : Nat) (d : Nat) (f : Dom → Dom) (b : Block) : cnt (updDom d f b) a1 = cnt b a1 := rfl
@[simp] theorem cnt_updFed (a1 : Nat) (w : Nat) (f : FedTab → FedTab) (b : Block) : cnt (updFed w f b) a1 = cnt b a1 := rfl
@[simp] theorem cnt_updDb (a1 : Nat) (f : Dbolt → Dbolt) (b : Block) : cnt (updDb f b) a1 = cnt b a1 := rfl
@[simp] theorem cnt_updBoot (a1 : Nat) (f : Boot → Boot) (b : Block) : cnt (updBoot f b) a1 = cnt b a1 := rfl
@[simp] theorem cnt_updClk (a1 : Nat) (f : Clk → Clk) (b : Block) : cnt (updClk f b) a1 = cnt b a1 := rfl
@[simp] theorem cnt_updMgt (a1 : Nat) (f : Mgt → Mgt) (b : Block) : cnt (updMgt f b) a1 = cnt b a1 := rfl
@[simp] theorem cnt_updTr (a1 : Nat) (f : Trace → Trace) (b : Block) : cnt (updTr f b) a1 = cnt b a1 := rfl
@[simp] theorem cnt_updLog (a1 : Nat) (f : Log → Log) (b : Block) : cnt (updLog f b) a1 = cnt b a1 := rfl
@[simp] theorem cnt_updMeter (a1 : Nat) (f : Meter → Meter) (b : Block) : cnt (updMeter f b) a1 = cnt b a1 := rfl
@[simp] theorem cnt_emit (a1 : Nat) (o : Out) (b : Block) : cnt (emit o b) a1 = cnt b a1 := rfl
@[simp] theorem cnt_xput (a1 : Nat) (i : XItem) (b : Block) : cnt (xput i b) a1 = cnt b a1 := rfl
@[simp] theorem cnt_tookSeq (a1 : Nat)  (b : Block) : cnt (tookSeq  b) a1 = cnt b a1 := rfl
@[simp] theorem cnt_wr (a1 : Nat) (p : Params) (a : Nat) (v : Word32) (b : Block) : cnt (wr p a v b) a1 = cnt b a1 := rfl

@[simp] theorem rd_updEnt (p1 : Params) (a1 : Nat) (h : Nat) (f : Entry → Entry) (b : Block) : rd p1 (updEnt h f b) a1 = rd p1 b a1 := rfl
@[simp] theorem rd_updPort (p1 : Params) (a1 : Nat) (n : Nat) (f : Port → Port) (b : Block) : rd p1 (updPort n f b) a1 = rd p1 b a1 := rfl
@[simp] theorem rd_updRing (p1 : Params) (a1 : Nat) (r : Nat) (f : Ring → Ring) (b : Block) : rd p1 (updRing r f b) a1 = rd p1 b a1 := rfl
@[simp] theorem rd_updWalk (p1 : Params) (a1 : Nat) (r : Nat) (f : Walk → Walk) (b : Block) : rd p1 (updWalk r f b) a1 = rd p1 b a1 := rfl
@[simp] theorem rd_updTen (p1 : Params) (a1 : Nat) (t : Nat) (f : Tenant → Tenant) (b : Block) : rd p1 (updTen t f b) a1 = rd p1 b a1 := rfl
@[simp] theorem rd_updSlot (p1 : Params) (a1 : Nat) (w n : Nat) (f : Slot → Slot) (b : Block) : rd p1 (updSlot w n f b) a1 = rd p1 b a1 := rfl
@[simp] theorem rd_updMQ (p1 : Params) (a1 : Nat) (w q : Nat) (f : MQ → MQ) (b : Block) : rd p1 (updMQ w q f b) a1 = rd p1 b a1 := rfl
@[simp] theorem rd_updCQ (p1 : Params) (a1 : Nat) (w q : Nat) (f : CQ → CQ) (b : Block) : rd p1 (updCQ w q f b) a1 = rd p1 b a1 := rfl
@[simp] theorem rd_updHasp (p1 : Params) (a1 : Nat) (h : Nat) (f : Hasp → Hasp) (b : Block) : rd p1 (updHasp h f b) a1 = rd p1 b a1 := rfl
@[simp] theorem rd_updKPool (p1 : Params) (a1 : Nat) (n k : Nat) (f : KPool → KPool) (b : Block) : rd p1 (updKPool n k f b) a1 = rd p1 b a1 := rfl
@[simp] theorem rd_setChan (p1 : Params) (a1 : Nat) (c : Nat) (v : Option Chan) (b : Block) : rd p1 (setChan c v b) a1 = rd p1 b a1 := rfl
@[simp] theorem rd_updHinge (p1 : Params) (a1 : Nat) (h : Nat) (f : Hinge → Hinge) (b : Block) : rd p1 (updHinge h f b) a1 = rd p1 b a1 := rfl
@[simp] theorem rd_updPcl (p1 : Params) (a1 : Nat) (c : Nat) (f : PClass → PClass) (b : Block) : rd p1 (updPcl c f b) a1 = rd p1 b a1 := rfl
@[simp] theorem rd_updDom (p1 : Params) (a1 : Nat) (d : Nat) (f : Dom → Dom) (b : Block) : rd p1 (updDom d f b) a1 = rd p1 b a1 := rfl
@[simp] theorem rd_updFed (p1 : Params) (a1 : Nat) (w : Nat) (f : FedTab → FedTab) (b : Block) : rd p1 (updFed w f b) a1 = rd p1 b a1 := rfl
@[simp] theorem rd_updDb (p1 : Params) (a1 : Nat) (f : Dbolt → Dbolt) (b : Block) : rd p1 (updDb f b) a1 = rd p1 b a1 := rfl
@[simp] theorem rd_updBoot (p1 : Params) (a1 : Nat) (f : Boot → Boot) (b : Block) : rd p1 (updBoot f b) a1 = rd p1 b a1 := rfl
@[simp] theorem rd_updClk (p1 : Params) (a1 : Nat) (f : Clk → Clk) (b : Block) : rd p1 (updClk f b) a1 = rd p1 b a1 := rfl
@[simp] theorem rd_updMgt (p1 : Params) (a1 : Nat) (f : Mgt → Mgt) (b : Block) : rd p1 (updMgt f b) a1 = rd p1 b a1 := rfl
@[simp] theorem rd_updTr (p1 : Params) (a1 : Nat) (f : Trace → Trace) (b : Block) : rd p1 (updTr f b) a1 = rd p1 b a1 := rfl
@[simp] theorem rd_updLog (p1 : Params) (a1 : Nat) (f : Log → Log) (b : Block) : rd p1 (updLog f b) a1 = rd p1 b a1 := rfl
@[simp] theorem rd_updMeter (p1 : Params) (a1 : Nat) (f : Meter → Meter) (b : Block) : rd p1 (updMeter f b) a1 = rd p1 b a1 := rfl
@[simp] theorem rd_emit (p1 : Params) (a1 : Nat) (o : Out) (b : Block) : rd p1 (emit o b) a1 = rd p1 b a1 := rfl
@[simp] theorem rd_xput (p1 : Params) (a1 : Nat) (i : XItem) (b : Block) : rd p1 (xput i b) a1 = rd p1 b a1 := rfl
@[simp] theorem rd_tookSeq (p1 : Params) (a1 : Nat)  (b : Block) : rd p1 (tookSeq  b) a1 = rd p1 b a1 := rfl
@[simp] theorem rd_bump (p1 : Params) (a1 : Nat) (a n : Nat) (b : Block) : rd p1 (bump a n b) a1 = rd p1 b a1 := rfl

/-! ## Getters of the same part -/

@[simp] theorem ent_updEnt_same (h : Nat) (f : Entry → Entry) (b : Block) : ent (updEnt h f b) h = f (ent b h) := Tbl.get_upd_same _ _ _ _
theorem ent_updEnt_ne (h : Nat) (f : Entry → Entry) (b : Block) (j : Nat) (hj : j ≠ h) : ent (updEnt h f b) j = ent b j := Tbl.get_upd_ne _ _ _ _ _ hj
@[simp] theorem prt_updPort_same (n : Nat) (f : Port → Port) (b : Block) : prt (updPort n f b) n = f (prt b n) := Tbl.get_upd_same _ _ _ _
theorem prt_updPort_ne (n : Nat) (f : Port → Port) (b : Block) (j : Nat) (hj : j ≠ n) : prt (updPort n f b) j = prt b j := Tbl.get_upd_ne _ _ _ _ _ hj
@[simp] theorem rng_updRing_same (r : Nat) (f : Ring → Ring) (b : Block) : rng (updRing r f b) r = f (rng b r) := Tbl.get_upd_same _ _ _ _
theorem rng_updRing_ne (r : Nat) (f : Ring → Ring) (b : Block) (j : Nat) (hj : j ≠ r) : rng (updRing r f b) j = rng b j := Tbl.get_upd_ne _ _ _ _ _ hj
@[simp] theorem ten_updTen_same (t : Nat) (f : Tenant → Tenant) (b : Block) : ten (updTen t f b) t = f (ten b t) := Tbl.get_upd_same _ _ _ _
theorem ten_updTen_ne (t : Nat) (f : Tenant → Tenant) (b : Block) (j : Nat) (hj : j ≠ t) : ten (updTen t f b) j = ten b j := Tbl.get_upd_ne _ _ _ _ _ hj
@[simp] theorem hsp_updHasp_same (h : Nat) (f : Hasp → Hasp) (b : Block) : hsp (updHasp h f b) h = f (hsp b h) := Tbl.get_upd_same _ _ _ _
theorem hsp_updHasp_ne (h : Nat) (f : Hasp → Hasp) (b : Block) (j : Nat) (hj : j ≠ h) : hsp (updHasp h f b) j = hsp b j := Tbl.get_upd_ne _ _ _ _ _ hj
@[simp] theorem hng_updHinge_same (h : Nat) (f : Hinge → Hinge) (b : Block) : hng (updHinge h f b) h = f (hng b h) := Tbl.get_upd_same _ _ _ _
theorem hng_updHinge_ne (h : Nat) (f : Hinge → Hinge) (b : Block) (j : Nat) (hj : j ≠ h) : hng (updHinge h f b) j = hng b j := Tbl.get_upd_ne _ _ _ _ _ hj
@[simp] theorem pcl_updPcl_same (c : Nat) (f : PClass → PClass) (b : Block) : pcl (updPcl c f b) c = f (pcl b c) := Tbl.get_upd_same _ _ _ _
theorem pcl_updPcl_ne (c : Nat) (f : PClass → PClass) (b : Block) (j : Nat) (hj : j ≠ c) : pcl (updPcl c f b) j = pcl b j := Tbl.get_upd_ne _ _ _ _ _ hj
@[simp] theorem dmn_updDom_same (d : Nat) (f : Dom → Dom) (b : Block) : dmn (updDom d f b) d = f (dmn b d) := Tbl.get_upd_same _ _ _ _
theorem dmn_updDom_ne (d : Nat) (f : Dom → Dom) (b : Block) (j : Nat) (hj : j ≠ d) : dmn (updDom d f b) j = dmn b j := Tbl.get_upd_ne _ _ _ _ _ hj
@[simp] theorem fedOf_updFed_same (w : Nat) (f : FedTab → FedTab) (b : Block) : fedOf (updFed w f b) w = f (fedOf b w) := Tbl.get_upd_same _ _ _ _
theorem fedOf_updFed_ne (w : Nat) (f : FedTab → FedTab) (b : Block) (j : Nat) (hj : j ≠ w) : fedOf (updFed w f b) j = fedOf b j := Tbl.get_upd_ne _ _ _ _ _ hj
@[simp] theorem slt_updSlot_same (w n : Nat) (f : Slot → Slot) (b : Block) : slt (updSlot w n f b) w n = f (slt b w n) := Tbl.get_upd_same _ _ _ _
theorem slt_updSlot_ne (w n : Nat) (f : Slot → Slot) (b : Block) (i j : Nat) (hj : i * 4096 + j ≠ w * 4096 + n) :
    slt (updSlot w n f b) i j = slt b i j := Tbl.get_upd_ne _ _ _ _ _ hj
@[simp] theorem mqu_updMQ_same (w q : Nat) (f : MQ → MQ) (b : Block) : mqu (updMQ w q f b) w q = f (mqu b w q) := Tbl.get_upd_same _ _ _ _
theorem mqu_updMQ_ne (w q : Nat) (f : MQ → MQ) (b : Block) (i j : Nat) (hj : i * 64 + j ≠ w * 64 + q) :
    mqu (updMQ w q f b) i j = mqu b i j := Tbl.get_upd_ne _ _ _ _ _ hj
@[simp] theorem cqu_updCQ_same (w q : Nat) (f : CQ → CQ) (b : Block) : cqu (updCQ w q f b) w q = f (cqu b w q) := Tbl.get_upd_same _ _ _ _
theorem cqu_updCQ_ne (w q : Nat) (f : CQ → CQ) (b : Block) (i j : Nat) (hj : i * 64 + j ≠ w * 64 + q) :
    cqu (updCQ w q f b) i j = cqu b i j := Tbl.get_upd_ne _ _ _ _ _ hj
@[simp] theorem kpl_updKPool_same (n k : Nat) (f : KPool → KPool) (b : Block) : kpl (updKPool n k f b) n k = f (kpl b n k) := Tbl.get_upd_same _ _ _ _
theorem kpl_updKPool_ne (n k : Nat) (f : KPool → KPool) (b : Block) (i j : Nat) (hj : i * 16 + j ≠ n * 16 + k) :
    kpl (updKPool n k f b) i j = kpl b i j := Tbl.get_upd_ne _ _ _ _ _ hj
@[simp] theorem chn_setChan_same (c : Nat) (v : Option Chan) (b : Block) : chn (setChan c v b) c = v := Tbl.get_set_same _ _ _ _
theorem chn_setChan_ne (c : Nat) (v : Option Chan) (b : Block) (j : Nat) (hj : j ≠ c) : chn (setChan c v b) j = chn b j :=
  Tbl.get_set_ne _ _ _ _ _ hj
@[simp] theorem rd_wr_same (p : Params) (a : Nat) (v : Word32) (b : Block) : rd p (wr p a v b) a = v := Tbl.get_set_same _ _ _ _
theorem rd_wr_ne (p : Params) (a : Nat) (v : Word32) (b : Block) (j : Nat) (hj : j ≠ a) : rd p (wr p a v b) j = rd p b j := 
  Tbl.get_set_gen _ _ _ _ _ _ hj
@[simp] theorem rng_updWalk_same (r : Nat) (f : Walk → Walk) (b : Block) :
    rng (updWalk r f b) r = { rng b r with walk := f (rng b r).walk } := rng_updRing_same r _ b

/-! ## The outcomes -/

@[simp] theorem onBlock_params (f : Params → Block → Block) (s : State) : (s.onBlock f).params = s.params := rfl
@[simp] theorem onBlock_pending (f : Params → Block → Block) (s : State) : (s.onBlock f).pending = s.pending := rfl
@[simp] theorem onBlock_block (f : Params → Block → Block) (s : State) : (s.onBlock f).block = f s.params s.block := rfl
theorem run_on {g : Params → Block → Bool} {f : Params → Block → Block} {s : State} (h : g s.params s.block = true) :
    s.run g f = .next (s.onBlock f) := by simp [State.run, h]
theorem run_off {g : Params → Block → Bool} {f : Params → Block → Block} {s : State} (h : g s.params s.block = false) :
    s.run g f = .next s := by simp [State.run, h]
@[simp] theorem when_true (f : Block → Block) (b : Block) : when true f b = f b := rfl
@[simp] theorem when_false (f : Block → Block) (b : Block) : when false f b = b := rfl
@[simp] theorem forEach_nil {α : Type} (f : α → Block → Block) (b : Block) : forEach [] f b = b := rfl
@[simp] theorem forEach_cons {α : Type} (x : α) (l : List α) (f : α → Block → Block) (b : Block) :
    forEach (x :: l) f b = forEach l f (f x b) := rfl

end Sys2Proof.Machine
end

