-- ==== Sys2Proof/WellFormed.lean ====
section
/-! DEFINITION. Which commands name units, rings, ports and tables that an instance has (R3, R4, Table
0.1 and the table sizes of the chapters). An ill-formed command names something the instance lacks. -/

namespace Sys2Proof

/-- A ring number (R109). -/
def ringWf (r : Nat) : Bool := decide (r < 8192)
/-- An engine port of this instance (R19). -/
def portWf (p : Params) (n : Nat) : Bool := decide (n < p.nw * p.ne)
/-- A Ward of this instance. -/
def wardWf (p : Params) (w : Nat) : Bool := decide (w < p.nw)
/-- A Hinge of this instance. -/
def hingeWf (p : Params) (h : Nat) : Bool := decide (h < p.nh)
/-- A local handle: home Ward and entry number (Table 2.4). -/
def handleWf (p : Params) (h : Nat) : Bool := decide (h / 2048 < p.nw)
/-- An instance number (R249). -/
def instWf (i : Nat) : Bool := decide (i < 64)
/-- A queue number of a Ward. -/
def queueWf (q : Nat) : Bool := decide (q < 64)
/-- A tenant number (R229). -/
def tenantWf (t : Nat) : Bool := decide (t < 256)
/-- A tenant slot (R109). -/
def tslotWf (k : Nat) : Bool := decide (k < 64)
/-- A hasp number (R205). -/
def haspWf (k : Nat) : Bool := decide (k < 4096)
/-- A key pool of a port (R217). -/
def poolWf (k : Nat) : Bool := decide (k < 16)
/-- A supply domain (R90). -/
def domWf (d : Nat) : Bool := decide (d < 16)
/-- A channel ID (R148). -/
def chWf (c : Nat) : Bool := decide (c < 65536)
/-- A map bank (R45). -/
def bankWf (k : Nat) : Bool := decide (k < 64)
/-- A unit of this instance. -/
def unitWf (p : Params) : UnitId → Bool
  | .keeper => true
  | .ward w => wardWf p w
  | .hinge h => hingeWf p h
/-- A domain of this instance. -/
def domainWf (p : Params) : Domain → Bool
  | .timestamp => true
  | .management => true
  | .meter => true
  | .keeper => true
  | .ward w => wardWf p w
  | .hinge h => hingeWf p h
/-- A write target: a Ward or one of eight groups (R402). -/
def targetWf (p : Params) : WTarget → Bool
  | .ward w => wardWf p w
  | .bcast => true
  | .group g => decide (g < 8)
/-- A counter bank. -/
def ctargetWf (p : Params) : CTarget → Bool
  | .keeper => true
  | .wards t => targetWf p t
  | .hinge h => hingeWf p h
/-- A channel key. -/
def keyWf (k : ChKey) : Bool := chWf k.ch && (match k.inst with | none => true | some i => instWf i)
/-- An item: instances and tenant in range, at most the data slots of Table 9.5. -/
def itemWf (i : Item) : Bool := instWf i.sinst && instWf i.dinst && tenantWf i.tenant
/-- Where an item of another instance comes from. -/
def viaWf (p : Params) (v : Via) : Bool := hingeWf p v.hinge && instWf v.inst && tenantWf v.tenant
/-- Where a notice or seal comes from, when it comes from another instance. -/
def optViaWf (p : Params) (v : Option Via) : Bool := match v with | none => true | some x => viaWf p x
/-- The source of a signal. -/
def srcWf (p : Params) : SigSrc → Bool
  | .settle r _ _ t => ringWf r && tenantWf t
  | .hsig n _ _ => portWf p n
  | .remote v _ => viaWf p v
/-- An item handed over by a Hinge, if there is one. -/
def optItemWf (p : Params) (i : Option (Nat × Item)) : Bool :=
  match i with | none => true | some x => hingeWf p x.1 && itemWf x.2
/-- The flits of a message or part (R160, R186). -/
def flitsWf (l : List (BitVec 512)) : Bool := decide (l.length ≤ 64)

/-- A well-formed command of an instance with parameters `p`. -/
def Instr.wf (p : Params) : Instr → Bool
  | .porstNAssert => true
  | .porstNRelease => true
  | .srstNAssert => true
  | .srstNRelease => true
  | .mtrRstN => true
  | .domainResetRelease d => domainWf p d
  | .bootScrubDone u => unitWf p u
  | .selfTestDone u _ _ => unitWf p u
  | .rescrubDone u => unitWf p u
  | .tmrCheck _ => true
  | .linkUp h => hingeWf p h
  | .linkUpTimeout h => hingeWf p h
  | .lock => true
  | .fwfail => true
  | .registerWrite _ _ _ _ => true
  | .rwqShadowWrite _ _ => true
  | .commitPoint w => wardWf p w
  | .commitForce => true
  | .windowRead _ => true
  | .multiwordReadLatch _ => true
  | .eventRingRead _ => true
  | .ringDescriptorWrite _ _ => true
  | .ringEnable => true
  | .ringDisable => true
  | .tenantCfgWrite _ => true
  | .haspAssign _ => true
  | .haspForce => true
  | .preemptRequest ring _ => ringWf ring
  | .preemptResume ring => ringWf ring
  | .keyPoolCfgWrite tgt _ _ => targetWf p tgt
  | .keyPoolReset tgt => targetWf p tgt
  | .mqCfgWrite tgt _ _ => targetWf p tgt
  | .mqFlush tgt => targetWf p tgt
  | .flushDiscard w q => wardWf p w && queueWf q
  | .mqPush tgt _ => targetWf p tgt
  | .mqPop tgt => targetWf p tgt
  | .mqRdataAdvance w => wardWf p w
  | .logPop => true
  | .logReinit => true
  | .lrClear => true
  | .counterClear tgt => ctargetWf p tgt
  | .counterSnapshotOrder => true
  | .counterSnapshot => true
  | .blockedOnSnapOrder => true
  | .blockedOnSnapshot => true
  | .blockedOnDone => true
  | .dumpGo => true
  | .dumpSnapshotTimeout port => portWf p port
  | .dumpDone => true
  | .traceEnable => true
  | .traceDisable => true
  | .traceTrigWrite => true
  | .hingeDownWrite h => hingeWf p h
  | .hingeRearm h => hingeWf p h
  | .tsUnlock h => hingeWf p h
  | .discFaultClear => true
  | .captureClear => true
  | .tnDoorbell t tslot _ => tenantWf t && tslotWf tslot
  | .ringCancelOldest t tslot => tenantWf t && tslotWf tslot
  | .ringCancelAll t tslot => tenantWf t && tslotWf tslot
  | .ringResume t tslot => tenantWf t && tslotWf tslot
  | .meterRun => true
  | .meterStop => true
  | .meterConfigWrite _ => true
  | .meterRecPop => true
  | .tallySlotSample _ => true
  | .periodDue => true
  | .periodClose => true
  | .recordForm _ => true
  | .keyStoreAck _ _ => true
  | .keyStoreTimeout => true
  | .signRetry => true
  | .issueCommit port _ => portWf p port
  | .issDescriptorAccepted port => portWf p port
  | .preloadStart port => portWf p port
  | .argumentReadResponse port _ _ => portWf p port
  | .preloadComplete port => portWf p port
  | .canAck port _ _ => portWf p port
  | .cmpRecord port _ _ _ => portWf p port
  | .opdDelivery w => wardWf p w
  | .landingCreditReturn port _ => portWf p port
  | .statusBeatAccepted port => portWf p port
  | .send port _ flits => portWf p port && flitsWf flits
  | .contrib port _ flits => portWf p port && flitsWf flits
  | .openReq port _ => portWf p port
  | .closeReq port _ => portWf p port
  | .hsig port _ => portWf p port
  | .keyreq port _ => portWf p port
  | .returnUnused port _ => portWf p port
  | .doorbell port _ => portWf p port
  | .slotwr port _ => portWf p port
  | .badMsgRequest port _ _ => portWf p port
  | .returnKret port _ => portWf p port
  | .ctlOnlineChange port _ _ _ => portWf p port
  | .ctlSnapshotReceived port _ => portWf p port
  | .snapshotTimeout port => portWf p port
  | .portReset port => portWf p port
  | .decrement _ src _ => optViaWf p src
  | .failureNotice _ _ src _ => optViaWf p src
  | .cancelNotice _ src _ => optViaWf p src
  | .seal w ring _ src _ => wardWf p w && ringWf ring && optViaWf p src
  | .guardWaitPass w => wardWf p w
  | .settlementNotice _ _ _ => true
  | .issueProxyNotice _ _ => true
  | .successorDelivery handle => handleWf p handle
  | .entryFree handle => handleWf p handle
  | .quarantineEnd handle => handleWf p handle
  | .edgeRefetchDone handle => handleWf p handle
  | .taskClassTimeout handle => handleWf p handle
  | .arbiterForward w => wardWf p w
  | .placementRequest handle => handleWf p handle
  | .placementDecision handle => handleWf p handle
  | .waitingListOffer => true
  | .stagingRequest handle => handleWf p handle
  | .stagingNoPort handle => handleWf p handle
  | .placementDecisionArrival handle => handleWf p handle
  | .stagedTaskPlaced handle => handleWf p handle
  | .governorRequest handle => handleWf p handle
  | .governorQueueGrant dom => domWf dom
  | .governorWindowStart _ => true
  | .portRelease port handle => portWf p port && handleWf p handle
  | .taskCancel handle => handleWf p handle
  | .withdrawal handle => handleWf p handle
  | .unloadDirective handle => handleWf p handle
  | .epochMint => true
  | .tokenArrival w => wardWf p w
  | .ringFetch w => wardWf p w
  | .ringFetchResponse ring _ _ _ => ringWf ring
  | .ringRepoll ring => ringWf ring
  | .recordAccept ring _ => ringWf ring
  | .waitsubRelease ring => ringWf ring
  | .segmentHeader ring _ _ => ringWf ring
  | .graphPass1 ring => ringWf ring
  | .fanListReadResponse ring _ _ _ => ringWf ring
  | .operandReadResponse ring _ _ _ => ringWf ring
  | .graphPass2 ring => ringWf ring
  | .entryQueueAdmit ring => ringWf ring
  | .graphPass3 ring => ringWf ring
  | .aheadRelease ring => ringWf ring
  | .cond ring _ => ringWf ring
  | .loop ring _ => ringWf ring
  | .endloop ring _ => ringWf ring
  | .stepEnd ring _ => ringWf ring
  | .yield ring _ => ringWf ring
  | .fence ring _ => ringWf ring
  | .fenceRelease ring => ringWf ring
  | .indirect ring _ => ringWf ring
  | .setSlot ring _ => ringWf ring
  | .note ring _ => ringWf ring
  | .mark ring _ => ringWf ring
  | .nop ring _ => ringWf ring
  | .haspSignal ring _ => ringWf ring
  | .haspReset ring _ => ringWf ring
  | .haspWait ring _ => ringWf ring
  | .openCh ring _ => ringWf ring
  | .closeCh ring _ => ringWf ring
  | .commandFaultNotice ring => ringWf ring
  | .ringTimeout ring => ringWf ring
  | .stepTimeout ring => ringWf ring
  | .statusBlockWriteResponse ring _ _ => ringWf ring
  | .digestWriteResponse ring _ _ => ringWf ring
  | .messageArrival key _ it => keyWf key && optItemWf p it
  | .nackReturn key _ it => keyWf key && optItemWf p it
  | .answerReturn port it => portWf p port && optItemWf p it
  | .channelAllocate => true
  | .bindNotice key => keyWf key
  | .channelCloseApply key _ => keyWf key
  | .channelIdFree ch => chWf ch
  | .stormNotice ch => chWf ch
  | .partArrival _ inst port it => instWf inst && portWf p port && optItemWf p it
  | .partApply w => wardWf p w
  | .drainConvert w q => wardWf p w && queueWf q
  | .drainWriteResponse w q _ => wardWf p w && queueWf q
  | .tearNotice _ inst port => instWf inst && portWf p port
  | .queueNumberFree w q => wardWf p w && queueWf q
  | .signal hasp _ src => haspWf hasp && srcWf p src
  | .waitRegistration port => portWf p port
  | .waitRelease => true
  | .taskFormRelease port => portWf p port
  | .keyRequestArrival dport reqport => portWf p dport && portWf p reqport
  | .keyReturn dport pool _ => portWf p dport && poolWf pool
  | .keyTimeout dport pool _ => portWf p dport && poolWf pool
  | .autoPreemptTrigger => true
  | .discardNotice w ring => wardWf p w && ringWf ring
  | .autoResume => true
  | .helloReceived h hinst => hingeWf p h && instWf hinst
  | .itemForward h slots => hingeWf p h && decide (slots.length ≤ 128)
  | .remoteReserve h _ => hingeWf p h
  | .hndAnswer ring via _ => ringWf ring && viaWf p via
  | .remoteRetryExpiry ring => ringWf ring
  | .linkItem via bank _ _ => viaWf p via && bankWf bank
  | .xctlAbandon via bank => viaWf p via && bankWf bank
  | .setlItem via ring _ _ => viaWf p via && ringWf ring
  | .hopItem src tenant hasp _ _ _ => viaWf p (src.via tenant) && haspWf hasp
  | .hrelItem it => hingeWf p it.1
  | .chcItem src tenant _ ch _ port => viaWf p (src.via tenant) && chWf ch && portWf p port
  | .confReceived h _ => hingeWf p h
  | .confSend h => hingeWf p h
  | .retrainNotification h => hingeWf p h
  | .linkActiveAgain h => hingeWf p h
  | .holdMaxExpiry h => hingeWf p h
  | .linkError h => hingeWf p h
  | .hingeDownEvent h => hingeWf p h
  | .unrchItem h _ _ => hingeWf p h
  | .unreachableNotice w _ => wardWf p w
  | .tsFlitSend h => hingeWf p h
  | .tsSample h _ => hingeWf p h
  | .tsSlewStep => true
  | .tsHoldEnd => true
  | .tsLost h => hingeWf p h
  | .scrubRead u _ _ _ => unitWf p u
  | .uncorrectableWord u _ _ _ => unitWf p u
  | .tmrDisagreement _ => true
  | .replay u => unitWf p u
  | .crossbarRetransmit u _ => unitWf p u
  | .logRecordArrival u => unitWf p u
  | .deadboltSample _ _ => true
  | .deadboltAssert => true
  | .drainEnd => true
  | .deadboltRelease => true
  | .hangDetect ring => ringWf ring
  | .traceEntryStage => true
  | .traceFifoDrop u => unitWf p u
  | .traceBlockWrite => true
  | .traceWriteResponse _ => true
  | .samplePeriod w => wardWf p w
  | .noteWriteResponse ring _ _ => ringWf ring
  | .portResetRelease port => portWf p port
  | .issueCopyReread port handle => portWf p port && handleWf p handle
  | .hingeCreditReturn h _ _ => hingeWf p h
  | .stallRequest h => hingeWf p h

end Sys2Proof
end

