-- ==== Sys2Proof/Tests/Slice0.lean ====
section
/-! SUPPORT. Tests: ill-formed commands, single steps whose results come from the manual's rules and worked examples,
and for each statement with hypotheses a state and operands that meet them. -/

namespace Sys2Proof.Tests

open Sys2Proof Sys2Proof.Machine

set_option Elab.async false

/-- A small instance: 2 Wards of 8 ports, 2 Hinges. -/
def small : Params := { nw := 2, ne := 8, nh := 2 }
/-- An instance that is up and unlocked, out of reset and with every unit ready. -/
def up : Block :=
  { clk := { fclk := 3000000, ts := 1500000 }
    boot := {
      porst := false, state := .ready, attempts := 1
      stage := [(0, .ready), (1, .ready), (2, .ready), (64, .ready), (65, .ready), (80, .ready), (81, .ready), (82, .ready)] } }
/-- The same in the fclk in which a management read is sampled. -/
def upRead : Block := { up with clk := { up.clk with fclk := 3000001 } }
/-- The same with a unit in another stage. -/
def staged (u : Nat) (x : Stage) : Block := { up with boot := { up.boot with stage := Tbl.set .held up.boot.stage u x } }
/-- With a register set. -/
def withReg (a : Nat) (v : Word32) (b : Block) : Block := wr small a v b
/-- Another entry. -/
def decoyEnt : Entry := { st := .pending, tumbler := 3, gen := 7, isSealed := true, d := { ring := 9, subid := 77, tenant := 5, guards := [] } }
/-- The block after one command. -/
def after (c : Instr) (b : Block) : Option Block :=
  match exec c ⟨small, [], b, {}⟩ with
  | .next s => some s.block
  | _ => none
/-- An item from instance `i`. -/
def itemFrom (i : Nat) : Item := ⟨1, i, 9, 4, 0, 0, []⟩

/-! ## Ill-formed commands -/

theorem test_wf_ring : (Instr.ringRepoll 8192).wf small = false ∧ (Instr.ringRepoll 8191).wf small = true := by decide
theorem test_wf_port : (Instr.portReset 16).wf small = false ∧ (Instr.portReset 15).wf small = true := by decide
theorem test_wf_ward : (Instr.partApply 2).wf small = false ∧ (Instr.partApply 1).wf small = true := by decide
theorem test_wf_hinge : (Instr.linkUp 2).wf small = false ∧ (Instr.linkUp 1).wf small = true := by decide
theorem test_wf_handle : (Instr.entryFree 4096).wf small = false ∧ (Instr.entryFree 4095).wf small = true := by decide
theorem test_wf_inst : (Instr.tearNotice 0 64 0).wf small = false ∧ (Instr.tearNotice 0 63 0).wf small = true := by decide
theorem test_wf_queue : (Instr.drainConvert 0 64).wf small = false ∧ (Instr.drainConvert 0 63).wf small = true := by decide
theorem test_wf_tenant : (Instr.tnDoorbell 256 0 0).wf small = false ∧ (Instr.tnDoorbell 255 0 0).wf small = true := by decide
theorem test_wf_tslot : (Instr.tnDoorbell 0 64 0).wf small = false ∧ (Instr.tnDoorbell 0 63 0).wf small = true := by decide
theorem test_wf_hasp : (Instr.signal 4096 0 (.hsig 0 0 none)).wf small = false := by decide
theorem test_wf_domain : (Instr.governorQueueGrant 16).wf small = false ∧ (Instr.domainResetRelease (.ward 2)).wf small = false := by decide
theorem test_wf_pool : (Instr.keyReturn 0 16 0).wf small = false := by decide
theorem test_wf_channel : (Instr.stormNotice 65536).wf small = false ∧ (Instr.bindNotice ⟨some 64, 3⟩).wf small = false := by decide
theorem test_wf_bank : (Instr.xctlAbandon ⟨0, 9, 4⟩ 64).wf small = false ∧ (Instr.xctlAbandon ⟨2, 9, 4⟩ 3).wf small = false := by decide
theorem test_wf_unit : (Instr.replay (.ward 2)).wf small = false ∧ (Instr.replay (.hinge 2)).wf small = false := by decide
theorem test_wf_target : (Instr.mqFlush (.group 8)).wf small = false ∧ (Instr.counterClear (.hinge 2)).wf small = false := by decide
theorem test_wf_item : (Instr.itemForward 0 (List.replicate 129 0)).wf small = false ∧ (Instr.answerReturn 0 (some (0, itemFrom 64))).wf small = false := by
  decide +kernel
theorem test_wf_source : (Instr.decrement 0 (some ⟨0, 64, 4⟩) false).wf small = false ∧ (Instr.decrement 0 (some ⟨0, 63, 4⟩) false).wf small = true := by decide
theorem test_wf_flits : (Instr.send 0 0 (List.replicate 65 0)).wf small = false := by decide

/-! ## Single steps -/

/-- R386: a start after three attempts is minimal, with every Ward but Ward 0 fenced. -/
theorem test_fourth_attempt_minimal :
    (after .srstNRelease { up with boot := { srst := true, porst := false, attempts := 3 } }).map
      (fun b => (b.boot.minimal, b.boot.attempts, b.boot.fence)) = some (true, 3, 2) := by decide +kernel
/-- R389: LOCK in SCRUB is ignored. -/
theorem test_lock_outside_ready :
    (after .lock { up with boot := { up.boot with state := .scrub } }).map (fun b => b.boot.lock) = some false := by decide +kernel
/-- R368: a plain word takes the value written. -/
theorem test_scratch :
    (after (.registerWrite .mgt 0x1C 0xDEADBEEF 0xF) up).map (fun b => rd small b 0x1C) = some 0xDEADBEEF := by decide +kernel
/-- R52: the quarantine of an entry is 256 fclk, no less. -/
theorem test_quarantine_256 :
    (after (.quarantineEnd 10) { up with ents := [(10, { gen := 3, freedAt := some 2999744 })] }).map (fun b => ent b 10) = some { gen := 3 }
    ∧ (after (.quarantineEnd 10) { up with ents := [(10, { gen := 3, freedAt := some 2999745 })] }).map (fun b => (ent b 10).freedAt)
      = some (some 2999745) := by decide +kernel
/-- R209: a signal past 2^32 − 1 leaves COUNT and adds 1 to OVF_CNT. -/
theorem test_hasp_overflow :
    (after (.signal 5 1 (.settle 1 2 3 4)) { up with
      hasps := [(5, { v := true, tenant := 4, count := 0xFFFFFFFF })], xbar := [.sig 5 1 (.settle 1 2 3 4)], tens := [(4, { en := true })] }).map
      (fun b => ((hsp b 5).count, (hsp b 5).ovf)) = some (0xFFFFFFFF, 1) := by decide +kernel
/-- R219: a grant wraps from offset SIZE − 1 to offset 0. -/
theorem test_key_grant_wraps :
    (after (.keyRequestArrival 9 3) { up with
      kpool := [(9 * 16 + 3, { en := true, size := 8, free := 8, head := 6, tail := 6, tenant := 4 })], xbar := [.keyReq 9 3 3 4 4 77] }).map
      (fun b => ((kpl b 9 3).head, (kpl b 9 3).free)) = some (2, 4) := by decide +kernel
/-- R292: OVF stops at 0xFFFF. -/
theorem test_last_resort_saturates :
    (logRec small { status := 5 } { up with log := { failed := true, lr := [1, 2, 3, 4], lrOvf := 0xFFFF } }).log.lrOvf = 0xFFFF := by
  decide +kernel
/-- R294: an assertion in RUN begins the drain. -/
theorem test_deadbolt_drain :
    (after .deadboltAssert { up with dbolt := { input := true } }).map (fun b => b.dbolt.state) = some .drain := by decide +kernel
/-- R318: a trace write that faults adds 1 to WERR and logs nothing. -/
theorem test_trace_fault :
    (after (.traceWriteResponse .fault) up).map (fun b => (b.trace.werr, b.log)) = some (1, {}) := by decide +kernel
/-- Log entry 5: a step on an empty queue is one fclk. -/
theorem test_idle :
    (match step ⟨small, [], up, {}⟩ with | .next s => some s.block.clk.fclk | _ => none) = some 3000001 := by decide +kernel

/-! ## Worked examples -/

/-- Chapter 3, the start burst: EST 420 with a trim of −12 % is 370; ten starts fit in 4,000 and the eleventh does not. -/
theorem test_energy_estimate :
    energyEst { small with eclFact := List.replicate 10 420 } { up with gov := { trim := [(9, -12)] } } 9 = 370
    ∧ permits { beff := some 16, leff := some 4000, n := 9, i := 3330 } 370 = true
    ∧ permits { beff := some 16, leff := some 4000, n := 10, i := 3700 } 370 = false := by decide +kernel
/-- One element of a BF16 contribution applied to a queue. -/
def contribute (c : CQ) (v : BitVec 512) : CQ := applyPart ⟨0, none, 0, 0, 0, 0, 0, 1, true, [v], 0⟩ c
/-- The result of element 0 after contributions in turn to a SUM queue with BF16 input and FP32 output. -/
def reduced (fast : Bool) (l : List (BitVec 512)) : Nat :=
  let c := l.foldl contribute { ifmt := 2, ofmt := 0, fast := fast, len := 1 }
  (drainElem c (Tbl.get (initCell c) c.cells 0)).1
/-- Chapter 6, the federated reduction: EXACT gives 2.25 in both orders. -/
theorem test_reduction_exact :
    reduced false [0x4B80, 0x3F80, 0x3F80, 0xCB80, 0x3F40, 0xBF00] = 0x40100000
    ∧ reduced false [0x3F80, 0x3F80, 0x4B80, 0xCB80, 0x3F40, 0xBF00] = 0x40100000 := by decide +kernel
/-- Chapter 6, the same contributions under FAST: 0.25 in order A and 2.25 in order B. -/
theorem test_reduction_fast :
    reduced true [0x4B80, 0x3F80, 0x3F80, 0xCB80, 0x3F40, 0xBF00] = 0x3E800000
    ∧ reduced true [0x3F80, 0x3F80, 0x4B80, 0xCB80, 0x3F40, 0xBF00] = 0x40100000 := by decide +kernel
/-- CRC-32C of the digits 1 to 9, the published check value of the polynomial that R327 names. -/
theorem test_crc : crc32c [0x31, 0x32, 0x33, 0x34, 0x35, 0x36, 0x37, 0x38, 0x39] = 0xE3069283 := by decide +kernel

/-- Every listed key of a constant table reads as its value. -/
theorem get_const {α : Type} (d x : α) (l : List Nat) (k : Nat) (h : k ∈ l) : Tbl.get d (l.map (fun i => (i, x))) k = x := by
  induction l with
  | nil => cases h
  | cons j r ih =>
    simp only [List.map_cons, Tbl.get]
    split
    · rfl
    · exact ih (by simpa [Ne.symm ‹_›] using h)
/-- With every channel taken no ID is free. -/
theorem no_free (c : Chan) (l : List XItem) :
    freeCh { up with chans := (List.range 16384).map (fun i => (i, some c)), xbar := l } = none := by
  simp only [freeCh, List.find?_eq_none, chn]
  intro k hk
  rw [get_const none (some c) _ k hk]
  simp

/-! ## Witnesses: a state and operands that meet the hypotheses of each clause of a statement -/

theorem witness_ResetPins :
    (∃ (p : Params) (b : Block), inTurn p b {} .porstNAssert ∧ NoneDue b) ∧
    (∃ (p : Params) (b : Block), b.boot.porst = true ∧ inTurn p b {} .porstNRelease ∧ NoneDue b) ∧
    (∃ (p : Params) (b : Block), b.boot.porst = false ∧ b.boot.srst = false ∧ inTurn p b {} .srstNAssert ∧ NoneDue b) ∧
    (∃ (p : Params) (b : Block), b.boot.porst = true ∧ b.boot.srst = false ∧ inTurn p b {} .srstNAssert ∧ NoneDue b) ∧
    (∃ (p : Params) (b : Block), b.boot.porst = false ∧ b.boot.srst = true ∧ inTurn p b {} .srstNRelease ∧ NoneDue b) ∧
    (∃ (p : Params) (b : Block), b.boot.porst = false ∧ inTurn p b {} .mtrRstN ∧ NoneDue b) := by
  exact ⟨⟨small, { up with boot := { up.boot with porst := true } }, by decide +kernel⟩,
    ⟨small, { up with boot := { up.boot with porst := true } }, by decide +kernel⟩,
    ⟨small, up, by decide +kernel⟩,
    ⟨small, { up with boot := { up.boot with porst := true } }, by decide +kernel⟩,
    ⟨small, { up with boot := { up.boot with srst := true, attempts := 3 } }, by decide +kernel⟩,
    ⟨small, up, by decide +kernel⟩⟩

theorem witness_BootAndLock :
    (∃ (p : Params) (b : Block) (x : Domain), b.boot.porst = false ∧ starts p b x = true ∧ stageOf b (domNo x) = .held ∧ b.boot.t0 + relAt p x ≤ b.clk.fclk ∧ inTurn p b {} (.domainResetRelease x) ∧ NoneDue b) ∧
    (∃ (p : Params) (b : Block) (u : UnitId), booting b = true ∧ stageOf b (unitNo u) = .scrub ∧ ((match u with
      | .keeper => True | .ward w => Tbl.get 0 b.boot.since (1 + w) + 2048 ≤ b.clk.fclk | .hinge _ => False)) ∧ inTurn p b {} (.bootScrubDone u) ∧ NoneDue b) ∧
    (∃ (p : Params) (b : Block) (u : UnitId) (l : List (Nat × Nat)), booting b = true ∧ stageOf b (unitNo u) = .selftest ∧ inTurn p b {} (.selfTestDone u [] l) ∧ NoneDue b) ∧
    (∃ (p : Params) (b : Block) (w : Nat) (x : Nat × Nat) (l c : List (Nat × Nat)), booting b = true ∧ stageOf b (1 + w) = .selftest ∧ w < 48 ∧ inTurn p b {} (.selfTestDone (.ward w) (x :: l) c) ∧ NoneDue b) ∧
    (∃ (p : Params) (b : Block) (u : UnitId), booting b = true ∧ stageOf b (unitNo u) = .rescrub ∧ b.mgt.waitW = none ∧ b.mgt.waitR = none ∧ inTurn p b {} (.rescrubDone u) ∧ NoneDue b) ∧
    (∃ (p : Params) (b : Block), booting b = true ∧ stageOf b 0 = .tmrCheck ∧ inTurn p b {} (.tmrCheck 0) ∧ NoneDue b) ∧
    (∃ (p : Params) (b : Block) (n : Nat) (bad : BitVec 3), booting b = true ∧ stageOf b 0 = .tmrCheck ∧ bitsOf bad 3 = [n] ∧ inTurn p b {} (.tmrCheck bad) ∧ NoneDue b) ∧
    (∃ (p : Params) (b : Block) (h : Nat), hingeUp p b h = true ∧ (hng b h).state = .train ∧ (hng b h).linkUp = false ∧ inTurn p b {} (.linkUp h) ∧ NoneDue b) ∧
    (∃ (p : Params) (b : Block) (h : Nat), hingeUp p b h = true ∧ stageOf b (64 + h) = .linkup ∧ Tbl.get 0 b.boot.since (64 + h) + 2048000 ≤ b.clk.fclk ∧ h < 8 ∧ inTurn p b {} (.linkUpTimeout h) ∧ NoneDue b) ∧
    (∃ (p : Params) (b : Block), mgtFree b = true ∧ b.boot.state = .ready ∧ b.dbolt.state ≠ .fault ∧ b.boot.lock = false ∧ inTurn p b {} .lock ∧ NoneDue b) ∧
    (∃ (p : Params) (b : Block), mgtFree b = true ∧ b.boot.lock = false ∧ inTurn p b {} .fwfail ∧ NoneDue b) := by
  exact ⟨⟨small, { staged 1 .held with boot := { (staged 1 .held).boot with t0 := 0 } }, (.ward 0), by decide +kernel⟩,
    ⟨small, (staged 1 .scrub), (.ward 0), by decide +kernel⟩,
    ⟨small, (staged 0 .selftest), .keeper, [], by decide +kernel⟩,
    ⟨small, (staged 2 .selftest), 1, (3, 4), [], [], by decide +kernel⟩,
    ⟨small, (staged 1 .rescrub), (.ward 0), by decide +kernel⟩,
    ⟨small, (staged 0 .tmrCheck), by decide +kernel⟩,
    ⟨small, (staged 0 .tmrCheck), 2, 4, by decide +kernel⟩,
    ⟨small, (staged 65 .linkup), 1, by decide +kernel⟩,
    ⟨small, (staged 65 .linkup), 1, by decide +kernel⟩,
    ⟨small, up, by decide +kernel⟩,
    ⟨small, up, by decide +kernel⟩⟩

theorem witness_RegisterWrites :
    (∃ (p : Params) (b : Block) (v : BitVec 32), mgtFree b ∧ inTurn p b {} (.registerWrite .mgt 0x00001C v 0xF) ∧ NoneDue b) ∧
    (∃ (p : Params) (b : Block) (v : BitVec 32), mgtFree b ∧ b.boot.lock = false ∧ inTurn p b {} (.registerWrite .mgt 0x000068 v 0xF) ∧ NoneDue b) ∧
    (∃ (p : Params) (b : Block) (v : BitVec 32), mgtFree b ∧ b.boot.lock = true ∧ inTurn p b {} (.registerWrite .mgt 0x000068 v 0xF) ∧ NoneDue b) ∧
    (∃ (p : Params) (b : Block) (a : BitVec 24) (v : BitVec 32) (s : BitVec 4), mgtFree b ∧ (a.toNat % 4 ≠ 0 ∨ s ≠ 0xF) ∧ inTurn p b {} (.registerWrite .mgt a v s) ∧ NoneDue b) ∧
    (∃ (p : Params) (b : Block) (v : BitVec 32), meterUp b ∧ inTurn p b {} (.registerWrite .mtp 0x00001C v 0xF) ∧ NoneDue b) ∧
    (∃ (p : Params) (b : Block) (a : BitVec 24) (v : BitVec 32) (s : BitVec 4), meterUp b ∧ (a.toNat % 4 ≠ 0 ∨ s ≠ 0xF) ∧ inTurn p b {} (.registerWrite .mtp a v s) ∧ NoneDue b) := by
  exact ⟨⟨small, up, 5, by decide +kernel⟩,
    ⟨small, up, 5, by decide +kernel⟩,
    ⟨small, { up with boot := { up.boot with lock := true } }, 5, by decide +kernel⟩,
    ⟨small, up, 0x1D, 5, 0xF, by decide +kernel⟩,
    ⟨small, up, 5, by decide +kernel⟩,
    ⟨small, up, 0x1C, 5, 0x3, by decide +kernel⟩⟩

theorem witness_RegisterReads :
    (∃ (p : Params) (b : Block) (w : Nat) (l : List Nat), mgtUp b ∧ b.mgt.waitR = none ∧ b.mgt.latch = [] ∧ members p b .bcast = w :: l ∧ inTurn p b {} (.windowRead 0x4000C0) ∧ NoneDue b) ∧
    (∃ (p : Params) (b : Block), mgtUp b ∧ b.mgt.waitR = none ∧ b.mgt.latch = [] ∧ inTurn p b {} (.multiwordReadLatch (.mgt, 0x00A044)) ∧ NoneDue b) ∧
    (∃ (p : Params) (b : Block) (v : Word32), mgtUp b ∧ b.mgt.waitR = none ∧ b.mgt.latch = [(0xA048, v)] ∧ inTurn p b {} (.multiwordReadLatch (.mgt, 0x00A048)) ∧ NoneDue b) ∧
    (∃ (p : Params) (b : Block), mgtUp b ∧ b.mgt.waitR = none ∧ b.mgt.latch = [] ∧ 0 < p.nw ∧ fenced b 0 = false ∧ tabReady b 1 ∧ rdf p b (wA 0 5 0x040) 0 6 < p.ne ∧ inTurn p b {} (.eventRingRead 0x10504C) ∧ NoneDue b) := by
  exact ⟨⟨small, upRead, 0, [1], by decide +kernel⟩,
    ⟨small, upRead, by decide +kernel⟩,
    ⟨small, { upRead with mgt := { latch := [(0xA048, 7)] } }, 7, by decide +kernel⟩,
    ⟨small, upRead, by decide +kernel⟩⟩

theorem witness_ShadowsAndCommits :
    (∃ (p : Params) (b : Block) (v : BitVec 32), mgtFree b ∧ fld v 0 2 ≠ 3 ∧ bitAt v 31 ∧ inTurn p b {} (.rwqShadowWrite 0x002044 v) ∧ NoneDue b) ∧
    (∃ (p : Params) (b : Block) (w : Nat), wardUp p b w ∧ atCommit p b w ∧ qhold p b = false ∧ inTurn p b {} (.commitPoint w) ∧ NoneDue b) ∧
    (∃ (p : Params) (b : Block) (w : Nat), wardUp p b w ∧ atCommit p b w ∧ qhold p b = true ∧ inTurn p b {} (.commitPoint w) ∧ NoneDue b) ∧
    (∃ (p : Params) (b : Block), mgtFree b ∧ qhold p b = false ∧ inTurn p b {} .commitForce ∧ NoneDue b) ∧
    (∃ (p : Params) (b : Block) (v : BitVec 32), mgtFree b ∧ inTurn p b {} (.tenantCfgWrite v) ∧ NoneDue b) := by
  exact ⟨⟨small, up, 0x80000001, by decide +kernel⟩,
    ⟨small, { up with cmtDue := [1], pcls := [(3, { shadow := { tenant := 5 } })] }, 1, by decide +kernel⟩,
    ⟨small, (withReg (kA 0 0x084) 4 { up with cmtDue := [1] }), 1, by decide +kernel⟩,
    ⟨small, up, by decide +kernel⟩,
    ⟨small, up, 0x80000001, by decide +kernel⟩⟩

theorem witness_Configuration :
    (∃ (p : Params) (b : Block) (k : Nat) (v : BitVec 32), mgtFree b ∧ tabReady b 0 ∧ bitAt (rd p b (kA 1 0x040)) 16 = false ∧ k < 5 ∧ (rng b (ringSel p b)).enable = false ∧ (rng b (ringSel p b)).subs = [] ∧ inTurn p b {} (.ringDescriptorWrite k v) ∧ NoneDue b) ∧
    (∃ (p : Params) (b : Block) (k : Nat) (v : BitVec 32), mgtFree b ∧ tabReady b 0 ∧ bitAt (rd p b (kA 1 0x040)) 16 = false ∧ k < 5 ∧ ((rng b (ringSel p b)).enable = true ∨ (rng b (ringSel p b)).subs ≠ []) ∧ inTurn p b {} (.ringDescriptorWrite k v) ∧ NoneDue b) ∧
    (∃ (p : Params) (b : Block) (k : Nat) (v : BitVec 32), mgtFree b ∧ tabReady b 0 ∧ (bitAt (rd p b (kA 1 0x040)) 16 = true ∨ 6 ≤ k) ∧ inTurn p b {} (.ringDescriptorWrite k v) ∧ NoneDue b) ∧
    (∃ (p : Params) (b : Block), mgtFree b ∧ tabReady b 0 ∧ bitAt (rd p b (kA 1 0x040)) 16 = false ∧ (rng b (ringSel p b)).enable = false ∧ enableBad p b (ringSel p b) = false ∧ (rng b (ringSel p b)).subs = [] ∧ inTurn p b {} .ringEnable ∧ NoneDue b) ∧
    (∃ (p : Params) (b : Block), mgtFree b ∧ tabReady b 0 ∧ bitAt (rd p b (kA 1 0x040)) 16 = false ∧ (rng b (ringSel p b)).enable = false ∧ enableBad p b (ringSel p b) = true ∧ inTurn p b {} .ringEnable ∧ NoneDue b) ∧
    (∃ (p : Params) (b : Block), mgtFree b ∧ tabReady b 0 ∧ bitAt (rd p b (kA 1 0x040)) 16 = false ∧ inTurn p b {} .ringDisable ∧ NoneDue b) ∧
    (∃ (p : Params) (b : Block) (v : BitVec 32), mgtFree b ∧ fld v 0 2 ≠ 3 ∧ (bitAt v 31 ∨ tenLive b (tenSel p b) = false) ∧ inTurn p b {} (.tenantCfgWrite v) ∧ NoneDue b) ∧
    (∃ (p : Params) (b : Block) (v : BitVec 32), mgtFree b ∧ bitAt v 31 = false ∧ (ten b (tenSel p b)).en = true ∧ tenLive b (tenSel p b) = true ∧ inTurn p b {} (.tenantCfgWrite v) ∧ NoneDue b) ∧
    (∃ (p : Params) (b : Block) (v : BitVec 32), mgtFree b ∧ tabReady b 0 ∧ waitersOn b (haspSel p b) = [] ∧ inTurn p b {} (.haspAssign v) ∧ NoneDue b) ∧
    (∃ (p : Params) (b : Block) (v : BitVec 32), mgtFree b ∧ tabReady b 0 ∧ waitersOn b (haspSel p b) ≠ [] ∧ inTurn p b {} (.haspAssign v) ∧ NoneDue b) ∧
    (∃ (p : Params) (b : Block), mgtFree b ∧ tabReady b 0 ∧ inTurn p b {} .haspForce ∧ NoneDue b) := by
  exact ⟨⟨small, up, 1, 5, by decide +kernel⟩,
    ⟨small, { up with rings := [(0, { enable := true })] }, 1, 5, by decide +kernel⟩,
    ⟨small, up, 7, 5, by decide +kernel⟩,
    ⟨small, { up with tens := [(0, { en := true, lcOk := true })] }, by decide +kernel⟩,
    ⟨small, { up with tens := [(0, { en := false, lcOk := true })] }, by decide +kernel⟩,
    ⟨small, up, by decide +kernel⟩,
    ⟨small, up, 0x80000001, by decide +kernel⟩,
    ⟨small, { up with tens := [(0, { en := true })], rings := [(3, { enable := true })] }, 1, by decide +kernel⟩,
    ⟨small, up, 5, by decide +kernel⟩,
    ⟨small, { up with waits := [⟨.ring 3, 0, 5, 7, false⟩] }, 5, by decide +kernel⟩,
    ⟨small, up, by decide +kernel⟩⟩

theorem witness_QueueAndPoolRegisters :
    (∃ (p : Params) (b : Block) (w : Nat) (v : BitVec 32), mgtFree b ∧ w < p.nw ∧ fenced b w = false ∧ tabReady b (1 + w) ∧ (mqu b w (mqSel p b w)).en = false ∧ heldAt b (wA w 2 0x048) = none ∧ heldAt b (wA w 2 0x04C) = none ∧ bitAt v 31 = false ∧ inTurn p b {} (.mqCfgWrite (.ward w) 0 v) ∧ NoneDue b) ∧
    (∃ (p : Params) (b : Block) (w k : Nat) (v : BitVec 32), mgtFree b ∧ w < p.nw ∧ fenced b w = false ∧ 0 < k ∧ inTurn p b {} (.mqCfgWrite (.ward w) k v) ∧ NoneDue b) ∧
    (∃ (p : Params) (b : Block) (w : Nat), mgtFree b ∧ w < p.nw ∧ fenced b w = false ∧ tabReady b (1 + w) ∧ (mqu b w (mqSel p b w)).items.all (fun i => decide (i.landedAt ≤ b.clk.fclk)) ∧ inTurn p b {} (.mqFlush (.ward w)) ∧ NoneDue b) ∧
    (∃ (p : Params) (b : Block) (w : Nat), mgtFree b ∧ w < p.nw ∧ fenced b w = false ∧ tabReady b (1 + w) ∧ (mqu b w (mqSel p b w)).items.all (fun i => decide (i.landedAt ≤ b.clk.fclk)) = false ∧ inTurn p b {} (.mqFlush (.ward w)) ∧ NoneDue b) ∧
    (∃ (p : Params) (b : Block) (w k : Nat), wardUp p b w ∧ (mqu b w k).flushPend = true ∧ (mqu b w k).items.all (fun i => decide (i.landedAt ≤ b.clk.fclk)) ∧ inTurn p b {} (.flushDiscard w k) ∧ NoneDue b) ∧
    (∃ (p : Params) (b : Block) (w : Nat) (be : Bool), mgtFree b ∧ w < p.nw ∧ fenced b w = false ∧ tabReady b (1 + w) ∧ mqOcc (mqu b w (mqSel p b w)) + 1 ≤ mqSlots (mqu b w (mqSel p b w)) ∧ inTurn p b {} (.mqPush (.ward w) be) ∧ NoneDue b) ∧
    (∃ (p : Params) (b : Block) (w : Nat) (be : Bool), mgtFree b ∧ w < p.nw ∧ fenced b w = false ∧ tabReady b (1 + w) ∧ mqSlots (mqu b w (mqSel p b w)) < mqOcc (mqu b w (mqSel p b w)) + 1 ∧ inTurn p b {} (.mqPush (.ward w) be) ∧ NoneDue b) ∧
    (∃ (p : Params) (b : Block) (w : Nat) (i : MqItem), mgtFree b ∧ w < p.nw ∧ fenced b w = false ∧ tabReady b (1 + w) ∧ (mqu b w (mqSel p b w)).reader = 0xFFFF ∧ mqFront b.clk.fclk (mqu b w (mqSel p b w)) = some i ∧ inTurn p b {} (.mqPop (.ward w)) ∧ NoneDue b) ∧
    (∃ (p : Params) (b : Block) (w : Nat), mgtFree b ∧ w < p.nw ∧ fenced b w = false ∧ tabReady b (1 + w) ∧ ((mqu b w (mqSel p b w)).reader ≠ 0xFFFF ∨ mqFront b.clk.fclk (mqu b w (mqSel p b w)) = none) ∧ inTurn p b {} (.mqPop (.ward w)) ∧ NoneDue b) ∧
    (∃ (p : Params) (b : Block) (w : Nat), mgtUp b ∧ b.mgt.waitR = none ∧ b.mgt.latch = [] ∧ w < p.nw ∧ w < 48 ∧ fenced b w = false ∧ tabReady b (1 + w) ∧ inTurn p b {} (.mqRdataAdvance w) ∧ NoneDue b) ∧
    (∃ (p : Params) (b : Block) (w : Nat) (v : BitVec 32) (x : Nat × Nat), mgtFree b ∧ w < p.nw ∧ fenced b w = false ∧ tabReady b (1 + w) ∧ keySel p b w = some x ∧ (kpl b x.1 x.2).en = false ∧ inTurn p b {} (.keyPoolCfgWrite (.ward w) 0 v) ∧ NoneDue b) ∧
    (∃ (p : Params) (b : Block) (w : Nat) (v : BitVec 32) (x : Nat × Nat), mgtFree b ∧ w < p.nw ∧ fenced b w = false ∧ tabReady b (1 + w) ∧ keySel p b w = some x ∧ (kpl b x.1 x.2).en = false ∧ (bitAt v 31 → keyEnBad p b x.1 (kpl b x.1 x.2) (fld v 0 13) = false) ∧ inTurn p b {} (.keyPoolCfgWrite (.ward w) 1 v) ∧ NoneDue b) ∧
    (∃ (p : Params) (b : Block) (w : Nat) (v : BitVec 32) (x : Nat × Nat), mgtFree b ∧ w < p.nw ∧ fenced b w = false ∧ tabReady b (1 + w) ∧ keySel p b w = some x ∧ (kpl b x.1 x.2).en = true ∧ bitAt v 31 = false ∧ inTurn p b {} (.keyPoolCfgWrite (.ward w) 1 v) ∧ NoneDue b) ∧
    (∃ (p : Params) (b : Block) (w : Nat) (x : Nat × Nat), mgtFree b ∧ w < p.nw ∧ fenced b w = false ∧ tabReady b (1 + w) ∧ keySel p b w = some x ∧ inTurn p b {} (.keyPoolReset (.ward w)) ∧ NoneDue b) := by
  exact ⟨⟨small, up, 1, 0x10, by decide +kernel⟩,
    ⟨small, up, 1, 2, 5, by decide +kernel⟩,
    ⟨small, (withReg (wA 0 2 0x040) 5 { up with mq := [(5, { en := true, size := 8, items := [⟨true, 9, [1], [0], none, 0, 10, false⟩] })] }), 0, by decide +kernel⟩,
    ⟨small, (withReg (wA 0 2 0x040) 5 { up with mq := [(5, { en := true, size := 8, items := [⟨true, 9, [1], [0], none, 0, 3000005, false⟩] })] }), 0, by decide +kernel⟩,
    ⟨small, { up with mq := [(5, { en := true, size := 8, flushPend := true, items := [⟨true, 9, [1], [0], none, 0, 10, false⟩] })] }, 0, 5, by decide +kernel⟩,
    ⟨small, (withReg (wA 0 2 0x040) 5 { up with mq := [(5, { en := true, size := 8, items := [⟨true, 9, [1], [0], none, 0, 10, false⟩] })] }), 0, true, by decide +kernel⟩,
    ⟨small, (withReg (wA 0 2 0x040) 5 { up with mq := [(5, { en := true, size := 0, items := [⟨true, 9, [1, 2], [0], none, 0, 10, false⟩] })] }), 0, true, by decide +kernel⟩,
    ⟨small, (withReg (wA 0 2 0x040) 5 { up with mq := [(5, { en := true, size := 8, items := [⟨true, 9, [1], [0], none, 0, 10, false⟩] })] }), 0, ⟨true, 9, [1], [0], none, 0, 10, false⟩, by decide +kernel⟩,
    ⟨small, (withReg (wA 0 2 0x040) 5 { up with mq := [(5, { en := true, size := 8, items := [] })] }), 0, by decide +kernel⟩,
    ⟨small, upRead, 1, by decide +kernel⟩,
    ⟨small, up, 1, 5, ((8, 0)), by decide +kernel⟩,
    ⟨small, up, 1, 8, ((8, 0)), by decide +kernel⟩,
    ⟨small, { up with kpool := [(128, { en := true, size := 8, free := 8 })] }, 1, 8, ((8, 0)), by decide +kernel⟩,
    ⟨small, { up with kpool := [(128, { en := true, size := 8, free := 6, grants := [⟨1, 0, 2, 3, false⟩] })] }, 1, ((8, 0)), by decide +kernel⟩⟩

theorem witness_LogHingeDeadboltRegisters :
    (∃ (p : Params) (b : Block), mgtFree b ∧ tabReady b 0 ∧ b.log.fresh < b.log.recs.length ∧ inTurn p b {} .logPop ∧ NoneDue b) ∧
    (∃ (p : Params) (b : Block), mgtFree b ∧ tabReady b 0 ∧ b.log.recs.length ≤ b.log.fresh ∧ inTurn p b {} .logPop ∧ NoneDue b) ∧
    (∃ (p : Params) (b : Block) (h : Nat), mgtFree b ∧ h < p.nh ∧ (hng b h).state ≠ .down ∧ inTurn p b {} (.hingeDownWrite h) ∧ NoneDue b) ∧
    (∃ (p : Params) (b : Block) (h : Nat), mgtFree b ∧ h < p.nh ∧ (hng b h).state = .down ∧ (hng b h).downPend = false ∧ inTurn p b {} (.hingeRearm h) ∧ NoneDue b) ∧
    (∃ (p : Params) (b : Block) (h : Nat), mgtFree b ∧ h < p.nh ∧ inTurn p b {} (.tsUnlock h) ∧ NoneDue b) ∧
    (∃ (p : Params) (b : Block), mgtFree b ∧ b.dbolt.a = false ∧ b.dbolt.b = false ∧ inTurn p b {} .discFaultClear ∧ NoneDue b) ∧
    (∃ (p : Params) (b : Block), mgtFree b ∧ inTurn p b {} .captureClear ∧ NoneDue b) := by
  exact ⟨⟨small, { up with log := { recs := [{ status := 2 }] } }, by decide +kernel⟩,
    ⟨small, up, by decide +kernel⟩,
    ⟨small, up, 1, by decide +kernel⟩,
    ⟨small, { up with hg := [(1, { state := .down })] }, 1, by decide +kernel⟩,
    ⟨small, { up with hg := [(1, { locked := true })] }, 1, by decide +kernel⟩,
    ⟨small, { up with dbolt := { discFault := true } }, by decide +kernel⟩,
    ⟨small, { up with cap := { valid := true, missed := 3 } }, by decide +kernel⟩⟩

theorem witness_CountersAndSnapshots :
    (∃ (p : Params) (b : Block), mgtFree b ∧ inTurn p b {} (.counterClear .keeper) ∧ NoneDue b) ∧
    (∃ (p : Params) (b : Block) (w : Nat), mgtFree b ∧ w < p.nw ∧ fenced b w = false ∧ inTurn p b {} (.counterClear (.wards (.ward w))) ∧ NoneDue b) ∧
    (∃ (p : Params) (b : Block) (h : Nat), mgtFree b ∧ h < p.nh ∧ inTurn p b {} (.counterClear (.hinge h)) ∧ NoneDue b) ∧
    (∃ (p : Params) (b : Block), mgtFree b ∧ inTurn p b {} .counterSnapshotOrder ∧ NoneDue b) ∧
    (∃ (p : Params) (b : Block), keeperUp b ∧ b.clk.fclk ∈ b.snapAt ∧ inTurn p b {} .counterSnapshot ∧ NoneDue b) ∧
    (∃ (p : Params) (b : Block), keeperUp b ∧ b.clk.fclk ∉ b.snapAt ∧ inTurn p b {} .counterSnapshot ∧ NoneDue b) ∧
    (∃ (p : Params) (b : Block), mgtFree b ∧ inTurn p b {} .blockedOnSnapOrder ∧ NoneDue b) ∧
    (∃ (p : Params) (b : Block), keeperUp b ∧ b.clk.fclk ∈ b.blk.orderAt ∧ inTurn p b {} .blockedOnSnapshot ∧ NoneDue b) ∧
    (∃ (p : Params) (b : Block), keeperUp b ∧ b.blk.builtAt.isSome ∧ inTurn p b {} .blockedOnDone ∧ NoneDue b) := by
  exact ⟨⟨small, up, by decide +kernel⟩,
    ⟨small, up, 1, by decide +kernel⟩,
    ⟨small, up, 1, by decide +kernel⟩,
    ⟨small, up, by decide +kernel⟩,
    ⟨small, { up with snapAt := [3000000, 3000001] }, by decide +kernel⟩,
    ⟨small, { up with snapAt := [3000001] }, by decide +kernel⟩,
    ⟨small, up, by decide +kernel⟩,
    ⟨small, { up with blk := { orderAt := [3000000, 3000001] } }, by decide +kernel⟩,
    ⟨small, { up with blk := { builtAt := some 5 } }, by decide +kernel⟩⟩

theorem witness_DumpAndTraceControl :
    (∃ (p : Params) (b : Block), mgtFree b ∧ (b.hang.hung ∨ b.dbolt.state = .quiesced ∨ b.dbolt.state = .fault) ∧ inTurn p b {} .dumpGo ∧ NoneDue b) ∧
    (∃ (p : Params) (b : Block), mgtFree b ∧ b.hang.hung = false ∧ (b.dbolt.state = .run ∨ b.dbolt.state = .drain) ∧ inTurn p b {} .dumpGo ∧ NoneDue b) ∧
    (∃ (p : Params) (b : Block) (n : Nat) (x : SnapReq), snapUp p b n ∧ (prt b n).snapReq = some x ∧ x.dump = true ∧ x.since + rdf p b (duA 0x04C) 0 16 * 128 ≤ b.clk.fclk ∧ inTurn p b {} (.dumpSnapshotTimeout n) ∧ NoneDue b) ∧
    (∃ (p : Params) (b : Block), b.boot.porst = false ∧ b.boot.srst = false ∧ b.dump.frozen = true ∧ b.dump.done = false ∧ b.dump.await = [] ∧ inTurn p b {} .dumpDone ∧ NoneDue b) ∧
    (∃ (p : Params) (b : Block), mgtFree b ∧ b.trace.state = .off ∧ inTurn p b {} .traceEnable ∧ NoneDue b) ∧
    (∃ (p : Params) (b : Block), mgtFree b ∧ inTurn p b {} .traceDisable ∧ NoneDue b) ∧
    (∃ (p : Params) (b : Block), mgtFree b ∧ b.trace.state = .armed ∧ bitAt (rd p b (trA 0x040)) 0 = true ∧ trPost p b ≠ 0 ∧ inTurn p b {} .traceTrigWrite ∧ NoneDue b) := by
  exact ⟨⟨small, { up with hang := { hung := true } }, by decide +kernel⟩,
    ⟨small, up, by decide +kernel⟩,
    ⟨small, { up with ports := [(3, { snapReq := some ⟨512, 9, 5, true⟩ })], dump := { frozen := true, await := [3] } }, 3, ⟨512, 9, 5, true⟩, by decide +kernel⟩,
    ⟨small, { up with dump := { frozen := true } }, by decide +kernel⟩,
    ⟨small, up, by decide +kernel⟩,
    ⟨small, { up with trace := { state := .armed } }, by decide +kernel⟩,
    ⟨small, (withReg (trA 0x040) 1 (withReg (trA 0x05C) 4 { up with trace := { state := .armed } })), by decide +kernel⟩⟩

theorem witness_TenantWindow :
    (∃ (p : Params) (b : Block) (t s : Nat) (x : BitVec 16) (r : Nat), mgtFree b ∧ ringOf b t (s % 64) = some r ∧ (x - (rng b r).rptr).toNat ≤ 2 ^ rLog (rng b r) ∧ (x - (rng b r).wptr).toNat ≤ 2 ^ rLog (rng b r) ∧ inTurn p b {} (.tnDoorbell t s x) ∧ NoneDue b) ∧
    (∃ (p : Params) (b : Block) (t s : Nat) (x : BitVec 16), mgtFree b ∧ ringOf b t (s % 64) = none ∧ inTurn p b {} (.tnDoorbell t s x) ∧ NoneDue b) ∧
    (∃ (p : Params) (b : Block) (t s r : Nat) (x : Machine.Sub) (l : List Machine.Sub), mgtFree b ∧ ringInSlot b t (s % 64) = some r ∧ (rng b r).subs = x :: l ∧ x.complete = false ∧ x.early = none ∧ x.unsettled ≠ 0 ∧ stoppable b r x.subid = [] ∧ (rng b r).walk.subid ≠ x.subid ∧ (rng b r).prePoint = none ∧ inTurn p b {} (.ringCancelOldest t s) ∧ NoneDue b) ∧
    (∃ (p : Params) (b : Block) (t s r : Nat), mgtFree b ∧ ringInSlot b t (s % 64) = some r ∧ (rng b r).subs = [] ∧ inTurn p b {} (.ringCancelAll t s) ∧ NoneDue b) ∧
    (∃ (p : Params) (b : Block) (t s r : Nat), mgtFree b ∧ ringInSlot b t (s % 64) = some r ∧ (rng b r).haltKind ≠ 0 ∧ (rng b r).halt = 0x06 ∧ inTurn p b {} (.ringResume t s) ∧ NoneDue b) := by
  exact ⟨⟨small, { up with rings := [(1, { enable := true, d1 := 0x08000600, wptr := 3 })] }, 8, 0, 4, 1, by decide +kernel⟩,
    ⟨small, up, 8, 0, 5, by decide +kernel⟩,
    ⟨small, { up with rings := [(1, { enable := true, d1 := 0x08000600, subs := [{ subid := 4, recNo := 0, unsettled := 2 }, { subid := 5, recNo := 1 }], walk := { mode := .header, subid := 5 } })] }, 8, 0, 1, { subid := 4, recNo := 0, unsettled := 2 }, [{ subid := 5, recNo := 1 }], by decide +kernel⟩,
    ⟨small, { up with rings := [(1, { enable := true, d1 := 0x08000600, wptr := 3 })] }, 8, 0, 1, by decide +kernel⟩,
    ⟨small, { up with rings := [(1, { enable := true, d1 := 0x08000600, haltKind := 3, halt := 6 })] }, 8, 0, 1, by decide +kernel⟩⟩

theorem witness_MeterPortAndPeriod :
    (∃ (p : Params) (b : Block), meterUp b ∧ b.meter.running = false ∧ b.meter.signing = none ∧ b.meter.toSign = [] ∧ b.meter.buf.length < 1024 ∧ inTurn p b {} .meterRun ∧ NoneDue b) ∧
    (∃ (p : Params) (b : Block), meterUp b ∧ b.meter.running = true ∧ b.meter.run = true ∧ inTurn p b {} .meterStop ∧ NoneDue b) ∧
    (∃ (p : Params) (b : Block) (v : BitVec 32), meterUp b ∧ b.meter.running = false ∧ inTurn p b {} (.meterConfigWrite (.key v)) ∧ NoneDue b) ∧
    (∃ (p : Params) (b : Block) (c : MtCfg), meterUp b ∧ b.meter.running = true ∧ cfgBusy b.meter = false ∧ periodOpen b.meter = true ∧ inTurn p b {} (.meterConfigWrite c) ∧ NoneDue b) ∧
    (∃ (p : Params) (b : Block) (c : MtCfg), meterUp b ∧ b.meter.running = true ∧ cfgBusy b.meter = true ∧ inTurn p b {} (.meterConfigWrite c) ∧ NoneDue b) ∧
    (∃ (p : Params) (b : Block), meterUp b ∧ b.meter.toSign = [] ∧ inTurn p b {} .meterRecPop ∧ NoneDue b) ∧
    (∃ (p : Params) (b : Block) (k : Nat), meterUp b ∧ b.meter.lastSlot ≠ some (sclkOf b) ∧ dirtiest b (sclkOf b % (p.nw + 1)) = some k ∧ periodOpen b.meter = true ∧ inTurn p b {} (.tallySlotSample .ok) ∧ NoneDue b) ∧
    (∃ (p : Params) (b : Block) (k : Nat), meterUp b ∧ b.meter.lastSlot ≠ some (sclkOf b) ∧ dirtiest b (sclkOf b % (p.nw + 1)) = some k ∧ periodOpen b.meter = true ∧ inTurn p b {} (.tallySlotSample .badTenantLost) ∧ NoneDue b) ∧
    (∃ (p : Params) (b : Block), meterUp b ∧ periodOpen b.meter = true ∧ b.meter.startSclk + b.meter.period ≤ sclkOf b ∧ inTurn p b {} .periodDue ∧ NoneDue b) ∧
    (∃ (p : Params) (b : Block), meterUp b ∧ closeWanted b.meter = true ∧ closeFits b.meter = true ∧ inTurn p b {} .periodClose ∧ NoneDue b) ∧
    (∃ (p : Params) (b : Block), meterUp b ∧ closeWanted b.meter = true ∧ closeFits b.meter = false ∧ inTurn p b {} .periodClose ∧ NoneDue b) ∧
    (∃ (p : Params) (b : Block) (k : Closing), meterUp b ∧ b.meter.closing = some k ∧ b.meter.lastForm ≠ some (sclkOf b) ∧ b.meter.closeBank = [] ∧ k.closeDone = false ∧ k.cfg = none ∧ inTurn p b {} (.recordForm []) ∧ NoneDue b) := by
  exact ⟨⟨small, up, by decide +kernel⟩,
    ⟨small, { up with meter := { running := true, run := true } }, by decide +kernel⟩,
    ⟨small, up, 0x30005, by decide +kernel⟩,
    ⟨small, { up with meter := { running := true, run := true, period := 99 } }, (.period 5), by decide +kernel⟩,
    ⟨small, { up with meter := { running := true, cfgPend := some (.key 3) } }, (.period 5), by decide +kernel⟩,
    ⟨small, up, by decide +kernel⟩,
    ⟨small, { up with tally := [(5, { busy := 9, dirtyAt := some 3 })], meter := { running := true, run := true }, clk := { fclk := 0 } }, 5, by decide +kernel⟩,
    ⟨small, { up with tally := [(5, { busy := 9, dirtyAt := some 3 })], meter := { running := true, run := true }, clk := { fclk := 0 } }, 5, by decide +kernel⟩,
    ⟨small, { up with meter := { running := true, run := true, period := 99 } }, by decide +kernel⟩,
    ⟨small, { up with meter := { running := true, run := true, due := true } }, by decide +kernel⟩,
    ⟨small, { up with meter := { running := true, run := true, due := true, closing := some ⟨0, 1, 2, 3, 0, false, 0, 0, 0, false, none⟩ } }, by decide +kernel⟩,
    ⟨small, { up with meter := { running := true, closing := some ⟨0, 1, 2, 3, 0, false, 0, 0, 0, false, none⟩ } }, ⟨0, 1, 2, 3, 0, false, 0, 0, 0, false, none⟩, by decide +kernel⟩⟩

theorem witness_MeterSigning :
    (∃ (p : Params) (b : Block) (m : BitVec 256) (g : Signing), meterUp b ∧ b.meter.signing = some g ∧ g.waitAck = true ∧ b.meter.toSign = [] ∧ inTurn p b {} (.keyStoreAck m false) ∧ NoneDue b) ∧
    (∃ (p : Params) (b : Block) (m : BitVec 256) (g : Signing), meterUp b ∧ b.meter.signing = some g ∧ g.waitAck = true ∧ inTurn p b {} (.keyStoreAck m true) ∧ NoneDue b) ∧
    (∃ (p : Params) (b : Block) (g : Signing), meterUp b ∧ b.meter.signing = some g ∧ g.waitAck = true ∧ b.meter.tmo ≠ 0 ∧ g.since + b.meter.tmo * 256 ≤ sclkOf b ∧ inTurn p b {} .keyStoreTimeout ∧ NoneDue b) ∧
    (∃ (p : Params) (b : Block) (g : Signing) (t : Nat), meterUp b ∧ b.meter.signing = some g ∧ g.retryAt = some t ∧ t ≤ sclkOf b ∧ inTurn p b {} .signRetry ∧ NoneDue b) := by
  exact ⟨⟨small, { up with meter := { signing := some ⟨⟨⟨7, 0, 1, 0, 0, 5, 0, 0, 0, 0, [], 0, 0, 0⟩, 3, 4⟩, 5, true, none⟩ } }, 5, ⟨⟨⟨7, 0, 1, 0, 0, 5, 0, 0, 0, 0, [], 0, 0, 0⟩, 3, 4⟩, 5, true, none⟩, by decide +kernel⟩,
    ⟨small, { up with meter := { signing := some ⟨⟨⟨7, 0, 1, 0, 0, 5, 0, 0, 0, 0, [], 0, 0, 0⟩, 3, 4⟩, 5, true, none⟩ } }, 5, ⟨⟨⟨7, 0, 1, 0, 0, 5, 0, 0, 0, 0, [], 0, 0, 0⟩, 3, 4⟩, 5, true, none⟩, by decide +kernel⟩,
    ⟨small, { up with meter := { signing := some ⟨⟨⟨7, 0, 1, 0, 0, 5, 0, 0, 0, 0, [], 0, 0, 0⟩, 3, 4⟩, 5, true, none⟩ } }, ⟨⟨⟨7, 0, 1, 0, 0, 5, 0, 0, 0, 0, [], 0, 0, 0⟩, 3, 4⟩, 5, true, none⟩, by decide +kernel⟩,
    ⟨small, { up with meter := { signing := some ⟨⟨⟨7, 0, 1, 0, 0, 5, 0, 0, 0, 0, [], 0, 0, 0⟩, 3, 4⟩, 5, false, some 7⟩ } }, ⟨⟨⟨7, 0, 1, 0, 0, 5, 0, 0, 0, 0, [], 0, 0, 0⟩, 3, 4⟩, 5, false, some 7⟩, 7, by decide +kernel⟩⟩

theorem witness_IssueAndPreload :
    (∃ (p : Params) (b : Block) (n : Nat) (x : IqEnt), portUp p b n ∧ issueHead b (portWard p n) (prt b n) = some x ∧ inTurn p b {} (.issueCommit n true) ∧ NoneDue b) ∧
    (∃ (p : Params) (b : Block) (n h : Nat), portUp p b n ∧ (prt b n).iss = some h ∧ inTurn p b {} (.issDescriptorAccepted n) ∧ NoneDue b) ∧
    (∃ (p : Params) (b : Block) (n : Nat) (x : Nat × Nat), portUp p b n ∧ runState b ∧ b.boot.minimal = false ∧ (prt b n).shadow = .free ∧ preloadNext b (prt b n) = some x ∧ inTurn p b {} (.preloadStart n) ∧ NoneDue b) ∧
    (∃ (p : Params) (b : Block) (n : Nat) (r : Resp) (l : List (BitVec 256)) (h g k : Nat) (e : Status), portUp p b n ∧ (prt b n).shadow = .loading h g k e ∧ l.length ≤ k ∧ inTurn p b {} (.argumentReadResponse n r l) ∧ NoneDue b) ∧
    (∃ (p : Params) (b : Block) (n h g : Nat) (e : Status), portUp p b n ∧ (prt b n).shadow = .loading h g 0 e ∧ inTurn p b {} (.preloadComplete n) ∧ NoneDue b) := by
  exact ⟨⟨small, { up with ents := [(10, { st := .preloaded, gen := 3 })], ports := [(9, { online := true, iq := [⟨10, 3, false, 5, true, false⟩] })] }, 9, ⟨10, 3, false, 5, true, false⟩, by decide +kernel⟩,
    ⟨small, { up with ents := [(10, { st := .running, gen := 3, d := { tmo := 2 } })], ports := [(9, { iss := some 10, run := some ⟨10, 3, 5, 6⟩ })] }, 9, 10, by decide +kernel⟩,
    ⟨small, { up with ents := [(10, { st := .placed, gen := 3, d := { arglen := 2, argptr := 4096 } })], ports := [(9, { iq := [⟨10, 3, false, 5, false, false⟩] })] }, 9, ((10, 3)), by decide +kernel⟩,
    ⟨small, { up with ents := [(10, { st := .placed, gen := 3, d := { arglen := 2 } })], ports := [(9, { shadow := .loading 10 3 4 0 })] }, 9, .okay, [1, 2], 10, 3, 4, 0, by decide +kernel⟩,
    ⟨small, { up with ents := [(10, { st := .placed, gen := 3, d := { arglen := 2 } })], ports := [(9, { iq := [⟨10, 3, false, 5, false, false⟩], shadow := .loading 10 3 0 0 })] }, 9, 10, 3, 0, by decide +kernel⟩⟩

theorem witness_CompletionAtPort :
    (∃ (p : Params) (b : Block) (n : Nat) (x : BitVec 256) (r : RunInfo) (z : Option (BitVec 256)), portUp p b n ∧ (prt b n).run = some r ∧ r.handle = fld x 0 17 ∧ r.gen % 256 = fld x 17 8 ∧ inTurn p b {} (.cmpRecord n x z false) ∧ NoneDue b) ∧
    (∃ (p : Params) (b : Block) (n : Nat) (x : BitVec 256) (z : Option (BitVec 256)) (e : Bool), portUp p b n ∧ (prt b n).run = none ∧ inTurn p b {} (.cmpRecord n x z e) ∧ NoneDue b) ∧
    (∃ (p : Params) (b : Block) (n : Nat) (x : BitVec 25) (v : Bool), portUp p b n ∧ x ∈ (prt b n).cans ∧ inTurn p b {} (.canAck n x v) ∧ NoneDue b) ∧
    (∃ (p : Params) (b : Block) (n : Nat) (x : BitVec 25) (v : Bool), portUp p b n ∧ x ∉ (prt b n).cans ∧ inTurn p b {} (.canAck n x v) ∧ NoneDue b) ∧
    (∃ (p : Params) (b : Block) (n h : Nat), portUp p b n ∧ .reread n h ∈ b.xbar ∧ inTurn p b {} (.issueCopyReread n h) ∧ NoneDue b) := by
  exact ⟨⟨small, { up with ents := [(10, { st := .running, gen := 3 })], ports := [(9, { run := some ⟨10, 3, 5, 6⟩ })] }, 9, 393226, ⟨10, 3, 5, 6⟩, none, by decide +kernel⟩,
    ⟨small, up, 9, 5, none, true, by decide +kernel⟩,
    ⟨small, { up with ents := [(10, { st := .placed, gen := 3 })], ports := [(9, { cans := [393226] })] }, 9, 393226, true, by decide +kernel⟩,
    ⟨small, up, 9, 5, true, by decide +kernel⟩,
    ⟨small, { up with ports := [(9, { iq := [⟨10, 3, false, 5, true, true⟩] })], xbar := [.reread 9 10] }, 9, 10, by decide +kernel⟩⟩

theorem witness_PortStateAndDelivery :
    (∃ (p : Params) (b : Block) (n : Nat), portUp p b n ∧ inTurn p b {} (.portReset n) ∧ NoneDue b) ∧
    (∃ (p : Params) (b : Block) (n : Nat), wardUp p b (portWard p n) ∧ (prt b n).inReset = true ∧ inTurn p b {} (.portResetRelease n) ∧ NoneDue b) ∧
    (∃ (p : Params) (b : Block) (n k : Nat), portUp p b n ∧ k ≤ 16 ∧ b.mq = [] ∧ inTurn p b {} (.landingCreditReturn n k) ∧ NoneDue b) ∧
    (∃ (p : Params) (b : Block) (n k t : Nat), portUp p b n ∧ (prt b n).online = false ∧ 16 ≤ k ∧ b.mq = [] ∧ (prt b n).keyRecs = [] ∧ inTurn p b {} (.ctlOnlineChange n true k t) ∧ NoneDue b) ∧
    (∃ (p : Params) (b : Block) (n k t : Nat), portUp p b n ∧ (prt b n).online = true ∧ inTurn p b {} (.ctlOnlineChange n false k t) ∧ NoneDue b) ∧
    (∃ (p : Params) (b : Block) (n : Nat) (l : List (BitVec 128)) (x : SnapReq), snapUp p b n ∧ (prt b n).snapReq = some x ∧ inTurn p b {} (.ctlSnapshotReceived n l) ∧ NoneDue b) ∧
    (∃ (p : Params) (b : Block) (n : Nat) (x : SnapReq), snapUp p b n ∧ (prt b n).snapReq = some x ∧ x.dump = false ∧ x.since + rdf p b (duA 0x04C) 0 16 * 128 ≤ b.clk.fclk ∧ inTurn p b {} (.snapshotTimeout n) ∧ NoneDue b) ∧
    (∃ (p : Params) (b : Block) (w i : Nat) (x : OpdBeat) (l : List OpdBeat), wardUp p b w ∧ i < p.ne ∧ (prt b (w * p.ne + i)).opd = x :: l ∧ opdReady (prt b (w * p.ne + i)) ∧ (prt b (w * p.ne + i)).tdm = ownerSlot p b w ∧ (∀ j, j < p.ne → j ≠ i → (prt b (w * p.ne + j)).tdm ≠ ownerSlot p b w) ∧ inTurn p b {} (.opdDelivery w) ∧ NoneDue b) ∧
    (∃ (p : Params) (b : Block) (w i : Nat) (x : OpdBeat) (l : List OpdBeat), wardUp p b w ∧ i < p.ne ∧ (prt b (w * p.ne + i)).opd = x :: l ∧ opdReady (prt b (w * p.ne + i)) ∧ (∀ j, j < p.ne → (prt b (w * p.ne + j)).tdm ≠ ownerSlot p b w) ∧ (∀ j, j < p.ne → j ≠ i → opdReady (prt b (w * p.ne + j)) = false) ∧ inTurn p b {} (.opdDelivery w) ∧ NoneDue b) ∧
    (∃ (p : Params) (b : Block) (n : Nat) (x : OpdBeat), portUp p b n ∧ (prt b n).statusOut = some x ∧ x.queue = none ∧ x.ack = false ∧ inTurn p b {} (.statusBeatAccepted n) ∧ NoneDue b) := by
  exact ⟨⟨small, { up with ports := [(9, { online := true, credit := 3, tdm := 1, snapReq := none })] }, 9, by decide +kernel⟩,
    ⟨small, { up with ports := [(9, { inReset := true })] }, 9, by decide +kernel⟩,
    ⟨small, { up with mq := [], ports := [(9, { credit := 3 })] }, 9, 16, by decide +kernel⟩,
    ⟨small, { up with mq := [] }, 9, 16, 3, by decide +kernel⟩,
    ⟨small, { up with ports := [(9, { online := true })] }, 9, 3, 3, by decide +kernel⟩,
    ⟨small, { up with ports := [(9, { snapReq := some ⟨512, 9, 5, true⟩ })], dump := { frozen := true, await := [9] } }, 9, [], ⟨512, 9, 5, true⟩, by decide +kernel⟩,
    ⟨small, { up with ports := [(9, { snapReq := some ⟨512, 9, 5, false⟩ })] }, 9, ⟨512, 9, 5, false⟩, by decide +kernel⟩,
    ⟨small, { up with clk := { fclk := 0 }, ports := [(0, { tdm := 70 }), (1, { tdm := 71 }), (2, { tdm := 0, opd := [{ kind := 1, ch := ⟨none, 3⟩ }] }), (3, { tdm := 72 }), (4, { tdm := 72 }), (5, { tdm := 72 }), (6, { tdm := 72 }), (7, { tdm := 72 })] }, 0, 2, { kind := 1, ch := ⟨none, 3⟩ }, [], by decide +kernel⟩,
    ⟨small, { up with clk := { fclk := 32 }, ports := [(0, { tdm := 70 }), (1, { tdm := 71 }), (2, { tdm := 75, opd := [{ kind := 0, ch := ⟨none, 3⟩ }] }), (3, { tdm := 72 }), (4, { tdm := 72 }), (5, { tdm := 72 }), (6, { tdm := 72 }), (7, { tdm := 72 })] }, 0, 2, { kind := 0, ch := ⟨none, 3⟩ }, [], by decide +kernel⟩,
    ⟨small, { up with ports := [(9, { statusOut := some { kind := 1, ch := ⟨none, 3⟩ } })] }, 9, { kind := 1, ch := ⟨none, 3⟩ }, by decide +kernel⟩⟩

theorem witness_SendRequest :
    (∃ (p : Params) (b : Block) (n : Nat) (hdr : BitVec 512) (l : List (BitVec 512)) (c : Chan), portUp p b n ∧ fld hdr 0 8 = 1 ∧ msgBad hdr l.length = false ∧ chn b (fld hdr 32 14) = some c ∧ isRelay c = false ∧ farEndp c.rx = false ∧ sendCheck p b n c (fld hdr 56 4) = 0 ∧ inTurn p b {} (.send n hdr l) ∧ NoneDue b) ∧
    (∃ (p : Params) (b : Block) (n : Nat) (hdr : BitVec 512) (l : List (BitVec 512)), portUp p b n ∧ fld hdr 0 8 = 1 ∧ msgBad hdr l.length = false ∧ chn b (fld hdr 32 14) = none ∧ inTurn p b {} (.send n hdr l) ∧ NoneDue b) ∧
    (∃ (p : Params) (b : Block) (n : Nat) (hdr : BitVec 512) (k : Nat), portUp p b n ∧ msgBad hdr k = true ∧ inTurn p b {} (.badMsgRequest n hdr k) ∧ NoneDue b) := by
  exact ⟨⟨small, { up with chans := [(5, some { tenant := 0, dir := 1, tx := .port 9, rx := .port 3, owner := .sub 1 2 })] }, 9, 21479882753, [8], { tenant := 0, dir := 1, tx := .port 9, rx := .port 3, owner := .sub 1 2 }, by decide +kernel⟩,
    ⟨small, up, 9, 21479882753, [8], by decide +kernel⟩,
    ⟨small, up, 9, 0x77, 3, by decide +kernel⟩⟩

theorem witness_ContribOpenClose :
    (∃ (p : Params) (b : Block) (n : Nat) (hdr : BitVec 512) (l : List (BitVec 512)) (t : Nat), portUp p b n ∧ fld hdr 0 8 = 2 ∧ msgBad hdr l.length = false ∧ runTen b n = some t ∧ bitAt hdr 54 = false ∧ (prt b n).parts.length < 4 ∧ (prt b n).contribs = [] ∧ fld hdr 64 12 = 0 ∧ fld (BitVec.ofNat 16 (fld hdr 32 16)) 6 6 < p.nw ∧ fenced b (fld (BitVec.ofNat 16 (fld hdr 32 16)) 6 6) = false ∧ inTurn p b {} (.contrib n hdr l) ∧ NoneDue b) ∧
    (∃ (p : Params) (b : Block) (n : Nat) (hdr : BitVec 512) (t : Nat) (e : EndP), portUp p b n ∧ fld hdr 0 8 = 3 ∧ msgBad hdr 0 = false ∧ runTen b n = some t ∧ peerOf p b hdr = some e ∧ bitAt hdr 32 = false ∧ bitAt hdr 33 = false ∧ openBad n (.port n) e = false ∧ farEndp e = false ∧ openCheck p b t { tenant := t, dir := portWard p n, tx := .port n, rx := e, owner := .task (runWord p b n) } = 0 ∧ inTurn p b {} (.openReq n hdr) ∧ NoneDue b) ∧
    (∃ (p : Params) (b : Block) (n : Nat) (hdr : BitVec 512) (c : Chan), portUp p b n ∧ fld hdr 0 8 = 4 ∧ msgBad hdr 0 = false ∧ bitAt hdr 54 = false ∧ chn b (fld hdr 32 14) = some c ∧ holdsEnd n c ∧ (c.txClosed && c.rxClosed) = false ∧ c.closing = false ∧ inTurn p b {} (.closeReq n hdr) ∧ NoneDue b) := by
  exact ⟨⟨small, { up with ents := [(10, { st := .running, gen := 3, d := { tenant := 4 } })], ports := [(9, { run := some ⟨10, 3, 5, 6⟩ })] }, 9, 296352743426, [8], 4, by decide +kernel⟩,
    ⟨small, (wr small (wA 1 0 0x048) 2 (wr small (wA 1 0 0x050) 0x400 { up with ents := [(10, { st := .running, gen := 3, d := { tenant := 4 } })], ports := [(9, { run := some ⟨10, 3, 5, 6⟩ })], tens := [(4, { en := true })], mq := [(67, { en := true, tenant := 4, size := 8 })] })), 9, 605698841660270307180547, 4, (.queue 1 3), by decide +kernel⟩,
    ⟨small, { up with chans := [(5, some { tenant := 0, dir := 1, tx := .port 9, rx := .port 3, owner := .sub 1 2 })] }, 9, 21474836484, { tenant := 0, dir := 1, tx := .port 9, rx := .port 3, owner := .sub 1 2 }, by decide +kernel⟩⟩

theorem witness_HaspKeySlotRequests :
    (∃ (p : Params) (b : Block) (n : Nat) (hdr : BitVec 512), portUp p b n ∧ fld hdr 0 8 = 5 ∧ msgBad hdr 0 = false ∧ bitAt hdr 54 = false ∧ inTurn p b {} (.hsig n hdr) ∧ NoneDue b) ∧
    (∃ (p : Params) (b : Block) (n : Nat) (hdr : BitVec 512) (t : Nat), portUp p b n ∧ fld hdr 0 8 = 6 ∧ msgBad hdr 0 = false ∧ runTen b n = some t ∧ fld hdr 32 12 < nPorts p ∧ fenced b (portWard p (fld hdr 32 12)) = false ∧ inTurn p b {} (.keyreq n hdr) ∧ NoneDue b) ∧
    (∃ (p : Params) (b : Block) (n : Nat) (hdr : BitVec 512), portUp p b n ∧ fld hdr 0 8 = 7 ∧ msgBad hdr 0 = false ∧ fld hdr 32 12 < nPorts p ∧ fenced b (portWard p (fld hdr 32 12)) = false ∧ inTurn p b {} (.returnUnused n hdr) ∧ NoneDue b) ∧
    (∃ (p : Params) (b : Block) (n : Nat) (hdr : BitVec 512) (t r : Nat), portUp p b n ∧ fld hdr 0 8 = 8 ∧ msgBad hdr 0 = false ∧ runTen b n = some t ∧ ringNamed b t (fld hdr 32 6) = some r ∧ bitAt (rng b r).d1 14 ∧ inTurn p b {} (.doorbell n hdr) ∧ NoneDue b) ∧
    (∃ (p : Params) (b : Block) (n : Nat) (hdr : BitVec 512) (t r : Nat), portUp p b n ∧ fld hdr 0 8 = 8 ∧ msgBad hdr 0 = false ∧ runTen b n = some t ∧ ringNamed b t (fld hdr 32 6) = some r ∧ bitAt (rng b r).d1 14 = false ∧ inTurn p b {} (.doorbell n hdr) ∧ NoneDue b) ∧
    (∃ (p : Params) (b : Block) (n : Nat) (hdr : BitVec 512) (k : Nat), portUp p b n ∧ fld hdr 0 8 = 9 ∧ msgBad hdr 0 = false ∧ fld hdr 44 6 = portWard p n ∧ fld hdr 32 12 = k ∧ portWard p n < p.nw ∧ runTen b n = some (slt b (portWard p n) k).tenant ∧ inTurn p b {} (.slotwr n hdr) ∧ NoneDue b) ∧
    (∃ (p : Params) (b : Block) (n : Nat) (hdr : BitVec 512) (v : Nat), portUp p b n ∧ fld hdr 0 8 = 9 ∧ msgBad hdr 0 = false ∧ fld hdr 44 6 = v ∧ v ≠ portWard p n ∧ v < p.nw ∧ fenced b v = false ∧ inTurn p b {} (.slotwr n hdr) ∧ NoneDue b) ∧
    (∃ (p : Params) (b : Block) (n : Nat) (v : BitVec 32), portUp p b n ∧ (kpl b n (fld v 0 4)).grants.any (fun g => decide (g.gseq = BitVec.ofNat 16 (fld v 4 16)) && !g.returned) = false ∧ inTurn p b {} (.returnKret n v) ∧ NoneDue b) ∧
    (∃ (p : Params) (b : Block) (n : Nat) (v : BitVec 32), portUp p b n ∧ (kpl b n (fld v 0 4)).grants.any (fun g => decide (g.gseq = BitVec.ofNat 16 (fld v 4 16)) && !g.returned) ∧ (kpl b n (fld v 0 4)).waiting = [] ∧ inTurn p b {} (.returnKret n v) ∧ NoneDue b) := by
  exact ⟨⟨small, up, 9, 55340232251193425925, by decide +kernel⟩,
    ⟨small, { up with ents := [(10, { st := .running, gen := 3, d := { tenant := 4 } })], ports := [(9, { run := some ⟨10, 3, 5, 6⟩ })] }, 9, 92234283331386081286, 4, by decide +kernel⟩,
    ⟨small, up, 9, 92234283331386081287, by decide +kernel⟩,
    ⟨small, { up with ents := [(10, { st := .running, gen := 3, d := { tenant := 4 } })], ports := [(9, { run := some ⟨10, 3, 5, 6⟩ })], rings := [(1, { enable := true, d1 := 0x04004600 })] }, 9, 1407374883553288, 4, 1, by decide +kernel⟩,
    ⟨small, { up with ents := [(10, { st := .running, gen := 3, d := { tenant := 4 } })], ports := [(9, { run := some ⟨10, 3, 5, 6⟩ })], rings := [(1, { enable := true, d1 := 0x04000600 })] }, 9, 1407374883553288, 4, 1, by decide +kernel⟩,
    ⟨small, { up with ents := [(10, { st := .running, gen := 3, d := { tenant := 4 } })], ports := [(9, { run := some ⟨10, 3, 5, 6⟩ })], slots := [(4096 + 3, { tenant := 4 })] }, 9, 110680482047328256009, 3, by decide +kernel⟩,
    ⟨small, { up with ents := [(10, { st := .running, gen := 3, d := { tenant := 4 } })], ports := [(9, { run := some ⟨10, 3, 5, 6⟩ })], slots := [(4096 + 3, { tenant := 4 })] }, 9, 110680464455142211593, 0, by decide +kernel⟩,
    ⟨small, up, 9, 0x13, by decide +kernel⟩,
    ⟨small, { up with kpool := [(9 * 16 + 3, { en := true, size := 8, free := 6, grants := [⟨1, 0, 2, 3, false⟩] })] }, 9, 0x13, by decide +kernel⟩⟩

theorem witness_SuccessorItemsAndReady :
    (∃ (p : Params) (b : Block) (word : Word32) (o : Nat) (wd : Word32) (k : Nat) (rt : Word32) (st : Status) (h : Nat), wardUp p b (homeOf (wHandle word)) ∧ xfind b (isSucc 0 word 0) = some (.succ o wd k rt st) ∧ findEntry p b word = some h ∧ h ≠ o ∧ (ent b h).st = .pending ∧ (ent b h).tumbler ≠ 0 ∧ inTurn p b {} (.decrement word none false) ∧ NoneDue b) ∧
    (∃ (p : Params) (b : Block) (word root : Word32) (o : Nat) (wd : Word32) (k : Nat) (rt : Word32) (st : Status) (h : Nat), wardUp p b (homeOf (wHandle word)) ∧ xfind b (isSucc 1 word root) = some (.succ o wd k rt st) ∧ findEntry p b word = some h ∧ h ≠ o ∧ (ent b h).st = .pending ∧ (ent b h).tumbler ≠ 0 ∧ inTurn p b {} (.failureNotice word root none false) ∧ NoneDue b) ∧
    (∃ (p : Params) (b : Block) (word : Word32) (o : Nat) (wd : Word32) (k : Nat) (rt : Word32) (st : Status) (h : Nat), wardUp p b (homeOf (wHandle word)) ∧ xfind b (isSucc 2 word 0) = some (.succ o wd k rt st) ∧ findEntry p b word = some h ∧ h ≠ o ∧ (ent b h).st = .pending ∧ (ent b h).tumbler ≠ 0 ∧ inTurn p b {} (.cancelNotice word none false) ∧ NoneDue b) ∧
    (∃ (p : Params) (b : Block) (word : Word32) (o : Nat) (wd : Word32) (k : Nat) (rt : Word32) (st : Status) (h : Nat), wardUp p b (homeOf (wHandle word)) ∧ xfind b (isSucc 0 word 0) = some (.succ o wd k rt st) ∧ findEntry p b word = some h ∧ h ≠ o ∧ (ent b h).st = .pending ∧ (ent b h).tumbler = 1 ∧ (ent b h).isSealed = true ∧ (ent b h).d.isJoin = false ∧ (ent b h).d.cq = none ∧ (ent b h).d.guards = [] ∧ (ent b h).d.mode = 0 ∧ (ent b h).guardWait = none ∧ b.clk.exam = [] ∧ (∀ x ∈ b.ents, x.2.guardWait = none) ∧ inTurn p b {} (.decrement word none true) ∧ NoneDue b) := by
  exact ⟨⟨small, { up with ents := [(10, { st := .pending, gen := 3, tumbler := 2, isSealed := true }), (2000, { st := .done, owed := 4 })], xbar := [.succ 2000 0x8180000A 0 0 0] }, 0x8180000A, 2000, 0x8180000A, 0, 0, 0, 10, by decide +kernel⟩,
    ⟨small, { up with ents := [(10, { st := .pending, gen := 3, tumbler := 2, isSealed := true }), (2000, { st := .done, owed := 4 })], xbar := [.succ 2000 0x8180000A 1 5 0] }, 0x8180000A, 5, 2000, 0x8180000A, 1, 5, 0, 10, by decide +kernel⟩,
    ⟨small, { up with ents := [(10, { st := .pending, gen := 3, tumbler := 2, isSealed := true }), (2000, { st := .done, owed := 4 })], xbar := [.succ 2000 0x8180000A 2 0 0] }, 0x8180000A, 2000, 0x8180000A, 2, 0, 0, 10, by decide +kernel⟩,
    ⟨small, { up with ents := [(10, { st := .pending, gen := 3, tumbler := 1, isSealed := true }), (2000, { st := .done, owed := 4 })], xbar := [.succ 2000 0x8180000A 0 0 0] }, 0x8180000A, 2000, 0x8180000A, 0, 0, 0, 10, by decide +kernel⟩⟩

theorem witness_SealAndGuards :
    (∃ (p : Params) (b : Block) (w r g v rr gg : Nat), wardUp p b w ∧ xfind b (isSeal w r g) = some (.segSeal v rr gg) ∧ inTurn p b {} (.seal w r g none false) ∧ NoneDue b) ∧
    (∃ (p : Params) (b : Block) (w h : Nat), wardUp p b w ∧ guardWaiters b w = [h] ∧ homeOf h = w ∧ (ent b h).d.mode = 2 ∧ (guardsOf (ent b h).d).all (guardPass b w) ∧ inTurn p b {} (.guardWaitPass w) ∧ NoneDue b) := by
  exact ⟨⟨small, { up with ents := [(10, { st := .pending, gen := 3, tumbler := 2, d := { ring := 1, seg := 4 } }), (11, { st := .pending, tumbler := 2, d := { ring := 1, seg := 5 } })], xbar := [.segSeal 0 1 4] }, 0, 1, 4, 0, 1, 4, by decide +kernel⟩,
    ⟨small, { up with ents := [(10, { st := .pending, gen := 3, isSealed := true, guardWait := some 5, d := { guards := [0x4007], mode := 2 } })], slots := [(7, { f := true })] }, 0, 10, by decide +kernel⟩⟩

theorem witness_NoticesAtHome :
    (∃ (p : Params) (b : Block) (word wd : Word32) (bz qw : Nat) (ss : Option (BitVec 256)) (h : Nat), keeperUp b ∧ xfind b (isSettle word) = some (.settle wd 0 0 bz qw ss) ∧ findEntry p b word = some h ∧ live (ent b h).st ∧ (ent b h).faulted = false ∧ (ent b h).d.mode = 0 ∧ inTurn p b {} (.settlementNotice .fromPort word false) ∧ NoneDue b) ∧
    (∃ (p : Params) (b : Block) (word wd : Word32) (bz qw : Nat) (ss : Option (BitVec 256)) (z : Word32) (st : Status) (h : Nat), keeperUp b ∧ xfind b (isSettle word) = some (.settle wd st z bz qw ss) ∧ findEntry p b word = some h ∧ live (ent b h).st ∧ (ent b h).faulted = false ∧ st ≠ 0 ∧ st ≠ 0x04 ∧ inTurn p b {} (.settlementNotice .fromPort word false) ∧ NoneDue b) ∧
    (∃ (p : Params) (b : Block) (word wd : Word32) (r : Nat) (i : Word32) (s : Option Nat) (t : TState) (st : Status) (x : Bool) (h : Nat), keeperUp b ∧ xfind b (isToRing word) = some (.toRing wd r i s t st x) ∧ findEntry p b word = some h ∧ inTurn p b {} (.settlementNotice .toRing word false) ∧ NoneDue b) ∧
    (∃ (p : Params) (b : Block) (k : ProxyKind) (word wd : Word32) (h : Nat), wardUp p b (homeOf (wHandle word)) ∧ xfind b (isProxy word) = some (.proxy wd k) ∧ findEntry p b word = some h ∧ live (ent b h).st ∧ inTurn p b {} (.issueProxyNotice k word) ∧ NoneDue b) := by
  exact ⟨⟨small, { up with ents := [(10, { st := .running, gen := 3, isSealed := true })], xbar := [.settle 0x8180000A 0 0 5 6 none] }, 0x8180000A, 0x8180000A, 5, 6, none, 10, by decide +kernel⟩,
    ⟨small, { up with ents := [(10, { st := .running, gen := 3, isSealed := true })], xbar := [.settle 0x8180000A 9 0 5 6 none] }, 0x8180000A, 0x8180000A, 5, 6, none, 0, 9, 10, by decide +kernel⟩,
    ⟨small, { up with ents := [(10, { st := .done, gen := 3 })], rings := [(1, { enable := true, subs := [{ subid := 4, recNo := 0, unsettled := 2 }] })], xbar := [.toRing 0x8180000A 1 4 none .done 0 false] }, 0x8180000A, 0x8180000A, 1, 4, none, .done, 0, false, 10, by decide +kernel⟩,
    ⟨small, { up with ents := [(10, { st := .ready, gen := 3 })], xbar := [.proxy 0x8180000A .placed] }, .placed, 0x8180000A, 0x8180000A, 10, by decide +kernel⟩⟩

theorem witness_EntryLifecycle :
    (∃ (p : Params) (b : Block) (h : Nat), wardUp p b (homeOf h) ∧ ((ent b h).st = .done ∨ (ent b h).st = .failed ∨ (ent b h).st = .cancelled) ∧ (ent b h).sent = false ∧ (ent b h).isSealed = true ∧ (ent b h).spilled = false ∧ (ent b h).d.relay = false ∧ (ent b h).cut.getLsbD (ownInst p b) = false ∧ (ent b h).succ.all (fun v => v.getLsbD 31 && decide (fld v 17 6 = ownInst p b)) ∧ inTurn p b {} (.successorDelivery h) ∧ NoneDue b) ∧
    (∃ (p : Params) (b : Block) (h : Nat), wardUp p b (homeOf h) ∧ mayFree (ent b h) ∧ (ent b h).retire = false ∧ noCan b h (ent b h).gen ∧ inTurn p b {} (.entryFree h) ∧ NoneDue b) ∧
    (∃ (p : Params) (b : Block) (h t : Nat), wardUp p b (homeOf h) ∧ (ent b h).freedAt = some t ∧ t + 256 ≤ b.clk.fclk ∧ inTurn p b {} (.quarantineEnd h) ∧ NoneDue b) ∧
    (∃ (p : Params) (b : Block) (h t : Nat), wardUp p b (homeOf h) ∧ (ent b h).freedAt = some t ∧ b.clk.fclk < t + 256 ∧ inTurn p b {} (.quarantineEnd h) ∧ NoneDue b) ∧
    (∃ (p : Params) (b : Block) (h : Nat), wardUp p b (homeOf h) ∧ (ent b h).spilled = true ∧ (ent b h).st ≠ .pending ∧ (ent b h).st ≠ .free ∧ linesUsed b (homeOf h) + linesFor (ent b h).succ.length ≤ 2048 ∧ inTurn p b {} (.edgeRefetchDone h) ∧ NoneDue b) ∧
    (∃ (p : Params) (b : Block) (h : Nat), wardUp p b (homeOf h) ∧ (ent b h).tmoLimit ≠ 0 ∧ (ent b h).tmoLimit ≤ b.clk.fclk ∧ (ent b h).overrun = false ∧ (ent b h).st = .running ∧ inTurn p b {} (.taskClassTimeout h) ∧ NoneDue b) ∧
    (∃ (p : Params) (b : Block) (h : Nat), wardUp p b (homeOf h) ∧ (ent b h).st = .ready ∧ (ent b h).place = .none ∧ inTurn p b {} (.taskCancel h) ∧ NoneDue b) ∧
    (∃ (p : Params) (b : Block) (h : Nat), wardUp p b (homeOf h) ∧ (ent b h).st = .running ∧ inTurn p b {} (.taskCancel h) ∧ NoneDue b) := by
  exact ⟨⟨small, { up with ents := [(10, { st := .done, gen := 3, isSealed := true, succ := [0x81800014, 0x81800015] })] }, 10, by decide +kernel⟩,
    ⟨small, { up with ents := [(10, { st := .done, gen := 3, isSealed := true, released := true, noticed := true })] }, 10, by decide +kernel⟩,
    ⟨small, { up with ents := [(10, { st := .free, gen := 3, freedAt := some 5 })] }, 10, 5, by decide +kernel⟩,
    ⟨small, { up with ents := [(10, { st := .free, gen := 3, freedAt := some 2999999 })] }, 10, 2999999, by decide +kernel⟩,
    ⟨small, { up with ents := [(10, { st := .ready, gen := 3, spilled := true })] }, 10, by decide +kernel⟩,
    ⟨small, { up with ents := [(10, { st := .running, gen := 3, tmoLimit := 7 })] }, 10, by decide +kernel⟩,
    ⟨small, { up with ents := [(10, { st := .ready, gen := 3 })] }, 10, by decide +kernel⟩,
    ⟨small, { up with ents := [(10, { st := .running, gen := 3 })] }, 10, by decide +kernel⟩⟩

theorem witness_PlacementAndStaging :
    (∃ (p : Params) (b : Block) (w h : Nat) (e : Entry), wardUp p b w ∧ outReqs b w < 8 ∧ rdyList b w = [(h, e)] ∧ ent b h = e ∧ e.d.tenant < 256 ∧ tokens b w e.d.tenant (clsOf e) ≠ 0 ∧ inTurn p b {} (.arbiterForward w) ∧ NoneDue b) ∧
    (∃ (p : Params) (b : Block) (h hh g t : Nat), keeperUp b ∧ (xfind b (fun x => match x with | .preq k _ _ => decide (k = h) | _ => false) = some (.preq hh g t)) ∧ hh = h ∧ inTurn p b {} (.placementRequest h) ∧ NoneDue b) ∧
    (∃ (p : Params) (b : Block) (h : Nat) (r : PReq) (n k : Nat), keeperUp b ∧ b.place.reqs.find? (fun r => r.handle = h ∧ r.waitAt = none) = some r ∧ runState b ∧ waitingOrder b = [] ∧ walkClass p b (ent b h).d.pclass (room p b) = some (n, k) ∧ inTurn p b {} (.placementDecision h) ∧ NoneDue b) ∧
    (∃ (p : Params) (b : Block) (h : Nat) (r : PReq), keeperUp b ∧ b.place.reqs.find? (fun r => r.handle = h ∧ r.waitAt = none) = some r ∧ runState b ∧ waitingOrder b = [] ∧ walkClass p b (ent b h).d.pclass (room p b) = none ∧ inTurn p b {} (.placementDecision h) ∧ NoneDue b) ∧
    (∃ (p : Params) (b : Block) (r : PReq) (n k : Nat), keeperUp b ∧ runState b ∧ waitingOrder b = [r] ∧ r.tier ≤ 3 ∧ walkClass p b (ent b r.handle).d.pclass (room p b) = some (n, k) ∧ inTurn p b {} .waitingListOffer ∧ NoneDue b) ∧
    (∃ (p : Params) (b : Block) (h hh g n k : Nat), keeperUp b ∧ (xfind b (fun x => match x with | .sreq j _ => decide (j = h) | _ => false) = some (.sreq hh g)) ∧ hh = h ∧ runState b ∧ b.place.reqs = [] ∧ walkClass p b (ent b h).d.pclass (fun n => room p b n && decide (occ b n = 0)) = some (n, k) ∧ inTurn p b {} (.stagingRequest h) ∧ NoneDue b) ∧
    (∃ (p : Params) (b : Block) (h hh g : Nat), keeperUp b ∧ (xfind b (fun x => match x with | .sreq j _ => decide (j = h) | _ => false) = some (.sreq hh g)) ∧ hh = h ∧ runState b ∧ b.place.reqs = [] ∧ walkClass p b (ent b h).d.pclass (fun n => room p b n && decide (occ b n = 0)) = none ∧ inTurn p b {} (.stagingRequest h) ∧ NoneDue b) ∧
    (∃ (p : Params) (b : Block) (h hh g : Nat), wardUp p b (homeOf h) ∧ (xfind b (fun x => match x with | .sNone j _ => decide (j = h) | _ => false) = some (.sNone hh g)) ∧ inTurn p b {} (.stagingNoPort h) ∧ NoneDue b) ∧
    (∃ (p : Params) (b : Block) (h hh g n k : Nat), keeperUp b ∧ (xfind b (fun x => match x with | .pdec j _ _ _ _ => decide (j = h) | _ => false) = some (.pdec hh g n k false)) ∧ hh = h ∧ (ent b h).port = some n ∧ (prt b n).stage = none ∧ inTurn p b {} (.placementDecisionArrival h) ∧ NoneDue b) ∧
    (∃ (p : Params) (b : Block) (h hh g n k : Nat), keeperUp b ∧ (xfind b (fun x => match x with | .pdec j _ _ _ _ => decide (j = h) | _ => false) = some (.pdec hh g n k true)) ∧ hh = h ∧ live (ent b h).st ∧ inTurn p b {} (.placementDecisionArrival h) ∧ NoneDue b) ∧
    (∃ (p : Params) (b : Block) (h n : Nat) (r : Resv), wardUp p b (homeOf h) ∧ (ent b h).staged = some n ∧ (ent b h).st = .ready ∧ (ent b h).place = .none ∧ runState b ∧ (dmn b (domOf p b n)).resv.find? (fun r => r.handle = h) = some r ∧ (prt b n).stage = some (h, (ent b h).gen) ∧ inTurn p b {} (.stagedTaskPlaced h) ∧ NoneDue b) := by
  exact ⟨⟨small, { up with ents := [(10, { st := .ready, gen := 3, d := { pclass := 3, tenant := 5 } }), (2000, { st := .ready, place := .atGov }), (4000, { st := .ready })], arb := { tok := [(10, 3), (11, 4)] } }, 0, 10, { st := .ready, gen := 3, d := { pclass := 3, tenant := 5 } }, by decide +kernel⟩,
    ⟨small, { up with ents := [(10, { st := .ready, gen := 3, d := { pclass := 3, tenant := 5 }, place := .forwarded })], xbar := [.storm ⟨4000, 7, 15⟩, .preq 10 3 1], place := { reqs := [⟨11, 3, 1, false, 7, none, 0⟩] } }, 10, 10, 3, 1, by decide +kernel⟩,
    ⟨small, ((wr small (wA 1 0 0x040) 2 { up with ents := [(10, { st := .ready, gen := 3, d := { pclass := 3, tenant := 5 }, place := .atEngine })], place := { reqs := [⟨10, 3, 1, false, 7, none, 0⟩] }, pcls := [(3, { work := { ranks := [(0, { v := true, ward := 1, mask := 2 })] } })], ports := [(9, { online := true })] })), 10, ⟨10, 3, 1, false, 7, none, 0⟩, 9, 0, by decide +kernel⟩,
    ⟨small, ((wr small (wA 1 0 0x040) 2 { up with ents := [(10, { st := .ready, gen := 3, d := { pclass := 3, tenant := 5 }, place := .atEngine })], place := { reqs := [⟨10, 3, 1, false, 7, none, 0⟩] }, pcls := [(3, { work := { ranks := [(0, { v := true, ward := 1, mask := 2 })] } })] })), 10, ⟨10, 3, 1, false, 7, none, 0⟩, by decide +kernel⟩,
    ⟨small, ((wr small (wA 1 0 0x040) 2 { up with ents := [(10, { st := .ready, gen := 3, d := { pclass := 3, tenant := 5 }, place := .atEngine })], place := { reqs := [⟨10, 3, 1, false, 7, some 7, 0⟩] }, pcls := [(3, { work := { ranks := [(0, { v := true, ward := 1, mask := 2 })] } })], ports := [(9, { online := true })] })), ⟨10, 3, 1, false, 7, some 7, 0⟩, 9, 0, by decide +kernel⟩,
    ⟨small, ((wr small (wA 1 0 0x040) 2 { up with ents := [(10, { st := .ready, gen := 3, d := { pclass := 3, tenant := 5 } })], xbar := [.storm ⟨4000, 7, 15⟩, .sreq 10 3], pcls := [(3, { work := { ranks := [(0, { v := true, ward := 1, mask := 2 })] } })], ports := [(9, { online := true })] })), 10, 10, 3, 9, 0, by decide +kernel⟩,
    ⟨small, ((wr small (wA 1 0 0x040) 2 { up with ents := [(10, { st := .ready, gen := 3, d := { pclass := 3, tenant := 5 } })], xbar := [.storm ⟨4000, 7, 15⟩, .sreq 10 3], pcls := [(3, { work := { ranks := [(0, { v := true, ward := 1, mask := 2 })] } })] })), 10, 10, 3, by decide +kernel⟩,
    ⟨small, ((wr small (wA 1 0 0x040) 2 { up with ents := [(10, { st := .ready, gen := 3, d := { pclass := 3, tenant := 5 }, stageOut := true })], xbar := [.storm ⟨4000, 7, 15⟩, .sNone 10 3] })), 10, 10, 3, by decide +kernel⟩,
    ⟨small, ((wr small (wA 1 0 0x040) 2 { up with ents := [(10, { st := .ready, gen := 3, d := { pclass := 3, tenant := 5 }, place := .inFlight, port := some 9, staged := some 4 })], xbar := [.pdec 11 2 7 0 true, .pdec 10 3 9 2 false] })), 10, 10, 3, 9, 2, by decide +kernel⟩,
    ⟨small, ((wr small (wA 1 0 0x040) 2 { up with ents := [(10, { st := .ready, gen := 3, d := { pclass := 3, tenant := 5 }, stageOut := true })], xbar := [.pdec 10 3 9 2 true] })), 10, 10, 3, 9, 2, by decide +kernel⟩,
    ⟨small, ((wr small (wA 1 0 0x040) 2 { up with ents := [(10, { st := .ready, gen := 3, d := { pclass := 3, tenant := 5 }, staged := some 9 })], ports := [(9, { online := true, stage := some (10, 3), iq := [⟨4, 1, false, 5, true, false⟩] })], gov := { doms := [(0, { resv := [⟨9, 4⟩, ⟨10, 5⟩], n := 2, i := 7 })] } })), 10, 9, ⟨10, 5⟩, by decide +kernel⟩⟩

theorem witness_Governor :
    (∃ (p : Params) (b : Block) (h hh g n : Nat), keeperUp b ∧ b.place.toGov.find? (fun x => decide (x.1 = h)) = some (hh, g, n) ∧ hh = h ∧ inTurn p b {} (.governorRequest h) ∧ NoneDue b) ∧
    (∃ (p : Params) (b : Block) (k : Nat) (g : GReq) (l : List GReq), keeperUp b ∧ (dmn b k).q = g :: l ∧ permits (dmn b k) (energyEst p b (ent b g.handle).d.energy) = false ∧ inTurn p b {} (.governorQueueGrant k) ∧ NoneDue b) ∧
    (∃ (p : Params) (b : Block) (k : Nat), keeperUp b ∧ 4 ≤ grantsNow b k ∧ inTurn p b {} (.governorQueueGrant k) ∧ NoneDue b) ∧
    (∃ (p : Params) (b : Block) (k : Nat) (g : GReq), keeperUp b ∧ runState b ∧ (dmn b k).q = [g] ∧ grantsNow b k < 4 ∧ permits (dmn b k) (energyEst p b (ent b g.handle).d.energy) ∧ inTurn p b {} (.governorQueueGrant k) ∧ NoneDue b) ∧
    (∃ (p : Params) (b : Block) (t : BitVec 16), keeperUp b ∧ windowDue b ∧ inTurn p b {} (.governorWindowStart t) ∧ NoneDue b) := by
  exact ⟨⟨small, ((wr small (wA 1 0 0x040) 2 { up with ents := [(10, { st := .ready, gen := 3, d := { pclass := 3, tenant := 5 }, place := .atGov })], place := { reqs := [], toGov := [(11, 3, 9), (10, 3, 9)] }, gov := { doms := [(0, { n := 2, i := 7, beff := some 2 })] } })), 10, 10, 3, 9, by decide +kernel⟩,
    ⟨small, ((wr small (wA 1 0 0x040) 2 { up with ents := [(10, { st := .ready, gen := 3, d := { pclass := 3, tenant := 5 }, place := .atGov })], gov := { doms := [(0, { n := 2, i := 7, beff := some 2, q := [⟨10, 3, 9, true, 5, 6⟩] })] } })), 0, ⟨10, 3, 9, true, 5, 6⟩, [], by decide +kernel⟩,
    ⟨small, { up with gov := { grantedAt := 3000000, granted := [(0, 4)] } }, 0, by decide +kernel⟩,
    ⟨small, ((wr small (wA 1 0 0x040) 2 { up with ents := [(10, { st := .ready, gen := 3, d := { pclass := 3, tenant := 5 }, place := .atGov })], gov := { doms := [(0, { n := 2, i := 7, q := [⟨10, 3, 9, true, 5, 6⟩] })] } })), 0, ⟨10, 3, 9, true, 5, 6⟩, by decide +kernel⟩,
    ⟨small, { up with gov := { doms := [(0, { n := 2, i := 7, beff := some 2, limit := 5, starts := 4, shift := 2 }), (3, { n := 2, limit := 5, shift := 7 })] } }, 5, by decide +kernel⟩⟩

theorem witness_ReleasesAndTokens :
    (∃ (p : Params) (b : Block) (n h : Nat), keeperUp b ∧ .release n h true ∈ b.xbar ∧ (ent b h).d.rinst ≠ none ∧ inTurn p b {} (.portRelease n h) ∧ NoneDue b) ∧
    (∃ (p : Params) (b : Block) (h hh g : Nat) (r : PReq), keeperUp b ∧ (xfind b (fun x => match x with | .withdraw j _ => decide (j = h) | _ => false) = some (.withdraw hh g)) ∧ hh = h ∧ b.place.reqs.find? (fun r => decide (r.handle = h)) = some r ∧ inTurn p b {} (.withdrawal h) ∧ NoneDue b) ∧
    (∃ (p : Params) (b : Block) (h hh g n : Nat), keeperUp b ∧ (xfind b (fun x => match x with | .unload j _ _ => decide (j = h) | _ => false) = some (.unload hh g n)) ∧ hh = h ∧ (prt b n).stage = some (h, g) ∧ inTurn p b {} (.unloadDirective h) ∧ NoneDue b) ∧
    (∃ (p : Params) (b : Block), keeperUp b ∧ b.arb.epochStart + b.arb.epoch ≤ b.clk.fclk ∧ inTurn p b {} .epochMint ∧ NoneDue b) ∧
    (∃ (p : Params) (b : Block) (w v : Nat) (l : List (Nat × Nat)), wardUp p b w ∧ (xfind b (fun x => match x with | .tokens v _ => decide (v = w) | _ => false) = some (.tokens v l)) ∧ (∀ x ∈ l, x.1 < 512) ∧ (l.map Prod.fst).Nodup ∧ inTurn p b {} (.tokenArrival w) ∧ NoneDue b) := by
  exact ⟨⟨small, { up with ents := [(10, { st := .ready, gen := 3, d := { pclass := 3, tenant := 5, rinst := some 3 } })], occ := [(7, [5]), (9, [10, 11])], xbar := [.storm ⟨4000, 7, 15⟩, .release 9 10 true] }, 9, 10, by decide +kernel⟩,
    ⟨small, { up with ents := [(10, { st := .ready, gen := 3, d := { pclass := 3, tenant := 5 }, stageOut := true })], place := { reqs := [⟨11, 3, 1, false, 7, none, 0⟩, ⟨10, 3, 1, false, 7, none, 0⟩] }, xbar := [.storm ⟨4000, 7, 15⟩, .withdraw 10 3] }, 10, 10, 3, ⟨10, 3, 1, false, 7, none, 0⟩, by decide +kernel⟩,
    ⟨small, { up with ents := [(10, { st := .ready, gen := 3, d := { pclass := 3, tenant := 5 }, staged := some 9 })], ports := [(9, { online := true, stage := some (10, 3) })], xbar := [.storm ⟨4000, 7, 15⟩, .unload 10 3 9] }, 10, 10, 3, 9, by decide +kernel⟩,
    ⟨small, up, by decide +kernel⟩,
    ⟨small, { up with arb := { tok := [(10, 3), (520, 4), (522, 4)] }, xbar := [.storm ⟨4000, 7, 15⟩, .tokens 1 [(10, 5), (11, 6)]] }, 1, 1, [(10, 5), (11, 6)], by decide +kernel⟩⟩

theorem witness_RingFetch :
    (∃ (p : Params) (b : Block) (w r a : Nat), wardUp p b w ∧ r ∈ b.rings.map Prod.fst ∧ rHome (rng b r) = w ∧ fetchWant b r = some (.record a) ∧ (∀ x, x ∈ b.rings.map Prod.fst → rHome (rng b x) = w → (fetchWant b x).isSome → x ≠ r → fetchBefore b r x) ∧ inTurn p b {} (.ringFetch w) ∧ NoneDue b) ∧
    (∃ (p : Params) (b : Block) (w r a : Nat), wardUp p b w ∧ r ∈ b.rings.map Prod.fst ∧ rHome (rng b r) = w ∧ fetchWant b r = some (.demand a) ∧ (∀ x, x ∈ b.rings.map Prod.fst → rHome (rng b x) = w → (fetchWant b x).isSome → x ≠ r → fetchBefore b r x) ∧ inTurn p b {} (.ringFetch w) ∧ NoneDue b) ∧
    (∃ (p : Params) (b : Block) (w r a : Nat), wardUp p b w ∧ r ∈ b.rings.map Prod.fst ∧ rHome (rng b r) = w ∧ fetchWant b r = some (.image a) ∧ (∀ x, x ∈ b.rings.map Prod.fst → rHome (rng b x) = w → (fetchWant b x).isSome → x ≠ r → fetchBefore b r x) ∧ inTurn p b {} (.ringFetch w) ∧ NoneDue b) ∧
    (∃ (p : Params) (b : Block) (r : Nat) (x : BitVec 512), wardUp p b (rHome (rng b r)) ∧ (rng b r).recRead = true ∧ fld x 0 1 ≠ phaseOf (rng b r) ∧ cancelNext (rng b r) = false ∧ inTurn p b {} (.ringFetchResponse r .record .okay x) ∧ NoneDue b) ∧
    (∃ (p : Params) (b : Block) (r : Nat) (x : BitVec 512), wardUp p b (rHome (rng b r)) ∧ (rng b r).recRead = true ∧ inTurn p b {} (.ringFetchResponse r .record .fault x) ∧ NoneDue b) ∧
    (∃ (p : Params) (b : Block) (r : Nat) (x : BitVec 512), wardUp p b (rHome (rng b r)) ∧ (rng b r).gotOff < (rng b r).fetchOff ∧ (rng b r).haltKind = 0 ∧ inTurn p b {} (.ringFetchResponse r .image .okay x) ∧ NoneDue b) ∧
    (∃ (p : Params) (b : Block) (r : Nat) (x : BitVec 512), wardUp p b (rHome (rng b r)) ∧ (rng b r).gotOff < (rng b r).fetchOff ∧ (rng b r).haltKind = 0 ∧ inTurn p b {} (.ringFetchResponse r .image .fault x) ∧ NoneDue b) ∧
    (∃ (p : Params) (b : Block) (r t : Nat) (c : Block), wardUp p b (rHome (rng b r)) ∧ (rng b r).repollAt = some t ∧ t ≤ b.clk.fclk ∧ (rng b r).enable = true ∧ (rng b r).haltKind = 0 ∧ c = updRing r (fun g => { g with repollAt := none }) b ∧ fetchNext c (rHome (rng b r)) ≠ some r ∧ inTurn p b {} (.ringRepoll r) ∧ NoneDue b) ∧
    (∃ (p : Params) (b : Block) (r t : Nat) (c : Block) (a : Nat), wardUp p b (rHome (rng b r)) ∧ (rng b r).repollAt = some t ∧ t ≤ b.clk.fclk ∧ (rng b r).enable = true ∧ (rng b r).haltKind = 0 ∧ c = updRing r (fun g => { g with repollAt := none }) b ∧ fetchNext c (rHome (rng b r)) = some r ∧ fetchWant c r = some (.record a) ∧ inTurn p b {} (.ringRepoll r) ∧ NoneDue b) ∧
    (∃ (p : Params) (b : Block), mgtFree b ∧ tabReady b 0 ∧ bitAt (rd p b (kA 1 0x040)) 16 = false ∧ (rng b (ringSel p b)).enable = false ∧ enableBad p b (ringSel p b) = false ∧ inTurn p b {} .ringEnable ∧ NoneDue b) ∧
    (∃ (p : Params) (b : Block), mgtFree b ∧ tabReady b 0 ∧ bitAt (rd p b (kA 1 0x040)) 16 = false ∧ inTurn p b {} .ringDisable ∧ NoneDue b) ∧
    (∃ (p : Params) (b : Block) (v : BitVec 32), mgtFree b ∧ tabReady b 0 ∧ bitAt (rd p b (kA 1 0x040)) 16 = false ∧ (rng b (ringSel p b)).enable = false ∧ (rng b (ringSel p b)).subs = [] ∧ inTurn p b {} (.ringDescriptorWrite 0 v) ∧ NoneDue b) := by
  exact ⟨⟨small, { up with rings := [(1, { enable := true, d1 := 0x04000600, wptr := 1 }), (9, { d1 := 0x05000000, enable := true, subs := [{ subid := 77, recNo := 0, unsettled := 5 }], walk := { mode := .stopped, subid := 77 } })] }, 0, 1, 0, by decide +kernel⟩,
    ⟨small, { up with rings := [(1, { enable := true, d1 := 0x04000600, wptr := 1, walk := { want := [0x1000] } }), (9, { d1 := 0x05000000, enable := true, subs := [{ subid := 77, recNo := 0, unsettled := 5 }], walk := { mode := .stopped, subid := 77 } })] }, 0, 1, 0x1000, by decide +kernel⟩,
    ⟨small, { up with rings := [(1, { enable := true, d1 := 0x04000600, d3 := 0x01000000, subs := [{ subid := 4, recNo := 0, image := 0x10000, imglen := 512 }], walk := { mode := .header, subid := 4 } }), (9, { d1 := 0x05000000, enable := true, subs := [{ subid := 77, recNo := 0, unsettled := 5 }], walk := { mode := .stopped, subid := 77 } })] }, 0, 1, 0x10000, by decide +kernel⟩,
    ⟨small, { up with rings := [(1, { enable := true, d1 := 0x04000600, recRead := true }), (9, { d1 := 0x05000000, enable := true, subs := [{ subid := 77, recNo := 0, unsettled := 5 }], walk := { mode := .stopped, subid := 77 } })] }, 1, 0x400, by decide +kernel⟩,
    ⟨small, { up with rings := [(1, { enable := true, d1 := 0x04000600, recRead := true }), (9, { d1 := 0x05000000, enable := true, subs := [{ subid := 77, recNo := 0, unsettled := 5 }], walk := { mode := .stopped, subid := 77 } })] }, 1, 5, by decide +kernel⟩,
    ⟨small, { up with rings := [(1, { enable := true, d1 := 0x04000600, subs := [{ subid := 4, recNo := 0, image := 0x10000, imglen := 512 }], walk := { mode := .header, subid := 4 }, fetchOff := 0x10100, gotOff := 0x10000 }), (9, { d1 := 0x05000000, enable := true, subs := [{ subid := 77, recNo := 0, unsettled := 5 }], walk := { mode := .stopped, subid := 77 } })] }, 1, 5, by decide +kernel⟩,
    ⟨small, { up with rings := [(1, { enable := true, d1 := 0x04000600, subs := [{ subid := 4, recNo := 0, image := 0x10000, imglen := 512 }], walk := { mode := .header, subid := 4 }, fetchOff := 0x10100, gotOff := 0x10000 }), (9, { d1 := 0x05000000, enable := true, subs := [{ subid := 77, recNo := 0, unsettled := 5 }], walk := { mode := .stopped, subid := 77 } })] }, 1, 5, by decide +kernel⟩,
    ⟨small, { up with rings := [(1, { enable := true, d1 := 0x04000600, repollAt := some 2999999 }), (9, { d1 := 0x05000000, enable := true, subs := [{ subid := 77, recNo := 0, unsettled := 5 }], walk := { mode := .stopped, subid := 77 } })] }, 1, 2999999, (updRing 1 (fun g => { g with repollAt := none }) { up with rings := [(1, { enable := true, d1 := 0x04000600, repollAt := some 2999999 }), (9, { d1 := 0x05000000, enable := true, subs := [{ subid := 77, recNo := 0, unsettled := 5 }], walk := { mode := .stopped, subid := 77 } })] }), by decide +kernel⟩,
    ⟨small, { up with rings := [(1, { enable := true, d1 := 0x04000600, wptr := 1, repollAt := some 2999999 }), (9, { d1 := 0x05000000, enable := true, subs := [{ subid := 77, recNo := 0, unsettled := 5 }], walk := { mode := .stopped, subid := 77 } })] }, 1, 2999999, (updRing 1 (fun g => { g with repollAt := none }) { up with rings := [(1, { enable := true, d1 := 0x04000600, wptr := 1, repollAt := some 2999999 }), (9, { d1 := 0x05000000, enable := true, subs := [{ subid := 77, recNo := 0, unsettled := 5 }], walk := { mode := .stopped, subid := 77 } })] }), 0, by decide +kernel⟩,
    ⟨small, { up with tens := [(0, { en := true, lcOk := true })] }, by decide +kernel⟩,
    ⟨small, up, by decide +kernel⟩,
    ⟨small, up, 0x1234, by decide +kernel⟩⟩

theorem witness_RecordsAccepted :
    (∃ (p : Params) (b : Block) (r : Nat) (x : BitVec 512), wardUp p b (rHome (rng b r)) ∧ (rng b r).enable = true ∧ runState b ∧ (rng b r).haltKind = 0 ∧ mayAccept (rng b r) ∧ cancelNext (rng b r) = false ∧ fld x 0 1 = phaseOf (rng b r) ∧ recBad b r x = false ∧ (∀ s ∈ (rng b r).subs, s.subid ≠ (rng b r).expSub) ∧ (rng b r).walk.mode ≠ .idle ∧ inTurn p b {} (.recordAccept r x) ∧ NoneDue b) ∧
    (∃ (p : Params) (b : Block) (r : Nat) (x : BitVec 512), wardUp p b (rHome (rng b r)) ∧ (rng b r).enable = true ∧ runState b ∧ (rng b r).haltKind = 0 ∧ mayAccept (rng b r) ∧ cancelNext (rng b r) = false ∧ fld x 0 1 = phaseOf (rng b r) ∧ recBad b r x = false ∧ (∀ s ∈ (rng b r).subs, s.subid ≠ (rng b r).expSub ∧ s.walkEnded = true) ∧ (rng b r).walk.mode = .idle ∧ inTurn p b {} (.recordAccept r x) ∧ NoneDue b) ∧
    (∃ (p : Params) (b : Block) (r : Nat) (x : BitVec 512), wardUp p b (rHome (rng b r)) ∧ (rng b r).enable = true ∧ runState b ∧ (rng b r).haltKind = 0 ∧ mayAccept (rng b r) ∧ cancelNext (rng b r) = false ∧ fld x 0 1 = phaseOf (rng b r) ∧ recBad b r x = true ∧ inTurn p b {} (.recordAccept r x) ∧ NoneDue b) ∧
    (∃ (p : Params) (b : Block) (r : Nat), wardUp p b (rHome (rng b r)) ∧ (rng b r).walk.mode = .waitSub ∧ walking b r ∧ waitOver b (rTenant (rng b r)) ((walkSub b r).bind (fun s => s.waitOn)) ∧ inTurn p b {} (.waitsubRelease r) ∧ NoneDue b) := by
  exact ⟨⟨small, { up with rings := [(1, { enable := true, d1 := 0x04000600, subs := [{ subid := 4, recNo := 0, image := 0x10000, imglen := 512 }], walk := { mode := .header, subid := 4 }, expSub := 5, wptr := 3, rptr := 1, fptr := 1, recNo := 129 }), (9, { d1 := 0x05000000, enable := true, subs := [{ subid := 77, recNo := 0, unsettled := 5 }], walk := { mode := .stopped, subid := 77 } })] }, 1, 0x2000000004000000000000100000000000500000001, by decide +kernel⟩,
    ⟨small, { up with rings := [(1, { enable := true, d1 := 0x04000600, subs := [{ subid := 4, recNo := 0, image := 0x10000, imglen := 512, walkEnded := true }], expSub := 5, wptr := 1 }), (9, { d1 := 0x05000000, enable := true, subs := [{ subid := 77, recNo := 0, unsettled := 5 }], walk := { mode := .stopped, subid := 77 } })] }, 1, 0x2000000004000000000000100000000000500000001, by decide +kernel⟩,
    ⟨small, { up with rings := [(1, { enable := true, d1 := 0x04000600, subs := [{ subid := 4, recNo := 0, image := 0x10000, imglen := 512, walkEnded := true }], expSub := 5, wptr := 1 }), (9, { d1 := 0x05000000, enable := true, subs := [{ subid := 77, recNo := 0, unsettled := 5 }], walk := { mode := .stopped, subid := 77 } })] }, 1, 0x2000000004000000000000100000000000600000001, by decide +kernel⟩,
    ⟨small, { up with rings := [(1, { enable := true, d1 := 0x04000600, subs := [{ subid := 4, recNo := 0, image := 0x10000, imglen := 512, waitOn := some (3, 7) }], walk := { mode := .waitSub, subid := 4 } }), (9, { d1 := 0x05000000, enable := true, subs := [{ subid := 77, recNo := 0, unsettled := 5 }], walk := { mode := .stopped, subid := 77 } })], tdone := [(4 * 64 + 3, 9)] }, 1, by decide +kernel⟩⟩

theorem witness_SegmentHeaders :
    (∃ (p : Params) (b : Block) (r : Nat) (hdr : BitVec 512) (l : List (BitVec 256)), keeperUp b ∧ (rng b r).walk.mode = .header ∧ walking b r ∧ (rng b r).walk.seek = none ∧ l.length * 32 = bf hdr 8 0 32 ∧ hdrOk (((walkSub b r).map (fun s => s.imglen)).getD 0) (rng b r).walk.off hdr l ∧ bf hdr 6 0 1 = 1 ∧ l ≠ [] ∧ inTurn p b {} (.segmentHeader r hdr l) ∧ NoneDue b) ∧
    (∃ (p : Params) (b : Block) (r : Nat) (hdr : BitVec 512) (l : List (BitVec 256)), keeperUp b ∧ (rng b r).walk.mode = .header ∧ walking b r ∧ (rng b r).walk.seek = none ∧ l.length * 32 = bf hdr 8 0 32 ∧ hdrOk (((walkSub b r).map (fun s => s.imglen)).getD 0) (rng b r).walk.off hdr l ∧ bf hdr 6 0 1 = 0 ∧ inTurn p b {} (.segmentHeader r hdr l) ∧ NoneDue b) ∧
    (∃ (p : Params) (b : Block) (r : Nat) (hdr : BitVec 512) (l : List (BitVec 256)), keeperUp b ∧ (rng b r).walk.mode = .header ∧ walking b r ∧ (rng b r).walk.seek = none ∧ l.length * 32 = bf hdr 8 0 32 ∧ hdrOk (((walkSub b r).map (fun s => s.imglen)).getD 0) (rng b r).walk.off hdr l = false ∧ inTurn p b {} (.segmentHeader r hdr l) ∧ NoneDue b) := by
  exact ⟨⟨small, { up with rings := [(1, { enable := true, d1 := 0x04000600, subs := [{ subid := 4, recNo := 0, image := 0x10000, imglen := 512 }], walk := { mode := .header, subid := 4 }, hangTicks := 3 }), (9, { d1 := 0x05000000, enable := true, subs := [{ subid := 77, recNo := 0, unsettled := 5 }], walk := { mode := .stopped, subid := 77 } })] }, 1, 0x20000101004c4d5243, [0x31], by decide +kernel⟩,
    ⟨small, { up with rings := [(1, { enable := true, d1 := 0x04000600, subs := [{ subid := 4, recNo := 0, image := 0x10000, imglen := 512 }], walk := { mode := .header, subid := 4 }, hangTicks := 3 }), (9, { d1 := 0x05000000, enable := true, subs := [{ subid := 77, recNo := 0, unsettled := 5 }], walk := { mode := .stopped, subid := 77 } })] }, 1, 0x100000020000001004c4d5243, [0x03], by decide +kernel⟩,
    ⟨small, { up with rings := [(1, { enable := true, d1 := 0x04000600, subs := [{ subid := 4, recNo := 0, image := 0x10000, imglen := 512 }], walk := { mode := .header, subid := 4 }, hangTicks := 3 }), (9, { d1 := 0x05000000, enable := true, subs := [{ subid := 77, recNo := 0, unsettled := 5 }], walk := { mode := .stopped, subid := 77 } })] }, 1, 0x138800000020000001004c4d5243, [0x03], by decide +kernel⟩⟩

theorem witness_GraphPasses :
    (∃ (p : Params) (b : Block) (r : Nat) (h : SegHdr) (k : Nat) (l : List (Nat × BitVec 512)) (z : List SRec), keeperUp b ∧ (rng b r).walk.mode = .pass1 ∧ walking b r ∧ passReads (rng b r).walk = false ∧ (rng b r).walk.seg = some h ∧ freeBank b = some k ∧ parseRecs p (progress r b) r (rng b r).walk.body.length (rng b r).walk.body (h.off + 64) [] = (l, none) ∧ checkAll p (progress r b) r h.ntask ((l.filter (fun x => isNode x.2)).map (fun x => homeAt p (progress r b) (recClass x.2))) l [] 0 = (z, none) ∧ segFault (rng b r).walk h.ntask h.off l z = none ∧ inTurn p b {} (.graphPass1 r) ∧ NoneDue b) ∧
    (∃ (p : Params) (b : Block) (r : Nat) (g : Seg), keeperUp b ∧ (rng b r).walk.mode = .pass2 ∧ Tbl.get none b.segs r = some g ∧ walking b r ∧ neverFits b (rTenant (rng b r)) g = false ∧ quotaOk b (rTenant (rng b r)) g ∧ heldBack b b.entq g = false ∧ fitsNow b g = false ∧ inTurn p b {} (.graphPass2 r) ∧ NoneDue b) ∧
    (∃ (p : Params) (b : Block) (r : Nat) (g : Seg), keeperUp b ∧ (rng b r).walk.mode = .pass2 ∧ Tbl.get none b.segs r = some g ∧ walking b r ∧ neverFits b (rTenant (rng b r)) g = false ∧ quotaOk b (rTenant (rng b r)) g ∧ heldBack b b.entq g = false ∧ fitsNow b g ∧ opensStatus p b r g = 0 ∧ segInsts g = [] ∧ inTurn p b {} (.graphPass2 r) ∧ NoneDue b) ∧
    (∃ (p : Params) (b : Block) (r : Nat) (g : Seg), keeperUp b ∧ (rng b r).walk.mode = .pass2 ∧ Tbl.get none b.segs r = some g ∧ walking b r ∧ neverFits b (rTenant (rng b r)) g ∧ inTurn p b {} (.graphPass2 r) ∧ NoneDue b) ∧
    (∃ (p : Params) (b : Block) (r : Nat) (g : Seg), keeperUp b ∧ (rng b r).walk.mode = .entq ∧ Tbl.get none b.segs r = some g ∧ walking b r ∧ neverFits b (rTenant (rng b r)) g = false ∧ quotaOk b (rTenant (rng b r)) g ∧ heldBack b (b.entq.takeWhile (· ≠ r)) g = false ∧ fitsNow b g ∧ opensStatus p b r g = 0 ∧ segInsts g = [] ∧ inTurn p b {} (.entryQueueAdmit r) ∧ NoneDue b) ∧
    (∃ (p : Params) (b : Block) (r : Nat) (g : Seg), keeperUp b ∧ (rng b r).walk.mode = .pass3 ∧ Tbl.get none b.segs r = some g ∧ (rng b r).haltKind = 0 ∧ passReads (rng b r).walk = false ∧ linkNeed (rng b r).walk g.recs = none ∧ inTurn p b {} (.graphPass3 r) ∧ NoneDue b) ∧
    (∃ (p : Params) (b : Block) (r : Nat) (g : Seg) (a : Nat), keeperUp b ∧ (rng b r).walk.mode = .pass3 ∧ Tbl.get none b.segs r = some g ∧ (rng b r).haltKind = 0 ∧ passReads (rng b r).walk = false ∧ linkNeed (rng b r).walk g.recs = some a ∧ inTurn p b {} (.graphPass3 r) ∧ NoneDue b) ∧
    (∃ (p : Params) (b : Block) (r : Nat) (a : BitVec 48) (l : List Nat), wardUp p b (rHome (rng b r)) ∧ (rng b r).walk.fanWait = some a.toNat ∧ inTurn p b {} (.fanListReadResponse r a .okay l) ∧ NoneDue b) ∧
    (∃ (p : Params) (b : Block) (r : Nat) (a : BitVec 48) (l : List Nat), wardUp p b (rHome (rng b r)) ∧ (rng b r).walk.fanWait = some a.toNat ∧ (rng b r).walk.mode ≠ .pass3 ∧ inTurn p b {} (.fanListReadResponse r a .fault l) ∧ NoneDue b) ∧
    (∃ (p : Params) (b : Block) (r : Nat) (a : BitVec 48) (v : BitVec 64), wardUp p b (rHome (rng b r)) ∧ (rng b r).walk.opWait = some a.toNat ∧ inTurn p b {} (.operandReadResponse r a .okay v) ∧ NoneDue b) ∧
    (∃ (p : Params) (b : Block) (r : Nat) (a : BitVec 48) (v : BitVec 64), wardUp p b (rHome (rng b r)) ∧ (rng b r).walk.opWait = some a.toNat ∧ inTurn p b {} (.operandReadResponse r a .fault v) ∧ NoneDue b) ∧
    (∃ (p : Params) (b : Block) (r : Nat), keeperUp b ∧ (rng b r).walk.mode = .waitAhead ∧ walking b r ∧ aheadHolds (rng b r) = false ∧ inTurn p b {} (.aheadRelease r) ∧ NoneDue b) := by
  exact ⟨⟨small, { up with rings := [(1, { enable := true, d1 := 0x04000600, subs := [{ subid := 4, recNo := 0, image := 0x10000, imglen := 512 }], walk := { mode := .pass1, subid := 4, seg := some ⟨0, true, 64, 0, 1, []⟩, body := [0x30000000000000001, 0] }, segNo := 2 }), (9, { d1 := 0x05000000, enable := true, subs := [{ subid := 77, recNo := 0, unsettled := 5 }], walk := { mode := .stopped, subid := 77 } })], pcls := [(3, { work := { tenant := 4, ranks := [(0, { v := true, ward := 1, mask := 2 })] } })] }, 1, ⟨0, true, 64, 0, 1, []⟩, 0, [(64, 0x30000000000000001)], [.task 0x30000000000000001], by decide +kernel⟩,
    ⟨small, { up with rings := [(1, { enable := true, d1 := 0x04000600, subs := [{ subid := 4, recNo := 0, image := 0x10000, imglen := 512 }], walk := { mode := .pass2, subid := 4, seg := some ⟨0, true, 32, 0, 1, []⟩, body := [0x301010003] }, segNo := 2 }), (9, { d1 := 0x05000000, enable := true, subs := [{ subid := 77, recNo := 0, unsettled := 5 }], walk := { mode := .stopped, subid := 77 } })], pcls := [(3, { work := { tenant := 4, ranks := [(0, { v := true, ward := 1, mask := 2 })] } })], segs := [(1, some { no := 2, bank := 0, recs := [.join 0x301010003], homes := [(none, 1)], demand := [(1, 1)], lines := [], queues := [(1, 64)], blocks := [], fedrec := [], chrec := [], imps := [] })], cq := [(72, { st := .opened, len := 8, n := 2, entry := 2000 })] }, 1, { no := 2, bank := 0, recs := [.join 0x301010003], homes := [(none, 1)], demand := [(1, 1)], lines := [], queues := [(1, 64)], blocks := [], fedrec := [], chrec := [], imps := [] }, by decide +kernel⟩,
    ⟨small, { up with rings := [(1, { enable := true, d1 := 0x04000600, subs := [{ subid := 4, recNo := 0, image := 0x10000, imglen := 512 }], walk := { mode := .pass2, subid := 4, seg := some ⟨0, true, 32, 0, 1, []⟩, body := [0x301010003] }, segNo := 2 }), (9, { d1 := 0x05000000, enable := true, subs := [{ subid := 77, recNo := 0, unsettled := 5 }], walk := { mode := .stopped, subid := 77 } })], pcls := [(3, { work := { tenant := 4, ranks := [(0, { v := true, ward := 1, mask := 2 })] } })], segs := [(1, some { no := 2, bank := 0, recs := [.join 0x301010003], homes := [(none, 1)], demand := [(1, 1)], lines := [], queues := [], blocks := [], fedrec := [], chrec := [], imps := [] })] }, 1, { no := 2, bank := 0, recs := [.join 0x301010003], homes := [(none, 1)], demand := [(1, 1)], lines := [], queues := [], blocks := [], fedrec := [], chrec := [], imps := [] }, by decide +kernel⟩,
    ⟨small, { up with rings := [(1, { enable := true, d1 := 0x04000600, subs := [{ subid := 4, recNo := 0, image := 0x10000, imglen := 512 }], walk := { mode := .pass2, subid := 4, seg := some ⟨0, true, 32, 0, 1, []⟩, body := [0x301010003] }, segNo := 2 }), (9, { d1 := 0x05000000, enable := true, subs := [{ subid := 77, recNo := 0, unsettled := 5 }], walk := { mode := .stopped, subid := 77 } })], pcls := [(3, { work := { tenant := 4, ranks := [(0, { v := true, ward := 1, mask := 2 })] } })], segs := [(1, some { no := 2, bank := 0, recs := [.join 0x301010003], homes := [(none, 1)], demand := [(1, 3000)], lines := [], queues := [], blocks := [], fedrec := [], chrec := [], imps := [] })] }, 1, { no := 2, bank := 0, recs := [.join 0x301010003], homes := [(none, 1)], demand := [(1, 3000)], lines := [], queues := [], blocks := [], fedrec := [], chrec := [], imps := [] }, by decide +kernel⟩,
    ⟨small, { up with rings := [(1, { enable := true, d1 := 0x04000600, subs := [{ subid := 4, recNo := 0, image := 0x10000, imglen := 512 }], walk := { mode := .entq, subid := 4, seg := some ⟨0, true, 32, 0, 1, []⟩, body := [0x301010003] }, segNo := 2 }), (9, { d1 := 0x05000000, enable := true, subs := [{ subid := 77, recNo := 0, unsettled := 5 }], walk := { mode := .stopped, subid := 77 } })], pcls := [(3, { work := { tenant := 4, ranks := [(0, { v := true, ward := 1, mask := 2 })] } })], segs := [(1, some { no := 2, bank := 0, recs := [.join 0x301010003], homes := [(none, 1)], demand := [(1, 1)], lines := [], queues := [], blocks := [], fedrec := [], chrec := [], imps := [] })], entq := [1] }, 1, { no := 2, bank := 0, recs := [.join 0x301010003], homes := [(none, 1)], demand := [(1, 1)], lines := [], queues := [], blocks := [], fedrec := [], chrec := [], imps := [] }, by decide +kernel⟩,
    ⟨small, { up with rings := [(1, { enable := true, d1 := 0x04000600, subs := [{ subid := 4, recNo := 0, image := 0x10000, imglen := 512 }], walk := { mode := .pass3, subid := 4, seg := some ⟨0, true, 32, 0, 1, []⟩, body := [0x301010003] }, segNo := 2 }), (9, { d1 := 0x05000000, enable := true, subs := [{ subid := 77, recNo := 0, unsettled := 5 }], walk := { mode := .stopped, subid := 77 } })], pcls := [(3, { work := { tenant := 4, ranks := [(0, { v := true, ward := 1, mask := 2 })] } })], segs := [(1, some { no := 2, bank := 0, recs := [.join 0x301010003], homes := [(none, 1)], demand := [(1, 1)], lines := [], queues := [], blocks := [], fedrec := [], chrec := [], imps := [], handles := [0x8180100A] })] }, 1, { no := 2, bank := 0, recs := [.join 0x301010003], homes := [(none, 1)], demand := [(1, 1)], lines := [], queues := [], blocks := [], fedrec := [], chrec := [], imps := [], handles := [0x8180100A] }, by decide +kernel⟩,
    ⟨small, { up with rings := [(1, { enable := true, d1 := 0x04000600, subs := [{ subid := 4, recNo := 0, image := 0x10000, imglen := 512 }], walk := { mode := .pass3, subid := 4, seg := some ⟨0, true, 32, 0, 1, []⟩, body := [0x301010003] }, segNo := 2 }), (9, { d1 := 0x05000000, enable := true, subs := [{ subid := 77, recNo := 0, unsettled := 5 }], walk := { mode := .stopped, subid := 77 } })], pcls := [(3, { work := { tenant := 4, ranks := [(0, { v := true, ward := 1, mask := 2 })] } })], segs := [(1, some { no := 2, bank := 0, recs := [.join 0x301010003, .fan 0 4096 3], homes := [(none, 1)], demand := [(1, 1)], lines := [], queues := [], blocks := [], fedrec := [], chrec := [], imps := [], handles := [0x8180100A] })] }, 1, { no := 2, bank := 0, recs := [.join 0x301010003, .fan 0 4096 3], homes := [(none, 1)], demand := [(1, 1)], lines := [], queues := [], blocks := [], fedrec := [], chrec := [], imps := [], handles := [0x8180100A] }, 4096, by decide +kernel⟩,
    ⟨small, { up with rings := [(1, { enable := true, d1 := 0x04000600, subs := [{ subid := 4, recNo := 0, image := 0x10000, imglen := 512 }], walk := { mode := .pass1, subid := 4, fanWait := some 4096 } }), (9, { d1 := 0x05000000, enable := true, subs := [{ subid := 77, recNo := 0, unsettled := 5 }], walk := { mode := .stopped, subid := 77 } })] }, 1, 4096, [], by decide +kernel⟩,
    ⟨small, { up with rings := [(1, { enable := true, d1 := 0x04000600, subs := [{ subid := 4, recNo := 0, image := 0x10000, imglen := 512 }], walk := { mode := .pass1, subid := 4, fanWait := some 4096 } }), (9, { d1 := 0x05000000, enable := true, subs := [{ subid := 77, recNo := 0, unsettled := 5 }], walk := { mode := .stopped, subid := 77 } })] }, 1, 4096, [], by decide +kernel⟩,
    ⟨small, { up with rings := [(1, { enable := true, d1 := 0x04000600, subs := [{ subid := 4, recNo := 0, image := 0x10000, imglen := 512 }], walk := { mode := .pass1, subid := 4, opWait := some 4096 } }), (9, { d1 := 0x05000000, enable := true, subs := [{ subid := 77, recNo := 0, unsettled := 5 }], walk := { mode := .stopped, subid := 77 } })] }, 1, 4096, 5, by decide +kernel⟩,
    ⟨small, { up with rings := [(1, { enable := true, d1 := 0x04000600, subs := [{ subid := 4, recNo := 0, image := 0x10000, imglen := 512 }], walk := { mode := .pass1, subid := 4, opWait := some 4096 } }), (9, { d1 := 0x05000000, enable := true, subs := [{ subid := 77, recNo := 0, unsettled := 5 }], walk := { mode := .stopped, subid := 77 } })] }, 1, 4096, 5, by decide +kernel⟩,
    ⟨small, { up with rings := [(1, { enable := true, d1 := 0x04000600, subs := [{ subid := 4, recNo := 0, image := 0x10000, imglen := 512 }], walk := { mode := .waitAhead, subid := 4 }, hangTicks := 3 }), (9, { d1 := 0x05000000, enable := true, subs := [{ subid := 77, recNo := 0, unsettled := 5 }], walk := { mode := .stopped, subid := 77 } })] }, 1, by decide +kernel⟩⟩

theorem witness_RecordsInTurn :
    (∃ (p : Params) (b : Block) (r : Nat) (x : BitVec 256), Reads p b r 0x7F x ∧ Inside b r ∧ inTurn p b {} (.nop r x) ∧ NoneDue b) ∧
    (∃ (p : Params) (b : Block) (r : Nat) (x : BitVec 256) (g : SegHdr), Reads p b r 0x7F x ∧ (rng b r).walk.seg = some g ∧ g.off + 64 + g.len ≤ (rng b r).walk.off + 32 ∧ g.next ≠ 0xFFFFFFFF ∧ inTurn p b {} (.nop r x) ∧ NoneDue b) ∧
    (∃ (p : Params) (b : Block) (r : Nat) (x : BitVec 256), Reads p b r 0x51 x ∧ Inside b r ∧ inTurn p b {} (.mark r x) ∧ NoneDue b) ∧
    (∃ (p : Params) (b : Block) (r : Nat) (x : BitVec 256), Reads p b r 0x61 x ∧ Inside b r ∧ inTurn p b {} (.note r x) ∧ NoneDue b) ∧
    (∃ (p : Params) (b : Block) (r : Nat) (x : BitVec 256) (v : Nat), Reads p b r 0x41 x ∧ Inside b r ∧ bitAt x 8 = false ∧ evalLow p b r (opdAt (wide x) 8) = .val v ∧ slotMine b (rTenant (rng b r)) (bf x 4 0 18) ∧ inTurn p b {} (.setSlot r x) ∧ NoneDue b) ∧
    (∃ (p : Params) (b : Block) (r : Nat) (x : BitVec 256) (v : Nat) (k : Walk), Reads p b r 0x40 x ∧ k = (rng b r).walk ∧ lastRec k = false ∧ indirectPatch p b r (wide x) = .val v ∧ inTurn p b {} (.indirect r x) ∧ NoneDue b) := by
  exact ⟨⟨small, { up with rings := [(1, { enable := true, d1 := 0x04000600, subs := [{ subid := 4, recNo := 0, image := 0x10000, imglen := 512 }], walk := { mode := .records, subid := 4, off := 128, seg := some ⟨0, false, 256, 0xFFFFFFFF, 0, []⟩ }, hangTicks := 3 }), (9, { d1 := 0x05000000, enable := true, subs := [{ subid := 77, recNo := 0, unsettled := 5 }], walk := { mode := .stopped, subid := 77 } })] }, 1, 0x7f, by unfold Reads Inside; decide +kernel⟩,
    ⟨small, { up with rings := [(1, { enable := true, d1 := 0x04000600, subs := [{ subid := 4, recNo := 0, image := 0x10000, imglen := 512 }], walk := { mode := .records, subid := 4, off := 320, seg := some ⟨0, false, 256, 0x400, 0, []⟩ }, hangTicks := 3 }), (9, { d1 := 0x05000000, enable := true, subs := [{ subid := 77, recNo := 0, unsettled := 5 }], walk := { mode := .stopped, subid := 77 } })] }, 1, 0x7f, ⟨0, false, 256, 0x400, 0, []⟩, by unfold Reads; decide +kernel⟩,
    ⟨small, { up with rings := [(1, { enable := true, d1 := 0x04000600, subs := [{ subid := 4, recNo := 0, image := 0x10000, imglen := 512 }], walk := { mode := .records, subid := 4, off := 128, seg := some ⟨0, false, 256, 0xFFFFFFFF, 0, []⟩ }, hangTicks := 3 }), (9, { d1 := 0x05000000, enable := true, subs := [{ subid := 77, recNo := 0, unsettled := 5 }], walk := { mode := .stopped, subid := 77 } })] }, 1, 0x900070051, by unfold Reads Inside; decide +kernel⟩,
    ⟨small, { up with rings := [(1, { enable := true, d1 := 0x04000600, subs := [{ subid := 4, recNo := 0, image := 0x10000, imglen := 512 }], walk := { mode := .records, subid := 4, off := 128, seg := some ⟨0, false, 256, 0xFFFFFFFF, 0, []⟩ }, hangTicks := 3 }), (9, { d1 := 0x05000000, enable := true, subs := [{ subid := 77, recNo := 0, unsettled := 5 }], walk := { mode := .stopped, subid := 77 } })] }, 1, 0x4d00000000000010000000000000000461, by unfold Reads Inside; decide +kernel⟩,
    ⟨small, { up with rings := [(1, { enable := true, d1 := 0x04000600, subs := [{ subid := 4, recNo := 0, image := 0x10000, imglen := 512 }], walk := { mode := .records, subid := 4, off := 128, seg := some ⟨0, false, 256, 0xFFFFFFFF, 0, []⟩ }, hangTicks := 3 }), (9, { d1 := 0x05000000, enable := true, subs := [{ subid := 77, recNo := 0, unsettled := 5 }], walk := { mode := .stopped, subid := 77 } })], slots := [(7, { tenant := 4, fillgen := 3 }), (77, { f := true, fillgen := 3 })] }, 1, 0x630000000700000041, 99, by unfold Reads Inside; decide +kernel⟩,
    ⟨small, { up with rings := [(1, { enable := true, d1 := 0x04000600, subs := [{ subid := 4, recNo := 0, image := 0x10000, imglen := 512 }], walk := { mode := .records, subid := 4, off := 128, seg := some ⟨0, false, 256, 0xFFFFFFFF, 0, []⟩ }, hangTicks := 3 }), (9, { d1 := 0x05000000, enable := true, subs := [{ subid := 77, recNo := 0, unsettled := 5 }], walk := { mode := .stopped, subid := 77 } })] }, 1, 0x50000000000004440, 5, { mode := .records, subid := 4, off := 128, seg := some ⟨0, false, 256, 0xFFFFFFFF, 0, []⟩ }, by unfold Reads; decide +kernel⟩⟩

theorem witness_BranchesAndLoops :
    (∃ (p : Params) (b : Block) (r : Nat) (x : BitVec 256) (u v : Nat), Reads p b r 0x30 x ∧ Inside b r ∧ evalLow p b r (opdAt (wide x) 8) = .val u ∧ evalLow p b r (opdAt (wide x) 16) = .val v ∧ condHolds (bf x 1 0 4) (BitVec.ofNat 32 u) (BitVec.ofNat 32 v) ∧ inTurn p b {} (.cond r x) ∧ NoneDue b) ∧
    (∃ (p : Params) (b : Block) (r : Nat) (x : BitVec 256) (u v : Nat) (g : SegHdr), Reads p b r 0x30 x ∧ evalLow p b r (opdAt (wide x) 8) = .val u ∧ evalLow p b r (opdAt (wide x) 16) = .val v ∧ condHolds (bf x 1 0 4) (BitVec.ofNat 32 u) (BitVec.ofNat 32 v) = false ∧ (rng b r).walk.seg = some g ∧ (rng b r).walk.off < bf x 4 0 32 ∧ bf x 4 0 32 < g.off + 64 + g.len ∧ bf x 4 0 32 % 32 = 0 ∧ inTurn p b {} (.cond r x) ∧ NoneDue b) ∧
    (∃ (p : Params) (b : Block) (r : Nat) (x : BitVec 256) (n : Nat) (g : SegHdr), Reads p b r 0x31 x ∧ Inside b r ∧ bitAt x 8 = false ∧ evalLow p b r (opdAt (wide x) 8) = .val n ∧ n ≠ 0 ∧ (rng b r).walk.loops.length < 2 ∧ (rng b r).walk.seg = some g ∧ inTurn p b {} (.loop r x) ∧ NoneDue b) ∧
    (∃ (p : Params) (b : Block) (r : Nat) (x : BitVec 256) (g : SegHdr), Reads p b r 0x31 x ∧ bitAt x 8 = false ∧ evalLow p b r (opdAt (wide x) 8) = .val 0 ∧ (rng b r).walk.loops.length < 2 ∧ (rng b r).walk.seg = some g ∧ (rng b r).walk.off < bf x 4 0 32 ∧ bf x 4 0 32 < g.off + 64 + g.len ∧ bf x 4 0 32 % 32 = 0 ∧ inTurn p b {} (.loop r x) ∧ NoneDue b) ∧
    (∃ (p : Params) (b : Block) (r : Nat) (x : BitVec 256) (l : LoopLvl), Reads p b r 0x32 x ∧ (rng b r).walk.loops.getLast? = some l ∧ l.exit = (rng b r).walk.off + 32 ∧ (l.forever ∨ l.iter + 1 < l.count) ∧ l.body < l.seg.off + 64 + l.seg.len ∧ inTurn p b {} (.endloop r x) ∧ NoneDue b) ∧
    (∃ (p : Params) (b : Block) (r : Nat) (x : BitVec 256) (l : LoopLvl), Reads p b r 0x32 x ∧ Inside b r ∧ (rng b r).walk.loops.getLast? = some l ∧ l.exit = (rng b r).walk.off + 32 ∧ l.forever = false ∧ l.count ≤ l.iter + 1 ∧ inTurn p b {} (.endloop r x) ∧ NoneDue b) := by
  exact ⟨⟨small, { up with rings := [(1, { enable := true, d1 := 0x04000600, subs := [{ subid := 4, recNo := 0, image := 0x10000, imglen := 512 }], walk := { mode := .records, subid := 4, off := 128, seg := some ⟨0, false, 256, 0xFFFFFFFF, 0, []⟩ }, hangTicks := 3 }), (9, { d1 := 0x05000000, enable := true, subs := [{ subid := 77, recNo := 0, unsettled := 5 }], walk := { mode := .stopped, subid := 77 } })] }, 1, 0x600000000000000050000000000000230, 5, 6, by unfold Reads Inside; decide +kernel⟩,
    ⟨small, { up with rings := [(1, { enable := true, d1 := 0x04000600, subs := [{ subid := 4, recNo := 0, image := 0x10000, imglen := 512 }], walk := { mode := .records, subid := 4, off := 128, seg := some ⟨0, false, 256, 0xFFFFFFFF, 0, []⟩, loops := [⟨32, 160, 0, 5, false, ⟨0, false, 256, 0xFFFFFFFF, 0, []⟩⟩, ⟨64, 300, 0, 5, false, ⟨0, false, 256, 0xFFFFFFFF, 0, []⟩⟩] }, hangTicks := 3 }), (9, { d1 := 0x05000000, enable := true, subs := [{ subid := 77, recNo := 0, unsettled := 5 }], walk := { mode := .stopped, subid := 77 } })] }, 1, 0x60000000000000006000000c000000230, 6, 6, ⟨0, false, 256, 0xFFFFFFFF, 0, []⟩, by unfold Reads; decide +kernel⟩,
    ⟨small, { up with rings := [(1, { enable := true, d1 := 0x04000600, subs := [{ subid := 4, recNo := 0, image := 0x10000, imglen := 512 }], walk := { mode := .records, subid := 4, off := 128, seg := some ⟨0, false, 256, 0xFFFFFFFF, 0, []⟩ }, hangTicks := 3 }), (9, { d1 := 0x05000000, enable := true, subs := [{ subid := 77, recNo := 0, unsettled := 5 }], walk := { mode := .stopped, subid := 77 } })] }, 1, 0x6000000e000000031, 6, ⟨0, false, 256, 0xFFFFFFFF, 0, []⟩, by unfold Reads Inside; decide +kernel⟩,
    ⟨small, { up with rings := [(1, { enable := true, d1 := 0x04000600, subs := [{ subid := 4, recNo := 0, image := 0x10000, imglen := 512 }], walk := { mode := .records, subid := 4, off := 128, seg := some ⟨0, false, 256, 0xFFFFFFFF, 0, []⟩ }, hangTicks := 3 }), (9, { d1 := 0x05000000, enable := true, subs := [{ subid := 77, recNo := 0, unsettled := 5 }], walk := { mode := .stopped, subid := 77 } })] }, 1, 0xe000000031, ⟨0, false, 256, 0xFFFFFFFF, 0, []⟩, by unfold Reads; decide +kernel⟩,
    ⟨small, { up with rings := [(1, { enable := true, d1 := 0x04000600, subs := [{ subid := 4, recNo := 0, image := 0x10000, imglen := 512 }], walk := { mode := .records, subid := 4, off := 128, seg := some ⟨0, false, 256, 0xFFFFFFFF, 0, []⟩, loops := [⟨96, 160, 2, 5, false, ⟨0, false, 256, 0xFFFFFFFF, 0, []⟩⟩] }, hangTicks := 3 }), (9, { d1 := 0x05000000, enable := true, subs := [{ subid := 77, recNo := 0, unsettled := 5 }], walk := { mode := .stopped, subid := 77 } })] }, 1, 0x32, ⟨96, 160, 2, 5, false, ⟨0, false, 256, 0xFFFFFFFF, 0, []⟩⟩, by unfold Reads; decide +kernel⟩,
    ⟨small, { up with rings := [(1, { enable := true, d1 := 0x04000600, subs := [{ subid := 4, recNo := 0, image := 0x10000, imglen := 512 }], walk := { mode := .records, subid := 4, off := 128, seg := some ⟨0, false, 256, 0xFFFFFFFF, 0, []⟩, loops := [⟨96, 160, 4, 5, false, ⟨0, false, 256, 0xFFFFFFFF, 0, []⟩⟩] }, hangTicks := 3 }), (9, { d1 := 0x05000000, enable := true, subs := [{ subid := 77, recNo := 0, unsettled := 5 }], walk := { mode := .stopped, subid := 77 } })] }, 1, 0x32, ⟨96, 160, 4, 5, false, ⟨0, false, 256, 0xFFFFFFFF, 0, []⟩⟩, by unfold Reads Inside; decide +kernel⟩⟩

theorem witness_StepsAndFences :
    (∃ (p : Params) (b : Block) (r : Nat) (x : BitVec 256), Reads p b r 0x33 x ∧ Inside b r ∧ (rng b r).steps = [] ∧ (rng b r).pre = .run ∧ inTurn p b {} (.stepEnd r x) ∧ NoneDue b) ∧
    (∃ (p : Params) (b : Block) (r : Nat) (x : BitVec 256) (s : StepRec), Reads p b r 0x33 x ∧ Inside b r ∧ (rng b r).steps = [s] ∧ s.no = (rng b r).stepNo ∧ s.unsettled ≠ 0 ∧ (rng b r).pre = .run ∧ inTurn p b {} (.stepEnd r x) ∧ NoneDue b) ∧
    (∃ (p : Params) (b : Block) (r : Nat) (x : BitVec 256), Reads p b r 0x34 x ∧ Inside b r ∧ (rng b r).pre = .run ∧ inTurn p b {} (.yield r x) ∧ NoneDue b) ∧
    (∃ (p : Params) (b : Block) (r : Nat) (x : BitVec 256), Reads p b r 0x60 x ∧ Inside b r ∧ fenceOver b r (bitAt x 8) ∧ (bitAt x 9 && fenceFailed b r (bitAt x 8)) = false ∧ inTurn p b {} (.fence r x) ∧ NoneDue b) ∧
    (∃ (p : Params) (b : Block) (r : Nat) (x : BitVec 256), Reads p b r 0x60 x ∧ fenceOver b r (bitAt x 8) = false ∧ inTurn p b {} (.fence r x) ∧ NoneDue b) ∧
    (∃ (p : Params) (b : Block) (r : Nat) (sc fs : Bool), keeperUp b ∧ (rng b r).walk.mode = .waitFence sc fs ∧ walking b r ∧ fenceOver b r sc ∧ (fs && fenceFailed b r sc) = false ∧ Inside b r ∧ inTurn p b {} (.fenceRelease r) ∧ NoneDue b) ∧
    (∃ (p : Params) (b : Block) (r : Nat) (sc : Bool), keeperUp b ∧ (rng b r).walk.mode = .waitFence sc true ∧ walking b r ∧ fenceOver b r sc ∧ fenceFailed b r sc ∧ inTurn p b {} (.fenceRelease r) ∧ NoneDue b) := by
  exact ⟨⟨small, { up with rings := [(1, { enable := true, d1 := 0x04000600, subs := [{ subid := 4, recNo := 0, image := 0x10000, imglen := 512 }], walk := { mode := .records, subid := 4, off := 128, seg := some ⟨0, false, 256, 0xFFFFFFFF, 0, []⟩ }, hangTicks := 3, stepNo := 2, stepTop := 1 }), (9, { d1 := 0x05000000, enable := true, subs := [{ subid := 77, recNo := 0, unsettled := 5 }], walk := { mode := .stopped, subid := 77 } })] }, 1, 0x33, by unfold Reads Inside; decide +kernel⟩,
    ⟨small, { up with rings := [(1, { enable := true, d1 := 0x04000600, subs := [{ subid := 4, recNo := 0, image := 0x10000, imglen := 512 }], walk := { mode := .records, subid := 4, off := 128, seg := some ⟨0, false, 256, 0xFFFFFFFF, 0, []⟩ }, hangTicks := 3, steps := [{ no := 2, subid := 4, unsettled := 3, opened := true }], stepNo := 2, stepTop := 2 }), (9, { d1 := 0x05000000, enable := true, subs := [{ subid := 77, recNo := 0, unsettled := 5 }], walk := { mode := .stopped, subid := 77 } })] }, 1, 0x33, { no := 2, subid := 4, unsettled := 3, opened := true }, by unfold Reads Inside; decide +kernel⟩,
    ⟨small, { up with rings := [(1, { enable := true, d1 := 0x04000600, subs := [{ subid := 4, recNo := 0, image := 0x10000, imglen := 512 }], walk := { mode := .records, subid := 4, off := 128, seg := some ⟨0, false, 256, 0xFFFFFFFF, 0, []⟩ }, hangTicks := 3, steps := [{ no := 2, subid := 4, unsettled := 3, opened := true }], stepNo := 2, stepTop := 2 }), (9, { d1 := 0x05000000, enable := true, subs := [{ subid := 77, recNo := 0, unsettled := 5 }], walk := { mode := .stopped, subid := 77 } })] }, 1, 0x34, by unfold Reads Inside; decide +kernel⟩,
    ⟨small, { up with rings := [(1, { enable := true, d1 := 0x04000600, subs := [{ subid := 4, recNo := 0, image := 0x10000, imglen := 512 }], walk := { mode := .records, subid := 4, off := 128, seg := some ⟨0, false, 256, 0xFFFFFFFF, 0, []⟩ }, hangTicks := 3 }), (9, { d1 := 0x05000000, enable := true, subs := [{ subid := 77, recNo := 0, unsettled := 5 }], walk := { mode := .stopped, subid := 77 } })] }, 1, 0x60, by unfold Reads Inside; decide +kernel⟩,
    ⟨small, { up with rings := [(1, { enable := true, d1 := 0x04000600, subs := [{ subid := 4, recNo := 0, image := 0x10000, imglen := 512, unsettled := 2 }], walk := { mode := .records, subid := 4, off := 128, seg := some ⟨0, false, 256, 0xFFFFFFFF, 0, []⟩ }, hangTicks := 3 }), (9, { d1 := 0x05000000, enable := true, subs := [{ subid := 77, recNo := 0, unsettled := 5 }], walk := { mode := .stopped, subid := 77 } })] }, 1, 0x160, by unfold Reads; decide +kernel⟩,
    ⟨small, { up with rings := [(1, { enable := true, d1 := 0x04000600, subs := [{ subid := 4, recNo := 0, image := 0x10000, imglen := 512 }], walk := { mode := .waitFence false true, subid := 4, off := 128, seg := some ⟨0, false, 256, 0xFFFFFFFF, 0, []⟩ }, hangTicks := 3 }), (9, { d1 := 0x05000000, enable := true, subs := [{ subid := 77, recNo := 0, unsettled := 5 }], walk := { mode := .stopped, subid := 77 } })] }, 1, false, true, by unfold Inside; decide +kernel⟩,
    ⟨small, { up with rings := [(1, { enable := true, d1 := 0x04000600, subs := [{ subid := 4, recNo := 0, image := 0x10000, imglen := 512, nfail := 1 }], walk := { mode := .waitFence false true, subid := 4, off := 128, seg := some ⟨0, false, 256, 0xFFFFFFFF, 0, []⟩ }, hangTicks := 3 }), (9, { d1 := 0x05000000, enable := true, subs := [{ subid := 77, recNo := 0, unsettled := 5 }], walk := { mode := .stopped, subid := 77 } })] }, 1, false, by decide +kernel⟩⟩

theorem witness_HaspAndChannelRecords :
    (∃ (p : Params) (b : Block) (r : Nat) (x : BitVec 256) (v h : Nat), Reads p b r 0x21 x ∧ Inside b r ∧ evalLow p b r (opdAt (wide x) 8) = .val v ∧ haspOf p b (wide x) = (none, h) ∧ haspCheck b h (rTenant (rng b r)) = 0 ∧ (hsp b h).count.toNat + (BitVec.ofNat 32 v).toNat < 2 ^ 32 ∧ inTurn p b {} (.haspSignal r x) ∧ NoneDue b) ∧
    (∃ (p : Params) (b : Block) (r : Nat) (x : BitVec 256) (h : Nat), Reads p b r 0x22 x ∧ Inside b r ∧ haspOf p b (wide x) = (none, h) ∧ haspCheck b h (rTenant (rng b r)) = 0 ∧ inTurn p b {} (.haspReset r x) ∧ NoneDue b) ∧
    (∃ (p : Params) (b : Block) (r : Nat) (x : BitVec 256) (v h : Nat), Reads p b r 0x20 x ∧ evalLow p b r (opdAt (wide x) 8) = .val v ∧ haspOf p b (wide x) = (none, h) ∧ haspCheck b h (rTenant (rng b r)) = 0 ∧ inTurn p b {} (.haspWait r x) ∧ NoneDue b) ∧
    (∃ (p : Params) (b : Block) (r : Nat) (x : BitVec 256) (id : Nat), Reads p b r 0x10 x ∧ Inside b r ∧ slotMine b (rTenant (rng b r)) (bf x 8 0 18) ∧ openCheck p b (rTenant (rng b r)) (openChan p b r (.sub r (rng b r).walk.subid) [] x) = 0 ∧ freeCh b = some id ∧ inTurn p b {} (.openCh r x) ∧ NoneDue b) ∧
    (∃ (p : Params) (b : Block) (r : Nat) (x : BitVec 256) (id : Nat) (c : Chan), Reads p b r 0x11 x ∧ Inside b r ∧ evalLow p b r (opdAt (wide x) 8) = .val id ∧ chn b id = some c ∧ c.tenant = rTenant (rng b r) ∧ c.closing = false ∧ inTurn p b {} (.closeCh r x) ∧ NoneDue b) ∧
    (∃ (p : Params) (b : Block) (r : Nat) (x : BitVec 256) (id : Nat), Reads p b r 0x11 x ∧ Inside b r ∧ evalLow p b r (opdAt (wide x) 8) = .val id ∧ chn b id = none ∧ inTurn p b {} (.closeCh r x) ∧ NoneDue b) := by
  exact ⟨⟨small, { up with rings := [(1, { enable := true, d1 := 0x04000600, subs := [{ subid := 4, recNo := 0, image := 0x10000, imglen := 512 }], walk := { mode := .records, subid := 4, off := 128, seg := some ⟨0, false, 256, 0xFFFFFFFF, 0, []⟩ }, hangTicks := 3 }), (9, { d1 := 0x05000000, enable := true, subs := [{ subid := 77, recNo := 0, unsettled := 5 }], walk := { mode := .stopped, subid := 77 } })], hasps := [(5, { v := true, tenant := 4, count := 9 }), (11, { v := true, count := 5, tenant := 5 })] }, 1, 0x60000000500000021, 6, 5, by unfold Reads Inside; decide +kernel⟩,
    ⟨small, { up with rings := [(1, { enable := true, d1 := 0x04000600, subs := [{ subid := 4, recNo := 0, image := 0x10000, imglen := 512 }], walk := { mode := .records, subid := 4, off := 128, seg := some ⟨0, false, 256, 0xFFFFFFFF, 0, []⟩ }, hangTicks := 3 }), (9, { d1 := 0x05000000, enable := true, subs := [{ subid := 77, recNo := 0, unsettled := 5 }], walk := { mode := .stopped, subid := 77 } })], hasps := [(5, { v := true, tenant := 4, count := 9 }), (11, { v := true, count := 5, tenant := 5 })] }, 1, 0x500000022, 5, by unfold Reads Inside; decide +kernel⟩,
    ⟨small, { up with rings := [(1, { enable := true, d1 := 0x04000600, subs := [{ subid := 4, recNo := 0, image := 0x10000, imglen := 512 }], walk := { mode := .records, subid := 4, off := 128, seg := some ⟨0, false, 256, 0xFFFFFFFF, 0, []⟩ }, hangTicks := 3 }), (9, { d1 := 0x05000000, enable := true, subs := [{ subid := 77, recNo := 0, unsettled := 5 }], walk := { mode := .stopped, subid := 77 } })], hasps := [(5, { v := true, tenant := 4, count := 9 }), (11, { v := true, count := 5, tenant := 5 })] }, 1, 0x100000000500000020, 16, 5, by unfold Reads; decide +kernel⟩,
    ⟨small, (wr small (wA 1 0 0x048) 2 (wr small (wA 1 0 0x050) 0x400 (wr small (wA 0 0 0x048) 8 (wr small (wA 0 0 0x050) 0x04000000 { up with rings := [(1, { enable := true, d1 := 0x04000600, subs := [{ subid := 4, recNo := 0, image := 0x10000, imglen := 512 }], walk := { mode := .records, subid := 4, off := 128, seg := some ⟨0, false, 256, 0xFFFFFFFF, 0, []⟩ }, hangTicks := 3 }), (9, { d1 := 0x05000000, enable := true, subs := [{ subid := 77, recNo := 0, unsettled := 5 }], walk := { mode := .stopped, subid := 77 } })], slots := [(7, { tenant := 4, fillgen := 3 }), (77, { f := true, fillgen := 3 })] })))), 1, 0x70000000300090010, 0, by unfold Reads Inside; decide +kernel⟩,
    ⟨small, { up with rings := [(1, { enable := true, d1 := 0x04000600, subs := [{ subid := 4, recNo := 0, image := 0x10000, imglen := 512 }], walk := { mode := .records, subid := 4, off := 128, seg := some ⟨0, false, 256, 0xFFFFFFFF, 0, []⟩ }, hangTicks := 3 }), (9, { d1 := 0x05000000, enable := true, subs := [{ subid := 77, recNo := 0, unsettled := 5 }], walk := { mode := .stopped, subid := 77 } })], chans := [(5, some { tenant := 4, dir := 0, tx := .port 9, rx := .port 3, owner := .sub 1 4 })] }, 1, 0x50000000000000011, 5, { tenant := 4, dir := 0, tx := .port 9, rx := .port 3, owner := .sub 1 4 }, by unfold Reads Inside; decide +kernel⟩,
    ⟨small, { up with rings := [(1, { enable := true, d1 := 0x04000600, subs := [{ subid := 4, recNo := 0, image := 0x10000, imglen := 512 }], walk := { mode := .records, subid := 4, off := 128, seg := some ⟨0, false, 256, 0xFFFFFFFF, 0, []⟩ }, hangTicks := 3 }), (9, { d1 := 0x05000000, enable := true, subs := [{ subid := 77, recNo := 0, unsettled := 5 }], walk := { mode := .stopped, subid := 77 } })] }, 1, 0x50000000000000011, 5, by unfold Reads Inside; decide +kernel⟩⟩

theorem witness_SubmissionsEnd :
    (∃ (p : Params) (b : Block) (r : Nat) (sid : Word32) (st : Status) (s : Machine.Sub), wardUp p b (rHome (rng b r)) ∧ xfind b (isFault r) = some (.cmdFault r sid st) ∧ subOf b r sid = some s ∧ s.complete = false ∧ s.early = none ∧ s.unsettled ≠ 0 ∧ (rng b r).walk.subid ≠ sid ∧ (rng b r).prePoint = none ∧ stoppable b r sid = [] ∧ inTurn p b {} (.commandFaultNotice r) ∧ NoneDue b) ∧
    (∃ (p : Params) (b : Block) (r : Nat) (s : Machine.Sub), wardUp p b (rHome (rng b r)) ∧ subOf b r s.subid = some s ∧ (rng b r).subs.find? (fun s => !s.complete && s.early.isNone && rtmoOver b (rng b r) s) = some s ∧ s.unsettled ≠ 0 ∧ (rng b r).walk.subid ≠ s.subid ∧ (rng b r).prePoint = none ∧ stoppable b r s.subid = [] ∧ inTurn p b {} (.ringTimeout r) ∧ NoneDue b) ∧
    (∃ (p : Params) (b : Block) (r : Nat) (s : Machine.Sub), wardUp p b (rHome (rng b r)) ∧ subOf b r s.subid = some s ∧ (rng b r).subs.find? (fun s => !s.complete && s.early.isNone && stmoOver b (rng b r) s.subid) = some s ∧ s.unsettled ≠ 0 ∧ (rng b r).walk.subid ≠ s.subid ∧ (rng b r).prePoint = none ∧ stoppable b r s.subid = [] ∧ inTurn p b {} (.stepTimeout r) ∧ NoneDue b) ∧
    (∃ (p : Params) (b : Block) (r : Nat) (s : Machine.Sub) (l : List Machine.Sub), wardUp p b (rHome (rng b r)) ∧ (rng b r).subs = s :: l ∧ s.complete = true ∧ s.statusWr = .pending ∧ s.digests = 0 ∧ (∀ x ∈ l, x.complete = false ∧ x.subid ≠ s.subid) ∧ inTurn p b {} (.statusBlockWriteResponse r s.subid .okay) ∧ NoneDue b) ∧
    (∃ (p : Params) (b : Block) (r : Nat) (sid : Word32) (s : Machine.Sub) (l : List (Option Nat)), wardUp p b (rHome (rng b r)) ∧ subOf b r sid = some s ∧ s.digestQ = none :: l ∧ (∀ x ∈ (rng b r).subs, x.complete = false) ∧ inTurn p b {} (.digestWriteResponse r sid .okay) ∧ NoneDue b) ∧
    (∃ (p : Params) (b : Block) (r : Nat) (sid : BitVec 32), wardUp p b (rHome (rng b r)) ∧ inTurn p b {} (.noteWriteResponse r sid .okay) ∧ NoneDue b) ∧
    (∃ (p : Params) (b : Block) (r : Nat) (sid : BitVec 32), wardUp p b (rHome (rng b r)) ∧ inTurn p b {} (.noteWriteResponse r sid .fault) ∧ NoneDue b) := by
  exact ⟨⟨small, { up with rings := [(1, { enable := true, d1 := 0x04000600, subs := [{ subid := 4, recNo := 0, image := 0x10000, imglen := 512, unsettled := 3 }] }), (9, { d1 := 0x05000000, enable := true, subs := [{ subid := 77, recNo := 0, unsettled := 5 }], walk := { mode := .stopped, subid := 77 } })], xbar := [.portFree 15, .cmdFault 1 4 0x13] }, 1, 4, 0x13, { subid := 4, recNo := 0, image := 0x10000, imglen := 512, unsettled := 3 }, by decide +kernel⟩,
    ⟨small, { up with rings := [(1, { enable := true, d1 := 0x04000600, subs := [{ subid := 4, recNo := 0, image := 0x10000, imglen := 512, unsettled := 3 }], d2 := 0x100 }), (9, { d1 := 0x05000000, enable := true, subs := [{ subid := 77, recNo := 0, unsettled := 5 }], walk := { mode := .stopped, subid := 77 } })] }, 1, { subid := 4, recNo := 0, image := 0x10000, imglen := 512, unsettled := 3 }, by decide +kernel⟩,
    ⟨small, { up with rings := [(1, { enable := true, d1 := 0x04000600, subs := [{ subid := 4, recNo := 0, image := 0x10000, imglen := 512, unsettled := 3 }], d3 := 1, steps := [{ no := 1, subid := 4, unsettled := 3, timer := some 0 }] }), (9, { d1 := 0x05000000, enable := true, subs := [{ subid := 77, recNo := 0, unsettled := 5 }], walk := { mode := .stopped, subid := 77 } })] }, 1, { subid := 4, recNo := 0, image := 0x10000, imglen := 512, unsettled := 3 }, by decide +kernel⟩,
    ⟨small, { up with rings := [(1, { enable := true, d1 := 0x04000600, subs := [{ subid := 4, recNo := 0, image := 0x10000, imglen := 512, complete := true, statusWr := .pending }, { subid := 9, recNo := 0, image := 0x10000, imglen := 512, unsettled := 3 }], d2 := 6 }), (9, { d1 := 0x05000000, enable := true, subs := [{ subid := 77, recNo := 0, unsettled := 5 }], walk := { mode := .stopped, subid := 77 } })] }, 1, { subid := 4, recNo := 0, image := 0x10000, imglen := 512, complete := true, statusWr := .pending }, [{ subid := 9, recNo := 0, image := 0x10000, imglen := 512, unsettled := 3 }], by decide +kernel⟩,
    ⟨small, { up with rings := [(1, { enable := true, d1 := 0x04000600, subs := [{ subid := 4, recNo := 0, image := 0x10000, imglen := 512, digests := 1, digestQ := [none] }, { subid := 9, recNo := 0, image := 0x10000, imglen := 512, unsettled := 3 }] }), (9, { d1 := 0x05000000, enable := true, subs := [{ subid := 77, recNo := 0, unsettled := 5 }], walk := { mode := .stopped, subid := 77 } })] }, 1, 4, { subid := 4, recNo := 0, image := 0x10000, imglen := 512, digests := 1, digestQ := [none] }, [], by decide +kernel⟩,
    ⟨small, { up with rings := [(1, { enable := true, d1 := 0x04000600, subs := [{ subid := 4, recNo := 0, image := 0x10000, imglen := 512, unsettled := 3 }] }), (9, { d1 := 0x05000000, enable := true, subs := [{ subid := 77, recNo := 0, unsettled := 5 }], walk := { mode := .stopped, subid := 77 } })] }, 1, 5, by decide +kernel⟩,
    ⟨small, { up with rings := [(1, { enable := true, d1 := 0x04000600, subs := [{ subid := 4, recNo := 0, image := 0x10000, imglen := 512, unsettled := 3 }] }), (9, { d1 := 0x05000000, enable := true, subs := [{ subid := 77, recNo := 0, unsettled := 5 }], walk := { mode := .stopped, subid := 77 } })] }, 1, 5, by decide +kernel⟩⟩

theorem witness_PreemptionAndResume :
    (∃ (p : Params) (b : Block) (r : Nat) (qu : Bool) (pt : Point), mgtFree b ∧ r < 8192 ∧ (rng b r).enable = true ∧ (rng b r).pre = .run ∧ validPoint (rng b r).points = some pt ∧ inTurn p b {} (.preemptRequest r qu) ∧ NoneDue b) ∧
    (∃ (p : Params) (b : Block) (r : Nat) (qu : Bool), mgtFree b ∧ r < 8192 ∧ (rng b r).enable = true ∧ (rng b r).pre = .run ∧ validPoint (rng b r).points = none ∧ inTurn p b {} (.preemptRequest r qu) ∧ NoneDue b) ∧
    (∃ (p : Params) (b : Block) (r : Nat) (qu : Bool), mgtFree b ∧ r < 8192 ∧ ((rng b r).enable = false ∨ (rng b r).pre ≠ .run) ∧ inTurn p b {} (.preemptRequest r qu) ∧ NoneDue b) ∧
    (∃ (p : Params) (b : Block) (r : Nat), mgtFree b ∧ r < 8192 ∧ (rng b r).pre = .held ∧ inTurn p b {} (.preemptResume r) ∧ NoneDue b) ∧
    (∃ (p : Params) (b : Block) (r : Nat), mgtFree b ∧ r < 8192 ∧ (rng b r).pre = .pending ∧ inTurn p b {} (.preemptResume r) ∧ NoneDue b) ∧
    (∃ (p : Params) (b : Block) (r : Nat), mgtFree b ∧ r < 8192 ∧ (rng b r).pre = .run ∧ inTurn p b {} (.preemptResume r) ∧ NoneDue b) ∧
    (∃ (p : Params) (b : Block) (x : PReq) (r : Nat), keeperUp b ∧ bitAt (rd p b (kA 5 0x068)) 0 = true ∧ (waitingOrder b).filter (fun y => lcWaiting y && decide (y.lcAt + lcWait p b ≤ b.clk.fclk)) = [x] ∧ victim p b x = some r ∧ validPoint (rng b r).points = none ∧ inTurn p b {} .autoPreemptTrigger ∧ NoneDue b) ∧
    (∃ (p : Params) (b : Block), keeperUp b ∧ bitAt (rd p b (kA 5 0x068)) 0 = false ∧ inTurn p b {} .autoPreemptTrigger ∧ NoneDue b) ∧
    (∃ (p : Params) (b : Block) (r : Nat) (l : List Nat), keeperUp b ∧ b.resumeQ = r :: l ∧ bitAt (rd p b (kA 5 0x068)) 1 = true ∧ (∀ x ∈ b.place.reqs, lcWaiting x = false) ∧ b.lcIdleAt + rdf p b (kA 5 0x06C) 16 16 ≤ b.clk.fclk ∧ (rng b r).pre = .held ∧ inTurn p b {} .autoResume ∧ NoneDue b) ∧
    (∃ (p : Params) (b : Block) (w r lo hi h : Nat), wardUp p b w ∧ xfind b (isDiscard w r) = some (.discard w r lo hi) ∧ discardSet b w r lo hi = [h] ∧ (ent b h).st = .running ∧ inTurn p b {} (.discardNotice w r) ∧ NoneDue b) ∧
    (∃ (p : Params) (b : Block) (w r lo hi h : Nat), wardUp p b w ∧ xfind b (isDiscard w r) = some (.discard w r lo hi) ∧ discardSet b w r lo hi = [h] ∧ (ent b h).st = .pending ∧ (ent b h).d.cq = none ∧ inTurn p b {} (.discardNotice w r) ∧ NoneDue b) := by
  exact ⟨⟨small, { up with rings := [(1, { enable := true, d1 := 0x04000600, subs := [{ subid := 4, recNo := 0, image := 0x10000, imglen := 512, unsettled := 3 }], walk := { mode := .records, subid := 4, off := 160, seg := some ⟨0, false, 256, 0xFFFFFFFF, 0, []⟩ }, interval := 6, points := [{ off := 128, subid := 8, iters := [], seg := some ⟨0, false, 256, 0xFFFFFFFF, 0, []⟩, step := 5, before := 2, interval := 3, isStep := false, hasYield := true, stepNo := none, clean := false }, { off := 96, subid := 4, iters := [], seg := some ⟨0, false, 256, 0xFFFFFFFF, 0, []⟩, step := 5, before := 2, interval := 3, isStep := false, hasYield := true, stepNo := none }] }), (9, { d1 := 0x05000000, enable := true, subs := [{ subid := 77, recNo := 0, unsettled := 5 }], walk := { mode := .stopped, subid := 77 } })] }, 1, true, { off := 96, subid := 4, iters := [], seg := some ⟨0, false, 256, 0xFFFFFFFF, 0, []⟩, step := 5, before := 2, interval := 3, isStep := false, hasYield := true, stepNo := none }, by decide +kernel⟩,
    ⟨small, { up with rings := [(1, { enable := true, d1 := 0x04000600, subs := [{ subid := 4, recNo := 0, image := 0x10000, imglen := 512, unsettled := 3 }], walk := { mode := .records, subid := 4, off := 160, seg := some ⟨0, false, 256, 0xFFFFFFFF, 0, []⟩ }, interval := 6, points := [{ off := 96, subid := 4, iters := [], seg := some ⟨0, false, 256, 0xFFFFFFFF, 0, []⟩, step := 5, before := 2, interval := 3, isStep := false, hasYield := true, stepNo := none, started := true }] }), (9, { d1 := 0x05000000, enable := true, subs := [{ subid := 77, recNo := 0, unsettled := 5 }], walk := { mode := .stopped, subid := 77 } })] }, 1, true, by decide +kernel⟩,
    ⟨small, { up with rings := [(1, { enable := true, d1 := 0x04000600, subs := [{ subid := 4, recNo := 0, image := 0x10000, imglen := 512, unsettled := 3 }], walk := { mode := .records, subid := 4, off := 160, seg := some ⟨0, false, 256, 0xFFFFFFFF, 0, []⟩ }, interval := 6, pre := .held }), (9, { d1 := 0x05000000, enable := true, subs := [{ subid := 77, recNo := 0, unsettled := 5 }], walk := { mode := .stopped, subid := 77 } })] }, 1, true, by decide +kernel⟩,
    ⟨small, { up with rings := [(1, { enable := true, d1 := 0x04000600, subs := [{ subid := 4, recNo := 0, image := 0x10000, imglen := 512, unsettled := 3 }], walk := { mode := .records, subid := 4, off := 160, seg := some ⟨0, false, 256, 0xFFFFFFFF, 0, []⟩ }, interval := 6, pre := .held }), (9, { d1 := 0x05000000, enable := true, subs := [{ subid := 77, recNo := 0, unsettled := 5 }], walk := { mode := .stopped, subid := 77 } })], resumeQ := [1, 9] }, 1, by decide +kernel⟩,
    ⟨small, { up with rings := [(1, { enable := true, d1 := 0x04000600, subs := [{ subid := 4, recNo := 0, image := 0x10000, imglen := 512, unsettled := 3 }], walk := { mode := .records, subid := 4, off := 160, seg := some ⟨0, false, 256, 0xFFFFFFFF, 0, []⟩ }, interval := 6, pre := .pending }), (9, { d1 := 0x05000000, enable := true, subs := [{ subid := 77, recNo := 0, unsettled := 5 }], walk := { mode := .stopped, subid := 77 } })] }, 1, by decide +kernel⟩,
    ⟨small, { up with rings := [(1, { enable := true, d1 := 0x04000600, subs := [{ subid := 4, recNo := 0, image := 0x10000, imglen := 512, unsettled := 3 }], walk := { mode := .records, subid := 4, off := 160, seg := some ⟨0, false, 256, 0xFFFFFFFF, 0, []⟩ }, interval := 6, pre := .run }), (9, { d1 := 0x05000000, enable := true, subs := [{ subid := 77, recNo := 0, unsettled := 5 }], walk := { mode := .stopped, subid := 77 } })] }, 1, by decide +kernel⟩,
    ⟨small, (wr small (kA 5 0x068) 1 { up with rings := [(1, { enable := true, d1 := 0x04002600, subs := [{ subid := 4, recNo := 0, image := 0x10000, imglen := 512, unsettled := 3 }], walk := { mode := .records, subid := 4, off := 160, seg := some ⟨0, false, 256, 0xFFFFFFFF, 0, []⟩ }, interval := 6, points := [] }), (9, { d1 := 0x05000000, enable := true, subs := [{ subid := 77, recNo := 0, unsettled := 5 }], walk := { mode := .stopped, subid := 77 } })], pcls := [(3, { work := { ranks := [(0, { v := true, ward := 1, mask := 2 })] } })], ports := [(9, { online := true })], ents := [(11, { st := .ready, d := { pclass := 3, tenant := 6 } }), (12, { st := .placed, port := some 9, d := { ring := 1, tenant := 4 } })], tens := [(4, { en := true, preemptible := true })], place := { reqs := [⟨11, 3, 0, false, 7, some 1000, 1000⟩] } }), ⟨11, 3, 0, false, 7, some 1000, 1000⟩, 1, by decide +kernel⟩,
    ⟨small, up, by decide +kernel⟩,
    ⟨small, (wr small (kA 5 0x068) 3 { up with rings := [(1, { enable := true, d1 := 0x04000600, subs := [{ subid := 4, recNo := 0, image := 0x10000, imglen := 512, unsettled := 3 }], walk := { mode := .records, subid := 4, off := 160, seg := some ⟨0, false, 256, 0xFFFFFFFF, 0, []⟩ }, interval := 6, pre := .held }), (9, { d1 := 0x05000000, enable := true, subs := [{ subid := 77, recNo := 0, unsettled := 5 }], walk := { mode := .stopped, subid := 77 } })], resumeQ := [1, 9] }), 1, [9], by decide +kernel⟩,
    ⟨small, { up with ents := [(10, { st := .running, gen := 3, isSealed := true, d := { ring := 1, subid := 4, interval := 4 } }), (11, { st := .running, gen := 3, isSealed := true, d := { ring := 1, subid := 4, interval := 9 } })], xbar := [.portFree 15, .discard 0 1 2 6] }, 0, 1, 2, 6, 10, by decide +kernel⟩,
    ⟨small, { up with ents := [(10, { st := .pending, gen := 3, isSealed := true, d := { ring := 1, subid := 4, interval := 4 } }), (11, { st := .pending, gen := 3, isSealed := true, d := { ring := 1, subid := 4, interval := 9 } })], xbar := [.portFree 15, .discard 0 1 2 6] }, 0, 1, 2, 6, 10, by decide +kernel⟩⟩

theorem witness_MessagesArrive :
    (∃ (p : Params) (b : Block) (key : ChKey) (n : Nat) (m : Msg) (c : Chan), keeperUp b ∧ key.inst = none ∧ xfind b (isMsg key m.seqNo) = some (.msg m) ∧ getChan b key = some c ∧ c.rx = .port n ∧ m.hop = none ∧ portOutcome b n c c.rxClosed (c.rxBroken || (prt b n).inReset) true m = 0 ∧ inTurn p b {} (.messageArrival key m.seqNo none) ∧ NoneDue b) ∧
    (∃ (p : Params) (b : Block) (key : ChKey) (n : Nat) (m : Msg) (c : Chan), keeperUp b ∧ key.inst = none ∧ xfind b (isMsg key m.seqNo) = some (.msg m) ∧ getChan b key = some c ∧ c.rx = .port n ∧ c.rxClosed = true ∧ inTurn p b {} (.messageArrival key m.seqNo none) ∧ NoneDue b) ∧
    (∃ (p : Params) (b : Block) (key : ChKey) (w k : Nat) (m : Msg) (c : Chan), keeperUp b ∧ key.inst = none ∧ xfind b (isMsg key m.seqNo) = some (.msg m) ∧ getChan b key = some c ∧ c.rx = .queue w k ∧ queueOutcome (mqu b w k) c m = 0 ∧ mqReader p w (mqu b w k) = none ∧ inTurn p b {} (.messageArrival key m.seqNo none) ∧ NoneDue b) := by
  exact ⟨⟨small, { up with chans := [(99, some { tenant := 4, dir := 1, tx := .port 9, rx := .port 3, owner := .sub 1 2 }), (5, some { tenant := 4, dir := 1, tx := .port 9, rx := .port 3, owner := .sub 1 2, eseq := 4, nseq := 8 })], ports := [(3, { online := true, credit := 9 }), (9, { online := true, credit := 5 })], xbar := [.portFree 15, .msg ⟨⟨none, 5⟩, 4, false, 9, [1, 2], [0, 0], none, 0⟩] }, ⟨none, 5⟩, 3, ⟨⟨none, 5⟩, 4, false, 9, [1, 2], [0, 0], none, 0⟩, { tenant := 4, dir := 1, tx := .port 9, rx := .port 3, owner := .sub 1 2, eseq := 4, nseq := 8 }, by decide +kernel⟩,
    ⟨small, { up with chans := [(99, some { tenant := 4, dir := 1, tx := .port 9, rx := .port 3, owner := .sub 1 2 }), (5, some { tenant := 4, dir := 1, tx := .port 9, rx := .port 3, owner := .sub 1 2, rxClosed := true, eseq := 4 })], ports := [(3, { online := true, credit := 9 }), (9, { online := true, credit := 5 })], xbar := [.portFree 15, .msg ⟨⟨none, 5⟩, 4, false, 9, [1, 2], [0, 0], none, 0⟩] }, ⟨none, 5⟩, 3, ⟨⟨none, 5⟩, 4, false, 9, [1, 2], [0, 0], none, 0⟩, { tenant := 4, dir := 1, tx := .port 9, rx := .port 3, owner := .sub 1 2, rxClosed := true, eseq := 4 }, by decide +kernel⟩,
    ⟨small, { up with chans := [(99, some { tenant := 4, dir := 1, tx := .port 9, rx := .port 3, owner := .sub 1 2 }), (5, some { tenant := 4, dir := 1, tx := .port 9, rx := .queue 1 3, owner := .sub 1 2, eseq := 4 })], ports := [(3, { online := true, credit := 9 }), (9, { online := true, credit := 5 })], mq := [(67, { en := true, size := 8, tenant := 4 }), (73, { en := true, size := 1 })], xbar := [.portFree 15, .msg ⟨⟨none, 5⟩, 4, false, 9, [1, 2], [0, 0], none, 0⟩] }, ⟨none, 5⟩, 1, 3, ⟨⟨none, 5⟩, 4, false, 9, [1, 2], [0, 0], none, 0⟩, { tenant := 4, dir := 1, tx := .port 9, rx := .queue 1 3, owner := .sub 1 2, eseq := 4 }, by decide +kernel⟩⟩

theorem witness_MessageOutcomes :
    (∃ (p : Params) (b : Block) (n : Nat) (k : ChKey) (s : BitVec 16) (z : Option Nat) (c : Chan), keeperUp b ∧ wardUp p b (portWard p n) ∧ k.inst = none ∧ xfind b (isAnswer b n) = some (.ack k s z) ∧ getChan b k = some c ∧ (prt b n).inReset = false ∧ inTurn p b {} (.answerReturn n none) ∧ NoneDue b) ∧
    (∃ (p : Params) (b : Block) (n k : Nat) (beat : BitVec 512), keeperUp b ∧ wardUp p b (portWard p n) ∧ xfind b (isAnswer b n) = some (.answer k beat) ∧ fld beat 24 8 ≠ 2 ∧ (prt b n).inReset = false ∧ inTurn p b {} (.answerReturn n none) ∧ NoneDue b) ∧
    (∃ (p : Params) (b : Block) (k : ChKey) (s : BitVec 16) (st : Status) (z : Option Nat) (c : Chan) (n : Nat), keeperUp b ∧ k.inst = none ∧ (xfind b (fun x => match x with
        | .nack i u _ _ => decide (i = k) && decide (u = s)
        | _ => false) = some (.nack k s st z)) ∧ getChan b k = some c ∧ txPortOf c = some n ∧ isRelay c = false ∧ (prt b n).inReset = false ∧ c.noticed = true ∧ st = 0x07 ∧ inTurn p b {} (.nackReturn k s none) ∧ NoneDue b) ∧
    (∃ (p : Params) (b : Block) (ch : Nat) (n : Storm) (l : List Nat), keeperUp b ∧ (xfind b (fun x => match x with
        | .storm k => decide (k.ch = ch)
        | _ => false) = some (.storm n)) ∧ b.storms.length < 64 ∧ stormPath b.storms n.sport 17 n.rport = some l ∧ inTurn p b {} (.stormNotice ch) ∧ NoneDue b) ∧
    (∃ (p : Params) (b : Block) (ch : Nat) (n : Storm), keeperUp b ∧ (xfind b (fun x => match x with
        | .storm k => decide (k.ch = ch)
        | _ => false) = some (.storm n)) ∧ b.storms.length < 64 ∧ stormPath b.storms n.sport 17 n.rport = none ∧ inTurn p b {} (.stormNotice ch) ∧ NoneDue b) := by
  exact ⟨⟨small, { up with chans := [(99, some { tenant := 4, dir := 1, tx := .port 9, rx := .port 3, owner := .sub 1 2 }), (5, some { tenant := 4, dir := 1, tx := .port 9, rx := .port 3, owner := .sub 1 2, sent := [(3, 7), (4, 8)], relay := none, retry := 2, noticed := true })], ports := [(3, { online := true, credit := 9 }), (9, { online := true, credit := 5 })], xbar := [.portFree 15, .ack ⟨none, 5⟩ 4 (some 0)] }, 9, ⟨none, 5⟩, 4, (some 0), { tenant := 4, dir := 1, tx := .port 9, rx := .port 3, owner := .sub 1 2, sent := [(3, 7), (4, 8)], relay := none, retry := 2, noticed := true }, by decide +kernel⟩,
    ⟨small, { up with chans := [(99, some { tenant := 4, dir := 1, tx := .port 9, rx := .port 3, owner := .sub 1 2 }), (5, some { tenant := 4, dir := 1, tx := .port 9, rx := .port 3, owner := .sub 1 2, sent := [(3, 7), (4, 8)], relay := none, retry := 2, noticed := true })], ports := [(3, { online := true, credit := 9 }), (9, { online := true, credit := 5 })], xbar := [.portFree 15, .answer 9 0x300004d] }, 9, 9, 0x300004d, by decide +kernel⟩,
    ⟨small, { up with chans := [(99, some { tenant := 4, dir := 1, tx := .port 9, rx := .port 3, owner := .sub 1 2 }), (5, some { tenant := 4, dir := 1, tx := .port 9, rx := .port 3, owner := .sub 1 2, sent := [(3, 7), (4, 8)], relay := none, retry := 2, noticed := true })], ports := [(3, { online := true, credit := 9 }), (9, { online := true, credit := 5 })], xbar := [.portFree 15, .nack ⟨none, 5⟩ 4 7 (some 0)] }, ⟨none, 5⟩, 4, 7, (some 0), { tenant := 4, dir := 1, tx := .port 9, rx := .port 3, owner := .sub 1 2, sent := [(3, 7), (4, 8)], relay := none, retry := 2, noticed := true }, 9, by decide +kernel⟩,
    ⟨small, { up with chans := [(99, some { tenant := 4, dir := 1, tx := .port 9, rx := .port 3, owner := .sub 1 2 }), (5, some { tenant := 4, dir := 1, tx := .port 9, rx := .port 3, owner := .sub 1 2, sent := [(3, 7), (4, 8)], relay := none, retry := 2, noticed := true })], xbar := [.storm ⟨4000, 7, 15⟩], storms := [⟨99, 15, 7⟩] }, 4000, ⟨4000, 7, 15⟩, [99], by decide +kernel⟩,
    ⟨small, { up with chans := [(99, some { tenant := 4, dir := 1, tx := .port 9, rx := .port 3, owner := .sub 1 2 }), (5, some { tenant := 4, dir := 1, tx := .port 9, rx := .port 3, owner := .sub 1 2, sent := [(3, 7), (4, 8)], relay := none, retry := 2, noticed := true })], xbar := [.storm ⟨4000, 7, 15⟩], storms := [⟨99, 15, 6⟩] }, 4000, ⟨4000, 7, 15⟩, by decide +kernel⟩⟩

theorem witness_ChannelLife :
    (∃ (p : Params) (b : Block) (c : Chan) (n : Nat) (tag : BitVec 16) (n2 : List Nat) (id : Nat), keeperUp b ∧ xfind b isAlloc = some (.chAlloc c n tag n2) ∧ freeCh b = some id ∧ farEndp c.rx = false ∧ taskEndp c.tx = false ∧ taskEndp c.rx = false ∧ inTurn p b {} .channelAllocate ∧ NoneDue b) ∧
    (∃ (p : Params) (b : Block) (c : Chan) (n : Nat) (tag : BitVec 16) (n2 : List Nat), keeperUp b ∧ xfind b isAlloc = some (.chAlloc c n tag n2) ∧ freeCh b = none ∧ inTurn p b {} .channelAllocate ∧ NoneDue b) ∧
    (∃ (p : Params) (b : Block) (k : ChKey) (n z : Nat) (c : Chan), keeperUp b ∧ k.inst = none ∧ (xfind b (fun x => match x with
        | .bind i _ _ _ => decide (i = k)
        | _ => false) = some (.bind k false (some n) z)) ∧ getChan b k = some c ∧ inTurn p b {} (.bindNotice k) ∧ NoneDue b) ∧
    (∃ (p : Params) (b : Block) (k : ChKey) (c : Chan) (x : XItem), keeperUp b ∧ k.inst = none ∧ xfind b (isClose k .directory) = some x ∧ getChan b k = some c ∧ farEndp c.rx = false ∧ inTurn p b {} (.channelCloseApply k .directory) ∧ NoneDue b) ∧
    (∃ (p : Params) (b : Block) (k : ChKey) (c : Chan) (x : XItem), keeperUp b ∧ k.inst = none ∧ xfind b (isClose k .tx) = some x ∧ getChan b k = some c ∧ c.rxClosed = true ∧ c.freeAt = none ∧ inTurn p b {} (.channelCloseApply k .tx) ∧ NoneDue b) ∧
    (∃ (p : Params) (b : Block) (k : ChKey) (c : Chan) (x : XItem) (n : Nat), keeperUp b ∧ k.inst = none ∧ xfind b (isClose k .rx) = some x ∧ getChan b k = some c ∧ c.rx = .port n ∧ c.closedBeat = false ∧ (prt b n).inReset = false ∧ b.watch = [] ∧ inTurn p b {} (.channelCloseApply k .rx) ∧ NoneDue b) ∧
    (∃ (p : Params) (b : Block) (ch : Nat) (c : Chan) (t : Nat), keeperUp b ∧ chn b ch = some c ∧ c.freeAt = some t ∧ t ≤ b.clk.fclk ∧ inTurn p b {} (.channelIdFree ch) ∧ NoneDue b) := by
  exact ⟨⟨small, { up with chans := [(99, some { tenant := 4, dir := 1, tx := .port 9, rx := .port 3, owner := .sub 1 2 }), (5, some { tenant := 4, dir := 1, tx := .port 9, rx := .port 3, owner := .sub 1 2, sent := [(3, 7), (4, 8)], relay := none, retry := 2, noticed := true })], xbar := [.portFree 15, .chAlloc { tenant := 4, dir := 1, tx := .port 9, rx := .port 3, owner := .sub 1 2 } 9 77 []] }, { tenant := 4, dir := 1, tx := .port 9, rx := .port 3, owner := .sub 1 2 }, 9, 77, [], 0, by decide +kernel⟩,
    ⟨small, { up with chans := (List.range 16384).map (fun i => (i, some { tenant := 4, dir := 1, tx := .port 9, rx := .port 3, owner := .sub 1 2 })), xbar := [.portFree 15, .chAlloc { tenant := 4, dir := 1, tx := .port 9, rx := .port 3, owner := .sub 1 2 } 9 77 []] }, { tenant := 4, dir := 1, tx := .port 9, rx := .port 3, owner := .sub 1 2 }, 9, 77, [], by decide +kernel, rfl, no_free _ _, by decide +kernel, by decide +kernel⟩,
    ⟨small, { up with chans := [(99, some { tenant := 4, dir := 1, tx := .port 9, rx := .port 3, owner := .sub 1 2 }), (5, some { tenant := 4, dir := 1, tx := .port 9, rx := .port 3, owner := .sub 1 2, sent := [(3, 7), (4, 8)], relay := none, retry := 2, noticed := true })], xbar := [.portFree 15, .bind ⟨none, 5⟩ false (some 8) 0] }, ⟨none, 5⟩, 8, 0, { tenant := 4, dir := 1, tx := .port 9, rx := .port 3, owner := .sub 1 2, sent := [(3, 7), (4, 8)], relay := none, retry := 2, noticed := true }, by decide +kernel⟩,
    ⟨small, { up with chans := [(99, some { tenant := 4, dir := 1, tx := .port 9, rx := .port 3, owner := .sub 1 2 }), (5, some { tenant := 4, dir := 1, tx := .port 9, rx := .port 3, owner := .sub 1 2, sent := [(3, 7), (4, 8)], relay := none, retry := 2, noticed := true })], xbar := [.portFree 15, .close ⟨none, 5⟩ .directory (some 1)] }, ⟨none, 5⟩, { tenant := 4, dir := 1, tx := .port 9, rx := .port 3, owner := .sub 1 2, sent := [(3, 7), (4, 8)], relay := none, retry := 2, noticed := true }, (.close ⟨none, 5⟩ .directory (some 1)), by decide +kernel⟩,
    ⟨small, { up with chans := [(99, some { tenant := 4, dir := 1, tx := .port 9, rx := .port 3, owner := .sub 1 2 }), (5, some { tenant := 4, dir := 1, tx := .port 9, rx := .port 3, owner := .sub 1 2, rxClosed := true })], xbar := [.portFree 15, .close ⟨none, 5⟩ .tx none] }, ⟨none, 5⟩, { tenant := 4, dir := 1, tx := .port 9, rx := .port 3, owner := .sub 1 2, rxClosed := true }, (.close ⟨none, 5⟩ .tx none), by decide +kernel⟩,
    ⟨small, { up with chans := [(99, some { tenant := 4, dir := 1, tx := .port 9, rx := .port 3, owner := .sub 1 2 }), (5, some { tenant := 4, dir := 1, tx := .port 9, rx := .port 3, owner := .sub 1 2, sent := [(3, 7), (4, 8)], relay := none, retry := 2, noticed := true })], ports := [(3, { online := true, credit := 9 }), (9, { online := true, credit := 5 })], watch := [], xbar := [.portFree 15, .close ⟨none, 5⟩ .rx (some 1)] }, ⟨none, 5⟩, { tenant := 4, dir := 1, tx := .port 9, rx := .port 3, owner := .sub 1 2, sent := [(3, 7), (4, 8)], relay := none, retry := 2, noticed := true }, (.close ⟨none, 5⟩ .rx (some 1)), 3, by decide +kernel⟩,
    ⟨small, { up with chans := [(99, some { tenant := 4, dir := 1, tx := .port 9, rx := .port 3, owner := .sub 1 2 }), (5, some { tenant := 4, dir := 1, tx := .port 9, rx := .port 3, owner := .sub 1 2, freeAt := some 5 })],  }, 5, { tenant := 4, dir := 1, tx := .port 9, rx := .port 3, owner := .sub 1 2, freeAt := some 5 }, 5, by decide +kernel⟩⟩

theorem witness_Combining :
    (∃ (p : Params) (b : Block) (id : BitVec 16) (n : Nat) (x : Machine.Part), wardUp p b (fld id 6 6) ∧ (xfind b (fun y => match y with
        | .part z => decide (z.qid = id) && decide (z.port = n)
        | _ => false) = some (.part x)) ∧ x.qid = id ∧ x.off ≠ 0 ∧ partCheck b (fld id 6 6) (cqu b (fld id 6 6) (fld id 0 6)) x = (0, 0) ∧ inTurn p b {} (.partArrival id (ownInst p b) n none) ∧ NoneDue b) ∧
    (∃ (p : Params) (b : Block) (id : BitVec 16) (n : Nat) (x : Machine.Part), wardUp p b (fld id 6 6) ∧ (xfind b (fun y => match y with
        | .part z => decide (z.qid = id) && decide (z.port = n)
        | _ => false) = some (.part x)) ∧ x.qid = id ∧ x.off = 0 ∧ partCheck b (fld id 6 6) (cqu b (fld id 6 6) (fld id 0 6)) x = (0, 0) ∧ inTurn p b {} (.partArrival id (ownInst p b) n none) ∧ NoneDue b) ∧
    (∃ (p : Params) (b : Block) (w : Nat) (x : Machine.Part) (l : List Machine.Part) (c : CQ), wardUp p b w ∧ Tbl.get [] b.cbParts w = x :: l ∧ x.final = true ∧ c = cqu b w (fld x.qid 0 6) ∧ inTurn p b {} (.partApply w) ∧ NoneDue b) ∧
    (∃ (p : Params) (b : Block) (w : Nat) (x : Machine.Part) (l : List Machine.Part) (c : CQ), wardUp p b w ∧ Tbl.get [] b.cbParts w = x :: l ∧ x.final = false ∧ c = cqu b w (fld x.qid 0 6) ∧ inTurn p b {} (.partApply w) ∧ NoneDue b) ∧
    (∃ (p : Params) (b : Block) (w k : Nat), wardUp p b w ∧ (cqu b w k).st = .draining ∧ cqLive b (cqu b w k) ∧ inTurn p b {} (.drainConvert w k) ∧ NoneDue b) ∧
    (∃ (p : Params) (b : Block) (w k : Nat), wardUp p b w ∧ (cqu b w k).wrOut ≠ 0 ∧ (cqu b w k).drained < (cqu b w k).len ∧ inTurn p b {} (.drainWriteResponse w k .okay) ∧ NoneDue b) ∧
    (∃ (p : Params) (b : Block) (w k : Nat), wardUp p b w ∧ (cqu b w k).st = .draining ∧ cqLive b (cqu b w k) ∧ (cqu b w k).drained = (cqu b w k).len ∧ (cqu b w k).wrOut = 1 ∧ (cqu b w k).wrErr = false ∧ (cqu b w k).outBuf = [] ∧ (cqu b w k).digestOut = false ∧ (cqu b w k).cancelLate = false ∧ (cqu b w k).eccErr = false ∧ (∀ x ∈ b.watch, x.kind ≠ 1) ∧ homeOf (cqu b w k).entry = w ∧ (ent b (cqu b w k).entry).d.mode = 0 ∧ inTurn p b {} (.drainWriteResponse w k .okay) ∧ NoneDue b) ∧
    (∃ (p : Params) (b : Block) (id : BitVec 16) (n : Nat) (word : Word32), wardUp p b (fld id 6 6) ∧ (xfind b (fun x => match x with
        | .tear k i m _ => decide (k = id) && decide (m = n) && decide (i = none)
        | _ => false) = some (.tear id none n word)) ∧ cqLive b (cqu b (fld id 6 6) (fld id 0 6)) = false ∧ inTurn p b {} (.tearNotice id (ownInst p b) n) ∧ NoneDue b) ∧
    (∃ (p : Params) (b : Block) (id : BitVec 16) (n : Nat) (word : Word32) (h : Nat), wardUp p b (fld id 6 6) ∧ (xfind b (fun x => match x with
        | .tear k i m _ => decide (k = id) && decide (m = n) && decide (i = none)
        | _ => false) = some (.tear id none n word)) ∧ cqLive b (cqu b (fld id 6 6) (fld id 0 6)) ∧ (cqu b (fld id 6 6) (fld id 0 6)).gen % 16 = fld id 12 4 ∧ (cqu b (fld id 6 6) (fld id 0 6)).failed = false ∧ (∃ o ∈ (cqu b (fld id 6 6) (fld id 0 6)).openC, o.inst = none ∧ o.port = n) ∧ h = (cqu b (fld id 6 6) (fld id 0 6)).entry ∧ inTurn p b {} (.tearNotice id (ownInst p b) n) ∧ NoneDue b) ∧
    (∃ (p : Params) (b : Block) (w k t : Nat), wardUp p b w ∧ (cqu b w k).st = .quarantine ∧ (cqu b w k).freedAt = some t ∧ t + 4096 ≤ b.clk.fclk ∧ inTurn p b {} (.queueNumberFree w k) ∧ NoneDue b) ∧
    (∃ (p : Params) (b : Block) (w k t : Nat), wardUp p b w ∧ (cqu b w k).st = .quarantine ∧ (cqu b w k).freedAt = some t ∧ b.clk.fclk < t + 4096 ∧ inTurn p b {} (.queueNumberFree w k) ∧ NoneDue b) := by
  exact ⟨⟨small, { up with ents := [(2051, { st := .running, isSealed := true, d := { tenant := 4, cq := some 3 } }), (2000, decoyEnt)], cq := [(67, { st := .opened, gen := 1, tenant := 4, len := 16, n := 3, entry := 2051, oper := 0, ofmt := 0, ifmt := 0, admits := 1, openC := [⟨none, 9, 8, 0x81800014⟩] }), (72, { st := .opened, len := 8, n := 2, entry := 2000 })], xbar := [.portFree 15, .part ⟨0x1043, none, 9, 77, 4, 0x81800014, 8, 4, false, [1], 0⟩] }, 0x1043, 9, ⟨0x1043, none, 9, 77, 4, 0x81800014, 8, 4, false, [1], 0⟩, by decide +kernel⟩,
    ⟨small, { up with ents := [(2051, { st := .running, isSealed := true, d := { tenant := 4, cq := some 3 } }), (2000, decoyEnt)], cq := [(67, { st := .opened, gen := 1, tenant := 4, len := 16, n := 3, entry := 2051, oper := 0, ofmt := 0, ifmt := 0, admits := 1, openC := [] }), (72, { st := .opened, len := 8, n := 2, entry := 2000 })], xbar := [.portFree 15, .part ⟨0x1043, none, 9, 77, 4, 0x81800014, 0, 4, false, [1], 0⟩] }, 0x1043, 9, ⟨0x1043, none, 9, 77, 4, 0x81800014, 0, 4, false, [1], 0⟩, by decide +kernel⟩,
    ⟨small, { up with ents := [(2051, { st := .running, isSealed := true, d := { tenant := 4, cq := some 3 } }), (2000, decoyEnt)], cq := [(67, { st := .opened, gen := 1, tenant := 4, len := 16, n := 3, entry := 2051, oper := 0, ofmt := 0, ifmt := 0, admits := 1, openC := [⟨none, 9, 8, 0x81800014⟩] }), (72, { st := .opened, len := 8, n := 2, entry := 2000 })], cbParts := [(1, [⟨0x1043, none, 9, 77, 4, 0x81800014, 8, 8, true, [1], 0⟩, ⟨0x1043, none, 9, 77, 4, 0x81800014, 0, 4, false, [1], 0⟩])] }, 1, ⟨0x1043, none, 9, 77, 4, 0x81800014, 8, 8, true, [1], 0⟩, [⟨0x1043, none, 9, 77, 4, 0x81800014, 0, 4, false, [1], 0⟩], { st := .opened, gen := 1, tenant := 4, len := 16, n := 3, entry := 2051, oper := 0, ofmt := 0, ifmt := 0, admits := 1, openC := [⟨none, 9, 8, 0x81800014⟩] }, by decide +kernel⟩,
    ⟨small, { up with ents := [(2051, { st := .running, isSealed := true, d := { tenant := 4, cq := some 3 } }), (2000, decoyEnt)], cq := [(67, { st := .opened, gen := 1, tenant := 4, len := 16, n := 3, entry := 2051, oper := 0, ofmt := 0, ifmt := 0, admits := 1, openC := [⟨none, 9, 8, 0x81800014⟩] }), (72, { st := .opened, len := 8, n := 2, entry := 2000 })], cbParts := [(1, [⟨0x1043, none, 9, 77, 4, 0x81800014, 8, 4, false, [1], 0⟩, ⟨0x1043, none, 9, 77, 4, 0x81800014, 0, 4, false, [1], 0⟩])] }, 1, ⟨0x1043, none, 9, 77, 4, 0x81800014, 8, 4, false, [1], 0⟩, [⟨0x1043, none, 9, 77, 4, 0x81800014, 0, 4, false, [1], 0⟩], { st := .opened, gen := 1, tenant := 4, len := 16, n := 3, entry := 2051, oper := 0, ofmt := 0, ifmt := 0, admits := 1, openC := [⟨none, 9, 8, 0x81800014⟩] }, by decide +kernel⟩,
    ⟨small, { up with ents := [(2051, { st := .running, isSealed := true, d := { tenant := 4, cq := some 3 } }), (2000, decoyEnt)], cq := [(67, { st := .draining, gen := 1, tenant := 4, len := 16, n := 3, entry := 2051, oper := 0, ofmt := 0, ifmt := 0, drained := 0 }), (72, { st := .opened, len := 8, n := 2, entry := 2000 })] }, 1, 3, by decide +kernel⟩,
    ⟨small, { up with ents := [(2051, { st := .running, isSealed := true, d := { tenant := 4, cq := some 3 } }), (2000, decoyEnt)], cq := [(67, { st := .draining, gen := 1, tenant := 4, len := 16, n := 3, entry := 2051, oper := 0, ofmt := 0, ifmt := 0, drained := 8, wrOut := 2 }), (72, { st := .opened, len := 8, n := 2, entry := 2000 })] }, 1, 3, by decide +kernel⟩,
    ⟨small, { up with ents := [(2051, { st := .running, isSealed := true, d := { tenant := 4, cq := some 3 } }), (2000, decoyEnt)], cq := [(67, { st := .draining, gen := 1, tenant := 4, len := 16, n := 3, entry := 2051, oper := 0, ofmt := 0, ifmt := 0, drained := 16, wrOut := 1 }), (72, { st := .opened, len := 8, n := 2, entry := 2000 })], watch := [] }, 1, 3, by decide +kernel⟩,
    ⟨small, { up with ents := [(2051, { st := .running, isSealed := true, d := { tenant := 4, cq := some 3 } }), (2000, decoyEnt)], cq := [(67, { st := .quarantine, gen := 1, tenant := 4, len := 16, n := 3, entry := 2051, oper := 0, ofmt := 0, ifmt := 0, drained := 8 }), (72, { st := .opened, len := 8, n := 2, entry := 2000 })], xbar := [.portFree 15, .tear 0x1043 none 9 0x81800014] }, 0x1043, 9, 0x81800014, by decide +kernel⟩,
    ⟨small, { up with ents := [(2051, { st := .running, isSealed := true, d := { tenant := 4, cq := some 3 } }), (2000, decoyEnt)], cq := [(67, { st := .opened, gen := 1, tenant := 4, len := 16, n := 3, entry := 2051, oper := 0, ofmt := 0, ifmt := 0, openC := [⟨none, 9, 8, 0x81800014⟩] }), (72, { st := .opened, len := 8, n := 2, entry := 2000 })], xbar := [.portFree 15, .tear 0x1043 none 9 0x81800014] }, 0x1043, 9, 0x81800014, 2051, by decide +kernel⟩,
    ⟨small, { up with ents := [(2051, { st := .running, isSealed := true, d := { tenant := 4, cq := some 3 } }), (2000, decoyEnt)], cq := [(67, { st := .quarantine, gen := 1, tenant := 4, len := 16, n := 3, entry := 2051, oper := 0, ofmt := 0, ifmt := 0, freedAt := some 5 }), (72, { st := .opened, len := 8, n := 2, entry := 2000 })] }, 1, 3, 5, by decide +kernel⟩,
    ⟨small, { up with ents := [(2051, { st := .running, isSealed := true, d := { tenant := 4, cq := some 3 } }), (2000, decoyEnt)], cq := [(67, { st := .quarantine, gen := 1, tenant := 4, len := 16, n := 3, entry := 2051, oper := 0, ofmt := 0, ifmt := 0, freedAt := some 2999999 }), (72, { st := .opened, len := 8, n := 2, entry := 2000 })] }, 1, 3, 2999999, by decide +kernel⟩⟩

theorem witness_SignalsAndWaits :
    (∃ (p : Params) (b : Block) (h : Nat) (inc : Word32) (r : Nat) (sid st : BitVec 32) (x t : Nat), keeperUp b ∧ (xfind b (fun y => match y with
        | .sig i v c => decide (i = h) && decide (v = inc) && decide (c = .settle r sid st x)
        | _ => false) = some (.sig h inc (.settle r sid st x))) ∧ sigTenant (.settle r sid st x) = some t ∧ haspCheck b h t = 0 ∧ (hsp b h).count.toNat + inc.toNat < 2 ^ 32 ∧ inTurn p b {} (.signal h inc (.settle r sid st x)) ∧ NoneDue b) ∧
    (∃ (p : Params) (b : Block) (h : Nat) (inc : Word32) (r : Nat) (sid st : BitVec 32) (x t : Nat), keeperUp b ∧ (xfind b (fun y => match y with
        | .sig i v c => decide (i = h) && decide (v = inc) && decide (c = .settle r sid st x)
        | _ => false) = some (.sig h inc (.settle r sid st x))) ∧ sigTenant (.settle r sid st x) = some t ∧ haspCheck b h t = 0 ∧ 2 ^ 32 ≤ (hsp b h).count.toNat + inc.toNat ∧ inTurn p b {} (.signal h inc (.settle r sid st x)) ∧ NoneDue b) ∧
    (∃ (p : Params) (b : Block) (n : Nat) (x : IqEnt) (k : TaskWait), portUp p b n ∧ waitDue b (prt b n) = some (x, k) ∧ otherInst p b k.inst.isSome (k.inst.getD 0) = none ∧ selfBlock b (prt b n) x k = none ∧ inTurn p b {} (.waitRegistration n) ∧ NoneDue b) ∧
    (∃ (p : Params) (b : Block) (x : HWait) (n : Nat) (k : PortWait), keeperUp b ∧ b.waits = [x] ∧ x.target ≤ (hsp b x.hasp).count ∧ x.who = .port n ∧ (prt b n).wait = some k ∧ inTurn p b {} .waitRelease ∧ NoneDue b) ∧
    (∃ (p : Params) (b : Block) (x : HWait) (r : Nat), keeperUp b ∧ b.waits = [x] ∧ x.target ≤ (hsp b x.hasp).count ∧ x.who = .ring r ∧ (rng b r).walk.mode = .waitHasp ∧ Inside b r ∧ inTurn p b {} .waitRelease ∧ NoneDue b) ∧
    (∃ (p : Params) (b : Block), keeperUp b ∧ (∀ x ∈ b.waits, x.sel = false ∧ (hsp b x.hasp).count < x.target) ∧ inTurn p b {} .waitRelease ∧ NoneDue b) ∧
    (∃ (p : Params) (b : Block) (n h g : Nat) (k : PortWait), wardUp p b (portWard p n) ∧ (xfind b (fun x => match x with
        | .rel m _ _ => decide (m = n)
        | _ => false) = some (.rel n h g)) ∧ (prt b n).wait = some k ∧ k.handle = h ∧ k.gen = g ∧ k.released = false ∧ inTurn p b {} (.taskFormRelease n) ∧ NoneDue b) ∧
    (∃ (p : Params) (b : Block) (n h g : Nat), wardUp p b (portWard p n) ∧ (xfind b (fun x => match x with
        | .rel m _ _ => decide (m = n)
        | _ => false) = some (.rel n h g)) ∧ (prt b n).wait = none ∧ inTurn p b {} (.taskFormRelease n) ∧ NoneDue b) ∧
    (∃ (p : Params) (b : Block) (v : BitVec 32) (t : Nat), mgtFree b ∧ tabReady b 0 ∧ waitersOn b (haspSel p b) = [] ∧ inTurn p b {} (.haspAssign v) ∧ NoneDue b) ∧
    (∃ (p : Params) (b : Block), mgtFree b ∧ tabReady b 0 ∧ inTurn p b {} .haspForce ∧ NoneDue b) := by
  exact ⟨⟨small, { up with hasps := [(5, { v := true, tenant := 4, count := 9 }), (11, { v := true, count := 5, tenant := 5 })], xbar := [.portFree 15, .sig 5 6 (.settle 1 4 0x81800014 4)] }, 5, 6, 1, 4, 0x81800014, 4, 4, by decide +kernel⟩,
    ⟨small, { up with hasps := [(5, { v := true, tenant := 4, count := 0xFFFFFFFE }), (11, { v := true, count := 5, tenant := 5 })], xbar := [.portFree 15, .sig 5 6 (.settle 1 4 0x81800014 4)] }, 5, 6, 1, 4, 0x81800014, 4, 4, by decide +kernel⟩,
    ⟨small, { up with ents := [(10, { st := .preloaded, gen := 3, d := { wait := some ⟨5, none, 7⟩ } })], ports := [(9, { online := true, iq := [⟨10, 3, false, 5, true, false⟩] })] }, 9, ⟨10, 3, false, 5, true, false⟩, ⟨5, none, 7⟩, by decide +kernel⟩,
    ⟨small, { up with hasps := [(5, { v := true, tenant := 4, count := 9 }), (11, { v := true, count := 5, tenant := 5 })], ports := [(9, { online := true, wait := some ⟨10, 3, 5, none, 7, 99, false⟩ })], waits := [⟨.port 9, 5, 7, 3, false⟩] }, ⟨.port 9, 5, 7, 3, false⟩, 9, ⟨10, 3, 5, none, 7, 99, false⟩, by decide +kernel⟩,
    ⟨small, { up with hasps := [(5, { v := true, tenant := 4, count := 9 }), (11, { v := true, count := 5, tenant := 5 })], waits := [⟨.ring 1, 5, 7, 3, false⟩], rings := [(1, { enable := true, d1 := 0x04000600, walk := { mode := .waitHasp, subid := 4, off := 128, seg := some ⟨0, false, 256, 0xFFFFFFFF, 0, []⟩ }, hangTicks := 3 }), (9, { d1 := 0x05000000, enable := true, subs := [{ subid := 77, recNo := 0, unsettled := 5 }], walk := { mode := .stopped, subid := 77 } })] }, ⟨.ring 1, 5, 7, 3, false⟩, 1, by unfold Inside; decide +kernel⟩,
    ⟨small, { up with hasps := [(5, { v := true, tenant := 4, count := 6 }), (11, { v := true, count := 5, tenant := 5 })], waits := [⟨.ring 1, 5, 7, 3, false⟩] }, by decide +kernel⟩,
    ⟨small, { up with ports := [(9, { online := true, wait := some ⟨10, 3, 5, none, 7, 99, false⟩ })], xbar := [.portFree 15, .rel 9 10 3] }, 9, 10, 3, ⟨10, 3, 5, none, 7, 99, false⟩, by decide +kernel⟩,
    ⟨small, { up with ports := [(9, { online := true, credit := 3 })], xbar := [.portFree 15, .rel 9 10 3] }, 9, 10, 3, by decide +kernel⟩,
    ⟨small, up, 0x80000004, 4, by decide +kernel⟩,
    ⟨small, up, by decide +kernel⟩⟩

theorem witness_KeyPools :
    (∃ (p : Params) (b : Block) (n r k c t : Nat) (i : BitVec 16), wardUp p b (portWard p n) ∧ (xfind b (fun x => match x with
        | .keyReq u v _ _ _ _ => decide (u = n) && decide (v = r)
        | _ => false) = some (.keyReq n r k c t i)) ∧ (kpl b n k).en = true ∧ (kpl b n k).tenant = t ∧ c ≠ 0 ∧ c ≤ (kpl b n k).size ∧ keyWaits b r < 4 ∧ (kpl b n k).waiting = [] ∧ c ≤ (kpl b n k).free ∧ inTurn p b {} (.keyRequestArrival n r) ∧ NoneDue b) ∧
    (∃ (p : Params) (b : Block) (n r k c t : Nat) (i : BitVec 16), wardUp p b (portWard p n) ∧ (xfind b (fun x => match x with
        | .keyReq u v _ _ _ _ => decide (u = n) && decide (v = r)
        | _ => false) = some (.keyReq n r k c t i)) ∧ (kpl b n k).en = true ∧ (kpl b n k).tenant = t ∧ c ≠ 0 ∧ c ≤ (kpl b n k).size ∧ keyWaits b r < 4 ∧ (kpl b n k).waiting.length < 16 ∧ ((kpl b n k).waiting ≠ [] ∨ (kpl b n k).free < c) ∧ inTurn p b {} (.keyRequestArrival n r) ∧ NoneDue b) ∧
    (∃ (p : Params) (b : Block) (n r k c t : Nat) (i : BitVec 16), wardUp p b (portWard p n) ∧ (xfind b (fun x => match x with
        | .keyReq u v _ _ _ _ => decide (u = n) && decide (v = r)
        | _ => false) = some (.keyReq n r k c t i)) ∧ (kpl b n k).en = true ∧ (kpl b n k).tenant ≠ t ∧ (prt b r).online = true ∧ (prt b r).inReset = false ∧ inTurn p b {} (.keyRequestArrival n r) ∧ NoneDue b) ∧
    (∃ (p : Params) (b : Block) (n k : Nat) (s : BitVec 16) (m : Nat) (tag : BitVec 16) (g : Grant) (l : List Grant), wardUp p b (portWard p n) ∧ (xfind b (fun x => match x with
        | .keyRet u v j _ _ => decide (u = n) && decide (v = k) && decide (j = s)
        | _ => false) = some (.keyRet n k s m tag)) ∧ (kpl b n k).grants = g :: l ∧ g.gseq = s ∧ g.returned = false ∧ (∀ x ∈ l, x.gseq ≠ s ∧ x.returned = false) ∧ (kpl b n k).waiting = [] ∧ inTurn p b {} (.keyReturn n k s) ∧ NoneDue b) ∧
    (∃ (p : Params) (b : Block) (n k i : Nat) (x : KReq), wardUp p b (portWard p n) ∧ (kpl b n k).waiting[i]? = some x ∧ rdf p b (wA (portWard p n) 0 0x0D8) 0 16 ≠ 0 ∧ x.since + rdf p b (wA (portWard p n) 0 0x0D8) 0 16 * 128 ≤ b.clk.fclk ∧ i ≠ 0 ∧ (kpl b n k).free < (((kpl b n k).waiting.map KReq.count)[0]?).getD 0 ∧ inTurn p b {} (.keyTimeout n k i) ∧ NoneDue b) := by
  exact ⟨⟨small, { up with kpool := [(9 * 16 + 3, { en := true, size := 8, tenant := 4, head := 6, nextGseq := 5, free := 6 }), (7 * 16 + 3, { en := true, size := 8, free := 8, tenant := 5 })], xbar := [.portFree 15, .keyReq 9 7 3 4 4 77] }, 9, 7, 3, 4, 4, 77, by decide +kernel⟩,
    ⟨small, { up with kpool := [(9 * 16 + 3, { en := true, size := 8, tenant := 4, head := 6, nextGseq := 5, free := 6, waiting := [⟨7, 4, 5, 6⟩] }), (7 * 16 + 3, { en := true, size := 8, free := 8, tenant := 5 })], xbar := [.portFree 15, .keyReq 9 7 3 4 4 77] }, 9, 7, 3, 4, 4, 77, by decide +kernel⟩,
    ⟨small, { up with kpool := [(9 * 16 + 3, { en := true, size := 8, tenant := 5, head := 6, nextGseq := 5, free := 6 }), (7 * 16 + 3, { en := true, size := 8, free := 8, tenant := 5 })], ports := [(7, { online := true, credit := 40 })], xbar := [.portFree 15, .keyReq 9 7 3 4 4 77] }, 9, 7, 3, 4, 4, 77, by decide +kernel⟩,
    ⟨small, { up with kpool := [(9 * 16 + 3, { en := true, size := 8, tenant := 4, head := 6, nextGseq := 5, free := 2, grants := [⟨5, 2, 3, 7, false⟩, ⟨6, 5, 1, 8, false⟩] }), (7 * 16 + 3, { en := true, size := 8, free := 8, tenant := 5 })], xbar := [.portFree 15, .keyRet 9 3 5 8 77] }, 9, 3, 5, 8, 77, ⟨5, 2, 3, 7, false⟩, [⟨6, 5, 1, 8, false⟩], by decide +kernel⟩,
    ⟨small, (wr small (wA 1 0 0x0D8) 2 { up with kpool := [(9 * 16 + 3, { en := true, size := 8, tenant := 4, head := 6, nextGseq := 5, free := 2, waiting := [⟨7, 3, 50, 6⟩, ⟨7, 4, 5, 6⟩] }), (7 * 16 + 3, { en := true, size := 8, free := 8, tenant := 5 })] }), 9, 3, 1, ⟨7, 4, 5, 6⟩, by decide +kernel⟩⟩

theorem witness_HingeStatesAndLanes :
    (∃ (p : Params) (b : Block) (h : Nat), hingeUp p b h ∧ (hng b h).state = .train ∧ (hng b h).linkUp = true ∧ b.boot.lock = true ∧ fedOn p b ∧ (hng b h).helloTx = true ∧ (hng b h).txq = [] ∧ (hng b h).rearmed = false ∧ inTurn p b {} (.helloReceived h (peerInst p b h)) ∧ NoneDue b) ∧
    (∃ (p : Params) (b : Block) (h i : Nat), hingeUp p b h ∧ (hng b h).state = .train ∧ (hng b h).linkUp = true ∧ b.boot.lock = true ∧ fedOn p b ∧ i ≠ peerInst p b h ∧ inTurn p b {} (.helloReceived h i) ∧ NoneDue b) ∧
    (∃ (p : Params) (b : Block) (h : Nat), hingeUp p b h ∧ (hng b h).state = .active ∧ inTurn p b {} (.retrainNotification h) ∧ NoneDue b) ∧
    (∃ (p : Params) (b : Block) (h : Nat), hingeUp p b h ∧ (hng b h).state = .hold ∧ b.clk.fclk ≤ (hng b h).holdAt + holdMax p b h ∧ (hng b h).txq = [] ∧ inTurn p b {} (.linkActiveAgain h) ∧ NoneDue b) ∧
    (∃ (p : Params) (b : Block) (h : Nat), hingeUp p b h ∧ (hng b h).state = .hold ∧ (hng b h).holdAt + holdMax p b h < b.clk.fclk ∧ inTurn p b {} (.holdMaxExpiry h) ∧ NoneDue b) ∧
    (∃ (p : Params) (b : Block) (h : Nat), hingeUp p b h ∧ (hng b h).state ≠ .down ∧ inTurn p b {} (.linkError h) ∧ NoneDue b) ∧
    (∃ (p : Params) (b : Block) (h : Nat), hingeUp p b h ∧ (hng b h).state = .down ∧ (hng b h).downPend = true ∧ (hng b h).heldItems = [] ∧ (hng b h).txq = [] ∧ (∀ k, k < p.nh → k ≠ h → (hng b k).state ≠ .active) ∧ inTurn p b {} (.hingeDownEvent h) ∧ NoneDue b) ∧
    (∃ (p : Params) (b : Block) (h o a : Nat), hingeUp p b h ∧ (hng b h).state = .active ∧ (hng b h).txq = [] ∧ inTurn p b {} (.hingeCreditReturn h o a) ∧ NoneDue b) ∧
    (∃ (p : Params) (b : Block) (h n : Nat), hingeUp p b h ∧ (hng b h).txq = [] ∧ beyondCredit (hng b h) 1 false = false ∧ (∀ x ∈ (hng b h).heldItems, x.2.2 = none) ∧ inTurn p b {} (.confReceived h n) ∧ NoneDue b) ∧
    (∃ (p : Params) (b : Block) (h n k : Nat) (it : Item) (e : Nat), hingeUp p b h ∧ (hng b h).txq = [] ∧ beyondCredit (hng b h) 1 false = false ∧ (hng b h).heldItems = [(k, it, some e)] ∧ k < n ∧ it.kind = 0x01 ∧ inTurn p b {} (.confReceived h n) ∧ NoneDue b) ∧
    (∃ (p : Params) (b : Block) (h : Nat), hingeUp p b h ∧ (hng b h).state = .active ∧ (hng b h).rxSeq ≠ (hng b h).lastConf ∧ ((hng b h).lastConf + 64 ≤ (hng b h).rxSeq ∨ (hng b h).rxSince + 128 ≤ b.clk.fclk) ∧ inTurn p b {} (.confSend h) ∧ NoneDue b) ∧
    (∃ (p : Params) (b : Block) (h : Nat), hingeUp p b h ∧ (hng b h).state = .active ∧ (hng b h).rxSeq = (hng b h).lastConf ∧ inTurn p b {} (.confSend h) ∧ NoneDue b) ∧
    (∃ (p : Params) (b : Block) (h : Nat), hingeUp p b h ∧ (hng b h).state = .active ∧ inTurn p b {} (.stallRequest h) ∧ NoneDue b) ∧
    (∃ (p : Params) (b : Block) (h : Nat), hingeUp p b h ∧ (hng b h).state = .train ∧ (hng b h).linkUp = true ∧ b.boot.lock = true ∧ fedOn p b ∧ (hng b h).helloTx = true ∧ (hng b h).rearmed = true ∧ (hng b h).downPend = false ∧ inTurn p b {} (.helloReceived h (peerInst p b h)) ∧ NoneDue b) := by
  exact ⟨⟨small, ((wr small (kA 6 0x040) 0x00058007 (wr small (hA 1 0x040) 9 (wr small (hA 1 0x04C) 0x80000002 { up with hg := [(1, { linkUp := true, helloTx := true, retO := 3 }), (0, { linkUp := true, state := .train, credO := 5 })], boot := { up.boot with lock := true } })))), 1, by decide +kernel⟩,
    ⟨small, ((wr small (kA 6 0x040) 0x00058007 (wr small (hA 1 0x040) 9 (wr small (hA 1 0x04C) 0x80000002 { up with hg := [(1, { linkUp := true }), (0, { linkUp := true, state := .train, credO := 5 })], boot := { up.boot with lock := true } })))), 1, 8, by decide +kernel⟩,
    ⟨small, { up with hg := [(1, { state := .active, rxO := 64, rxA := 64 }), (0, { linkUp := true, state := .train, credO := 5 })] }, 1, by decide +kernel⟩,
    ⟨small, { up with hg := [(1, { state := .hold, holdAt := 2999990 }), (0, { linkUp := true, state := .train, credO := 5 })] }, 1, by decide +kernel⟩,
    ⟨small, { up with hg := [(1, { state := .hold, holdAt := 2 }), (0, { linkUp := true, state := .train, credO := 5 })] }, 1, by decide +kernel⟩,
    ⟨small, { up with hg := [(1, { state := .hold, heldItems := [(3, ⟨0x04, 3, 9, 4, 2, 77, [1]⟩, none)] }), (0, { linkUp := true, state := .train, credO := 5 })] }, 1, by decide +kernel⟩,
    ⟨small, { up with hg := [(1, { state := .down, downPend := true, credO := 5 }), (0, { linkUp := true, state := .train, credO := 5 })], routes := [(9, ⟨true, 1⟩), (12, ⟨true, 0⟩)] }, 1, by decide +kernel⟩,
    ⟨small, { up with hg := [(1, { state := .active, credO := 5 }), (0, { linkUp := true, state := .train, credO := 5 })] }, 1, 3, 3, by decide +kernel⟩,
    ⟨small, { up with hg := [(1, { state := .active, rxA := 8, heldItems := [(3, ⟨0x04, 3, 9, 4, 2, 77, [1]⟩, none), (8, ⟨0x04, 3, 9, 4, 2, 77, [1]⟩, none)] }), (0, { linkUp := true, state := .train, credO := 5 })] }, 1, 3, by decide +kernel⟩,
    ⟨small, { up with hg := [(1, { state := .active, rxA := 8, heldItems := [(3, ⟨0x01, 3, 9, 4, 2, 77, [1]⟩, some 10)] }), (0, { linkUp := true, state := .train, credO := 5 })], ents := [(10, { st := .done, gen := 3, owed := 2 })] }, 1, 5, 3, ⟨0x01, 3, 9, 4, 2, 77, [1]⟩, 10, by decide +kernel⟩,
    ⟨small, { up with hg := [(1, { state := .active, rxSeq := 70, lastConf := 3 }), (0, { linkUp := true, state := .train, credO := 5 })] }, 1, by decide +kernel⟩,
    ⟨small, { up with hg := [(1, { state := .active, rxSeq := 70, lastConf := 70 }), (0, { linkUp := true, state := .train, credO := 5 })] }, 1, by decide +kernel⟩,
    ⟨small, { up with hg := [(1, { state := .active, rxO := 64, rxA := 64 }), (0, { linkUp := true, state := .train, credO := 5 })] }, 1, by decide +kernel⟩,
    ⟨small, ((wr small (kA 6 0x040) 0x00058007 (wr small (hA 1 0x040) 9 (wr small (hA 1 0x04C) 0x80000002 { up with hg := [(1, { linkUp := true, helloTx := true, rearmed := true, retO := 3 }), (0, { linkUp := true, state := .train, credO := 5 })], routes := [(9, ⟨true, 1⟩)], unreach := 0x200, boot := { up.boot with lock := true } })))), 1, by decide +kernel⟩⟩

theorem witness_FederationTime :
    (∃ (p : Params) (b : Block) (h : Nat), hingeUp p b h ∧ (hng b h).state = .active ∧ (hng b h).stall = false ∧ (hng b h).lastTs + tsPeriod p b h ≤ b.clk.fclk ∧ (hng b h).retO = 0 ∧ (hng b h).retA = 0 ∧ inTurn p b {} (.tsFlitSend h) ∧ NoneDue b) ∧
    (∃ (p : Params) (b : Block) (h : Nat) (t : Word64), hingeUp p b h ∧ bitAt (rd p b (hA h 0x04C)) 31 = true ∧ (hng b h).state = .active ∧ bitAt (rd p b (kA 6 0x040)) 14 = false ∧ (hng b h).locked = false ∧ 0 ≤ tsCorr p b h t ∧ inTurn p b {} (.tsSample h t) ∧ NoneDue b) ∧
    (∃ (p : Params) (b : Block) (h : Nat) (t : Word64), hingeUp p b h ∧ bitAt (rd p b (hA h 0x04C)) 31 = true ∧ (hng b h).state = .active ∧ bitAt (rd p b (kA 6 0x040)) 14 = false ∧ (hng b h).locked = false ∧ tsCorr p b h t < 0 ∧ inTurn p b {} (.tsSample h t) ∧ NoneDue b) ∧
    (∃ (p : Params) (b : Block) (h : Nat) (t : Word64), hingeUp p b h ∧ bitAt (rd p b (hA h 0x04C)) 31 = true ∧ (hng b h).state = .active ∧ bitAt (rd p b (kA 6 0x040)) 14 = false ∧ (hng b h).locked = true ∧ (hng b h).lost = false ∧ (tsCorr p b h t).natAbs ≤ rdf p b (hA h 0x04C) 0 8 ∧ inTurn p b {} (.tsSample h t) ∧ NoneDue b) ∧
    (∃ (p : Params) (b : Block) (h : Nat) (t : Word64), hingeUp p b h ∧ bitAt (rd p b (hA h 0x04C)) 31 = true ∧ (hng b h).state = .active ∧ bitAt (rd p b (kA 6 0x040)) 14 = false ∧ (hng b h).locked = true ∧ rdf p b (hA h 0x04C) 0 8 < (tsCorr p b h t).natAbs ∧ inTurn p b {} (.tsSample h t) ∧ NoneDue b) ∧
    (∃ (p : Params) (b : Block), keeperUp b ∧ b.clk.fclk % 2 = 0 ∧ 0 < b.clk.pend ∧ b.clk.hold = 0 ∧ b.clk.lastSlew + 31 ≤ b.clk.fclk ∧ (b.clk.ts.toNat + 1) % 80 ≠ 0 ∧ inTurn p b {} .tsSlewStep ∧ NoneDue b) ∧
    (∃ (p : Params) (b : Block), keeperUp b ∧ b.clk.fclk % 2 = 0 ∧ b.clk.pend < 0 ∧ b.clk.hold = 0 ∧ b.clk.lastSlew + 31 ≤ b.clk.fclk ∧ inTurn p b {} .tsSlewStep ∧ NoneDue b) ∧
    (∃ (p : Params) (b : Block), keeperUp b ∧ b.clk.hold ≠ 0 ∧ b.clk.hold ≤ b.clk.fclk ∧ inTurn p b {} .tsHoldEnd ∧ NoneDue b) ∧
    (∃ (p : Params) (b : Block) (h : Nat), hingeUp p b h ∧ 8 ≤ (hng b h).badRun ∧ (hng b h).lost = false ∧ inTurn p b {} (.tsLost h) ∧ NoneDue b) ∧
    (∃ (p : Params) (b : Block) (h : Nat), hingeUp p b h ∧ (hng b h).state = .active ∧ bitAt (rd p b (hA h 0x04C)) 31 = true ∧ inTurn p b {} (.retrainNotification h) ∧ NoneDue b) ∧
    (∃ (p : Params) (b : Block) (h : Nat), hingeUp p b h ∧ (hng b h).state = .hold ∧ b.clk.fclk ≤ (hng b h).holdAt + holdMax p b h ∧ inTurn p b {} (.linkActiveAgain h) ∧ NoneDue b) ∧
    (∃ (p : Params) (b : Block) (h : Nat), hingeUp p b h ∧ (hng b h).state = .hold ∧ (hng b h).holdAt + holdMax p b h < b.clk.fclk ∧ bitAt (rd p b (hA h 0x04C)) 31 = true ∧ inTurn p b {} (.holdMaxExpiry h) ∧ NoneDue b) ∧
    (∃ (p : Params) (b : Block) (h : Nat), hingeUp p b h ∧ ((hng b h).state = .active ∨ (hng b h).state = .hold) ∧ bitAt (rd p b (hA h 0x04C)) 31 = true ∧ inTurn p b {} (.linkError h) ∧ NoneDue b) ∧
    (∃ (p : Params) (b : Block) (h : Nat), hingeUp p b h ∧ (hng b h).state = .active ∧ inTurn p b {} (.stallRequest h) ∧ NoneDue b) := by
  exact ⟨⟨small, { up with hg := [(1, { state := .active, rxO := 64, rxA := 64 }), (0, { linkUp := true, state := .train, credO := 5 })] }, 1, by decide +kernel⟩,
    ⟨small, ((wr small (kA 6 0x040) 0x00058007 (wr small (hA 1 0x040) 9 (wr small (hA 1 0x04C) 0x80000002 { up with hg := [(1, { state := .active, rxO := 64, rxA := 64 }), (0, { linkUp := true, state := .train, credO := 5 })] })))), 1, 1500007, by decide +kernel⟩,
    ⟨small, ((wr small (kA 6 0x040) 0x00058007 (wr small (hA 1 0x040) 9 (wr small (hA 1 0x04C) 0x80000002 { up with hg := [(1, { state := .active, rxO := 64, rxA := 64 }), (0, { linkUp := true, state := .train, credO := 5 })] })))), 1, 1499990, by decide +kernel⟩,
    ⟨small, ((wr small (kA 6 0x040) 0x00058007 (wr small (hA 1 0x040) 9 (wr small (hA 1 0x04C) 0x80000002 { up with hg := [(1, { state := .active, locked := true }), (0, { linkUp := true, state := .train, credO := 5 })] })))), 1, 1500001, by decide +kernel⟩,
    ⟨small, ((wr small (kA 6 0x040) 0x00058007 (wr small (hA 1 0x040) 9 (wr small (hA 1 0x04C) 0x80000002 { up with hg := [(1, { state := .active, locked := true }), (0, { linkUp := true, state := .train, credO := 5 })] })))), 1, 1500100, by decide +kernel⟩,
    ⟨small, { up with clk := { fclk := 3000000, ts := 1500000, pend := 3 } }, by decide +kernel⟩,
    ⟨small, { up with clk := { fclk := 3000000, ts := 1500000, pend := -3 } }, by decide +kernel⟩,
    ⟨small, { up with clk := { fclk := 3000000, ts := 1500000, hold := 2999999 } }, by decide +kernel⟩,
    ⟨small, { up with hg := [(1, { state := .active, badRun := 8 }), (0, { linkUp := true, state := .train, credO := 5 })] }, 1, by decide +kernel⟩,
    ⟨small, (wr small (hA 1 0x04C) 0x80000002 { up with hg := [(1, { state := .active }), (0, { linkUp := true, state := .train, credO := 5 })] }), 1, by decide +kernel⟩,
    ⟨small, (wr small (hA 1 0x04C) 0x80000002 { up with hg := [(1, { state := .hold, holdAt := 2999990 }), (0, { linkUp := true, state := .train, credO := 5 })] }), 1, by decide +kernel⟩,
    ⟨small, (wr small (hA 1 0x04C) 0x80000002 { up with hg := [(1, { state := .hold, holdAt := 2 }), (0, { linkUp := true, state := .train, credO := 5 })] }), 1, by decide +kernel⟩,
    ⟨small, (wr small (hA 1 0x04C) 0x80000002 { up with hg := [(1, { state := .active }), (0, { linkUp := true, state := .train, credO := 5 })] }), 1, by decide +kernel⟩,
    ⟨small, { up with hg := [(1, { state := .active }), (0, { linkUp := true, state := .train, credO := 5 })] }, 1, by decide +kernel⟩⟩

theorem witness_RemoteSegments :
    (∃ (p : Params) (b : Block) (h : Nat) (r : ReserveReq), hingeUp p b h ∧ beyondCredit (hng b h) ((reserveSizes r).headD 0) true = false ∧ (ten b r.tenant).en = true ∧ farStatus p b r = 0 ∧ neverFits b r.tenant (farSeg p b r) = false ∧ quotaOk b r.tenant (farSeg p b r) ∧ fitsNow b (farSeg p b r) ∧ inTurn p b {} (.remoteReserve h r) ∧ NoneDue b) ∧
    (∃ (p : Params) (b : Block) (h : Nat) (r : ReserveReq), hingeUp p b h ∧ beyondCredit (hng b h) ((reserveSizes r).headD 0) true = false ∧ farStatus p b r = 0 ∧ neverFits b r.tenant (farSeg p b r) = false ∧ (quotaOk b r.tenant (farSeg p b r) && fitsNow b (farSeg p b r)) = false ∧ inTurn p b {} (.remoteReserve h r) ∧ NoneDue b) ∧
    (∃ (p : Params) (b : Block) (r : Nat) (v : Via) (l : List (Nat × BitVec 32)) (g : Seg), keeperUp b ∧ v.hinge < p.nh ∧ beyondCredit (hng b v.hinge) 1 false = false ∧ (rng b r).walk.mode = .remote ∧ Tbl.get none b.segs r = some g ∧ g.awaiting = [v.inst] ∧ inTurn p b {} (.hndAnswer r v (.ok l)) ∧ NoneDue b) ∧
    (∃ (p : Params) (b : Block) (r : Nat) (v : Via) (l : List (Nat × BitVec 32)) (g : Seg) (k : List Nat), keeperUp b ∧ v.hinge < p.nh ∧ beyondCredit (hng b v.hinge) 1 false = false ∧ (rng b r).walk.mode = .remote ∧ Tbl.get none b.segs r = some g ∧ g.awaiting = v.inst :: k ∧ k ≠ [] ∧ inTurn p b {} (.hndAnswer r v (.ok l)) ∧ NoneDue b) ∧
    (∃ (p : Params) (b : Block) (r : Nat) (v : Via) (st : Status) (g : Seg), keeperUp b ∧ v.hinge < p.nh ∧ beyondCredit (hng b v.hinge) 1 false = false ∧ (rng b r).walk.mode = .remote ∧ Tbl.get none b.segs r = some g ∧ v.inst ∈ g.awaiting ∧ inTurn p b {} (.hndAnswer r v (.refused st)) ∧ NoneDue b) ∧
    (∃ (p : Params) (b : Block) (r : Nat) (v : Via) (g : Seg), keeperUp b ∧ v.hinge < p.nh ∧ beyondCredit (hng b v.hinge) 1 false = false ∧ (rng b r).walk.mode = .remote ∧ Tbl.get none b.segs r = some g ∧ v.inst ∈ g.awaiting ∧ inTurn p b {} (.hndAnswer r v .retry) ∧ NoneDue b) ∧
    (∃ (p : Params) (b : Block) (r t : Nat), keeperUp b ∧ (rng b r).walk.mode = .retry t ∧ t ≤ b.clk.fclk ∧ walking b r ∧ inTurn p b {} (.remoteRetryExpiry r) ∧ NoneDue b) ∧
    (∃ (p : Params) (b : Block) (v : Via) (k n : Nat) (w : BitVec 32) (g : RemSeg) (h : Nat), keeperUp b ∧ v.hinge < p.nh ∧ beyondCredit (hng b v.hinge) 1 true = false ∧ b.remSegs.find? (fun g => g.inst = v.inst ∧ g.bank = k) = some g ∧ g.handles.find? (fun x => x.1 = n) = some (n, h) ∧ spillBase p b (homeOf h) = 0 ∧ (ent b h).spilled = false ∧ inTurn p b {} (.linkItem v k n w) ∧ NoneDue b) ∧
    (∃ (p : Params) (b : Block) (v : Via) (k : Nat) (g : RemSeg) (n h : Nat), keeperUp b ∧ v.hinge < p.nh ∧ beyondCredit (hng b v.hinge) 1 true = false ∧ b.remSegs.find? (fun g => g.inst = v.inst ∧ g.bank = k) = some g ∧ g.handles = [(n, h)] ∧ (ent b h).st = .pending ∧ (ent b h).isSealed = false ∧ inTurn p b {} (.xctlAbandon v k) ∧ NoneDue b) := by
  exact ⟨⟨small, { up with hg := [(1, { state := .active, rxO := 64, rxA := 64 }), (0, { linkUp := true, state := .train, credO := 5 })], pcls := [(3, { work := { tenant := 4, ranks := [(0, { v := true, ward := 1, mask := 2 })] } })], tens := [(4, { en := true, ttq := 2048 }), (5, { en := true })] }, 1, { inst := 9, ring := 2, bank := 3, tenant := 4, cls := false, recs := [(1, 0x30000000000000001)], imps := [] }, by decide +kernel⟩,
    ⟨small, { up with hg := [(1, { state := .active, rxO := 64, rxA := 64 }), (0, { linkUp := true, state := .train, credO := 5 })], pcls := [(3, { work := { tenant := 4, ranks := [(0, { v := true, ward := 1, mask := 2 })] } })], tens := [(4, { en := true, ttq := 1 }), (5, { en := true })], ents := [(2055, { st := .ready, d := { tenant := 4 } })] }, 1, { inst := 9, ring := 2, bank := 3, tenant := 4, cls := false, recs := [(1, 0x30000000000000001)], imps := [] }, by decide +kernel⟩,
    ⟨small, { up with rings := [(1, { enable := true, d1 := 0x04000600, subs := [{ subid := 4, recNo := 0, image := 0x10000, imglen := 512, unsettled := 3 }], walk := { mode := .remote, subid := 4, off := 0 } }), (9, { d1 := 0x05000000, enable := true, subs := [{ subid := 77, recNo := 0, unsettled := 5 }], walk := { mode := .stopped, subid := 77 } })], segs := [(1, some { no := 2, bank := 0, recs := [], homes := [], demand := [(1, 1)], lines := [], queues := [], blocks := [], fedrec := [], chrec := [], imps := [], handles := [0, 1, 2], awaiting := [9] })] }, 1, ⟨1, 9, 4⟩, [], { no := 2, bank := 0, recs := [], homes := [], demand := [(1, 1)], lines := [], queues := [], blocks := [], fedrec := [], chrec := [], imps := [], handles := [0, 1, 2], awaiting := [9] }, by decide +kernel⟩,
    ⟨small, { up with rings := [(1, { enable := true, d1 := 0x04000600, subs := [{ subid := 4, recNo := 0, image := 0x10000, imglen := 512, unsettled := 3 }], walk := { mode := .remote, subid := 4, off := 0 } }), (9, { d1 := 0x05000000, enable := true, subs := [{ subid := 77, recNo := 0, unsettled := 5 }], walk := { mode := .stopped, subid := 77 } })], segs := [(1, some { no := 2, bank := 0, recs := [], homes := [], demand := [(1, 1)], lines := [], queues := [], blocks := [], fedrec := [], chrec := [], imps := [], handles := [0, 1, 2], awaiting := [9, 12] })] }, 1, ⟨1, 9, 4⟩, [(1, 20)], { no := 2, bank := 0, recs := [], homes := [], demand := [(1, 1)], lines := [], queues := [], blocks := [], fedrec := [], chrec := [], imps := [], handles := [0, 1, 2], awaiting := [9, 12] }, [12], by decide +kernel⟩,
    ⟨small, { up with rings := [(1, { enable := true, d1 := 0x04000600, subs := [{ subid := 4, recNo := 0, image := 0x10000, imglen := 512, unsettled := 3 }], walk := { mode := .remote, subid := 4, off := 0 } }), (9, { d1 := 0x05000000, enable := true, subs := [{ subid := 77, recNo := 0, unsettled := 5 }], walk := { mode := .stopped, subid := 77 } })], segs := [(1, some { no := 2, bank := 0, recs := [], homes := [], demand := [(1, 1)], lines := [], queues := [], blocks := [], fedrec := [], chrec := [], imps := [], handles := [0, 1, 2], awaiting := [12, 9] })] }, 1, ⟨1, 9, 4⟩, 5, { no := 2, bank := 0, recs := [], homes := [], demand := [(1, 1)], lines := [], queues := [], blocks := [], fedrec := [], chrec := [], imps := [], handles := [0, 1, 2], awaiting := [12, 9] }, by decide +kernel⟩,
    ⟨small, { up with rings := [(1, { enable := true, d1 := 0x04000600, subs := [{ subid := 4, recNo := 0, image := 0x10000, imglen := 512, unsettled := 3 }], walk := { mode := .remote, subid := 4, off := 0 } }), (9, { d1 := 0x05000000, enable := true, subs := [{ subid := 77, recNo := 0, unsettled := 5 }], walk := { mode := .stopped, subid := 77 } })], segs := [(1, some { no := 2, bank := 0, recs := [], homes := [], demand := [(1, 1)], lines := [], queues := [], blocks := [], fedrec := [], chrec := [], imps := [], handles := [0, 1, 2], awaiting := [12, 9] })] }, 1, ⟨1, 9, 4⟩, { no := 2, bank := 0, recs := [], homes := [], demand := [(1, 1)], lines := [], queues := [], blocks := [], fedrec := [], chrec := [], imps := [], handles := [0, 1, 2], awaiting := [12, 9] }, by decide +kernel⟩,
    ⟨small, { up with rings := [(1, { enable := true, d1 := 0x04000600, subs := [{ subid := 4, recNo := 0, image := 0x10000, imglen := 512, unsettled := 3 }], walk := { mode := .retry 5, subid := 4, off := 0 } }), (9, { d1 := 0x05000000, enable := true, subs := [{ subid := 77, recNo := 0, unsettled := 5 }], walk := { mode := .stopped, subid := 77 } })], segs := [(1, some { no := 2, bank := 0, recs := [], homes := [], demand := [(1, 1)], lines := [], queues := [], blocks := [], fedrec := [], chrec := [], imps := [], handles := [0, 1, 2], awaiting := [12, 9] })] }, 1, 5, by decide +kernel⟩,
    ⟨small, { up with ents := [(10, { st := .pending, gen := 3, succ := [7] })], remSegs := [{ inst := 9, bank := 3, ring := 2, tenant := 4, handles := [(1, 10)] }] }, ⟨1, 9, 4⟩, 3, 1, 5, { inst := 9, bank := 3, ring := 2, tenant := 4, handles := [(1, 10)] }, 10, by decide +kernel⟩,
    ⟨small, { up with ents := [(10, { st := .pending, gen := 3, succ := [7] })], remSegs := [{ inst := 9, bank := 3, ring := 2, tenant := 4, handles := [(1, 10)] }] }, ⟨1, 9, 4⟩, 3, { inst := 9, bank := 3, ring := 2, tenant := 4, handles := [(1, 10)] }, 1, 10, by decide +kernel⟩⟩

theorem witness_ItemsAndReachability :
    (∃ (p : Params) (b : Block) (h : Nat) (l : List (BitVec 128)) (it : Item) (k : Nat), hingeUp p b h ∧ spellItem l = some it ∧ it.dinst ≠ ownInst p b ∧ it.hops < 6 ∧ rte b it.dinst = ⟨true, k⟩ ∧ beyondCredit (hng b h) (itemSlots it) (orderedItem it) = false ∧ k ≠ h ∧ (hng b k).state = .hold ∧ inTurn p b {} (.itemForward h l) ∧ NoneDue b) ∧
    (∃ (p : Params) (b : Block) (h : Nat) (l : List (BitVec 128)), hingeUp p b h ∧ spellItem l = none ∧ (hng b h).state ≠ .down ∧ inTurn p b {} (.itemForward h l) ∧ NoneDue b) ∧
    (∃ (p : Params) (b : Block) (h : Nat) (l : List (BitVec 128)) (it : Item), hingeUp p b h ∧ spellItem l = some it ∧ it.dinst ≠ ownInst p b ∧ beyondCredit (hng b h) (itemSlots it) (orderedItem it) = true ∧ inTurn p b {} (.itemForward h l) ∧ NoneDue b) ∧
    (∃ (p : Params) (b : Block) (h : Nat) (l : List (BitVec 128)) (it : Item), hingeUp p b h ∧ spellItem l = some it ∧ it.dinst = ownInst p b ∧ inTurn p b {} (.itemForward h l) ∧ NoneDue b) ∧
    (∃ (p : Params) (b : Block) (v : Via) (r : Nat) (w : Word32) (st : BitVec 8) (o : Roster) (s : Machine.Sub), keeperUp b ∧ v.hinge < p.nh ∧ beyondCredit (hng b v.hinge) 1 true = false ∧ (fedOf b (rHome (rng b r))).roster.find? (fun o => o.word = w ∧ o.ring = r) = some o ∧ o.step = none ∧ o.discard = false ∧ subOf b r o.subid = some s ∧ 1 < s.unsettled ∧ st ≠ 0 ∧ st ≠ 0x04 ∧ (rng b r).steps = [] ∧ (rng b r).pre = .run ∧ inTurn p b {} (.setlItem v r w st) ∧ NoneDue b) ∧
    (∃ (p : Params) (b : Block) (i : Via) (h : Nat) (v g : BitVec 32), keeperUp b ∧ i.hinge < p.nh ∧ beyondCredit (hng b i.hinge) 1 true = false ∧ (ten b i.tenant).en = true ∧ haspCheck b h i.tenant = 0 ∧ (hsp b h).count.toNat + v.toNat < 2 ^ 32 ∧ inTurn p b {} (.hopItem i.origin i.tenant h .signal v g) ∧ NoneDue b) ∧
    (∃ (p : Params) (b : Block) (i : Via) (h : Nat) (v g : BitVec 32), keeperUp b ∧ i.hinge < p.nh ∧ beyondCredit (hng b i.hinge) 1 true = false ∧ (ten b i.tenant).en = true ∧ haspCheck b h i.tenant = 0 ∧ inTurn p b {} (.hopItem i.origin i.tenant h .reset v g) ∧ NoneDue b) ∧
    (∃ (p : Params) (b : Block) (i : Via) (h : Nat) (v g : BitVec 32), keeperUp b ∧ i.hinge < p.nh ∧ beyondCredit (hng b i.hinge) 1 true = false ∧ (ten b i.tenant).en = true ∧ haspCheck b h i.tenant = 0 ∧ (b.waits.countP (fun x => match x.who with | .remote _ _ => true | _ => false) < 1024) ∧ inTurn p b {} (.hopItem i.origin i.tenant h .wait v g) ∧ NoneDue b) ∧
    (∃ (p : Params) (b : Block) (i : Via) (h : Nat) (v g : BitVec 32), keeperUp b ∧ i.hinge < p.nh ∧ beyondCredit (hng b i.hinge) 1 true = false ∧ (ten b i.tenant).en = true ∧ inTurn p b {} (.hopItem i.origin i.tenant h .waitRemove v g) ∧ NoneDue b) ∧
    (∃ (p : Params) (b : Block) (h : Nat) (g : BitVec 32) (k : PortWait) (i : Nat), keeperUp b ∧ h < p.nh ∧ beyondCredit (hng b h) 1 true = false ∧ g.getLsbD 31 = false ∧ (prt b (fld g 0 12)).wait = some k ∧ k.inst = some i ∧ tagPort (fld g 0 12) (waitKey k) = g ∧ inTurn p b {} (.hrelItem (h, g)) ∧ NoneDue b) ∧
    (∃ (p : Params) (b : Block) (i : Via) (c : Nat) (e : Word32) (n : Nat) (x : EndP), keeperUp b ∧ i.hinge < p.nh ∧ beyondCredit (hng b i.hinge) 1 true = false ∧ (ten b i.tenant).en = true ∧ farEnd p b e = some x ∧ endOwned p b i.tenant x ∧ recsFree p b (farChan p i.inst i.tenant x) ∧ inTurn p b {} (.chcItem i.origin i.tenant .openCh c e n) ∧ NoneDue b) ∧
    (∃ (p : Params) (b : Block) (i : Via) (c n : Nat) (k : Chan) (j : Word32), keeperUp b ∧ i.hinge < p.nh ∧ beyondCredit (hng b i.hinge) 1 true = false ∧ (ten b i.tenant).en = true ∧ chn b c = some k ∧ k.rx = .remote i.inst j ∧ k.closing = false ∧ inTurn p b {} (.chcItem i.origin i.tenant .close c 1 n) ∧ NoneDue b) ∧
    (∃ (p : Params) (b : Block) (i : Via) (c : Nat) (e : BitVec 32) (n : Nat), keeperUp b ∧ i.hinge < p.nh ∧ beyondCredit (hng b i.hinge) 1 true = false ∧ (ten b i.tenant).en = true ∧ wardUp p b (c / 64 % 64) ∧ ((∀ o ∈ (cqu b (c / 64 % 64) (c % 64)).openC, o.inst ≠ some i.inst ∨ o.port ≠ n)) ∧ inTurn p b {} (.chcItem i.origin i.tenant .tear c e n) ∧ NoneDue b) ∧
    (∃ (p : Params) (b : Block) (i : Via) (c : Nat) (e : BitVec 32) (n h : Nat), keeperUp b ∧ i.hinge < p.nh ∧ beyondCredit (hng b i.hinge) 1 true = false ∧ (ten b i.tenant).en = true ∧ wardUp p b (c / 64 % 64) ∧ cqLive b (cqu b (c / 64 % 64) (c % 64)) ∧ (cqu b (c / 64 % 64) (c % 64)).gen % 16 = c / 4096 % 16 ∧ (cqu b (c / 64 % 64) (c % 64)).failed = false ∧ (∃ o ∈ (cqu b (c / 64 % 64) (c % 64)).openC, o.inst = some i.inst ∧ o.port = n) ∧ h = (cqu b (c / 64 % 64) (c % 64)).entry ∧ inTurn p b {} (.chcItem i.origin i.tenant .tear c e n) ∧ NoneDue b) ∧
    (∃ (p : Params) (b : Block) (h : Nat) (m : BitVec 64), hingeUp p b h ∧ beyondCredit (hng b h) 1 true = false ∧ m &&& viaHinge b h &&& ~~~b.unreach = 0 ∧ inTurn p b {} (.unrchItem h m false) ∧ NoneDue b) ∧
    (∃ (p : Params) (b : Block) (h : Nat) (m : BitVec 64), hingeUp p b h ∧ beyondCredit (hng b h) 1 true = false ∧ m &&& viaHinge b h &&& ~~~b.unreach ≠ 0 ∧ inTurn p b {} (.unrchItem h m false) ∧ NoneDue b) ∧
    (∃ (p : Params) (b : Block) (h : Nat) (m : BitVec 64), hingeUp p b h ∧ beyondCredit (hng b h) 1 true = false ∧ m &&& viaHinge b h &&& b.unreach ≠ 0 ∧ inTurn p b {} (.unrchItem h m true) ∧ NoneDue b) ∧
    (∃ (p : Params) (b : Block) (w : Nat) (m : BitVec 64), wardUp p b w ∧ xfind b (isUnreach w m) = some (.unreach w m) ∧ inTurn p b {} (.unreachableNotice w m) ∧ NoneDue b) ∧
    (∃ (p : Params) (b : Block) (h : Nat) (it : Item), hingeUp p b h ∧ (hng b h).state = .train ∧ (hng b h).linkUp = true ∧ b.boot.lock = true ∧ fedOn p b ∧ (hng b h).helloTx = true ∧ (hng b h).rearmed = false ∧ (hng b h).downPend = false ∧ (hng b h).txq = [] ∧ (hng b h).heldItems.length < 1024 ∧ itemSlots it ≤ 256 ∧ inTurn p b {} (.helloReceived h (peerInst p b h)) ∧ NoneDue b) ∧
    (∃ (p : Params) (b : Block) (h o a : Nat) (it : Item) (w : Option Nat), hingeUp p b h ∧ (hng b h).state = .active ∧ (hng b h).stall = false ∧ (hng b h).txq = [(it, w)] ∧ (hng b h).heldItems.length < 1024 ∧ itemSlots it ≤ (if orderedItem it then min 1024 ((hng b h).credO + o) else min 256 ((hng b h).credA + a)) ∧ inTurn p b {} (.hingeCreditReturn h o a) ∧ NoneDue b) ∧
    (∃ (p : Params) (b : Block) (h n : Nat), hingeUp p b h ∧ (hng b h).txq = [] ∧ beyondCredit (hng b h) 1 false = false ∧ inTurn p b {} (.confReceived h n) ∧ NoneDue b) ∧
    (∃ (p : Params) (b : Block) (h : Nat), hingeUp p b h ∧ (hng b h).state = .active ∧ (hng b h).stall = false ∧ (hng b h).txq = [] ∧ 0 < (hng b h).credA ∧ (hng b h).rxSeq ≠ (hng b h).lastConf ∧ ((hng b h).lastConf + 64 ≤ (hng b h).rxSeq ∨ (hng b h).rxSince + 128 ≤ b.clk.fclk) ∧ inTurn p b {} (.confSend h) ∧ NoneDue b) ∧
    (∃ (p : Params) (b : Block) (h i : Nat), hingeUp p b h ∧ (hng b h).downPend = true ∧ i < 64 ∧ rte b i = ⟨true, h⟩ ∧ inTurn p b {} (.hingeDownEvent h) ∧ NoneDue b) := by
  exact ⟨⟨small, { up with hg := [(1, { state := .active, rxO := 64, rxA := 64 }), (0, { state := .hold, credO := 5 })], routes := [(9, ⟨true, 0⟩)] }, 1, (slotsOf ⟨0x04, 3, 9, 4, 2, 77, [1]⟩), ⟨0x04, 3, 9, 4, 2, 77, [1]⟩, 0, by decide +kernel⟩,
    ⟨small, { up with hg := [(1, { state := .active, rxO := 64, rxA := 64 }), (0, { linkUp := true, state := .train, credO := 5 })] }, 1, [0xFF], by decide +kernel⟩,
    ⟨small, { up with hg := [(1, { state := .active }), (0, { linkUp := true, state := .train, credO := 5 })] }, 1, (slotsOf ⟨0x04, 3, 9, 4, 2, 77, [1]⟩), ⟨0x04, 3, 9, 4, 2, 77, [1]⟩, by decide +kernel⟩,
    ⟨small, ((wr small (kA 6 0x040) 0x00058007 (wr small (hA 1 0x040) 9 (wr small (hA 1 0x04C) 0x80000002 { up with hg := [(1, { state := .active, rxO := 64, rxA := 64 }), (0, { linkUp := true, state := .train, credO := 5 })] })))), 1, (slotsOf ⟨0x04, 3, 7, 4, 2, 77, [1]⟩), ⟨0x04, 3, 7, 4, 2, 77, [1]⟩, by decide +kernel⟩,
    ⟨small, { up with rings := [(1, { enable := true, d1 := 0x04000600, subs := [{ subid := 4, recNo := 0, image := 0x10000, imglen := 512, unsettled := 3 }] }), (9, { d1 := 0x05000000, enable := true, subs := [{ subid := 77, recNo := 0, unsettled := 5 }], walk := { mode := .stopped, subid := 77 } })], fedt := [(0, { roster := [{ word := 0x82800014, ring := 1, subid := 4, step := none, interval := 2, isYield := false }] })] }, ⟨1, 9, 4⟩, 1, 0x82800014, 5, { word := 0x82800014, ring := 1, subid := 4, step := none, interval := 2, isYield := false }, { subid := 4, recNo := 0, image := 0x10000, imglen := 512, unsettled := 3 }, by decide +kernel⟩,
    ⟨small, { up with hasps := [(5, { v := true, tenant := 4, count := 9 }), (11, { v := true, count := 5, tenant := 5 })], tens := [(4, { en := true, ttq := 9 }), (5, { en := true })] }, ⟨1, 9, 4⟩, 5, 6, 5, by decide +kernel⟩,
    ⟨small, { up with hasps := [(5, { v := true, tenant := 4, count := 9 }), (11, { v := true, count := 5, tenant := 5 })], tens := [(4, { en := true, ttq := 9 }), (5, { en := true })] }, ⟨1, 9, 4⟩, 5, 5, 5, by decide +kernel⟩,
    ⟨small, { up with hasps := [(5, { v := true, tenant := 4, count := 9 }), (11, { v := true, count := 5, tenant := 5 })], tens := [(4, { en := true, ttq := 9 }), (5, { en := true })] }, ⟨1, 9, 4⟩, 5, 5, 5, by decide +kernel⟩,
    ⟨small, { up with hasps := [(5, { v := true, tenant := 4, count := 9 }), (11, { v := true, count := 5, tenant := 5 })], tens := [(4, { en := true, ttq := 9 }), (5, { en := true })], waits := [⟨.remote 9 77, 5, 7, 3, false⟩, ⟨.remote 8 77, 5, 7, 3, false⟩] }, ⟨1, 9, 4⟩, 3, 5, 77, by decide +kernel⟩,
    ⟨small, { up with ports := [(9, { online := true, wait := some ⟨10, 3, 5, some 8, 7, 99, false⟩ })] }, 1, (tagPort 9 (10 + 768)), ⟨10, 3, 5, some 8, 7, 99, false⟩, 8, by decide +kernel⟩,
    ⟨small, (wr small (wA 1 0 0x048) 2 (wr small (wA 1 0 0x050) 0x400 { up with tens := [(4, { en := true, ttq := 9 }), (5, { en := true })] })), ⟨1, 9, 4⟩, 3, 9, 3, (.port 9), by decide +kernel⟩,
    ⟨small, { up with tens := [(4, { en := true, ttq := 9 }), (5, { en := true })], chans := [(5, some { tenant := 4, dir := 1, tx := .port 9, rx := .remote 9 77, owner := .sub 1 2 })] }, ⟨1, 9, 4⟩, 5, 3, { tenant := 4, dir := 1, tx := .port 9, rx := .remote 9 77, owner := .sub 1 2 }, 77, by decide +kernel⟩,
    ⟨small, { up with tens := [(4, { en := true, ttq := 9 }), (5, { en := true })] }, ⟨1, 9, 4⟩, 67, 5, 3, by decide +kernel⟩,
    ⟨small, { up with tens := [(4, { en := true, ttq := 9 }), (5, { en := true })], ents := [(2051, { st := .pending, gen := 3, isSealed := true, d := { ring := 1, subid := 4, tenant := 4, cq := some 3 } })], cq := [(67, { st := .opened, len := 8, n := 2, entry := 2051, openC := [⟨some 9, 3, 8, 0x81800014⟩] })] }, ⟨1, 9, 4⟩, 67, 5, 3, 2051, by decide +kernel⟩,
    ⟨small, { up with hg := [(1, { state := .active, rxO := 64, rxA := 64 }), (0, { linkUp := true, state := .train, credO := 5 })], routes := [(9, ⟨true, 1⟩), (12, ⟨true, 0⟩)], unreach := 0x200 }, 1, 0x1200, by decide +kernel⟩,
    ⟨small, { up with hg := [(1, { state := .active, rxO := 64, rxA := 64 }), (0, { linkUp := true, state := .train, credO := 5 })], routes := [(9, ⟨true, 1⟩), (12, ⟨true, 0⟩)], unreach := 0x1000 }, 1, 0x1200, by decide +kernel⟩,
    ⟨small, { up with hg := [(1, { state := .active, rxO := 64, rxA := 64 }), (0, { linkUp := true, state := .train, credO := 5 })], routes := [(9, ⟨true, 1⟩), (12, ⟨true, 0⟩)], unreach := 0x1200 }, 1, 0x1200, by decide +kernel⟩,
    ⟨small, { up with fedt := [(1, { imports := [(10, 9, 2), (11, 8, 3)], roster := [{ word := 0x82120014, ring := 1, subid := 4, step := none, interval := 2, isYield := false }] })], remSegs := [{ inst := 9, bank := 3, ring := 2, tenant := 4, handles := [(1, 10)] }], xbar := [.portFree 15, .unreach 1 0x200] }, 1, 0x200, by decide +kernel⟩,
    ⟨small, ((wr small (kA 6 0x040) 0x00058007 (wr small (hA 1 0x040) 9 (wr small (hA 1 0x04C) 0x80000002 { up with hg := [(1, { linkUp := true, helloTx := true, retO := 3 }), (0, { linkUp := true, state := .train, credO := 5 })], boot := { up.boot with lock := true } })))), 1, ⟨0x04, 3, 9, 4, 2, 77, [1]⟩, by decide +kernel⟩,
    ⟨small, { up with hg := [(1, { state := .active, credO := 1, txq := [(⟨0x04, 3, 9, 4, 2, 77, [1]⟩, none)] }), (0, { linkUp := true, state := .train, credO := 5 })] }, 1, 4, 0, ⟨0x04, 3, 9, 4, 2, 77, [1]⟩, none, by decide +kernel⟩,
    ⟨small, { up with hg := [(1, { state := .active, rxA := 8, heldItems := [(3, ⟨0x04, 3, 9, 4, 2, 77, [1]⟩, none), (8, ⟨0x04, 3, 9, 4, 2, 77, [1]⟩, none)] }), (0, { linkUp := true, state := .train, credO := 5 })] }, 1, 5, by decide +kernel⟩,
    ⟨small, { up with hg := [(1, { state := .active, credA := 9, rxSeq := 70, lastConf := 3 }), (0, { linkUp := true, state := .train, credO := 5 })] }, 1, by decide +kernel⟩,
    ⟨small, { up with hg := [(1, { state := .down, downPend := true, credO := 5 }), (0, { linkUp := true, state := .train, credO := 5 })], routes := [(9, ⟨true, 1⟩), (12, ⟨true, 0⟩)] }, 1, 9, by decide +kernel⟩⟩

theorem witness_MemoryErrorsAndLog :
    (∃ (p : Params) (b : Block) (u : UnitId) (t : Nat) (e : Bool), unitUp p b u ∧ patrols u ∧ (Tbl.get 0 b.ecc.lastScrub (unitNo u) = 0
        ∨ Tbl.get 0 b.ecc.lastScrub (unitNo u) + scrubGap p b u ≤ b.clk.fclk + 1) ∧ Tbl.get 0 b.ecc.next (unitNo u * 256 + t % 256) ≠ 0 ∧ inTurn p b {} (.scrubRead u t (.patrol e) false) ∧ NoneDue b) ∧
    (∃ (p : Params) (b : Block) (u : UnitId) (t i : Nat), unitUp p b u ∧ inTurn p b {} (.scrubRead u t (.ordinary i) false) ∧ NoneDue b) ∧
    (∃ (p : Params) (b : Block) (u : UnitId) (t i : Nat), unitUp p b u ∧ inTurn p b {} (.scrubRead u t (.ordinary i) true) ∧ NoneDue b) ∧
    (∃ (p : Params) (b : Block) (u : UnitId) (t : Nat) (e c : Bool), unitUp p b u ∧ (patrols u = false ∨ (Tbl.get 0 b.ecc.lastScrub (unitNo u) ≠ 0
        ∧ b.clk.fclk + 1 < Tbl.get 0 b.ecc.lastScrub (unitNo u) + scrubGap p b u)) ∧ inTurn p b {} (.scrubRead u t (.patrol e) c) ∧ NoneDue b) ∧
    (∃ (p : Params) (b : Block) (w i n : Nat), wardUp p b w ∧ inTurn p b {} (.uncorrectableWord (.ward w) 0x16 i n) ∧ NoneDue b) ∧
    (∃ (p : Params) (b : Block) (w i n : Nat), wardUp p b w ∧ n % 4096 < (cqu b w (n / 4096)).len ∧ inTurn p b {} (.uncorrectableWord (.ward w) 0x15 i n) ∧ NoneDue b) ∧
    (∃ (p : Params) (b : Block) (i n : Nat), keeperUp b ∧ n < 16 ∧ inTurn p b {} (.uncorrectableWord .keeper 0x04 i n) ∧ NoneDue b) ∧
    (∃ (p : Params) (b : Block) (h t i : Nat), hingeUp p b h ∧ (hng b h).state ≠ .down ∧ inTurn p b {} (.uncorrectableWord (.hinge h) t i 0) ∧ NoneDue b) ∧
    (∃ (p : Params) (b : Block) (u : UnitId) (x : LogRec) (n : Nat) (l : List (LogRec × Nat)), keeperUp b ∧ Tbl.get [] b.log.air (unitNo u) = (x, n) :: l ∧ b.log.failed = false ∧ b.log.recs.length < 1024 ∧ inTurn p b {} (.logRecordArrival u) ∧ NoneDue b) ∧
    (∃ (p : Params) (b : Block) (u : UnitId) (x : LogRec) (n : Nat) (l : List (LogRec × Nat)), keeperUp b ∧ Tbl.get [] b.log.air (unitNo u) = (x, n) :: l ∧ b.log.failed = false ∧ 1024 ≤ b.log.recs.length ∧ inTurn p b {} (.logRecordArrival u) ∧ NoneDue b) ∧
    (∃ (p : Params) (b : Block) (u : UnitId) (x : LogRec) (n : Nat) (l : List (LogRec × Nat)), keeperUp b ∧ Tbl.get [] b.log.air (unitNo u) = (x, n) :: l ∧ b.log.failed = true ∧ b.log.lr.length < 4 ∧ inTurn p b {} (.logRecordArrival u) ∧ NoneDue b) ∧
    (∃ (p : Params) (b : Block) (u : UnitId), keeperUp b ∧ Tbl.get [] b.log.air (unitNo u) = [] ∧ inTurn p b {} (.logRecordArrival u) ∧ NoneDue b) := by
  exact ⟨⟨small, { up with ecc := { lastScrub := [(3, 7)], next := [(517, 9)], ce := [(9, 3)] } }, (.ward 1), 5, true, by decide +kernel⟩,
    ⟨small, (wr small (wA 1 0 0x0D0) 100 { up with ecc := { lastScrub := [(2, 2999999)] } }), (.ward 1), 3, 5, by decide +kernel⟩,
    ⟨small, { up with ecc := { lastScrub := [(3, 7)], ce := [(9, 3)] } }, (.ward 1), 3, 5, by decide +kernel⟩,
    ⟨small, (wr small (wA 1 0 0x0D0) 100 { up with ecc := { lastScrub := [(2, 2999999)] } }), (.ward 1), 3, true, true, by decide +kernel⟩,
    ⟨small, { up with slots := [(4096 + 5, { v := true, value := 8, f := true })] }, 1, 3, 3, by decide +kernel⟩,
    ⟨small, { up with cq := [(67, { st := .opened, len := 8, n := 2, entry := 2051 })] }, 1, 3, 12290, by decide +kernel⟩,
    ⟨small, up, 3, 5, by decide +kernel⟩,
    ⟨small, { up with hg := [(1, { state := .active, rxO := 64, rxA := 64 }), (0, { linkUp := true, state := .train, credO := 5 })] }, 1, 3, 3, by decide +kernel⟩,
    ⟨small, { up with log := { recs := [{ status := 7 }], dropped := 6, failed := false, air := [(2, [({ status := 2 }, 3), ({ status := 5 }, 0)])], lost := [(2, 3)] } }, (.ward 1), { status := 2 }, 3, [({ status := 5 }, 0)], by decide +kernel⟩,
    ⟨small, { up with log := { recs := List.replicate 1024 { status := 7 }, dropped := 6, failed := false, air := [(2, [({ status := 2 }, 3), ({ status := 5 }, 0)])] } }, (.ward 1), { status := 2 }, 3, [({ status := 5 }, 0)], by decide +kernel⟩,
    ⟨small, { up with log := { recs := [{ status := 7 }], dropped := 6, failed := true, lr := [7, 8], air := [(2, [({ status := 2 }, 3), ({ status := 5 }, 0)])], lost := [(2, 3)] } }, (.ward 1), { status := 2 }, 3, [({ status := 5 }, 0)], by decide +kernel⟩,
    ⟨small, up, (.ward 1), by decide +kernel⟩⟩

theorem witness_SequencerFaults :
    (∃ (p : Params) (b : Block) (w : Nat), wardUp p b w ∧ inTurn p b {} (.replay (.ward w)) ∧ NoneDue b) ∧
    (∃ (p : Params) (b : Block) (h : Nat), hingeUp p b h ∧ inTurn p b {} (.replay (.hinge h)) ∧ NoneDue b) ∧
    (∃ (p : Params) (b : Block) (w : Nat) (a : Bool), wardUp p b w ∧ (a = false ∨ Tbl.get 0 b.ecc.retry (1 + w) < 2) ∧ inTurn p b {} (.crossbarRetransmit (.ward w) a) ∧ NoneDue b) ∧
    (∃ (p : Params) (b : Block) (u : UnitId), unitUp p b u ∧ 2 ≤ Tbl.get 0 b.ecc.retry (unitNo u) ∧ b.dbolt.state ≠ .fault ∧ inTurn p b {} (.crossbarRetransmit u true) ∧ NoneDue b) ∧
    (∃ (p : Params) (b : Block) (m : BitVec 3) (i : Nat), keeperUp b ∧ bitsOf m 3 = [i] ∧ b.boot.hard = none ∧ b.boot.laneAt = [] ∧ inTurn p b {} (.tmrDisagreement m) ∧ NoneDue b) ∧
    (∃ (p : Params) (b : Block) (m : BitVec 3), keeperUp b ∧ 2 ≤ (bitsOf m 3).length ∧ b.boot.hard = none ∧ b.dbolt.state ≠ .fault ∧ inTurn p b {} (.tmrDisagreement m) ∧ NoneDue b) := by
  exact ⟨⟨small, up, 1, by decide +kernel⟩,
    ⟨small, { up with hg := [(1, { state := .active, rxO := 64, rxA := 64 }), (0, { linkUp := true, state := .train, credO := 5 })] }, 1, by decide +kernel⟩,
    ⟨small, up, 1, true, by decide +kernel⟩,
    ⟨small, { up with ecc := { retry := [(2, 2)] } }, (.ward 1), by decide +kernel⟩,
    ⟨small, { up with boot := { up.boot with lane := [3, 4, 5] } }, 2, 1, by decide +kernel⟩,
    ⟨small, up, 3, by decide +kernel⟩⟩

theorem witness_LastResortRegisters :
    (∃ (p : Params) (b : Block) (u : UnitId) (x : LogRec) (n : Nat) (l : List (LogRec × Nat)), keeperUp b ∧ Tbl.get [] b.log.air (unitNo u) = (x, n) :: l ∧ b.log.failed = true ∧ b.log.lr.length = 4 ∧ inTurn p b {} (.logRecordArrival u) ∧ NoneDue b) ∧
    (∃ (p : Params) (b : Block), mgtFree b ∧ inTurn p b {} .lrClear ∧ NoneDue b) ∧
    (∃ (p : Params) (b : Block), mgtFree b ∧ tabReady b 0 ∧ inTurn p b {} .logReinit ∧ NoneDue b) := by
  exact ⟨⟨small, { up with log := { failed := true, lr := [1, 2, 3, 4], lrOvf := 5, air := [(2, [({ status := 2 }, 3), ({ status := 5 }, 0)])] } }, (.ward 1), { status := 2 }, 3, [({ status := 5 }, 0)], by decide +kernel⟩,
    ⟨small, { up with log := { failed := true, lr := [1, 2, 3, 4], lrOvf := 5 } }, by decide +kernel⟩,
    ⟨small, { up with log := { failed := true, lr := [1, 2], lrOvf := 5 } }, by decide +kernel⟩⟩

theorem witness_DeadboltAndHang :
    (∃ (p : Params) (b : Block) (a : Bool), keeperUp b ∧ inTurn p b {} (.deadboltSample a a) ∧ NoneDue b) ∧
    (∃ (p : Params) (b : Block) (a : Bool), keeperUp b ∧ b.dbolt.disagree + 1 = discLimit p b ∧ inTurn p b {} (.deadboltSample a (!a)) ∧ NoneDue b) ∧
    (∃ (p : Params) (b : Block) (a : Bool), keeperUp b ∧ b.dbolt.disagree + 1 ≠ discLimit p b ∧ inTurn p b {} (.deadboltSample a (!a)) ∧ NoneDue b) ∧
    (∃ (p : Params) (b : Block), keeperUp b ∧ b.dbolt.input = true ∧ b.dbolt.asserted = false ∧ b.dbolt.state = .run ∧ inTurn p b {} .deadboltAssert ∧ NoneDue b) ∧
    (∃ (p : Params) (b : Block) (t : Nat), keeperUp b ∧ b.dbolt.trigAt = some t ∧ b.dbolt.state = .drain ∧ t + 40 ≤ b.clk.fclk ∧ inTurn p b {} .drainEnd ∧ NoneDue b) ∧
    (∃ (p : Params) (b : Block), keeperUp b ∧ b.dbolt.asserted = true ∧ b.dbolt.input = false ∧ b.dbolt.state ≠ .fault ∧ inTurn p b {} .deadboltRelease ∧ NoneDue b) ∧
    (∃ (p : Params) (b : Block), keeperUp b ∧ b.dbolt.asserted = true ∧ b.dbolt.input = false ∧ b.dbolt.state = .fault ∧ inTurn p b {} .deadboltRelease ∧ NoneDue b) ∧
    (∃ (p : Params) (b : Block) (r : Nat), wardUp p b (rHome (rng b r)) ∧ hangLimit p b ≠ 0 ∧ hangLimit p b ≤ (rng b r).hangTicks ∧ (rng b r).hung = false ∧ inTurn p b {} (.hangDetect r) ∧ NoneDue b) := by
  exact ⟨⟨small, { up with dbolt := { disagree := 7 } }, true, by decide +kernel⟩,
    ⟨small, { up with dbolt := { disagree := discLimit small up - 1 } }, true, by decide +kernel⟩,
    ⟨small, { up with dbolt := { disagree := 7 } }, true, by decide +kernel⟩,
    ⟨small, { up with dbolt := { input := true } }, by decide +kernel⟩,
    ⟨small, { up with dbolt := { state := .drain, trigAt := some 2999950 } }, 2999950, by decide +kernel⟩,
    ⟨small, { up with dbolt := { asserted := true, state := .quiesced } }, by decide +kernel⟩,
    ⟨small, { up with dbolt := { asserted := true, state := .fault } }, by decide +kernel⟩,
    ⟨small, (wr small (kA 8 0x050) 2 { up with rings := [(1, { enable := true, d1 := 0x04000600, hangTicks := 3000 }), (9, { d1 := 0x05000000, enable := true, subs := [{ subid := 77, recNo := 0, unsettled := 5 }], walk := { mode := .stopped, subid := 77 } })] }), 1, by decide +kernel⟩⟩

theorem witness_TracePath :
    (∃ (p : Params) (b : Block), keeperUp b ∧ (b.trace.state = .off ∨ b.trace.state = .stopped) ∧ inTurn p b {} .traceEntryStage ∧ NoneDue b) ∧
    (∃ (p : Params) (b : Block) (u : Nat) (e : TrEnt), keeperUp b ∧ b.trace.state = .armed ∧ b.trace.fifo = [(u, [e])] ∧ inTurn p b {} .traceEntryStage ∧ NoneDue b) ∧
    (∃ (p : Params) (b : Block) (w : Nat), wardUp p b w ∧ trCap (1 + w) ≤ (Tbl.get [] b.trace.fifo (1 + w)).length ∧ (b.trace.state = .armed ∨ b.trace.state = .post) ∧ inTurn p b {} (.traceFifoDrop (.ward w)) ∧ NoneDue b) ∧
    (∃ (p : Params) (b : Block) (l : List TrSlot) (x : TrSlot) (r : List TrSlot), keeperUp b ∧ (trRuns b.trace.staged).find? (runDue b) = some l ∧ l = x :: r ∧ inTurn p b {} .traceBlockWrite ∧ NoneDue b) ∧
    (∃ (p : Params) (b : Block), keeperUp b ∧ inTurn p b {} (.traceWriteResponse .okay) ∧ NoneDue b) ∧
    (∃ (p : Params) (b : Block) (w i : Nat), wardUp p b w ∧ trMask p b (.ward w) ∧ (b.trace.state = .armed ∨ b.trace.state = .post) ∧ Tbl.get 0 b.trace.sampAt w + samplePer p b ≤ b.clk.fclk ∧ i = Tbl.get 0 b.trace.sampNext w % p.ne ∧ inTurn p b {} (.samplePeriod w) ∧ NoneDue b) := by
  exact ⟨⟨small, up, by decide +kernel⟩,
    ⟨small, { up with trace := { state := .armed, fifo := [(1, [⟨99, 3, .ward 0, 1, 2, 3, 4, 5⟩])] } }, 1, ⟨99, 3, .ward 0, 1, 2, 3, 4, 5⟩, by decide +kernel⟩,
    ⟨small, { up with trace := { state := .armed, fifo := [(1, List.replicate 32 ⟨99, 3, .ward 0, 1, 2, 3, 4, 5⟩)] } }, 0, by decide +kernel⟩,
    ⟨small, { up with trace := { state := .armed, staged := [⟨false, 0, 14, 5, 3, ⟨99, 3, .ward 0, 1, 2, 3, 4, 5⟩⟩, ⟨false, 0, 15, 5, 3, ⟨99, 3, .ward 0, 1, 2, 3, 4, 5⟩⟩] ++ [⟨false, 1, 2, 5, 3, ⟨99, 3, .ward 0, 1, 2, 3, 4, 5⟩⟩] } }, [⟨false, 0, 14, 5, 3, ⟨99, 3, .ward 0, 1, 2, 3, 4, 5⟩⟩, ⟨false, 0, 15, 5, 3, ⟨99, 3, .ward 0, 1, 2, 3, 4, 5⟩⟩], ⟨false, 0, 14, 5, 3, ⟨99, 3, .ward 0, 1, 2, 3, 4, 5⟩⟩, [⟨false, 0, 15, 5, 3, ⟨99, 3, .ward 0, 1, 2, 3, 4, 5⟩⟩], by decide +kernel⟩,
    ⟨small, up, by decide +kernel⟩,
    ⟨small, (wr small (trA 0x064) 2 { up with trace := { state := .armed, sampNext := [(1, 1)] }, ports := [(9, { sampleBusy := 77, online := true })] }), 1, 1, by decide +kernel⟩⟩

theorem witness_TraceWriteFault :
    ∃ (p : Params) (b : Block), keeperUp b ∧ inTurn p b {} (.traceWriteResponse .fault) ∧ NoneDue b := by
  exact ⟨small, { up with trace := { state := .armed, werr := 6 } }, by decide +kernel⟩

theorem witness_LockRule :
    (∃ (p : Params) (b : Block), mgtFree b ∧ b.boot.state = .ready ∧ b.dbolt.state ≠ .fault ∧ inTurn p b {} .lock ∧ NoneDue b) ∧
    (∃ (p : Params) (b : Block), mgtFree b ∧ (b.boot.state ≠ .ready ∨ b.dbolt.state = .fault) ∧ inTurn p b {} .lock ∧ NoneDue b) := by
  exact ⟨⟨small, up, by decide +kernel⟩,
    ⟨small, { up with boot := { up.boot with state := .failed } }, by decide +kernel⟩⟩

/-! ## Witnesses of the other statements and clauses -/

theorem witness_DumpFreezes : ∃ (b : Block), b.dump.going = true := ⟨{ up with dump := { going := true } }, rfl⟩
theorem witness_LogSends : ∃ (n : Nat) (b : Block) (x : LogRec) (l : List LogRec), Tbl.get [] b.log.buf n = x :: l :=
  ⟨2, { up with log := { buf := [(2, [{ status := 5 }])] } }, { status := 5 }, [], by decide +kernel⟩
theorem witness_LastResortFull : ∃ (r : LogRec) (b : Block), r.src = .keeper ∧ b.log.failed = true ∧ b.log.lr.length = 4 :=
  ⟨{ status := 7 }, { up with log := { failed := true, lr := [1, 2, 3, 4], lrOvf := 5 } }, by decide +kernel⟩
theorem witness_EveryCommandAnswers : ∃ (p : Params) (b : Block) (k : Cycle) (c : Instr), inTurn p b k c = false :=
  ⟨small, upRead, {}, .lock, by decide +kernel⟩
theorem witness_SoundKept : ∃ (s t : State), Sound s.params s.block ∧ step s = .next t :=
  ⟨⟨small, [.deadboltSample true false], up, {}⟩, _,
    by constructor <;> (first | decide +kernel | (unfold regsCanonical; decide +kernel) | (unfold Log.fits; decide +kernel)), rfl⟩
theorem witness_LockKept : ∃ (s t : State), step s = .next t ∧ s.block.boot.lock = true :=
  ⟨⟨small, [.deadboltSample true false], { up with boot := { up.boot with lock := true } }, {}⟩, _, rfl, rfl⟩
theorem witness_FaultHeld : ∃ (s t : State), step s = .next t ∧ s.block.dbolt.state = .fault :=
  ⟨⟨small, [.deadboltRelease], { up with dbolt := { state := .fault, asserted := true } }, {}⟩, _, rfl, rfl⟩

end Sys2Proof.Tests
end

section
/-! SUPPORT. How a command that its cycle takes runs on the block: events of the Keeper and writes of Keeper-page
registers. -/

namespace Sys2Proof.Machine

variable {c : Instr} {p : Params} {q : List Instr} {b : Block} {Q : Block → Prop}

/-- A command sampled in the cycle under way does what its meaning does to the block as it stands (R27, R29). -/
theorem takes_of_run {g : Params → Block → Bool} {f : Params → Block → Block}
    (he : ∀ s, exec c s = (s.sampled c).run g f) (hg : g p b = true) (hQ : Q (f p b)) : Takes c p q b Q := by
  intro k ht hn
  refine ⟨f p b, ?_, hQ⟩
  rw [he, sampled_now c p q b k ht hn, run_on hg]
  rfl

/-- An event of the Keeper while the Keeper takes events. -/
theorem takes_of_runK {f : Params → Block → Block} (he : ∀ s, exec c s = (s.sampled c).runK f) (hup : keeperUp b)
    (hQ : Q (f p b)) : Takes c p q b Q :=
  takes_of_run he hup hQ

/-- A Keeper-page register write while the management port accepts writes. -/
theorem takes_of_keeperReg {a : Nat} {v : Word32} {tab : Bool} {f : Params → Block → Block}
    (he : ∀ s, exec c s = (s.sampled c).keeperReg a v tab f) (hfree : mgtFree b)
    (hQ : Q (regWrite a v (if tab then [0] else []) [a / 0x1000] (f p) b)) : Takes c p q b Q :=
  takes_of_run (g := fun _ => mgtFree) (f := fun p => regWrite a v (if tab then [0] else []) [a / 0x1000] (f p))
    he hfree hQ

/-- A register write that no rescrub holds back takes its effect (R368). -/
theorem regWrite_of_ready {a : Nat} {v : Word32} {need pages : List Nat} {f : Block → Block}
    (h : need.all (tabReady b) = true) :
    regWrite a v need pages f b = dropHeld pages (f (updMgt (fun m => { m with resp := .okay }) b)) := if_pos h

@[simp] theorem dropHeld_log (pages : List Nat) (b : Block) : (dropHeld pages b).log = b.log := rfl

end Sys2Proof.Machine
end

section
/-! SUPPORT. The error log: what an event adds to it, in the log or in the last-resort registers (R288 to R292). -/

namespace Sys2Proof.Machine

@[simp] theorem trForm_log (p : Params) (u : UnitId) (e : TrEnt) (b : Block) : (trForm p u e b).log = b.log :=
  trForm_only p u e b .log (by decide)

@[simp] theorem logIrq_log (p : Params) (u : UnitId) (b : Block) : (logIrq p u b).log = b.log :=
  logIrq_only p u b .log (by decide)

@[simp] theorem trTrigger_log (p : Params) (src : Nat) (st : Status) (b : Block) : (trTrigger p src st b).log = b.log :=
  trTrigger_only p src st b .log (by decide)

/-- An operation that leaves the log leaves it under a condition too. -/
theorem when_log {f : Block → Block} (hf : ∀ b, (f b).log = b.log) (q : Bool) (b : Block) : (when q f b).log = b.log := by
  cases q
  · rfl
  · exact hf b

theorem lastResort_log_of_full (r : LogRec) {b : Block} (hfull : b.log.lr.length = 4) :
    (lastResort r b).log = { b.log with lrOvf := min 0xFFFF (b.log.lrOvf + 1) } := by
  simp [lastResort, hfull]

theorem lastResort_cnt (r : LogRec) (b : Block) : (lastResort r b).log.cnt = b.log.cnt := by
  simp only [lastResort, updLog_log]
  split <;> rfl

/-- The interrupt and the trace trigger that follow a stored record leave the log as the storing made it. -/
theorem storeLog_log (p : Params) (r : LogRec) (b : Block) :
    (storeLog p r b).log = (if b.log.failed then lastResort r b
      else if b.log.recs.length < 1024 then updLog (fun l => { l with recs := l.recs ++ [r], fresh := l.fresh + 1 }) b
      else updLog (fun l => { l with late := l.late ++ [r] }) b).log :=
  (when_log (trTrigger_log p 1 r.status) _ _).trans (when_log (logIrq_log p r.src) _ _)

/-- While FAILED is 1 a record goes to the last-resort registers (R291); with all four in use it only adds to OVF (R292). -/
theorem storeLog_of_full (p : Params) (r : LogRec) {b : Block} (hfail : b.log.failed = true)
    (hfull : b.log.lr.length = 4) :
    (storeLog p r b).log.lrOvf = min 0xFFFF (b.log.lrOvf + 1) ∧ (storeLog p r b).log.lr = b.log.lr
    ∧ (storeLog p r b).log.recs = b.log.recs := by
  rw [storeLog_log, if_pos hfail, lastResort_log_of_full r hfull]
  exact ⟨rfl, rfl, rfl⟩

/-- The counts by status are taken where a record is formed, not where it is stored (R289). -/
theorem storeLog_cnt (p : Params) (r : LogRec) (b : Block) : (storeLog p r b).log.cnt = b.log.cnt := by
  rw [storeLog_log]
  split
  · exact lastResort_cnt r b
  · split <;> rfl

/-- The block in which a formed record is counted by status and traced, and not yet on its way (R289, R310). -/
def countLog (p : Params) (r : LogRec) (b : Block) : Block :=
  trForm p .keeper ⟨b.clk.ts, 0x70, r.src, r.layer, r.opid, r.tenant, r.status.toNat, r.handle⟩
    (updLog (fun l => { l with cnt := Tbl.upd 0 l.cnt r.status.toNat (fun n => satAdd (2 ^ 32 - 1) n 1) }) b)

theorem countLog_log (p : Params) (r : LogRec) (b : Block) :
    (countLog p r b).log =
      { b.log with cnt := Tbl.upd 0 b.log.cnt r.status.toNat (fun n => satAdd (2 ^ 32 - 1) n 1) } := by
  simp [countLog]

/-- A record of the Keeper is stored at once (R289). -/
theorem logRec_of_keeper (p : Params) (r : LogRec) (b : Block) (hsrc : r.src = .keeper) :
    logRec p r b = storeLog p { r with ts := b.clk.ts } (countLog p r b) := by
  simp only [logRec, countLog, hsrc]

/-- Wherever a formed record goes, storing or buffering it leaves the counts by status (R289). -/
theorem logRec_cnt (p : Params) (r : LogRec) (b : Block) : (logRec p r b).log.cnt = (countLog p r b).log.cnt := by
  cases hsrc : r.src with
  | keeper => rw [logRec_of_keeper p r b hsrc, storeLog_cnt]
  | ward w =>
    simp only [logRec, countLog, hsrc]
    split <;> rfl
  | hinge h =>
    simp only [logRec, countLog, hsrc]
    split <;> rfl

/-- KP_LR_CTRL.CLEAR (R292). -/
theorem lrCtrl_clear_log (b : Block) : (lrCtrl 1 b).log = { b.log with lr := [], lrOvf := 0 } := rfl

/-- KP_LOG_CTRL.REINIT without POP (R292). -/
theorem logCtrl_reinit_log (b : Block) :
    (logCtrl 2 b).log = { b.log with
      failed := false, recs := [], late := [], fresh := 0
      dropped := satAdd (2 ^ 32 - 1) b.log.dropped (b.log.recs.length + b.log.late.length) } := rfl

end Sys2Proof.Machine
end

section
/-! PROOFS. The last-resort registers (R292). -/

namespace Sys2Proof.Machine

/-- Every event is counted by its status, saturating (R289, R292). -/
theorem logRec_counts_status (p : Params) (r : LogRec) (b : Block) :
    Tbl.get 0 (logRec p r b).log.cnt r.status.toNat = satAdd (2 ^ 32 - 1) (Tbl.get 0 b.log.cnt r.status.toNat) 1 := by
  rw [logRec_cnt, countLog_log, Tbl.get_upd_same]

/-- An event of the Keeper with the log failed and no last-resort register free. -/
theorem logRec_keeper_ovf (p : Params) (r : LogRec) (b : Block) (hsrc : r.src = .keeper) (hfail : b.log.failed = true)
    (hfull : b.log.lr.length = 4) :
    (logRec p r b).log.lrOvf = min 0xFFFF (b.log.lrOvf + 1) ∧ (logRec p r b).log.lr = b.log.lr
    ∧ (logRec p r b).log.recs = b.log.recs := by
  have hs := storeLog_of_full p { r with ts := b.clk.ts } (b := countLog p r b) (by simpa only [countLog_log] using hfail)
    (by simpa only [countLog_log] using hfull)
  simpa only [logRec_of_keeper p r b hsrc, countLog_log] using hs

/-- The same for a record that another unit sends from its buffer. -/
theorem logRecordArrival_ovf (p : Params) (q : List Instr) (b : Block) (u : UnitId) (x : LogRec) (n : Nat)
    (l : List (LogRec × Nat)) (hup : keeperUp b) (hair : Tbl.get [] b.log.air (unitNo u) = (x, n) :: l)
    (hfail : b.log.failed = true) (hfull : b.log.lr.length = 4) :
    Takes (.logRecordArrival u) p q b fun d =>
      d.log.lrOvf = min 0xFFFF (b.log.lrOvf + 1) ∧ d.log.lr = b.log.lr ∧ d.log.recs = b.log.recs := by
  refine takes_of_runK (fun _ => rfl) hup ?_
  simp only [hair]
  exact storeLog_of_full p x hfail hfull

theorem lrClear_empties (p : Params) (q : List Instr) (b : Block) (hfree : mgtFree b) :
    Takes .lrClear p q b fun d => d.log = { b.log with lr := [], lrOvf := 0 } ∧ Only [.mgt, .log] b d := by
  refine takes_of_keeperReg (fun _ => rfl) hfree ⟨?_, ?_⟩
  · rw [regWrite_of_ready rfl, dropHeld_log, lrCtrl_clear_log, updMgt_log]
  · exact regWrite_only (by decide) (fun x => (lrCtrl_only 1 x).mono (by decide)) (Only.refl _ _)

theorem logReinit_empties (p : Params) (q : List Instr) (b : Block) (hfree : mgtFree b) (hready : tabReady b 0) :
    Takes .logReinit p q b fun d =>
      d.log = { b.log with
        failed := false, recs := [], late := [], fresh := 0
        dropped := satAdd (2 ^ 32 - 1) b.log.dropped (b.log.recs.length + b.log.late.length) }
      ∧ Only [.mgt, .log] b d := by
  refine takes_of_keeperReg (fun _ => rfl) hfree ⟨?_, ?_⟩
  · rw [regWrite_of_ready (by simp [hready]), dropHeld_log, logCtrl_reinit_log, updMgt_log]
  · exact regWrite_only (by decide) (fun x => (logCtrl_only 2 x).mono (by decide)) (Only.refl _ _)

/-- Settles O49: each clause is what the log's operations say of an event, a CLEAR or a REINIT. -/
theorem lastResortRegisters : Obligations.LastResortRegisters :=
  ⟨logRec_counts_status, logRec_keeper_ovf, logRecordArrival_ovf, lrClear_empties, logReinit_empties⟩

end Sys2Proof.Machine
end

section
/-! PROOFS. The response to a trace write (R318). -/

namespace Sys2Proof.Machine

/-- A fault response does one thing to the trace: WERR counts it, up to its limit. -/
theorem exec_traceWriteResponse_fault (s : State) :
    exec (.traceWriteResponse .fault) s = (s.sampled (.traceWriteResponse .fault)).runK fun _ =>
      updTr fun t => { t with werr := satAdd (2 ^ 32 - 1) t.werr 1 } := rfl

/-- Settles O52: the command is one update of the trace, and an update of the trace leaves every other part. -/
theorem traceWriteFault : Obligations.TraceWriteFault := by
  intro p q b hup
  exact takes_of_runK exec_traceWriteResponse_fault hup ⟨updTr_trace _ b, updTr_only _ b⟩

end Sys2Proof.Machine
end

section
/-! SUPPORT. What leaves LOCK set: the rules by which an operation, an event's frame and the sampling of a command are
seen to leave the start state, or LOCK in it, as it was (R389). -/

namespace Sys2Proof.Machine

/-! ## The start state under the operations -/

/-- An operation whose frame does not list the start state leaves it. -/
theorem Only.boot {l : List BlockPart} {b c : Block} (h : Only l b c) (hl : decide (BlockPart.boot ∈ l) = false) :
    c.boot = b.boot :=
  h .boot (of_decide_eq_false hl)

section HigherOrder

variable {p : Params} {f : Block → Block} {b : Block}

@[simp] theorem when_boot {q : Bool} (hf : ∀ c, (f c).boot = c.boot) : (when q f b).boot = b.boot := by
  cases q
  · rfl
  · exact hf b

@[simp] theorem forEach_boot {α : Type} {l : List α} {f : α → Block → Block}
    (hf : ∀ x c, (f x c).boot = c.boot) : (forEach l f b).boot = b.boot := by
  unfold forEach
  induction l generalizing b with
  | nil => rfl
  | cons x l ih => exact ih.trans (hf x b)

@[simp] theorem rxItem_boot {h n : Nat} {ordered : Bool} (hf : ∀ c, (f c).boot = c.boot) :
    (rxItem p h n ordered f b).boot = b.boot := by
  unfold rxItem
  split
  · rfl
  · split
    · exact (goDown_only _ _ _).boot rfl
    · exact (hf _).trans ((hingeIn_only _ _ _ _).boot rfl)

@[simp] theorem rxData_boot {h : Nat} {it : Item} {f : Item → Block → Block} (hf : ∀ x c, (f x c).boot = c.boot) :
    (rxData p h it f b).boot = b.boot :=
  rxItem_boot fun _ => hf _ _

@[simp] theorem rxItems_boot {h : Nat} {l : List Nat} {ordered : Bool} (hf : ∀ c, (f c).boot = c.boot) :
    (rxItems p h l ordered f b).boot = b.boot :=
  rxItem_boot fun _ => (hf _).trans (forEach_boot fun _ _ => (hingeIn_only _ _ _ _).boot rfl)

@[simp] theorem useOpd_boot {r : Nat} {x : BitVec 512} {v : OpdVal} {f : Nat → Block → Block}
    (hf : ∀ n c, (f n c).boot = c.boot) : (useOpd p r x v f b).boot = b.boot := by
  cases v with
  | val n => exact hf n b
  | bad st => exact (recFault_only _ _ _ _ _).boot rfl
  | need a => exact (walkRead_only _ _ _ _).boot rfl

@[simp] theorem walkHasp_boot {r : Nat} {x : BitVec 512} {op : Nat} {v : Word32} {wait : Bool}
    {f : Nat → Block → Block} (hf : ∀ h c, (f h c).boot = c.boot) :
    (walkHasp p r x op v wait f b).boot = b.boot := by
  unfold walkHasp
  dsimp only
  split
  · exact (recFault_only _ _ _ _ _).boot rfl
  · split
    · exact hf _ _
    · exact (sendItem_only _ _ _).boot rfl

end HigherOrder

/-! ### Operations that many events are made of -/

@[simp] theorem voidW_boot (w : Nat) (b : Block) : (voidW w b).boot = b.boot := (voidW_only _ _).boot rfl
@[simp] theorem raiseK_boot (p : Params) (i : Nat) (b : Block) : (raiseK p i b).boot = b.boot :=
  (raiseK_only _ _ _).boot rfl
@[simp] theorem raiseH_boot (p : Params) (h i : Nat) (b : Block) : (raiseH p h i b).boot = b.boot :=
  (raiseH_only _ _ _ _).boot rfl
@[simp] theorem xrx_boot (w n : Nat) (b : Block) : (xrx w n b).boot = b.boot := (xrx_only _ _ _).boot rfl
@[simp] theorem xsend_boot (w : Option Nat) (n : Nat) (it : XItem) (b : Block) : (xsend w n it b).boot = b.boot :=
  (xsend_only _ _ _ _).boot rfl
@[simp] theorem xdrop_boot (f : XItem → Bool) (b : Block) : (xdrop f b).boot = b.boot := (xdrop_only _ _).boot rfl
@[simp] theorem logRec_boot (p : Params) (r : LogRec) (b : Block) : (logRec p r b).boot = b.boot :=
  (logRec_only _ _ _).boot rfl
@[simp] theorem evRec_boot (p : Params) (n kind : Nat) (status : Status) (aux gen h : Nat) (b : Block) :
    (evRec p n kind status aux gen h b).boot = b.boot :=
  (evRec_only _ _ _ _ _ _ _ _).boot rfl
@[simp] theorem hingeFlush_boot (h n : Nat) (b : Block) : (hingeFlush h n b).boot = b.boot :=
  (hingeFlush_only _ _ _).boot rfl
@[simp] theorem goDown_boot (p : Params) (h : Nat) (b : Block) : (goDown p h b).boot = b.boot :=
  (goDown_only _ _ _).boot rfl
@[simp] theorem sendItem_boot (w : Option Nat) (it : Item) (b : Block) : (sendItem w it b).boot = b.boot :=
  (sendItem_only _ _ _).boot rfl
@[simp] theorem progress_boot (r : Nat) (b : Block) : (progress r b).boot = b.boot := (progress_only _ _).boot rfl
@[simp] theorem endCycle_boot (p : Params) (eoc : Bool) (b : Block) : (endCycle p eoc b).boot = b.boot :=
  (endCycle_only _ _ _).boot rfl
@[simp] theorem sampleItem_boot (p : Params) (kind : Nat) (word root : Word32) (src : Option Via) (b : Block) :
    (sampleItem p kind word root src b).boot = b.boot :=
  (sampleItem_only _ _ _ _ _ _).boot rfl
@[simp] theorem updChan_boot (k : ChKey) (f : Chan → Chan) (b : Block) : (updChan k f b).boot = b.boot :=
  (updChan_only _ _ _).boot rfl
@[simp] theorem answerHere_boot (p : Params) (n : Nat) (hdr : BitVec 512) (st : Status) (result : Word32)
    (chid : Nat) (seq : BitVec 16) (b : Block) :
    (answerHere p n hdr st result chid seq b).boot = b.boot :=
  (answerHere_only _ _ _ _ _ _ _ _).boot rfl
@[simp] theorem mqServe_boot (p : Params) (n : Nat) (b : Block) : (mqServe p n b).boot = b.boot :=
  (mqServe_only _ _ _).boot rfl
@[simp] theorem beginClose_boot (w : Option Nat) (key : ChKey) (b : Block) : (beginClose w key b).boot = b.boot :=
  (beginClose_only _ _ _).boot rfl
@[simp] theorem registerWait_boot (who : Waiter) (h : Nat) (target : Word32) (b : Block) :
    (registerWait who h target b).boot = b.boot :=
  (registerWait_only _ _ _ _).boot rfl
@[simp] theorem haltRing_boot (p : Params) (r kind : Nat) (rec1 : BitVec 512) (va : Nat) (b : Block) :
    (haltRing p r kind rec1 va b).boot = b.boot :=
  (haltRing_only _ _ _ _ _ _).boot rfl
@[simp] theorem walkFault_boot (p : Params) (r : Nat) (st : Status) (off : Nat) (rec1 : BitVec 512) (b : Block) :
    (walkFault p r st off rec1 b).boot = b.boot :=
  (walkFault_only _ _ _ _ _ _).boot rfl
@[simp] theorem writeFault_boot (p : Params) (r : Nat) (subid : Word32) (resp : Resp) (b : Block) :
    (writeFault p r subid resp b).boot = b.boot :=
  (writeFault_only _ _ _ _ _).boot rfl
@[simp] theorem spent_boot (r : Nat) (b : Block) : (spent r b).boot = b.boot := (spent_only _ _).boot rfl
@[simp] theorem recFault_boot (p : Params) (r : Nat) (st : Status) (rec1 : BitVec 512) (b : Block) :
    (recFault p r st rec1 b).boot = b.boot :=
  (recFault_only _ _ _ _ _).boot rfl
@[simp] theorem pass_boot (p : Params) (r : Nat) (b : Block) : (pass p r b).boot = b.boot := (pass_only _ _ _).boot rfl
@[simp] theorem dirty_boot (r : Nat) (b : Block) : (dirty r b).boot = b.boot := (dirty_only _ _).boot rfl
@[simp] theorem mtOkay_boot (b : Block) : (mtOkay b).boot = b.boot := (mtOkay_only _).boot rfl

/-! ## LOCK under the operations -/

/-- LOCK, set before, is set after. -/
def LockHeld (b c : Block) : Prop := b.boot.lock = true → c.boot.lock = true

namespace LockHeld

variable {b c d : Block}

theorem refl (b : Block) : LockHeld b b := id

theorem trans (h : LockHeld b c) (k : LockHeld c d) : LockHeld b d := k ∘ h

theorem of_lock (h : c.boot.lock = b.boot.lock) : LockHeld b c := h.trans

theorem of_boot (h : c.boot = b.boot) : LockHeld b c := .of_lock (congrArg Boot.lock h)

theorem forEach {α : Type} {l : List α} {f : α → Block → Block} (hf : ∀ x c, LockHeld c (f x c)) :
    LockHeld b (forEach l f b) := by
  unfold Machine.forEach
  induction l generalizing b with
  | nil => exact refl b
  | cons x l ih => exact (hf x b).trans ih

theorem regWrite {a : Nat} {v : Word32} {need pages : List Nat} {f : Block → Block} (hf : ∀ c, LockHeld c (f c)) :
    LockHeld b (regWrite a v need pages f b) := by
  have hm : ∀ g, LockHeld b (updMgt g b) := fun g => .of_boot (updMgt_boot g b)
  unfold Machine.regWrite
  split
  · exact (hm _).trans ((hf _).trans (.of_boot ((dropHeld_only _ _).boot rfl)))
  · exact hm _

theorem wardWrite {p : Params} {t : WTarget} {q o : Nat} {v : Word32} {tab : Bool} {f : Nat → Block → Block}
    (hf : ∀ w c, LockHeld c (f w c)) : LockHeld b (wardWrite p t q o v tab f b) := by
  unfold Machine.wardWrite
  dsimp only
  split
  · exact .regWrite fun _ => .forEach hf
  · exact trans (.regWrite fun _ => .forEach hf) (.of_boot ((pgErr_only _ _ _ _).boot rfl))
  · exact .regWrite fun _ => .forEach hf

theorem walkRec {p : Params} {r o : Nat} {rec1 : BitVec 256} {f : BitVec 512 → Block → Block}
    (hf : ∀ x c, LockHeld c (f x c)) : LockHeld b (walkRec p r o rec1 f b) := by
  have hw : ∀ st off x, LockHeld b (walkFault p r st off x b) := fun _ _ _ => .of_boot (walkFault_boot _ _ _ _ _ _)
  unfold Machine.walkRec
  dsimp only
  split
  · exact refl b
  · split
    · exact hw _ _ _
    · split
      · exact hw _ _ _
      · split
        · exact refl b
        · split
          · exact hw _ _ _
          · exact trans (.of_boot (progress_boot r b)) (hf _ _)

end LockHeld

theorem Only.lockHeld {l : List BlockPart} {b c : Block} (h : Only l b c) (hl : decide (BlockPart.boot ∈ l) = false) :
    LockHeld b c :=
  .of_boot (h.boot hl)

/-! ## LOCK under an event -/

/-- In every state that an outcome of `s` answers, LOCK is set if it is set in `s`. -/
def KeepsLock (s : State) (o : Outcome) : Prop := ∀ t, o = .next t → LockHeld s.block t.block

section Frames

variable {s : State} {f : Params → Block → Block}

theorem run_keepsLock {g : Params → Block → Bool} (h : ∀ p b, LockHeld b (f p b)) : KeepsLock s (s.run g f) := by
  intro t e
  obtain rfl := Host.Outcome.next.inj e
  split
  · exact h _ _
  · exact .refl _

/-- A command of a unit that is not there has no effect. -/
theorem ite_keepsLock {q : Prop} [Decidable q] {o : Outcome} (h : KeepsLock s o) :
    KeepsLock s (if q then o else .next s) := by
  split
  · exact h
  · intro t e
    cases e
    exact .refl _

theorem runK_keepsLock (h : ∀ p b, LockHeld b (f p b)) : KeepsLock s (s.runK f) := run_keepsLock h

theorem runW_keepsLock {w : Nat} (h : ∀ p b, LockHeld b (f p b)) : KeepsLock s (s.runW w f) := run_keepsLock h

theorem runH_keepsLock {h : Nat} (hf : ∀ p b, LockHeld b (f p b)) : KeepsLock s (s.runH h f) := run_keepsLock hf

theorem runM_keepsLock (h : ∀ p b, LockHeld b (f p b)) : KeepsLock s (s.runM f) := run_keepsLock h

theorem runReg_keepsLock (h : ∀ p b, LockHeld b (f p b)) : KeepsLock s (s.runReg f) := run_keepsLock h

theorem keeperReg_keepsLock {a : Nat} {v : Word32} {tab : Bool} (h : ∀ p b, LockHeld b (f p b)) :
    KeepsLock s (s.keeperReg a v tab f) :=
  runReg_keepsLock fun p _ => .regWrite (h p)

theorem wardReg_keepsLock {t : WTarget} {q o : Nat} {v : Word32} {tab : Bool} {f : Params → Nat → Block → Block}
    (h : ∀ p w b, LockHeld b (f p w b)) : KeepsLock s (s.wardReg t q o v tab f) :=
  runReg_keepsLock fun p _ => .wardWrite (h p)

theorem ringCtrlReg_keepsLock {t slot cancel : Nat} {resume : Bool} :
    KeepsLock s (s.ringCtrlReg t slot cancel resume) :=
  runReg_keepsLock fun _ _ => .regWrite fun _ => (ringCtrl_only _ _ _ _ _ _).lockHeld rfl

theorem readReg_keepsLock {ok : Params → Nat → Bool} {a : BitVec 24} : KeepsLock s (s.readReg ok a) :=
  run_keepsLock fun _ _ => (mgtRead_only _ _ _).lockHeld rfl

theorem runRec_keepsLock {r o : Nat} {rec1 : BitVec 256} {f : Params → BitVec 512 → Block → Block}
    (h : ∀ p x b, LockHeld b (f p x b)) : KeepsLock s (s.runRec r o rec1 f) :=
  runK_keepsLock fun p _ => .walkRec (h p)

end Frames

/-! ## LOCK while a command is held and sampled (R27) -/

theorem nextCycle_lockHeld (s : State) : LockHeld s.block s.nextCycle.block := (tick_only _ _).lockHeld rfl

theorem pass_lockHeld (n : Nat) (s : State) : LockHeld s.block (State.pass n s).block := by
  induction n generalizing s with
  | zero => exact .refl _
  | succ n ih => exact (nextCycle_lockHeld s).trans (ih _)

theorem sampled_lockHeld (c : Instr) (s : State) : LockHeld s.block (s.sampled c).block :=
  (pass_lockHeld _ s).trans ((earlier_only _ _ _).lockHeld rfl)

end Sys2Proof.Machine
end

section
/-! SUPPORT. LOCK under the operations that write the start state (R376 to R389), and under a write at the management
port, which reaches KP_CTRL. -/

namespace Sys2Proof.Machine

/-! ## The boot stages -/

@[simp] theorem setStage_lock (u : Nat) (x : Stage) (b : Block) : (setStage u x b).boot.lock = b.boot.lock := rfl

@[simp] theorem failAttempt_lock (reason : Nat) (b : Block) : (failAttempt reason b).boot.lock = b.boot.lock := by
  unfold failAttempt
  split <;> rfl

@[simp] theorem beginAttempt_lock (p : Params) (b : Block) : (beginAttempt p b).boot.lock = b.boot.lock := by
  simp only [beginAttempt, updBoot_boot]
  split <;> rfl

@[simp] theorem becomeReady_lock (p : Params) (b : Block) : (becomeReady p b).boot.lock = b.boot.lock := by
  simp [becomeReady]

/-- An operation that leaves LOCK leaves it under a condition too. -/
@[simp] theorem when_lock {q : Bool} {f : Block → Block} {b : Block} (hf : ∀ c, (f c).boot.lock = c.boot.lock) :
    (when q f b).boot.lock = b.boot.lock := by
  cases q
  · rfl
  · exact hf b

@[simp] theorem bootCheck_lock (p : Params) (b : Block) : (bootCheck p b).boot.lock = b.boot.lock := by
  refine (when_lock ?_).trans ((when_lock ?_).trans (when_lock ?_))
  · exact becomeReady_lock p
  · exact fun _ => rfl
  · exact fun _ => rfl

@[simp] theorem fenceWard_lock (p : Params) (w : Nat) (x : Nat × Nat) (b : Block) :
    (fenceWard p w x b).boot.lock = b.boot.lock := by
  simp [fenceWard]

@[simp] theorem rescrubbed_lock (p : Params) (u : UnitId) (b : Block) : (rescrubbed p u b).boot.lock = b.boot.lock := by
  simp [rescrubbed]

/-! ## The voted lanes and the faults of the block (R281, R282) -/

@[simp] theorem laneUp_lock (n : Nat) (b : Block) : (laneUp n b).boot.lock = b.boot.lock := rfl

@[simp] theorem laneHard_lock (p : Params) (n : Nat) (b : Block) : (laneHard p n b).boot.lock = b.boot.lock := by
  unfold laneHard
  split
  · simp
  · rfl

@[simp] theorem instFault_lock (p : Params) (b : Block) : (instFault p b).boot.lock = b.boot.lock := by
  unfold instFault
  split
  · rfl
  · simp

/-! ## KP_CTRL and KP_BOOT -/

theorem lockSet_lock (p : Params) (b : Block) : (lockSet p b).boot.lock = true := by
  unfold lockSet
  have hello : ∀ h c, (when (helloDue p c h) (fun d => tryActive p h (sendHello p h d)) c).boot = c.boot := fun h c =>
    when_boot fun d => ((tryActive_only _ _ _).boot rfl).trans ((sendHello_only _ _ _).boot rfl)
  exact congrArg Boot.lock (forEach_boot hello)

/-- A write of 1 to LOCK in READY outside FAULT leaves LOCK set. -/
theorem kctrlWrite_lock_of_ready (p : Params) {v : Word32} {b : Block} (hv : bitAt v 0 = true)
    (hr : b.boot.state = .ready ∧ b.dbolt.state ≠ .fault) : (kctrlWrite p v b).boot.lock = true := by
  rw [kctrlWrite, if_pos hv, if_pos hr]
  split
  · assumption
  · exact lockSet_lock p b

/-- Any other write of 1 to LOCK reports BOOT_WAIT and does nothing else. -/
theorem kctrlWrite_eq_pgErr (p : Params) {v : Word32} {b : Block} (hv : bitAt v 0 = true)
    (hr : ¬ (b.boot.state = .ready ∧ b.dbolt.state ≠ .fault)) : kctrlWrite p v b = pgErr p (kA 0 0) 8 b := by
  rw [kctrlWrite, if_pos hv, if_neg hr]

/-- No write of KP_CTRL clears LOCK. -/
theorem kctrlWrite_lockHeld (p : Params) (v : Word32) (b : Block) : LockHeld b (kctrlWrite p v b) := by
  intro hl
  by_cases hv : bitAt v 0 = true
  · by_cases hr : b.boot.state = .ready ∧ b.dbolt.state ≠ .fault
    · exact kctrlWrite_lock_of_ready p hv hr
    · rw [kctrlWrite_eq_pgErr p hv hr]
      exact (pgErr_only _ _ _ _).lockHeld rfl hl
  · rwa [kctrlWrite, if_neg hv]

theorem kbootWrite_lock (v : Word32) (b : Block) : (kbootWrite v b).boot.lock = b.boot.lock := by
  refine when_lock ?_
  exact fun _ => rfl

/-! ## A write at the management port (chapter 15) -/

theorem keeper0_lockHeld (p : Params) (o : Nat) (v : Word32) (b : Block) : LockHeld b (keeper0 p o v b) := by
  unfold keeper0
  split
  · exact kctrlWrite_lockHeld p v b
  · exact .of_lock (kbootWrite_lock v b)
  · exact (multiWrite_only _ _ _ _ _).lockHeld rfl
  · exact .of_boot ((when_boot fun _ => (commitAll_only _ _).boot rfl).trans ((plainWrite_only _ _ _ _ _).boot rfl))
  · exact (plainWrite_only _ _ _ _ _).lockHeld rfl

theorem keeperWrite_lockHeld (p : Params) (q o : Nat) (v : Word32) (b : Block) :
    LockHeld b (keeperWrite p q o v b) := by
  have plain : ∀ g a, LockHeld b (plainWrite p g a v b) := fun _ _ => (plainWrite_only _ _ _ _ _).lockHeld rfl
  have multi : ∀ g a, LockHeld b (multiWrite p g a v b) := fun _ _ => (multiWrite_only _ _ _ _ _).lockHeld rfl
  unfold keeperWrite
  split
  · exact keeper0_lockHeld p o v b
  · split
    · exact plain _ _
    · exact (ringWrite_only _ _ _ _).lockHeld rfl
  · exact (tenWrite_only _ _ _ _).lockHeld rfl
  · exact (pclWrite_only _ _ _ _).lockHeld rfl
  · exact (govWrite_only _ _ _ _).lockHeld rfl
  · exact (keeper5_only _ _ _ _).lockHeld rfl
  · split
    · exact (routeWrite_only _ _ _).lockHeld rfl
    · split
      · exact multi _ _
      · exact plain _ _
  · split
    · exact (logCtrl_only _ _).lockHeld rfl
    · split
      · exact (lrCtrl_only _ _).lockHeld rfl
      · exact plain _ _
  · exact (keeper8_only _ _ _ _).lockHeld rfl
  · split
    · exact (capClear_only _ _).lockHeld rfl
    · split
      · exact multi _ _
      · exact plain _ _
  · split
    · exact (cntCtrl_only _ _ _).lockHeld rfl
    · exact .refl b

theorem pageWrite_lockHeld (p : Params) (g : Page) (o : Nat) (v : Word32) (b : Block) :
    LockHeld b (pageWrite p g o v b) := by
  cases g with
  | keeper q => exact keeperWrite_lockHeld p q o v b
  | ward w q => exact (wardRegWrite_only _ _ _ _ _ _).lockHeld rfl
  | bcast q => exact .refl b
  | group k q => exact .refl b
  | hinge h => exact (hingeRegWrite_only _ _ _ _ _).lockHeld rfl
  | mirror => exact (pgErr_only _ _ _ _).lockHeld rfl
  | trace => exact (traceWrite_only _ _ _ _).lockHeld rfl
  | dump => exact (dumpWrite_only _ _ _ _).lockHeld rfl
  | tenant t => exact (tenantWrite_only _ _ _ _ _).lockHeld rfl

theorem oneWrite_lockHeld (p : Params) (g : Page) (a : Nat) (v : Word32) (b : Block) :
    LockHeld b (oneWrite p g a v b) := by
  unfold oneWrite
  dsimp only
  split
  · exact (holdOne_only _ _ _ _).lockHeld rfl
  · refine .trans ?_ ((dropHeld_only _ _).lockHeld rfl)
    split
    · exact (pgErr_only _ _ _ _).lockHeld rfl
    · exact pageWrite_lockHeld p g _ v b

theorem winWrite_lockHeld (p : Params) (t : WTarget) (q a : Nat) (v : Word32) (b : Block) :
    LockHeld b (winWrite p t q a v b) := by
  unfold winWrite
  split
  · exact (pgErr_only _ _ _ _).lockHeld rfl
  · exact .forEach fun w c => oneWrite_lockHeld p _ _ v c

theorem regEffect_lockHeld (p : Params) (g : Page) (a : Nat) (v : Word32) (b : Block) :
    LockHeld b (regEffect p g a v b) := by
  unfold regEffect
  dsimp only
  split
  · exact .refl b
  · split
    · exact .trans ((plainWrite_only _ _ _ _ _).lockHeld rfl) ((dropHeld_only _ _).lockHeld rfl)
    · split
      · exact winWrite_lockHeld p _ _ a v b
      · exact winWrite_lockHeld p _ _ a v b
      · exact oneWrite_lockHeld p g a v b

theorem mgtWrite_lockHeld (p : Params) (a : Nat) (v : Word32) (b : Block) : LockHeld b (mgtWrite p a v b) := by
  have resp : ∀ r, LockHeld b (mgtResp r b) := fun _ => (mgtResp_only _ _).lockHeld rfl
  unfold mgtWrite
  split
  · exact resp _
  · split
    · exact resp _
    · split
      · exact (resp _).trans (regEffect_lockHeld p _ a v _)
      · exact .of_boot rfl

theorem mgtAccess_lockHeld (p : Params) (a : Nat) (v : Word32) (strb : BitVec 4) (b : Block) :
    LockHeld b (mgtAccess p a v strb b) := by
  unfold mgtAccess
  split
  · exact (mgtResp_only _ _).lockHeld rfl
  · exact mgtWrite_lockHeld p a v b

/-- The access that waited for a rescrub is done (R368). -/
theorem replayAccess_lockHeld (p : Params) (b : Block) : LockHeld b (replayAccess p b) := by
  have write : ∀ f a v, LockHeld b (mgtWrite p a v (updMgt f b)) := fun f a v =>
    .trans (.of_boot (updMgt_boot f b)) (mgtWrite_lockHeld p a v _)
  have read : ∀ f a c, LockHeld c (mgtRead p a (updMgt f c)) := fun f _ c =>
    .trans (.of_boot (updMgt_boot f c)) ((mgtRead_only _ _ _).lockHeld rfl)
  unfold replayAccess
  cases b.mgt.waitW with
  | none =>
    dsimp only
    split
    · exact read _ _ b
    · exact .refl b
  | some x =>
    dsimp only
    split
    · exact (write _ _ _).trans (read _ _ _)
    · exact write _ _ _

end Sys2Proof.Machine
end

section
/-! SUPPORT. Every command's event but the two resets leaves LOCK set: what each does to the block is made of operations
that leave the start state, of those of the boot stages,
    and of a write at the management port. Most proofs have one shape:
the event's branches are split, and in each the frames of its operations (the Only laws) leave the start state, which
`apply_ite` reads through an `if`. With `-implicitDefEqProofs` simp names the laws it rewrites by,
    where the kernel would
otherwise unfold an operation down to its numerals. -/

namespace Sys2Proof.Machine

section Events

variable {s : State}

/-! ## Entries and notices -/

theorem actDecrement_keepsLock {word src eoc} : KeepsLock s (actDecrement word src eoc s) :=
  runW_keepsLock fun _ _ => .of_boot (by simp)

theorem actFailureNotice_keepsLock {word root src eoc} : KeepsLock s (actFailureNotice word root src eoc s) :=
  runW_keepsLock fun _ _ => .of_boot (by simp)

theorem actCancelNotice_keepsLock {word src eoc} : KeepsLock s (actCancelNotice word src eoc s) :=
  runW_keepsLock fun _ _ => .of_boot (by simp)

theorem actSeal_keepsLock {w ring seg src eoc} : KeepsLock s (actSeal w ring seg src eoc s) := by
  refine runW_keepsLock fun _ _ => .of_boot ?_
  dsimp only
  repeat' split
  all_goals simp [(dropRemSeg_only _ _ _).boot rfl, (sealEntry_only _ _ _).boot rfl, (sealHanded_only _ _ _).boot rfl,
    (trForm_only _ _ _ _).boot rfl, (trRing_only _ _ _ _ _ _ _).boot rfl]

theorem actGuardWaitPass_keepsLock {w} : KeepsLock s (actGuardWaitPass w s) :=
  runW_keepsLock fun _ _ => (guardPassAll_only _ _ _).lockHeld rfl

theorem actSettlementNotice_keepsLock {kind word eoc} : KeepsLock s (actSettlementNotice kind word eoc s) := by
  refine runK_keepsLock fun _ _ => .of_boot ?_
  dsimp only
  repeat' split
  all_goals simp -implicitDefEqProofs [(homeCmp_only _ _ _ _ _ _ _ _).boot rfl,
    (ringSettle_only _ _ _ _ _ _ _ _).boot rfl, (staleItem_only _ _ _).boot rfl]

theorem actIssueProxyNotice_keepsLock {kind word} : KeepsLock s (actIssueProxyNotice kind word s) := by
  refine runW_keepsLock fun _ _ => .of_boot ?_
  dsimp only
  repeat' split
  all_goals simp [(proxyState_only _ _ _).boot rfl]

theorem actSuccessorDelivery_keepsLock {handle} : KeepsLock s (actSuccessorDelivery handle s) :=
  runW_keepsLock fun _ _ => .of_boot (by simp [apply_ite Block.boot, (deliverOne_only _ _ _ _).boot rfl])

theorem actEntryFree_keepsLock {handle} : KeepsLock s (actEntryFree handle s) :=
  runW_keepsLock fun _ _ => .of_boot (by simp [apply_ite Block.boot, (freeQueue_only _ _ _).boot rfl])

theorem actQuarantineEnd_keepsLock {handle} : KeepsLock s (actQuarantineEnd handle s) :=
  runW_keepsLock fun _ _ => .of_boot (by split <;> simp [apply_ite Block.boot])

theorem actEdgeRefetchDone_keepsLock {handle} : KeepsLock s (actEdgeRefetchDone handle s) :=
  runW_keepsLock fun _ _ => .of_boot (by simp -implicitDefEqProofs [apply_ite Block.boot,
    (evict_only _ _ _ _ _).boot rfl])

theorem actTaskClassTimeout_keepsLock {handle} : KeepsLock s (actTaskClassTimeout handle s) :=
  runW_keepsLock fun _ _ => .of_boot (by simp [apply_ite Block.boot])

theorem actTaskCancel_keepsLock {handle} : KeepsLock s (actTaskCancel handle s) :=
  runW_keepsLock fun _ _ => .of_boot (by split <;> simp -implicitDefEqProofs [apply_ite Block.boot,
    (cancelEntry_only _ _ _).boot rfl])

/-! ## Placement -/

theorem actGovernorRequest_keepsLock {handle} : KeepsLock s (actGovernorRequest handle s) :=
  runK_keepsLock fun _ _ => .of_boot (by split <;> simp [(govArrive_only _ _ _ _ _).boot rfl])

theorem actGovernorQueueGrant_keepsLock {dom} : KeepsLock s (actGovernorQueueGrant dom s) :=
  runK_keepsLock fun _ _ => .of_boot (by simp [(govExamine_only _ _ _ _).boot rfl])

theorem actGovernorWindowStart_keepsLock {throttle} : KeepsLock s (actGovernorWindowStart throttle s) :=
  runK_keepsLock fun _ _ => .of_boot (by simp -implicitDefEqProofs [apply_ite Block.boot])

theorem actArbiterForward_keepsLock {w} : KeepsLock s (actArbiterForward w s) := by
  refine runW_keepsLock fun _ _ => .of_boot ?_
  dsimp only
  repeat' split
  all_goals simp [(forwardStage_only _ _).boot rfl, (forwardTask_only _ _ _ _).boot rfl, (dwrr_only _ _ _ _).boot rfl]

theorem actPlacementRequest_keepsLock {handle} : KeepsLock s (actPlacementRequest handle s) :=
  runK_keepsLock fun _ _ => .of_boot (by dsimp only; split <;> simp)

theorem actPlacementDecision_keepsLock {handle} : KeepsLock s (actPlacementDecision handle s) :=
  runK_keepsLock fun _ _ => .of_boot (by split <;> simp [(decideReq_only _ _ _).boot rfl])

theorem actWaitingListOffer_keepsLock : KeepsLock s (actWaitingListOffer s) :=
  runK_keepsLock fun _ _ => .of_boot (by simp [(offerWaiting_only _ _ _).boot rfl])

theorem actStagingRequest_keepsLock {handle} : KeepsLock s (actStagingRequest handle s) := by
  refine runK_keepsLock fun _ _ => .of_boot ?_
  dsimp only
  repeat' split
  all_goals simp [(decideAll_only _ _).boot rfl, (occUp_only _ _ _).boot rfl, (reserve_only _ _ _ _).boot rfl]

theorem actStagingNoPort_keepsLock {handle} : KeepsLock s (actStagingNoPort handle s) :=
  runW_keepsLock fun _ _ => .of_boot (by dsimp only; split <;> simp -implicitDefEqProofs)

theorem actPlacementDecisionArrival_keepsLock {handle} : KeepsLock s (actPlacementDecisionArrival handle s) :=
  runK_keepsLock fun _ _ => .of_boot (by dsimp only; split <;> simp -implicitDefEqProofs [apply_ite Block.boot,
    (enqueue_only _ _ _ _ _).boot rfl, (stageLost_only _ _).boot rfl])

theorem actStagedTaskPlaced_keepsLock {handle} : KeepsLock s (actStagedTaskPlaced handle s) := by
  refine runW_keepsLock fun _ _ => .of_boot ?_
  dsimp only
  repeat' split
  all_goals simp [(enqueue_only _ _ _ _ _).boot rfl, (spendToken_only _ _).boot rfl, (unstage_only _ _ _).boot rfl]

theorem actPortRelease_keepsLock {port handle} : KeepsLock s (actPortRelease port handle s) :=
  runK_keepsLock fun _ _ => .of_boot (by simp -implicitDefEqProofs [apply_ite Block.boot,
    (freePort_only _ _ _).boot rfl, (occDown_only _ _ _).boot rfl, (stageGone_only _ _ _ _).boot rfl])

theorem actWithdrawal_keepsLock {handle} : KeepsLock s (actWithdrawal handle s) :=
  runK_keepsLock fun _ _ => .of_boot (by dsimp only; split <;> simp [(withdrawn_only _ _ _).boot rfl])

theorem actUnloadDirective_keepsLock {handle} : KeepsLock s (actUnloadDirective handle s) :=
  runK_keepsLock fun _ _ => .of_boot (by dsimp only; split <;> simp -implicitDefEqProofs [apply_ite Block.boot,
    (homeCmp_only _ _ _ _ _ _ _ _).boot rfl, (unloadStage_only _ _ _ _ _).boot rfl, (unqueue_only _ _ _ _ _).boot rfl])

theorem actEpochMint_keepsLock : KeepsLock s (actEpochMint s) :=
  runK_keepsLock fun _ _ => .of_boot (by simp -implicitDefEqProofs [apply_ite Block.boot])

theorem actTokenArrival_keepsLock {w} : KeepsLock s (actTokenArrival w s) :=
  runW_keepsLock fun _ _ => .of_boot (by dsimp only; split <;> simp)

/-! ## Message queues and operand ports -/

theorem actFlushDiscard_keepsLock {w q} : KeepsLock s (actFlushDiscard w q s) :=
  runW_keepsLock fun _ _ => (mqFlushNow_only _ _ _).lockHeld rfl

theorem actMqCfgWrite_keepsLock {tgt k data} : KeepsLock s (actMqCfgWrite tgt k data s) := by
  unfold actMqCfgWrite
  split
  · exact wardReg_keepsLock fun _ _ _ => (mqCfgAt_only _ _ _ _).lockHeld rfl
  · exact runReg_keepsLock fun _ _ => (wardHold_only _ _ _ _ _ _).lockHeld rfl

theorem actMqFlush_keepsLock {tgt} : KeepsLock s (actMqFlush tgt s) :=
  wardReg_keepsLock fun _ _ _ => (mqFlushAt_only _ _ _).lockHeld rfl

theorem actMqPush_keepsLock {tgt be} : KeepsLock s (actMqPush tgt be s) :=
  wardReg_keepsLock fun _ _ _ => .of_boot (by simp [(mqPushAt_only _ _ _ _).boot rfl])

theorem actMqPop_keepsLock {tgt} : KeepsLock s (actMqPop tgt s) :=
  wardReg_keepsLock fun _ _ _ => (mqPopAt_only _ _ _).lockHeld rfl

/-! ## Messages and channels -/

theorem actSend_keepsLock {port hdr flits} : KeepsLock s (actSend port hdr flits s) := by
  refine run_keepsLock fun _ _ => .of_boot ?_
  dsimp only
  repeat' split
  all_goals simp [(launch_only _ _ _ _ _).boot rfl, (refuseSend_only _ _ _ _ _ _ _).boot rfl,
    (watchMsg_only _ _ _ _).boot rfl]

theorem actMessageArrival_keepsLock {key seq it} : KeepsLock s (actMessageArrival key seq it s) := by
  refine runK_keepsLock fun _ _ => .of_boot ?_
  split
  · split <;> simp [(arriveMsg_only _ _ _ _ _).boot rfl]
  · refine rxData_boot fun _ _ => ?_
    dsimp only
    repeat' split
    all_goals simp [(arriveMsg_only _ _ _ _ _).boot rfl]

theorem actNackReturn_keepsLock {key seq it} : KeepsLock s (actNackReturn key seq it s) := by
  refine runK_keepsLock fun _ _ => .of_boot ?_
  dsimp only
  repeat' split
  all_goals simp [(backAt_only _ _ _ _).boot rfl, (nackAt_only _ _ _ _ _).boot rfl]

theorem actOpdDelivery_keepsLock {w} : KeepsLock s (actOpdDelivery w s) := by
  refine runW_keepsLock fun _ _ => .of_boot ?_
  dsimp only
  repeat' split
  all_goals simp [(opdSend_only _ _).boot rfl]

theorem actLandingCreditReturn_keepsLock {port n} : KeepsLock s (actLandingCreditReturn port n s) :=
  run_keepsLock fun _ _ => .of_boot (by simp)

theorem actStatusBeatAccepted_keepsLock {port} : KeepsLock s (actStatusBeatAccepted port s) := by
  refine run_keepsLock fun _ _ => .of_boot ?_
  dsimp only
  repeat' split
  all_goals simp [(mqFlushNow_only _ _ _).boot rfl, (outcomeBack_only _ _ _ _ _ _ _).boot rfl,
    (relayNext_only _ _ _ _ _ _ _).boot rfl]

theorem actBadMsgRequest_keepsLock {port hdr beats} : KeepsLock s (actBadMsgRequest port hdr beats s) :=
  run_keepsLock fun _ _ => .of_boot (by simp)

theorem actBindNotice_keepsLock {key} : KeepsLock s (actBindNotice key s) := by
  refine runK_keepsLock fun _ _ => .of_boot ?_
  dsimp only
  repeat' split
  all_goals simp [(bindHops_only _ _ _ _ _).boot rfl]

theorem actOpenReq_keepsLock {port hdr} : KeepsLock s (actOpenReq port hdr s) := by
  refine run_keepsLock fun _ _ => .of_boot ?_
  dsimp only
  repeat' split
  all_goals simp

theorem actChannelAllocate_keepsLock : KeepsLock s (actChannelAllocate s) := by
  refine runK_keepsLock fun _ _ => .of_boot ?_
  dsimp only
  repeat' split
  all_goals simp [(answerOpen_only _ _ _ _ _ _).boot rfl, (bindRunning_only _ _ _ _).boot rfl,
    (ownerGone_only _ _ _).boot rfl]

theorem actChannelCloseApply_keepsLock {key place} : KeepsLock s (actChannelCloseApply key place s) := by
  refine runK_keepsLock fun _ _ => .of_boot ?_
  dsimp only
  repeat' split
  all_goals simp [(chanDigest_only _ _ _ _).boot rfl, (closeEnd_only _ _).boot rfl, (closeFar_only _ _ _ _).boot rfl,
    (closedBeat_only _ _).boot rfl, (xfrom_only _ _ _ _).boot rfl, (xto_only _ _ _ _ _).boot rfl]

theorem actCloseReq_keepsLock {port hdr} : KeepsLock s (actCloseReq port hdr s) := by
  refine run_keepsLock fun _ _ => .of_boot ?_
  dsimp only
  split_ifs
  · exact answerHere_boot _ _ _ _ _ _ _ _
  · exact answerHere_boot _ _ _ _ _ _ _ _
  · split
    · exact answerHere_boot _ _ _ _ _ _ _ _
    · split_ifs
      · split <;> simp
      · split <;> simp
      · exact answerHere_boot _ _ _ _ _ _ _ _

theorem actChannelIdFree_keepsLock {ch} : KeepsLock s (actChannelIdFree ch s) :=
  runK_keepsLock fun _ _ => .of_boot (by dsimp only; split <;> simp [apply_ite Block.boot])

theorem actStormNotice_keepsLock {ch} : KeepsLock s (actStormNotice ch s) := by
  refine runK_keepsLock fun _ _ => .of_boot ?_
  dsimp only
  repeat' split
  all_goals simp -implicitDefEqProofs

/-! ## Combining queues -/

theorem actContrib_keepsLock {port hdr flits} : KeepsLock s (actContrib port hdr flits s) := by
  refine run_keepsLock fun _ _ => .of_boot ?_
  dsimp only
  repeat' split
  all_goals simp [(hingePut_only _ _ _ _).boot rfl, (refusePart_only _ _ _ _ _).boot rfl, (xtx_only _ _ _).boot rfl]

theorem actPartArrival_keepsLock {qid inst port it} : KeepsLock s (actPartArrival qid inst port it s) := by
  refine runW_keepsLock fun _ _ => .of_boot ?_
  dsimp only
  repeat' split
  all_goals simp [apply_ite Block.boot, (arrivePart_only _ _ _ _).boot rfl, (partBack_only _ _ _ _ _ _).boot rfl]

theorem actTearNotice_keepsLock {qid inst port} : KeepsLock s (actTearNotice qid inst port s) :=
  runW_keepsLock fun _ _ => .of_boot (by dsimp only; split <;> simp [(tearAt_only _ _ _ _ _ _).boot rfl])

theorem actPartApply_keepsLock {w} : KeepsLock s (actPartApply w s) :=
  runW_keepsLock fun _ _ => .of_boot (by split <;> simp [(partBack_only _ _ _ _ _ _).boot rfl])

theorem actDrainConvert_keepsLock {w q} : KeepsLock s (actDrainConvert w q s) :=
  runW_keepsLock fun _ _ => .of_boot (by simp [apply_ite Block.boot, (drainSome_only _ _ _ _ _).boot rfl])

theorem actDrainWriteResponse_keepsLock {w q resp} : KeepsLock s (actDrainWriteResponse w q resp s) :=
  runW_keepsLock fun _ _ => .of_boot (by simp [apply_ite Block.boot, (drainFinish_only _ _ _ _).boot rfl])

theorem actQueueNumberFree_keepsLock {w q} : KeepsLock s (actQueueNumberFree w q s) :=
  runW_keepsLock fun _ _ => .of_boot (by split <;> simp [apply_ite Block.boot])

theorem actAnswerReturn_keepsLock {port it} : KeepsLock s (actAnswerReturn port it s) := by
  refine runK_keepsLock fun _ _ => .of_boot ?_
  dsimp only
  split
  · refine rxItem_boot fun _ => ?_
    repeat' split
    all_goals simp [(applyAnswer_only _ _ _).boot rfl]
  · split <;> simp [(partDone_only _ _ _ _ _).boot rfl, (ackAt_only _ _ _).boot rfl, (xfrom_only _ _ _ _).boot rfl]

/-! ## Hasps and keys -/

theorem actSignal_keepsLock {hasp inc src} : KeepsLock s (actSignal hasp inc src s) :=
  runK_keepsLock fun _ _ => .of_boot (by split <;> simp [apply_ite Block.boot, (sigApply_only _ _ _ _ _).boot rfl,
    (sigOutcome_only _ _ _ _).boot rfl])

theorem actWaitRelease_keepsLock : KeepsLock s (actWaitRelease s) :=
  runK_keepsLock fun _ _ => .of_boot (by simp [(releaseOne_only _ _ _).boot rfl, (selectWaits_only _).boot rfl])

theorem actTaskFormRelease_keepsLock {port} : KeepsLock s (actTaskFormRelease port s) := by
  refine runW_keepsLock fun _ _ => .of_boot ?_
  dsimp only
  repeat' split
  all_goals simp -implicitDefEqProofs

theorem actWaitRegistration_keepsLock {port} : KeepsLock s (actWaitRegistration port s) := by
  refine run_keepsLock fun _ _ => .of_boot ?_
  dsimp only
  repeat' split
  all_goals simp -implicitDefEqProofs [(faultTo_only _ _ _ _ _).boot rfl, (xtx_only _ _ _).boot rfl]

theorem actHopItem_keepsLock {via hasp op value tag} : KeepsLock s (actHopItem via hasp op value tag s) :=
  runK_keepsLock fun _ _ => .of_boot (by split <;> simp [apply_ite Block.boot, (sigApply_only _ _ _ _ _).boot rfl,
    (haspReset_only _ _ _).boot rfl])

theorem actHrelItem_keepsLock {h tag} : KeepsLock s (actHrelItem h tag s) := by
  refine runK_keepsLock fun _ _ => .of_boot (rxItem_boot fun _ => ?_)
  dsimp only
  repeat' split
  all_goals simp [(freeRing_only _ _ _).boot rfl]

theorem actHaspAssign_keepsLock {data} : KeepsLock s (actHaspAssign data s) :=
  keeperReg_keepsLock fun _ _ => (haspAssignAt_only _ _ _).lockHeld rfl

theorem actHaspForce_keepsLock : KeepsLock s (actHaspForce s) :=
  keeperReg_keepsLock fun _ _ => (haspForceAt_only _ _).lockHeld rfl

theorem actKeyreq_keepsLock {port hdr} : KeepsLock s (actKeyreq port hdr s) := by
  refine run_keepsLock fun _ _ => .of_boot ?_
  dsimp only
  repeat' split
  all_goals simp [(keySend_only _ _ _).boot rfl]

theorem actKeyRequestArrival_keepsLock {dport reqport} : KeepsLock s (actKeyRequestArrival dport reqport s) :=
  runW_keepsLock fun _ _ => .of_boot (by dsimp only; split <;> simp [apply_ite Block.boot,
    (keyGrant_only _ _ _ _ _ _).boot rfl, (keyRefuse_only _ _ _ _ _ _).boot rfl])

theorem actReturnUnused_keepsLock {port hdr} : KeepsLock s (actReturnUnused port hdr s) :=
  run_keepsLock fun _ _ => .of_boot (by simp [apply_ite Block.boot])

theorem actReturnKret_keepsLock {port data} : KeepsLock s (actReturnKret port data s) :=
  run_keepsLock fun _ _ => (keyReturnAt_only _ _ _ _ _).lockHeld rfl

theorem actKeyReturn_keepsLock {dport pool gseq} : KeepsLock s (actKeyReturn dport pool gseq s) :=
  runW_keepsLock fun _ _ => .of_boot (by dsimp only; split <;> simp [(answerTo_only _ _ _ _ _).boot rfl,
    (keyReturnAt_only _ _ _ _ _).boot rfl])

theorem actKeyTimeout_keepsLock {dport pool idx} : KeepsLock s (actKeyTimeout dport pool idx s) :=
  runW_keepsLock fun _ _ => .of_boot (by dsimp only; split <;> simp -implicitDefEqProofs [apply_ite Block.boot,
    (keyEvent_only _ _ _ _ _).boot rfl, (keyExamine_only _ _ _ _ _).boot rfl, (keyRefuse_only _ _ _ _ _ _).boot rfl,
    (trKey_only _ _ _ _ _ _ _).boot rfl])

theorem actKeyPoolCfgWrite_keepsLock {tgt k data} : KeepsLock s (actKeyPoolCfgWrite tgt k data s) :=
  wardReg_keepsLock fun _ _ _ => (keyCfgAt_only _ _ _ _ _).lockHeld rfl

theorem actKeyPoolReset_keepsLock {tgt} : KeepsLock s (actKeyPoolReset tgt s) :=
  wardReg_keepsLock fun _ _ _ => (keyResetAt_only _ _ _).lockHeld rfl

/-! ## Engine ports -/

theorem actPreloadStart_keepsLock {port} : KeepsLock s (actPreloadStart port s) :=
  run_keepsLock fun _ _ => .of_boot (by dsimp only; split <;> simp [(mpR_only _ _ _ _ _ _).boot rfl])

theorem actArgumentReadResponse_keepsLock {port resp beats} : KeepsLock s (actArgumentReadResponse port resp beats s) :=
  run_keepsLock fun _ _ => .of_boot (by split <;> simp -implicitDefEqProofs [apply_ite Block.boot])

theorem actPreloadComplete_keepsLock {port} : KeepsLock s (actPreloadComplete port s) :=
  run_keepsLock fun _ _ => .of_boot (by split <;> simp [(markPreloaded_only _ _ _ _ _).boot rfl])

theorem actIssueCommit_keepsLock {port issok} : KeepsLock s (actIssueCommit port issok s) :=
  run_keepsLock fun _ _ => .of_boot (by split <;> simp [(commitIssue_only _ _ _ _).boot rfl])

theorem actIssDescriptorAccepted_keepsLock {port} : KeepsLock s (actIssDescriptorAccepted port s) :=
  run_keepsLock fun _ _ => .of_boot (by split <;> simp -implicitDefEqProofs)

theorem actCanAck_keepsLock {port hdl held} : KeepsLock s (actCanAck port hdl held s) := by
  refine run_keepsLock fun _ _ => .of_boot ?_
  dsimp only
  split
  · rw [when_boot fun _ => updEnt_boot _ _ _, evRec_boot, xsend_boot, updPort_boot]
  · exact bump_boot _ _ _

theorem actIssueCopyReread_keepsLock {port handle} : KeepsLock s (actIssueCopyReread port handle s) :=
  run_keepsLock fun _ _ => .of_boot (by simp [apply_ite Block.boot])

theorem actCmpRecord_keepsLock {port rec1 stats eoc} : KeepsLock s (actCmpRecord port rec1 stats eoc s) :=
  run_keepsLock fun _ _ => .of_boot (by split <;> simp -implicitDefEqProofs [apply_ite Block.boot,
    (finishTask_only _ _ _ _ _ _ _).boot rfl])

theorem actHsig_keepsLock {port hdr} : KeepsLock s (actHsig port hdr s) := by
  refine run_keepsLock fun _ _ => .of_boot ?_
  dsimp only
  repeat' split
  all_goals simp

theorem actDoorbell_keepsLock {port hdr} : KeepsLock s (actDoorbell port hdr s) := by
  refine run_keepsLock fun _ _ => .of_boot ?_
  dsimp only
  repeat' split
  all_goals simp

theorem actSlotwr_keepsLock {port hdr} : KeepsLock s (actSlotwr port hdr s) :=
  run_keepsLock fun _ _ => .of_boot (by simp [apply_ite Block.boot, (slotWrite_only _ _ _ _ _ _ _ _ _).boot rfl])

theorem actCtlOnlineChange_keepsLock {port on lbflits tdm} : KeepsLock s (actCtlOnlineChange port on lbflits tdm s) :=
  run_keepsLock fun _ _ => .of_boot (by simp [(keyDrain_only _ _).boot rfl])

theorem actCtlSnapshotReceived_keepsLock {port beats} : KeepsLock s (actCtlSnapshotReceived port beats s) :=
  run_keepsLock fun _ _ => .of_boot (by split <;> simp [(snapEnd_only _ _).boot rfl])

theorem actSnapshotTimeout_keepsLock {port} : KeepsLock s (actSnapshotTimeout port s) :=
  run_keepsLock fun _ _ => (snapAbsent_only _ _ _ _).lockHeld rfl

theorem actDumpSnapshotTimeout_keepsLock {port} : KeepsLock s (actDumpSnapshotTimeout port s) :=
  run_keepsLock fun _ _ => (snapAbsent_only _ _ _ _).lockHeld rfl

theorem actPortReset_keepsLock {port} : KeepsLock s (actPortReset port s) :=
  run_keepsLock fun _ _ => .of_boot (by dsimp only; split <;> simp -implicitDefEqProofs
    [(dropPortWait_only _ _ _).boot rfl, (finishTask_only _ _ _ _ _ _ _).boot rfl,
    (keyPoolReset_only _ _ _ _ _).boot rfl, (resetCans_only _ _).boot rfl, (resetChans_only _ _ _).boot rfl,
    (resetQueued_only _ _ _ _).boot rfl, (resetStage_only _ _ _).boot rfl, (tearAll_only _ _ _).boot rfl])

theorem actPortResetRelease_keepsLock {port} : KeepsLock s (actPortResetRelease port s) :=
  run_keepsLock fun _ _ => .of_boot (by simp)

/-! ## Rings and submissions -/

theorem actCommandFaultNotice_keepsLock {ring} : KeepsLock s (actCommandFaultNotice ring s) :=
  run_keepsLock fun _ _ => .of_boot (by split <;> simp [(endSub_only _ _ _ _ _).boot rfl])

theorem actRingTimeout_keepsLock {ring} : KeepsLock s (actRingTimeout ring s) :=
  run_keepsLock fun _ _ => .of_boot (by split <;> simp [(timeOut_only _ _ _ _).boot rfl])

theorem actStepTimeout_keepsLock {ring} : KeepsLock s (actStepTimeout ring s) :=
  run_keepsLock fun _ _ => .of_boot (by split <;> simp [(timeOut_only _ _ _ _).boot rfl])

theorem actStatusBlockWriteResponse_keepsLock {ring subid resp} :
    KeepsLock s (actStatusBlockWriteResponse ring subid resp s) :=
  run_keepsLock fun _ _ => .of_boot (by split <;> simp [apply_ite Block.boot, (doneAdvance_only _ _ _ _).boot rfl,
    (updSub_only _ _ _ _).boot rfl])

theorem actNoteWriteResponse_keepsLock {ring subid resp} : KeepsLock s (actNoteWriteResponse ring subid resp s) :=
  run_keepsLock fun _ _ => (writeFault_only _ _ _ _ _).lockHeld rfl

theorem actDigestWriteResponse_keepsLock {ring subid resp} :
    KeepsLock s (actDigestWriteResponse ring subid resp s) := by
  refine run_keepsLock fun _ _ => .of_boot ?_
  dsimp only
  repeat' split
  all_goals simp [(doneAdvance_only _ _ _ _).boot rfl, (drainFinish_only _ _ _ _).boot rfl,
    (updSub_only _ _ _ _).boot rfl]

theorem actRecordAccept_keepsLock {ring rec1} : KeepsLock s (actRecordAccept ring rec1 s) :=
  run_keepsLock fun _ _ => .of_boot (by simp [apply_ite Block.boot, (badRec_only _ _ _ _ _).boot rfl,
    (takeRec_only _ _ _ _ _ _).boot rfl])

theorem actWaitsubRelease_keepsLock {ring} : KeepsLock s (actWaitsubRelease ring s) :=
  run_keepsLock fun _ _ => .of_boot (by simp [apply_ite Block.boot])

theorem actRingFetch_keepsLock {w} : KeepsLock s (actRingFetch w s) :=
  runW_keepsLock fun _ _ => .of_boot (by split <;> simp [(fetchOne_only _ _ _).boot rfl])

theorem actRingFetchResponse_keepsLock {ring kind resp rec1} :
    KeepsLock s (actRingFetchResponse ring kind resp rec1 s) := by
  refine run_keepsLock fun _ _ => .of_boot ?_
  dsimp only
  repeat' split
  all_goals simp -implicitDefEqProofs [(badRec_only _ _ _ _ _).boot rfl]

theorem actRingRepoll_keepsLock {ring} : KeepsLock s (actRingRepoll ring s) :=
  run_keepsLock fun _ _ => .of_boot (by split <;> simp [apply_ite Block.boot, (fetchOne_only _ _ _).boot rfl])

theorem actRingDescriptorWrite_keepsLock {k data} : KeepsLock s (actRingDescriptorWrite k data s) :=
  keeperReg_keepsLock fun _ _ => (ringWrite_only _ _ _ _).lockHeld rfl

theorem actRingEnable_keepsLock : KeepsLock s (actRingEnable s) :=
  keeperReg_keepsLock fun _ _ => (ringWrite_only _ _ _ _).lockHeld rfl

theorem actRingDisable_keepsLock : KeepsLock s (actRingDisable s) :=
  keeperReg_keepsLock fun _ _ => (ringWrite_only _ _ _ _).lockHeld rfl

theorem actTnDoorbell_keepsLock {t tslot wptr} : KeepsLock s (actTnDoorbell t tslot wptr s) :=
  runReg_keepsLock fun _ _ => by
    dsimp only
    exact .regWrite fun _ => .trans (.of_boot (wr_boot _ _ _ _)) ((ringBell_only _ _ _ _ _).lockHeld rfl)

theorem actRingCancelOldest_keepsLock {t tslot} : KeepsLock s (actRingCancelOldest t tslot s) :=
  ringCtrlReg_keepsLock

theorem actRingCancelAll_keepsLock {t tslot} : KeepsLock s (actRingCancelAll t tslot s) :=
  ringCtrlReg_keepsLock

theorem actRingResume_keepsLock {t tslot} : KeepsLock s (actRingResume t tslot s) :=
  ringCtrlReg_keepsLock

/-! ## The passes of a segment -/

theorem actGraphPass1_keepsLock {ring} : KeepsLock s (actGraphPass1 ring s) :=
  runK_keepsLock fun _ _ => .of_boot (by simp [apply_ite Block.boot, (pass1_only _ _ _).boot rfl])

theorem actFanListReadResponse_keepsLock {ring addr resp idx} :
    KeepsLock s (actFanListReadResponse ring addr resp idx s) :=
  run_keepsLock fun _ _ => .of_boot (by split <;> simp [apply_ite Block.boot, (passFault_only _ _ _ _).boot rfl])

theorem actOperandReadResponse_keepsLock {ring addr resp value} :
    KeepsLock s (actOperandReadResponse ring addr resp value s) :=
  run_keepsLock fun _ _ => .of_boot (by split <;> simp [apply_ite Block.boot, (passFault_only _ _ _ _).boot rfl])

theorem actAheadRelease_keepsLock {ring} : KeepsLock s (actAheadRelease ring s) :=
  runK_keepsLock fun _ _ => .of_boot (by simp [apply_ite Block.boot])

theorem actGraphPass2_keepsLock {ring} : KeepsLock s (actGraphPass2 ring s) :=
  runK_keepsLock fun _ _ => .of_boot (by split <;> simp [apply_ite Block.boot, (admitSeg_only _ _ _ _ _).boot rfl])

theorem actEntryQueueAdmit_keepsLock {ring} : KeepsLock s (actEntryQueueAdmit ring s) :=
  runK_keepsLock fun _ _ => .of_boot (by split <;> simp [apply_ite Block.boot, (admitSeg_only _ _ _ _ _).boot rfl])

theorem actRemoteRetryExpiry_keepsLock {ring} : KeepsLock s (actRemoteRetryExpiry ring s) :=
  runK_keepsLock fun _ _ => .of_boot (by split <;> simp [apply_ite Block.boot])

theorem actHndAnswer_keepsLock {ring via ans} : KeepsLock s (actHndAnswer ring via ans s) := by
  refine runK_keepsLock fun _ _ => .of_boot (rxItems_boot fun _ => ?_)
  dsimp only
  repeat' split
  all_goals simp [(abandonFar_only _ _ _ _).boot rfl, (allocSeg_only _ _ _ _).boot rfl, (updSeg_only _ _ _).boot rfl]

theorem actGraphPass3_keepsLock {ring} : KeepsLock s (actGraphPass3 ring s) :=
  runK_keepsLock fun _ _ => .of_boot (by split <;> simp [apply_ite Block.boot, (pass3_only _ _ _ _).boot rfl])

/-! ## Pre-emption -/

theorem actPreemptRequest_keepsLock {ring queue} : KeepsLock s (actPreemptRequest ring queue s) :=
  keeperReg_keepsLock fun _ _ => (preCtrl_only _ _ _).lockHeld rfl

theorem actPreemptResume_keepsLock {ring} : KeepsLock s (actPreemptResume ring s) :=
  keeperReg_keepsLock fun _ _ => (preCtrl_only _ _ _).lockHeld rfl

theorem actDiscardNotice_keepsLock {w ring} : KeepsLock s (actDiscardNotice w ring s) :=
  runW_keepsLock fun _ _ => .of_boot (by split <;> simp [(discardOne_only _ _ _).boot rfl, (uncount_only _ _).boot rfl])

theorem actAutoPreemptTrigger_keepsLock : KeepsLock s (actAutoPreemptTrigger s) :=
  runK_keepsLock fun _ _ => .of_boot (by simp [apply_ite Block.boot, (lcFire_only _ _ _).boot rfl])

theorem actAutoResume_keepsLock : KeepsLock s (actAutoResume s) :=
  runK_keepsLock fun _ _ => .of_boot (by split <;> simp [apply_ite Block.boot, (preResumeAt_only _ _ _).boot rfl])

/-! ## The walk of a submission -/

theorem actSegmentHeader_keepsLock {ring hdr body} : KeepsLock s (actSegmentHeader ring hdr body s) := by
  refine runK_keepsLock fun _ _ => .of_boot ?_
  dsimp only
  repeat' split
  all_goals simp [(badSeek_only _ _ _ _).boot rfl, (enterSeg_only _ _ _ _ _).boot rfl,
    (seekSeg_only _ _ _ _ _ _).boot rfl]

theorem actCond_keepsLock {ring rec1} : KeepsLock s (actCond ring rec1 s) :=
  runRec_keepsLock fun _ _ _ => .of_boot (by simp [apply_ite Block.boot, (jump_only _ _ _ _ _ _).boot rfl])

theorem actLoop_keepsLock {ring rec1} : KeepsLock s (actLoop ring rec1 s) := by
  refine runRec_keepsLock fun _ _ _ => .of_boot ?_
  dsimp only
  split
  · repeat' split
    all_goals simp [(jump_only _ _ _ _ _ _).boot rfl]
  · refine useOpd_boot fun _ _ => ?_
    repeat' split
    all_goals simp [(jump_only _ _ _ _ _ _).boot rfl]

theorem actEndloop_keepsLock {ring rec1} : KeepsLock s (actEndloop ring rec1 s) :=
  runRec_keepsLock fun _ _ _ => .of_boot (by dsimp only; split <;> simp [apply_ite Block.boot,
    (walkOn_only _ _ _).boot rfl])

theorem actStepEnd_keepsLock {ring rec1} : KeepsLock s (actStepEnd ring rec1 s) :=
  runRec_keepsLock fun _ _ _ => .of_boot (by simp [(ensureStep_only _ _).boot rfl, (markCommit_only _ _).boot rfl,
    (reachPoint_only _ _ _ _ _).boot rfl, (stepAdvance_only _ _ _ _).boot rfl])

theorem actYield_keepsLock {ring rec1} : KeepsLock s (actYield ring rec1 s) :=
  runRec_keepsLock fun _ _ _ => (reachPoint_only _ _ _ _ _).lockHeld rfl

theorem actFence_keepsLock {ring rec1} : KeepsLock s (actFence ring rec1 s) :=
  runRec_keepsLock fun _ _ _ => .of_boot (by simp [apply_ite Block.boot, (fencePass_only _ _ _ _ _).boot rfl])

theorem actFenceRelease_keepsLock {ring} : KeepsLock s (actFenceRelease ring s) :=
  runK_keepsLock fun _ _ => .of_boot (by split <;> simp [apply_ite Block.boot, (fencePass_only _ _ _ _ _).boot rfl])

theorem actIndirect_keepsLock {ring rec1} : KeepsLock s (actIndirect ring rec1 s) :=
  runK_keepsLock fun _ _ => .of_boot (by simp [apply_ite Block.boot, (passRec_only _ _ _).boot rfl])

theorem actSetSlot_keepsLock {ring rec1} : KeepsLock s (actSetSlot ring rec1 s) :=
  runRec_keepsLock fun _ _ _ => .of_boot (by simp [apply_ite Block.boot, (applySet_only _ _ _).boot rfl])

theorem actNote_keepsLock {ring rec1} : KeepsLock s (actNote ring rec1 s) :=
  runRec_keepsLock fun _ _ _ => .of_boot (by simp [(postW_only _ _ _ _ _ _ _ _).boot rfl])

theorem actMark_keepsLock {ring rec1} : KeepsLock s (actMark ring rec1 s) :=
  runRec_keepsLock fun _ _ _ => .of_boot (by simp [(applyMark_only _ _ _ _).boot rfl])

theorem actNop_keepsLock {ring rec1} : KeepsLock s (actNop ring rec1 s) :=
  runRec_keepsLock fun _ _ _ => (pass_only _ _ _).lockHeld rfl

theorem actHaspSignal_keepsLock {ring rec1} : KeepsLock s (actHaspSignal ring rec1 s) := by
  refine runRec_keepsLock fun _ _ _ => .of_boot (useOpd_boot fun _ _ => ?_)
  dsimp only
  repeat' split
  all_goals simp [(haspSignal_only _ _ _ _ _ _ _).boot rfl]

theorem actHaspReset_keepsLock {ring rec1} : KeepsLock s (actHaspReset ring rec1 s) :=
  runRec_keepsLock fun _ _ _ => .of_boot (by simp [apply_ite Block.boot, (haspReset_only _ _ _).boot rfl])

theorem actHaspWait_keepsLock {ring rec1} : KeepsLock s (actHaspWait ring rec1 s) :=
  runRec_keepsLock fun _ _ _ => .of_boot (by simp [apply_ite Block.boot])

theorem actOpenCh_keepsLock {ring rec1} : KeepsLock s (actOpenCh ring rec1 s) :=
  runRec_keepsLock fun _ _ _ => .of_boot (by simp [apply_ite Block.boot, (applyOpen_only _ _ _ _ _ _).boot rfl])

theorem actCloseCh_keepsLock {ring rec1} : KeepsLock s (actCloseCh ring rec1 s) := by
  refine runRec_keepsLock fun _ _ _ => .of_boot (useOpd_boot fun _ _ => ?_)
  split
  · simp
  · simp [apply_ite Block.boot]

/-! ## Hinges and federation -/

theorem actHelloReceived_keepsLock {h hinst} : KeepsLock s (actHelloReceived h hinst s) :=
  runH_keepsLock fun _ _ => .of_boot (by simp [apply_ite Block.boot, (pgErr_only _ _ _ _).boot rfl,
    (sendHello_only _ _ _).boot rfl, (tryActive_only _ _ _).boot rfl])

theorem actRetrainNotification_keepsLock {h} : KeepsLock s (actRetrainNotification h s) :=
  runH_keepsLock fun _ _ => .of_boot (by simp [apply_ite Block.boot])

theorem actLinkActiveAgain_keepsLock {h} : KeepsLock s (actLinkActiveAgain h s) :=
  runH_keepsLock fun _ _ => .of_boot (by simp [apply_ite Block.boot])

theorem actHoldMaxExpiry_keepsLock {h} : KeepsLock s (actHoldMaxExpiry h s) :=
  runH_keepsLock fun _ _ => .of_boot (by simp [apply_ite Block.boot])

theorem actLinkError_keepsLock {h} : KeepsLock s (actLinkError h s) :=
  runH_keepsLock fun _ _ => (goDown_only _ _ _).lockHeld rfl

theorem actStallRequest_keepsLock {h} : KeepsLock s (actStallRequest h s) :=
  runH_keepsLock fun _ _ => .of_boot (by simp [apply_ite Block.boot])

theorem actHingeDownWrite_keepsLock {h} : KeepsLock s (actHingeDownWrite h s) :=
  ite_keepsLock (keeperReg_keepsLock fun _ _ => (hgCtrl_only _ _ _ _).lockHeld rfl)

theorem actHingeRearm_keepsLock {h} : KeepsLock s (actHingeRearm h s) :=
  ite_keepsLock (keeperReg_keepsLock fun _ _ => (hgCtrl_only _ _ _ _).lockHeld rfl)

theorem actHingeCreditReturn_keepsLock {h credO credA} : KeepsLock s (actHingeCreditReturn h credO credA s) :=
  runH_keepsLock fun _ _ => .of_boot (by simp [apply_ite Block.boot])

theorem actConfReceived_keepsLock {h iseq} : KeepsLock s (actConfReceived h iseq s) := by
  refine runH_keepsLock fun _ _ => .of_boot (rxItem_boot fun _ => ?_)
  dsimp only
  rw [hingeFlush_boot, forEach_boot, updHinge_boot]
  rintro ⟨seq, it, owner⟩ c
  cases owner with
  | none => rfl
  | some o => exact (ownerDone_only _ _ _).boot rfl

theorem actConfSend_keepsLock {h} : KeepsLock s (actConfSend h s) :=
  runH_keepsLock fun _ _ => .of_boot (by simp [apply_ite Block.boot, (toPeer_only _ _ _ _ _).boot rfl])

theorem actItemForward_keepsLock {h slots} : KeepsLock s (actItemForward h slots s) :=
  runH_keepsLock fun _ _ => .of_boot (by split <;> simp [apply_ite Block.boot, (hingePut_only _ _ _ _).boot rfl,
    (strandOne_only _ _ _ _).boot rfl])

theorem actRemoteReserve_keepsLock {h req} : KeepsLock s (actRemoteReserve h req s) :=
  runH_keepsLock fun _ _ => .of_boot (by simp [apply_ite Block.boot, (farGrant_only _ _ _).boot rfl,
    (farReply_only _ _ _ _).boot rfl])

theorem actLinkItem_keepsLock {via bank idx word} : KeepsLock s (actLinkItem via bank idx word s) :=
  runK_keepsLock fun _ _ => .of_boot (rxItem_boot fun _ => by split <;> simp [(putLinks_only _ _ _ _).boot rfl])

theorem actXctlAbandon_keepsLock {via bank} : KeepsLock s (actXctlAbandon via bank s) :=
  runK_keepsLock fun _ _ => .of_boot (rxItem_boot fun _ => by split <;> simp [(giveBack_only _ _).boot rfl])

theorem actSetlItem_keepsLock {via ring word status} : KeepsLock s (actSetlItem via ring word status s) :=
  runK_keepsLock fun _ _ => .of_boot (rxItem_boot fun _ => by
    dsimp only
    split <;> simp -implicitDefEqProofs [(ringSettle_only _ _ _ _ _ _ _ _).boot rfl])

theorem actChcItem_keepsLock {via op ch endp port} : KeepsLock s (actChcItem via op ch endp port s) := by
  refine runK_keepsLock fun _ _ => .of_boot (rxItem_boot fun _ => ?_)
  dsimp only
  repeat' split
  all_goals simp [(chcOpen_only _ _ _ _ _ _).boot rfl, (closedBeat_only _ _).boot rfl,
    (tearAt_only _ _ _ _ _ _).boot rfl]

theorem actHingeDownEvent_keepsLock {h} : KeepsLock s (actHingeDownEvent h s) :=
  runH_keepsLock fun _ _ => .of_boot (by simp [apply_ite Block.boot, (dropAwaiting_only _ _ _).boot rfl,
    (noticeWards_only _ _ _).boot rfl, (sendHello_only _ _ _).boot rfl, (sendUnrch_only _ _ _ _ _).boot rfl,
    (strandOne_only _ _ _ _).boot rfl, (tryActive_only _ _ _).boot rfl])

theorem actUnrchItem_keepsLock {h mask reach} : KeepsLock s (actUnrchItem h mask reach s) :=
  runH_keepsLock fun _ _ => .of_boot (by simp [apply_ite Block.boot, (dropAwaiting_only _ _ _).boot rfl,
    (noticeWards_only _ _ _).boot rfl, (sendUnrch_only _ _ _ _ _).boot rfl])

theorem actUnreachableNotice_keepsLock {w mask} : KeepsLock s (actUnreachableNotice w mask s) :=
  runW_keepsLock fun _ _ => .of_boot (by split <;> simp [(breakChan_only _ _ _ _ _ _).boot rfl,
    (cancelFar_only _ _ _ _).boot rfl, (failImports_only _ _ _ _).boot rfl, (failRoster_only _ _ _ _).boot rfl,
    (settleAsked_only _ _ _ _).boot rfl, (settleWaits_only _ _ _ _).boot rfl, (tearFar_only _ _ _ _).boot rfl])

theorem actTsFlitSend_keepsLock {h} : KeepsLock s (actTsFlitSend h s) :=
  runH_keepsLock fun _ _ => .of_boot (by simp [apply_ite Block.boot, (flitOut_only _ _ _ _ _).boot rfl])

theorem actTsSample_keepsLock {h tsval} : KeepsLock s (actTsSample h tsval s) :=
  runH_keepsLock fun _ _ => .of_boot (by simp [apply_ite Block.boot, (govStepped_only _ _).boot rfl])

theorem actTsSlewStep_keepsLock : KeepsLock s (actTsSlewStep s) :=
  runK_keepsLock fun _ _ => .of_boot (by simp [apply_ite Block.boot])

theorem actTsHoldEnd_keepsLock : KeepsLock s (actTsHoldEnd s) :=
  runK_keepsLock fun _ _ => .of_boot (by simp [apply_ite Block.boot])

theorem actTsLost_keepsLock {h} : KeepsLock s (actTsLost h s) :=
  runH_keepsLock fun _ _ => .of_boot (by simp [apply_ite Block.boot])

theorem actTsUnlock_keepsLock {h} : KeepsLock s (actTsUnlock h s) :=
  ite_keepsLock (keeperReg_keepsLock fun _ _ => (tsStatWrite_only _ _ _).lockHeld rfl)

/-! ## Faults and containment -/

theorem actScrubRead_keepsLock {u table word bad} : KeepsLock s (actScrubRead u table word bad s) :=
  run_keepsLock fun _ _ => .of_boot (by split <;> simp [(corrected_only _ _ _ _ _).boot rfl,
    (patrol_only _ _ _ _ _ _).boot rfl])

theorem actUncorrectableWord_keepsLock {u table idx obj} : KeepsLock s (actUncorrectableWord u table idx obj s) :=
  run_keepsLock fun _ _ => .of_boot (by split <;> simp [apply_ite Block.boot, (badKeeper_only _ _ _ _).boot rfl,
    (badWard_only _ _ _ _ _ _).boot rfl])

theorem actTmrDisagreement_keepsLock {lanes} : KeepsLock s (actTmrDisagreement lanes s) := by
  refine runK_keepsLock fun p b => .trans (.forEach fun i c => ?_) (.of_lock (when_lock (instFault_lock p)))
  exact .of_lock ((laneHard_lock p i _).trans (laneUp_lock i c))

theorem actReplay_keepsLock {u} : KeepsLock s (actReplay u s) :=
  run_keepsLock fun _ _ => .of_boot (by split <;> simp -implicitDefEqProofs)

theorem actCrossbarRetransmit_keepsLock {u again} : KeepsLock s (actCrossbarRetransmit u again s) := by
  refine run_keepsLock fun _ _ => .of_lock ?_
  dsimp only
  repeat' split
  all_goals simp -implicitDefEqProofs

theorem actLogRecordArrival_keepsLock {u} : KeepsLock s (actLogRecordArrival u s) :=
  runK_keepsLock fun _ _ => .of_boot (by dsimp only; split <;> simp [(storeLog_only _ _ _).boot rfl])

theorem actLogPop_keepsLock : KeepsLock s (actLogPop s) :=
  keeperReg_keepsLock fun _ _ => (logCtrl_only _ _).lockHeld rfl

theorem actLogReinit_keepsLock : KeepsLock s (actLogReinit s) :=
  keeperReg_keepsLock fun _ _ => (logCtrl_only _ _).lockHeld rfl

theorem actLrClear_keepsLock : KeepsLock s (actLrClear s) :=
  keeperReg_keepsLock fun _ _ => (lrCtrl_only _ _).lockHeld rfl

theorem actDeadboltSample_keepsLock {a b1} : KeepsLock s (actDeadboltSample a b1 s) :=
  runK_keepsLock fun _ _ => .of_boot (by simp [apply_ite Block.boot, (agreeTick_only _ _ _).boot rfl,
    (disagreeTick_only _ _ _).boot rfl])

theorem actDeadboltAssert_keepsLock : KeepsLock s (actDeadboltAssert s) := by
  refine runK_keepsLock fun _ _ => .of_boot ?_
  dsimp only
  repeat' split
  all_goals simp [(quiesceAll_only _ _).boot rfl, (trTrigger_only _ _ _ _).boot rfl]

theorem actDrainEnd_keepsLock : KeepsLock s (actDrainEnd s) := by
  refine runK_keepsLock fun _ _ => .of_boot ?_
  split
  · split
    · refine (when_boot fun c => forEach_boot fun h d => goDown_boot _ h d).trans ?_
      rw [updDb_boot]
      refine (forEach_boot fun x c => ?_).trans ((endAll_only _ _ _).boot rfl)
      split
      · exact logRec_boot _ _ c
      · rfl
    · rfl
  · rfl

theorem actDeadboltRelease_keepsLock : KeepsLock s (actDeadboltRelease s) :=
  runK_keepsLock fun _ _ => .of_boot (by simp [apply_ite Block.boot])

theorem actDiscFaultClear_keepsLock : KeepsLock s (actDiscFaultClear s) :=
  keeperReg_keepsLock fun _ _ => (dbStatWrite_only _ _).lockHeld rfl

theorem actHangDetect_keepsLock {ring} : KeepsLock s (actHangDetect ring s) :=
  run_keepsLock fun _ _ => .of_boot (by simp [apply_ite Block.boot, (blkOrder_only _).boot rfl,
    (trTrigger_only _ _ _ _).boot rfl])

/-! ## Resets, boot and lock -/

theorem actPorstNRelease_keepsLock : KeepsLock s (actPorstNRelease s) := run_keepsLock fun _ _ => .of_lock (by simp)

theorem actSrstNRelease_keepsLock : KeepsLock s (actSrstNRelease s) :=
  run_keepsLock fun _ _ => .of_lock (by dsimp only; split <;> simp)

theorem actMtrRstN_keepsLock : KeepsLock s (actMtrRstN s) :=
  run_keepsLock fun _ _ => .of_boot (by simp)

theorem actDomainResetRelease_keepsLock {d} : KeepsLock s (actDomainResetRelease d s) :=
  run_keepsLock fun _ _ => .of_lock (by cases d <;> simp)

theorem actBootScrubDone_keepsLock {u} : KeepsLock s (actBootScrubDone u s) := by
  refine run_keepsLock fun _ _ => .of_lock ?_
  cases u with
  | keeper => simp
  | ward w => dsimp only; split <;> simp
  | hinge h => rfl

theorem actSelfTestDone_keepsLock {u fatal corrected} : KeepsLock s (actSelfTestDone u fatal corrected s) := by
  refine run_keepsLock fun _ _ => .of_lock ?_
  dsimp only
  split
  all_goals simp

theorem actTmrCheck_keepsLock {bad} : KeepsLock s (actTmrCheck bad s) := by
  refine run_keepsLock fun _ _ => .of_lock ?_
  dsimp only
  rw [bootCheck_lock, setStage_lock]
  split
  all_goals simp

theorem actLinkUp_keepsLock {h} : KeepsLock s (actLinkUp h s) := by
  refine runH_keepsLock fun _ _ => .of_lock ?_
  dsimp only
  repeat' split
  all_goals simp [(linkTrained_only _ _ _).boot rfl]

theorem actLinkUpTimeout_keepsLock {h} : KeepsLock s (actLinkUpTimeout h s) :=
  runH_keepsLock fun _ _ => .of_lock (by split <;> simp)

theorem actLock_keepsLock : KeepsLock s (actLock s) := keeperReg_keepsLock fun p b => kctrlWrite_lockHeld p 1 b

theorem actFwfail_keepsLock : KeepsLock s (actFwfail s) := keeperReg_keepsLock fun _ b => .of_lock (kbootWrite_lock _ b)

/-! ## The Sealed Meter -/

theorem actKeyStoreAck_keepsLock {mac err} : KeepsLock s (actKeyStoreAck mac err s) :=
  runM_keepsLock fun _ _ => .of_boot (by split <;> simp [apply_ite Block.boot, (signFail_only _).boot rfl,
    (signNext_only _).boot rfl])

theorem actKeyStoreTimeout_keepsLock : KeepsLock s (actKeyStoreTimeout s) :=
  runM_keepsLock fun _ _ => .of_boot (by split <;> simp [apply_ite Block.boot, (signFail_only _).boot rfl])

theorem actSignRetry_keepsLock : KeepsLock s (actSignRetry s) := by
  refine runM_keepsLock fun _ _ => .of_boot ?_
  repeat' split
  all_goals simp [(ksSend_only _ _).boot rfl]

theorem actTallySlotSample_keepsLock {health} : KeepsLock s (actTallySlotSample health s) := by
  refine runM_keepsLock fun _ _ => .of_boot ?_
  dsimp only
  repeat' split
  all_goals simp

theorem actPeriodDue_keepsLock : KeepsLock s (actPeriodDue s) :=
  runM_keepsLock fun _ _ => .of_boot (by simp [apply_ite Block.boot])

theorem actPeriodClose_keepsLock : KeepsLock s (actPeriodClose s) :=
  runM_keepsLock fun _ _ => .of_boot (by simp [apply_ite Block.boot])

theorem actRecordForm_keepsLock {bad} : KeepsLock s (actRecordForm bad s) :=
  runM_keepsLock fun _ _ => .of_boot (by split <;> simp [apply_ite Block.boot, (formNext_only _ _ _).boot rfl])

theorem actMeterRun_keepsLock : KeepsLock s (actMeterRun s) :=
  runM_keepsLock fun _ _ => .of_boot (by simp [(mtRun_only _).boot rfl])

theorem actMeterStop_keepsLock : KeepsLock s (actMeterStop s) :=
  runM_keepsLock fun _ _ => .of_boot (by simp [(mtStop_only _).boot rfl])

theorem actMeterConfigWrite_keepsLock {c} : KeepsLock s (actMeterConfigWrite c s) :=
  runM_keepsLock fun _ _ => .of_boot (by simp [(mtConfig_only _ _).boot rfl])

theorem actMeterRecPop_keepsLock : KeepsLock s (actMeterRecPop s) :=
  runM_keepsLock fun _ _ => .of_boot (by simp [(mtPop_only _).boot rfl])

/-! ## Observation -/

theorem actCounterClear_keepsLock {tgt} : KeepsLock s (actCounterClear tgt s) := by
  cases tgt with
  | keeper => exact keeperReg_keepsLock fun _ _ => (clearKeeper_only _).lockHeld rfl
  | wards t => exact wardReg_keepsLock fun _ _ _ => (clearPage_only _ _).lockHeld rfl
  | hinge h => exact keeperReg_keepsLock fun _ _ => .of_boot (when_boot fun _ => (clearPage_only _ _).boot rfl)

theorem actCounterSnapshotOrder_keepsLock : KeepsLock s (actCounterSnapshotOrder s) :=
  keeperReg_keepsLock fun _ _ => (snapOrder_only _).lockHeld rfl

theorem actCounterSnapshot_keepsLock : KeepsLock s (actCounterSnapshot s) :=
  runK_keepsLock fun _ _ => .of_boot (by simp [(copyCounters_only _).boot rfl])

theorem actBlockedOnSnapOrder_keepsLock : KeepsLock s (actBlockedOnSnapOrder s) :=
  keeperReg_keepsLock fun _ _ => (blkOrder_only _).lockHeld rfl

theorem actBlockedOnSnapshot_keepsLock : KeepsLock s (actBlockedOnSnapshot s) :=
  runK_keepsLock fun _ _ => .of_boot (by simp [(blkAll_only _ _).boot rfl])

theorem actBlockedOnDone_keepsLock : KeepsLock s (actBlockedOnDone s) :=
  runK_keepsLock fun _ _ => .of_boot (by simp [apply_ite Block.boot])

theorem actTraceBlockWrite_keepsLock : KeepsLock s (actTraceBlockWrite s) :=
  runK_keepsLock fun _ _ => .of_boot (by split <;> simp [(writeRun_only _ _ _).boot rfl])

theorem actTraceWriteResponse_keepsLock {resp} : KeepsLock s (actTraceWriteResponse resp s) :=
  runK_keepsLock fun _ _ => .of_boot (by simp -implicitDefEqProofs)

theorem actTraceEnable_keepsLock : KeepsLock s (actTraceEnable s) :=
  keeperReg_keepsLock fun _ _ => (trCtrl_only _ _ _).lockHeld rfl

theorem actTraceDisable_keepsLock : KeepsLock s (actTraceDisable s) :=
  keeperReg_keepsLock fun _ _ => (trCtrl_only _ _ _).lockHeld rfl

theorem actTraceTrigWrite_keepsLock : KeepsLock s (actTraceTrigWrite s) :=
  runReg_keepsLock fun _ _ => by
    dsimp only
    exact .regWrite fun _ => (trCtrl_only _ _ _).lockHeld rfl

theorem actTraceEntryStage_keepsLock : KeepsLock s (actTraceEntryStage s) :=
  runK_keepsLock fun _ _ => .of_boot (by simp [apply_ite Block.boot, (stageFrom_only _ _ _).boot rfl])

theorem actTraceFifoDrop_keepsLock {u} : KeepsLock s (actTraceFifoDrop u s) :=
  run_keepsLock fun _ _ => .of_boot (by simp [apply_ite Block.boot, (trLose_only _ _ _).boot rfl])

theorem actSamplePeriod_keepsLock {w} : KeepsLock s (actSamplePeriod w s) :=
  runW_keepsLock fun _ _ => .of_boot (by simp [apply_ite Block.boot, (trForm_only _ _ _ _).boot rfl])

/-! ## The dump -/

theorem actDumpGo_keepsLock : KeepsLock s (actDumpGo s) :=
  keeperReg_keepsLock fun _ _ => (dumpStart_only _ _).lockHeld rfl

theorem actDumpDone_keepsLock : KeepsLock s (actDumpDone s) :=
  run_keepsLock fun _ _ => .of_boot (by simp [(dumpSection_only _ _ _).boot rfl])

/-! ## Register writes and reads -/

theorem actCommitPoint_keepsLock {w} : KeepsLock s (actCommitPoint w s) :=
  runW_keepsLock fun _ _ => .of_boot (by simp [apply_ite Block.boot, (commitPointAt_only _ _ _).boot rfl])

theorem actCommitForce_keepsLock : KeepsLock s (actCommitForce s) :=
  keeperReg_keepsLock fun _ _ => (commitAll_only _ _).lockHeld rfl

theorem actTenantCfgWrite_keepsLock {data} : KeepsLock s (actTenantCfgWrite data s) :=
  keeperReg_keepsLock fun _ _ => (tenCfgWrite_only _ _ _).lockHeld rfl

theorem actCaptureClear_keepsLock : KeepsLock s (actCaptureClear s) :=
  keeperReg_keepsLock fun _ _ => (capClear_only _ _).lockHeld rfl

theorem actRegisterWrite_keepsLock {port addr data strb} : KeepsLock s (actRegisterWrite port addr data strb s) := by
  cases port with
  | mgt => exact runReg_keepsLock fun p b => mgtAccess_lockHeld p _ _ _ b
  | mtp => exact runM_keepsLock fun _ _ => (mtpWrite_only _ _ _ _).lockHeld rfl

theorem actRwqShadowWrite_keepsLock {addr data} : KeepsLock s (actRwqShadowWrite addr data s) := by
  refine runReg_keepsLock fun p b => ?_
  split
  · exact mgtWrite_lockHeld p _ _ b
  · exact .refl b

theorem actWindowRead_keepsLock {addr} : KeepsLock s (actWindowRead addr s) :=
  readReg_keepsLock

theorem actMultiwordReadLatch_keepsLock {addr} : KeepsLock s (actMultiwordReadLatch addr s) := by
  obtain ⟨port, a⟩ := addr
  cases port with
  | mgt =>
    unfold actMultiwordReadLatch
    exact readReg_keepsLock
  | mtp => exact runM_keepsLock fun _ _ => (mtpRead_only _ _ _).lockHeld rfl

theorem actEventRingRead_keepsLock {addr} : KeepsLock s (actEventRingRead addr s) :=
  readReg_keepsLock

theorem actMqRdataAdvance_keepsLock {w} : KeepsLock s (actMqRdataAdvance w s) :=
  readReg_keepsLock

theorem actRescrubDone_keepsLock {u} : KeepsLock s (actRescrubDone u s) :=
  run_keepsLock fun p b => .trans (.of_lock (rescrubbed_lock p u b)) (replayAccess_lockHeld p _)

end Events

end Sys2Proof.Machine
end

section
/-! PROOFS. LOCK (R389). -/

namespace Sys2Proof.Machine

/-! ## A write of 1 to LOCK -/

/-- A register reads the bits set in it beside its own, every other register what it read. -/
theorem rd_setBits (p : Params) (a : Nat) (m : Word32) (b : Block) (j : Nat) :
    rd p (setBits p a m b) j = if j = a then rd p b a ||| m else rd p b j := by
  split
  · subst j
    exact rd_wr_same p a _ b
  · exact rd_wr_ne p a _ b j ‹_›

theorem bitAt_rd_setBits_same (p : Params) (a : Nat) (b : Block) {i : Nat} (hi : i < 32) :
    bitAt (rd p (setBits p a (BitVec.ofNat 32 (2 ^ i)) b) a) i = true := by
  rw [rd_setBits, if_pos rfl]
  simp only [bitAt, BitVec.getLsbD_or, BitVec.getLsbD_ofNat, Nat.testBit_two_pow_self, hi, decide_true, Bool.and_true,
    Bool.or_true]

theorem bitAt_rd_setBits_of_set (p : Params) (a : Nat) (m : Word32) {b : Block} {j i : Nat}
    (h : bitAt (rd p b j) i = true) : bitAt (rd p (setBits p a m b) j) i = true := by
  rw [rd_setBits]
  split
  · subst j
    simp_all [bitAt]
  · exact h

/-- The posted writes that follow a raised bit leave the registers. -/
theorem rd_raise (p : Params) (a : Nat) (m : Word32) (b : Block) (j : Nat) :
    rd p (raise p a m b) j = rd p (setBits p a m b) j := by
  have posts : Only [.out] (setBits p a m b) (raise p a m b) :=
    Only.forEach (fun _ _ => Only.when (fun _ => msiWrite_only _ _ _) (Only.refl _ _)) (Only.refl _ _)
  have hregs : (raise p a m b).regs = (setBits p a m b).regs := posts .regs (by decide)
  rw [rd, hregs, rd]

/-- A PG_ERR bit that is reported reads 1 after it, whether PGERR rises with it or not (R399). -/
theorem bitAt_rd_pgErr (p : Params) (b : Block) {i : Nat} (hi : i < 32) :
    bitAt (rd p (pgErr p (kA 0 0) i b) (kA 0 0x010)) i = true := by
  have hset := bitAt_rd_setBits_same p (kA 0 0 + 0x010) b hi
  unfold pgErr when
  dsimp only
  split
  · change bitAt (rd p (raiseK p 7 _) _) i = true
    rw [raiseK, rd_raise]
    exact bitAt_rd_setBits_of_set p _ _ hset
  · exact hset

theorem lock_takes_effect (p : Params) (q : List Instr) (b : Block) (hfree : mgtFree b) (hready : b.boot.state = .ready)
    (hfault : b.dbolt.state ≠ .fault) : Takes .lock p q b fun d => d.boot.lock = true := by
  refine takes_of_keeperReg (fun _ => rfl) hfree ?_
  rw [regWrite_of_ready rfl, (dropHeld_only _ _).boot rfl]
  exact kctrlWrite_lock_of_ready p rfl ⟨hready, hfault⟩

theorem lock_ignored (p : Params) (q : List Instr) (b : Block) (hfree : mgtFree b)
    (hno : b.boot.state ≠ .ready ∨ b.dbolt.state = .fault) : Takes .lock p q b fun d =>
      d.boot = b.boot ∧ bitAt (rd p d (kA 0 0x010)) 8 = true ∧ Only [.mgt, .regs, .out] b d := by
  refine takes_of_keeperReg (fun _ => rfl) hfree ?_
  have hwait : ¬ (b.boot.state = .ready ∧ b.dbolt.state ≠ .fault) := by tauto
  have honly : Only [.mgt, .regs, .out] b
      (dropHeld [kA 0 0x048 / 0x1000] (pgErr p (kA 0 0) 8 (updMgt (fun m => { m with resp := .okay }) b))) :=
    Only.next (dropHeld_only _ _) (by decide) (Only.next (pgErr_only _ _ _ _) (by decide)
      (Only.mono (updMgt_only _ _) (by decide)))
  rw [regWrite_of_ready rfl, kctrlWrite_eq_pgErr p (b := updMgt (fun m => { m with resp := .okay }) b) rfl hwait]
  exact ⟨honly.boot rfl, bitAt_rd_pgErr p _ (by decide), honly⟩

/-! ## LOCK in every step -/

/-- Each command but the two resets leaves LOCK set: one event of those above for each. -/
theorem exec_keepsLock {c : Instr} (s : State) (hp : c ≠ .porstNAssert) (hs : c ≠ .srstNAssert) :
    KeepsLock (s.sampled c) (exec c s) := by
  cases c with
  | porstNAssert => exact absurd rfl hp
  | porstNRelease => exact actPorstNRelease_keepsLock
  | srstNAssert => exact absurd rfl hs
  | srstNRelease => exact actSrstNRelease_keepsLock
  | mtrRstN => exact actMtrRstN_keepsLock
  | domainResetRelease => exact actDomainResetRelease_keepsLock
  | bootScrubDone => exact actBootScrubDone_keepsLock
  | selfTestDone => exact actSelfTestDone_keepsLock
  | rescrubDone => exact actRescrubDone_keepsLock
  | tmrCheck => exact actTmrCheck_keepsLock
  | linkUp => exact actLinkUp_keepsLock
  | linkUpTimeout => exact actLinkUpTimeout_keepsLock
  | lock => exact actLock_keepsLock
  | fwfail => exact actFwfail_keepsLock
  | registerWrite => exact actRegisterWrite_keepsLock
  | rwqShadowWrite => exact actRwqShadowWrite_keepsLock
  | commitPoint => exact actCommitPoint_keepsLock
  | commitForce => exact actCommitForce_keepsLock
  | windowRead => exact actWindowRead_keepsLock
  | multiwordReadLatch => exact actMultiwordReadLatch_keepsLock
  | eventRingRead => exact actEventRingRead_keepsLock
  | ringDescriptorWrite => exact actRingDescriptorWrite_keepsLock
  | ringEnable => exact actRingEnable_keepsLock
  | ringDisable => exact actRingDisable_keepsLock
  | tenantCfgWrite => exact actTenantCfgWrite_keepsLock
  | haspAssign => exact actHaspAssign_keepsLock
  | haspForce => exact actHaspForce_keepsLock
  | preemptRequest => exact actPreemptRequest_keepsLock
  | preemptResume => exact actPreemptResume_keepsLock
  | keyPoolCfgWrite => exact actKeyPoolCfgWrite_keepsLock
  | keyPoolReset => exact actKeyPoolReset_keepsLock
  | mqCfgWrite => exact actMqCfgWrite_keepsLock
  | mqFlush => exact actMqFlush_keepsLock
  | flushDiscard => exact actFlushDiscard_keepsLock
  | mqPush => exact actMqPush_keepsLock
  | mqPop => exact actMqPop_keepsLock
  | mqRdataAdvance => exact actMqRdataAdvance_keepsLock
  | logPop => exact actLogPop_keepsLock
  | logReinit => exact actLogReinit_keepsLock
  | lrClear => exact actLrClear_keepsLock
  | counterClear => exact actCounterClear_keepsLock
  | counterSnapshotOrder => exact actCounterSnapshotOrder_keepsLock
  | counterSnapshot => exact actCounterSnapshot_keepsLock
  | blockedOnSnapOrder => exact actBlockedOnSnapOrder_keepsLock
  | blockedOnSnapshot => exact actBlockedOnSnapshot_keepsLock
  | blockedOnDone => exact actBlockedOnDone_keepsLock
  | dumpGo => exact actDumpGo_keepsLock
  | dumpSnapshotTimeout => exact actDumpSnapshotTimeout_keepsLock
  | dumpDone => exact actDumpDone_keepsLock
  | traceEnable => exact actTraceEnable_keepsLock
  | traceDisable => exact actTraceDisable_keepsLock
  | traceTrigWrite => exact actTraceTrigWrite_keepsLock
  | hingeDownWrite => exact actHingeDownWrite_keepsLock
  | hingeRearm => exact actHingeRearm_keepsLock
  | tsUnlock => exact actTsUnlock_keepsLock
  | discFaultClear => exact actDiscFaultClear_keepsLock
  | captureClear => exact actCaptureClear_keepsLock
  | tnDoorbell => exact actTnDoorbell_keepsLock
  | ringCancelOldest => exact actRingCancelOldest_keepsLock
  | ringCancelAll => exact actRingCancelAll_keepsLock
  | ringResume => exact actRingResume_keepsLock
  | meterRun => exact actMeterRun_keepsLock
  | meterStop => exact actMeterStop_keepsLock
  | meterConfigWrite => exact actMeterConfigWrite_keepsLock
  | meterRecPop => exact actMeterRecPop_keepsLock
  | tallySlotSample => exact actTallySlotSample_keepsLock
  | periodDue => exact actPeriodDue_keepsLock
  | periodClose => exact actPeriodClose_keepsLock
  | recordForm => exact actRecordForm_keepsLock
  | keyStoreAck => exact actKeyStoreAck_keepsLock
  | keyStoreTimeout => exact actKeyStoreTimeout_keepsLock
  | signRetry => exact actSignRetry_keepsLock
  | issueCommit => exact actIssueCommit_keepsLock
  | issDescriptorAccepted => exact actIssDescriptorAccepted_keepsLock
  | preloadStart => exact actPreloadStart_keepsLock
  | argumentReadResponse => exact actArgumentReadResponse_keepsLock
  | preloadComplete => exact actPreloadComplete_keepsLock
  | canAck => exact actCanAck_keepsLock
  | cmpRecord => exact actCmpRecord_keepsLock
  | opdDelivery => exact actOpdDelivery_keepsLock
  | landingCreditReturn => exact actLandingCreditReturn_keepsLock
  | statusBeatAccepted => exact actStatusBeatAccepted_keepsLock
  | send => exact actSend_keepsLock
  | contrib => exact actContrib_keepsLock
  | openReq => exact actOpenReq_keepsLock
  | closeReq => exact actCloseReq_keepsLock
  | hsig => exact actHsig_keepsLock
  | keyreq => exact actKeyreq_keepsLock
  | returnUnused => exact actReturnUnused_keepsLock
  | doorbell => exact actDoorbell_keepsLock
  | slotwr => exact actSlotwr_keepsLock
  | badMsgRequest => exact actBadMsgRequest_keepsLock
  | returnKret => exact actReturnKret_keepsLock
  | ctlOnlineChange => exact actCtlOnlineChange_keepsLock
  | ctlSnapshotReceived => exact actCtlSnapshotReceived_keepsLock
  | snapshotTimeout => exact actSnapshotTimeout_keepsLock
  | portReset => exact actPortReset_keepsLock
  | decrement => exact actDecrement_keepsLock
  | failureNotice => exact actFailureNotice_keepsLock
  | cancelNotice => exact actCancelNotice_keepsLock
  | guardWaitPass => exact actGuardWaitPass_keepsLock
  | settlementNotice => exact actSettlementNotice_keepsLock
  | issueProxyNotice => exact actIssueProxyNotice_keepsLock
  | successorDelivery => exact actSuccessorDelivery_keepsLock
  | entryFree => exact actEntryFree_keepsLock
  | quarantineEnd => exact actQuarantineEnd_keepsLock
  | edgeRefetchDone => exact actEdgeRefetchDone_keepsLock
  | taskClassTimeout => exact actTaskClassTimeout_keepsLock
  | arbiterForward => exact actArbiterForward_keepsLock
  | placementRequest => exact actPlacementRequest_keepsLock
  | placementDecision => exact actPlacementDecision_keepsLock
  | waitingListOffer => exact actWaitingListOffer_keepsLock
  | stagingRequest => exact actStagingRequest_keepsLock
  | stagingNoPort => exact actStagingNoPort_keepsLock
  | placementDecisionArrival => exact actPlacementDecisionArrival_keepsLock
  | stagedTaskPlaced => exact actStagedTaskPlaced_keepsLock
  | governorRequest => exact actGovernorRequest_keepsLock
  | governorQueueGrant => exact actGovernorQueueGrant_keepsLock
  | governorWindowStart => exact actGovernorWindowStart_keepsLock
  | portRelease => exact actPortRelease_keepsLock
  | taskCancel => exact actTaskCancel_keepsLock
  | withdrawal => exact actWithdrawal_keepsLock
  | unloadDirective => exact actUnloadDirective_keepsLock
  | epochMint => exact actEpochMint_keepsLock
  | tokenArrival => exact actTokenArrival_keepsLock
  | ringFetch => exact actRingFetch_keepsLock
  | ringFetchResponse => exact actRingFetchResponse_keepsLock
  | ringRepoll => exact actRingRepoll_keepsLock
  | recordAccept => exact actRecordAccept_keepsLock
  | waitsubRelease => exact actWaitsubRelease_keepsLock
  | segmentHeader => exact actSegmentHeader_keepsLock
  | graphPass1 => exact actGraphPass1_keepsLock
  | fanListReadResponse => exact actFanListReadResponse_keepsLock
  | operandReadResponse => exact actOperandReadResponse_keepsLock
  | graphPass2 => exact actGraphPass2_keepsLock
  | entryQueueAdmit => exact actEntryQueueAdmit_keepsLock
  | graphPass3 => exact actGraphPass3_keepsLock
  | aheadRelease => exact actAheadRelease_keepsLock
  | cond => exact actCond_keepsLock
  | loop => exact actLoop_keepsLock
  | endloop => exact actEndloop_keepsLock
  | stepEnd => exact actStepEnd_keepsLock
  | yield => exact actYield_keepsLock
  | fence => exact actFence_keepsLock
  | fenceRelease => exact actFenceRelease_keepsLock
  | indirect => exact actIndirect_keepsLock
  | setSlot => exact actSetSlot_keepsLock
  | note => exact actNote_keepsLock
  | mark => exact actMark_keepsLock
  | nop => exact actNop_keepsLock
  | haspSignal => exact actHaspSignal_keepsLock
  | haspReset => exact actHaspReset_keepsLock
  | haspWait => exact actHaspWait_keepsLock
  | openCh => exact actOpenCh_keepsLock
  | closeCh => exact actCloseCh_keepsLock
  | commandFaultNotice => exact actCommandFaultNotice_keepsLock
  | ringTimeout => exact actRingTimeout_keepsLock
  | stepTimeout => exact actStepTimeout_keepsLock
  | statusBlockWriteResponse => exact actStatusBlockWriteResponse_keepsLock
  | digestWriteResponse => exact actDigestWriteResponse_keepsLock
  | messageArrival => exact actMessageArrival_keepsLock
  | nackReturn => exact actNackReturn_keepsLock
  | answerReturn => exact actAnswerReturn_keepsLock
  | channelAllocate => exact actChannelAllocate_keepsLock
  | bindNotice => exact actBindNotice_keepsLock
  | channelCloseApply => exact actChannelCloseApply_keepsLock
  | channelIdFree => exact actChannelIdFree_keepsLock
  | stormNotice => exact actStormNotice_keepsLock
  | partArrival => exact actPartArrival_keepsLock
  | partApply => exact actPartApply_keepsLock
  | drainConvert => exact actDrainConvert_keepsLock
  | drainWriteResponse => exact actDrainWriteResponse_keepsLock
  | tearNotice => exact actTearNotice_keepsLock
  | queueNumberFree => exact actQueueNumberFree_keepsLock
  | signal => exact actSignal_keepsLock
  | waitRegistration => exact actWaitRegistration_keepsLock
  | waitRelease => exact actWaitRelease_keepsLock
  | taskFormRelease => exact actTaskFormRelease_keepsLock
  | keyRequestArrival => exact actKeyRequestArrival_keepsLock
  | keyReturn => exact actKeyReturn_keepsLock
  | keyTimeout => exact actKeyTimeout_keepsLock
  | autoPreemptTrigger => exact actAutoPreemptTrigger_keepsLock
  | discardNotice => exact actDiscardNotice_keepsLock
  | autoResume => exact actAutoResume_keepsLock
  | helloReceived => exact actHelloReceived_keepsLock
  | itemForward => exact actItemForward_keepsLock
  | remoteReserve => exact actRemoteReserve_keepsLock
  | hndAnswer => exact actHndAnswer_keepsLock
  | remoteRetryExpiry => exact actRemoteRetryExpiry_keepsLock
  | linkItem => exact actLinkItem_keepsLock
  | xctlAbandon => exact actXctlAbandon_keepsLock
  | setlItem => exact actSetlItem_keepsLock
  | hopItem => exact actHopItem_keepsLock
  | hrelItem => exact actHrelItem_keepsLock
  | chcItem => exact actChcItem_keepsLock
  | confReceived => exact actConfReceived_keepsLock
  | confSend => exact actConfSend_keepsLock
  | retrainNotification => exact actRetrainNotification_keepsLock
  | linkActiveAgain => exact actLinkActiveAgain_keepsLock
  | holdMaxExpiry => exact actHoldMaxExpiry_keepsLock
  | linkError => exact actLinkError_keepsLock
  | hingeDownEvent => exact actHingeDownEvent_keepsLock
  | unrchItem => exact actUnrchItem_keepsLock
  | unreachableNotice => exact actUnreachableNotice_keepsLock
  | tsFlitSend => exact actTsFlitSend_keepsLock
  | tsSample => exact actTsSample_keepsLock
  | tsSlewStep => exact actTsSlewStep_keepsLock
  | tsHoldEnd => exact actTsHoldEnd_keepsLock
  | tsLost => exact actTsLost_keepsLock
  | scrubRead => exact actScrubRead_keepsLock
  | uncorrectableWord => exact actUncorrectableWord_keepsLock
  | tmrDisagreement => exact actTmrDisagreement_keepsLock
  | replay => exact actReplay_keepsLock
  | crossbarRetransmit => exact actCrossbarRetransmit_keepsLock
  | logRecordArrival => exact actLogRecordArrival_keepsLock
  | deadboltSample => exact actDeadboltSample_keepsLock
  | deadboltAssert => exact actDeadboltAssert_keepsLock
  | drainEnd => exact actDrainEnd_keepsLock
  | deadboltRelease => exact actDeadboltRelease_keepsLock
  | hangDetect => exact actHangDetect_keepsLock
  | traceEntryStage => exact actTraceEntryStage_keepsLock
  | traceFifoDrop => exact actTraceFifoDrop_keepsLock
  | traceBlockWrite => exact actTraceBlockWrite_keepsLock
  | traceWriteResponse => exact actTraceWriteResponse_keepsLock
  | samplePeriod => exact actSamplePeriod_keepsLock
  | noteWriteResponse => exact actNoteWriteResponse_keepsLock
  | portResetRelease => exact actPortResetRelease_keepsLock
  | issueCopyReread => exact actIssueCopyReread_keepsLock
  | hingeCreditReturn => exact actHingeCreditReturn_keepsLock
  | stallRequest => exact actStallRequest_keepsLock
  -- SEAL, the one command left: its constructor's name is a keyword of Lean and cannot head a case.
  | _ => exact actSeal_keepsLock

/-- A step leaves LOCK set unless it runs a reset's assertion. -/
theorem step_lockHeld {s t : State} (hstep : step s = .next t) (hp : s.pending.head? ≠ some .porstNAssert)
    (hs : s.pending.head? ≠ some .srstNAssert) : LockHeld s.block t.block := by
  obtain ⟨p, pending, b, k⟩ := s
  cases pending with
  | nil =>
    obtain rfl := Host.Outcome.next.inj hstep
    exact nextCycle_lockHeld _
  | cons c rest =>
    have hkeeps := exec_keepsLock (c := c) ⟨p, rest, b, k⟩ (fun h => hp (congrArg some h))
      (fun h => hs (congrArg some h))
    exact (sampled_lockHeld c ⟨p, rest, b, k⟩).trans (hkeeps t hstep)

/-- Settles O59: KP_CTRL takes the write in READY outside FAULT and reports it otherwise, and no event but the assertion
of a reset clears LOCK. -/
theorem lockRule : Obligations.LockRule := by
  refine ⟨lock_takes_effect, lock_ignored, fun s t hstep hl => ?_⟩
  by_cases hp : s.pending.head? = some .porstNAssert
  · exact .inr (.inl hp)
  · by_cases hs : s.pending.head? = some .srstNAssert
    · exact .inr (.inr hs)
    · exact .inl (step_lockHeld hstep hp hs hl)

end Sys2Proof.Machine
end

section
/-! SUPPORT. What an event may write together with what it keeps: the rules by which both are carried through an
operation, a branch and a loop. -/

namespace Sys2Proof.Machine

/-! ## One part set to a value -/

section Set

theorem set_place_only (v) (b : Block) : Only [.place] b { b with place := v } := by
  intro f hf
  cases f <;> first | rfl | exact absurd (by decide) hf

theorem set_gov_only (v) (b : Block) : Only [.gov] b { b with gov := v } := by
  intro f hf
  cases f <;> first | rfl | exact absurd (by decide) hf

theorem set_arb_only (v) (b : Block) : Only [.arb] b { b with arb := v } := by
  intro f hf
  cases f <;> first | rfl | exact absurd (by decide) hf

theorem set_rchans_only (v) (b : Block) : Only [.rchans] b { b with rchans := v } := by
  intro f hf
  cases f <;> first | rfl | exact absurd (by decide) hf

theorem set_waits_only (v) (b : Block) : Only [.waits] b { b with waits := v } := by
  intro f hf
  cases f <;> first | rfl | exact absurd (by decide) hf

theorem set_entq_only (v) (b : Block) : Only [.entq] b { b with entq := v } := by
  intro f hf
  cases f <;> first | rfl | exact absurd (by decide) hf

theorem set_lcIdleAt_only (v) (b : Block) : Only [.lcIdleAt] b { b with lcIdleAt := v } := by
  intro f hf
  cases f <;> first | rfl | exact absurd (by decide) hf

theorem set_remSegs_only (v) (b : Block) : Only [.remSegs] b { b with remSegs := v } := by
  intro f hf
  cases f <;> first | rfl | exact absurd (by decide) hf

theorem set_unreach_only (v) (b : Block) : Only [.unreach] b { b with unreach := v } := by
  intro f hf
  cases f <;> first | rfl | exact absurd (by decide) hf

theorem set_ecc_only (v) (b : Block) : Only [.ecc] b { b with ecc := v } := by
  intro f hf
  cases f <;> first | rfl | exact absurd (by decide) hf

theorem set_hang_only (v) (b : Block) : Only [.hang] b { b with hang := v } := by
  intro f hf
  cases f <;> first | rfl | exact absurd (by decide) hf

theorem set_blk_only (v) (b : Block) : Only [.blk] b { b with blk := v } := by
  intro f hf
  cases f <;> first | rfl | exact absurd (by decide) hf

theorem set_dump_only (v) (b : Block) : Only [.dump] b { b with dump := v } := by
  intro f hf
  cases f <;> first | rfl | exact absurd (by decide) hf

theorem set_wq_only (v) (b : Block) : Only [.wq] b { b with wq := v } := by
  intro f hf
  cases f <;> first | rfl | exact absurd (by decide) hf

theorem set_opdLast_only (v) (b : Block) : Only [.opdLast] b { b with opdLast := v } := by
  intro f hf
  cases f <;> first | rfl | exact absurd (by decide) hf

theorem set_cbParts_only (v) (b : Block) : Only [.cbParts] b { b with cbParts := v } := by
  intro f hf
  cases f <;> first | rfl | exact absurd (by decide) hf

theorem set_tally_only (v) (b : Block) : Only [.tally] b { b with tally := v } := by
  intro f hf
  cases f <;> first | rfl | exact absurd (by decide) hf

theorem set_storms_only (v) (b : Block) : Only [.storms] b { b with storms := v } := by
  intro f hf
  cases f <;> first | rfl | exact absurd (by decide) hf

end Set

/-- The second block differs from the first at most in the parts listed, and its tables are sound if the first's are. -/
structure Framed (p : Params) (l : List BlockPart) (b c : Block) : Prop where
  only : Only l b c
  keeps : Keeps p b c

namespace Framed

variable {p : Params} {l m : List BlockPart} {b c d : Block}

theorem refl (p : Params) (l : List BlockPart) (b : Block) : Framed p l b b := ⟨.refl l b, .refl p b⟩

/-- One more operation that writes parts of the list alone. -/
theorem next (ho : Only m c d) (hk : Keeps p c d) (hs : ∀ f ∈ m, f ∈ l) (hb : Framed p l b c) : Framed p l b d :=
  ⟨.next ho hs hb.only, .next hk hb.keeps⟩

theorem trans (hb : Framed p l b c) (hc : Framed p l c d) : Framed p l b d :=
  next hc.only hc.keeps (fun _ h => h) hb

/-- Parts that no table of `Sound` lies in may take any value. -/
theorem free (ho : Only m c d) (hm : ∀ f ∈ m, f ∈ l ∧ f ∈ freeParts) (hb : Framed p l b c) : Framed p l b d :=
  next ho (Keeps.free (ho.mono fun f h => (hm f h).2) (.refl p c)) (fun f h => (hm f h).1) hb

theorem when {q : Bool} {f : Block → Block} (hf : ∀ x, Framed p l x (f x)) (hb : Framed p l b c) :
    Framed p l b (when q f c) :=
  ⟨.when (fun x => (hf x).only) hb.only, .when (fun x => (hf x).keeps) hb.keeps⟩

theorem forEach {α : Type} {xs : List α} {f : α → Block → Block} (hf : ∀ a x, Framed p l x (f a x))
    (hb : Framed p l b c) : Framed p l b (forEach xs f c) :=
  ⟨.forEach (fun a x => (hf a x).only) hb.only, .forEach (fun a x => (hf a x).keeps) hb.keeps⟩

theorem regWrite {a : Nat} {v : Word32} {need pages : List Nat} {f : Block → Block} (hl : ∀ g ∈ [BlockPart.mgt], g ∈ l)
    (hf : ∀ x, Framed p l x (f x)) (hb : Framed p l b c) : Framed p l b (regWrite a v need pages f c) :=
  ⟨regWrite_only hl (fun x => (hf x).only) hb.only, regWrite_keeps (fun x => (hf x).keeps) hb.keeps⟩

theorem wardWrite {t : WTarget} {q o : Nat} {v : Word32} {tab : Bool} {f : Nat → Block → Block}
    (hl : ∀ g ∈ [BlockPart.mgt, .regs, .out], g ∈ l) (hf : ∀ w x, Framed p l x (f w x)) (hb : Framed p l b c) :
    Framed p l b (wardWrite p t q o v tab f c) :=
  ⟨wardWrite_only hl (fun w x => (hf w x).only) hb.only, wardWrite_keeps (fun w x => (hf w x).keeps) hb.keeps⟩

theorem rxItem {h n : Nat} {ordered : Bool} {f : Block → Block} (hl : ∀ g ∈ [BlockPart.cnt, .hg], g ∈ l)
    (hf : ∀ x, Framed p l x (f x)) (hb : Framed p l b c) : Framed p l b (rxItem p h n ordered f c) :=
  ⟨rxItem_only hl (fun x => (hf x).only) hb.only, rxItem_keeps (fun x => (hf x).keeps) hb.keeps⟩

theorem rxData {h : Nat} {it : Item} {f : Item → Block → Block} (hl : ∀ g ∈ [BlockPart.cnt, .hg], g ∈ l)
    (hf : ∀ i x, Framed p l x (f i x)) (hb : Framed p l b c) : Framed p l b (rxData p h it f c) :=
  ⟨rxData_only hl (fun i x => (hf i x).only) hb.only, rxData_keeps (fun i x => (hf i x).keeps) hb.keeps⟩

theorem rxItems {h : Nat} {s : List Nat} {ordered : Bool} {f : Block → Block} (hl : ∀ g ∈ [BlockPart.cnt, .hg], g ∈ l)
    (hf : ∀ x, Framed p l x (f x)) (hb : Framed p l b c) : Framed p l b (rxItems p h s ordered f c) :=
  ⟨rxItems_only hl (fun x => (hf x).only) hb.only, rxItems_keeps (fun x => (hf x).keeps) hb.keeps⟩

/-- The parts that a record may write before its own effect. -/
abbrev recParts : List BlockPart := [.cnt, .ports, .rings, .segs, .entq, .hg, .cap, .xbar, .out]

theorem useOpd {r : Nat} {x : BitVec 512} {v : OpdVal} {f : Nat → Block → Block} (hl : ∀ g ∈ recParts, g ∈ l)
    (hf : ∀ n x, Framed p l x (f n x)) (hb : Framed p l b c) : Framed p l b (useOpd p r x v f c) :=
  ⟨useOpd_only hl (fun n x => (hf n x).only) hb.only, useOpd_keeps (fun n x => (hf n x).keeps) hb.keeps⟩

theorem walkHasp {r : Nat} {x : BitVec 512} {op : Nat} {v : Word32} {wait : Bool} {f : Nat → Block → Block}
    (hl : ∀ g ∈ recParts, g ∈ l) (hf : ∀ n x, Framed p l x (f n x)) (hb : Framed p l b c) :
    Framed p l b (walkHasp p r x op v wait f c) :=
  ⟨walkHasp_only hl (fun n x => (hf n x).only) hb.only, walkHasp_keeps (fun n x => (hf n x).keeps) hb.keeps⟩

theorem walkRec {r o : Nat} {rec1 : BitVec 256} {f : BitVec 512 → Block → Block} (hl : ∀ g ∈ recParts, g ∈ l)
    (hf : ∀ y x, Framed p l x (f y x)) (hb : Framed p l b c) : Framed p l b (walkRec p r o rec1 f c) :=
  ⟨walkRec_only hl (fun y x => (hf y x).only) hb.only, walkRec_keeps (fun y x => (hf y x).keeps) hb.keeps⟩

/-! ### A part set to a value -/

/-- A part that no table of `Sound` lies in may take any value. -/
theorem part {f : BlockPart} (ho : Only [f] c d) (hf : f ∈ freeParts) (hl : f ∈ l) (hb : Framed p l b c) :
    Framed p l b d :=
  free ho (fun _ h => List.mem_singleton.mp h ▸ ⟨hl, hf⟩) hb

theorem place {v} (hl : BlockPart.place ∈ l) (hb : Framed p l b c) : Framed p l b { c with place := v } :=
  part (set_place_only v c) (by decide) hl hb

theorem gov {v} (hl : BlockPart.gov ∈ l) (hb : Framed p l b c) : Framed p l b { c with gov := v } :=
  part (set_gov_only v c) (by decide) hl hb

theorem arb {v} (hl : BlockPart.arb ∈ l) (hb : Framed p l b c) : Framed p l b { c with arb := v } :=
  part (set_arb_only v c) (by decide) hl hb

theorem rchans {v} (hl : BlockPart.rchans ∈ l) (hb : Framed p l b c) : Framed p l b { c with rchans := v } :=
  part (set_rchans_only v c) (by decide) hl hb

theorem waits {v} (hl : BlockPart.waits ∈ l) (hb : Framed p l b c) : Framed p l b { c with waits := v } :=
  part (set_waits_only v c) (by decide) hl hb

theorem entq {v} (hl : BlockPart.entq ∈ l) (hb : Framed p l b c) : Framed p l b { c with entq := v } :=
  part (set_entq_only v c) (by decide) hl hb

theorem lcIdleAt {v} (hl : BlockPart.lcIdleAt ∈ l) (hb : Framed p l b c) : Framed p l b { c with lcIdleAt := v } :=
  part (set_lcIdleAt_only v c) (by decide) hl hb

theorem remSegs {v} (hl : BlockPart.remSegs ∈ l) (hb : Framed p l b c) : Framed p l b { c with remSegs := v } :=
  part (set_remSegs_only v c) (by decide) hl hb

theorem unreach {v} (hl : BlockPart.unreach ∈ l) (hb : Framed p l b c) : Framed p l b { c with unreach := v } :=
  part (set_unreach_only v c) (by decide) hl hb

theorem ecc {v} (hl : BlockPart.ecc ∈ l) (hb : Framed p l b c) : Framed p l b { c with ecc := v } :=
  part (set_ecc_only v c) (by decide) hl hb

theorem hang {v} (hl : BlockPart.hang ∈ l) (hb : Framed p l b c) : Framed p l b { c with hang := v } :=
  part (set_hang_only v c) (by decide) hl hb

theorem blk {v} (hl : BlockPart.blk ∈ l) (hb : Framed p l b c) : Framed p l b { c with blk := v } :=
  part (set_blk_only v c) (by decide) hl hb

theorem dump {v} (hl : BlockPart.dump ∈ l) (hb : Framed p l b c) : Framed p l b { c with dump := v } :=
  part (set_dump_only v c) (by decide) hl hb

theorem upd_wq {k : Nat} {v} (hl : BlockPart.wq ∈ l) (hb : Framed p l b c) :
    Framed p l b { c with wq := Tbl.upd {} c.wq k v } :=
  next (set_wq_only _ c) (Keeps.upd_wq (.refl p c)) (fun _ h => List.mem_singleton.mp h ▸ hl) hb

theorem set_opdLast {k : Nat} {v} (hl : BlockPart.opdLast ∈ l) (hb : Framed p l b c) :
    Framed p l b { c with opdLast := Tbl.set 0 c.opdLast k v } :=
  next (set_opdLast_only _ c) (Keeps.set_opdLast (.refl p c)) (fun _ h => List.mem_singleton.mp h ▸ hl) hb

theorem set_cbParts {k : Nat} {v} (hl : BlockPart.cbParts ∈ l) (hb : Framed p l b c) :
    Framed p l b { c with cbParts := Tbl.set [] c.cbParts k v } :=
  next (set_cbParts_only _ c) (Keeps.set_cbParts (.refl p c)) (fun _ h => List.mem_singleton.mp h ▸ hl) hb

theorem set_tally {k : Nat} {v} (hl : BlockPart.tally ∈ l) (hb : Framed p l b c) :
    Framed p l b { c with tally := Tbl.set {} c.tally k v } :=
  next (set_tally_only _ c) (Keeps.set_tally (.refl p c)) (fun _ h => List.mem_singleton.mp h ▸ hl) hb

theorem storm {v : List Storm} (hv : c.storms.length ≤ 64 → v.length ≤ 64) (hl : BlockPart.storms ∈ l)
    (hb : Framed p l b c) : Framed p l b { c with storms := v } :=
  next (set_storms_only _ c) (Keeps.storm hv (.refl p c)) (fun _ h => List.mem_singleton.mp h ▸ hl) hb

end Framed

/-! ## An event's answer -/

/-- The event answers a next state with the parameters, the queue and the cycle as they were, and its block is framed. -/
def Answers (l : List BlockPart) (s : State) (o : Outcome) : Prop :=
  ∃ d, o = .next { s with block := d } ∧ Framed s.params l s.block d

section Events

variable {s : State} {l : List BlockPart} {f : Params → Block → Block}

theorem run_answers {g : Params → Block → Bool} (hf : ∀ p b, Framed p l b (f p b)) : Answers l s (s.run g f) := by
  by_cases h : g s.params s.block = true
  · exact ⟨_, run_on h, hf _ _⟩
  · exact ⟨s.block, run_off (Bool.eq_false_iff.mpr h), .refl _ _ _⟩

/-- A command of a unit that is not there has no effect. -/
theorem ite_answers {q : Prop} [Decidable q] {o : Outcome} (h : Answers l s o) :
    Answers l s (if q then o else .next s) := by
  split
  · exact h
  · exact ⟨s.block, rfl, .refl _ _ _⟩

theorem runK_answers (hf : ∀ p b, Framed p l b (f p b)) : Answers l s (s.runK f) := run_answers hf

theorem runW_answers {w : Nat} (hf : ∀ p b, Framed p l b (f p b)) : Answers l s (s.runW w f) := run_answers hf

theorem runH_answers {h : Nat} (hf : ∀ p b, Framed p l b (f p b)) : Answers l s (s.runH h f) := run_answers hf

theorem runM_answers (hf : ∀ p b, Framed p l b (f p b)) : Answers l s (s.runM f) := run_answers hf

theorem runReg_answers (hf : ∀ p b, Framed p l b (f p b)) : Answers l s (s.runReg f) := run_answers hf

theorem keeperReg_answers {a : Nat} {v : Word32} {tab : Bool} (hl : ∀ g ∈ [BlockPart.mgt], g ∈ l)
    (hf : ∀ p b, Framed p l b (f p b)) : Answers l s (s.keeperReg a v tab f) :=
  runReg_answers fun p b => .regWrite hl (hf p) (.refl p l b)

theorem wardReg_answers {t : WTarget} {q o : Nat} {v : Word32} {tab : Bool} {f : Params → Nat → Block → Block}
    (hl : ∀ g ∈ [BlockPart.mgt, .regs, .out], g ∈ l) (hf : ∀ p w b, Framed p l b (f p w b)) :
    Answers l s (s.wardReg t q o v tab f) :=
  runReg_answers fun p b => .wardWrite hl (hf p) (.refl p l b)

theorem runRec_answers {r o : Nat} {rec1 : BitVec 256} {f : Params → BitVec 512 → Block → Block}
    (hl : ∀ g ∈ Framed.recParts, g ∈ l) (hf : ∀ p x b, Framed p l b (f p x b)) : Answers l s (s.runRec r o rec1 f) :=
  runK_answers fun p b => .walkRec hl (hf p) (.refl p l b)

end Events

end Sys2Proof.Machine
end

section
/-! SUPPORT. What each command's event may write and that it keeps the tables sound: one lemma for each event. An event is
made of operations of which the Only and the Keeps laws say this one by one; its lemma splits its branches and names the
operations that it is made of. -/

namespace Sys2Proof.Machine

section Events

variable {s : State}

theorem actDecrement_answers {word src eoc} :
    Answers (writes (.decrement word src eoc)) s (actDecrement word src eoc s) := by
  dsimp only [writes]
  refine runW_answers fun p b => ?_
  repeat' first
    | with_reducible exact Framed.refl _ _ _
    | (with_reducible apply Framed.next (endCycle_only _ _ _) (endCycle_keeps _ _ _); · decide)
    | (with_reducible apply Framed.next (sampleItem_only _ _ _ _ _ _) (sampleItem_keeps _ _ _ _ _ _); · decide)

theorem actFailureNotice_answers {word root src eoc} :
    Answers (writes (.failureNotice word root src eoc)) s (actFailureNotice word root src eoc s) := by
  dsimp only [writes]
  refine runW_answers fun p b => ?_
  repeat' first
    | with_reducible exact Framed.refl _ _ _
    | (with_reducible apply Framed.next (endCycle_only _ _ _) (endCycle_keeps _ _ _); · decide)
    | (with_reducible apply Framed.next (sampleItem_only _ _ _ _ _ _) (sampleItem_keeps _ _ _ _ _ _); · decide)

theorem actCancelNotice_answers {word src eoc} :
    Answers (writes (.cancelNotice word src eoc)) s (actCancelNotice word src eoc s) := by
  dsimp only [writes]
  refine runW_answers fun p b => ?_
  repeat' first
    | with_reducible exact Framed.refl _ _ _
    | (with_reducible apply Framed.next (endCycle_only _ _ _) (endCycle_keeps _ _ _); · decide)
    | (with_reducible apply Framed.next (sampleItem_only _ _ _ _ _ _) (sampleItem_keeps _ _ _ _ _ _); · decide)

theorem actSeal_answers {w ring seg src eoc} :
    Answers (writes (.seal w ring seg src eoc)) s (actSeal w ring seg src eoc s) := by
  dsimp only [writes]
  refine runW_answers fun p b => ?_
  dsimp only
  repeat' first
    | with_reducible exact Framed.refl _ _ _
    | (with_reducible apply Framed.next (trForm_only _ _ _ _) (trForm_keeps _ _ _ _); · decide)
    | (with_reducible apply Framed.next (xrx_only _ _ _) (xrx_keeps _ _ _ _); · decide)
    | (with_reducible apply Framed.next (dropRemSeg_only _ _ _) (dropRemSeg_keeps _ _ _ _); · decide)
    | (with_reducible apply Framed.next (sealEntry_only _ _ _) (sealEntry_keeps _ _ _); · decide)
    | (with_reducible apply Framed.next (endCycle_only _ _ _) (endCycle_keeps _ _ _); · decide)
    | (with_reducible apply Framed.next (sealHanded_only _ _ _) (sealHanded_keeps _ _ _ _); · decide)
    | (with_reducible apply Framed.next (xdrop_only _ _) (xdrop_keeps _ _ _); · decide)
    | (with_reducible apply Framed.next (trRing_only _ _ _ _ _ _ _) (trRing_keeps _ _ _ _ _ _ _); · decide)
    | (with_reducible apply Framed.rxItem; · decide)
    | with_reducible apply Framed.forEach
    | split
    | (intro _; try dsimp only)

theorem actGuardWaitPass_answers {w} : Answers (writes (.guardWaitPass w)) s (actGuardWaitPass w s) := by
  dsimp only [writes]
  exact runW_answers fun p b => .next (guardPassAll_only _ _ _) (guardPassAll_keeps _ _ _) (by decide) (.refl _ _ _)

theorem actSettlementNotice_answers {kind word eoc} :
    Answers (writes (.settlementNotice kind word eoc)) s (actSettlementNotice kind word eoc s) := by
  dsimp only [writes]
  refine runK_answers fun p b => ?_
  dsimp only
  repeat' first
    | with_reducible exact Framed.refl _ _ _
    | (with_reducible apply Framed.next (xrx_only _ _ _) (xrx_keeps _ _ _ _); · decide)
    | (with_reducible apply Framed.next (xdrop_only _ _) (xdrop_keeps _ _ _); · decide)
    | (with_reducible apply Framed.next (endCycle_only _ _ _) (endCycle_keeps _ _ _); · decide)
    | (with_reducible apply Framed.next (homeCmp_only _ _ _ _ _ _ _ _) (homeCmp_keeps _ _ _ _ _ _ _ _); · decide)
    | (with_reducible apply Framed.next (staleItem_only _ _ _) (staleItem_keeps _ _ _); · decide)
    | (with_reducible apply Framed.next (updEnt_only _ _ _) (updEnt_keeps _ _ _ _); · decide)
    | (with_reducible apply Framed.next (ringSettle_only _ _ _ _ _ _ _ _) (ringSettle_keeps _ _ _ _ _ _ _ _); · decide)
    | split

theorem actIssueProxyNotice_answers {kind word} :
    Answers (writes (.issueProxyNotice kind word)) s (actIssueProxyNotice kind word s) := by
  dsimp only [writes]
  refine runW_answers fun p b => ?_
  dsimp only
  repeat' first
    | with_reducible exact Framed.refl _ _ _
    | (with_reducible apply Framed.next (xrx_only _ _ _) (xrx_keeps _ _ _ _); · decide)
    | (with_reducible apply Framed.next (xdrop_only _ _) (xdrop_keeps _ _ _); · decide)
    | (with_reducible apply Framed.next (proxyState_only _ _ _) (proxyState_keeps _ _ _ _); · decide)
    | split

theorem actSuccessorDelivery_answers {handle} :
    Answers (writes (.successorDelivery handle)) s (actSuccessorDelivery handle s) := by
  dsimp only [writes]
  refine runW_answers fun p b => ?_
  dsimp only
  repeat' first
    | with_reducible exact Framed.refl _ _ _
    | (with_reducible apply Framed.next (deliverOne_only _ _ _ _) (deliverOne_keeps _ _ _ _); · decide)
    | (with_reducible apply Framed.next (updEnt_only _ _ _) (updEnt_keeps _ _ _ _); · decide)
    | with_reducible apply Framed.forEach
    | split
    | (intro _; try dsimp only)

theorem actEntryFree_answers {handle} : Answers (writes (.entryFree handle)) s (actEntryFree handle s) := by
  dsimp only [writes]
  refine runW_answers fun p b => ?_
  dsimp only
  repeat' first
    | with_reducible exact Framed.refl _ _ _
    | (with_reducible apply Framed.next (freeQueue_only _ _ _) (freeQueue_keeps _ _ _ _); · decide)
    | (with_reducible apply Framed.next (updFed_only _ _ _) (updFed_keeps _ _ _ _); · decide)
    | (with_reducible apply Framed.next (updEnt_only _ _ _) (updEnt_keeps _ _ _ _); · decide)
    | split
    | (with_reducible apply Framed.upd_wq; · decide)

theorem actQuarantineEnd_answers {handle} : Answers (writes (.quarantineEnd handle)) s (actQuarantineEnd handle s) := by
  dsimp only [writes]
  refine runW_answers fun p b => ?_
  repeat' first
    | with_reducible exact Framed.refl _ _ _
    | (with_reducible apply Framed.next (updEnt_only _ _ _) (updEnt_keeps _ _ _ _); · decide)
    | split

theorem actEdgeRefetchDone_answers {handle} :
    Answers (writes (.edgeRefetchDone handle)) s (actEdgeRefetchDone handle s) := by
  dsimp only [writes]
  refine runW_answers fun p b => ?_
  dsimp only
  repeat' first
    | with_reducible exact Framed.refl _ _ _
    | (with_reducible apply Framed.next (evict_only _ _ _ _ _) (evict_keeps _ _ _ _ _); · decide)
    | (with_reducible apply Framed.next (updEnt_only _ _ _) (updEnt_keeps _ _ _ _); · decide)
    | with_reducible apply Framed.when
    | split
    | (intro _; try dsimp only)

theorem actTaskClassTimeout_answers {handle} :
    Answers (writes (.taskClassTimeout handle)) s (actTaskClassTimeout handle s) := by
  dsimp only [writes]
  refine runW_answers fun p b => ?_
  dsimp only
  repeat' first
    | with_reducible exact Framed.refl _ _ _
    | (with_reducible apply Framed.next (updEnt_only _ _ _) (updEnt_keeps _ _ _ _); · decide)
    | (with_reducible apply Framed.next (logRec_only _ _ _) (logRec_keeps _ _ _); · decide)
    | (with_reducible apply Framed.next (voidW_only _ _) (voidW_keeps _ _ _); · decide)
    | with_reducible apply Framed.when
    | split
    | (intro _; try dsimp only)

theorem actTaskCancel_answers {handle} : Answers (writes (.taskCancel handle)) s (actTaskCancel handle s) := by
  dsimp only [writes]
  refine runW_answers fun p b => ?_
  dsimp only
  repeat' first
    | with_reducible exact Framed.refl _ _ _
    | (with_reducible apply Framed.next (xrx_only _ _ _) (xrx_keeps _ _ _ _); · decide)
    | (with_reducible apply Framed.next (xdrop_only _ _) (xdrop_keeps _ _ _); · decide)
    | (with_reducible apply Framed.next (bump_only _ _ _) (bump_keeps _ _ _ _); · decide)
    | (with_reducible apply Framed.next (cancelEntry_only _ _ _) (cancelEntry_keeps _ _ _); · decide)
    | split

theorem actGovernorRequest_answers {handle} :
    Answers (writes (.governorRequest handle)) s (actGovernorRequest handle s) := by
  dsimp only [writes]
  refine runK_answers fun p b => ?_
  dsimp only
  repeat' first
    | with_reducible exact Framed.refl _ _ _
    | (with_reducible apply Framed.next (govArrive_only _ _ _ _ _) (govArrive_keeps _ _ _ _ _); · decide)
    | split
    | (with_reducible apply Framed.place; · decide)

theorem actGovernorQueueGrant_answers {dom} :
    Answers (writes (.governorQueueGrant dom)) s (actGovernorQueueGrant dom s) := by
  dsimp only [writes]
  refine runK_answers fun p b => ?_
  repeat' first
    | with_reducible exact Framed.refl _ _ _
    | (with_reducible apply Framed.next (govExamine_only _ _ _ _) (govExamine_keeps _ _ _ _); · decide)
    | with_reducible apply Framed.when
    | (intro _; try dsimp only)

theorem actGovernorWindowStart_answers {throttle} :
    Answers (writes (.governorWindowStart throttle)) s (actGovernorWindowStart throttle s) := by
  dsimp only [writes]
  refine runK_answers fun p b => ?_
  dsimp only
  repeat' first
    | with_reducible exact Framed.refl _ _ _
    | (with_reducible apply Framed.next (updDom_only _ _ _) (updDom_keeps _ _ _ _); · decide)
    | with_reducible apply Framed.forEach
    | split
    | (intro _; try dsimp only)
    | (with_reducible apply Framed.gov; · decide)

theorem actArbiterForward_answers {w} : Answers (writes (.arbiterForward w)) s (actArbiterForward w s) := by
  dsimp only [writes]
  refine runW_answers fun p b => ?_
  dsimp only
  repeat' first
    | with_reducible exact Framed.refl _ _ _
    | (with_reducible apply Framed.next (forwardStage_only _ _) (forwardStage_keeps _ _ _); · decide)
    | (with_reducible apply Framed.next (dwrr_only _ _ _ _) (dwrr_keeps _ _ _ _ _); · decide)
    | (with_reducible apply Framed.next (forwardTask_only _ _ _ _) (forwardTask_keeps _ _ _ _ _); · decide)
    | split
    | (with_reducible apply Framed.arb; · decide)

theorem actPlacementRequest_answers {handle} :
    Answers (writes (.placementRequest handle)) s (actPlacementRequest handle s) := by
  dsimp only [writes]
  refine runK_answers fun p b => ?_
  dsimp only
  repeat' first
    | with_reducible exact Framed.refl _ _ _
    | (with_reducible apply Framed.next (updEnt_only _ _ _) (updEnt_keeps _ _ _ _); · decide)
    | (with_reducible apply Framed.next (xdrop_only _ _) (xdrop_keeps _ _ _); · decide)
    | (with_reducible apply Framed.next (tookSeq_only _) (tookSeq_keeps _ _); · decide)
    | split
    | (with_reducible apply Framed.place; · decide)

theorem actPlacementDecision_answers {handle} :
    Answers (writes (.placementDecision handle)) s (actPlacementDecision handle s) := by
  dsimp only [writes]
  refine runK_answers fun p b => ?_
  repeat' first
    | with_reducible exact Framed.refl _ _ _
    | (with_reducible apply Framed.next (decideReq_only _ _ _) (decideReq_keeps _ _ _); · decide)
    | with_reducible apply Framed.when
    | split
    | (intro _; try dsimp only)

theorem actWaitingListOffer_answers : Answers (writes (.waitingListOffer)) s (actWaitingListOffer s) := by
  dsimp only [writes]
  refine runK_answers fun p b => ?_
  repeat' first
    | with_reducible exact Framed.refl _ _ _
    | (with_reducible apply Framed.next (offerWaiting_only _ _ _) (offerWaiting_keeps _ _ _); · decide)
    | with_reducible apply Framed.when
    | (intro _; try dsimp only)

theorem actStagingRequest_answers {handle} :
    Answers (writes (.stagingRequest handle)) s (actStagingRequest handle s) := by
  dsimp only [writes]
  refine runK_answers fun p b => ?_
  dsimp only
  repeat' first
    | with_reducible exact Framed.refl _ _ _
    | (with_reducible apply Framed.next (decideAll_only _ _) (decideAll_keeps _ _); · decide)
    | (with_reducible apply Framed.next (xdrop_only _ _) (xdrop_keeps _ _ _); · decide)
    | (with_reducible apply Framed.next (reserve_only _ _ _ _) (reserve_keeps _ _ _ _); · decide)
    | (with_reducible apply Framed.next (bump_only _ _ _) (bump_keeps _ _ _ _); · decide)
    | (with_reducible apply Framed.next (occUp_only _ _ _) (occUp_keeps _ _ _ _); · decide)
    | (with_reducible apply Framed.next (xput_only _ _) (xput_keeps _ _ _); · decide)
    | (with_reducible apply Framed.next (updEnt_only _ _ _) (updEnt_keeps _ _ _ _); · decide)
    | with_reducible apply Framed.when
    | split
    | (intro _; try dsimp only)

theorem actStagingNoPort_answers {handle} : Answers (writes (.stagingNoPort handle)) s (actStagingNoPort handle s) := by
  dsimp only [writes]
  refine runW_answers fun p b => ?_
  dsimp only
  repeat' first
    | with_reducible exact Framed.refl _ _ _
    | (with_reducible apply Framed.next (updEnt_only _ _ _) (updEnt_keeps _ _ _ _); · decide)
    | (with_reducible apply Framed.next (xrx_only _ _ _) (xrx_keeps _ _ _ _); · decide)
    | (with_reducible apply Framed.next (xdrop_only _ _) (xdrop_keeps _ _ _); · decide)
    | split

theorem actPlacementDecisionArrival_answers {handle} :
    Answers (writes (.placementDecisionArrival handle)) s (actPlacementDecisionArrival handle s) := by
  dsimp only [writes]
  refine runK_answers fun p b => ?_
  dsimp only
  repeat' first
    | with_reducible exact Framed.refl _ _ _
    | (with_reducible apply Framed.next (xrx_only _ _ _) (xrx_keeps _ _ _ _); · decide)
    | (with_reducible apply Framed.next (xdrop_only _ _) (xdrop_keeps _ _ _); · decide)
    | (with_reducible apply Framed.next (updPort_only _ _ _) (updPort_keeps _ _ _ _); · decide)
    | (with_reducible apply Framed.next (updEnt_only _ _ _) (updEnt_keeps _ _ _ _); · decide)
    | (with_reducible apply Framed.next (evRec_only _ _ _ _ _ _ _ _) (evRec_keeps _ _ _ _ _ _ _ _); · decide)
    | (with_reducible apply Framed.next (stageLost_only _ _) (stageLost_keeps _ _ _); · decide)
    | (with_reducible apply Framed.next (enqueue_only _ _ _ _ _) (enqueue_keeps _ _ _ _ _); · decide)
    | split

theorem actStagedTaskPlaced_answers {handle} :
    Answers (writes (.stagedTaskPlaced handle)) s (actStagedTaskPlaced handle s) := by
  dsimp only [writes]
  refine runW_answers fun p b => ?_
  dsimp only
  repeat' first
    | with_reducible exact Framed.refl _ _ _
    | (with_reducible apply Framed.next (updDom_only _ _ _) (updDom_keeps _ _ _ _); · decide)
    | (with_reducible apply Framed.next (spendToken_only _ _) (spendToken_keeps _ _ _); · decide)
    | (with_reducible apply Framed.next (enqueue_only _ _ _ _ _) (enqueue_keeps _ _ _ _ _); · decide)
    | (with_reducible apply Framed.next (updEnt_only _ _ _) (updEnt_keeps _ _ _ _); · decide)
    | (with_reducible apply Framed.next (unstage_only _ _ _) (unstage_keeps _ _ _); · decide)
    | split
    | (with_reducible apply Framed.place; · decide)

theorem actPortRelease_answers {port handle} :
    Answers (writes (.portRelease port handle)) s (actPortRelease port handle s) := by
  dsimp only [writes]
  refine runK_answers fun p b => ?_
  dsimp only
  repeat' first
    | with_reducible exact Framed.refl _ _ _
    | (with_reducible apply Framed.next (updRing_only _ _ _) (updRing_keeps _ _ _ _); · decide)
    | (with_reducible apply Framed.next (occDown_only _ _ _) (occDown_keeps _ _ _ _); · decide)
    | (with_reducible apply Framed.next (xdrop_only _ _) (xdrop_keeps _ _ _); · decide)
    | (with_reducible apply Framed.next (stageGone_only _ _ _ _) (stageGone_keeps _ _ _ _); · decide)
    | (with_reducible apply Framed.next (freePort_only _ _ _) (freePort_keeps _ _ _); · decide)
    | with_reducible apply Framed.when
    | split
    | (intro _; try dsimp only)

theorem actWithdrawal_answers {handle} : Answers (writes (.withdrawal handle)) s (actWithdrawal handle s) := by
  dsimp only [writes]
  refine runK_answers fun p b => ?_
  dsimp only
  repeat' first
    | with_reducible exact Framed.refl _ _ _
    | (with_reducible apply Framed.next (withdrawn_only _ _ _) (withdrawn_keeps _ _ _ _); · decide)
    | (with_reducible apply Framed.next (xdrop_only _ _) (xdrop_keeps _ _ _); · decide)
    | split

theorem actUnloadDirective_answers {handle} :
    Answers (writes (.unloadDirective handle)) s (actUnloadDirective handle s) := by
  dsimp only [writes]
  refine runK_answers fun p b => ?_
  dsimp only
  repeat' first
    | with_reducible exact Framed.refl _ _ _
    | (with_reducible apply Framed.next (xrx_only _ _ _) (xrx_keeps _ _ _ _); · decide)
    | (with_reducible apply Framed.next (xdrop_only _ _) (xdrop_keeps _ _ _); · decide)
    | (with_reducible apply Framed.next (unloadStage_only _ _ _ _ _) (unloadStage_keeps _ _ _ _ _); · decide)
    | (with_reducible apply Framed.next (unqueue_only _ _ _ _ _) (unqueue_keeps _ _ _ _ _); · decide)
    | (with_reducible apply Framed.next (homeCmp_only _ _ _ _ _ _ _ _) (homeCmp_keeps _ _ _ _ _ _ _ _); · decide)
    | (with_reducible apply Framed.next (xsend_only _ _ _ _) (xsend_keeps _ _ _ _ _); · decide)
    | (with_reducible apply Framed.next (voidW_only _ _) (voidW_keeps _ _ _); · decide)
    | (with_reducible apply Framed.next (updEnt_only _ _ _) (updEnt_keeps _ _ _ _); · decide)
    | with_reducible apply Framed.when
    | split
    | (intro _; try dsimp only)

theorem actEpochMint_answers : Answers (writes (.epochMint)) s (actEpochMint s) := by
  dsimp only [writes]
  refine runK_answers fun p b => ?_
  dsimp only
  repeat' first
    | with_reducible exact Framed.refl _ _ _
    | (with_reducible apply Framed.next (xput_only _ _) (xput_keeps _ _ _); · decide)
    | with_reducible apply Framed.forEach
    | split
    | (intro _; try dsimp only)
    | (with_reducible apply Framed.arb; · decide)

theorem actTokenArrival_answers {w} : Answers (writes (.tokenArrival w)) s (actTokenArrival w s) := by
  dsimp only [writes]
  refine runW_answers fun p b => ?_
  dsimp only
  repeat' first
    | with_reducible exact Framed.refl _ _ _
    | (with_reducible apply Framed.next (xrx_only _ _ _) (xrx_keeps _ _ _ _); · decide)
    | (with_reducible apply Framed.next (xdrop_only _ _) (xdrop_keeps _ _ _); · decide)
    | split
    | (with_reducible apply Framed.arb; · decide)

theorem actFlushDiscard_answers {w q} : Answers (writes (.flushDiscard w q)) s (actFlushDiscard w q s) := by
  dsimp only [writes]
  exact runW_answers fun p b => .next (mqFlushNow_only _ _ _) (mqFlushNow_keeps _ _ _ _) (by decide) (.refl _ _ _)

theorem actMqCfgWrite_answers {tgt k data} :
    Answers (writes (.mqCfgWrite tgt k data)) s (actMqCfgWrite tgt k data s) := by
  dsimp only [writes]
  unfold actMqCfgWrite
  split
  · exact wardReg_answers (by decide) fun p w b =>
    .next (mqCfgAt_only _ _ _ _) (mqCfgAt_keeps _ _ _ _) (by decide) (.refl _ _ _)
  · exact runReg_answers fun p b =>
    .next (wardHold_only _ _ _ _ _ _) (wardHold_keeps _ _ _ _ _ _) (by decide) (.refl _ _ _)

theorem actMqFlush_answers {tgt} : Answers (writes (.mqFlush tgt)) s (actMqFlush tgt s) := by
  dsimp only [writes]
  exact wardReg_answers (by decide) fun p w b =>
    .next (mqFlushAt_only _ _ _) (mqFlushAt_keeps _ _ _) (by decide) (.refl _ _ _)

theorem actMqPush_answers {tgt be} : Answers (writes (.mqPush tgt be)) s (actMqPush tgt be s) := by
  dsimp only [writes]
  refine wardReg_answers (by decide) fun p w b => ?_
  repeat' first
    | with_reducible exact Framed.refl _ _ _
    | (with_reducible apply Framed.next (mqPushAt_only _ _ _ _) (mqPushAt_keeps _ _ _ _); · decide)
    | (with_reducible apply Framed.next (wr_only _ _ _ _) (wr_keeps _ _ _ _); · decide)

theorem actMqPop_answers {tgt} : Answers (writes (.mqPop tgt)) s (actMqPop tgt s) := by
  dsimp only [writes]
  exact wardReg_answers (by decide) fun p w b =>
    .next (mqPopAt_only _ _ _) (mqPopAt_keeps _ _ _) (by decide) (.refl _ _ _)

theorem actSend_answers {port hdr flits} : Answers (writes (.send port hdr flits)) s (actSend port hdr flits s) := by
  dsimp only [writes]
  refine run_answers fun p b => ?_
  dsimp only
  repeat' first
    | with_reducible exact Framed.refl _ _ _
    | (with_reducible apply Framed.next (answerHere_only _ _ _ _ _ _ _ _) (answerHere_keeps _ _ _ _ _ _ _ _); · decide)
    | (with_reducible apply Framed.next (refuseSend_only _ _ _ _ _ _ _) (refuseSend_keeps _ _ _ _ _ _ _); · decide)
    | (with_reducible apply Framed.next (updChan_only _ _ _) (updChan_keeps _ _ _ _); · decide)
    | (with_reducible apply Framed.next (launch_only _ _ _ _ _) (launch_keeps _ _ _ _ _); · decide)
    | (with_reducible apply Framed.next (watchMsg_only _ _ _ _) (watchMsg_keeps _ _ _ _ _); · decide)
    | with_reducible apply Framed.when
    | split
    | (intro _; try dsimp only)

theorem actMessageArrival_answers {key seq it} :
    Answers (writes (.messageArrival key seq it)) s (actMessageArrival key seq it s) := by
  dsimp only [writes]
  refine runK_answers fun p b => ?_
  dsimp only
  repeat' first
    | with_reducible exact Framed.refl _ _ _
    | (with_reducible apply Framed.next (xdrop_only _ _) (xdrop_keeps _ _ _); · decide)
    | (with_reducible apply Framed.next (arriveMsg_only _ _ _ _ _) (arriveMsg_keeps _ _ _ _ _); · decide)
    | (with_reducible apply Framed.next (xrx_only _ _ _) (xrx_keeps _ _ _ _); · decide)
    | (with_reducible apply Framed.next (sendItem_only _ _ _) (sendItem_keeps _ _ _ _); · decide)
    | (with_reducible apply Framed.rxData; · decide)
    | with_reducible apply Framed.when
    | split
    | (intro _; try dsimp only)

theorem actNackReturn_answers {key seq it} :
    Answers (writes (.nackReturn key seq it)) s (actNackReturn key seq it s) := by
  dsimp only [writes]
  refine runK_answers fun p b => ?_
  dsimp only
  repeat' first
    | with_reducible exact Framed.refl _ _ _
    | (with_reducible apply Framed.next (nackAt_only _ _ _ _ _) (nackAt_keeps _ _ _ _ _); · decide)
    | (with_reducible apply Framed.next (backAt_only _ _ _ _) (backAt_keeps _ _ _ _); · decide)
    | (with_reducible apply Framed.next (xdrop_only _ _) (xdrop_keeps _ _ _); · decide)
    | (with_reducible apply Framed.next (updChan_only _ _ _) (updChan_keeps _ _ _ _); · decide)
    | (with_reducible apply Framed.rxItem; · decide)
    | with_reducible apply Framed.when
    | split
    | (intro _; try dsimp only)

theorem actOpdDelivery_answers {w} : Answers (writes (.opdDelivery w)) s (actOpdDelivery w s) := by
  dsimp only [writes]
  refine runW_answers fun p b => ?_
  dsimp only
  repeat' first
    | with_reducible exact Framed.refl _ _ _
    | (with_reducible apply Framed.next (opdSend_only _ _) (opdSend_keeps _ _ _); · decide)
    | split
    | (with_reducible apply Framed.set_opdLast; · decide)

theorem actLandingCreditReturn_answers {port n} :
    Answers (writes (.landingCreditReturn port n)) s (actLandingCreditReturn port n s) := by
  dsimp only [writes]
  refine run_answers fun p b => ?_
  repeat' first
    | with_reducible exact Framed.refl _ _ _
    | (with_reducible apply Framed.next (mqServe_only _ _ _) (mqServe_keeps _ _ _); · decide)
    | (with_reducible apply Framed.next (updPort_only _ _ _) (updPort_keeps _ _ _ _); · decide)

theorem actStatusBeatAccepted_answers {port} :
    Answers (writes (.statusBeatAccepted port)) s (actStatusBeatAccepted port s) := by
  dsimp only [writes]
  refine run_answers fun p b => ?_
  dsimp only
  repeat' first
    | with_reducible exact Framed.refl _ _ _
    | (with_reducible apply Framed.next (evRec_only _ _ _ _ _ _ _ _) (evRec_keeps _ _ _ _ _ _ _ _); · decide)
    | (with_reducible apply Framed.next (updPort_only _ _ _) (updPort_keeps _ _ _ _); · decide)
    | (with_reducible apply Framed.next (updMQ_only _ _ _ _) (updMQ_keeps _ _ _ _ _); · decide)
    | (with_reducible apply Framed.next (mqServe_only _ _ _) (mqServe_keeps _ _ _); · decide)
    | (with_reducible apply Framed.next (mqFlushNow_only _ _ _) (mqFlushNow_keeps _ _ _ _); · decide)
    | (with_reducible apply Framed.next (relayNext_only _ _ _ _ _ _ _) (relayNext_keeps _ _ _ _ _ _ _); · decide)
    | (with_reducible apply Framed.next (outcomeBack_only _ _ _ _ _ _ _) (outcomeBack_keeps _ _ _ _ _ _ _); · decide)
    | split

theorem actBadMsgRequest_answers {port hdr beats} :
    Answers (writes (.badMsgRequest port hdr beats)) s (actBadMsgRequest port hdr beats s) := by
  dsimp only [writes]
  refine run_answers fun p b => ?_
  repeat' first
    | with_reducible exact Framed.refl _ _ _
    | (with_reducible apply Framed.next (answerHere_only _ _ _ _ _ _ _ _) (answerHere_keeps _ _ _ _ _ _ _ _); · decide)
    | with_reducible apply Framed.when
    | (intro _; try dsimp only)

theorem actBindNotice_answers {key} : Answers (writes (.bindNotice key)) s (actBindNotice key s) := by
  dsimp only [writes]
  refine runK_answers fun p b => ?_
  dsimp only
  repeat' first
    | with_reducible exact Framed.refl _ _ _
    | (with_reducible apply Framed.next (xdrop_only _ _) (xdrop_keeps _ _ _); · decide)
    | (with_reducible apply Framed.next (bindHops_only _ _ _ _ _) (bindHops_keeps _ _ _ _ _); · decide)
    | (with_reducible apply Framed.next (updChan_only _ _ _) (updChan_keeps _ _ _ _); · decide)
    | split

theorem actOpenReq_answers {port hdr} : Answers (writes (.openReq port hdr)) s (actOpenReq port hdr s) := by
  dsimp only [writes]
  refine run_answers fun p b => ?_
  dsimp only
  repeat' first
    | with_reducible exact Framed.refl _ _ _
    | (with_reducible apply Framed.next (answerHere_only _ _ _ _ _ _ _ _) (answerHere_keeps _ _ _ _ _ _ _ _); · decide)
    | (with_reducible apply Framed.next (xsend_only _ _ _ _) (xsend_keeps _ _ _ _ _); · decide)
    | split

theorem actChannelAllocate_answers : Answers (writes (.channelAllocate)) s (actChannelAllocate s) := by
  dsimp only [writes]
  refine runK_answers fun p b => ?_
  dsimp only
  repeat' first
    | with_reducible exact Framed.refl _ _ _
    | (with_reducible apply Framed.next (xdrop_only _ _) (xdrop_keeps _ _ _); · decide)
    | (with_reducible apply Framed.next (answerOpen_only _ _ _ _ _ _) (answerOpen_keeps _ _ _ _ _ _); · decide)
    | (with_reducible apply Framed.next (setChan_only _ _ _) (setChan_keeps _ _ _ _); · decide)
    | (with_reducible apply Framed.next (sendItem_only _ _ _) (sendItem_keeps _ _ _ _); · decide)
    | (with_reducible apply Framed.next (bindRunning_only _ _ _ _) (bindRunning_keeps _ _ _ _); · decide)
    | (with_reducible apply Framed.next (ownerGone_only _ _ _) (ownerGone_keeps _ _ _); · decide)
    | split

theorem actChannelCloseApply_answers {key place} :
    Answers (writes (.channelCloseApply key place)) s (actChannelCloseApply key place s) := by
  dsimp only [writes]
  refine runK_answers fun p b => ?_
  dsimp only
  repeat' first
    | with_reducible exact Framed.refl _ _ _
    | (with_reducible apply Framed.next (xdrop_only _ _) (xdrop_keeps _ _ _); · decide)
    | (with_reducible apply Framed.next (xfrom_only _ _ _ _) (xfrom_keeps _ _ _ _ _); · decide)
    | (with_reducible apply Framed.next (updChan_only _ _ _) (updChan_keeps _ _ _ _); · decide)
    | (with_reducible apply Framed.next (xto_only _ _ _ _ _) (xto_keeps _ _ _ _ _ _); · decide)
    | (with_reducible apply Framed.next (closeFar_only _ _ _ _) (closeFar_keeps _ _ _ _); · decide)
    | (with_reducible apply Framed.next (closeEnd_only _ _) (closeEnd_keeps _ _ _); · decide)
    | (with_reducible apply Framed.next (chanDigest_only _ _ _ _) (chanDigest_keeps _ _ _ _); · decide)
    | (with_reducible apply Framed.next (closedBeat_only _ _) (closedBeat_keeps _ _ _); · decide)
    | split

theorem actCloseReq_answers {port hdr} : Answers (writes (.closeReq port hdr)) s (actCloseReq port hdr s) := by
  dsimp only [writes]
  refine run_answers fun p b => ?_
  have ans : ∀ st c, Framed p (writes (.closeReq port hdr)) b c →
      Framed p (writes (.closeReq port hdr)) b (answerHere p port hdr st 0 (fld hdr 32 14) 0 c) := fun _ _ h =>
    .next (answerHere_only _ _ _ _ _ _ _ _) (answerHere_keeps _ _ _ _ _ _ _ _) (by dsimp only [writes]; decide) h
  dsimp only [writes] at ans ⊢
  generalize otherInst p b (bitAt hdr 54) (fld hdr 48 6) = inst
  cases inst
  all_goals
    dsimp only
    repeat' first
      | with_reducible exact Framed.refl _ _ _
      | with_reducible apply ans
      | (with_reducible apply Framed.next (beginClose_only _ _ _) (beginClose_keeps _ _ _ _); · decide)
      | (with_reducible apply Framed.next (sendItem_only _ _ _) (sendItem_keeps _ _ _ _); · decide)
      | split

theorem actChannelIdFree_answers {ch} : Answers (writes (.channelIdFree ch)) s (actChannelIdFree ch s) := by
  dsimp only [writes]
  refine runK_answers fun p b => ?_
  dsimp only
  repeat' first
    | with_reducible exact Framed.refl _ _ _
    | (with_reducible apply Framed.next (setChan_only _ _ _) (setChan_keeps _ _ _ _); · decide)
    | split
    | (with_reducible apply Framed.rchans; · decide)

/-- The notice of a storm of channel `ch` (R180). -/
def isStorm (ch : Nat) : XItem → Bool
  | .storm n => decide (n.ch = ch)
  | _ => false

/-- The storm list makes room for a notice: at 64 the oldest is dropped and counted (R180). -/
def stormRoom (p : Params) (b : Block) : Block :=
  match b.storms with
  | o :: l => if 64 ≤ b.storms.length then bump (wc32 (portWard p o.sport) 8) 1 { b with storms := l } else b
  | [] => b

/-- A notice enters the storm list, and a cycle that it closes is marked and logged (R180). -/
def stormNoted (p : Params) (ch : Nat) (n : Storm) (b : Block) : Block :=
  match stormPath b.storms n.sport 17 n.rport with
  | some l =>
    let b := { b with storms := b.storms ++ [n] }
    let t := match chn b ch with | some c => c.tenant | none => 0
    let cyc := (b.storms.filter (fun x => x.ch ∈ ch :: l)).map (fun x => (x.ch, x.sport, x.rport))
    let b := logRec p { status := 0x15, tenant := t, handle := BitVec.ofNat 32 ch, objk := 2, cyc := cyc } b
    forEach (ch :: l) (fun k => updChan ⟨none, k⟩ (fun c => { c with marked := true })) (raiseK p 5 b)
  | none => bump (wc32 (portWard p n.sport) 7) 1 { b with storms := b.storms ++ [n] }

theorem actStormNotice_eq (ch : Nat) (s : State) :
    actStormNotice ch s = s.runK fun p b => match xfind b (isStorm ch) with
      | some (.storm n) => stormNoted p ch n (stormRoom p (xdrop (isStorm ch) b))
      | _ => b := rfl

theorem stormRoom_framed (p : Params) (b : Block) : Framed p [.cnt, .storms] b (stormRoom p b) := by
  unfold stormRoom
  split
  · next o l hl =>
    split
    · refine .next (bump_only _ _ _) (bump_keeps _ _ _ _) (by decide) (.storm (fun h => ?_) (by decide) (.refl _ _ _))
      rw [hl] at h
      exact (Nat.le_succ _).trans h
    · exact .refl _ _ _
  · exact .refl _ _ _

theorem stormRoom_length (p : Params) {b : Block} (hb : b.storms.length ≤ 64) : (stormRoom p b).storms.length < 64 := by
  unfold stormRoom
  split
  · next o l hl =>
    rw [hl, List.length_cons] at hb ⊢
    split
    · exact hb
    · next h => rw [hl, List.length_cons]; omega
  · next hl => simp [hl]

theorem stormNoted_only (p : Params) (ch : Nat) (n : Storm) (b : Block) :
    Only [.regs, .cnt, .chans, .rchans, .storms, .log, .trace, .out] b (stormNoted p ch n b) := by
  have noted := set_storms_only (b.storms ++ [n]) b
  unfold stormNoted
  split
  · refine .forEach (fun k x => .mono (updChan_only _ _ _) (by decide)) (.next (raiseK_only _ _ _) (by decide) ?_)
    exact .next (logRec_only _ _ _) (by decide) (noted.mono (by decide))
  · exact .next (bump_only _ _ _) (by decide) (noted.mono (by decide))

theorem stormNoted_keeps (p : Params) (ch : Nat) (n : Storm) {b : Block} (hb : b.storms.length < 64) :
    Keeps p b (stormNoted p ch n b) := by
  have noted : Keeps p b { b with storms := b.storms ++ [n] } :=
    .storm (fun _ => by rw [List.length_append]; exact hb) (.refl p b)
  unfold stormNoted
  split
  · exact .forEach (fun k x => updChan_keeps _ _ _ _) (.next (raiseK_keeps _ _ _) (.next (logRec_keeps _ _ _) noted))
  · exact .next (bump_keeps _ _ _ _) noted

theorem actStormNotice_answers {ch} : Answers (writes (.stormNotice ch)) s (actStormNotice ch s) := by
  dsimp only [writes]
  rw [actStormNotice_eq]
  refine runK_answers fun p b => ?_
  split
  · next n _ =>
    have hdrop := Framed.next (xdrop_only (isStorm ch) b) (xdrop_keeps p (isStorm ch) b) (by decide) (.refl p [.xbar] b)
    have hroom := stormRoom_framed p (xdrop (isStorm ch) b)
    refine ⟨?_, fun hs => ?_⟩
    · exact .next (stormNoted_only _ _ _ _) (by decide)
        (.next hroom.only (by decide) (hdrop.only.mono (by decide)))
    · have hd := hdrop.keeps hs
      exact stormNoted_keeps p ch n (stormRoom_length p hd.storms) (hroom.keeps hd)
  · exact .refl _ _ _

theorem actContrib_answers {port hdr flits} :
    Answers (writes (.contrib port hdr flits)) s (actContrib port hdr flits s) := by
  dsimp only [writes]
  refine run_answers fun p b => ?_
  dsimp only
  repeat' first
    | with_reducible exact Framed.refl _ _ _
    | (with_reducible apply Framed.next (answerHere_only _ _ _ _ _ _ _ _) (answerHere_keeps _ _ _ _ _ _ _ _); · decide)
    | (with_reducible apply Framed.next (refusePart_only _ _ _ _ _) (refusePart_keeps _ _ _ _ _); · decide)
    | (with_reducible apply Framed.next (updPort_only _ _ _) (updPort_keeps _ _ _ _); · decide)
    | (with_reducible apply Framed.next (xput_only _ _) (xput_keeps _ _ _); · decide)
    | (with_reducible apply Framed.next (xsend_only _ _ _ _) (xsend_keeps _ _ _ _ _); · decide)
    | (with_reducible apply Framed.next (hingePut_only _ _ _ _) (hingePut_keeps _ _ _ _ _); · decide)
    | (with_reducible apply Framed.next (xtx_only _ _ _) (xtx_keeps _ _ _ _); · decide)
    | split

theorem actPartArrival_answers {qid inst port it} :
    Answers (writes (.partArrival qid inst port it)) s (actPartArrival qid inst port it s) := by
  dsimp only [writes]
  refine runW_answers fun p b => ?_
  dsimp only
  repeat' first
    | with_reducible exact Framed.refl _ _ _
    | (with_reducible apply Framed.next (xdrop_only _ _) (xdrop_keeps _ _ _); · decide)
    | (with_reducible apply Framed.next (arrivePart_only _ _ _ _) (arrivePart_keeps _ _ _ _); · decide)
    | (with_reducible apply Framed.next (xrx_only _ _ _) (xrx_keeps _ _ _ _); · decide)
    | (with_reducible apply Framed.next (partBack_only _ _ _ _ _ _) (partBack_keeps _ _ _ _ _ _); · decide)
    | (with_reducible apply Framed.rxData; · decide)
    | with_reducible apply Framed.when
    | split
    | (intro _; try dsimp only)

theorem actTearNotice_answers {qid inst port} :
    Answers (writes (.tearNotice qid inst port)) s (actTearNotice qid inst port s) := by
  dsimp only [writes]
  refine runW_answers fun p b => ?_
  dsimp only
  repeat' first
    | with_reducible exact Framed.refl _ _ _
    | (with_reducible apply Framed.next (xdrop_only _ _) (xdrop_keeps _ _ _); · decide)
    | (with_reducible apply Framed.next (tearAt_only _ _ _ _ _ _) (tearAt_keeps _ _ _ _ _ _); · decide)
    | (with_reducible apply Framed.next (xrx_only _ _ _) (xrx_keeps _ _ _ _); · decide)
    | with_reducible apply Framed.when
    | split
    | (intro _; try dsimp only)

theorem actPartApply_answers {w} : Answers (writes (.partApply w)) s (actPartApply w s) := by
  dsimp only [writes]
  refine runW_answers fun p b => ?_
  dsimp only
  repeat' first
    | with_reducible exact Framed.refl _ _ _
    | (with_reducible apply Framed.next (updCQ_only _ _ _ _) (updCQ_keeps _ _ _ _ _); · decide)
    | (with_reducible apply Framed.next (partBack_only _ _ _ _ _ _) (partBack_keeps _ _ _ _ _ _); · decide)
    | split
    | (with_reducible apply Framed.set_cbParts; · decide)

theorem actDrainConvert_answers {w q} : Answers (writes (.drainConvert w q)) s (actDrainConvert w q s) := by
  dsimp only [writes]
  refine runW_answers fun p b => ?_
  dsimp only
  repeat' first
    | with_reducible exact Framed.refl _ _ _
    | (with_reducible apply Framed.next (drainSome_only _ _ _ _ _) (drainSome_keeps _ _ _ _ _); · decide)
    | split

theorem actDrainWriteResponse_answers {w q resp} :
    Answers (writes (.drainWriteResponse w q resp)) s (actDrainWriteResponse w q resp s) := by
  dsimp only [writes]
  refine runW_answers fun p b => ?_
  repeat' first
    | with_reducible exact Framed.refl _ _ _
    | (with_reducible apply Framed.next (drainFinish_only _ _ _ _) (drainFinish_keeps _ _ _ _); · decide)
    | (with_reducible apply Framed.next (updCQ_only _ _ _ _) (updCQ_keeps _ _ _ _ _); · decide)
    | split

theorem actQueueNumberFree_answers {w q} : Answers (writes (.queueNumberFree w q)) s (actQueueNumberFree w q s) := by
  dsimp only [writes]
  refine runW_answers fun p b => ?_
  repeat' first
    | with_reducible exact Framed.refl _ _ _
    | (with_reducible apply Framed.next (updCQ_only _ _ _ _) (updCQ_keeps _ _ _ _ _); · decide)
    | split

theorem actAnswerReturn_answers {port it} : Answers (writes (.answerReturn port it)) s (actAnswerReturn port it s) := by
  dsimp only [writes]
  refine runK_answers fun p b => ?_
  dsimp only
  repeat' first
    | with_reducible exact Framed.refl _ _ _
    | (with_reducible apply Framed.next (applyAnswer_only _ _ _) (applyAnswer_keeps _ _ _); · decide)
    | (with_reducible apply Framed.next (xrx_only _ _ _) (xrx_keeps _ _ _ _); · decide)
    | (with_reducible apply Framed.next (xdrop_only _ _) (xdrop_keeps _ _ _); · decide)
    | (with_reducible apply Framed.next (partDone_only _ _ _ _ _) (partDone_keeps _ _ _ _ _); · decide)
    | (with_reducible apply Framed.next (updPort_only _ _ _) (updPort_keeps _ _ _ _); · decide)
    | (with_reducible apply Framed.next (ackAt_only _ _ _) (ackAt_keeps _ _ _ _); · decide)
    | (with_reducible apply Framed.next (xfrom_only _ _ _ _) (xfrom_keeps _ _ _ _ _); · decide)
    | (with_reducible apply Framed.rxItem; · decide)
    | with_reducible apply Framed.when
    | split
    | (intro _; try dsimp only)

theorem actSignal_answers {hasp inc src} : Answers (writes (.signal hasp inc src)) s (actSignal hasp inc src s) := by
  dsimp only [writes]
  refine runK_answers fun p b => ?_
  dsimp only
  repeat' first
    | with_reducible exact Framed.refl _ _ _
    | (with_reducible apply Framed.next (sigApply_only _ _ _ _ _) (sigApply_keeps _ _ _ _ _); · decide)
    | (with_reducible apply Framed.next (sigOutcome_only _ _ _ _) (sigOutcome_keeps _ _ _ _); · decide)
    | (with_reducible apply Framed.next (xdrop_only _ _) (xdrop_keeps _ _ _); · decide)
    | (with_reducible apply Framed.rxItem; · decide)
    | split
    | (intro _; try dsimp only)

theorem actWaitRelease_answers : Answers (writes (.waitRelease)) s (actWaitRelease s) := by
  dsimp only [writes]
  refine runK_answers fun p b => ?_
  dsimp only
  repeat' first
    | with_reducible exact Framed.refl _ _ _
    | (with_reducible apply Framed.next (selectWaits_only _) (selectWaits_keeps _ _); · decide)
    | (with_reducible apply Framed.next (releaseOne_only _ _ _) (releaseOne_keeps _ _ _); · decide)
    | with_reducible apply Framed.forEach
    | (intro _; try dsimp only)

theorem actTaskFormRelease_answers {port} : Answers (writes (.taskFormRelease port)) s (actTaskFormRelease port s) := by
  dsimp only [writes]
  refine runW_answers fun p b => ?_
  dsimp only
  repeat' first
    | with_reducible exact Framed.refl _ _ _
    | (with_reducible apply Framed.next (xrx_only _ _ _) (xrx_keeps _ _ _ _); · decide)
    | (with_reducible apply Framed.next (xdrop_only _ _) (xdrop_keeps _ _ _); · decide)
    | (with_reducible apply Framed.next (evRec_only _ _ _ _ _ _ _ _) (evRec_keeps _ _ _ _ _ _ _ _); · decide)
    | (with_reducible apply Framed.next (updPort_only _ _ _) (updPort_keeps _ _ _ _); · decide)
    | (with_reducible apply Framed.next (voidW_only _ _) (voidW_keeps _ _ _); · decide)
    | split

theorem actWaitRegistration_answers {port} :
    Answers (writes (.waitRegistration port)) s (actWaitRegistration port s) := by
  dsimp only [writes]
  refine run_answers fun p b => ?_
  dsimp only
  repeat' first
    | with_reducible exact Framed.refl _ _ _
    | (with_reducible apply Framed.next (evRec_only _ _ _ _ _ _ _ _) (evRec_keeps _ _ _ _ _ _ _ _); · decide)
    | (with_reducible apply Framed.next (updPort_only _ _ _) (updPort_keeps _ _ _ _); · decide)
    | (with_reducible apply Framed.next (logRec_only _ _ _) (logRec_keeps _ _ _); · decide)
    | (with_reducible apply Framed.next (bump_only _ _ _) (bump_keeps _ _ _ _); · decide)
    | (with_reducible apply Framed.next (registerWait_only _ _ _ _) (registerWait_keeps _ _ _ _ _); · decide)
    | (with_reducible apply Framed.next (xtx_only _ _ _) (xtx_keeps _ _ _ _); · decide)
    | (with_reducible apply Framed.next (sendItem_only _ _ _) (sendItem_keeps _ _ _ _); · decide)
    | (with_reducible apply Framed.next (faultTo_only _ _ _ _ _) (faultTo_keeps _ _ _ _ _ _); · decide)
    | split

theorem actHopItem_answers {src tenant via hasp op value tag} :
    Answers (writes (.hopItem src tenant hasp op value tag)) s (actHopItem via hasp op value tag s) := by
  dsimp only [writes]
  refine runK_answers fun p b => ?_
  dsimp only
  repeat' first
    | with_reducible exact Framed.refl _ _ _
    | (with_reducible apply Framed.next (sendItem_only _ _ _) (sendItem_keeps _ _ _ _); · decide)
    | (with_reducible apply Framed.next (sigApply_only _ _ _ _ _) (sigApply_keeps _ _ _ _ _); · decide)
    | (with_reducible apply Framed.next (haspReset_only _ _ _) (haspReset_keeps _ _ _ _); · decide)
    | (with_reducible apply Framed.next (registerWait_only _ _ _ _) (registerWait_keeps _ _ _ _ _); · decide)
    | (with_reducible apply Framed.rxItem; · decide)
    | with_reducible apply Framed.when
    | split
    | (intro _; try dsimp only)
    | (with_reducible apply Framed.waits; · decide)

theorem actHrelItem_answers {it h tag} : Answers (writes (.hrelItem it)) s (actHrelItem h tag s) := by
  dsimp only [writes]
  refine runK_answers fun p b => ?_
  dsimp only
  repeat' first
    | with_reducible exact Framed.refl _ _ _
    | (with_reducible apply Framed.next (freeRing_only _ _ _) (freeRing_keeps _ _ _); · decide)
    | (with_reducible apply Framed.next (xsend_only _ _ _ _) (xsend_keeps _ _ _ _ _); · decide)
    | (with_reducible apply Framed.rxItem; · decide)
    | with_reducible apply Framed.when
    | split
    | (intro _; try dsimp only)

theorem actHaspAssign_answers {data} : Answers (writes (.haspAssign data)) s (actHaspAssign data s) := by
  dsimp only [writes]
  exact keeperReg_answers (by decide) fun p b =>
    .next (haspAssignAt_only _ _ _) (haspAssignAt_keeps _ _ _) (by decide) (.refl _ _ _)

theorem actHaspForce_answers : Answers (writes (.haspForce)) s (actHaspForce s) := by
  dsimp only [writes]
  exact keeperReg_answers (by decide) fun p b =>
    .next (haspForceAt_only _ _) (haspForceAt_keeps _ _) (by decide) (.refl _ _ _)

theorem actKeyreq_answers {port hdr} : Answers (writes (.keyreq port hdr)) s (actKeyreq port hdr s) := by
  dsimp only [writes]
  refine run_answers fun p b => ?_
  dsimp only
  repeat' first
    | with_reducible exact Framed.refl _ _ _
    | (with_reducible apply Framed.next (answerHere_only _ _ _ _ _ _ _ _) (answerHere_keeps _ _ _ _ _ _ _ _); · decide)
    | (with_reducible apply Framed.next (keySend_only _ _ _) (keySend_keeps _ _ _ _); · decide)
    | (with_reducible apply Framed.next (xput_only _ _) (xput_keeps _ _ _); · decide)
    | (with_reducible apply Framed.next (xsend_only _ _ _ _) (xsend_keeps _ _ _ _ _); · decide)
    | split

theorem actKeyRequestArrival_answers {dport reqport} :
    Answers (writes (.keyRequestArrival dport reqport)) s (actKeyRequestArrival dport reqport s) := by
  dsimp only [writes]
  refine runW_answers fun p b => ?_
  dsimp only
  repeat' first
    | with_reducible exact Framed.refl _ _ _
    | (with_reducible apply Framed.next (xdrop_only _ _) (xdrop_keeps _ _ _); · decide)
    | (with_reducible apply Framed.next (xrx_only _ _ _) (xrx_keeps _ _ _ _); · decide)
    | (with_reducible apply Framed.next (keyRefuse_only _ _ _ _ _ _) (keyRefuse_keeps _ _ _ _ _ _); · decide)
    | (with_reducible apply Framed.next (keyGrant_only _ _ _ _ _ _) (keyGrant_keeps _ _ _ _ _ _); · decide)
    | (with_reducible apply Framed.next (updKPool_only _ _ _ _) (updKPool_keeps _ _ _ _ _); · decide)
    | with_reducible apply Framed.when
    | split
    | (intro _; try dsimp only)

theorem actReturnUnused_answers {port hdr} :
    Answers (writes (.returnUnused port hdr)) s (actReturnUnused port hdr s) := by
  dsimp only [writes]
  refine run_answers fun p b => ?_
  dsimp only
  repeat' first
    | with_reducible exact Framed.refl _ _ _
    | (with_reducible apply Framed.next (answerHere_only _ _ _ _ _ _ _ _) (answerHere_keeps _ _ _ _ _ _ _ _); · decide)
    | (with_reducible apply Framed.next (xput_only _ _) (xput_keeps _ _ _); · decide)
    | (with_reducible apply Framed.next (xsend_only _ _ _ _) (xsend_keeps _ _ _ _ _); · decide)
    | split

theorem actReturnKret_answers {port data} : Answers (writes (.returnKret port data)) s (actReturnKret port data s) := by
  dsimp only [writes]
  exact run_answers fun p b =>
    .next (keyReturnAt_only _ _ _ _ _) (keyReturnAt_keeps _ _ _ _ _) (by decide) (.refl _ _ _)

theorem actKeyReturn_answers {dport pool gseq} :
    Answers (writes (.keyReturn dport pool gseq)) s (actKeyReturn dport pool gseq s) := by
  dsimp only [writes]
  refine runW_answers fun p b => ?_
  dsimp only
  repeat' first
    | with_reducible exact Framed.refl _ _ _
    | (with_reducible apply Framed.next (xrx_only _ _ _) (xrx_keeps _ _ _ _); · decide)
    | (with_reducible apply Framed.next (xdrop_only _ _) (xdrop_keeps _ _ _); · decide)
    | (with_reducible apply Framed.next (answerTo_only _ _ _ _ _) (answerTo_keeps _ _ _ _ _); · decide)
    | (with_reducible apply Framed.next (keyReturnAt_only _ _ _ _ _) (keyReturnAt_keeps _ _ _ _ _); · decide)
    | with_reducible apply Framed.when
    | split
    | (intro _; try dsimp only)

theorem actKeyTimeout_answers {dport pool idx} :
    Answers (writes (.keyTimeout dport pool idx)) s (actKeyTimeout dport pool idx s) := by
  dsimp only [writes]
  refine runW_answers fun p b => ?_
  dsimp only
  repeat' first
    | with_reducible exact Framed.refl _ _ _
    | (with_reducible apply Framed.next (voidW_only _ _) (voidW_keeps _ _ _); · decide)
    | (with_reducible apply Framed.next (updKPool_only _ _ _ _) (updKPool_keeps _ _ _ _ _); · decide)
    | (with_reducible apply Framed.next (keyEvent_only _ _ _ _ _) (keyEvent_keeps _ _ _ _ _); · decide)
    | (with_reducible apply Framed.next (keyRefuse_only _ _ _ _ _ _) (keyRefuse_keeps _ _ _ _ _ _); · decide)
    | (with_reducible apply Framed.next (trKey_only _ _ _ _ _ _ _) (trKey_keeps _ _ _ _ _ _ _); · decide)
    | (with_reducible apply Framed.next (bump_only _ _ _) (bump_keeps _ _ _ _); · decide)
    | (with_reducible apply Framed.next (logRec_only _ _ _) (logRec_keeps _ _ _); · decide)
    | (with_reducible apply Framed.next (keyExamine_only _ _ _ _ _) (keyExamine_keeps _ _ _ _ _); · decide)
    | split

theorem actKeyPoolCfgWrite_answers {tgt k data} :
    Answers (writes (.keyPoolCfgWrite tgt k data)) s (actKeyPoolCfgWrite tgt k data s) := by
  dsimp only [writes]
  exact wardReg_answers (by decide) fun p w b =>
    .next (keyCfgAt_only _ _ _ _ _) (keyCfgAt_keeps _ _ _ _ _) (by decide) (.refl _ _ _)

theorem actKeyPoolReset_answers {tgt} : Answers (writes (.keyPoolReset tgt)) s (actKeyPoolReset tgt s) := by
  dsimp only [writes]
  exact wardReg_answers (by decide) fun p w b =>
    .next (keyResetAt_only _ _ _) (keyResetAt_keeps _ _ _) (by decide) (.refl _ _ _)

theorem actPreloadStart_answers {port} : Answers (writes (.preloadStart port)) s (actPreloadStart port s) := by
  dsimp only [writes]
  refine run_answers fun p b => ?_
  dsimp only
  repeat' first
    | with_reducible exact Framed.refl _ _ _
    | (with_reducible apply Framed.next (updPort_only _ _ _) (updPort_keeps _ _ _ _); · decide)
    | (with_reducible apply Framed.next (mpR_only _ _ _ _ _ _) (mpR_keeps _ _ _ _ _ _); · decide)
    | with_reducible apply Framed.forEach
    | split
    | (intro _; try dsimp only)

theorem actArgumentReadResponse_answers {port resp beats} :
    Answers (writes (.argumentReadResponse port resp beats)) s (actArgumentReadResponse port resp beats s) := by
  dsimp only [writes]
  refine run_answers fun p b => ?_
  dsimp only
  repeat' first
    | with_reducible exact Framed.refl _ _ _
    | (with_reducible apply Framed.next (updPort_only _ _ _) (updPort_keeps _ _ _ _); · decide)
    | (with_reducible apply Framed.next (emit_only _ _) (emit_keeps _ _ _); · decide)
    | with_reducible apply Framed.forEach
    | split
    | (intro _; try dsimp only)

theorem actPreloadComplete_answers {port} : Answers (writes (.preloadComplete port)) s (actPreloadComplete port s) := by
  dsimp only [writes]
  refine run_answers fun p b => ?_
  repeat' first
    | with_reducible exact Framed.refl _ _ _
    | (with_reducible apply Framed.next (markPreloaded_only _ _ _ _ _) (markPreloaded_keeps _ _ _ _ _); · decide)
    | (with_reducible apply Framed.next (updPort_only _ _ _) (updPort_keeps _ _ _ _); · decide)
    | split

theorem actIssueCommit_answers {port issok} :
    Answers (writes (.issueCommit port issok)) s (actIssueCommit port issok s) := by
  dsimp only [writes]
  refine run_answers fun p b => ?_
  repeat' first
    | with_reducible exact Framed.refl _ _ _
    | (with_reducible apply Framed.next (commitIssue_only _ _ _ _) (commitIssue_keeps _ _ _ _); · decide)
    | split

theorem actIssDescriptorAccepted_answers {port} :
    Answers (writes (.issDescriptorAccepted port)) s (actIssDescriptorAccepted port s) := by
  dsimp only [writes]
  refine run_answers fun p b => ?_
  dsimp only
  repeat' first
    | with_reducible exact Framed.refl _ _ _
    | (with_reducible apply Framed.next (updPort_only _ _ _) (updPort_keeps _ _ _ _); · decide)
    | (with_reducible apply Framed.next (updEnt_only _ _ _) (updEnt_keeps _ _ _ _); · decide)
    | with_reducible apply Framed.when
    | split
    | (intro _; try dsimp only)

theorem actCanAck_answers {port hdl held} : Answers (writes (.canAck port hdl held)) s (actCanAck port hdl held s) := by
  dsimp only [writes]
  refine run_answers fun p b => ?_
  dsimp only
  repeat' first
    | with_reducible exact Framed.refl _ _ _
    | (with_reducible apply Framed.next (updPort_only _ _ _) (updPort_keeps _ _ _ _); · decide)
    | (with_reducible apply Framed.next (evRec_only _ _ _ _ _ _ _ _) (evRec_keeps _ _ _ _ _ _ _ _); · decide)
    | (with_reducible apply Framed.next (xsend_only _ _ _ _) (xsend_keeps _ _ _ _ _); · decide)
    | (with_reducible apply Framed.next (updEnt_only _ _ _) (updEnt_keeps _ _ _ _); · decide)
    | (with_reducible apply Framed.next (bump_only _ _ _) (bump_keeps _ _ _ _); · decide)
    | with_reducible apply Framed.when
    | split
    | (intro _; try dsimp only)

theorem actIssueCopyReread_answers {port handle} :
    Answers (writes (.issueCopyReread port handle)) s (actIssueCopyReread port handle s) := by
  dsimp only [writes]
  refine run_answers fun p b => ?_
  dsimp only
  repeat' first
    | with_reducible exact Framed.refl _ _ _
    | (with_reducible apply Framed.next (xrx_only _ _ _) (xrx_keeps _ _ _ _); · decide)
    | (with_reducible apply Framed.next (xdrop_only _ _) (xdrop_keeps _ _ _); · decide)
    | (with_reducible apply Framed.next (updPort_only _ _ _) (updPort_keeps _ _ _ _); · decide)
    | with_reducible apply Framed.when
    | split
    | (intro _; try dsimp only)

theorem actCmpRecord_answers {port rec1 stats eoc} :
    Answers (writes (.cmpRecord port rec1 stats eoc)) s (actCmpRecord port rec1 stats eoc s) := by
  dsimp only [writes]
  refine run_answers fun p b => ?_
  repeat' first
    | with_reducible exact Framed.refl _ _ _
    | (with_reducible apply Framed.next (endCycle_only _ _ _) (endCycle_keeps _ _ _); · decide)
    | (with_reducible apply Framed.next (finishTask_only _ _ _ _ _ _ _) (finishTask_keeps _ _ _ _ _ _ _); · decide)
    | (with_reducible apply Framed.next (bump_only _ _ _) (bump_keeps _ _ _ _); · decide)
    | split

theorem actHsig_answers {port hdr} : Answers (writes (.hsig port hdr)) s (actHsig port hdr s) := by
  dsimp only [writes]
  refine run_answers fun p b => ?_
  dsimp only
  repeat' first
    | with_reducible exact Framed.refl _ _ _
    | (with_reducible apply Framed.next (answerHere_only _ _ _ _ _ _ _ _) (answerHere_keeps _ _ _ _ _ _ _ _); · decide)
    | (with_reducible apply Framed.next (xsend_only _ _ _ _) (xsend_keeps _ _ _ _ _); · decide)
    | (with_reducible apply Framed.next (sendItem_only _ _ _) (sendItem_keeps _ _ _ _); · decide)
    | (with_reducible apply Framed.next (updPort_only _ _ _) (updPort_keeps _ _ _ _); · decide)
    | split

theorem actDoorbell_answers {port hdr} : Answers (writes (.doorbell port hdr)) s (actDoorbell port hdr s) := by
  dsimp only [writes]
  refine run_answers fun p b => ?_
  dsimp only
  repeat' first
    | with_reducible exact Framed.refl _ _ _
    | (with_reducible apply Framed.next (answerHere_only _ _ _ _ _ _ _ _) (answerHere_keeps _ _ _ _ _ _ _ _); · decide)
    | (with_reducible apply Framed.next (xsend_only _ _ _ _) (xsend_keeps _ _ _ _ _); · decide)
    | split

theorem actSlotwr_answers {port hdr} : Answers (writes (.slotwr port hdr)) s (actSlotwr port hdr s) := by
  dsimp only [writes]
  refine run_answers fun p b => ?_
  dsimp only
  repeat' first
    | with_reducible exact Framed.refl _ _ _
    | (with_reducible apply Framed.next (answerHere_only _ _ _ _ _ _ _ _) (answerHere_keeps _ _ _ _ _ _ _ _); · decide)
    | (with_reducible apply Framed.next (slotWrite_only _ _ _ _ _ _ _ _ _)
                          (slotWrite_keeps _ _ _ _ _ _ _ _ _); · decide)
    | (with_reducible apply Framed.next (xsend_only _ _ _ _) (xsend_keeps _ _ _ _ _); · decide)
    | split

theorem actCtlOnlineChange_answers {port on lbflits tdm} :
    Answers (writes (.ctlOnlineChange port on lbflits tdm)) s (actCtlOnlineChange port on lbflits tdm s) := by
  dsimp only [writes]
  refine run_answers fun p b => ?_
  dsimp only
  repeat' first
    | with_reducible exact Framed.refl _ _ _
    | (with_reducible apply Framed.next (updPort_only _ _ _) (updPort_keeps _ _ _ _); · decide)
    | (with_reducible apply Framed.next (evRec_only _ _ _ _ _ _ _ _) (evRec_keeps _ _ _ _ _ _ _ _); · decide)
    | (with_reducible apply Framed.next (mqServe_only _ _ _) (mqServe_keeps _ _ _); · decide)
    | (with_reducible apply Framed.next (keyDrain_only _ _) (keyDrain_keeps _ _ _); · decide)
    | with_reducible apply Framed.when
    | split
    | (intro _; try dsimp only)

theorem actCtlSnapshotReceived_answers {port beats} :
    Answers (writes (.ctlSnapshotReceived port beats)) s (actCtlSnapshotReceived port beats s) := by
  dsimp only [writes]
  refine run_answers fun p b => ?_
  dsimp only
  repeat' first
    | with_reducible exact Framed.refl _ _ _
    | (with_reducible apply Framed.next (evRec_only _ _ _ _ _ _ _ _) (evRec_keeps _ _ _ _ _ _ _ _); · decide)
    | (with_reducible apply Framed.next (snapEnd_only _ _) (snapEnd_keeps _ _ _); · decide)
    | (with_reducible apply Framed.next (emit_only _ _) (emit_keeps _ _ _); · decide)
    | split

theorem actSnapshotTimeout_answers {port} : Answers (writes (.snapshotTimeout port)) s (actSnapshotTimeout port s) := by
  dsimp only [writes]
  exact run_answers fun p b => .next (snapAbsent_only _ _ _ _) (snapAbsent_keeps _ _ _ _) (by decide) (.refl _ _ _)

theorem actDumpSnapshotTimeout_answers {port} :
    Answers (writes (.dumpSnapshotTimeout port)) s (actDumpSnapshotTimeout port s) := by
  dsimp only [writes]
  exact run_answers fun p b => .next (snapAbsent_only _ _ _ _) (snapAbsent_keeps _ _ _ _) (by decide) (.refl _ _ _)

theorem actPortReset_answers {port} : Answers (writes (.portReset port)) s (actPortReset port s) := by
  dsimp only [writes]
  refine run_answers fun p b => ?_
  dsimp only
  repeat' first
    | with_reducible exact Framed.refl _ _ _
    | (with_reducible apply Framed.next (updPort_only _ _ _) (updPort_keeps _ _ _ _); · decide)
    | (with_reducible apply Framed.next (finishTask_only _ _ _ _ _ _ _) (finishTask_keeps _ _ _ _ _ _ _); · decide)
    | (with_reducible apply Framed.next (tearAll_only _ _ _) (tearAll_keeps _ _ _); · decide)
    | (with_reducible apply Framed.next (dropPortWait_only _ _ _) (dropPortWait_keeps _ _ _); · decide)
    | (with_reducible apply Framed.next (resetQueued_only _ _ _ _) (resetQueued_keeps _ _ _ _); · decide)
    | (with_reducible apply Framed.next (resetCans_only _ _) (resetCans_keeps _ _ _); · decide)
    | (with_reducible apply Framed.next (resetStage_only _ _ _) (resetStage_keeps _ _ _); · decide)
    | (with_reducible apply Framed.next (xsend_only _ _ _ _) (xsend_keeps _ _ _ _ _); · decide)
    | (with_reducible apply Framed.next (logRec_only _ _ _) (logRec_keeps _ _ _); · decide)
    | (with_reducible apply Framed.next (keyPoolReset_only _ _ _ _ _) (keyPoolReset_keeps _ _ _ _ _); · decide)
    | (with_reducible apply Framed.next (resetChans_only _ _ _) (resetChans_keeps _ _ _); · decide)
    | (with_reducible apply Framed.next (evRec_only _ _ _ _ _ _ _ _) (evRec_keeps _ _ _ _ _ _ _ _); · decide)
    | with_reducible apply Framed.forEach
    | split
    | (intro _; try dsimp only)

theorem actPortResetRelease_answers {port} :
    Answers (writes (.portResetRelease port)) s (actPortResetRelease port s) := by
  dsimp only [writes]
  refine run_answers fun p b => ?_
  repeat' first
    | with_reducible exact Framed.refl _ _ _
    | (with_reducible apply Framed.next (evRec_only _ _ _ _ _ _ _ _) (evRec_keeps _ _ _ _ _ _ _ _); · decide)
    | (with_reducible apply Framed.next (updPort_only _ _ _) (updPort_keeps _ _ _ _); · decide)

theorem actCommandFaultNotice_answers {ring} :
    Answers (writes (.commandFaultNotice ring)) s (actCommandFaultNotice ring s) := by
  dsimp only [writes]
  refine run_answers fun p b => ?_
  dsimp only
  repeat' first
    | with_reducible exact Framed.refl _ _ _
    | (with_reducible apply Framed.next (xrx_only _ _ _) (xrx_keeps _ _ _ _); · decide)
    | (with_reducible apply Framed.next (xdrop_only _ _) (xdrop_keeps _ _ _); · decide)
    | (with_reducible apply Framed.next (endSub_only _ _ _ _ _) (endSub_keeps _ _ _ _ _); · decide)
    | (with_reducible apply Framed.next (logRec_only _ _ _) (logRec_keeps _ _ _); · decide)
    | with_reducible apply Framed.when
    | split
    | (intro _; try dsimp only)

theorem actRingTimeout_answers {ring} : Answers (writes (.ringTimeout ring)) s (actRingTimeout ring s) := by
  dsimp only [writes]
  refine run_answers fun p b => ?_
  repeat' first
    | with_reducible exact Framed.refl _ _ _
    | (with_reducible apply Framed.next (timeOut_only _ _ _ _) (timeOut_keeps _ _ _ _); · decide)
    | (with_reducible apply Framed.next (voidW_only _ _) (voidW_keeps _ _ _); · decide)
    | with_reducible apply Framed.when
    | split
    | (intro _; try dsimp only)

theorem actStepTimeout_answers {ring} : Answers (writes (.stepTimeout ring)) s (actStepTimeout ring s) := by
  dsimp only [writes]
  refine run_answers fun p b => ?_
  repeat' first
    | with_reducible exact Framed.refl _ _ _
    | (with_reducible apply Framed.next (timeOut_only _ _ _ _) (timeOut_keeps _ _ _ _); · decide)
    | (with_reducible apply Framed.next (voidW_only _ _) (voidW_keeps _ _ _); · decide)
    | with_reducible apply Framed.when
    | split
    | (intro _; try dsimp only)

theorem actStatusBlockWriteResponse_answers {ring subid resp} :
    Answers (writes (.statusBlockWriteResponse ring subid resp)) s
      (actStatusBlockWriteResponse ring subid resp s) := by
  dsimp only [writes]
  refine run_answers fun p b => ?_
  repeat' first
    | with_reducible exact Framed.refl _ _ _
    | (with_reducible apply Framed.next (doneAdvance_only _ _ _ _) (doneAdvance_keeps _ _ _ _); · decide)
    | (with_reducible apply Framed.next (updSub_only _ _ _ _) (updSub_keeps _ _ _ _ _); · decide)
    | (with_reducible apply Framed.next (writeFault_only _ _ _ _ _) (writeFault_keeps _ _ _ _ _); · decide)
    | split

theorem actNoteWriteResponse_answers {ring subid resp} :
    Answers (writes (.noteWriteResponse ring subid resp)) s (actNoteWriteResponse ring subid resp s) := by
  dsimp only [writes]
  exact run_answers fun p b => .next (writeFault_only _ _ _ _ _) (writeFault_keeps _ _ _ _ _) (by decide) (.refl _ _ _)

theorem actDigestWriteResponse_answers {ring subid resp} :
    Answers (writes (.digestWriteResponse ring subid resp)) s (actDigestWriteResponse ring subid resp s) := by
  dsimp only [writes]
  refine run_answers fun p b => ?_
  dsimp only
  repeat' first
    | with_reducible exact Framed.refl _ _ _
    | (with_reducible apply Framed.next (updSub_only _ _ _ _) (updSub_keeps _ _ _ _ _); · decide)
    | (with_reducible apply Framed.next (writeFault_only _ _ _ _ _) (writeFault_keeps _ _ _ _ _); · decide)
    | (with_reducible apply Framed.next (doneAdvance_only _ _ _ _) (doneAdvance_keeps _ _ _ _); · decide)
    | (with_reducible apply Framed.next (drainFinish_only _ _ _ _) (drainFinish_keeps _ _ _ _); · decide)
    | (with_reducible apply Framed.next (updCQ_only _ _ _ _) (updCQ_keeps _ _ _ _ _); · decide)
    | split

theorem actRecordAccept_answers {ring rec1} :
    Answers (writes (.recordAccept ring rec1)) s (actRecordAccept ring rec1 s) := by
  dsimp only [writes]
  refine run_answers fun p b => ?_
  dsimp only
  repeat' first
    | with_reducible exact Framed.refl _ _ _
    | (with_reducible apply Framed.next (takeRec_only _ _ _ _ _ _) (takeRec_keeps _ _ _ _ _ _); · decide)
    | (with_reducible apply Framed.next (badRec_only _ _ _ _ _) (badRec_keeps _ _ _ _ _); · decide)
    | split

theorem actWaitsubRelease_answers {ring} : Answers (writes (.waitsubRelease ring)) s (actWaitsubRelease ring s) := by
  dsimp only [writes]
  refine run_answers fun p b => ?_
  dsimp only
  repeat' first
    | with_reducible exact Framed.refl _ _ _
    | (with_reducible apply Framed.next (progress_only _ _) (progress_keeps _ _ _); · decide)
    | (with_reducible apply Framed.next (updWalk_only _ _ _) (updWalk_keeps _ _ _ _); · decide)
    | split

theorem actRingFetch_answers {w} : Answers (writes (.ringFetch w)) s (actRingFetch w s) := by
  dsimp only [writes]
  refine runW_answers fun p b => ?_
  repeat' first
    | with_reducible exact Framed.refl _ _ _
    | (with_reducible apply Framed.next (fetchOne_only _ _ _) (fetchOne_keeps _ _ _); · decide)
    | split

theorem actRingFetchResponse_answers {ring kind resp rec1} :
    Answers (writes (.ringFetchResponse ring kind resp rec1)) s (actRingFetchResponse ring kind resp rec1 s) := by
  dsimp only [writes]
  refine run_answers fun p b => ?_
  dsimp only
  repeat' first
    | with_reducible exact Framed.refl _ _ _
    | (with_reducible apply Framed.next (haltRing_only _ _ _ _ _ _) (haltRing_keeps _ _ _ _ _ _); · decide)
    | (with_reducible apply Framed.next (badRec_only _ _ _ _ _) (badRec_keeps _ _ _ _ _); · decide)
    | (with_reducible apply Framed.next (updRing_only _ _ _) (updRing_keeps _ _ _ _); · decide)
    | (with_reducible apply Framed.next (bump_only _ _ _) (bump_keeps _ _ _ _); · decide)
    | (with_reducible apply Framed.next (walkFault_only _ _ _ _ _ _) (walkFault_keeps _ _ _ _ _ _); · decide)
    | split

theorem actRingRepoll_answers {ring} : Answers (writes (.ringRepoll ring)) s (actRingRepoll ring s) := by
  dsimp only [writes]
  refine run_answers fun p b => ?_
  dsimp only
  repeat' first
    | with_reducible exact Framed.refl _ _ _
    | (with_reducible apply Framed.next (updRing_only _ _ _) (updRing_keeps _ _ _ _); · decide)
    | (with_reducible apply Framed.next (fetchOne_only _ _ _) (fetchOne_keeps _ _ _); · decide)
    | with_reducible apply Framed.when
    | split
    | (intro _; try dsimp only)

theorem actRingDescriptorWrite_answers {k data} :
    Answers (writes (.ringDescriptorWrite k data)) s (actRingDescriptorWrite k data s) := by
  dsimp only [writes]
  exact keeperReg_answers (by decide) fun p b =>
    .next (ringWrite_only _ _ _ _) (ringWrite_keeps _ _ _ _) (by decide) (.refl _ _ _)

theorem actRingEnable_answers : Answers (writes (.ringEnable)) s (actRingEnable s) := by
  dsimp only [writes]
  exact keeperReg_answers (by decide) fun p b =>
    .next (ringWrite_only _ _ _ _) (ringWrite_keeps _ _ _ _) (by decide) (.refl _ _ _)

theorem actRingDisable_answers : Answers (writes (.ringDisable)) s (actRingDisable s) := by
  dsimp only [writes]
  exact keeperReg_answers (by decide) fun p b =>
    .next (ringWrite_only _ _ _ _) (ringWrite_keeps _ _ _ _) (by decide) (.refl _ _ _)

theorem actTnDoorbell_answers {t tslot wptr} :
    Answers (writes (.tnDoorbell t tslot wptr)) s (actTnDoorbell t tslot wptr s) := by
  dsimp only [writes]
  refine runReg_answers fun p b => .regWrite (by decide) (fun x => ?_) (.refl _ _ _)
  exact .next (ringBell_only _ _ _ _ _) (ringBell_keeps _ _ _ _ _) (by decide)
    (.next (wr_only _ _ _ _) (wr_keeps _ _ _ _) (by decide) (.refl _ _ _))

theorem actRingCancelOldest_answers {t tslot} :
    Answers (writes (.ringCancelOldest t tslot)) s (actRingCancelOldest t tslot s) := by
  dsimp only [writes]
  exact runReg_answers fun p b => .regWrite (by decide)
    (fun x => .next (ringCtrl_only _ _ _ _ _ _) (ringCtrl_keeps _ _ _ _ _ _) (by decide) (.refl _ _ _)) (.refl _ _ _)

theorem actRingCancelAll_answers {t tslot} :
    Answers (writes (.ringCancelAll t tslot)) s (actRingCancelAll t tslot s) := by
  dsimp only [writes]
  exact runReg_answers fun p b => .regWrite (by decide)
    (fun x => .next (ringCtrl_only _ _ _ _ _ _) (ringCtrl_keeps _ _ _ _ _ _) (by decide) (.refl _ _ _)) (.refl _ _ _)

theorem actRingResume_answers {t tslot} : Answers (writes (.ringResume t tslot)) s (actRingResume t tslot s) := by
  dsimp only [writes]
  exact runReg_answers fun p b => .regWrite (by decide)
    (fun x => .next (ringCtrl_only _ _ _ _ _ _) (ringCtrl_keeps _ _ _ _ _ _) (by decide) (.refl _ _ _)) (.refl _ _ _)

theorem actGraphPass1_answers {ring} : Answers (writes (.graphPass1 ring)) s (actGraphPass1 ring s) := by
  dsimp only [writes]
  refine runK_answers fun p b => ?_
  dsimp only
  repeat' first
    | with_reducible exact Framed.refl _ _ _
    | (with_reducible apply Framed.next (pass1_only _ _ _) (pass1_keeps _ _ _); · decide)
    | (with_reducible apply Framed.next (progress_only _ _) (progress_keeps _ _ _); · decide)
    | split

theorem actFanListReadResponse_answers {ring addr resp idx} :
    Answers (writes (.fanListReadResponse ring addr resp idx)) s (actFanListReadResponse ring addr resp idx s) := by
  dsimp only [writes]
  refine run_answers fun p b => ?_
  dsimp only
  repeat' first
    | with_reducible exact Framed.refl _ _ _
    | (with_reducible apply Framed.next (updWalk_only _ _ _) (updWalk_keeps _ _ _ _); · decide)
    | (with_reducible apply Framed.next (haltRing_only _ _ _ _ _ _) (haltRing_keeps _ _ _ _ _ _); · decide)
    | (with_reducible apply Framed.next (passFault_only _ _ _ _) (passFault_keeps _ _ _ _); · decide)
    | split

theorem actOperandReadResponse_answers {ring addr resp value} :
    Answers (writes (.operandReadResponse ring addr resp value)) s
      (actOperandReadResponse ring addr resp value s) := by
  dsimp only [writes]
  refine run_answers fun p b => ?_
  dsimp only
  repeat' first
    | with_reducible exact Framed.refl _ _ _
    | (with_reducible apply Framed.next (updWalk_only _ _ _) (updWalk_keeps _ _ _ _); · decide)
    | (with_reducible apply Framed.next (haltRing_only _ _ _ _ _ _) (haltRing_keeps _ _ _ _ _ _); · decide)
    | (with_reducible apply Framed.next (passFault_only _ _ _ _) (passFault_keeps _ _ _ _); · decide)
    | split

theorem actAheadRelease_answers {ring} : Answers (writes (.aheadRelease ring)) s (actAheadRelease ring s) := by
  dsimp only [writes]
  refine runK_answers fun p b => ?_
  dsimp only
  repeat' first
    | with_reducible exact Framed.refl _ _ _
    | (with_reducible apply Framed.next (progress_only _ _) (progress_keeps _ _ _); · decide)
    | (with_reducible apply Framed.next (updWalk_only _ _ _) (updWalk_keeps _ _ _ _); · decide)
    | split

theorem actGraphPass2_answers {ring} : Answers (writes (.graphPass2 ring)) s (actGraphPass2 ring s) := by
  dsimp only [writes]
  refine runK_answers fun p b => ?_
  repeat' first
    | with_reducible exact Framed.refl _ _ _
    | (with_reducible apply Framed.next (admitSeg_only _ _ _ _ _) (admitSeg_keeps _ _ _ _ _); · decide)
    | split

theorem actEntryQueueAdmit_answers {ring} : Answers (writes (.entryQueueAdmit ring)) s (actEntryQueueAdmit ring s) := by
  dsimp only [writes]
  refine runK_answers fun p b => ?_
  repeat' first
    | with_reducible exact Framed.refl _ _ _
    | (with_reducible apply Framed.next (admitSeg_only _ _ _ _ _) (admitSeg_keeps _ _ _ _ _); · decide)
    | split

theorem actRemoteRetryExpiry_answers {ring} :
    Answers (writes (.remoteRetryExpiry ring)) s (actRemoteRetryExpiry ring s) := by
  dsimp only [writes]
  refine runK_answers fun p b => ?_
  repeat' first
    | with_reducible exact Framed.refl _ _ _
    | (with_reducible apply Framed.next (updWalk_only _ _ _) (updWalk_keeps _ _ _ _); · decide)
    | split
    | (with_reducible apply Framed.entq; · decide)

theorem actHndAnswer_answers {ring via ans} :
    Answers (writes (.hndAnswer ring via ans)) s (actHndAnswer ring via ans s) := by
  dsimp only [writes]
  refine runK_answers fun p b => ?_
  dsimp only
  repeat' first
    | with_reducible exact Framed.refl _ _ _
    | (with_reducible apply Framed.next (updSeg_only _ _ _) (updSeg_keeps _ _ _ _); · decide)
    | (with_reducible apply Framed.next (allocSeg_only _ _ _ _) (allocSeg_keeps _ _ _ _); · decide)
    | (with_reducible apply Framed.next (walkFault_only _ _ _ _ _ _) (walkFault_keeps _ _ _ _ _ _); · decide)
    | (with_reducible apply Framed.next (abandonFar_only _ _ _ _) (abandonFar_keeps _ _ _ _); · decide)
    | (with_reducible apply Framed.next (updWalk_only _ _ _) (updWalk_keeps _ _ _ _); · decide)
    | (with_reducible apply Framed.rxItems; · decide)
    | split
    | (intro _; try dsimp only)

theorem actGraphPass3_answers {ring} : Answers (writes (.graphPass3 ring)) s (actGraphPass3 ring s) := by
  dsimp only [writes]
  refine runK_answers fun p b => ?_
  repeat' first
    | with_reducible exact Framed.refl _ _ _
    | (with_reducible apply Framed.next (pass3_only _ _ _ _) (pass3_keeps _ _ _ _); · decide)
    | (with_reducible apply Framed.next (progress_only _ _) (progress_keeps _ _ _); · decide)
    | split

theorem actPreemptRequest_answers {ring queue} :
    Answers (writes (.preemptRequest ring queue)) s (actPreemptRequest ring queue s) := by
  dsimp only [writes]
  exact keeperReg_answers (by decide) fun p b =>
    .next (preCtrl_only _ _ _) (preCtrl_keeps _ _ _) (by decide) (.refl _ _ _)

theorem actPreemptResume_answers {ring} : Answers (writes (.preemptResume ring)) s (actPreemptResume ring s) := by
  dsimp only [writes]
  exact keeperReg_answers (by decide) fun p b =>
    .next (preCtrl_only _ _ _) (preCtrl_keeps _ _ _) (by decide) (.refl _ _ _)

theorem actDiscardNotice_answers {w ring} : Answers (writes (.discardNotice w ring)) s (actDiscardNotice w ring s) := by
  dsimp only [writes]
  refine runW_answers fun p b => ?_
  dsimp only
  repeat' first
    | with_reducible exact Framed.refl _ _ _
    | (with_reducible apply Framed.next (updFed_only _ _ _) (updFed_keeps _ _ _ _); · decide)
    | (with_reducible apply Framed.next (xrx_only _ _ _) (xrx_keeps _ _ _ _); · decide)
    | (with_reducible apply Framed.next (xdrop_only _ _) (xdrop_keeps _ _ _); · decide)
    | (with_reducible apply Framed.next (discardOne_only _ _ _) (discardOne_keeps _ _ _); · decide)
    | (with_reducible apply Framed.next (uncount_only _ _) (uncount_keeps _ _ _); · decide)
    | with_reducible apply Framed.forEach
    | split
    | (intro _; try dsimp only)

theorem actAutoPreemptTrigger_answers : Answers (writes (.autoPreemptTrigger)) s (actAutoPreemptTrigger s) := by
  dsimp only [writes]
  refine runK_answers fun p b => ?_
  repeat' first
    | with_reducible exact Framed.refl _ _ _
    | (with_reducible apply Framed.next (lcFire_only _ _ _) (lcFire_keeps _ _ _); · decide)
    | with_reducible apply Framed.forEach
    | split
    | (intro _; try dsimp only)

theorem actAutoResume_answers : Answers (writes (.autoResume)) s (actAutoResume s) := by
  dsimp only [writes]
  refine runK_answers fun p b => ?_
  repeat' first
    | with_reducible exact Framed.refl _ _ _
    | (with_reducible apply Framed.next (preResumeAt_only _ _ _) (preResumeAt_keeps _ _ _); · decide)
    | split
    | (with_reducible apply Framed.lcIdleAt; · decide)

theorem actSegmentHeader_answers {ring hdr body} :
    Answers (writes (.segmentHeader ring hdr body)) s (actSegmentHeader ring hdr body s) := by
  dsimp only [writes]
  refine runK_answers fun p b => ?_
  dsimp only
  repeat' first
    | with_reducible exact Framed.refl _ _ _
    | (with_reducible apply Framed.next (progress_only _ _) (progress_keeps _ _ _); · decide)
    | (with_reducible apply Framed.next (badSeek_only _ _ _ _) (badSeek_keeps _ _ _ _); · decide)
    | (with_reducible apply Framed.next (updWalk_only _ _ _) (updWalk_keeps _ _ _ _); · decide)
    | (with_reducible apply Framed.next (seekSeg_only _ _ _ _ _ _) (seekSeg_keeps _ _ _ _ _ _); · decide)
    | (with_reducible apply Framed.next (walkFault_only _ _ _ _ _ _) (walkFault_keeps _ _ _ _ _ _); · decide)
    | (with_reducible apply Framed.next (enterSeg_only _ _ _ _ _) (enterSeg_keeps _ _ _ _ _); · decide)
    | split

theorem actCond_answers {ring rec1} : Answers (writes (.cond ring rec1)) s (actCond ring rec1 s) := by
  dsimp only [writes]
  refine runRec_answers (by decide) fun p x b => ?_
  dsimp only
  repeat' first
    | with_reducible exact Framed.refl _ _ _
    | (with_reducible apply Framed.next (pass_only _ _ _) (pass_keeps _ _ _); · decide)
    | (with_reducible apply Framed.next (updWalk_only _ _ _) (updWalk_keeps _ _ _ _); · decide)
    | (with_reducible apply Framed.next (jump_only _ _ _ _ _ _) (jump_keeps _ _ _ _ _ _); · decide)
    | (with_reducible apply Framed.useOpd; · decide)
    | split
    | (intro _; try dsimp only)

theorem actLoop_answers {ring rec1} : Answers (writes (.loop ring rec1)) s (actLoop ring rec1 s) := by
  dsimp only [writes]
  refine runRec_answers (by decide) fun p x b => ?_
  dsimp only
  repeat' first
    | with_reducible exact Framed.refl _ _ _
    | (with_reducible apply Framed.next (recFault_only _ _ _ _ _) (recFault_keeps _ _ _ _ _); · decide)
    | (with_reducible apply Framed.next (jump_only _ _ _ _ _ _) (jump_keeps _ _ _ _ _ _); · decide)
    | (with_reducible apply Framed.next (pass_only _ _ _) (pass_keeps _ _ _); · decide)
    | (with_reducible apply Framed.next (updWalk_only _ _ _) (updWalk_keeps _ _ _ _); · decide)
    | (with_reducible apply Framed.useOpd; · decide)
    | split
    | (intro _; try dsimp only)

theorem actEndloop_answers {ring rec1} : Answers (writes (.endloop ring rec1)) s (actEndloop ring rec1 s) := by
  dsimp only [writes]
  refine runRec_answers (by decide) fun p x b => ?_
  dsimp only
  repeat' first
    | with_reducible exact Framed.refl _ _ _
    | (with_reducible apply Framed.next (recFault_only _ _ _ _ _) (recFault_keeps _ _ _ _ _); · decide)
    | (with_reducible apply Framed.next (walkOn_only _ _ _) (walkOn_keeps _ _ _); · decide)
    | (with_reducible apply Framed.next (updWalk_only _ _ _) (updWalk_keeps _ _ _ _); · decide)
    | (with_reducible apply Framed.next (spent_only _ _) (spent_keeps _ _ _); · decide)
    | (with_reducible apply Framed.next (pass_only _ _ _) (pass_keeps _ _ _); · decide)
    | split

theorem actStepEnd_answers {ring rec1} : Answers (writes (.stepEnd ring rec1)) s (actStepEnd ring rec1 s) := by
  dsimp only [writes]
  refine runRec_answers (by decide) fun p x b => ?_
  dsimp only
  repeat' first
    | with_reducible exact Framed.refl _ _ _
    | (with_reducible apply Framed.next (ensureStep_only _ _) (ensureStep_keeps _ _ _); · decide)
    | (with_reducible apply Framed.next (updRing_only _ _ _) (updRing_keeps _ _ _ _); · decide)
    | (with_reducible apply Framed.next (markCommit_only _ _) (markCommit_keeps _ _ _); · decide)
    | (with_reducible apply Framed.next (stepAdvance_only _ _ _ _) (stepAdvance_keeps _ _ _ _); · decide)
    | (with_reducible apply Framed.next (reachPoint_only _ _ _ _ _) (reachPoint_keeps _ _ _ _ _); · decide)

theorem actYield_answers {ring rec1} : Answers (writes (.yield ring rec1)) s (actYield ring rec1 s) := by
  dsimp only [writes]
  exact runRec_answers (by decide) fun p x b =>
    .next (reachPoint_only _ _ _ _ _) (reachPoint_keeps _ _ _ _ _) (by decide) (.refl _ _ _)

theorem actFence_answers {ring rec1} : Answers (writes (.fence ring rec1)) s (actFence ring rec1 s) := by
  dsimp only [writes]
  refine runRec_answers (by decide) fun p x b => ?_
  repeat' first
    | with_reducible exact Framed.refl _ _ _
    | (with_reducible apply Framed.next (fencePass_only _ _ _ _ _) (fencePass_keeps _ _ _ _ _); · decide)
    | (with_reducible apply Framed.next (updWalk_only _ _ _) (updWalk_keeps _ _ _ _); · decide)
    | (with_reducible apply Framed.next (spent_only _ _) (spent_keeps _ _ _); · decide)
    | split

theorem actFenceRelease_answers {ring} : Answers (writes (.fenceRelease ring)) s (actFenceRelease ring s) := by
  dsimp only [writes]
  refine runK_answers fun p b => ?_
  repeat' first
    | with_reducible exact Framed.refl _ _ _
    | (with_reducible apply Framed.next (fencePass_only _ _ _ _ _) (fencePass_keeps _ _ _ _ _); · decide)
    | (with_reducible apply Framed.next (progress_only _ _) (progress_keeps _ _ _); · decide)
    | split

theorem actIndirect_answers {ring rec1} : Answers (writes (.indirect ring rec1)) s (actIndirect ring rec1 s) := by
  dsimp only [writes]
  refine runK_answers fun p b => ?_
  dsimp only
  repeat' first
    | with_reducible exact Framed.refl _ _ _
    | (with_reducible apply Framed.next (recFault_only _ _ _ _ _) (recFault_keeps _ _ _ _ _); · decide)
    | (with_reducible apply Framed.next (passRec_only _ _ _) (passRec_keeps _ _ _); · decide)
    | (with_reducible apply Framed.next (updWalk_only _ _ _) (updWalk_keeps _ _ _ _); · decide)
    | (with_reducible apply Framed.next (progress_only _ _) (progress_keeps _ _ _); · decide)
    | (with_reducible apply Framed.useOpd; · decide)
    | split
    | (intro _; try dsimp only)

theorem actSetSlot_answers {ring rec1} : Answers (writes (.setSlot ring rec1)) s (actSetSlot ring rec1 s) := by
  dsimp only [writes]
  refine runRec_answers (by decide) fun p x b => ?_
  dsimp only
  repeat' first
    | with_reducible exact Framed.refl _ _ _
    | (with_reducible apply Framed.next (pass_only _ _ _) (pass_keeps _ _ _); · decide)
    | (with_reducible apply Framed.next (dirty_only _ _) (dirty_keeps _ _ _); · decide)
    | (with_reducible apply Framed.next (applySet_only _ _ _) (applySet_keeps _ _ _ _); · decide)
    | (with_reducible apply Framed.next (recFault_only _ _ _ _ _) (recFault_keeps _ _ _ _ _); · decide)
    | (with_reducible apply Framed.useOpd; · decide)
    | split
    | (intro _; try dsimp only)

theorem actNote_answers {ring rec1} : Answers (writes (.note ring rec1)) s (actNote ring rec1 s) := by
  dsimp only [writes]
  refine runRec_answers (by decide) fun p x b => ?_
  dsimp only
  repeat' first
    | with_reducible exact Framed.refl _ _ _
    | (with_reducible apply Framed.next (pass_only _ _ _) (pass_keeps _ _ _); · decide)
    | (with_reducible apply Framed.next (dirty_only _ _) (dirty_keeps _ _ _); · decide)
    | (with_reducible apply Framed.next (postW_only _ _ _ _ _ _ _ _) (postW_keeps _ _ _ _ _ _ _ _); · decide)

theorem actMark_answers {ring rec1} : Answers (writes (.mark ring rec1)) s (actMark ring rec1 s) := by
  dsimp only [writes]
  refine runRec_answers (by decide) fun p x b => ?_
  repeat' first
    | with_reducible exact Framed.refl _ _ _
    | (with_reducible apply Framed.next (pass_only _ _ _) (pass_keeps _ _ _); · decide)
    | (with_reducible apply Framed.next (applyMark_only _ _ _ _) (applyMark_keeps _ _ _ _); · decide)

theorem actNop_answers {ring rec1} : Answers (writes (.nop ring rec1)) s (actNop ring rec1 s) := by
  dsimp only [writes]
  exact runRec_answers (by decide) fun p x b => .next (pass_only _ _ _) (pass_keeps _ _ _) (by decide) (.refl _ _ _)

theorem actHaspSignal_answers {ring rec1} : Answers (writes (.haspSignal ring rec1)) s (actHaspSignal ring rec1 s) := by
  dsimp only [writes]
  refine runRec_answers (by decide) fun p x b => ?_
  dsimp only
  repeat' first
    | with_reducible exact Framed.refl _ _ _
    | (with_reducible apply Framed.next (haspSignal_only _ _ _ _ _ _ _) (haspSignal_keeps _ _ _ _ _ _ _); · decide)
    | (with_reducible apply Framed.next (recFault_only _ _ _ _ _) (recFault_keeps _ _ _ _ _); · decide)
    | (with_reducible apply Framed.next (pass_only _ _ _) (pass_keeps _ _ _); · decide)
    | (with_reducible apply Framed.next (dirty_only _ _) (dirty_keeps _ _ _); · decide)
    | (with_reducible apply Framed.useOpd; · decide)
    | (with_reducible apply Framed.walkHasp; · decide)
    | split
    | (intro _; try dsimp only)

theorem actHaspReset_answers {ring rec1} : Answers (writes (.haspReset ring rec1)) s (actHaspReset ring rec1 s) := by
  dsimp only [writes]
  refine runRec_answers (by decide) fun p x b => ?_
  dsimp only
  repeat' first
    | with_reducible exact Framed.refl _ _ _
    | (with_reducible apply Framed.next (recFault_only _ _ _ _ _) (recFault_keeps _ _ _ _ _); · decide)
    | (with_reducible apply Framed.next (pass_only _ _ _) (pass_keeps _ _ _); · decide)
    | (with_reducible apply Framed.next (dirty_only _ _) (dirty_keeps _ _ _); · decide)
    | (with_reducible apply Framed.next (haspReset_only _ _ _) (haspReset_keeps _ _ _ _); · decide)
    | (with_reducible apply Framed.walkHasp; · decide)
    | split
    | (intro _; try dsimp only)

theorem actHaspWait_answers {ring rec1} : Answers (writes (.haspWait ring rec1)) s (actHaspWait ring rec1 s) := by
  dsimp only [writes]
  refine runRec_answers (by decide) fun p x b => ?_
  dsimp only
  repeat' first
    | with_reducible exact Framed.refl _ _ _
    | (with_reducible apply Framed.next (recFault_only _ _ _ _ _) (recFault_keeps _ _ _ _ _); · decide)
    | (with_reducible apply Framed.next (registerWait_only _ _ _ _) (registerWait_keeps _ _ _ _ _); · decide)
    | (with_reducible apply Framed.next (updWalk_only _ _ _) (updWalk_keeps _ _ _ _); · decide)
    | (with_reducible apply Framed.next (spent_only _ _) (spent_keeps _ _ _); · decide)
    | (with_reducible apply Framed.useOpd; · decide)
    | (with_reducible apply Framed.walkHasp; · decide)
    | split
    | (intro _; try dsimp only)

theorem actOpenCh_answers {ring rec1} : Answers (writes (.openCh ring rec1)) s (actOpenCh ring rec1 s) := by
  dsimp only [writes]
  refine runRec_answers (by decide) fun p x b => ?_
  dsimp only
  repeat' first
    | with_reducible exact Framed.refl _ _ _
    | (with_reducible apply Framed.next (recFault_only _ _ _ _ _) (recFault_keeps _ _ _ _ _); · decide)
    | (with_reducible apply Framed.next (pass_only _ _ _) (pass_keeps _ _ _); · decide)
    | (with_reducible apply Framed.next (dirty_only _ _) (dirty_keeps _ _ _); · decide)
    | (with_reducible apply Framed.next (applyOpen_only _ _ _ _ _ _) (applyOpen_keeps _ _ _ _ _ _); · decide)
    | split

theorem actCloseCh_answers {ring rec1} : Answers (writes (.closeCh ring rec1)) s (actCloseCh ring rec1 s) := by
  dsimp only [writes]
  refine runRec_answers (by decide) fun p x b => ?_
  repeat' first
    | with_reducible exact Framed.refl _ _ _
    | (with_reducible apply Framed.next (pass_only _ _ _) (pass_keeps _ _ _); · decide)
    | (with_reducible apply Framed.next (dirty_only _ _) (dirty_keeps _ _ _); · decide)
    | (with_reducible apply Framed.next (recFault_only _ _ _ _ _) (recFault_keeps _ _ _ _ _); · decide)
    | (with_reducible apply Framed.next (beginClose_only _ _ _) (beginClose_keeps _ _ _ _); · decide)
    | (with_reducible apply Framed.useOpd; · decide)
    | split
    | (intro _; try dsimp only)

theorem actHelloReceived_answers {h hinst} :
    Answers (writes (.helloReceived h hinst)) s (actHelloReceived h hinst s) := by
  dsimp only [writes]
  refine runH_answers fun p b => ?_
  repeat' first
    | with_reducible exact Framed.refl _ _ _
    | (with_reducible apply Framed.next (tryActive_only _ _ _) (tryActive_keeps _ _ _); · decide)
    | (with_reducible apply Framed.next (sendHello_only _ _ _) (sendHello_keeps _ _ _); · decide)
    | (with_reducible apply Framed.next (updHinge_only _ _ _) (updHinge_keeps _ _ _ _); · decide)
    | (with_reducible apply Framed.next (raiseH_only _ _ _ _) (raiseH_keeps _ _ _ _); · decide)
    | (with_reducible apply Framed.next (pgErr_only _ _ _ _) (pgErr_keeps _ _ _ _); · decide)
    | with_reducible apply Framed.when
    | split
    | (intro _; try dsimp only)

theorem actRetrainNotification_answers {h} :
    Answers (writes (.retrainNotification h)) s (actRetrainNotification h s) := by
  dsimp only [writes]
  refine runH_answers fun p b => ?_
  repeat' first
    | with_reducible exact Framed.refl _ _ _
    | (with_reducible apply Framed.next (bump_only _ _ _) (bump_keeps _ _ _ _); · decide)
    | (with_reducible apply Framed.next (updHinge_only _ _ _) (updHinge_keeps _ _ _ _); · decide)
    | split

theorem actLinkActiveAgain_answers {h} : Answers (writes (.linkActiveAgain h)) s (actLinkActiveAgain h s) := by
  dsimp only [writes]
  refine runH_answers fun p b => ?_
  dsimp only
  repeat' first
    | with_reducible exact Framed.refl _ _ _
    | (with_reducible apply Framed.next (updHinge_only _ _ _) (updHinge_keeps _ _ _ _); · decide)
    | (with_reducible apply Framed.next (hingeFlush_only _ _ _) (hingeFlush_keeps _ _ _ _); · decide)
    | split

theorem actHoldMaxExpiry_answers {h} : Answers (writes (.holdMaxExpiry h)) s (actHoldMaxExpiry h s) := by
  dsimp only [writes]
  refine runH_answers fun p b => ?_
  repeat' first
    | with_reducible exact Framed.refl _ _ _
    | (with_reducible apply Framed.next (goDown_only _ _ _) (goDown_keeps _ _ _); · decide)
    | split

theorem actLinkError_answers {h} : Answers (writes (.linkError h)) s (actLinkError h s) := by
  dsimp only [writes]
  exact runH_answers fun p b => .next (goDown_only _ _ _) (goDown_keeps _ _ _) (by decide) (.refl _ _ _)

theorem actStallRequest_answers {h} : Answers (writes (.stallRequest h)) s (actStallRequest h s) := by
  dsimp only [writes]
  refine runH_answers fun p b => ?_
  repeat' first
    | with_reducible exact Framed.refl _ _ _
    | (with_reducible apply Framed.next (emit_only _ _) (emit_keeps _ _ _); · decide)
    | (with_reducible apply Framed.next (updHinge_only _ _ _) (updHinge_keeps _ _ _ _); · decide)
    | split

theorem actHingeDownWrite_answers {h} : Answers (writes (.hingeDownWrite h)) s (actHingeDownWrite h s) := by
  dsimp only [writes]
  exact ite_answers (keeperReg_answers (by decide) fun p b =>
    .next (hgCtrl_only _ _ _ _) (hgCtrl_keeps _ _ _ _) (by decide) (.refl _ _ _))

theorem actHingeRearm_answers {h} : Answers (writes (.hingeRearm h)) s (actHingeRearm h s) := by
  dsimp only [writes]
  exact ite_answers (keeperReg_answers (by decide) fun p b =>
    .next (hgCtrl_only _ _ _ _) (hgCtrl_keeps _ _ _ _) (by decide) (.refl _ _ _))

theorem actHingeCreditReturn_answers {h credO credA} :
    Answers (writes (.hingeCreditReturn h credO credA)) s (actHingeCreditReturn h credO credA s) := by
  dsimp only [writes]
  refine runH_answers fun p b => ?_
  dsimp only
  repeat' first
    | with_reducible exact Framed.refl _ _ _
    | (with_reducible apply Framed.next (updHinge_only _ _ _) (updHinge_keeps _ _ _ _); · decide)
    | (with_reducible apply Framed.next (hingeFlush_only _ _ _) (hingeFlush_keeps _ _ _ _); · decide)
    | split

theorem actConfReceived_answers {h iseq} : Answers (writes (.confReceived h iseq)) s (actConfReceived h iseq s) := by
  dsimp only [writes]
  refine runH_answers fun p b => .rxItem (by decide) (fun x => ?_) (.refl _ _ _)
  refine .next (hingeFlush_only _ _ _) (hingeFlush_keeps _ _ _ _) (by decide) (.forEach (fun y c => ?_) ?_)
  · obtain ⟨i, w, o⟩ := y
    cases o with
    | some o => exact .next (ownerDone_only _ _ _) (ownerDone_keeps _ _ _ _) (by decide) (.refl _ _ _)
    | none => exact .refl _ _ _
  · exact .next (updHinge_only _ _ _) (updHinge_keeps _ _ _ _) (by decide) (.refl _ _ _)

theorem actConfSend_answers {h} : Answers (writes (.confSend h)) s (actConfSend h s) := by
  dsimp only [writes]
  refine runH_answers fun p b => ?_
  dsimp only
  repeat' first
    | with_reducible exact Framed.refl _ _ _
    | (with_reducible apply Framed.next (toPeer_only _ _ _ _ _) (toPeer_keeps _ _ _ _ _); · decide)
    | (with_reducible apply Framed.next (updHinge_only _ _ _) (updHinge_keeps _ _ _ _); · decide)
    | split

theorem actItemForward_answers {h slots} : Answers (writes (.itemForward h slots)) s (actItemForward h slots s) := by
  dsimp only [writes]
  refine runH_answers fun p b => ?_
  dsimp only
  repeat' first
    | with_reducible exact Framed.refl _ _ _
    | (with_reducible apply Framed.next (goDown_only _ _ _) (goDown_keeps _ _ _); · decide)
    | (with_reducible apply Framed.next (strandOne_only _ _ _ _) (strandOne_keeps _ _ _ _); · decide)
    | (with_reducible apply Framed.next (bump_only _ _ _) (bump_keeps _ _ _ _); · decide)
    | (with_reducible apply Framed.next (hingePut_only _ _ _ _) (hingePut_keeps _ _ _ _ _); · decide)
    | (with_reducible apply Framed.rxItem; · decide)
    | split
    | (intro _; try dsimp only)

theorem actRemoteReserve_answers {h req} : Answers (writes (.remoteReserve h req)) s (actRemoteReserve h req s) := by
  dsimp only [writes]
  refine runH_answers fun p b => ?_
  dsimp only
  repeat' first
    | with_reducible exact Framed.refl _ _ _
    | (with_reducible apply Framed.next (farReply_only _ _ _ _) (farReply_keeps _ _ _ _); · decide)
    | (with_reducible apply Framed.next (farGrant_only _ _ _) (farGrant_keeps _ _ _); · decide)
    | (with_reducible apply Framed.rxItems; · decide)
    | split
    | (intro _; try dsimp only)

theorem actLinkItem_answers {via bank idx word} :
    Answers (writes (.linkItem via bank idx word)) s (actLinkItem via bank idx word s) := by
  dsimp only [writes]
  refine runK_answers fun p b => ?_
  repeat' first
    | with_reducible exact Framed.refl _ _ _
    | (with_reducible apply Framed.next (putLinks_only _ _ _ _) (putLinks_keeps _ _ _ _); · decide)
    | (with_reducible apply Framed.rxItem; · decide)
    | split
    | (intro _; try dsimp only)

theorem actXctlAbandon_answers {via bank} : Answers (writes (.xctlAbandon via bank)) s (actXctlAbandon via bank s) := by
  dsimp only [writes]
  refine runK_answers fun p b => ?_
  repeat' first
    | with_reducible exact Framed.refl _ _ _
    | (with_reducible apply Framed.next (giveBack_only _ _) (giveBack_keeps _ _ _); · decide)
    | (with_reducible apply Framed.rxItem; · decide)
    | with_reducible apply Framed.forEach
    | split
    | (intro _; try dsimp only)
    | (with_reducible apply Framed.remSegs; · decide)

theorem actSetlItem_answers {via ring word status} :
    Answers (writes (.setlItem via ring word status)) s (actSetlItem via ring word status s) := by
  dsimp only [writes]
  refine runK_answers fun p b => ?_
  dsimp only
  repeat' first
    | with_reducible exact Framed.refl _ _ _
    | (with_reducible apply Framed.next (updFed_only _ _ _) (updFed_keeps _ _ _ _); · decide)
    | (with_reducible apply Framed.next (xrx_only _ _ _) (xrx_keeps _ _ _ _); · decide)
    | (with_reducible apply Framed.next (ringSettle_only _ _ _ _ _ _ _ _) (ringSettle_keeps _ _ _ _ _ _ _ _); · decide)
    | (with_reducible apply Framed.rxItem; · decide)
    | split
    | (intro _; try dsimp only)

theorem actChcItem_answers {src tenant via op ch endp port} :
    Answers (writes (.chcItem src tenant op ch endp port)) s (actChcItem via op ch endp port s) := by
  dsimp only [writes]
  refine runK_answers fun p b => ?_
  dsimp only
  repeat' first
    | with_reducible exact Framed.refl _ _ _
    | (with_reducible apply Framed.next (chcOpen_only _ _ _ _ _ _) (chcOpen_keeps _ _ _ _ _ _); · decide)
    | (with_reducible apply Framed.next (beginClose_only _ _ _) (beginClose_keeps _ _ _ _); · decide)
    | (with_reducible apply Framed.next (closedBeat_only _ _) (closedBeat_keeps _ _ _); · decide)
    | (with_reducible apply Framed.next (updChan_only _ _ _) (updChan_keeps _ _ _ _); · decide)
    | (with_reducible apply Framed.next (tearAt_only _ _ _ _ _ _) (tearAt_keeps _ _ _ _ _ _); · decide)
    | (with_reducible apply Framed.next (xrx_only _ _ _) (xrx_keeps _ _ _ _); · decide)
    | (with_reducible apply Framed.rxItem; · decide)
    | with_reducible apply Framed.when
    | split
    | (intro _; try dsimp only)

theorem actHingeDownEvent_answers {h} : Answers (writes (.hingeDownEvent h)) s (actHingeDownEvent h s) := by
  dsimp only [writes]
  refine runH_answers fun p b => ?_
  dsimp only
  repeat' first
    | with_reducible exact Framed.refl _ _ _
    | (with_reducible apply Framed.next (updHinge_only _ _ _) (updHinge_keeps _ _ _ _); · decide)
    | (with_reducible apply Framed.next (raiseH_only _ _ _ _) (raiseH_keeps _ _ _ _); · decide)
    | (with_reducible apply Framed.next (logRec_only _ _ _) (logRec_keeps _ _ _); · decide)
    | (with_reducible apply Framed.next (sendUnrch_only _ _ _ _ _) (sendUnrch_keeps _ _ _ _ _); · decide)
    | (with_reducible apply Framed.next (strandOne_only _ _ _ _) (strandOne_keeps _ _ _ _); · decide)
    | (with_reducible apply Framed.next (noticeWards_only _ _ _) (noticeWards_keeps _ _ _); · decide)
    | (with_reducible apply Framed.next (dropAwaiting_only _ _ _) (dropAwaiting_keeps _ _ _); · decide)
    | (with_reducible apply Framed.next (tryActive_only _ _ _) (tryActive_keeps _ _ _); · decide)
    | (with_reducible apply Framed.next (sendHello_only _ _ _) (sendHello_keeps _ _ _); · decide)
    | with_reducible apply Framed.when
    | with_reducible apply Framed.forEach
    | split
    | (intro _; try dsimp only)
    | (with_reducible apply Framed.unreach; · decide)

theorem actUnrchItem_answers {h mask reach} :
    Answers (writes (.unrchItem h mask reach)) s (actUnrchItem h mask reach s) := by
  dsimp only [writes]
  refine runH_answers fun p b => ?_
  dsimp only
  repeat' first
    | with_reducible exact Framed.refl _ _ _
    | (with_reducible apply Framed.next (sendUnrch_only _ _ _ _ _) (sendUnrch_keeps _ _ _ _ _); · decide)
    | (with_reducible apply Framed.next (noticeWards_only _ _ _) (noticeWards_keeps _ _ _); · decide)
    | (with_reducible apply Framed.next (dropAwaiting_only _ _ _) (dropAwaiting_keeps _ _ _); · decide)
    | (with_reducible apply Framed.rxItem; · decide)
    | split
    | (intro _; try dsimp only)
    | (with_reducible apply Framed.unreach; · decide)

theorem actUnreachableNotice_answers {w mask} :
    Answers (writes (.unreachableNotice w mask)) s (actUnreachableNotice w mask s) := by
  dsimp only [writes]
  refine runW_answers fun p b => ?_
  dsimp only
  repeat' first
    | with_reducible exact Framed.refl _ _ _
    | (with_reducible apply Framed.next (xrx_only _ _ _) (xrx_keeps _ _ _ _); · decide)
    | (with_reducible apply Framed.next (xdrop_only _ _) (xdrop_keeps _ _ _); · decide)
    | (with_reducible apply Framed.next (tearFar_only _ _ _ _) (tearFar_keeps _ _ _ _); · decide)
    | (with_reducible apply Framed.next (cancelFar_only _ _ _ _) (cancelFar_keeps _ _ _ _); · decide)
    | (with_reducible apply Framed.next (failRoster_only _ _ _ _) (failRoster_keeps _ _ _ _); · decide)
    | (with_reducible apply Framed.next (failImports_only _ _ _ _) (failImports_keeps _ _ _ _); · decide)
    | (with_reducible apply Framed.next (breakChan_only _ _ _ _ _ _) (breakChan_keeps _ _ _ _ _ _); · decide)
    | (with_reducible apply Framed.next (settleWaits_only _ _ _ _) (settleWaits_keeps _ _ _ _); · decide)
    | (with_reducible apply Framed.next (settleAsked_only _ _ _ _) (settleAsked_keeps _ _ _ _); · decide)
    | with_reducible apply Framed.forEach
    | split
    | (intro _; try dsimp only)

theorem actTsFlitSend_answers {h} : Answers (writes (.tsFlitSend h)) s (actTsFlitSend h s) := by
  dsimp only [writes]
  refine runH_answers fun p b => ?_
  dsimp only
  repeat' first
    | with_reducible exact Framed.refl _ _ _
    | (with_reducible apply Framed.next (flitOut_only _ _ _ _ _) (flitOut_keeps _ _ _ _ _ _); · decide)
    | (with_reducible apply Framed.next (updHinge_only _ _ _) (updHinge_keeps _ _ _ _); · decide)
    | split

theorem actTsSample_answers {h tsval} : Answers (writes (.tsSample h tsval)) s (actTsSample h tsval s) := by
  dsimp only [writes]
  refine runH_answers fun p b => ?_
  dsimp only
  repeat' first
    | with_reducible exact Framed.refl _ _ _
    | (with_reducible apply Framed.next (updHinge_only _ _ _) (updHinge_keeps _ _ _ _); · decide)
    | (with_reducible apply Framed.next (govStepped_only _ _) (govStepped_keeps _ _ _); · decide)
    | (with_reducible apply Framed.next (updClk_only _ _) (updClk_keeps _ _ _); · decide)
    | split

theorem actTsSlewStep_answers : Answers (writes (.tsSlewStep)) s (actTsSlewStep s) := by
  dsimp only [writes]
  refine runK_answers fun p b => ?_
  dsimp only
  repeat' first
    | with_reducible exact Framed.refl _ _ _
    | (with_reducible apply Framed.next (updClk_only _ _) (updClk_keeps _ _ _); · decide)
    | split

theorem actTsHoldEnd_answers : Answers (writes (.tsHoldEnd)) s (actTsHoldEnd s) := by
  dsimp only [writes]
  refine runK_answers fun p b => ?_
  repeat' first
    | with_reducible exact Framed.refl _ _ _
    | (with_reducible apply Framed.next (updClk_only _ _) (updClk_keeps _ _ _); · decide)
    | split

theorem actTsLost_answers {h} : Answers (writes (.tsLost h)) s (actTsLost h s) := by
  dsimp only [writes]
  refine runH_answers fun p b => ?_
  repeat' first
    | with_reducible exact Framed.refl _ _ _
    | (with_reducible apply Framed.next (raiseH_only _ _ _ _) (raiseH_keeps _ _ _ _); · decide)
    | (with_reducible apply Framed.next (updHinge_only _ _ _) (updHinge_keeps _ _ _ _); · decide)
    | split

theorem actTsUnlock_answers {h} : Answers (writes (.tsUnlock h)) s (actTsUnlock h s) := by
  dsimp only [writes]
  exact ite_answers (keeperReg_answers (by decide) fun p b =>
    .next (tsStatWrite_only _ _ _) (tsStatWrite_keeps _ _ _ _) (by decide) (.refl _ _ _))

theorem actScrubRead_answers {u table word bad} :
    Answers (writes (.scrubRead u table word bad)) s (actScrubRead u table word bad s) := by
  dsimp only [writes]
  refine run_answers fun p b => ?_
  repeat' first
    | with_reducible exact Framed.refl _ _ _
    | (with_reducible apply Framed.next (corrected_only _ _ _ _ _) (corrected_keeps _ _ _ _ _); · decide)
    | (with_reducible apply Framed.next (patrol_only _ _ _ _ _ _) (patrol_keeps _ _ _ _ _ _); · decide)
    | with_reducible apply Framed.when
    | split
    | (intro _; try dsimp only)

theorem actUncorrectableWord_answers {u table idx obj} :
    Answers (writes (.uncorrectableWord u table idx obj)) s (actUncorrectableWord u table idx obj s) := by
  dsimp only [writes]
  refine run_answers fun p b => ?_
  dsimp only
  repeat' first
    | with_reducible exact Framed.refl _ _ _
    | (with_reducible apply Framed.next (logRec_only _ _ _) (logRec_keeps _ _ _); · decide)
    | (with_reducible apply Framed.next (badKeeper_only _ _ _ _) (badKeeper_keeps _ _ _ _); · decide)
    | (with_reducible apply Framed.next (badWard_only _ _ _ _ _ _) (badWard_keeps _ _ _ _ _ _); · decide)
    | (with_reducible apply Framed.next (goDown_only _ _ _) (goDown_keeps _ _ _); · decide)
    | (with_reducible apply Framed.next (updHinge_only _ _ _) (updHinge_keeps _ _ _ _); · decide)
    | split

theorem instFault_framed (p : Params) (b : Block) :
    Framed p [.boot, .regs, .cnt, .log, .dbolt, .trace, .out] b (instFault p b) := by
  unfold instFault
  split
  · exact .refl _ _ _
  · refine
    .next (failAttempt_only _ _) (failAttempt_keeps _ _ _) (by decide)
      (.next (raiseK_only _ _ _) (raiseK_keeps _ _ _) (by decide) ?_)
    exact .next (logRec_only _ _ _) (logRec_keeps _ _ _) (by decide)
      (.next (updDb_only _ _) (updDb_keeps _ _ _) (by decide) (.refl _ _ _))

theorem actTmrDisagreement_answers {lanes} :
    Answers (writes (.tmrDisagreement lanes)) s (actTmrDisagreement lanes s) := by
  dsimp only [writes]
  refine runK_answers fun p b => .when (fun x => ?_) (.forEach (fun i x => ?_) (.refl _ _ _))
  · exact .next (instFault_framed p x).only (instFault_framed p x).keeps (by decide) (.refl _ _ _)
  · exact .next (laneHard_only _ _ _) (laneHard_keeps _ _ _) (by decide)
      (.next (laneUp_only _ _) (laneUp_keeps _ _ _) (by decide) (.refl _ _ _))

theorem actReplay_answers {u} : Answers (writes (.replay u)) s (actReplay u s) := by
  dsimp only [writes]
  refine run_answers fun p b => ?_
  repeat' first
    | with_reducible exact Framed.refl _ _ _
    | (with_reducible apply Framed.next (bump_only _ _ _) (bump_keeps _ _ _ _); · decide)
    | split

theorem actCrossbarRetransmit_answers {u again} :
    Answers (writes (.crossbarRetransmit u again)) s (actCrossbarRetransmit u again s) := by
  dsimp only [writes]
  refine run_answers fun p b => ?_
  have count : ∀ e, Framed p [.boot, .regs, .cnt, .log, .dbolt, .ecc, .trace, .out] b { b with ecc := e } := fun _ =>
    .part (set_ecc_only _ b) (by decide) (by decide) (.refl _ _ _)
  dsimp only
  generalize (if again = true then Tbl.get 0 b.ecc.retry (unitNo u) + 1 else 1) = n
  by_cases h3 : 3 ≤ n
  · simp only [h3, if_true]
    exact .next (instFault_framed p _).only (instFault_framed p _).keeps (by decide) (count _)
  · simp only [h3, if_false]
    split
    · exact .next (bump_only _ _ _) (bump_keeps _ _ _ _) (by decide) (count _)
    · exact count _

theorem actLogRecordArrival_answers {u} : Answers (writes (.logRecordArrival u)) s (actLogRecordArrival u s) := by
  dsimp only [writes]
  refine runK_answers fun p b => ?_
  dsimp only
  split
  · exact .refl _ _ _
  · refine .next (storeLog_only _ _ _) (storeLog_keeps _ _ _) (by decide) ?_
    exact .next (updLog_only _ _) (.log (fun _ h => h) (.refl _ _)) (by decide) (.refl _ _ _)

theorem actLogPop_answers : Answers (writes (.logPop)) s (actLogPop s) := by
  dsimp only [writes]
  exact keeperReg_answers (by decide) fun p b =>
    .next (logCtrl_only _ _) (logCtrl_keeps _ _ _) (by decide) (.refl _ _ _)

theorem actLogReinit_answers : Answers (writes (.logReinit)) s (actLogReinit s) := by
  dsimp only [writes]
  exact keeperReg_answers (by decide) fun p b =>
    .next (logCtrl_only _ _) (logCtrl_keeps _ _ _) (by decide) (.refl _ _ _)

theorem actLrClear_answers : Answers (writes (.lrClear)) s (actLrClear s) := by
  dsimp only [writes]
  exact keeperReg_answers (by decide) fun p b => .next (lrCtrl_only _ _) (lrCtrl_keeps _ _ _) (by decide) (.refl _ _ _)

theorem actDeadboltSample_answers {a b1} : Answers (writes (.deadboltSample a b1)) s (actDeadboltSample a b1 s) := by
  dsimp only [writes]
  refine runK_answers fun p b => ?_
  dsimp only
  repeat' first
    | with_reducible exact Framed.refl _ _ _
    | (with_reducible apply Framed.next (updDb_only _ _) (updDb_keeps _ _ _); · decide)
    | (with_reducible apply Framed.next (agreeTick_only _ _ _) (agreeTick_keeps _ _ _); · decide)
    | (with_reducible apply Framed.next (disagreeTick_only _ _ _) (disagreeTick_keeps _ _ _); · decide)
    | split

theorem actDeadboltAssert_answers : Answers (writes (.deadboltAssert)) s (actDeadboltAssert s) := by
  dsimp only [writes]
  refine runK_answers fun p b => ?_
  dsimp only
  repeat' first
    | with_reducible exact Framed.refl _ _ _
    | (with_reducible apply Framed.next (updDb_only _ _) (updDb_keeps _ _ _); · decide)
    | (with_reducible apply Framed.next (raiseK_only _ _ _) (raiseK_keeps _ _ _); · decide)
    | (with_reducible apply Framed.next (quiesceAll_only _ _) (quiesceAll_keeps _ _); · decide)
    | (with_reducible apply Framed.next (trTrigger_only _ _ _ _) (trTrigger_keeps _ _ _ _); · decide)
    | with_reducible apply Framed.when
    | split
    | (intro _; try dsimp only)

theorem actDrainEnd_answers : Answers (writes (.drainEnd)) s (actDrainEnd s) := by
  dsimp only [writes]
  refine runK_answers fun p b => ?_
  dsimp only
  repeat' first
    | with_reducible exact Framed.refl _ _ _
    | (with_reducible apply Framed.next (endAll_only _ _ _) (endAll_keeps _ _ _); · decide)
    | (with_reducible apply Framed.next (logRec_only _ _ _) (logRec_keeps _ _ _); · decide)
    | (with_reducible apply Framed.next (updDb_only _ _) (updDb_keeps _ _ _); · decide)
    | (with_reducible apply Framed.next (goDown_only _ _ _) (goDown_keeps _ _ _); · decide)
    | with_reducible apply Framed.when
    | with_reducible apply Framed.forEach
    | split
    | (intro _; try dsimp only)

theorem actDeadboltRelease_answers : Answers (writes (.deadboltRelease)) s (actDeadboltRelease s) := by
  dsimp only [writes]
  refine runK_answers fun p b => ?_
  repeat' first
    | with_reducible exact Framed.refl _ _ _
    | (with_reducible apply Framed.next (updDb_only _ _) (updDb_keeps _ _ _); · decide)
    | split

theorem actDiscFaultClear_answers : Answers (writes (.discFaultClear)) s (actDiscFaultClear s) := by
  dsimp only [writes]
  exact keeperReg_answers (by decide) fun p b =>
    .next (dbStatWrite_only _ _) (dbStatWrite_keeps _ _ _) (by decide) (.refl _ _ _)

theorem actHangDetect_answers {ring} : Answers (writes (.hangDetect ring)) s (actHangDetect ring s) := by
  dsimp only [writes]
  refine run_answers fun p b => ?_
  dsimp only
  repeat' first
    | with_reducible exact Framed.refl _ _ _
    | (with_reducible apply Framed.next (updRing_only _ _ _) (updRing_keeps _ _ _ _); · decide)
    | (with_reducible apply Framed.next (logRec_only _ _ _) (logRec_keeps _ _ _); · decide)
    | (with_reducible apply Framed.next (raiseK_only _ _ _) (raiseK_keeps _ _ _); · decide)
    | (with_reducible apply Framed.next (trTrigger_only _ _ _ _) (trTrigger_keeps _ _ _ _); · decide)
    | (with_reducible apply Framed.next (blkOrder_only _) (blkOrder_keeps _ _); · decide)
    | with_reducible apply Framed.when
    | split
    | (intro _; try dsimp only)
    | (with_reducible apply Framed.hang; · decide)

theorem actPorstNAssert_answers : Answers (writes .porstNAssert) s (actPorstNAssert s) :=
  ⟨_, rfl, powerOff_only _, powerOff_keeps _ _⟩

theorem actPorstNRelease_answers : Answers (writes (.porstNRelease)) s (actPorstNRelease s) := by
  dsimp only [writes]
  refine run_answers fun p b => ?_
  repeat' first
    | with_reducible exact Framed.refl _ _ _
    | (with_reducible apply Framed.next (beginAttempt_only _ _) (beginAttempt_keeps _ _); · decide)
    | (with_reducible apply Framed.next (updBoot_only _ _) (updBoot_keeps _ _ _); · decide)
    | (with_reducible apply Framed.next (updClk_only _ _) (updClk_keeps _ _ _); · decide)

theorem actSrstNAssert_answers : Answers (writes (.srstNAssert)) s (actSrstNAssert s) := by
  dsimp only [writes]
  refine run_answers fun p b => ?_
  repeat' first
    | with_reducible exact Framed.refl _ _ _
    | (with_reducible apply Framed.next (updBoot_only _ _) (updBoot_keeps _ _ _); · decide)
    | (with_reducible apply Framed.next (softOff_only _) (softOff_keeps _ _); · decide)
    | split

theorem actSrstNRelease_answers : Answers (writes (.srstNRelease)) s (actSrstNRelease s) := by
  dsimp only [writes]
  refine run_answers fun p b => ?_
  dsimp only
  repeat' first
    | with_reducible exact Framed.refl _ _ _
    | (with_reducible apply Framed.next (updBoot_only _ _) (updBoot_keeps _ _ _); · decide)
    | (with_reducible apply Framed.next (beginAttempt_only _ _) (beginAttempt_keeps _ _); · decide)
    | split

theorem actMtrRstN_answers : Answers (writes (.mtrRstN)) s (actMtrRstN s) := by
  dsimp only [writes]
  exact run_answers fun p b => .next (updMeter_only _ _) (updMeter_keeps _ _ _) (by decide) (.refl _ _ _)

theorem actDomainResetRelease_answers {d} : Answers (writes (.domainResetRelease d)) s (actDomainResetRelease d s) := by
  dsimp only [writes]
  refine run_answers fun p b => ?_
  repeat' first
    | with_reducible exact Framed.refl _ _ _
    | (with_reducible apply Framed.next (setStage_only _ _ _) (setStage_keeps _ _ _ _); · decide)
    | (with_reducible apply Framed.next (updClk_only _ _) (updClk_keeps _ _ _); · decide)
    | (with_reducible apply Framed.next (emit_only _ _) (emit_keeps _ _ _); · decide)
    | split

theorem actBootScrubDone_answers {u} : Answers (writes (.bootScrubDone u)) s (actBootScrubDone u s) := by
  dsimp only [writes]
  refine run_answers fun p b => ?_
  repeat' first
    | with_reducible exact Framed.refl _ _ _
    | (with_reducible apply Framed.next (bootCheck_only _ _) (bootCheck_keeps _ _); · decide)
    | (with_reducible apply Framed.next (setStage_only _ _ _) (setStage_keeps _ _ _ _); · decide)
    | split

theorem actSelfTestDone_answers {u fatal corrected} :
    Answers (writes (.selfTestDone u fatal corrected)) s (actSelfTestDone u fatal corrected s) := by
  dsimp only [writes]
  refine run_answers fun p b => ?_
  dsimp only
  repeat' first
    | with_reducible exact Framed.refl _ _ _
    | (with_reducible apply Framed.next (logRec_only _ _ _) (logRec_keeps _ _ _); · decide)
    | (with_reducible apply Framed.next (bootCheck_only _ _) (bootCheck_keeps _ _); · decide)
    | (with_reducible apply Framed.next (fenceWard_only _ _ _ _) (fenceWard_keeps _ _ _ _); · decide)
    | (with_reducible apply Framed.next (failAttempt_only _ _) (failAttempt_keeps _ _ _); · decide)
    | (with_reducible apply Framed.next (setStage_only _ _ _) (setStage_keeps _ _ _ _); · decide)
    | with_reducible apply Framed.forEach
    | split
    | (intro _; try dsimp only)

theorem actTmrCheck_answers {bad} : Answers (writes (.tmrCheck bad)) s (actTmrCheck bad s) := by
  dsimp only [writes]
  refine run_answers fun p b => ?_
  dsimp only
  repeat' first
    | with_reducible exact Framed.refl _ _ _
    | (with_reducible apply Framed.next (raiseK_only _ _ _) (raiseK_keeps _ _ _); · decide)
    | (with_reducible apply Framed.next (logRec_only _ _ _) (logRec_keeps _ _ _); · decide)
    | (with_reducible apply Framed.next (updBoot_only _ _) (updBoot_keeps _ _ _); · decide)
    | (with_reducible apply Framed.next (failAttempt_only _ _) (failAttempt_keeps _ _ _); · decide)
    | (with_reducible apply Framed.next (bootCheck_only _ _) (bootCheck_keeps _ _); · decide)
    | (with_reducible apply Framed.next (setStage_only _ _ _) (setStage_keeps _ _ _ _); · decide)
    | split

theorem actLinkUp_answers {h} : Answers (writes (.linkUp h)) s (actLinkUp h s) := by
  dsimp only [writes]
  refine runH_answers fun p b => ?_
  dsimp only
  repeat' first
    | with_reducible exact Framed.refl _ _ _
    | (with_reducible apply Framed.next (linkTrained_only _ _ _) (linkTrained_keeps _ _ _); · decide)
    | (with_reducible apply Framed.next (bootCheck_only _ _) (bootCheck_keeps _ _); · decide)
    | (with_reducible apply Framed.next (setStage_only _ _ _) (setStage_keeps _ _ _ _); · decide)
    | split

theorem actLinkUpTimeout_answers {h} : Answers (writes (.linkUpTimeout h)) s (actLinkUpTimeout h s) := by
  dsimp only [writes]
  refine runH_answers fun p b => ?_
  dsimp only
  repeat' first
    | with_reducible exact Framed.refl _ _ _
    | (with_reducible apply Framed.next (updBoot_only _ _) (updBoot_keeps _ _ _); · decide)
    | (with_reducible apply Framed.next (setStage_only _ _ _) (setStage_keeps _ _ _ _); · decide)
    | (with_reducible apply Framed.next (bootCheck_only _ _) (bootCheck_keeps _ _); · decide)
    | (with_reducible apply Framed.next (raiseH_only _ _ _ _) (raiseH_keeps _ _ _ _); · decide)
    | split

theorem actLock_answers : Answers (writes (.lock)) s (actLock s) := by
  dsimp only [writes]
  exact keeperReg_answers (by decide) fun p b =>
    .next (kctrlWrite_only _ _ _) (kctrlWrite_keeps _ _ _) (by decide) (.refl _ _ _)

theorem actFwfail_answers : Answers (writes (.fwfail)) s (actFwfail s) := by
  dsimp only [writes]
  exact keeperReg_answers (by decide) fun p b =>
    .next (kbootWrite_only _ _) (kbootWrite_keeps _ _ _) (by decide) (.refl _ _ _)

theorem actKeyStoreAck_answers {mac err} : Answers (writes (.keyStoreAck mac err)) s (actKeyStoreAck mac err s) := by
  dsimp only [writes]
  refine runM_answers fun p b => ?_
  repeat' first
    | with_reducible exact Framed.refl _ _ _
    | (with_reducible apply Framed.next (signFail_only _) (signFail_keeps _ _); · decide)
    | (with_reducible apply Framed.next (signNext_only _) (signNext_keeps _ _); · decide)
    | (with_reducible apply Framed.next (updMeter_only _ _) (updMeter_keeps _ _ _); · decide)
    | split

theorem actKeyStoreTimeout_answers : Answers (writes (.keyStoreTimeout)) s (actKeyStoreTimeout s) := by
  dsimp only [writes]
  refine runM_answers fun p b => ?_
  repeat' first
    | with_reducible exact Framed.refl _ _ _
    | (with_reducible apply Framed.next (signFail_only _) (signFail_keeps _ _); · decide)
    | split

theorem actSignRetry_answers : Answers (writes (.signRetry)) s (actSignRetry s) := by
  dsimp only [writes]
  refine runM_answers fun p b => ?_
  repeat' first
    | with_reducible exact Framed.refl _ _ _
    | (with_reducible apply Framed.next (ksSend_only _ _) (ksSend_keeps _ _ _); · decide)
    | split

theorem actTallySlotSample_answers {health} :
    Answers (writes (.tallySlotSample health)) s (actTallySlotSample health s) := by
  dsimp only [writes]
  refine runM_answers fun p b => ?_
  dsimp only
  repeat' first
    | with_reducible exact Framed.refl _ _ _
    | (with_reducible apply Framed.next (updMeter_only _ _) (updMeter_keeps _ _ _); · decide)
    | split
    | (with_reducible apply Framed.set_tally; · decide)

theorem actPeriodDue_answers : Answers (writes (.periodDue)) s (actPeriodDue s) := by
  dsimp only [writes]
  refine runM_answers fun p b => ?_
  dsimp only
  repeat' first
    | with_reducible exact Framed.refl _ _ _
    | (with_reducible apply Framed.next (updMeter_only _ _) (updMeter_keeps _ _ _); · decide)
    | split

theorem actPeriodClose_answers : Answers (writes (.periodClose)) s (actPeriodClose s) := by
  dsimp only [writes]
  refine runM_answers fun p b => ?_
  dsimp only
  repeat' first
    | with_reducible exact Framed.refl _ _ _
    | (with_reducible apply Framed.next (updMeter_only _ _) (updMeter_keeps _ _ _); · decide)
    | split

theorem actRecordForm_answers {bad} : Answers (writes (.recordForm bad)) s (actRecordForm bad s) := by
  dsimp only [writes]
  refine runM_answers fun p b => ?_
  repeat' first
    | with_reducible exact Framed.refl _ _ _
    | (with_reducible apply Framed.next (formNext_only _ _ _) (formNext_keeps _ _ _ _); · decide)
    | (with_reducible apply Framed.next (updMeter_only _ _) (updMeter_keeps _ _ _); · decide)
    | split

theorem actMeterRun_answers : Answers (writes (.meterRun)) s (actMeterRun s) := by
  dsimp only [writes]
  refine runM_answers fun p b => ?_
  repeat' first
    | with_reducible exact Framed.refl _ _ _
    | (with_reducible apply Framed.next (mtRun_only _) (mtRun_keeps _ _); · decide)
    | (with_reducible apply Framed.next (mtOkay_only _) (mtOkay_keeps _ _); · decide)

theorem actMeterStop_answers : Answers (writes (.meterStop)) s (actMeterStop s) := by
  dsimp only [writes]
  refine runM_answers fun p b => ?_
  repeat' first
    | with_reducible exact Framed.refl _ _ _
    | (with_reducible apply Framed.next (mtStop_only _) (mtStop_keeps _ _); · decide)
    | (with_reducible apply Framed.next (mtOkay_only _) (mtOkay_keeps _ _); · decide)

theorem actMeterConfigWrite_answers {c} : Answers (writes (.meterConfigWrite c)) s (actMeterConfigWrite c s) := by
  dsimp only [writes]
  refine runM_answers fun p b => ?_
  repeat' first
    | with_reducible exact Framed.refl _ _ _
    | (with_reducible apply Framed.next (mtConfig_only _ _) (mtConfig_keeps _ _ _); · decide)
    | (with_reducible apply Framed.next (mtOkay_only _) (mtOkay_keeps _ _); · decide)

theorem actMeterRecPop_answers : Answers (writes (.meterRecPop)) s (actMeterRecPop s) := by
  dsimp only [writes]
  refine runM_answers fun p b => ?_
  repeat' first
    | with_reducible exact Framed.refl _ _ _
    | (with_reducible apply Framed.next (mtPop_only _) (mtPop_keeps _ _); · decide)
    | (with_reducible apply Framed.next (mtOkay_only _) (mtOkay_keeps _ _); · decide)

theorem actCounterClear_answers {tgt} : Answers (writes (.counterClear tgt)) s (actCounterClear tgt s) := by
  dsimp only [writes]
  have page : ∀ p base b, Framed p (writes (.counterClear tgt)) b (clearPage base b) := fun _ _ _ =>
    .next (clearPage_only _ _) (clearPage_keeps _ _ _) (by dsimp only [writes]; decide) (.refl _ _ _)
  unfold actCounterClear
  split
  · exact keeperReg_answers (by decide) fun p b =>
      .next (clearKeeper_only _) (clearKeeper_keeps _ _) (by decide) (.refl _ _ _)
  · exact wardReg_answers (by decide) fun p w b => page p _ b
  · exact keeperReg_answers (by decide) fun p b => .when (fun x => page p _ x) (.refl _ _ _)

theorem actCounterSnapshotOrder_answers : Answers (writes (.counterSnapshotOrder)) s (actCounterSnapshotOrder s) := by
  dsimp only [writes]
  exact keeperReg_answers (by decide) fun p b =>
    .next (snapOrder_only _) (snapOrder_keeps _ _) (by decide) (.refl _ _ _)

theorem actCounterSnapshot_answers : Answers (writes (.counterSnapshot)) s (actCounterSnapshot s) := by
  dsimp only [writes]
  refine runK_answers fun p b => ?_
  repeat' first
    | with_reducible exact Framed.refl _ _ _
    | (with_reducible apply Framed.next (copyCounters_only _) (copyCounters_keeps _ _); · decide)
    | with_reducible apply Framed.when
    | (intro _; try dsimp only)

theorem actBlockedOnSnapOrder_answers : Answers (writes (.blockedOnSnapOrder)) s (actBlockedOnSnapOrder s) := by
  dsimp only [writes]
  exact keeperReg_answers (by decide) fun p b => .next (blkOrder_only _) (blkOrder_keeps _ _) (by decide) (.refl _ _ _)

theorem actBlockedOnSnapshot_answers : Answers (writes (.blockedOnSnapshot)) s (actBlockedOnSnapshot s) := by
  dsimp only [writes]
  refine runK_answers fun p b => ?_
  repeat' first
    | with_reducible exact Framed.refl _ _ _
    | (with_reducible apply Framed.next (blkAll_only _ _) (blkAll_keeps _ _); · decide)
    | with_reducible apply Framed.when
    | (intro _; try dsimp only)

theorem actBlockedOnDone_answers : Answers (writes (.blockedOnDone)) s (actBlockedOnDone s) := by
  dsimp only [writes]
  refine runK_answers fun p b => ?_
  dsimp only
  repeat' first
    | with_reducible exact Framed.refl _ _ _
    | split
    | (with_reducible apply Framed.blk; · decide)

theorem actTraceBlockWrite_answers : Answers (writes (.traceBlockWrite)) s (actTraceBlockWrite s) := by
  dsimp only [writes]
  refine runK_answers fun p b => ?_
  repeat' first
    | with_reducible exact Framed.refl _ _ _
    | (with_reducible apply Framed.next (writeRun_only _ _ _) (writeRun_keeps _ _ _); · decide)
    | split

theorem actTraceWriteResponse_answers {resp} :
    Answers (writes (.traceWriteResponse resp)) s (actTraceWriteResponse resp s) := by
  dsimp only [writes]
  refine runK_answers fun p b => ?_
  repeat' first
    | with_reducible exact Framed.refl _ _ _
    | (with_reducible apply Framed.next (updTr_only _ _) (updTr_keeps _ _ _); · decide)
    | with_reducible apply Framed.when
    | (intro _; try dsimp only)

theorem actTraceEnable_answers : Answers (writes (.traceEnable)) s (actTraceEnable s) := by
  dsimp only [writes]
  exact keeperReg_answers (by decide) fun p b =>
    .next (trCtrl_only _ _ _) (trCtrl_keeps _ _ _) (by decide) (.refl _ _ _)

theorem actTraceDisable_answers : Answers (writes (.traceDisable)) s (actTraceDisable s) := by
  dsimp only [writes]
  exact keeperReg_answers (by decide) fun p b =>
    .next (trCtrl_only _ _ _) (trCtrl_keeps _ _ _) (by decide) (.refl _ _ _)

theorem actTraceTrigWrite_answers : Answers (writes .traceTrigWrite) s (actTraceTrigWrite s) := by
  dsimp only [writes]
  refine runReg_answers fun p b => .regWrite (by decide) (fun x => ?_) (.refl _ _ _)
  exact .next (trCtrl_only _ _ _) (trCtrl_keeps _ _ _) (by decide) (.refl _ _ _)

theorem actTraceEntryStage_answers : Answers (writes (.traceEntryStage)) s (actTraceEntryStage s) := by
  dsimp only [writes]
  refine runK_answers fun p b => ?_
  dsimp only
  repeat' first
    | with_reducible exact Framed.refl _ _ _
    | (with_reducible apply Framed.next (stageFrom_only _ _ _) (stageFrom_keeps _ _ _); · decide)
    | with_reducible apply Framed.forEach
    | split
    | (intro _; try dsimp only)

theorem actTraceFifoDrop_answers {u} : Answers (writes (.traceFifoDrop u)) s (actTraceFifoDrop u s) := by
  dsimp only [writes]
  refine run_answers fun p b => ?_
  dsimp only
  repeat' first
    | with_reducible exact Framed.refl _ _ _
    | (with_reducible apply Framed.next (trLose_only _ _ _) (trLose_keeps _ _ _ _); · decide)
    | split

theorem actSamplePeriod_answers {w} : Answers (writes (.samplePeriod w)) s (actSamplePeriod w s) := by
  dsimp only [writes]
  refine runW_answers fun p b => ?_
  dsimp only
  repeat' first
    | with_reducible exact Framed.refl _ _ _
    | (with_reducible apply Framed.next (updTr_only _ _) (updTr_keeps _ _ _); · decide)
    | (with_reducible apply Framed.next (trForm_only _ _ _ _) (trForm_keeps _ _ _ _); · decide)
    | (with_reducible apply Framed.next (updPort_only _ _ _) (updPort_keeps _ _ _ _); · decide)
    | split

theorem actDumpGo_answers : Answers (writes (.dumpGo)) s (actDumpGo s) := by
  dsimp only [writes]
  exact keeperReg_answers (by decide) fun p b =>
    .next (dumpStart_only _ _) (dumpStart_keeps _ _) (by decide) (.refl _ _ _)

theorem actDumpDone_answers : Answers (writes (.dumpDone)) s (actDumpDone s) := by
  dsimp only [writes]
  refine run_answers fun p b => ?_
  dsimp only
  repeat' first
    | with_reducible exact Framed.refl _ _ _
    | (with_reducible apply Framed.next (dumpSection_only _ _ _) (dumpSection_keeps _ _ _); · decide)
    | (with_reducible apply Framed.next (raiseK_only _ _ _) (raiseK_keeps _ _ _); · decide)
    | with_reducible apply Framed.forEach
    | (intro _; try dsimp only)
    | (with_reducible apply Framed.dump; · decide)

theorem actCommitPoint_answers {w} : Answers (writes (.commitPoint w)) s (actCommitPoint w s) := by
  dsimp only [writes]
  refine runW_answers fun p b => ?_
  repeat' first
    | with_reducible exact Framed.refl _ _ _
    | (with_reducible apply Framed.next (commitPointAt_only _ _ _) (commitPointAt_keeps _ _ _); · decide)
    | split

theorem actCommitForce_answers : Answers (writes (.commitForce)) s (actCommitForce s) := by
  dsimp only [writes]
  exact keeperReg_answers (by decide) fun p b =>
    .next (commitAll_only _ _) (commitAll_keeps _ _) (by decide) (.refl _ _ _)

theorem actTenantCfgWrite_answers {data} : Answers (writes (.tenantCfgWrite data)) s (actTenantCfgWrite data s) := by
  dsimp only [writes]
  exact keeperReg_answers (by decide) fun p b =>
    .next (tenCfgWrite_only _ _ _) (tenCfgWrite_keeps _ _ _) (by decide) (.refl _ _ _)

theorem actCaptureClear_answers : Answers (writes (.captureClear)) s (actCaptureClear s) := by
  dsimp only [writes]
  exact keeperReg_answers (by decide) fun p b =>
    .next (capClear_only _ _) (capClear_keeps _ _ _) (by decide) (.refl _ _ _)

theorem actRegisterWrite_answers {port addr data strb} :
    Answers (writes (.registerWrite port addr data strb)) s (actRegisterWrite port addr data strb s) := by
  dsimp only [writes]
  unfold actRegisterWrite
  split
  · exact runReg_answers fun p b =>
    .next (mgtAccess_only _ _ _ _ _) (mgtAccess_keeps _ _ _ _ _) (by decide) (.refl _ _ _)
  · exact runM_answers fun p b => .next (mtpWrite_only _ _ _ _) (mtpWrite_keeps _ _ _ _ _) (by decide) (.refl _ _ _)

theorem actRwqShadowWrite_answers {addr data} :
    Answers (writes (.rwqShadowWrite addr data)) s (actRwqShadowWrite addr data s) := by
  dsimp only [writes]
  refine runReg_answers fun p b => ?_
  repeat' first
    | with_reducible exact Framed.refl _ _ _
    | (with_reducible apply Framed.next (mgtWrite_only _ _ _ _) (mgtWrite_keeps _ _ _ _); · decide)
    | split

/-- A read at the management port (R400, R402). -/
theorem readReg_answers {l : List BlockPart} {ok : Params → Nat → Bool} {a : BitVec 24}
    (hl : ∀ f ∈ [BlockPart.mgt, .regs, .mqPop, .out], f ∈ l) : Answers l s (s.readReg ok a) :=
  run_answers fun p b => .next (mgtRead_only p a.toNat b) (mgtRead_keeps p a.toNat b) hl (.refl _ _ _)

theorem actWindowRead_answers {addr} : Answers (writes (.windowRead addr)) s (actWindowRead addr s) := by
  dsimp only [writes]
  exact readReg_answers (by decide)

theorem actMultiwordReadLatch_answers {addr} :
    Answers (writes (.multiwordReadLatch addr)) s (actMultiwordReadLatch addr s) := by
  dsimp only [writes]
  unfold actMultiwordReadLatch
  split
  · exact readReg_answers (by decide)
  · exact runM_answers fun p b => .next (mtpRead_only _ _ _) (mtpRead_keeps _ _ _) (by decide) (.refl _ _ _)

theorem actEventRingRead_answers {addr} : Answers (writes (.eventRingRead addr)) s (actEventRingRead addr s) := by
  dsimp only [writes]
  exact readReg_answers (by decide)

theorem actMqRdataAdvance_answers {w} : Answers (writes (.mqRdataAdvance w)) s (actMqRdataAdvance w s) := by
  dsimp only [writes]
  exact readReg_answers (by decide)

theorem actRescrubDone_answers {u} : Answers (writes (.rescrubDone u)) s (actRescrubDone u s) := by
  dsimp only [writes]
  refine run_answers fun p b => ?_
  repeat' first
    | with_reducible exact Framed.refl _ _ _
    | (with_reducible apply Framed.next (replayAccess_only _ _) (replayAccess_keeps _ _); · decide)
    | (with_reducible apply Framed.next (rescrubbed_only _ _ _) (rescrubbed_keeps _ _ _); · decide)

end Events

end Sys2Proof.Machine
end

section
/-! PROOFS. The frame of all commands (R28) and the invariant of the tables (R180, R288, R319). -/

namespace Sys2Proof.Machine

/-- Each command, on the state in which its cycle takes it, answers a next state framed by the parts it may write. -/
theorem exec_answers (c : Instr) (s : State) : Answers (writes c) (s.sampled c) (exec c s) := by
  cases c with
  | porstNAssert => exact actPorstNAssert_answers
  | porstNRelease => exact actPorstNRelease_answers
  | srstNAssert => exact actSrstNAssert_answers
  | srstNRelease => exact actSrstNRelease_answers
  | mtrRstN => exact actMtrRstN_answers
  | domainResetRelease => exact actDomainResetRelease_answers
  | bootScrubDone => exact actBootScrubDone_answers
  | selfTestDone => exact actSelfTestDone_answers
  | rescrubDone => exact actRescrubDone_answers
  | tmrCheck => exact actTmrCheck_answers
  | linkUp => exact actLinkUp_answers
  | linkUpTimeout => exact actLinkUpTimeout_answers
  | lock => exact actLock_answers
  | fwfail => exact actFwfail_answers
  | registerWrite => exact actRegisterWrite_answers
  | rwqShadowWrite => exact actRwqShadowWrite_answers
  | commitPoint => exact actCommitPoint_answers
  | commitForce => exact actCommitForce_answers
  | windowRead => exact actWindowRead_answers
  | multiwordReadLatch => exact actMultiwordReadLatch_answers
  | eventRingRead => exact actEventRingRead_answers
  | ringDescriptorWrite => exact actRingDescriptorWrite_answers
  | ringEnable => exact actRingEnable_answers
  | ringDisable => exact actRingDisable_answers
  | tenantCfgWrite => exact actTenantCfgWrite_answers
  | haspAssign => exact actHaspAssign_answers
  | haspForce => exact actHaspForce_answers
  | preemptRequest => exact actPreemptRequest_answers
  | preemptResume => exact actPreemptResume_answers
  | keyPoolCfgWrite => exact actKeyPoolCfgWrite_answers
  | keyPoolReset => exact actKeyPoolReset_answers
  | mqCfgWrite => exact actMqCfgWrite_answers
  | mqFlush => exact actMqFlush_answers
  | flushDiscard => exact actFlushDiscard_answers
  | mqPush => exact actMqPush_answers
  | mqPop => exact actMqPop_answers
  | mqRdataAdvance => exact actMqRdataAdvance_answers
  | logPop => exact actLogPop_answers
  | logReinit => exact actLogReinit_answers
  | lrClear => exact actLrClear_answers
  | counterClear => exact actCounterClear_answers
  | counterSnapshotOrder => exact actCounterSnapshotOrder_answers
  | counterSnapshot => exact actCounterSnapshot_answers
  | blockedOnSnapOrder => exact actBlockedOnSnapOrder_answers
  | blockedOnSnapshot => exact actBlockedOnSnapshot_answers
  | blockedOnDone => exact actBlockedOnDone_answers
  | dumpGo => exact actDumpGo_answers
  | dumpSnapshotTimeout => exact actDumpSnapshotTimeout_answers
  | dumpDone => exact actDumpDone_answers
  | traceEnable => exact actTraceEnable_answers
  | traceDisable => exact actTraceDisable_answers
  | traceTrigWrite => exact actTraceTrigWrite_answers
  | hingeDownWrite => exact actHingeDownWrite_answers
  | hingeRearm => exact actHingeRearm_answers
  | tsUnlock => exact actTsUnlock_answers
  | discFaultClear => exact actDiscFaultClear_answers
  | captureClear => exact actCaptureClear_answers
  | tnDoorbell => exact actTnDoorbell_answers
  | ringCancelOldest => exact actRingCancelOldest_answers
  | ringCancelAll => exact actRingCancelAll_answers
  | ringResume => exact actRingResume_answers
  | meterRun => exact actMeterRun_answers
  | meterStop => exact actMeterStop_answers
  | meterConfigWrite => exact actMeterConfigWrite_answers
  | meterRecPop => exact actMeterRecPop_answers
  | tallySlotSample => exact actTallySlotSample_answers
  | periodDue => exact actPeriodDue_answers
  | periodClose => exact actPeriodClose_answers
  | recordForm => exact actRecordForm_answers
  | keyStoreAck => exact actKeyStoreAck_answers
  | keyStoreTimeout => exact actKeyStoreTimeout_answers
  | signRetry => exact actSignRetry_answers
  | issueCommit => exact actIssueCommit_answers
  | issDescriptorAccepted => exact actIssDescriptorAccepted_answers
  | preloadStart => exact actPreloadStart_answers
  | argumentReadResponse => exact actArgumentReadResponse_answers
  | preloadComplete => exact actPreloadComplete_answers
  | canAck => exact actCanAck_answers
  | cmpRecord => exact actCmpRecord_answers
  | opdDelivery => exact actOpdDelivery_answers
  | landingCreditReturn => exact actLandingCreditReturn_answers
  | statusBeatAccepted => exact actStatusBeatAccepted_answers
  | send => exact actSend_answers
  | contrib => exact actContrib_answers
  | openReq => exact actOpenReq_answers
  | closeReq => exact actCloseReq_answers
  | hsig => exact actHsig_answers
  | keyreq => exact actKeyreq_answers
  | returnUnused => exact actReturnUnused_answers
  | doorbell => exact actDoorbell_answers
  | slotwr => exact actSlotwr_answers
  | badMsgRequest => exact actBadMsgRequest_answers
  | returnKret => exact actReturnKret_answers
  | ctlOnlineChange => exact actCtlOnlineChange_answers
  | ctlSnapshotReceived => exact actCtlSnapshotReceived_answers
  | snapshotTimeout => exact actSnapshotTimeout_answers
  | portReset => exact actPortReset_answers
  | decrement => exact actDecrement_answers
  | failureNotice => exact actFailureNotice_answers
  | cancelNotice => exact actCancelNotice_answers
  | guardWaitPass => exact actGuardWaitPass_answers
  | settlementNotice => exact actSettlementNotice_answers
  | issueProxyNotice => exact actIssueProxyNotice_answers
  | successorDelivery => exact actSuccessorDelivery_answers
  | entryFree => exact actEntryFree_answers
  | quarantineEnd => exact actQuarantineEnd_answers
  | edgeRefetchDone => exact actEdgeRefetchDone_answers
  | taskClassTimeout => exact actTaskClassTimeout_answers
  | arbiterForward => exact actArbiterForward_answers
  | placementRequest => exact actPlacementRequest_answers
  | placementDecision => exact actPlacementDecision_answers
  | waitingListOffer => exact actWaitingListOffer_answers
  | stagingRequest => exact actStagingRequest_answers
  | stagingNoPort => exact actStagingNoPort_answers
  | placementDecisionArrival => exact actPlacementDecisionArrival_answers
  | stagedTaskPlaced => exact actStagedTaskPlaced_answers
  | governorRequest => exact actGovernorRequest_answers
  | governorQueueGrant => exact actGovernorQueueGrant_answers
  | governorWindowStart => exact actGovernorWindowStart_answers
  | portRelease => exact actPortRelease_answers
  | taskCancel => exact actTaskCancel_answers
  | withdrawal => exact actWithdrawal_answers
  | unloadDirective => exact actUnloadDirective_answers
  | epochMint => exact actEpochMint_answers
  | tokenArrival => exact actTokenArrival_answers
  | ringFetch => exact actRingFetch_answers
  | ringFetchResponse => exact actRingFetchResponse_answers
  | ringRepoll => exact actRingRepoll_answers
  | recordAccept => exact actRecordAccept_answers
  | waitsubRelease => exact actWaitsubRelease_answers
  | segmentHeader => exact actSegmentHeader_answers
  | graphPass1 => exact actGraphPass1_answers
  | fanListReadResponse => exact actFanListReadResponse_answers
  | operandReadResponse => exact actOperandReadResponse_answers
  | graphPass2 => exact actGraphPass2_answers
  | entryQueueAdmit => exact actEntryQueueAdmit_answers
  | graphPass3 => exact actGraphPass3_answers
  | aheadRelease => exact actAheadRelease_answers
  | cond => exact actCond_answers
  | loop => exact actLoop_answers
  | endloop => exact actEndloop_answers
  | stepEnd => exact actStepEnd_answers
  | yield => exact actYield_answers
  | fence => exact actFence_answers
  | fenceRelease => exact actFenceRelease_answers
  | indirect => exact actIndirect_answers
  | setSlot => exact actSetSlot_answers
  | note => exact actNote_answers
  | mark => exact actMark_answers
  | nop => exact actNop_answers
  | haspSignal => exact actHaspSignal_answers
  | haspReset => exact actHaspReset_answers
  | haspWait => exact actHaspWait_answers
  | openCh => exact actOpenCh_answers
  | closeCh => exact actCloseCh_answers
  | commandFaultNotice => exact actCommandFaultNotice_answers
  | ringTimeout => exact actRingTimeout_answers
  | stepTimeout => exact actStepTimeout_answers
  | statusBlockWriteResponse => exact actStatusBlockWriteResponse_answers
  | digestWriteResponse => exact actDigestWriteResponse_answers
  | messageArrival => exact actMessageArrival_answers
  | nackReturn => exact actNackReturn_answers
  | answerReturn => exact actAnswerReturn_answers
  | channelAllocate => exact actChannelAllocate_answers
  | bindNotice => exact actBindNotice_answers
  | channelCloseApply => exact actChannelCloseApply_answers
  | channelIdFree => exact actChannelIdFree_answers
  | stormNotice => exact actStormNotice_answers
  | partArrival => exact actPartArrival_answers
  | partApply => exact actPartApply_answers
  | drainConvert => exact actDrainConvert_answers
  | drainWriteResponse => exact actDrainWriteResponse_answers
  | tearNotice => exact actTearNotice_answers
  | queueNumberFree => exact actQueueNumberFree_answers
  | signal => exact actSignal_answers
  | waitRegistration => exact actWaitRegistration_answers
  | waitRelease => exact actWaitRelease_answers
  | taskFormRelease => exact actTaskFormRelease_answers
  | keyRequestArrival => exact actKeyRequestArrival_answers
  | keyReturn => exact actKeyReturn_answers
  | keyTimeout => exact actKeyTimeout_answers
  | autoPreemptTrigger => exact actAutoPreemptTrigger_answers
  | discardNotice => exact actDiscardNotice_answers
  | autoResume => exact actAutoResume_answers
  | helloReceived => exact actHelloReceived_answers
  | itemForward => exact actItemForward_answers
  | remoteReserve => exact actRemoteReserve_answers
  | hndAnswer => exact actHndAnswer_answers
  | remoteRetryExpiry => exact actRemoteRetryExpiry_answers
  | linkItem => exact actLinkItem_answers
  | xctlAbandon => exact actXctlAbandon_answers
  | setlItem => exact actSetlItem_answers
  | hopItem => exact actHopItem_answers
  | hrelItem => exact actHrelItem_answers
  | chcItem => exact actChcItem_answers
  | confReceived => exact actConfReceived_answers
  | confSend => exact actConfSend_answers
  | retrainNotification => exact actRetrainNotification_answers
  | linkActiveAgain => exact actLinkActiveAgain_answers
  | holdMaxExpiry => exact actHoldMaxExpiry_answers
  | linkError => exact actLinkError_answers
  | hingeDownEvent => exact actHingeDownEvent_answers
  | unrchItem => exact actUnrchItem_answers
  | unreachableNotice => exact actUnreachableNotice_answers
  | tsFlitSend => exact actTsFlitSend_answers
  | tsSample => exact actTsSample_answers
  | tsSlewStep => exact actTsSlewStep_answers
  | tsHoldEnd => exact actTsHoldEnd_answers
  | tsLost => exact actTsLost_answers
  | scrubRead => exact actScrubRead_answers
  | uncorrectableWord => exact actUncorrectableWord_answers
  | tmrDisagreement => exact actTmrDisagreement_answers
  | replay => exact actReplay_answers
  | crossbarRetransmit => exact actCrossbarRetransmit_answers
  | logRecordArrival => exact actLogRecordArrival_answers
  | deadboltSample => exact actDeadboltSample_answers
  | deadboltAssert => exact actDeadboltAssert_answers
  | drainEnd => exact actDrainEnd_answers
  | deadboltRelease => exact actDeadboltRelease_answers
  | hangDetect => exact actHangDetect_answers
  | traceEntryStage => exact actTraceEntryStage_answers
  | traceFifoDrop => exact actTraceFifoDrop_answers
  | traceBlockWrite => exact actTraceBlockWrite_answers
  | traceWriteResponse => exact actTraceWriteResponse_answers
  | samplePeriod => exact actSamplePeriod_answers
  | noteWriteResponse => exact actNoteWriteResponse_answers
  | portResetRelease => exact actPortResetRelease_answers
  | issueCopyReread => exact actIssueCopyReread_answers
  | hingeCreditReturn => exact actHingeCreditReturn_answers
  | stallRequest => exact actStallRequest_answers
  -- SEAL, the one command left: its constructor's name is a keyword of Lean and cannot head a case.
  | _ => exact actSeal_answers

/-- A command that its cycle takes acts on the block as it stands (R27, R29). -/
theorem exec_framed {c : Instr} {p : Params} {q : List Instr} {b : Block} {k : Cycle} (ht : inTurn p b k c)
    (hn : NoneDue b) : ∃ d, exec c ⟨p, q, b, k⟩ = .next ⟨p, q, d, (turnOf p b c).mark k⟩ ∧ Framed p (writes c) b d := by
  obtain ⟨d, he, hf⟩ := exec_answers c ⟨p, q, b, k⟩
  rw [sampled_now c p q b k ht hn] at he hf
  exact ⟨d, he, hf⟩

/-- Settles O55: every event is made of operations that write parts of its list alone. -/
theorem commandsWriteOnly : Obligations.CommandsWriteOnly := fun _p _q _b _c _k ht hn =>
  let ⟨d, he, hf⟩ := exec_framed ht hn
  ⟨d, he, hf.only⟩

/-! ## The tables while a command is held, sampled and run -/

/-- The cycles that pass while a command is held keep the tables sound. -/
theorem pass_sound (n : Nat) (s : State) (h : Sound s.params s.block) : Sound s.params (State.pass n s).block := by
  induction n generalizing s with
  | zero => exact h
  | succ n ih => exact ih s.nextCycle (tick_keeps _ _ h)

@[simp] theorem pass_params (n : Nat) (s : State) : (State.pass n s).params = s.params := by
  induction n generalizing s with
  | zero => rfl
  | succ n ih => exact ih _

@[simp] theorem pass_pending (n : Nat) (s : State) : (State.pass n s).pending = s.pending := by
  induction n generalizing s with
  | zero => rfl
  | succ n ih => exact ih _

@[simp] theorem sampled_params (c : Instr) (s : State) : (s.sampled c).params = s.params := pass_params _ s

@[simp] theorem sampled_pending (c : Instr) (s : State) : (s.sampled c).pending = s.pending := pass_pending _ s

theorem sampled_sound (c : Instr) (s : State) (h : Sound s.params s.block) :
    Sound (s.sampled c).params (s.sampled c).block := by
  have hpass : ∀ n, Sound (State.pass n s).params (State.pass n s).block := fun n =>
    (pass_params n s).symm ▸ pass_sound n s h
  exact earlier_keeps _ _ _ (hpass _)

/-- Settles O58: a step is the event of the command in front on the state in which its cycle takes it, or one fclk. -/
theorem soundKept : Obligations.SoundKept := by
  intro s t hs hstep
  obtain ⟨p, pending, b, k⟩ := s
  cases pending with
  | nil =>
    obtain rfl := Host.Outcome.next.inj hstep
    exact tick_keeps _ _ hs
  | cons c rest =>
    obtain ⟨d, he, hf⟩ := exec_answers c ⟨p, rest, b, k⟩
    obtain rfl := Host.Outcome.next.inj (hstep.symm.trans he)
    exact hf.keeps (sampled_sound c ⟨p, rest, b, k⟩ hs)

/-- Settles O53: the step of a queue that is not empty is that arm of `step`. -/
theorem stepRunsFront : Obligations.StepRunsFront := fun _ _ _ _ _ => rfl

/-- Settles O57: a block out of reset lists nothing in any table. -/
theorem soundAtReset : Obligations.SoundAtReset := fun p => Sound.fresh p _ _ _ _

/-- Settles O56: each part of the block out of reset holds its default. -/
theorem resetState : Obligations.ResetState := by
  refine ⟨rfl, rfl, rfl, rfl, rfl, rfl, fun _ _ => rfl, fun _ => rfl, fun _ => rfl, fun _ => rfl, fun _ _ => rfl,
    fun _ _ => rfl, fun _ => rfl, rfl, rfl, rfl, rfl, rfl, rfl⟩

end Sys2Proof.Machine
end

section
/-! PROOFS. Only a reset leaves FAULT (R282): the operations that write the deadbolt leave its state FAULT where it is
FAULT, and every other event leaves the deadbolt, by the frame of all commands. -/

namespace Sys2Proof.Machine

/-- The deadbolt, in FAULT before, is in FAULT after. -/
def FaultStays (b c : Block) : Prop := b.dbolt.state = .fault → c.dbolt.state = .fault

namespace FaultStays

variable {b c d : Block}

theorem refl (b : Block) : FaultStays b b := id

theorem trans (h : FaultStays b c) (k : FaultStays c d) : FaultStays b d := k ∘ h

theorem of_dbolt (h : c.dbolt = b.dbolt) : FaultStays b c := fun hb => (congrArg Dbolt.state h).trans hb

/-- An operation whose frame does not list the deadbolt leaves it. -/
theorem of_only {l : List BlockPart} (h : Only l b c) (hl : decide (BlockPart.dbolt ∈ l) = false) : FaultStays b c :=
  of_dbolt (h .dbolt (of_decide_eq_false hl))

/-- One more operation whose frame does not list the deadbolt. -/
theorem next {l : List BlockPart} (h : Only l c d) (hl : decide (BlockPart.dbolt ∈ l) = false) (hb : FaultStays b c) :
    FaultStays b d :=
  hb.trans (of_only h hl)

theorem when {q : Bool} {f : Block → Block} (hf : ∀ x, FaultStays x (f x)) : FaultStays b (when q f b) := by
  cases q
  · exact refl b
  · exact hf b

theorem forEach {α : Type} {l : List α} {f : α → Block → Block} (hf : ∀ x c, FaultStays c (f x c)) :
    FaultStays b (forEach l f b) := by
  unfold Machine.forEach
  induction l generalizing b with
  | nil => exact refl b
  | cons x l ih => exact (hf x b).trans ih

theorem regWrite {a : Nat} {v : Word32} {need pages : List Nat} {f : Block → Block} (hf : ∀ x, FaultStays x (f x)) :
    FaultStays b (regWrite a v need pages f b) := by
  unfold Machine.regWrite
  split
  · exact trans (of_only (updMgt_only _ _) rfl) ((hf _).trans (of_only (dropHeld_only _ _) rfl))
  · exact of_only (updMgt_only _ _) rfl

end FaultStays

open FaultStays

/-! ## The operations that write the deadbolt -/

theorem updDb_stays {f : Dbolt → Dbolt} {b : Block} (hf : b.dbolt.state = .fault → (f b.dbolt).state = .fault) :
    FaultStays b (updDb f b) := hf

theorem dbStatWrite_stays (v : Word32) (b : Block) : FaultStays b (dbStatWrite v b) := .when fun _ => id

theorem disagreeTick_stays (p : Params) (a : Bool) (b : Block) : FaultStays b (disagreeTick p a b) := by
  unfold disagreeTick
  dsimp only
  split
  · exact .next (logRec_only _ _ _) rfl id
  · exact id

theorem instFault_stays (p : Params) (b : Block) : FaultStays b (instFault p b) := fun h => by
  rwa [instFault, if_pos h]

theorem drainWatch_stays (p : Params) (b : Block) : FaultStays b (drainWatch p b) := by
  unfold drainWatch
  split
  · exact id
  · exact refl b

theorem faultEdge_stays (p : Params) (b : Block) : FaultStays b (faultEdge p b) :=
  .when fun _ => .next (quiesceAll_only _ _) rfl id

/-! ## A write at the management port reaches KP_DBOLT_STAT -/

theorem keeper8_stays (p : Params) (o : Nat) (v : Word32) (b : Block) : FaultStays b (keeper8 p o v b) := by
  have plain : FaultStays b (plainWrite p (.keeper 8) (kA 8 o) v b) := of_only (plainWrite_only _ _ _ _ _) rfl
  unfold keeper8
  split
  · exact dbStatWrite_stays v b
  · exact of_only (hangClear_only _ _) rfl
  · exact plain.trans (.when fun _ => of_only (blkOrder_only _) rfl)
  · exact plain

theorem keeperWrite_stays (p : Params) (q o : Nat) (v : Word32) (b : Block) : FaultStays b (keeperWrite p q o v b) := by
  have plain : ∀ g a, FaultStays b (plainWrite p g a v b) := fun _ _ => of_only (plainWrite_only _ _ _ _ _) rfl
  have multi : ∀ g a, FaultStays b (multiWrite p g a v b) := fun _ _ => of_only (multiWrite_only _ _ _ _ _) rfl
  unfold keeperWrite
  split
  · exact of_only (keeper0_only _ _ _ _) rfl
  · split
    · exact plain _ _
    · exact of_only (ringWrite_only _ _ _ _) rfl
  · exact of_only (tenWrite_only _ _ _ _) rfl
  · exact of_only (pclWrite_only _ _ _ _) rfl
  · exact of_only (govWrite_only _ _ _ _) rfl
  · exact of_only (keeper5_only _ _ _ _) rfl
  · split
    · exact of_only (routeWrite_only _ _ _) rfl
    · split
      · exact multi _ _
      · exact plain _ _
  · split
    · exact of_only (logCtrl_only _ _) rfl
    · split
      · exact of_only (lrCtrl_only _ _) rfl
      · exact plain _ _
  · exact keeper8_stays p o v b
  · split
    · exact of_only (capClear_only _ _) rfl
    · split
      · exact multi _ _
      · exact plain _ _
  · split
    · exact of_only (cntCtrl_only _ _ _) rfl
    · exact refl b

theorem pageWrite_stays (p : Params) (g : Page) (o : Nat) (v : Word32) (b : Block) :
    FaultStays b (pageWrite p g o v b) := by
  cases g with
  | keeper q => exact keeperWrite_stays p q o v b
  | ward w q => exact of_only (wardRegWrite_only _ _ _ _ _ _) rfl
  | bcast q => exact refl b
  | group k q => exact refl b
  | hinge h => exact of_only (hingeRegWrite_only _ _ _ _ _) rfl
  | mirror => exact of_only (pgErr_only _ _ _ _) rfl
  | trace => exact of_only (traceWrite_only _ _ _ _) rfl
  | dump => exact of_only (dumpWrite_only _ _ _ _) rfl
  | tenant t => exact of_only (tenantWrite_only _ _ _ _ _) rfl

theorem oneWrite_stays (p : Params) (g : Page) (a : Nat) (v : Word32) (b : Block) : FaultStays b (oneWrite p g a v b) := by
  unfold oneWrite
  dsimp only
  split
  · exact of_only (holdOne_only _ _ _ _) rfl
  · refine .trans ?_ (of_only (dropHeld_only _ _) rfl)
    split
    · exact of_only (pgErr_only _ _ _ _) rfl
    · exact pageWrite_stays p g _ v b

theorem winWrite_stays (p : Params) (t : WTarget) (q a : Nat) (v : Word32) (b : Block) :
    FaultStays b (winWrite p t q a v b) := by
  unfold winWrite
  split
  · exact of_only (pgErr_only _ _ _ _) rfl
  · exact .forEach fun w c => oneWrite_stays p _ _ v c

theorem regEffect_stays (p : Params) (g : Page) (a : Nat) (v : Word32) (b : Block) :
    FaultStays b (regEffect p g a v b) := by
  unfold regEffect
  dsimp only
  split
  · exact refl b
  · split
    · exact .trans (of_only (plainWrite_only _ _ _ _ _) rfl) (of_only (dropHeld_only _ _) rfl)
    · split
      · exact winWrite_stays p _ _ a v b
      · exact winWrite_stays p _ _ a v b
      · exact oneWrite_stays p g a v b

theorem mgtWrite_stays (p : Params) (a : Nat) (v : Word32) (b : Block) : FaultStays b (mgtWrite p a v b) := by
  have resp : ∀ r, FaultStays b (mgtResp r b) := fun _ => of_only (mgtResp_only _ _) rfl
  unfold mgtWrite
  split
  · exact resp _
  · split
    · exact resp _
    · split
      · exact (resp _).trans (regEffect_stays p _ a v _)
      · exact of_dbolt rfl

theorem mgtAccess_stays (p : Params) (a : Nat) (v : Word32) (strb : BitVec 4) (b : Block) :
    FaultStays b (mgtAccess p a v strb b) := by
  unfold mgtAccess
  split
  · exact of_only (mgtResp_only _ _) rfl
  · exact mgtWrite_stays p a v b

/-- The access that waited for a rescrub is done (R368). -/
theorem replayAccess_stays (p : Params) (b : Block) : FaultStays b (replayAccess p b) := by
  have write : ∀ f a v, FaultStays b (mgtWrite p a v (updMgt f b)) := fun f a v =>
    .trans (of_dbolt (updMgt_dbolt f b)) (mgtWrite_stays p a v _)
  have read : ∀ f a c, FaultStays c (mgtRead p a (updMgt f c)) := fun f _ c =>
    .trans (of_dbolt (updMgt_dbolt f c)) (of_only (mgtRead_only _ _ _) rfl)
  unfold replayAccess
  cases b.mgt.waitW with
  | none =>
    dsimp only
    split
    · exact read _ _ b
    · exact refl b
  | some x =>
    dsimp only
    split
    · exact (write _ _ _).trans (read _ _ _)
    · exact write _ _ _

/-! ## One fclk, and the cycles that pass while a command is held -/

theorem cycleClose_stays (p : Params) (b : Block) : FaultStays b (cycleClose p b) := by
  refine .next (blkCycle_only _ _) rfl (.next (snapCycle_only _) rfl (.next (clearCycle_only _) rfl ?_))
  refine .trans ?_ (FaultStays.forEach fun n c => of_only (countPort_only p n c) rfl)
  refine .next (logCycle_only _) rfl (.next (reportReady_only _ _) rfl (.trans ?_ (drainWatch_stays p _)))
  exact .forEach fun w c => of_only (commitPointAt_only p w c) rfl

theorem cycleEnd_stays (p : Params) (b : Block) : FaultStays b (cycleEnd p b) := by
  refine .trans ?_ (cycleClose_stays p _)
  refine .next (mqCycle_only _ _) rfl (.next (govCycle_only _ _) rfl (.next (deliverDue_only _ _ _) rfl ?_))
  exact .next (selectWaits_only _) rfl (.next (drainExam_only _ _) rfl (of_only (deliverDue_only _ _ _) rfl))

theorem clockEdge_stays (p : Params) (b : Block) : FaultStays b (clockEdge p b) := by
  refine .trans ?_ (FaultStays.when fun _ => of_only (sclkEdge_only _) rfl)
  refine .trans ?_ (FaultStays.when fun _ => of_only (dumpFreeze_only p _) rfl)
  refine .trans ?_ (faultEdge_stays p _)
  exact .next (updClk_only _ _) rfl (.when fun _ => of_only (tclkEdge_only p _) rfl)

theorem tick_stays (p : Params) (b : Block) : FaultStays b (tick p b) := by
  unfold tick
  split
  · exact refl b
  · exact .trans (.when fun x => cycleEnd_stays p x) (clockEdge_stays p _)

theorem pass_stays (n : Nat) (s : State) : FaultStays s.block (State.pass n s).block := by
  induction n generalizing s with
  | zero => exact refl _
  | succ n ih => exact (tick_stays s.params s.block).trans (ih s.nextCycle)

theorem sampled_stays (c : Instr) (s : State) : FaultStays s.block (s.sampled c).block :=
  (pass_stays _ s).trans (of_only (earlier_only _ _ _) rfl)

/-! ## Every command -/

/-- In every state that an outcome of `s` answers the deadbolt is in FAULT if it is in `s`. -/
def KeepsFault (s : State) (o : Outcome) : Prop := ∀ t, o = .next t → FaultStays s.block t.block

theorem run_keepsFault {s : State} {g : Params → Block → Bool} {f : Params → Block → Block}
    (h : ∀ p b, FaultStays b (f p b)) : KeepsFault s (s.run g f) := by
  intro t e
  obtain rfl := Host.Outcome.next.inj e
  split
  · exact h _ _
  · exact refl _

theorem runK_keepsFault {s : State} {f : Params → Block → Block} (h : ∀ p b, FaultStays b (f p b)) :
    KeepsFault s (s.runK f) :=
  run_keepsFault h

theorem runReg_keepsFault {s : State} {f : Params → Block → Block} (h : ∀ p b, FaultStays b (f p b)) :
    KeepsFault s (s.runReg f) :=
  run_keepsFault h

/-- The frame of a command that does not list the deadbolt leaves it. -/
theorem keepsFault_of_writes {c : Instr} {s : State} (hc : decide (BlockPart.dbolt ∈ writes c) = false) :
    KeepsFault (s.sampled c) (exec c s) := by
  intro t e
  obtain ⟨d, he, hf⟩ := exec_answers c s
  obtain rfl := Host.Outcome.next.inj (e.symm.trans he)
  exact of_only hf.only hc

theorem actDeadboltSample_keepsFault {s : State} {a b : Bool} : KeepsFault s (actDeadboltSample a b s) := by
  refine runK_keepsFault fun p x => ?_
  dsimp only
  split
  · exact id
  · exact fun h => disagreeTick_stays p a _ h

/-- In FAULT an assertion is only noted (R282). -/
theorem actDeadboltAssert_keepsFault {s : State} : KeepsFault s (actDeadboltAssert s) := by
  refine runK_keepsFault fun p b hb => ?_
  dsimp only
  split
  · rw [if_neg (by simp [hb])]
    exact hb
  · exact hb

/-- In FAULT the end of the drain leaves FAULT (R282, R296). -/
theorem actDrainEnd_keepsFault {s : State} : KeepsFault s (actDrainEnd s) := by
  refine runK_keepsFault fun p b => ?_
  dsimp only
  split
  · split
    · refine .trans ?_ (FaultStays.when fun _ => .forEach fun h c => of_only (goDown_only p h c) rfl)
      refine .trans ?_ (updDb_stays fun h => if_pos (decide_eq_true h))
      refine .trans (of_only (endAll_only p _ b) rfl) (.forEach fun x c => ?_)
      split
      · exact of_only (logRec_only _ _ _) rfl
      · exact refl c
    · exact refl b
  · exact refl b

theorem actDeadboltRelease_keepsFault {s : State} : KeepsFault s (actDeadboltRelease s) := by
  refine runK_keepsFault fun p b hb => ?_
  split
  · exact if_pos hb
  · exact hb

theorem actTmrDisagreement_keepsFault {s : State} {m : BitVec 3} : KeepsFault s (actTmrDisagreement m s) := by
  refine runK_keepsFault fun p b => .trans ?_ (FaultStays.when fun x => instFault_stays p x)
  exact .forEach fun i c => .next (laneHard_only p i _) rfl (of_only (laneUp_only i c) rfl)

theorem actCrossbarRetransmit_keepsFault {s : State} {u : UnitId} {a : Bool} :
    KeepsFault s (actCrossbarRetransmit u a s) := by
  refine run_keepsFault fun p b => ?_
  dsimp only
  generalize (if a = true then Tbl.get 0 b.ecc.retry (unitNo u) + 1 else 1) = n
  by_cases h3 : 3 ≤ n
  · rw [if_pos h3]
    exact fun h => instFault_stays p _ h
  · rw [if_neg h3]
    split
    · exact fun h => of_only (bump_only _ _ _) rfl h
    · exact id

theorem actRegisterWrite_keepsFault {s : State} {r : RegPort} {a : BitVec 24} {v : Word32} {strb : BitVec 4} :
    KeepsFault s (actRegisterWrite r a v strb s) := by
  cases r with
  | mgt => exact runReg_keepsFault fun p b => mgtAccess_stays p _ v strb b
  | mtp =>
    have hm : ∀ (_ : Params) b, FaultStays b (mtpWrite a.toNat v strb b) := fun _ _ => of_only (mtpWrite_only _ _ _ _) rfl
    exact run_keepsFault (g := fun _ => meterUp) hm

theorem actRwqShadowWrite_keepsFault {s : State} {a : BitVec 24} {v : Word32} :
    KeepsFault s (actRwqShadowWrite a v s) := by
  refine runReg_keepsFault fun p b => ?_
  split
  · exact mgtWrite_stays p _ v b
  · exact refl b

theorem actRescrubDone_keepsFault {s : State} {u : UnitId} : KeepsFault s (actRescrubDone u s) :=
  run_keepsFault fun p b => .trans (of_only (rescrubbed_only p u b) rfl) (replayAccess_stays p _)

theorem actDiscFaultClear_keepsFault {s : State} : KeepsFault s (actDiscFaultClear s) :=
  runReg_keepsFault fun _ _ => .regWrite fun x => dbStatWrite_stays 4 x

/-- Each command but the two resets leaves FAULT: ten write the deadbolt, and the frame of each other one does not. -/
theorem exec_keepsFault {c : Instr} (s : State) (hp : c ≠ .porstNAssert) (hs : c ≠ .srstNAssert) :
    KeepsFault (s.sampled c) (exec c s) := by
  cases c with
  | porstNAssert => exact absurd rfl hp
  | srstNAssert => exact absurd rfl hs
  | rescrubDone => exact actRescrubDone_keepsFault
  | registerWrite => exact actRegisterWrite_keepsFault
  | rwqShadowWrite => exact actRwqShadowWrite_keepsFault
  | discFaultClear => exact actDiscFaultClear_keepsFault
  | tmrDisagreement => exact actTmrDisagreement_keepsFault
  | crossbarRetransmit => exact actCrossbarRetransmit_keepsFault
  | deadboltSample => exact actDeadboltSample_keepsFault
  | deadboltAssert => exact actDeadboltAssert_keepsFault
  | drainEnd => exact actDrainEnd_keepsFault
  | deadboltRelease => exact actDeadboltRelease_keepsFault
  | _ => exact keepsFault_of_writes rfl

/-- Settles O60: a step is an event, which leaves FAULT unless it is the assertion of a reset, or one fclk. -/
theorem faultHeld : Obligations.FaultHeld := by
  intro s t hstep hfault
  obtain ⟨p, pending, b, k⟩ := s
  cases pending with
  | nil =>
    obtain rfl := Host.Outcome.next.inj hstep
    exact .inl (tick_stays p b hfault)
  | cons c rest =>
    by_cases hp : c = .porstNAssert
    · exact .inr (.inl (congrArg some hp))
    · by_cases hs : c = .srstNAssert
      · exact .inr (.inr (congrArg some hs))
      · exact .inl (exec_keepsFault ⟨p, rest, b, k⟩ hp hs t hstep (sampled_stays c ⟨p, rest, b, k⟩ hfault))

end Sys2Proof.Machine
end

section
/-! PROOFS. Every command answers (R27): the count of fclk over one fclk, which says how long a command is held, and the
cycle that takes a held command. -/

namespace Sys2Proof.Machine

/-- The count of fclk is the same in both blocks. -/
def FclkKept (b c : Block) : Prop := c.clk.fclk = b.clk.fclk

namespace FclkKept

variable {b c d : Block}

theorem refl (b : Block) : FclkKept b b := rfl

theorem trans (h : FclkKept b c) (k : FclkKept c d) : FclkKept b d := Eq.trans k h

/-- An operation whose frame does not list the clock leaves it. -/
theorem of_only {l : List BlockPart} (h : Only l b c) (hl : decide (BlockPart.clk ∈ l) = false) : FclkKept b c :=
  congrArg Clk.fclk (h .clk (of_decide_eq_false hl))

/-- One more operation whose frame does not list the clock. -/
theorem next {l : List BlockPart} (h : Only l c d) (hl : decide (BlockPart.clk ∈ l) = false) (hb : FclkKept b c) :
    FclkKept b d :=
  hb.trans (of_only h hl)

/-- An update of the clock's other fields. -/
theorem updClk {f : Clk → Clk} (hf : (f c.clk).fclk = c.clk.fclk) (hb : FclkKept b c) : FclkKept b (updClk f c) :=
  hb.trans hf

theorem when {q : Bool} {f : Block → Block} (hf : ∀ x, FclkKept x (f x)) (hb : FclkKept b c) :
    FclkKept b (when q f c) := by
  cases q
  · exact hb
  · exact hb.trans (hf c)

theorem forEach {α : Type} {l : List α} {f : α → Block → Block} (hf : ∀ a x, FclkKept x (f a x)) (hb : FclkKept b c) :
    FclkKept b (forEach l f c) := by
  unfold Machine.forEach
  induction l generalizing c with
  | nil => exact hb
  | cons x l ih => exact ih (hb.trans (hf x c))

end FclkKept

/-! ## The operations of a cycle's end that write the clock -/

theorem tally_fclk (p : Params) (src : Option Nat) (t : Nat) (f : Tally → Tally) (b : Block) :
    FclkKept b (tally p src t f b) := rfl

theorem gateCheck_fclk (p : Params) (r : Nat) (b : Block) : FclkKept b (gateCheck p r b) := by
  unfold gateCheck
  dsimp only
  split
  · split
    · split
      · exact .of_only (toRun_only _ _ _) rfl
      · refine .next (trRing_only _ _ _ _ _ _ _) rfl ?_
        refine FclkKept.when (fun x => FclkKept.refl x) ?_
        refine .next (bump_only _ _ _) rfl (.trans ?_ (tally_fclk _ _ _ _ _))
        exact .next (logRec_only _ _ _) rfl (.of_only (updRing_only _ _ _) rfl)
    · exact .refl b
  · exact .refl b

theorem ringSettle_fclk (p : Params) (r : Nat) (subid : Word32) (step : Option Nat) (st : TState) (status : Status)
    (discard : Bool) (b : Block) : FclkKept b (ringSettle p r subid step st status discard b) := by
  unfold ringSettle
  dsimp only
  refine .trans ?_ (gateCheck_fclk _ _ _)
  exact .next (subCheck_only _ _ _ _) rfl (.next (stepAdvance_only _ _ _ _) rfl (.next (progress_only _ _) rfl
    (.next (updRing_only _ _ _) rfl (.of_only (updSub_only _ _ _ _) rfl))))

theorem settleRing_fclk (p : Params) (h : Nat) (e : Entry) (st : TState) (status : Status) (b : Block) :
    FclkKept b (settleRing p h e st status b) := by
  unfold settleRing
  split
  · split
    · exact .of_only (sendFor_only _ _ _) rfl
    · exact .of_only (updEnt_only _ _ _) rfl
  · split
    · exact .trans (.of_only (updEnt_only _ _ _) rfl) (ringSettle_fclk _ _ _ _ _ _ _ _)
    · exact .of_only (xsend_only _ _ _ _) rfl

theorem settleTally_fclk (p : Params) (h : Nat) (e : Entry) (busy qwait : Nat) (done : Bool) (b : Block) :
    FclkKept b (settleTally p h e busy qwait done b) :=
  .next (bump_only _ _ _) rfl (.next (bump_only _ _ _) rfl (.next (bump_only _ _ _) rfl (tally_fclk _ _ _ _ _)))

theorem settle_fclk (p : Params) (h : Nat) (st : TState) (status : Status) (root : Option Word32) (rel : Bool)
    (run : Option (Nat × Nat)) (stats : Option (BitVec 256)) (aux : Word32) (b : Block) :
    FclkKept b (settle p h st status root rel run stats aux b) := by
  unfold settle
  dsimp only
  refine .trans ?_ (settleRing_fclk _ _ _ _ _ _)
  refine .next (closeOwned_only _ _) rfl (.when (fun _ => .of_only (settleWatch_only _ _ _ _ _) rfl) ?_)
  generalize hc : unstage p h _ = c
  have hpre : FclkKept b c := by
    rw [← hc]
    refine .next (unstage_only _ _ _) rfl ?_
    refine .when (fun _ => .of_only (settleSignals_only _ _ _ _ _) rfl) (.when (fun _ => .of_only (logRec_only _ _ _) rfl) ?_)
    refine .next (trTask_only _ _ _ _ _ _ _) rfl (.updClk rfl (.when (fun _ => .of_only (refetch_only _ _ _) rfl) ?_))
    exact .when (fun _ => .of_only (bump_only _ _ _) rfl) (.next (bump_only _ _ _) rfl (.of_only (updEnt_only _ _ _) rfl))
  cases run with
  | none => exact hpre
  | some x => exact .trans (.updClk rfl hpre) (settleTally_fclk _ _ _ _ _ _ _)

theorem guardStep_fclk (p : Params) (h : Nat) (b : Block) : FclkKept b (guardStep p h b) := by
  unfold guardStep
  dsimp only
  split
  · split
    · exact .next (makeReady_only _ _ _) rfl (.next (updEnt_only _ _ _) rfl (.of_only (claimSlots_only _ _ _) rfl))
    · exact .next (updEnt_only _ _ _) rfl rfl
  · split
    · exact .next (makeReady_only _ _ _) rfl (.of_only (updEnt_only _ _ _) rfl)
    · exact .of_only (makeReady_only _ _ _) rfl

theorem examine_fclk (p : Params) (h : Nat) (b : Block) : FclkKept b (examine p h b) := by
  unfold examine
  dsimp only
  split
  · split
    · exact settle_fclk _ _ _ _ _ _ _ _ _ _
    · split
      · exact settle_fclk _ _ _ _ _ _ _ _ _ _
      · exact .trans (.of_only (updEnt_only _ _ _) rfl) (guardStep_fclk _ _ _)
  · exact .refl b

theorem guardPassAll_fclk (p : Params) (w : Nat) (b : Block) : FclkKept b (guardPassAll p w b) :=
  .forEach (fun h _ => .when (fun x => guardStep_fclk p h x) (.refl _)) (.refl b)

theorem drainExam_fclk (p : Params) (b : Block) : FclkKept b (drainExam p b) := by
  refine .forEach (fun h x => examine_fclk p h x) (.forEach (fun w x => guardPassAll_fclk p w x) (.updClk rfl ?_))
  exact .forEach (fun _ x => .of_only (slotApply_only _ x) rfl) (.updClk rfl (.refl b))

theorem clearCycle_fclk (b : Block) : FclkKept b (clearCycle b) := by
  refine .updClk rfl (.forEach (fun a x => ?_) (.refl b))
  split
  · exact .of_only (zeroKeeper_only x) rfl
  · exact .of_only (clearBank_only a x) rfl

/-! ## One fclk -/

theorem cycleEnd_fclk (p : Params) (b : Block) : FclkKept b (cycleEnd p b) := by
  refine .next (blkCycle_only _ _) rfl (.next (snapCycle_only _) rfl (.trans ?_ (clearCycle_fclk _)))
  refine .forEach (fun n x => .of_only (countPort_only p n x) rfl) (.next (logCycle_only _) rfl ?_)
  refine .next (reportReady_only _ _) rfl (.next (drainWatch_only _ _) rfl ?_)
  refine .forEach (fun w x => .of_only (commitPointAt_only p w x) rfl) (.next (mqCycle_only _ _) rfl ?_)
  refine .next (govCycle_only _ _) rfl (.next (deliverDue_only _ _ _) rfl (.next (selectWaits_only _) rfl ?_))
  exact .trans (.of_only (deliverDue_only _ _ _) rfl) (drainExam_fclk _ _)

/-- One fclk counts one. -/
theorem tick_fclk (p : Params) {b : Block} (hb : b.boot.porst = false) : (tick p b).clk.fclk = b.clk.fclk + 1 := by
  have hend : FclkKept b (when (keeperUp b) (cycleEnd p) b) := .when (fun x => cycleEnd_fclk p x) (.refl b)
  have htclk : FclkKept b (when (decide ((when (keeperUp b) (cycleEnd p) b).clk.fclk % 2 = 1)) (tclkEdge p)
      (when (keeperUp b) (cycleEnd p) b)) := by
    refine .when (fun x => .forEach (fun r y => .of_only (hangTick_only p r y) rfl) ?_) hend
    exact .when (fun _ => rfl) (.refl x)
  have hedge : ∀ x, FclkKept (updClk (fun k => { k with fclk := k.fclk + 1 }) x)
      (when (decide ((when (faultEdge p (updClk (fun k => { k with fclk := k.fclk + 1 }) x)).dump.going (dumpFreeze p)
          (faultEdge p (updClk (fun k => { k with fclk := k.fclk + 1 }) x))).clk.fclk % 16 = 0)
        && meterUp (when (faultEdge p (updClk (fun k => { k with fclk := k.fclk + 1 }) x)).dump.going (dumpFreeze p)
          (faultEdge p (updClk (fun k => { k with fclk := k.fclk + 1 }) x)))) sclkEdge
        (when (faultEdge p (updClk (fun k => { k with fclk := k.fclk + 1 }) x)).dump.going (dumpFreeze p)
          (faultEdge p (updClk (fun k => { k with fclk := k.fclk + 1 }) x)))) := fun x =>
    .when (fun y => .of_only (sclkEdge_only y) rfl) (.when (fun y => .of_only (dumpFreeze_only p y) rfl)
      (.of_only (faultEdge_only p _) rfl))
  rw [tick, hb, if_neg Bool.false_ne_true]
  exact Eq.trans (hedge _) (congrArg (· + 1) htclk)

/-! ## A command held for one more cycle (R27) -/

/-- A command acts on its sampled state alone. -/
theorem exec_congr {c : Instr} {s t : State} (hs : s.sampled c = t.sampled c) : exec c s = exec c t := by
  cases c with
  | porstNAssert => exact congrArg actPorstNAssert hs
  | porstNRelease => exact congrArg actPorstNRelease hs
  | srstNAssert => exact congrArg actSrstNAssert hs
  | srstNRelease => exact congrArg actSrstNRelease hs
  | mtrRstN => exact congrArg actMtrRstN hs
  | domainResetRelease d => exact congrArg (actDomainResetRelease d) hs
  | bootScrubDone u => exact congrArg (actBootScrubDone u) hs
  | selfTestDone u fatal corrected => exact congrArg (actSelfTestDone u fatal corrected) hs
  | rescrubDone u => exact congrArg (actRescrubDone u) hs
  | tmrCheck bad => exact congrArg (actTmrCheck bad) hs
  | linkUp h => exact congrArg (actLinkUp h) hs
  | linkUpTimeout h => exact congrArg (actLinkUpTimeout h) hs
  | lock => exact congrArg actLock hs
  | fwfail => exact congrArg actFwfail hs
  | registerWrite port addr data strb => exact congrArg (actRegisterWrite port addr data strb) hs
  | rwqShadowWrite addr data => exact congrArg (actRwqShadowWrite addr data) hs
  | commitPoint w => exact congrArg (actCommitPoint w) hs
  | commitForce => exact congrArg actCommitForce hs
  | windowRead addr => exact congrArg (actWindowRead addr) hs
  | multiwordReadLatch addr => exact congrArg (actMultiwordReadLatch addr) hs
  | eventRingRead addr => exact congrArg (actEventRingRead addr) hs
  | ringDescriptorWrite k data => exact congrArg (actRingDescriptorWrite k data) hs
  | ringEnable => exact congrArg actRingEnable hs
  | ringDisable => exact congrArg actRingDisable hs
  | tenantCfgWrite data => exact congrArg (actTenantCfgWrite data) hs
  | haspAssign data => exact congrArg (actHaspAssign data) hs
  | haspForce => exact congrArg actHaspForce hs
  | preemptRequest ring queue => exact congrArg (actPreemptRequest ring queue) hs
  | preemptResume ring => exact congrArg (actPreemptResume ring) hs
  | keyPoolCfgWrite tgt k data => exact congrArg (actKeyPoolCfgWrite tgt k data) hs
  | keyPoolReset tgt => exact congrArg (actKeyPoolReset tgt) hs
  | mqCfgWrite tgt k data => exact congrArg (actMqCfgWrite tgt k data) hs
  | mqFlush tgt => exact congrArg (actMqFlush tgt) hs
  | flushDiscard w q => exact congrArg (actFlushDiscard w q) hs
  | mqPush tgt be => exact congrArg (actMqPush tgt be) hs
  | mqPop tgt => exact congrArg (actMqPop tgt) hs
  | mqRdataAdvance w => exact congrArg (actMqRdataAdvance w) hs
  | logPop => exact congrArg actLogPop hs
  | logReinit => exact congrArg actLogReinit hs
  | lrClear => exact congrArg actLrClear hs
  | counterClear tgt => exact congrArg (actCounterClear tgt) hs
  | counterSnapshotOrder => exact congrArg actCounterSnapshotOrder hs
  | counterSnapshot => exact congrArg actCounterSnapshot hs
  | blockedOnSnapOrder => exact congrArg actBlockedOnSnapOrder hs
  | blockedOnSnapshot => exact congrArg actBlockedOnSnapshot hs
  | blockedOnDone => exact congrArg actBlockedOnDone hs
  | dumpGo => exact congrArg actDumpGo hs
  | dumpSnapshotTimeout port => exact congrArg (actDumpSnapshotTimeout port) hs
  | dumpDone => exact congrArg actDumpDone hs
  | traceEnable => exact congrArg actTraceEnable hs
  | traceDisable => exact congrArg actTraceDisable hs
  | traceTrigWrite => exact congrArg actTraceTrigWrite hs
  | hingeDownWrite h => exact congrArg (actHingeDownWrite h) hs
  | hingeRearm h => exact congrArg (actHingeRearm h) hs
  | tsUnlock h => exact congrArg (actTsUnlock h) hs
  | discFaultClear => exact congrArg actDiscFaultClear hs
  | captureClear => exact congrArg actCaptureClear hs
  | tnDoorbell t tslot wptr => exact congrArg (actTnDoorbell t tslot wptr) hs
  | ringCancelOldest t tslot => exact congrArg (actRingCancelOldest t tslot) hs
  | ringCancelAll t tslot => exact congrArg (actRingCancelAll t tslot) hs
  | ringResume t tslot => exact congrArg (actRingResume t tslot) hs
  | meterRun => exact congrArg actMeterRun hs
  | meterStop => exact congrArg actMeterStop hs
  | meterConfigWrite c => exact congrArg (actMeterConfigWrite c) hs
  | meterRecPop => exact congrArg actMeterRecPop hs
  | tallySlotSample health => exact congrArg (actTallySlotSample health) hs
  | periodDue => exact congrArg actPeriodDue hs
  | periodClose => exact congrArg actPeriodClose hs
  | recordForm bad => exact congrArg (actRecordForm bad) hs
  | keyStoreAck mac err => exact congrArg (actKeyStoreAck mac err) hs
  | keyStoreTimeout => exact congrArg actKeyStoreTimeout hs
  | signRetry => exact congrArg actSignRetry hs
  | issueCommit port issok => exact congrArg (actIssueCommit port issok) hs
  | issDescriptorAccepted port => exact congrArg (actIssDescriptorAccepted port) hs
  | preloadStart port => exact congrArg (actPreloadStart port) hs
  | argumentReadResponse port resp beats => exact congrArg (actArgumentReadResponse port resp beats) hs
  | preloadComplete port => exact congrArg (actPreloadComplete port) hs
  | canAck port hdl held => exact congrArg (actCanAck port hdl held) hs
  | cmpRecord port rec stats eoc => exact congrArg (actCmpRecord port rec stats eoc) hs
  | opdDelivery w => exact congrArg (actOpdDelivery w) hs
  | landingCreditReturn port n => exact congrArg (actLandingCreditReturn port n) hs
  | statusBeatAccepted port => exact congrArg (actStatusBeatAccepted port) hs
  | send port hdr flits => exact congrArg (actSend port hdr flits) hs
  | contrib port hdr flits => exact congrArg (actContrib port hdr flits) hs
  | openReq port hdr => exact congrArg (actOpenReq port hdr) hs
  | closeReq port hdr => exact congrArg (actCloseReq port hdr) hs
  | hsig port hdr => exact congrArg (actHsig port hdr) hs
  | keyreq port hdr => exact congrArg (actKeyreq port hdr) hs
  | returnUnused port hdr => exact congrArg (actReturnUnused port hdr) hs
  | doorbell port hdr => exact congrArg (actDoorbell port hdr) hs
  | slotwr port hdr => exact congrArg (actSlotwr port hdr) hs
  | badMsgRequest port hdr beats => exact congrArg (actBadMsgRequest port hdr beats) hs
  | returnKret port data => exact congrArg (actReturnKret port data) hs
  | ctlOnlineChange port on lbflits tdm => exact congrArg (actCtlOnlineChange port on lbflits tdm) hs
  | ctlSnapshotReceived port beats => exact congrArg (actCtlSnapshotReceived port beats) hs
  | snapshotTimeout port => exact congrArg (actSnapshotTimeout port) hs
  | portReset port => exact congrArg (actPortReset port) hs
  | decrement word src eoc => exact congrArg (actDecrement word src eoc) hs
  | failureNotice word root src eoc => exact congrArg (actFailureNotice word root src eoc) hs
  | cancelNotice word src eoc => exact congrArg (actCancelNotice word src eoc) hs
  | guardWaitPass w => exact congrArg (actGuardWaitPass w) hs
  | settlementNotice kind word eoc => exact congrArg (actSettlementNotice kind word eoc) hs
  | issueProxyNotice kind word => exact congrArg (actIssueProxyNotice kind word) hs
  | successorDelivery handle => exact congrArg (actSuccessorDelivery handle) hs
  | entryFree handle => exact congrArg (actEntryFree handle) hs
  | quarantineEnd handle => exact congrArg (actQuarantineEnd handle) hs
  | edgeRefetchDone handle => exact congrArg (actEdgeRefetchDone handle) hs
  | taskClassTimeout handle => exact congrArg (actTaskClassTimeout handle) hs
  | arbiterForward w => exact congrArg (actArbiterForward w) hs
  | placementRequest handle => exact congrArg (actPlacementRequest handle) hs
  | placementDecision handle => exact congrArg (actPlacementDecision handle) hs
  | waitingListOffer => exact congrArg actWaitingListOffer hs
  | stagingRequest handle => exact congrArg (actStagingRequest handle) hs
  | stagingNoPort handle => exact congrArg (actStagingNoPort handle) hs
  | placementDecisionArrival handle => exact congrArg (actPlacementDecisionArrival handle) hs
  | stagedTaskPlaced handle => exact congrArg (actStagedTaskPlaced handle) hs
  | governorRequest handle => exact congrArg (actGovernorRequest handle) hs
  | governorQueueGrant dom => exact congrArg (actGovernorQueueGrant dom) hs
  | governorWindowStart throttle => exact congrArg (actGovernorWindowStart throttle) hs
  | portRelease port handle => exact congrArg (actPortRelease port handle) hs
  | taskCancel handle => exact congrArg (actTaskCancel handle) hs
  | withdrawal handle => exact congrArg (actWithdrawal handle) hs
  | unloadDirective handle => exact congrArg (actUnloadDirective handle) hs
  | epochMint => exact congrArg actEpochMint hs
  | tokenArrival w => exact congrArg (actTokenArrival w) hs
  | ringFetch w => exact congrArg (actRingFetch w) hs
  | ringFetchResponse ring kind resp rec => exact congrArg (actRingFetchResponse ring kind resp rec) hs
  | ringRepoll ring => exact congrArg (actRingRepoll ring) hs
  | recordAccept ring rec => exact congrArg (actRecordAccept ring rec) hs
  | waitsubRelease ring => exact congrArg (actWaitsubRelease ring) hs
  | segmentHeader ring hdr body => exact congrArg (actSegmentHeader ring hdr body) hs
  | graphPass1 ring => exact congrArg (actGraphPass1 ring) hs
  | fanListReadResponse ring addr resp idx => exact congrArg (actFanListReadResponse ring addr resp idx) hs
  | operandReadResponse ring addr resp value => exact congrArg (actOperandReadResponse ring addr resp value) hs
  | graphPass2 ring => exact congrArg (actGraphPass2 ring) hs
  | entryQueueAdmit ring => exact congrArg (actEntryQueueAdmit ring) hs
  | graphPass3 ring => exact congrArg (actGraphPass3 ring) hs
  | aheadRelease ring => exact congrArg (actAheadRelease ring) hs
  | cond ring rec => exact congrArg (actCond ring rec) hs
  | loop ring rec => exact congrArg (actLoop ring rec) hs
  | endloop ring rec => exact congrArg (actEndloop ring rec) hs
  | stepEnd ring rec => exact congrArg (actStepEnd ring rec) hs
  | yield ring rec => exact congrArg (actYield ring rec) hs
  | fence ring rec => exact congrArg (actFence ring rec) hs
  | fenceRelease ring => exact congrArg (actFenceRelease ring) hs
  | indirect ring rec => exact congrArg (actIndirect ring rec) hs
  | setSlot ring rec => exact congrArg (actSetSlot ring rec) hs
  | note ring rec => exact congrArg (actNote ring rec) hs
  | mark ring rec => exact congrArg (actMark ring rec) hs
  | nop ring rec => exact congrArg (actNop ring rec) hs
  | haspSignal ring rec => exact congrArg (actHaspSignal ring rec) hs
  | haspReset ring rec => exact congrArg (actHaspReset ring rec) hs
  | haspWait ring rec => exact congrArg (actHaspWait ring rec) hs
  | openCh ring rec => exact congrArg (actOpenCh ring rec) hs
  | closeCh ring rec => exact congrArg (actCloseCh ring rec) hs
  | commandFaultNotice ring => exact congrArg (actCommandFaultNotice ring) hs
  | ringTimeout ring => exact congrArg (actRingTimeout ring) hs
  | stepTimeout ring => exact congrArg (actStepTimeout ring) hs
  | statusBlockWriteResponse ring subid resp => exact congrArg (actStatusBlockWriteResponse ring subid resp) hs
  | digestWriteResponse ring subid resp => exact congrArg (actDigestWriteResponse ring subid resp) hs
  | messageArrival key seq it => exact congrArg (actMessageArrival key seq it) hs
  | nackReturn key seq it => exact congrArg (actNackReturn key seq it) hs
  | answerReturn port it => exact congrArg (actAnswerReturn port it) hs
  | channelAllocate => exact congrArg actChannelAllocate hs
  | bindNotice key => exact congrArg (actBindNotice key) hs
  | channelCloseApply key place => exact congrArg (actChannelCloseApply key place) hs
  | channelIdFree ch => exact congrArg (actChannelIdFree ch) hs
  | stormNotice ch => exact congrArg (actStormNotice ch) hs
  | partArrival qid inst port it => exact congrArg (actPartArrival qid inst port it) hs
  | partApply w => exact congrArg (actPartApply w) hs
  | drainConvert w q => exact congrArg (actDrainConvert w q) hs
  | drainWriteResponse w q resp => exact congrArg (actDrainWriteResponse w q resp) hs
  | tearNotice qid inst port => exact congrArg (actTearNotice qid inst port) hs
  | queueNumberFree w q => exact congrArg (actQueueNumberFree w q) hs
  | signal hasp inc src => exact congrArg (actSignal hasp inc src) hs
  | waitRegistration port => exact congrArg (actWaitRegistration port) hs
  | waitRelease => exact congrArg actWaitRelease hs
  | taskFormRelease port => exact congrArg (actTaskFormRelease port) hs
  | keyRequestArrival dport reqport => exact congrArg (actKeyRequestArrival dport reqport) hs
  | keyReturn dport pool gseq => exact congrArg (actKeyReturn dport pool gseq) hs
  | keyTimeout dport pool idx => exact congrArg (actKeyTimeout dport pool idx) hs
  | autoPreemptTrigger => exact congrArg actAutoPreemptTrigger hs
  | discardNotice w ring => exact congrArg (actDiscardNotice w ring) hs
  | autoResume => exact congrArg actAutoResume hs
  | helloReceived h hinst => exact congrArg (actHelloReceived h hinst) hs
  | itemForward h slots => exact congrArg (actItemForward h slots) hs
  | remoteReserve h req => exact congrArg (actRemoteReserve h req) hs
  | hndAnswer ring via ans => exact congrArg (actHndAnswer ring via ans) hs
  | remoteRetryExpiry ring => exact congrArg (actRemoteRetryExpiry ring) hs
  | linkItem via bank idx word => exact congrArg (actLinkItem via bank idx word) hs
  | xctlAbandon via bank => exact congrArg (actXctlAbandon via bank) hs
  | setlItem via ring word status => exact congrArg (actSetlItem via ring word status) hs
  | hopItem src tenant hasp op value tag => exact congrArg (actHopItem (src.via tenant) hasp op value tag) hs
  | hrelItem it => exact congrArg (actHrelItem it.1 it.2) hs
  | chcItem src tenant op ch endp port => exact congrArg (actChcItem (src.via tenant) op ch endp port) hs
  | confReceived h iseq => exact congrArg (actConfReceived h iseq) hs
  | confSend h => exact congrArg (actConfSend h) hs
  | retrainNotification h => exact congrArg (actRetrainNotification h) hs
  | linkActiveAgain h => exact congrArg (actLinkActiveAgain h) hs
  | holdMaxExpiry h => exact congrArg (actHoldMaxExpiry h) hs
  | linkError h => exact congrArg (actLinkError h) hs
  | hingeDownEvent h => exact congrArg (actHingeDownEvent h) hs
  | unrchItem h mask reach => exact congrArg (actUnrchItem h mask reach) hs
  | unreachableNotice w mask => exact congrArg (actUnreachableNotice w mask) hs
  | tsFlitSend h => exact congrArg (actTsFlitSend h) hs
  | tsSample h tsval => exact congrArg (actTsSample h tsval) hs
  | tsSlewStep => exact congrArg actTsSlewStep hs
  | tsHoldEnd => exact congrArg actTsHoldEnd hs
  | tsLost h => exact congrArg (actTsLost h) hs
  | scrubRead u table word corrected => exact congrArg (actScrubRead u table word corrected) hs
  | uncorrectableWord u table idx obj => exact congrArg (actUncorrectableWord u table idx obj) hs
  | tmrDisagreement lanes => exact congrArg (actTmrDisagreement lanes) hs
  | replay u => exact congrArg (actReplay u) hs
  | crossbarRetransmit u again => exact congrArg (actCrossbarRetransmit u again) hs
  | logRecordArrival u => exact congrArg (actLogRecordArrival u) hs
  | deadboltSample a b => exact congrArg (actDeadboltSample a b) hs
  | deadboltAssert => exact congrArg actDeadboltAssert hs
  | drainEnd => exact congrArg actDrainEnd hs
  | deadboltRelease => exact congrArg actDeadboltRelease hs
  | hangDetect ring => exact congrArg (actHangDetect ring) hs
  | traceEntryStage => exact congrArg actTraceEntryStage hs
  | traceFifoDrop u => exact congrArg (actTraceFifoDrop u) hs
  | traceBlockWrite => exact congrArg actTraceBlockWrite hs
  | traceWriteResponse resp => exact congrArg (actTraceWriteResponse resp) hs
  | samplePeriod w => exact congrArg (actSamplePeriod w) hs
  | noteWriteResponse ring subid resp => exact congrArg (actNoteWriteResponse ring subid resp) hs
  | portResetRelease port => exact congrArg (actPortResetRelease port) hs
  | issueCopyReread port handle => exact congrArg (actIssueCopyReread port handle) hs
  | hingeCreditReturn h credO credA => exact congrArg (actHingeCreditReturn h credO credA) hs
  | stallRequest h => exact congrArg (actStallRequest h) hs
  | _ w ring seg src eoc => exact congrArg (actSeal w ring seg src eoc) hs

/-- The clock of a command does not depend on the block. -/
theorem turnOf_gate (p : Params) (b d : Block) (c : Instr) : (turnOf p b c).gate = (turnOf p d c).gate := by
  have hreg : ∀ (x : Block) a v, (writeTurn p x a v).gate = .mgtWrite := by
    intro x a v
    unfold writeTurn
    split <;> split <;> first | rfl | (split <;> rfl)
  cases c with
  | registerWrite w addr data strb =>
    cases w with
    | mgt => exact (hreg b _ _).trans (hreg d _ _).symm
    | mtp => rfl
  | rwqShadowWrite => exact (hreg b _ _).trans (hreg d _ _).symm
  | multiwordReadLatch addr => obtain ⟨_ | _, _⟩ := addr <;> rfl
  | counterClear tgt => cases tgt <;> rfl
  | settlementNotice kind => cases kind <;> rfl
  | ringFetchResponse _ _ resp => cases resp <;> rfl
  | messageArrival _ _ it => cases it <;> rfl
  | nackReturn _ _ it => cases it <;> rfl
  | answerReturn _ it => cases it <;> rfl
  | partArrival _ _ _ it => cases it <;> rfl
  | drainWriteResponse w q resp =>
    have hd : ∀ x, (turnOf p x (.drainWriteResponse w q resp)).gate = .fclk := fun x =>
      (apply_ite Turn.gate (drainEnds x w q = true) _ _).trans (ite_self _)
    exact (hd b).trans (hd d).symm
  | chcItem _ _ op => cases op <;> rfl
  | _ => rfl

/-- A fresh cycle takes a command exactly where an edge of the command's clock falls. -/
theorem inTurn_fresh_iff {p : Params} {b : Block} (c : Instr) (hb : b.boot.porst = false) :
    inTurn p b {} c = true ↔ b.clk.fclk % (turnOf p b c).gate.phase.1 = (turnOf p b c).gate.phase.2 := by
  refine ⟨fun h => ?_, inTurn_fresh p b c⟩
  simp only [inTurn, hb, Bool.false_or, Turn.fits, Gate.opens, Bool.and_eq_true, decide_eq_true_eq] at h
  exact h.1.1.1.1

/-- The fclk for which a command is held in a fresh cycle. -/
theorem heldFor_fresh {p : Params} {b : Block} (c : Instr) (hb : b.boot.porst = false) (g : Gate)
    (hg : (turnOf p b c).gate = g) :
    heldFor p b {} c = if b.clk.fclk % g.phase.1 = g.phase.2 then 0 else g.phase.1 - (b.clk.fclk + g.phase.1 - g.phase.2) % g.phase.1 := by
  unfold heldFor
  simp only [inTurn_fresh_iff c hb, hg]

/-- A command held in a cycle is held for one fclk fewer from the next cycle on. -/
theorem heldFor_next {p : Params} {b : Block} {k : Cycle} {c : Instr} (h : inTurn p b k c = false) :
    heldFor p b k c = heldFor p (tick p b) {} c + 1 := by
  have hb : b.boot.porst = false := (Bool.or_eq_false_iff.mp h).1
  have hboot : (tick p b).boot.porst = false := congrArg Boot.porst ((tick_only p b).boot rfl) |>.trans hb
  rw [heldFor_fresh c hboot _ (turnOf_gate p _ b c), tick_fclk p hb, heldFor, h, if_neg Bool.false_ne_true]
  generalize (turnOf p b c).gate = g
  by_cases he : (b.clk.fclk + 1) % g.phase.1 = g.phase.2
  · rw [if_pos he]
    cases g <;> simp only [Gate.phase] at he ⊢ <;> omega
  · rw [if_neg he]
    cases g <;> simp only [Gate.phase] at he ⊢ <;> omega

/-- What a command that the cycle under way does not take acts on is what it acts on from the next cycle. -/
theorem sampled_nextCycle {s : State} {c : Instr} (h : inTurn s.params s.block s.cycle c = false) :
    s.sampled c = s.nextCycle.sampled c := by
  have hp : s.pass (heldFor s.params s.block s.cycle c) = s.nextCycle.pass (heldFor s.params s.nextCycle.block {} c) :=
    congrArg (fun n => s.pass n) (heldFor_next h)
  unfold State.sampled
  rw [hp]
  rfl

/-- Settles O54: every event answers; a held command is held for one fclk fewer after a tick; a tick writes its list. -/
theorem everyCommandAnswers : Obligations.EveryCommandAnswers := by
  refine ⟨fun p q b k c => ?_, fun p q b k c h => exec_congr (sampled_nextCycle h), fun p b k => ⟨_, rfl, tick_only p b⟩⟩
  obtain ⟨d, he, -⟩ := exec_answers c ⟨p, q, b, k⟩
  rw [sampled_params, sampled_pending] at he
  exact ⟨d, _, he⟩

end Sys2Proof.Machine
end

section
/-! PROOFS. The reset pins, the stages of a start, LOCK and FWFAIL (R376 to R389). -/

namespace Sys2Proof.Machine

/-- A command that acts in every state has its outcome on the block as it stands. -/
theorem takes_of_on {c : Instr} {p : Params} {q : List Instr} {b : Block} {Q : Block → Prop} {f : Params → Block → Block}
    (he : ∀ s, exec c s = .next ((s.sampled c).onBlock f)) (hQ : Q (f p b)) : Takes c p q b Q := fun k ht hn =>
  ⟨f p b, (he _).trans (by rw [sampled_now c p q b k ht hn]; rfl), hQ⟩

/-- A command that acts where `g` holds has the outcome of `f` there. -/
theorem takes_run {c : Instr} {p : Params} {q : List Instr} {b : Block} {Q : Block → Prop} {g : Params → Block → Bool}
    {f : Params → Block → Block} (act : State → Outcome) (he : ∀ s, exec c s = act (s.sampled c)) (ha : ∀ s, act s = s.run g f)
    (hg : g p b = true) (hQ : Q (f p b)) : Takes c p q b Q :=
  takes_of_run (fun s => (he s).trans (ha _)) hg hQ

/-- An event of the Keeper while the Keeper takes events. -/
theorem takes_runK {c : Instr} {p : Params} {q : List Instr} {b : Block} {Q : Block → Prop} {f : Params → Block → Block}
    (act : State → Outcome) (he : ∀ s, exec c s = act (s.sampled c)) (ha : ∀ s, act s = s.runK f) (hu : keeperUp b = true)
    (hQ : Q (f p b)) : Takes c p q b Q :=
  takes_run act he ha hu hQ

/-- An event of a Ward that is up. -/
theorem takes_runW {c : Instr} {p : Params} {q : List Instr} {b : Block} {Q : Block → Prop} {w : Nat}
    {f : Params → Block → Block} (act : State → Outcome) (he : ∀ s, exec c s = act (s.sampled c))
    (ha : ∀ s, act s = s.runW w f) (hu : wardUp p b w = true) (hQ : Q (f p b)) : Takes c p q b Q :=
  takes_run act he ha hu hQ

/-- An event of a Hinge that is up. -/
theorem takes_runH {c : Instr} {p : Params} {q : List Instr} {b : Block} {Q : Block → Prop} {h : Nat}
    {f : Params → Block → Block} (act : State → Outcome) (he : ∀ s, exec c s = act (s.sampled c))
    (ha : ∀ s, act s = s.runH h f) (hu : hingeUp p b h = true) (hQ : Q (f p b)) : Takes c p q b Q :=
  takes_run act he ha hu hQ

/-- An event of the meter while it is up. -/
theorem takes_runM {c : Instr} {p : Params} {q : List Instr} {b : Block} {Q : Block → Prop} {f : Params → Block → Block}
    (act : State → Outcome) (he : ∀ s, exec c s = act (s.sampled c)) (ha : ∀ s, act s = s.runM f) (hu : meterUp b = true)
    (hQ : Q (f p b)) : Takes c p q b Q :=
  takes_run act he ha hu hQ

/-- A register write while the management port accepts writes. -/
theorem takes_runReg {c : Instr} {p : Params} {q : List Instr} {b : Block} {Q : Block → Prop} {f : Params → Block → Block}
    (act : State → Outcome) (he : ∀ s, exec c s = act (s.sampled c)) (ha : ∀ s, act s = s.runReg f) (hf : mgtFree b = true)
    (hQ : Q (f p b)) : Takes c p q b Q :=
  takes_run act he ha hf hQ

theorem Takes.mono {c : Instr} {p : Params} {q : List Instr} {b : Block} {Q R : Block → Prop} (h : Takes c p q b Q)
    (hQ : ∀ d, Q d → R d) : Takes c p q b R := fun k ht hn =>
  let ⟨d, he, hd⟩ := h k ht hn
  ⟨d, he, hQ d hd⟩

/-! ## The reset pins -/

/-- The fourth attempt begins in minimal mode with every Ward but Ward 0 fenced (R387). -/
theorem beginAttempt_boot_of_eq {p : Params} {b : Block} (h : b.boot.attempts = 3) :
    (beginAttempt p b).boot =
      { b.boot with minimal := true, t0 := b.clk.fclk, fence := BitVec.ofNat 48 (2 ^ p.nw - 2) } :=
  if_pos h

/-- An earlier attempt counts one more (R386). -/
theorem beginAttempt_boot_of_ne {p : Params} {b : Block} (h : b.boot.attempts ≠ 3) :
    (beginAttempt p b).boot = { b.boot with attempts := b.boot.attempts + 1, t0 := b.clk.fclk } :=
  if_neg h

@[simp] theorem beginAttempt_srst (p : Params) (b : Block) : (beginAttempt p b).boot.srst = b.boot.srst := by
  by_cases h : b.boot.attempts = 3
  · rw [beginAttempt_boot_of_eq h]
  · rw [beginAttempt_boot_of_ne h]

@[simp] theorem beginAttempt_t0 (p : Params) (b : Block) : (beginAttempt p b).boot.t0 = b.clk.fclk := by
  by_cases h : b.boot.attempts = 3
  · rw [beginAttempt_boot_of_eq h]
  · rw [beginAttempt_boot_of_ne h]

/-- Everything but the clock, the start state, the meter and the pins driven is at its reset value (R379). -/
theorem softOff_cleared (b : Block) : Only [.clk, .boot, .meter, .out] {} (softOff b) := by
  intro f hf
  cases f <;> first | exact absurd (by decide) hf | rfl

/-- Settles O1: each pin by its operation on the block. -/
theorem resetPins : Obligations.ResetPins := by
  refine ⟨fun p q b => takes_of_on (fun _ => rfl) rfl, fun p q b hp => ?_, fun p q b hp hs => ?_, fun p q b hp hs => ?_,
    fun p q b hp hs => ?_, fun p q b hp => ?_⟩
  · refine takes_run actPorstNRelease (fun _ => rfl) (fun _ => rfl) hp ?_
    have hne : (0 : Nat) ≠ 3 := by decide
    exact ⟨congrArg Boot.porst (beginAttempt_boot_of_ne hne), congrArg Boot.attempts (beginAttempt_boot_of_ne hne),
      beginAttempt_srst _ _, rfl, rfl, .next (beginAttempt_only _ _) (by decide) (.next (updBoot_only _ _) (by decide)
        (.mono (updClk_only _ _) (by decide)))⟩
  · refine takes_run actSrstNAssert (fun _ => rfl) (fun _ => rfl) (congrArg not hs) ?_
    rw [if_neg (Bool.eq_false_iff.mp hp)]
    exact ⟨rfl, rfl, rfl, rfl, rfl, rfl, rfl, rfl, rfl, rfl, rfl, softOff_cleared b⟩
  · exact takes_run actSrstNAssert (fun _ => rfl) (fun _ => rfl) (congrArg not hs) (if_pos hp)
  · refine takes_run actSrstNRelease (fun _ => rfl) (fun _ => rfl) hs ?_
    dsimp only
    rw [if_neg (by exact Bool.eq_false_iff.mp hp)]
    refine ⟨beginAttempt_srst _ _, beginAttempt_t0 _ _, fun h => ?_, fun h => ?_,
      .next (beginAttempt_only _ _) (by decide) (updBoot_only _ _)⟩
    · rw [beginAttempt_boot_of_eq (by exact h)]; exact ⟨rfl, h, rfl⟩
    · rw [beginAttempt_boot_of_ne (by exact h)]; exact ⟨rfl, rfl, rfl⟩
  · exact takes_run actMtrRstN (fun _ => rfl) (fun _ => rfl) (congrArg not hp) ⟨rfl, updMeter_only _ _⟩

end Sys2Proof.Machine
end

section
/-! SUPPORT. What an operation keeps of a part that it may write: a reading of the block that stays the same. -/

namespace Sys2Proof.Machine

/-- The reading `π` is the same of both blocks. -/
@[irreducible] def Stays {α : Type} (π : Block → α) (b c : Block) : Prop := π c = π b

/-- The reading `π` is of part `f` alone. -/
def ReadsPart {α : Type} (f : BlockPart) (π : Block → α) : Prop := ∀ b c, agree f b c → π c = π b

namespace Stays

variable {α β : Type} {π : Block → α} {f : BlockPart} {b c d : Block}

theorem of_eq (h : π c = π b) : Stays π b c := by
  unfold Stays
  exact h

theorem eq (h : Stays π b c) : π c = π b := by
  unfold Stays at h
  exact h

theorem refl (b : Block) : Stays π b b := .of_eq rfl

theorem trans (h : Stays π b c) (k : Stays π c d) : Stays π b d := .of_eq (k.eq.trans h.eq)

/-- An operation whose frame does not list the part keeps every reading of it. -/
theorem of_only {l : List BlockPart} (hπ : ReadsPart f π) (h : Only l b c) (hl : decide (f ∈ l) = false) : Stays π b c :=
  .of_eq (hπ _ _ (h f (of_decide_eq_false hl)))

/-- One more operation whose frame does not list the part. -/
theorem next {l : List BlockPart} (hπ : ReadsPart f π) (h : Only l c d) (hl : decide (f ∈ l) = false) (hb : Stays π b c) :
    Stays π b d :=
  hb.trans (of_only hπ h hl)

theorem when {q : Bool} {g : Block → Block} (hg : ∀ x, Stays π x (g x)) (hb : Stays π b c) : Stays π b (when q g c) := by
  cases q
  · exact hb
  · exact hb.trans (hg c)

theorem forEach {l : List β} {g : β → Block → Block} (hg : ∀ a x, Stays π x (g a x)) (hb : Stays π b c) :
    Stays π b (forEach l g c) := by
  unfold Machine.forEach
  induction l generalizing c with
  | nil => exact hb
  | cons x l ih => exact ih (hb.trans (hg x c))

end Stays

/-- An operation keeps a part that its frame does not list. -/
theorem Only.kept {l : List BlockPart} {b c : Block} (h : Only l b c) (f : BlockPart) (hl : decide (f ∈ l) = false) :
    agree f b c :=
  h f (of_decide_eq_false hl)

/-! ## A field of a Hinge -/

theorem readsPart_hng {α : Type} (j : Nat) (π : Hinge → α) : ReadsPart .hg (fun b => π (hng b j)) := fun _ _ h =>
  congrArg (fun t => π (Tbl.get {} t j)) h

/-- An update that keeps the field at its Hinge keeps it at every Hinge. -/
theorem updHinge_stays {α : Type} {π : Hinge → α} {h : Nat} {f : Hinge → Hinge} {b c : Block} (j : Nat)
    (hb : Stays (fun b => π (hng b j)) b c) (hf : ∀ g, π (f g) = π g) : Stays (fun b => π (hng b j)) b (updHinge h f c) := by
  refine hb.trans (.of_eq ?_)
  by_cases hj : j = h
  · subst hj
    exact (congrArg π (hng_updHinge_same j f c)).trans (hf _)
  · exact congrArg π (hng_updHinge_ne h f c j hj)

/-- A Hinge without what the flow of its items changes. -/
def linkCore (g : Hinge) : Hinge :=
  { g with credO := 0, credA := 0, retO := 0, retA := 0, rxO := 0, rxA := 0, txq := [], heldItems := [], txSeq := 0 }

/-- The reading of a Hinge without its flow. -/
def coreAt (j : Nat) (b : Block) : Hinge := linkCore (hng b j)

theorem readsPart_coreAt (j : Nat) : ReadsPart .hg (coreAt j) := readsPart_hng j linkCore

theorem updHinge_core {h : Nat} {f : Hinge → Hinge} {b c : Block} {j : Nat} (hb : Stays (coreAt j) b c)
    (hf : ∀ g, linkCore (f g) = linkCore g) : Stays (coreAt j) b (updHinge h f c) :=
  updHinge_stays j hb hf

/-- A field that the flow of items does not change. -/
theorem Stays.ofCore {α : Type} {j : Nat} {b c : Block} (h : Stays (coreAt j) b c) (π : Hinge → α)
    (hπ : ∀ g, π (linkCore g) = π g) : Stays (fun x => π (hng x j)) b c :=
  .of_eq (((hπ _).symm.trans (congrArg π h.eq)).trans (hπ _))

theorem flitOut_core (j h : Nat) (hello : Option Nat) (ts : Option Word64) (slots : List (BitVec 128)) (b : Block) :
    Stays (coreAt j) b (flitOut h hello ts slots b) := by
  unfold flitOut
  exact .next (readsPart_coreAt j) (emit_only _ _) rfl (updHinge_core (.refl b) (by intro _; rfl))

theorem itemFlits_core (j h : Nat) (it : Item) (b : Block) : Stays (coreAt j) b (itemFlits h it b) := by
  unfold itemFlits
  exact .forEach (fun _ _ => flitOut_core j h _ _ _ _) (.refl b)

theorem itemOut_core (j h : Nat) (it : Item × Option Nat) (b : Block) : Stays (coreAt j) b (itemOut h it b) := by
  unfold itemOut
  dsimp only
  refine .trans ?_ (itemFlits_core j h it.1 _)
  refine .next (readsPart_coreAt j) (bump_only _ _ _) rfl (.next (readsPart_coreAt j) (bump_only _ _ _) rfl ?_)
  refine updHinge_core (.refl b) fun g => ?_
  split <;> rfl

theorem hingeFlush_core (j h n : Nat) (b : Block) : Stays (coreAt j) b (hingeFlush h n b) := by
  induction n generalizing b with
  | zero => exact .refl b
  | succ n ih =>
    unfold hingeFlush
    split
    · next it _ =>
      refine .trans ?_ (ih _)
      exact .trans (updHinge_core (.refl b) (by intro _; rfl)) (itemOut_core j h it _)
    · exact .refl b

theorem hingePut_core (j h : Nat) (it : Item) (o : Option Nat) (b : Block) : Stays (coreAt j) b (hingePut h it o b) := by
  unfold hingePut
  dsimp only
  refine .trans ?_ (hingeFlush_core j h _ _)
  exact updHinge_core (.refl b) (by intro _; rfl)

theorem sendUnrch_core (j : Nat) (p : Params) (h : Nat) (mask : BitVec 64) (reach : Bool) (b : Block) :
    Stays (coreAt j) b (sendUnrch p h mask reach b) := by
  unfold sendUnrch toPeer
  exact .forEach (fun _ _ => hingePut_core j _ _ _ _) (.refl b)

/-- HELLO leaves the link as it is. -/
theorem sendHello_linkUp (p : Params) (h j : Nat) (b : Block) : Stays (fun c => (hng c j).linkUp) b (sendHello p h b) := by
  unfold sendHello
  refine .trans ?_ ((flitOut_core j h _ _ _ _).ofCore Hinge.linkUp (fun _ => rfl))
  exact updHinge_stays j (.refl b) (by intro _; rfl)

/-- Going ACTIVE leaves the link as it is. -/
theorem tryActive_linkUp (p : Params) (h j : Nat) (b : Block) : Stays (fun c => (hng c j).linkUp) b (tryActive p h b) := by
  unfold tryActive
  dsimp only
  split
  · refine .trans ?_ ((hingeFlush_core j h _ _).ofCore Hinge.linkUp (fun _ => rfl))
    refine .when (fun x => ?_) (updHinge_stays j (.refl b) (by intro _; rfl))
    refine .trans ?_ ((sendUnrch_core j p h _ _ _).ofCore Hinge.linkUp (fun _ => rfl))
    exact .of_eq rfl
  · exact .refl b

end Sys2Proof.Machine
end

section
/-! PROOFS. The stages of a start, LOCK and FWFAIL (R376 to R389). -/

namespace Sys2Proof.Machine

/-! ## Stages -/

@[simp] theorem stageOf_setStage_same (u : Nat) (x : Stage) (b : Block) : stageOf (setStage u x b) u = x :=
  Tbl.get_set_same _ _ _ _

theorem stageOf_setStage_ne {u v : Nat} (h : v ≠ u) (x : Stage) (b : Block) : stageOf (setStage u x b) v = stageOf b v :=
  Tbl.get_set_ne _ _ _ _ _ h

theorem stageOf_of_boot {b c : Block} (h : c.boot = b.boot) (u : Nat) : stageOf c u = stageOf b u :=
  congrArg (fun t : Boot => Tbl.get Stage.held t.stage u) h

/-- An attempt that fails changes the state and the reason of the start. -/
theorem failAttempt_boot (r : Nat) (b : Block) :
    (failAttempt r b).boot = { b.boot with state := (failAttempt r b).boot.state, reason := (failAttempt r b).boot.reason } := by
  unfold failAttempt
  split <;> rfl

@[simp] theorem stageOf_failAttempt (r : Nat) (b : Block) (u : Nat) : stageOf (failAttempt r b) u = stageOf b u := by
  unfold stageOf
  rw [failAttempt_boot]

theorem becomeReady_boot (p : Params) (b : Block) : (becomeReady p b).boot = { b.boot with state := .ready } := by
  unfold becomeReady
  dsimp only
  rw [when_boot fun c => raiseK_boot p 2 c, raiseK_boot]
  rfl

/-- The block's own state is all of the start that the checks at the end of a stage change. -/
theorem bootCheck_boot (p : Params) (b : Block) :
    (bootCheck p b).boot = { b.boot with state := (bootCheck p b).boot.state } := by
  have step : ∀ (q : Bool) (f : Block → Block) (c : Block), (∀ x, (f x).boot = { x.boot with state := (f x).boot.state }) →
      c.boot = { b.boot with state := c.boot.state } →
      (when q f c).boot = { b.boot with state := (when q f c).boot.state } := by
    intro q f c hf hc
    cases q
    · exact hc
    · exact (hf c).trans (by rw [hc]; rfl)
  unfold bootCheck
  exact step _ _ _ (fun x => by rw [becomeReady_boot]) (step _ _ _ (fun _ => rfl) (step _ _ _ (fun _ => rfl) rfl))

@[simp] theorem stageOf_bootCheck (p : Params) (b : Block) (u : Nat) : stageOf (bootCheck p b) u = stageOf b u := by
  unfold stageOf
  rw [bootCheck_boot]

@[simp] theorem bootCheck_hard (p : Params) (b : Block) : (bootCheck p b).boot.hard = b.boot.hard := by rw [bootCheck_boot]

@[simp] theorem bootCheck_hfail (p : Params) (b : Block) : (bootCheck p b).boot.hfail = b.boot.hfail := by rw [bootCheck_boot]

@[simp] theorem bootCheck_fence (p : Params) (b : Block) : (bootCheck p b).boot.fence = b.boot.fence := by rw [bootCheck_boot]

@[simp] theorem fenced_bootCheck (p : Params) (b : Block) (w : Nat) : fenced (bootCheck p b) w = fenced b w := by
  unfold fenced
  rw [bootCheck_fence]

/-- A unit put into a stage, with the checks that follow, in a block whose stages are those of `b`. -/
theorem setStage_checked {l : List BlockPart} {b c : Block} (p : Params) (u : Nat) (x : Stage)
    (hs : ∀ f ∈ [BlockPart.boot, .regs, .out], f ∈ l) (hl : Only l b c) (hc : ∀ v, stageOf c v = stageOf b v) :
    stageOf (bootCheck p (setStage u x c)) u = x
    ∧ (∀ v, v ≠ u → stageOf (bootCheck p (setStage u x c)) v = stageOf b v) ∧ Only l b (bootCheck p (setStage u x c)) :=
  ⟨(stageOf_bootCheck _ _ _).trans (stageOf_setStage_same _ _ _),
    fun v hv => (stageOf_bootCheck _ _ _).trans ((stageOf_setStage_ne hv _ _).trans (hc v)),
    .next (bootCheck_only _ _) hs (.next (setStage_only _ _ _) (fun f hf => hs f (by simp_all)) hl)⟩

/-- A Ward fenced at the self-test is in the stage FENCED. -/
theorem fenceWard_stage (p : Params) (w : Nat) (x : Nat × Nat) (b : Block) : stageOf (fenceWard p w x b) (1 + w) = .fenced := by
  have h : ∀ (q : Bool) c, stageOf (when q (failAttempt 3) c) (1 + w) = stageOf c (1 + w) := fun q c => by
    cases q
    · rfl
    · exact stageOf_failAttempt _ _ _
  exact (h _ _).trans (stageOf_setStage_same _ _ _)

theorem getLsbD_or_twoPow_same {n i : Nat} (m : BitVec n) (hi : i < n) : (m ||| BitVec.ofNat n (2 ^ i)).getLsbD i = true := by
  rw [BitVec.getLsbD_or, BitVec.getLsbD_ofNat, Nat.testBit_two_pow_self, decide_eq_true hi, Bool.and_self, Bool.or_true]

theorem getLsbD_or_twoPow_ne {n i j : Nat} (m : BitVec n) (h : j ≠ i) :
    (m ||| BitVec.ofNat n (2 ^ i)).getLsbD j = m.getLsbD j := by
  rw [BitVec.getLsbD_or, BitVec.getLsbD_ofNat, Nat.testBit_two_pow_of_ne h.symm, Bool.and_false, Bool.or_false]

/-- A Ward fenced at the self-test has its bit of FENCE. -/
theorem fenceWard_fenced (p : Params) {w : Nat} (hw : w < 48) (x : Nat × Nat) (b : Block) :
    fenced (fenceWard p w x b) w = true := by
  have h : ∀ (q : Bool) c, fenced (when q (failAttempt 3) c) w = fenced c w := fun q c => by
    cases q
    · rfl
    · exact (congrArg (fun t : Boot => t.fence.getLsbD w) (failAttempt_boot 3 c) :)
  exact (h _ _).trans (getLsbD_or_twoPow_same _ hw)

/-- With no access waiting a rescrub replays none. -/
theorem replayAccess_of_none {p : Params} {b : Block} (hw : b.mgt.waitW = none) (hr : b.mgt.waitR = none) :
    replayAccess p b = b := by
  unfold replayAccess
  rw [hw]
  dsimp only
  rw [hr]

theorem lockSet_boot (p : Params) (b : Block) :
    (lockSet p b).boot = { b.boot with lock := true, attempts := if b.boot.minimal then b.boot.attempts else 0 } :=
  forEach_boot fun _ _ => when_boot fun _ => ((tryActive_only _ _ _).boot rfl).trans ((sendHello_only _ _ _).boot rfl)

/-! ## A link trained -/

theorem linkTrained_linkUp (p : Params) (h : Nat) (b : Block) : (hng (linkTrained p h b) h).linkUp = true := by
  have keep : ∀ x, Stays (fun c => (hng c h).linkUp) x (tryActive p h (sendHello p h x)) := fun x =>
    .trans (sendHello_linkUp p h h x) (tryActive_linkUp p h h _)
  unfold linkTrained
  refine (Stays.when keep (.refl _)).eq.trans ?_
  rw [hng_updHinge_same]

/-! ## The clauses -/

/-- A domain's release puts its unit into its first stage. -/
theorem domainResetRelease_stage (p : Params) (q : List Instr) (b : Block) (x : Domain) :
    b.boot.porst = false → starts p b x = true → stageOf b (domNo x) = .held → b.boot.t0 + relAt p x ≤ b.clk.fclk →
    Takes (.domainResetRelease x) p q b fun d =>
      stageOf d (domNo x) = (match x with | .keeper | .ward _ => .scrub | .hinge _ => .linkup | _ => .ready)
    ∧ (∀ u, u ≠ domNo x → stageOf d u = stageOf b u) ∧ Only [.clk, .boot, .out] b d := by
  intro hp hs hh ht
  have hg : (!b.boot.porst && starts p b x && decide (stageOf b (domNo x) = .held)
      && decide (b.boot.t0 + relAt p x ≤ b.clk.fclk)) = true := by simp [hp, hs, hh, ht]
  have key : ∀ u y, ∀ c, c.boot = b.boot → Only [.clk, .out] b c →
      stageOf (setStage u y c) u = y ∧ (∀ v, v ≠ u → stageOf (setStage u y c) v = stageOf b v)
      ∧ Only [.clk, .boot, .out] b (setStage u y c) := fun u y c hc ho =>
    ⟨stageOf_setStage_same _ _ _, fun v hv => (stageOf_setStage_ne hv _ _).trans (stageOf_of_boot hc v),
      .next (setStage_only _ _ _) (by decide) (ho.mono (by decide))⟩
  refine takes_run (actDomainResetRelease x) (fun _ => rfl) (fun _ => rfl) hg ?_
  cases x with
  | timestamp => exact key _ _ _ rfl (.mono (updClk_only _ _) (by decide))
  | management => exact key _ _ _ rfl (.refl _ _)
  | meter => exact key _ _ _ rfl (.refl _ _)
  | keeper => exact key _ _ _ rfl (.refl _ _)
  | ward w => exact key _ _ _ rfl (.refl _ _)
  | hinge h =>
    obtain ⟨h1, h2, h3⟩ := key (64 + h) .linkup b rfl (.refl _ _)
    exact ⟨h1, h2, .next (emit_only _ _) (by decide) h3⟩

/-- The scrub of a unit is done, a Ward's after its time. -/
theorem bootScrubDone_stage (p : Params) (q : List Instr) (b : Block) (u : UnitId) :
    booting b = true → stageOf b (unitNo u) = .scrub → (match u with
      | .keeper => True | .ward w => Tbl.get 0 b.boot.since (1 + w) + 2048 ≤ b.clk.fclk | .hinge _ => False) →
    Takes (.bootScrubDone u) p q b fun d =>
      stageOf d (unitNo u) = .selftest ∧ (∀ v, v ≠ unitNo u → stageOf d v = stageOf b v) ∧ Only [.boot, .regs, .out] b d := by
  intro hb hs hu
  have hg : (booting b && decide (stageOf b (unitNo u) = .scrub)) = true := by simp [hb, hs]
  refine takes_run (actBootScrubDone u) (fun _ => rfl) (fun _ => rfl) hg ?_
  cases u with
  | hinge h => exact hu.elim
  | keeper => exact setStage_checked p 0 .selftest (by decide) (.refl _ _) (fun _ => rfl)
  | ward w =>
    dsimp only
    rw [if_pos (by exact hu)]
    exact setStage_checked p (1 + w) .selftest (by decide) (.refl _ _) (fun _ => rfl)

/-- A self-test without a fatal word leads to the rescrub. -/
theorem selfTestDone_clean (p : Params) (q : List Instr) (b : Block) (u : UnitId) (l : List (Nat × Nat)) (hb : booting b = true)
    (hs : stageOf b (unitNo u) = .selftest) :
    Takes (.selfTestDone u [] l) p q b fun d =>
      stageOf d (unitNo u) = .rescrub ∧ (∀ v, v ≠ unitNo u → stageOf d v = stageOf b v)
    ∧ Only [.boot, .regs, .cnt, .log, .trace, .out] b d := by
  have hg : (booting b && decide (stageOf b (unitNo u) = .selftest)) = true := by simp [hb, hs]
  refine takes_run (actSelfTestDone u [] l) (fun _ => rfl) (fun _ => rfl) hg ?_
  have hlog : Only [.boot, .regs, .cnt, .log, .trace, .out] b (forEach l (fun x => logRec p
      { status := 0, kind := 3, src := u, objk := 7, handle := tabWord x.1 x.2 }) b) :=
    .forEach (fun _ _ => .mono (logRec_only _ _ _) (by decide)) (.refl _ _)
  have hboot : ∀ v, stageOf (forEach l (fun x => logRec p
      { status := 0, kind := 3, src := u, objk := 7, handle := tabWord x.1 x.2 }) b) v = stageOf b v := fun v =>
    stageOf_of_boot (forEach_boot fun _ _ => logRec_boot _ _ _) v
  cases u <;> dsimp only [firstWord, unitNo] <;> exact setStage_checked p _ .rescrub (by decide) hlog hboot

/-- A self-test with a fatal word of a Ward fences the Ward. -/
theorem selfTestDone_fatal (p : Params) (q : List Instr) (b : Block) (w : Nat) (x : Nat × Nat) (l c : List (Nat × Nat))
    (hb : booting b = true) (hs : stageOf b (1 + w) = .selftest) (hw : w < 48) :
    Takes (.selfTestDone (.ward w) (x :: l) c) p q b fun d =>
      stageOf d (1 + w) = .fenced ∧ fenced d w = true ∧ Only [.boot, .regs, .cnt, .log, .trace, .out] b d := by
  have hg : (booting b && decide (stageOf b (unitNo (.ward w)) = .selftest)) = true := by simp [hb, hs, unitNo]
  obtain ⟨y, hy⟩ : ∃ y, firstWord (x :: l) = some y := by
    rw [firstWord]
    cases firstWord l <;> exact ⟨_, rfl⟩
  refine takes_run (actSelfTestDone (.ward w) (x :: l) c) (fun _ => rfl) (fun _ => rfl) hg ?_
  dsimp only
  rw [hy]
  refine ⟨?_, ?_, .next (bootCheck_only _ _) (by decide) (.next (fenceWard_only _ _ _ _) (by decide)
    (.forEach (fun _ _ => .mono (logRec_only _ _ _) (by decide)) (.refl _ _)))⟩
  · rw [stageOf_bootCheck, fenceWard_stage]
  · rw [fenced_bootCheck, fenceWard_fenced p hw]

/-- A rescrub done leads to the lane comparison at the Keeper, elsewhere to READY. -/
theorem rescrubDone_stage (p : Params) (q : List Instr) (b : Block) (u : UnitId) :
    booting b = true → stageOf b (unitNo u) = .rescrub → b.mgt.waitW = none → b.mgt.waitR = none →
    Takes (.rescrubDone u) p q b fun d =>
      stageOf d (unitNo u) = (match u with | .keeper => .tmrCheck | _ => .ready)
    ∧ (∀ v, v ≠ unitNo u → stageOf d v = stageOf b v) ∧ Only [.boot, .regs, .out] b d := by
  intro hb hs hw hr
  have hg : (booting b && decide (stageOf b (unitNo u) = .rescrub)) = true := by simp [hb, hs]
  refine takes_run (actRescrubDone u) (fun _ => rfl) (fun _ => rfl) hg ?_
  have hm : (rescrubbed p u b).mgt = b.mgt := (rescrubbed_only p u b).kept .mgt rfl
  rw [replayAccess_of_none (by rw [hm, hw]) (by rw [hm, hr])]
  unfold rescrubbed
  exact setStage_checked (l := [.boot, .regs, .out]) p _ _ (by decide) (.refl _ _) (fun _ => rfl)

/-- The lane comparison: at most one bad lane, which is voted out for good. -/
theorem tmrCheck_stage (p : Params) (q : List Instr) (b : Block) (bad : BitVec 3) (hb : booting b = true)
    (hs : stageOf b 0 = .tmrCheck) :
    (bitsOf bad 3 = [] → Takes (.tmrCheck bad) p q b fun d =>
      stageOf d 0 = .ready ∧ d.boot.hard = b.boot.hard ∧ Only [.boot, .regs, .out] b d)
    ∧ (∀ n, bitsOf bad 3 = [n] → Takes (.tmrCheck bad) p q b fun d =>
      stageOf d 0 = .ready ∧ d.boot.hard = some n ∧ Only [.boot, .regs, .cnt, .log, .trace, .out] b d) := by
  have hg : (booting b && decide (stageOf b 0 = .tmrCheck)) = true := by simp [hb, hs]
  refine ⟨fun h => ?_, fun n h => ?_⟩ <;> refine takes_run (actTmrCheck bad) (fun _ => rfl) (fun _ => rfl) hg ?_ <;>
    dsimp only <;> rw [h]
  · exact ⟨(stageOf_bootCheck _ _ _).trans (stageOf_setStage_same _ _ _), bootCheck_hard _ _,
      .next (bootCheck_only _ _) (by decide) (.mono (setStage_only _ _ _) (by decide))⟩
  · refine ⟨(stageOf_bootCheck _ _ _).trans (stageOf_setStage_same _ _ _), (bootCheck_hard _ _).trans ?_,
      .next (bootCheck_only _ _) (by decide) (.next (setStage_only _ _ _) (by decide) (.next (raiseK_only _ _ _) (by decide)
        (.next (logRec_only _ _ _) (by decide) (.mono (updBoot_only _ _) (by decide)))))⟩
    exact congrArg Boot.hard ((raiseK_boot _ _ _).trans (logRec_boot _ _ _))

/-- A link trained: its Hinge is READY where it waited for the link. -/
theorem linkUp_stage (p : Params) (q : List Instr) (b : Block) (h : Nat) (hu : hingeUp p b h = true)
    (ht : (hng b h).state = .train) (hl : (hng b h).linkUp = false) :
    Takes (.linkUp h) p q b fun d =>
      (hng d h).linkUp = true
    ∧ (stageOf b (64 + h) = .linkup → stageOf d (64 + h) = .ready) ∧ Only [.boot, .regs, .cnt, .hg, .unreach, .out] b d := by
  refine takes_runH (actLinkUp h) (fun _ => rfl) (fun _ => rfl) hu ?_
  dsimp only
  rw [if_pos ⟨ht, by rw [hl]; decide⟩]
  have hstage : stageOf (linkTrained p h b) (64 + h) = stageOf b (64 + h) :=
    stageOf_of_boot ((linkTrained_only p h b).boot rfl) _
  have hframe : Only [.boot, .regs, .cnt, .hg, .unreach, .out] b (linkTrained p h b) :=
    .mono (linkTrained_only _ _ _) (by decide)
  split
  · have hkept : Stays (fun c => (hng c h).linkUp) (linkTrained p h b)
        (bootCheck p (setStage (64 + h) .ready (linkTrained p h b))) :=
      .next (readsPart_hng h _) (bootCheck_only _ _) rfl (.of_only (readsPart_hng h _) (setStage_only _ _ _) rfl)
    exact ⟨hkept.eq.trans (linkTrained_linkUp p h b),
      fun _ => (stageOf_bootCheck _ _ _).trans (stageOf_setStage_same _ _ _),
      .next (bootCheck_only _ _) (by decide) (.next (setStage_only _ _ _) (by decide) hframe)⟩
  · next hn => exact ⟨linkTrained_linkUp p h b, fun hx => absurd (hstage.trans hx) hn, hframe⟩

/-- A link that does not train in its time is timed out with its bit of HFAIL. -/
theorem linkUpTimeout_stage (p : Params) (q : List Instr) (b : Block) (h : Nat) (hu : hingeUp p b h = true)
    (hs : stageOf b (64 + h) = .linkup) (ht : Tbl.get 0 b.boot.since (64 + h) + 2048000 ≤ b.clk.fclk) (h8 : h < 8) :
    Takes (.linkUpTimeout h) p q b fun d =>
      stageOf d (64 + h) = .timedOut
    ∧ d.boot.hfail.getLsbD h = true ∧ (∀ k, k ≠ h → d.boot.hfail.getLsbD k = b.boot.hfail.getLsbD k) ∧ Only [.boot, .regs, .out] b d := by
  refine takes_runH (actLinkUpTimeout h) (fun _ => rfl) (fun _ => rfl) hu ?_
  dsimp only
  rw [if_pos ⟨hs, ht⟩, bootCheck_hfail, show ∀ c, (raiseH p h 4 c).boot = c.boot from fun c => (raiseH_only _ _ _ _).boot rfl]
  refine ⟨?_, ?_, fun k hk => ?_, .next (bootCheck_only _ _) (by decide) (.next (raiseH_only _ _ _ _) (by decide)
    (.next (updBoot_only _ _) (by decide) (.mono (setStage_only _ _ _) (by decide))))⟩
  · rw [stageOf_bootCheck]
    refine (stageOf_of_boot ((raiseH_only _ _ _ _).boot rfl) _).trans ?_
    exact stageOf_setStage_same (64 + h) .timedOut b
  · exact getLsbD_or_twoPow_same b.boot.hfail h8
  · exact getLsbD_or_twoPow_ne b.boot.hfail hk

/-- LOCK := 1 in READY outside FAULT. -/
theorem lock_takes_lock (p : Params) (q : List Instr) (b : Block) (hf : mgtFree b = true) (hr : b.boot.state = .ready)
    (hd : b.dbolt.state ≠ .fault) (hl : b.boot.lock = false) :
    Takes .lock p q b fun d =>
      d.boot.lock = true ∧ d.boot.state = .ready
    ∧ d.boot.attempts = (if b.boot.minimal then b.boot.attempts else 0) ∧ d.boot.minimal = b.boot.minimal
    ∧ d.boot.fence = b.boot.fence ∧ Only [.boot, .mgt, .regs, .cnt, .hg, .unreach, .out] b d := by
  refine takes_of_keeperReg (fun _ => rfl) hf ?_
  rw [regWrite_of_ready rfl]
  have hset : ∀ c, c.boot = b.boot → c.dbolt = b.dbolt → kctrlWrite p 1 c = lockSet p c := by
    intro c hb hdb
    rw [kctrlWrite, if_pos (by decide), if_pos ⟨by rw [hb, hr], by rw [hdb]; exact hd⟩, if_neg (by rw [hb, hl]; decide)]
  rw [hset (updMgt (fun m => { m with resp := .okay }) b) rfl rfl]
  have hboot := lockSet_boot p (updMgt (fun m => { m with resp := .okay }) b)
  exact ⟨(congrArg Boot.lock hboot :), (congrArg Boot.state hboot :).trans hr, (congrArg Boot.attempts hboot :),
    (congrArg Boot.minimal hboot :), (congrArg Boot.fence hboot :), .next (dropHeld_only _ _) (by decide)
      (.next (lockSet_only _ _) (by decide) (.mono (updMgt_only _ _) (by decide)))⟩

/-- FWFAIL before the lock. -/
theorem fwfail_boot (p : Params) (q : List Instr) (b : Block) (hf : mgtFree b = true) (hl : b.boot.lock = false) :
    Takes .fwfail p q b fun d =>
      d.boot = { b.boot with state := .failed, reason := 5 } ∧ Only [.boot, .mgt] b d := by
  refine takes_of_keeperReg (fun _ => rfl) hf ?_
  rw [regWrite_of_ready rfl]
  have hset : ∀ c, c.boot = b.boot → kbootWrite 0x200000 c = updBoot (fun t => { t with state := .failed, reason := 5 }) c := by
    intro c hb
    rw [kbootWrite, hb, hl]
    rfl
  rw [hset (updMgt (fun m => { m with resp := .okay }) b) rfl]
  exact ⟨rfl, .next (dropHeld_only _ _) (by decide) (.next (updBoot_only _ _) (by decide) (.mono (updMgt_only _ _) (by decide)))⟩

/-- Settles O2: each stage by the operation that ends it. -/
theorem bootAndLock : Obligations.BootAndLock :=
  ⟨domainResetRelease_stage, bootScrubDone_stage, selfTestDone_clean, fun p q b w x l c => selfTestDone_fatal p q b w x l c,
    rescrubDone_stage, fun p q b hb hs => (tmrCheck_stage p q b 0 hb hs).1 rfl,
    fun p q b n bad hb hs => (tmrCheck_stage p q b bad hb hs).2 n, linkUp_stage, linkUpTimeout_stage, lock_takes_lock,
    fwfail_boot⟩

end Sys2Proof.Machine
end

section
/-! PROOFS. Writes at the management port and at the meter port (R368, R389, R396). -/

namespace Sys2Proof.Machine

/-! ## Words written whole -/

theorem setFld_whole (x v : Word32) : setFld x 0 32 (fld v 0 32) = v := by
  unfold setFld fld
  apply BitVec.eq_of_toNat_eq
  have h := v.isLt
  simp only [BitVec.toNat_or, BitVec.toNat_and, BitVec.toNat_not, BitVec.toNat_ofNat]
  norm_num
  omega

/-- A word of one writable field of 32 bits takes the word written. -/
theorem fieldWrite_whole (lock : Bool) (v x : Word32) (r : Nat) : fieldWrite lock v x ⟨0, 32, .rw, r⟩ = v := setFld_whole x v

/-! ## PG_ERR -/

/-- A bit that reads 1 still does after the line of PG_ERR has been raised. -/
theorem bitAt_rd_pgErrLine (p : Params) (base : Nat) {b : Block} {j i : Nat} (h : bitAt (rd p b j) i = true) :
    bitAt (rd p (pgErrLine p base b) j) i = true := by
  have hr : ∀ a m, bitAt (rd p (raise p a m b) j) i = true := fun a m => by
    rw [rd_raise]
    exact bitAt_rd_setBits_of_set p a m h
  unfold pgErrLine raiseW raiseH raiseK
  split <;> first | exact h | exact hr _ _

/-- A bit of PG_ERR of any page reads 1 once its error is reported (R399). -/
theorem bitAt_rd_pgErr_page (p : Params) (base : Nat) (b : Block) {i : Nat} (hi : i < 32) :
    bitAt (rd p (pgErr p base i b) (base + 0x010)) i = true := by
  have hset := bitAt_rd_setBits_same p (base + 0x010) b hi
  unfold pgErr when
  dsimp only
  split
  · exact bitAt_rd_pgErrLine p base hset
  · exact hset

/-- An error of the first Keeper page leaves every register but PG_ERR and the interrupts. -/
theorem rd_pgErr_keeper (p : Params) (i : Nat) (b : Block) {j : Nat} (hj : j ≠ 0x010) (hk : j ≠ kIrq) :
    rd p (pgErr p 0 i b) j = rd p b j := by
  have hset : rd p (setBits p (0 + 0x010) (BitVec.ofNat 32 (2 ^ i)) b) j = rd p b j :=
    (rd_setBits _ _ _ _ _).trans (if_neg hj)
  unfold pgErr when
  dsimp only
  split
  · change rd p (raiseK p 7 _) j = _
    rw [raiseK, rd_raise, rd_setBits, if_neg hk, hset]
  · exact hset

/-! ## A write at the management port -/

theorem mgtWrite_scratch (p : Params) (v : Word32) (b : Block) :
    mgtWrite p 0x1C v b = dropHeld [0] (plainWrite p (.keeper 0) 0x1C v (mgtResp .okay b)) := rfl

theorem mgtWrite_locked (p : Params) (v : Word32) (b : Block) :
    mgtWrite p 0x68 v b = dropHeld [0] (plainWrite p (.keeper 0) 0x68 v (mgtResp .okay b)) := rfl

theorem plainWrite_scratch (p : Params) (v : Word32) (b : Block) : plainWrite p (.keeper 0) 0x1C v b = wr p 0x1C v b := by
  have e : plainWrite p (.keeper 0) 0x1C v b = when (b.boot.lock && false) (pgErr p 0 0)
      (wr p 0x1C (fieldWrite b.boot.lock v (rd p b 0x1C) ⟨0, 32, .rw, 0⟩) b) := rfl
  rw [e, fieldWrite_whole, Bool.and_false]
  rfl

theorem plainWrite_lockable (p : Params) (v : Word32) (b : Block) :
    plainWrite p (.keeper 0) 0x68 v b = when b.boot.lock (pgErr p 0 0)
      (wr p 0x68 (if b.boot.lock then rd p b 0x68 else v) b) := by
  have e : plainWrite p (.keeper 0) 0x68 v b = when (b.boot.lock && true) (pgErr p 0 0)
      (wr p 0x68 (if b.boot.lock then rd p b 0x68 else setFld (rd p b 0x68) 0 32 (fld v 0 32)) b) := rfl
  rw [e, setFld_whole, Bool.and_true]

/-- A register access that is well formed is a write. -/
theorem takes_registerWrite {p : Params} {q : List Instr} {b : Block} {Q : Block → Prop} {a : BitVec 24} {v : Word32}
    {s : BitVec 4} (n : Nat) (ha : a.toNat = n) (hf : mgtFree b = true) (hQ : Q (mgtAccess p n v s b)) : Takes (.registerWrite .mgt a v s) p q b Q := by
  subst ha
  exact takes_runReg (actRegisterWrite .mgt a v s) (fun _ => rfl) (fun _ => rfl) hf hQ

theorem takes_meterWrite {p : Params} {q : List Instr} {b : Block} {Q : Block → Prop} {a : BitVec 24} {v : Word32}
    {s : BitVec 4} (n : Nat) (ha : a.toNat = n) (hf : meterUp b = true) (hQ : Q (mtpWrite n v s b)) : Takes (.registerWrite .mtp a v s) p q b Q := by
  subst ha
  exact takes_runM (actRegisterWrite .mtp a v s) (fun _ => rfl) (fun _ => rfl) hf hQ

theorem only_okay_wr (p : Params) (a : Nat) (v : Word32) (b : Block) :
    Only [.mgt, .regs] b (dropHeld [0] (wr p a v (mgtResp .okay b))) :=
  .next (dropHeld_only _ _) (by decide) (.next (wr_only _ _ _ _) (by decide) (.mono (mgtResp_only _ _) (by decide)))

theorem onlyReg_okay_wr (p : Params) (a : Nat) (v : Word32) (b : Block) :
    OnlyReg p a b (dropHeld [0] (wr p a v (mgtResp .okay b))) := fun k hk =>
  rd_wr_ne p a v (mgtResp .okay b) k hk

/-- Settles O3: the word written whole, the lock, the strobe and the alignment. -/
theorem registerWrites : Obligations.RegisterWrites := by
  refine ⟨fun p q b v hf => ?_, fun p q b v hf hl => ?_, fun p q b v hf hl => ?_, fun p q b a v s hf hs => ?_,
    fun p q b v hm => ?_, fun p q b a v s hm hs => ?_⟩
  · refine takes_registerWrite 0x1C rfl hf ?_
    have e : mgtAccess p 0x1C v 0xF b = dropHeld [0] (wr p 0x1C v (mgtResp .okay b)) := by
      refine .trans (b := mgtWrite p 0x1C v b) rfl ?_
      rw [mgtWrite_scratch, plainWrite_scratch]
    rw [e]
    exact ⟨rd_wr_same p 0x1C v (mgtResp .okay b), rfl, onlyReg_okay_wr _ _ _ _, only_okay_wr _ _ _ _⟩
  · refine takes_registerWrite 0x68 rfl hf ?_
    have e : mgtAccess p 0x68 v 0xF b = dropHeld [0] (wr p 0x68 v (mgtResp .okay b)) := by
      refine .trans (b := mgtWrite p 0x68 v b) rfl ?_
      rw [mgtWrite_locked, plainWrite_lockable, show (mgtResp .okay b).boot.lock = false from hl]
      rfl
    rw [e]
    exact ⟨rd_wr_same p 0x68 v (mgtResp .okay b), onlyReg_okay_wr _ _ _ _, only_okay_wr _ _ _ _⟩
  · refine takes_registerWrite 0x68 rfl hf ?_
    have e : mgtAccess p 0x68 v 0xF b = dropHeld [0] (pgErr p 0 0 (wr p 0x68 (rd p b 0x68) (mgtResp .okay b))) := by
      refine .trans (b := mgtWrite p 0x68 v b) rfl ?_
      rw [mgtWrite_locked, plainWrite_lockable, show (mgtResp .okay b).boot.lock = true from hl]
      rfl
    rw [e]
    refine ⟨?_, bitAt_rd_pgErr p _ (by decide), .next (dropHeld_only _ _) (by decide) (.next (pgErr_only _ _ _ _) (by decide)
      (.next (wr_only _ _ _ _) (by decide) (.mono (mgtResp_only _ _) (by decide))))⟩
    refine (rd_pgErr_keeper p 0 _ (by decide) (by decide)).trans ?_
    exact rd_wr_same p 0x68 (rd p b 0x68) (mgtResp .okay b)
  · refine takes_registerWrite _ rfl hf ?_
    rw [mgtAccess, if_pos hs]
    exact ⟨rfl, mgtResp_only _ _⟩
  · refine takes_meterWrite 0x1C rfl hm ?_
    have e : mtpWrite 0x1C v 0xF b = updMeter (fun m => { m with scratch := v }) (mtOkay b) := rfl
    rw [e]
    exact ⟨rfl, .next (updMeter_only _ _) (by decide) (updMeter_only _ _)⟩
  · refine takes_meterWrite _ rfl hm ?_
    rw [mtpWrite, if_pos hs]
    exact ⟨rfl, updMeter_only _ _⟩

end Sys2Proof.Machine
end

section
/-! PROOFS. Reads at the management port (R320, R400, R402). -/

namespace Sys2Proof.Machine

/-- A read that the management port takes. -/
theorem takes_readReg {c : Instr} {p : Params} {q : List Instr} {b : Block} {Q : Block → Prop} {ok : Params → Nat → Bool}
    {a : BitVec 24} (act : State → Outcome) (he : ∀ s, exec c s = act (s.sampled c)) (ha : ∀ s, act s = s.readReg ok a)
    (n : Nat) (hn : a.toNat = n) (hu : mgtUp b = true) (hw : b.mgt.waitR = none) (hok : ok p n = true)
    (hQ : Q (mgtRead p n b)) : Takes c p q b Q := by
  subst hn
  exact takes_run (g := fun p b => mgtUp b && b.mgt.waitR.isNone && ok p a.toNat) act he ha
    (by simp only [hu, hw, hok, Option.isNone_none, Bool.and_self]) hQ

theorem latchedAt_nil {b : Block} (h : b.mgt.latch = []) (a : Nat) : latchedAt b a = none := by
  rw [latchedAt, h]
  rfl

/-! ## A read of the broadcast window -/

/-- A read of a plain word of a Ward's first page answers the word and changes nothing. -/
theorem readOne_plain (p : Params) (b : Block) (w : Nat) (hl : b.mgt.latch = []) :
    readOne p (.ward w 0) (wA w 0 0xC0) b = (rd p b (wA w 0 0xC0), b) := by
  have ho : wA w 0 0xC0 % 0x1000 = 0xC0 := by unfold wA; omega
  unfold readOne latchRest
  rw [ho, latchedAt_nil hl]
  rfl

theorem readMembers_plain (p : Params) (b : Block) (hl : b.mgt.latch = []) (l : List Nat) :
    readMembers p 0 0xC0 l b = (l.map (fun w => rd p b (wA w 0 0xC0)), b) := by
  induction l with
  | nil => rfl
  | cons w l ih => rw [readMembers, readOne_plain p b w hl, ih]; rfl

/-- No table of a Ward stands behind a word of its first page. -/
theorem accNeed_bcast (p : Params) (b : Block) : accNeed p b (.bcast 0) 0xC0 = [] :=
  List.flatMap_eq_nil_iff.mpr fun _ _ => rfl

theorem mgtRead_bcast (p : Params) (b : Block) (hl : b.mgt.latch = []) {w : Nat} {l : List Nat}
    (hm : members p b .bcast = w :: l) :
    mgtRead p 0x4000C0 b = readDone (rd p b (wA w 0 0xC0)) .okay (updMgt (fun m => { m with
      bdiff := Tbl.set false m.bdiff 0x400 (l.any (fun v => decide (rd p b (wA v 0 0xC0) ≠ rd p b (wA w 0 0xC0)))) }) b) := by
  have e : mgtRead p 0x4000C0 b = if (accNeed p b (.bcast 0) 0xC0).all (tabReady b) then winRead p .bcast 0 0x4000C0 b
      else updMgt (fun m => { m with resp := .waiting, waitR := some 0x4000C0 }) b := rfl
  rw [e, accNeed_bcast, List.all_nil, if_pos rfl]
  unfold winRead
  rw [show (0x4000C0 : Nat) % 0x1000 = 0xC0 from rfl, readMembers_plain p b hl, hm]
  simp only [List.map_cons, List.headD_cons, List.any_cons, ne_eq, not_true_eq_false, decide_false, Bool.false_or,
    List.any_map]
  rfl

/-! ## A wide register -/

/-- The low word of a wide register. -/
theorem w32_fld_low (x : Word64) : w32 (fld x 0 32) = BitVec.ofNat 32 x.toNat := by
  apply BitVec.eq_of_toNat_eq
  simp [w32, fld]

/-- The high word of a wide register. -/
theorem w32_fld_high (x : Word64) : w32 (fld x 32 32) = BitVec.ofNat 32 (x.toNat / 2 ^ 32) := by
  apply BitVec.eq_of_toNat_eq
  simp [w32, fld]

theorem mgtRead_snapLo (p : Params) (b : Block) (hl : b.mgt.latch = []) :
    mgtRead p 0xA044 b = readDone (BitVec.ofNat 32 b.snapTs.toNat) .okay
      (updMgt (fun m => { m with latch := [(0xA048, BitVec.ofNat 32 (b.snapTs.toNat / 2 ^ 32))] }) b) := by
  have e : mgtRead p 0xA044 b = readDone (readOne p (.keeper 10) 0xA044 b).1 .okay (readOne p (.keeper 10) 0xA044 b).2 := rfl
  have e1 : readOne p (.keeper 10) 0xA044 b = (w32 (fld b.snapTs 0 32),
      updMgt (fun m => { m with latch := Tbl.ins (Tbl.del m.latch 0xA048) 0xA048 (w32 (fld b.snapTs 32 32)) }) b) := by
    unfold readOne
    rw [latchedAt_nil hl]
    rfl
  rw [e, e1, w32_fld_low, w32_fld_high]
  dsimp only [updMgt]
  rw [hl]
  rfl

theorem mgtRead_snapHi (p : Params) (b : Block) (v : Word32) (hl : b.mgt.latch = [(0xA048, v)]) :
    mgtRead p 0xA048 b = readDone v .okay (updMgt (fun m => { m with latch := [] }) b) := by
  have e : mgtRead p 0xA048 b = readDone (readOne p (.keeper 10) 0xA048 b).1 .okay (readOne p (.keeper 10) 0xA048 b).2 := rfl
  have e1 : readOne p (.keeper 10) 0xA048 b = (v, updMgt (fun m => { m with latch := Tbl.del m.latch 0xA048 }) b) := by
    unfold readOne latchedAt
    rw [hl]
    rfl
  rw [e, e1]
  dsimp only [updMgt]
  rw [hl]
  rfl

/-! ## The event-ring window -/

/-- The page of an address of the event ring of Ward 0. -/
theorem pageOf_evRing {p : Params} (hw : 0 < p.nw) : pageOf p 0x10504C = some (.ward 0 5) :=
  if_pos ⟨hw, by decide⟩

theorem mgtRead_evRing {p : Params} {b : Block} (hw : 0 < p.nw) (hf : fenced b 0 = false) (ht : tabReady b 1 = true) :
    mgtRead p 0x10504C b =
      readDone (readOne p (.ward 0 5) 0x10504C b).1 .okay (readOne p (.ward 0 5) 0x10504C b).2 := by
  have hreg : noReg p b 0x10504C = false := by
    unfold noReg regFields
    rw [pageOf_evRing hw]
    exact Bool.and_false _
  have hneed : (accNeed p b (.ward 0 5) (0x10504C % 0x1000)).all (tabReady b) = true := by
    rw [show accNeed p b (.ward 0 5) (0x10504C % 0x1000) = [1] from rfl, List.all_cons, ht]
    rfl
  unfold mgtRead
  rw [pageOf_evRing hw]
  dsimp only
  rw [hreg, hneed, if_neg (by decide), if_neg (by decide), if_pos rfl]
  unfold readEffects
  rw [if_neg (by decide), if_neg (by rw [pageFenced, hf]; decide)]

/-- The read of the first word of an event record latches the ring of the selected port. -/
theorem readOne_evRing {p : Params} {b : Block} (hl : b.mgt.latch = []) (hn : rdf p b (wA 0 5 0x040) 0 6 < p.ne) :
    (readOne p (.ward 0 5) 0x10504C b).2 = updMgt (fun m => { m with
      evLatch := Tbl.set none m.evLatch (rdf p b (wA 0 5 0x040) 0 6) (some (Tbl.get [] b.evr (rdf p b (wA 0 5 0x040) 0 6))) })
      (latchRest p (.ward 0 5) 0x10504C b) := by
  have hsel : selBad p b (.ward 0 5) 0x04C = false := by
    have hge : decide (p.ne ≤ rdf p b (wA 0 5 0x040) 0 6) = false := decide_eq_false (Nat.not_le.mpr hn)
    exact (congrArg (· || false) hge).trans rfl
  have hport : evPort p b 0 = rdf p b (wA 0 5 0x040) 0 6 := by rw [evPort, Nat.zero_mul, Nat.zero_add]
  unfold readOne
  dsimp only
  rw [hsel, latchedAt_nil hl, ← hport]
  rfl

/-- Settles O4: what each of the reads answers and latches. -/
theorem registerReads : Obligations.RegisterReads := by
  refine ⟨fun p q b w l hu hw hl hm => ?_, fun p q b hu hw hl => ?_, fun p q b v hu hw hl => ?_,
    fun p q b hu hw hl hnw hf ht hn => ?_⟩
  · refine takes_readReg (actWindowRead 0x4000C0) (fun _ => rfl) (fun _ => rfl) 0x4000C0 rfl hu hw rfl ?_
    rw [mgtRead_bcast p b hl hm]
    exact ⟨rfl, rfl, Tbl.get_set_same _ _ _ _, .next (updMgt_only _ _) (by decide) (updMgt_only _ _)⟩
  · refine takes_readReg (ok := fun p a => !inWin p a) (actMultiwordReadLatch (.mgt, 0x00A044)) (fun _ => rfl) (fun _ => rfl) 0xA044 rfl hu hw rfl ?_
    rw [mgtRead_snapLo p b hl]
    exact ⟨rfl, rfl, rfl, .next (updMgt_only _ _) (by decide) (updMgt_only _ _)⟩
  · refine takes_readReg (ok := fun p a => !inWin p a) (actMultiwordReadLatch (.mgt, 0x00A048)) (fun _ => rfl) (fun _ => rfl) 0xA048 rfl hu hw rfl ?_
    rw [mgtRead_snapHi p b v hl]
    exact ⟨rfl, rfl, rfl, .next (updMgt_only _ _) (by decide) (updMgt_only _ _)⟩
  · have hev : inEvent p 0x10504C = true := by
      unfold inEvent
      rw [pageOf_evRing hnw]
      rfl
    refine takes_readReg (actEventRingRead 0x10504C) (fun _ => rfl) (fun _ => rfl) 0x10504C rfl hu hw hev ?_
    rw [mgtRead_evRing hnw hf ht, readOne_evRing hl hn]
    refine ⟨?_, rfl, .next (updMgt_only _ _) (by decide) (.next (updMgt_only _ _) (by decide) (latchRest_only _ _ _ _))⟩
    exact (Tbl.get_set_same (none : Option (List EvEntry)) (latchRest p (.ward 0 5) 0x10504C b).mgt.evLatch
      (rdf p b (wA 0 5 0x040) 0 6) (some (Tbl.get [] b.evr (rdf p b (wA 0 5 0x040) 0 6))) :)

end Sys2Proof.Machine
end

section
/-! SUPPORT. A table of which each item of a list has one place updated. -/

namespace Sys2Proof.Machine

/-- Places updated one after another, each by a function that does no more the second time: a place of the list holds its
function of what it held, every other place what it held. -/
theorem forEach_keyed {α : Type} {f : Nat → Block → Block} {R : Block → Prop} (π : Block → Nat → α) (F : Nat → α → α)
    (hR : ∀ a c, R c → R (f a c)) (hs : ∀ a c, R c → π (f a c) a = F a (π c a))
    (hn : ∀ a c j, R c → j ≠ a → π (f a c) j = π c j) (hF : ∀ a x, F a (F a x) = F a x) (l : List Nat) {b : Block} (hb : R b)
    (j : Nat) : π (forEach l f b) j = if j ∈ l then F j (π b j) else π b j := by
  induction l generalizing b with
  | nil => rfl
  | cons a l ih =>
    rw [forEach_cons, ih (hR a b hb)]
    by_cases hj : j = a
    · subst hj
      rw [hs j b hb, hF, ite_self, if_pos List.mem_cons_self]
    · rw [hn a b j hb hj]
      simp only [List.mem_cons, hj, false_or]

/-- A key that a table does not list reads the default. -/
theorem Tbl.get_of_notMem {α : Type} (d : α) (t : Tbl α) {k : Nat} (h : k ∉ t.map Prod.fst) : Tbl.get d t k = d := by
  induction t with
  | nil => rfl
  | cons x t ih =>
    simp only [List.map_cons, List.mem_cons, not_or] at h
    rw [Tbl.get, if_neg (Ne.symm h.1), ih h.2]

/-- A key that a table lists reads one of its values. -/
theorem Tbl.get_mem {α : Type} (d : α) (t : Tbl α) {k : Nat} (h : k ∈ t.map Prod.fst) : (k, Tbl.get d t k) ∈ t := by
  induction t with
  | nil => exact absurd h List.not_mem_nil
  | cons x t ih =>
    rw [Tbl.get]
    split
    · next hk => exact hk ▸ List.mem_cons_self
    · next hk =>
      simp only [List.map_cons, List.mem_cons] at h
      exact List.mem_cons_of_mem _ (ih (h.resolve_left (Ne.symm hk)))

/-! ## What an object reads where its table is the same -/

theorem ent_congr {b c : Block} (h : c.ents = b.ents) (k : Nat) : ent c k = ent b k := by rw [ent, ent, h]

theorem prt_congr {b c : Block} (h : c.ports = b.ports) (k : Nat) : prt c k = prt b k := by rw [prt, prt, h]

theorem rng_congr {b c : Block} (h : c.rings = b.rings) (k : Nat) : rng c k = rng b k := by rw [rng, rng, h]

theorem ten_congr {b c : Block} (h : c.tens = b.tens) (k : Nat) : ten c k = ten b k := by rw [ten, ten, h]

theorem hsp_congr {b c : Block} (h : c.hasps = b.hasps) (k : Nat) : hsp c k = hsp b k := by rw [hsp, hsp, h]

theorem hng_congr {b c : Block} (h : c.hg = b.hg) (k : Nat) : hng c k = hng b k := by rw [hng, hng, h]

theorem pcl_congr {b c : Block} (h : c.pcls = b.pcls) (k : Nat) : pcl c k = pcl b k := by rw [pcl, pcl, h]

theorem chn_congr {b c : Block} (h : c.chans = b.chans) (k : Nat) : chn c k = chn b k := by rw [chn, chn, h]

theorem dmn_congr {b c : Block} (h : c.gov = b.gov) (k : Nat) : dmn c k = dmn b k := by rw [dmn, dmn, h]

theorem slt_congr {b c : Block} (h : c.slots = b.slots) (w n : Nat) : slt c w n = slt b w n := by rw [slt, slt, h]

theorem mqu_congr {b c : Block} (h : c.mq = b.mq) (w n : Nat) : mqu c w n = mqu b w n := by rw [mqu, mqu, h]

theorem cqu_congr {b c : Block} (h : c.cq = b.cq) (w n : Nat) : cqu c w n = cqu b w n := by rw [cqu, cqu, h]

theorem kpl_congr {b c : Block} (h : c.kpool = b.kpool) (n k : Nat) : kpl c n k = kpl b n k := by rw [kpl, kpl, h]

theorem rd_congr {p : Params} {b c : Block} (h : c.regs = b.regs) (a : Nat) : rd p c a = rd p b a := by rw [rd, rd, h]

end Sys2Proof.Machine
end

section
/-! PROOFS. Shadow fields and commit points (R230, R390 to R392). -/

namespace Sys2Proof.Machine

/-! ## A commit -/

/-- A placement class whose shadow becomes its working copy. -/
def committed (x : PClass) : PClass := { x with work := x.shadow, bad := x.bad.filter (· ∉ x.written), written := [] }

theorem committed_committed (x : PClass) : committed (committed x) = committed x := by
  simp [committed]

/-- The classes that the commit of a Ward puts into use. -/
def commitClasses (p : Params) (w : Nat) (b : Block) : Block :=
  forEach ((b.pcls.map Prod.fst).filter (pclHere p b w)) (fun c => updPcl c committed) b

/-- The guard modes that the commit of a Ward puts into use. -/
def commitModes (w : Nat) (b : Block) : Block :=
  forEach ((b.rings.filter (fun x => x.2.enable && decide (rHome x.2 = w))).map Prod.fst)
    (fun r c => updRing r (fun g => { g with gmode := (ten c (rTenant g)).gmode }) c) b

/-- WD_IQ_CFG of a Ward put into use. -/
def commitQueue (p : Params) (w : Nat) (b : Block) : Block :=
  { b with iqWork := Tbl.set 0x102 b.iqWork w (rd p b (wA w 0 0x0B4)) }

theorem commitAt_eq (p : Params) (w : Nat) (b : Block) :
    commitAt p w b = when (scopePend p b w) (fun c => { c with cmtTs := c.clk.ts })
      (commitQueue p w (commitModes w (commitClasses p w b))) := rfl

theorem commitClasses_only (p : Params) (w : Nat) (b : Block) : Only [.pcls] b (commitClasses p w b) :=
  .forEach (fun _ _ => updPcl_only _ _ _) (.refl _ _)

theorem commitModes_only (w : Nat) (b : Block) : Only [.rings] b (commitModes w b) :=
  .forEach (fun _ _ => updRing_only _ _ _) (.refl _ _)

theorem pcl_commitClasses (p : Params) (w : Nat) (b : Block) (c : Nat) :
    pcl (commitClasses p w b) c = if pclHere p b w c then committed (pcl b c) else pcl b c := by
  have h := forEach_keyed (f := fun c => updPcl c committed) (R := fun _ => True) pcl (fun _ => committed)
    (fun _ _ _ => trivial) (fun a x _ => pcl_updPcl_same a _ x) (fun a x j _ hj => pcl_updPcl_ne a _ x j hj)
    (fun _ => committed_committed) ((b.pcls.map Prod.fst).filter (pclHere p b w)) (b := b) trivial c
  refine h.trans ?_
  simp only [List.mem_filter]
  by_cases hc : c ∈ b.pcls.map Prod.fst
  · simp only [hc, true_and]
  · have hd : pcl b c = {} := Tbl.get_of_notMem _ _ hc
    rw [if_neg (fun h => hc h.1), hd]
    exact (ite_self _).symm

/-- A ring's guard mode taken from its tenant. -/
def withMode (b : Block) (g : Ring) : Ring := { g with gmode := (ten b (rTenant g)).gmode }

theorem rng_commitModes {w r : Nat} {b : Block} (he : (rng b r).enable = true) (hw : rHome (rng b r) = w) :
    rng (commitModes w b) r = withMode b (rng b r) := by
  have hkey : r ∈ b.rings.map Prod.fst := by
    by_contra hr
    rw [show rng b r = {} from Tbl.get_of_notMem _ _ hr] at he
    exact Bool.false_ne_true he
  have hmem : r ∈ (b.rings.filter (fun x => x.2.enable && decide (rHome x.2 = w))).map Prod.fst :=
    List.mem_map.mpr ⟨(r, rng b r), List.mem_filter.mpr ⟨Tbl.get_mem _ _ hkey, by simp [he, hw]⟩, rfl⟩
  have h := forEach_keyed (f := fun r c => updRing r (fun g => { g with gmode := (ten c (rTenant g)).gmode }) c)
    (R := fun c => c.tens = b.tens) rng (fun _ => withMode b) (fun _ _ h => h)
    (fun a x hx => (rng_updRing_same a _ x).trans (by rw [withMode, ten, ten, hx])) (fun a x j _ hj => rng_updRing_ne a _ x j hj)
    (fun _ _ => rfl) ((b.rings.filter (fun x => x.2.enable && decide (rHome x.2 = w))).map Prod.fst) rfl r
  exact h.trans (if_pos hmem)

/-- The request of a Ward's commit point is over. -/
def undue (w : Nat) (b : Block) : Block := { b with cmtDue := b.cmtDue.filter (· ≠ w) }

theorem undue_only (w : Nat) (b : Block) : Only [.cmtDue] b (undue w b) := by
  intro f hf
  cases f <;> first | rfl | exact absurd (by decide) hf

theorem not_mem_undue (w : Nat) (b : Block) : w ∉ (undue w b).cmtDue := by
  simp [undue]

/-- A commit point under QHOLD ends the request. -/
theorem commitPointAt_of_qhold {p : Params} {b : Block} (w : Nat) (h : qhold p b = true) :
    commitPointAt p w b = undue w b := if_pos h

theorem commitPointAt_of_not_qhold {p : Params} {b : Block} (w : Nat) (h : qhold p b = false) :
    commitPointAt p w b = commitAt p w (undue w b) :=
  if_neg (Bool.eq_false_iff.mp h)

/-- WD_IQ_CFG in use after a commit. -/
theorem commitAt_iqWork (p : Params) (w : Nat) (b : Block) :
    (commitAt p w b).iqWork = Tbl.set 0x102 b.iqWork w (rd p b (wA w 0 0x0B4)) := by
  have hiq : (commitModes w (commitClasses p w b)).iqWork = b.iqWork :=
    ((commitModes_only _ _).kept .iqWork rfl).trans ((commitClasses_only _ _ _).kept .iqWork rfl)
  have hregs : (commitModes w (commitClasses p w b)).regs = b.regs :=
    ((commitModes_only _ _).kept .regs rfl).trans ((commitClasses_only _ _ _).kept .regs rfl)
  have hts : ∀ (q : Bool) c, (when q (fun c : Block => { c with cmtTs := c.clk.ts }) c).iqWork = c.iqWork := fun q c => by
    cases q <;> rfl
  rw [commitAt_eq, hts, commitQueue, hiq, rd, hregs]
  rfl

theorem commitAt_tables (p : Params) (w : Nat) (b : Block) :
    (commitAt p w b).pcls = (commitClasses p w b).pcls ∧ (commitAt p w b).rings = (commitModes w (commitClasses p w b)).rings
    ∧ (commitAt p w b).cmtDue = b.cmtDue := by
  have hts : ∀ (q : Bool) c, (when q (fun c : Block => { c with cmtTs := c.clk.ts }) c).pcls = c.pcls
      ∧ (when q (fun c : Block => { c with cmtTs := c.clk.ts }) c).rings = c.rings
      ∧ (when q (fun c : Block => { c with cmtTs := c.clk.ts }) c).cmtDue = c.cmtDue := fun q c => by
    cases q <;> exact ⟨rfl, rfl, rfl⟩
  rw [commitAt_eq, (hts _ _).1, (hts _ _).2.1, (hts _ _).2.2]
  exact ⟨(commitModes_only _ _).kept .pcls rfl, rfl,
    ((commitModes_only _ _).kept .cmtDue rfl).trans ((commitClasses_only _ _ _).kept .cmtDue rfl)⟩

/-- A forced commit puts WD_IQ_CFG of each of its Wards into use. -/
theorem commitAll_iqWork {p : Params} {b : Block} (hq : qhold p b = false) {w : Nat} (hw : w < p.nw)
    (hf : fenced b w = false) : Tbl.get 0x102 (commitAll p b).iqWork w = rd p b (wA w 0 0x0B4) := by
  have hstep : ∀ v c, c.regs = b.regs → (commitPointAt p v c).iqWork = Tbl.set 0x102 c.iqWork v (rd p b (wA v 0 0x0B4)) := by
    intro v c hc
    have hqc : qhold p c = false := by rw [← hq, qhold, qhold, rd, rd, hc]
    rw [commitPointAt_of_not_qhold v hqc, commitAt_iqWork, rd, rd, ← hc]
    rfl
  have h := forEach_keyed (f := commitPointAt p) (R := fun c => c.regs = b.regs) (fun c j => Tbl.get 0x102 c.iqWork j)
    (fun v _ => rd p b (wA v 0 0x0B4)) (fun v c hc => ((commitPointAt_only p v c).kept .regs rfl).trans hc)
    (fun v c hc => by rw [hstep v c hc]; exact Tbl.get_set_same _ _ _ _)
    (fun v c j hc hj => by rw [hstep v c hc]; exact Tbl.get_set_ne _ _ _ _ _ hj) (fun _ _ => rfl)
    ((List.range p.nw).filter (fun w => !fenced b w)) rfl w
  exact h.trans (if_pos (by simp [hw, hf]))

/-- The fields that a write of KP_TEN_CFG leaves in its tenant. -/
def tenWritten (p : Params) (v : Word32) (b : Block) (x : Tenant) : Tenant :=
  { x with
    en := if !bitAt v 31 && (ten b (tenSel p b)).en && tenLive b (tenSel p b) then x.en else bitAt v 31
    lcOk := bitAt v 30, preemptible := bitAt v 29
    gmode := if decide (fld v 0 2 = 3) then x.gmode else fld v 0 2 }

theorem tenCfgWrite_tens (p : Params) (v : Word32) (b : Block) :
    (tenCfgWrite p v b).tens = (updTen (tenSel p b) (tenWritten p v b) b).tens :=
  (Only.when (fun _ => pgErr_only _ _ _ _) (.refl [.regs, .out] _) : Only _ _ (tenCfgWrite p v b)).kept .tens rfl

theorem ten_tenCfgWrite (p : Params) (v : Word32) (b : Block) :
    ten (tenCfgWrite p v b) (tenSel p b) = tenWritten p v b (ten b (tenSel p b)) :=
  (ten_congr (tenCfgWrite_tens p v b) _).trans (ten_updTen_same _ _ _)

theorem onlyTen_tenCfgWrite (p : Params) (v : Word32) (b : Block) : OnlyTen (tenSel p b) b (tenCfgWrite p v b) := fun _ hk =>
  (ten_congr (tenCfgWrite_tens p v b) _).trans (ten_updTen_ne _ _ _ _ hk)

/-- A tenant with every field of KP_TEN_CFG as written. -/
def tenTook (v : Word32) (x : Tenant) : Tenant :=
  { x with en := bitAt v 31, lcOk := bitAt v 30, preemptible := bitAt v 29, gmode := fld v 0 2 }

/-- A write of KP_TEN_CFG that keeps no field reports no error. -/
theorem tenCfgWrite_of_free {p : Params} {v : Word32} {b : Block} (hm : fld v 0 2 ≠ 3)
    (he : bitAt v 31 = true ∨ tenLive b (tenSel p b) = false) :
    tenCfgWrite p v b = updTen (tenSel p b) (tenTook v) b := by
  have hen : (!bitAt v 31 && (ten b (tenSel p b)).en && tenLive b (tenSel p b)) = false := by
    rcases he with h | h <;> simp [h]
  unfold tenCfgWrite
  dsimp only
  rw [hen, decide_eq_false hm]
  rfl

theorem mgtWrite_tenCfg (p : Params) (v : Word32) (b : Block) :
    mgtWrite p 0x2044 v b = dropHeld [2] (tenCfgWrite p v (mgtResp .okay b)) := rfl

/-- Settles O5: a class or a mode is put into use by the fold over its table, WD_IQ_CFG by its own write. -/
theorem shadowsAndCommits : Obligations.ShadowsAndCommits := by
  refine ⟨fun p q b v hf hm he => ?_, fun p q b w hu ha hq => ?_, fun p q b w hu ha hq => ?_, fun p q b hf hq => ?_,
    fun p q b v hf => ?_⟩
  · refine takes_runReg (actRwqShadowWrite 0x002044 v) (fun _ => rfl) (fun _ => rfl) hf ?_
    have e : mgtWrite p 0x2044 v b = _ :=
      (mgtWrite_tenCfg p v b).trans (congrArg (dropHeld [2]) (tenCfgWrite_of_free hm (.inl he)))
    rw [if_pos (by rfl)]
    refine e ▸ ?_
    refine ⟨(ten_updTen_same (tenSel p b) (tenTook v) (mgtResp .okay b) :).trans ?_,
      fun k hk => (ten_updTen_ne (tenSel p b) (tenTook v) (mgtResp .okay b) k hk :), .next (dropHeld_only _ _) (by decide)
      (.next (updTen_only _ _ _) (by decide) (.mono (mgtResp_only _ _) (by decide)))⟩
    rw [tenTook, he]
    rfl
  · refine takes_runW (actCommitPoint w) (fun _ => rfl) (fun _ => rfl) hu ?_
    rw [if_pos (by exact ha), commitPointAt_of_not_qhold w hq]
    obtain ⟨hpcl, hrng, hdue⟩ := commitAt_tables p w (undue w b)
    have hcls : ∀ c, pcl (commitAt p w (undue w b)) c = if pclHere p b w c then committed (pcl b c) else pcl b c := fun c =>
      (pcl_congr hpcl c).trans (pcl_commitClasses p w (undue w b) c)
    have hkept := commitClasses_only p w (undue w b)
    have hrings : (commitClasses p w (undue w b)).rings = b.rings := hkept.kept .rings rfl
    have htens : (commitClasses p w (undue w b)).tens = b.tens := hkept.kept .tens rfl
    refine ⟨fun c hc => ?_, fun c hc => ?_, fun r he hw => ?_, ?_, fun v hv => ?_, ?_, ?_⟩
    · rw [hcls, if_pos hc]
      rfl
    · rw [hcls, if_neg hc]
    · have hr : rng (commitClasses p w (undue w b)) r = rng b r := rng_congr hrings r
      refine (rng_congr hrng r).trans ?_
      refine (rng_commitModes (by rw [hr, he]) (by rw [hr, hw])).trans ?_
      rw [withMode, hr, ten, htens]
      rfl
    · rw [commitAt_iqWork]
      exact Tbl.get_set_same _ _ _ _
    · rw [commitAt_iqWork]
      exact Tbl.get_set_ne _ _ _ _ _ hv
    · rw [hdue]
      exact not_mem_undue w b
    · rw [← commitPointAt_of_not_qhold w hq]
      exact commitPointAt_only p w b
  · refine takes_runW (actCommitPoint w) (fun _ => rfl) (fun _ => rfl) hu ?_
    rw [if_pos (by exact ha), commitPointAt_of_qhold w hq]
    exact ⟨not_mem_undue w b, undue_only _ _⟩
  · refine takes_of_keeperReg (fun _ => rfl) hf ?_
    rw [regWrite_of_ready rfl]
    refine ⟨fun w hw hw' => commitAll_iqWork (by exact hq) hw hw', .next (dropHeld_only _ _) (by decide)
      (.next (commitAll_only _ _) (by decide) (.mono (updMgt_only _ _) (by decide)))⟩
  · refine takes_of_keeperReg (fun _ => rfl) hf ?_
    rw [regWrite_of_ready rfl]
    have h := ten_tenCfgWrite p v (updMgt (fun m => { m with resp := .okay }) b)
    refine ⟨?_, (congrArg Tenant.lcOk h :), (congrArg Tenant.preemptible h :), ((tenCfgWrite_only p v _).kept .rings rfl :),
      ((tenCfgWrite_only p v _).kept .pcls rfl :), (onlyTen_tenCfgWrite p v (updMgt (fun m => { m with resp := .okay }) b) :)⟩
    refine (congrArg Tenant.gmode h :).trans ?_
    simp only [tenWritten, decide_eq_true_eq]
    rfl

end Sys2Proof.Machine
end

section
/-! PROOFS. Rings, tenants and hasps written by register (R110, R111, R205, R206, R216, R230). -/

namespace Sys2Proof.Machine

/-- A Keeper-page register write while the port accepts writes and no scrub holds its table back. -/
theorem takes_keeperReg {c : Instr} {p : Params} {q : List Instr} {b : Block} {Q : Block → Prop} {a : Nat} {v : Word32}
    {tab : Bool} {f : Params → Block → Block} (he : ∀ s, exec c s = (s.sampled c).keeperReg a v tab f)
    (hfree : mgtFree b = true) (ht : tab = false ∨ tabReady b 0 = true) (hQ : Q (dropHeld [a / 0x1000] (f p (mgtResp .okay b)))) :
    Takes c p q b Q := by
  refine takes_of_keeperReg he hfree ?_
  rw [regWrite_of_ready (by rcases ht with h | h <;> cases tab <;> simp_all)]
  exact hQ

/-! ## Writes of a descriptor word -/

/-- A descriptor with word `k` written, its reserved bits staying 0. -/
def withWord (k : Nat) (v : Word32) (g : Ring) : Ring :=
  match k with
  | 0 => { g with d0 := v }
  | 1 => { g with d1 := v &&& 0xFFFFEFFF }
  | 2 => { g with d2 := v &&& 0xFFFFFF3F }
  | 3 => { g with d3 := v &&& 0x0FFFFFFF }
  | _ => { g with d4 := v }

theorem ringWrite_free {p : Params} {k : Nat} (v : Word32) {b : Block} (hh : bitAt (rd p b (kA 1 0x040)) 16 = false)
    (hk : k < 5) (he : (rng b (ringSel p b)).enable = false) (hs : (rng b (ringSel p b)).subs = []) :
    ringWrite p k v b = updRing (ringSel p b) (withWord k v) b := by
  unfold ringWrite
  dsimp only
  rw [if_neg (by simp [hh]; omega), if_neg (by omega), if_neg (by simp [he, hs])]
  rfl

theorem ringWrite_busy {p : Params} {k : Nat} (v : Word32) {b : Block} (hh : bitAt (rd p b (kA 1 0x040)) 16 = false)
    (hk : k < 5) (he : (rng b (ringSel p b)).enable = true ∨ (rng b (ringSel p b)).subs ≠ []) :
    ringWrite p k v b = ringRefuse p b := by
  unfold ringWrite
  dsimp only
  rw [if_neg (by simp [hh]; omega), if_neg (by omega), if_pos he]

theorem ringWrite_other {p : Params} {k : Nat} (v : Word32) {b : Block}
    (h : bitAt (rd p b (kA 1 0x040)) 16 = true ∨ 6 ≤ k) : ringWrite p k v b = b :=
  if_pos h

theorem ringWrite_enable {p : Params} {v : Word32} {b : Block} (hh : bitAt (rd p b (kA 1 0x040)) 16 = false) :
    ringWrite p 5 v b = writeEnable p (ringSel p b) (bitAt v 0) b := by
  unfold ringWrite
  dsimp only
  rw [if_neg (by simp [hh]), if_pos rfl]

/-! ## ENABLE -/

/-- A descriptor as ENABLE := 1 leaves it, but for its open steps. -/
def enabled (b : Block) (g : Ring) : Ring :=
  { g with
    enable := true, fptr := 0, rptr := 0, wptr := 0, step := 0, walk := { g.walk with loops := [] }, expSub := g.d4, recNo := 0
    cancelTo := none, repollAt := none, recRead := false, points := [], hangTicks := 0, hung := false, fenceFail := false
    gmode := (ten b (rTenant g)).gmode }

theorem enableRing_rng (r : Nat) (b : Block) : rng (enableRing r b) r =
    { enabled b (rng b r) with steps := if (rng b r).subs = [] then [] else (rng b r).steps } :=
  rng_updRing_same r (fun g => { enabled b g with steps := if g.subs = [] then [] else g.steps }) b

theorem enableRing_rng_ne {r k : Nat} (b : Block) (hk : k ≠ r) : rng (enableRing r b) k = rng b k :=
  rng_updRing_ne r (fun g => { enabled b g with steps := if g.subs = [] then [] else g.steps }) b k hk

theorem writeEnable_good {p : Params} {r : Nat} {b : Block} (he : (rng b r).enable = false) (hb : enableBad p b r = false) :
    writeEnable p r true b = enableRing r b := by
  unfold writeEnable
  dsimp only
  rw [if_pos rfl, if_neg (by rw [he]; decide), if_neg (by rw [hb]; decide)]

theorem writeEnable_bad {p : Params} {r : Nat} {b : Block} (he : (rng b r).enable = false) (hb : enableBad p b r = true) :
    writeEnable p r true b = ringRefuse p b := by
  unfold writeEnable
  dsimp only
  rw [if_pos rfl, if_neg (by rw [he]; decide), if_pos hb]

/-! ## Tenants and hasps -/

/-- EN := 0 of a tenant with live rings sets its error bit. -/
theorem tenCfgWrite_denied {p : Params} {v : Word32} {b : Block}
    (h : (!bitAt v 31 && (ten b (tenSel p b)).en && tenLive b (tenSel p b)) = true) :
    bitAt (rd p (tenCfgWrite p v b) (kA 2 0x010)) 2 = true := by
  unfold tenCfgWrite
  dsimp only
  rw [h, Bool.true_or, when_true]
  exact bitAt_rd_pgErr_page p (kA 2 0) _ (by decide)

theorem haspAssignAt_free {p : Params} (v : Word32) {b : Block} (h : waitersOn b (haspSel p b) = []) :
    haspAssignAt p v b = updHasp (haspSel p b) (fun x => { x with count := 0, v := bitAt v 31, tenant := fld v 0 8 }) b := by
  unfold haspAssignAt
  dsimp only
  rw [h, if_pos (by rfl)]

theorem haspAssignAt_held {p : Params} (v : Word32) {b : Block} (h : waitersOn b (haspSel p b) ≠ []) :
    haspAssignAt p v b = pgErr p (kA 5 0) 3 b := by
  unfold haspAssignAt
  dsimp only
  rw [if_neg (by simpa using h)]

/-! ## A write answered -/

/-- What a write that updates one ring leaves. -/
theorem written_updRing (pages : List Nat) (r : Nat) (f : Ring → Ring) (b : Block) :
    rng (dropHeld pages (updRing r f (mgtResp .okay b))) r = f (rng b r)
    ∧ OnlyRing r b (dropHeld pages (updRing r f (mgtResp .okay b)))
    ∧ Only [.mgt, .rings] b (dropHeld pages (updRing r f (mgtResp .okay b))) :=
  ⟨rng_updRing_same r f (mgtResp .okay b), fun k hk => rng_updRing_ne r f (mgtResp .okay b) k hk,
    .next (dropHeld_only _ _) (by decide) (.next (updRing_only _ _ _) (by decide) (.mono (mgtResp_only _ _) (by decide)))⟩

/-- What a write that updates one hasp leaves. -/
theorem written_updHasp (pages : List Nat) (h : Nat) (f : Hasp → Hasp) (b : Block) :
    hsp (dropHeld pages (updHasp h f (mgtResp .okay b))) h = f (hsp b h)
    ∧ OnlyHasp h b (dropHeld pages (updHasp h f (mgtResp .okay b)))
    ∧ Only [.mgt, .hasps] b (dropHeld pages (updHasp h f (mgtResp .okay b))) :=
  ⟨hsp_updHasp_same h f (mgtResp .okay b), fun k hk => hsp_updHasp_ne h f (mgtResp .okay b) k hk,
    .next (dropHeld_only _ _) (by decide) (.next (updHasp_only _ _ _) (by decide) (.mono (mgtResp_only _ _) (by decide)))⟩

/-- What a write that is refused with an error bit of a page leaves. -/
theorem written_pgErr (pages : List Nat) (p : Params) (base : Nat) {i : Nat} (hi : i < 32) (b : Block) :
    bitAt (rd p (dropHeld pages (pgErr p base i (mgtResp .okay b))) (base + 0x010)) i = true
    ∧ Only [.mgt, .regs, .out] b (dropHeld pages (pgErr p base i (mgtResp .okay b))) :=
  ⟨bitAt_rd_pgErr_page p base (mgtResp .okay b) hi,
    .next (dropHeld_only _ _) (by decide) (.next (pgErr_only _ _ _ _) (by decide) (.mono (mgtResp_only _ _) (by decide)))⟩

/-- Settles O6: each register by the one function that it writes through. -/
theorem configuration : Obligations.Configuration := by
  refine ⟨fun p q b k v hf ht hh hk he hs => ?_, fun p q b k v hf ht hh hk he => ?_, fun p q b k v hf ht h => ?_,
    fun p q b hf ht hh he hbad hs => ?_, fun p q b hf ht hh he hbad => ?_, fun p q b hf ht hh => ?_,
    fun p q b v hf hm he => ?_, fun p q b v hf hv he hl => ?_, fun p q b v hf ht hw => ?_, fun p q b v hf ht hw => ?_,
    fun p q b hf ht => ?_⟩
  · refine takes_keeperReg (fun _ => rfl) hf (.inr ht) ?_
    rw [ringWrite_free v (by exact hh) hk (by exact he) (by exact hs)]
    exact written_updRing _ (ringSel p b) (withWord k v) b
  · refine takes_keeperReg (fun _ => rfl) hf (.inr ht) ?_
    rw [ringWrite_busy v (by exact hh) hk (by exact he)]
    obtain ⟨hbit, honly⟩ := written_pgErr [kA 1 (0x044 + 4 * k) / 0x1000] p (kA 1 0) (i := 1) (by decide) b
    exact ⟨hbit, honly.kept .rings rfl, honly⟩
  · refine takes_keeperReg (fun _ => rfl) hf (.inr ht) ?_
    rw [ringWrite_other v (by exact h)]
    exact ⟨rfl, .next (dropHeld_only _ _) (by decide) (mgtResp_only _ _)⟩
  · refine takes_keeperReg (fun _ => rfl) hf (.inr ht) ?_
    rw [ringWrite_enable (by exact hh), show bitAt (1 : Word32) 0 = true from rfl]
    rw [writeEnable_good (by exact he) (by exact hbad)]
    refine ⟨(enableRing_rng _ _).trans ?_, fun k hk => enableRing_rng_ne _ hk, .next (dropHeld_only _ _) (by decide)
      (.next (enableRing_only _ _) (by decide) (.mono (mgtResp_only _ _) (by decide)))⟩
    exact congrArg (fun s => { enabled (mgtResp .okay b) (rng b (ringSel p b)) with steps := s }) (if_pos hs)
  · refine takes_keeperReg (fun _ => rfl) hf (.inr ht) ?_
    rw [ringWrite_enable (by exact hh), show bitAt (1 : Word32) 0 = true from rfl]
    rw [writeEnable_bad (by exact he) (by exact hbad)]
    obtain ⟨hbit, honly⟩ := written_pgErr [kA 1 0x058 / 0x1000] p (kA 1 0) (i := 1) (by decide) b
    exact ⟨hbit, honly.kept .rings rfl, honly.kept .tdone rfl, honly⟩
  · refine takes_keeperReg (fun _ => rfl) hf (.inr ht) ?_
    rw [ringWrite_enable (by exact hh), show bitAt (0 : Word32) 0 = false from rfl]
    exact written_updRing _ (ringSel p b) (fun g => { g with enable := false, recRead := false, repollAt := none }) b
  · refine takes_keeperReg (fun _ => rfl) hf (.inl rfl) ?_
    rw [tenCfgWrite_of_free hm (by exact he)]
    exact ⟨(ten_updTen_same (tenSel p b) (tenTook v) (mgtResp .okay b) :),
      fun k hk => (ten_updTen_ne (tenSel p b) (tenTook v) (mgtResp .okay b) k hk :), .next (dropHeld_only _ _) (by decide)
      (.next (updTen_only _ _ _) (by decide) (.mono (mgtResp_only _ _) (by decide)))⟩
  · refine takes_keeperReg (fun _ => rfl) hf (.inl rfl) ?_
    have hkeep : (!bitAt v 31 && (ten b (tenSel p b)).en && tenLive b (tenSel p b)) = true := by simp [hv, he, hl]
    refine ⟨?_, tenCfgWrite_denied (by exact hkeep), (onlyTen_tenCfgWrite p v (mgtResp .okay b) :),
      .next (dropHeld_only _ _) (by decide) (.next (tenCfgWrite_only _ _ _) (by decide) (.mono (mgtResp_only _ _) (by decide)))⟩
    refine (congrArg Tenant.en (ten_tenCfgWrite p v (mgtResp .okay b)) :).trans ?_
    exact (if_pos hkeep).trans he
  · refine takes_keeperReg (fun _ => rfl) hf (.inr ht) ?_
    rw [haspAssignAt_free v (by exact hw)]
    exact written_updHasp _ (haspSel p b) (fun x => { x with count := 0, v := bitAt v 31, tenant := fld v 0 8 }) b
  · refine takes_keeperReg (fun _ => rfl) hf (.inr ht) ?_
    rw [haspAssignAt_held v (by exact hw)]
    obtain ⟨hbit, honly⟩ := written_pgErr [kA 5 0x048 / 0x1000] p (kA 5 0) (i := 3) (by decide) b
    exact ⟨honly.kept .hasps rfl, hbit, honly⟩
  · refine takes_keeperReg (fun _ => rfl) hf (.inr ht) ?_
    have hh : ∀ k, hsp (haspForceAt p (mgtResp .okay b)) k = hsp (updHasp (haspSel p b)
        (fun x => { x with count := rd p b (kA 5 0x054) }) (mgtResp .okay b)) k := fun k =>
      hsp_congr ((logRec_only _ _ _).kept .hasps rfl) k
    exact ⟨(hh _).trans (hsp_updHasp_same _ _ _), fun k hk => (hh k).trans (hsp_updHasp_ne _ _ _ _ hk),
      .next (dropHeld_only _ _) (by decide) (.next (haspForceAt_only _ _) (by decide) (.mono (mgtResp_only _ _) (by decide)))⟩

end Sys2Proof.Machine
end

section
/-! PROOFS. POP of the error log, DOWN, REARM and LOCKED of a Hinge, DISC_FAULT and the fault capture (R147, R271, R272, R276,
R288, R297). -/

namespace Sys2Proof.Machine

/-- A command whose meaning on the block as it stands is known. -/
theorem takes_act {c : Instr} {p : Params} {q : List Instr} {b d : Block} {Q : Block → Prop} (act : State → Outcome)
    (he : ∀ s, exec c s = act (s.sampled c)) (ha : ∀ k, act ⟨p, q, b, k⟩ = .next ⟨p, q, d, k⟩) (hQ : Q d) :
    Takes c p q b Q := fun k ht hn =>
  ⟨d, (he _).trans (by rw [sampled_now c p q b k ht hn, ha]), hQ⟩

/-- A Keeper-page register write while the port accepts writes and no scrub holds its table back. -/
theorem keeperReg_next {p : Params} {b : Block} {a : Nat} {v : Word32} {tab : Bool} {f : Params → Block → Block}
    (hfree : mgtFree b = true) (ht : tab = false ∨ tabReady b 0 = true) (q : List Instr) (k : Cycle) :
    State.keeperReg a v tab f ⟨p, q, b, k⟩ = .next ⟨p, q, dropHeld [a / 0x1000] (f p (mgtResp .okay b)), k⟩ := by
  have hr : regWrite a v (if tab then [0] else []) [a / 0x1000] (f p) b = dropHeld [a / 0x1000] (f p (mgtResp .okay b)) :=
    regWrite_of_ready (by rcases ht with h | h <;> cases tab <;> simp_all)
  have hrun : State.keeperReg a v tab f ⟨p, q, b, k⟩
      = .next ⟨p, q, regWrite a v (if tab then [0] else []) [a / 0x1000] (f p) b, k⟩ := congrArg Host.Outcome.next (if_pos hfree)
  rw [hrun, hr]

/-- A register of a Hinge's page, at a block that has the Hinge. -/
theorem takes_hingeReg {c : Instr} {p : Params} {q : List Instr} {b : Block} {Q : Block → Prop} {h a : Nat} {v : Word32}
    {f : Params → Block → Block} (act : State → Outcome) (he : ∀ s, exec c s = act (s.sampled c))
    (ha : ∀ s, act s = if h < s.params.nh then s.keeperReg a v false f else .next s) (hh : h < p.nh) (hfree : mgtFree b = true)
    (hQ : Q (dropHeld [a / 0x1000] (f p (mgtResp .okay b)))) : Takes c p q b Q :=
  takes_act act he (fun k => (ha _).trans ((if_pos hh).trans (keeperReg_next hfree (.inl rfl) q k))) hQ

/-- What a write that updates one Hinge leaves. -/
theorem written_updHinge (pages : List Nat) (h : Nat) (f : Hinge → Hinge) (b : Block) :
    hng (dropHeld pages (updHinge h f (mgtResp .okay b))) h = f (hng b h)
    ∧ OnlyHinge h b (dropHeld pages (updHinge h f (mgtResp .okay b)))
    ∧ Only [.mgt, .hg] b (dropHeld pages (updHinge h f (mgtResp .okay b))) :=
  ⟨hng_updHinge_same h f (mgtResp .okay b), fun k hk => hng_updHinge_ne h f (mgtResp .okay b) k hk,
    .next (dropHeld_only _ _) (by decide) (.next (updHinge_only _ _ _) (by decide) (.mono (mgtResp_only _ _) (by decide)))⟩

theorem logPop_of_old {b : Block} (h : b.log.fresh < b.log.recs.length) :
    logCtrl 1 b = updLog (fun l => { l with recs := l.recs.tail }) b := by
  have e : logCtrl 1 b = updLog (fun l => if l.fresh < l.recs.length then { l with recs := l.recs.tail } else l) b := rfl
  rw [e, updLog, if_pos h, updLog]

theorem logPop_of_fresh {b : Block} (h : b.log.recs.length ≤ b.log.fresh) : logCtrl 1 b = b := by
  have e : logCtrl 1 b = updLog (fun l => if l.fresh < l.recs.length then { l with recs := l.recs.tail } else l) b := rfl
  rw [e, updLog, if_neg (Nat.not_lt.mpr h)]

/-- A Hinge that is taken down, `up` telling that it carried the timestamp. -/
def downed (up : Bool) (g : Hinge) : Hinge :=
  { g with
    state := .down, leftState := g.state, downPend := true, linkUp := false, helloRx := false, helloTx := false, stall := false
    badRun := if up then 8 else g.badRun }

theorem goDown_of_up (p : Params) {h : Nat} {b : Block} (hs : (hng b h).state ≠ .down) :
    goDown p h b = updHinge h (downed (bitAt (rd p b (hA h 0x04C)) 31
      && (decide ((hng b h).state = .active) || decide ((hng b h).state = .hold)))) b :=
  if_neg hs

/-- Settles O8: each register by the one function that it writes through. -/
theorem logHingeDeadboltRegisters : Obligations.LogHingeDeadboltRegisters := by
  refine ⟨fun p q b hf ht hr => ?_, fun p q b hf ht hr => ?_, fun p q b h hf hh hs => ?_, fun p q b h hf hh hs hd => ?_,
    fun p q b h hf hh => ?_, fun p q b hf ha hb => ?_, fun p q b hf => ?_⟩
  · refine takes_keeperReg (fun _ => rfl) hf (.inr ht) ?_
    rw [logPop_of_old (by exact hr)]
    exact ⟨rfl, .next (dropHeld_only _ _) (by decide) (.next (updLog_only _ _) (by decide) (.mono (mgtResp_only _ _) (by decide)))⟩
  · refine takes_keeperReg (fun _ => rfl) hf (.inr ht) ?_
    rw [logPop_of_fresh (by exact hr)]
    exact ⟨rfl, .next (dropHeld_only _ _) (by decide) (mgtResp_only _ _)⟩
  · refine takes_hingeReg (actHingeDownWrite h) (fun _ => rfl) (fun _ => rfl) hh hf ?_
    have e : hgCtrl p h 1 (mgtResp .okay b) = _ := goDown_of_up p (by exact hs)
    rw [e]
    obtain ⟨hd, hne, honly⟩ := written_updHinge [hA h 0x048 / 0x1000] h (downed (bitAt (rd p (mgtResp .okay b) (hA h 0x04C)) 31
      && (decide ((hng (mgtResp .okay b) h).state = .active) || decide ((hng (mgtResp .okay b) h).state = .hold)))) b
    rw [hd]
    exact ⟨rfl, rfl, rfl, rfl, hne, honly⟩
  · refine takes_hingeReg (actHingeRearm h) (fun _ => rfl) (fun _ => rfl) hh hf ?_
    have e : hgCtrl p h 2 (mgtResp .okay b) = emit (.linkReq h true)
        (updHinge h (fun g => { g with state := .train, rearmed := true, linkUp := false }) (mgtResp .okay b)) := by
      unfold hgCtrl
      rw [if_neg (by decide), if_pos ⟨rfl, by exact hs⟩]
    rw [e]
    obtain ⟨hd, hne, honly⟩ := written_updHinge [] h (fun g => { g with state := .train, rearmed := true, linkUp := false }) b
    exact ⟨hd, rfl, hne, .next (dropHeld_only _ _) (by decide) (.next (emit_only _ _) (by decide)
      (.next (updHinge_only _ _ _) (by decide) (.mono (mgtResp_only _ _) (by decide))))⟩
  · refine takes_hingeReg (actTsUnlock h) (fun _ => rfl) (fun _ => rfl) hh hf ?_
    obtain ⟨hd, hne, honly⟩ := written_updHinge [hA h 0x050 / 0x1000] h
      (fun g => { g with locked := bitAt (0 : Word32) 31, lost := g.lost && !bitAt (0 : Word32) 30 }) b
    refine ⟨hd.trans ?_, hne, honly⟩
    rw [show bitAt (0 : Word32) 30 = false from rfl, Bool.not_false, Bool.and_true]
    rfl
  · refine takes_keeperReg (fun _ => rfl) hf (.inl rfl) ?_
    have e : dbStatWrite 4 (mgtResp .okay b) = updDb (fun d => { d with discFault := false }) (mgtResp .okay b) := by
      unfold dbStatWrite
      rw [show (mgtResp .okay b).dbolt = b.dbolt from rfl, ha, hb]
      rfl
    rw [e]
    exact ⟨rfl, .next (dropHeld_only _ _) (by decide) (.next (updDb_only _ _) (by decide) (.mono (mgtResp_only _ _) (by decide)))⟩
  · refine takes_keeperReg (fun _ => rfl) hf (.inl rfl) ?_
    exact ⟨rfl, .next (dropHeld_only _ _) (by decide) (.next (capClear_only _ _) (by decide) (.mono (mgtResp_only _ _) (by decide)))⟩

end Sys2Proof.Machine
end

section
/-! PROOFS. Clearing counters, the counter snapshot and the blocked-on snapshot (R302 to R304, R322 to R324). -/

namespace Sys2Proof.Machine

/-! ## Counters cleared -/

/-- A table of which only keys with `q` are kept. -/
theorem Tbl.get_filter_key {α : Type} (d : α) (q : Nat → Bool) (t : Tbl α) (k : Nat) :
    Tbl.get d (t.filter (fun x => q x.1)) k = if q k then Tbl.get d t k else d := by
  induction t with
  | nil => exact (ite_self _).symm
  | cons x t ih =>
    rw [List.filter_cons]
    by_cases hx : x.1 = k
    · subst hx
      cases hq : q x.1
      · rw [if_neg Bool.false_ne_true, ih, hq]
        rfl
      · rw [if_pos rfl, Tbl.get, if_pos rfl, if_pos rfl, Tbl.get, if_pos rfl]
    · rw [Tbl.get, if_neg hx, ← ih]
      split
      · rw [Tbl.get, if_neg hx]
      · rfl

theorem get_clearBank (base k : Nat) (b : Block) :
    Tbl.get 0 (clearBank base b).cnt k = if base + 0x100 ≤ k ∧ k < base + 0x300 then 0 else Tbl.get 0 b.cnt k := by
  refine (Tbl.get_filter_key 0 (fun j => !(decide (base + 0x100 ≤ j) && decide (j < base + 0x300))) b.cnt k).trans ?_
  by_cases h : base + 0x100 ≤ k ∧ k < base + 0x300
  · simp [h]
  · rw [if_neg h, if_pos (by simp; omega)]

/-- What clearing a page's counters leaves in the counters. -/
theorem clearPage_counters (base : Nat) (b : Block) :
    (∀ o, o < 0x300 → 0x100 ≤ o → Tbl.get 0 (clearPage base b).cnt (base + o) = 0)
    ∧ (∀ k, k < base ∨ base + 0x300 ≤ k → Tbl.get 0 (clearPage base b).cnt k = Tbl.get 0 b.cnt k)
    ∧ base ∈ (clearPage base b).clk.clrDue := by
  refine ⟨fun o ho ho' => ?_, fun k hk => ?_, ?_⟩
  · exact (get_clearBank base _ _).trans (if_pos (by omega))
  · exact (get_clearBank base _ _).trans (if_neg (by omega))
  · change base ∈ (if base ∈ b.clk.clrDue then b.clk.clrDue else b.clk.clrDue ++ [base])
    split
    · assumption
    · exact List.mem_append_right _ List.mem_cons_self

/-- What clearing the Keeper's own counts leaves. -/
theorem zeroKeeper_counters (b : Block) :
    (zeroKeeper b).cnt = (clearBank (kA 10 0) b).cnt ∧ (zeroKeeper b).log = { b.log with cnt := [], dropped := 0 } := by
  have h : Only [.gov] (clearBank (kA 10 0) b) (forEach (b.gov.doms.map Prod.fst)
      (fun d => updDom d (fun x => { x with dlyStarts := 0, dlyCyc := 0 })) (clearBank (kA 10 0) b)) :=
    .forEach (fun _ _ => updDom_only _ _ _) (.refl _ _)
  exact ⟨h.kept .cnt rfl, congrArg (fun l : Log => { l with cnt := [], dropped := 0 }) (h.kept .log rfl)⟩

/-! ## The blocked-on snapshot -/

theorem blkAll_records (p : Params) (b : Block) (w : Nat) (hw : wardUp p b w = true) :
    Tbl.get 0 (blkAll p b).blk.ts w = b.clk.ts ∧ (Tbl.get [] (blkAll p b).blk.recs w).length ≤ 256 := by
  have hmem : w ∈ (List.range p.nw).filter (wardUp p b) := by
    have hw' := hw
    simp only [wardUp, Bool.and_eq_true, decide_eq_true_eq] at hw'
    exact List.mem_filter.mpr ⟨List.mem_range.mpr hw'.1.1.2, hw⟩
  have hts := forEach_keyed (f := blkBuild p) (R := fun c => c.clk = b.clk) (fun c j => Tbl.get 0 c.blk.ts j)
    (fun _ _ => b.clk.ts) (fun _ _ h => h) (fun a c hc => hc ▸ Tbl.get_set_same _ _ _ _)
    (fun a c j _ hj => Tbl.get_set_ne _ _ _ _ _ hj) (fun _ _ => rfl) ((List.range p.nw).filter (wardUp p b)) rfl w
  have hrecs := forEach_keyed (f := blkBuild p) (R := fun _ => True)
    (fun c j => decide ((Tbl.get [] c.blk.recs j).length ≤ 256)) (fun _ _ => true) (fun _ _ h => h) (fun a c _ => ?_)
    (fun a c j _ hj => ?_) (fun _ _ => rfl) ((List.range p.nw).filter (wardUp p b)) (b := b) trivial w
  · exact ⟨hts.trans (if_pos hmem), of_decide_eq_true (hrecs.trans (if_pos hmem))⟩
  · refine decide_eq_true ?_
    have e : Tbl.get [] (blkBuild p a c).blk.recs a = _ := Tbl.get_set_same _ _ _ _
    rw [e]
    exact List.length_take_le _ _
  · have e : Tbl.get [] (blkBuild p a c).blk.recs j = Tbl.get [] c.blk.recs j := Tbl.get_set_ne _ _ _ _ _ hj
    rw [e]

/-- The record sets built leave the order and DONE. -/
theorem blkAll_page (p : Params) (b : Block) : (blkAll p b).blk.builtAt = some b.clk.fclk
    ∧ (blkAll p b).blk.done = b.blk.done ∧ (blkAll p b).blk.orderAt = b.blk.orderAt := by
  have h : Only [.blk] b (forEach ((List.range p.nw).filter (wardUp p b)) (blkBuild p) b) :=
    .forEach (fun w c => blkBuild_only p w c) (.refl _ _)
  have hkept : Stays (fun c => (c.blk.done, c.blk.orderAt)) b
      (forEach ((List.range p.nw).filter (wardUp p b)) (blkBuild p) b) := .forEach (fun _ _ => .of_eq rfl) (.refl b)
  exact ⟨congrArg (fun k : Clk => some k.fclk) (h.kept .clk rfl), congrArg Prod.fst hkept.eq, congrArg Prod.snd hkept.eq⟩

/-! ## A register of a Ward's page -/

theorem members_ward {p : Params} {b : Block} {w : Nat} (hw : w < p.nw) (hf : fenced b w = false) :
    members p b (.ward w) = [w] := if_pos ⟨hw, by rw [hf]; rfl⟩

/-- A Ward-page register write while the port accepts writes and no scrub holds its table back. -/
theorem takes_wardReg {c : Instr} {p : Params} {q : List Instr} {b : Block} {Q : Block → Prop} {w pg o : Nat} {v : Word32}
    {tab : Bool} {f : Params → Nat → Block → Block} (act : State → Outcome) (he : ∀ s, exec c s = act (s.sampled c))
    (ha : ∀ s, act s = s.wardReg (.ward w) pg o v tab f) (hfree : mgtFree b = true) (hw : w < p.nw) (hf : fenced b w = false)
    (ht : tab = false ∨ tabReady b (w + 1) = true)
    (hQ : Q (dropHeld [wA w pg 0 / 0x1000] (f p w (mgtResp .okay b)))) : Takes c p q b Q := by
  refine takes_runReg (f := fun p b => wardWrite p (.ward w) pg o v tab (f p) b) act he ha hfree ?_
  have e : wardWrite p (.ward w) pg o v tab (f p) b = dropHeld [wA w pg 0 / 0x1000] (f p w (mgtResp .okay b)) := by
    unfold wardWrite
    dsimp only
    rw [members_ward hw hf, regWrite_of_ready (by rcases ht with h | h <;> cases tab <;> simp_all)]
    rfl
  rw [e]
  exact hQ

/-- Settles O9: counters by the filter that clears them, snapshots by the copies that they make. -/
theorem countersAndSnapshots : Obligations.CountersAndSnapshots := by
  refine ⟨fun p q b hf => ?_, fun p q b w hf hw hw' => ?_, fun p q b h hf hh => ?_, fun p q b hf => ?_, fun p q b hu hd => ?_,
    fun p q b hu hd => ?_, fun p q b hf => ?_, fun p q b hu hd => ?_, fun p q b hu hd => ?_⟩
  · refine takes_keeperReg (fun _ => rfl) hf (.inl rfl) ?_
    obtain ⟨hcnt, hlog⟩ := zeroKeeper_counters (clearPage (kA 10 0) (mgtResp .okay b))
    have hpage := clearPage_only (kA 10 0) (mgtResp .okay b)
    have hlog' : (clearKeeper (mgtResp .okay b)).log = { b.log with cnt := [], dropped := 0 } :=
      hlog.trans (congrArg (fun l : Log => { l with cnt := [], dropped := 0 }) (hpage.kept .log rfl))
    have hget : ∀ k, Tbl.get 0 (clearKeeper (mgtResp .okay b)).cnt k =
        if kA 10 0 + 0x100 ≤ k ∧ k < kA 10 0 + 0x300 then 0 else Tbl.get 0 b.cnt k := fun k => by
      rw [clearKeeper, hcnt, get_clearBank]
      refine ite_congr rfl (fun _ => rfl) fun hk => ?_
      exact (get_clearBank (kA 10 0) k _).trans (if_neg hk)
    refine ⟨fun o ho ho' => (hget _).trans (if_pos ⟨?_, ?_⟩), (congrArg Log.cnt hlog' :), (congrArg Log.dropped hlog' :),
      (congrArg Log.recs hlog' :), fun k hk => (hget k).trans (if_neg ?_), .next (dropHeld_only _ _) (by decide)
        (.next (clearKeeper_only _) (by decide) (.mono (mgtResp_only _ _) (by decide)))⟩ <;> unfold kA <;> omega
  · refine takes_wardReg (actCounterClear (.wards (.ward w))) (fun _ => rfl) (fun _ => rfl) hf hw hw' (.inl rfl) ?_
    obtain ⟨h0, hk, hd⟩ := clearPage_counters (wA w 6 0) (mgtResp .okay b)
    refine ⟨fun o ho ho' => h0 o ho ho', hk, hd, .next (dropHeld_only _ _) (by decide) (.next (clearPage_only _ _) (by decide)
      (.mono (mgtResp_only _ _) (by decide)))⟩
  · refine takes_keeperReg (fun _ => rfl) hf (.inl rfl) ?_
    obtain ⟨h0, hk, hd⟩ := clearPage_counters (hA h 0) (mgtResp .okay b)
    have e : when (decide (h < p.nh)) (clearPage (hA h 0)) (mgtResp .okay b) = clearPage (hA h 0) (mgtResp .okay b) := by
      rw [decide_eq_true hh, when_true]
    rw [e]
    refine ⟨fun o ho ho' => h0 o ho ho', hk, hd, .next (dropHeld_only _ _) (by decide) (.next (clearPage_only _ _) (by decide)
      (.mono (mgtResp_only _ _) (by decide)))⟩
  · refine takes_keeperReg (fun _ => rfl) hf (.inl rfl) ⟨rfl, .next (dropHeld_only _ _) (by decide)
      (.next (snapOrder_only _) (by decide) (.mono (mgtResp_only _ _) (by decide)))⟩
  · refine takes_runK actCounterSnapshot (fun _ => rfl) (fun _ => rfl) hu ?_
    rw [decide_eq_true hd, when_true]
    exact ⟨rfl, rfl, copyCounters_only b⟩
  · refine takes_runK actCounterSnapshot (fun _ => rfl) (fun _ => rfl) hu ?_
    rw [decide_eq_false hd, when_false]
  · refine takes_keeperReg (fun _ => rfl) hf (.inl rfl) ⟨rfl, .next (dropHeld_only _ _) (by decide)
      (.next (blkOrder_only _) (by decide) (.mono (mgtResp_only _ _) (by decide)))⟩
  · refine takes_runK actBlockedOnSnapshot (fun _ => rfl) (fun _ => rfl) hu ?_
    rw [decide_eq_true hd, when_true]
    obtain ⟨hat, hdone, horder⟩ := blkAll_page p b
    exact ⟨hat, hdone, horder, fun w hw => blkAll_records p b w hw, blkAll_only p b⟩
  · refine takes_runK actBlockedOnDone (fun _ => rfl) (fun _ => rfl) hu ?_
    rw [if_pos (by exact hd)]
    exact ⟨rfl, set_blk_only _ _⟩

end Sys2Proof.Machine
end

section
/-! SUPPORT. What a statement about a command says of one run: the block that the run ends in. -/

namespace Sys2Proof.Machine

/-- The block of the next state that a command answers. -/
def blockOf : Outcome → Block
  | .next s => s.block
  | _ => {}

/-- A command taken in a fresh cycle with nothing due ends in a block of which its statement holds. -/
theorem Takes.run {c : Instr} {p : Params} {q : List Instr} {b : Block} {Q : Block → Prop} (h : Takes c p q b Q)
    (ht : inTurn p b {} c = true) (hn : NoneDue b) : Q (blockOf (exec c ⟨p, q, b, {}⟩)) :=
  let ⟨_, he, hQ⟩ := h {} ht hn
  he ▸ hQ

/-- Nothing is due where nothing is on its way. -/
theorem noneDue_of_nil {b : Block} (h : b.xbar = []) : NoneDue b := fun _ hx =>
  absurd (h ▸ hx) List.not_mem_nil

end Sys2Proof.Machine
end

section
/-! PROOFS. The trace turned off (R314, R315). -/

namespace Sys2Proof.Machine

/-- A trace in POST with one page, of which the last staged entry stands in slot 248: the block written when the trace is
turned off fills the page. -/
def fullPage : Block :=
  { boot := { porst := false, stage := [(81, .ready)] }
    regs := [(trA 0x05C, 1)]
    trace := { state := .post, postCount := 249, staged := [⟨true, 0, 248, 0, 0, ⟨0, 1, .keeper, 0, 0, 0, 0, 0⟩⟩] } }

/-- Refutes O10: EN := 0 writes the staged entries with the padding of their block, and where the padding fills the post
region the trace stops and raises its interrupt, a register that the statement says is kept. -/
theorem not_dumpAndTraceControl : ¬ Obligations.DumpAndTraceControl := by
  intro h
  obtain ⟨-, -, -, -, -, -, -, hoff, -⟩ := h
  obtain ⟨-, -, hreg, -⟩ := (hoff {} [] fullPage (by decide)).run (by decide) (noneDue_of_nil rfl)
  exact absurd (hreg tIrq (by decide)) (by decide)

end Sys2Proof.Machine
end

section
/-! PROOFS. A tenant's window (R145). -/

namespace Sys2Proof.Machine

/-- A ring halted before an unread record. -/
def haltedRing : Block :=
  { boot := { porst := false, stage := [(81, .ready)] }
    rings := [(0, { enable := true, wptr := 1, haltKind := 1, halt := 0x06 })] }

/-- Refutes O11: a cancel of all that reaches past the record at which the ring is halted ends the halt, which the statement
says is kept. -/
theorem not_tenantWindow : ¬ Obligations.TenantWindow := by
  intro h
  obtain ⟨-, -, -, hall, -⟩ := h
  obtain ⟨hr, -, -⟩ := (hall {} [] haltedRing 0 0 0 (by decide) (by decide) (by decide)).run (by decide) (noneDue_of_nil rfl)
  exact absurd (congrArg Ring.haltKind hr) (by decide)

end Sys2Proof.Machine
end

section
/-! PROOFS. The meter's port, its periods and the signing of its records (R331 to R343). -/

namespace Sys2Proof.Machine

/-! ## The signer -/

theorem signNext_of_nil {b : Block} (h : b.meter.toSign = []) : signNext b = b := by
  unfold signNext
  dsimp only
  rw [h]

/-- An idle signer with room in the buffer takes the next record. -/
theorem signNext_cons {b : Block} {u : Unsigned} {l : List Unsigned} (h : b.meter.toSign = u :: l)
    (hs : b.meter.signing = none) (hb : b.meter.buf.length < 1024) :
    signNext b = ksSend u (updMeter (fun m => { m with toSign := l }) b) := by
  unfold signNext
  dsimp only
  rw [h]
  dsimp only
  rw [if_pos ⟨by rw [hs]; rfl, hb⟩]

/-- The signer changes only what it holds and what waits for it. -/
theorem signNext_meter (b : Block) : ∃ t g, (signNext b).meter = { b.meter with toSign := t, signing := g } := by
  unfold signNext
  dsimp only
  split
  · split
    · exact ⟨_, _, rfl⟩
    · exact ⟨_, _, rfl⟩
  · exact ⟨_, _, rfl⟩

theorem formRec_meter (r : MRec) (b : Block) :
    ∃ t g, (formRec r b).meter = { b.meter with seqNo := b.meter.seqNo + 1, toSign := t, signing := g } := by
  unfold formRec
  exact signNext_meter (updMeter (fun m => { m with
    toSign := m.toSign ++ [⟨{ r with seqNo := m.seqNo }, m.handle, m.unitId⟩], seqNo := m.seqNo + 1 }) b)

theorem closeOver_meter (b : Block) : (closeOver b).meter.closing = none ∧ (closeOver b).meter.seqNo = b.meter.seqNo
    ∧ (closeOver b).meter.lastForm = b.meter.lastForm
    ∧ ((closeOver b).meter.running = false ↔ b.meter.running = false ∨ (b.meter.run = false ∧ b.meter.stopReq = false)) := by
  unfold closeOver updMeter
  dsimp only
  by_cases h : b.meter.run = true ∨ b.meter.stopReq = true
  · rw [if_pos h]
    exact ⟨rfl, rfl, rfl, by simp only [Bool.eq_false_iff]; tauto⟩
  · rw [if_neg h]
    exact ⟨rfl, rfl, rfl, by simp only [Bool.eq_false_iff]; tauto⟩

/-- The last record of a close: one sequence number, and the close is over. -/
theorem closeOver_formRec (r : MRec) (b : Block) : (closeOver (formRec r b)).meter.closing = none
    ∧ (closeOver (formRec r b)).meter.seqNo = b.meter.seqNo + 1 ∧ (closeOver (formRec r b)).meter.lastForm = b.meter.lastForm
    ∧ ((closeOver (formRec r b)).meter.running = false ↔
        b.meter.running = false ∨ (b.meter.run = false ∧ b.meter.stopReq = false)) := by
  obtain ⟨t, g, h⟩ := formRec_meter r b
  have hc := closeOver_meter (formRec r b)
  rw [h] at hc
  exact hc

theorem signFail_meter {b : Block} {g : Signing} (h : b.meter.signing = some g) :
    (signFail b).meter = { b.meter with
      irq := b.meter.irq ||| 4, cntKeyerr := satAdd (2 ^ 32 - 1) b.meter.cntKeyerr 1
      signing := some { g with waitAck := false, retryAt := some (sclkOf b + 1024) } } := by
  unfold signFail updMeter
  dsimp only
  rw [h]
  rfl

/-- Settles O13: the acknowledgement, the two ways to fail, and the retry. -/
theorem meterSigning : Obligations.MeterSigning := by
  refine ⟨fun p q b m g hu hs hw ht => ?_, fun p q b m g hu hs hw => ?_, fun p q b g hu hs hw ht h => ?_,
    fun p q b g t hu hs hr h => ?_⟩
  · refine takes_runM (actKeyStoreAck m false) (fun _ => rfl) (fun _ => rfl) hu ?_
    rw [hs]
    dsimp only
    rw [if_pos hw, if_neg Bool.false_ne_true, signNext_of_nil (by exact ht)]
    exact ⟨rfl, rfl, rfl, rfl, .mono (updMeter_only _ _) (by decide)⟩
  · refine takes_runM (actKeyStoreAck m true) (fun _ => rfl) (fun _ => rfl) hu ?_
    dsimp only
    rw [hs]
    dsimp only
    rw [if_pos hw, if_pos rfl]
    exact ⟨signFail_meter hs, signFail_only b⟩
  · refine takes_runM actKeyStoreTimeout (fun _ => rfl) (fun _ => rfl) hu ?_
    dsimp only
    rw [hs]
    dsimp only
    rw [if_pos ⟨hw, ht, h⟩]
    exact ⟨signFail_meter hs, signFail_only b⟩
  · refine takes_runM actSignRetry (fun _ => rfl) (fun _ => rfl) hu ?_
    dsimp only
    rw [hs]
    dsimp only
    rw [hr]
    dsimp only
    rw [if_pos h]
    exact ⟨rfl, rfl, ksSend_only _ _⟩

/-! ## Periods -/

theorem set_tally_meter_only (v m) (b : Block) : Only [.tally, .meter] b { b with tally := v, meter := m } :=
  have h : Only [.meter] { b with tally := v } { b with tally := v, meter := m } := updMeter_only (fun _ => m) _
  .next h (by decide) (.mono (set_tally_only v b) (by decide))

/-- Settles O12: each access and each event by the function of the meter that it runs. -/
theorem meterPortAndPeriod : Obligations.MeterPortAndPeriod := by
  refine ⟨fun p q b hu hr hs ht hb => ?_, fun p q b hu hr hrun => ?_, fun p q b v hu hr => ?_, fun p q b c hu hr hc ho => ?_,
    fun p q b c hu hr hc => ?_, fun p q b hu ht => ?_, fun p q b k hu hl hd ho => ?_, fun p q b k hu hl hd ho => ?_,
    fun p q b hu ho h => ?_, fun p q b hu hw hf => ?_, fun p q b hu hw hf => ?_, fun p q b k hu hk hl hb hd hc => ?_⟩
  · refine takes_runM actMeterRun (fun _ => rfl) (fun _ => rfl) hu ?_
    have e : mtRun (mtOkay b) = _ := if_neg (Bool.eq_false_iff.mp hr)
    rw [e]
    unfold formRec
    rw [signNext_cons (by exact congrArg (· ++ _) ht) (by exact hs) (by exact hb)]
    exact ⟨rfl, rfl, rfl, rfl, rfl, rfl, rfl, rfl, .next (ksSend_only _ _) (by decide) (.next (updMeter_only _ _) (by decide)
      (.next (updMeter_only _ _) (by decide) (.next (updMeter_only _ _) (by decide) (.mono (updMeter_only _ _) (by decide)))))⟩
  · refine takes_runM actMeterStop (fun _ => rfl) (fun _ => rfl) hu ?_
    refine ⟨if_pos ⟨hr, hrun⟩, .next (updMeter_only _ _) (by decide) (updMeter_only _ _)⟩
  · refine takes_runM (actMeterConfigWrite (.key v)) (fun _ => rfl) (fun _ => rfl) hu ?_
    refine ⟨if_pos (by rw [show (mtOkay b).meter.running = false from hr]; rfl), .next (updMeter_only _ _) (by decide) (updMeter_only _ _)⟩
  · refine takes_runM (actMeterConfigWrite c) (fun _ => rfl) (fun _ => rfl) hu ?_
    refine ⟨?_, .next (updMeter_only _ _) (by decide) (updMeter_only _ _)⟩
    exact (if_neg (by rw [show (mtOkay b).meter.running = true from hr]; decide)).trans
      ((if_neg (Bool.eq_false_iff.mp hc)).trans (if_pos ho))
  · refine takes_runM (actMeterConfigWrite c) (fun _ => rfl) (fun _ => rfl) hu ?_
    refine ⟨?_, .next (updMeter_only _ _) (by decide) (updMeter_only _ _)⟩
    exact (if_neg (by rw [show (mtOkay b).meter.running = true from hr]; decide)).trans (if_pos hc)
  · refine takes_runM actMeterRecPop (fun _ => rfl) (fun _ => rfl) hu ?_
    unfold mtPop
    rw [signNext_of_nil (by exact ht)]
    exact ⟨rfl, .next (updMeter_only _ _) (by decide) (updMeter_only _ _)⟩
  · refine takes_runM (actTallySlotSample .ok) (fun _ => rfl) (fun _ => rfl) hu ?_
    dsimp only
    rw [if_neg hl, show dirtiest (updMeter _ b) _ = _ from hd]
    dsimp only [updMeter]
    rw [if_pos (by exact ho)]
    exact ⟨Tbl.get_set_same .., fun j hj => Tbl.get_set_ne _ _ _ _ _ hj, Tbl.get_upd_same .., fun t ht => Tbl.get_upd_ne _ _ _ _ _ ht, rfl, rfl,
      set_tally_meter_only _ _ b⟩
  · refine takes_runM (actTallySlotSample .badTenantLost) (fun _ => rfl) (fun _ => rfl) hu ?_
    dsimp only
    rw [if_neg hl, show dirtiest (updMeter _ b) _ = _ from hd]
    dsimp only [updMeter]
    rw [if_pos (by exact ho)]
    exact ⟨Tbl.get_set_same .., rfl, rfl, rfl, set_tally_meter_only _ _ b⟩
  · refine takes_runM actPeriodDue (fun _ => rfl) (fun _ => rfl) hu ?_
    dsimp only
    rw [if_pos ⟨ho, h⟩]
    exact ⟨rfl, updMeter_only _ _⟩
  · refine takes_runM actPeriodClose (fun _ => rfl) (fun _ => rfl) hu ?_
    dsimp only
    rw [hw, hf, if_neg (by decide), if_neg (by decide)]
    exact ⟨rfl, rfl, rfl, rfl, rfl, rfl, rfl, updMeter_only _ _⟩
  · refine takes_runM actPeriodClose (fun _ => rfl) (fun _ => rfl) hu ?_
    dsimp only
    rw [hw, hf, if_neg (by decide), if_pos (by decide)]
    exact ⟨rfl, updMeter_only _ _⟩
  · refine takes_runM (actRecordForm []) (fun _ => rfl) (fun _ => rfl) hu ?_
    rw [hk]
    dsimp only
    rw [if_neg hl]
    unfold formNext
    rw [show (updMeter (fun m => { m with lastForm := some (sclkOf b) }) b).meter.closeBank = [] from hb]
    dsimp only [List.find?]
    rw [hd, hc, if_pos (by decide), if_pos (by decide)]
    obtain ⟨hcl, hseq, hform, hrun⟩ := closeOver_formRec (closeRec k) (updMeter (fun m => { m with
      closing := some { k with closeDone := true, cfg := none } }) (updMeter (fun m => { m with lastForm := some (sclkOf b) }) b))
    exact ⟨hcl, hseq, hform, hrun, .next (closeOver_only _) (by decide) (.next (formRec_only _ _) (by decide)
      (.next (updMeter_only _ _) (by decide) (.mono (updMeter_only _ _) (by decide))))⟩

end Sys2Proof.Machine
end

section
/-! SUPPORT. The tables under an operation whose frame does not list them, and how the claims "only this entry" compose. -/

namespace Sys2Proof.Machine

namespace Only

variable {l : List BlockPart} {b c : Block}

theorem ent_eq (h : Only l b c) (hl : decide (BlockPart.ents ∈ l) = false) (k : Nat) : ent c k = ent b k :=
  ent_congr (h.kept .ents hl) k

theorem prt_eq (h : Only l b c) (hl : decide (BlockPart.ports ∈ l) = false) (k : Nat) : prt c k = prt b k :=
  prt_congr (h.kept .ports hl) k

theorem rng_eq (h : Only l b c) (hl : decide (BlockPart.rings ∈ l) = false) (k : Nat) : rng c k = rng b k :=
  rng_congr (h.kept .rings hl) k

theorem hng_eq (h : Only l b c) (hl : decide (BlockPart.hg ∈ l) = false) (k : Nat) : hng c k = hng b k :=
  hng_congr (h.kept .hg hl) k

theorem hsp_eq (h : Only l b c) (hl : decide (BlockPart.hasps ∈ l) = false) (k : Nat) : hsp c k = hsp b k :=
  hsp_congr (h.kept .hasps hl) k

theorem chn_eq (h : Only l b c) (hl : decide (BlockPart.chans ∈ l) = false) (k : Nat) : chn c k = chn b k :=
  chn_congr (h.kept .chans hl) k

end Only

theorem onlyEnt_updEnt (h : Nat) (f : Entry → Entry) (b : Block) : OnlyEnt h b (updEnt h f b) := fun k hk => ent_updEnt_ne h f b k hk

theorem onlyPort_updPort (n : Nat) (f : Port → Port) (b : Block) : OnlyPort n b (updPort n f b) := fun k hk => prt_updPort_ne n f b k hk

theorem onlyRing_updRing (r : Nat) (f : Ring → Ring) (b : Block) : OnlyRing r b (updRing r f b) := fun k hk => rng_updRing_ne r f b k hk

theorem onlyHinge_updHinge (h : Nat) (f : Hinge → Hinge) (b : Block) : OnlyHinge h b (updHinge h f b) := fun k hk =>
  hng_updHinge_ne h f b k hk

theorem onlyChan_setChan (c : Nat) (v : Option Chan) (b : Block) : OnlyChan c b (setChan c v b) := fun k hk => chn_setChan_ne c v b k hk

theorem onlyMQ_updMQ (w q : Nat) (f : MQ → MQ) (b : Block) : OnlyMQ (w * 64 + q) b (updMQ w q f b) := fun _ hj =>
  Tbl.get_upd_ne {} b.mq _ f _ hj

theorem onlyCQ_updCQ (w q : Nat) (f : CQ → CQ) (b : Block) : OnlyCQ (w * 64 + q) b (updCQ w q f b) := fun _ hj =>
  Tbl.get_upd_ne {} b.cq _ f _ hj

theorem onlyKPool_updKPool (n k : Nat) (f : KPool → KPool) (b : Block) : OnlyKPool (n * 16 + k) b (updKPool n k f b) := fun _ hj =>
  Tbl.get_upd_ne {} b.kpool _ f _ hj

section Compose

variable {b c d : Block} {l : List BlockPart} {k : Nat}

theorem OnlyEnt.next (h : Only l c d) (hl : decide (BlockPart.ents ∈ l) = false) (hb : OnlyEnt k b c) : OnlyEnt k b d := fun j hj =>
  (h.ent_eq hl j).trans (hb j hj)

theorem OnlyEnt.trans (hb : OnlyEnt k b c) (h : OnlyEnt k c d) : OnlyEnt k b d := fun j hj => (h j hj).trans (hb j hj)

theorem OnlyPort.next (h : Only l c d) (hl : decide (BlockPart.ports ∈ l) = false) (hb : OnlyPort k b c) : OnlyPort k b d := fun j hj =>
  (h.prt_eq hl j).trans (hb j hj)

theorem OnlyPort.trans (hb : OnlyPort k b c) (h : OnlyPort k c d) : OnlyPort k b d := fun j hj => (h j hj).trans (hb j hj)

theorem OnlyRing.next (h : Only l c d) (hl : decide (BlockPart.rings ∈ l) = false) (hb : OnlyRing k b c) : OnlyRing k b d := fun j hj =>
  (h.rng_eq hl j).trans (hb j hj)

theorem OnlyRing.trans (hb : OnlyRing k b c) (h : OnlyRing k c d) : OnlyRing k b d := fun j hj => (h j hj).trans (hb j hj)

theorem OnlyHinge.next (h : Only l c d) (hl : decide (BlockPart.hg ∈ l) = false) (hb : OnlyHinge k b c) : OnlyHinge k b d := fun j hj =>
  (h.hng_eq hl j).trans (hb j hj)

theorem OnlyHinge.trans (hb : OnlyHinge k b c) (h : OnlyHinge k c d) : OnlyHinge k b d := fun j hj => (h j hj).trans (hb j hj)

theorem OnlyHasp.next (h : Only l c d) (hl : decide (BlockPart.hasps ∈ l) = false) (hb : OnlyHasp k b c) : OnlyHasp k b d := fun j hj =>
  (h.hsp_eq hl j).trans (hb j hj)

theorem OnlyChan.next (h : Only l c d) (hl : decide (BlockPart.chans ∈ l) = false) (hb : OnlyChan k b c) : OnlyChan k b d := fun j hj =>
  (h.chn_eq hl j).trans (hb j hj)

theorem OnlyMQ.next (h : Only l c d) (hl : decide (BlockPart.mq ∈ l) = false) (hb : OnlyMQ k b c) : OnlyMQ k b d := fun j hj =>
  (congrArg (Tbl.get {} · j) (h.kept .mq hl)).trans (hb j hj)

theorem OnlyCQ.next (h : Only l c d) (hl : decide (BlockPart.cq ∈ l) = false) (hb : OnlyCQ k b c) : OnlyCQ k b d := fun j hj =>
  (congrArg (Tbl.get {} · j) (h.kept .cq hl)).trans (hb j hj)

theorem OnlyKPool.next (h : Only l c d) (hl : decide (BlockPart.kpool ∈ l) = false) (hb : OnlyKPool k b c) : OnlyKPool k b d := fun j hj =>
  (congrArg (Tbl.get {} · j) (h.kept .kpool hl)).trans (hb j hj)

end Compose

/-! ## A field of a port -/

theorem readsPart_prt {α : Type} (j : Nat) (π : Port → α) : ReadsPart .ports (fun b => π (prt b j)) := fun _ _ h =>
  congrArg (fun t => π (Tbl.get {} t j)) h

theorem readsPart_ent {α : Type} (j : Nat) (π : Entry → α) : ReadsPart .ents (fun b => π (ent b j)) := fun _ _ h =>
  congrArg (fun t => π (Tbl.get {} t j)) h

theorem updPort_stays {α : Type} {π : Port → α} {f : Port → Port} {j n : Nat} (hf : j = n → ∀ q, π (f q) = π q) (b : Block) :
    Stays (fun c => π (prt c j)) b (updPort n f b) := .of_eq <| by
  by_cases h : j = n
  · subst h
    exact (congrArg π (prt_updPort_same j f b)).trans (hf rfl _)
  · exact congrArg π (prt_updPort_ne n f b j h)

theorem updEnt_stays {α : Type} {π : Entry → α} {f : Entry → Entry} {j h : Nat} (hf : j = h → ∀ e, π (f e) = π e) (b : Block) :
    Stays (fun c => π (ent c j)) b (updEnt h f b) := .of_eq <| by
  by_cases hj : j = h
  · subst hj
    exact (congrArg π (ent_updEnt_same j f b)).trans (hf rfl _)
  · exact congrArg π (ent_updEnt_ne h f b j hj)

end Sys2Proof.Machine
end

section
/-! PROOFS. The issue of a task, and the preload of its argument record (R98 to R101, R347 to R350). -/

namespace Sys2Proof.Machine

/-- Binding a task at a port writes the port's lists of bound channels and nothing else of any port. -/
theorem bindTask_stays {α : Type} {π : Port → α} {j n : Nat} (hTx : j = n → ∀ q l, π { q with bindTx := l } = π q)
    (hRx : j = n → ∀ q l, π { q with bindRx := l } = π q) (p : Params) (word : Word32) (b : Block) :
    Stays (fun c => π (prt c j)) b (bindTask p n word b) := by
  have hp := readsPart_prt j π
  unfold bindTask
  refine .forEach (fun k c => ?_) (.refl b)
  refine .when (fun x => .next hp (xto_only _ _ _ _ _) rfl ?_) (.when (fun x => .next hp (xto_only _ _ _ _ _) rfl ?_) (.refl c))
  · exact .trans (.of_only hp (updChan_only _ _ _) rfl) (updPort_stays (fun h q => hRx h q _) _)
  · exact .trans (.of_only hp (updChan_only _ _ _) rfl) (updPort_stays (fun h q => hTx h q _) _)

theorem bindTask_onlyPort (p : Params) (n : Nat) (word : Word32) (b : Block) : OnlyPort n b (bindTask p n word b) := fun _ hj =>
  (bindTask_stays (π := id) (fun h => absurd h hj) (fun h => absurd h hj) p word b).eq

/-- A port without its lists of bound channels. -/
def portUnbound (q : Port) : Port := { q with bindTx := [], bindRx := [] }

theorem bindTask_port (p : Params) (n j : Nat) (word : Word32) (b : Block) :
    portUnbound (prt (bindTask p n word b) j) = portUnbound (prt b j) :=
  (bindTask_stays (π := portUnbound) (fun _ _ _ => rfl) (fun _ _ _ => rfl) p word b).eq

/-- A proxy notice moves the state of its entry and nothing else of it. -/
theorem proxyState_stays {α : Type} {π : Entry → α} {j h : Nat}
    (hπ : j = h → ∀ e st place ran, π { e with st := st, place := place, ran := ran } = π e) (kind : ProxyKind) (b : Block) :
    Stays (fun c => π (ent c j)) b (proxyState kind h b) := by
  unfold proxyState
  exact updEnt_stays (fun hj e => by split <;> exact hπ hj e _ _ _) b

/-- A notice to the home Ward, given at once or sent. -/
theorem notice_stays {α : Type} {π : Entry → α} {j h : Nat} {q : Prop} [Decidable q]
    (hπ : j = h → ∀ e st place ran, π { e with st := st, place := place, ran := ran } = π e) (kind : ProxyKind) (s : Option Nat) (k : Nat)
    (i : XItem) (b : Block) : Stays (fun c => π (ent c j)) b (if q then proxyState kind h b else xsend s k i b) := by
  split
  · exact proxyState_stays hπ kind b
  · exact .of_only (readsPart_ent j π) (xsend_only s k i b) rfl

theorem notice_only {h : Nat} {q : Prop} [Decidable q] (kind : ProxyKind) (s : Option Nat) (k : Nat) (i : XItem) (b : Block) :
    Only [.cnt, .ents, .xbar] b (if q then proxyState kind h b else xsend s k i b) := by
  split
  · exact .mono (proxyState_only kind h b) (by decide)
  · exact .mono (xsend_only s k i b) (by decide)

theorem notice_onlyEnt {h : Nat} {q : Prop} [Decidable q] (kind : ProxyKind) (s : Option Nat) (k : Nat) (i : XItem) (b : Block) :
    OnlyEnt h b (if q then proxyState kind h b else xsend s k i b) := fun _ hj =>
  (notice_stays (π := id) (fun e => absurd e hj) kind s k i b).eq

/-- The commit sets the port and dates the entry; the binding and the notice to the home Ward leave both. -/
theorem commitIssue_writes (p : Params) (n : Nat) (x : IqEnt) (b : Block) :
    portUnbound (prt (commitIssue p n x b) n) = portUnbound { prt b n with
      iq := (prt b n).iq.filter (fun y => !(decide (y.handle = x.handle) && decide (y.gen = x.gen))), wait := none
      run := some ⟨x.handle, x.gen, b.clk.fclk, b.clk.ts⟩, iss := some x.handle
      issBinds := decide ((ent b x.handle).d.arglen ≠ 0) }
    ∧ (ent (commitIssue p n x b) x.handle).runAt = b.clk.fclk
    ∧ OnlyEnt x.handle b (commitIssue p n x b) ∧ OnlyPort n b (commitIssue p n x b) := by
  unfold commitIssue
  dsimp only
  generalize hu : updPort n _ b = u
  generalize hk : bump _ _ (bump _ _ u) = k
  have huk : Only [.cnt] u k := hk ▸ .next (bump_only _ _ _) (by decide) (bump_only _ _ _)
  generalize hc : updEnt x.handle _ k = c
  generalize hd : xsend _ _ (.release n x.handle true) _ = d
  have hcd : Only [.cnt, .evr, .trace, .xbar, .out] c d := hd ▸ .next (xsend_only _ _ _ _) (by decide)
    (.next (evRec_only _ _ _ _ _ _ _ _) (by decide) (.next (trTask_only _ _ _ _ _ _ _) (by decide) (.mono (emit_only _ _) (by decide))))
  have hdp : OnlyPort n b d := .next hcd rfl fun j hj => by
    rw [← hc, prt_updEnt, huk.prt_eq rfl, ← hu, prt_updPort_ne _ _ _ _ hj]
  have hde : OnlyEnt x.handle b d := .next hcd rfl fun j hj => by
    rw [← hc, ent_updEnt_ne _ _ _ _ hj, huk.ent_eq rfl, ← hu, ent_updPort]
  refine ⟨?_, ?_, ?_, ?_⟩
  · rw [(notice_only _ _ _ _ _).prt_eq rfl, bindTask_port, hcd.prt_eq rfl, ← hc, prt_updEnt, huk.prt_eq rfl, ← hu, prt_updPort_same]
  · refine (notice_stays (π := Entry.runAt) (fun _ _ _ _ _ => rfl) _ _ _ _ _).eq.trans ?_
    rw [(bindTask_only _ _ _ _).ent_eq rfl, hcd.ent_eq rfl, ← hc, ent_updEnt_same]
    exact congrArg Clk.fclk ((huk.kept .clk rfl).trans (hu ▸ rfl))
  · exact .trans (.next (bindTask_only _ _ _ _) rfl hde) (notice_onlyEnt _ _ _ _ _)
  · exact .next (notice_only _ _ _ _ _) rfl (.trans hdp (bindTask_onlyPort _ _ _ _))

/-- A beat that is given on to the engine. -/
theorem forEach_emit_out {α : Type} (l : List α) (f : α → Out) (b : Block) :
    (forEach l (fun x => emit (f x)) b).out.length = b.out.length + l.length := by
  induction l generalizing b with
  | nil => rfl
  | cons x l ih =>
    rw [forEach_cons, ih, List.length_cons]
    exact (congrArg (· + l.length) List.length_append).trans (by simp only [List.length_singleton]; omega)

/-- A shadow buffer that fills marks its task preloaded in the issue queue and tells the home Ward. -/
theorem markPreloaded_port (p : Params) (n h g j : Nat) (b : Block) :
    (prt (markPreloaded p n h g b) j).shadow = (prt b j).shadow ∧ (prt (markPreloaded p n h g b) j).run = (prt b j).run
    ∧ OnlyPort n b (markPreloaded p n h g b) := by
  unfold markPreloaded
  split
  · exact ⟨rfl, rfl, fun _ _ => rfl⟩
  next x hx =>
    dsimp only
    have fr : ∀ c, Only [.cnt, .ents, .evr, .xbar] c (if portWard p n = homeOf h then
        proxyState .preloaded h (evRec p n 3 0 ((ent c h).d.arglen % 64) g h c) else
        xsend (some (portWard p n)) 16 (.proxy (wordOf p (evRec p n 3 0 ((ent c h).d.arglen % 64) g h c) h) .preloaded)
          (evRec p n 3 0 ((ent c h).d.arglen % 64) g h c)) := fun c =>
      .next (notice_only _ _ _ _ _) (by decide) (.mono (evRec_only _ _ _ _ _ _ _ _) (by decide))
    have hs : ∀ {α : Type} (π : Port → α), (∀ q l, π { q with iq := l } = π q) → ∀ f : List IqEnt → List IqEnt,
        π (prt (updPort n (fun q => { q with iq := f q.iq }) b) j) = π (prt b j) := fun π hπ f =>
      (updPort_stays (π := π) (fun _ q => hπ q _) b).eq
    refine ⟨?_, ?_, .next (fr _) rfl (onlyPort_updPort n _ b)⟩
    · exact (congrArg Port.shadow ((fr _).prt_eq rfl j)).trans (hs Port.shadow (fun _ _ => rfl) _)
    · exact (congrArg Port.run ((fr _).prt_eq rfl j)).trans (hs Port.run (fun _ _ => rfl) _)

/-- Settles O14: the commit, the accepted descriptor, and the three steps of a preload. -/
theorem issueAndPreload : Obligations.IssueAndPreload := by
  refine ⟨fun p q b n x hu hx => ?_, fun p q b n h hu hi => ?_, fun p q b n x hu hr hm hs hx => ?_,
    fun p q b n r l h g k e hu hs hl => ?_, fun p q b n h g e hu hs => ?_⟩
  · refine takes_run (actIssueCommit n true) (fun _ => rfl) (fun _ => rfl) hu ?_
    rw [if_pos rfl, hx]
    dsimp only
    obtain ⟨hp, he, hoe, hop⟩ := commitIssue_writes p n x b
    exact ⟨congrArg Port.run hp, congrArg Port.iss hp, congrArg Port.wait hp, congrArg Port.iq hp, he, hoe, hop⟩
  · refine takes_run (actIssDescriptorAccepted n) (fun _ => rfl) (fun _ => rfl) hu ?_
    rw [hi]
    dsimp only
    by_cases ht : tmoLimit p b (ent b h).d.tmo = 0
    · rw [decide_eq_false (not_not.mpr ht), when_false, if_pos ht, prt_updPort_same]
      exact ⟨rfl, rfl, rfl, rfl, fun _ _ => rfl, onlyPort_updPort n _ b, .mono (updPort_only n _ b) (by decide)⟩
    · rw [decide_eq_true ht, when_true, if_neg ht, prt_updEnt, prt_updPort_same]
      exact ⟨rfl, rfl, rfl, ent_updEnt_same .., onlyEnt_updEnt h _ _, .next (updEnt_only h _ _) rfl (onlyPort_updPort n _ b),
        .next (updEnt_only h _ _) (by decide) (.mono (updPort_only n _ b) (by decide))⟩
  · refine takes_run (actPreloadStart n) (fun _ => rfl) (fun _ => rfl) hu ?_
    dsimp only
    rw [if_pos (by rw [hr, hs, hm]; rfl), hx]
    have fr : ∀ l w t be c, Only [.out] c (forEach l (fun a => mpR p w a t be) c) := fun l w t be c =>
      .forEach (fun a x => mpR_only p w a t be x) (.refl _ c)
    refine ⟨((fr _ _ _ _ _).prt_eq rfl n).trans (prt_updPort_same n _ b), .next (fr _ _ _ _ _) rfl (onlyPort_updPort n _ b),
      .next (fr _ _ _ _ _) (by decide) (.mono (updPort_only n _ b) (by decide))⟩
  · refine takes_run (actArgumentReadResponse n r l) (fun _ => rfl) (fun _ => rfl) hu ?_
    rw [hs]
    dsimp only
    rw [if_pos hl]
    have fr : ∀ (l : List (BitVec 256 × Nat)) (f : BitVec 256 × Nat → Out) c, Only [.out] c (forEach l (fun x => emit (f x)) c) := fun l f c =>
      .forEach (fun a x => emit_only (f a) x) (.refl _ c)
    refine ⟨((fr _ _ _).prt_eq rfl n).trans (prt_updPort_same n _ b), .next (fr _ _ _) rfl (onlyPort_updPort n _ b), ?_,
      .next (fr _ _ _) (by decide) (.mono (updPort_only n _ b) (by decide))⟩
    exact (forEach_emit_out _ _ _).trans (congrArg (b.out.length + ·) List.length_zipIdx)
  · refine takes_run (actPreloadComplete n) (fun _ => rfl) (fun _ => rfl) hu ?_
    rw [hs]
    obtain ⟨hsh, hrun, ho⟩ := markPreloaded_port p n h g n (updPort n (fun q => { q with shadow := .full h g e }) b)
    rw [prt_updPort_same] at hsh hrun
    exact ⟨hsh, hrun, .trans (onlyPort_updPort n _ b) ho⟩

end Sys2Proof.Machine
end

section
/-! PROOFS. Records of an engine (R57, R103, R350 to R352). -/

namespace Sys2Proof.Machine

/-- A port with two rereads on their way, the one of task 1 in front. -/
def twoRereads : Block :=
  { boot := { porst := false, stage := [(0, .ready), (1, .ready)] }, xbar := [.reread 0 1, .reread 0 0] }

/-- Refutes O15: a reread that is not at the front of its port's lane is not taken, and the statement asks only that it is on
its way. -/
theorem not_completionAtPort : ¬ Obligations.CompletionAtPort := by
  intro h
  obtain ⟨-, -, -, -, hre⟩ := h
  obtain ⟨-, hx, -⟩ := (hre {} [] twoRereads 0 0 (by decide) (by decide)).run (by decide) (by decide)
  exact absurd hx (by decide)

end Sys2Proof.Machine
end

section
/-! PROOFS. Statements whose premises leave a case out: a state that meets them and refutes the statement. -/

namespace Sys2Proof.Machine

/-- A running task with a cancel on its way. -/
def cancelledTwice : Block :=
  { boot := { porst := false, stage := [(0, .ready), (1, .ready)] }, ents := [(0, { st := .running })], xbar := [.cancelTask 0 0] }

/-- Refutes O23: a cancel of a running task consumes the cancel that is already on its way, so the crossbar changes. -/
theorem not_entryLifecycle : ¬ Obligations.EntryLifecycle := by
  intro h
  obtain ⟨-, -, -, -, -, -, -, hrun⟩ := h
  obtain ⟨-, -, hx⟩ := (hrun {} [] cancelledTwice 0 (by decide) (by decide)).run (by decide) (by decide)
  exact absurd (congrArg List.length (hx .xbar (by decide))) (by decide)

/-- Two releases of port 0 on their way, that of task 1 in front. -/
def twoReleases : Block :=
  { boot := { porst := false, stage := [(0, .ready)] }, xbar := [.release 0 1 true, .release 0 0 true]
    ents := [(0, { d := { rinst := some 0 } })] }

/-- Refutes O26: a release that is not at the front of its port's lane is not taken, and the statement asks only that it is on
its way. -/
theorem not_releasesAndTokens : ¬ Obligations.ReleasesAndTokens := by
  intro h
  obtain ⟨hrel, -⟩ := h
  obtain ⟨-, -, hx, -⟩ := (hrel {} [] twoReleases 0 0 (by decide) (by decide) (by decide)).run (by decide) (by decide)
  exact absurd hx (by decide)

/-- An open request of a task that is gone. -/
def orphanOpen : Chan := { tenant := 0, dir := 0, tx := .port 0, rx := .port 0, owner := .task 0 }

/-- The directory with that request on its way. -/
def orphanRequest : Block :=
  { boot := { porst := false, stage := [(0, .ready)] }, xbar := [.chAlloc orphanOpen 0 0 []] }

/-- The lowest ID is the free one. -/
theorem freeCh_of_zero {b : Block} (h : chn b 0 = none) : freeCh b = some 0 := by
  unfold freeCh
  exact List.find?_range_eq_some.mpr ⟨by rw [h]; rfl, List.mem_range.mpr (by decide), fun j hj => absurd hj (Nat.not_lt_zero j)⟩

theorem orphanRequest_closing : Takes .channelAllocate {} [] orphanRequest fun d => (chn d 0).map Chan.closing = some true := by
  refine takes_runK actChannelAllocate (fun _ => rfl) (fun _ => rfl) (by decide) ?_
  rw [show xfind orphanRequest isAlloc = some (.chAlloc orphanOpen 0 0 []) by decide]
  dsimp only
  rw [if_pos (by decide), freeCh_of_zero (by decide)]
  decide

/-- Refutes O39: a channel whose owner task is gone by the time of its allocation is allocated with its close begun. -/
theorem not_channelLife : ¬ Obligations.ChannelLife := by
  intro h
  obtain ⟨halloc, -⟩ := h
  obtain ⟨hc, -⟩ := (halloc {} [] orphanRequest orphanOpen 0 0 [] 0 (by decide) (by decide) (freeCh_of_zero rfl) (by decide) (by decide)
    (by decide)).run (by decide) (by decide)
  have hcl := orphanRequest_closing.run (by decide) (by decide)
  rw [hc] at hcl
  exact absurd hcl (by decide)

/-- A timestamp that is lost, with a correction pending. -/
def lostSlewing : Block :=
  { boot := { porst := false, stage := [(0, .ready)] }, clk := { fclk := 40, pend := 3 }, regs := [(hA 0 0x04C, 0x80000000)]
    hg := [(0, { lost := true })] }

/-- Refutes O44: a timestamp that is LOST is not slewed. -/
theorem not_federationTime : ¬ Obligations.FederationTime := by
  intro h
  obtain ⟨-, -, -, -, -, hslew, -⟩ := h
  obtain ⟨hk, -⟩ := (hslew {} [] lostSlewing (by decide) (by decide) (by decide) (by decide) (by decide) (by decide)).run (by decide) (by decide)
  exact absurd (congrArg Clk.pend hk) (by decide)

/-- A disagreement that is already longer than DISC and not yet latched, as when DISC was lowered under it. -/
def overLimit : Block := { boot := { porst := false, stage := [(0, .ready)] }, dbolt := { disagree := 1000000 } }

/-- Refutes O50: a count of disagreeing samples past DISC, not only at it, is the disagreement fault. -/
theorem not_deadboltAndHang : ¬ Obligations.DeadboltAndHang := by
  intro h
  obtain ⟨-, -, hshort, -⟩ := h
  obtain ⟨hd, -⟩ := (hshort {} [] overLimit true (by decide) (by decide)).run (by decide) (by decide)
  exact absurd (congrArg Dbolt.discFault hd) (by decide)

end Sys2Proof.Machine
end

section
/-! PROOFS. The state of an engine port: reset, credits, CTL, snapshots and the delivery of OPD and STATUS beats (R168, R355
to R362). -/

namespace Sys2Proof.Machine

/-! ## What a settlement leaves at a port -/

/-- A port without its stage, its shadow buffer and its cancels: what a settlement leaves of it. -/
def portSettled (q : Port) : Port := { q with stage := none, shadow := .free, cans := [] }

theorem readsPart_port (j : Nat) : ReadsPart .ports (fun b => prt b j) := readsPart_prt j id

theorem settled_canSend (p : Params) (n h g j : Nat) (b : Block) :
    Stays (fun c => portSettled (prt c j)) b (canSend p n h g b) :=
  .next (readsPart_prt j _) (evRec_only _ _ _ _ _ _ _ _) rfl (.next (readsPart_prt j _) (emit_only _ _) rfl
    (updPort_stays (fun _ _ => by rfl) b))

theorem settled_stopPreload (n h g j : Nat) (b : Block) : Stays (fun c => portSettled (prt c j)) b (stopPreload n h g b) := by
  unfold stopPreload
  refine updPort_stays (fun _ q => ?_) b
  split
  · split
    · rfl
    · rfl
  · rfl

theorem settled_unstage (p : Params) (h j : Nat) (b : Block) : Stays (fun c => portSettled (prt c j)) b (unstage p h b) := by
  have hp := readsPart_prt j portSettled
  unfold unstage
  dsimp only
  split
  · exact .when (fun x => .of_only hp (xsend_only _ _ _ _) rfl) (.refl b)
  · split
    · unfold unloadStage
      split
      · refine .trans ?_ (settled_canSend p _ _ _ j _)
        refine .next hp (trTask_only _ _ _ _ _ _ _) rfl (.next hp (bump_only _ _ _) rfl (.trans ?_ (settled_stopPreload _ _ _ j _)))
        exact .next hp (updEnt_only _ _ _) rfl (updPort_stays (fun _ _ => by rfl) b)
      · exact .refl b
    · exact .of_only hp (xsend_only _ _ _ _) rfl

theorem settled_settle (p : Params) (h : Nat) (st : TState) (status : Status) (root : Option Word32) (rel : Bool)
    (run : Option (Nat × Nat)) (stats : Option (BitVec 256)) (aux : Word32) (j : Nat) (b : Block) :
    Stays (fun c => portSettled (prt c j)) b (settle p h st status root rel run stats aux b) := by
  have hp := readsPart_prt j portSettled
  unfold settle
  dsimp only
  generalize hx : unstage p h _ = x
  have hs : Stays (fun c => portSettled (prt c j)) b x := by
    rw [← hx]
    refine .trans ?_ (settled_unstage p h j _)
    refine .when (fun x => .of_only hp (settleSignals_only _ _ _ _ _) rfl) (.when (fun x => .of_only hp (logRec_only _ _ _) rfl) ?_)
    refine .next hp (trTask_only _ _ _ _ _ _ _) rfl (.next hp (settleSlots_only _ _ _ _) rfl (.when (fun x => .of_only hp (refetch_only _ _ _) rfl) ?_))
    exact .when (fun x => .of_only hp (bump_only _ _ _) rfl) (.next hp (bump_only _ _ _) rfl (.of_only hp (updEnt_only _ _ _) rfl))
  refine .next hp (settleRing_only _ _ _ _ _ _) rfl (.next hp (closeOwned_only _ _) rfl
    (.when (fun x => .of_only hp (settleWatch_only _ _ _ _ _) rfl) ?_))
  split
  · exact .next hp (settleTally_only _ _ _ _ _ _ _) rfl (.next hp (updClk_only _ _) rfl hs)
  · exact hs

theorem settled_homeCmp (p : Params) (h : Nat) (st : Status) (aux : Word32) (busy qwait : Nat) (stats : Option (BitVec 256)) (j : Nat)
    (b : Block) : Stays (fun c => portSettled (prt c j)) b (homeCmp p h st aux busy qwait stats b) := by
  have hp := readsPart_prt j portSettled
  have hu : ∀ f, Stays (fun c => portSettled (prt c j)) b (updEnt h f b) := fun f => .of_only hp (updEnt_only h f b) rfl
  have hend : ∀ (fin : Status) root run stats aux f, Stays (fun c => portSettled (prt c j)) b (if fin = 0 then
      settle p h .done 0 none true run stats 0 (updEnt h f b) else settle p h .failed fin root true run stats aux (updEnt h f b)) := by
    intro fin root run stats aux f
    split
    · exact .trans (hu f) (settled_settle p h _ _ _ _ _ _ _ j _)
    · exact .trans (hu f) (settled_settle p h _ _ _ _ _ _ _ j _)
  unfold homeCmp
  dsimp only
  split
  · exact .when (fun x => .next hp (updEnt_only _ _ _) rfl (.of_only hp (voidW_only _ _) rfl)) (.refl b)
  · split
    · exact settled_settle ..
    · exact hend _ _ _ _ _ _

/-! ## What a reset does at its port -/

theorem prt_tearAll (p : Params) (n : Nat) (b : Block) : prt (tearAll p n b) n = { prt b n with contribs := [] } := by
  have hp := readsPart_port n
  unfold tearAll
  dsimp only
  refine (Stays.eq (π := fun c => prt c n) (.forEach (fun a x => ?_) (.refl _))).trans (prt_updPort_same n _ b)
  split
  · split
    · exact .of_only hp (xput_only _ _) rfl
    · exact .of_only hp (xsend_only _ _ _ _) rfl
  · exact .when (fun x => .of_only hp (sendItem_only _ _ _) rfl) (.refl x)

theorem prt_unbindTask (p : Params) (n : Nat) (b : Block) : prt (unbindTask p n b) n = { prt b n with bindTx := [], bindRx := [] } := by
  have hp := readsPart_port n
  unfold unbindTask
  dsimp only
  rw [prt_updPort_same]
  refine congrArg (fun q : Port => { q with bindTx := [], bindRx := [] })
    (Stays.eq (π := fun c => prt c n) (.forEach (fun a x => ?_) (.forEach (fun a x => ?_) (.refl _))))
  · exact .next hp (xto_only _ _ _ _ _) rfl (.of_only hp (updChan_only _ _ _) rfl)
  · exact .next hp (xto_only _ _ _ _ _) rfl (.of_only hp (updChan_only _ _ _) rfl)

/-- A finished task leaves its port without a task, without contributions and without bindings. -/
theorem prt_finishTask (p : Params) (n : Nat) (r : RunInfo) (raw : Nat) (bytes : List Nat) (stats : Option (BitVec 256)) (b : Block) :
    portSettled (prt (finishTask p n r raw bytes stats b) n)
      = portSettled { prt b n with run := none, contribs := [], bindTx := [], bindRx := [] } := by
  have hp := readsPart_port n
  unfold finishTask
  dsimp only
  generalize hx : tally p _ _ _ _ = x
  have hbx : prt x n = prt b n := by
    rw [← hx]
    refine Stays.eq (π := fun c => prt c n) (.next hp (tally_only _ _ _ _ _) rfl (.forEach (fun a x => ?_) ?_))
    · exact .next hp (bump_only _ _ _) rfl (.of_only hp (bump_only _ _ _) rfl)
    · exact .next hp (trTask_only _ _ _ _ _ _ _) rfl (.of_only hp (evRec_only _ _ _ _ _ _ _ _) rfl)
  have hu : prt (updPort n (fun q => { q with run := none }) (unbindTask p n (tearAll p n x))) n
      = { prt b n with run := none, contribs := [], bindTx := [], bindRx := [] } := by
    rw [prt_updPort_same, prt_unbindTask, prt_tearAll, hbx]
  rw [← hu]
  split
  · exact (settled_homeCmp ..).eq
  · exact congrArg portSettled ((xsend_only _ _ _ _).prt_eq rfl n)

theorem prt_dropPortWait (p : Params) (n : Nat) (b : Block) : prt (dropPortWait p n b) n = { prt b n with wait := none } := by
  unfold dropPortWait
  split
  next h => rw [← h]
  · dsimp only
    split
    · exact prt_updPort_same n _ b
    · rw [(evRec_only _ _ _ _ _ _ _ _).prt_eq rfl, (removeWait_only _ _ _ _ _ _ _ _).prt_eq rfl, prt_updPort_same]

theorem settled_resetQueued (p : Params) (n : Nat) (x : IqEnt) (j : Nat) (b : Block) :
    Stays (fun c => portSettled (prt c j)) b (resetQueued p n x b) := by
  have hp := readsPart_prt j portSettled
  unfold resetQueued
  dsimp only
  split
  · split
    · exact .trans (.of_only hp (updEnt_only _ _ _) rfl) (settled_settle ..)
    · exact .of_only hp (updEnt_only _ _ _) rfl
  · exact .next hp (xsend_only _ _ _ _) rfl (.of_only hp (updEnt_only _ _ _) rfl)

theorem prt_resetStage (p : Params) (n : Nat) (b : Block) : prt (resetStage p n b) n = { prt b n with stage := none } := by
  unfold resetStage
  split
  next h => rw [← h]
  · dsimp only
    rw [(trTask_only _ _ _ _ _ _ _).prt_eq rfl, prt_bump, prt_updEnt, prt_updPort_same]

theorem prt_resetCans (n : Nat) (b : Block) : prt (resetCans n b) n = { prt b n with cans := [] } := by
  unfold resetCans
  exact (Stays.eq (π := fun c => prt c n) (.forEach (fun a x => .of_only (readsPart_port n) (updEnt_only _ _ _) rfl) (.refl _))).trans
    (prt_updPort_same n _ b)

theorem prt_resetChans (p : Params) (n : Nat) (b : Block) :
    prt (resetChans p n b) n = { prt b n with opd := [], statusOut := none } := by
  have hp := readsPart_port n
  unfold resetChans
  dsimp only
  refine (Stays.eq (π := fun c => prt c n) (.forEach (fun a x => ?_) (.forEach (fun a x => ?_) (.refl _)))).trans ?_
  · exact .when (fun x => .of_only hp (updChan_only _ _ _) rfl) (.when (fun x => .of_only hp (updChan_only _ _ _) rfl) (.refl x))
  · split
    · exact .of_only hp (updMQ_only _ _ _ _) rfl
    · exact .when (fun x => .of_only hp (outcomeBack_only _ _ _ _ _ _ _) rfl) (.refl x)
    · exact .refl x
  · rw [prt_updPort_same, (cutSends_only n b).prt_eq rfl]

/-- A port without the key records that wait for it. -/
def portUnkeyed (q : Port) : Port := { q with keyRecs := [] }

theorem unkeyed_keySend (n : Nat) (r : BitVec 128) (j : Nat) (b : Block) : Stays (fun c => portUnkeyed (prt c j)) b (keySend n r b) := by
  unfold keySend
  split
  · exact .of_only (readsPart_prt j _) (emit_only _ _) rfl
  · exact updPort_stays (fun _ _ => by rfl) b

theorem unkeyed_keyRefuse (p : Params) (d k r : Nat) (st : Status) (j : Nat) (b : Block) :
    Stays (fun c => portUnkeyed (prt c j)) b (keyRefuse p d k r st b) := by
  have hp := readsPart_prt j portUnkeyed
  unfold keyRefuse keyToReq
  dsimp only
  refine .trans ?_ (unkeyed_keySend _ _ j _)
  split
  · exact .refl b
  · exact .next hp (xrx_only _ _ _) rfl (.of_only hp (xtx_only _ _ _) rfl)

theorem unkeyed_keyPoolReset (p : Params) (n k : Nat) (st : Status) (j : Nat) (b : Block) :
    Stays (fun c => portUnkeyed (prt c j)) b (keyPoolReset p n k st b) := by
  unfold keyPoolReset
  dsimp only
  refine .trans (.forEach (fun a x => unkeyed_keyRefuse ..) ?_) (unkeyed_keySend _ _ j _)
  exact .of_only (readsPart_prt j _) (updKPool_only _ _ _ _) rfl

/-- What is left of a port after the reset's work on its queue, its stage and its cancels. -/
theorem prt_resetWork (p : Params) (n : Nat) (l : List IqEnt) (s : Option Nat) (i : XItem) (b : Block) :
    prt (updPort n (fun q => { q with shadow := .free, iss := none, issBinds := false, credit := 0 }) (xsend s 16 i
      (resetCans n (resetStage p n (forEach l (resetQueued p n) (updPort n (fun q => { q with iq := [] }) b)))))) n
      = { portSettled { prt b n with iq := [] } with iss := none, issBinds := false, credit := 0 } := by
  have h : portSettled (prt (forEach l (resetQueued p n) (updPort n (fun q => { q with iq := [] }) b)) n)
      = portSettled { prt b n with iq := [] } := by
    refine (Stays.eq (π := fun c => portSettled (prt c n)) (.forEach (fun a x => settled_resetQueued ..) (.refl _))).trans ?_
    rw [prt_updPort_same]
  rw [prt_updPort_same, (xsend_only _ _ _ _).prt_eq rfl, prt_resetCans, prt_resetStage]
  exact congrArg (fun q : Port => { q with iss := none, issBinds := false, credit := 0 }) h

/-- The end of a reset: the beats of the port go, and the key pools answer. -/
theorem prt_resetAnswers (p : Params) (n k : Nat) (l : List Nat) (x : LogRec) (b : Block) :
    portUnkeyed (prt (evRec p n k 0 0 0 0 (forEach l (fun k => keyPoolReset p n k 0x09) (resetChans p n (logRec p x b)))) n)
      = portUnkeyed { prt b n with opd := [], statusOut := none } := by
  rw [(evRec_only _ _ _ _ _ _ _ _).prt_eq rfl]
  refine (Stays.eq (π := fun c => portUnkeyed (prt c n)) (.forEach (fun a x => unkeyed_keyPoolReset ..) (.refl _))).trans ?_
  rw [prt_resetChans, (logRec_only _ _ _).prt_eq rfl]

/-- A reset once the task of the port is gone: what it leaves of a port that is in reset and runs nothing. -/
theorem portReset_empties (p : Params) (n k : Nat) (l : List Nat) (s : Option Nat) (i : XItem) (m : List IqEnt) (x : LogRec) (y : Block)
    (hr : (prt y n).inReset = true) (ho : (prt y n).online = false) (ht : (prt y n).run = none) :
    (fun d => (prt d n).inReset = true ∧ (prt d n).online = false ∧ (prt d n).run = none ∧ (prt d n).iq = [] ∧ (prt d n).stage = none
      ∧ (prt d n).cans = [] ∧ (prt d n).wait = none ∧ (prt d n).shadow = .free ∧ (prt d n).iss = none ∧ (prt d n).credit = 0
      ∧ (prt d n).opd = [] ∧ (prt d n).statusOut = none)
      (evRec p n k 0 0 0 0 (forEach l (fun k => keyPoolReset p n k 0x09) (resetChans p n (logRec p x
        (updPort n (fun q => { q with shadow := .free, iss := none, issBinds := false, credit := 0 }) (xsend s 16 i
          (resetCans n (resetStage p n (forEach m (resetQueued p n) (updPort n (fun q => { q with iq := [] })
            (dropPortWait p n y)))))))))) ) := by
  have ed := prt_resetAnswers p n k l x (updPort n (fun q => { q with shadow := .free, iss := none, issBinds := false, credit := 0 })
    (xsend s 16 i (resetCans n (resetStage p n (forEach m (resetQueued p n) (updPort n (fun q => { q with iq := [] })
      (dropPortWait p n y)))))))
  rw [prt_resetWork, prt_dropPortWait] at ed
  exact ⟨(congrArg Port.inReset ed).trans hr, (congrArg Port.online ed).trans ho, (congrArg Port.run ed).trans ht, congrArg Port.iq ed,
    congrArg Port.stage ed, congrArg Port.cans ed, congrArg Port.wait ed, congrArg Port.shadow ed, congrArg Port.iss ed,
    congrArg Port.credit ed, congrArg Port.opd ed, congrArg Port.statusOut ed⟩

theorem mqServe_of_nil {b : Block} (p : Params) (n : Nat) (h : b.mq = []) : mqServe p n b = b := by
  unfold mqServe
  rw [h]
  rfl

/-- With no key record waiting a drain leaves the port as it was. -/
theorem keyDrain_of_nil {n : Nat} {b : Block} (h : (prt b n).keyRecs = []) :
    prt (keyDrain n b) n = prt b n ∧ OnlyPort n b (keyDrain n b) ∧ Only [.ports] b (keyDrain n b) := by
  unfold keyDrain
  split
  · rw [h, forEach_nil, prt_updPort_same]
    exact ⟨congrArg (fun l => { prt b n with keyRecs := l }) h.symm, onlyPort_updPort n _ b, updPort_only n _ b⟩
  · exact ⟨rfl, fun _ _ => rfl, .refl _ b⟩

/-- A port event with the record of it. -/
theorem evRec_updPort (p : Params) (n k : Nat) (st : Status) (aux g h : Nat) (f : Port → Port) (b : Block) :
    prt (evRec p n k st aux g h (updPort n f b)) n = f (prt b n) ∧ OnlyPort n b (evRec p n k st aux g h (updPort n f b))
    ∧ Only [.cnt, .ports, .evr] b (evRec p n k st aux g h (updPort n f b)) :=
  ⟨((evRec_only _ _ _ _ _ _ _ _).prt_eq rfl n).trans (prt_updPort_same n f b),
    .next (evRec_only _ _ _ _ _ _ _ _) rfl (onlyPort_updPort n f b),
    .next (evRec_only _ _ _ _ _ _ _ _) (by decide) (.mono (updPort_only n f b) (by decide))⟩

/-- One beat sent on OPD. -/
theorem opdSend_of_cons {n : Nat} {b : Block} {x : OpdBeat} {l : List OpdBeat} (h : (prt b n).opd = x :: l) :
    prt (opdSend n b) n = { prt b n with opd := l, statusOut := if x.kind = 1 then some x else none }
    ∧ (opdSend n b).out = b.out ++ [.opd n x] ∧ OnlyPort n b (opdSend n b) ∧ Only [.ports, .out] b (opdSend n b) := by
  unfold opdSend
  rw [h]
  dsimp only
  exact ⟨(prt_emit _ _ _).trans (prt_updPort_same n _ b), rfl, .next (emit_only _ _) rfl (onlyPort_updPort n _ b), .next (emit_only _ _) (by decide) (.mono (updPort_only n _ b) (by decide))⟩

/-- A search that one number alone satisfies finds it. -/
theorem find?_eq_of_unique {l : List Nat} {f : Nat → Bool} {i : Nat} (hi : i ∈ l) (hf : f i = true)
    (hu : ∀ j ∈ l, f j = true → j = i) : l.find? f = some i := by
  obtain ⟨j, hj⟩ := Option.isSome_iff_exists.mp (List.find?_isSome.mpr ⟨i, hi, hf⟩)
  rw [hj, hu j (List.mem_of_find?_eq_some hj) (List.find?_some hj)]

/-- In a list whose only element is `i`, a search that falls back on the head finds `i`. -/
theorem find?_orElse_head?_of_only {l : List Nat} {i : Nat} (f : Nat → Bool) (hi : i ∈ l) (hu : ∀ j ∈ l, j = i) :
    (l.find? f).orElse (fun _ => l.head?) = some i := by
  cases hf : l.find? f with
  | some j => exact congrArg some (hu j (List.mem_of_find?_eq_some hf))
  | none =>
    cases l with
    | nil => exact absurd hi List.not_mem_nil
    | cons j l => exact congrArg some (hu j List.mem_cons_self)

/-- Settles O16. -/
theorem portStateAndDelivery : Obligations.PortStateAndDelivery := by
  refine ⟨fun p q b n hu => ?_, fun p q b n hw hr => ?_, fun p q b n k hu hk hmq => ?_, fun p q b n k t hu ho hk hmq hkr => ?_,
    fun p q b n k t hu ho => ?_, fun p q b n l x hu hx => ?_, fun p q b n x hu hx hd ht => ?_, fun p q b w i x l hw hi ho hr ht hne => ?_,
    fun p q b w i x l hw hi ho hr hne hall => ?_, fun p q b n x hu hx hq ha => ?_⟩
  · refine takes_run (actPortReset n) (fun _ => rfl) (fun _ => rfl) hu ?_
    dsimp only
    have ex := prt_updPort_same n (fun q => { q with inReset := true, online := false }) b
    generalize updPort n (fun q => { q with inReset := true, online := false }) b = x at ex ⊢
    cases hr : (prt x n).run with
    | some r =>
      have ey := prt_finishTask p n r 0x09 [0, 0, 0, 0] none x
      rw [ex] at ey
      exact portReset_empties p n _ _ _ _ _ _ _ (congrArg Port.inReset ey) (congrArg Port.online ey) (congrArg Port.run ey)
    | none =>
      have ey := prt_tearAll p n x
      refine portReset_empties p n _ _ _ _ _ _ _ ?_ ?_ ?_
      · exact (congrArg Port.inReset ey).trans (congrArg Port.inReset ex)
      · exact (congrArg Port.online ey).trans (congrArg Port.online ex)
      · exact (congrArg Port.run ey).trans hr
  · refine takes_run (actPortResetRelease n) (fun _ => rfl) (fun _ => rfl) (by rw [hw, hr]; rfl) ?_
    exact evRec_updPort ..
  · refine takes_run (actLandingCreditReturn n k) (fun _ => rfl) (fun _ => rfl) (by rw [hu, decide_eq_true hk]; rfl) ?_
    unfold mqServe
    rw [show (updPort n (fun q => { q with credit := q.credit + k }) b).mq = [] from hmq]
    exact ⟨prt_updPort_same n _ b, onlyPort_updPort n _ b, updPort_only n _ b⟩
  · refine takes_run (actCtlOnlineChange n true k t) (fun _ => rfl) (fun _ => rfl) hu ?_
    simp only [ho, hk, decide_true, Bool.and_self, Bool.not_false, when_true, ne_eq, reduceCtorEq, not_false_eq_true, if_true]
    obtain ⟨hp, hop, hon⟩ := evRec_updPort p n 14 0 (b2n true) 0 0 (fun q => { q with online := true, tdm := t, credit := k }) b
    generalize evRec p n 14 0 (b2n true) 0 0 _ = d at hp hop hon ⊢
    obtain ⟨kp, kop, kon⟩ := keyDrain_of_nil (b := d) (by rw [hp]; exact hkr)
    rw [mqServe_of_nil p n (((kon.kept .mq rfl).trans (hon.kept .mq rfl)).trans hmq)]
    exact ⟨kp.trans hp, .trans hop kop, .next kon (by decide) hon⟩
  · refine takes_run (actCtlOnlineChange n false k t) (fun _ => rfl) (fun _ => rfl) hu ?_
    simp only [ho, Bool.false_and, when_true, when_false, ne_eq, not_false_eq_true, decide_true, Bool.false_eq_true, if_false]
    exact evRec_updPort ..
  · refine takes_run (actCtlSnapshotReceived n l) (fun _ => rfl) (fun _ => rfl) hu ?_
    rw [hx]
    dsimp only
    have fr := fun g h c => evRec_only p n 15 0 0 g h c
    refine ⟨((fr _ _ _).prt_eq rfl n).trans (prt_updPort_same n _ _), ?_, ?_, .next (fr _ _ _) rfl (onlyPort_updPort n _ _),
      .next (fr _ _ _) (by decide) (.next (snapEnd_only _ _) (by decide) (.mono (emit_only _ _) (by decide)))⟩
    · rw [(fr _ _ _).kept .dump rfl]
      exact fun h => of_decide_eq_true (List.mem_filter.mp h).2 rfl
    · exact (congrArg List.length ((fr _ _ _).kept .out rfl)).trans List.length_append
  · refine takes_run (actSnapshotTimeout n) (fun _ => rfl) (fun _ => rfl) hu ?_
    unfold snapAbsent
    rw [hx]
    dsimp only
    rw [if_pos ⟨hd, ht⟩, if_neg Bool.false_ne_true]
    exact ⟨prt_updPort_same n _ _, rfl, List.length_append, onlyPort_updPort n _ _, .next (snapEnd_only _ _) (by decide) (.mono (emit_only _ _) (by decide))⟩
  · refine takes_runW (actOpdDelivery w) (fun _ => rfl) (fun _ => rfl) hw ?_
    dsimp only
    rw [find?_eq_of_unique (i := i) (List.mem_filter.mpr ⟨List.mem_range.mpr hi, hr⟩) (decide_eq_true ht) fun j hj h => by
      by_contra hji
      exact hne j (List.mem_range.mp (List.mem_filter.mp hj).1) hji (of_decide_eq_true h)]
    exact opdSend_of_cons ho
  · refine takes_runW (actOpdDelivery w) (fun _ => rfl) (fun _ => rfl) hw ?_
    dsimp only
    rw [List.find?_eq_none.mpr fun j hj h => hne j (List.mem_range.mp (List.mem_filter.mp hj).1) (of_decide_eq_true h)]
    dsimp only
    rw [find?_orElse_head?_of_only (i := i) _ (List.mem_filter.mpr ⟨List.mem_range.mpr hi, hr⟩) fun j hj => by
      by_contra hji
      have hj' := List.mem_filter.mp hj
      exact Bool.eq_false_iff.mp (hall j (List.mem_range.mp hj'.1) hji) hj'.2]
    obtain ⟨hp, hout, -, hon⟩ := opdSend_of_cons (b := { b with opdLast := Tbl.set 0 b.opdLast w (i + 1) }) ho
    exact ⟨hp, hout, (congrArg (fun t => Tbl.get 0 t w) (hon.kept .opdLast rfl)).trans (Tbl.get_set_same 0 b.opdLast w (i + 1) :),
      .next hon (by decide) (.mono (set_opdLast_only _ b) (by decide))⟩
  · refine takes_run (actStatusBeatAccepted n) (fun _ => rfl) (fun _ => rfl) hu ?_
    rw [hx]
    dsimp only
    rw [hq, ha]
    dsimp only
    exact evRec_updPort ..

end Sys2Proof.Machine
end

section
/-! PROOFS. Requests of an engine on MSG (Tables 13.3, 13.4). -/

namespace Sys2Proof.Machine

/-! ## Counters of 32 bits -/

/-- A saturating counter of a Ward after it has been counted. -/
theorem get_bump_wc32 (w : Nat) {i : Nat} (hi : i < 64) (n : Nat) (b : Block) :
    Tbl.get 0 (bump (wc32 w i) n b).cnt (wc32 w i) = satAdd (2 ^ 32 - 1) (Tbl.get 0 b.cnt (wc32 w i)) n := by
  have ho : wc32 w i % 0x1000 = 0x200 + 4 * i := by
    unfold wc32 wA
    omega
  unfold bump
  dsimp only
  rw [ho, if_neg (by omega), if_pos (by omega), Tbl.get_set_same]
  exact Nat.min_comm _ _

theorem onlyCnt_bump (a n : Nat) (b : Block) : OnlyCnt a b (bump a n b) := fun _ hj => Tbl.get_set_ne _ _ _ _ _ hj

/-! ## Answers -/

/-- An answer given at the port's own Ward is the next beat of the port. -/
theorem answerHere_opd (p : Params) (n : Nat) (hdr : BitVec 512) (st : Status) (res : Word32) (ch : Nat) (seq : BitVec 16) (b : Block) :
    answerHere p n hdr st res ch seq b = updPort n (fun q => { q with
      opd := q.opd ++ [{ kind := 2, ch := ⟨none, 0⟩, data := ansBeat (msgTag hdr) st (fld hdr 0 8) res ch seq }] }) b :=
  if_pos rfl

/-- An item handed on to the crossbar is the last one there. -/
theorem xbar_xsend (w : Option Nat) (n : Nat) (i : XItem) (b : Block) : (xsend w n i b).xbar = b.xbar ++ [i] := by
  unfold xsend xput
  exact congrArg (· ++ [i]) ((xtx_only w n b).kept .xbar rfl)

/-- An item put on the crossbar, from its own Ward or another. -/
theorem put_or_send {q : Prop} [Decidable q] (w : Option Nat) (n : Nat) (i : XItem) (b : Block) :
    (if q then xput i b else xsend w n i b).xbar = b.xbar ++ [i] ∧ Only [.cnt, .xbar] b (if q then xput i b else xsend w n i b) := by
  split
  · exact ⟨rfl, .mono (xput_only _ _) (by decide)⟩
  · exact ⟨xbar_xsend .., xsend_only _ _ _ _⟩

theorem setChan_of_chn {ch : Nat} {b : Block} {c : Chan} (f : Chan → Chan) (h : chn b ch = some c) :
    updChan ⟨none, ch⟩ f b = setChan ch (some (f c)) b := by
  unfold updChan
  dsimp only
  rw [h]

/-! ## SEND -/

/-- A message for a receiver of this block is on its way. -/
theorem launch_local (p : Params) (w : Nat) {c : Chan} (m : Msg) (b : Block) (h : farEndp c.rx = false) :
    (launch p w c m b).xbar = b.xbar ++ [.msg m] ∧ Only [.cnt, .xbar] b (launch p w c m b) := by
  unfold launch
  split
  next i e hr => exact absurd ((congrArg farEndp hr).symm.trans h) (Bool.eq_false_iff.not.mpr (not_not.mpr rfl))
  · exact put_or_send ..

/-- Settles O17: the checked SEND, the SEND without a channel, and the malformed request. -/
theorem sendRequest : Obligations.SendRequest := by
  refine ⟨fun p q b n hdr l c hu hop hm hc hr hf hs => ?_, fun p q b n hdr l hu hop hm hc => ?_, fun p q b n hdr k hu hm => ?_⟩
  · refine takes_run (actSend n hdr l) (fun _ => rfl) (fun _ => rfl) hu ?_
    dsimp only
    rw [if_neg (by rw [hm]; exact fun h => h.elim (· hop) Bool.false_ne_true), show getChan b ⟨none, fld hdr 32 14⟩ = some c from hc]
    dsimp only
    rw [hs, if_neg (by decide), hr, when_false, if_neg Bool.false_ne_true, setChan_of_chn _ hc]
    obtain ⟨hx, ho⟩ := launch_local p (portWard p n) ⟨⟨none, fld hdr 32 14⟩, c.nseq, runBe b n, deadlineOf b (fld hdr 64 16), l,
      l.map (fun _ => 0), none, b.clk.fclk⟩ (setChan (fld hdr 32 14) (some { c with
        nseq := c.nseq + 1, sent := c.sent ++ [(c.nseq, msgTag hdr)], relay := none }) b) hf
    exact ⟨(ho.chn_eq rfl _).trans (chn_setChan_same ..), hx, .next ho rfl (onlyChan_setChan _ _ _), .next ho (by decide)
      (.mono (setChan_only _ _ _) (by decide))⟩
  · refine takes_run (actSend n hdr l) (fun _ => rfl) (fun _ => rfl) hu ?_
    dsimp only
    rw [if_neg (by rw [hm]; exact fun h => h.elim (· hop) Bool.false_ne_true), show getChan b ⟨none, fld hdr 32 14⟩ = none from hc]
    dsimp only
    unfold refuseSend
    dsimp only
    rw [answerHere_opd, hop]
    have fr : ∀ c, Only [.cnt, .chans, .rchans, .evr, .xbar] c (retryUp p n ⟨none, fld hdr 32 14⟩ 0x08 (countNack p n (fld hdr 32 14) 0x08 c)) :=
      fun c => .next (retryUp_only _ _ _ _ _) (by decide) (.mono (countNack_only _ _ _ _ _) (by decide))
    exact ⟨congrArg Port.opd (((fr _).prt_eq rfl n).trans (prt_updPort_same n _ b)), .next (fr _) rfl (onlyPort_updPort n _ b)⟩
  · refine takes_run (actBadMsgRequest n hdr k) (fun _ => rfl) (fun _ => rfl) hu ?_
    rw [hm, when_true, answerHere_opd]
    exact ⟨prt_updPort_same n _ b, onlyPort_updPort n _ b, updPort_only n _ b⟩

/-! ## CONTRIB, OPEN_REQ and CLOSE_REQ -/

/-- The header of a request of operation `o` that is well formed. -/
theorem not_badRequest {hdr : BitVec 512} {o k : Nat} (ho : fld hdr 0 8 = o) (hm : msgBad hdr k = false) : ¬ (fld hdr 0 8 ≠ o ∨ msgBad hdr k = true) :=
  fun h => h.elim (· ho) fun e => Bool.false_ne_true (hm ▸ e)

theorem otherInst_local (p : Params) (b : Block) (i : Nat) : otherInst p b false i = none := rfl

theorem beginClose_chan {w : Option Nat} {ch : Nat} {b : Block} {c : Chan} (h : chn b ch = some c) :
    (beginClose w ⟨none, ch⟩ b).xbar = b.xbar ++ [.close ⟨none, ch⟩ .directory w]
    ∧ chn (beginClose w ⟨none, ch⟩ b) ch = some { c with closing := true }
    ∧ OnlyChan ch b (beginClose w ⟨none, ch⟩ b) ∧ Only [.cnt, .chans, .xbar] b (beginClose w ⟨none, ch⟩ b) := by
  unfold beginClose
  rw [setChan_of_chn _ h]
  dsimp only
  split
  · have fr := xput_only (.close ⟨none, ch⟩ .directory w) (setChan ch (some { c with closing := true }) b)
    exact ⟨rfl, (fr.chn_eq rfl ch).trans (chn_setChan_same _ _ _), .next fr rfl (onlyChan_setChan _ _ _),
      .next fr (by decide) (.mono (setChan_only _ _ _) (by decide))⟩
  · have fr := xsend_only w 16 (.close ⟨none, ch⟩ .directory w) (setChan ch (some { c with closing := true }) b)
    exact ⟨xbar_xsend .., (fr.chn_eq rfl ch).trans (chn_setChan_same _ _ _), .next fr rfl (onlyChan_setChan _ _ _),
      .next fr (by decide) (.mono (setChan_only _ _ _) (by decide))⟩

/-- Settles O18: the first part of a contribution, the checked open request, and the close request of an end. -/
theorem contribOpenClose : Obligations.ContribOpenClose := by
  refine ⟨fun p q b n hdr l t hu hop hm ht hl hp hc hoff hw hfen => ?_, fun p q b n hdr t e hu hop hm ht he h32 h33 hbad hf hck => ?_,
    fun p q b n hdr c hu hop hm h54 hc hh hcl hcg => ?_⟩
  · refine takes_run (actContrib n hdr l) (fun _ => rfl) (fun _ => rfl) hu ?_
    dsimp only
    rw [if_neg (not_badRequest hop hm), hl, otherInst_local]
    dsimp only
    rw [if_neg Bool.false_ne_true, ht]
    dsimp only
    rw [hc, if_neg (by simp only [List.length_nil]; omega), if_neg (by rw [hfen]; exact fun h => h.2.elim (by omega) Bool.false_ne_true), hoff]
    obtain ⟨hx, ho⟩ := put_or_send (q := fld (BitVec.ofNat 16 (fld hdr 32 16)) 6 6 = portWard p n) (some (portWard p n)) (64 * l.length)
      (.part {
        qid := BitVec.ofNat 16 (fld hdr 32 16), inst := none, port := n, tag := msgTag hdr, tenant := t, word := runWord p b n, off := 0
        nelem := fld hdr 80 13, final := bitAt hdr 96, flits := l }) (updPort n (fun q => { q with
          parts := q.parts ++ [⟨BitVec.ofNat 16 (fld hdr 32 16), none, msgTag hdr, decide (0 = 0), bitAt hdr 96, 0⟩]
          contribs := if 0 = 0 ∧ !q.contribs.any (fun c => c.qid = BitVec.ofNat 16 (fld hdr 32 16) ∧ c.inst = none) then
              q.contribs ++ [⟨BitVec.ofNat 16 (fld hdr 32 16), none, runWord p b n, false⟩]
            else q.contribs }) b)
    refine ⟨(ho.prt_eq rfl n).trans ((prt_updPort_same n _ b).trans ?_), hx, .next ho rfl (onlyPort_updPort n _ b), .next ho (by decide)
      (.mono (updPort_only n _ b) (by decide))⟩
    rw [hc]
    rfl
  · refine takes_run (actOpenReq n hdr) (fun _ => rfl) (fun _ => rfl) hu ?_
    dsimp only
    rw [if_neg (not_badRequest hop hm), ht, he]
    dsimp only
    rw [h32, h33]
    simp only [Bool.false_eq_true, if_false]
    rw [hbad, if_neg Bool.false_ne_true]
    rw [if_neg (by
      cases e with
      | remote i e => exact absurd hf (Bool.eq_false_iff.not.mpr (not_not.mpr rfl))
      | _ => exact Bool.false_ne_true), hck, if_neg (by decide)]
    exact ⟨xbar_xsend .., xsend_only _ _ _ _⟩
  · refine takes_run (actCloseReq n hdr) (fun _ => rfl) (fun _ => rfl) hu ?_
    dsimp only
    rw [if_neg (not_badRequest hop hm), h54, otherInst_local]
    dsimp only
    rw [if_neg Bool.false_ne_true, show getChan b ⟨none, fld hdr 32 14⟩ = some c from hc]
    dsimp only
    rw [if_pos ⟨hh, by simpa using hcl⟩, hcg, if_neg Bool.false_ne_true, answerHere_opd, hop]
    obtain ⟨hx, hch, hoc, hon⟩ := beginClose_chan (w := some (portWard p n)) hc
    refine ⟨hch, hx, ?_, hoc, .trans (.next hon rfl fun _ _ => rfl) (onlyPort_updPort n _ _), .next (updPort_only n _ _) (by decide) (.mono hon (by decide))⟩
    exact (congrArg Port.opd (prt_updPort_same n _ _)).trans (congrArg (fun q => q.opd ++ _) (hon.prt_eq rfl n))

/-! ## HSIG, KEYREQ, RETURN_UNUSED, DOORBELL, SLOTWR and KRET -/

/-- A slot written at the port's own Ward by its tenant: the slot, and the answer to the port. -/
theorem slotWrite_own (p : Params) (n k : Nat) (clear : Bool) (value : Word32) (tag : BitVec 16) (b : Block) :
    slotWrite p (portWard p n) k clear value n tag (some (slt b (portWard p n) k).tenant) b
      = updPort n (fun q => { q with opd := q.opd ++ [{ kind := 2, ch := ⟨none, 0⟩, data := ansBeat tag 0 9 0 0 0 }] })
          (updSlot (portWard p n) k (fun s => if clear then { s with v := false } else { s with v := true, value := value }) b) := by
  unfold slotWrite
  dsimp only
  rw [if_pos rfl]
  exact if_pos rfl

theorem not_fenced_of_portUp {p : Params} {b : Block} {n : Nat} (h : portUp p b n = true) : fenced b (portWard p n) = false := by
  simp only [portUp, wardUp, Bool.and_eq_true, Bool.not_eq_true'] at h
  exact h.1.1.2

/-- Settles O19: each request by the item it sends, the answer it gets, or what it writes at its own Ward. -/
theorem haspKeySlotRequests : Obligations.HaspKeySlotRequests := by
  refine ⟨fun p q b n hdr hu hop hm hl => ?_, fun p q b n hdr t hu hop hm ht hp hf => ?_, fun p q b n hdr hu hop hm hp hf => ?_,
    fun p q b n hdr t r hu hop hm ht hr hb => ?_, fun p q b n hdr t r hu hop hm ht hr hb => ?_, fun p q b n hdr k hu hop hm hv hk hw ht => ?_,
    fun p q b n hdr v hu hop hm hv hne hw hf => ?_, fun p q b n v hu hg => ?_, fun p q b n v hu hg hw => ?_⟩
  · refine takes_run (actHsig n hdr) (fun _ => rfl) (fun _ => rfl) hu ?_
    dsimp only
    rw [if_neg (not_badRequest hop hm), hl, otherInst_local]
    exact ⟨xbar_xsend .., xsend_only _ _ _ _⟩
  · refine takes_run (actKeyreq n hdr) (fun _ => rfl) (fun _ => rfl) hu ?_
    dsimp only
    rw [if_neg (not_not.mpr hop), hm, if_neg Bool.false_ne_true, ht]
    dsimp only
    rw [hf, if_neg (fun h => h.elim (by omega) Bool.false_ne_true)]
    exact put_or_send ..
  · refine takes_run (actReturnUnused n hdr) (fun _ => rfl) (fun _ => rfl) hu ?_
    dsimp only
    rw [if_neg (not_badRequest hop hm), hf, if_neg (fun h => h.elim (by omega) Bool.false_ne_true)]
    exact put_or_send ..
  · refine takes_run (actDoorbell n hdr) (fun _ => rfl) (fun _ => rfl) hu ?_
    dsimp only
    rw [if_neg (not_badRequest hop hm), ht]
    dsimp only
    rw [hr, if_pos (by exact hb), answerHere_opd, hop]
    have fr := fun i c => xsend_only (some (portWard p n)) 16 i c
    exact ⟨xbar_xsend .., congrArg Port.opd (((fr _ _).prt_eq rfl n).trans (prt_updPort_same n _ b)), .next (fr _ _) rfl (onlyPort_updPort n _ b),
      .next (fr _ _) (by decide) (.mono (updPort_only n _ b) (by decide))⟩
  · refine takes_run (actDoorbell n hdr) (fun _ => rfl) (fun _ => rfl) hu ?_
    dsimp only
    rw [if_neg (not_badRequest hop hm), ht]
    dsimp only
    rw [hr, if_neg (by exact Bool.eq_false_iff.mp hb), answerHere_opd, hop]
    exact ⟨congrArg Port.opd (prt_updPort_same n _ b), onlyPort_updPort n _ b, updPort_only n _ b⟩
  · refine takes_run (actSlotwr n hdr) (fun _ => rfl) (fun _ => rfl) hu ?_
    dsimp only
    rw [hv, hk, not_fenced_of_portUp hu, if_neg (fun h => h.elim (· hop) fun h => h.elim (fun e => Bool.false_ne_true (hm ▸ e))
      fun h => h.elim (by omega) Bool.false_ne_true), if_pos rfl, ht, slotWrite_own]
    exact ⟨by rw [slt_updPort, slt_updSlot_same], fun j hj => by rw [updPort_slots, updSlot_slots, Tbl.get_upd_ne _ _ _ _ _ hj], .next (updPort_only _ _ _) (by decide) (.mono (updSlot_only _ _ _ _) (by decide))⟩
  · refine takes_run (actSlotwr n hdr) (fun _ => rfl) (fun _ => rfl) hu ?_
    dsimp only
    rw [hv, hf, if_neg (fun h => h.elim (· hop) fun h => h.elim (fun e => Bool.false_ne_true (hm ▸ e))
      fun h => h.elim (by omega) Bool.false_ne_true), if_neg hne]
    exact ⟨xbar_xsend .., xsend_only _ _ _ _⟩
  · refine takes_run (actReturnKret n v) (fun _ => rfl) (fun _ => rfl) hu ?_
    have e : keyReturnAt p n (fld v 0 4) (BitVec.ofNat 16 (fld v 4 16)) b = bump (wc32 (portWard p n) 11) 1 b :=
      if_neg (Bool.eq_false_iff.mp hg)
    rw [e]
    exact ⟨get_bump_wc32 _ (by decide) 1 b, bump_only _ _ _⟩
  · refine takes_run (actReturnKret n v) (fun _ => rfl) (fun _ => rfl) hu ?_
    have e : keyReturnAt p n (fld v 0 4) (BitVec.ofNat 16 (fld v 4 16)) b = _ := if_pos hg
    rw [e, show (kpl b n (fld v 0 4)).waiting.length = 0 from congrArg List.length hw, List.length_map]
    unfold keyExamine
    exact ⟨kpl_updKPool_same _ _ _ _, onlyKPool_updKPool _ _ _ _, updKPool_only _ _ _ _⟩

end Sys2Proof.Machine
end

section
/-! SUPPORT. What the operations on tasks leave of an entry: settlements, cancels, stages and readiness. -/

namespace Sys2Proof.Machine

/-! ## A settlement -/

/-- What a settlement writes of its entry at once. -/
def settledEntry (st : TState) (status : Status) (root : Option Word32) (rel : Bool) (e : Entry) : Entry :=
  { e with st := st, status := status, root := root, guardWait := none, released := e.released || rel, place := .none }

section Entry

variable {α : Type} {π : Entry → α} {j : Nat}

theorem unstage_ent (hπ : ∀ e l, π { e with staged := l } = π e) (p : Params) (h : Nat) (b : Block) :
    Stays (fun c => π (ent c j)) b (unstage p h b) := by
  have hp := readsPart_ent j π
  unfold unstage
  dsimp only
  split
  · exact .when (fun x => .of_only hp (xsend_only _ _ _ _) rfl) (.refl b)
  · split
    · unfold unloadStage
      split
      · refine .next hp (canSend_only _ _ _ _ _) rfl (.next hp (trTask_only _ _ _ _ _ _ _) rfl (.next hp (bump_only _ _ _) rfl
          (.next hp (stopPreload_only _ _ _ _) rfl ?_)))
        exact .trans (.of_only hp (updPort_only _ _ _) rfl) (updEnt_stays (fun _ e => hπ e _) _)
      · exact .refl b
    · exact .of_only hp (xsend_only _ _ _ _) rfl

theorem settleRing_ent (hπ : ∀ e v, π { e with noticed := v } = π e) (p : Params) (h : Nat) (e : Entry) (st : TState) (status : Status)
    (b : Block) : Stays (fun c => π (ent c j)) b (settleRing p h e st status b) := by
  have hp := readsPart_ent j π
  unfold settleRing
  split
  · split
    · exact .of_only hp (sendFor_only _ _ _) rfl
    · exact updEnt_stays (fun _ e => hπ e _) _
  · split
    · exact .next hp (ringSettle_only _ _ _ _ _ _ _ _) rfl (updEnt_stays (fun _ e => hπ e _) _)
    · exact .of_only hp (xsend_only _ _ _ _) rfl

/-- A settlement writes of the entries what it writes at once, and the marks of the stage and of the notice to the ring. -/
theorem settle_ent (hs : ∀ e l, π { e with staged := l } = π e) (hn : ∀ e v, π { e with noticed := v } = π e) (p : Params) (h : Nat)
    (st : TState) (status : Status) (root : Option Word32) (rel : Bool) (run : Option (Nat × Nat)) (stats : Option (BitVec 256))
    (aux : Word32) (b : Block) : Stays (fun c => π (ent c j)) (updEnt h (settledEntry st status root rel) b)
      (settle p h st status root rel run stats aux b) := by
  have hp := readsPart_ent j π
  unfold settle
  dsimp only
  generalize hx : unstage p h _ = x
  have hb : Stays (fun c => π (ent c j)) (updEnt h (settledEntry st status root rel) b) x := by
    rw [← hx]
    refine .trans ?_ (unstage_ent hs p h _)
    refine .when (fun x => .of_only hp (settleSignals_only _ _ _ _ _) rfl) (.when (fun x => .of_only hp (logRec_only _ _ _) rfl) ?_)
    refine .next hp (trTask_only _ _ _ _ _ _ _) rfl (.next hp (settleSlots_only _ _ _ _) rfl (.when (fun x => .of_only hp (refetch_only _ _ _) rfl) ?_))
    exact .when (fun x => .of_only hp (bump_only _ _ _) rfl) (.of_only hp (bump_only _ _ _) rfl)
  refine .trans (.next hp (closeOwned_only _ _) rfl (.when (fun x => .of_only hp (settleWatch_only _ _ _ _ _) rfl) ?_))
    (settleRing_ent hn p h _ _ _ _)
  split
  · exact .next hp (settleTally_only _ _ _ _ _ _ _) rfl (.next hp (updClk_only _ _) rfl hb)
  · exact hb

end Entry

/-- The settled entry itself. -/
theorem settle_settled (p : Params) (h : Nat) (st : TState) (status : Status) (root : Option Word32) (rel : Bool)
    (run : Option (Nat × Nat)) (stats : Option (BitVec 256)) (aux : Word32) (b : Block) :
    (ent (settle p h st status root rel run stats aux b) h).st = st ∧ (ent (settle p h st status root rel run stats aux b) h).status = status
    ∧ (ent (settle p h st status root rel run stats aux b) h).root = root
    ∧ (ent (settle p h st status root rel run stats aux b) h).tumbler = (ent b h).tumbler := by
  have e := ent_updEnt_same h (settledEntry st status root rel) b
  refine ⟨?_, ?_, ?_, ?_⟩
  · exact (settle_ent (π := Entry.st) (fun _ _ => rfl) (fun _ _ => rfl) p h st status root rel run stats aux b).eq.trans (congrArg Entry.st e)
  · exact (settle_ent (π := Entry.status) (fun _ _ => rfl) (fun _ _ => rfl) p h st status root rel run stats aux b).eq.trans (congrArg Entry.status e)
  · exact (settle_ent (π := Entry.root) (fun _ _ => rfl) (fun _ _ => rfl) p h st status root rel run stats aux b).eq.trans (congrArg Entry.root e)
  · exact (settle_ent (π := Entry.tumbler) (fun _ _ => rfl) (fun _ _ => rfl) p h st status root rel run stats aux b).eq.trans (congrArg Entry.tumbler e :)

/-! ## Guard wait -/

/-- No entry waits on its guards. -/
def NoGuardWait (b : Block) : Prop := ∀ x ∈ b.ents, x.2.guardWait = none

theorem NoGuardWait.get {b : Block} (h : NoGuardWait b) (k : Nat) : (ent b k).guardWait = none := by
  by_cases hk : k ∈ b.ents.map Prod.fst
  · exact h _ (Tbl.get_mem _ b.ents hk)
  · exact congrArg Entry.guardWait (Tbl.get_of_notMem {} b.ents hk)

theorem NoGuardWait.updEnt {b : Block} (h : NoGuardWait b) {k : Nat} {f : Entry → Entry}
    (hf : (f (ent b k)).guardWait = none) : NoGuardWait (updEnt k f b) := by
  intro x hx
  rcases Tbl.mem_set _ _ _ _ _ hx with ⟨rfl, -⟩ | hx
  · exact hf
  · exact h x hx

theorem NoGuardWait.next {l : List BlockPart} {b c : Block} (h : NoGuardWait b) (ho : Only l b c)
    (hl : decide (BlockPart.ents ∈ l) = false) : NoGuardWait c := by
  unfold NoGuardWait
  rw [ho.kept .ents hl]
  exact h

theorem guardWaiters_nil {b : Block} (h : NoGuardWait b) (w : Nat) : guardWaiters b w = [] := by
  unfold guardWaiters
  rw [List.filter_eq_nil_iff.mpr fun x hx => by simp [h x hx]]
  rfl

theorem guardPassAll_nil {b : Block} (h : NoGuardWait b) (p : Params) (w : Nat) : guardPassAll p w b = b := by
  unfold guardPassAll
  rw [guardWaiters_nil h]
  rfl

/-! ## Readiness -/

/-- A task made READY is dated, and waits for no guard. -/
theorem makeReady_ent (p : Params) (h j : Nat) (b : Block) :
    ent (makeReady p h b) j = ent (updEnt h (fun e => { e with st := .ready, readyAt := b.clk.fclk, guardWait := none }) b) j := by
  have hp : ReadsPart .ents fun c => ent c j := readsPart_ent j id
  unfold makeReady
  exact (Stays.eq (π := fun c => ent c j) (.when (fun x => .of_only hp (refetch_only _ _ _) rfl) (.of_only hp (trTask_only _ _ _ _ _ _ _) rfl)))

theorem makeReady_only_clk (p : Params) (h : Nat) (b : Block) : (makeReady p h b).clk = b.clk := (makeReady_only p h b).kept .clk rfl

/-- A sealed task whose tumbler is zero, with no join, no queue and no guard, is READY when it is examined. -/
theorem examine_plain {p : Params} {h : Nat} {b : Block} (hst : (ent b h).st = .pending) (hs : (ent b h).isSealed = true)
    (ht : (ent b h).tumbler = 0) (hw : (ent b h).guardWait = none) (hq : (ent b h).d.cq = none) (hj : (ent b h).d.isJoin = false)
    (hg : (ent b h).d.guards = []) (hm : (ent b h).d.mode = 0) :
    ent (examine p h b) h = { ent b h with idx := [], st := .ready, readyAt := b.clk.fclk, guardWait := none }
    ∧ (examine p h b).clk = b.clk := by
  unfold examine
  dsimp only
  rw [if_pos ⟨hst, hs, ht, hw, hq⟩, hj, if_neg Bool.false_ne_true, if_neg (by unfold guardsOf; rw [hg]; exact Bool.false_ne_true)]
  unfold guardStep
  dsimp only
  rw [ent_updEnt_same, if_neg (by rw [hm]; decide), if_neg (by rw [hm]; decide), makeReady_ent, ent_updEnt_same, ent_updEnt_same,
    makeReady_only_clk]
  exact ⟨by rw [hg]; rfl, rfl⟩

/-! ## Tumbler items -/

/-- An entry is found by its word alone: what it depends on is its own state and generation, and the block's number. -/
theorem findEntry_eq {p : Params} {b c : Block} {w : Word32} (hr : c.regs = b.regs) (hs : (ent c (wHandle w)).st = (ent b (wHandle w)).st)
    (hg : (ent c (wHandle w)).gen = (ent b (wHandle w)).gen) : findEntry p c w = findEntry p b w := by
  have hi : ownInst p c = ownInst p b := congrArg (fld · 0 6) (rd_congr hr _)
  unfold findEntry
  dsimp only
  rw [hi, hs, hg]

/-- The block in which a local item is applied: the item is off the crossbar and its sender is owed one answer less. -/
theorem sampleItem_local {p : Params} {kind : Nat} {word root : Word32} {b : Block} {o : Nat} {wd : Word32} {k : Nat} {rt : Word32}
    {st : Status} (hx : xfind b (isSucc kind word root) = some (.succ o wd k rt st)) :
    ∃ c, sampleItem p kind word root none b = tumblerItem p kind word root 0x02 c ∧ c.xbar = b.xbar.eraseP (isSucc kind word root)
      ∧ ent c o = { ent b o with owed := (ent b o).owed - 1 } ∧ OnlyEnt o b c ∧ Only [.cnt, .ents, .xbar] b c
      ∧ findEntry p c word = findEntry p b word ∧ (NoGuardWait b → NoGuardWait c) := by
  unfold sampleItem
  dsimp only
  rw [hx]
  dsimp only
  generalize hu : updEnt o _ (xdrop (isSucc kind word root) b) = u
  have hux : u.xbar = b.xbar.eraseP (isSucc kind word root) := hu ▸ rfl
  have huo : ent u o = { ent b o with owed := (ent b o).owed - 1 } := by
    rw [← hu, ent_updEnt_same]
    rfl
  have hue : OnlyEnt o b u := fun j hj => by
    rw [← hu, ent_updEnt_ne _ _ _ _ hj]
    rfl
  have hub : Only [.ents, .xbar] b u := hu ▸ .next (updEnt_only _ _ _) (by decide) (.mono (xdrop_only _ _) (by decide))
  have hug : NoGuardWait b → NoGuardWait u := fun h => hu ▸ NoGuardWait.updEnt (b := xdrop (isSucc kind word root) b) h (h.get o)
  clear hu
  have fr : Only [.cnt] u (when (decide (homeOf o ≠ homeOf (wHandle word))) (xrx (homeOf (wHandle word)) 16) u) :=
    .when (fun x => xrx_only _ _ x) (.refl _ u)
  generalize when _ _ u = c at fr ⊢
  have hco := (fr.ent_eq rfl o).trans huo
  have hce : OnlyEnt o b c := .next fr rfl hue
  refine ⟨c, rfl, (fr.kept .xbar rfl).trans hux, hco, hce, .next fr (by decide) (.mono hub (by decide)), ?_, fun h => (hug h).next fr rfl⟩
  refine findEntry_eq ((fr.kept .regs rfl).trans (hub.kept .regs rfl)) ?_ ?_
  · by_cases h : wHandle word = o
    · rw [h, hco]
    · rw [hce _ h]
  · by_cases h : wHandle word = o
    · rw [h, hco]
    · rw [hce _ h]

theorem mem_insHandle (h : Nat) (l : List Nat) : h ∈ insHandle h l := by
  induction l with
  | nil => exact List.mem_singleton_self h
  | cons x l ih =>
    unfold insHandle
    split
    · exact List.mem_cons_self
    · split
      next e => exact e ▸ List.mem_cons_self
      · exact List.mem_cons_of_mem _ ih

/-- What an entry that may ask for staging keeps. -/
theorem wantStage_stays {α : Type} {π : Entry → α} {j : Nat} (hπ : ∀ e v, π { e with stageReq := v } = π e) (h : Nat) (b : Block) :
    Stays (fun c => π (ent c j)) b (wantStage h b) := by
  unfold wantStage
  exact .when (fun x => updEnt_stays (fun _ e => hπ e _) x) (.refl b)

theorem wantStage_onlyEnt (h : Nat) (b : Block) : OnlyEnt h b (wantStage h b) := by
  unfold wantStage
  dsimp only
  cases decide ((ent b h).st = .pending) && (ent b h).isSealed && !(ent b h).d.isJoin && (ent b h).d.cq.isNone
    && decide ((ent b h).tumbler = 1) && stageOn b (homeOf h) && !(ent b h).stageTried
  · exact fun _ _ => rfl
  · exact onlyEnt_updEnt h _ b

/-- An item that finds its pending entry. -/
theorem tumblerItem_pending {p : Params} {kind : Nat} {word root : Word32} {st : Status} {b : Block} {h : Nat}
    (hf : findEntry p b word = some h) (hs : (ent b h).st = .pending) (ht : (ent b h).tumbler ≠ 0) :
    tumblerItem p kind word root st b =
      if kind = 0 then touch h (wantStage h (updEnt h (fun e => { e with tumbler := e.tumbler - 1 }) b))
      else if kind = 1 then settle p h .failed st (some root) (portless (ent b h)) none none 0
        (updEnt h (fun e => { e with tumbler := e.tumbler - 1 }) b)
      else settle p h .cancelled 0x04 none (portless (ent b h)) none none 0 (updEnt h (fun e => { e with tumbler := e.tumbler - 1 }) b) := by
  unfold tumblerItem
  rw [hf]
  dsimp only
  rw [if_neg (fun h => h.elim ht (· (.inl hs))), if_pos hs]

end Sys2Proof.Machine
end

section
/-! PROOFS. Successor items, readiness, seals and guards (R46 to R56, R63 to R72). -/

namespace Sys2Proof.Machine

theorem wantStage_noGuardWait {h : Nat} {b : Block} (hb : NoGuardWait b) : NoGuardWait (wantStage h b) := by
  unfold wantStage
  dsimp only
  cases decide ((ent b h).st = .pending) && (ent b h).isSealed && !(ent b h).d.isJoin && (ent b h).d.cq.isNone
    && decide ((ent b h).tumbler = 1) && stageOn b (homeOf h) && !(ent b h).stageTried
  · exact hb
  · exact NoGuardWait.updEnt (b := b) hb (hb.get h)

theorem slotRank_exam (b : Block) : (slotRank b).clk.exam = b.clk.exam := by
  have hp : ReadsPart .clk fun c : Block => c.clk.exam := fun _ _ h => congrArg Clk.exam h
  unfold slotRank
  refine Stays.eq (π := fun c : Block => c.clk.exam) (.forEach (fun a x => .of_only (l := [.slots]) hp ?_ rfl) (.of_eq rfl))
  unfold slotApply
  split
  all_goals exact updSlot_only _ _ _ _

theorem slotRank_fclk (b : Block) : (slotRank b).clk.fclk = b.clk.fclk := by
  have hp : ReadsPart .clk fun c : Block => c.clk.fclk := fun _ _ h => congrArg Clk.fclk h
  unfold slotRank
  refine Stays.eq (π := fun c : Block => c.clk.fclk) (.forEach (fun a x => .of_only (l := [.slots]) hp ?_ rfl) (.of_eq rfl))
  unfold slotApply
  split
  all_goals exact updSlot_only _ _ _ _

/-- The end of a cycle in which one entry has been touched and none waits on its guards. -/
theorem drainExam_one {p : Params} {h : Nat} {b : Block} (he : b.clk.exam = [h]) (hg : NoGuardWait b) :
    ∃ c, drainExam p b = examine p h c ∧ (∀ j, ent c j = ent b j) ∧ c.clk.exam = [] ∧ c.clk.fclk = b.clk.fclk := by
  unfold drainExam
  dsimp only
  rw [slotRank_exam, he]
  have hs := slotRank_only b
  refine ⟨updClk (fun c => { c with exam := [], cmpNow := [] }) (slotRank b), ?_, fun j => hs.ent_eq rfl j, rfl, slotRank_fclk b⟩
  have hng : NoGuardWait (updClk (fun c => { c with exam := [], cmpNow := [] }) (slotRank b)) :=
    (hg.next hs rfl).next (updClk_only _ _) rfl
  have hd : ([h].map homeOf).eraseDups = [homeOf h] := rfl
  rw [hd]
  simp only [forEach_cons, forEach_nil, guardPassAll_nil hng]

/-- Settles O20: the three kinds of item, and the examination that finds the task ready. -/
theorem successorItemsAndReady : Obligations.SuccessorItemsAndReady := by
  refine ⟨fun p q b word o wd k rt st h hu hx hf hne hs ht => ?_, fun p q b word root o wd k rt st h hu hx hf hne hs ht => ?_,
    fun p q b word o wd k rt st h hu hx hf hne hs ht => ?_,
    fun p q b word o wd k rt st h hu hx hf hne hs ht hsl hj hq hgs hm hgw hex hng => ?_⟩
  · refine takes_runW (actDecrement word none false) (fun _ => rfl) (fun _ => rfl) hu ?_
    obtain ⟨c, hc, hcx, hco, hce, hcb, hcf, -⟩ := sampleItem_local (p := p) hx
    have hch := hce h hne
    unfold endCycle
    rw [when_false, hc, tumblerItem_pending (hcf.trans hf) (by rw [hch]; exact hs) (by rw [hch]; exact ht), if_pos rfl]
    have hh := ent_updEnt_same h (fun e => { e with tumbler := e.tumbler - 1 }) c
    generalize hv : updEnt h _ c = v at hh ⊢
    have hve : OnlyEnt h c v := hv ▸ onlyEnt_updEnt h _ c
    have hvc : Only [.ents] c v := hv ▸ updEnt_only _ _ _
    rw [hch] at hh
    have hw := wantStage_only h v
    refine ⟨?_, ?_, mem_insHandle h _, ?_, ?_, fun j hj hjo => ?_, .next (touch_only _ _) (by decide) (.next hw (by decide) (.next hvc (by decide)
      (.mono hcb (by decide))))⟩
    · exact ((wantStage_stays (π := Entry.tumbler) (fun _ _ => rfl) h v).eq).trans (congrArg Entry.tumbler hh)
    · exact ((wantStage_stays (π := Entry.st) (fun _ _ => rfl) h v).eq).trans ((congrArg Entry.st hh).trans hs)
    · exact (wantStage_onlyEnt h v o (Ne.symm hne)).trans ((hve o (Ne.symm hne)).trans hco)
    · exact (hw.kept .xbar rfl).trans ((hvc.kept .xbar rfl).trans hcx)
    · exact (wantStage_onlyEnt h v j hj).trans ((hve j hj).trans (hce j hjo))
  · refine takes_runW (actFailureNotice word root none false) (fun _ => rfl) (fun _ => rfl) hu ?_
    obtain ⟨c, hc, -, -, hce, -, hcf, -⟩ := sampleItem_local (p := p) hx
    have hch := hce h hne
    unfold endCycle
    rw [when_false, hc, tumblerItem_pending (hcf.trans hf) (by rw [hch]; exact hs) (by rw [hch]; exact ht), if_neg (by decide), if_pos rfl]
    obtain ⟨h1, h2, h3, h4⟩ := settle_settled p h .failed 0x02 (some root) (portless (ent c h)) none none 0
      (updEnt h (fun e => { e with tumbler := e.tumbler - 1 }) c)
    exact ⟨h1, h2, h3, h4.trans (by rw [ent_updEnt_same, hch])⟩
  · refine takes_runW (actCancelNotice word none false) (fun _ => rfl) (fun _ => rfl) hu ?_
    obtain ⟨c, hc, -, -, hce, -, hcf, -⟩ := sampleItem_local (p := p) hx
    have hch := hce h hne
    unfold endCycle
    rw [when_false, hc, tumblerItem_pending (hcf.trans hf) (by rw [hch]; exact hs) (by rw [hch]; exact ht), if_neg (by decide), if_neg (by decide)]
    obtain ⟨h1, h2, -, h4⟩ := settle_settled p h .cancelled 0x04 none (portless (ent c h)) none none 0
      (updEnt h (fun e => { e with tumbler := e.tumbler - 1 }) c)
    exact ⟨h1, h2, h4.trans (by rw [ent_updEnt_same, hch])⟩
  · refine takes_runW (actDecrement word none true) (fun _ => rfl) (fun _ => rfl) hu ?_
    obtain ⟨c, hc, -, -, hce, hcb, hcf, hcg⟩ := sampleItem_local (p := p) hx
    have hch := hce h hne
    have hcn : NoGuardWait c := hcg hng
    have hck : c.clk = b.clk := hcb.kept .clk rfl
    unfold endCycle
    rw [when_true, hc, tumblerItem_pending (hcf.trans hf) (by rw [hch]; exact hs) (by rw [hch, ht]; decide), if_pos rfl]
    have hh := ent_updEnt_same h (fun e => { e with tumbler := e.tumbler - 1 }) c
    have hvn : NoGuardWait (updEnt h (fun e => { e with tumbler := e.tumbler - 1 }) c) := NoGuardWait.updEnt hcn (hcn.get h)
    have hvk : (updEnt h (fun e => { e with tumbler := e.tumbler - 1 }) c).clk = b.clk := hck
    generalize updEnt h _ c = v at hh hvn hvk ⊢
    rw [hch] at hh
    have hw := wantStage_only h v
    have hwk : (wantStage h v).clk = b.clk := (hw.kept .clk rfl).trans hvk
    have hst : ∀ {α : Type} (π : Entry → α), (∀ e v, π { e with stageReq := v } = π e) →
        π (ent (touch h (wantStage h v)) h) = π { ent b h with tumbler := (ent b h).tumbler - 1 } := fun π hπ =>
      (wantStage_stays hπ h v).eq.trans (congrArg π hh)
    obtain ⟨e, he, hee, hexam, hfclk⟩ := drainExam_one (p := p) (h := h) (b := touch h (wantStage h v))
      (by show insHandle h (wantStage h v).clk.exam = [h]; rw [hwk, hex]; rfl)
      ((wantStage_noGuardWait hvn).next (touch_only _ _) rfl)
    obtain ⟨h1, h2⟩ := examine_plain (p := p) (h := h) (b := e)
      (by rw [hee]; exact (hst Entry.st (fun _ _ => rfl)).trans hs) (by rw [hee]; exact (hst Entry.isSealed (fun _ _ => rfl)).trans hsl)
      (by rw [hee]; exact (hst Entry.tumbler (fun _ _ => rfl)).trans (by show (ent b h).tumbler - 1 = 0; rw [ht]))
      (by rw [hee]; exact (hst Entry.guardWait (fun _ _ => rfl)).trans hgw)
      (by rw [hee]; exact (hst (fun e => e.d.cq) (fun _ _ => rfl)).trans hq)
      (by rw [hee]; exact (hst (fun e => e.d.isJoin) (fun _ _ => rfl)).trans hj)
      (by rw [hee]; exact (hst (fun e => e.d.guards) (fun _ _ => rfl)).trans hgs)
      (by rw [hee]; exact (hst (fun e => e.d.mode) (fun _ _ => rfl)).trans hm)
    rw [he, h1, h2, hee, hfclk]
    exact ⟨rfl, (hst Entry.tumbler (fun _ _ => rfl)).trans (by show (ent b h).tumbler - 1 = 0; rw [ht]), (congrArg Clk.fclk hwk :), hexam⟩

/-! ## Seals -/

theorem settle_isSealed (p : Params) (h j : Nat) (st : TState) (status : Status) (root : Option Word32) (rel : Bool)
    (run : Option (Nat × Nat)) (stats : Option (BitVec 256)) (aux : Word32) (b : Block) :
    Stays (fun c => (ent c j).isSealed) b (settle p h st status root rel run stats aux b) :=
  .trans (updEnt_stays (π := Entry.isSealed) (fun _ _ => by rfl) b) (settle_ent (fun _ _ => rfl) (fun _ _ => rfl) p h st status root rel run stats aux b)

theorem drainSettle_isSealed (p : Params) (w q j : Nat) (b : Block) : Stays (fun c => (ent c j).isSealed) b (drainSettle p w q b) := by
  have hp := readsPart_ent j Entry.isSealed
  have hu : ∀ h, Stays (fun c => (ent c j).isSealed) b (updEnt h (fun e => { e with tumbler := 0 }) b) := fun h =>
    updEnt_stays (π := Entry.isSealed) (fun _ _ => by rfl) b
  unfold drainSettle
  dsimp only
  split
  · exact .of_only hp (updCQ_only _ _ _ _) rfl
  · split
    · exact .next hp (cqSettle_only _ _ _ _ _ _) rfl (.trans (hu _) (settle_isSealed ..))
    · split
      · exact .next hp (cqSettle_only _ _ _ _ _ _) rfl (.trans (hu _) (settle_isSealed ..))
      · exact .next hp (cqSettle_only _ _ _ _ _ _) rfl (.trans (.next hp (logRec_only _ _ _) rfl (hu _)) (settle_isSealed ..))

theorem cancelEntry_isSealed (p : Params) (h j : Nat) (b : Block) : Stays (fun c => (ent c j).isSealed) b (cancelEntry p h b) := by
  have hp := readsPart_ent j Entry.isSealed
  unfold cancelEntry
  dsimp only
  split
  · split
    · split
      · exact .of_only hp (updCQ_only _ _ _ _) rfl
      · exact .next hp (cqSettle_only _ _ _ _ _ _) rfl (.trans (updEnt_stays (π := Entry.isSealed) (fun _ _ => by rfl) b) (settle_isSealed ..))
    · exact settle_isSealed ..
  · split
    · exact settle_isSealed ..
    · exact .trans (.of_only hp (xsend_only _ _ _ _) rfl) (settle_isSealed ..)
  · split
    · split
      · exact .trans (.of_only hp (unqueue_only _ _ _ _ _) rfl) (settle_isSealed ..)
      · exact .of_only hp (xsend_only _ _ _ _) rfl
    · exact .refl b
  · split
    · split
      · exact .trans (.of_only hp (unqueue_only _ _ _ _ _) rfl) (settle_isSealed ..)
      · exact .of_only hp (xsend_only _ _ _ _) rfl
    · exact .refl b
  · exact .of_only hp (voidW_only _ _) rfl

/-- The seal of an entry marks it and no other entry. -/
theorem sealEntry_isSealed (p : Params) (h j : Nat) (b : Block) :
    (ent (sealEntry p h b) j).isSealed = (decide (j = h) || (ent b j).isSealed) := by
  have hp := readsPart_ent j Entry.isSealed
  have hu : (ent (updEnt h (fun e => { e with isSealed := true }) b) j).isSealed = (decide (j = h) || (ent b j).isSealed) := by
    by_cases hj : j = h
    · subst hj
      rw [ent_updEnt_same, decide_eq_true rfl, Bool.true_or]
    · rw [ent_updEnt_ne _ _ _ _ hj, decide_eq_false hj, Bool.false_or]
  rw [← hu]
  unfold sealEntry
  dsimp only
  generalize updEnt h _ b = c
  refine Stays.eq (π := fun c => (ent c j).isSealed) ?_
  split
  · exact .refl c
  · split
    · exact cancelEntry_isSealed ..
    · split
      · exact .when (fun x => drainSettle_isSealed ..) (.refl c)
      · exact .next hp (touch_only _ _) rfl (wantStage_stays (π := Entry.isSealed) (fun _ _ => rfl) h c)

theorem forEach_sealEntry (p : Params) (l : List Nat) (j : Nat) (b : Block) :
    (ent (forEach l (sealEntry p) b) j).isSealed = (decide (j ∈ l) || (ent b j).isSealed) := by
  induction l generalizing b with
  | nil => rfl
  | cons h l ih =>
    rw [forEach_cons, ih, sealEntry_isSealed, ← Bool.or_assoc]
    refine congrArg (· || (ent b j).isSealed) ?_
    rw [Bool.or_comm, ← Bool.decide_or]
    exact decide_eq_decide.mpr List.mem_cons.symm

theorem unsealedOf_eq {b c : Block} (h : c.ents = b.ents) (w r g : Nat) (i : Option Nat) : unsealedOf c w r g i = unsealedOf b w r g i := by
  rw [unsealedOf, unsealedOf, h]

/-! ## Guards -/

/-- The slots that a task claims. -/
theorem claimSlots_claimed (w : Nat) (e : Entry) (b : Block) {s : Nat} (h : ∃ g ∈ guardsOf e.d, g.1 ≠ 3 ∧ g.2 = s) :
    (slt (claimSlots w e b) w s).c = true := by
  have keep : ∀ (l : List (Nat × Nat)) (c : Block), (slt c w s).c = true →
      (slt (forEach l (fun g c => if g.1 = 3 then c else updSlot w g.2 (fun s => { s with c := true }) c) c) w s).c = true := by
    intro l
    induction l with
    | nil => exact fun c hc => hc
    | cons g l ih =>
      intro c hc
      rw [forEach_cons]
      refine ih _ ?_
      split
      · exact hc
      · by_cases hg : w * 4096 + s = w * 4096 + g.2
        · rw [show s = g.2 by omega, slt_updSlot_same]
        · rw [slt_updSlot_ne _ _ _ _ _ _ hg]
          exact hc
  unfold claimSlots
  generalize guardsOf e.d = l at h
  induction l generalizing b with
  | nil => exact absurd h (by simp)
  | cons x l ih =>
    rw [forEach_cons]
    obtain ⟨g, hg, h3, rfl⟩ := h
    rcases List.mem_cons.mp hg with rfl | hg
    · exact keep l _ (by rw [if_neg h3, slt_updSlot_same])
    · exact ih _ ⟨g, hg, h3, rfl⟩

/-- Settles O21. -/
theorem sealAndGuards : Obligations.SealAndGuards := by
  refine ⟨fun p q b w r g v rr gg hu hx => ?_, fun p q b w h hu hw hh hm hg => ?_⟩
  · refine takes_runW (actSeal w r g none false) (fun _ => rfl) (fun _ => rfl) hu ?_
    dsimp only
    rw [hx]
    dsimp only
    unfold endCycle
    rw [when_false]
    generalize hc : trRing p _ _ _ _ _ _ = c
    have hcb : Only [.cnt, .trace, .xbar] b c :=
      hc ▸ .next (trRing_only _ _ _ _ _ _ _) (by decide) (.next (xrx_only _ _ _) (by decide) (.mono (xdrop_only _ _) (by decide)))
    rw [unsealedOf_eq (hcb.kept .ents rfl)]
    refine ⟨fun h hl => ?_, fun h hl => ?_⟩
    · rw [forEach_sealEntry, decide_eq_true hl, Bool.true_or]
    · rw [forEach_sealEntry, decide_eq_false hl, Bool.false_or, hcb.ent_eq rfl]
  · refine takes_runW (actGuardWaitPass w) (fun _ => rfl) (fun _ => rfl) hu ?_
    unfold guardPassAll
    rw [hw, forEach_cons, forEach_nil, hg, when_true]
    unfold guardStep
    dsimp only
    rw [if_pos hm, hh, if_pos hg]
    have hcl : Only [.slots] b (claimSlots w (ent b h) b) := claimSlots_only _ _ _
    have hcs := fun s => claimSlots_claimed w (ent b h) b (s := s)
    generalize claimSlots w (ent b h) b = c at hcl hcs ⊢
    have hmk := makeReady_only p h (updEnt h (fun e => { e with claimed := true }) c)
    rw [makeReady_ent, ent_updEnt_same, ent_updEnt_same]
    refine ⟨rfl, rfl, rfl, fun j hj => ?_, fun s hs => ?_⟩
    · rw [makeReady_ent, ent_updEnt_ne _ _ _ _ hj, ent_updEnt_ne _ _ _ _ hj, hcl.ent_eq rfl]
    · rw [slt_congr (hmk.kept .slots rfl)]
      exact hcs s hs

end Sys2Proof.Machine
end

section
/-! PROOFS. The placement engine, staging and the power governor (R81 to R97, R105). -/

namespace Sys2Proof.Machine

/-! ## The crossbar -/

/-- An item that is found is on the crossbar: taking it leaves one fewer. -/
theorem xdrop_length {b : Block} {f : XItem → Bool} {x : XItem} (h : xfind b f = some x) : (xdrop f b).xbar.length + 1 = b.xbar.length := by
  obtain ⟨hx, -⟩ := Option.filter_eq_some_iff.mp h
  have hm := List.mem_of_find?_eq_some hx
  have hf := List.find?_some hx
  have hl := List.length_eraseP_of_mem hm hf
  have := List.length_pos_of_mem hm
  show (b.xbar.eraseP f).length + 1 = b.xbar.length
  omega

/-! ## The governor -/

/-- A head that may not start ends the examination of the queue. -/
theorem govExamine_of_no {p : Params} {d k : Nat} {b : Block} (h : ∀ g l, (dmn b d).q = g :: l →
    ¬ (grantsNow b d < 4 ∧ permits (dmn b d) (energyEst p b (ent b g.handle).d.energy) = true)) : govExamine p d k b = b := by
  cases k with
  | zero => rfl
  | succ k =>
    unfold govExamine
    split
    · rfl
    next g l e => exact if_neg (h g l e)

/-- What a grant charges to its domain. -/
def grantedDom (e late : Nat) (g : GReq) (x : Dom) : Dom :=
  { x with
    n := x.n + 1, i := x.i + e, q := x.q.erase g
    dlyStarts := if late = 0 then x.dlyStarts else satAdd (2 ^ 32 - 1) x.dlyStarts 1
    dlyCyc := (x.dlyCyc + late) % 2 ^ 64 }

/-- A grant: what it charges, whom it tells. -/
theorem grant_writes (p : Params) (d : Nat) (g : GReq) (b : Block) :
    dmn (grant p d g b) d = grantedDom (energyEst p b (ent b g.handle).d.energy) (b.clk.fclk - g.arrived) g (dmn b d)
    ∧ (ent (grant p d g b) g.handle).place = .inFlight
    ∧ (grant p d g b).xbar = b.xbar ++ [.pdec g.handle g.gen g.port (ent b g.handle).rank false] ∧ OnlyEnt g.handle b (grant p d g b) := by
  obtain ⟨u, hu, hg⟩ : ∃ u, u = updDom d (grantedDom (energyEst p b (ent b g.handle).d.energy) (b.clk.fclk - g.arrived) g) b
      ∧ grant p d g b = xsend none 16 (.pdec g.handle g.gen g.port
          (ent (updEnt g.handle (fun e => { e with place := .inFlight }) (countGrant d u)) g.handle).rank false)
            (updEnt g.handle (fun e => { e with place := .inFlight }) (countGrant d u)) := ⟨_, rfl, rfl⟩
  have hd : dmn u d = grantedDom (energyEst p b (ent b g.handle).d.energy) (b.clk.fclk - g.arrived) g (dmn b d) :=
    hu ▸ dmn_updDom_same d _ b
  have hub : Only [.gov] b u := hu ▸ updDom_only d _ b
  rw [hg]
  have hv : ∀ f, dmn (updEnt g.handle f (countGrant d u)) d = dmn u d := fun _ => rfl
  have hx : ∀ f, (updEnt g.handle f (countGrant d u)).xbar = b.xbar := fun _ => hub.kept .xbar rfl
  have he : ∀ f, ent (updEnt g.handle f (countGrant d u)) g.handle = f (ent b g.handle) := fun f =>
    (ent_updEnt_same g.handle f _).trans (congrArg f (hub.ent_eq rfl g.handle))
  have ho : ∀ f, OnlyEnt g.handle b (updEnt g.handle f (countGrant d u)) := fun f j hj =>
    (ent_updEnt_ne g.handle f (countGrant d u) j hj).trans (hub.ent_eq rfl j)
  have hs := fun i c => xsend_only none 16 i c
  refine ⟨(dmn_congr ((hs _ _).kept .gov rfl) d).trans ((hv _).trans hd), ?_, ?_, .next (hs _ _) rfl (ho _)⟩
  · rw [(hs _ _).ent_eq rfl, he]
  · rw [xbar_xsend, hx, he]

/-- The domains after the first `n` of them have been worked out anew. -/
theorem dmn_forEach_updDom (f : Nat → Dom → Dom) (l : List Nat) (hl : l.Nodup) (b : Block) {k : Nat} (hk : k ∈ l) :
    dmn (forEach l (fun d => updDom d (f d)) b) k = f k (dmn b k) := by
  have keep : ∀ (l : List Nat) (c : Block), k ∉ l → dmn (forEach l (fun d => updDom d (f d)) c) k = dmn c k := by
    intro l
    induction l with
    | nil => exact fun _ _ => rfl
    | cons d l ih =>
      intro c h
      rw [forEach_cons, ih _ fun h' => h (List.mem_cons_of_mem _ h'), dmn_updDom_ne _ _ _ _ (List.ne_of_not_mem_cons h)]
  induction l generalizing b with
  | nil => exact absurd hk List.not_mem_nil
  | cons d l ih =>
    rw [forEach_cons]
    rcases List.mem_cons.mp hk with rfl | hm
    · rw [keep l _ (List.nodup_cons.mp hl).1, dmn_updDom_same]
    · rw [ih (List.nodup_cons.mp hl).2 _ hm, dmn_updDom_ne _ _ _ _ (ne_of_mem_of_not_mem hm (List.nodup_cons.mp hl).1)]

theorem forEach_updDom_win (f : Nat → Dom → Dom) (l : List Nat) (b : Block) :
    (forEach l (fun d => updDom d (f d)) b).gov.winStart = b.gov.winStart := by
  refine Stays.eq (π := fun c : Block => c.gov.winStart) (.forEach (fun a x => .of_eq rfl) (.refl b))

/-- Settles O25: the request that joins, the two refusals, the grant, and the window. -/
theorem governor : Obligations.Governor := by
  refine ⟨fun p q b h hh g n hu hx e => ?_, fun p q b k g l hu hq hp => ?_, fun p q b k hu hg => ?_, fun p q b k g hu hr hq hg hp => ?_,
    fun p q b t hu hw => ?_⟩
  · subst e
    refine takes_runK (actGovernorRequest hh) (fun _ => rfl) (fun _ => rfl) hu ?_
    rw [hx]
    dsimp only
    unfold govArrive
    dsimp only
    have hd := dmn_updDom_same (domOf p b n) (fun x => { x with q := govIns ⟨hh, g, n, (ent b hh).d.be, b.clk.fclk, nextSeq b⟩ x.q }) b
    refine ⟨(congrArg Dom.q hd :), (congrArg Dom.n hd :), (congrArg Dom.i hd :), fun k hk =>
      (dmn_updDom_ne _ (fun x => { x with q := govIns ⟨hh, g, n, (ent b hh).d.be, b.clk.fclk, nextSeq b⟩ x.q }) b k hk :), rfl, rfl, ?_⟩
    exact .next (updDom_only _ _ _) (by decide) (.next (tookSeq_only _) (by decide) (.mono (set_place_only _ b) (by decide)))
  · refine takes_runK (actGovernorQueueGrant k) (fun _ => rfl) (fun _ => rfl) hu ?_
    have e : govExamine p k 4 b = b := govExamine_of_no fun g' l' e h => by
      obtain ⟨rfl, -⟩ := List.cons.inj (hq.symm.trans e)
      exact Bool.false_ne_true (hp.symm.trans h.2)
    cases runState b
    · rfl
    · exact e
  · refine takes_runK (actGovernorQueueGrant k) (fun _ => rfl) (fun _ => rfl) hu ?_
    have e : govExamine p k 4 b = b := govExamine_of_no fun _ _ _ h => absurd h.1 (by omega)
    cases runState b
    · rfl
    · exact e
  · refine takes_runK (actGovernorQueueGrant k) (fun _ => rfl) (fun _ => rfl) hu ?_
    obtain ⟨hd, he, hx, ho⟩ := grant_writes p k g b
    have hq' : (dmn (grant p k g b) k).q = [] := by
      rw [hd]
      show (dmn b k).q.erase g = []
      rw [hq, List.erase_cons_head]
    rw [hr, when_true]
    have e4 : govExamine p k 4 b = grant p k g b := by
      unfold govExamine
      rw [hq]
      exact (if_pos ⟨hg, hp⟩).trans (govExamine_of_no fun _ _ h => absurd (hq'.symm.trans h) (by simp))
    rw [e4]
    exact ⟨hq', congrArg Dom.n hd, congrArg Dom.i hd, he, hx, ho⟩
  · refine takes_runK (actGovernorWindowStart t) (fun _ => rfl) (fun _ => rfl) hu ?_
    rw [if_pos (by exact hw)]
    refine ⟨forEach_updDom_win (fun d => winDom (t.getLsbD d)) _ _, fun k hk => dmn_forEach_updDom (fun d => winDom (t.getLsbD d)) _ List.nodup_range _ (List.mem_range.mpr hk), ?_⟩
    exact .forEach (fun a x => updDom_only _ _ x) (set_gov_only _ b)

/-! ## The arbiter -/

/-- The round robin changes its pointers and deficits, and no token. -/
theorem dwrr_tok (w : Nat) (T : List Nat) (k : Nat) (b : Block) : (dwrr w T k b).2.arb.tok = b.arb.tok := by
  induction k generalizing b with
  | zero => rfl
  | succ k ih =>
    unfold dwrr
    dsimp only
    split
    · exact (apply_ite Arb.tok _ _ _).trans (ite_self _)
    · exact ih _

/-- From a pointer below 256 the round robin reaches its only tenant within the steps that lie between. -/
theorem dwrr_reaches (w : Nat) {t : Nat} (ht : t < 256) (k : Nat) (b : Block) (hp : Tbl.get 0 b.arb.ptr w < 256)
    (hk : (t + 256 - Tbl.get 0 b.arb.ptr w) % 256 < k) : (dwrr w [t] k b).1 = t := by
  induction k generalizing b with
  | zero => omega
  | succ k ih =>
    unfold dwrr
    dsimp only
    by_cases h : Tbl.get 0 b.arb.ptr w = t
    · rw [if_pos (List.mem_singleton.mpr h)]
      exact h
    · rw [if_neg (fun e => h (List.mem_singleton.mp e))]
      refine ih _ ?_ ?_
      · rw [Tbl.get_set_same]
        omega
      · rw [Tbl.get_set_same]
        omega

theorem dwrr_fst (w : Nat) {t : Nat} (ht : t < 256) (b : Block) : (dwrr w [t] 257 b).1 = t := by
  unfold dwrr
  dsimp only
  by_cases h : Tbl.get 0 b.arb.ptr w = t
  · rw [if_pos (List.mem_singleton.mpr h)]
    exact h
  · rw [if_neg (fun e => h (List.mem_singleton.mp e))]
    refine dwrr_reaches w ht 256 _ ?_ ?_
    · rw [Tbl.get_set_same]
      omega
    · rw [Tbl.get_set_same]
      omega

theorem filter_singleton {α : Type} {f : α → Bool} {x : α} (h : f x = true) : [x].filter f = [x] := List.filter_cons_of_pos h

theorem nextRing_singleton (r last : Nat) : nextRing [r] last = r := by
  unfold nextRing
  dsimp only
  by_cases h : last < r
  · rw [filter_singleton (f := fun x => decide (last < x)) (decide_eq_true h)]
    rfl
  · rw [List.filter_eq_nil_iff.mpr fun x hx => by rw [List.mem_singleton.mp hx, decide_eq_false h]; exact Bool.false_ne_true]
    rfl

theorem forwardTask_writes (w h tier : Nat) (b : Block) :
    ent (forwardTask w h tier b) h = { ent b h with place := .forwarded }
    ∧ (forwardTask w h tier b).xbar = b.xbar ++ [.preq h (ent b h).gen tier] ∧ OnlyEnt h b (forwardTask w h tier b)
    ∧ Only [.cnt, .ents, .xbar] b (forwardTask w h tier b) := by
  unfold forwardTask
  have fr := xsend_only (some w) 16 (.preq h (ent b h).gen tier) (updEnt h (fun e => { e with place := .forwarded }) b)
  exact ⟨(fr.ent_eq rfl h).trans (ent_updEnt_same ..), xbar_xsend .., .next fr rfl (onlyEnt_updEnt h _ b),
    .next fr (by decide) (.mono (updEnt_only h _ b) (by decide))⟩

/-- The arbiter forwards the only ready task of a Ward for a token. -/
theorem arbiter_forwards {p : Params} {q : List Instr} {b : Block} {w h : Nat} {e : Entry} (hu : wardUp p b w = true)
    (ho : outReqs b w < 8) (hr : rdyList b w = [(h, e)]) (he : ent b h = e) (ht : e.d.tenant < 256)
    (hk : tokens b w e.d.tenant (clsOf e) ≠ 0) : Takes (.arbiterForward w) p q b fun d =>
      ent d h = { e with place := .forwarded } ∧ d.xbar = b.xbar ++ [.preq h e.gen (clsOf e)]
      ∧ tokens d w e.d.tenant (clsOf e) = tokens b w e.d.tenant (clsOf e) - 1 ∧ OnlyEnt h b d ∧ Only [.cnt, .ents, .arb, .xbar] b d := by
  refine takes_runW (actArbiterForward w) (fun _ => rfl) (fun _ => rfl) hu ?_
  dsimp only
  rw [if_neg (by omega), hr, filter_singleton (by exact decide_eq_true hk)]
  have hf := dwrr_fst w ht b
  have hk' := dwrr_tok w [e.d.tenant] 257 b
  have hon := dwrr_only w [e.d.tenant] 257 b
  simp only [List.isEmpty_cons, Bool.false_eq_true, if_false, List.map_cons, List.map_nil]
  generalize dwrr w [e.d.tenant] 257 b = r at hf hk' hon ⊢
  obtain ⟨t, c⟩ := r
  subst hf
  have hc : (if ([(h, e)].any fun x => decide (x.2.d.tenant = e.d.tenant ∧ (!x.2.d.be) = true)) = true then 0 else 1) = clsOf e := by
    cases hb : e.d.be
    · simp [clsOf, hb, b2n]
    · simp [clsOf, hb, b2n]
  dsimp only at hk' hon ⊢
  rw [hc, filter_singleton (by exact decide_eq_true ⟨rfl, rfl⟩), List.map_cons, List.map_nil, nextRing_singleton,
    filter_singleton (by exact decide_eq_true rfl), show earliest [(h, e)] = some (h, e) from rfl]
  dsimp only
  generalize hv : ({ c with arb := _ } : Block) = v
  have hvt : tokens v w e.d.tenant (clsOf e) = tokens b w e.d.tenant (clsOf e) - 1 := by
    rw [← hv, tokens, tokens, ← hk']
    exact Tbl.get_upd_same 0 c.arb.tok _ (· - 1)
  have hbv : Only [.arb] b v := hv ▸ .next (set_arb_only _ c) (by decide) hon
  have heq : ent v h = e := (hbv.ent_eq rfl h).trans he
  obtain ⟨h1, h2, h3, h4⟩ := forwardTask_writes w h (clsOf e + 2 * b2n false) v
  rw [heq] at h1 h2
  rw [hbv.kept .xbar rfl] at h2
  exact ⟨h1, h2, (congrArg (fun a : Arb => Tbl.get 0 a.tok (tokKey w e.d.tenant (clsOf e))) (h4.kept .arb rfl)).trans hvt, fun j hj => (h3 j hj).trans (hbv.ent_eq rfl j),
    .next h4 (by decide) (.mono hbv (by decide))⟩

/-! ## The placement engine -/

/-- With nobody waiting an offer does nothing. -/
theorem offerWaiting_nil {p : Params} {t : Nat} {b : Block} (h : waitingOrder b = []) : offerWaiting p t b = b := by
  unfold offerWaiting
  rw [h]
  rfl

/-- With no request at the engine there is nothing to decide. -/
theorem decideAll_nil {p : Params} {b : Block} (h : b.place.reqs = []) : decideAll p b = b := by
  have hn : newOrder b = [] := by
    unfold newOrder
    rw [h]
    rfl
  unfold decideAll
  rw [hn, forEach_nil]
  refine offerWaiting_nil ?_
  unfold waitingOrder
  rw [h]
  rfl

theorem occ_occUp (n h : Nat) (b : Block) : occ (occUp n h b) n = occ b n + 1 := by
  unfold occ occUp
  dsimp only
  rw [Tbl.get_upd_same, List.length_append]
  rfl

/-- An assignment: the port's count, the entry, and the way on to the governor. -/
theorem assignPort_writes (r : PReq) (n k : Nat) (b : Block) :
    (assignPort r n k b).place.toGov = b.place.toGov ++ [(r.handle, r.gen, n)] ∧ (assignPort r n k b).place.reqs = b.place.reqs.erase r
    ∧ occ (assignPort r n k b) n = occ b n + 1 ∧ ent (assignPort r n k b) r.handle = { ent b r.handle with place := .atGov, port := some n, rank := k }
    ∧ OnlyEnt r.handle b (assignPort r n k b) ∧ Only [.cnt, .ents, .occ, .place, .lcIdleAt] b (assignPort r n k b) := by
  have hu : Only [.cnt, .occ, .lcIdleAt] b (lcGone r (bump kcPlaced 1 (occUp n r.handle b))) :=
    .next (lcGone_only _ _) (by decide) (.next (bump_only _ _ _) (by decide) (.mono (occUp_only _ _ _) (by decide)))
  have ho : occ (lcGone r (bump kcPlaced 1 (occUp n r.handle b))) n = occ b n + 1 := by
    refine Eq.trans ?_ (occ_occUp n r.handle b)
    exact congrArg (fun t => (Tbl.get [] t n).length) (((lcGone_only _ _).kept .occ rfl).trans ((bump_only _ _ _).kept .occ rfl))
  unfold assignPort
  dsimp only
  generalize lcGone r (bump kcPlaced 1 (occUp n r.handle b)) = c at hu ho ⊢
  have he := hu.ent_eq rfl r.handle
  have hp := hu.kept .place rfl
  refine ⟨congrArg (fun x : Place => x.toGov ++ [(r.handle, r.gen, n)]) hp, congrArg (fun x : Place => x.reqs.erase r) hp, ho, ?_, fun j hj => ?_, ?_⟩
  · rw [← he]
    exact ent_updEnt_same r.handle (fun e => { e with place := .atGov, port := some n, rank := k }) c
  · rw [← hu.ent_eq rfl j]
    exact ent_updEnt_ne r.handle (fun e => { e with place := .atGov, port := some n, rank := k }) c j hj
  · exact .next (set_place_only _ _) (by decide) (.next (updEnt_only _ _ c) (by decide) (.mono hu (by decide)))

/-! ## The issue queue -/

/-- What `enqueue` does once the stage of the port is settled. -/
def queueTask (p : Params) (h gen n : Nat) (b : Block) : Block :=
  let e := ent b h
  let w := portWard p n
  let b := updPort n (fun q => { q with iq := q.iq ++ [{ handle := h, gen := gen, be := e.d.be, at_ := b.clk.fclk }] }) b
  let b := evRec p n 2 0 e.rank gen h (trTask p (.ward w) 0x11 e.d e.rank (taskWord p (some n) gen h) b)
  let b := updEnt h (fun e => { e with port := some n, staged := none }) b
  if w = homeOf h then proxyState .placed h b else xsend (some w) 16 (.proxy (wordOf p b h) .placed) b

theorem enqueue_of_noStage {p : Params} {h g n : Nat} {b : Block} (hs : (prt b n).stage = none) :
    enqueue p h g n b = queueTask p h g n b := by
  unfold enqueue
  rw [hs]
  rfl

theorem enqueue_of_ownStage {p : Params} {h g n : Nat} {b : Block} (hs : (prt b n).stage = some (h, g)) :
    enqueue p h g n b = queueTask p h g n (updPort n (fun q => { q with stage := none }) b) := by
  unfold enqueue
  rw [hs]
  exact congrArg (queueTask p h g n) (if_pos rfl)

theorem queueTask_writes (p : Params) (h g n : Nat) (b : Block) :
    prt (queueTask p h g n b) n
      = { prt b n with iq := (prt b n).iq ++ [{ handle := h, gen := g, be := (ent b h).d.be, at_ := b.clk.fclk }] }
    ∧ (ent (queueTask p h g n b) h).port = some n ∧ (ent (queueTask p h g n b) h).staged = none
    ∧ OnlyEnt h b (queueTask p h g n b) ∧ OnlyPort n b (queueTask p h g n b) ∧ (queueTask p h g n b).gov = b.gov := by
  have hq := prt_updPort_same n (fun q => { q with
    iq := q.iq ++ [{ handle := h, gen := g, be := (ent b h).d.be, at_ := b.clk.fclk }] }) b
  have hu := updPort_only n (fun q => { q with
    iq := q.iq ++ [{ handle := h, gen := g, be := (ent b h).d.be, at_ := b.clk.fclk }] }) b
  have ho := onlyPort_updPort n (fun q => { q with
    iq := q.iq ++ [{ handle := h, gen := g, be := (ent b h).d.be, at_ := b.clk.fclk }] }) b
  unfold queueTask
  dsimp only
  generalize updPort n _ b = u at hq hu ho ⊢
  generalize hv : evRec p n 2 0 _ g h _ = v
  have huv : Only [.cnt, .evr, .trace] u v :=
    hv ▸ .next (evRec_only _ _ _ _ _ _ _ _) (by decide) (.mono (trTask_only _ _ _ _ _ _ _) (by decide))
  clear hv
  have he := ent_updEnt_same h (fun e => { e with port := some n, staged := none }) v
  have hw := updEnt_only h (fun e => { e with port := some n, staged := none }) v
  have hoe := onlyEnt_updEnt h (fun e => { e with port := some n, staged := none }) v
  generalize updEnt h _ v = w at he hw hoe ⊢
  have hn := fun q [Decidable q] s k i => notice_only (h := h) (q := q) .placed s k i w
  refine ⟨?_, ?_, ?_, .trans (fun j hj => (hoe j hj).trans ((huv.ent_eq rfl j).trans (hu.ent_eq rfl j))) (notice_onlyEnt _ _ _ _ _), ?_, ?_⟩
  · rw [(hn _ _ _ _).prt_eq rfl, hw.prt_eq rfl, huv.prt_eq rfl, hq]
  · exact (notice_stays (π := Entry.port) (fun _ _ _ _ _ => rfl) _ _ _ _ _).eq.trans (congrArg Entry.port he)
  · exact (notice_stays (π := Entry.staged) (fun _ _ _ _ _ => rfl) _ _ _ _ _).eq.trans (congrArg Entry.staged he)
  · exact .next (hn _ _ _ _) rfl (.next hw rfl (.next huv rfl ho))
  · exact ((hn _ _ _ _).kept .gov rfl).trans ((hw.kept .gov rfl).trans ((huv.kept .gov rfl).trans (hu.kept .gov rfl)))

/-- The port that a walk finds qualifies. -/
theorem walkClass_ok {p : Params} {b : Block} {c n k : Nat} {ok : Nat → Bool} (h : walkClass p b c ok = some (n, k)) : ok n = true := by
  unfold walkClass at h
  obtain ⟨x, -, hx⟩ := List.exists_of_findSome?_eq_some h
  split at hx
  · exact absurd hx (by simp)
  · obtain ⟨m, hm, e⟩ := Option.map_eq_some_iff.mp hx
    obtain ⟨rfl, -⟩ := Prod.mk.inj e
    exact List.find?_some hm

theorem walkClass_free {p : Params} {b : Block} {c n k : Nat}
    (h : walkClass p b c (fun n => room p b n && decide (occ b n = 0)) = some (n, k)) : occ b n = 0 :=
  of_decide_eq_true (Bool.and_eq_true_iff.mp (walkClass_ok h)).2

/-- A reservation is made where both limits leave room for it. -/
theorem reserve_writes (p : Params) (h n : Nat) (b : Block) :
    ent (reserve p h n b) h = { ent b h with
      resvHeld := (ent b h).resvHeld || fits (dmn b (domOf p b n)) (energyEst p b (ent b h).d.energy) }
    ∧ OnlyEnt h b (reserve p h n b) := by
  unfold reserve
  dsimp only
  cases fits (dmn b (domOf p b n)) (energyEst p b (ent b h).d.energy) with
  | false => exact ⟨by rw [when_false, Bool.or_false], fun _ _ => rfl⟩
  | true => exact ⟨by rw [when_true, ent_updEnt_same, Bool.or_true]; rfl, fun j hj => (ent_updEnt_ne h _ _ j hj).trans rfl⟩

/-- The estimate and the domain of a reservation depend on the registers and on the governor alone. -/
theorem fits_eq {p : Params} {b c : Block} (hr : c.regs = b.regs) (hg : c.gov = b.gov) (n e : Nat) :
    fits (dmn c (domOf p c n)) (energyEst p c e) = fits (dmn b (domOf p b n)) (energyEst p b e) := by
  have hd : domOf p c n = domOf p b n := congrArg (fld · _ 4) (rd_congr hr _)
  have he : energyEst p c e = energyEst p b e := by rw [energyEst, energyEst, hg]
  rw [hd, he, dmn_congr hg]

/-- Settles O24. -/
theorem placementAndStaging : Obligations.PlacementAndStaging := by
  refine ⟨fun p q b w h e hu ho hr he ht hk => arbiter_forwards hu ho hr he ht hk, fun p q b h hh g t hu hx e => ?_,
    fun p q b h r n k hu hx hr hw hc => ?_, fun p q b h r hu hx hr hw hc => ?_, fun p q b r n k hu hr hw ht hc => ?_,
    fun p q b h hh g n k hu hx e hr hq hc => ?_, fun p q b h hh g hu hx e hr hq hc => ?_, fun p q b h hh g hu hx => ?_,
    fun p q b h hh g n k hu hx e hp hs => ?_, fun p q b h hh g n k hu hx e hl => ?_, fun p q b h n r hu hst hs hpl hr hv hps => ?_⟩
  · subst e
    refine takes_runK (actPlacementRequest hh) (fun _ => rfl) (fun _ => rfl) hu ?_
    dsimp only
    generalize hf : xfind b _ = x
    obtain rfl := hf.symm.trans hx
    dsimp only
    refine ⟨rfl, congrArg Entry.place (ent_updEnt_same hh (fun e => { e with place := .atEngine }) b), fun j hj => (ent_updEnt_ne hh (fun e => { e with place := .atEngine }) b j hj :), xdrop_length hf, ?_⟩
    exact .next (tookSeq_only _) (by decide) (.next (set_place_only _ _) (by decide) (.next (updEnt_only hh _ _) (by decide)
      (.mono (xdrop_only _ b) (by decide))))
  · have hh : r.handle = h := (of_decide_eq_true (List.find?_some (p := fun r : PReq => decide (r.handle = h ∧ r.waitAt = none)) hx)).1
    subst hh
    refine takes_runK (actPlacementDecision r.handle) (fun _ => rfl) (fun _ => rfl) hu ?_
    rw [hx]
    dsimp only
    rw [hr, when_true]
    unfold decideReq
    rw [offerWaiting_nil hw]
    dsimp only
    rw [hc]
    obtain ⟨h1, h2, h3, h4, h5, h6⟩ := assignPort_writes r n k b
    exact ⟨h1, h2, h3, congrArg Entry.place h4, congrArg Entry.port h4, congrArg Entry.rank h4, h5, h6⟩
  · have hh : r.handle = h := (of_decide_eq_true (List.find?_some (p := fun r : PReq => decide (r.handle = h ∧ r.waitAt = none)) hx)).1
    subst hh
    refine takes_runK (actPlacementDecision r.handle) (fun _ => rfl) (fun _ => rfl) hu ?_
    rw [hx]
    dsimp only
    rw [hr, when_true]
    unfold decideReq
    rw [offerWaiting_nil hw]
    dsimp only
    rw [hc]
    exact ⟨rfl, rfl, set_place_only _ b⟩
  · refine takes_runK actWaitingListOffer (fun _ => rfl) (fun _ => rfl) hu ?_
    rw [hr, when_true]
    unfold offerWaiting
    rw [hw, filter_singleton (by exact decide_eq_true ht), forEach_cons, forEach_nil, hc]
    obtain ⟨h1, h2, h3, h4, -, h6⟩ := assignPort_writes r n k b
    exact ⟨h1, h2, h3, congrArg Entry.port h4, h6⟩
  · subst e
    refine takes_runK (actStagingRequest hh) (fun _ => rfl) (fun _ => rfl) hu ?_
    dsimp only
    generalize hf : xfind b _ = x
    obtain rfl := hf.symm.trans hx
    dsimp only
    rw [hr, when_true, decideAll_nil (by exact hq), if_pos (by exact hr)]
    generalize hw : walkClass p _ _ _ = x
    obtain rfl := hw.symm.trans hc
    have hfree : occ b n = 0 := walkClass_free hc
    dsimp only
    generalize hu : xdrop _ b = u
    have hbu : Only [.xbar] b u := hu ▸ xdrop_only _ b
    have ho : occ (bump kcPlaced 1 (occUp n hh u)) n = 1 := by
      refine (congrArg (fun t => (Tbl.get [] t n).length) ((bump_only kcPlaced 1 _).kept .occ rfl)).trans ((occ_occUp n hh u).trans ?_)
      rw [← hu]
      exact congrArg (· + 1) hfree
    generalize hv : bump kcPlaced 1 (occUp n hh u) = v at ho ⊢
    have hbv : Only [.cnt, .occ, .xbar] b v := hv ▸ .next (bump_only _ _ _) (by decide) (.next (occUp_only _ _ _) (by decide) (.mono hbu (by decide)))
    obtain ⟨hre, hro⟩ := reserve_writes p hh n v
    have hrv := reserve_only p hh n v
    rw [fits_eq (hbv.kept .regs rfl) (hbv.kept .gov rfl), hbv.ent_eq rfl] at hre
    refine ⟨(congrArg (fun t => (Tbl.get [] t n).length) (hrv.kept .occ rfl)).trans ho, List.mem_append_right _ (List.mem_singleton_self _), ?_, fun j hj => ?_,
      .next (xput_only _ _) (by decide) (.next (updEnt_only _ _ _) (by decide) (.next hrv (by decide) (.mono hbv (by decide))))⟩
    · rw [ent_xput, ent_updEnt_same, hre]
    · rw [ent_xput, ent_updEnt_ne _ _ _ _ hj, hro j hj, hbv.ent_eq rfl]
  · subst e
    refine takes_runK (actStagingRequest hh) (fun _ => rfl) (fun _ => rfl) hu ?_
    dsimp only
    generalize hf : xfind b _ = x
    obtain rfl := hf.symm.trans hx
    dsimp only
    rw [hr, when_true, decideAll_nil (by exact hq), if_pos (by exact hr)]
    generalize hw : walkClass p _ _ _ = x
    obtain rfl := hw.symm.trans hc
    exact ⟨List.mem_append_right _ (List.mem_singleton_self _), .next (xput_only _ _) (by decide) (xdrop_only _ b)⟩
  · refine takes_runW (actStagingNoPort h) (fun _ => rfl) (fun _ => rfl) hu ?_
    dsimp only
    generalize hf : xfind b _ = x
    obtain rfl := hf.symm.trans hx
    dsimp only
    have fr : ∀ f, Only [.cnt, .xbar] b (xrx (homeOf h) 16 (xdrop f b)) := fun f => .next (xrx_only _ _ _) (by decide) (.mono (xdrop_only _ _) (by decide))
    refine ⟨?_, fun j hj => (ent_updEnt_ne h _ _ j hj).trans ((fr _).ent_eq rfl j), .next (updEnt_only h _ _) (by decide) (.mono (fr _) (by decide))⟩
    rw [ent_updEnt_same, (fr _).ent_eq rfl]
  · subst e
    refine takes_runK (actPlacementDecisionArrival hh) (fun _ => rfl) (fun _ => rfl) hu ?_
    dsimp only
    generalize hf : xfind b _ = x
    obtain rfl := hf.symm.trans hx
    dsimp only
    generalize hc : xrx (portWard p n) 16 _ = c
    have hbc : Only [.cnt, .xbar] b c := hc ▸ .next (xrx_only _ _ _) (by decide) (.mono (xdrop_only _ _) (by decide))
    have hcp := hbc.prt_eq rfl n
    rw [if_neg Bool.false_ne_true, if_neg (by rw [hbc.ent_eq rfl, hp]; exact fun h => absurd h.1 (by simp)),
      enqueue_of_noStage (by rw [hcp]; exact hs)]
    obtain ⟨h1, h2, h3, h4, h5, -⟩ := queueTask_writes p hh g n c
    refine ⟨?_, h2, h3, fun j hj => (h4 j hj).trans (hbc.ent_eq rfl j), fun j hj => (h5 j hj).trans (hbc.prt_eq rfl j)⟩
    rw [h1, hcp, hbc.ent_eq rfl, hbc.kept .clk rfl]
  · subst e
    refine takes_runK (actPlacementDecisionArrival hh) (fun _ => rfl) (fun _ => rfl) hu ?_
    dsimp only
    generalize hf : xfind b _ = x
    obtain rfl := hf.symm.trans hx
    dsimp only
    generalize hc : xrx (portWard p n) 16 _ = c
    have hbc : Only [.cnt, .xbar] b c := hc ▸ .next (xrx_only _ _ _) (by decide) (.mono (xdrop_only _ _) (by decide))
    rw [if_pos rfl]
    have fr := fun k g h c => evRec_only p n 1 0 k g h c
    refine ⟨?_, ?_, fun j hj => ?_, fun j hj => ?_, .next (fr _ _ _ _) (by decide) (.next (updEnt_only _ _ _) (by decide)
      (.next (updPort_only _ _ _) (by decide) (.mono hbc (by decide))))⟩
    · rw [(fr _ _ _ _).prt_eq rfl, prt_updEnt, prt_updPort_same, hbc.prt_eq rfl]
    · rw [(fr _ _ _ _).ent_eq rfl, ent_updEnt_same, ent_updPort, hbc.ent_eq rfl, if_pos hl]
    · rw [(fr _ _ _ _).ent_eq rfl, ent_updEnt_ne _ _ _ _ hj, ent_updPort, hbc.ent_eq rfl]
    · rw [(fr _ _ _ _).prt_eq rfl, prt_updEnt, prt_updPort_ne _ _ _ _ hj, hbc.prt_eq rfl]
  · refine takes_runW (actStagedTaskPlaced h) (fun _ => rfl) (fun _ => rfl) hu ?_
    dsimp only
    rw [hst]
    dsimp only
    rw [if_pos ⟨hs, hpl, hr⟩, hv]
    dsimp only
    generalize hc : updDom (domOf p b n) _ (spendToken h b) = c
    have hbc : Only [.arb, .gov] b c := hc ▸ .next (updDom_only _ _ _) (by decide) (.mono (spendToken_only _ _) (by decide))
    have hcd : dmn c (domOf p b n) = { dmn b (domOf p b n) with
        resv := (dmn b (domOf p b n)).resv.erase r, n := (dmn b (domOf p b n)).n + 1, i := (dmn b (domOf p b n)).i + r.est } :=
      hc ▸ (dmn_updDom_same _ _ _).trans rfl
    have hcp := hbc.prt_eq rfl n
    rw [enqueue_of_ownStage (by rw [hcp]; exact hps)]
    have hup := prt_updPort_same n (fun q => { q with stage := none }) c
    have huo := onlyPort_updPort n (fun q => { q with stage := none }) c
    have hue := updPort_only n (fun q => { q with stage := none }) c
    generalize updPort n (fun q => { q with stage := none }) c = u at hup huo hue ⊢
    have hbu : Only [.arb, .gov, .ports] b u := .next hue (by decide) (.mono hbc (by decide))
    obtain ⟨h1, h2, h3, h4, h5, h6⟩ := queueTask_writes p h (ent b h).gen n u
    have hd : dmn (queueTask p h (ent b h).gen n u) (domOf p b n) = dmn c (domOf p b n) := dmn_congr (h6.trans (hue.kept .gov rfl)) _
    rw [hd, hcd, h1, hup, hcp, hbu.ent_eq rfl, hbu.kept .clk rfl]
    exact ⟨rfl, rfl, rfl, rfl, rfl, h2, fun j hj => (h4 j hj).trans (hbu.ent_eq rfl j), fun j hj =>
      (h5 j hj).trans ((huo j hj).trans (hbc.prt_eq rfl j))⟩

end Sys2Proof.Machine
end

section
/-! PROOFS. Statements of the walk, of messages, of combining, of hasps and of Hinges whose premises leave a case out: a state
that meets them and refutes the statement. -/

namespace Sys2Proof.Machine

/-- A walk that waits for a fan-list block which its fetcher has still to read. -/
def unreadFan : Block :=
  { boot := { porst := false, stage := [(0, .ready), (1, .ready)] }, rings := [(0, { walk := { fanWait := some 0, want := [0] } })] }

/-- Refutes O30: a fan-list response is not taken while the read it answers has still to be made. -/
theorem not_graphPasses : ¬ Obligations.GraphPasses := by
  intro h
  obtain ⟨-, -, -, -, -, -, -, hfan, -⟩ := h
  obtain ⟨hw, -⟩ := (hfan {} [] unreadFan 0 0 [] (by decide) (by decide)).run (by decide) (by decide)
  exact absurd hw (by decide)

/-- A discard on its way to a running entry and to one whose completion was sampled in this cycle. -/
def discardAfterDone : Block :=
  { boot := { porst := false, stage := [(0, .ready), (1, .ready)] }, clk := { cmpNow := [1] }
    ents := [(0, { st := .running }), (1, { st := .done })], xbar := [.discard 0 0 0 0] }

/-- Refutes O36: an entry whose completion was sampled in the cycle of the discard is marked too. -/
theorem not_preemptionAndResume : ¬ Obligations.PreemptionAndResume := by
  intro h
  obtain ⟨-, -, -, -, -, -, -, -, -, hdisc, -⟩ := h
  obtain ⟨-, ho, -⟩ := (hdisc {} [] discardAfterDone 0 0 0 0 0 (by decide) (by decide) (by decide) (by decide)).run (by decide) (by decide)
  exact absurd (congrArg Entry.discard (ho 1 (by decide))) (by decide)

/-- A channel that was reset at its sender while message 0 was out: the answer is not to reach the port. -/
def unansweredChan : Chan := { tenant := 0, dir := 0, tx := .port 0, rx := .port 0, owner := .task 0, noAns := [0] }

/-- The acknowledgement of that message on its way. -/
def ackAfterReset : Block :=
  { boot := { porst := false, stage := [(0, .ready), (1, .ready)] }, chans := [(0, some unansweredChan)], xbar := [.ack ⟨none, 0⟩ 0 none] }

/-- Refutes O38: the acknowledgement of a message sent before a reset of its port does not reach the port. -/
theorem not_messageOutcomes : ¬ Obligations.MessageOutcomes := by
  intro h
  obtain ⟨hack, -⟩ := h
  obtain ⟨hc, -⟩ := (hack {} [] ackAfterReset 0 ⟨none, 0⟩ 0 none unansweredChan (by decide) (by decide) (by decide) (by decide) (by decide)
    (by decide)).run (by decide) (by decide)
  exact absurd (congrArg (Option.map Chan.noAns) hc) (by decide)

/-- A queue whose drain awaits its last response while its entry is not sealed. -/
def unsealedDrain : Block :=
  { boot := { porst := false, stage := [(0, .ready), (1, .ready)] }, cq := [(0, { st := .draining, wrOut := 1 })], ents := [(0, { st := .pending })] }

/-- Refutes O40: a whole result of a queue whose entry is not sealed yet waits for the seal. -/
theorem not_combining : ¬ Obligations.Combining := by
  intro h
  obtain ⟨-, -, -, -, -, -, hlast, -⟩ := h
  obtain ⟨hd, -⟩ := (hlast {} [] unsealedDrain 0 0 (by decide) (by decide) (by decide) (by decide) (by decide) (by decide) (by decide)
    (by decide) (by decide) (by decide) (by decide) (by decide) (by decide)).run (by decide) (by decide)
  exact absurd hd (by decide)

/-- A satisfied wait of port 0, whose task belongs to a ring that has made no progress for a tick. -/
def waitOfStuckRing : Block :=
  { boot := { porst := false, stage := [(0, .ready), (1, .ready)] }, waits := [⟨.port 0, 0, 0, 0, false⟩]
    ports := [(0, { wait := some ⟨0, 0, 0, none, 0, 0, false⟩ })], rings := [(0, { d0 := 1, hangTicks := 1 })] }

/-- Refutes O41: the release of a task's wait is progress of its ring. -/
theorem not_signalsAndWaits : ¬ Obligations.SignalsAndWaits := by
  intro h
  obtain ⟨-, -, -, hport, -⟩ := h
  obtain ⟨-, -, ho⟩ := (hport {} [] waitOfStuckRing ⟨.port 0, 0, 0, 0, false⟩ 0 ⟨0, 0, 0, none, 0, 0, false⟩ (by decide) (by decide) (by decide)
    (by decide) (by decide)).run (by decide) (by decide)
  exact absurd (congrArg Ring.hangTicks (ho.rng_eq rfl 0)) (by decide)

/-- A Hinge that has been rearmed and trained while its DOWN event is still outstanding. -/
def downOutstanding : Block :=
  { boot := { porst := false, stage := [(0, .ready), (64, .ready)], lock := true }, regs := [(kA 6 0x040, 0x8000)]
    hg := [(0, { state := .train, linkUp := true, helloTx := true, downPend := true })] }

/-- Refutes O43: a Hinge whose DOWN event is outstanding does not become ACTIVE with the HELLO. -/
theorem not_hingeStatesAndLanes : ¬ Obligations.HingeStatesAndLanes := by
  intro h
  obtain ⟨hhello, -⟩ := h
  obtain ⟨hd, -⟩ := (hhello {} [] downOutstanding 0 (by decide) (by decide) (by decide) (by decide) (by decide) (by decide) (by decide)
    (by decide)).run (by decide) (by decide)
  exact absurd (congrArg Hinge.state hd) (by decide)

/-- The same Hinge with the peer's HELLO received, its own not yet sent, and a route through it. -/
def backBeforeEvent : Block :=
  { boot := { porst := false, stage := [(0, .ready), (64, .ready)], lock := true }, regs := [(kA 6 0x040, 0x8000)], routes := [(5, ⟨true, 0⟩)]
    hg := [(0, { state := .train, linkUp := true, rearmed := true, helloRx := true, downPend := true })] }

/-- Refutes O46: the DOWN event of a Hinge that has trained again makes it ACTIVE, and its instances reachable. -/
theorem not_itemsAndReachability : ¬ Obligations.ItemsAndReachability := by
  intro h
  obtain ⟨-, -, -, -, -, -, -, -, -, -, -, -, -, -, -, -, -, -, -, -, -, -, hdown⟩ := h
  obtain ⟨hr, -⟩ := (hdown {} [] backBeforeEvent 0 5 (by decide) (by decide) (by decide) (by decide)).run (by decide) (by decide)
  exact absurd hr (by decide)

end Sys2Proof.Machine
end

section
/-! SUPPORT. A ring changed and nothing else of the kind: what the commands of a walk leave, in the order in which they act on
it. -/

namespace Sys2Proof.Machine

variable {p : Params} {b c d : Block} {l m : List BlockPart} {r : Nat} {g : Ring}

/-- Block `d` is block `b` with ring `r` replaced by `g`, no other ring changed, and no other part but those of `l`. -/
def RingSet (l : List BlockPart) (r : Nat) (g : Ring) (b d : Block) : Prop := rng d r = g ∧ OnlyRing r b d ∧ Only l b d

theorem RingSet.refl (l : List BlockPart) (r : Nat) (b : Block) : RingSet l r (rng b r) b b := ⟨rfl, fun _ _ => rfl, .refl _ _⟩

/-- The ring is changed once more. -/
theorem RingSet.upd (f : Ring → Ring) (hl : BlockPart.rings ∈ l) (h : RingSet l r g b d) : RingSet l r (f g) b (updRing r f d) :=
  ⟨(rng_updRing_same r f d).trans (congrArg f h.1), h.2.1.trans (onlyRing_updRing r f d),
    .next (updRing_only r f d) (fun _ hx => (List.mem_singleton.mp hx).symm ▸ hl) h.2.2⟩

/-- A part that holds no ring is changed. -/
theorem RingSet.next (ho : Only m c d) (hm : decide (BlockPart.rings ∈ m) = false) (hs : ∀ f ∈ m, f ∈ l) (h : RingSet l r g b c) :
    RingSet l r g b d :=
  ⟨(ho.rng_eq hm r).trans h.1, h.2.1.next ho hm, .next ho hs h.2.2⟩

theorem RingSet.out {g' : Ring} (h : RingSet l r g b d) (hg : g = g') : rng d r = g' ∧ OnlyRing r b d ∧ Only l b d :=
  ⟨h.1.trans hg, h.2⟩

/-! ## The ring's own changes -/

theorem rng_progress (r : Nat) (b : Block) : rng (progress r b) r = calm (rng b r) := rng_updRing_same r _ b

/-- The record's own ring, with its wait for progress begun anew, and with nothing else changed. -/
theorem ringSet_progress (hl : BlockPart.rings ∈ l) (r : Nat) (b : Block) : RingSet l r (calm (rng b r)) b (progress r b) :=
  (RingSet.refl l r b).upd _ hl

theorem RingSet.progress (hl : BlockPart.rings ∈ l) (h : RingSet l r g b d) : RingSet l r (calm g) b (progress r d) := h.upd _ hl

theorem RingSet.walk (f : Walk → Walk) (hl : BlockPart.rings ∈ l) (h : RingSet l r g b d) :
    RingSet l r { g with walk := f g.walk } b (updWalk r f d) := h.upd _ hl

theorem RingSet.spent (hl : BlockPart.rings ∈ l) (h : RingSet l r g b d) :
    RingSet l r { g with walk := { g.walk with patches := [] } } b (spent r d) := h.upd _ hl

theorem RingSet.dirty (hl : BlockPart.rings ∈ l) (h : RingSet l r g b d) : RingSet l r (stained g) b (dirty r d) := h.upd _ hl

/-! ## Moving on -/

/-- A record of the segment follows the one at hand. -/
def Follows (g : Ring) : Prop := ∃ s, g.walk.seg = some s ∧ g.walk.off + 32 < s.off + 64 + s.len

theorem passRec_of_follows (h : Follows (rng b r)) :
    passRec p r b = updWalk r (fun k => { k with mode := .records, off := k.off + 32, memv := [], hold := none }) b := by
  obtain ⟨s, hs, hlt⟩ := h
  unfold passRec
  dsimp only
  rw [hs]
  exact if_pos hlt

theorem leaveSeg_of_next {s : SegHdr} (hs : (rng b r).walk.seg = some s) (hn : s.next ≠ 0xFFFFFFFF) :
    leaveSeg p r b = updWalk r (fun k => { k with
      mode := .header, off := s.next.toNat, body := [], memv := [], fans := [], reread := [], want := [], patches := [], hold := none }) b := by
  unfold leaveSeg
  rw [hs]
  exact if_neg hn

theorem passRec_of_last {s : SegHdr} (hs : (rng b r).walk.seg = some s) (hl : s.off + 64 + s.len ≤ (rng b r).walk.off + 32) :
    passRec p r b = leaveSeg p r (updWalk r (fun k => { k with off := k.off + 32 }) b) := by
  unfold passRec
  dsimp only
  rw [hs]
  exact if_neg (Nat.not_lt.mpr hl)

theorem walkOn_of_inside {s : SegHdr} (hs : (rng b r).walk.seg = some s) (hl : (rng b r).walk.off < s.off + 64 + s.len) :
    walkOn p r b = b := by
  unfold walkOn
  dsimp only
  split
  next s' _ hs' =>
    obtain rfl := Option.some.inj (hs.symm.trans hs')
    exact if_neg (Nat.not_le.mpr hl)
  · rfl

/-- The record at hand is done and another one of the segment follows. -/
theorem RingSet.pass (hl : BlockPart.rings ∈ l) (hf : Follows g) (h : RingSet l r g b d) :
    RingSet l r { g with walk := nextRec g.walk } b (pass p r d) := by
  have hs := h.spent hl
  unfold Machine.pass
  rw [passRec_of_follows (hs.1 ▸ hf)]
  exact hs.walk _ hl

/-! ## A record reached -/

theorem walkRec_reads {o : Nat} {x : BitVec 256} {f : BitVec 512 → Block → Block} (h : Reads p b r o x) :
    walkRec p r o x f b = f (wide x) (progress r b) := by
  obtain ⟨-, hm, hp, hc, ho, hf⟩ := h
  unfold walkRec
  dsimp only
  rw [hm, hp, if_neg (by decide), show patched [] (wide x) = some (wide x) from rfl]
  dsimp only
  rw [hc, hf, if_neg (by decide), if_neg (not_not_intro ho), if_neg (by decide)]

/-- A record of a CONTROL segment that the walk reaches in good form. -/
theorem takes_record {i : Instr} {q : List Instr} {Q : Block → Prop} {o : Nat} {x : BitVec 256} {f : Params → BitVec 512 → Block → Block}
    (act : State → Outcome) (he : ∀ s, exec i s = act (s.sampled i)) (ha : ∀ s, act s = s.runRec r o x f) (hr : Reads p b r o x)
    (hQ : Q (f p (wide x) (progress r b))) : Takes i p q b Q :=
  takes_runK act he ha hr.1 (by rw [walkRec_reads hr]; exact hQ)

/-! ## Operands -/

theorem subOf_progress (r k : Nat) (s : Word32) (b : Block) : subOf (progress r b) k s = subOf b k s := by
  unfold subOf
  by_cases hk : k = r
  · subst hk
    rw [rng_progress]
    rfl
  · rw [show rng (progress r b) k = rng b k from onlyRing_updRing r _ b k hk]

theorem evalOpd_progress (w : Word64) : evalOpd p (progress r b) r w = evalOpd p b r w := by
  unfold evalOpd
  dsimp only
  rw [subOf_progress, rng_progress]
  rfl

theorem evalLow_progress (w : Word64) : evalLow p (progress r b) r w = evalLow p b r w := by
  unfold evalLow
  rw [evalOpd_progress]

theorem evalLow_of_val {w : Word64} {v : Nat} (h : evalLow p b r w = .val v) : evalLow p (progress r b) r w = .val v :=
  (evalLow_progress w).trans h

theorem useOpd_val (x : BitVec 512) (n : Nat) (f : Nat → Block → Block) (b : Block) : useOpd p r x (.val n) f b = f n b := rfl

/-- A field of a 32-byte record is that of its 64-byte form. -/
theorem bf_wide (x : BitVec 256) (off lo len : Nat) : bf (wide x) off lo len = bf x off lo len := by
  unfold bf fld
  rw [show (wide x).toNat = x.toNat from BitVec.toNat_setWidth_of_le (by decide)]

theorem bitAt_wide (x : BitVec 256) (i : Nat) : bitAt (wide x) i = bitAt x i := by
  unfold bitAt
  rw [← BitVec.testBit_toNat, ← BitVec.testBit_toNat, show (wide x).toNat = x.toNat from BitVec.toNat_setWidth_of_le (by decide)]

theorem wide_setWidth (x : BitVec 256) : (wide x).setWidth 256 = x := by
  unfold wide
  simp

end Sys2Proof.Machine
end

section
/-! PROOFS. The records of a CONTROL segment that move the walk: NOP, MARK, NOTE, SET_SLOT, INDIRECT, COND, LOOP and ENDLOOP (R127,
R129, R132, R133, R137, R138). -/

namespace Sys2Proof.Machine

/-- A MARK sets the layer and the operation of its ring. -/
theorem RingSet.mark {p : Params} {b d : Block} {r : Nat} {g : Ring} (y : BitVec 256) (h : RingSet [.cnt, .rings, .trace] r g b d) :
    RingSet [.cnt, .rings, .trace] r { g with layer := bf y 2 0 16, opid := bf y 4 0 16 } b (applyMark p r y d) :=
  .next (trRing_only _ _ _ _ _ _ _) rfl (by decide) (h.upd _ (by decide))

theorem follows_of_lastRec {g : Ring} (h : lastRec g.walk = false) : Follows g := by
  unfold lastRec at h
  split at h
  next s hs => exact ⟨s, hs, by simpa using h⟩
  · exact absurd h (by decide)

/-- A SET_SLOT with CLEAR 0 sets the value of its slot. -/
theorem applySet_set {y : BitVec 256} {v : Word32} {b : Block} (hc : bitAt y 8 = false) :
    slt (applySet y v b) (bf y 4 0 18 / 4096) (bf y 4 0 18 % 4096)
      = { slt b (bf y 4 0 18 / 4096) (bf y 4 0 18 % 4096) with v := true, value := v } := by
  unfold applySet writeSlot
  dsimp only
  rw [slt_updSlot_same, hc]
  rfl

/-- Settles O31: each record by what it does to its ring before the walk goes on to the next. -/
theorem recordsInTurn : Obligations.RecordsInTurn := by
  refine ⟨fun p q b r x hr hi => ?_, fun p q b r x g hr hs hl hn => ?_, fun p q b r x hr hi => ?_, fun p q b r x hr hi => ?_,
    fun p q b r x v hr hi hc hv hm => ?_, fun p q b r x v k hr hk hl hv => ?_⟩
  · refine takes_record (actNop r x) (fun _ => rfl) (fun _ => rfl) hr ?_
    exact RingSet.out ((ringSet_progress (by decide) r b).pass (by decide) (by exact hi)) rfl
  · refine takes_record (actNop r x) (fun _ => rfl) (fun _ => rfl) hr ?_
    have hp := (ringSet_progress (l := [.rings]) (by decide) r b).spent (by decide)
    unfold pass
    rw [passRec_of_last (by rw [hp.1]; exact hs) (by rw [hp.1]; exact hl)]
    have hw := hp.walk (fun k => { k with off := k.off + 32 }) (by decide)
    rw [leaveSeg_of_next (by rw [hw.1]; exact hs) hn]
    obtain ⟨he, ho⟩ := hw.walk (fun k => { k with
      mode := .header, off := g.next.toNat, body := [], memv := [], fans := [], reread := [], want := [], patches := [], hold := none })
      (by decide)
    rw [he]
    exact ⟨rfl, rfl, ho⟩
  · refine takes_record (actMark r x) (fun _ => rfl) (fun _ => rfl) hr ?_
    dsimp only
    rw [wide_setWidth]
    exact RingSet.out (((ringSet_progress (by decide) r b).mark x).pass (by decide) (by exact hi)) rfl
  · refine takes_record (actNote r x) (fun _ => rfl) (fun _ => rfl) hr ?_
    dsimp only
    simp only [bf_wide]
    rw [rng_progress]
    generalize hc : postW p _ _ _ _ _ _ (progress r b) = c
    have hbc : RingSet [.rings, .out] r (calm (rng b r)) b c :=
      hc ▸ (ringSet_progress (by decide) r b).next (postW_only _ _ _ _ _ _ _ _) rfl (by decide)
    obtain ⟨h1, h2, h3⟩ := (hbc.dirty (by decide)).pass (by decide) (by exact hi)
    refine ⟨h1, ?_, h2, h3⟩
    obtain ⟨-, -, hp⟩ := ((RingSet.refl [.rings] r c).dirty (by decide)).pass (p := p) (by decide) (hbc.1 ▸ hi)
    rw [hp.kept .out rfl, ← hc]
    rfl
  · refine takes_record (actSetSlot r x) (fun _ => rfl) (fun _ => rfl) hr ?_
    dsimp only
    simp only [bf_wide, bitAt_wide]
    rw [hc, if_neg (by decide), evalLow_of_val hv, useOpd_val, rng_progress, if_pos (by exact hm), wide_setWidth]
    generalize hd : applySet x _ (progress r b) = c
    have hbc : RingSet [.rings, .slots] r (calm (rng b r)) b c :=
      hd ▸ (ringSet_progress (by decide) r b).next (applySet_only _ _ _) rfl (by decide)
    obtain ⟨h1, h2, h3⟩ := (hbc.dirty (by decide)).pass (p := p) (by decide) (by exact hi)
    refine ⟨h1, ?_, h2, h3⟩
    obtain ⟨-, -, hp⟩ := ((RingSet.refl [.rings] r c).dirty (by decide)).pass (p := p) (by decide) (hbc.1 ▸ hi)
    rw [slt_congr (hp.kept .slots rfl), ← hd, applySet_set hc]
    rfl
  · subst hk
    refine takes_runK (actIndirect r x) (fun _ => rfl) (fun _ => rfl) hr.1 ?_
    obtain ⟨-, hm, hp, -, ho, hf⟩ := hr
    dsimp only
    rw [hm, hp, hf, hl, if_neg (by simp [ho]), if_neg (by decide), hv, useOpd_val]
    have hw := (ringSet_progress (l := [.rings]) (by decide) r b).walk
      (fun k => { k with patches := k.patches ++ [⟨bf x 1 0 6, indBytes (wide x), v % 2 ^ (8 * indBytes (wide x))⟩] }) (by decide)
    rw [bf_wide, passRec_of_follows (hw.1 ▸ follows_of_lastRec hl)]
    refine RingSet.out (hw.walk _ (by decide)) ?_
    rw [show (calm (rng b r)).walk.patches = [] from hp]
    rfl

end Sys2Proof.Machine
end

section
/-! PROOFS. Branches and loops of a walk: COND, LOOP and ENDLOOP (R132, R133). -/

namespace Sys2Proof.Machine

/-- A jump to a later record of the segment. -/
theorem RingSet.jump {p : Params} {b d : Block} {l : List BlockPart} {r t : Nat} {g : Ring} {s : SegHdr} (leave : Bool) (x : BitVec 512)
    (hl : BlockPart.rings ∈ l) (hs : g.walk.seg = some s) (hlo : g.walk.off < t) (hhi : t < s.off + 64 + s.len) (ht : t % 32 = 0)
    (h : RingSet l r g b d) :
    RingSet l r { g with walk := { g.walk with patches := [], memv := [], off := t } } b (jump p r t leave x d) := by
  have hj : Machine.jump p r t leave x d = updWalk r (fun k => { k with off := t }) (updWalk r (fun k => { k with memv := [] }) (Machine.spent r d)) := by
    unfold Machine.jump
    dsimp only
    rw [h.1, hs]
    dsimp only
    rw [if_neg (by omega), if_pos hhi, if_pos ht]
  rw [hj]
  exact ((h.spent hl).walk _ hl).walk _ hl

/-- Settles O32: each record by the operands it compares or counts, and by where the walk then goes. -/
theorem branchesAndLoops : Obligations.BranchesAndLoops := by
  refine ⟨fun p q b r x u v hr hi hu hv hc => ?_, fun p q b r x u v g hr hu hv hc hs hlo hhi ht => ?_,
    fun p q b r x n g hr hi hfe hn h0 hlen hs => ?_, fun p q b r x g hr hfe hn hlen hs hlo hhi ht => ?_,
    fun p q b r x l hr hlast he hmore hin => ?_, fun p q b r x l hr hi hlast he hfe hcnt => ?_⟩
  · refine takes_record (actCond r x) (fun _ => rfl) (fun _ => rfl) hr ?_
    simp only [evalLow_of_val hu, evalLow_of_val hv, useOpd_val, bf_wide]
    rw [if_pos hc]
    exact RingSet.out ((ringSet_progress (by decide) r b).pass (by decide) (by exact hi)) rfl
  · refine takes_record (actCond r x) (fun _ => rfl) (fun _ => rfl) hr ?_
    simp only [evalLow_of_val hu, evalLow_of_val hv, useOpd_val, bf_wide]
    rw [hc, if_neg (by decide), if_neg (by rw [rng_progress]; exact Nat.not_le.mpr hlo)]
    have hw := (ringSet_progress (l := [.rings]) (by decide) r b).walk
      (fun k => { k with loops := k.loops.filter (fun l => decide (bf x 4 0 32 < l.exit)) }) (by decide)
    obtain ⟨hd, ho⟩ := hw.jump (p := p) false (wide x) (by decide) (by exact hs) (by exact hlo) hhi ht
    rw [hd]
    exact ⟨rfl, of_decide_eq_true (by
      have hm := hr.2.1
      simp only [mayTake, Bool.and_eq_true] at hm
      exact hm.1.1), hs, rfl, ho⟩
  · refine takes_record (actLoop r x) (fun _ => rfl) (fun _ => rfl) hr ?_
    simp only [evalLow_of_val hn, useOpd_val, bf_wide, bitAt_wide, hfe, rng_progress]
    rw [if_neg (by decide), if_neg (by exact Nat.not_le.mpr hlen), if_neg (by simp [h0]), show (calm (rng b r)).walk.seg = some g from hs]
    have hw := (ringSet_progress (l := [.rings]) (by decide) r b).walk
      (fun k => { k with loops := k.loops ++ [⟨k.off + 32, bf x 4 0 32, 0, BitVec.ofNat 32 n, false, g⟩] }) (by decide)
    exact RingSet.out (hw.pass (by decide) (by exact hi)) rfl
  · refine takes_record (actLoop r x) (fun _ => rfl) (fun _ => rfl) hr ?_
    simp only [evalLow_of_val hn, useOpd_val, bf_wide, bitAt_wide, hfe, rng_progress]
    rw [if_neg (by decide), if_neg (by exact Nat.not_le.mpr hlen), if_pos (by simp)]
    obtain ⟨hd, ho⟩ := (ringSet_progress (l := [.rings]) (by decide) r b).jump (p := p) true (wide x) (by decide) (by exact hs)
      (by exact hlo) hhi ht
    rw [hd]
    exact ⟨rfl, rfl, ho⟩
  · refine takes_record (actEndloop r x) (fun _ => rfl) (fun _ => rfl) hr ?_
    dsimp only
    rw [rng_progress, show (calm (rng b r)).walk.loops.getLast? = some l from hlast]
    dsimp only
    rw [if_neg (not_not_intro (by exact he)), if_pos (by exact hmore)]
    have hw := ((ringSet_progress (l := [.rings]) (by decide) r b).spent (by decide)).walk
      (fun k => { k with loops := k.loops.dropLast ++ [{ l with iter := l.iter + 1 }], seg := some l.seg, off := l.body, memv := [] }) (by decide)
    rw [walkOn_of_inside (s := l.seg) (by rw [hw.1]) (by rw [hw.1]; exact hin)]
    exact RingSet.out hw rfl
  · refine takes_record (actEndloop r x) (fun _ => rfl) (fun _ => rfl) hr ?_
    dsimp only
    rw [rng_progress, show (calm (rng b r)).walk.loops.getLast? = some l from hlast]
    dsimp only
    rw [if_neg (not_not_intro (by exact he)), if_neg (by simp [hfe]; exact hcnt)]
    have hw := (ringSet_progress (l := [.rings]) (by decide) r b).walk (fun k => { k with loops := k.loops.dropLast }) (by decide)
    exact RingSet.out (hw.pass (by decide) (by exact hi)) rfl

end Sys2Proof.Machine
end

section
/-! SUPPORT. A command fault of the walk (R140, R145). -/

namespace Sys2Proof.Machine

theorem abandonSeg_onlyRing (p : Params) (r : Nat) (b : Block) : OnlyRing r b (abandonSeg p r b) := by
  unfold abandonSeg
  dsimp only
  generalize hw : updWalk r _ b = c
  have hc : OnlyRing r b c := hw ▸ onlyRing_updRing r _ b
  split
  · exact hc
  · exact (hc.next (.when (fun c => abandonFar_only _ _ _ c) (.refl _ _)) rfl).trans fun _ _ => rfl

theorem abandonSeg_segs (p : Params) (r : Nat) (b : Block) : Tbl.get none (abandonSeg p r b).segs r = none := by
  unfold abandonSeg
  dsimp only
  split
  next hn => exact hn
  · exact Tbl.get_set_same (none : Option Seg) _ r none

/-- A command fault stops the walk, gives its segment up and sends the notice of the submission. -/
theorem walkFault_stops (p : Params) (r : Nat) (st : Status) (off : Nat) (x : BitVec 512) (b : Block) :
    (rng (walkFault p r st off x b) r).walk.mode = .stopped ∧ .cmdFault r (rng b r).walk.subid st ∈ (walkFault p r st off x b).xbar
    ∧ Tbl.get none (walkFault p r st off x b).segs r = none ∧ OnlyRing r b (walkFault p r st off x b) := by
  unfold walkFault faultTo
  dsimp only
  generalize hc : capture p r 0 st off _ x b = c
  have hbc : OnlyRing r b c := (show OnlyRing r b b from fun _ _ => rfl).next (hc ▸ capture_only _ _ _ _ _ _ _ _) rfl
  refine ⟨?_, ?_, ?_, ?_⟩
  · rw [(xsend_only _ _ _ _).rng_eq rfl, rng_updWalk_same]
  · rw [xbar_xsend]
    exact List.mem_append_right _ (List.mem_singleton_self _)
  · rw [(xsend_only _ _ _ _).kept .segs rfl, (updWalk_only _ _ _).kept .segs rfl, abandonSeg_segs]
  · exact ((hbc.trans (abandonSeg_onlyRing p r c)).trans (onlyRing_updRing r _ _)).next (xsend_only _ _ _ _) rfl

end Sys2Proof.Machine
end

section
/-! PROOFS. Segment headers (R124, R125, R129). -/

namespace Sys2Proof.Machine

section
variable {p : Params} {b d : Block} {l : List BlockPart} {r : Nat} {g : Ring} {h : SegHdr} (body : List (BitVec 256))

/-- A segment of records is entered at its first one. -/
theorem RingSet.enterControl (hl : BlockPart.rings ∈ l) (hg : h.graph = false) (hlen : 0 < h.len) (hd : RingSet l r g b d) :
    RingSet l r { g with walk := { g.walk with
      seg := some h, seek := none, off := h.off + 64, body := [], mode := .records, since := d.clk.ts } } b (enterSeg p r h body d) := by
  unfold enterSeg
  simp only [hg, Bool.false_eq_true, if_false]
  have hw := hd.walk (fun k => { k with seg := some h, seek := none, off := h.off + 64, body := [], mode := .records, since := d.clk.ts }) hl
  rw [walkOn_of_inside (s := h) (by rw [hw.1]) (by rw [hw.1]; simpa using hlen)]
  exact hw

/-- A segment of tasks is entered at pass 1, or at the wait before it. -/
theorem RingSet.enterGraph (hl : BlockPart.rings ∈ l) (hg : h.graph = true) (hd : RingSet l r g b d) :
    RingSet l r { g with walk := { g.walk with
      seg := some h, seek := none, off := h.off, body := body, mode := if aheadHolds g then .waitAhead else .pass1, since := d.clk.ts } } b
      (enterSeg p r h body d) := by
  unfold enterSeg
  simp only [hg, if_true]
  have hw := hd.walk (fun k => { k with
    seg := some h, seek := none, off := h.off, body := body, mode := if aheadHolds (rng d r) then .waitAhead else .pass1, since := d.clk.ts }) hl
  rw [hd.1] at hw ⊢
  exact hw

end

/-- Settles O29: a good header by the kind of its segment, a bad one by the command fault that it is. -/
theorem segmentHeaders : Obligations.SegmentHeaders := by
  refine ⟨fun p q b r hdr l hu hm hw hs hlen hok hk hne => ?_, fun p q b r hdr l hu hm hw hs hlen hok hk => ?_,
    fun p q b r hdr l hu hm hw hs hlen hok => ?_⟩
  all_goals
    refine takes_runK (actSegmentHeader r hdr l) (fun _ => rfl) (fun _ => rfl) hu ?_
    dsimp only
    rw [if_neg (by simp [hm, hw]), hs]
    dsimp only
    rw [if_neg (fun h => h.1 hlen), hok]
  · rw [if_pos rfl]
    have hl : 0 < l.length := List.length_pos_iff.mpr hne
    refine RingSet.out ((ringSet_progress (by decide) r b).enterControl l (by decide) (by simp [segOf, hk]) ?_) ?_
    · rw [show (segOf (rng b r).walk.off hdr l).len = bf hdr 8 0 32 from rfl]
      omega
    · rw [show (calm (rng b r)).walk = (rng b r).walk from rfl, ← hs]
      rfl
  · rw [if_pos rfl]
    refine RingSet.out ((ringSet_progress (by decide) r b).enterGraph l (by decide) (by simp [segOf, hk])) ?_
    rw [show (calm (rng b r)).walk = (rng b r).walk from rfl, ← hs]
    rfl
  · rw [if_neg (by decide)]
    obtain ⟨h1, h2, -, h4⟩ := walkFault_stops p r 0x13 (rng b r).walk.off hdr (progress r b)
    rw [rng_progress] at h2
    exact ⟨h1, h2, (onlyRing_updRing r _ b).trans h4⟩

end Sys2Proof.Machine
end

section
/-! PROOFS. Steps, yields and fences of a walk (R134 to R136, R234). -/

namespace Sys2Proof.Machine

section
variable {p : Params} {b d : Block} {l : List BlockPart} {r : Nat} {g : Ring}

/-! ## Points -/

/-- The point at the record at hand (R236). -/
def pointAt (isStep : Bool) (stepNo : Nat) (g : Ring) : Point :=
  { off := g.walk.off, subid := g.walk.subid, iters := g.walk.loops, seg := g.walk.seg, step := g.step, before := g.interval,
    interval := g.interval + 1, isStep := isStep, hasYield := g.ivYield, stepNo := some stepNo }

/-- A ring with the point at the record at hand in its history of 8, in the interval that follows it. -/
def withPoint (isStep : Bool) (stepNo : Nat) (g : Ring) : Ring :=
  { g with
    points := (g.points ++ [pointAt isStep stepNo g]).drop ((g.points ++ [pointAt isStep stepNo g]).length - 8), interval := g.interval + 1, ivYield := false }

theorem withPoint_points_length (isStep : Bool) (n : Nat) (g : Ring) :
    (withPoint isStep n g).points.length = min 8 (g.points.length + 1) := by
  simp only [withPoint, List.length_drop, List.length_append, List.length_singleton]
  omega

/-- A ring in RUN that reaches a point goes on behind it. -/
theorem RingSet.point (isStep : Bool) (n : Nat) (hl : BlockPart.rings ∈ l) (hp : g.pre = .run) (hf : Follows g) (h : RingSet l r g b d) :
    RingSet l r { withPoint isStep n g with walk := nextRec g.walk } b (reachPoint p r isStep n d) := by
  have hw := (h.spent hl).upd (fun k => { k with
    points := (g.points ++ [pointAt isStep n g]).drop ((g.points ++ [pointAt isStep n g]).length - 8), interval := k.interval + 1
    ivYield := false }) hl
  unfold reachPoint
  dsimp only
  rw [h.1, if_neg (by simp [hp])]
  have hd := hw.walk (fun k => { k with mode := .records, off := k.off + 32, memv := [], hold := none }) hl
  rw [← passRec_of_follows (p := p) (hw.1.symm ▸ hf)] at hd
  exact hd

/-! ## The end of a step -/

/-- Step `n` of a ring closed, and the ring in a step of its own. -/
def closeStep (n : Nat) (g : Ring) : Ring :=
  { g with steps := g.steps.map (fun s => if s.no = n then { s with closed := true } else s), stepNo := g.stepTop + 1 }

/-- A ring with the record of the step that it is in as its only one. -/
def stepBegun (g : Ring) : Ring := { g with steps := [{ no := g.stepNo, subid := g.walk.subid }], stepTop := max g.stepTop g.stepNo }

theorem RingSet.ensureStep_new (hl : BlockPart.rings ∈ l) (hs : g.steps = []) (h : RingSet l r g b d) :
    RingSet l r (stepBegun g) b (ensureStep r d) := by
  have hu := h.upd (fun g => if g.steps.any (fun s => s.no = g.stepNo) then g else { g with
    steps := g.steps ++ [{ no := g.stepNo, subid := g.walk.subid }], stepTop := max g.stepTop g.stepNo }) hl
  simp only [hs, List.any_nil, Bool.false_eq_true, if_false, List.nil_append] at hu
  exact hu

theorem RingSet.ensureStep_open {s : StepRec} (hl : BlockPart.rings ∈ l) (hs : g.steps = [s]) (hn : s.no = g.stepNo) (h : RingSet l r g b d) :
    RingSet l r g b (ensureStep r d) := by
  have hu := h.upd (fun g => if g.steps.any (fun s => s.no = g.stepNo) then g else { g with
    steps := g.steps ++ [{ no := g.stepNo, subid := g.walk.subid }], stepTop := max g.stepTop g.stepNo }) hl
  rw [show (if g.steps.any (fun s => s.no = g.stepNo) then g else _) = g from if_pos (by simp [hs, hn])] at hu
  exact hu

theorem closeStep_one {s : StepRec} (hs : g.steps = [s]) : (closeStep s.no g).steps = [{ s with closed := true }] := by
  simp [closeStep, hs]

/-- A step that is closed with every entry settled completes: it is the one that STEP counts next (R134). -/
theorem RingSet.stepDone {s : StepRec} (hl : ∀ f ∈ [BlockPart.cnt, .rings, .chans, .trace, .xbar], f ∈ l) (hs : g.steps = [s]) (hc : s.closed = true)
    (hu : s.unsettled = 0) (h : RingSet l r g b d) :
    ∃ o, RingSet l r { g with steps := [], step := g.step + 1, overSteps := o } b (stepAdvance p r 1 d) := by
  have hr : BlockPart.rings ∈ l := hl _ (by decide)
  unfold stepAdvance
  dsimp only
  rw [h.1, hs]
  dsimp only
  rw [if_pos ⟨hc, hu⟩]
  have h1 := h.upd (fun g => { g with steps := [], step := g.step + 1 }) hr
  generalize updRing r _ d = c at h1 ⊢
  have h2 := h1.next (trRing_only p (.ward (rHome g)) 0x21 r 0 (BitVec.ofNat 32 ((g.step + 1).toNat % 2 ^ 19 * 2 ^ 13 + r)) c) rfl
    (fun f hf => hl f (by revert f; decide))
  generalize trRing p _ _ r 0 _ c = e at h2 ⊢
  exact ⟨_, (h2.upd _ hr).next (closeOwned_only _ _) rfl (fun f hf => hl f (by revert f; decide))⟩

/-- A step with entries still out does not complete. -/
theorem stepAdvance_of_unsettled {s : StepRec} (k : Nat) (hs : (rng b r).steps = [s]) (hu : s.unsettled ≠ 0) : stepAdvance p r k b = b := by
  cases k with
  | zero => rfl
  | succ k =>
    unfold stepAdvance
    dsimp only
    rw [hs]
    exact if_neg (fun h => hu h.2)

theorem mem_markCommit (w : Nat) (b : Block) : w ∈ (markCommit w b).cmtDue := by
  unfold markCommit
  split
  next h => exact h
  · exact List.mem_append_right _ (List.mem_singleton_self _)

/-! ## Fences -/

theorem walkSub_progress (r : Nat) (b : Block) : walkSub (progress r b) r = walkSub b r := by
  unfold walkSub
  rw [subOf_progress, rng_progress]
  rfl

theorem fenceOver_progress (r : Nat) (scope : Bool) (b : Block) : fenceOver (progress r b) r scope = fenceOver b r scope := by
  unfold fenceOver
  dsimp only
  rw [walkSub_progress, rng_progress]
  rfl

theorem fenceFailed_progress (r : Nat) (scope : Bool) (b : Block) : fenceFailed (progress r b) r scope = fenceFailed b r scope := by
  unfold fenceFailed
  dsimp only
  rw [walkSub_progress, rng_progress]
  rfl

theorem fencePass_good {sc fs : Bool} (h : (fs && fenceFailed b r sc) = false) : fencePass p r sc fs b = pass p r b := by
  unfold fencePass
  rw [h]
  rfl

end

/-- Settles O33: the step's record closed and counted, the point behind it, and the fence by its scope. -/
theorem stepsAndFences : Obligations.StepsAndFences := by
  refine ⟨fun p q b r x hr hi hs hp => ?_, fun p q b r x s hr hi hs hno hu hp => ?_, fun p q b r x hr hi hp => ?_,
    fun p q b r x hr hi ho hf => ?_, fun p q b r x hr ho => ?_, fun p q b r sc fs hu hm hw ho hf hi => ?_,
    fun p q b r sc hu hm hw ho hf => ?_⟩
  · refine takes_record (actStepEnd r x) (fun _ => rfl) (fun _ => rfl) hr ?_
    have h1 := (ringSet_progress (l := [.cnt, .cmtDue, .rings, .chans, .trace, .xbar]) (by decide) r b).ensureStep_new (by decide) (by exact hs)
    dsimp only
    generalize ensureStep r (progress r b) = c at h1 ⊢
    have h2 := h1.upd (closeStep (rng b r).stepNo) (by decide)
    rw [h1.1]
    generalize hc2 : updRing r (fun g => _) c = c2
    rw [show updRing r (closeStep (rng b r).stepNo) c = c2 from hc2] at h2
    have hone := closeStep_one (s := { no := (rng b r).stepNo, subid := (rng b r).walk.subid }) (g := stepBegun (calm (rng b r))) rfl
    obtain ⟨o, h3⟩ := h2.stepDone (p := p) (by decide) hone rfl rfl
    rw [show (rng c2 r).steps.length = 1 from congrArg List.length ((congrArg Ring.steps h2.1).trans hone)]
    generalize stepAdvance p r 1 c2 = c3 at h3 ⊢
    have h4 := h3.next (markCommit_only (rHome (rng c2 r)) c3) rfl (by decide)
    obtain ⟨hd, ho, -⟩ := h4.point (p := p) true (rng b r).stepNo (by decide) (by exact hp) (by exact hi)
    obtain ⟨-, -, hk⟩ := (RingSet.refl [.rings] r (markCommit (rHome (rng c2 r)) c3)).point (p := p) true (rng b r).stepNo (by decide)
      (by rw [h4.1]; exact hp) (by rw [h4.1]; exact hi)
    refine ⟨?_, ?_, ?_, ?_, ?_, ?_, ho⟩
    · exact (congrArg Ring.steps hd).trans rfl
    · exact (congrArg Ring.step hd).trans rfl
    · exact (congrArg Ring.stepNo hd).trans rfl
    · exact (congrArg Ring.interval hd).trans rfl
    · exact (congrArg Ring.walk hd).trans rfl
    · have hm := mem_markCommit (rHome (rng c2 r)) c3
      rw [← hk.kept .cmtDue rfl, h2.1] at hm
      exact h2.1.symm ▸ hm
  · refine takes_record (actStepEnd r x) (fun _ => rfl) (fun _ => rfl) hr ?_
    have h1 := (ringSet_progress (l := [.cmtDue, .rings]) (by decide) r b).ensureStep_open (by decide) (by exact hs) (by exact hno)
    dsimp only
    generalize ensureStep r (progress r b) = c at h1 ⊢
    have h2 := h1.upd (closeStep (rng b r).stepNo) (by decide)
    rw [h1.1]
    generalize hc2 : updRing r (fun g => _) c = c2
    rw [show updRing r (closeStep (rng b r).stepNo) c = c2 from hc2] at h2
    have hst : (closeStep (rng b r).stepNo (calm (rng b r))).steps = [{ s with closed := true }] := by
      rw [← hno]
      exact closeStep_one hs
    rw [stepAdvance_of_unsettled (s := { s with closed := true }) _ ((congrArg Ring.steps h2.1).trans hst) hu]
    have h4 := h2.next (markCommit_only (rHome (rng c2 r)) c2) rfl (by decide)
    obtain ⟨hd, ho⟩ := h4.point (p := p) true (rng b r).stepNo (by decide) (by exact hp) (by exact hi)
    refine ⟨(congrArg Ring.steps hd).trans hst, (congrArg Ring.step hd).trans rfl, (congrArg Ring.stepNo hd).trans rfl,
      (congrArg Ring.walk hd).trans rfl, ho⟩
  · refine takes_record (actYield r x) (fun _ => rfl) (fun _ => rfl) hr ?_
    obtain ⟨hd, ho⟩ := (ringSet_progress (l := [.rings]) (by decide) r b).point (p := p) false (rng (progress r b) r).stepNo (by decide)
      (by exact hp) (by exact hi)
    rw [hd]
    exact ⟨rfl, rfl, rfl, withPoint_points_length _ _ _, rfl, rfl, ho⟩
  · refine takes_record (actFence r x) (fun _ => rfl) (fun _ => rfl) hr ?_
    dsimp only
    rw [bitAt_wide, bitAt_wide, fenceOver_progress, if_pos ho, fencePass_good (by rw [fenceFailed_progress]; exact hf)]
    exact RingSet.out ((ringSet_progress (by decide) r b).pass (by decide) (by exact hi)) rfl
  · refine takes_record (actFence r x) (fun _ => rfl) (fun _ => rfl) hr ?_
    dsimp only
    rw [bitAt_wide, bitAt_wide, fenceOver_progress, ho, if_neg (by decide)]
    exact RingSet.out (((ringSet_progress (by decide) r b).spent (by decide)).walk _ (by decide)) rfl
  · refine takes_runK (actFenceRelease r) (fun _ => rfl) (fun _ => rfl) hu ?_
    dsimp only
    rw [hm]
    dsimp only
    rw [hw, ho, if_pos (by decide), fencePass_good (by rw [fenceFailed_progress]; exact hf)]
    exact RingSet.out ((ringSet_progress (by decide) r b).pass (by decide) (by exact hi)) rfl
  · refine takes_runK (actFenceRelease r) (fun _ => rfl) (fun _ => rfl) hu ?_
    rw [hm]
    dsimp only
    rw [hw, ho, if_pos (by decide)]
    unfold fencePass
    rw [fenceFailed_progress, hf, if_pos (by decide)]
    obtain ⟨h1, h2, -, h4⟩ := walkFault_stops p r 0x02 (rng (progress r b) r).walk.off (fenceRec sc true) (progress r b)
    rw [show (rng (progress r b) r).walk.subid = (rng b r).walk.subid from congrArg (fun g => g.walk.subid) (rng_progress r b)] at h2
    exact ⟨h1, h2, (onlyRing_updRing r _ b).trans h4⟩

end Sys2Proof.Machine
end

section
/-! PROOFS. The hasp and channel records of a walk (R138, R154, R157, R159, R207, R211). -/

namespace Sys2Proof.Machine

section
variable {p : Params} {b : Block} {r : Nat}

/-! ## What the start of a record leaves for the checks -/

theorem walk_progress (r k : Nat) (b : Block) : (rng (progress r b) k).walk = (rng b k).walk := by
  by_cases hk : k = r
  · rw [hk, rng_progress]
    rfl
  · rw [show rng (progress r b) k = rng b k from onlyRing_updRing r _ b k hk]

theorem reservedSegs_progress (r : Nat) (b : Block) : reservedSegs (progress r b) = reservedSegs b := by
  unfold reservedSegs
  simp only [walk_progress]
  rfl

theorem recsFree_progress (r : Nat) (c : Chan) : recsFree p (progress r b) c = recsFree p b c := by
  unfold recsFree heldOf
  rw [reservedSegs_progress]
  rfl

theorem idsFree_progress (r n : Nat) : idsFree (progress r b) n = idsFree b n := by
  unfold idsFree idsHeld
  rw [reservedSegs_progress]
  rfl

theorem openCheck_progress (r t : Nat) (c : Chan) : openCheck p (progress r b) t c = openCheck p b t c := by
  unfold openCheck
  rw [recsFree_progress, idsFree_progress]
  rfl

theorem openChan_progress (r : Nat) (o : ChOwner) (hs : List Word32) (y : BitVec 256) :
    openChan p (progress r b) r o hs y = openChan p b r o hs y := by
  unfold openChan
  rw [rng_progress]
  rfl

/-! ## Operations -/

/-- A signal whose sum fits: COUNT takes it, and the trace its entry (R207). -/
theorem haspSignal_fits {h t : Nat} {inc : Word32} (m : Nat × Nat) (lg : LogRec) (hc : haspCheck b h t = 0)
    (hs : (hsp b h).count.toNat + inc.toNat < 2 ^ 32) :
    ∃ e, haspSignal p h inc t m lg b = (0, trForm p .keeper e (updHasp h (fun x => { x with count := (hsp b h).count + inc }) b)) := by
  unfold haspSignal
  dsimp only
  rw [if_neg (not_not_intro hc), if_neg (Nat.not_le.mpr hs)]
  exact ⟨_, rfl⟩

theorem walkHasp_here {x : BitVec 512} {op h : Nat} {v : Word32} {wait : Bool} (f : Nat → Block → Block) (hk : haspOf p b x = (none, h))
    (hc : haspCheck b h (rTenant (rng b r)) = 0) : walkHasp p r x op v wait f b = f h b := by
  unfold walkHasp
  dsimp only
  rw [hk, if_neg (not_not_intro (by exact hc))]

/-- An OPEN_CH that finds a free ID writes the ID to its slot (R154). -/
theorem applyOpen_of_free {id : Nat} (o : ChOwner) (y : BitVec 256) (hf : freeCh b = some id) :
    applyOpen p r o [] y b = writeSlot (bf y 8 0 18 / 4096) (bf y 8 0 18 % 4096) false (BitVec.ofNat 32 id)
      (setChan id (some (openChan p b r o [] y)) b) := by
  unfold applyOpen
  rw [hf]

theorem slt_writeSlot_set (w n : Nat) (v : Word32) (b : Block) :
    slt (writeSlot w n false v b) w n = { slt b w n with v := true, value := v } := by
  unfold writeSlot
  rw [slt_updSlot_same]
  rfl

/-- The last two steps of a record that a re-walk may not repeat. -/
theorem RingSet.passDirty {d : Block} {l : List BlockPart} {g : Ring} (hl : BlockPart.rings ∈ l) (hf : Follows g) (h : RingSet l r g b d) :
    RingSet l r { stained g with walk := nextRec g.walk } b (Machine.pass p r (Machine.dirty r d)) :=
  (h.dirty hl).pass hl hf

theorem passDirty_only (hf : Follows (rng b r)) : Only [.rings] b (pass p r (dirty r b)) :=
  ((RingSet.refl [.rings] r b).passDirty (List.mem_singleton_self _) hf).2.2

end

/-- Settles O34: each operation at its Keeper, the record's effect, then the walk behind it. -/
theorem haspAndChannelRecords : Obligations.HaspAndChannelRecords := by
  refine ⟨fun p q b r x v h hr hi hv hk hc hs => ?_, fun p q b r x h hr hi hk hc => ?_, fun p q b r x v h hr hv hk hc => ?_,
    fun p q b r x id hr hi hm ho hf => ?_, fun p q b r x id c hr hi hv hc ht hcl => ?_, fun p q b r x id hr hi hv hc => ?_⟩
  · refine takes_record (actHaspSignal r x) (fun _ => rfl) (fun _ => rfl) hr ?_
    simp only [evalLow_of_val hv, useOpd_val]
    rw [show haspOf p (progress r b) (wide x) = (none, h) from hk]
    dsimp only
    obtain ⟨e, he⟩ := haspSignal_fits (p := p) (b := progress r b) (h := h) (t := rTenant (rng (progress r b) r)) (inc := BitVec.ofNat 32 v)
      ((rng (progress r b) r).layer, (rng (progress r b) r).opid)
      (ringLog (progress r b) .keeper 0x12 r (rng (progress r b) r).walk.subid) (by rw [rng_progress]; exact hc) hs
    rw [he, if_neg (not_not_intro rfl)]
    generalize hd : trForm p .keeper e _ = d
    have hbd : RingSet [.cnt, .rings, .hasps, .trace] r (calm (rng b r)) b d :=
      hd ▸ ((ringSet_progress (by decide) r b).next (updHasp_only _ _ _) rfl (by decide)).next (trForm_only _ _ _ _) rfl (by decide)
    obtain ⟨h1, h2, h3⟩ := hbd.passDirty (p := p) (by decide) (by exact hi)
    have hp := (passDirty_only (p := p) (b := d) (r := r) (by rw [hbd.1]; exact hi)).hsp_eq rfl
    have hh : ∀ k, hsp (pass p r (dirty r d)) k = hsp (updHasp h (fun y => { y with count := (hsp b h).count + BitVec.ofNat 32 v }) b) k :=
      fun k => (hp k).trans (hd ▸ (trForm_only _ _ _ _).hsp_eq rfl k)
    refine ⟨?_, ?_, fun k hne => (hh k).trans (hsp_updHasp_ne _ _ _ _ hne), h1, h3⟩
    · rw [hh, hsp_updHasp_same]
    · rw [hh, hsp_updHasp_same]
  · refine takes_record (actHaspReset r x) (fun _ => rfl) (fun _ => rfl) hr ?_
    dsimp only
    rw [show haspOf p (progress r b) (wide x) = (none, h) from hk, rng_progress,
      if_neg (not_not_intro (show haspRefusal p (progress r b) (rTenant (calm (rng b r))) (none, h) = 0 from hc)),
      walkHasp_here _ (show haspOf p (progress r b) (wide x) = (none, h) from hk) (by rw [rng_progress]; exact hc)]
    unfold haspReset
    dsimp only
    rw [show decide (haspCheck (progress r b) h (rTenant (calm (rng b r))) = 0) = true from decide_eq_true hc, when_true]
    have hbd := (ringSet_progress (l := [.rings, .hasps]) (by decide) r b).next
      (updHasp_only h (fun y => { y with count := 0 }) (progress r b)) rfl (by decide)
    obtain ⟨h1, -, h3⟩ := hbd.passDirty (p := p) (by decide) (by exact hi)
    have hh := (passDirty_only (p := p) (b := updHasp h (fun y => { y with count := 0 }) (progress r b)) (r := r)
      (by rw [hbd.1]; exact hi)).hsp_eq rfl
    exact ⟨(hh h).trans (hsp_updHasp_same _ _ _), fun k hne => (hh k).trans (hsp_updHasp_ne _ _ _ _ hne), h1, h3⟩
  · refine takes_record (actHaspWait r x) (fun _ => rfl) (fun _ => rfl) hr ?_
    simp only [evalLow_of_val hv, useOpd_val]
    rw [show haspOf p (progress r b) (wide x) = (none, h) from hk, rng_progress,
      if_neg (not_not_intro (show haspRefusal p (progress r b) (rTenant (calm (rng b r))) (none, h) = 0 from hc)),
      walkHasp_here _ (show haspOf p (progress r b) (wide x) = (none, h) from hk) (by rw [rng_progress]; exact hc)]
    generalize hd : registerWait _ h _ (progress r b) = d
    have hbd : RingSet [.clk, .rings, .waits] r (calm (rng b r)) b d :=
      hd ▸ (ringSet_progress (by decide) r b).next (registerWait_only _ _ _ _) rfl (by decide)
    obtain ⟨h1, h2, h3⟩ := (hbd.spent (by decide)).walk
      (fun w => { w with mode := .waitHasp, hold := some ⟨h, none, BitVec.ofNat 32 v⟩, since := d.clk.ts }) (by decide)
    refine ⟨?_, by rw [h1], by rw [h1]; rfl, h2, h3⟩
    rw [(updWalk_only _ _ _).kept .waits rfl, (spent_only _ _).kept .waits rfl, ← hd]
    rfl
  · refine takes_record (actOpenCh r x) (fun _ => rfl) (fun _ => rfl) hr ?_
    dsimp only
    rw [wide_setWidth, openChan_progress, openCheck_progress, rng_progress, bf_wide]
    rw [if_pos (show slotMine (progress r b) (rTenant (calm (rng b r))) (bf x 8 0 18) = true from hm),
      if_neg (not_not_intro (by exact ho)), applyOpen_of_free _ _ (show freeCh (progress r b) = some id from hf), openChan_progress]
    generalize hd : writeSlot _ _ false _ (setChan id _ (progress r b)) = d
    have hbd : RingSet [.rings, .slots, .chans] r (calm (rng b r)) b d :=
      hd ▸ ((ringSet_progress (by decide) r b).next (setChan_only _ _ _) rfl (by decide)).next (writeSlot_only _ _ _ _ _) rfl (by decide)
    obtain ⟨h1, h2, h3⟩ := hbd.passDirty (p := p) (by decide) (by exact hi)
    have hp := passDirty_only (p := p) (b := d) (r := r) (by rw [hbd.1]; exact hi)
    have hch : ∀ k, chn (pass p r (dirty r d)) k = chn (setChan id (some (openChan p b r (.sub r (rng b r).walk.subid) [] x)) b) k := fun k =>
      (hp.chn_eq rfl k).trans (hd ▸ (writeSlot_only _ _ _ _ _).chn_eq rfl k)
    have hsl : slt (pass p r (dirty r d)) (bf x 8 0 18 / 4096) (bf x 8 0 18 % 4096)
        = { slt (progress r b) (bf x 8 0 18 / 4096) (bf x 8 0 18 % 4096) with v := true, value := BitVec.ofNat 32 id } :=
      (slt_congr (hp.kept .slots rfl) _ _).trans (hd ▸ slt_writeSlot_set _ _ _ _)
    refine ⟨(hch id).trans (chn_setChan_same _ _ _), fun k hne => (hch k).trans (chn_setChan_ne _ _ _ _ hne), ?_, ?_, ?_, h2, h3⟩
    · rw [hsl]
    · rw [hsl]
    · rw [h1]
      rfl
  · refine takes_record (actCloseCh r x) (fun _ => rfl) (fun _ => rfl) hr ?_
    simp only [evalLow_of_val hv, useOpd_val]
    rw [show chn (progress r b) id = some c from hc]
    dsimp only
    rw [rng_progress, if_neg (not_not_intro (by exact ht)), hcl, if_neg (by decide)]
    obtain ⟨hx, hn, hoc, hon⟩ := beginClose_chan (b := progress r b) (w := none) hc
    generalize beginClose none ⟨none, id⟩ (progress r b) = d at hx hn hoc hon ⊢
    have hbd := (ringSet_progress (l := [.cnt, .rings, .chans, .xbar]) (by decide) r b).next hon rfl (by decide)
    obtain ⟨h1, h2, h3⟩ := hbd.passDirty (p := p) (by decide) (by exact hi)
    have hp := passDirty_only (p := p) (b := d) (r := r) (by rw [hbd.1]; exact hi)
    refine ⟨(hp.chn_eq rfl id).trans hn, ?_, fun k hne => (hp.chn_eq rfl k).trans (hoc k hne), by rw [h1]; rfl, h2, h3⟩
    rw [hp.kept .xbar rfl, hx]
    exact List.mem_append_right _ (List.mem_singleton_self _)
  · refine takes_record (actCloseCh r x) (fun _ => rfl) (fun _ => rfl) hr ?_
    simp only [evalLow_of_val hv, useOpd_val]
    rw [show chn (progress r b) id = none from hc]
    exact RingSet.out ((ringSet_progress (by decide) r b).passDirty (by decide) (by exact hi)) rfl

end Sys2Proof.Machine
end

section
/-! PROOFS. Grants, waiting requests, denials, returns and timeouts of key pools (R218 to R222). -/

namespace Sys2Proof.Machine

/-! ## A grant -/

theorem keyWaits_congr {b c : Block} (h : c.kpool = b.kpool) (n : Nat) : keyWaits c n = keyWaits b n := by
  unfold keyWaits
  rw [h]

/-- A grant takes the keys at the head of the pool; the records and events that follow touch no pool (R219, R220). -/
theorem keyGrant_kpool (p : Params) (n k r c : Nat) (b : Block) :
    (keyGrant p n k r c b).kpool = (updKPool n k (fun x => { x with
      head := (x.head + c) % max 1 x.size, free := x.free - c, nextGseq := x.nextGseq + 1,
      grants := x.grants ++ [⟨x.nextGseq, x.head, c, r, false⟩] }) b).kpool := by
  unfold keyGrant
  dsimp only
  rw [(keyEvent_only _ _ _ _ _).kept .kpool rfl, (keySend_only _ _ _).kept .kpool rfl, (keyEvent_only _ _ _ _ _).kept .kpool rfl,
    (keyToReq_only _ _ _ _ _).kept .kpool rfl, (trKey_only _ _ _ _ _ _ _).kept .kpool rfl]

/-! ## The queue of a pool, and its returned grants -/

theorem keyExamine_empty (p : Params) {n k : Nat} {b : Block} (h : (kpl b n k).waiting = []) (m : Nat) : keyExamine p n k m b = b := by
  cases m with
  | zero => rfl
  | succ m =>
    unfold keyExamine
    dsimp only
    rw [h]

/-- While the first request does not fit, nothing is granted (R221 step 3). -/
theorem keyExamine_blocked (p : Params) {n k : Nat} {b : Block} {x : KReq} {l : List KReq} (h : (kpl b n k).waiting = x :: l)
    (hf : (kpl b n k).free < x.count) (m : Nat) : keyExamine p n k m b = b := by
  cases m with
  | zero => rfl
  | succ m =>
    unfold keyExamine
    dsimp only
    rw [h]
    dsimp only
    rw [if_neg (fun hc => absurd hc.2 (Nat.not_le.mpr hf))]

/-- Only the oldest grant is returned: TAIL passes it and no other (R221 step 2). -/
theorem keyTail_oldest {k : KPool} {g : Grant} {l : List Grant} (h : k.grants = g :: l) (hg : g.returned = true)
    (hl : ∀ x ∈ l, x.returned = false) :
    keyTail k k.grants.length = { k with grants := l, tail := (g.off + g.count) % max 1 k.size, free := k.free + g.count } := by
  rw [h, List.length_cons]
  unfold keyTail
  rw [h]
  dsimp only
  rw [if_pos hg]
  cases l with
  | nil => rfl
  | cons x t =>
    rw [List.length_cons]
    unfold keyTail
    dsimp only
    rw [hl x List.mem_cons_self]
    rfl

/-- The return of the oldest grant while nobody waits. -/
theorem keyReturnAt_oldest (p : Params) {n k : Nat} {s : BitVec 16} {b : Block} {g : Grant} {l : List Grant} (h : (kpl b n k).grants = g :: l)
    (hs : g.gseq = s) (hg : g.returned = false) (hl : ∀ x ∈ l, x.gseq ≠ s ∧ x.returned = false) (hw : (kpl b n k).waiting = []) :
    keyReturnAt p n k s b = updKPool n k (fun _ => { kpl b n k with
      grants := l, tail := (g.off + g.count) % max 1 (kpl b n k).size, free := (kpl b n k).free + g.count }) b := by
  have hm : (kpl b n k).grants.map (fun g => if g.gseq = s then { g with returned := true } else g) = { g with returned := true } :: l := by
    rw [h, List.map_cons, if_pos hs]
    exact congrArg _ ((List.map_congr_left fun x hx => if_neg (hl x hx).1).trans (List.map_id _))
  unfold keyReturnAt
  dsimp only
  rw [if_pos (List.any_eq_true.mpr ⟨g, h ▸ List.mem_cons_self, by simp [hs, hg]⟩), hm,
    keyTail_oldest (k := { kpl b n k with grants := { g with returned := true } :: l }) rfl rfl fun x hx => (hl x hx).2]
  exact keyExamine_empty p ((congrArg KPool.waiting (kpl_updKPool_same _ _ _ _)).trans hw) _

/-! ## A request at its pool -/

section
variable {p : Params} {b : Block} {n r : Nat} {f : XItem → Bool}

/-- A key record for an engine that is online leaves at once (R358). -/
theorem keyToReq_online (x : BitVec 128) (ho : (prt b r).online = true) (hr : (prt b r).inReset = false) :
    (keyToReq p n r x b).out = b.out ++ [.key r x] ∧ Only [.cnt, .out] b (keyToReq p n r x b) := by
  unfold keyToReq
  dsimp only
  have fr : Only [.cnt] b (if portWard p r = portWard p n then b else xrx (portWard p r) 16 (xtx (some (portWard p n)) 16 b)) := by
    split
    · exact .refl _ _
    · exact .next (xrx_only _ _ _) (by decide) (xtx_only _ _ _)
  generalize (if portWard p r = portWard p n then b else _) = c at fr
  unfold keySend
  rw [fr.prt_eq rfl r, if_pos ⟨ho, by rw [hr]; exact Bool.false_ne_true⟩]
  exact ⟨congrArg (· ++ _) (fr.kept .out rfl), .next (emit_only _ _) (by decide) (.mono fr (by decide))⟩

/-- A request at its pool's Ward has left the crossbar. -/
theorem keyArrival_only : Only [.cnt, .xbar] b (when (decide (portWard p n ≠ portWard p r)) (xrx (portWard p n) 16) (xdrop f b)) :=
  .when (fun c => .mono (xrx_only _ _ c) (by decide)) (.mono (xdrop_only _ _) (by decide))

theorem OnlyKPool.of {c d : Block} {j : Nat} {l : List BlockPart} (fr : Only l b c) (hl : decide (BlockPart.kpool ∈ l) = false)
    (h : OnlyKPool j c d) : OnlyKPool j b d := fun i hi => (h i hi).trans (congrArg (Tbl.get {} · i) (fr.kept .kpool hl))

end

/-- Settles O42: the request by its three answers, the oldest grant returned, and the timeout behind a blocked head. -/
theorem keyPools : Obligations.KeyPools := by
  refine ⟨fun p q b n r k c t i hu hx he ht h0 hs hw hq hf => ?_, fun p q b n r k c t i hu hx he ht h0 hs hw hl hq => ?_,
    fun p q b n r k c t i hu hx he ht hon hrs => ?_, fun p q b n k s m tag g l hu hx hg hs hr hl hw => ?_,
    fun p q b n k i x hu hx h0 hd hi hf => ?_⟩
  · refine takes_run (g := fun p b => wardUp p b (portWard p n)) (actKeyRequestArrival n r) (fun _ => rfl) (fun _ => rfl) hu ?_
    dsimp only
    generalize hfd : xfind b _ = y
    obtain rfl := hfd.symm.trans hx
    dsimp only
    generalize hc : when _ _ (xdrop _ b) = c'
    have fr : Only [.cnt, .xbar] b c' := hc ▸ keyArrival_only
    have hk : kpl c' n k = kpl b n k := kpl_congr (fr.kept .kpool rfl) n k
    rw [hk, he, if_neg (by decide), if_neg (not_not_intro ht.symm), if_neg (by omega), hq, keyWaits_congr (fr.kept .kpool rfl),
      if_neg (by simp only [List.length_nil]; omega), if_pos ⟨rfl, hf⟩]
    have hg := kpl_congr (keyGrant_kpool p n k r c c') n k
    refine ⟨by rw [hg, kpl_updKPool_same, hk, he, hq], fun j hj => ?_⟩
    rw [keyGrant_kpool, onlyKPool_updKPool n k _ c' j hj, fr.kept .kpool rfl]
  · refine takes_run (g := fun p b => wardUp p b (portWard p n)) (actKeyRequestArrival n r) (fun _ => rfl) (fun _ => rfl) hu ?_
    dsimp only
    generalize hfd : xfind b _ = y
    obtain rfl := hfd.symm.trans hx
    dsimp only
    generalize hc : when _ _ (xdrop _ b) = c'
    have fr : Only [.cnt, .xbar] b c' := hc ▸ keyArrival_only
    have hk : kpl c' n k = kpl b n k := kpl_congr (fr.kept .kpool rfl) n k
    rw [hk, he, if_neg (by decide), if_neg (not_not_intro ht.symm), if_neg (by omega), keyWaits_congr (fr.kept .kpool rfl),
      if_neg (by omega), if_neg (fun h => hq.elim (absurd h.1) (Nat.not_lt.mpr h.2))]
    refine ⟨?_, .of fr rfl (onlyKPool_updKPool n k _ c'), .next (updKPool_only _ _ _ _) (by decide) (.mono fr (by decide))⟩
    rw [kpl_updKPool_same, hk, fr.kept .clk rfl, he]
  · refine takes_run (g := fun p b => wardUp p b (portWard p n)) (actKeyRequestArrival n r) (fun _ => rfl) (fun _ => rfl) hu ?_
    dsimp only
    generalize hfd : xfind b _ = y
    obtain rfl := hfd.symm.trans hx
    dsimp only
    generalize hc : when _ _ (xdrop _ b) = c'
    have fr : Only [.cnt, .xbar] b c' := hc ▸ keyArrival_only
    have hk : kpl c' n k = kpl b n k := kpl_congr (fr.kept .kpool rfl) n k
    rw [hk, he, if_neg (by decide), if_pos (Ne.symm ht)]
    obtain ⟨ho, hn⟩ := keyToReq_online (p := p) (n := n) (b := c') (keyRec 2 0x0F 0 n k 0 0 (kpl c' n k).tenant r)
      ((congrArg Port.online (fr.prt_eq rfl r)).trans hon) ((congrArg Port.inReset (fr.prt_eq rfl r)).trans hrs)
    refine ⟨?_, .next hn (by decide) (.mono fr (by decide))⟩
    unfold keyRefuse
    rw [ho, fr.kept .out rfl, hk]
  · refine takes_run (g := fun p b => wardUp p b (portWard p n)) (actKeyReturn n k s) (fun _ => rfl) (fun _ => rfl) hu ?_
    dsimp only
    rw [show xfind b (isKeyRet n k s) = some (.keyRet n k s m tag) from hx]
    dsimp only
    generalize hc : when _ _ (xdrop _ b) = c'
    have fr : Only [.cnt, .xbar] b c' := hc ▸ .when (fun c => .mono (xrx_only _ _ c) (by decide)) (.mono (xdrop_only _ _) (by decide))
    have hk : kpl c' n k = kpl b n k := kpl_congr (fr.kept .kpool rfl) n k
    rw [keyReturnAt_oldest p (hk ▸ hg) hs hr hl (hk ▸ hw), hk]
    have ha := answerTo_only p (some (portWard p n)) m (ansBeat tag 0 7 0 0 0)
    refine ⟨(kpl_congr ((ha _).kept .kpool rfl) n k).trans (kpl_updKPool_same _ _ _ _), .next (ha _) rfl (.of fr rfl (onlyKPool_updKPool n k _ c'))⟩
  · refine takes_run (g := fun p b => wardUp p b (portWard p n)) (actKeyTimeout n k i) (fun _ => rfl) (fun _ => rfl) hu ?_
    dsimp only
    rw [hx]
    dsimp only
    rw [if_pos (show keyDue p b (portWard p n) x = true from Bool.and_eq_true_iff.mpr ⟨decide_eq_true h0, decide_eq_true hd⟩)]
    generalize hc : updKPool n k _ b = c
    have hck : kpl c n k = { kpl b n k with waiting := (kpl b n k).waiting.eraseIdx i } := hc ▸ kpl_updKPool_same _ _ _ _
    have hcb : Only [.kpool] b c := hc ▸ updKPool_only _ _ _ _
    generalize hc2 : trKey p 0x33 n k x.reqport 0 _ = e
    have he : Only [.cnt, .ports, .evr, .trace, .out] c e := hc2 ▸ .next (trKey_only _ _ _ _ _ _ _) (by decide)
      (.next (bump_only _ _ _) (by decide) (.next (keyEvent_only _ _ _ _ _) (by decide) (.mono (keyRefuse_only _ _ _ _ _ _) (by decide))))
    generalize hl : logRec p _ e = d
    have hd : Only [.regs, .cnt, .log, .trace, .out] e d := hl ▸ logRec_only _ _ _
    have hdk : kpl d n k = { kpl b n k with waiting := (kpl b n k).waiting.eraseIdx i } :=
      ((kpl_congr (hd.kept .kpool rfl) n k).trans (kpl_congr (he.kept .kpool rfl) n k)).trans hck
    obtain ⟨y, l, hw⟩ : ∃ y l, (kpl b n k).waiting = y :: l := List.exists_cons_of_ne_nil fun h => by simp [h] at hx
    have hw' : (kpl d n k).waiting = y :: l.eraseIdx (i - 1) := by
      rw [hdk]
      dsimp only
      rw [hw, ← Nat.succ_pred_eq_of_ne_zero hi]
      rfl
    rw [keyExamine_blocked p hw' (by rw [hdk]; simpa [hw] using hf)]
    refine ⟨hdk, .next hd rfl (.next he rfl (hc ▸ onlyKPool_updKPool _ _ _ _)), ?_⟩
    have hb : e.log = b.log := (he.kept .log rfl).trans (hcb.kept .log rfl)
    exact hl ▸ hb ▸ logRec_counts_status p _ e

end Sys2Proof.Machine
end

section
/-! PROOFS. A message at its receiver (R165, R167, R172). -/

namespace Sys2Proof.Machine

section
variable {p : Params} {b : Block} {n w k ch : Nat} {m : Msg} {c : Chan}

/-! ## The parts of a landing -/

@[simp] theorem dataBeats_length (key : ChKey) (be : Bool) (l : List (BitVec 512)) (v : List (BitVec 8)) :
    (dataBeats key be l v).length = l.length := by
  unfold dataBeats
  dsimp only
  rw [List.length_map, List.length_range]

/-- A message counted where it landed. -/
theorem countLanded_of_chn (l : Nat) (v : Bool) (h : chn b ch = some c) :
    countLanded ⟨none, ch⟩ l v none b = setChan ch (some { c with lastLen := l - 1, lastPoison := v, landed := c.landed + 1 }) b :=
  setChan_of_chn _ h

/-- The channel of a message that lands: counted and its sequence number passed (R165). -/
def landedChan (c : Chan) (m : Msg) : Chan :=
  { c with lastLen := m.flits.length - 1, lastPoison := anyPoison m.poison, landed := c.landed + 1, eseq := c.eseq + 1 }

theorem passSeq_of_chn (h : chn b ch = some c) (m : Msg) :
    updChan ⟨none, ch⟩ (fun c => { c with eseq := c.eseq + 1 }) (countLanded ⟨none, ch⟩ m.flits.length (anyPoison m.poison) none b)
      = setChan ch (some (landedChan c m)) (setChan ch (some { c with lastLen := m.flits.length - 1, lastPoison := anyPoison m.poison, landed := c.landed + 1 }) b) := by
  rw [countLanded_of_chn _ _ h, setChan_of_chn _ (chn_setChan_same _ _ _)]
  rfl

/-- A message accepted at a port: its channel, and the port's credits and beats. -/
theorem acceptPort_lands (h : chn b ch = some c) (hh : m.hop = none) :
    chn (acceptPort n ⟨none, ch⟩ m b) ch = some (landedChan c m)
    ∧ (prt (acceptPort n ⟨none, ch⟩ m b) n).credit = (prt b n).credit - m.flits.length
    ∧ (prt (acceptPort n ⟨none, ch⟩ m b) n).opd.length = (prt b n).opd.length + m.flits.length + 1
    ∧ OnlyPort n b (acceptPort n ⟨none, ch⟩ m b) := by
  unfold acceptPort
  dsimp only
  rw [hh, Option.isNone_none, when_true, passSeq_of_chn h]
  generalize hd : watchMsg _ _ _ _ = d
  have hc : chn d ch = some (landedChan c m) := hd ▸ ((watchMsg_only _ _ _ _).chn_eq rfl ch).trans (chn_setChan_same _ _ _)
  have hp : ∀ j, prt d j = prt b j := hd ▸ fun j => (watchMsg_only _ _ _ _).prt_eq rfl j
  rw [show getChan d ⟨none, ch⟩ = some (landedChan c m) from hc]
  dsimp only
  unfold landOn
  rw [prt_updPort_same, hp]
  refine ⟨hc, rfl, ?_, fun j hj => (onlyPort_updPort n _ d j hj).trans (hp j)⟩
  simp only [List.length_append, dataBeats_length, List.length_singleton]

/-! ## The answer to the sender -/

/-- An outcome for a sender of this block is on its way (R165, R167). -/
theorem outcomeBack_local (w ch : Nat) (c : Chan) (s : BitVec 16) (st : Status) (b : Block) :
    (outcomeBack p w ⟨none, ch⟩ c s st b).xbar
      = b.xbar ++ [if st = 0 then .ack ⟨none, ch⟩ s (some w) else .nack ⟨none, ch⟩ s st (some w)]
    ∧ Only [.cnt, .xbar] b (outcomeBack p w ⟨none, ch⟩ c s st b) := by
  unfold outcomeBack
  exact put_or_send ..

/-- A queue without a reader delivers nothing. -/
theorem mqDeliver_unread (h : mqReader p w (mqu b w k) = none) : mqDeliver p w k b = b := by
  unfold mqDeliver
  dsimp only
  rw [h]

/-- A message accepted at a queue without a reader: its item, and its ACK. -/
theorem acceptQueue_lands (h : chn b ch = some c) (hr : mqReader p w (mqu b w k) = none) (c' : Chan) :
    (mqu (acceptQueue p w k ⟨none, ch⟩ c' m b) w k).items = (mqu b w k).items
      ++ [⟨m.be, m.deadline, m.flits, m.poison, some ⟨none, ch⟩, m.seqNo, b.clk.fclk + m.flits.length - 1, false⟩]
    ∧ .ack ⟨none, ch⟩ m.seqNo (some w) ∈ (acceptQueue p w k ⟨none, ch⟩ c' m b).xbar
    ∧ OnlyMQ (w * 64 + k) b (acceptQueue p w k ⟨none, ch⟩ c' m b) := by
  unfold acceptQueue
  dsimp only
  rw [passSeq_of_chn h]
  generalize hd : watchMsg _ _ _ _ = d
  have hm : d.mq = b.mq := hd ▸ (watchMsg_only _ _ _ _).kept .mq rfl
  generalize hi : updMQ w k _ d = e
  have he : mqu e w k = { mqu b w k with items := (mqu b w k).items
      ++ [⟨m.be, m.deadline, m.flits, m.poison, some ⟨none, ch⟩, m.seqNo, b.clk.fclk + m.flits.length - 1, false⟩] } :=
    hi ▸ (mqu_updMQ_same w k _ d).trans (by rw [mqu_congr hm])
  have ho : OnlyMQ (w * 64 + k) b e := fun j hj => hi ▸ (onlyMQ_updMQ w k _ d j hj).trans (congrArg (Tbl.get {} · j) hm)
  obtain ⟨hx, fr⟩ := outcomeBack_local (p := p) w ch c' m.seqNo 0 e
  have hq : mqu (outcomeBack p w ⟨none, ch⟩ c' m.seqNo 0 e) w k = mqu e w k := mqu_congr (fr.kept .mq rfl) w k
  rw [mqDeliver_unread (by rw [hq, he]; exact hr), hq, he, hx, if_pos rfl]
  exact ⟨rfl, List.mem_append_right _ (List.mem_singleton_self _), .next fr rfl ho⟩

end

/-- The block in which a message that arrives is examined. -/
theorem takes_messageArrival {p : Params} {q : List Instr} {b : Block} {key : ChKey} {m : Msg} {c : Chan} {Q : Block → Prop} (hu : keeperUp b = true)
    (hx : xfind b (isMsg key m.seqNo) = some (.msg m)) (hc : getChan b key = some c)
    (hQ : ∀ d, Only [.cnt, .xbar] b d → d.xbar = b.xbar.eraseP (isMsg key m.seqNo) → Q (arriveMsg p key c m d)) :
    Takes (.messageArrival key m.seqNo none) p q b Q := by
  refine takes_runK (actMessageArrival key m.seqNo none) (fun _ => rfl) (fun _ => rfl) hu ?_
  dsimp only
  rw [hx, hc]
  exact hQ _ (.when (fun c => .mono (xrx_only _ _ c) (by decide)) (.mono (xdrop_only _ _) (by decide)))
    ((Only.when (fun c => xrx_only _ _ c) (.refl _ _)).kept .xbar rfl)

/-- Settles O37: the message accepted at its port, refused by a closed receiver, and taken by its queue. -/
theorem messagesArrive : Obligations.MessagesArrive := by
  refine ⟨fun p q b key n m c hu hk hx hc hr hh ho => ?_, fun p q b key n m c hu hk hx hc hr hcl => ?_,
    fun p q b key w k m c hu hk hx hc hr ho hn => ?_⟩ <;>
  obtain ⟨inst, ch⟩ := key <;> obtain rfl : inst = none := hk
  · refine takes_messageArrival hu hx hc fun d fr hd => ?_
    unfold arriveMsg
    dsimp only
    rw [hr]
    have hd0 : portOutcome d n c c.rxClosed (c.rxBroken || (prt d n).inReset) true m = 0 := by
      unfold portOutcome at ho ⊢
      rw [fr.prt_eq rfl n]
      exact ho
    dsimp only
    rw [if_pos hd0]
    have ht := trMsg_only p (portWard p n) 0x40 c ch m.seqNo (m.flits.length - 1) d
    generalize trMsg p (portWard p n) 0x40 c ch m.seqNo (m.flits.length - 1) d = e at ht
    obtain ⟨h1, h2, h3, h4⟩ := acceptPort_lands (n := n) (m := m) ((ht.chn_eq rfl ch).trans ((fr.chn_eq rfl ch).trans hc)) hh
    have hp := (ht.prt_eq rfl n).trans (fr.prt_eq rfl n)
    refine ⟨⟨_, h1, rfl, rfl, rfl, rfl⟩, by rw [h2, hp], by rw [h3, hp], fun j hj => ?_, ?_⟩
    · exact (h4 j hj).trans ((ht.prt_eq rfl j).trans (fr.prt_eq rfl j))
    · rw [(acceptPort_only _ _ _ _).kept .xbar rfl, ht.kept .xbar rfl, hd]
  · refine takes_messageArrival hu hx hc fun d fr _ => ?_
    unfold arriveMsg
    dsimp only
    rw [hr]
    have hd8 : portOutcome d n c c.rxClosed (c.rxBroken || (prt d n).inReset) true m = 0x08 := by
      unfold portOutcome
      rw [hcl, if_pos rfl]
    dsimp only
    rw [hd8, if_neg (by decide)]
    obtain ⟨ho, hf⟩ := outcomeBack_local (p := p) (portWard p n) ch c m.seqNo 0x08 d
    have ht := trMsg_only p (portWard p n) 0x41 c ch m.seqNo (0x08 : Status).toNat (outcomeBack p (portWard p n) ⟨none, ch⟩ c m.seqNo 0x08 d)
    have hbd : Only [.cnt, .trace, .xbar] b _ := .next ht (by decide) (.next hf (by decide) (.mono fr (by decide)))
    refine ⟨?_, (hbd.chn_eq rfl ch).trans hc, congrArg Port.opd (hbd.prt_eq rfl n), congrArg Port.credit (hbd.prt_eq rfl n), hbd⟩
    rw [ht.kept .xbar rfl, ho, if_neg (by decide)]
    exact List.mem_append_right _ (List.mem_singleton_self _)
  · refine takes_messageArrival hu hx hc fun d fr _ => ?_
    unfold arriveMsg
    dsimp only
    rw [hr]
    have hm := mqu_congr (fr.kept .mq rfl) w k
    dsimp only
    rw [hm, if_pos ho]
    have ht := trMsg_only p w 0x40 c ch m.seqNo (m.flits.length - 1) d
    generalize trMsg p w 0x40 c ch m.seqNo (m.flits.length - 1) d = e at ht
    have he : e.mq = b.mq := (ht.kept .mq rfl).trans (fr.kept .mq rfl)
    obtain ⟨h1, h2, h3⟩ := acceptQueue_lands (p := p) (w := w) (k := k) (m := m) ((ht.chn_eq rfl ch).trans ((fr.chn_eq rfl ch).trans hc))
      (by rw [mqu_congr he]; exact hn) c
    rw [mqu_congr he, show e.clk = b.clk from (ht.kept .clk rfl).trans (fr.kept .clk rfl)] at h1
    exact ⟨h1, h2, fun j hj => (h3 j hj).trans (congrArg (Tbl.get {} · j) he)⟩

end Sys2Proof.Machine
end

section
/-! PROOFS. Replays, retransmissions and the voting of the Keeper's lanes (R280 to R282). -/

namespace Sys2Proof.Machine

section
variable {p : Params} {b : Block}

/-- A saturating counter of a Hinge after it has been counted. -/
theorem get_bump_hc32 (h : Nat) {i : Nat} (hi : i < 64) (n : Nat) (b : Block) :
    Tbl.get 0 (bump (hc32 h i) n b).cnt (hc32 h i) = satAdd (2 ^ 32 - 1) (Tbl.get 0 b.cnt (hc32 h i)) n := by
  have ho : hc32 h i % 0x1000 = 0x200 + 4 * i := by
    unfold hc32 hA
    omega
  unfold bump
  dsimp only
  rw [ho, if_neg (by omega), if_pos (by omega), Tbl.get_set_same]
  exact Nat.min_comm _ _

/-- A bit of the Keeper's interrupt word that is raised is set. -/
theorem bitAt_raiseK {i : Nat} (hi : i < 32) (b : Block) : bitAt (rd p (raiseK p i b) kIrq) i = true := by
  unfold raiseK
  rw [rd_raise]
  exact bitAt_rd_setBits_same p kIrq b hi

/-- The deadbolt of a fault of the block (R282). -/
def faulted (b : Block) : Dbolt :=
  { b.dbolt with state := .fault, instFault := true, drainAt := b.clk.fclk + 1, trigAt := none, drained := false,
                 quiesceDue := decide (b.dbolt.state = .run) }

/-- A fault of the block outside FAULT: the deadbolt, the interrupt, the log, and no retransmission count (R282). -/
theorem instFault_of_ne (h : b.dbolt.state ≠ .fault) :
    (instFault p b).dbolt = faulted b ∧ bitAt (rd p (instFault p b) kIrq) 8 = true
    ∧ Tbl.get 0 (instFault p b).log.cnt 0x05 = satAdd (2 ^ 32 - 1) (Tbl.get 0 b.log.cnt 0x05) 1
    ∧ (instFault p b).ecc = b.ecc := by
  unfold instFault
  rw [if_neg h]
  dsimp only
  generalize hc : updDb _ b = c
  have hl := logRec_only p { status := 0x05 } c
  have hr := raiseK_only p 8 (logRec p { status := 0x05 } c)
  have hf := failAttempt_only 4 (raiseK p 8 (logRec p { status := 0x05 } c))
  refine ⟨?_, ?_, ?_, ?_⟩
  · rw [hf.kept .dbolt rfl, hr.kept .dbolt rfl, hl.kept .dbolt rfl, ← hc]
    rfl
  · rw [rd_congr (hf.kept .regs rfl)]
    exact bitAt_raiseK (by decide) _
  · rw [hf.kept .log rfl, hr.kept .log rfl]
    exact hc ▸ logRec_counts_status p { status := 0x05 } c
  · rw [hf.kept .ecc rfl, hr.kept .ecc rfl, hl.kept .ecc rfl, ← hc]
    rfl

theorem setEcc_only (e : Ecc) (b : Block) : Only [.ecc] b { b with ecc := e } :=
  Only.update (by intro f hf; cases f <;> first | exact absurd (by decide) hf | rfl) (.refl _ _)

/-- The only lane that differs is counted; one cycle is no hard fault (R281). -/
theorem laneUp_alone {i : Nat} (hl : b.boot.laneAt = []) :
    laneHard p i (laneUp i b)
      = updBoot (fun t => { t with lane := t.lane.set i (satAdd 1023 (t.lane.getD i 0) 1), laneAt := [(i, b.clk.fclk)] }) b := by
  have hu : laneUp i b = updBoot (fun t => { t with lane := t.lane.set i (satAdd 1023 (t.lane.getD i 0) 1), laneAt := [(i, b.clk.fclk)] }) b := by
    unfold laneUp updBoot
    dsimp only
    rw [hl]
    rfl
  unfold laneHard
  rw [hu]
  refine if_neg fun h => absurd h.2 ?_
  unfold updBoot
  simp

end

/-- Settles O48: counts of sequencers, and the three ways to the fault of the block or away from it. -/
theorem sequencerFaults : Obligations.SequencerFaults := by
  refine ⟨fun p q b w hu => ?_, fun p q b h hu => ?_, fun p q b w a hu ha => ?_, fun p q b u hu hn hs => ?_,
    fun p q b m i hu hm hh hl => ?_, fun p q b m hu hm hh hs => ?_⟩
  · exact takes_run (g := fun p b => unitUp p b (.ward w)) (actReplay (.ward w)) (fun _ => rfl) (fun _ => rfl) hu
      ⟨get_bump_wc32 w (by decide) 1 b, onlyCnt_bump _ _ _, bump_only _ _ _⟩
  · exact takes_run (g := fun p b => unitUp p b (.hinge h)) (actReplay (.hinge h)) (fun _ => rfl) (fun _ => rfl) hu
      ⟨get_bump_hc32 h (by decide) 1 b, onlyCnt_bump _ _ _, bump_only _ _ _⟩
  · refine takes_run (g := fun p b => unitUp p b (.ward w)) (actCrossbarRetransmit (.ward w) a) (fun _ => rfl) (fun _ => rfl) hu ?_
    have hn : ¬ 3 ≤ (if a = true then Tbl.get 0 b.ecc.retry (1 + w) + 1 else 1) := by
      split
      next h => have := ha.resolve_left (by simp [h]); omega
      · omega
    dsimp only [unitNo]
    rw [if_neg hn, if_neg hn]
    refine ⟨get_bump_wc32 w (by decide) 1 _, onlyCnt_bump _ _ _, Tbl.get_set_same _ _ _ _, .next (bump_only _ _ _) (by decide) ?_⟩
    exact .mono (setEcc_only _ b) (by decide)
  · refine takes_run (g := fun p b => unitUp p b u) (actCrossbarRetransmit u true) (fun _ => rfl) (fun _ => rfl) hu ?_
    dsimp only
    have h3 : 3 ≤ Tbl.get 0 b.ecc.retry (unitNo u) + 1 := by omega
    rw [if_pos rfl, if_pos h3, if_pos h3]
    generalize hc : ({ b with ecc := _ } : Block) = c
    have he : Tbl.get 0 c.ecc.retry (unitNo u) = 0 := by
      rw [← hc]
      exact Tbl.get_set_same 0 b.ecc.retry (unitNo u) 0
    have fr : Only [.ecc] b c := hc ▸ setEcc_only _ b
    obtain ⟨h1, h2, h3, h4⟩ := instFault_of_ne (p := p) (b := c) (by rw [fr.kept .dbolt rfl]; exact hs)
    refine ⟨?_, by rw [h4]; exact he, h2, by rw [h3, fr.kept .log rfl]⟩
    rw [h1, faulted, fr.kept .dbolt rfl, fr.kept .clk rfl]
  · refine takes_runK (actTmrDisagreement m) (fun _ => rfl) (fun _ => rfl) hu ?_
    dsimp only
    rw [hm, hh, show (List.filter (fun j => decide ((none : Option Nat) ≠ some j)) [i]) = [i] from rfl]
    show _ ∧ _
    rw [show forEach [i] (fun i c => laneHard p i (laneUp i c)) b = laneHard p i (laneUp i b) from rfl, laneUp_alone hl]
    rw [show (decide (2 ≤ [i].length) || (none : Option Nat).isSome && decide ([i] ≠ [])) = false from rfl, when_false]
    exact ⟨by simp only [updBoot, hh], updBoot_only _ _⟩
  · refine takes_runK (actTmrDisagreement m) (fun _ => rfl) (fun _ => rfl) hu ?_
    dsimp only
    have hfl : (bitsOf m 3).filter (fun i => b.boot.hard ≠ some i) = bitsOf m 3 := List.filter_eq_self.mpr fun i _ => by simp [hh]
    rw [hfl, decide_eq_true hm, Bool.true_or, when_true]
    generalize hc : forEach _ _ b = c
    have fr : Only [.boot, .regs, .cnt, .log, .trace, .out] b c :=
      hc ▸ .forEach (fun i x => .next (laneHard_only _ _ _) (by decide) (.mono (laneUp_only _ _) (by decide))) (.refl _ _)
    obtain ⟨h1, h2, -, -⟩ := instFault_of_ne (p := p) (b := c) (by rw [fr.kept .dbolt rfl]; exact hs)
    exact ⟨by rw [h1]; rfl, by rw [h1]; rfl, h2⟩

end Sys2Proof.Machine
end

section
/-! PROOFS. Corrected and uncorrectable words, and the way of a record into the error log (R283 to R285, R288, R289). -/

namespace Sys2Proof.Machine

section
variable {p : Params} {b : Block}

/-- A word that has been corrected: its count, and whether it is a hard word (R284). -/
theorem corrected_counts (u : UnitId) (t i : Nat) :
    Tbl.get 0 (corrected p u t i b).ecc.ce (eccKey u t i) = Tbl.get 0 b.ecc.ce (eccKey u t i) + 1
    ∧ (eccKey u t i ∈ (corrected p u t i b).ecc.hard
        ↔ eccKey u t i ∈ b.ecc.hard ∨ rd1 p b (kA 0 0x064) 0 8 ≤ Tbl.get 0 b.ecc.ce (eccKey u t i) + 1) := by
  unfold corrected
  dsimp only
  generalize hc : ({ b with ecc := _ } : Block) = c
  have fr : Only [.ecc] b c := hc ▸ setEcc_only _ b
  have hce : Tbl.get 0 c.ecc.ce (eccKey u t i) = Tbl.get 0 b.ecc.ce (eccKey u t i) + 1 := by
    rw [← hc]
    exact Tbl.get_set_same 0 b.ecc.ce (eccKey u t i) (Tbl.get 0 b.ecc.ce (eccKey u t i) + 1)
  have hh : c.ecc.hard = b.ecc.hard := by rw [← hc]
  have hd := ceCount_only u t i c
  generalize ceCount u t i c = d at hd
  have he : d.ecc = c.ecc := hd.kept .ecc rfl
  have hr : rd1 p d (kA 0 0x064) 0 8 = rd1 p b (kA 0 0x064) 0 8 := by
    unfold rd1 rdf
    rw [rd_congr ((hd.kept .regs rfl).trans (fr.kept .regs rfl))]
  rw [hr]
  split
  next h =>
    rw [(logRec_only _ _ _).kept .ecc rfl]
    dsimp only
    rw [he, hce, hh]
    exact ⟨rfl, by simp [h.1]⟩
  next h =>
    rw [he, hce, hh]
    refine ⟨rfl, fun hm => .inl hm, fun hm => hm.elim id fun ht => ?_⟩
    by_contra hn
    exact h ⟨ht, by rw [he, hh]; exact hn⟩

/-- A record that goes to the Keeper, and the count of those lost before it (R288). -/
theorem sendLog_log {n : Nat} {x : LogRec} {l : List LogRec} (h : Tbl.get [] b.log.buf n = x :: l) :
    (sendLog n b).log = { b.log with
      buf := Tbl.set [] b.log.buf n l, lost := Tbl.set 0 b.log.lost n 0
      air := Tbl.upd [] b.log.air n (· ++ [(x, Tbl.get 0 b.log.lost n)]) } := by
  unfold sendLog
  rw [h]
  dsimp only
  split
  · exact (xtx_only _ _ _).kept .log rfl
  · rfl

/-- One word of the cells that an uncorrectable word spoils. -/
def spoilCell (c : CQ) (l : Tbl Cell) (j : Nat) : Tbl Cell :=
  if j < c.len then Tbl.upd (initCell c) l j (fun k => { k with bad := true }) else l

theorem spoilCell_bad {c : CQ} {i : Nat} (hi : i < c.len) (l : Tbl Cell) (j : Nat)
    (h : j = i ∨ (Tbl.get (initCell c) l i).bad = true) : (Tbl.get (initCell c) (spoilCell c l j) i).bad = true := by
  unfold spoilCell
  by_cases hj : j = i
  · rw [hj, if_pos hi, Tbl.get_upd_same]
  · split
    · rw [Tbl.get_upd_ne _ _ _ _ _ (Ne.symm hj)]
      exact h.resolve_left hj
    · exact h.resolve_left hj

/-- A cell of a spoiled word is bad, whatever the order in which its mates are marked. -/
theorem foldl_spoilCell_bad {c : CQ} {i : Nat} (hi : i < c.len) (m : List Nat) (l : Tbl Cell)
    (h : i ∈ m ∨ (Tbl.get (initCell c) l i).bad = true) : (Tbl.get (initCell c) (m.foldl (spoilCell c) l) i).bad = true := by
  induction m generalizing l with
  | nil => exact h.resolve_left List.not_mem_nil
  | cons j m ih =>
    refine ih _ ?_
    rcases h with h | h
    · exact (List.mem_cons.mp h).elim (fun e => .inr (spoilCell_bad hi l j (.inl e.symm))) .inl
    · exact .inr (spoilCell_bad hi l j (.inr h))

theorem mem_wordMates (c : CQ) (i : Nat) : i ∈ wordMates c i := by
  unfold wordMates
  split
  · simp only [List.mem_cons, List.not_mem_nil, or_false]
    omega
  · exact List.mem_singleton_self _

theorem spoilWord_bad {c : CQ} {i : Nat} (hi : i < c.len) : (Tbl.get (initCell c) (spoilWord i c).cells i).bad = true :=
  foldl_spoilCell_bad hi _ _ (.inl (mem_wordMates c i))

/-- The log of a record that reaches a log with room (R288). -/
theorem takes_logRecord {q : List Instr} {u : UnitId} {x : LogRec} {n : Nat} {l : List (LogRec × Nat)} {Q : Block → Prop} (hu : keeperUp b = true)
    (ha : Tbl.get [] b.log.air (unitNo u) = (x, n) :: l)
    (hQ : Q (storeLog p x (updLog (fun g => { g with
      air := Tbl.set [] g.air (unitNo u) l, dropped := satAdd (2 ^ 32 - 1) g.dropped n }) b))) : Takes (.logRecordArrival u) p q b Q := by
  refine takes_runK (actLogRecordArrival u) (fun _ => rfl) (fun _ => rfl) hu ?_
  dsimp only
  rw [ha]
  exact hQ

end

/-- Settles O47: the patrol and the ordinary reads, then each word's effect behind its record, then the log. -/
theorem memoryErrorsAndLog : Obligations.MemoryErrorsAndLog := by
  refine ⟨fun p q b u t e hu hp hd hn => ?_, fun p q b u t i hu => ?_, fun p q b u t i hu => ?_, fun p q b u t e c hu hp => ?_,
    fun p q b w i n hu => ?_, fun p q b w i n hu hn => ?_, fun p q b i n hu hn => ?_, fun p q b h t i hu hs => ?_,
    fun p q b u x n l hu ha hf hr => ?_, fun p q b u x n l hu ha hf hr => ?_, fun p q b u x n l hu ha hf hr => ?_,
    fun p q b u hu ha => ?_, fun n b x l h => ?_⟩
  · refine takes_run (g := fun p b => unitUp p b u) (actScrubRead u t (.patrol e) false) (fun _ => rfl) (fun _ => rfl) hu ?_
    dsimp only
    unfold patrol
    dsimp only
    rw [if_neg (by rw [hp]; rintro (h | ⟨h0, h⟩); exact absurd h (by decide); omega), if_neg hn, when_false]
    exact ⟨rfl, setEcc_only _ b⟩
  · exact takes_run (g := fun p b => unitUp p b u) (actScrubRead u t (.ordinary i) false) (fun _ => rfl) (fun _ => rfl) hu rfl
  · refine takes_run (g := fun p b => unitUp p b u) (actScrubRead u t (.ordinary i) true) (fun _ => rfl) (fun _ => rfl) hu ?_
    obtain ⟨h1, h2⟩ := corrected_counts (p := p) (b := b) u t i
    exact ⟨h1, h2, corrected_only _ _ _ _ _⟩
  · refine takes_run (g := fun p b => unitUp p b u) (actScrubRead u t (.patrol e) c) (fun _ => rfl) (fun _ => rfl) hu ?_
    dsimp only
    unfold patrol
    exact if_pos (hp.imp_left fun h => by rw [h]; rfl)
  · refine takes_run (g := fun p b => unitUp p b (.ward w)) (actUncorrectableWord (.ward w) 0x16 i n) (fun _ => rfl) (fun _ => rfl) hu ?_
    dsimp only
    rw [if_neg (fun h => absurd h.1 (by decide))]
    have fr := logRec_only p (eccLog (.ward w) 0x16 i) b
    have hc := logRec_counts_status p (eccLog (.ward w) 0x16 i) b
    generalize logRec p (eccLog (.ward w) 0x16 i) b = c at fr hc
    exact ⟨(slt_updSlot_same w n _ c).trans (by rw [slt_congr (fr.kept .slots rfl)]), hc, .next (updSlot_only _ _ _ _) (by decide) (.mono fr (by decide))⟩
  · refine takes_run (g := fun p b => unitUp p b (.ward w)) (actUncorrectableWord (.ward w) 0x15 i n) (fun _ => rfl) (fun _ => rfl) hu ?_
    dsimp only
    rw [if_neg (fun h => absurd h.1 (by decide))]
    have fr := logRec_only p (eccLog (.ward w) 0x15 i) b
    generalize logRec p (eccLog (.ward w) 0x15 i) b = c at fr
    refine ⟨?_, fun j hj => (onlyCQ_updCQ w (n / 4096) _ c j hj).trans (congrArg (Tbl.get {} · j) (fr.kept .cq rfl)),
      .next (updCQ_only _ _ _ _) (by decide) (.mono fr (by decide))⟩
    rw [show badWard p w 0x15 i n c = updCQ w (n / 4096) (spoilWord (n % 4096)) c from rfl, cqu_updCQ_same, cqu_congr (fr.kept .cq rfl)]
    exact spoilWord_bad hn
  · refine takes_run (g := fun p b => unitUp p b .keeper) (actUncorrectableWord .keeper 0x04 i n) (fun _ => rfl) (fun _ => rfl) hu ?_
    dsimp only
    rw [if_neg (by decide)]
    have fr := logRec_only p (eccLog .keeper 0x04 i) b
    have hc := logRec_counts_status p (eccLog .keeper 0x04 i) b
    generalize logRec p (eccLog .keeper 0x04 i) b = c at fr hc
    rw [show badKeeper p 0x04 n c = if n < 16 then updDom n (fun d => { d with bad := true }) c else c from rfl, if_pos hn]
    exact ⟨(dmn_updDom_same n _ c).trans (by rw [dmn_congr (fr.kept .gov rfl)]), hc, .next (updDom_only _ _ _) (by decide) (.mono fr (by decide))⟩
  · refine takes_run (g := fun p b => unitUp p b (.hinge h)) (actUncorrectableWord (.hinge h) t i 0) (fun _ => rfl) (fun _ => rfl) hu ?_
    dsimp only
    rw [if_pos rfl]
    have fr := logRec_only p (eccLog (.hinge h) t i) b
    generalize logRec p (eccLog (.hinge h) t i) b = c at fr
    rw [goDown_of_up p (by rw [fr.hng_eq rfl]; exact hs), hng_updHinge_same]
    exact ⟨rfl, rfl, fun j hj => (onlyHinge_updHinge h _ c j hj).trans (fr.hng_eq rfl j),
      .next (updHinge_only _ _ _) (by decide) (.mono fr (by decide))⟩
  · refine takes_logRecord hu ha ?_
    rw [storeLog_log, if_neg (by exact Bool.eq_false_iff.mp hf), if_pos (by exact hr)]
    exact ⟨rfl, rfl, Tbl.get_set_same _ _ _ _, rfl, rfl, .next (storeLog_only _ _ _) (by decide) (.mono (updLog_only _ _) (by decide))⟩
  · refine takes_logRecord hu ha ?_
    rw [storeLog_log, if_neg (by exact Bool.eq_false_iff.mp hf), if_neg (by exact Nat.not_lt.mpr hr)]
    exact ⟨rfl, rfl, rfl, Tbl.get_set_same _ _ _ _⟩
  · refine takes_logRecord hu ha ?_
    rw [storeLog_log, if_pos (by exact hf)]
    unfold lastResort updLog
    dsimp only
    rw [if_pos hr]
    exact ⟨rfl, rfl, rfl⟩
  · refine takes_runK (actLogRecordArrival u) (fun _ => rfl) (fun _ => rfl) hu ?_
    dsimp only
    rw [ha]
  · have e := sendLog_log h
    generalize hd : sendLog n b = d at e
    rw [e]
    dsimp only
    rw [Tbl.get_set_same, Tbl.get_upd_same, Tbl.get_set_same]
    exact ⟨rfl, rfl, rfl, hd ▸ sendLog_only n b⟩

end Sys2Proof.Machine
end

section
/-! PROOFS. Staging, dropping, writing and sampling of trace entries (R308 to R317). -/

namespace Sys2Proof.Machine

section
variable {p : Params}

/-! ## What placing an entry leaves: the FIFOs -/

theorem trStop_fifo (b : Block) : (trStop p b).trace.fifo = b.trace.fifo := by
  unfold trStop
  rw [(raise_only _ _ _ _).kept .trace rfl]
  rfl

theorem trSlotPut_fifo (e : TrEnt) (n : Int) (b : Block) : (trSlotPut p e n b).trace.fifo = b.trace.fifo := by
  unfold trSlotPut
  dsimp only
  split
  · rfl
  · unfold when
    split
    · exact trStop_fifo _
    · rfl
  · rfl

theorem trFull_fifo (t : Word64) (b : Block) : (trFull p t b).trace.fifo = b.trace.fifo := trSlotPut_fifo _ _ b

theorem trPlace_fifo (e : TrEnt) (b : Block) : (trPlace p e b).trace.fifo = b.trace.fifo := by
  have h : ∀ c, (if (trDelta c e.ts).isNone then trFull p e.ts c else c).trace.fifo = c.trace.fifo := fun c => by
    split
    · exact trFull_fifo _ _
    · rfl
  unfold trPlace
  split
  · exact (trSlotPut_fifo _ _ _).trans ((h _).trans (h _))
  · rfl

theorem trTrigger_fifo (i : Nat) (st : Status) (b : Block) : (trTrigger p i st b).trace.fifo = b.trace.fifo := by
  unfold trTrigger
  dsimp only
  split
  · rfl
  · have hr : ∀ f : Trace → Trace, (raise p tIrq 1 (updTr f b)).trace = f b.trace := fun f => (raise_only _ _ _ _).kept .trace rfl
    split
    · rw [trStop_fifo, trPlace_fifo, hr]
    · rw [trPlace_fifo, trFull_fifo, updTr_trace, hr]
  · split <;> rfl

theorem dropAhead_fifo (b : Block) : (dropAhead p b).trace.fifo = b.trace.fifo := by
  unfold dropAhead
  dsimp only
  split
  · rfl
  · exact trPlace_fifo _ _

theorem stageOne_fifo (e : TrEnt) (b : Block) : (stageOne p e b).trace.fifo = b.trace.fifo := by
  unfold stageOne
  split
  · dsimp only
    rw [trPlace_fifo]
    unfold when
    split
    · rw [trTrigger_fifo, dropAhead_fifo]
    · exact dropAhead_fifo b
  · rfl

/-- The first entry of a FIFO leaves it (R312). -/
theorem stageFrom_fifo {u : Nat} {b : Block} {e : TrEnt} {l : List TrEnt} (h : Tbl.get [] b.trace.fifo u = e :: l) :
    (stageFrom p u b).trace.fifo = Tbl.set [] b.trace.fifo u l := by
  unfold stageFrom
  rw [h]
  dsimp only
  rw [stageOne_fifo]
  split
  · rfl
  · rw [(xtx_only _ _ _).kept .trace rfl]
    rfl

/-! ## What an entry at a FIFO leaves: the sampling -/

theorem trPush_samples (u : Nat) (e : TrEnt) (b : Block) :
    (trPush u e b).trace.sampAt = b.trace.sampAt ∧ (trPush u e b).trace.sampNext = b.trace.sampNext := by
  unfold trPush
  dsimp only
  exact iteInduction (motive := fun c : Block => c.trace.sampAt = b.trace.sampAt ∧ c.trace.sampNext = b.trace.sampNext)
    (fun _ => ⟨rfl, rfl⟩) (fun _ => ⟨rfl, rfl⟩)

theorem trForm_samples (u : UnitId) (e : TrEnt) (b : Block) :
    (trForm p u e b).trace.sampAt = b.trace.sampAt ∧ (trForm p u e b).trace.sampNext = b.trace.sampNext := by
  unfold trForm
  split
  · exact trPush_samples _ _ _
  · exact ⟨rfl, rfl⟩

/-! ## The run of a block -/

theorem padSlots_staged (post : Bool) (n : Nat) (b : Block) : (padSlots p post n b).trace.staged = b.trace.staged := by
  unfold padSlots
  split
  · rfl
  · split
    · dsimp only
      unfold when
      split
      · unfold trStop
        rw [(raise_only _ _ _ _).kept .trace rfl]
        rfl
      · rfl
    · dsimp only
      split <;> rfl

end

/-- Settles O51: staging, losing, writing and sampling, each by its own function. -/
theorem tracePath : Obligations.TracePath := by
  refine ⟨fun p q b hu hs => ?_, fun p q b u e hu hs hf => ?_, fun p q b w hu hl hs => ?_, fun p q b l x r hu hf hl => ?_,
    fun p q b hu => ?_, fun p q b w i hu hm hs hd hi => ?_⟩
  · refine takes_runK actTraceEntryStage (fun _ => rfl) (fun _ => rfl) hu ?_
    exact if_neg (by rcases hs with h | h <;> simp [h])
  · refine takes_runK actTraceEntryStage (fun _ => rfl) (fun _ => rfl) hu ?_
    dsimp only
    have hg : Tbl.get [] b.trace.fifo u = [e] := by simp [hf, Tbl.get]
    have hl : (List.replicate (Tbl.get [] b.trace.fifo 0).length 0 ++ (b.trace.fifo.map Prod.fst).filter (· ≠ 0)).take 4 = [u] := by
      rw [hf]
      by_cases h : u = 0
      · subst h
        rfl
      · simp [Tbl.get, h]
    rw [if_pos (.inl hs), hl]
    show Tbl.get [] (stageFrom p u b).trace.fifo u = [] ∧ Only _ b (stageFrom p u b)
    rw [stageFrom_fifo hg, Tbl.get_set_same]
    exact ⟨rfl, stageFrom_only _ _ _⟩
  · refine takes_run (g := fun p b => wardUp p b w) (actTraceFifoDrop (.ward w)) (fun _ => rfl) (fun _ => rfl) hu ?_
    dsimp only [unitNo]
    rw [if_pos ⟨decide_eq_true hl, hs⟩]
    have hc : trDropCnt (1 + w) = wc32 w 23 := by
      unfold trDropCnt
      rw [if_neg (by omega), Nat.add_sub_cancel_left]
    refine ⟨?_, ?_, trLose_only _ _ _⟩
    · have ht : (trLose (1 + w) ⟨b.clk.ts, 0, .ward w, 0, 0, 0, 0, 0⟩ b).trace.lost
          = Tbl.upd (0, 0) b.trace.lost (1 + w) (fun l => (l.1 + 1, if l.1 = 0 then b.clk.ts else l.2)) := rfl
      rw [ht, Tbl.get_upd_same]
    · rw [hc]
      unfold trLose
      rw [hc]
      exact get_bump_wc32 w (by decide) 1 _
  · refine takes_runK actTraceBlockWrite (fun _ => rfl) (fun _ => rfl) hu ?_
    rw [hf]
    subst hl
    refine ⟨padSlots_staged _ _ _, ?_, writeRun_only _ _ _⟩
    exact List.mem_append_right _ (List.mem_singleton_self _)
  · exact takes_runK (actTraceWriteResponse .okay) (fun _ => rfl) (fun _ => rfl) hu rfl
  · refine takes_runW (actSamplePeriod w) (fun _ => rfl) (fun _ => rfl) hu ?_
    rw [if_pos ⟨hm, hs, hd⟩]
    dsimp only
    rw [← hi]
    generalize hc : updPort (w * p.ne + i) (fun q => { q with sampleBusy := 0 }) _ = c
    generalize hd : trForm p (.ward w) _ c = d
    have ht : Only [.cnt, .trace] c d := hd ▸ trForm_only _ _ _ _
    obtain ⟨ha, hn⟩ : d.trace.sampAt = c.trace.sampAt ∧ d.trace.sampNext = c.trace.sampNext := hd ▸ trForm_samples _ _ c
    have hbc : Only [.ports, .trace] b c := hc ▸ .next (updPort_only _ _ _) (by decide) (.mono (updTr_only _ _) (by decide))
    refine ⟨?_, fun j hj => ?_, ?_, ?_, .next ht (by decide) (.mono hbc (by decide))⟩
    · rw [ht.prt_eq rfl, ← hc, prt_updPort_same]
    · rw [ht.prt_eq rfl, ← hc]
      exact onlyPort_updPort _ _ _ j hj
    · rw [hn, ← hc]
      exact Tbl.get_set_same 0 b.trace.sampNext w ((i + 1) % p.ne)
    · rw [ha, ← hc]
      exact Tbl.get_set_same 0 b.trace.sampAt w b.clk.fclk

end Sys2Proof.Machine
end

section
/-! PROOFS. Segments with entries in other instances (R253). -/

namespace Sys2Proof.Machine

section
variable {p : Params} {b c : Block}

/-! ## What an item handed over leaves for the checks -/

/-- A block that differs in its counters and Hinges is the block with those put in. -/
theorem eq_of_only_hinges (h : Only [.cnt, .hg] b c) : c = { b with cnt := c.cnt, hg := c.hg } := by
  have k : ∀ f, decide (f ∈ [BlockPart.cnt, .hg]) = false → agree f b c := fun f hf => h.kept f hf
  cases c
  simp only [Block.mk.injEq]
  exact ⟨k .clk rfl, k .boot rfl, k .mgt rfl, k .regs rfl, trivial, k .cntSh rfl, k .snapAt rfl, k .snapTs rfl, k .cmtTs rfl,
    k .cmtDue rfl, k .iqWork rfl, k .ents rfl, k .wq rfl, k .slots rfl, k .ports rfl, k .occ rfl, k .place rfl, k .gov rfl,
    k .arb rfl, k .rings rfl, k .tdone rfl, k .tens rfl, k .segs rfl, k .entq rfl, k .pcls rfl, k .hasps rfl, k .waits rfl,
    k .kpool rfl, k .mq rfl, k .mqPop rfl, k .chans rfl, k .rchans rfl, k .storms rfl, k .cq rfl, k .cbParts rfl,
    k .opdLast rfl, k .preIgnored rfl, k .resumeQ rfl, k .lcIdleAt rfl, trivial, k .routes rfl, k .unreach rfl, k .fedt rfl,
    k .remSegs rfl, k .log rfl, k .dbolt rfl, k .hang rfl, k .dump rfl, k .cap rfl, k .ecc rfl, k .evr rfl, k .blk rfl,
    k .trace rfl, k .watch rfl, k .tally rfl, k .meter rfl, k .xbar rfl, k .out rfl⟩

theorem farCheck_congr (h : Only [.cnt, .hg] b c) (t : Nat) (x : BitVec 512) : farCheck p c t x = farCheck p b t x := by
  rw [eq_of_only_hinges h]
  generalize c.cnt = u
  generalize c.hg = v
  unfold farCheck classStatus homeAt
  dsimp only
  rw [show ∀ k i, otherInst p { b with cnt := u, hg := v } k i = otherInst p b k i from fun _ _ => rfl,
    show pcl { b with cnt := u, hg := v } = pcl b from rfl]
  cases otherInst p b (pcl b (recClass x)).work.remote (pcl b (recClass x)).work.rinst with
  | some i => rfl
  | none => rfl

theorem farSeg_congr (h : Only [.cnt, .hg] b c) (q : ReserveReq) : farSeg p c q = farSeg p b q := by
  rw [eq_of_only_hinges h]
  rfl

theorem neverFits_congr (h : Only [.cnt, .hg] b c) (t : Nat) (g : Seg) : neverFits c t g = neverFits b t g := by
  rw [eq_of_only_hinges h]
  rfl

theorem quotaOk_congr (h : Only [.cnt, .hg] b c) (t : Nat) (g : Seg) : quotaOk c t g = quotaOk b t g := by
  rw [eq_of_only_hinges h]
  rfl

theorem fitsNow_congr (h : Only [.cnt, .hg] b c) (g : Seg) : fitsNow c g = fitsNow b g := by
  rw [eq_of_only_hinges h]
  rfl

theorem farStatus_congr (h : Only [.cnt, .hg] b c) (q : ReserveReq) : farStatus p c q = farStatus p b q := by
  unfold farStatus
  rw [show (fun x : Nat × BitVec 512 => farCheck p c q.tenant x.2) = fun x => farCheck p b q.tenant x.2 from
    funext fun x => farCheck_congr h q.tenant x.2, ten_congr (h.kept .tens rfl)]

/-! ## Items handed over -/

/-- An item within credit reaches its effect with nothing but its Hinge and the counters changed (R259). -/
theorem rxItem_within {n s : Nat} {o : Bool} (f : Block → Block) (hn : n < p.nh) (hb : beyondCredit (hng b n) s o = false) :
    rxItem p n s o f b = f (hingeIn n s o b) := by
  unfold rxItem
  rw [if_neg (Nat.not_le.mpr hn), if_neg (Bool.eq_false_iff.mp hb)]

theorem rxItems_within {n : Nat} {l : List Nat} {o : Bool} (f : Block → Block) (hn : n < p.nh) (hb : beyondCredit (hng b n) (l.headD 0) o = false) :
    ∃ d, Only [.cnt, .hg] b d ∧ rxItems p n l o f b = f d := by
  unfold rxItems
  rw [rxItem_within _ hn hb]
  exact ⟨_, .forEach (fun x e => hingeIn_only _ _ _ e) (hingeIn_only _ _ _ _), rfl⟩

/-! ## The walk of a ring while its segment is allocated -/

/-- The walk of a ring is kept, and every other ring. -/
def SameWalk (r : Nat) (b c : Block) : Prop := (rng c r).walk = (rng b r).walk ∧ OnlyRing r b c

theorem SameWalk.refl (r : Nat) (b : Block) : SameWalk r b b := ⟨rfl, fun _ _ => rfl⟩

theorem SameWalk.next {r : Nat} {d : Block} {l : List BlockPart} (h : Only l c d) (hl : decide (BlockPart.rings ∈ l) = false) (hb : SameWalk r b c) :
    SameWalk r b d :=
  ⟨(congrArg Ring.walk (h.rng_eq hl r)).trans hb.1, hb.2.next h hl⟩

theorem SameWalk.upd {r : Nat} (f : Ring → Ring) (hf : ∀ g, (f g).walk = g.walk) (hb : SameWalk r b c) : SameWalk r b (updRing r f c) :=
  ⟨(congrArg Ring.walk (rng_updRing_same r f c)).trans ((hf _).trans hb.1), hb.2.trans (onlyRing_updRing r f c)⟩

theorem SameWalk.forEach {α : Type} {r : Nat} {l : List α} {f : α → Block → Block} (h : ∀ x c, SameWalk r b c → SameWalk r b (f x c))
    (hb : SameWalk r b c) : SameWalk r b (Machine.forEach l f c) := by
  unfold Machine.forEach
  induction l generalizing c with
  | nil => exact hb
  | cons x l ih => exact ih (h x c hb)

theorem SameWalk.allocIdx {r : Nat} (g : Seg) (i : Nat) (x : BitVec 512) (hb : SameWalk r b c) : SameWalk r b (Machine.allocIdx p r g i x c) := by
  unfold Machine.allocIdx
  dsimp only
  generalize hd : when _ _ c = d
  have hw : SameWalk r b d := by
    rw [← hd]
    unfold Machine.when
    split
    · exact hb.upd _ fun _ => rfl
    · exact hb
  split
  · exact hw.next (updFed_only _ _ _) rfl
  · exact (((hw.next (takeEntry_only _ _) rfl).next (putEntry_only _ _ _ _) rfl).next (updSeg_only _ _ _) rfl).next (updFed_only _ _ _) rfl

theorem set_watch_only (v : List Watch) (b : Block) : Only [.watch] b { b with watch := v } :=
  Only.update (by intro f hf; cases f <;> first | exact absurd (by decide) hf | rfl) (.refl _ _)

theorem SameWalk.applyRec {r : Nat} (g : Seg) (x : SRec) (hb : SameWalk r b c) : SameWalk r b (Machine.applyRec p r g x c) := by
  unfold Machine.applyRec
  dsimp only
  split
  · exact hb.next (applyOpen_only _ _ _ _ _ _) rfl
  · exact hb.next (applyCombine_only _ _ _ _ _) rfl
  · exact hb.next (applySet_only _ _ _) rfl
  · unfold applyWatch updSub
    exact SameWalk.upd _ (fun _ => rfl) (SameWalk.next (set_watch_only _ _) rfl hb)
  · unfold applyMark
    exact SameWalk.next (trRing_only _ _ _ _ _ _ _) rfl (hb.upd _ fun _ => rfl)
  · exact hb

/-- The allocate pass leads to pass 3 (R46). -/
theorem allocSeg_pass3 (r : Nat) (g : Seg) (b : Block) :
    (rng (allocSeg p r g b) r).walk.mode = .pass3 ∧ OnlyRing r b (allocSeg p r g b) := by
  unfold allocSeg
  dsimp only
  generalize hd : updWalk r (fun k => { k with mode := .pass3, reread := [] }) _ = d
  have hm : (rng d r).walk.mode = .pass3 := by
    rw [← hd, rng_updWalk_same]
  have ho : OnlyRing r b d := hd ▸ onlyRing_updRing r _ _
  suffices hs : SameWalk r d _ from ⟨(congrArg Walk.mode hs.1).trans hm, ho.trans hs.2⟩
  unfold updSub
  refine SameWalk.upd _ (fun _ => rfl) (SameWalk.upd _ (fun _ => rfl) (.forEach (fun x c h => h.applyRec g x)
    (.forEach (fun x c h => h.allocIdx g x.2 x.1) ?_)))
  unfold ensureStep
  refine SameWalk.upd _ (fun g => ?_) (.refl r d)
  split <;> rfl

/-! ## The reservation here -/

/-- Each entry granted adds its handle to the one reservation of the request (R253). -/
theorem farEntries_handles (q : ReserveReq) (l : List (Nat × BitVec 512)) {d : Block} {k : List RemSeg} {g : RemSeg} (hd : d.remSegs = k ++ [g])
    (hk : ∀ x ∈ k, ¬ (x.inst = q.inst ∧ x.bank = q.bank)) (hg : g.inst = q.inst ∧ g.bank = q.bank) :
    ∃ m, (forEach l (farEntry p q) d).remSegs = k ++ [{ g with handles := m }] ∧ m.length = g.handles.length + l.length := by
  induction l generalizing d g with
  | nil => exact ⟨g.handles, hd, rfl⟩
  | cons x l ih =>
    have hs : ∃ z, (farEntry p q x d).remSegs = d.remSegs.map (fun g =>
        if g.inst = q.inst ∧ g.bank = q.bank then { g with handles := g.handles ++ [(x.1, z)] } else g) := by
      unfold farEntry
      dsimp only
      generalize hz : takeEntry _ d = z
      refine ⟨z.1, ?_⟩
      rw [(updFed_only _ _ _).kept .remSegs rfl]
      have h (e : TaskDesc) : (putEntry z.1 (tumblerOf x.2) e z.2).remSegs = d.remSegs :=
        ((putEntry_only _ _ _ _).kept .remSegs rfl).trans (hz ▸ (takeEntry_only _ d).kept .remSegs rfl)
      exact congrArg (List.map _) (h _)
    obtain ⟨z, hz⟩ := hs
    have hkm : k.map (fun g => if g.inst = q.inst ∧ g.bank = q.bank then { g with handles := g.handles ++ [(x.1, z)] } else g) = k :=
      (List.map_congr_left fun y hy => if_neg (hk y hy)).trans (List.map_id _)
    rw [hd, List.map_append, List.map_singleton, if_pos hg, hkm] at hz
    obtain ⟨m, hm, hl⟩ := ih hz hg
    refine ⟨m, hm, hl.trans ?_⟩
    simp only [List.length_append, List.length_cons, List.length_nil]
    omega

/-- A granted reservation is kept with one entry for each record (R253). -/
theorem farGrant_remSegs (q : ReserveReq) (b : Block) :
    ∃ g, (farGrant p q b).remSegs = b.remSegs.filter (fun g => !(decide (g.inst = q.inst) && decide (g.bank = q.bank))) ++ [g]
      ∧ g.inst = q.inst ∧ g.bank = q.bank ∧ g.ring = q.ring ∧ g.handles.length = q.recs.length := by
  unfold farGrant
  dsimp only
  generalize hd : ({ b with remSegs := _ } : Block) = d
  obtain ⟨m, hm, hl⟩ := farEntries_handles (p := p) q q.recs (d := d) (k := b.remSegs.filter _) (g := ⟨q.inst, q.bank, q.ring, q.tenant, [], false⟩)
    (by rw [← hd]) (fun x hx h => by simpa [h] using (List.mem_filter.mp hx).2) ⟨rfl, rfl⟩
  refine ⟨⟨q.inst, q.bank, q.ring, q.tenant, m, false⟩, ?_, rfl, rfl, rfl, hl.trans (Nat.zero_add _)⟩
  rw [← hm, ← (farReply_only p q 0 (forEach q.recs (farEntry p q) d)).kept .remSegs rfl]
  exact (Only.when (fun c => .forEach (fun x e => sendItem_only _ _ e) (.refl _ _)) (.refl _ _)).kept .remSegs rfl

/-! ## Links and the way back -/

theorem evict_off {w : Nat} (hs : spillBase p b w = 0) (n k : Nat) : evict p w n k b = b := by
  cases k with
  | zero => rfl
  | succ k =>
    unfold evict
    exact if_pos (.inr hs)

/-- Without a spill area a successor list is put into its entry and nothing else happens (R61). -/
theorem putLinks_off {h : Nat} (ws : List Word32) (hs : spillBase p b (homeOf h) = 0) (hn : (ent b h).spilled = false) :
    ent (putLinks p h ws b) h = { ent b h with succ := ws } ∧ OnlyEnt h b (putLinks p h ws b) ∧ Only [.ents] b (putLinks p h ws b) := by
  unfold putLinks
  dsimp only
  generalize hc : updEnt h (fun e => { e with succ := [], spilled := false }) b = c
  have hcs : spillBase p c (homeOf h) = 0 := hc ▸ hs
  rw [evict_off hcs]
  have hd : spillBase p (updEnt h (fun e => { e with succ := ws }) c) (homeOf h) = 0 := hcs
  rw [hd, decide_eq_false (by decide), Bool.false_and, Bool.false_and, when_false, ent_updEnt_same]
  refine ⟨by rw [← hc, ent_updEnt_same, ← hn], fun j hj => ?_, .next (updEnt_only _ _ _) (by decide) (hc ▸ updEnt_only _ _ _)⟩
  exact (onlyEnt_updEnt h _ c j hj).trans (hc ▸ onlyEnt_updEnt h _ b j hj)

/-- An unsealed entry given back is free again (R253). -/
theorem giveBack_frees {h : Nat} (hp : (ent b h).st = .pending) (hs : (ent b h).isSealed = false) :
    (ent (giveBack h b) h).st = .free ∧ OnlyEnt h b (giveBack h b) := by
  unfold giveBack
  dsimp only
  rw [if_pos ⟨hp, by rw [hs]; exact Bool.false_ne_true⟩]
  generalize hc : updFed _ _ b = c
  have hbc : ∀ j, ent c j = ent b j := fun j => (hc ▸ updFed_only _ _ b : Only [.fedt] b c).ent_eq rfl j
  generalize hd : updEnt h _ c = d
  have hst : (ent d h).st = .free := by rw [← hd, ent_updEnt_same]
  have ho : OnlyEnt h c d := hd ▸ onlyEnt_updEnt h _ c
  exact ⟨hst, fun j hj => (ho j hj).trans (hbc j)⟩

end

theorem rxItem_exists {p : Params} {b : Block} {n s : Nat} {o : Bool} (f : Block → Block) (hn : n < p.nh) (hb : beyondCredit (hng b n) s o = false) :
    ∃ d, Only [.cnt, .hg] b d ∧ rxItem p n s o f b = f d :=
  ⟨_, hingeIn_only _ _ _ _, rxItem_within f hn hb⟩

/-- An event of the Keeper that begins with an item handed over within credit. -/
theorem takes_via {ins : Instr} {p : Params} {q : List Instr} {b : Block} {Q : Block → Prop} {F : Params → Block → Block} {f : Block → Block}
    (act : State → Outcome) (he : ∀ s, exec ins s = act (s.sampled ins)) (ha : ∀ s, act s = s.runK F) (hu : keeperUp b = true)
    (hx : ∃ d, Only [.cnt, .hg] b d ∧ F p b = f d) (hQ : ∀ d, Only [.cnt, .hg] b d → Q (f d)) : Takes ins p q b Q := by
  obtain ⟨d, hd, hf⟩ := hx
  exact takes_runK act he ha hu (hf ▸ hQ d hd)

theorem segs_updSeg {r : Nat} {b : Block} {g : Seg} (f : Seg → Seg) (h : Tbl.get none b.segs r = some g) :
    Tbl.get none (updSeg r f b).segs r = some (f g) := by
  unfold updSeg
  rw [h]
  exact Tbl.get_set_same none b.segs r (some (f g))

theorem hinge_of_hingeUp {p : Params} {b : Block} {h : Nat} (hu : hingeUp p b h = true) : h < p.nh := by
  unfold hingeUp at hu
  simp only [Bool.and_eq_true, decide_eq_true_eq] at hu
  exact hu.1.2

/-- Settles O45: each item past the Hinge that hands it over, then the segment's or the entry's part. -/
theorem remoteSegments : Obligations.RemoteSegments := by
  refine ⟨fun p q b h r hu hb he hs hn hq hf => ?_, fun p q b h r hu hb hs hn hq => ?_, fun p q b r v l g hu hv hb hm hg ha => ?_,
    fun p q b r v l g k hu hv hb hm hg ha hk => ?_, fun p q b r v st g hu hv hb hm hg ha => ?_, fun p q b r v g hu hv hb hm hg ha => ?_,
    fun p q b r t hu hm ht hw => ?_, fun p q b v k n w g h hu hv hb hg hh hs hn => ?_, fun p q b v k g n h hu hv hb hg hh hp hs => ?_⟩
  · refine takes_runH (actRemoteReserve h r) (fun _ => rfl) (fun _ => rfl) hu ?_
    dsimp only
    obtain ⟨d, hd, hx⟩ := rxItems_within _ (hinge_of_hingeUp hu) hb
    rw [hx, farStatus_congr hd, farSeg_congr hd, neverFits_congr hd, quotaOk_congr hd, fitsNow_congr hd, if_neg (not_not_intro hs),
      if_neg (Bool.eq_false_iff.mp hn), if_pos (Bool.and_eq_true_iff.mpr ⟨hq, hf⟩), ← hd.kept .remSegs rfl]
    exact farGrant_remSegs r d
  · refine takes_runH (actRemoteReserve h r) (fun _ => rfl) (fun _ => rfl) hu ?_
    dsimp only
    obtain ⟨d, hd, hx⟩ := rxItems_within _ (hinge_of_hingeUp hu) hb
    rw [hx, farStatus_congr hd, farSeg_congr hd, neverFits_congr hd, quotaOk_congr hd, fitsNow_congr hd, if_neg (not_not_intro hs),
      if_neg (Bool.eq_false_iff.mp hn), if_neg (Bool.eq_false_iff.mp hq)]
    exact .next (farReply_only _ _ _ _) (by decide) (.mono hd (by decide))
  · refine takes_via (actHndAnswer r v (.ok l)) (fun _ => rfl) (fun _ => rfl) hu
      (rxItems_within _ hv (by dsimp only; rw [Nat.add_comm, List.replicate_succ]; exact hb)) fun d hd => ?_
    have hr := hd.rng_eq rfl r
    have hs := segs_updSeg (fun s => { s with awaiting := s.awaiting.erase v.inst, handles := l.foldl (fun hs x => hs.set x.1 x.2) s.handles })
      ((congrArg (Tbl.get none · r) (hd.kept .segs rfl)).trans hg)
    rw [hr, hm, hd.kept .segs rfl, hg]
    dsimp only
    rw [if_pos (by rw [ha]; exact List.mem_singleton_self _), hs]
    dsimp only
    rw [if_pos (show g.awaiting.erase v.inst = [] by rw [ha, List.erase_cons_head])]
    obtain ⟨h1, h2⟩ := allocSeg_pass3 (p := p) r _ (updSeg r _ d)
    exact ⟨h1, fun j hj => (h2 j hj).trans (((updSeg_only _ _ _).rng_eq rfl j).trans (hd.rng_eq rfl j))⟩
  · refine takes_via (actHndAnswer r v (.ok l)) (fun _ => rfl) (fun _ => rfl) hu
      (rxItems_within _ hv (by dsimp only; rw [Nat.add_comm, List.replicate_succ]; exact hb)) fun d hd => ?_
    have hr := hd.rng_eq rfl r
    have hs := segs_updSeg (fun s => { s with awaiting := s.awaiting.erase v.inst, handles := l.foldl (fun hs x => hs.set x.1 x.2) s.handles })
      ((congrArg (Tbl.get none · r) (hd.kept .segs rfl)).trans hg)
    have he : g.awaiting.erase v.inst = k := by rw [ha, List.erase_cons_head]
    rw [hr, hm, hd.kept .segs rfl, hg]
    dsimp only
    rw [if_pos (by rw [ha]; exact List.mem_cons_self), hs]
    dsimp only
    rw [he, if_neg hk]
    exact ⟨hs.trans (by rw [he]), ((updSeg_only _ _ _).rng_eq rfl r).trans hr, .next (updSeg_only _ _ _) (by decide) (.mono hd (by decide))⟩
  · refine takes_via (actHndAnswer r v (.refused st)) (fun _ => rfl) (fun _ => rfl) hu (rxItems_within _ hv hb) fun d hd => ?_
    have hr := hd.rng_eq rfl r
    rw [hr, hm, hd.kept .segs rfl, hg]
    dsimp only
    rw [if_pos ha, ← hr]
    obtain ⟨h1, h2, h3, h4⟩ := walkFault_stops p r st (rng d r).walk.off 0 d
    exact ⟨h1, h3, h2, fun j hj => (h4 j hj).trans (hd.rng_eq rfl j)⟩
  · refine takes_via (actHndAnswer r v .retry) (fun _ => rfl) (fun _ => rfl) hu (rxItems_within _ hv hb) fun d hd => ?_
    rw [hd.rng_eq rfl r, hm, hd.kept .segs rfl, hg]
    dsimp only
    rw [if_pos ha]
    have hf := abandonFar_only p r g d
    generalize abandonFar p r g d = e at hf
    have fr : Only [.cnt, .hg, .out] b e := .next hf (by decide) (.mono hd (by decide))
    have hs := updSeg_only r (fun s => { s with awaiting := [], handles := List.replicate s.homes.length 0 }) e
    unfold rdf
    rw [rng_updWalk_same, fr.kept .clk rfl, rd_congr (fr.kept .regs rfl)]
    exact ⟨rfl, fun j hj => (onlyRing_updRing r _ _ j hj).trans ((hs.rng_eq rfl j).trans (fr.rng_eq rfl j)),
      .next (updWalk_only _ _ _) (by decide) (.next hs (by decide) (.mono fr (by decide)))⟩
  · refine takes_runK (actRemoteRetryExpiry r) (fun _ => rfl) (fun _ => rfl) hu ?_
    dsimp only
    rw [hm]
    dsimp only
    rw [if_pos ⟨ht, hw⟩, rng_updWalk_same]
    exact ⟨rfl, rfl, onlyRing_updRing _ _ _, .next (updWalk_only _ _ _) (by decide) (.mono (set_entq_only _ _) (by decide))⟩
  · refine takes_via (actLinkItem v k n w) (fun _ => rfl) (fun _ => rfl) hu (rxItem_exists _ hv hb) fun d hd => ?_
    rw [hd.kept .remSegs rfl, hg, Option.bind_some, hh]
    dsimp only
    have he : ent d h = ent b h := hd.ent_eq rfl h
    have hds : spillBase p d (homeOf h) = 0 := by
      unfold spillBase
      rw [rd_congr (hd.kept .regs rfl), rd_congr (hd.kept .regs rfl)]
      exact hs
    obtain ⟨h1, h2, h3⟩ := putLinks_off (p := p) ((ent d h).succ ++ [w]) hds (by rw [he]; exact hn)
    refine ⟨by rw [h1, he], fun j hj => (h2 j hj).trans (hd.ent_eq rfl j), .next h3 (by decide) (.mono hd (by decide))⟩
  · refine takes_via (actXctlAbandon v k) (fun _ => rfl) (fun _ => rfl) hu (rxItem_exists _ hv hb) fun d hd => ?_
    rw [hd.kept .remSegs rfl, hg]
    dsimp only
    rw [hh]
    generalize hc : ({ d with remSegs := b.remSegs.erase g } : Block) = c
    have fr : Only [.cnt, .hg, .remSegs] b c := hc ▸ .next (set_remSegs_only _ _) (by decide) (.mono hd (by decide))
    have he : ent c h = ent b h := fr.ent_eq rfl h
    show (giveBack h c).remSegs = _ ∧ _
    obtain ⟨h1, h2⟩ := giveBack_frees (b := c) (h := h) (by rw [he]; exact hp) (by rw [he]; exact hs)
    refine ⟨((giveBack_only h c).kept .remSegs rfl).trans (by rw [← hc]), h1, fun j hj => (h2 j hj).trans (fr.ent_eq rfl j),
      .next (giveBack_only h c) (by decide) (.mono fr (by decide))⟩

end Sys2Proof.Machine
end

section
/-! PROOFS. The end of a submission (R123, R140, R141, R143, R144). -/

namespace Sys2Proof.Machine

section
variable {p : Params} {b : Block} {r : Nat} {i : Word32} {s : Sub}

/-! ## One submission of a ring -/

/-- The ring in which one submission is changed. -/
def withSub (i : Word32) (f : Sub → Sub) (g : Ring) : Ring := { g with subs := g.subs.map (fun s => if s.subid = i then f s else s) }

theorem updSub_eq (r : Nat) (i : Word32) (f : Sub → Sub) (b : Block) : updSub r i f b = updRing r (withSub i f) b := rfl

theorem find?_withSub {g : Ring} (f : Sub → Sub) (hf : ∀ x, (f x).subid = x.subid) (h : g.subs.find? (fun s => s.subid = i) = some s) :
    (withSub i f g).subs.find? (fun s => s.subid = i) = some (f s) := by
  have hs : s.subid = i := by simpa using List.find?_some h
  unfold withSub
  rw [List.find?_map]
  have hp : ((fun s : Sub => decide (s.subid = i)) ∘ fun s => if s.subid = i then f s else s) = fun s => decide (s.subid = i) := by
    funext x
    simp only [Function.comp]
    split
    · rw [hf]
    · rfl
  rw [hp, h]
  simp [hs]

/-- While its oldest submission is not complete, no submission of a ring is done. -/
theorem doneAdvance_open {n : Nat} (h : ∀ x ∈ (rng b r).subs.head?, x.complete = false) : doneAdvance p r n b = b := by
  cases n with
  | zero => rfl
  | succ n =>
    unfold doneAdvance
    dsimp only
    split
    · rfl
    next x l hs =>
      rw [if_neg fun hc => ?_]
      exact absurd hc.1 (by simp [h x (by rw [hs]; rfl)])

/-- The oldest submission, done, leaves its ring: RPTR is one higher and TN_RING_DONE names it (R123, R140). -/
theorem doneAdvance_oldest {l : List Sub} (h : (rng b r).subs = s :: l) (hc : s.complete = true) (hw : s.statusWr ≠ .pending) (hd : s.digests = 0)
    (hl : ∀ x ∈ l.head?, x.complete = false) (n : Nat) :
    (rng (doneAdvance p r (n + 1) b) r).subs = l ∧ (rng (doneAdvance p r (n + 1) b) r).rptr = (rng b r).rptr + 1
    ∧ Tbl.get 0 (doneAdvance p r (n + 1) b).tdone (rTenant (rng b r) * 64 + rSlot (rng b r)) = s.subid
    ∧ OnlyRing r b (doneAdvance p r (n + 1) b) ∧ Only [.rings, .tdone, .out] b (doneAdvance p r (n + 1) b) := by
  refine and_assoc.mp (and_assoc.mp (and_assoc.mp ⟨?_, doneAdvance_only p r (n + 1) b⟩))
  unfold doneAdvance
  dsimp only
  rw [h]
  dsimp only
  rw [if_pos ⟨hc, hw, hd⟩]
  generalize hu : updRing r _ b = c
  have hcr : rng c r = { rng b r with subs := l, rptr := (rng b r).rptr + 1, fenceFail := (rng b r).fenceFail || decide (s.nfail ≠ 0) } :=
    hu ▸ rng_updRing_same r _ b
  have hco : OnlyRing r b c := hu ▸ onlyRing_updRing r _ b
  generalize ht : ({ c with tdone := _ } : Block) = d
  have hdt : Tbl.get 0 d.tdone (rTenant (rng b r) * 64 + rSlot (rng b r)) = s.subid := by
    rw [← ht]
    exact Tbl.get_set_same 0 c.tdone _ s.subid
  have hdr : ∀ j, rng d j = rng c j := fun j => by rw [← ht]; rfl
  have stops : ∀ e, Only [.out] d e → (((rng (doneAdvance p r n e) r).subs = l ∧ (rng (doneAdvance p r n e) r).rptr = (rng b r).rptr + 1)
      ∧ Tbl.get 0 (doneAdvance p r n e).tdone (rTenant (rng b r) * 64 + rSlot (rng b r)) = s.subid) ∧ OnlyRing r b (doneAdvance p r n e) := by
    intro e hde
    have her : ∀ j, rng e j = rng c j := fun j => (hde.rng_eq rfl j).trans (hdr j)
    rw [doneAdvance_open (by rw [her, hcr]; exact hl), her, hcr, hde.kept .tdone rfl]
    exact ⟨⟨⟨rfl, rfl⟩, hdt⟩, fun j hj => (her j).trans (hco j hj)⟩
  cases s.note with
  | none => exact stops d (.refl _ _)
  | some n => exact stops _ (postW_only _ _ _ _ _ _ _ _)

/-- A submission with entries unsettled is not completed (R140). -/
theorem subCheck_unsettled (h : subOf b r i = some s) (hu : s.unsettled ≠ 0) : subCheck p r i b = b := by
  unfold subCheck
  rw [h]
  exact if_neg fun hc => hu hc.2.1

/-- An early end with entries unsettled, none of which can be stopped, and the walk elsewhere (R141). -/
theorem endSub_early (h : subOf b r i = some s) (st : Status) (hc : s.complete = false) (he : s.early = none) (hu : s.unsettled ≠ 0)
    (hw : (rng b r).walk.subid ≠ i) (hp : (rng b r).prePoint = none) (hs : stoppable b r i = []) :
    subOf (endSub p r i st b) r i = some { s with early := some st, walkEnded := true } ∧ OnlyRing r b (endSub p r i st b)
    ∧ Only [.rings] b (endSub p r i st b) := by
  unfold endSub
  rw [h]
  dsimp only
  rw [if_neg (by simp [hc, he])]
  generalize hd : updRing r _ (overSteps r _ _) = d
  have hfr : Only [.rings] b d := hd ▸ .next (updRing_only _ _ _) (by decide) (.next (overSteps_only _ _ _) (by decide)
    (.next (updSub_only _ _ _ _) (by decide) (overSub_only _ _ _)))
  have hor : OnlyRing r b d := by
    rw [← hd]
    exact .trans (.trans (.trans (onlyRing_updRing r _ b) (onlyRing_updRing r _ _)) (onlyRing_updRing r _ _)) (onlyRing_updRing r _ _)
  have hsub : (rng d r).subs = (withSub i (fun s => { s with early := some st, walkEnded := true }) (rng b r)).subs := by
    rw [← hd]
    unfold overSteps overSub
    rw [updSub_eq, rng_updRing_same, rng_updRing_same, rng_updRing_same, rng_updRing_same]
    rfl
  have hpre : (rng d r).prePoint = none := by
    rw [← hp, ← hd]
    unfold overSteps overSub
    rw [updSub_eq, rng_updRing_same, rng_updRing_same, rng_updRing_same, rng_updRing_same]
    rfl
  have hso : subOf d r i = some { s with early := some st, walkEnded := true } := by
    unfold subOf
    rw [hsub]
    exact find?_withSub _ (fun _ => rfl) h
  rw [if_pos (.inl hw), show stoppable d r i = [] by unfold stoppable; rw [hfr.kept .ents rfl]; exact hs]
  rw [show forEach ([] : List Nat) (cancelAt p (rHome (rng d r))) d = d from rfl, show voidPre p r i d = d by unfold voidPre; rw [hpre], subCheck_unsettled hso hu]
  exact ⟨hso, hor, hfr⟩

/-- A timeout ends its submission early and is logged (R143). -/
theorem timeOut_early (h : subOf b r s.subid = some s) (hc : s.complete = false) (he : s.early = none) (hu : s.unsettled ≠ 0)
    (hw : (rng b r).walk.subid ≠ s.subid) (hp : (rng b r).prePoint = none) (hs : stoppable b r s.subid = []) :
    subOf (timeOut p r s b) r s.subid = some { s with early := some 0x03, walkEnded := true } ∧ OnlyRing r b (timeOut p r s b)
    ∧ Tbl.get 0 (timeOut p r s b).log.cnt 0x03 = satAdd (2 ^ 32 - 1) (Tbl.get 0 b.log.cnt 0x03) 1 := by
  unfold timeOut
  dsimp only
  generalize hx : ({ ringLog b (.ward (rHome (rng b r))) 0x03 r s.subid with aux := _ } : LogRec) = x
  have hst : x.status = 0x03 := hx ▸ rfl
  have fr := logRec_only p x b
  have hl := logRec_counts_status p x b
  rw [hst] at hl
  generalize logRec p x b = c at fr hl
  have hr := fr.rng_eq rfl r
  obtain ⟨h1, h2, h3⟩ := endSub_early (p := p) (b := c) (by unfold subOf; rw [hr]; exact h) 0x03 hc he hu (by rw [hr]; exact hw) (by rw [hr]; exact hp)
    (by unfold stoppable; rw [fr.kept .ents rfl]; exact hs)
  exact ⟨h1, fun j hj => (h2 j hj).trans (fr.rng_eq rfl j), by rw [h3.kept .log rfl]; exact hl⟩

end

/-- Settles O35: the three ways to an early end, the oldest submission done, and the writes behind it. -/
theorem submissionsEnd : Obligations.SubmissionsEnd := by
  refine ⟨fun p q b r i st s hu hx h hc he hn hw hp hs => ?_, fun p q b r s hu h hf hn hw hp hs => ?_,
    fun p q b r s hu h hf hn hw hp hs => ?_, fun p q b r s l hu hl hc hst hd hne => ?_, fun p q b r i s l hu h hq ho => ?_,
    fun p q b r i hu => ?_, fun p q b r i hu => ?_⟩
  · refine takes_run (g := fun p b => wardUp p b (rHome (rng b r))) (actCommandFaultNotice r) (fun _ => rfl) (fun _ => rfl) hu ?_
    dsimp only
    rw [hx]
    dsimp only
    generalize hm : xrx _ 16 (xdrop (isFault r) b) = c
    have hbc : Only [.cnt, .xbar] b c := hm ▸ .next (xrx_only _ _ _) (by decide) (.mono (xdrop_only _ _) (by decide))
    have hxb : c.xbar = b.xbar.eraseP (isFault r) := hm ▸ (xrx_only _ _ _).kept .xbar rfl
    generalize hm2 : when _ _ c = d
    have hcd : Only [.regs, .cnt, .log, .trace, .out] c d := hm2 ▸ .when (fun c => logRec_only _ _ c) (.refl _ _)
    have hr : ∀ j, rng d j = rng b j := fun j => (hcd.rng_eq rfl j).trans (hbc.rng_eq rfl j)
    obtain ⟨h1, h2, h3⟩ := endSub_early (p := p) (b := d) (by unfold subOf; rw [hr]; exact h) st hc he hn (by rw [hr]; exact hw) (by rw [hr]; exact hp)
      (by unfold stoppable; rw [hcd.kept .ents rfl, hbc.kept .ents rfl]; exact hs)
    exact ⟨h1, by rw [h3.kept .xbar rfl, hcd.kept .xbar rfl, hxb], fun j hj => (h2 j hj).trans (hr j)⟩
  · refine takes_run (g := fun p b => wardUp p b (rHome (rng b r))) (actRingTimeout r) (fun _ => rfl) (fun _ => rfl) hu ?_
    rw [hf]
    have hfs := List.find?_some hf
    simp only [Bool.and_eq_true, Bool.not_eq_true', Option.isNone_iff_eq_none] at hfs
    exact timeOut_early h hfs.1.1 hfs.1.2 hn hw hp hs
  · refine takes_run (g := fun p b => wardUp p b (rHome (rng b r))) (actStepTimeout r) (fun _ => rfl) (fun _ => rfl) hu ?_
    rw [hf]
    have hfs := List.find?_some hf
    simp only [Bool.and_eq_true, Bool.not_eq_true', Option.isNone_iff_eq_none] at hfs
    exact timeOut_early h hfs.1.1 hfs.1.2 hn hw hp hs
  · refine takes_run (g := fun p b => wardUp p b (rHome (rng b r))) (actStatusBlockWriteResponse r s.subid .okay) (fun _ => rfl) (fun _ => rfl) hu ?_
    have hso : subOf b r s.subid = some s := by
      unfold subOf
      rw [hl, List.find?_cons_of_pos (by simp)]
    rw [hso]
    dsimp only
    rw [if_pos hst, show writeFault p r s.subid .okay b = b from rfl, updSub_eq]
    have hub := RingSet.upd (withSub s.subid fun s => { s with statusWr := .done }) (List.mem_singleton_self BlockPart.rings) (.refl [.rings] r b)
    generalize updRing r (withSub s.subid fun s => { s with statusWr := .done }) b = c at hub
    obtain ⟨hg, ho, hf⟩ := hub
    have hsub : (rng c r).subs = { s with statusWr := .done } :: l := by
      rw [hg, withSub, hl, List.map_cons, if_pos rfl]
      exact congrArg _ ((List.map_congr_left fun x hx => if_neg (hne x hx).2).trans (List.map_id _))
    obtain ⟨h1, h2, h3, h4, h5⟩ := doneAdvance_oldest (p := p) hsub hc WrSt.noConfusion hd
      (fun x hx => (hne x (List.mem_of_mem_head? hx)).1) l.length
    rw [show (rng b r).subs.length = l.length + 1 by rw [hl]; rfl]
    refine ⟨h1, h2.trans (by rw [hg]; rfl), ?_, ho.trans h4, .next h5 (by decide) (.mono hf (by decide))⟩
    rw [← h3, hg]
    rfl
  · refine takes_run (g := fun p b => wardUp p b (rHome (rng b r))) (actDigestWriteResponse r i .okay) (fun _ => rfl) (fun _ => rfl) hu ?_
    dsimp only
    rw [h, Option.bind_some, hq]
    dsimp only [List.head?]
    rw [show writeFault p r i .okay b = b from rfl, updSub_eq]
    have hub := RingSet.upd (withSub i fun s => { s with digestQ := s.digestQ.tail, digests := s.digests - 1 }) (List.mem_singleton_self BlockPart.rings)
      (.refl [.rings] r b)
    generalize updRing r (withSub i fun s => { s with digestQ := s.digestQ.tail, digests := s.digests - 1 }) b = c at hub
    obtain ⟨hg, hor, hf⟩ := hub
    have hopen : ∀ x ∈ (rng c r).subs.head?, x.complete = false := fun x hx => by
      have hm := List.mem_of_mem_head? hx
      rw [hg, withSub] at hm
      obtain ⟨y, hy, rfl⟩ := List.mem_map.mp hm
      split <;> exact ho y hy
    rw [doneAdvance_open hopen]
    refine ⟨?_, hor, hf⟩
    unfold subOf
    rw [hg]
    refine (find?_withSub (fun s => { s with digestQ := s.digestQ.tail, digests := s.digests - 1 }) (fun _ => rfl) h).trans ?_
    rw [hq]
    rfl
  · exact takes_run (g := fun p b => wardUp p b (rHome (rng b r))) (actNoteWriteResponse r i .okay) (fun _ => rfl) (fun _ => rfl) hu rfl
  · refine takes_run (g := fun p b => wardUp p b (rHome (rng b r))) (actNoteWriteResponse r i .fault) (fun _ => rfl) (fun _ => rfl) hu ?_
    exact ⟨logRec_counts_status p (ringLog b (.ward (rHome (rng b r))) 0x06 r i) b, writeFault_only _ _ _ _ _⟩

end Sys2Proof.Machine
end

section
/-! PROOFS. Submission records accepted, and the wait for another submission (R117 to R120). -/

namespace Sys2Proof.Machine

section
variable {p : Params} {b c d : Block} {r : Nat} {x : BitVec 512}

/-! ## What completing a submission leaves of its ring -/

/-- FPTR and the expected number of a ring are kept, every other ring, and the log. -/
def SamePlace (r : Nat) (b c : Block) : Prop :=
  ((rng c r).fptr = (rng b r).fptr ∧ (rng c r).expSub = (rng b r).expSub) ∧ OnlyRing r b c ∧ c.log = b.log

theorem SamePlace.refl (r : Nat) (b : Block) : SamePlace r b b := ⟨⟨rfl, rfl⟩, fun _ _ => rfl, rfl⟩

theorem SamePlace.upd (f : Ring → Ring) (hf : ∀ g, (f g).fptr = g.fptr ∧ (f g).expSub = g.expSub) (h : SamePlace r b c) :
    SamePlace r b (updRing r f c) := by
  obtain ⟨⟨h1, h2⟩, h3, h4⟩ := h
  have e := rng_updRing_same r f c
  exact ⟨⟨(congrArg Ring.fptr e).trans ((hf _).1.trans h1), (congrArg Ring.expSub e).trans ((hf _).2.trans h2)⟩,
    h3.trans (onlyRing_updRing r f c), ((updRing_only r f c).kept .log rfl).trans h4⟩

theorem SamePlace.next {l : List BlockPart} (ho : Only l c d) (hr : decide (BlockPart.rings ∈ l) = false) (hl : decide (BlockPart.log ∈ l) = false)
    (h : SamePlace r b c) : SamePlace r b d := by
  obtain ⟨⟨h1, h2⟩, h3, h4⟩ := h
  have e := ho.rng_eq hr r
  exact ⟨⟨(congrArg Ring.fptr e).trans h1, (congrArg Ring.expSub e).trans h2⟩, h3.next ho hr, (ho.kept .log hl).trans h4⟩

theorem set_tdone_only (v : Tbl Word32) (b : Block) : Only [.tdone] b { b with tdone := v } :=
  Only.update (by intro f hf; cases f <;> first | exact absurd (by decide) hf | rfl) (.refl _ _)

theorem SamePlace.doneAdvance (n : Nat) (h : SamePlace r b c) : SamePlace r b (Machine.doneAdvance p r n c) := by
  induction n generalizing c with
  | zero => exact h
  | succ n ih =>
    unfold Machine.doneAdvance
    dsimp only
    cases (rng c r).subs with
    | nil => exact h
    | cons s l =>
      dsimp only
      split
      · refine ih ?_
        have hu := fun v => SamePlace.next (set_tdone_only v _) rfl rfl (h.upd (fun g => { g with
          subs := l, rptr := g.rptr + 1, fenceFail := g.fenceFail || decide (s.nfail ≠ 0) }) fun _ => ⟨rfl, rfl⟩)
        cases s.note with
        | none => exact hu _
        | some n => exact SamePlace.next (postW_only _ _ _ _ _ _ _ _) rfl rfl (hu _)
      · exact h

theorem SamePlace.subCheck (i : Word32) (h : SamePlace r b c) : SamePlace r b (Machine.subCheck p r i c) := by
  unfold Machine.subCheck
  dsimp only
  split
  · exact h
  · split
    · refine SamePlace.doneAdvance _ (SamePlace.next (markCommit_only _ _) rfl rfl (SamePlace.next (closeOwned_only _ _) rfl rfl ?_))
      refine SamePlace.next (.when (fun c => postW_only _ _ _ _ _ _ _ c) (.refl _ _)) rfl rfl ?_
      unfold updSub overSub
      exact SamePlace.upd _ (fun _ => ⟨rfl, rfl⟩) (SamePlace.upd _ (fun _ => ⟨rfl, rfl⟩) h)
    · exact h

theorem SamePlace.startNext (h : SamePlace r b c) : SamePlace r b (Machine.startNext r c) := by
  unfold Machine.startNext
  dsimp only
  split
  · exact SamePlace.upd _ (fun _ => ⟨rfl, rfl⟩) h
  · exact SamePlace.upd _ (fun _ => ⟨rfl, rfl⟩) h

/-! ## The record -/

/-- The ring that has accepted a record as submission `s` (R118). -/
def taken (s : Sub) (g : Ring) : Ring :=
  { g with subs := g.subs ++ [s], fptr := g.fptr + 1, recNo := g.recNo + 1, expSub := g.expSub + 1, recRead := false, repollAt := none,
           cancelTo := g.cancelTo.filter (fun n => g.recNo + 1 < n) }

theorem takeRec_eq (st : Option Status) (b : Block) :
    takeRec p r x false st b = subCheck p r (rng b r).expSub (when (decide ((rng b r).walk.mode = .idle)) (startNext r)
      (progress r (updRing r (taken { subOfRec b r x false with early := st, walkEnded := st.isSome }) b))) := by
  have e (s : Sub) : (rng (progress r (updRing r (taken s) b)) r).walk = (rng b r).walk := by
    rw [rng_progress, rng_updRing_same]
    rfl
  rw [← e { subOfRec b r x false with early := st, walkEnded := st.isSome }]
  rfl

/-- A record accepted as a submission that is to be walked is found in its ring (R118). -/
theorem subOf_taken {g : Ring} (h : ∀ s ∈ g.subs, s.subid ≠ g.expSub) {s : Sub} (hs : s.subid = g.expSub) :
    (taken s g).subs.find? (fun s => s.subid = g.expSub) = some s := by
  unfold taken
  rw [List.find?_append, List.find?_eq_none.mpr fun y hy => by simpa using h y hy, Option.none_or, List.find?_cons_of_pos (by simpa using hs)]

/-- A submission that is still to be walked is not completed. -/
theorem subCheck_walked {i : Word32} {s : Sub} (h : subOf b r i = some s) (hw : s.walkEnded = false) : subCheck p r i b = b := by
  unfold subCheck
  rw [h]
  exact if_neg fun hc => by simp [hw] at hc

/-- A good record behind a walk under way (R118). -/
theorem takeRec_behind (h : ∀ s ∈ (rng b r).subs, s.subid ≠ (rng b r).expSub) (hm : (rng b r).walk.mode ≠ .idle) :
    takeRec p r x false none b = progress r (updRing r (taken (subOfRec b r x false)) b) := by
  rw [takeRec_eq, decide_eq_false hm, when_false]
  refine subCheck_walked (s := subOfRec b r x false) ?_ rfl
  unfold subOf
  rw [rng_progress, rng_updRing_same]
  exact subOf_taken h rfl

/-- A good record at an idle walk, which begins with it (R118, R120). -/
theorem takeRec_idle (h : ∀ s ∈ (rng b r).subs, s.subid ≠ (rng b r).expSub ∧ s.walkEnded = true) (hm : (rng b r).walk.mode = .idle) :
    takeRec p r x false none b = updWalk r (fun _ => {
      mode := if waitOver b (rTenant (rng b r)) (recWait x) then .header else .waitSub
      off := bf x 0x10 0 32, subid := (rng b r).expSub, since := b.clk.ts }) (progress r (updRing r (taken (subOfRec b r x false)) b)) := by
  rw [takeRec_eq, decide_eq_true hm, when_true]
  change subCheck p r _ (startNext r (progress r (updRing r (taken (subOfRec b r x false)) b))) = _
  generalize hc : progress r (updRing r (taken (subOfRec b r x false)) b) = c
  have hr : rng c r = calm (taken (subOfRec b r x false) (rng b r)) := by
    rw [← hc, rng_progress, rng_updRing_same]
  have hs : startNext r c = updWalk r (fun _ => {
      mode := if waitOver b (rTenant (rng b r)) (recWait x) then .header else .waitSub
      off := bf x 0x10 0 32, subid := (rng b r).expSub, since := b.clk.ts }) c := by
    unfold startNext
    dsimp only
    have hf : (rng c r).subs.find? (fun s => !s.walkEnded) = some (subOfRec b r x false) := by
      rw [hr]
      exact (List.find?_append).trans (by
        rw [List.find?_eq_none.mpr fun y hy => by simp [(h y hy).2], Option.none_or]
        rfl)
    rw [hf, hr, ← hc]
    rfl
  rw [hs]
  refine subCheck_walked (s := subOfRec b r x false) ?_ rfl
  unfold subOf
  rw [rng_updWalk_same, hr]
  exact subOf_taken (fun s hs => (h s hs).1) rfl

/-- The pointers move on with every record, however the submission ends (R118). -/
theorem takeRec_pointers (st : Option Status) (b : Block) :
    (rng (takeRec p r x false st b) r).fptr = (rng b r).fptr + 1 ∧ (rng (takeRec p r x false st b) r).expSub = (rng b r).expSub + 1
    ∧ OnlyRing r b (takeRec p r x false st b) ∧ (takeRec p r x false st b).log = b.log := by
  rw [takeRec_eq]
  generalize hc : updRing r (taken _) b = c
  have hr : (rng c r).fptr = (rng b r).fptr + 1 ∧ (rng c r).expSub = (rng b r).expSub + 1 := by
    rw [← hc, rng_updRing_same]
    exact ⟨rfl, rfl⟩
  have ho : OnlyRing r b c := hc ▸ onlyRing_updRing r _ b
  have hp : SamePlace r c (progress r c) := SamePlace.upd _ (fun _ => ⟨rfl, rfl⟩) (.refl r c)
  have hw : SamePlace r c (when (decide ((rng b r).walk.mode = .idle)) (startNext r) (progress r c)) := by
    unfold Machine.when
    split
    · exact hp.startNext
    · exact hp
  obtain ⟨⟨h1, h2⟩, h3, h4⟩ := hw.subCheck (p := p) (rng b r).expSub
  exact ⟨h1.trans hr.1, h2.trans hr.2, ho.trans h3, h4.trans (hc ▸ (updRing_only r _ b).kept .log rfl)⟩

end

/-- Settles O28: the record behind a walk, at an idle walk, and a bad one; then the wait that is over. -/
theorem recordsAccepted : Obligations.RecordsAccepted := by
  refine ⟨fun p q b r x hu he hr hh ha hc hp hb hs hm => ?_, fun p q b r x hu he hr hh ha hc hp hb hs hm => ?_,
    fun p q b r x hu he hr hh ha hc hp hb => ?_, fun p q b r hu hm hw ho => ?_⟩
  · refine takes_run (g := fun p b => wardUp p b (rHome (rng b r))) (actRecordAccept r x) (fun _ => rfl) (fun _ => rfl) hu ?_
    dsimp only
    rw [if_pos ⟨he, hr, hh, ha⟩, if_neg (Bool.eq_false_iff.mp hc), if_neg (by simp [hp]), if_neg (Bool.eq_false_iff.mp hb), takeRec_behind hs hm]
    obtain ⟨h1, h2, h3⟩ := ((RingSet.refl [.rings] r b).upd (taken (subOfRec b r x false)) (by decide)).progress (by decide)
    exact ⟨by rw [h1]; rfl, by rw [h1]; rfl, by rw [h1]; rfl, by rw [h1]; rfl, h2, h3⟩
  · refine takes_run (g := fun p b => wardUp p b (rHome (rng b r))) (actRecordAccept r x) (fun _ => rfl) (fun _ => rfl) hu ?_
    dsimp only
    rw [if_pos ⟨he, hr, hh, ha⟩, if_neg (Bool.eq_false_iff.mp hc), if_neg (by simp [hp]), if_neg (Bool.eq_false_iff.mp hb), takeRec_idle hs hm]
    obtain ⟨h1, h2, h3⟩ := (((RingSet.refl [.rings] r b).upd (taken (subOfRec b r x false)) (by decide)).progress (by decide)).walk
      (fun _ => { mode := if waitOver b (rTenant (rng b r)) (recWait x) then .header else .waitSub,
                  off := bf x 0x10 0 32, subid := (rng b r).expSub, since := b.clk.ts }) (by decide)
    exact ⟨by rw [h1], h2, h3⟩
  · refine takes_run (g := fun p b => wardUp p b (rHome (rng b r))) (actRecordAccept r x) (fun _ => rfl) (fun _ => rfl) hu ?_
    dsimp only
    rw [if_pos ⟨he, hr, hh, ha⟩, if_neg (Bool.eq_false_iff.mp hc), if_neg (by simp [hp]), if_pos hb]
    unfold badRec
    dsimp only
    have hl := logRec_only p (ringLog b (.ward (rHome (rng b r))) 0x13 r (rng b r).expSub) b
    have hn := logRec_counts_status p (ringLog b (.ward (rHome (rng b r))) 0x13 r (rng b r).expSub) b
    generalize logRec p (ringLog b (.ward (rHome (rng b r))) 0x13 r (rng b r).expSub) b = c at hl hn
    have hk := capture_only p r 0 0x13 0 (recAddr (rng b r)) x c
    generalize capture p r 0 0x13 0 (recAddr (rng b r)) x c = d at hk
    have hrd : ∀ j, rng d j = rng b j := fun j => (hk.rng_eq rfl j).trans (hl.rng_eq rfl j)
    obtain ⟨h1, h2, h3, h4⟩ := takeRec_pointers (p := p) (r := r) (x := x) (some 0x13) d
    refine ⟨h1.trans (by rw [hrd]), h2.trans (by rw [hrd]), ?_, fun j hj => (h3 j hj).trans (hrd j)⟩
    rw [h4, hk.kept .log rfl]
    exact hn
  · refine takes_run (g := fun p b => wardUp p b (rHome (rng b r))) (actWaitsubRelease r) (fun _ => rfl) (fun _ => rfl) hu ?_
    dsimp only
    rw [if_pos ⟨hm, hw, ho⟩]
    exact ((RingSet.refl [.rings] r b).walk (fun k => { k with mode := .header }) (by decide)).progress (by decide)

end Sys2Proof.Machine
end

section
/-! PROOFS. The fetching of ring records and image blocks (R35, R110 to R113, R121, R122, R146). -/

namespace Sys2Proof.Machine

section
variable {p : Params} {b c : Block} {r w : Nat}

/-! ## The ring that is served first -/

/-- The order of R122 has no two rings each before the other. -/
theorem fetchBefore_asymm {x y : Nat} (h : fetchBefore b x y = true) : fetchBefore b y x = false := by
  unfold fetchBefore at h ⊢
  dsimp only at h ⊢
  by_cases h1 : b2n (walkWaits (rng b x)) = b2n (walkWaits (rng b y))
  · by_cases h2 : buffered b x = buffered b y
    · rw [if_neg (not_not_intro h1), if_neg (not_not_intro h2), decide_eq_true_eq] at h
      rw [if_neg (not_not_intro h1.symm), if_neg (not_not_intro h2.symm), decide_eq_false_iff_not]
      omega
    · rw [if_neg (not_not_intro h1), if_pos h2, decide_eq_true_eq] at h
      rw [if_neg (not_not_intro h1.symm), if_pos (Ne.symm h2), decide_eq_false_iff_not]
      omega
  · rw [if_pos h1, decide_eq_true_eq] at h
    rw [if_pos (Ne.symm h1), decide_eq_false_iff_not]
    omega

/-- Of two candidates the one that stays. -/
def sooner (b : Block) (a : Option Nat) (x : Nat) : Option Nat :=
  match a with
  | none => some x
  | some q => if fetchBefore b x q then some x else some q

/-- A candidate before every other one is the one that stays of all. -/
theorem foldl_sooner {l : List Nat} (hf : ∀ x ∈ l, x ≠ r → fetchBefore b r x = true) {a : Option Nat}
    (ha : ∀ x ∈ a, x ≠ r → fetchBefore b r x = true) (hr : r ∈ l ∨ a = some r) : l.foldl (sooner b) a = some r := by
  induction l generalizing a with
  | nil => exact hr.resolve_left List.not_mem_nil
  | cons x l ih =>
    have hfl : ∀ y ∈ l, y ≠ r → fetchBefore b r y = true := fun y hy => hf y (List.mem_cons_of_mem _ hy)
    have hx := hf x List.mem_cons_self
    have hs : sooner b a x = some x ∨ sooner b a x = a := by
      unfold sooner
      cases a with
      | none => exact .inl rfl
      | some q =>
        dsimp only
        split
        · exact .inl rfl
        · exact .inr rfl
    have hmem : ∀ y ∈ sooner b a x, y ≠ r → fetchBefore b r y = true := fun y hy => by
      rcases hs with h | h
      · rw [h] at hy
        exact Option.mem_some.mp hy ▸ hx
      · exact ha y (h ▸ hy)
    refine ih hfl hmem ?_
    by_cases hxr : x = r
    · subst hxr
      refine .inr ?_
      unfold sooner
      cases a with
      | none => rfl
      | some q =>
        dsimp only
        by_cases hq : q = x
        · rw [hq, ite_self]
        · rw [if_pos (ha q rfl hq)]
    · refine hr.imp (fun h => (List.mem_cons.mp h).resolve_left (Ne.symm hxr)) fun h => ?_
      rw [h]
      exact if_neg (Bool.eq_false_iff.mp (fetchBefore_asymm (hx hxr)))

/-- The ring of a Ward that wants a read, before every other such ring, is served (R35, R122). -/
theorem fetchNext_first (hm : r ∈ b.rings.map Prod.fst) (hw : rHome (rng b r) = w) (hs : (fetchWant b r).isSome)
    (hf : ∀ x, x ∈ b.rings.map Prod.fst → rHome (rng b x) = w → (fetchWant b x).isSome → x ≠ r → fetchBefore b r x) :
    fetchNext b w = some r := by
  unfold fetchNext
  refine foldl_sooner (a := none) (fun x hx hne => ?_) (fun x hx => absurd hx (Option.not_mem_none x)) (.inl ?_)
  · obtain ⟨h1, h2⟩ := List.mem_filter.mp hx
    rw [decide_eq_true_eq] at h2
    exact hf x h1 h2.1 h2.2 hne
  · exact List.mem_filter.mpr ⟨hm, decide_eq_true ⟨hw, hs⟩⟩

/-- A read of a ring's block: the ring it leaves, and the read itself (R121). -/
theorem fetched (f : Ring → Ring) (a : Nat) {g : Ring} (hg : g = rng b r) :
    rng (mpR p (rHome g) a (rTenant g) (rBe g) (updRing r f b)) r = f (rng b r)
    ∧ (mpR p (rHome g) a (rTenant g) (rBe g) (updRing r f b)).out
      = b.out ++ [.mpRead (.ward (rHome g)) a (tenAx p b (.ward (rHome g)) (rTenant (rng b r)) (rBe (rng b r)))]
    ∧ OnlyRing r b (mpR p (rHome g) a (rTenant g) (rBe g) (updRing r f b))
    ∧ Only [.rings, .out] b (mpR p (rHome g) a (rTenant g) (rBe g) (updRing r f b)) := by
  subst hg
  have h := (RingSet.refl [.rings, .out] r b).upd f (by decide)
  obtain ⟨h1, h2, h3⟩ := h.next (mpR_only p (rHome (rng b r)) a (rTenant (rng b r)) (rBe (rng b r)) (updRing r f b)) rfl (by decide)
  exact ⟨h1, rfl, h2, h3⟩

/-- The fetch of a Ward whose first ring is known. -/
theorem takes_fetch {q : List Instr} {Q : Block → Prop} (hu : wardUp p b w = true) (h : fetchNext b w = some r) (hQ : Q (fetchOne p r b)) :
    Takes (.ringFetch w) p q b Q := by
  refine takes_runW (actRingFetch w) (fun _ => rfl) (fun _ => rfl) hu ?_
  rw [h]
  exact hQ

/-- A disabled ring reads no record (R110). -/
theorem fetchWant_of_disabled (h : (rng b r).enable = false) (a : Nat) : fetchWant b r ≠ some (.record a) := by
  have hn : recWant (rng b r) = none := by
    unfold recWant
    rw [h]
    rfl
  unfold fetchWant
  dsimp only
  rw [hn]
  split
  · exact (Option.some_ne_none _).symm
  · cases (rng b r).walk.want with
    | cons a l => simp
    | nil => cases imgWant b r with
      | none => simp
      | some a =>
        dsimp only
        split <;> simp

/-! ## A translation fault -/

/-- A record of a Ward is buffered there: no register changes (R288). -/
theorem logRec_of_ward (x : LogRec) {v : Nat} (h : x.src = .ward v) (b : Block) : Only [.cnt, .log, .trace] b (logRec p x b) := by
  unfold logRec
  dsimp only
  rw [h]
  dsimp only
  split
  all_goals exact .next (updLog_only _ _) (by decide) (.next (trForm_only _ _ _ _) (by decide) (.mono (updLog_only _ _) (by decide)))

/-- A bit of a Ward's interrupt word that is raised is set. -/
theorem bitAt_raiseW {i : Nat} (hi : i < 32) (v : Nat) (b : Block) : bitAt (rd p (raiseW p v i b) (wIrq v)) i = true := by
  unfold raiseW
  rw [rd_raise]
  exact bitAt_rd_setBits_same p (wIrq v) b hi

/-- A ring that a translation fault halts keeps its place, and its Ward's interrupt is set (R146). -/
theorem haltRing_halts (k : Nat) (x : BitVec 512) (va : Nat) (b : Block) :
    rng (haltRing p r k x va b) r
      = { rng b r with haltKind := k, halt := 0x06, recRead := false, walk := { (rng b r).walk with since := b.clk.ts } }
    ∧ OnlyRing r b (haltRing p r k x va b) ∧ bitAt (rd p (haltRing p r k x va b) (wIrq (rHome (rng b r)))) 1 = true := by
  unfold haltRing
  dsimp only
  generalize hc : updRing r _ b = c
  have hcr : rng c r = { rng b r with haltKind := k, halt := 0x06, recRead := false, walk := { (rng b r).walk with since := b.clk.ts } } :=
    hc ▸ rng_updRing_same r _ b
  have hco : OnlyRing r b c := hc ▸ onlyRing_updRing r _ b
  generalize hd : raiseW p (rHome (rng b r)) 1 c = d
  have hcd : Only [.regs, .out] c d := hd ▸ raiseW_only _ _ _ _
  have hbit : bitAt (rd p d (wIrq (rHome (rng b r)))) 1 = true := hd ▸ bitAt_raiseW (by decide) _ c
  have hl := logRec_of_ward (p := p) (ringLog d (.ward (rHome (rng b r))) 0x06 r (rng b r).walk.subid) rfl d
  generalize logRec p (ringLog d (.ward (rHome (rng b r))) 0x06 r (rng b r).walk.subid) d = e at hl
  have fr := Only.next (capture_only p r k 0x06 (rng b r).walk.off va x (trRing p (.ward (rHome (rng b r))) 0x22 r 0x06 (BitVec.ofNat 32 r) e))
    (show ∀ f ∈ [BlockPart.ports, .cap, .out], f ∈ [BlockPart.cnt, .ports, .log, .cap, .trace, .out] by decide)
    (.next (trRing_only _ _ _ _ _ _ _) (by decide) (.mono hl (by decide)))
  refine ⟨(fr.rng_eq rfl r).trans ((hcd.rng_eq rfl r).trans hcr), fun j hj => (fr.rng_eq rfl j).trans ((hcd.rng_eq rfl j).trans (hco j hj)), ?_⟩
  rw [rd_congr (fr.kept .regs rfl)]
  exact hbit

end

/-- Settles O27: the first ring's fetch by what it reads, the responses, the repoll, and the descriptor's writes. -/
theorem ringFetch : Obligations.RingFetch := by
  refine ⟨fun p q b w r a hu hm hw ha hf => ?_, fun p q b w r a hu hm hw ha hf => ?_, fun p q b w r a hu hm hw ha hf => ?_,
    fun p q b r x hu hr hp hc => ?_, fun p q b r x hu hr => ?_, fun p q b r x hu hg hh => ?_, fun p q b r x hu hg hh => ?_,
    fun p q b r t c hu hr ht he hh hc hn => ?_, fun p q b r t c a hu hr ht he hh hc hn ha => ?_, fun p q b hf ht hh he hbad => ?_,
    fun p q b hf ht hh => ?_, fun p q b v hf ht hh he hs => ?_⟩
  · refine takes_fetch hu (fetchNext_first hm hw (ha ▸ rfl) hf) ?_
    unfold fetchOne
    rw [ha]
    exact hw ▸ fetched _ a rfl
  · refine takes_fetch hu (fetchNext_first hm hw (ha ▸ rfl) hf) ?_
    unfold fetchOne
    rw [ha]
    exact hw ▸ fetched _ a rfl
  · refine takes_fetch hu (fetchNext_first hm hw (ha ▸ rfl) hf) ?_
    unfold fetchOne
    rw [ha]
    exact hw ▸ fetched _ a rfl
  · refine takes_run (g := fun p b => wardUp p b (rHome (rng b r))) (actRingFetchResponse r .record .okay x) (fun _ => rfl) (fun _ => rfl) hu ?_
    dsimp only
    rw [if_pos hr, if_pos ⟨hp, by rw [hc]; exact Bool.false_ne_true⟩]
    exact ((RingSet.refl [.cnt, .rings] r b).next (bump_only _ _ _) rfl (by decide)).upd _ (by decide)
  · refine takes_run (g := fun p b => wardUp p b (rHome (rng b r))) (actRingFetchResponse r .record .fault x) (fun _ => rfl) (fun _ => rfl) hu ?_
    dsimp only
    rw [if_pos hr]
    exact haltRing_halts 1 0 _ b
  · refine takes_run (g := fun p b => wardUp p b (rHome (rng b r))) (actRingFetchResponse r .image .okay x) (fun _ => rfl) (fun _ => rfl) hu ?_
    dsimp only
    rw [if_pos ⟨hg, hh⟩]
    exact (RingSet.refl [.rings] r b).upd _ (by decide)
  · refine takes_run (g := fun p b => wardUp p b (rHome (rng b r))) (actRingFetchResponse r .image .fault x) (fun _ => rfl) (fun _ => rfl) hu ?_
    dsimp only
    rw [if_pos ⟨hg, hh⟩]
    obtain ⟨h1, h2, -⟩ := haltRing_halts (p := p) (r := r) 2 0 (rng b r).gotOff (updRing r (fun g => { g with fetchOff := g.gotOff }) b)
    rw [h1, rng_updRing_same]
    exact ⟨rfl, rfl, rfl, rfl, (onlyRing_updRing r _ b).trans h2⟩
  · refine takes_run (g := fun p b => wardUp p b (rHome (rng b r))) (actRingRepoll r) (fun _ => rfl) (fun _ => rfl) hu ?_
    dsimp only
    rw [hr]
    dsimp only
    rw [if_pos ⟨ht, he, hh⟩, ← hc, show rHome (rng c r) = rHome (rng b r) by rw [hc, rng_updRing_same]; rfl, decide_eq_false hn, when_false]
  · refine takes_run (g := fun p b => wardUp p b (rHome (rng b r))) (actRingRepoll r) (fun _ => rfl) (fun _ => rfl) hu ?_
    dsimp only
    rw [hr]
    dsimp only
    have hcr : rng c r = { rng b r with repollAt := none } := hc ▸ rng_updRing_same r _ b
    rw [if_pos ⟨ht, he, hh⟩, ← hc, show rHome (rng c r) = rHome (rng b r) by rw [hcr]; rfl, decide_eq_true hn, when_true]
    unfold fetchOne
    rw [ha]
    obtain ⟨h1, h2, h3, h4⟩ := fetched (p := p) (b := c) (r := r) (fun g => { g with recRead := true }) a rfl
    have hbc : Only [.rings] b c := hc ▸ updRing_only _ _ _
    refine ⟨h1.trans (by rw [hcr]), h2.trans ?_, (hc ▸ onlyRing_updRing r _ b : OnlyRing r b c).trans h3, .next h4 (by decide) (.mono hbc (by decide))⟩
    rw [hcr, hc]
    rfl
  · refine takes_keeperReg (fun _ => rfl) hf (.inr ht) ?_
    rw [ringWrite_enable (by exact hh), show bitAt (1 : Word32) 0 = true from rfl]
    rw [writeEnable_good (by exact he) (by exact hbad)]
    refine ⟨?_, fun k => Tbl.get_set 0 b.tdone _ _ k, fun k hk => enableRing_rng_ne _ hk, .next (dropHeld_only _ _) (by decide)
      (.next (enableRing_only _ _) (by decide) (.mono (mgtResp_only _ _) (by decide)))⟩
    refine (congrArg recAddr (enableRing_rng (ringSel p b) (mgtResp .okay b))).trans ?_
    simp only [recAddr, enabled, Nat.zero_mod, Nat.zero_mul, Nat.add_zero]
    rfl
  · refine takes_keeperReg (fun _ => rfl) hf (.inr ht) ?_
    rw [ringWrite_enable (by exact hh), show bitAt (0 : Word32) 0 = false from rfl]
    obtain ⟨h1, h2, h3⟩ := written_updRing [kA 1 0x058 / 0x1000] (ringSel p b) (fun g => { g with enable := false, recRead := false, repollAt := none }) b
    exact ⟨fun a => fetchWant_of_disabled (congrArg Ring.enable h1) a, (congrArg Ring.subs h1).trans rfl, (congrArg Ring.walk h1).trans rfl, h2, h3⟩
  · refine takes_keeperReg (fun _ => rfl) hf (.inr ht) ?_
    rw [ringWrite_free v (by exact hh) (by decide) (by exact he) (by exact hs)]
    obtain ⟨h1, h2, h3⟩ := written_updRing [kA 1 (0x044 + 4 * 0) / 0x1000] (ringSel p b) (withWord 0 v) b
    exact ⟨(congrArg rBase h1).trans rfl, h2, h3⟩

end Sys2Proof.Machine
end
